-- ==== Sys2Proof/Word.lean ====
section
/-! DEFINITION. The word types of the part: registers are 32 bits wide (R10), frames and memories are bytes. -/
namespace Sys2Proof

/-- A byte of a frame, a descriptor or a memory. -/
abbrev Byte := BitVec 8

/-- A register (R10). -/
abbrev Word := BitVec 32

/-- A port or lane number, 0 to 143 (R17). -/
abbrev Port := Fin 144

/-- A station number, S0 to S11. -/
abbrev Station := Fin 12

/-- A Guild number, G0 to G7. -/
abbrev Guild := Fin 8

end Sys2Proof
end

