-- ==== Sys2Proof/Syntax.lean ====
section
/-! DEFINITION. The commands of the part: one constructor of `Instr` for each row of spec/opcode_table.json, with what
the outside (a host, a link partner, a pin, a timer's expiry) brings to it as its operands, and the types of those
operands. A command stands for the occurrence of its row's operation or event (DESIGN CHOICE, log 1). -/
namespace Sys2Proof

/-- Who accesses registers (R10): the host of a PCIe link, a housekeeping engine, or the boot block. -/
inductive Requester where
  | link (k : Fin 4)
  | hk (e : Fin 4)
  | boot
  deriving DecidableEq, Repr

/-- An engine that executes microwords: an action engine of a station, or a housekeeping engine. -/
inductive EngineRef where
  | ae (st : Station) (e : Fin 24)
  | hk (e : Fin 4)
  deriving DecidableEq, Repr

/-- What happens at the test port (R450): a cycle of TCK with a level of TMS, or TRST_N is driven low. -/
inductive TapInput where
  | cycle (tms : Bool)
  | trst
  deriving DecidableEq, Repr

/-- The registers whose values a port stages while it is enabled (R60). -/
inductive StageReg where
  | cfg | adv | txeq
  deriving DecidableEq, Repr

/-- One mPacket of IEEE 802.3 Clause 99 as received (R91, R95): a start or a continuation, its frame count, its
fragment count (0 in a start), its bytes, and whether it ends the frame. -/
structure MPacket where
  start : Bool
  frameCount : Fin 4
  fragCount : Fin 4
  bytes : List Byte
  last : Bool
  deriving DecidableEq, Repr

/-- What a port receives at the end of a frame: its bytes from the destination address to the last byte before the
FCS, whether its FCS matches them, whether a code error or an uncorrectable codeword overlaps it, whether the port lost
its link or was disabled during it, the mPackets in which it came (none: at the express MAC, or without a merge
sublayer), how long before its completion its first bit arrived, in 1/256 ns, and the codewords, and symbols on each lane
of the port, that its FEC has corrected since it last reported them (R72). -/
structure RxFrame where
  bytes : List Byte
  fcsGood : Bool := true
  codeError : Bool := false
  linkLost : Bool := false
  mpackets : List MPacket := []
  sfdAge : Nat := 0
  fecCorrected : Nat := 0
  fecSymbols : List Nat := []
  deriving DecidableEq, Repr

/-- An access that a host makes to a Guild page or to the shared windows (R334). -/
inductive ForeignAccess where
  | readPage (g : Guild) (offset : Fin 65536)
  | writePage (g : Guild) (offset : Fin 65536) (value : Word)
  | readWindow (offset : Fin 4294967296)
  | writeWindow (offset : Fin 4294967296) (value : Word)
  deriving DecidableEq, Repr

/-- A bus transaction of the supply loop that failed (R41): a Status Read, or else a Voltage Write, and the retry that
succeeded, if one did. -/
structure BusFault where
  read : Bool
  retry : Option (Fin 3)
  deriving DecidableEq, Repr

/-- What auto-negotiation receives of a partner (R66): its base page in the layout of LANE_AN_LP, and whether it asks for
next pages. -/
structure AnPartner where
  page : Word
  nextPages : Bool
  deriving DecidableEq, Repr

/-- A checker's pattern as its lane receives it (R73), and the errors counted since the last command for the checker. -/
structure PrbsCheck where
  lane : Port
  pattern : Fin 8
  errors : Nat
  deriving DecidableEq, Repr

/-- An access to a 64-B block of the memory controller (R369): a read, a read that meets an error which has arisen in the
burst that holds its address (R374), a write of bytes, an add to a 64-bit word. -/
inductive HbmAccess where
  | read (addr : Nat)
  | readError (addr : Nat) (uncorr : Bool)
  | write (addr : Nat) (bytes : List Byte)
  | add (addr : Nat) (addend : BitVec 64)
  deriving DecidableEq, Repr

/-- The commands. -/
inductive Instr where
  /-- REGISTER_WRITE (R432). A write to a register that has no row of its own takes effect in its block, subject to
  access codes, commit locks and partial-write checks. -/
  | registerWrite (req : Requester) (addr : Nat) (value : Word) (partialBytes : Bool)
  /-- LOW_WORD_READ_LATCH (R10). A read of the low word of a 64-bit register latches its high word for that
  requester. -/
  | lowWordReadLatch (req : Requester) (addr : Nat)
  /-- HIGH_WORD_WRITE (R11). A write of the high word of a 64-bit register makes the pair take effect with the
  requester's latest low word. -/
  | highWordWrite (req : Requester) (addr : Nat) (value : Word)
  /-- RC_FIELD_READ (R13). A read of a register with RC fields returns them and clears them. -/
  | rcFieldRead (req : Requester) (addr : Nat)
  /-- PACE_MEASURE (R34). Every 1 us each station converts its slowest replica loop count into RAW pace and
  publishes RAW and EFF. -/
  | paceMeasure (counts : List Nat)
  /-- AVS_PERIOD (R38). At each loop period the supply loop computes the minimum mean RAW pace and raises, lowers or
  holds the voltage request. -/
  | avsPeriod
  /-- AVS_BUS_FAULT (R41). An unacknowledged, erroneous or CRC-failed AVSBus transaction is retried up to three
  times, then BUSERR sets and the loop suspends. -/
  | avsBusFault (fault : BusFault)
  /-- AVS_MANUAL_WRITE (R42). A write of PWR_AVS_MANUAL.VCODE while EN is 0 sends that clamped code as one Voltage
  Write; while EN is 1 it is ignored. -/
  | avsManualWrite (value : Word)
  /-- THERMAL_SAMPLE (R44). Every 50 us each sensor is sampled and each station recomputes its throttle value F. -/
  | thermalSample (readings : List (Option Int))
  /-- QUAD_MODE_WRITE (R57). A write of STN_QUAD.MODE changes the quad layout, or is ignored and sets ERR if a port
  is enabled or the code is invalid. -/
  | quadModeWrite (q : Fin 36) (value : Word)
  /-- PORT_ENABLE (R60). A 0-to-1 write of LANE_CFG.EN samples the port configuration and enters the start state, or
  OFF with CFG_ERR if invalid. -/
  | portEnable (p : Port) (value : Word)
  /-- PORT_DISABLE (R61). A 1-to-0 write of EN lets the frame in transmission finish and discards any frame being
  received. -/
  | portDisable (p : Port) (value : Word)
  /-- PORT_OFF (R61). Once the last transmitted frame ends after EN went to 0, the port enters OFF and its unused
  lanes power down. -/
  | portOff (p : Port)
  /-- PORT_CFG_STAGE_WRITE (R60). A write of LANE_CFG with EN left 1, of LANE_AN_ADV, or of the first lane's TXEQ
  stores the values and sets CFG_PENDING. -/
  | portCfgStageWrite (p : Port) (reg : StageReg) (value : Word)
  /-- AN_RESOLUTION (R66). Clause 73 auto-negotiation resolves the highest common type and FEC, or restarts when
  there is none. -/
  | anResolution (p : Port) (partner : AnPartner)
  /-- TRAINING_DONE (R63). All lanes of a port finish training and the port moves to ALIGN. -/
  | trainingDone (p : Port)
  /-- TRAINING_TIMEOUT (R63). Training exceeds its limit, raising TRAIN_FAIL and counting TRAIN_FAILS before a 100
  ms hold-off. -/
  | trainingTimeout (p : Port)
  /-- TRAIN_HOLDOFF_EXPIRY (R62). The 100 ms hold-off after a training timeout expires and the port returns to its
  start state. -/
  | trainHoldoffExpiry (p : Port)
  /-- LOCK_ACQUIRED (R62). Block, FEC and deskew lock on every lane takes the port from ALIGN or HOLD to UP. -/
  | lockAcquired (p : Port)
  /-- ALIGN_TIMEOUT (R62). 50 ms in ALIGN without lock returns the port to its start state. -/
  | alignTimeout (p : Port)
  /-- LOCK_LOST (R64). Any lane of an UP port loses lock, taking it to HOLD, or raising DOWN at once when DOWN_HOLD
  is 0. -/
  | lockLost (p : Port)
  /-- DOWN_HOLD_EXPIRY (R64). HOLD lasts DOWN_HOLD without regained lock, so DOWN is raised and the port returns to
  its start state. -/
  | downHoldExpiry (p : Port)
  /-- REMOTE_FAULT_RECEIVED (R65). A received Clause 81 remote fault stops the MAC transmitting frames while the
  port stays UP. -/
  | remoteFaultReceived (p : Port)
  /-- REMOTE_FAULT_CLEARED (R65). The remote fault clears and the MAC resumes transmitting frames. -/
  | remoteFaultCleared (p : Port)
  /-- REFCLK_LOSS (R69). A lane reference clock with no edge or excessive frequency error stops its enabled ports in
  their start state and raises REFLOSS. -/
  | refclkLoss (k : Fin 9)
  /-- REFCLK_RESTORED (R69). A reference present and within limits for 1 ms sets REFOK and lets its ports leave
  their start state. -/
  | refclkRestored (k : Fin 9)
  /-- LANE_LATENCY_MEASURED (R70). At entry to UP the lane latencies are measured and LAT_VALID is set. -/
  | laneLatencyMeasured (lane : Port) (tx rx : Nat)
  /-- FEC_UNCORRECTABLE (R72). An uncorrectable FEC codeword marks overlapping frames in error, counts in
  LANE_FEC_UNCORR and raises FEC_UNCORR. -/
  | fecUncorrectable (p : Port) (corrected : Nat) (symbols : List Nat)
  /-- LANE_TEST_WRITE (R73). A write of LANE_TEST starts or stops the PRBS generator and checker and enters or
  leaves TEST. -/
  | laneTestWrite (p : Port) (value : Word)
  /-- LOOPBACK_CHANGE (R74). A change of LANE_TEST.LOOPBACK on an enabled port takes the port to its start state as
  after a loss of lock. -/
  | loopbackChange (p : Port) (value : Word)
  /-- PRBS_LOCK (R73). The PRBS checker locks to the received pattern and sets CHK_LOCK. -/
  | prbsLock (check : PrbsCheck)
  /-- PRBS_LOCK_LOST (R73). The PRBS checker loses lock, clearing CHK_LOCK and raising PRBS_LOSS. -/
  | prbsLockLost (lane : Port) (errors : Nat)
  /-- RX_FRAME_COMPLETE (R80). A received frame becomes whole, its checks decide one outcome, and a good frame is
  steered, classed and charged. -/
  | rxFrameComplete (p : Port) (rx : RxFrame)
  /-- PAUSE_TIME_EXPIRY (R88). The pause time of a paused class counts down to zero and the class resumes. -/
  | pauseTimeExpiry (p : Port) (cls : Fin 8)
  /-- PAUSE_REFRESH (R90). Every REFRESH quanta while in XOFF the MAC resends its pause or PFC frame. -/
  | pauseRefresh (p : Port)
  /-- TX_FRAME_END (R290). The last bit of a frame's last fragment leaves the transmit MAC plane and its blocks are
  freed. -/
  | txFrameEnd (p : Port) (express : Bool)
  /-- MERGE_CFG_WRITE (R92). A write of MAC_MERGE_CFG changes EN or VERIFY_DIS, starting or ending verification. -/
  | mergeCfgWrite (p : Port) (value : Word)
  /-- MERGE_EN_TAKES_EFFECT (R93). A pending EN change takes effect once the partly sent preemptable frame has sent
  its last fragment. -/
  | mergeEnTakesEffect (p : Port)
  /-- VERIFY_TIMER (R92). VERIFY_TIME passes without a respond mPacket, so verify is resent or, after three tries,
  VERIFY_FAIL is raised. -/
  | verifyTimer (p : Port)
  /-- VERIFY_MPACKET_RECEIVED (R92). A received verify mPacket is answered with a respond mPacket while EN is 1. -/
  | verifyMpacketReceived (p : Port)
  /-- RESPOND_MPACKET_RECEIVED (R92). A received respond mPacket moves verification to SUCCEEDED and raises
  VERIFY_OK. -/
  | respondMpacketReceived (p : Port)
  /-- PREEMPTION (R94). An express frame ready at the MAC preempts the preemptable frame in flight within 127 B of
  wire time. -/
  | preemption (p : Port) (sent : Nat)
  /-- FRAGMENT_RESUME (R295). A preempted frame's fragments resume when the express MAC is idle, whatever its gate
  or pause state. -/
  | fragmentResume (p : Port)
  /-- STAT_CLEAR (R98). A write of 1 to MAC_STAT_CTL.CLEAR zeroes all 72 counters of the port at one instant. -/
  | statClear (p : Port)
  /-- TOKEN_TAKE (R241). A pass from a port, recirculation or inject takes a token and a task slot, its epoch tag
  and ordered-release place, and starts parsing. -/
  | tokenTake (st : Station)
  /-- LANE_RESUME (R251). A stalled parser lane resumes when the refused resource has room, taking the refused pass
  first. -/
  | laneResume (st : Station) (lane : Fin 3)
  /-- PARSE_PLANE_SWITCH (R111). A write of PRS_CFG changing ACTIVE switches parse planes and sets OLD_BUSY, or is
  ignored with WR_ERR if OLD_BUSY is 1. -/
  | parsePlaneSwitch (st : Station) (value : Word)
  /-- OLD_PLANE_DRAINED (R111). Every pass begun under the old plane finishes parsing and OLD_BUSY clears. -/
  | oldPlaneDrained (st : Station)
  /-- PARSE_MEMORY_WRITE (R111). A write to node or transition memory is applied to the inactive plane or ignored
  with WR_ERR. -/
  | parseMemoryWrite (addr : Nat) (value : Word)
  /-- PRS_COMMIT (R110). Setting PRS_CFG.COMMIT locks the salt and lets frames take flow keys and leases. -/
  | prsCommit (st : Station) (value : Word)
  /-- PUNT_BUCKET_WRITE (R114). A write of a punt bucket word sets its tokens to the new BURST. -/
  | puntBucketWrite (g : Guild) (reason : Fin 64) (burst : Bool) (value : Word)
  /-- EPT_LOOKUP_DONE (R118). The endpoint destination and source lookups return their results and the task's count
  falls by one. -/
  | eptLookupDone (st : Station) (slot : Fin 2048)
  /-- LEARN_APPLY (R122). The learn queue applies its next request or endpoint command with the outcome of Table
  06.3. -/
  | learnApply (st : Station)
  /-- EPT_NOW_TICK (R127). The station's coarse clock NOW increments every TICK_MS. -/
  | eptNowTick (st : Station)
  /-- EPT_SWEEP_VISIT (R127). The ageing sweep visits an entry, ageing, clearing move counts or unfreezing it. -/
  | eptSweepVisit (st : Station)
  /-- ROUTE_LOOKUP_DONE (R132). A route lookup finishes its rounds, returning the longest hit or a miss, and the
  task's count falls. -/
  | routeLookupDone (st : Station) (slot : Fin 2048)
  /-- EPT_ADD (R136). Command 0x10 inserts or replaces an endpoint key in each named station. -/
  | eptAdd (g : Guild) (ring : Fin 1024)
  /-- EPT_DEL (R136). Command 0x11 removes an endpoint key in each named station. -/
  | eptDel (g : Guild) (ring : Fin 1024)
  /-- EPT_FLUSH (R136). Command 0x12 removes the Guild's matching endpoint entries in each named station. -/
  | eptFlush (g : Guild) (ring : Fin 1024)
  /-- EPT_READ (R136). Command 0x13 reads one endpoint key in exactly one station. -/
  | eptRead (g : Guild) (ring : Fin 1024)
  /-- EPT_UNFREEZE (R136). Command 0x14 unfreezes an endpoint key in each named station. -/
  | eptUnfreeze (g : Guild) (ring : Fin 1024)
  /-- LPM_ADD (R135). Command 0x18 adds or replaces a route in all twelve replicas, filter bit first. -/
  | lpmAdd (g : Guild) (ring : Fin 1024)
  /-- LPM_DEL (R135). Command 0x19 invalidates a route in all replicas and clears its filter bit if last. -/
  | lpmDel (g : Guild) (ring : Fin 1024)
  /-- LPM_READ (R136). Command 0x1A reads a route key by exact match. -/
  | lpmRead (g : Guild) (ring : Fin 1024)
  /-- ICE_SEARCH (R162). A pass with a valid signature searches the Icehouse and hits, chains, revives, joins or
  takes a lease-wait entry, or is refused. -/
  | iceSearch (st : Station) (slot : Fin 2048)
  /-- MM_STEP (R162). A further step of a multiple-match search compares the next matching slot in the next enabled
  search slot. -/
  | mmStep (st : Station) (slot : Fin 2048)
  /-- SEARCH_RETRY (R172). A search refused for lack of a lease-wait entry is retried when an entry frees. -/
  | searchRetry (st : Station) (slot : Fin 2048)
  /-- WAIT_ENTRY_FILL_START (R170). A WAIT_SLOT or WAIT_RELEASE entry takes a freed slot, which becomes FILLING, and
  sends FILL. -/
  | waitEntryFillStart (st : Station) (entry : Nat)
  /-- FILL (R147). The FTM takes up a FILL and answers ABSENT, pin conflict, recall or grant of ownership. -/
  | fill (st : Station)
  /-- CREATE (R149). The FTM repeats the lookup and creates the record and tag, or handles a race as a FILL, or
  takes the no-room action. -/
  | create (st : Station)
  /-- RELEASE (R148). The FTM receives RELEASE, clears the owner once the write-back is accepted, and continues any
  FILL waiting on the recall. -/
  | release (st : Station)
  /-- RECALL_REFUSED (R177). The FTM receives a refused recall of a pinned half and treats it as the request
  requires. -/
  | recallRefused (st : Station)
  /-- FILL_RETURNED (R168). A fill arrives at a station; the slot is validated HELD and the first waiting task is
  granted. -/
  | fillReturned (st : Station)
  /-- FILL_NO_RECORD (R168). A FILLING slot ends with no record and returns to FREE, and its waiting tasks proceed
  without a lease. -/
  | fillNoRecord (st : Station)
  /-- HOLD_END (R163). A routine ends its hold; commits apply and the next chained task is granted or the slot
  becomes IDLE. -/
  | holdEnd (st : Station) (slot : Fin 2048)
  /-- DRAINER_START (R174). The drainer chooses an idle unpinned victim by clock hand when FREE is below FREE_LOW
  and starts its drain. -/
  | drainerStart (st : Station)
  /-- WRITEBACK_ACCEPTED (R168). The memory controller accepts a slot's write-back and a DRAINING or finished
  RECALLING slot is invalidated and sends RELEASE. -/
  | writebackAccepted (st : Station) (ice : Fin 8192)
  /-- RECALL_RECEIVED (R176). A station receives RECALL and moves the slot to RECALLING, or refuses it if pinned. -/
  | recallReceived (st : Station)
  /-- IDLE_RECALL (R178). A station receives an IDLE_RECALL and drains the half only if it is idle, unpinned and
  idle by its own stamp. -/
  | idleRecall (st : Station)
  /-- SYNC_WRITEBACK (R179). A station writes a half back without releasing it for a FLOW_READ SYNC. -/
  | syncWriteback (st : Station)
  /-- FTM_TICK (R155). FTM_NOW increments every TICK_MS. -/
  | ftmTick
  /-- FTM_SWEEP_VISIT (R155). The expiry sweep visits a bucket, sends idle recalls and expires idle unowned records.
  -/
  | ftmSweepVisit
  /-- QUARANTINE_EXPIRY (R154). A freed record index leaves quarantine after 128 us and may be handed out again. -/
  | quarantineExpiry
  /-- FLOW_ADD (R158). Command 0x20 creates a record from a host image. -/
  | flowAdd (g : Guild) (ring : Fin 1024) (data : Option (List Byte))
  /-- FLOW_FIND (R158). Command 0x21 looks up a 40-B key and returns index, INIT_D and owners. -/
  | flowFind (g : Guild) (ring : Fin 1024) (data : Option (List Byte))
  /-- FLOW_READ (R158). Command 0x22 copies a record to host memory, optionally after owners write back. -/
  | flowRead (g : Guild) (ring : Fin 1024)
  /-- FLOW_DEL (R158). Command 0x23 recalls owned halves, deletes the record and returns final EXT0 and EXT1. -/
  | flowDel (g : Guild) (ring : Fin 1024)
  /-- FLOW_FLUSH (R158). Command 0x24 deletes the Guild's matching records in one directory pass. -/
  | flowFlush (g : Guild) (ring : Fin 1024)
  /-- FLOW_WAIT_TIMEOUT (R158). A SYNC or recall made by a flow command is not answered within 100 us, giving
  FLOW_PARTIAL or FLOW_BUSY. -/
  | flowWaitTimeout (g : Guild) (ring : Fin 1024)
  /-- ICE_PIN (R180). Command 0x28 loads a half into a station if needed and pins it. -/
  | icePin (g : Guild) (ring : Fin 1024)
  /-- ICE_UNPIN (R180). Command 0x29 clears the pin of a half in a station. -/
  | iceUnpin (g : Guild) (ring : Fin 1024)
  /-- ICE_FLUSH (R184). Command 0x2A drains every idle unpinned slot of the Guild in each named station. -/
  | iceFlush (g : Guild) (ring : Fin 1024)
  /-- ICE_READ (R184). Command 0x2B copies a slot's key block and half to host memory. -/
  | iceRead (g : Guild) (ring : Fin 1024)
  /-- ICE_RECALL_TIMEOUT (R184). A recall made by an Icehouse command is not answered within 100 us and the command
  completes with ICE_TIMEOUT. -/
  | iceRecallTimeout (g : Guild) (ring : Fin 1024)
  /-- RULE_SEARCH (R187). A queued rule search takes an enabled slot, searches the tagged bank and returns its
  result. -/
  | ruleSearch (st : Station)
  /-- RUL_WRITE (R197). Command 0x30 writes an entry or default in the shadow bank of each named station. -/
  | rulWrite (g : Guild) (ring : Fin 1024) (data : Option (List Byte))
  /-- RUL_COMMIT (R193). Command 0x31 switches the Guild's active bank in each named station and starts draining the
  old bank. -/
  | rulCommit (g : Guild) (ring : Fin 1024)
  /-- RUL_DRAIN_DONE (R193). The old bank's drain count reaches zero and, with SYNC, the copy from the new active
  bank begins. -/
  | rulDrainDone (st : Station) (g : Guild)
  /-- RUL_COPY_DONE (R193). The SYNC copy ends, the old bank becomes the writable shadow and the commit completes
  when all stations reach it. -/
  | rulCopyDone (st : Station) (g : Guild)
  /-- RUL_READ (R197). Command 0x32 copies an entry or default of the active or shadow bank to host memory. -/
  | rulRead (g : Guild) (ring : Fin 1024)
  /-- RUL_SEARCH (R197). Command 0x33 searches one station's rule engine with a host key image. -/
  | rulSearch (g : Guild) (ring : Fin 1024) (data : Option (List Byte))
  /-- TASK_DISPATCH (R244). A free engine takes an express, affinity or weighted ready task and starts its routine
  at the dispatch entry. -/
  | taskDispatch (st : Station) (engine : Fin 24)
  /-- MICROWORD_EXECUTE (R199). An engine executes one microword: both ALUs, lease port, header port, sequencer and
  control bits act together. -/
  | microwordExecute (e : EngineRef)
  /-- COMMIT_RESUME (R209). A COMMIT word that waited for room in the posted-add queue proceeds when room frees. -/
  | commitResume (st : Station) (engine : Fin 24)
  /-- TRAP_QUEUE_READ (R218). A read of STN_AE_TRAP's low word removes the oldest trap record and latches its high
  word. -/
  | trapQueueRead (req : Requester) (st : Station)
  /-- RESIDENCY_EXPIRY (R249). A waiting or ready task reaching RES_LIMIT is dropped and counted in RES_DROPS. -/
  | residencyExpiry (st : Station) (slot : Fin 2048)
  /-- ORDERED_RELEASE (R253). The DONE head of an ordered-release queue is released to its VOQ, multicast queue,
  host or free set. -/
  | orderedRelease (st : Station) (orq : Fin 97)
  /-- XBR_CELL_TRANSFER (R265). In a crossbar slot, request, grant and accept move one cell per station link. -/
  | xbrCellTransfer
  /-- FRAME_LAND (R267). A frame's last cell lands in the egress buffer and it enters its class queue. -/
  | frameLand (st : Station) (input : Fin 13) (cls : Fin 8)
  /-- MC_HEAD (R270). A multicast frame at the head of its queue forms its target set and requests MC_COPY to each
  station. -/
  | mcHead (st : Station) (cls : Fin 8)
  /-- MC_COPY_LAND (R270). An MC_COPY lands in a target station, which admits or refuses it per port and returns the
  refused count. -/
  | mcCopyLand (st : Station) (target : Station) (cls : Fin 8)
  /-- MC_COUNTS_DONE (R270). All target stations have returned counts or timed out and the host copy is sent with
  PARTIAL and REFUSED. -/
  | mcCountsDone (st : Station) (cls : Fin 8)
  /-- MC_HOL_TIMEOUT (R271). A target station not granted within HOL_TIMEOUT is timed out and its copies dropped. -/
  | mcHolTimeout (st : Station) (cls : Fin 8)
  /-- MC_SET (R273). Command 0x48 writes a multicast group in all twelve replicas. -/
  | mcSet (g : Guild) (ring : Fin 1024)
  /-- MC_READ (R274). Command 0x49 copies a multicast group entry to host memory. -/
  | mcRead (g : Guild) (ring : Fin 1024)
  /-- INJECT_GRANT (R261). An injected frame waiting in the host interface is granted crossbar port 12 to its target
  station. -/
  | injectGrant (st : Station)
  /-- CEL_FREE_WRITE (R276). A write of CEL_FREE sets the cell's free bit whatever it held. -/
  | celFreeWrite (st : Station) (value : Word)
  /-- CELL_SWEEP_START (R280). Every PERIOD_MS a station's Moraine sweep begins gathering the held set. -/
  | cellSweepStart (st : Station)
  /-- CELL_SWEEP_END (R280). A cell sweep completes, reporting free-while-held and leaks and reclaiming twice-seen
  leaks. -/
  | cellSweepEnd (st : Station)
  /-- POOL_SWEEP_START (R281). Every PERIOD_MS the Cooperage sweep begins walking stacks and holders. -/
  | poolSweepStart
  /-- POOL_SWEEP_END (R281). A pool sweep completes, reporting duplicates, free-while-held and leaks. -/
  | poolSweepEnd
  /-- COOP_HK_ALLOC_READ (R279). A housekeeping read of COOP_HK_ALLOC pops a housekeeping block. -/
  | coopHkAllocRead (req : Requester)
  /-- COOP_HK_FREE_WRITE (R279). A housekeeping write of COOP_HK_FREE pushes a block without checking. -/
  | coopHkFreeWrite (req : Requester) (value : Word)
  /-- MOR_STN_DRAIN (R283). Command 0x50 asserts XOFF, stops the station's engines and waits for its slots and
  queues to empty. -/
  | morStnDrain (g : Guild) (ring : Fin 1024)
  /-- STN_DRAIN_QUIESCED (R283). A draining station's slots and queues are empty or TIMEOUT_MS passed, so cells are
  reinitialised and intake resumes. -/
  | stnDrainQuiesced (st : Station)
  /-- MOR_POOL_DRAIN (R284). Command 0x51 stops inject fetch and punt acceptance and waits for staging to finish. -/
  | morPoolDrain (g : Guild) (ring : Fin 1024)
  /-- POOL_DRAIN_QUIESCED (R284). Staged injects and punts finish or time out, the five stacks are rebuilt and
  acceptance resumes. -/
  | poolDrainQuiesced
  /-- MOR_SWEEP (R285). Command 0x52 starts a sweep now in each named target. -/
  | morSweep (g : Guild) (ring : Fin 1024)
  /-- EGRESS_SELECT (R292). When a port's MAC can begin a frame the scheduler chooses an eligible class by express,
  strict and WFQ order. -/
  | egressSelect (p : Port) (express : Bool)
  /-- GATE_BOUNDARY (R297). Varve time reaches a gate-list entry boundary and the port's gate states change. -/
  | gateBoundary (p : Port)
  /-- GCL_SWITCH_REQUEST (R301). A write of 1 to EGR_GCL_CTL.PENDING schedules a list switch, or is refused with
  CFG_ERR. -/
  | gclSwitchRequest (p : Port) (value : Word)
  /-- GCL_CHANGE_INSTANT (R301). At the change instant the new list takes effect, ACTIVE toggles, PENDING clears and
  GCL_SWITCH latches. -/
  | gclChangeInstant (p : Port)
  /-- QUEUE_DEPTH_SAMPLE (R304). Every SAMPLE_US each queue's depth is sampled into its histogram. -/
  | queueDepthSample (p : Port)
  /-- HIST_CLEAR (R304). A write of 1 to EGR_HIST_CFG.CLEAR zeroes the port's histograms at one instant. -/
  | histClear (p : Port) (value : Word)
  /-- TIMEREF_LOSS (R313). Loss of the time reference switches the timebase to the PCIe reference and puts the servo
  in HOLDOVER. -/
  | timerefLoss
  /-- TIMEREF_RESTORED (R313). A time reference within limits for 10 ms switches the timebase back and clears
  REF_LOST. -/
  | timerefRestored
  /-- VRV_TIME_READ (R318). A read of VRV_TIME_NS latches the seconds words for the same requester. -/
  | vrvTimeRead (req : Requester) (page : Option Guild)
  /-- TXQ_READ (R320). A read of VRV_TXQ_LO removes the oldest TX timestamp entry and latches its other fields. -/
  | txqRead (req : Requester) (g : Guild)
  /-- PPS_IN_EDGE (R321). A rising PPS_IN edge captures Varve time and, with SRC = 1, feeds an offset to the servo.
  -/
  | ppsInEdge
  /-- SERVO_HOLD_TIMEOUT (R323). HOLD_TMO passes without an offset and a LOCKED servo enters HOLDOVER. -/
  | servoHoldTimeout
  /-- PPS_OUT_EDGE (R325). PPS_OUT rises when Varve time reaches a whole second less ADVANCE. -/
  | ppsOutEdge
  /-- PPS_OUT_WIDTH_END (R325). PPS_OUT falls after WIDTH microseconds. -/
  | ppsOutWidthEnd
  /-- FREQ_OUT_WRITE (R325). A write of VRV_FREQ_OUT takes a valid PERIOD_NS or is ignored with CFG_ERR. -/
  | freqOutWrite (value : Word)
  /-- VRV_OFFSET (R322). Command 0x58 delivers an offset to the servo. -/
  | vrvOffset (g : Guild) (ring : Fin 1024)
  /-- VRV_SET (R314). Command 0x59 sets Varve time at one tick as a step. -/
  | vrvSet (g : Guild) (ring : Fin 1024)
  /-- VRV_FREQ (R329). Command 0x5A sets FADJ, clamped, and the integral term. -/
  | vrvFreq (g : Guild) (ring : Fin 1024)
  /-- VRV_HOLD (R329). Command 0x5B enters or leaves HOLDOVER. -/
  | vrvHold (g : Guild) (ring : Fin 1024)
  /-- GUILD_ENABLE (R339). A write of GLD_CTL.EN = 1 enables the bootstrap rings, takes the ARM baseline and starts
  polling. -/
  | guildEnable (g : Guild) (value : Word) (doorbells : Option (List Word))
  /-- GUILD_DISABLE (R349). A write of GLD_CTL.EN = 0 stops polling and every ring of the Guild and drops its staged
  punts. -/
  | guildDisable (g : Guild) (value : Word)
  /-- LINK_DOWN (R349). PERST# or link down on a PCIe link disables its Guilds and latches LINK_DOWN. -/
  | linkDown (k : Fin 4)
  /-- GUILD_PAGE_FOREIGN_ACCESS (R334). An access to a Guild page or BAR4 window from a link outside its Guilds
  reads 0 or is discarded and latches ISO_VIOL. -/
  | guildPageForeignAccess (k : Fin 4) (access : ForeignAccess)
  /-- DOORBELL_POLL (R338). At the Guild's poll interval the device reads its doorbell lines and adjusts the
  interval. -/
  | doorbellPoll (g : Guild) (words : Option (List Word))
  /-- CMD_START (R340). A CMD ring's next command starts once the previous has completed and a CPL slot is reserved,
  after the generic checks. -/
  | cmdStart (g : Guild) (ring : Fin 1024) (data : Option (List Byte))
  /-- NOP (R342). Command 0x00 echoes bytes 8-15. -/
  | nop (g : Guild) (ring : Fin 1024)
  /-- RING_SET (R342). Command 0x01 configures and optionally enables a disabled ring. -/
  | ringSet (g : Guild) (ring : Fin 1024) (doorbell : Option Word)
  /-- RING_PARAM (R342). Command 0x02 sets moderation and PNT buffer length and reason mask. -/
  | ringParam (g : Guild) (ring : Fin 1024)
  /-- RING_STOP (R342). Command 0x03 stops a ring and disables it once quiet. -/
  | ringStop (g : Guild) (ring : Fin 1024)
  /-- RING_QUIESCED (R342). A stopped ring's DMA in flight completes and the ring is disabled. -/
  | ringQuiesced (g : Guild) (ring : Fin 1024)
  /-- GLD_INFO (R342). Command 0x04 reports the Guild, link and ring range. -/
  | gldInfo (g : Guild) (ring : Fin 1024)
  /-- MSIX_MODERATION_TIMER (R344). The earliest unsignalled descriptor reaches MOD_USEC and an armed ring sends its
  message. -/
  | msixModerationTimer (g : Guild) (ring : Fin 1024)
  /-- PUNT_ARRIVAL (R345). A frame for destination 144 reaches crossbar port 12, passes or fails its bucket, is
  staged in a Cooperage block and assigned a PNT ring. -/
  | puntArrival (st : Station) (cls : Fin 8)
  /-- PUNT_DELIVERY (R345). A staged frame is written into a posted PNT buffer with its descriptor and its block is
  freed. -/
  | puntDelivery (g : Guild) (ring : Fin 1024) (posted : Option (List Byte))
  /-- INJ_FETCH (R346). The device fetches an INJ descriptor into a Cooperage block, advances D and writes the
  consumer index. -/
  | injFetch (g : Guild) (ring : Fin 1024) (desc : Option (List Byte)) (frame : Option (List Byte))
  /-- DMA_FAILURE (R348). A failed or timed-out DMA stops its ring, latches DMA_ERR, and may stop the Guild's
  polling. -/
  | dmaFailure (g : Guild) (ring : Fin 1024) (doorbell : Bool)
  /-- IRQ_LEVEL_RISE (R354). An enabled level source that is not in service goes high and becomes pending. -/
  | irqLevelRise (target : Option (Fin 12)) (source : Fin 4096)
  /-- IRQ_MSG_DOORBELL (R355). A write of IRQ_MSG_DOORBELL raises, merges or drops a message source. -/
  | irqMsgDoorbell (req : Requester) (value : Word)
  /-- IRQ_CFG_WRITE (R356). A write of priorities or routes changes fields of disabled sources and latches CFG_ERR
  for enabled ones. -/
  | irqCfgWrite (addr : Nat) (value : Word)
  /-- IRQ_ENABLE_WRITE (R363). A write of a source enable disables it, clearing pending, or enables it, pending if
  its level is high. -/
  | irqEnableWrite (req : Requester) (addr : Nat) (value : Word)
  /-- IRQ_CLAIM (R358). A read of IRQ_TGT_CLAIM returns the winning deliverable source, puts it in service and
  clears SIGNALLED. -/
  | irqClaim (req : Requester) (t : Fin 12)
  /-- IRQ_COMPLETE (R359). A write of IRQ_TGT_COMPLETE takes a source out of service or latches BAD_COMPLETE. -/
  | irqComplete (req : Requester) (t : Fin 12) (value : Word)
  /-- IRQ_SIGNAL (R360). A Guild target with a deliverable source, SIGNALLED 0 and MASK 0 sends its MSI-X message.
  -/
  | irqSignal (t : Fin 12)
  /-- IRQ_MASK_WRITE (R362). A write of IRQ_TGT_CTL clearing MASK makes an IRQ job or message at once if a source is
  deliverable. -/
  | irqMaskWrite (t : Fin 12) (value : Word)
  /-- HK_WAKE (R362). A sleeping housekeeping engine is woken when a source of its target becomes pending. -/
  | hkWake (e : Fin 4)
  /-- HK_JOB_DISPATCH (R236). A housekeeping engine in normal mode takes its next queued job and runs it. -/
  | hkJobDispatch (e : Fin 4)
  /-- HK_TIMER (R236). Every TIMER_US a TIMER job is queued, or coalesced and counted in LOST. -/
  | hkTimer (e : Fin 4)
  /-- HK_RUN_WRITE (R238). A write of UCS_HK_CTL runs, halts or enters service mode on a housekeeping engine. -/
  | hkRunWrite (req : Requester) (e : Fin 4) (value : Word)
  /-- UCS_STORE_WRITE_ATTEMPT (R223). A write to a control store or dispatch table is ignored and sets WR_ERR. -/
  | ucsStoreWriteAttempt (st : Station)
  /-- UCS_LOAD (R228). Command 0x38 starts an image load by reading the image into staging. -/
  | ucsLoad (g : Guild) (ring : Fin 1024)
  /-- IMAGE_STAGED (R226). The last byte of an image arrives in staging and the load checks run. -/
  | imageStaged (image : Option (List Byte))
  /-- STATION_STORE_SWITCH (R228). When every engine of a station has ended or requeued, the region is written, its
  version set and dispatch resumes. -/
  | stationStoreSwitch (st : Station)
  /-- HK_STORE_SWITCH (R228). Housekeeping engines of the target region finish, the store is written and they
  resume. -/
  | hkStoreSwitch
  /-- UCS_KEY_PROGRAM (R227). Command 0x39 writes the customer key hash into OTP once. -/
  | ucsKeyProgram (g : Guild) (ring : Fin 1024) (data : Option (List Byte))
  /-- HK_JOB (R236). Command 0x3A queues a HOST job on HK2 or HK3. -/
  | hkJob (g : Guild) (ring : Fin 1024)
  /-- HBM_ACCESS (R369). The memory controller accepts a read, write or add for a 64-B block in order and enters
  writes in the hazard table. -/
  | hbmAccess (port : Fin 6) (access : HbmAccess)
  /-- HBM_WRITE_DRAIN (R369). An accepted write is issued to its stack and leaves the hazard table, releasing
  waiting reads. -/
  | hbmWriteDrain (block : Nat)
  /-- POSTED_ADD_EXECUTE (R371). The atomic unit reads, corrects, adds and writes back an extension word. -/
  | postedAddExecute
  /-- HBM_TEMP_READ (R373). Every 1 ms each stack's temperature is read, halving refresh above 85 C and latching HOT
  at 95 C. -/
  | hbmTempRead (stack : Fin 2) (temp : Fin 256)
  /-- HBM_REFRESH (R373). A bank is refreshed at its per-bank refresh interval. -/
  | hbmRefresh (bank : Nat)
  /-- HBM_SCRUB_READ (R374). The patrol scrub reads the next block. -/
  | hbmScrubRead
  /-- CHANNEL_POWER_DOWN (R375). A channel idle for PD_IDLE ns enters power-down. -/
  | channelPowerDown (channel : Fin 32)
  /-- CHANNEL_SELF_REFRESH (R375). A channel idle for SR_IDLE us enters self-refresh. -/
  | channelSelfRefresh (channel : Fin 32)
  /-- HBM_TRAINING_DONE (R376). A stack finishes training, setting TRAINED or latching TRAIN_FAIL. -/
  | hbmTrainingDone (stack : Fin 2) (result : Fin 4) (repaired : Fin 256)
  /-- HBM_SHARE_WRITE (R372). A write of HBM_SHARE takes effect or is ignored with CFG_ERR if shares would exceed
  256. -/
  | hbmShareWrite (port : Fin 6) (value : Word)
  /-- TLY_ENABLE_WRITE (R380). A write of TLY_CFG.EN starts or stops periodic dumps, or is ignored with CFG_ERR. -/
  | tlyEnableWrite (value : Word)
  /-- TLY_DUMP_START (R380). At a period multiple, or on a trigger, a dump starts or is skipped or held. -/
  | tlyDumpStart (triggered : Bool)
  /-- TLY_DUMP_DONE (R381). A dump's last byte is written, a TLY_DUMP descriptor is sent and a held triggered dump
  starts. -/
  | tlyDumpDone
  /-- TSTORE_ENABLE (R385). A write of TLY_TSTORE sets a Guild's region and a 0-to-1 EN resets W, or is ignored with
  CFG_ERR. -/
  | tstoreEnable (g : Guild) (value : Word)
  /-- TSTORE_RECORD_WRITE (R386). A queued EMIT or multicast record is written to its Guild's telemetry region. -/
  | tstoreRecordWrite (st : Station)
  /-- TLY_TREAD (R387). Command 0x60 copies telemetry records to host memory. -/
  | tlyTread (g : Guild) (ring : Fin 1024)
  /-- REORDER_RELEASE (R393). A held or set-aside frame is released after HOLD frames or 100 us. -/
  | reorderRelease (p : Port) (inj : Fin 4) (tx : Bool)
  /-- TNK_SEED_WRITE (R391). A write of TNK_SEED loads the shared random generator. -/
  | tnkSeedWrite (value : Word)
  /-- MEMINJ_ARM (R395). A write of TNK_MEMINJ with ARM plants an error in the next write to the named memory. -/
  | meminjArm (value : Word)
  /-- ONDIE_SCRUB (R396). An on-die memory's scrub reads its next word in its period. -/
  | ondieScrub (mem : Fin 32) (st : Station) (index : Nat) (arisen : Option Bool)
  /-- TNK_SET (R401). Command 0x68 writes an injector image on a port of the Guild. -/
  | tnkSet (g : Guild) (ring : Fin 1024) (data : Option (List Byte))
  /-- TNK_READ (R401). Command 0x69 copies an injector's words to host memory. -/
  | tnkRead (g : Guild) (ring : Fin 1024)
  /-- MATE_KICK (R403). A write of MATE_KICK by HK0 or HK1 restarts the kick timer. -/
  | mateKick (req : Requester)
  /-- KICK_TIMEOUT (R403). KICK_TMO_US passes without a kick and the heartbeat stops being live. -/
  | kickTimeout
  /-- HEARTBEAT_LIVE_CHANGE (R404). The device's own heartbeat becomes live or not, moving it between IDLE and
  STANDBY. -/
  | heartbeatLiveChange
  /-- MATE_HB_STALE (R403). MISS half-periods pass without a mate heartbeat edge, clearing PEER_HB and possibly
  causing takeover. -/
  | mateHbStale
  /-- MATE_ACT_IN_CHANGE (R405). The debounced MATE_ACT_IN rises or falls, causing a claim or a yield. -/
  | mateActInChange (high : Bool)
  /-- CLAIM_DELAY_EXPIRY (R405). A secondary in STANDBY claims after MATE_ACT_IN stayed low for CLAIM_DELAY_MS. -/
  | claimDelayExpiry
  /-- MATE_FORCE_FALL (R406). MATE_FORCE_N falls and an ACTIVE device yields. -/
  | mateForceFall
  /-- YIELD_DRAIN_EXPIRY (R408). DRAIN_US ends after a yield, queued frames are discarded and the device goes to
  STANDBY or IDLE. -/
  | yieldDrainExpiry
  /-- GAP_END (R410). SETTLE_US after the claim or yield the switch-over gap ends and time outputs resume. -/
  | gapEnd
  /-- MATE_RELEASE (R412). Command 0x70 makes an ACTIVE device yield after its checks. -/
  | mateRelease (g : Guild) (ring : Fin 1024)
  /-- MATE_RELEASE_TIMEOUT (R412). A forced release sees no mate claim within 10 us and completes. -/
  | mateReleaseTimeout
  /-- RESET_ASSERT (R413). RESET_N or WRESET_N goes low, holding the device in reset with MATE_ACT_OUT low. -/
  | resetAssert (cold : Bool)
  /-- COLD_RESET (R413). Release of RESET_N or power-on clears everything, sends the initial Voltage Write and
  starts bring-up. -/
  | coldReset (bifStrap modeStrap : Fin 4) (primary : Bool) (i2cAddr : Fin 4)
  /-- WARM_RESET (R413). Release of a warm reset clears all but RWS fields and starts bring-up. -/
  | warmReset
  /-- LINK_RESET (R413). PERST# of link k resets that link and disables its Guilds. -/
  | linkReset (k : Fin 4)
  /-- BOOT_RESET_WRITE (R414). A write of BOOT_RESET with WARM and the right KEY starts a warm reset 1 us later. -/
  | bootResetWrite (value : Word)
  /-- PROFILE_READ (R416). The boot block reads and checks the flash profile and configures lanes and quads from it.
  -/
  | profileRead (profile : List Byte)
  /-- FLASH_TIMEOUT (R416). The flash gives no response within 50 ms, latching FLASH_ERR and falling back to host
  boot. -/
  | flashTimeout
  /-- THAW_REACHED (R420). Every station enters Thaw service and THAW latches. -/
  | thawReached
  /-- BOOT_FULL_REQUEST (R423). A write to BOOT_FULL requests station switches, or is ignored with GO_ERR unless
  READY or FULL. -/
  | bootFullRequest (value : Word)
  /-- STATION_FULL_SWITCH (R423). Once a paused station's Thaw passes are released, learning is cleared, stored set-
  up applied and full service begins. -/
  | stationFullSwitch (st : Station)
  /-- I2C_BLOCK_READ (R449). An SMBus Block Read of a listed command returns a register's 4 B without side effects.
  -/
  | i2cBlockRead (command : Byte)
  /-- SMB_ALERT_RESPONSE (R449). The device answers the SMBus Alert Response Address while SMB_ALERT_N is low. -/
  | smbAlertResponse
  /-- JTAG_OPERATION (R450). A JTAG TAP operation under IEEE 1149.1 and 1149.6. -/
  | jtagOperation (input : TapInput) (tdi : Bool)
  /-- FREQ_OUT_EDGE (R325). FREQ_OUT rises at each instant at which (SEC x 1e9 + NS) mod PERIOD_NS = 0, and falls
  half a period later. -/
  | freqOutEdge
  /-- PCIE_LINK_UP (R331). A PCI Express link finishes training and reaches L0, setting HIF_LINK_STATUS.UP, WIDTH
  and SPEED. -/
  | pcieLinkUp (k : Fin 4) (width : Fin 17) (speed : Fin 6)
  /-- MATE_HB_IN_EDGE (R403). An edge on MATE_HB_IN restarts the staleness timer and makes PEER_HB read 1 again
  after the mate's heartbeat was stale. -/
  | mateHbInEdge
  /-- MATE_FORCE_RISE (R405). MATE_FORCE_N rises, clearing FORCED, after which a STANDBY device whose claim
  conditions hold may claim. -/
  | mateForceRise
  deriving DecidableEq, Repr

end Sys2Proof
end

