-- ==== Sys2Proof/Config.lean ====
section
/-! DEFINITION. What an implementation fixes and the spec leaves open: constants without a body, so that nothing can be
proved of the value they have (DESIGN CHOICE, log 7). A value that the part draws anew each time is a function of a
counter that State holds (`fresh`). -/
namespace Sys2Proof.Config

/-- A choice the spec leaves open, drawn by the counter. -/
opaque freeNat : Nat → Nat

/-- A yes or no the spec leaves open, drawn by the counter. -/
opaque freeBool : Nat → Bool

/-- The vendor key hash fused at manufacture (R227), as a big-endian number below 2²⁵⁶. -/
opaque vendorKeyHash : Nat

/-- The serial number of the part (R434). -/
opaque serial : BitVec 64

/-- The index within way w (0 to 3) at which an endpoint key may stand (R116): the hash is not given. -/
opaque eptIndex : (way : Nat) → (guild fid mac : Nat) → Nat

/-- Byte of HBM content that a retraining leaves (R413: lost, or not guaranteed), drawn by the counter. -/
opaque hbmByte : (draw addr : Nat) → Nat

/-- Byte k of an ingress cell's data after the cell has been given to a second frame (R276), drawn by the counter. -/
opaque cellByte : (draw k : Nat) → Nat

/-- The JTAG port's instruction register is this long and 2 bits longer (R450 gives no length; IEEE 1149.1 asks for at
least 2 bits); its boundary-scan register has this many cells. -/
opaque jtagIrLen : Nat
opaque boundaryLen : Nat

/-- What an instruction selects: 0 BYPASS, 1 IDCODE, other: the boundary-scan register, of which 2 is EXTEST, 3
EXTEST_PULSE and 4 EXTEST_TRAIN (IEEE 1149.1, IEEE 1149.6). All ones selects BYPASS. -/
opaque jtagRegister : List Bool → Nat

/-- The signal of a boundary-scan cell, in the model's numbering, and whether its pin is one of IEEE 1149.6 (R450). -/
opaque boundaryPin : (cell : Nat) → Nat
opaque boundaryAc : (cell : Nat) → Bool

/-- The levels that boundary scan captures at signals whose level the part does not hold, by cell (R450). -/
opaque boundaryCell : (draw cell : Nat) → Bool

/-- Whether a servo quotient n / d that is no whole number of 2⁻¹⁶ ppb is held at the next higher one (R322). -/
opaque roundUp : (n : Int) → (d : Nat) → Bool

/-- Microjoules that a station's accumulator gains at an event of a kind, at the voltage code in force (R50: weights
calibrated at test), drawn by what the accumulator holds. -/
opaque energy : (acc kind vcode held : Nat) → Nat

end Sys2Proof.Config
end

