-- ==== Sys2Proof/Machine/RegMap.lean ====
section
/-! DEFINITION. The register index of the part (ch. 25, R428, R429, R435): every register's address, fields, access
codes and reset value, as the register tables of the chapters give them. `RegMap.blocks` is the whole index as data;
`Reg.NAME` is a register's address, `Fld.NAME_FIELD` a field of it. Guild pages (Table 25.8) are not in the set-up
space: the model numbers them from 0x1_0000_0000 (DESIGN CHOICE, log 4). -/
namespace Sys2Proof.Machine

/-- Access codes (Table 00.5). -/
inductive Access where
  | rw | ro | wo | w1c | w1s | rc | rws | rwl
  deriving DecidableEq, Repr

/-- A field of a register: lowest bit, width, access code, reset value (R13). -/
structure Field where
  lo : Nat
  w : Nat
  acc : Access
  reset : Nat
  deriving DecidableEq, Repr

/-- A replicated dimension: how many instances, and the address distance between two. -/
structure Dim where
  count : Nat
  stride : Nat
  deriving DecidableEq, Repr

/-- Whether a register is one of the two words of a 64-bit value (R10, R11). -/
inductive WordPart where
  | whole | low | high
  deriving DecidableEq, Repr

/-- A register (array) of a block: the offset of its first instance, its dimensions from the widest stride to the
narrowest, its fields from the most significant down, what each index adds to the reset word, and the block offset
of the register whose bit 31 locks its RWL fields (Table 25.3); its part of a 64-bit value; whether it is a counter of
an array whose name ends in _CNT (R435). -/
structure RegDef where
  name : String
  off : Nat
  dims : List Dim
  fields : List Field
  step : List Nat
  commit : Option Nat
  part : WordPart
  counter : Bool
  deriving DecidableEq, Repr

/-- A block: base, instances and their stride (stations: R429), the bytes one instance covers, its registers. -/
structure Block where
  base : Nat
  count : Nat
  stride : Nat
  size : Nat
  regs : List RegDef
  deriving DecidableEq, Repr

/-- The base of station s's range (Table 25.1). -/
def stationBase (s : Nat) : Nat := 0x02000000 + s * 0x00400000

/-- The model's number for offset 0 of Guild page g (BAR2 + 0x1_0000 × g, Table 25.8). -/
def guildPageBase (g : Nat) : Nat := 0x100000000 + g * 0x10000

/-! ### Block chip -/

/-- CHIP_ID (Table 25.4). -/
def Reg.CHIP_ID : Nat := 0
def Fld.CHIP_ID_PART : Field := ⟨16, 16, .ro, 0x144⟩
def Fld.CHIP_ID_FAMILY : Field := ⟨8, 8, .ro, 1⟩
def Fld.CHIP_ID_REV : Field := ⟨0, 8, .ro, 0xa1⟩
/-- CHIP_SERIAL_LO (R434). -/
def Reg.CHIP_SERIAL_LO : Nat := 8
def Fld.CHIP_SERIAL_LO_VALUE : Field := ⟨0, 32, .ro, 0⟩
/-- CHIP_SERIAL_HI (R434). -/
def Reg.CHIP_SERIAL_HI : Nat := 0xc
def Fld.CHIP_SERIAL_HI_VALUE : Field := ⟨0, 32, .ro, 0⟩
/-- CHIP_STATUS (Table 25.5). -/
def Reg.CHIP_STATUS : Nat := 0x10
def Fld.CHIP_STATUS_ACC_ERR : Field := ⟨31, 1, .w1c, 0⟩
def Fld.CHIP_STATUS_ADDR : Field := ⟨0, 27, .ro, 0⟩

/-! ### Block pwr -/

/-- PWR_AVS_CTL (Table 02.5). -/
def Reg.PWR_AVS_CTL : Nat := 0x100000
def Fld.PWR_AVS_CTL_COMMIT : Field := ⟨31, 1, .w1s, 0⟩
def Fld.PWR_AVS_CTL_UNRATED : Field := ⟨1, 1, .rwl, 0⟩
def Fld.PWR_AVS_CTL_EN : Field := ⟨0, 1, .rw, 1⟩
/-- PWR_AVS_TARGET (Table 02.6). -/
def Reg.PWR_AVS_TARGET : Nat := 0x100004
def Fld.PWR_AVS_TARGET_HEADROOM : Field := ⟨16, 12, .rw, 0x5a⟩
def Fld.PWR_AVS_TARGET_TARGET : Field := ⟨0, 12, .rwl, 0x708⟩
/-- PWR_AVS_LIMIT (Table 02.7). -/
def Reg.PWR_AVS_LIMIT : Nat := 0x100008
def Fld.PWR_AVS_LIMIT_VMAX : Field := ⟨8, 8, .rwl, 0xaa⟩
def Fld.PWR_AVS_LIMIT_VMIN : Field := ⟨0, 8, .rwl, 0x94⟩
/-- PWR_AVS_TUNE (Table 02.8). -/
def Reg.PWR_AVS_TUNE : Nat := 0x10000c
def Fld.PWR_AVS_TUNE_DOWN_HOLD : Field := ⟨24, 8, .rw, 0xa⟩
def Fld.PWR_AVS_TUNE_DEADBAND : Field := ⟨16, 8, .rw, 0x5a⟩
def Fld.PWR_AVS_TUNE_UP_STEP : Field := ⟨12, 4, .rw, 2⟩
def Fld.PWR_AVS_TUNE_PERIOD : Field := ⟨0, 12, .rw, 0x64⟩
/-- PWR_AVS_STATUS (Table 02.9). -/
def Reg.PWR_AVS_STATUS : Nat := 0x100010
def Fld.PWR_AVS_STATUS_BUSERR : Field := ⟨31, 1, .w1c, 0⟩
def Fld.PWR_AVS_STATUS_SHORT : Field := ⟨30, 1, .w1c, 0⟩
def Fld.PWR_AVS_STATUS_FLOOR : Field := ⟨29, 1, .ro, 0⟩
def Fld.PWR_AVS_STATUS_CEIL : Field := ⟨28, 1, .ro, 0⟩
def Fld.PWR_AVS_STATUS_PMIN : Field := ⟨16, 12, .ro, 0⟩
def Fld.PWR_AVS_STATUS_VREQ : Field := ⟨0, 8, .ro, 0x9c⟩
/-- PWR_AVS_MANUAL (Table 02.10). -/
def Reg.PWR_AVS_MANUAL : Nat := 0x100014
def Fld.PWR_AVS_MANUAL_VCODE : Field := ⟨0, 8, .rw, 0x9c⟩
/-- THM_STATUS (Table 02.11). -/
def Reg.THM_STATUS : Nat := 0x108000
def Fld.THM_STATUS_CRIT : Field := ⟨31, 1, .ro, 0⟩
def Fld.THM_STATUS_THROTTLING : Field := ⟨30, 1, .ro, 0⟩
def Fld.THM_STATUS_SENSOR_FAULT : Field := ⟨29, 1, .w1c, 0⟩
def Fld.THM_STATUS_FAULT_MAP : Field := ⟨0, 16, .ro, 0⟩
/-- THM_SENSOR (Table 02.12). -/
def Reg.THM_SENSOR (k : Nat) : Nat := 0x108100 + k * 4
def Fld.THM_SENSOR_VALID : Field := ⟨31, 1, .ro, 0⟩
def Fld.THM_SENSOR_TEMP : Field := ⟨0, 12, .ro, 0⟩
/-- THM_THROTTLE (Table 02.13). -/
def Reg.THM_THROTTLE (s : Nat) : Nat := 0x108200 + s * 4
def Fld.THM_THROTTLE_F : Field := ⟨0, 9, .ro, 0x100⟩

/-! ### Block boot -/

/-- BOOT_STATUS (Table 24.8). -/
def Reg.BOOT_STATUS : Nat := 0x200000
def Fld.BOOT_STATUS_STAGE : Field := ⟨28, 4, .ro, 0⟩
def Fld.BOOT_STATUS_FLASH_ERR : Field := ⟨25, 1, .ro, 0⟩
def Fld.BOOT_STATUS_PROFILE_ERR : Field := ⟨24, 1, .ro, 0⟩
def Fld.BOOT_STATUS_FULL : Field := ⟨0, 12, .ro, 0⟩
/-- BOOT_STRAP (Table 24.9). -/
def Reg.BOOT_STRAP : Nat := 0x200004
def Fld.BOOT_STRAP_PRIMARY : Field := ⟨8, 1, .ro, 0⟩
def Fld.BOOT_STRAP_MODE : Field := ⟨4, 2, .ro, 0⟩
def Fld.BOOT_STRAP_BIF : Field := ⟨0, 2, .ro, 0⟩
/-- BOOT_CAUSE (Table 24.9). -/
def Reg.BOOT_CAUSE : Nat := 0x200008
def Fld.BOOT_CAUSE_KIND : Field := ⟨0, 2, .rws, 0⟩
/-- BOOT_IMG (Table 24.10). -/
def Reg.BOOT_IMG (t : Nat) : Nat := 0x200010 + t * 4
def Fld.BOOT_IMG_RESULT : Field := ⟨28, 4, .ro, 0⟩
def Fld.BOOT_IMG_CODE : Field := ⟨0, 8, .ro, 0⟩
/-- BOOT_FULL (Table 24.11). -/
def Reg.BOOT_FULL : Nat := 0x200020
def Fld.BOOT_FULL_GO : Field := ⟨0, 12, .w1s, 0⟩
/-- BOOT_RESET (Table 24.11). -/
def Reg.BOOT_RESET : Nat := 0x200030
def Fld.BOOT_RESET_KEY : Field := ⟨16, 16, .wo, 0⟩
def Fld.BOOT_RESET_WARM : Field := ⟨0, 1, .w1s, 0⟩
/-- BOOT_EVENT (Table 24.12). -/
def Reg.BOOT_EVENT : Nat := 0x200028
def Fld.BOOT_EVENT_GO_ERR : Field := ⟨5, 1, .w1c, 0⟩
def Fld.BOOT_EVENT_FAIL : Field := ⟨4, 1, .w1c, 0⟩
def Fld.BOOT_EVENT_FULL : Field := ⟨3, 1, .w1c, 0⟩
def Fld.BOOT_EVENT_HBM : Field := ⟨2, 1, .w1c, 0⟩
def Fld.BOOT_EVENT_IMAGES : Field := ⟨1, 1, .w1c, 0⟩
def Fld.BOOT_EVENT_THAW : Field := ⟨0, 1, .w1c, 0⟩
/-- BOOT_EVENT_EN (Table 24.12). -/
def Reg.BOOT_EVENT_EN : Nat := 0x20002c
def Fld.BOOT_EVENT_EN_GO_ERR : Field := ⟨5, 1, .rw, 0⟩
def Fld.BOOT_EVENT_EN_FAIL : Field := ⟨4, 1, .rw, 0⟩
def Fld.BOOT_EVENT_EN_FULL : Field := ⟨3, 1, .rw, 0⟩
def Fld.BOOT_EVENT_EN_HBM : Field := ⟨2, 1, .rw, 0⟩
def Fld.BOOT_EVENT_EN_IMAGES : Field := ⟨1, 1, .rw, 0⟩
def Fld.BOOT_EVENT_EN_THAW : Field := ⟨0, 1, .rw, 0⟩
/-- BOOT_MS (Table 24.13). -/
def Reg.BOOT_MS (k : Nat) : Nat := 0x200040 + k * 4
def Fld.BOOT_MS_MS : Field := ⟨0, 16, .ro, 0⟩
/-- BOOT_CNT_LO (Table 02.15). -/
def Reg.BOOT_CNT_LO (k : Nat) : Nat := 0x200100 + k * 8
def Fld.BOOT_CNT_LO_VALUE_LO : Field := ⟨0, 32, .ro, 0⟩
/-- BOOT_CNT_HI (Table 02.15). -/
def Reg.BOOT_CNT_HI (k : Nat) : Nat := 0x200104 + k * 8
def Fld.BOOT_CNT_HI_VALUE_HI : Field := ⟨0, 16, .ro, 0⟩

/-! ### Block irq -/

/-- IRQ_STATUS (Table 19.7). -/
def Reg.IRQ_STATUS : Nat := 0x400000
def Fld.IRQ_STATUS_BAD_MSG : Field := ⟨2, 1, .w1c, 0⟩
def Fld.IRQ_STATUS_BAD_COMPLETE : Field := ⟨1, 1, .w1c, 0⟩
def Fld.IRQ_STATUS_CFG_ERR : Field := ⟨0, 1, .w1c, 0⟩
/-- IRQ_MSG_DOORBELL (Table 19.7). -/
def Reg.IRQ_MSG_DOORBELL : Nat := 0x400004
def Fld.IRQ_MSG_DOORBELL_NUMBER : Field := ⟨0, 12, .wo, 0⟩
/-- IRQ_SRC_EN (Table 19.8). -/
def Reg.IRQ_SRC_EN (w : Nat) : Nat := 0x400100 + w * 4
def Fld.IRQ_SRC_EN_VALUE : Field := ⟨0, 32, .rw, 0⟩
/-- IRQ_PEND (Table 19.8). -/
def Reg.IRQ_PEND (w : Nat) : Nat := 0x400300 + w * 4
def Fld.IRQ_PEND_VALUE : Field := ⟨0, 32, .ro, 0⟩
/-- IRQ_LEVEL (Table 19.8). -/
def Reg.IRQ_LEVEL (w : Nat) : Nat := 0x400500 + w * 4
def Fld.IRQ_LEVEL_VALUE : Field := ⟨0, 32, .ro, 0⟩
/-- IRQ_SRC_PRIO (Table 19.8). -/
def Reg.IRQ_SRC_PRIO (w : Nat) : Nat := 0x401000 + w * 4
def Fld.IRQ_SRC_PRIO_VALUE : Field := ⟨0, 32, .rw, 0⟩
/-- IRQ_SRC_ROUTE (Table 19.8). -/
def Reg.IRQ_SRC_ROUTE (w : Nat) : Nat := 0x402000 + w * 4
def Fld.IRQ_SRC_ROUTE_VALUE : Field := ⟨0, 32, .rw, 0x11111111⟩
/-- IRQ_CNT_LO (Table 02.15). -/
def Reg.IRQ_CNT_LO (k : Nat) : Nat := 0x400600 + k * 8
def Fld.IRQ_CNT_LO_VALUE_LO : Field := ⟨0, 32, .ro, 0⟩
/-- IRQ_CNT_HI (Table 02.15). -/
def Reg.IRQ_CNT_HI (k : Nat) : Nat := 0x400604 + k * 8
def Fld.IRQ_CNT_HI_VALUE_HI : Field := ⟨0, 16, .ro, 0⟩
/-- IRQ_TGT_CLAIM (Table 19.9). -/
def Reg.IRQ_TGT_CLAIM (t : Nat) : Nat := 0x408000 + t * 0x100
def Fld.IRQ_TGT_CLAIM_CLAIM : Field := ⟨0, 32, .rc, 0⟩
/-- IRQ_TGT_COMPLETE (Table 19.9). -/
def Reg.IRQ_TGT_COMPLETE (t : Nat) : Nat := 0x408004 + t * 0x100
def Fld.IRQ_TGT_COMPLETE_NUMBER : Field := ⟨0, 12, .wo, 0⟩
/-- IRQ_TGT_CTL (Table 19.9). -/
def Reg.IRQ_TGT_CTL (t : Nat) : Nat := 0x408008 + t * 0x100
def Fld.IRQ_TGT_CTL_MASK : Field := ⟨31, 1, .rw, 0⟩
def Fld.IRQ_TGT_CTL_THRESH : Field := ⟨0, 4, .rw, 0⟩
/-- IRQ_TGT_PRIV_EN (Table 19.10). -/
def Reg.IRQ_TGT_PRIV_EN (t : Nat) : Nat := 0x40800c + t * 0x100
def Fld.IRQ_TGT_PRIV_EN_EN : Field := ⟨0, 16, .rw, 0⟩
/-- IRQ_TGT_PRIV_PRIO (Table 19.10). -/
def Reg.IRQ_TGT_PRIV_PRIO (t h : Nat) : Nat := 0x408010 + t * 0x100 + h * 4
def Fld.IRQ_TGT_PRIV_PRIO_PRIO : Field := ⟨0, 32, .rw, 0⟩
/-- IRQ_TGT_SOFT (Table 19.10). -/
def Reg.IRQ_TGT_SOFT (t : Nat) : Nat := 0x408018 + t * 0x100
def Fld.IRQ_TGT_SOFT_LEVEL : Field := ⟨0, 8, .rw, 0⟩
/-- IRQ_TGT_STATUS (Table 19.11). -/
def Reg.IRQ_TGT_STATUS (t : Nat) : Nat := 0x40801c + t * 0x100
def Fld.IRQ_TGT_STATUS_SIGNALLED : Field := ⟨31, 1, .ro, 0⟩
def Fld.IRQ_TGT_STATUS_WOKEN : Field := ⟨30, 1, .w1c, 0⟩
def Fld.IRQ_TGT_STATUS_RUN : Field := ⟨16, 4, .ro, 0⟩
def Fld.IRQ_TGT_STATUS_DEPTH : Field := ⟨0, 4, .ro, 0⟩
/-- IRQ_TGT_CNT_LO (Table 02.15). -/
def Reg.IRQ_TGT_CNT_LO (t k : Nat) : Nat := 0x408040 + t * 0x100 + k * 8
def Fld.IRQ_TGT_CNT_LO_VALUE_LO : Field := ⟨0, 32, .ro, 0⟩
/-- IRQ_TGT_CNT_HI (Table 02.15). -/
def Reg.IRQ_TGT_CNT_HI (t k : Nat) : Nat := 0x408044 + t * 0x100 + k * 8
def Fld.IRQ_TGT_CNT_HI_VALUE_HI : Field := ⟨0, 16, .ro, 0⟩

/-! ### Block vrv -/

/-- VRV_CFG (Table 17.5). -/
def Reg.VRV_CFG : Nat := 0x800000
def Fld.VRV_CFG_COMMIT : Field := ⟨31, 1, .w1s, 0⟩
def Fld.VRV_CFG_OWNER : Field := ⟨3, 3, .rwl, 0⟩
def Fld.VRV_CFG_SRC : Field := ⟨1, 1, .rw, 0⟩
def Fld.VRV_CFG_EN : Field := ⟨0, 1, .rw, 0⟩
/-- VRV_STATUS (Table 17.6). -/
def Reg.VRV_STATUS : Nat := 0x800004
def Fld.VRV_STATUS_REF_LOST : Field := ⟨31, 1, .ro, 0⟩
def Fld.VRV_STATUS_MATE_GAP : Field := ⟨30, 1, .ro, 0⟩
/-- VRV_TIME_NS (Table 17.7). -/
def Reg.VRV_TIME_NS : Nat := 0x800010
def Fld.VRV_TIME_NS_NS : Field := ⟨0, 30, .ro, 0⟩
/-- VRV_TIME_SEC_LO (Table 17.7). -/
def Reg.VRV_TIME_SEC_LO : Nat := 0x800014
def Fld.VRV_TIME_SEC_LO_SEC_LO : Field := ⟨0, 32, .ro, 0⟩
/-- VRV_TIME_SEC_HI (Table 17.7). -/
def Reg.VRV_TIME_SEC_HI : Nat := 0x800018
def Fld.VRV_TIME_SEC_HI_FRAC : Field := ⟨16, 16, .ro, 0⟩
def Fld.VRV_TIME_SEC_HI_SEC_HI : Field := ⟨0, 16, .ro, 0⟩
/-- VRV_SERVO_CFG (Table 17.8). -/
def Reg.VRV_SERVO_CFG : Nat := 0x800020
def Fld.VRV_SERVO_CFG_STATE : Field := ⟨30, 2, .ro, 0⟩
def Fld.VRV_SERVO_CFG_STEP_EN : Field := ⟨29, 1, .rw, 1⟩
def Fld.VRV_SERVO_CFG_FMAX_PPB : Field := ⟨17, 9, .rw, 0xc8⟩
def Fld.VRV_SERVO_CFG_LOCK_CNT : Field := ⟨8, 8, .rw, 0x10⟩
def Fld.VRV_SERVO_CFG_HOLD_TMO : Field := ⟨0, 8, .rw, 0x32⟩
/-- VRV_SERVO_KP (Table 17.9). -/
def Reg.VRV_SERVO_KP : Nat := 0x800024
def Fld.VRV_SERVO_KP_E : Field := ⟨16, 5, .rw, 0x10⟩
def Fld.VRV_SERVO_KP_M : Field := ⟨0, 16, .rw, 0x8000⟩
/-- VRV_SERVO_KI (Table 17.9). -/
def Reg.VRV_SERVO_KI : Nat := 0x800028
def Fld.VRV_SERVO_KI_E : Field := ⟨16, 5, .rw, 0x14⟩
def Fld.VRV_SERVO_KI_M : Field := ⟨0, 16, .rw, 0x8000⟩
/-- VRV_SERVO_TH (Table 17.10). -/
def Reg.VRV_SERVO_TH : Nat := 0x80002c
def Fld.VRV_SERVO_TH_STEP_TH : Field := ⟨16, 16, .rw, 0x3e8⟩
def Fld.VRV_SERVO_TH_LOCK_TH : Field := ⟨0, 16, .rw, 0x64⟩
/-- VRV_FADJ (Table 17.10). -/
def Reg.VRV_FADJ : Nat := 0x800030
def Fld.VRV_FADJ_FADJ : Field := ⟨0, 32, .ro, 0⟩
/-- VRV_PPS_OUT (Table 17.11). -/
def Reg.VRV_PPS_OUT : Nat := 0x800040
def Fld.VRV_PPS_OUT_EN : Field := ⟨31, 1, .rw, 0⟩
def Fld.VRV_PPS_OUT_ADVANCE : Field := ⟨16, 12, .rw, 0⟩
def Fld.VRV_PPS_OUT_WIDTH : Field := ⟨0, 16, .rw, 0x64⟩
/-- VRV_FREQ_OUT (Table 17.11). -/
def Reg.VRV_FREQ_OUT : Nat := 0x800044
def Fld.VRV_FREQ_OUT_EN : Field := ⟨31, 1, .rw, 0⟩
def Fld.VRV_FREQ_OUT_CFG_ERR : Field := ⟨30, 1, .w1c, 0⟩
def Fld.VRV_FREQ_OUT_PERIOD_NS : Field := ⟨0, 30, .rw, 0x64⟩
/-- VRV_PPS_IN (Table 17.11). -/
def Reg.VRV_PPS_IN : Nat := 0x800048
def Fld.VRV_PPS_IN_PPS_DELAY : Field := ⟨0, 16, .rw, 0⟩
/-- VRV_PPS_CAP_NS (R321). -/
def Reg.VRV_PPS_CAP_NS : Nat := 0x800050
def Fld.VRV_PPS_CAP_NS_VALUE : Field := ⟨0, 30, .ro, 0⟩
/-- VRV_PPS_CAP_SEC (R321). -/
def Reg.VRV_PPS_CAP_SEC : Nat := 0x800054
def Fld.VRV_PPS_CAP_SEC_VALUE : Field := ⟨0, 32, .ro, 0⟩
/-- VRV_EVENT (Table 17.12). -/
def Reg.VRV_EVENT : Nat := 0x800060
def Fld.VRV_EVENT_PPS_IN : Field := ⟨3, 1, .w1c, 0⟩
def Fld.VRV_EVENT_STATE_CHG : Field := ⟨2, 1, .w1c, 0⟩
def Fld.VRV_EVENT_STEP : Field := ⟨1, 1, .w1c, 0⟩
def Fld.VRV_EVENT_REF_LOSS : Field := ⟨0, 1, .w1c, 0⟩
/-- VRV_EVENT_EN (Table 17.12). -/
def Reg.VRV_EVENT_EN : Nat := 0x800064
def Fld.VRV_EVENT_EN_PPS_IN : Field := ⟨3, 1, .rw, 0⟩
def Fld.VRV_EVENT_EN_STATE_CHG : Field := ⟨2, 1, .rw, 0⟩
def Fld.VRV_EVENT_EN_STEP : Field := ⟨1, 1, .rw, 0⟩
def Fld.VRV_EVENT_EN_REF_LOSS : Field := ⟨0, 1, .rw, 0⟩
/-- VRV_CNT_LO (Table 02.15). -/
def Reg.VRV_CNT_LO (k : Nat) : Nat := 0x800100 + k * 8
def Fld.VRV_CNT_LO_VALUE_LO : Field := ⟨0, 32, .ro, 0⟩
/-- VRV_CNT_HI (Table 02.15). -/
def Reg.VRV_CNT_HI (k : Nat) : Nat := 0x800104 + k * 8
def Fld.VRV_CNT_HI_VALUE_HI : Field := ⟨0, 16, .ro, 0⟩
/-- VRV_TXQ_LOST_LO (Table 02.15). -/
def Reg.VRV_TXQ_LOST_LO (g : Nat) : Nat := 0x800200 + g * 8
def Fld.VRV_TXQ_LOST_LO_VALUE_LO : Field := ⟨0, 32, .ro, 0⟩
/-- VRV_TXQ_LOST_HI (Table 02.15). -/
def Reg.VRV_TXQ_LOST_HI (g : Nat) : Nat := 0x800204 + g * 8
def Fld.VRV_TXQ_LOST_HI_VALUE_HI : Field := ⟨0, 16, .ro, 0⟩

/-! ### Block hif -/

/-- HIF_CFG (Table 18.14). -/
def Reg.HIF_CFG : Nat := 0xc00000
def Fld.HIF_CFG_COMMIT : Field := ⟨31, 1, .w1s, 0⟩
def Fld.HIF_CFG_G0_LINK : Field := ⟨4, 2, .ro, 0⟩
def Fld.HIF_CFG_BIF : Field := ⟨0, 2, .ro, 0⟩
/-- HIF_LINK_STATUS (Table 18.15). -/
def Reg.HIF_LINK_STATUS (k : Nat) : Nat := 0xc00010 + k * 4
def Fld.HIF_LINK_STATUS_UP : Field := ⟨31, 1, .ro, 0⟩
def Fld.HIF_LINK_STATUS_PERST : Field := ⟨30, 1, .ro, 1⟩
def Fld.HIF_LINK_STATUS_WIDTH : Field := ⟨8, 5, .ro, 0⟩
def Fld.HIF_LINK_STATUS_SPEED : Field := ⟨0, 4, .ro, 0⟩
/-- HIF_GUILD_BIND (Table 18.16). -/
def Reg.HIF_GUILD_BIND (g : Nat) : Nat := 0xc00100 + g * 0x10
def Fld.HIF_GUILD_BIND_VALID : Field := ⟨31, 1, .rwl, 0⟩
def Fld.HIF_GUILD_BIND_PASID_EN : Field := ⟨30, 1, .rwl, 0⟩
def Fld.HIF_GUILD_BIND_LINK : Field := ⟨28, 2, .rwl, 0⟩
def Fld.HIF_GUILD_BIND_PASID : Field := ⟨0, 20, .rwl, 0⟩
/-- HIF_GUILD_RINGS (Table 18.16). -/
def Reg.HIF_GUILD_RINGS (g : Nat) : Nat := 0xc00104 + g * 0x10
def Fld.HIF_GUILD_RINGS_COUNT : Field := ⟨16, 11, .rwl, 0x400⟩
def Fld.HIF_GUILD_RINGS_BASE : Field := ⟨0, 13, .rwl, 0⟩
/-- HIF_STAGE (Table 18.17). -/
def Reg.HIF_STAGE (g : Nat) : Nat := 0xc00108 + g * 0x10
def Fld.HIF_STAGE_LIMIT_KIB : Field := ⟨0, 15, .rw, 0x800⟩
/-- HIF_SHW (Table 18.17). -/
def Reg.HIF_SHW (g : Nat) : Nat := 0xc0010c + g * 0x10
def Fld.HIF_SHW_SIZE : Field := ⟨16, 9, .rwl, 0⟩
def Fld.HIF_SHW_BASE : Field := ⟨0, 8, .rwl, 0⟩
/-- HIF_PORT_GUILD (Table 18.18). -/
def Reg.HIF_PORT_GUILD (w : Nat) : Nat := 0xc00200 + w * 4
def Fld.HIF_PORT_GUILD_GUILD : Field := ⟨0, 32, .rw, 0⟩
/-- HIF_EVENT (Table 18.19). -/
def Reg.HIF_EVENT : Nat := 0xc00300
def Fld.HIF_EVENT_LINK_DOWN : Field := ⟨4, 4, .w1c, 0⟩
def Fld.HIF_EVENT_ISO_VIOL : Field := ⟨2, 1, .w1c, 0⟩
def Fld.HIF_EVENT_DMA_ERR : Field := ⟨1, 1, .w1c, 0⟩
def Fld.HIF_EVENT_CFG_ERR : Field := ⟨0, 1, .w1c, 0⟩
/-- HIF_EVENT_EN (Table 18.19). -/
def Reg.HIF_EVENT_EN : Nat := 0xc00304
def Fld.HIF_EVENT_EN_LINK_DOWN : Field := ⟨4, 4, .rw, 0⟩
def Fld.HIF_EVENT_EN_ISO_VIOL : Field := ⟨2, 1, .rw, 0⟩
def Fld.HIF_EVENT_EN_DMA_ERR : Field := ⟨1, 1, .rw, 0⟩
def Fld.HIF_EVENT_EN_CFG_ERR : Field := ⟨0, 1, .rw, 0⟩
/-- HIF_CNT_LO (Table 02.15). -/
def Reg.HIF_CNT_LO (k : Nat) : Nat := 0xc00400 + k * 8
def Fld.HIF_CNT_LO_VALUE_LO : Field := ⟨0, 32, .ro, 0⟩
/-- HIF_CNT_HI (Table 02.15). -/
def Reg.HIF_CNT_HI (k : Nat) : Nat := 0xc00404 + k * 8
def Fld.HIF_CNT_HI_VALUE_HI : Field := ⟨0, 16, .ro, 0⟩
/-- HIF_PUNT_BKT_RATE (Table 05.14). -/
def Reg.HIF_PUNT_BKT_RATE (g r : Nat) : Nat := 0xc40000 + g * 0x200 + r * 8
def Fld.HIF_PUNT_BKT_RATE_RATE : Field := ⟨0, 24, .rw, 0x2710⟩
/-- HIF_PUNT_BKT_BURST (Table 05.14). -/
def Reg.HIF_PUNT_BKT_BURST (g r : Nat) : Nat := 0xc40004 + g * 0x200 + r * 8
def Fld.HIF_PUNT_BKT_BURST_BURST : Field := ⟨0, 16, .rw, 0x40⟩
/-- HIF_PUNT_DROP_LO (Table 02.15). -/
def Reg.HIF_PUNT_DROP_LO (g r : Nat) : Nat := 0xc41000 + g * 0x200 + r * 8
def Fld.HIF_PUNT_DROP_LO_VALUE_LO : Field := ⟨0, 32, .ro, 0⟩
/-- HIF_PUNT_DROP_HI (Table 02.15). -/
def Reg.HIF_PUNT_DROP_HI (g r : Nat) : Nat := 0xc41004 + g * 0x200 + r * 8
def Fld.HIF_PUNT_DROP_HI_VALUE_HI : Field := ⟨0, 16, .ro, 0⟩

/-! ### Block coop -/

/-- COOP_POOL (Table 14.15). -/
def Reg.COOP_POOL (n : Nat) : Nat := 0xc80000 + n * 4
def Fld.COOP_POOL_FREE : Field := ⟨16, 16, .ro, 0⟩
def Fld.COOP_POOL_BLOCKS : Field := ⟨0, 16, .ro, 0⟩
/-- COOP_THR (Table 14.15). -/
def Reg.COOP_THR (n : Nat) : Nat := 0xc80010 + n * 4
def Fld.COOP_THR_INJ_STOP : Field := ⟨16, 16, .rw, 0⟩
def Fld.COOP_THR_WARN : Field := ⟨0, 16, .rw, 0⟩
/-- COOP_HK (Table 14.16). -/
def Reg.COOP_HK : Nat := 0xc80020
def Fld.COOP_HK_COMMIT : Field := ⟨31, 1, .w1s, 0⟩
def Fld.COOP_HK_FREE : Field := ⟨16, 9, .ro, 0x20⟩
def Fld.COOP_HK_HK_BLOCKS : Field := ⟨0, 9, .rwl, 0x20⟩
/-- COOP_HK_ALLOC (Table 14.17). -/
def Reg.COOP_HK_ALLOC : Nat := 0xc80024
def Fld.COOP_HK_ALLOC_VALID : Field := ⟨31, 1, .rc, 0⟩
def Fld.COOP_HK_ALLOC_BLOCK : Field := ⟨0, 9, .rc, 0⟩
/-- COOP_HK_FREE (Table 14.17). -/
def Reg.COOP_HK_FREE : Nat := 0xc80028
def Fld.COOP_HK_FREE_BLOCK : Field := ⟨0, 9, .wo, 0⟩
/-- MOR_POOL_CFG (Table 14.10). -/
def Reg.MOR_POOL_CFG : Nat := 0xc80100
def Fld.MOR_POOL_CFG_EN : Field := ⟨31, 1, .rw, 1⟩
def Fld.MOR_POOL_CFG_RECLAIM : Field := ⟨30, 1, .rw, 1⟩
def Fld.MOR_POOL_CFG_PERIOD_MS : Field := ⟨0, 16, .rw, 0x32⟩
/-- MOR_POOL_STATUS (Table 14.11). -/
def Reg.MOR_POOL_STATUS : Nat := 0xc80104
def Fld.MOR_POOL_STATUS_RUNNING : Field := ⟨31, 1, .ro, 0⟩
def Fld.MOR_POOL_STATUS_DRAINING : Field := ⟨30, 1, .ro, 0⟩
def Fld.MOR_POOL_STATUS_PASSES : Field := ⟨0, 16, .ro, 0⟩
/-- MOR_POOL_EVENT (Table 14.13). -/
def Reg.MOR_POOL_EVENT : Nat := 0xc80108
def Fld.MOR_POOL_EVENT_POOL_LOW : Field := ⟨4, 4, .w1c, 0⟩
def Fld.MOR_POOL_EVENT_DUPLICATE : Field := ⟨2, 1, .w1c, 0⟩
def Fld.MOR_POOL_EVENT_LEAK : Field := ⟨1, 1, .w1c, 0⟩
def Fld.MOR_POOL_EVENT_FREE_HELD : Field := ⟨0, 1, .w1c, 0⟩
/-- MOR_POOL_EVENT_EN (Table 14.13). -/
def Reg.MOR_POOL_EVENT_EN : Nat := 0xc8010c
def Fld.MOR_POOL_EVENT_EN_POOL_LOW : Field := ⟨4, 4, .rw, 0⟩
def Fld.MOR_POOL_EVENT_EN_DUPLICATE : Field := ⟨2, 1, .rw, 0⟩
def Fld.MOR_POOL_EVENT_EN_LEAK : Field := ⟨1, 1, .rw, 0⟩
def Fld.MOR_POOL_EVENT_EN_FREE_HELD : Field := ⟨0, 1, .rw, 0⟩
/-- MOR_POOL_LAST (Table 14.14). -/
def Reg.MOR_POOL_LAST : Nat := 0xc80110
def Fld.MOR_POOL_LAST_VALID : Field := ⟨31, 1, .w1c, 0⟩
def Fld.MOR_POOL_LAST_KIND : Field := ⟨29, 2, .ro, 0⟩
def Fld.MOR_POOL_LAST_HOLDER : Field := ⟨25, 4, .ro, 0⟩
def Fld.MOR_POOL_LAST_POOL : Field := ⟨22, 3, .ro, 0⟩
def Fld.MOR_POOL_LAST_INDEX : Field := ⟨0, 15, .ro, 0⟩
/-- COOP_CNT_LO (Table 02.15). -/
def Reg.COOP_CNT_LO (k : Nat) : Nat := 0xc80200 + k * 8
def Fld.COOP_CNT_LO_VALUE_LO : Field := ⟨0, 32, .ro, 0⟩
/-- COOP_CNT_HI (Table 02.15). -/
def Reg.COOP_CNT_HI (k : Nat) : Nat := 0xc80204 + k * 8
def Fld.COOP_CNT_HI_VALUE_HI : Field := ⟨0, 16, .ro, 0⟩

/-! ### Block hbm -/

/-- HBM_STATUS (Table 20.5). -/
def Reg.HBM_STATUS : Nat := 0x1000000
def Fld.HBM_STATUS_TRAINING : Field := ⟨31, 1, .ro, 1⟩
def Fld.HBM_STATUS_REFRESH_2X : Field := ⟨4, 2, .ro, 0⟩
def Fld.HBM_STATUS_TRAINED : Field := ⟨0, 2, .ro, 0⟩
/-- HBM_TRAIN (Table 20.6). -/
def Reg.HBM_TRAIN (h : Nat) : Nat := 0x1000008 + h * 4
def Fld.HBM_TRAIN_RESULT : Field := ⟨30, 2, .ro, 0⟩
def Fld.HBM_TRAIN_REPAIRED : Field := ⟨0, 8, .ro, 0⟩
/-- HBM_TEMP (Table 20.6). -/
def Reg.HBM_TEMP (h : Nat) : Nat := 0x1000010 + h * 4
def Fld.HBM_TEMP_TEMP : Field := ⟨0, 8, .ro, 0⟩
/-- HBM_SHARE (Table 20.7). -/
def Reg.HBM_SHARE (p : Nat) : Nat := 0x1000020 + p * 4
def Fld.HBM_SHARE_SHARE : Field := ⟨0, 8, .rw, 0⟩
/-- HBM_PWR (Table 20.8). -/
def Reg.HBM_PWR : Nat := 0x1000040
def Fld.HBM_PWR_SR_IDLE : Field := ⟨16, 12, .rw, 0⟩
def Fld.HBM_PWR_PD_IDLE : Field := ⟨0, 12, .rw, 0xc8⟩
/-- HBM_SCRUB (Table 20.8). -/
def Reg.HBM_SCRUB : Nat := 0x1000044
def Fld.HBM_SCRUB_PERIOD_H : Field := ⟨0, 8, .rw, 8⟩
/-- HBM_CE_TH (Table 20.9). -/
def Reg.HBM_CE_TH : Nat := 0x1000048
def Fld.HBM_CE_TH_COUNT : Field := ⟨0, 16, .rw, 0x400⟩
/-- HBM_EVENT (Table 20.10). -/
def Reg.HBM_EVENT : Nat := 0x1000050
def Fld.HBM_EVENT_CFG_ERR : Field := ⟨5, 1, .w1c, 0⟩
def Fld.HBM_EVENT_BAD_ADDR : Field := ⟨4, 1, .w1c, 0⟩
def Fld.HBM_EVENT_HOT : Field := ⟨3, 1, .w1c, 0⟩
def Fld.HBM_EVENT_TRAIN_FAIL : Field := ⟨2, 1, .w1c, 0⟩
def Fld.HBM_EVENT_UE : Field := ⟨1, 1, .w1c, 0⟩
def Fld.HBM_EVENT_CE_TH : Field := ⟨0, 1, .w1c, 0⟩
/-- HBM_EVENT_EN (Table 20.10). -/
def Reg.HBM_EVENT_EN : Nat := 0x1000054
def Fld.HBM_EVENT_EN_CFG_ERR : Field := ⟨5, 1, .rw, 0⟩
def Fld.HBM_EVENT_EN_BAD_ADDR : Field := ⟨4, 1, .rw, 0⟩
def Fld.HBM_EVENT_EN_HOT : Field := ⟨3, 1, .rw, 0⟩
def Fld.HBM_EVENT_EN_TRAIN_FAIL : Field := ⟨2, 1, .rw, 0⟩
def Fld.HBM_EVENT_EN_UE : Field := ⟨1, 1, .rw, 0⟩
def Fld.HBM_EVENT_EN_CE_TH : Field := ⟨0, 1, .rw, 0⟩
/-- HBM_ERR_LAST (Table 20.11). -/
def Reg.HBM_ERR_LAST : Nat := 0x1000058
def Fld.HBM_ERR_LAST_VALID : Field := ⟨31, 1, .w1c, 0⟩
def Fld.HBM_ERR_LAST_UNCORR : Field := ⟨30, 1, .ro, 0⟩
def Fld.HBM_ERR_LAST_BLOCK : Field := ⟨0, 29, .ro, 0⟩
/-- HBM_CNT_LO (Table 02.15). -/
def Reg.HBM_CNT_LO (k : Nat) : Nat := 0x1000100 + k * 8
def Fld.HBM_CNT_LO_VALUE_LO : Field := ⟨0, 32, .ro, 0⟩
/-- HBM_CNT_HI (Table 02.15). -/
def Reg.HBM_CNT_HI (k : Nat) : Nat := 0x1000104 + k * 8
def Fld.HBM_CNT_HI_VALUE_HI : Field := ⟨0, 16, .ro, 0⟩

/-! ### Block ftm -/

/-- FTM_CFG (Table 07.14). -/
def Reg.FTM_CFG : Nat := 0x1200000
def Fld.FTM_CFG_COMMIT : Field := ⟨31, 1, .w1s, 0⟩
def Fld.FTM_CFG_TICK_MS : Field := ⟨0, 10, .rwl, 0xa⟩
/-- FTM_STATUS (Table 07.15). -/
def Reg.FTM_STATUS : Nat := 0x1200004
def Fld.FTM_STATUS_NOROOM : Field := ⟨31, 1, .w1c, 0⟩
def Fld.FTM_STATUS_QUARANTINE : Field := ⟨0, 16, .ro, 0⟩
/-- FTM_NOW (Table 07.16). -/
def Reg.FTM_NOW : Nat := 0x1200008
def Fld.FTM_NOW_NOW : Field := ⟨0, 32, .ro, 0⟩
/-- FTM_RECORDS (Table 07.17). -/
def Reg.FTM_RECORDS : Nat := 0x120000c
def Fld.FTM_RECORDS_COUNT : Field := ⟨0, 27, .ro, 0⟩
/-- FTM_SWEEP (Table 07.18). -/
def Reg.FTM_SWEEP : Nat := 0x1200010
def Fld.FTM_SWEEP_PASSES : Field := ⟨16, 16, .ro, 0⟩
def Fld.FTM_SWEEP_PERIOD_S : Field := ⟨0, 12, .rw, 0xa⟩
/-- FTM_TMO_IDLE (Table 07.19). -/
def Reg.FTM_TMO_IDLE (k : Nat) : Nat := 0x1200040 + k * 8
def Fld.FTM_TMO_IDLE_IDLE : Field := ⟨0, 32, .rw, 0xbb8⟩
/-- FTM_TMO_CLOSED (Table 07.19). -/
def Reg.FTM_TMO_CLOSED (k : Nat) : Nat := 0x1200044 + k * 8
def Fld.FTM_TMO_CLOSED_CLOSED : Field := ⟨0, 32, .rw, 0xc8⟩
/-- FTM_GUILD_CFG (Table 07.20). -/
def Reg.FTM_GUILD_CFG (g : Nat) : Nat := 0x1200100 + g * 8
def Fld.FTM_GUILD_CFG_NOROOM : Field := ⟨30, 2, .rw, 0⟩
def Fld.FTM_GUILD_CFG_EVT_CREATE : Field := ⟨29, 1, .rw, 0⟩
def Fld.FTM_GUILD_CFG_EVT_EXPIRE : Field := ⟨28, 1, .rw, 0⟩
def Fld.FTM_GUILD_CFG_EVT_NOROOM : Field := ⟨27, 1, .rw, 1⟩
def Fld.FTM_GUILD_CFG_QUOTA : Field := ⟨0, 27, .rw, 0x4000000⟩
/-- FTM_GUILD_CNT (Table 07.20). -/
def Reg.FTM_GUILD_CNT (g : Nat) : Nat := 0x1200104 + g * 8
def Fld.FTM_GUILD_CNT_COUNT : Field := ⟨0, 27, .ro, 0⟩
/-- FTM_CNT_LO (Table 02.15). -/
def Reg.FTM_CNT_LO (k : Nat) : Nat := 0x1200200 + k * 8
def Fld.FTM_CNT_LO_VALUE_LO : Field := ⟨0, 32, .ro, 0⟩
/-- FTM_CNT_HI (Table 02.15). -/
def Reg.FTM_CNT_HI (k : Nat) : Nat := 0x1200204 + k * 8
def Fld.FTM_CNT_HI_VALUE_HI : Field := ⟨0, 16, .ro, 0⟩

/-! ### Block tly -/

/-- TLY_CFG (Table 21.7). -/
def Reg.TLY_CFG : Nat := 0x1400000
def Fld.TLY_CFG_EN : Field := ⟨31, 1, .rw, 0⟩
def Fld.TLY_CFG_DEST : Field := ⟨30, 1, .rw, 0⟩
def Fld.TLY_CFG_OWNER : Field := ⟨27, 3, .rw, 0⟩
def Fld.TLY_CFG_TLM_EN : Field := ⟨26, 1, .rw, 1⟩
def Fld.TLY_CFG_SETS : Field := ⟨0, 8, .rw, 0xd⟩
/-- TLY_PERIOD (Table 21.8). -/
def Reg.TLY_PERIOD : Nat := 0x1400004
def Fld.TLY_PERIOD_PERIOD_US : Field := ⟨0, 20, .rw, 0x3e8⟩
/-- TLY_BUF (Table 21.8). -/
def Reg.TLY_BUF : Nat := 0x1400008
def Fld.TLY_BUF_COUNT : Field := ⟨16, 16, .rw, 0x200⟩
def Fld.TLY_BUF_SIZE : Field := ⟨0, 16, .rw, 0x70⟩
/-- TLY_HOST_BASE_LO (ch. 21 (TLY_HOST_BASE)). -/
def Reg.TLY_HOST_BASE_LO : Nat := 0x1400010
def Fld.TLY_HOST_BASE_LO_VALUE : Field := ⟨12, 20, .rw, 0⟩
/-- TLY_HOST_BASE_HI (ch. 21 (TLY_HOST_BASE)). -/
def Reg.TLY_HOST_BASE_HI : Nat := 0x1400014
def Fld.TLY_HOST_BASE_HI_VALUE : Field := ⟨0, 32, .rw, 0⟩
/-- TLY_STATUS (Table 21.9). -/
def Reg.TLY_STATUS : Nat := 0x1400018
def Fld.TLY_STATUS_BUSY : Field := ⟨31, 1, .ro, 0⟩
def Fld.TLY_STATUS_HELD : Field := ⟨30, 1, .ro, 0⟩
def Fld.TLY_STATUS_BUF : Field := ⟨0, 16, .ro, 0⟩
/-- TLY_LAST (Table 21.9). -/
def Reg.TLY_LAST : Nat := 0x140001c
def Fld.TLY_LAST_DUMP : Field := ⟨0, 32, .ro, 0⟩
/-- TLY_EVENT (Table 21.10). -/
def Reg.TLY_EVENT : Nat := 0x1400020
def Fld.TLY_EVENT_GSEL_ERR : Field := ⟨4, 1, .w1c, 0⟩
def Fld.TLY_EVENT_CFG_ERR : Field := ⟨3, 1, .w1c, 0⟩
def Fld.TLY_EVENT_TRUNC : Field := ⟨2, 1, .w1c, 0⟩
def Fld.TLY_EVENT_SKIPPED : Field := ⟨1, 1, .w1c, 0⟩
def Fld.TLY_EVENT_DONE : Field := ⟨0, 1, .w1c, 0⟩
/-- TLY_EVENT_EN (Table 21.10). -/
def Reg.TLY_EVENT_EN : Nat := 0x1400024
def Fld.TLY_EVENT_EN_GSEL_ERR : Field := ⟨4, 1, .rw, 0⟩
def Fld.TLY_EVENT_EN_CFG_ERR : Field := ⟨3, 1, .rw, 0⟩
def Fld.TLY_EVENT_EN_TRUNC : Field := ⟨2, 1, .rw, 0⟩
def Fld.TLY_EVENT_EN_SKIPPED : Field := ⟨1, 1, .rw, 0⟩
def Fld.TLY_EVENT_EN_DONE : Field := ⟨0, 1, .rw, 0⟩
/-- TLY_GSEL (Table 21.11). -/
def Reg.TLY_GSEL (k : Nat) : Nat := 0x1400100 + k * 4
def Fld.TLY_GSEL_VALID : Field := ⟨31, 1, .rw, 0⟩
def Fld.TLY_GSEL_ADDR : Field := ⟨0, 27, .rw, 0⟩
/-- TLY_TSTORE (Table 21.12). -/
def Reg.TLY_TSTORE (g : Nat) : Nat := 0x1400200 + g * 4
def Fld.TLY_TSTORE_EN : Field := ⟨31, 1, .rw, 0⟩
def Fld.TLY_TSTORE_SIZE : Field := ⟨8, 9, .rw, 0⟩
def Fld.TLY_TSTORE_BASE : Field := ⟨0, 8, .rw, 0⟩
/-- TLY_TSTORE_LOST_LO (Table 02.15). -/
def Reg.TLY_TSTORE_LOST_LO (g : Nat) : Nat := 0x1400300 + g * 8
def Fld.TLY_TSTORE_LOST_LO_VALUE_LO : Field := ⟨0, 32, .ro, 0⟩
/-- TLY_TSTORE_LOST_HI (Table 02.15). -/
def Reg.TLY_TSTORE_LOST_HI (g : Nat) : Nat := 0x1400304 + g * 8
def Fld.TLY_TSTORE_LOST_HI_VALUE_HI : Field := ⟨0, 16, .ro, 0⟩

/-! ### Block xbr -/

/-- XBR_STOP (Table 13.20). -/
def Reg.XBR_STOP : Nat := 0x1600004
def Fld.XBR_STOP_STOPPED : Field := ⟨0, 13, .ro, 0⟩
/-- XBR_WEIGHT (Table 13.21). -/
def Reg.XBR_WEIGHT (c : Nat) : Nat := 0x1600010 + c * 4
def Fld.XBR_WEIGHT_WEIGHT : Field := ⟨0, 8, .rw, 0x10⟩
/-- XBR_PORT_CNT_LO (Table 02.15). -/
def Reg.XBR_PORT_CNT_LO (p k : Nat) : Nat := 0x1600400 + p * 0x20 + k * 8
def Fld.XBR_PORT_CNT_LO_VALUE_LO : Field := ⟨0, 32, .ro, 0⟩
/-- XBR_PORT_CNT_HI (Table 02.15). -/
def Reg.XBR_PORT_CNT_HI (p k : Nat) : Nat := 0x1600404 + p * 0x20 + k * 8
def Fld.XBR_PORT_CNT_HI_VALUE_HI : Field := ⟨0, 16, .ro, 0⟩

/-! ### Block mate -/

/-- MATE_CFG (Table 23.6). -/
def Reg.MATE_CFG : Nat := 0x1800000
def Fld.MATE_CFG_COMMIT : Field := ⟨31, 1, .w1s, 0⟩
def Fld.MATE_CFG_PRIMARY : Field := ⟨30, 1, .ro, 0⟩
def Fld.MATE_CFG_STBY_HOST : Field := ⟨29, 1, .rw, 0⟩
def Fld.MATE_CFG_STBY_INJ : Field := ⟨28, 1, .rw, 0⟩
def Fld.MATE_CFG_HB_TAKE : Field := ⟨27, 1, .rwl, 1⟩
def Fld.MATE_CFG_SETTLE_US : Field := ⟨16, 8, .rwl, 0xc8⟩
def Fld.MATE_CFG_MISS : Field := ⟨11, 5, .rwl, 8⟩
def Fld.MATE_CFG_DRAIN_US : Field := ⟨0, 8, .rw, 0x32⟩
/-- MATE_TMO (Table 23.7). -/
def Reg.MATE_TMO : Nat := 0x1800004
def Fld.MATE_TMO_CLAIM_DELAY_MS : Field := ⟨16, 16, .rw, 0x64⟩
def Fld.MATE_TMO_KICK_TMO_US : Field := ⟨0, 16, .rw, 0x64⟩
/-- MATE_CTL (Table 23.7). -/
def Reg.MATE_CTL : Nat := 0x1800008
def Fld.MATE_CTL_EN : Field := ⟨31, 1, .rw, 0⟩
/-- MATE_KICK (Table 23.7). -/
def Reg.MATE_KICK : Nat := 0x180000c
def Fld.MATE_KICK_KICK : Field := ⟨0, 32, .wo, 0⟩
/-- MATE_STATUS (Table 23.8). -/
def Reg.MATE_STATUS : Nat := 0x1800010
def Fld.MATE_STATUS_ROLE : Field := ⟨30, 2, .ro, 0⟩
def Fld.MATE_STATUS_PEER_ACT : Field := ⟨29, 1, .ro, 0⟩
def Fld.MATE_STATUS_PEER_HB : Field := ⟨28, 1, .ro, 0⟩
def Fld.MATE_STATUS_PEER_WAS_ACT : Field := ⟨27, 1, .ro, 0⟩
def Fld.MATE_STATUS_FORCED : Field := ⟨26, 1, .ro, 0⟩
def Fld.MATE_STATUS_GAP : Field := ⟨25, 1, .ro, 0⟩
def Fld.MATE_STATUS_HB_LIVE : Field := ⟨24, 1, .ro, 0⟩
/-- MATE_EVENT (Table 23.9). -/
def Reg.MATE_EVENT : Nat := 0x1800018
def Fld.MATE_EVENT_FORCE : Field := ⟨4, 1, .w1c, 0⟩
def Fld.MATE_EVENT_SPLIT : Field := ⟨3, 1, .w1c, 0⟩
def Fld.MATE_EVENT_PEER_LOST : Field := ⟨2, 1, .w1c, 0⟩
def Fld.MATE_EVENT_YIELDED : Field := ⟨1, 1, .w1c, 0⟩
def Fld.MATE_EVENT_CLAIMED : Field := ⟨0, 1, .w1c, 0⟩
/-- MATE_EVENT_EN (Table 23.9). -/
def Reg.MATE_EVENT_EN : Nat := 0x180001c
def Fld.MATE_EVENT_EN_FORCE : Field := ⟨4, 1, .rw, 0⟩
def Fld.MATE_EVENT_EN_SPLIT : Field := ⟨3, 1, .rw, 0⟩
def Fld.MATE_EVENT_EN_PEER_LOST : Field := ⟨2, 1, .rw, 0⟩
def Fld.MATE_EVENT_EN_YIELDED : Field := ⟨1, 1, .rw, 0⟩
def Fld.MATE_EVENT_EN_CLAIMED : Field := ⟨0, 1, .rw, 0⟩
/-- MATE_CNT_LO (Table 02.15). -/
def Reg.MATE_CNT_LO (k : Nat) : Nat := 0x1800100 + k * 8
def Fld.MATE_CNT_LO_VALUE_LO : Field := ⟨0, 32, .ro, 0⟩
/-- MATE_CNT_HI (Table 02.15). -/
def Reg.MATE_CNT_HI (k : Nat) : Nat := 0x1800104 + k * 8
def Fld.MATE_CNT_HI_VALUE_HI : Field := ⟨0, 16, .ro, 0⟩

/-! ### Block tnk -/

/-- TNK_CTL (Table 22.7). -/
def Reg.TNK_CTL : Nat := 0x1c00000
def Fld.TNK_CTL_EN : Field := ⟨31, 1, .rw, 0⟩
def Fld.TNK_CTL_GUILD_EN : Field := ⟨0, 8, .rw, 0⟩
/-- TNK_SEED (Table 22.7). -/
def Reg.TNK_SEED : Nat := 0x1c00004
def Fld.TNK_SEED_SEED : Field := ⟨0, 32, .rw, 1⟩
/-- TNK_MEMINJ (Table 22.8). -/
def Reg.TNK_MEMINJ : Nat := 0x1c00010
def Fld.TNK_MEMINJ_ARM : Field := ⟨31, 1, .rw, 0⟩
def Fld.TNK_MEMINJ_KIND : Field := ⟨12, 1, .rw, 0⟩
def Fld.TNK_MEMINJ_STATION : Field := ⟨8, 4, .rw, 0⟩
def Fld.TNK_MEMINJ_MEM : Field := ⟨0, 5, .rw, 0⟩
/-- TNK_MEMINJ_ADDR (ch. 22 (TNK_MEMINJ_ADDR)). -/
def Reg.TNK_MEMINJ_ADDR : Nat := 0x1c00014
def Fld.TNK_MEMINJ_ADDR_VALUE : Field := ⟨0, 29, .rw, 0⟩
/-- TNK_ERR_EVENT (Table 22.9). -/
def Reg.TNK_ERR_EVENT : Nat := 0x1c00020
def Fld.TNK_ERR_EVENT_TNK_DONE : Field := ⟨3, 1, .ro, 0⟩
def Fld.TNK_ERR_EVENT_FATAL : Field := ⟨2, 1, .w1c, 0⟩
def Fld.TNK_ERR_EVENT_UE : Field := ⟨1, 1, .w1c, 0⟩
def Fld.TNK_ERR_EVENT_CE_TH : Field := ⟨0, 1, .w1c, 0⟩
/-- TNK_ERR_EVENT_EN (Table 22.9). -/
def Reg.TNK_ERR_EVENT_EN : Nat := 0x1c00024
def Fld.TNK_ERR_EVENT_EN_TNK_DONE : Field := ⟨3, 1, .rw, 0⟩
def Fld.TNK_ERR_EVENT_EN_FATAL : Field := ⟨2, 1, .rw, 0⟩
def Fld.TNK_ERR_EVENT_EN_UE : Field := ⟨1, 1, .rw, 0⟩
def Fld.TNK_ERR_EVENT_EN_CE_TH : Field := ⟨0, 1, .rw, 0⟩
/-- TNK_ERR_TH (Table 22.9). -/
def Reg.TNK_ERR_TH : Nat := 0x1c00028
def Fld.TNK_ERR_TH_COUNT : Field := ⟨0, 16, .rw, 0x400⟩
/-- TNK_ERR_LAST0 (Table 22.10). -/
def Reg.TNK_ERR_LAST0 : Nat := 0x1c00030
def Fld.TNK_ERR_LAST0_VALID : Field := ⟨31, 1, .w1c, 0⟩
def Fld.TNK_ERR_LAST0_CLASS : Field := ⟨29, 2, .ro, 0⟩
def Fld.TNK_ERR_LAST0_MEM : Field := ⟨8, 5, .ro, 0⟩
def Fld.TNK_ERR_LAST0_STATION : Field := ⟨0, 4, .ro, 0⟩
/-- TNK_ERR_LAST1 (Table 22.10). -/
def Reg.TNK_ERR_LAST1 : Nat := 0x1c00034
def Fld.TNK_ERR_LAST1_INDEX : Field := ⟨0, 32, .ro, 0⟩
/-- TNK_ERR_CNT_LO (Table 02.15). -/
def Reg.TNK_ERR_CNT_LO (k : Nat) : Nat := 0x1c00100 + k * 8
def Fld.TNK_ERR_CNT_LO_VALUE_LO : Field := ⟨0, 32, .ro, 0⟩
/-- TNK_ERR_CNT_HI (Table 02.15). -/
def Reg.TNK_ERR_CNT_HI (k : Nat) : Nat := 0x1c00104 + k * 8
def Fld.TNK_ERR_CNT_HI_VALUE_HI : Field := ⟨0, 16, .ro, 0⟩

/-! ### Block stn -/

/-- STN_PACE (Table 02.14). -/
def Reg.STN_PACE (s : Nat) : Nat := stationBase s + 0x100
def Fld.STN_PACE_VALID : Field := ⟨31, 1, .ro, 0⟩
def Fld.STN_PACE_EFF : Field := ⟨16, 12, .ro, 0⟩
def Fld.STN_PACE_RAW : Field := ⟨0, 12, .ro, 0⟩
/-- STN_PACE_CNT_LO (Table 02.15). -/
def Reg.STN_PACE_CNT_LO (s : Nat) : Nat := stationBase s + 0x108
def Fld.STN_PACE_CNT_LO_VALUE_LO : Field := ⟨0, 32, .ro, 0⟩
/-- STN_PACE_CNT_HI (Table 02.15). -/
def Reg.STN_PACE_CNT_HI (s : Nat) : Nat := stationBase s + 0x10c
def Fld.STN_PACE_CNT_HI_VALUE_HI : Field := ⟨0, 16, .ro, 0⟩
/-- STN_ENERGY_LO (Table 02.15). -/
def Reg.STN_ENERGY_LO (s a : Nat) : Nat := stationBase s + 0x120 + a * 8
def Fld.STN_ENERGY_LO_VALUE_LO : Field := ⟨0, 32, .ro, 0⟩
/-- STN_ENERGY_HI (Table 02.15). -/
def Reg.STN_ENERGY_HI (s a : Nat) : Nat := stationBase s + 0x124 + a * 8
def Fld.STN_ENERGY_HI_VALUE_HI : Field := ⟨0, 16, .ro, 0⟩
/-- STN_QUAD (Table 03.11). -/
def Reg.STN_QUAD (s j : Nat) : Nat := stationBase s + 0x200 + j * 4
def Fld.STN_QUAD_ERR : Field := ⟨31, 1, .w1c, 0⟩
def Fld.STN_QUAD_MODE : Field := ⟨0, 3, .rw, 0⟩
/-- STN_AE_CFG (Table 10.13). -/
def Reg.STN_AE_CFG (s : Nat) : Nat := stationBase s + 0x1000
def Fld.STN_AE_CFG_MAX_RESTART : Field := ⟨16, 2, .rw, 1⟩
def Fld.STN_AE_CFG_MAX_WORDS : Field := ⟨0, 10, .rw, 0x100⟩
/-- STN_AE_FAULT (Table 10.14). -/
def Reg.STN_AE_FAULT (s : Nat) : Nat := stationBase s + 0x1004
def Fld.STN_AE_FAULT_VALID : Field := ⟨31, 1, .w1c, 0⟩
def Fld.STN_AE_FAULT_ENGINE : Field := ⟨24, 5, .ro, 0⟩
def Fld.STN_AE_FAULT_CODE : Field := ⟨16, 4, .ro, 0⟩
def Fld.STN_AE_FAULT_ADDR : Field := ⟨0, 14, .ro, 0⟩
/-- STN_AE_EVENT (Table 10.15). -/
def Reg.STN_AE_EVENT (s : Nat) : Nat := stationBase s + 0x1008
def Fld.STN_AE_EVENT_TRAP_LOST : Field := ⟨3, 1, .w1c, 0⟩
def Fld.STN_AE_EVENT_TRAP : Field := ⟨2, 1, .w1c, 0⟩
def Fld.STN_AE_EVENT_FAULT_DROP : Field := ⟨1, 1, .w1c, 0⟩
def Fld.STN_AE_EVENT_FAULT : Field := ⟨0, 1, .w1c, 0⟩
/-- STN_AE_EVENT_EN (Table 10.15). -/
def Reg.STN_AE_EVENT_EN (s : Nat) : Nat := stationBase s + 0x100c
def Fld.STN_AE_EVENT_EN_TRAP_LOST : Field := ⟨3, 1, .rw, 0⟩
def Fld.STN_AE_EVENT_EN_TRAP : Field := ⟨2, 1, .rw, 0⟩
def Fld.STN_AE_EVENT_EN_FAULT_DROP : Field := ⟨1, 1, .rw, 0⟩
def Fld.STN_AE_EVENT_EN_FAULT : Field := ⟨0, 1, .rw, 0⟩
/-- STN_AE_UNCLASS (Table 10.16). -/
def Reg.STN_AE_UNCLASS (s g : Nat) : Nat := stationBase s + 0x1020 + g * 4
def Fld.STN_AE_UNCLASS_OPCODE : Field := ⟨0, 8, .rw, 0⟩
/-- STN_AE_TRAP_LO (Table 10.17). -/
def Reg.STN_AE_TRAP_LO (s : Nat) : Nat := stationBase s + 0x1040
def Fld.STN_AE_TRAP_LO_CODE : Field := ⟨16, 16, .rc, 0⟩
def Fld.STN_AE_TRAP_LO_ADDR : Field := ⟨0, 14, .rc, 0⟩
/-- STN_AE_TRAP_HI (Table 10.17). -/
def Reg.STN_AE_TRAP_HI (s : Nat) : Nat := stationBase s + 0x1044
def Fld.STN_AE_TRAP_HI_VALID : Field := ⟨31, 1, .ro, 0⟩
def Fld.STN_AE_TRAP_HI_ENGINE : Field := ⟨0, 5, .ro, 0⟩
/-- STN_AE_CNT_LO (Table 02.15). -/
def Reg.STN_AE_CNT_LO (s k : Nat) : Nat := stationBase s + 0x1100 + k * 8
def Fld.STN_AE_CNT_LO_VALUE_LO : Field := ⟨0, 32, .ro, 0⟩
/-- STN_AE_CNT_HI (Table 02.15). -/
def Reg.STN_AE_CNT_HI (s k : Nat) : Nat := stationBase s + 0x1104 + k * 8
def Fld.STN_AE_CNT_HI_VALUE_HI : Field := ⟨0, 16, .ro, 0⟩
/-- STN_EVSEL (Table 21.13). -/
def Reg.STN_EVSEL (s k : Nat) : Nat := stationBase s + 0x2000 + k * 4
def Fld.STN_EVSEL_DUMP : Field := ⟨31, 1, .rw, 0⟩
def Fld.STN_EVSEL_GUILD_EN : Field := ⟨30, 1, .rw, 0⟩
def Fld.STN_EVSEL_GUILD : Field := ⟨8, 3, .rw, 0⟩
def Fld.STN_EVSEL_EVENT : Field := ⟨0, 6, .rw, 0⟩
/-- STN_EV_OVF (ch. 21 (STN_EV_OVF)). -/
def Reg.STN_EV_OVF (s w : Nat) : Nat := stationBase s + 0x2100 + w * 4
def Fld.STN_EV_OVF_VALUE : Field := ⟨0, 32, .w1c, 0⟩
/-- STN_EV_OVF_EN (ch. 21 (STN_EV_OVF_EN)). -/
def Reg.STN_EV_OVF_EN (s w : Nat) : Nat := stationBase s + 0x2108 + w * 4
def Fld.STN_EV_OVF_EN_VALUE : Field := ⟨0, 32, .rw, 0⟩
/-- STN_EV_LO (R383). -/
def Reg.STN_EV_LO (s k : Nat) : Nat := stationBase s + 0x3000 + k * 8
def Fld.STN_EV_LO_VALUE : Field := ⟨0, 32, .rw, 0⟩
/-- STN_EV_HI (R383). -/
def Reg.STN_EV_HI (s k : Nat) : Nat := stationBase s + 0x3004 + k * 8
def Fld.STN_EV_HI_VALUE : Field := ⟨0, 16, .rw, 0⟩

/-! ### Block lane -/

/-- LANE_CFG (Table 03.12). -/
def Reg.LANE_CFG (p : Nat) : Nat := stationBase (p / 12) + 0x40000 + p % 12 * 0x4000
def Fld.LANE_CFG_EN : Field := ⟨31, 1, .rw, 0⟩
def Fld.LANE_CFG_DOWN_HOLD : Field := ⟨20, 10, .rw, 0⟩
def Fld.LANE_CFG_TX_INV : Field := ⟨19, 1, .rw, 0⟩
def Fld.LANE_CFG_RX_INV : Field := ⟨18, 1, .rw, 0⟩
def Fld.LANE_CFG_TRAIN_EN : Field := ⟨17, 1, .rw, 1⟩
def Fld.LANE_CFG_AN_EN : Field := ⟨16, 1, .rw, 1⟩
def Fld.LANE_CFG_FEC : Field := ⟨8, 4, .rw, 0⟩
def Fld.LANE_CFG_TYPE : Field := ⟨0, 4, .rw, 0⟩
/-- LANE_STATUS (Table 03.13). -/
def Reg.LANE_STATUS (p : Nat) : Nat := stationBase (p / 12) + 0x40004 + p % 12 * 0x4000
def Fld.LANE_STATUS_CFG_PENDING : Field := ⟨31, 1, .ro, 0⟩
def Fld.LANE_STATUS_CFG_ERR : Field := ⟨30, 1, .ro, 0⟩
def Fld.LANE_STATUS_REFOK : Field := ⟨29, 1, .ro, 0⟩
def Fld.LANE_STATUS_LAT_VALID : Field := ⟨28, 1, .ro, 0⟩
def Fld.LANE_STATUS_ACT_FEC : Field := ⟨20, 4, .ro, 0⟩
def Fld.LANE_STATUS_ACT_TYPE : Field := ⟨16, 4, .ro, 0⟩
def Fld.LANE_STATUS_LOCKED : Field := ⟨12, 4, .ro, 0⟩
def Fld.LANE_STATUS_TRAIN_FAILS : Field := ⟨4, 8, .rc, 0⟩
def Fld.LANE_STATUS_STATE : Field := ⟨0, 4, .ro, 0⟩
/-- LANE_AN_ADV (Table 03.14). -/
def Reg.LANE_AN_ADV (p : Nat) : Nat := stationBase (p / 12) + 0x40008 + p % 12 * 0x4000
def Fld.LANE_AN_ADV_PAUSE : Field := ⟨28, 2, .rw, 0⟩
def Fld.LANE_AN_ADV_FEC_BITS : Field := ⟨24, 4, .rw, 0⟩
def Fld.LANE_AN_ADV_ABILITY : Field := ⟨0, 17, .rw, 0⟩
/-- LANE_AN_LP (Table 03.15). -/
def Reg.LANE_AN_LP (p : Nat) : Nat := stationBase (p / 12) + 0x4000c + p % 12 * 0x4000
def Fld.LANE_AN_LP_VALID : Field := ⟨31, 1, .ro, 0⟩
def Fld.LANE_AN_LP_PAUSE : Field := ⟨28, 2, .ro, 0⟩
def Fld.LANE_AN_LP_FEC_BITS : Field := ⟨24, 4, .ro, 0⟩
def Fld.LANE_AN_LP_HCD : Field := ⟨20, 4, .ro, 0⟩
def Fld.LANE_AN_LP_ABILITY : Field := ⟨0, 17, .ro, 0⟩
/-- LANE_TXEQ (Table 03.16). -/
def Reg.LANE_TXEQ (p : Nat) : Nat := stationBase (p / 12) + 0x40010 + p % 12 * 0x4000
def Fld.LANE_TXEQ_OVERRIDE : Field := ⟨31, 1, .rw, 0⟩
def Fld.LANE_TXEQ_PRE2 : Field := ⟨24, 6, .rw, 0⟩
def Fld.LANE_TXEQ_PRE1 : Field := ⟨16, 6, .rw, 0⟩
def Fld.LANE_TXEQ_MAIN : Field := ⟨8, 6, .rw, 0x3f⟩
def Fld.LANE_TXEQ_POST1 : Field := ⟨0, 6, .rw, 0⟩
/-- LANE_TEST (Table 03.17). -/
def Reg.LANE_TEST (p : Nat) : Nat := stationBase (p / 12) + 0x40014 + p % 12 * 0x4000
def Fld.LANE_TEST_LOOPBACK : Field := ⟨28, 4, .rw, 0⟩
def Fld.LANE_TEST_TX_ON_LB : Field := ⟨25, 1, .rw, 0⟩
def Fld.LANE_TEST_CHK_LOCK : Field := ⟨24, 1, .ro, 0⟩
def Fld.LANE_TEST_PATTERN : Field := ⟨16, 4, .rw, 0⟩
def Fld.LANE_TEST_CHK_EN : Field := ⟨1, 1, .rw, 0⟩
def Fld.LANE_TEST_GEN_EN : Field := ⟨0, 1, .rw, 0⟩
/-- LANE_PRBS_ERR (Table 03.18). -/
def Reg.LANE_PRBS_ERR (p : Nat) : Nat := stationBase (p / 12) + 0x40018 + p % 12 * 0x4000
def Fld.LANE_PRBS_ERR_ERRORS : Field := ⟨0, 32, .rc, 0⟩
/-- LANE_LAT_TX (Table 03.19). -/
def Reg.LANE_LAT_TX (p : Nat) : Nat := stationBase (p / 12) + 0x40024 + p % 12 * 0x4000
def Fld.LANE_LAT_TX_LAT : Field := ⟨0, 24, .ro, 0⟩
/-- LANE_LAT_RX (Table 03.19). -/
def Reg.LANE_LAT_RX (p : Nat) : Nat := stationBase (p / 12) + 0x40028 + p % 12 * 0x4000
def Fld.LANE_LAT_RX_LAT : Field := ⟨0, 24, .ro, 0⟩
/-- LANE_EVENT (Table 03.9). -/
def Reg.LANE_EVENT (p : Nat) : Nat := stationBase (p / 12) + 0x4001c + p % 12 * 0x4000
def Fld.LANE_EVENT_PRBS_LOSS : Field := ⟨6, 1, .w1c, 0⟩
def Fld.LANE_EVENT_FEC_UNCORR : Field := ⟨5, 1, .w1c, 0⟩
def Fld.LANE_EVENT_REFLOSS : Field := ⟨4, 1, .w1c, 0⟩
def Fld.LANE_EVENT_TRAIN_FAIL : Field := ⟨3, 1, .w1c, 0⟩
def Fld.LANE_EVENT_AN_DONE : Field := ⟨2, 1, .w1c, 0⟩
def Fld.LANE_EVENT_DOWN : Field := ⟨1, 1, .w1c, 0⟩
def Fld.LANE_EVENT_UP : Field := ⟨0, 1, .w1c, 0⟩
/-- LANE_EVENT_EN (Table 03.9). -/
def Reg.LANE_EVENT_EN (p : Nat) : Nat := stationBase (p / 12) + 0x40020 + p % 12 * 0x4000
def Fld.LANE_EVENT_EN_PRBS_LOSS : Field := ⟨6, 1, .rw, 0⟩
def Fld.LANE_EVENT_EN_FEC_UNCORR : Field := ⟨5, 1, .rw, 0⟩
def Fld.LANE_EVENT_EN_REFLOSS : Field := ⟨4, 1, .rw, 0⟩
def Fld.LANE_EVENT_EN_TRAIN_FAIL : Field := ⟨3, 1, .rw, 0⟩
def Fld.LANE_EVENT_EN_AN_DONE : Field := ⟨2, 1, .rw, 0⟩
def Fld.LANE_EVENT_EN_DOWN : Field := ⟨1, 1, .rw, 0⟩
def Fld.LANE_EVENT_EN_UP : Field := ⟨0, 1, .rw, 0⟩
/-- LANE_FEC_CORR_LO (Table 02.15). -/
def Reg.LANE_FEC_CORR_LO (p : Nat) : Nat := stationBase (p / 12) + 0x40030 + p % 12 * 0x4000
def Fld.LANE_FEC_CORR_LO_VALUE_LO : Field := ⟨0, 32, .ro, 0⟩
/-- LANE_FEC_CORR_HI (Table 02.15). -/
def Reg.LANE_FEC_CORR_HI (p : Nat) : Nat := stationBase (p / 12) + 0x40034 + p % 12 * 0x4000
def Fld.LANE_FEC_CORR_HI_VALUE_HI : Field := ⟨0, 16, .ro, 0⟩
/-- LANE_FEC_UNCORR_LO (Table 02.15). -/
def Reg.LANE_FEC_UNCORR_LO (p : Nat) : Nat := stationBase (p / 12) + 0x40038 + p % 12 * 0x4000
def Fld.LANE_FEC_UNCORR_LO_VALUE_LO : Field := ⟨0, 32, .ro, 0⟩
/-- LANE_FEC_UNCORR_HI (Table 02.15). -/
def Reg.LANE_FEC_UNCORR_HI (p : Nat) : Nat := stationBase (p / 12) + 0x4003c + p % 12 * 0x4000
def Fld.LANE_FEC_UNCORR_HI_VALUE_HI : Field := ⟨0, 16, .ro, 0⟩
/-- LANE_FEC_SYM_LO (Table 02.15). -/
def Reg.LANE_FEC_SYM_LO (p : Nat) : Nat := stationBase (p / 12) + 0x40040 + p % 12 * 0x4000
def Fld.LANE_FEC_SYM_LO_VALUE_LO : Field := ⟨0, 32, .ro, 0⟩
/-- LANE_FEC_SYM_HI (Table 02.15). -/
def Reg.LANE_FEC_SYM_HI (p : Nat) : Nat := stationBase (p / 12) + 0x40044 + p % 12 * 0x4000
def Fld.LANE_FEC_SYM_HI_VALUE_HI : Field := ⟨0, 16, .ro, 0⟩

/-! ### Block mac -/

/-- MAC_CFG (Table 04.8). -/
def Reg.MAC_CFG (p : Nat) : Nat := stationBase (p / 12) + 0x80000 + p % 12 * 0x4000
def Fld.MAC_CFG_MAX_LEN : Field := ⟨16, 14, .rw, 0x3e80⟩
def Fld.MAC_CFG_DEF_TC : Field := ⟨0, 3, .rw, 0⟩
/-- MAC_TPID (Table 04.9). -/
def Reg.MAC_TPID (p : Nat) : Nat := stationBase (p / 12) + 0x80004 + p % 12 * 0x4000
def Fld.MAC_TPID_EXTRA : Field := ⟨16, 16, .rw, 0x9100⟩
def Fld.MAC_TPID_EXTRA_EN : Field := ⟨0, 1, .rw, 0⟩
/-- MAC_PCP_MAP (Table 04.10). -/
def Reg.MAC_PCP_MAP (p : Nat) : Nat := stationBase (p / 12) + 0x80008 + p % 12 * 0x4000
def Fld.MAC_PCP_MAP_MAP : Field := ⟨0, 24, .rw, 0xfac688⟩
/-- MAC_FC_CFG (Table 04.11). -/
def Reg.MAC_FC_CFG (p : Nat) : Nat := stationBase (p / 12) + 0x8000c + p % 12 * 0x4000
def Fld.MAC_FC_CFG_MODE : Field := ⟨30, 2, .rw, 0⟩
def Fld.MAC_FC_CFG_FOLLOW_AN : Field := ⟨29, 1, .rw, 1⟩
def Fld.MAC_FC_CFG_PAUSE_RX : Field := ⟨28, 1, .rw, 0⟩
def Fld.MAC_FC_CFG_PAUSE_TX : Field := ⟨27, 1, .rw, 0⟩
def Fld.MAC_FC_CFG_PFC_RX_EN : Field := ⟨16, 7, .rw, 0⟩
def Fld.MAC_FC_CFG_PFC_TX_EN : Field := ⟨0, 8, .rw, 0⟩
/-- MAC_FC_TIME (Table 04.12). -/
def Reg.MAC_FC_TIME (p : Nat) : Nat := stationBase (p / 12) + 0x80010 + p % 12 * 0x4000
def Fld.MAC_FC_TIME_REFRESH : Field := ⟨16, 16, .rw, 0x7fff⟩
def Fld.MAC_FC_TIME_QUANTA : Field := ⟨0, 16, .rw, 0xffff⟩
/-- MAC_FC_STATUS (Table 04.13). -/
def Reg.MAC_FC_STATUS (p : Nat) : Nat := stationBase (p / 12) + 0x80014 + p % 12 * 0x4000
def Fld.MAC_FC_STATUS_RX_PAUSED : Field := ⟨24, 8, .ro, 0⟩
def Fld.MAC_FC_STATUS_TX_XOFF : Field := ⟨16, 8, .ro, 0⟩
def Fld.MAC_FC_STATUS_AN_TX : Field := ⟨1, 1, .ro, 0⟩
def Fld.MAC_FC_STATUS_AN_RX : Field := ⟨0, 1, .ro, 0⟩
/-- MAC_MERGE_CFG (Table 04.14). -/
def Reg.MAC_MERGE_CFG (p : Nat) : Nat := stationBase (p / 12) + 0x80018 + p % 12 * 0x4000
def Fld.MAC_MERGE_CFG_EN : Field := ⟨31, 1, .rw, 0⟩
def Fld.MAC_MERGE_CFG_VERIFY_DIS : Field := ⟨30, 1, .rw, 0⟩
def Fld.MAC_MERGE_CFG_VERIFY_TIME : Field := ⟨16, 8, .rw, 0xa⟩
/-- MAC_MERGE_STATUS (Table 04.15). -/
def Reg.MAC_MERGE_STATUS (p : Nat) : Nat := stationBase (p / 12) + 0x8001c + p % 12 * 0x4000
def Fld.MAC_MERGE_STATUS_ACTIVE : Field := ⟨31, 1, .ro, 0⟩
def Fld.MAC_MERGE_STATUS_VERIFY : Field := ⟨0, 3, .ro, 0⟩
/-- MAC_STAT_CTL (Table 04.18). -/
def Reg.MAC_STAT_CTL (p : Nat) : Nat := stationBase (p / 12) + 0x80030 + p % 12 * 0x4000
def Fld.MAC_STAT_CTL_CLEAR : Field := ⟨0, 1, .w1s, 0⟩
/-- MAC_EVENT (Table 04.16). -/
def Reg.MAC_EVENT (p : Nat) : Nat := stationBase (p / 12) + 0x80020 + p % 12 * 0x4000
def Fld.MAC_EVENT_ASM_ERR : Field := ⟨3, 1, .w1c, 0⟩
def Fld.MAC_EVENT_VERIFY_FAIL : Field := ⟨2, 1, .w1c, 0⟩
def Fld.MAC_EVENT_VERIFY_OK : Field := ⟨1, 1, .w1c, 0⟩
def Fld.MAC_EVENT_STAT_HALF : Field := ⟨0, 1, .w1c, 0⟩
/-- MAC_EVENT_EN (Table 04.16). -/
def Reg.MAC_EVENT_EN (p : Nat) : Nat := stationBase (p / 12) + 0x80024 + p % 12 * 0x4000
def Fld.MAC_EVENT_EN_ASM_ERR : Field := ⟨3, 1, .rw, 0⟩
def Fld.MAC_EVENT_EN_VERIFY_FAIL : Field := ⟨2, 1, .rw, 0⟩
def Fld.MAC_EVENT_EN_VERIFY_OK : Field := ⟨1, 1, .rw, 0⟩
def Fld.MAC_EVENT_EN_STAT_HALF : Field := ⟨0, 1, .rw, 0⟩
/-- MAC_SA_LO (Table 04.17). -/
def Reg.MAC_SA_LO (p : Nat) : Nat := stationBase (p / 12) + 0x80028 + p % 12 * 0x4000
def Fld.MAC_SA_LO_SA_LO : Field := ⟨0, 32, .rw, 0⟩
/-- MAC_SA_HI (Table 04.17). -/
def Reg.MAC_SA_HI (p : Nat) : Nat := stationBase (p / 12) + 0x8002c + p % 12 * 0x4000
def Fld.MAC_SA_HI_SA_HI : Field := ⟨0, 16, .rw, 0⟩
/-- MAC_STAT_HALF (Table 04.19). -/
def Reg.MAC_STAT_HALF (p w : Nat) : Nat := stationBase (p / 12) + 0x80040 + p % 12 * 0x4000 + w * 4
def Fld.MAC_STAT_HALF_FLAG : Field := ⟨0, 32, .w1c, 0⟩
/-- MAC_STEER_MATCH (Table 04.20). -/
def Reg.MAC_STEER_MATCH (p k : Nat) : Nat := stationBase (p / 12) + 0x80100 + p % 12 * 0x4000 + k * 0x10
def Fld.MAC_STEER_MATCH_ETYPE : Field := ⟨16, 16, .rw, 0⟩
def Fld.MAC_STEER_MATCH_PCP : Field := ⟨13, 3, .rw, 0⟩
def Fld.MAC_STEER_MATCH_TAGGED : Field := ⟨12, 1, .rw, 0⟩
def Fld.MAC_STEER_MATCH_VID : Field := ⟨0, 12, .rw, 0⟩
/-- MAC_STEER_MASK (Table 04.20). -/
def Reg.MAC_STEER_MASK (p k : Nat) : Nat := stationBase (p / 12) + 0x80104 + p % 12 * 0x4000 + k * 0x10
def Fld.MAC_STEER_MASK_ETYPE : Field := ⟨16, 16, .rw, 0⟩
def Fld.MAC_STEER_MASK_PCP : Field := ⟨13, 3, .rw, 0⟩
def Fld.MAC_STEER_MASK_TAGGED : Field := ⟨12, 1, .rw, 0⟩
def Fld.MAC_STEER_MASK_VID : Field := ⟨0, 12, .rw, 0⟩
/-- MAC_STEER_ACT (Table 04.21). -/
def Reg.MAC_STEER_ACT (p k : Nat) : Nat := stationBase (p / 12) + 0x80108 + p % 12 * 0x4000 + k * 0x10
def Fld.MAC_STEER_ACT_VALID : Field := ⟨31, 1, .rw, 0⟩
def Fld.MAC_STEER_ACT_ACTION : Field := ⟨4, 2, .rw, 0⟩
def Fld.MAC_STEER_ACT_TC : Field := ⟨0, 3, .rw, 0⟩
/-- MAC_STAT_LO (Table 02.15). -/
def Reg.MAC_STAT_LO (p k : Nat) : Nat := stationBase (p / 12) + 0x81000 + p % 12 * 0x4000 + k * 8
def Fld.MAC_STAT_LO_VALUE_LO : Field := ⟨0, 32, .ro, 0⟩
/-- MAC_STAT_HI (Table 02.15). -/
def Reg.MAC_STAT_HI (p k : Nat) : Nat := stationBase (p / 12) + 0x81004 + p % 12 * 0x4000 + k * 8
def Fld.MAC_STAT_HI_VALUE_HI : Field := ⟨0, 16, .ro, 0⟩

/-! ### Block prs -/

/-- PRS_CFG (Table 05.10). -/
def Reg.PRS_CFG (s : Nat) : Nat := stationBase s + 0xc0000
def Fld.PRS_CFG_COMMIT : Field := ⟨31, 1, .w1s, 0⟩
def Fld.PRS_CFG_ACTIVE : Field := ⟨30, 1, .rw, 0⟩
def Fld.PRS_CFG_FRAG_MODE : Field := ⟨29, 1, .rw, 0⟩
def Fld.PRS_CFG_RECIRC_START : Field := ⟨8, 8, .rw, 0⟩
def Fld.PRS_CFG_INJ_START : Field := ⟨0, 8, .rw, 0⟩
/-- PRS_STATUS (Table 05.11). -/
def Reg.PRS_STATUS (s : Nat) : Nat := stationBase s + 0xc0004
def Fld.PRS_STATUS_OLD_BUSY : Field := ⟨31, 1, .ro, 0⟩
def Fld.PRS_STATUS_WR_ERR : Field := ⟨30, 1, .w1c, 0⟩
/-- PRS_SALT_LO (ch. 5 (PRS_SALT)). -/
def Reg.PRS_SALT_LO (s : Nat) : Nat := stationBase s + 0xc0008
def Fld.PRS_SALT_LO_VALUE : Field := ⟨0, 32, .rwl, 0⟩
/-- PRS_SALT_HI (ch. 5 (PRS_SALT)). -/
def Reg.PRS_SALT_HI (s : Nat) : Nat := stationBase s + 0xc000c
def Fld.PRS_SALT_HI_VALUE : Field := ⟨0, 32, .rwl, 0⟩
/-- PRS_PORT (Table 05.12). -/
def Reg.PRS_PORT (s i : Nat) : Nat := stationBase s + 0xc0010 + i * 4
def Fld.PRS_PORT_START : Field := ⟨24, 8, .rw, 0⟩
def Fld.PRS_PORT_KEY_DEPTH : Field := ⟨16, 1, .rw, 1⟩
def Fld.PRS_PORT_ZONE : Field := ⟨0, 16, .rw, 0⟩
/-- PRS_REASON (Table 05.13). -/
def Reg.PRS_REASON (s r : Nat) : Nat := stationBase s + 0xc0100 + r * 4
def Fld.PRS_REASON_ACTION : Field := ⟨4, 2, .rw, 0⟩
def Fld.PRS_REASON_TC : Field := ⟨0, 3, .rw, 0⟩
/-- PRS_REASON_CNT_LO (Table 02.15). -/
def Reg.PRS_REASON_CNT_LO (s r : Nat) : Nat := stationBase s + 0xc0400 + r * 8
def Fld.PRS_REASON_CNT_LO_VALUE_LO : Field := ⟨0, 32, .ro, 0⟩
/-- PRS_REASON_CNT_HI (Table 02.15). -/
def Reg.PRS_REASON_CNT_HI (s r : Nat) : Nat := stationBase s + 0xc0404 + r * 8
def Fld.PRS_REASON_CNT_HI_VALUE_HI : Field := ⟨0, 16, .ro, 0⟩
/-- PRS_NODE (R100). -/
def Reg.PRS_NODE (s pl n w : Nat) : Nat := stationBase s + 0xd0000 + pl * 0x1000 + n * 0x10 + w * 4
def Fld.PRS_NODE_VALUE : Field := ⟨0, 32, .rw, 0⟩
/-- PRS_TRANS (R102). -/
def Reg.PRS_TRANS (s pl t w : Nat) : Nat := stationBase s + 0xe0000 + pl * 0x4000 + t * 8 + w * 4
def Fld.PRS_TRANS_VALUE : Field := ⟨0, 32, .rw, 0⟩

/-! ### Block ept -/

/-- EPT_CFG (Table 06.15). -/
def Reg.EPT_CFG (s : Nat) : Nat := stationBase s + 0x100000
def Fld.EPT_CFG_AGE_MODE : Field := ⟨2, 2, .rw, 0⟩
def Fld.EPT_CFG_EGRESS_LEARN : Field := ⟨1, 1, .rw, 1⟩
def Fld.EPT_CFG_LEARN : Field := ⟨0, 1, .rw, 1⟩
/-- EPT_AGE_CFG (Table 06.16). -/
def Reg.EPT_AGE_CFG (s : Nat) : Nat := stationBase s + 0x100004
def Fld.EPT_AGE_CFG_AGE_LIMIT : Field := ⟨16, 16, .rw, 0x7530⟩
def Fld.EPT_AGE_CFG_TICK_MS : Field := ⟨0, 10, .rw, 0xa⟩
/-- EPT_SWEEP (Table 06.17). -/
def Reg.EPT_SWEEP (s : Nat) : Nat := stationBase s + 0x100008
def Fld.EPT_SWEEP_SWEEP_MS : Field := ⟨0, 16, .rw, 0x3e8⟩
/-- EPT_MOVE_CFG (Table 06.18). -/
def Reg.EPT_MOVE_CFG (s : Nat) : Nat := stationBase s + 0x10000c
def Fld.EPT_MOVE_CFG_FREEZE_TIME : Field := ⟨24, 8, .rw, 0xc8⟩
def Fld.EPT_MOVE_CFG_MOVE_WINDOW : Field := ⟨16, 8, .rw, 0x64⟩
def Fld.EPT_MOVE_CFG_MOVE_LIMIT : Field := ⟨0, 4, .rw, 4⟩
/-- EPT_STATUS (Table 06.19). -/
def Reg.EPT_STATUS (s : Nat) : Nat := stationBase s + 0x100010
def Fld.EPT_STATUS_NOW : Field := ⟨16, 16, .ro, 0⟩
def Fld.EPT_STATUS_LEARN_Q : Field := ⟨0, 10, .ro, 0⟩
/-- EPT_EVT_EN (Table 06.20). -/
def Reg.EPT_EVT_EN (s : Nat) : Nat := stationBase s + 0x100014
def Fld.EPT_EVT_EN_EN : Field := ⟨1, 7, .rw, 0x7e⟩
/-- EPT_PORT (Table 06.21). -/
def Reg.EPT_PORT (s i : Nat) : Nat := stationBase s + 0x100020 + i * 4
def Fld.EPT_PORT_LEARN_EN : Field := ⟨31, 1, .rw, 1⟩
def Fld.EPT_PORT_EGR_LEARN_EN : Field := ⟨30, 1, .rw, 1⟩
def Fld.EPT_PORT_PVID : Field := ⟨0, 12, .rw, 1⟩
/-- EPT_QUOTA (Table 06.22). -/
def Reg.EPT_QUOTA (s g : Nat) : Nat := stationBase s + 0x100060 + g * 4
def Fld.EPT_QUOTA_LIMIT : Field := ⟨0, 18, .rw, 0x20000⟩
/-- EPT_GUILD_CNT (Table 06.22). -/
def Reg.EPT_GUILD_CNT (s g : Nat) : Nat := stationBase s + 0x100080 + g * 4
def Fld.EPT_GUILD_CNT_COUNT : Field := ⟨0, 18, .ro, 0⟩
/-- EPT_CNT_LO (Table 02.15). -/
def Reg.EPT_CNT_LO (s k : Nat) : Nat := stationBase s + 0x100100 + k * 8
def Fld.EPT_CNT_LO_VALUE_LO : Field := ⟨0, 32, .ro, 0⟩
/-- EPT_CNT_HI (Table 02.15). -/
def Reg.EPT_CNT_HI (s k : Nat) : Nat := stationBase s + 0x100104 + k * 8
def Fld.EPT_CNT_HI_VALUE_HI : Field := ⟨0, 16, .ro, 0⟩
/-- EPT_FID_MAP (Table 06.24). -/
def Reg.EPT_FID_MAP (s g v : Nat) : Nat := stationBase s + 0x120000 + g * 0x4000 + v * 4
def Fld.EPT_FID_MAP_VALID : Field := ⟨31, 1, .rw, 0⟩
def Fld.EPT_FID_MAP_LEARN_EN : Field := ⟨30, 1, .rw, 1⟩
def Fld.EPT_FID_MAP_FID : Field := ⟨14, 12, .rw, 0⟩
def Fld.EPT_FID_MAP_FLOOD_GRP : Field := ⟨0, 14, .rw, 0⟩

/-! ### Block lpm -/

/-- LPM_COUNT4 (Table 06.25). -/
def Reg.LPM_COUNT4 (s : Nat) : Nat := stationBase s + 0x140000
def Fld.LPM_COUNT4_COUNT : Field := ⟨0, 19, .ro, 0⟩
/-- LPM_COUNT6 (Table 06.25). -/
def Reg.LPM_COUNT6 (s : Nat) : Nat := stationBase s + 0x140004
def Fld.LPM_COUNT6_COUNT : Field := ⟨0, 17, .ro, 0⟩
/-- LPM_PORT (Table 06.26). -/
def Reg.LPM_PORT (s i : Nat) : Nat := stationBase s + 0x140010 + i * 4
def Fld.LPM_PORT_EN : Field := ⟨31, 1, .rw, 0⟩
def Fld.LPM_PORT_VRF : Field := ⟨0, 8, .rw, 0⟩
/-- LPM_CNT_LO (Table 02.15). -/
def Reg.LPM_CNT_LO (s k : Nat) : Nat := stationBase s + 0x140100 + k * 8
def Fld.LPM_CNT_LO_VALUE_LO : Field := ⟨0, 32, .ro, 0⟩
/-- LPM_CNT_HI (Table 02.15). -/
def Reg.LPM_CNT_HI (s k : Nat) : Nat := stationBase s + 0x140104 + k * 8
def Fld.LPM_CNT_HI_VALUE_HI : Field := ⟨0, 16, .ro, 0⟩

/-! ### Block ice -/

/-- ICE_CFG (Table 08.9). -/
def Reg.ICE_CFG (s : Nat) : Nat := stationBase s + 0x180000
def Fld.ICE_CFG_WAIT_HIGH : Field := ⟨16, 9, .rw, 0xe0⟩
def Fld.ICE_CFG_FREE_LOW : Field := ⟨0, 10, .rw, 0x80⟩
/-- ICE_OCC (Table 08.10). -/
def Reg.ICE_OCC (s : Nat) : Nat := stationBase s + 0x180004
def Fld.ICE_OCC_FREE : Field := ⟨16, 14, .ro, 0x2000⟩
def Fld.ICE_OCC_HELD : Field := ⟨0, 14, .ro, 0⟩
/-- ICE_PINWAIT (Table 08.11). -/
def Reg.ICE_PINWAIT (s : Nat) : Nat := stationBase s + 0x180008
def Fld.ICE_PINWAIT_PINNED : Field := ⟨16, 11, .ro, 0⟩
def Fld.ICE_PINWAIT_WAIT : Field := ⟨0, 9, .ro, 0⟩
/-- ICE_EVENT (Table 08.12). -/
def Reg.ICE_EVENT (s : Nat) : Nat := stationBase s + 0x18000c
def Fld.ICE_EVENT_WAIT_REFUSED : Field := ⟨2, 1, .w1c, 0⟩
def Fld.ICE_EVENT_WAIT_HIGH : Field := ⟨1, 1, .w1c, 0⟩
def Fld.ICE_EVENT_MULTI_MATCH : Field := ⟨0, 1, .w1c, 0⟩
/-- ICE_EVENT_EN (Table 08.12). -/
def Reg.ICE_EVENT_EN (s : Nat) : Nat := stationBase s + 0x180010
def Fld.ICE_EVENT_EN_WAIT_REFUSED : Field := ⟨2, 1, .rw, 0⟩
def Fld.ICE_EVENT_EN_WAIT_HIGH : Field := ⟨1, 1, .rw, 0⟩
def Fld.ICE_EVENT_EN_MULTI_MATCH : Field := ⟨0, 1, .rw, 0⟩
/-- ICE_PIN_QUOTA (Table 08.13). -/
def Reg.ICE_PIN_QUOTA (s g : Nat) : Nat := stationBase s + 0x180020 + g * 4
def Fld.ICE_PIN_QUOTA_LIMIT : Field := ⟨0, 11, .rw, 0x80⟩
/-- ICE_PIN_CNT (Table 08.13). -/
def Reg.ICE_PIN_CNT (s g : Nat) : Nat := stationBase s + 0x180040 + g * 4
def Fld.ICE_PIN_CNT_COUNT : Field := ⟨0, 11, .ro, 0⟩
/-- ICE_CNT_LO (Table 02.15). -/
def Reg.ICE_CNT_LO (s k : Nat) : Nat := stationBase s + 0x180100 + k * 8
def Fld.ICE_CNT_LO_VALUE_LO : Field := ⟨0, 32, .ro, 0⟩
/-- ICE_CNT_HI (Table 02.15). -/
def Reg.ICE_CNT_HI (s k : Nat) : Nat := stationBase s + 0x180104 + k * 8
def Fld.ICE_CNT_HI_VALUE_HI : Field := ⟨0, 16, .ro, 0⟩

/-! ### Block rul -/

/-- RUL_CFG (Table 09.7). -/
def Reg.RUL_CFG (s : Nat) : Nat := stationBase s + 0x1c0000
def Fld.RUL_CFG_COMMIT : Field := ⟨31, 1, .w1s, 0⟩
def Fld.RUL_CFG_MAX_PASS : Field := ⟨0, 3, .rw, 2⟩
/-- RUL_STATUS (Table 09.8). -/
def Reg.RUL_STATUS (s : Nat) : Nat := stationBase s + 0x1c0004
def Fld.RUL_STATUS_QUEUE : Field := ⟨16, 9, .ro, 0⟩
def Fld.RUL_STATUS_DRAINING : Field := ⟨8, 8, .ro, 0⟩
def Fld.RUL_STATUS_ACTIVE : Field := ⟨0, 8, .ro, 0⟩
/-- RUL_EVENT (Table 09.9). -/
def Reg.RUL_EVENT (s : Nat) : Nat := stationBase s + 0x1c0008
def Fld.RUL_EVENT_RECIRC_LIMIT : Field := ⟨1, 1, .w1c, 0⟩
def Fld.RUL_EVENT_SEARCH_REFUSED : Field := ⟨0, 1, .w1c, 0⟩
/-- RUL_EVENT_EN (Table 09.9). -/
def Reg.RUL_EVENT_EN (s : Nat) : Nat := stationBase s + 0x1c000c
def Fld.RUL_EVENT_EN_RECIRC_LIMIT : Field := ⟨1, 1, .rw, 0⟩
def Fld.RUL_EVENT_EN_SEARCH_REFUSED : Field := ⟨0, 1, .rw, 0⟩
/-- RUL_EPOCH (Table 09.10). -/
def Reg.RUL_EPOCH (s g : Nat) : Nat := stationBase s + 0x1c0010 + g * 4
def Fld.RUL_EPOCH_EPOCH : Field := ⟨0, 8, .ro, 0⟩
/-- RUL_DRAIN (Table 09.10). -/
def Reg.RUL_DRAIN (s g : Nat) : Nat := stationBase s + 0x1c0030 + g * 4
def Fld.RUL_DRAIN_B : Field := ⟨16, 12, .ro, 0⟩
def Fld.RUL_DRAIN_A : Field := ⟨0, 12, .ro, 0⟩
/-- RUL_GUILD_RANGE (Table 09.11). -/
def Reg.RUL_GUILD_RANGE (s g : Nat) : Nat := stationBase s + 0x1c0050 + g * 4
def Fld.RUL_GUILD_RANGE_COUNT : Field := ⟨16, 13, .rwl, 0x200⟩
def Fld.RUL_GUILD_RANGE_BASE : Field := ⟨0, 12, .rwl, 0⟩
/-- RUL_PORT (Table 09.12). -/
def Reg.RUL_PORT (s i : Nat) : Nat := stationBase s + 0x1c0080 + i * 4
def Fld.RUL_PORT_POLICY_EN : Field := ⟨0, 1, .rw, 0⟩
/-- RUL_CNT_LO (Table 02.15). -/
def Reg.RUL_CNT_LO (s k : Nat) : Nat := stationBase s + 0x1c0100 + k * 8
def Fld.RUL_CNT_LO_VALUE_LO : Field := ⟨0, 32, .ro, 0⟩
/-- RUL_CNT_HI (Table 02.15). -/
def Reg.RUL_CNT_HI (s k : Nat) : Nat := stationBase s + 0x1c0104 + k * 8
def Fld.RUL_CNT_HI_VALUE_HI : Field := ⟨0, 16, .ro, 0⟩

/-! ### Block ucs -/

/-- UCS_VER_VENDOR (Table 11.12). -/
def Reg.UCS_VER_VENDOR (s : Nat) : Nat := stationBase s + 0x200000
def Fld.UCS_VER_VENDOR_MAJOR : Field := ⟨24, 8, .ro, 0⟩
def Fld.UCS_VER_VENDOR_MINOR : Field := ⟨16, 8, .ro, 0⟩
def Fld.UCS_VER_VENDOR_BUILD : Field := ⟨0, 16, .ro, 0⟩
/-- UCS_VER_CUSTOMER (Table 11.12). -/
def Reg.UCS_VER_CUSTOMER (s : Nat) : Nat := stationBase s + 0x200004
def Fld.UCS_VER_CUSTOMER_MAJOR : Field := ⟨24, 8, .ro, 0⟩
def Fld.UCS_VER_CUSTOMER_MINOR : Field := ⟨16, 8, .ro, 0⟩
def Fld.UCS_VER_CUSTOMER_BUILD : Field := ⟨0, 16, .ro, 0⟩
/-- UCS_STATUS (Table 11.13). -/
def Reg.UCS_STATUS (s : Nat) : Nat := stationBase s + 0x200008
def Fld.UCS_STATUS_SWITCHING : Field := ⟨31, 1, .ro, 0⟩
def Fld.UCS_STATUS_WR_ERR : Field := ⟨30, 1, .w1c, 0⟩
def Fld.UCS_STATUS_LOADING : Field := ⟨29, 1, .ro, 0⟩
/-- UCS_RD_ADDR (Table 11.14). -/
def Reg.UCS_RD_ADDR (s : Nat) : Nat := stationBase s + 0x200010
def Fld.UCS_RD_ADDR_HK : Field := ⟨14, 1, .rw, 0⟩
def Fld.UCS_RD_ADDR_ADDR : Field := ⟨0, 14, .rw, 0⟩
/-- UCS_RD_DATA (Table 11.15). -/
def Reg.UCS_RD_DATA (s j : Nat) : Nat := stationBase s + 0x200014 + j * 4
def Fld.UCS_RD_DATA_DATA : Field := ⟨0, 32, .ro, 0⟩
/-- UCS_DISPATCH (R222). -/
def Reg.UCS_DISPATCH (s o : Nat) : Nat := stationBase s + 0x200400 + o * 4
def Fld.UCS_DISPATCH_VALUE : Field := ⟨0, 32, .ro, 0⟩

/-! ### Block tsk -/

/-- TSK_CFG (Table 12.5). -/
def Reg.TSK_CFG (s : Nat) : Nat := stationBase s + 0x280000
def Fld.TSK_CFG_RES_LIMIT : Field := ⟨26, 6, .rw, 0x38⟩
def Fld.TSK_CFG_XRES : Field := ⟨16, 5, .rw, 2⟩
def Fld.TSK_CFG_AFF_RUN : Field := ⟨12, 4, .rw, 8⟩
def Fld.TSK_CFG_XSLOTS : Field := ⟨0, 10, .rw, 0x40⟩
/-- TSK_XCFG (Table 12.6). -/
def Reg.TSK_XCFG (s : Nat) : Nat := stationBase s + 0x280004
def Fld.TSK_XCFG_XWORDS : Field := ⟨0, 6, .rw, 0x10⟩
/-- TSK_GROUP_MAP (Table 12.7). -/
def Reg.TSK_GROUP_MAP (s : Nat) : Nat := stationBase s + 0x280008
def Fld.TSK_GROUP_MAP_MAP : Field := ⟨0, 14, .rw, 0x3a50⟩
/-- TSK_WEIGHT (Table 12.8). -/
def Reg.TSK_WEIGHT (s n : Nat) : Nat := stationBase s + 0x280010 + n * 4
def Fld.TSK_WEIGHT_WEIGHT : Field := ⟨0, 8, .rw, 0x10⟩
/-- TSK_OCC (Table 12.9). -/
def Reg.TSK_OCC (s : Nat) : Nat := stationBase s + 0x280020
def Fld.TSK_OCC_WAITING : Field := ⟨16, 12, .ro, 0⟩
def Fld.TSK_OCC_USED : Field := ⟨0, 12, .ro, 0⟩
/-- TSK_OCC2 (Table 12.9). -/
def Reg.TSK_OCC2 (s : Nat) : Nat := stationBase s + 0x280024
def Fld.TSK_OCC2_READY : Field := ⟨16, 12, .ro, 0⟩
def Fld.TSK_OCC2_DONE : Field := ⟨0, 12, .ro, 0⟩
/-- TSK_EVENT (Table 12.10). -/
def Reg.TSK_EVENT (s : Nat) : Nat := stationBase s + 0x280028
def Fld.TSK_EVENT_XWORDS_OVER : Field := ⟨2, 1, .w1c, 0⟩
def Fld.TSK_EVENT_SLOTS_FULL : Field := ⟨1, 1, .w1c, 0⟩
def Fld.TSK_EVENT_RES_DROP : Field := ⟨0, 1, .w1c, 0⟩
/-- TSK_EVENT_EN (Table 12.10). -/
def Reg.TSK_EVENT_EN (s : Nat) : Nat := stationBase s + 0x28002c
def Fld.TSK_EVENT_EN_XWORDS_OVER : Field := ⟨2, 1, .rw, 0⟩
def Fld.TSK_EVENT_EN_SLOTS_FULL : Field := ⟨1, 1, .rw, 0⟩
def Fld.TSK_EVENT_EN_RES_DROP : Field := ⟨0, 1, .rw, 0⟩
/-- TSK_SHORT (Table 12.11). -/
def Reg.TSK_SHORT (s w : Nat) : Nat := stationBase s + 0x280040 + w * 4
def Fld.TSK_SHORT_SHORT : Field := ⟨0, 32, .rw, 0⟩
/-- TSK_ORQ (Table 12.12). -/
def Reg.TSK_ORQ (s k : Nat) : Nat := stationBase s + 0x280100 + k * 4
def Fld.TSK_ORQ_HEAD_AGE : Field := ⟨16, 6, .ro, 0⟩
def Fld.TSK_ORQ_DEPTH : Field := ⟨0, 12, .ro, 0⟩
/-- TSK_CNT_LO (Table 02.15). -/
def Reg.TSK_CNT_LO (s k : Nat) : Nat := stationBase s + 0x280400 + k * 8
def Fld.TSK_CNT_LO_VALUE_LO : Field := ⟨0, 32, .ro, 0⟩
/-- TSK_CNT_HI (Table 02.15). -/
def Reg.TSK_CNT_HI (s k : Nat) : Nat := stationBase s + 0x280404 + k * 8
def Fld.TSK_CNT_HI_VALUE_HI : Field := ⟨0, 16, .ro, 0⟩

/-! ### Block swc -/

/-- SWC_CFG (Table 13.10). -/
def Reg.SWC_CFG (s : Nat) : Nat := stationBase s + 0x2c0000
def Fld.SWC_CFG_COMMIT : Field := ⟨31, 1, .w1s, 0⟩
def Fld.SWC_CFG_XRES : Field := ⟨0, 13, .rwl, 0x200⟩
/-- SWC_POOL (Table 13.11). -/
def Reg.SWC_POOL (s : Nat) : Nat := stationBase s + 0x2c0004
def Fld.SWC_POOL_SHARED_FREE : Field := ⟨16, 16, .ro, 0x7018⟩
def Fld.SWC_POOL_SHARED : Field := ⟨0, 16, .ro, 0x7018⟩
/-- SWC_PFC_CFG (Table 13.12). -/
def Reg.SWC_PFC_CFG (s : Nat) : Nat := stationBase s + 0x2c0008
def Fld.SWC_PFC_CFG_XON_DELTA : Field := ⟨16, 12, .rw, 0x40⟩
def Fld.SWC_PFC_CFG_ALPHA : Field := ⟨0, 4, .rw, 4⟩
/-- SWC_INJ (Table 13.13). -/
def Reg.SWC_INJ (s : Nat) : Nat := stationBase s + 0x2c000c
def Fld.SWC_INJ_LIMIT : Field := ⟨0, 15, .rw, 0x400⟩
/-- SWC_CLASS (Table 13.14). -/
def Reg.SWC_CLASS (s c : Nat) : Nat := stationBase s + 0x2c0020 + c * 4
def Fld.SWC_CLASS_ALPHA : Field := ⟨28, 4, .rw, 7⟩
def Fld.SWC_CLASS_ECN_MODE : Field := ⟨26, 2, .rw, 0⟩
def Fld.SWC_CLASS_ECN_TH : Field := ⟨0, 16, .rw, 0xffff⟩
/-- SWC_HEADROOM (Table 13.15). -/
def Reg.SWC_HEADROOM (s i : Nat) : Nat := stationBase s + 0x2c0040 + i * 4
def Fld.SWC_HEADROOM_HEAD : Field := ⟨0, 10, .rwl, 0⟩
/-- SWC_PORT_STATUS (Table 13.15). -/
def Reg.SWC_PORT_STATUS (s i : Nat) : Nat := stationBase s + 0x2c0080 + i * 4
def Fld.SWC_PORT_STATUS_XOFF : Field := ⟨24, 8, .ro, 0⟩
def Fld.SWC_PORT_STATUS_HEAD_USED : Field := ⟨0, 10, .ro, 0⟩
/-- SWC_MC_CFG (Table 13.16). -/
def Reg.SWC_MC_CFG (s : Nat) : Nat := stationBase s + 0x2c0100
def Fld.SWC_MC_CFG_REPORT : Field := ⟨31, 1, .rw, 0⟩
def Fld.SWC_MC_CFG_HOL_TIMEOUT : Field := ⟨0, 14, .rw, 0x14⟩
/-- SWC_EVENT (Table 13.17). -/
def Reg.SWC_EVENT (s : Nat) : Nat := stationBase s + 0x2c0108
def Fld.SWC_EVENT_MC_HOL : Field := ⟨2, 1, .w1c, 0⟩
def Fld.SWC_EVENT_HEADROOM_OVF : Field := ⟨1, 1, .w1c, 0⟩
def Fld.SWC_EVENT_NO_CELL : Field := ⟨0, 1, .w1c, 0⟩
/-- SWC_EVENT_EN (Table 13.17). -/
def Reg.SWC_EVENT_EN (s : Nat) : Nat := stationBase s + 0x2c010c
def Fld.SWC_EVENT_EN_MC_HOL : Field := ⟨2, 1, .rw, 0⟩
def Fld.SWC_EVENT_EN_HEADROOM_OVF : Field := ⟨1, 1, .rw, 0⟩
def Fld.SWC_EVENT_EN_NO_CELL : Field := ⟨0, 1, .rw, 0⟩
/-- SWC_VOQ_SEL (Table 13.18). -/
def Reg.SWC_VOQ_SEL (s : Nat) : Nat := stationBase s + 0x2c0200
def Fld.SWC_VOQ_SEL_MC : Field := ⟨11, 1, .rw, 0⟩
def Fld.SWC_VOQ_SEL_INDEX : Field := ⟨0, 11, .rw, 0⟩
/-- SWC_VOQ_DEPTH (Table 13.18). -/
def Reg.SWC_VOQ_DEPTH (s : Nat) : Nat := stationBase s + 0x2c0204
def Fld.SWC_VOQ_DEPTH_FRAMES : Field := ⟨16, 16, .ro, 0⟩
def Fld.SWC_VOQ_DEPTH_CELLS : Field := ⟨0, 16, .ro, 0⟩
/-- SWC_CNT_LO (Table 02.15). -/
def Reg.SWC_CNT_LO (s k : Nat) : Nat := stationBase s + 0x2c0300 + k * 8
def Fld.SWC_CNT_LO_VALUE_LO : Field := ⟨0, 32, .ro, 0⟩
/-- SWC_CNT_HI (Table 02.15). -/
def Reg.SWC_CNT_HI (s k : Nat) : Nat := stationBase s + 0x2c0304 + k * 8
def Fld.SWC_CNT_HI_VALUE_HI : Field := ⟨0, 16, .ro, 0⟩
/-- SWC_PCNT_LO (Table 02.15). -/
def Reg.SWC_PCNT_LO (s i k : Nat) : Nat := stationBase s + 0x2c0400 + i * 0x20 + k * 8
def Fld.SWC_PCNT_LO_VALUE_LO : Field := ⟨0, 32, .ro, 0⟩
/-- SWC_PCNT_HI (Table 02.15). -/
def Reg.SWC_PCNT_HI (s i k : Nat) : Nat := stationBase s + 0x2c0404 + i * 0x20 + k * 8
def Fld.SWC_PCNT_HI_VALUE_HI : Field := ⟨0, 16, .ro, 0⟩

/-! ### Block cel -/

/-- CEL_STATUS (Table 14.8). -/
def Reg.CEL_STATUS (s : Nat) : Nat := stationBase s + 0x300000
def Fld.CEL_STATUS_LOW : Field := ⟨31, 1, .ro, 0⟩
def Fld.CEL_STATUS_FREE : Field := ⟨0, 16, .ro, 0x8000⟩
/-- CEL_WARN (Table 14.9). -/
def Reg.CEL_WARN (s : Nat) : Nat := stationBase s + 0x300004
def Fld.CEL_WARN_LOW : Field := ⟨0, 16, .rw, 0x800⟩
/-- CEL_FREE (Table 14.9). -/
def Reg.CEL_FREE (s : Nat) : Nat := stationBase s + 0x300008
def Fld.CEL_FREE_INDEX : Field := ⟨0, 15, .wo, 0⟩
/-- MOR_CFG (Table 14.10). -/
def Reg.MOR_CFG (s : Nat) : Nat := stationBase s + 0x300100
def Fld.MOR_CFG_EN : Field := ⟨31, 1, .rw, 1⟩
def Fld.MOR_CFG_RECLAIM : Field := ⟨30, 1, .rw, 1⟩
def Fld.MOR_CFG_PERIOD_MS : Field := ⟨0, 16, .rw, 0xa⟩
/-- MOR_STATUS (Table 14.11). -/
def Reg.MOR_STATUS (s : Nat) : Nat := stationBase s + 0x300104
def Fld.MOR_STATUS_RUNNING : Field := ⟨31, 1, .ro, 0⟩
def Fld.MOR_STATUS_DRAINING : Field := ⟨30, 1, .ro, 0⟩
def Fld.MOR_STATUS_PASSES : Field := ⟨0, 16, .ro, 0⟩
/-- MOR_EVENT (Table 14.12). -/
def Reg.MOR_EVENT (s : Nat) : Nat := stationBase s + 0x300108
def Fld.MOR_EVENT_CELL_LOW : Field := ⟨2, 1, .w1c, 0⟩
def Fld.MOR_EVENT_LEAK : Field := ⟨1, 1, .w1c, 0⟩
def Fld.MOR_EVENT_FREE_HELD : Field := ⟨0, 1, .w1c, 0⟩
/-- MOR_EVENT_EN (Table 14.12). -/
def Reg.MOR_EVENT_EN (s : Nat) : Nat := stationBase s + 0x30010c
def Fld.MOR_EVENT_EN_CELL_LOW : Field := ⟨2, 1, .rw, 0⟩
def Fld.MOR_EVENT_EN_LEAK : Field := ⟨1, 1, .rw, 0⟩
def Fld.MOR_EVENT_EN_FREE_HELD : Field := ⟨0, 1, .rw, 0⟩
/-- MOR_LAST (Table 14.14). -/
def Reg.MOR_LAST (s : Nat) : Nat := stationBase s + 0x300110
def Fld.MOR_LAST_VALID : Field := ⟨31, 1, .w1c, 0⟩
def Fld.MOR_LAST_KIND : Field := ⟨29, 2, .ro, 0⟩
def Fld.MOR_LAST_HOLDER : Field := ⟨25, 4, .ro, 0⟩
def Fld.MOR_LAST_POOL : Field := ⟨22, 3, .ro, 0⟩
def Fld.MOR_LAST_INDEX : Field := ⟨0, 15, .ro, 0⟩
/-- MOR_CNT_LO (Table 02.15). -/
def Reg.MOR_CNT_LO (s k : Nat) : Nat := stationBase s + 0x300200 + k * 8
def Fld.MOR_CNT_LO_VALUE_LO : Field := ⟨0, 32, .ro, 0⟩
/-- MOR_CNT_HI (Table 02.15). -/
def Reg.MOR_CNT_HI (s k : Nat) : Nat := stationBase s + 0x300204 + k * 8
def Fld.MOR_CNT_HI_VALUE_HI : Field := ⟨0, 16, .ro, 0⟩

/-! ### Block egr -/

/-- EGR_CFG (Table 15.6). -/
def Reg.EGR_CFG (s : Nat) : Nat := stationBase s + 0x340000
def Fld.EGR_CFG_COMMIT : Field := ⟨31, 1, .w1s, 0⟩
def Fld.EGR_CFG_XRES : Field := ⟨0, 11, .rwl, 0x180⟩
/-- EGR_POOL (Table 15.7). -/
def Reg.EGR_POOL (s : Nat) : Nat := stationBase s + 0x340004
def Fld.EGR_POOL_SHARED_FREE : Field := ⟨16, 16, .ro, 0x1380⟩
def Fld.EGR_POOL_SHARED : Field := ⟨0, 16, .ro, 0x1380⟩
/-- EGR_EVENT (Table 15.8). -/
def Reg.EGR_EVENT (s : Nat) : Nat := stationBase s + 0x340008
def Fld.EGR_EVENT_TIME_STEP : Field := ⟨4, 1, .w1c, 0⟩
def Fld.EGR_EVENT_GCL_SWITCH : Field := ⟨3, 1, .w1c, 0⟩
def Fld.EGR_EVENT_NEVER_FIT : Field := ⟨2, 1, .w1c, 0⟩
def Fld.EGR_EVENT_GATE_OVERRUN : Field := ⟨1, 1, .w1c, 0⟩
def Fld.EGR_EVENT_XNO_ROOM : Field := ⟨0, 1, .w1c, 0⟩
/-- EGR_EVENT_EN (Table 15.8). -/
def Reg.EGR_EVENT_EN (s : Nat) : Nat := stationBase s + 0x34000c
def Fld.EGR_EVENT_EN_TIME_STEP : Field := ⟨4, 1, .rw, 0⟩
def Fld.EGR_EVENT_EN_GCL_SWITCH : Field := ⟨3, 1, .rw, 0⟩
def Fld.EGR_EVENT_EN_NEVER_FIT : Field := ⟨2, 1, .rw, 0⟩
def Fld.EGR_EVENT_EN_GATE_OVERRUN : Field := ⟨1, 1, .rw, 0⟩
def Fld.EGR_EVENT_EN_XNO_ROOM : Field := ⟨0, 1, .rw, 0⟩
/-- EGR_PORT_CFG (Table 15.9). -/
def Reg.EGR_PORT_CFG (s i : Nat) : Nat := stationBase s + 0x341000 + i * 0x100
def Fld.EGR_PORT_CFG_MIN : Field := ⟨16, 9, .rwl, 0x40⟩
def Fld.EGR_PORT_CFG_GATE_EN : Field := ⟨0, 1, .rw, 0⟩
/-- EGR_WFQ_LO (Table 15.10). -/
def Reg.EGR_WFQ_LO (s i : Nat) : Nat := stationBase s + 0x341004 + i * 0x100
def Fld.EGR_WFQ_LO_W : Field := ⟨0, 32, .rw, 0x10101010⟩
/-- EGR_WFQ_HI (Table 15.10). -/
def Reg.EGR_WFQ_HI (s i : Nat) : Nat := stationBase s + 0x341008 + i * 0x100
def Fld.EGR_WFQ_HI_W : Field := ⟨0, 24, .rw, 0x101010⟩
/-- EGR_CLASS (Table 15.11). -/
def Reg.EGR_CLASS (s i c : Nat) : Nat := stationBase s + 0x341020 + i * 0x100 + c * 4
def Fld.EGR_CLASS_ALPHA : Field := ⟨28, 4, .rw, 7⟩
/-- EGR_QDEPTH (Table 15.12). -/
def Reg.EGR_QDEPTH (s i c : Nat) : Nat := stationBase s + 0x341040 + i * 0x100 + c * 4
def Fld.EGR_QDEPTH_FRAMES : Field := ⟨16, 16, .ro, 0⟩
def Fld.EGR_QDEPTH_BLOCKS : Field := ⟨0, 16, .ro, 0⟩
/-- EGR_GCL_CTL (Table 15.13). -/
def Reg.EGR_GCL_CTL (s i : Nat) : Nat := stationBase s + 0x341060 + i * 0x100
def Fld.EGR_GCL_CTL_ACTIVE : Field := ⟨31, 1, .ro, 0⟩
def Fld.EGR_GCL_CTL_PENDING : Field := ⟨30, 1, .w1s, 0⟩
def Fld.EGR_GCL_CTL_CFG_ERR : Field := ⟨29, 1, .w1c, 0⟩
def Fld.EGR_GCL_CTL_LEN : Field := ⟨0, 9, .rw, 1⟩
/-- EGR_GCL_CYCLE (Table 15.14). -/
def Reg.EGR_GCL_CYCLE (s i : Nat) : Nat := stationBase s + 0x341064 + i * 0x100
def Fld.EGR_GCL_CYCLE_CYCLE : Field := ⟨0, 30, .rw, 0xf4240⟩
/-- EGR_GCL_GUARD (Table 15.14). -/
def Reg.EGR_GCL_GUARD (s i : Nat) : Nat := stationBase s + 0x341070 + i * 0x100
def Fld.EGR_GCL_GUARD_GUARD : Field := ⟨0, 12, .rw, 0⟩
/-- EGR_GCL_BASE_NS (ch. 15 (EGR_GCL_BASE)). -/
def Reg.EGR_GCL_BASE_NS (s i : Nat) : Nat := stationBase s + 0x341068 + i * 0x100
def Fld.EGR_GCL_BASE_NS_VALUE : Field := ⟨0, 30, .rw, 0⟩
/-- EGR_GCL_BASE_SEC (ch. 15 (EGR_GCL_BASE)). -/
def Reg.EGR_GCL_BASE_SEC (s i : Nat) : Nat := stationBase s + 0x34106c + i * 0x100
def Fld.EGR_GCL_BASE_SEC_VALUE : Field := ⟨0, 32, .rw, 0⟩
/-- EGR_GCL_OPER (Table 15.15). -/
def Reg.EGR_GCL_OPER (s i : Nat) : Nat := stationBase s + 0x341074 + i * 0x100
def Fld.EGR_GCL_OPER_GATES : Field := ⟨8, 8, .ro, 0xff⟩
def Fld.EGR_GCL_OPER_ENTRY : Field := ⟨0, 8, .ro, 0⟩
/-- EGR_HIST_CFG (Table 15.16). -/
def Reg.EGR_HIST_CFG (s i : Nat) : Nat := stationBase s + 0x341078 + i * 0x100
def Fld.EGR_HIST_CFG_CLEAR : Field := ⟨31, 1, .w1s, 0⟩
def Fld.EGR_HIST_CFG_SAMPLE_US : Field := ⟨8, 8, .rw, 0xa⟩
def Fld.EGR_HIST_CFG_UNIT_EXP : Field := ⟨0, 4, .rw, 6⟩
/-- EGR_QMAXDLY (Table 15.17). -/
def Reg.EGR_QMAXDLY (s i c : Nat) : Nat := stationBase s + 0x341080 + i * 0x100 + c * 4
def Fld.EGR_QMAXDLY_MAXDLY : Field := ⟨0, 32, .rc, 0⟩
/-- EGR_GATE_INTERVAL (ch. 15 (gate entries)). -/
def Reg.EGR_GATE_INTERVAL (s i b k : Nat) : Nat := stationBase s + 0x350000 + i * 0x1000 + b * 0x800 + k * 8
def Fld.EGR_GATE_INTERVAL_VALUE : Field := ⟨0, 30, .rw, 0⟩
/-- EGR_GATE_GATES (ch. 15 (gate entries)). -/
def Reg.EGR_GATE_GATES (s i b k : Nat) : Nat := stationBase s + 0x350004 + i * 0x1000 + b * 0x800 + k * 8
def Fld.EGR_GATE_GATES_VALUE : Field := ⟨0, 8, .rw, 0⟩
/-- EGR_HIST (ch. 15 (EGR_HIST)). -/
def Reg.EGR_HIST (s i c h b : Nat) : Nat := stationBase s + 0x360000 + i * 0x400 + c * 0x80 + h * 0x40 + b * 4
def Fld.EGR_HIST_VALUE : Field := ⟨0, 32, .ro, 0⟩
/-- EGR_PCNT_LO (Table 02.15). -/
def Reg.EGR_PCNT_LO (s i k : Nat) : Nat := stationBase s + 0x370000 + i * 0x100 + k * 8
def Fld.EGR_PCNT_LO_VALUE_LO : Field := ⟨0, 32, .ro, 0⟩
/-- EGR_PCNT_HI (Table 02.15). -/
def Reg.EGR_PCNT_HI (s i k : Nat) : Nat := stationBase s + 0x370004 + i * 0x100 + k * 8
def Fld.EGR_PCNT_HI_VALUE_HI : Field := ⟨0, 16, .ro, 0⟩

/-! ### Block tnkHooks -/

/-- TNK_SEL (Table 22.11). -/
def Reg.TNK_SEL (s i k : Nat) : Nat := stationBase s + 0x380000 + i * 0x100 + k * 0x40
def Fld.TNK_SEL_EN : Field := ⟨31, 1, .rw, 0⟩
def Fld.TNK_SEL_DIR : Field := ⟨30, 1, .rw, 0⟩
def Fld.TNK_SEL_ACTION : Field := ⟨28, 2, .rw, 0⟩
def Fld.TNK_SEL_TRIG : Field := ⟨26, 2, .rw, 0⟩
def Fld.TNK_SEL_WIN_EN : Field := ⟨24, 1, .rw, 0⟩
def Fld.TNK_SEL_FCS : Field := ⟨23, 1, .rw, 0⟩
def Fld.TNK_SEL_CLASSES : Field := ⟨8, 8, .rw, 0⟩
def Fld.TNK_SEL_OFFSET : Field := ⟨0, 8, .rw, 0xc⟩
/-- TNK_MATCH (Table 22.12). -/
def Reg.TNK_MATCH (s i k : Nat) : Nat := stationBase s + 0x380004 + i * 0x100 + k * 0x40
def Fld.TNK_MATCH_MATCH : Field := ⟨0, 32, .rw, 0⟩
/-- TNK_MASK (Table 22.12). -/
def Reg.TNK_MASK (s i k : Nat) : Nat := stationBase s + 0x380008 + i * 0x100 + k * 0x40
def Fld.TNK_MASK_MASK : Field := ⟨0, 32, .rw, 0⟩
/-- TNK_TRIG (Table 22.12). -/
def Reg.TNK_TRIG (s i k : Nat) : Nat := stationBase s + 0x38000c + i * 0x100 + k * 0x40
def Fld.TNK_TRIG_HOLD : Field := ⟨16, 8, .rw, 1⟩
def Fld.TNK_TRIG_PARAM : Field := ⟨0, 16, .rw, 1⟩
/-- TNK_LIMIT (Table 22.12). -/
def Reg.TNK_LIMIT (s i k : Nat) : Nat := stationBase s + 0x380010 + i * 0x100 + k * 0x40
def Fld.TNK_LIMIT_LIMIT : Field := ⟨0, 32, .rw, 0⟩
/-- TNK_CORR_OFF (Table 22.12). -/
def Reg.TNK_CORR_OFF (s i k : Nat) : Nat := stationBase s + 0x380014 + i * 0x100 + k * 0x40
def Fld.TNK_CORR_OFF_CORR_OFF : Field := ⟨0, 8, .rw, 0⟩
/-- TNK_CORR_MASK (Table 22.12). -/
def Reg.TNK_CORR_MASK (s i k : Nat) : Nat := stationBase s + 0x380018 + i * 0x100 + k * 0x40
def Fld.TNK_CORR_MASK_CORR_MASK : Field := ⟨0, 32, .rw, 0⟩
/-- TNK_WIN_START_NS (Table 22.12). -/
def Reg.TNK_WIN_START_NS (s i k : Nat) : Nat := stationBase s + 0x38001c + i * 0x100 + k * 0x40
def Fld.TNK_WIN_START_NS_NS : Field := ⟨0, 30, .rw, 0⟩
/-- TNK_WIN_START_SEC (Table 22.12). -/
def Reg.TNK_WIN_START_SEC (s i k : Nat) : Nat := stationBase s + 0x380020 + i * 0x100 + k * 0x40
def Fld.TNK_WIN_START_SEC_SEC_LO : Field := ⟨0, 32, .rw, 0⟩
/-- TNK_WIN_END_NS (Table 22.12). -/
def Reg.TNK_WIN_END_NS (s i k : Nat) : Nat := stationBase s + 0x380024 + i * 0x100 + k * 0x40
def Fld.TNK_WIN_END_NS_NS : Field := ⟨0, 30, .rw, 0⟩
/-- TNK_WIN_END_SEC (Table 22.12). -/
def Reg.TNK_WIN_END_SEC (s i k : Nat) : Nat := stationBase s + 0x380028 + i * 0x100 + k * 0x40
def Fld.TNK_WIN_END_SEC_SEC_LO : Field := ⟨0, 32, .rw, 0⟩
/-- TNK_INJ_CNT (Table 22.12). -/
def Reg.TNK_INJ_CNT (s i k : Nat) : Nat := stationBase s + 0x38002c + i * 0x100 + k * 0x40
def Fld.TNK_INJ_CNT_COUNT : Field := ⟨0, 32, .ro, 0⟩
/-- TNK_PEVENT (Table 22.13). -/
def Reg.TNK_PEVENT (s i : Nat) : Nat := stationBase s + 0x3800f0 + i * 0x100
def Fld.TNK_PEVENT_CFG_ERR : Field := ⟨4, 1, .w1c, 0⟩
def Fld.TNK_PEVENT_DONE : Field := ⟨0, 4, .w1c, 0⟩
/-- TNK_PEVENT_EN (Table 22.13). -/
def Reg.TNK_PEVENT_EN (s i : Nat) : Nat := stationBase s + 0x3800f4 + i * 0x100
def Fld.TNK_PEVENT_EN_CFG_ERR : Field := ⟨4, 1, .rw, 0⟩
def Fld.TNK_PEVENT_EN_DONE : Field := ⟨0, 4, .rw, 0⟩

/-! ### Block station0 -/

/-- LPM_QUOTA4 (Table 06.27). -/
def Reg.LPM_QUOTA4 (g : Nat) : Nat := 0x2140040 + g * 4
def Fld.LPM_QUOTA4_LIMIT : Field := ⟨0, 19, .rw, 0x40000⟩
/-- LPM_QUOTA6 (Table 06.27). -/
def Reg.LPM_QUOTA6 (g : Nat) : Nat := 0x2140060 + g * 4
def Fld.LPM_QUOTA6_LIMIT : Field := ⟨0, 17, .rw, 0x10000⟩
/-- UCS_KEY_STATUS (Table 11.16). -/
def Reg.UCS_KEY_STATUS : Nat := 0x2200800
def Fld.UCS_KEY_STATUS_CKEY_SET : Field := ⟨31, 1, .ro, 0⟩
/-- UCS_HK_VER_VENDOR (Table 11.12). -/
def Reg.UCS_HK_VER_VENDOR : Nat := 0x2200804
def Fld.UCS_HK_VER_VENDOR_MAJOR : Field := ⟨24, 8, .ro, 0⟩
def Fld.UCS_HK_VER_VENDOR_MINOR : Field := ⟨16, 8, .ro, 0⟩
def Fld.UCS_HK_VER_VENDOR_BUILD : Field := ⟨0, 16, .ro, 0⟩
/-- UCS_HK_VER_CUSTOMER (Table 11.12). -/
def Reg.UCS_HK_VER_CUSTOMER : Nat := 0x2200808
def Fld.UCS_HK_VER_CUSTOMER_MAJOR : Field := ⟨24, 8, .ro, 0⟩
def Fld.UCS_HK_VER_CUSTOMER_MINOR : Field := ⟨16, 8, .ro, 0⟩
def Fld.UCS_HK_VER_CUSTOMER_BUILD : Field := ⟨0, 16, .ro, 0⟩
/-- UCS_VKEY_HASH (R227). -/
def Reg.UCS_VKEY_HASH (w : Nat) : Nat := 0x2200820 + w * 4
def Fld.UCS_VKEY_HASH_VALUE : Field := ⟨0, 32, .ro, 0⟩
/-- UCS_CKEY_HASH (R227). -/
def Reg.UCS_CKEY_HASH (w : Nat) : Nat := 0x2200840 + w * 4
def Fld.UCS_CKEY_HASH_VALUE : Field := ⟨0, 32, .ro, 0⟩
/-- UCS_HK_CTL (Table 11.17). -/
def Reg.UCS_HK_CTL (e : Nat) : Nat := 0x2200900 + e * 0x20
def Fld.UCS_HK_CTL_RUN : Field := ⟨31, 1, .rw, 0⟩
def Fld.UCS_HK_CTL_SERVICE : Field := ⟨30, 1, .rw, 0⟩
def Fld.UCS_HK_CTL_START : Field := ⟨0, 14, .rw, 0⟩
/-- UCS_HK_CFG (Table 11.18). -/
def Reg.UCS_HK_CFG (e : Nat) : Nat := 0x2200904 + e * 0x20
def Fld.UCS_HK_CFG_IRQ_OP : Field := ⟨24, 8, .rw, 0⟩
def Fld.UCS_HK_CFG_TIMER_OP : Field := ⟨16, 8, .rw, 0⟩
def Fld.UCS_HK_CFG_MAX_WORDS : Field := ⟨0, 12, .rw, 0xfff⟩
/-- UCS_HK_TIMER (Table 11.19). -/
def Reg.UCS_HK_TIMER (e : Nat) : Nat := 0x2200908 + e * 0x20
def Fld.UCS_HK_TIMER_TIMER_US : Field := ⟨0, 24, .rw, 0⟩
/-- UCS_HK_STATUS (Table 11.20). -/
def Reg.UCS_HK_STATUS (e : Nat) : Nat := 0x220090c + e * 0x20
def Fld.UCS_HK_STATUS_STATE : Field := ⟨30, 2, .ro, 0⟩
def Fld.UCS_HK_STATUS_CODE : Field := ⟨26, 4, .ro, 0⟩
def Fld.UCS_HK_STATUS_FAULT : Field := ⟨25, 1, .w1c, 0⟩
def Fld.UCS_HK_STATUS_DEPTH : Field := ⟨21, 4, .ro, 0⟩
def Fld.UCS_HK_STATUS_QUEUE : Field := ⟨16, 5, .ro, 0⟩
def Fld.UCS_HK_STATUS_LOST : Field := ⟨14, 2, .rc, 0⟩
def Fld.UCS_HK_STATUS_ADDR : Field := ⟨0, 14, .ro, 0⟩
/-- UCS_HK_DISPATCH (R222). -/
def Reg.UCS_HK_DISPATCH (o : Nat) : Nat := 0x2200c00 + o * 4
def Fld.UCS_HK_DISPATCH_VALUE : Field := ⟨0, 32, .ro, 0⟩

/-! ### Block guildPage -/

/-- GLD_CTL (Table 18.20). -/
def Reg.GLD_CTL (g : Nat) : Nat := guildPageBase g + 0
def Fld.GLD_CTL_EN : Field := ⟨31, 1, .rw, 0⟩
def Fld.GLD_CTL_QUIESCED : Field := ⟨30, 1, .ro, 1⟩
def Fld.GLD_CTL_GUILD : Field := ⟨0, 3, .ro, 0⟩
/-- GLD_DB_ADDR_LO (R339). -/
def Reg.GLD_DB_ADDR_LO (g : Nat) : Nat := guildPageBase g + 8
def Fld.GLD_DB_ADDR_LO_VALUE : Field := ⟨12, 20, .rw, 0⟩
/-- GLD_DB_ADDR_HI (R339). -/
def Reg.GLD_DB_ADDR_HI (g : Nat) : Nat := guildPageBase g + 0xc
def Fld.GLD_DB_ADDR_HI_VALUE : Field := ⟨0, 32, .rw, 0⟩
/-- GLD_POLL (Table 18.21). -/
def Reg.GLD_POLL (g : Nat) : Nat := guildPageBase g + 0x10
def Fld.GLD_POLL_MAX : Field := ⟨16, 8, .rw, 0x64⟩
def Fld.GLD_POLL_MIN : Field := ⟨0, 8, .rw, 1⟩
/-- GLD_BOOT_CMD_LO (Table 18.22). -/
def Reg.GLD_BOOT_CMD_LO (g : Nat) : Nat := guildPageBase g + 0x18
def Fld.GLD_BOOT_CMD_LO_BASE_LO : Field := ⟨12, 20, .rw, 0⟩
def Fld.GLD_BOOT_CMD_LO_LOG2N : Field := ⟨0, 5, .rw, 4⟩
/-- GLD_BOOT_CMD_HI (Table 18.22). -/
def Reg.GLD_BOOT_CMD_HI (g : Nat) : Nat := guildPageBase g + 0x1c
def Fld.GLD_BOOT_CMD_HI_BASE_HI : Field := ⟨0, 32, .rw, 0⟩
/-- GLD_BOOT_CPL_LO (Table 18.22). -/
def Reg.GLD_BOOT_CPL_LO (g : Nat) : Nat := guildPageBase g + 0x20
def Fld.GLD_BOOT_CPL_LO_BASE_LO : Field := ⟨12, 20, .rw, 0⟩
def Fld.GLD_BOOT_CPL_LO_LOG2N : Field := ⟨0, 5, .rw, 4⟩
/-- GLD_BOOT_CPL_HI (Table 18.22). -/
def Reg.GLD_BOOT_CPL_HI (g : Nat) : Nat := guildPageBase g + 0x24
def Fld.GLD_BOOT_CPL_HI_BASE_HI : Field := ⟨0, 32, .rw, 0⟩
/-- GLD_BOOT_VEC (Table 18.23). -/
def Reg.GLD_BOOT_VEC (g : Nat) : Nat := guildPageBase g + 0x28
def Fld.GLD_BOOT_VEC_IRQ_EN : Field := ⟨31, 1, .rw, 0⟩
def Fld.GLD_BOOT_VEC_VECTOR : Field := ⟨0, 11, .rw, 0⟩
/-- GLD_IRQ_VEC (Table 18.23). -/
def Reg.GLD_IRQ_VEC (g : Nat) : Nat := guildPageBase g + 0x2c
def Fld.GLD_IRQ_VEC_IRQ_EN : Field := ⟨31, 1, .rw, 0⟩
def Fld.GLD_IRQ_VEC_VECTOR : Field := ⟨0, 11, .rw, 0⟩
/-- GLD_STATUS (Table 18.24). -/
def Reg.GLD_STATUS (g : Nat) : Nat := guildPageBase g + 0x30
def Fld.GLD_STATUS_DMA_ERR : Field := ⟨31, 1, .w1c, 0⟩
def Fld.GLD_STATUS_IDX_ERR : Field := ⟨30, 1, .w1c, 0⟩
def Fld.GLD_STATUS_CFG_ERR : Field := ⟨29, 1, .w1c, 0⟩
def Fld.GLD_STATUS_LINK_DOWN : Field := ⟨28, 1, .w1c, 0⟩
def Fld.GLD_STATUS_POLL : Field := ⟨0, 8, .ro, 0⟩
/-- GLD_CNT_LO (Table 02.15). -/
def Reg.GLD_CNT_LO (g k : Nat) : Nat := guildPageBase g + 0x400 + k * 8
def Fld.GLD_CNT_LO_VALUE_LO : Field := ⟨0, 32, .ro, 0⟩
/-- GLD_CNT_HI (Table 02.15). -/
def Reg.GLD_CNT_HI (g k : Nat) : Nat := guildPageBase g + 0x404 + k * 8
def Fld.GLD_CNT_HI_VALUE_HI : Field := ⟨0, 16, .ro, 0⟩
/-- GLD_RING (Table 18.25). -/
def Reg.GLD_RING (g j : Nat) : Nat := guildPageBase g + 0x1000 + j * 4
def Fld.GLD_RING_EN : Field := ⟨31, 1, .ro, 0⟩
def Fld.GLD_RING_KIND : Field := ⟨28, 3, .ro, 0⟩
def Fld.GLD_RING_ARMED : Field := ⟨27, 1, .ro, 0⟩
def Fld.GLD_RING_D : Field := ⟨0, 17, .ro, 0⟩
/-- VRV_TXQ_CTL (Table 17.13). -/
def Reg.VRV_TXQ_CTL (g : Nat) : Nat := guildPageBase g + 0x800
def Fld.VRV_TXQ_CTL_OVF : Field := ⟨31, 1, .w1c, 0⟩
def Fld.VRV_TXQ_CTL_THRESH : Field := ⟨8, 7, .rw, 1⟩
def Fld.VRV_TXQ_CTL_COUNT : Field := ⟨0, 7, .ro, 0⟩
/-- VRV_TXQ_LO (Table 17.13). -/
def Reg.VRV_TXQ_LO (g : Nat) : Nat := guildPageBase g + 0x808
def Fld.VRV_TXQ_LO_TS_NS : Field := ⟨0, 32, .rc, 0⟩
/-- VRV_TXQ_HI (Table 17.13). -/
def Reg.VRV_TXQ_HI (g : Nat) : Nat := guildPageBase g + 0x80c
def Fld.VRV_TXQ_HI_ID : Field := ⟨16, 16, .ro, 0⟩
def Fld.VRV_TXQ_HI_FRAC : Field := ⟨8, 8, .ro, 0⟩
def Fld.VRV_TXQ_HI_PORT : Field := ⟨0, 8, .ro, 0xff⟩

/-! ### The index as data -/

def RegMap.regs_chip : List RegDef :=
  [⟨"CHIP_ID", 0, [], [Fld.CHIP_ID_PART, Fld.CHIP_ID_FAMILY, Fld.CHIP_ID_REV], [], none, .whole, false⟩,
   ⟨"CHIP_SERIAL_LO", 8, [], [Fld.CHIP_SERIAL_LO_VALUE], [], none, .low, false⟩,
   ⟨"CHIP_SERIAL_HI", 0xc, [], [Fld.CHIP_SERIAL_HI_VALUE], [], none, .high, false⟩,
   ⟨"CHIP_STATUS", 0x10, [], [Fld.CHIP_STATUS_ACC_ERR, Fld.CHIP_STATUS_ADDR], [], none, .whole, false⟩]
def RegMap.block_chip : Block := ⟨0, 1, 1, 0x100000, RegMap.regs_chip⟩

def RegMap.regs_pwr : List RegDef :=
  [⟨"PWR_AVS_CTL", 0, [], [Fld.PWR_AVS_CTL_COMMIT, Fld.PWR_AVS_CTL_UNRATED, Fld.PWR_AVS_CTL_EN], [], some 0, .whole, false⟩,
   ⟨"PWR_AVS_TARGET", 4, [], [Fld.PWR_AVS_TARGET_HEADROOM, Fld.PWR_AVS_TARGET_TARGET], [], some 0, .whole, false⟩,
   ⟨"PWR_AVS_LIMIT", 8, [], [Fld.PWR_AVS_LIMIT_VMAX, Fld.PWR_AVS_LIMIT_VMIN], [], some 0, .whole, false⟩,
   ⟨"PWR_AVS_TUNE", 0xc, [], [Fld.PWR_AVS_TUNE_DOWN_HOLD, Fld.PWR_AVS_TUNE_DEADBAND, Fld.PWR_AVS_TUNE_UP_STEP, Fld.PWR_AVS_TUNE_PERIOD], [], none, .whole, false⟩,
   ⟨"PWR_AVS_STATUS", 0x10, [], [Fld.PWR_AVS_STATUS_BUSERR, Fld.PWR_AVS_STATUS_SHORT, Fld.PWR_AVS_STATUS_FLOOR, Fld.PWR_AVS_STATUS_CEIL, Fld.PWR_AVS_STATUS_PMIN, Fld.PWR_AVS_STATUS_VREQ], [], none, .whole, false⟩,
   ⟨"PWR_AVS_MANUAL", 0x14, [], [Fld.PWR_AVS_MANUAL_VCODE], [], none, .whole, false⟩,
   ⟨"THM_STATUS", 0x8000, [], [Fld.THM_STATUS_CRIT, Fld.THM_STATUS_THROTTLING, Fld.THM_STATUS_SENSOR_FAULT, Fld.THM_STATUS_FAULT_MAP], [], none, .whole, false⟩,
   ⟨"THM_SENSOR", 0x8100, [⟨16, 4⟩], [Fld.THM_SENSOR_VALID, Fld.THM_SENSOR_TEMP], [], none, .whole, false⟩,
   ⟨"THM_THROTTLE", 0x8200, [⟨12, 4⟩], [Fld.THM_THROTTLE_F], [], none, .whole, false⟩]
def RegMap.block_pwr : Block := ⟨0x100000, 1, 1, 0x100000, RegMap.regs_pwr⟩

def RegMap.regs_boot : List RegDef :=
  [⟨"BOOT_STATUS", 0, [], [Fld.BOOT_STATUS_STAGE, Fld.BOOT_STATUS_FLASH_ERR, Fld.BOOT_STATUS_PROFILE_ERR, Fld.BOOT_STATUS_FULL], [], none, .whole, false⟩,
   ⟨"BOOT_STRAP", 4, [], [Fld.BOOT_STRAP_PRIMARY, Fld.BOOT_STRAP_MODE, Fld.BOOT_STRAP_BIF], [], none, .whole, false⟩,
   ⟨"BOOT_CAUSE", 8, [], [Fld.BOOT_CAUSE_KIND], [], none, .whole, false⟩,
   ⟨"BOOT_IMG", 0x10, [⟨4, 4⟩], [Fld.BOOT_IMG_RESULT, Fld.BOOT_IMG_CODE], [], none, .whole, false⟩,
   ⟨"BOOT_FULL", 0x20, [], [Fld.BOOT_FULL_GO], [], none, .whole, false⟩,
   ⟨"BOOT_RESET", 0x30, [], [Fld.BOOT_RESET_KEY, Fld.BOOT_RESET_WARM], [], none, .whole, false⟩,
   ⟨"BOOT_EVENT", 0x28, [], [Fld.BOOT_EVENT_GO_ERR, Fld.BOOT_EVENT_FAIL, Fld.BOOT_EVENT_FULL, Fld.BOOT_EVENT_HBM, Fld.BOOT_EVENT_IMAGES, Fld.BOOT_EVENT_THAW], [], none, .whole, false⟩,
   ⟨"BOOT_EVENT_EN", 0x2c, [], [Fld.BOOT_EVENT_EN_GO_ERR, Fld.BOOT_EVENT_EN_FAIL, Fld.BOOT_EVENT_EN_FULL, Fld.BOOT_EVENT_EN_HBM, Fld.BOOT_EVENT_EN_IMAGES, Fld.BOOT_EVENT_EN_THAW], [], none, .whole, false⟩,
   ⟨"BOOT_MS", 0x40, [⟨3, 4⟩], [Fld.BOOT_MS_MS], [], none, .whole, false⟩,
   ⟨"BOOT_CNT_LO", 0x100, [⟨2, 8⟩], [Fld.BOOT_CNT_LO_VALUE_LO], [], none, .low, true⟩,
   ⟨"BOOT_CNT_HI", 0x104, [⟨2, 8⟩], [Fld.BOOT_CNT_HI_VALUE_HI], [], none, .high, false⟩]
def RegMap.block_boot : Block := ⟨0x200000, 1, 1, 0x200000, RegMap.regs_boot⟩

def RegMap.regs_irq : List RegDef :=
  [⟨"IRQ_STATUS", 0, [], [Fld.IRQ_STATUS_BAD_MSG, Fld.IRQ_STATUS_BAD_COMPLETE, Fld.IRQ_STATUS_CFG_ERR], [], none, .whole, false⟩,
   ⟨"IRQ_MSG_DOORBELL", 4, [], [Fld.IRQ_MSG_DOORBELL_NUMBER], [], none, .whole, false⟩,
   ⟨"IRQ_SRC_EN", 0x100, [⟨96, 4⟩], [Fld.IRQ_SRC_EN_VALUE], [], none, .whole, false⟩,
   ⟨"IRQ_PEND", 0x300, [⟨96, 4⟩], [Fld.IRQ_PEND_VALUE], [], none, .whole, false⟩,
   ⟨"IRQ_LEVEL", 0x500, [⟨17, 4⟩], [Fld.IRQ_LEVEL_VALUE], [], none, .whole, false⟩,
   ⟨"IRQ_SRC_PRIO", 0x1000, [⟨384, 4⟩], [Fld.IRQ_SRC_PRIO_VALUE], [], none, .whole, false⟩,
   ⟨"IRQ_SRC_ROUTE", 0x2000, [⟨384, 4⟩], [Fld.IRQ_SRC_ROUTE_VALUE], [], none, .whole, false⟩,
   ⟨"IRQ_CNT_LO", 0x600, [⟨3, 8⟩], [Fld.IRQ_CNT_LO_VALUE_LO], [], none, .low, true⟩,
   ⟨"IRQ_CNT_HI", 0x604, [⟨3, 8⟩], [Fld.IRQ_CNT_HI_VALUE_HI], [], none, .high, false⟩,
   ⟨"IRQ_TGT_CLAIM", 0x8000, [⟨12, 0x100⟩], [Fld.IRQ_TGT_CLAIM_CLAIM], [], none, .whole, false⟩,
   ⟨"IRQ_TGT_COMPLETE", 0x8004, [⟨12, 0x100⟩], [Fld.IRQ_TGT_COMPLETE_NUMBER], [], none, .whole, false⟩,
   ⟨"IRQ_TGT_CTL", 0x8008, [⟨12, 0x100⟩], [Fld.IRQ_TGT_CTL_MASK, Fld.IRQ_TGT_CTL_THRESH], [], none, .whole, false⟩,
   ⟨"IRQ_TGT_PRIV_EN", 0x800c, [⟨12, 0x100⟩], [Fld.IRQ_TGT_PRIV_EN_EN], [], none, .whole, false⟩,
   ⟨"IRQ_TGT_PRIV_PRIO", 0x8010, [⟨12, 0x100⟩, ⟨2, 4⟩], [Fld.IRQ_TGT_PRIV_PRIO_PRIO], [], none, .whole, false⟩,
   ⟨"IRQ_TGT_SOFT", 0x8018, [⟨12, 0x100⟩], [Fld.IRQ_TGT_SOFT_LEVEL], [], none, .whole, false⟩,
   ⟨"IRQ_TGT_STATUS", 0x801c, [⟨12, 0x100⟩], [Fld.IRQ_TGT_STATUS_SIGNALLED, Fld.IRQ_TGT_STATUS_WOKEN, Fld.IRQ_TGT_STATUS_RUN, Fld.IRQ_TGT_STATUS_DEPTH], [], none, .whole, false⟩,
   ⟨"IRQ_TGT_CNT_LO", 0x8040, [⟨12, 0x100⟩, ⟨5, 8⟩], [Fld.IRQ_TGT_CNT_LO_VALUE_LO], [], none, .low, true⟩,
   ⟨"IRQ_TGT_CNT_HI", 0x8044, [⟨12, 0x100⟩, ⟨5, 8⟩], [Fld.IRQ_TGT_CNT_HI_VALUE_HI], [], none, .high, false⟩]
def RegMap.block_irq : Block := ⟨0x400000, 1, 1, 0x400000, RegMap.regs_irq⟩

def RegMap.regs_vrv : List RegDef :=
  [⟨"VRV_CFG", 0, [], [Fld.VRV_CFG_COMMIT, Fld.VRV_CFG_OWNER, Fld.VRV_CFG_SRC, Fld.VRV_CFG_EN], [], some 0, .whole, false⟩,
   ⟨"VRV_STATUS", 4, [], [Fld.VRV_STATUS_REF_LOST, Fld.VRV_STATUS_MATE_GAP], [], none, .whole, false⟩,
   ⟨"VRV_TIME_NS", 0x10, [], [Fld.VRV_TIME_NS_NS], [], none, .whole, false⟩,
   ⟨"VRV_TIME_SEC_LO", 0x14, [], [Fld.VRV_TIME_SEC_LO_SEC_LO], [], none, .whole, false⟩,
   ⟨"VRV_TIME_SEC_HI", 0x18, [], [Fld.VRV_TIME_SEC_HI_FRAC, Fld.VRV_TIME_SEC_HI_SEC_HI], [], none, .whole, false⟩,
   ⟨"VRV_SERVO_CFG", 0x20, [], [Fld.VRV_SERVO_CFG_STATE, Fld.VRV_SERVO_CFG_STEP_EN, Fld.VRV_SERVO_CFG_FMAX_PPB, Fld.VRV_SERVO_CFG_LOCK_CNT, Fld.VRV_SERVO_CFG_HOLD_TMO], [], none, .whole, false⟩,
   ⟨"VRV_SERVO_KP", 0x24, [], [Fld.VRV_SERVO_KP_E, Fld.VRV_SERVO_KP_M], [], none, .whole, false⟩,
   ⟨"VRV_SERVO_KI", 0x28, [], [Fld.VRV_SERVO_KI_E, Fld.VRV_SERVO_KI_M], [], none, .whole, false⟩,
   ⟨"VRV_SERVO_TH", 0x2c, [], [Fld.VRV_SERVO_TH_STEP_TH, Fld.VRV_SERVO_TH_LOCK_TH], [], none, .whole, false⟩,
   ⟨"VRV_FADJ", 0x30, [], [Fld.VRV_FADJ_FADJ], [], none, .whole, false⟩,
   ⟨"VRV_PPS_OUT", 0x40, [], [Fld.VRV_PPS_OUT_EN, Fld.VRV_PPS_OUT_ADVANCE, Fld.VRV_PPS_OUT_WIDTH], [], none, .whole, false⟩,
   ⟨"VRV_FREQ_OUT", 0x44, [], [Fld.VRV_FREQ_OUT_EN, Fld.VRV_FREQ_OUT_CFG_ERR, Fld.VRV_FREQ_OUT_PERIOD_NS], [], none, .whole, false⟩,
   ⟨"VRV_PPS_IN", 0x48, [], [Fld.VRV_PPS_IN_PPS_DELAY], [], none, .whole, false⟩,
   ⟨"VRV_PPS_CAP_NS", 0x50, [], [Fld.VRV_PPS_CAP_NS_VALUE], [], none, .low, false⟩,
   ⟨"VRV_PPS_CAP_SEC", 0x54, [], [Fld.VRV_PPS_CAP_SEC_VALUE], [], none, .high, false⟩,
   ⟨"VRV_EVENT", 0x60, [], [Fld.VRV_EVENT_PPS_IN, Fld.VRV_EVENT_STATE_CHG, Fld.VRV_EVENT_STEP, Fld.VRV_EVENT_REF_LOSS], [], none, .whole, false⟩,
   ⟨"VRV_EVENT_EN", 0x64, [], [Fld.VRV_EVENT_EN_PPS_IN, Fld.VRV_EVENT_EN_STATE_CHG, Fld.VRV_EVENT_EN_STEP, Fld.VRV_EVENT_EN_REF_LOSS], [], none, .whole, false⟩,
   ⟨"VRV_CNT_LO", 0x100, [⟨3, 8⟩], [Fld.VRV_CNT_LO_VALUE_LO], [], none, .low, true⟩,
   ⟨"VRV_CNT_HI", 0x104, [⟨3, 8⟩], [Fld.VRV_CNT_HI_VALUE_HI], [], none, .high, false⟩,
   ⟨"VRV_TXQ_LOST_LO", 0x200, [⟨8, 8⟩], [Fld.VRV_TXQ_LOST_LO_VALUE_LO], [], none, .low, false⟩,
   ⟨"VRV_TXQ_LOST_HI", 0x204, [⟨8, 8⟩], [Fld.VRV_TXQ_LOST_HI_VALUE_HI], [], none, .high, false⟩]
def RegMap.block_vrv : Block := ⟨0x800000, 1, 1, 0x400000, RegMap.regs_vrv⟩

def RegMap.regs_hif : List RegDef :=
  [⟨"HIF_CFG", 0, [], [Fld.HIF_CFG_COMMIT, Fld.HIF_CFG_G0_LINK, Fld.HIF_CFG_BIF], [], some 0, .whole, false⟩,
   ⟨"HIF_LINK_STATUS", 0x10, [⟨4, 4⟩], [Fld.HIF_LINK_STATUS_UP, Fld.HIF_LINK_STATUS_PERST, Fld.HIF_LINK_STATUS_WIDTH, Fld.HIF_LINK_STATUS_SPEED], [], none, .whole, false⟩,
   ⟨"HIF_GUILD_BIND", 0x100, [⟨8, 0x10⟩], [Fld.HIF_GUILD_BIND_VALID, Fld.HIF_GUILD_BIND_PASID_EN, Fld.HIF_GUILD_BIND_LINK, Fld.HIF_GUILD_BIND_PASID], [], some 0, .whole, false⟩,
   ⟨"HIF_GUILD_RINGS", 0x104, [⟨8, 0x10⟩], [Fld.HIF_GUILD_RINGS_COUNT, Fld.HIF_GUILD_RINGS_BASE], [1024], some 0, .whole, false⟩,
   ⟨"HIF_STAGE", 0x108, [⟨8, 0x10⟩], [Fld.HIF_STAGE_LIMIT_KIB], [], none, .whole, false⟩,
   ⟨"HIF_SHW", 0x10c, [⟨8, 0x10⟩], [Fld.HIF_SHW_SIZE, Fld.HIF_SHW_BASE], [], some 0, .whole, false⟩,
   ⟨"HIF_PORT_GUILD", 0x200, [⟨18, 4⟩], [Fld.HIF_PORT_GUILD_GUILD], [], none, .whole, false⟩,
   ⟨"HIF_EVENT", 0x300, [], [Fld.HIF_EVENT_LINK_DOWN, Fld.HIF_EVENT_ISO_VIOL, Fld.HIF_EVENT_DMA_ERR, Fld.HIF_EVENT_CFG_ERR], [], none, .whole, false⟩,
   ⟨"HIF_EVENT_EN", 0x304, [], [Fld.HIF_EVENT_EN_LINK_DOWN, Fld.HIF_EVENT_EN_ISO_VIOL, Fld.HIF_EVENT_EN_DMA_ERR, Fld.HIF_EVENT_EN_CFG_ERR], [], none, .whole, false⟩,
   ⟨"HIF_CNT_LO", 0x400, [⟨6, 8⟩], [Fld.HIF_CNT_LO_VALUE_LO], [], none, .low, true⟩,
   ⟨"HIF_CNT_HI", 0x404, [⟨6, 8⟩], [Fld.HIF_CNT_HI_VALUE_HI], [], none, .high, false⟩,
   ⟨"HIF_PUNT_BKT_RATE", 0x40000, [⟨8, 0x200⟩, ⟨64, 8⟩], [Fld.HIF_PUNT_BKT_RATE_RATE], [], none, .whole, false⟩,
   ⟨"HIF_PUNT_BKT_BURST", 0x40004, [⟨8, 0x200⟩, ⟨64, 8⟩], [Fld.HIF_PUNT_BKT_BURST_BURST], [], none, .whole, false⟩,
   ⟨"HIF_PUNT_DROP_LO", 0x41000, [⟨8, 0x200⟩, ⟨64, 8⟩], [Fld.HIF_PUNT_DROP_LO_VALUE_LO], [], none, .low, false⟩,
   ⟨"HIF_PUNT_DROP_HI", 0x41004, [⟨8, 0x200⟩, ⟨64, 8⟩], [Fld.HIF_PUNT_DROP_HI_VALUE_HI], [], none, .high, false⟩]
def RegMap.block_hif : Block := ⟨0xc00000, 1, 1, 0x80000, RegMap.regs_hif⟩

def RegMap.regs_coop : List RegDef :=
  [⟨"COOP_POOL", 0, [⟨4, 4⟩], [Fld.COOP_POOL_FREE, Fld.COOP_POOL_BLOCKS], [], none, .whole, false⟩,
   ⟨"COOP_THR", 0x10, [⟨4, 4⟩], [Fld.COOP_THR_INJ_STOP, Fld.COOP_THR_WARN], [], none, .whole, false⟩,
   ⟨"COOP_HK", 0x20, [], [Fld.COOP_HK_COMMIT, Fld.COOP_HK_FREE, Fld.COOP_HK_HK_BLOCKS], [], some 0x20, .whole, false⟩,
   ⟨"COOP_HK_ALLOC", 0x24, [], [Fld.COOP_HK_ALLOC_VALID, Fld.COOP_HK_ALLOC_BLOCK], [], none, .whole, false⟩,
   ⟨"COOP_HK_FREE", 0x28, [], [Fld.COOP_HK_FREE_BLOCK], [], none, .whole, false⟩,
   ⟨"MOR_POOL_CFG", 0x100, [], [Fld.MOR_POOL_CFG_EN, Fld.MOR_POOL_CFG_RECLAIM, Fld.MOR_POOL_CFG_PERIOD_MS], [], none, .whole, false⟩,
   ⟨"MOR_POOL_STATUS", 0x104, [], [Fld.MOR_POOL_STATUS_RUNNING, Fld.MOR_POOL_STATUS_DRAINING, Fld.MOR_POOL_STATUS_PASSES], [], none, .whole, false⟩,
   ⟨"MOR_POOL_EVENT", 0x108, [], [Fld.MOR_POOL_EVENT_POOL_LOW, Fld.MOR_POOL_EVENT_DUPLICATE, Fld.MOR_POOL_EVENT_LEAK, Fld.MOR_POOL_EVENT_FREE_HELD], [], none, .whole, false⟩,
   ⟨"MOR_POOL_EVENT_EN", 0x10c, [], [Fld.MOR_POOL_EVENT_EN_POOL_LOW, Fld.MOR_POOL_EVENT_EN_DUPLICATE, Fld.MOR_POOL_EVENT_EN_LEAK, Fld.MOR_POOL_EVENT_EN_FREE_HELD], [], none, .whole, false⟩,
   ⟨"MOR_POOL_LAST", 0x110, [], [Fld.MOR_POOL_LAST_VALID, Fld.MOR_POOL_LAST_KIND, Fld.MOR_POOL_LAST_HOLDER, Fld.MOR_POOL_LAST_POOL, Fld.MOR_POOL_LAST_INDEX], [], none, .whole, false⟩,
   ⟨"COOP_CNT_LO", 0x200, [⟨9, 8⟩], [Fld.COOP_CNT_LO_VALUE_LO], [], none, .low, true⟩,
   ⟨"COOP_CNT_HI", 0x204, [⟨9, 8⟩], [Fld.COOP_CNT_HI_VALUE_HI], [], none, .high, false⟩]
def RegMap.block_coop : Block := ⟨0xc80000, 1, 1, 0x380000, RegMap.regs_coop⟩

def RegMap.regs_hbm : List RegDef :=
  [⟨"HBM_STATUS", 0, [], [Fld.HBM_STATUS_TRAINING, Fld.HBM_STATUS_REFRESH_2X, Fld.HBM_STATUS_TRAINED], [], none, .whole, false⟩,
   ⟨"HBM_TRAIN", 8, [⟨2, 4⟩], [Fld.HBM_TRAIN_RESULT, Fld.HBM_TRAIN_REPAIRED], [], none, .whole, false⟩,
   ⟨"HBM_TEMP", 0x10, [⟨2, 4⟩], [Fld.HBM_TEMP_TEMP], [], none, .whole, false⟩,
   ⟨"HBM_SHARE", 0x20, [⟨6, 4⟩], [Fld.HBM_SHARE_SHARE], [], none, .whole, false⟩,
   ⟨"HBM_PWR", 0x40, [], [Fld.HBM_PWR_SR_IDLE, Fld.HBM_PWR_PD_IDLE], [], none, .whole, false⟩,
   ⟨"HBM_SCRUB", 0x44, [], [Fld.HBM_SCRUB_PERIOD_H], [], none, .whole, false⟩,
   ⟨"HBM_CE_TH", 0x48, [], [Fld.HBM_CE_TH_COUNT], [], none, .whole, false⟩,
   ⟨"HBM_EVENT", 0x50, [], [Fld.HBM_EVENT_CFG_ERR, Fld.HBM_EVENT_BAD_ADDR, Fld.HBM_EVENT_HOT, Fld.HBM_EVENT_TRAIN_FAIL, Fld.HBM_EVENT_UE, Fld.HBM_EVENT_CE_TH], [], none, .whole, false⟩,
   ⟨"HBM_EVENT_EN", 0x54, [], [Fld.HBM_EVENT_EN_CFG_ERR, Fld.HBM_EVENT_EN_BAD_ADDR, Fld.HBM_EVENT_EN_HOT, Fld.HBM_EVENT_EN_TRAIN_FAIL, Fld.HBM_EVENT_EN_UE, Fld.HBM_EVENT_EN_CE_TH], [], none, .whole, false⟩,
   ⟨"HBM_ERR_LAST", 0x58, [], [Fld.HBM_ERR_LAST_VALID, Fld.HBM_ERR_LAST_UNCORR, Fld.HBM_ERR_LAST_BLOCK], [], none, .whole, false⟩,
   ⟨"HBM_CNT_LO", 0x100, [⟨9, 8⟩], [Fld.HBM_CNT_LO_VALUE_LO], [], none, .low, true⟩,
   ⟨"HBM_CNT_HI", 0x104, [⟨9, 8⟩], [Fld.HBM_CNT_HI_VALUE_HI], [], none, .high, false⟩]
def RegMap.block_hbm : Block := ⟨0x1000000, 1, 1, 0x200000, RegMap.regs_hbm⟩

def RegMap.regs_ftm : List RegDef :=
  [⟨"FTM_CFG", 0, [], [Fld.FTM_CFG_COMMIT, Fld.FTM_CFG_TICK_MS], [], some 0, .whole, false⟩,
   ⟨"FTM_STATUS", 4, [], [Fld.FTM_STATUS_NOROOM, Fld.FTM_STATUS_QUARANTINE], [], none, .whole, false⟩,
   ⟨"FTM_NOW", 8, [], [Fld.FTM_NOW_NOW], [], none, .whole, false⟩,
   ⟨"FTM_RECORDS", 0xc, [], [Fld.FTM_RECORDS_COUNT], [], none, .whole, false⟩,
   ⟨"FTM_SWEEP", 0x10, [], [Fld.FTM_SWEEP_PASSES, Fld.FTM_SWEEP_PERIOD_S], [], none, .whole, false⟩,
   ⟨"FTM_TMO_IDLE", 0x40, [⟨8, 8⟩], [Fld.FTM_TMO_IDLE_IDLE], [], none, .whole, false⟩,
   ⟨"FTM_TMO_CLOSED", 0x44, [⟨8, 8⟩], [Fld.FTM_TMO_CLOSED_CLOSED], [], none, .whole, false⟩,
   ⟨"FTM_GUILD_CFG", 0x100, [⟨8, 8⟩], [Fld.FTM_GUILD_CFG_NOROOM, Fld.FTM_GUILD_CFG_EVT_CREATE, Fld.FTM_GUILD_CFG_EVT_EXPIRE, Fld.FTM_GUILD_CFG_EVT_NOROOM, Fld.FTM_GUILD_CFG_QUOTA], [], none, .whole, false⟩,
   ⟨"FTM_GUILD_CNT", 0x104, [⟨8, 8⟩], [Fld.FTM_GUILD_CNT_COUNT], [], none, .whole, true⟩,
   ⟨"FTM_CNT_LO", 0x200, [⟨16, 8⟩], [Fld.FTM_CNT_LO_VALUE_LO], [], none, .low, true⟩,
   ⟨"FTM_CNT_HI", 0x204, [⟨16, 8⟩], [Fld.FTM_CNT_HI_VALUE_HI], [], none, .high, false⟩]
def RegMap.block_ftm : Block := ⟨0x1200000, 1, 1, 0x200000, RegMap.regs_ftm⟩

def RegMap.regs_tly : List RegDef :=
  [⟨"TLY_CFG", 0, [], [Fld.TLY_CFG_EN, Fld.TLY_CFG_DEST, Fld.TLY_CFG_OWNER, Fld.TLY_CFG_TLM_EN, Fld.TLY_CFG_SETS], [], none, .whole, false⟩,
   ⟨"TLY_PERIOD", 4, [], [Fld.TLY_PERIOD_PERIOD_US], [], none, .whole, false⟩,
   ⟨"TLY_BUF", 8, [], [Fld.TLY_BUF_COUNT, Fld.TLY_BUF_SIZE], [], none, .whole, false⟩,
   ⟨"TLY_HOST_BASE_LO", 0x10, [], [Fld.TLY_HOST_BASE_LO_VALUE], [], none, .low, false⟩,
   ⟨"TLY_HOST_BASE_HI", 0x14, [], [Fld.TLY_HOST_BASE_HI_VALUE], [], none, .high, false⟩,
   ⟨"TLY_STATUS", 0x18, [], [Fld.TLY_STATUS_BUSY, Fld.TLY_STATUS_HELD, Fld.TLY_STATUS_BUF], [], none, .whole, false⟩,
   ⟨"TLY_LAST", 0x1c, [], [Fld.TLY_LAST_DUMP], [], none, .whole, false⟩,
   ⟨"TLY_EVENT", 0x20, [], [Fld.TLY_EVENT_GSEL_ERR, Fld.TLY_EVENT_CFG_ERR, Fld.TLY_EVENT_TRUNC, Fld.TLY_EVENT_SKIPPED, Fld.TLY_EVENT_DONE], [], none, .whole, false⟩,
   ⟨"TLY_EVENT_EN", 0x24, [], [Fld.TLY_EVENT_EN_GSEL_ERR, Fld.TLY_EVENT_EN_CFG_ERR, Fld.TLY_EVENT_EN_TRUNC, Fld.TLY_EVENT_EN_SKIPPED, Fld.TLY_EVENT_EN_DONE], [], none, .whole, false⟩,
   ⟨"TLY_GSEL", 0x100, [⟨64, 4⟩], [Fld.TLY_GSEL_VALID, Fld.TLY_GSEL_ADDR], [], none, .whole, false⟩,
   ⟨"TLY_TSTORE", 0x200, [⟨8, 4⟩], [Fld.TLY_TSTORE_EN, Fld.TLY_TSTORE_SIZE, Fld.TLY_TSTORE_BASE], [], none, .whole, false⟩,
   ⟨"TLY_TSTORE_LOST_LO", 0x300, [⟨8, 8⟩], [Fld.TLY_TSTORE_LOST_LO_VALUE_LO], [], none, .low, false⟩,
   ⟨"TLY_TSTORE_LOST_HI", 0x304, [⟨8, 8⟩], [Fld.TLY_TSTORE_LOST_HI_VALUE_HI], [], none, .high, false⟩]
def RegMap.block_tly : Block := ⟨0x1400000, 1, 1, 0x200000, RegMap.regs_tly⟩

def RegMap.regs_xbr : List RegDef :=
  [⟨"XBR_STOP", 4, [], [Fld.XBR_STOP_STOPPED], [], none, .whole, false⟩,
   ⟨"XBR_WEIGHT", 0x10, [⟨7, 4⟩], [Fld.XBR_WEIGHT_WEIGHT], [], none, .whole, false⟩,
   ⟨"XBR_PORT_CNT_LO", 0x400, [⟨13, 0x20⟩, ⟨3, 8⟩], [Fld.XBR_PORT_CNT_LO_VALUE_LO], [], none, .low, true⟩,
   ⟨"XBR_PORT_CNT_HI", 0x404, [⟨13, 0x20⟩, ⟨3, 8⟩], [Fld.XBR_PORT_CNT_HI_VALUE_HI], [], none, .high, false⟩]
def RegMap.block_xbr : Block := ⟨0x1600000, 1, 1, 0x200000, RegMap.regs_xbr⟩

def RegMap.regs_mate : List RegDef :=
  [⟨"MATE_CFG", 0, [], [Fld.MATE_CFG_COMMIT, Fld.MATE_CFG_PRIMARY, Fld.MATE_CFG_STBY_HOST, Fld.MATE_CFG_STBY_INJ, Fld.MATE_CFG_HB_TAKE, Fld.MATE_CFG_SETTLE_US, Fld.MATE_CFG_MISS, Fld.MATE_CFG_DRAIN_US], [], some 0, .whole, false⟩,
   ⟨"MATE_TMO", 4, [], [Fld.MATE_TMO_CLAIM_DELAY_MS, Fld.MATE_TMO_KICK_TMO_US], [], none, .whole, false⟩,
   ⟨"MATE_CTL", 8, [], [Fld.MATE_CTL_EN], [], none, .whole, false⟩,
   ⟨"MATE_KICK", 0xc, [], [Fld.MATE_KICK_KICK], [], none, .whole, false⟩,
   ⟨"MATE_STATUS", 0x10, [], [Fld.MATE_STATUS_ROLE, Fld.MATE_STATUS_PEER_ACT, Fld.MATE_STATUS_PEER_HB, Fld.MATE_STATUS_PEER_WAS_ACT, Fld.MATE_STATUS_FORCED, Fld.MATE_STATUS_GAP, Fld.MATE_STATUS_HB_LIVE], [], none, .whole, false⟩,
   ⟨"MATE_EVENT", 0x18, [], [Fld.MATE_EVENT_FORCE, Fld.MATE_EVENT_SPLIT, Fld.MATE_EVENT_PEER_LOST, Fld.MATE_EVENT_YIELDED, Fld.MATE_EVENT_CLAIMED], [], none, .whole, false⟩,
   ⟨"MATE_EVENT_EN", 0x1c, [], [Fld.MATE_EVENT_EN_FORCE, Fld.MATE_EVENT_EN_SPLIT, Fld.MATE_EVENT_EN_PEER_LOST, Fld.MATE_EVENT_EN_YIELDED, Fld.MATE_EVENT_EN_CLAIMED], [], none, .whole, false⟩,
   ⟨"MATE_CNT_LO", 0x100, [⟨4, 8⟩], [Fld.MATE_CNT_LO_VALUE_LO], [], none, .low, true⟩,
   ⟨"MATE_CNT_HI", 0x104, [⟨4, 8⟩], [Fld.MATE_CNT_HI_VALUE_HI], [], none, .high, false⟩]
def RegMap.block_mate : Block := ⟨0x1800000, 1, 1, 0x400000, RegMap.regs_mate⟩

def RegMap.regs_tnk : List RegDef :=
  [⟨"TNK_CTL", 0, [], [Fld.TNK_CTL_EN, Fld.TNK_CTL_GUILD_EN], [], none, .whole, false⟩,
   ⟨"TNK_SEED", 4, [], [Fld.TNK_SEED_SEED], [], none, .whole, false⟩,
   ⟨"TNK_MEMINJ", 0x10, [], [Fld.TNK_MEMINJ_ARM, Fld.TNK_MEMINJ_KIND, Fld.TNK_MEMINJ_STATION, Fld.TNK_MEMINJ_MEM], [], none, .whole, false⟩,
   ⟨"TNK_MEMINJ_ADDR", 0x14, [], [Fld.TNK_MEMINJ_ADDR_VALUE], [], none, .whole, false⟩,
   ⟨"TNK_ERR_EVENT", 0x20, [], [Fld.TNK_ERR_EVENT_TNK_DONE, Fld.TNK_ERR_EVENT_FATAL, Fld.TNK_ERR_EVENT_UE, Fld.TNK_ERR_EVENT_CE_TH], [], none, .whole, false⟩,
   ⟨"TNK_ERR_EVENT_EN", 0x24, [], [Fld.TNK_ERR_EVENT_EN_TNK_DONE, Fld.TNK_ERR_EVENT_EN_FATAL, Fld.TNK_ERR_EVENT_EN_UE, Fld.TNK_ERR_EVENT_EN_CE_TH], [], none, .whole, false⟩,
   ⟨"TNK_ERR_TH", 0x28, [], [Fld.TNK_ERR_TH_COUNT], [], none, .whole, false⟩,
   ⟨"TNK_ERR_LAST0", 0x30, [], [Fld.TNK_ERR_LAST0_VALID, Fld.TNK_ERR_LAST0_CLASS, Fld.TNK_ERR_LAST0_MEM, Fld.TNK_ERR_LAST0_STATION], [], none, .whole, false⟩,
   ⟨"TNK_ERR_LAST1", 0x34, [], [Fld.TNK_ERR_LAST1_INDEX], [], none, .whole, false⟩,
   ⟨"TNK_ERR_CNT_LO", 0x100, [⟨3, 8⟩], [Fld.TNK_ERR_CNT_LO_VALUE_LO], [], none, .low, true⟩,
   ⟨"TNK_ERR_CNT_HI", 0x104, [⟨3, 8⟩], [Fld.TNK_ERR_CNT_HI_VALUE_HI], [], none, .high, false⟩]
def RegMap.block_tnk : Block := ⟨0x1c00000, 1, 1, 0x400000, RegMap.regs_tnk⟩

def RegMap.regs_stn : List RegDef :=
  [⟨"STN_PACE", 0x100, [], [Fld.STN_PACE_VALID, Fld.STN_PACE_EFF, Fld.STN_PACE_RAW], [], none, .whole, false⟩,
   ⟨"STN_PACE_CNT_LO", 0x108, [], [Fld.STN_PACE_CNT_LO_VALUE_LO], [], none, .low, true⟩,
   ⟨"STN_PACE_CNT_HI", 0x10c, [], [Fld.STN_PACE_CNT_HI_VALUE_HI], [], none, .high, false⟩,
   ⟨"STN_ENERGY_LO", 0x120, [⟨4, 8⟩], [Fld.STN_ENERGY_LO_VALUE_LO], [], none, .low, false⟩,
   ⟨"STN_ENERGY_HI", 0x124, [⟨4, 8⟩], [Fld.STN_ENERGY_HI_VALUE_HI], [], none, .high, false⟩,
   ⟨"STN_QUAD", 0x200, [⟨3, 4⟩], [Fld.STN_QUAD_ERR, Fld.STN_QUAD_MODE], [], none, .whole, false⟩,
   ⟨"STN_AE_CFG", 0x1000, [], [Fld.STN_AE_CFG_MAX_RESTART, Fld.STN_AE_CFG_MAX_WORDS], [], none, .whole, false⟩,
   ⟨"STN_AE_FAULT", 0x1004, [], [Fld.STN_AE_FAULT_VALID, Fld.STN_AE_FAULT_ENGINE, Fld.STN_AE_FAULT_CODE, Fld.STN_AE_FAULT_ADDR], [], none, .whole, false⟩,
   ⟨"STN_AE_EVENT", 0x1008, [], [Fld.STN_AE_EVENT_TRAP_LOST, Fld.STN_AE_EVENT_TRAP, Fld.STN_AE_EVENT_FAULT_DROP, Fld.STN_AE_EVENT_FAULT], [], none, .whole, false⟩,
   ⟨"STN_AE_EVENT_EN", 0x100c, [], [Fld.STN_AE_EVENT_EN_TRAP_LOST, Fld.STN_AE_EVENT_EN_TRAP, Fld.STN_AE_EVENT_EN_FAULT_DROP, Fld.STN_AE_EVENT_EN_FAULT], [], none, .whole, false⟩,
   ⟨"STN_AE_UNCLASS", 0x1020, [⟨8, 4⟩], [Fld.STN_AE_UNCLASS_OPCODE], [], none, .whole, false⟩,
   ⟨"STN_AE_TRAP_LO", 0x1040, [], [Fld.STN_AE_TRAP_LO_CODE, Fld.STN_AE_TRAP_LO_ADDR], [], none, .low, false⟩,
   ⟨"STN_AE_TRAP_HI", 0x1044, [], [Fld.STN_AE_TRAP_HI_VALID, Fld.STN_AE_TRAP_HI_ENGINE], [], none, .high, false⟩,
   ⟨"STN_AE_CNT_LO", 0x1100, [⟨14, 8⟩], [Fld.STN_AE_CNT_LO_VALUE_LO], [], none, .low, true⟩,
   ⟨"STN_AE_CNT_HI", 0x1104, [⟨14, 8⟩], [Fld.STN_AE_CNT_HI_VALUE_HI], [], none, .high, false⟩,
   ⟨"STN_EVSEL", 0x2000, [⟨48, 4⟩], [Fld.STN_EVSEL_DUMP, Fld.STN_EVSEL_GUILD_EN, Fld.STN_EVSEL_GUILD, Fld.STN_EVSEL_EVENT], [], none, .whole, false⟩,
   ⟨"STN_EV_OVF", 0x2100, [⟨2, 4⟩], [Fld.STN_EV_OVF_VALUE], [], none, .whole, false⟩,
   ⟨"STN_EV_OVF_EN", 0x2108, [⟨2, 4⟩], [Fld.STN_EV_OVF_EN_VALUE], [], none, .whole, false⟩,
   ⟨"STN_EV_LO", 0x3000, [⟨48, 8⟩], [Fld.STN_EV_LO_VALUE], [], none, .low, false⟩,
   ⟨"STN_EV_HI", 0x3004, [⟨48, 8⟩], [Fld.STN_EV_HI_VALUE], [], none, .high, false⟩]
def RegMap.block_stn : Block := ⟨0x2000000, 12, 0x400000, 0x40000, RegMap.regs_stn⟩

def RegMap.regs_lane : List RegDef :=
  [⟨"LANE_CFG", 0, [⟨12, 0x4000⟩], [Fld.LANE_CFG_EN, Fld.LANE_CFG_DOWN_HOLD, Fld.LANE_CFG_TX_INV, Fld.LANE_CFG_RX_INV, Fld.LANE_CFG_TRAIN_EN, Fld.LANE_CFG_AN_EN, Fld.LANE_CFG_FEC, Fld.LANE_CFG_TYPE], [], none, .whole, false⟩,
   ⟨"LANE_STATUS", 4, [⟨12, 0x4000⟩], [Fld.LANE_STATUS_CFG_PENDING, Fld.LANE_STATUS_CFG_ERR, Fld.LANE_STATUS_REFOK, Fld.LANE_STATUS_LAT_VALID, Fld.LANE_STATUS_ACT_FEC, Fld.LANE_STATUS_ACT_TYPE, Fld.LANE_STATUS_LOCKED, Fld.LANE_STATUS_TRAIN_FAILS, Fld.LANE_STATUS_STATE], [], none, .whole, false⟩,
   ⟨"LANE_AN_ADV", 8, [⟨12, 0x4000⟩], [Fld.LANE_AN_ADV_PAUSE, Fld.LANE_AN_ADV_FEC_BITS, Fld.LANE_AN_ADV_ABILITY], [], none, .whole, false⟩,
   ⟨"LANE_AN_LP", 0xc, [⟨12, 0x4000⟩], [Fld.LANE_AN_LP_VALID, Fld.LANE_AN_LP_PAUSE, Fld.LANE_AN_LP_FEC_BITS, Fld.LANE_AN_LP_HCD, Fld.LANE_AN_LP_ABILITY], [], none, .whole, false⟩,
   ⟨"LANE_TXEQ", 0x10, [⟨12, 0x4000⟩], [Fld.LANE_TXEQ_OVERRIDE, Fld.LANE_TXEQ_PRE2, Fld.LANE_TXEQ_PRE1, Fld.LANE_TXEQ_MAIN, Fld.LANE_TXEQ_POST1], [], none, .whole, false⟩,
   ⟨"LANE_TEST", 0x14, [⟨12, 0x4000⟩], [Fld.LANE_TEST_LOOPBACK, Fld.LANE_TEST_TX_ON_LB, Fld.LANE_TEST_CHK_LOCK, Fld.LANE_TEST_PATTERN, Fld.LANE_TEST_CHK_EN, Fld.LANE_TEST_GEN_EN], [], none, .whole, false⟩,
   ⟨"LANE_PRBS_ERR", 0x18, [⟨12, 0x4000⟩], [Fld.LANE_PRBS_ERR_ERRORS], [], none, .whole, false⟩,
   ⟨"LANE_LAT_TX", 0x24, [⟨12, 0x4000⟩], [Fld.LANE_LAT_TX_LAT], [], none, .whole, false⟩,
   ⟨"LANE_LAT_RX", 0x28, [⟨12, 0x4000⟩], [Fld.LANE_LAT_RX_LAT], [], none, .whole, false⟩,
   ⟨"LANE_EVENT", 0x1c, [⟨12, 0x4000⟩], [Fld.LANE_EVENT_PRBS_LOSS, Fld.LANE_EVENT_FEC_UNCORR, Fld.LANE_EVENT_REFLOSS, Fld.LANE_EVENT_TRAIN_FAIL, Fld.LANE_EVENT_AN_DONE, Fld.LANE_EVENT_DOWN, Fld.LANE_EVENT_UP], [], none, .whole, false⟩,
   ⟨"LANE_EVENT_EN", 0x20, [⟨12, 0x4000⟩], [Fld.LANE_EVENT_EN_PRBS_LOSS, Fld.LANE_EVENT_EN_FEC_UNCORR, Fld.LANE_EVENT_EN_REFLOSS, Fld.LANE_EVENT_EN_TRAIN_FAIL, Fld.LANE_EVENT_EN_AN_DONE, Fld.LANE_EVENT_EN_DOWN, Fld.LANE_EVENT_EN_UP], [], none, .whole, false⟩,
   ⟨"LANE_FEC_CORR_LO", 0x30, [⟨12, 0x4000⟩], [Fld.LANE_FEC_CORR_LO_VALUE_LO], [], none, .low, false⟩,
   ⟨"LANE_FEC_CORR_HI", 0x34, [⟨12, 0x4000⟩], [Fld.LANE_FEC_CORR_HI_VALUE_HI], [], none, .high, false⟩,
   ⟨"LANE_FEC_UNCORR_LO", 0x38, [⟨12, 0x4000⟩], [Fld.LANE_FEC_UNCORR_LO_VALUE_LO], [], none, .low, false⟩,
   ⟨"LANE_FEC_UNCORR_HI", 0x3c, [⟨12, 0x4000⟩], [Fld.LANE_FEC_UNCORR_HI_VALUE_HI], [], none, .high, false⟩,
   ⟨"LANE_FEC_SYM_LO", 0x40, [⟨12, 0x4000⟩], [Fld.LANE_FEC_SYM_LO_VALUE_LO], [], none, .low, false⟩,
   ⟨"LANE_FEC_SYM_HI", 0x44, [⟨12, 0x4000⟩], [Fld.LANE_FEC_SYM_HI_VALUE_HI], [], none, .high, false⟩]
def RegMap.block_lane : Block := ⟨0x2040000, 12, 0x400000, 0x40000, RegMap.regs_lane⟩

def RegMap.regs_mac : List RegDef :=
  [⟨"MAC_CFG", 0, [⟨12, 0x4000⟩], [Fld.MAC_CFG_MAX_LEN, Fld.MAC_CFG_DEF_TC], [], none, .whole, false⟩,
   ⟨"MAC_TPID", 4, [⟨12, 0x4000⟩], [Fld.MAC_TPID_EXTRA, Fld.MAC_TPID_EXTRA_EN], [], none, .whole, false⟩,
   ⟨"MAC_PCP_MAP", 8, [⟨12, 0x4000⟩], [Fld.MAC_PCP_MAP_MAP], [], none, .whole, false⟩,
   ⟨"MAC_FC_CFG", 0xc, [⟨12, 0x4000⟩], [Fld.MAC_FC_CFG_MODE, Fld.MAC_FC_CFG_FOLLOW_AN, Fld.MAC_FC_CFG_PAUSE_RX, Fld.MAC_FC_CFG_PAUSE_TX, Fld.MAC_FC_CFG_PFC_RX_EN, Fld.MAC_FC_CFG_PFC_TX_EN], [], none, .whole, false⟩,
   ⟨"MAC_FC_TIME", 0x10, [⟨12, 0x4000⟩], [Fld.MAC_FC_TIME_REFRESH, Fld.MAC_FC_TIME_QUANTA], [], none, .whole, false⟩,
   ⟨"MAC_FC_STATUS", 0x14, [⟨12, 0x4000⟩], [Fld.MAC_FC_STATUS_RX_PAUSED, Fld.MAC_FC_STATUS_TX_XOFF, Fld.MAC_FC_STATUS_AN_TX, Fld.MAC_FC_STATUS_AN_RX], [], none, .whole, false⟩,
   ⟨"MAC_MERGE_CFG", 0x18, [⟨12, 0x4000⟩], [Fld.MAC_MERGE_CFG_EN, Fld.MAC_MERGE_CFG_VERIFY_DIS, Fld.MAC_MERGE_CFG_VERIFY_TIME], [], none, .whole, false⟩,
   ⟨"MAC_MERGE_STATUS", 0x1c, [⟨12, 0x4000⟩], [Fld.MAC_MERGE_STATUS_ACTIVE, Fld.MAC_MERGE_STATUS_VERIFY], [], none, .whole, false⟩,
   ⟨"MAC_STAT_CTL", 0x30, [⟨12, 0x4000⟩], [Fld.MAC_STAT_CTL_CLEAR], [], none, .whole, false⟩,
   ⟨"MAC_EVENT", 0x20, [⟨12, 0x4000⟩], [Fld.MAC_EVENT_ASM_ERR, Fld.MAC_EVENT_VERIFY_FAIL, Fld.MAC_EVENT_VERIFY_OK, Fld.MAC_EVENT_STAT_HALF], [], none, .whole, false⟩,
   ⟨"MAC_EVENT_EN", 0x24, [⟨12, 0x4000⟩], [Fld.MAC_EVENT_EN_ASM_ERR, Fld.MAC_EVENT_EN_VERIFY_FAIL, Fld.MAC_EVENT_EN_VERIFY_OK, Fld.MAC_EVENT_EN_STAT_HALF], [], none, .whole, false⟩,
   ⟨"MAC_SA_LO", 0x28, [⟨12, 0x4000⟩], [Fld.MAC_SA_LO_SA_LO], [], none, .whole, false⟩,
   ⟨"MAC_SA_HI", 0x2c, [⟨12, 0x4000⟩], [Fld.MAC_SA_HI_SA_HI], [], none, .whole, false⟩,
   ⟨"MAC_STAT_HALF", 0x40, [⟨12, 0x4000⟩, ⟨3, 4⟩], [Fld.MAC_STAT_HALF_FLAG], [], none, .whole, false⟩,
   ⟨"MAC_STEER_MATCH", 0x100, [⟨12, 0x4000⟩, ⟨16, 0x10⟩], [Fld.MAC_STEER_MATCH_ETYPE, Fld.MAC_STEER_MATCH_PCP, Fld.MAC_STEER_MATCH_TAGGED, Fld.MAC_STEER_MATCH_VID], [], none, .whole, false⟩,
   ⟨"MAC_STEER_MASK", 0x104, [⟨12, 0x4000⟩, ⟨16, 0x10⟩], [Fld.MAC_STEER_MASK_ETYPE, Fld.MAC_STEER_MASK_PCP, Fld.MAC_STEER_MASK_TAGGED, Fld.MAC_STEER_MASK_VID], [], none, .whole, false⟩,
   ⟨"MAC_STEER_ACT", 0x108, [⟨12, 0x4000⟩, ⟨16, 0x10⟩], [Fld.MAC_STEER_ACT_VALID, Fld.MAC_STEER_ACT_ACTION, Fld.MAC_STEER_ACT_TC], [], none, .whole, false⟩,
   ⟨"MAC_STAT_LO", 0x1000, [⟨12, 0x4000⟩, ⟨72, 8⟩], [Fld.MAC_STAT_LO_VALUE_LO], [], none, .low, false⟩,
   ⟨"MAC_STAT_HI", 0x1004, [⟨12, 0x4000⟩, ⟨72, 8⟩], [Fld.MAC_STAT_HI_VALUE_HI], [], none, .high, false⟩]
def RegMap.block_mac : Block := ⟨0x2080000, 12, 0x400000, 0x40000, RegMap.regs_mac⟩

def RegMap.regs_prs : List RegDef :=
  [⟨"PRS_CFG", 0, [], [Fld.PRS_CFG_COMMIT, Fld.PRS_CFG_ACTIVE, Fld.PRS_CFG_FRAG_MODE, Fld.PRS_CFG_RECIRC_START, Fld.PRS_CFG_INJ_START], [], some 0, .whole, false⟩,
   ⟨"PRS_STATUS", 4, [], [Fld.PRS_STATUS_OLD_BUSY, Fld.PRS_STATUS_WR_ERR], [], none, .whole, false⟩,
   ⟨"PRS_SALT_LO", 8, [], [Fld.PRS_SALT_LO_VALUE], [], some 0, .low, false⟩,
   ⟨"PRS_SALT_HI", 0xc, [], [Fld.PRS_SALT_HI_VALUE], [], some 0, .high, false⟩,
   ⟨"PRS_PORT", 0x10, [⟨12, 4⟩], [Fld.PRS_PORT_START, Fld.PRS_PORT_KEY_DEPTH, Fld.PRS_PORT_ZONE], [], none, .whole, false⟩,
   ⟨"PRS_REASON", 0x100, [⟨64, 4⟩], [Fld.PRS_REASON_ACTION, Fld.PRS_REASON_TC], [], none, .whole, false⟩,
   ⟨"PRS_REASON_CNT_LO", 0x400, [⟨64, 8⟩], [Fld.PRS_REASON_CNT_LO_VALUE_LO], [], none, .low, true⟩,
   ⟨"PRS_REASON_CNT_HI", 0x404, [⟨64, 8⟩], [Fld.PRS_REASON_CNT_HI_VALUE_HI], [], none, .high, false⟩,
   ⟨"PRS_NODE", 0x10000, [⟨2, 0x1000⟩, ⟨256, 0x10⟩, ⟨4, 4⟩], [Fld.PRS_NODE_VALUE], [], none, .whole, false⟩,
   ⟨"PRS_TRANS", 0x20000, [⟨2, 0x4000⟩, ⟨2048, 8⟩, ⟨2, 4⟩], [Fld.PRS_TRANS_VALUE], [], none, .whole, false⟩]
def RegMap.block_prs : Block := ⟨0x20c0000, 12, 0x400000, 0x40000, RegMap.regs_prs⟩

def RegMap.regs_ept : List RegDef :=
  [⟨"EPT_CFG", 0, [], [Fld.EPT_CFG_AGE_MODE, Fld.EPT_CFG_EGRESS_LEARN, Fld.EPT_CFG_LEARN], [], none, .whole, false⟩,
   ⟨"EPT_AGE_CFG", 4, [], [Fld.EPT_AGE_CFG_AGE_LIMIT, Fld.EPT_AGE_CFG_TICK_MS], [], none, .whole, false⟩,
   ⟨"EPT_SWEEP", 8, [], [Fld.EPT_SWEEP_SWEEP_MS], [], none, .whole, false⟩,
   ⟨"EPT_MOVE_CFG", 0xc, [], [Fld.EPT_MOVE_CFG_FREEZE_TIME, Fld.EPT_MOVE_CFG_MOVE_WINDOW, Fld.EPT_MOVE_CFG_MOVE_LIMIT], [], none, .whole, false⟩,
   ⟨"EPT_STATUS", 0x10, [], [Fld.EPT_STATUS_NOW, Fld.EPT_STATUS_LEARN_Q], [], none, .whole, false⟩,
   ⟨"EPT_EVT_EN", 0x14, [], [Fld.EPT_EVT_EN_EN], [], none, .whole, false⟩,
   ⟨"EPT_PORT", 0x20, [⟨12, 4⟩], [Fld.EPT_PORT_LEARN_EN, Fld.EPT_PORT_EGR_LEARN_EN, Fld.EPT_PORT_PVID], [], none, .whole, false⟩,
   ⟨"EPT_QUOTA", 0x60, [⟨8, 4⟩], [Fld.EPT_QUOTA_LIMIT], [], none, .whole, false⟩,
   ⟨"EPT_GUILD_CNT", 0x80, [⟨8, 4⟩], [Fld.EPT_GUILD_CNT_COUNT], [], none, .whole, true⟩,
   ⟨"EPT_CNT_LO", 0x100, [⟨12, 8⟩], [Fld.EPT_CNT_LO_VALUE_LO], [], none, .low, true⟩,
   ⟨"EPT_CNT_HI", 0x104, [⟨12, 8⟩], [Fld.EPT_CNT_HI_VALUE_HI], [], none, .high, false⟩,
   ⟨"EPT_FID_MAP", 0x20000, [⟨8, 0x4000⟩, ⟨4096, 4⟩], [Fld.EPT_FID_MAP_VALID, Fld.EPT_FID_MAP_LEARN_EN, Fld.EPT_FID_MAP_FID, Fld.EPT_FID_MAP_FLOOD_GRP], [], none, .whole, false⟩]
def RegMap.block_ept : Block := ⟨0x2100000, 12, 0x400000, 0x40000, RegMap.regs_ept⟩

def RegMap.regs_lpm : List RegDef :=
  [⟨"LPM_COUNT4", 0, [], [Fld.LPM_COUNT4_COUNT], [], none, .whole, false⟩,
   ⟨"LPM_COUNT6", 4, [], [Fld.LPM_COUNT6_COUNT], [], none, .whole, false⟩,
   ⟨"LPM_PORT", 0x10, [⟨12, 4⟩], [Fld.LPM_PORT_EN, Fld.LPM_PORT_VRF], [], none, .whole, false⟩,
   ⟨"LPM_CNT_LO", 0x100, [⟨3, 8⟩], [Fld.LPM_CNT_LO_VALUE_LO], [], none, .low, true⟩,
   ⟨"LPM_CNT_HI", 0x104, [⟨3, 8⟩], [Fld.LPM_CNT_HI_VALUE_HI], [], none, .high, false⟩]
def RegMap.block_lpm : Block := ⟨0x2140000, 12, 0x400000, 0x40000, RegMap.regs_lpm⟩

def RegMap.regs_ice : List RegDef :=
  [⟨"ICE_CFG", 0, [], [Fld.ICE_CFG_WAIT_HIGH, Fld.ICE_CFG_FREE_LOW], [], none, .whole, false⟩,
   ⟨"ICE_OCC", 4, [], [Fld.ICE_OCC_FREE, Fld.ICE_OCC_HELD], [], none, .whole, false⟩,
   ⟨"ICE_PINWAIT", 8, [], [Fld.ICE_PINWAIT_PINNED, Fld.ICE_PINWAIT_WAIT], [], none, .whole, false⟩,
   ⟨"ICE_EVENT", 0xc, [], [Fld.ICE_EVENT_WAIT_REFUSED, Fld.ICE_EVENT_WAIT_HIGH, Fld.ICE_EVENT_MULTI_MATCH], [], none, .whole, false⟩,
   ⟨"ICE_EVENT_EN", 0x10, [], [Fld.ICE_EVENT_EN_WAIT_REFUSED, Fld.ICE_EVENT_EN_WAIT_HIGH, Fld.ICE_EVENT_EN_MULTI_MATCH], [], none, .whole, false⟩,
   ⟨"ICE_PIN_QUOTA", 0x20, [⟨8, 4⟩], [Fld.ICE_PIN_QUOTA_LIMIT], [], none, .whole, false⟩,
   ⟨"ICE_PIN_CNT", 0x40, [⟨8, 4⟩], [Fld.ICE_PIN_CNT_COUNT], [], none, .whole, true⟩,
   ⟨"ICE_CNT_LO", 0x100, [⟨16, 8⟩], [Fld.ICE_CNT_LO_VALUE_LO], [], none, .low, true⟩,
   ⟨"ICE_CNT_HI", 0x104, [⟨16, 8⟩], [Fld.ICE_CNT_HI_VALUE_HI], [], none, .high, false⟩]
def RegMap.block_ice : Block := ⟨0x2180000, 12, 0x400000, 0x40000, RegMap.regs_ice⟩

def RegMap.regs_rul : List RegDef :=
  [⟨"RUL_CFG", 0, [], [Fld.RUL_CFG_COMMIT, Fld.RUL_CFG_MAX_PASS], [], some 0, .whole, false⟩,
   ⟨"RUL_STATUS", 4, [], [Fld.RUL_STATUS_QUEUE, Fld.RUL_STATUS_DRAINING, Fld.RUL_STATUS_ACTIVE], [], none, .whole, false⟩,
   ⟨"RUL_EVENT", 8, [], [Fld.RUL_EVENT_RECIRC_LIMIT, Fld.RUL_EVENT_SEARCH_REFUSED], [], none, .whole, false⟩,
   ⟨"RUL_EVENT_EN", 0xc, [], [Fld.RUL_EVENT_EN_RECIRC_LIMIT, Fld.RUL_EVENT_EN_SEARCH_REFUSED], [], none, .whole, false⟩,
   ⟨"RUL_EPOCH", 0x10, [⟨8, 4⟩], [Fld.RUL_EPOCH_EPOCH], [], none, .whole, false⟩,
   ⟨"RUL_DRAIN", 0x30, [⟨8, 4⟩], [Fld.RUL_DRAIN_B, Fld.RUL_DRAIN_A], [], none, .whole, false⟩,
   ⟨"RUL_GUILD_RANGE", 0x50, [⟨8, 4⟩], [Fld.RUL_GUILD_RANGE_COUNT, Fld.RUL_GUILD_RANGE_BASE], [0, 512], some 0, .whole, false⟩,
   ⟨"RUL_PORT", 0x80, [⟨12, 4⟩], [Fld.RUL_PORT_POLICY_EN], [], none, .whole, false⟩,
   ⟨"RUL_CNT_LO", 0x100, [⟨12, 8⟩], [Fld.RUL_CNT_LO_VALUE_LO], [], none, .low, true⟩,
   ⟨"RUL_CNT_HI", 0x104, [⟨12, 8⟩], [Fld.RUL_CNT_HI_VALUE_HI], [], none, .high, false⟩]
def RegMap.block_rul : Block := ⟨0x21c0000, 12, 0x400000, 0x40000, RegMap.regs_rul⟩

def RegMap.regs_ucs : List RegDef :=
  [⟨"UCS_VER_VENDOR", 0, [], [Fld.UCS_VER_VENDOR_MAJOR, Fld.UCS_VER_VENDOR_MINOR, Fld.UCS_VER_VENDOR_BUILD], [], none, .whole, false⟩,
   ⟨"UCS_VER_CUSTOMER", 4, [], [Fld.UCS_VER_CUSTOMER_MAJOR, Fld.UCS_VER_CUSTOMER_MINOR, Fld.UCS_VER_CUSTOMER_BUILD], [], none, .whole, false⟩,
   ⟨"UCS_STATUS", 8, [], [Fld.UCS_STATUS_SWITCHING, Fld.UCS_STATUS_WR_ERR, Fld.UCS_STATUS_LOADING], [], none, .whole, false⟩,
   ⟨"UCS_RD_ADDR", 0x10, [], [Fld.UCS_RD_ADDR_HK, Fld.UCS_RD_ADDR_ADDR], [], none, .whole, false⟩,
   ⟨"UCS_RD_DATA", 0x14, [⟨5, 4⟩], [Fld.UCS_RD_DATA_DATA], [], none, .whole, false⟩,
   ⟨"UCS_DISPATCH", 0x400, [⟨256, 4⟩], [Fld.UCS_DISPATCH_VALUE], [], none, .whole, false⟩]
def RegMap.block_ucs : Block := ⟨0x2200000, 12, 0x400000, 0x80000, RegMap.regs_ucs⟩

def RegMap.regs_tsk : List RegDef :=
  [⟨"TSK_CFG", 0, [], [Fld.TSK_CFG_RES_LIMIT, Fld.TSK_CFG_XRES, Fld.TSK_CFG_AFF_RUN, Fld.TSK_CFG_XSLOTS], [], none, .whole, false⟩,
   ⟨"TSK_XCFG", 4, [], [Fld.TSK_XCFG_XWORDS], [], none, .whole, false⟩,
   ⟨"TSK_GROUP_MAP", 8, [], [Fld.TSK_GROUP_MAP_MAP], [], none, .whole, false⟩,
   ⟨"TSK_WEIGHT", 0x10, [⟨4, 4⟩], [Fld.TSK_WEIGHT_WEIGHT], [], none, .whole, false⟩,
   ⟨"TSK_OCC", 0x20, [], [Fld.TSK_OCC_WAITING, Fld.TSK_OCC_USED], [], none, .whole, false⟩,
   ⟨"TSK_OCC2", 0x24, [], [Fld.TSK_OCC2_READY, Fld.TSK_OCC2_DONE], [], none, .whole, false⟩,
   ⟨"TSK_EVENT", 0x28, [], [Fld.TSK_EVENT_XWORDS_OVER, Fld.TSK_EVENT_SLOTS_FULL, Fld.TSK_EVENT_RES_DROP], [], none, .whole, false⟩,
   ⟨"TSK_EVENT_EN", 0x2c, [], [Fld.TSK_EVENT_EN_XWORDS_OVER, Fld.TSK_EVENT_EN_SLOTS_FULL, Fld.TSK_EVENT_EN_RES_DROP], [], none, .whole, false⟩,
   ⟨"TSK_SHORT", 0x40, [⟨8, 4⟩], [Fld.TSK_SHORT_SHORT], [], none, .whole, false⟩,
   ⟨"TSK_ORQ", 0x100, [⟨97, 4⟩], [Fld.TSK_ORQ_HEAD_AGE, Fld.TSK_ORQ_DEPTH], [], none, .whole, false⟩,
   ⟨"TSK_CNT_LO", 0x400, [⟨12, 8⟩], [Fld.TSK_CNT_LO_VALUE_LO], [], none, .low, true⟩,
   ⟨"TSK_CNT_HI", 0x404, [⟨12, 8⟩], [Fld.TSK_CNT_HI_VALUE_HI], [], none, .high, false⟩]
def RegMap.block_tsk : Block := ⟨0x2280000, 12, 0x400000, 0x40000, RegMap.regs_tsk⟩

def RegMap.regs_swc : List RegDef :=
  [⟨"SWC_CFG", 0, [], [Fld.SWC_CFG_COMMIT, Fld.SWC_CFG_XRES], [], some 0, .whole, false⟩,
   ⟨"SWC_POOL", 4, [], [Fld.SWC_POOL_SHARED_FREE, Fld.SWC_POOL_SHARED], [], none, .whole, false⟩,
   ⟨"SWC_PFC_CFG", 8, [], [Fld.SWC_PFC_CFG_XON_DELTA, Fld.SWC_PFC_CFG_ALPHA], [], none, .whole, false⟩,
   ⟨"SWC_INJ", 0xc, [], [Fld.SWC_INJ_LIMIT], [], none, .whole, false⟩,
   ⟨"SWC_CLASS", 0x20, [⟨7, 4⟩], [Fld.SWC_CLASS_ALPHA, Fld.SWC_CLASS_ECN_MODE, Fld.SWC_CLASS_ECN_TH], [], none, .whole, false⟩,
   ⟨"SWC_HEADROOM", 0x40, [⟨12, 4⟩], [Fld.SWC_HEADROOM_HEAD], [], some 0, .whole, false⟩,
   ⟨"SWC_PORT_STATUS", 0x80, [⟨12, 4⟩], [Fld.SWC_PORT_STATUS_XOFF, Fld.SWC_PORT_STATUS_HEAD_USED], [], none, .whole, false⟩,
   ⟨"SWC_MC_CFG", 0x100, [], [Fld.SWC_MC_CFG_REPORT, Fld.SWC_MC_CFG_HOL_TIMEOUT], [], none, .whole, false⟩,
   ⟨"SWC_EVENT", 0x108, [], [Fld.SWC_EVENT_MC_HOL, Fld.SWC_EVENT_HEADROOM_OVF, Fld.SWC_EVENT_NO_CELL], [], none, .whole, false⟩,
   ⟨"SWC_EVENT_EN", 0x10c, [], [Fld.SWC_EVENT_EN_MC_HOL, Fld.SWC_EVENT_EN_HEADROOM_OVF, Fld.SWC_EVENT_EN_NO_CELL], [], none, .whole, false⟩,
   ⟨"SWC_VOQ_SEL", 0x200, [], [Fld.SWC_VOQ_SEL_MC, Fld.SWC_VOQ_SEL_INDEX], [], none, .whole, false⟩,
   ⟨"SWC_VOQ_DEPTH", 0x204, [], [Fld.SWC_VOQ_DEPTH_FRAMES, Fld.SWC_VOQ_DEPTH_CELLS], [], none, .whole, false⟩,
   ⟨"SWC_CNT_LO", 0x300, [⟨16, 8⟩], [Fld.SWC_CNT_LO_VALUE_LO], [], none, .low, true⟩,
   ⟨"SWC_CNT_HI", 0x304, [⟨16, 8⟩], [Fld.SWC_CNT_HI_VALUE_HI], [], none, .high, false⟩,
   ⟨"SWC_PCNT_LO", 0x400, [⟨12, 0x20⟩, ⟨4, 8⟩], [Fld.SWC_PCNT_LO_VALUE_LO], [], none, .low, false⟩,
   ⟨"SWC_PCNT_HI", 0x404, [⟨12, 0x20⟩, ⟨4, 8⟩], [Fld.SWC_PCNT_HI_VALUE_HI], [], none, .high, false⟩]
def RegMap.block_swc : Block := ⟨0x22c0000, 12, 0x400000, 0x40000, RegMap.regs_swc⟩

def RegMap.regs_cel : List RegDef :=
  [⟨"CEL_STATUS", 0, [], [Fld.CEL_STATUS_LOW, Fld.CEL_STATUS_FREE], [], none, .whole, false⟩,
   ⟨"CEL_WARN", 4, [], [Fld.CEL_WARN_LOW], [], none, .whole, false⟩,
   ⟨"CEL_FREE", 8, [], [Fld.CEL_FREE_INDEX], [], none, .whole, false⟩,
   ⟨"MOR_CFG", 0x100, [], [Fld.MOR_CFG_EN, Fld.MOR_CFG_RECLAIM, Fld.MOR_CFG_PERIOD_MS], [], none, .whole, false⟩,
   ⟨"MOR_STATUS", 0x104, [], [Fld.MOR_STATUS_RUNNING, Fld.MOR_STATUS_DRAINING, Fld.MOR_STATUS_PASSES], [], none, .whole, false⟩,
   ⟨"MOR_EVENT", 0x108, [], [Fld.MOR_EVENT_CELL_LOW, Fld.MOR_EVENT_LEAK, Fld.MOR_EVENT_FREE_HELD], [], none, .whole, false⟩,
   ⟨"MOR_EVENT_EN", 0x10c, [], [Fld.MOR_EVENT_EN_CELL_LOW, Fld.MOR_EVENT_EN_LEAK, Fld.MOR_EVENT_EN_FREE_HELD], [], none, .whole, false⟩,
   ⟨"MOR_LAST", 0x110, [], [Fld.MOR_LAST_VALID, Fld.MOR_LAST_KIND, Fld.MOR_LAST_HOLDER, Fld.MOR_LAST_POOL, Fld.MOR_LAST_INDEX], [], none, .whole, false⟩,
   ⟨"MOR_CNT_LO", 0x200, [⟨5, 8⟩], [Fld.MOR_CNT_LO_VALUE_LO], [], none, .low, true⟩,
   ⟨"MOR_CNT_HI", 0x204, [⟨5, 8⟩], [Fld.MOR_CNT_HI_VALUE_HI], [], none, .high, false⟩]
def RegMap.block_cel : Block := ⟨0x2300000, 12, 0x400000, 0x40000, RegMap.regs_cel⟩

def RegMap.regs_egr : List RegDef :=
  [⟨"EGR_CFG", 0, [], [Fld.EGR_CFG_COMMIT, Fld.EGR_CFG_XRES], [], some 0, .whole, false⟩,
   ⟨"EGR_POOL", 4, [], [Fld.EGR_POOL_SHARED_FREE, Fld.EGR_POOL_SHARED], [], none, .whole, false⟩,
   ⟨"EGR_EVENT", 8, [], [Fld.EGR_EVENT_TIME_STEP, Fld.EGR_EVENT_GCL_SWITCH, Fld.EGR_EVENT_NEVER_FIT, Fld.EGR_EVENT_GATE_OVERRUN, Fld.EGR_EVENT_XNO_ROOM], [], none, .whole, false⟩,
   ⟨"EGR_EVENT_EN", 0xc, [], [Fld.EGR_EVENT_EN_TIME_STEP, Fld.EGR_EVENT_EN_GCL_SWITCH, Fld.EGR_EVENT_EN_NEVER_FIT, Fld.EGR_EVENT_EN_GATE_OVERRUN, Fld.EGR_EVENT_EN_XNO_ROOM], [], none, .whole, false⟩,
   ⟨"EGR_PORT_CFG", 0x1000, [⟨12, 0x100⟩], [Fld.EGR_PORT_CFG_MIN, Fld.EGR_PORT_CFG_GATE_EN], [], some 0, .whole, false⟩,
   ⟨"EGR_WFQ_LO", 0x1004, [⟨12, 0x100⟩], [Fld.EGR_WFQ_LO_W], [], none, .whole, false⟩,
   ⟨"EGR_WFQ_HI", 0x1008, [⟨12, 0x100⟩], [Fld.EGR_WFQ_HI_W], [], none, .whole, false⟩,
   ⟨"EGR_CLASS", 0x1020, [⟨12, 0x100⟩, ⟨7, 4⟩], [Fld.EGR_CLASS_ALPHA], [], none, .whole, false⟩,
   ⟨"EGR_QDEPTH", 0x1040, [⟨12, 0x100⟩, ⟨8, 4⟩], [Fld.EGR_QDEPTH_FRAMES, Fld.EGR_QDEPTH_BLOCKS], [], none, .whole, false⟩,
   ⟨"EGR_GCL_CTL", 0x1060, [⟨12, 0x100⟩], [Fld.EGR_GCL_CTL_ACTIVE, Fld.EGR_GCL_CTL_PENDING, Fld.EGR_GCL_CTL_CFG_ERR, Fld.EGR_GCL_CTL_LEN], [], none, .whole, false⟩,
   ⟨"EGR_GCL_CYCLE", 0x1064, [⟨12, 0x100⟩], [Fld.EGR_GCL_CYCLE_CYCLE], [], none, .whole, false⟩,
   ⟨"EGR_GCL_GUARD", 0x1070, [⟨12, 0x100⟩], [Fld.EGR_GCL_GUARD_GUARD], [], none, .whole, false⟩,
   ⟨"EGR_GCL_BASE_NS", 0x1068, [⟨12, 0x100⟩], [Fld.EGR_GCL_BASE_NS_VALUE], [], none, .low, false⟩,
   ⟨"EGR_GCL_BASE_SEC", 0x106c, [⟨12, 0x100⟩], [Fld.EGR_GCL_BASE_SEC_VALUE], [], none, .high, false⟩,
   ⟨"EGR_GCL_OPER", 0x1074, [⟨12, 0x100⟩], [Fld.EGR_GCL_OPER_GATES, Fld.EGR_GCL_OPER_ENTRY], [], none, .whole, false⟩,
   ⟨"EGR_HIST_CFG", 0x1078, [⟨12, 0x100⟩], [Fld.EGR_HIST_CFG_CLEAR, Fld.EGR_HIST_CFG_SAMPLE_US, Fld.EGR_HIST_CFG_UNIT_EXP], [], none, .whole, false⟩,
   ⟨"EGR_QMAXDLY", 0x1080, [⟨12, 0x100⟩, ⟨8, 4⟩], [Fld.EGR_QMAXDLY_MAXDLY], [], none, .whole, false⟩,
   ⟨"EGR_GATE_INTERVAL", 0x10000, [⟨12, 0x1000⟩, ⟨2, 0x800⟩, ⟨256, 8⟩], [Fld.EGR_GATE_INTERVAL_VALUE], [], none, .whole, false⟩,
   ⟨"EGR_GATE_GATES", 0x10004, [⟨12, 0x1000⟩, ⟨2, 0x800⟩, ⟨256, 8⟩], [Fld.EGR_GATE_GATES_VALUE], [], none, .whole, false⟩,
   ⟨"EGR_HIST", 0x20000, [⟨12, 0x400⟩, ⟨8, 0x80⟩, ⟨2, 0x40⟩, ⟨16, 4⟩], [Fld.EGR_HIST_VALUE], [], none, .whole, false⟩,
   ⟨"EGR_PCNT_LO", 0x30000, [⟨12, 0x100⟩, ⟨7, 8⟩], [Fld.EGR_PCNT_LO_VALUE_LO], [], none, .low, false⟩,
   ⟨"EGR_PCNT_HI", 0x30004, [⟨12, 0x100⟩, ⟨7, 8⟩], [Fld.EGR_PCNT_HI_VALUE_HI], [], none, .high, false⟩]
def RegMap.block_egr : Block := ⟨0x2340000, 12, 0x400000, 0x40000, RegMap.regs_egr⟩

def RegMap.regs_tnkHooks : List RegDef :=
  [⟨"TNK_SEL", 0, [⟨12, 0x100⟩, ⟨4, 0x40⟩], [Fld.TNK_SEL_EN, Fld.TNK_SEL_DIR, Fld.TNK_SEL_ACTION, Fld.TNK_SEL_TRIG, Fld.TNK_SEL_WIN_EN, Fld.TNK_SEL_FCS, Fld.TNK_SEL_CLASSES, Fld.TNK_SEL_OFFSET], [], none, .whole, false⟩,
   ⟨"TNK_MATCH", 4, [⟨12, 0x100⟩, ⟨4, 0x40⟩], [Fld.TNK_MATCH_MATCH], [], none, .whole, false⟩,
   ⟨"TNK_MASK", 8, [⟨12, 0x100⟩, ⟨4, 0x40⟩], [Fld.TNK_MASK_MASK], [], none, .whole, false⟩,
   ⟨"TNK_TRIG", 0xc, [⟨12, 0x100⟩, ⟨4, 0x40⟩], [Fld.TNK_TRIG_HOLD, Fld.TNK_TRIG_PARAM], [], none, .whole, false⟩,
   ⟨"TNK_LIMIT", 0x10, [⟨12, 0x100⟩, ⟨4, 0x40⟩], [Fld.TNK_LIMIT_LIMIT], [], none, .whole, false⟩,
   ⟨"TNK_CORR_OFF", 0x14, [⟨12, 0x100⟩, ⟨4, 0x40⟩], [Fld.TNK_CORR_OFF_CORR_OFF], [], none, .whole, false⟩,
   ⟨"TNK_CORR_MASK", 0x18, [⟨12, 0x100⟩, ⟨4, 0x40⟩], [Fld.TNK_CORR_MASK_CORR_MASK], [], none, .whole, false⟩,
   ⟨"TNK_WIN_START_NS", 0x1c, [⟨12, 0x100⟩, ⟨4, 0x40⟩], [Fld.TNK_WIN_START_NS_NS], [], none, .whole, false⟩,
   ⟨"TNK_WIN_START_SEC", 0x20, [⟨12, 0x100⟩, ⟨4, 0x40⟩], [Fld.TNK_WIN_START_SEC_SEC_LO], [], none, .whole, false⟩,
   ⟨"TNK_WIN_END_NS", 0x24, [⟨12, 0x100⟩, ⟨4, 0x40⟩], [Fld.TNK_WIN_END_NS_NS], [], none, .whole, false⟩,
   ⟨"TNK_WIN_END_SEC", 0x28, [⟨12, 0x100⟩, ⟨4, 0x40⟩], [Fld.TNK_WIN_END_SEC_SEC_LO], [], none, .whole, false⟩,
   ⟨"TNK_INJ_CNT", 0x2c, [⟨12, 0x100⟩, ⟨4, 0x40⟩], [Fld.TNK_INJ_CNT_COUNT], [], none, .whole, true⟩,
   ⟨"TNK_PEVENT", 0xf0, [⟨12, 0x100⟩], [Fld.TNK_PEVENT_CFG_ERR, Fld.TNK_PEVENT_DONE], [], none, .whole, false⟩,
   ⟨"TNK_PEVENT_EN", 0xf4, [⟨12, 0x100⟩], [Fld.TNK_PEVENT_EN_CFG_ERR, Fld.TNK_PEVENT_EN_DONE], [], none, .whole, false⟩]
def RegMap.block_tnkHooks : Block := ⟨0x2380000, 12, 0x400000, 0x80000, RegMap.regs_tnkHooks⟩

def RegMap.regs_station0 : List RegDef :=
  [⟨"LPM_QUOTA4", 0x140040, [⟨8, 4⟩], [Fld.LPM_QUOTA4_LIMIT], [], none, .whole, false⟩,
   ⟨"LPM_QUOTA6", 0x140060, [⟨8, 4⟩], [Fld.LPM_QUOTA6_LIMIT], [], none, .whole, false⟩,
   ⟨"UCS_KEY_STATUS", 0x200800, [], [Fld.UCS_KEY_STATUS_CKEY_SET], [], none, .whole, false⟩,
   ⟨"UCS_HK_VER_VENDOR", 0x200804, [], [Fld.UCS_HK_VER_VENDOR_MAJOR, Fld.UCS_HK_VER_VENDOR_MINOR, Fld.UCS_HK_VER_VENDOR_BUILD], [], none, .whole, false⟩,
   ⟨"UCS_HK_VER_CUSTOMER", 0x200808, [], [Fld.UCS_HK_VER_CUSTOMER_MAJOR, Fld.UCS_HK_VER_CUSTOMER_MINOR, Fld.UCS_HK_VER_CUSTOMER_BUILD], [], none, .whole, false⟩,
   ⟨"UCS_VKEY_HASH", 0x200820, [⟨8, 4⟩], [Fld.UCS_VKEY_HASH_VALUE], [], none, .whole, false⟩,
   ⟨"UCS_CKEY_HASH", 0x200840, [⟨8, 4⟩], [Fld.UCS_CKEY_HASH_VALUE], [], none, .whole, false⟩,
   ⟨"UCS_HK_CTL", 0x200900, [⟨4, 0x20⟩], [Fld.UCS_HK_CTL_RUN, Fld.UCS_HK_CTL_SERVICE, Fld.UCS_HK_CTL_START], [], none, .whole, false⟩,
   ⟨"UCS_HK_CFG", 0x200904, [⟨4, 0x20⟩], [Fld.UCS_HK_CFG_IRQ_OP, Fld.UCS_HK_CFG_TIMER_OP, Fld.UCS_HK_CFG_MAX_WORDS], [], none, .whole, false⟩,
   ⟨"UCS_HK_TIMER", 0x200908, [⟨4, 0x20⟩], [Fld.UCS_HK_TIMER_TIMER_US], [], none, .whole, false⟩,
   ⟨"UCS_HK_STATUS", 0x20090c, [⟨4, 0x20⟩], [Fld.UCS_HK_STATUS_STATE, Fld.UCS_HK_STATUS_CODE, Fld.UCS_HK_STATUS_FAULT, Fld.UCS_HK_STATUS_DEPTH, Fld.UCS_HK_STATUS_QUEUE, Fld.UCS_HK_STATUS_LOST, Fld.UCS_HK_STATUS_ADDR], [], none, .whole, false⟩,
   ⟨"UCS_HK_DISPATCH", 0x200c00, [⟨256, 4⟩], [Fld.UCS_HK_DISPATCH_VALUE], [], none, .whole, false⟩]
def RegMap.block_station0 : Block := ⟨0x2000000, 1, 1, 0x400000, RegMap.regs_station0⟩

def RegMap.regs_guildPage : List RegDef :=
  [⟨"GLD_CTL", 0, [], [Fld.GLD_CTL_EN, Fld.GLD_CTL_QUIESCED, Fld.GLD_CTL_GUILD], [1], none, .whole, false⟩,
   ⟨"GLD_DB_ADDR_LO", 8, [], [Fld.GLD_DB_ADDR_LO_VALUE], [], none, .low, false⟩,
   ⟨"GLD_DB_ADDR_HI", 0xc, [], [Fld.GLD_DB_ADDR_HI_VALUE], [], none, .high, false⟩,
   ⟨"GLD_POLL", 0x10, [], [Fld.GLD_POLL_MAX, Fld.GLD_POLL_MIN], [], none, .whole, false⟩,
   ⟨"GLD_BOOT_CMD_LO", 0x18, [], [Fld.GLD_BOOT_CMD_LO_BASE_LO, Fld.GLD_BOOT_CMD_LO_LOG2N], [], none, .low, false⟩,
   ⟨"GLD_BOOT_CMD_HI", 0x1c, [], [Fld.GLD_BOOT_CMD_HI_BASE_HI], [], none, .high, false⟩,
   ⟨"GLD_BOOT_CPL_LO", 0x20, [], [Fld.GLD_BOOT_CPL_LO_BASE_LO, Fld.GLD_BOOT_CPL_LO_LOG2N], [], none, .low, false⟩,
   ⟨"GLD_BOOT_CPL_HI", 0x24, [], [Fld.GLD_BOOT_CPL_HI_BASE_HI], [], none, .high, false⟩,
   ⟨"GLD_BOOT_VEC", 0x28, [], [Fld.GLD_BOOT_VEC_IRQ_EN, Fld.GLD_BOOT_VEC_VECTOR], [], none, .whole, false⟩,
   ⟨"GLD_IRQ_VEC", 0x2c, [], [Fld.GLD_IRQ_VEC_IRQ_EN, Fld.GLD_IRQ_VEC_VECTOR], [], none, .whole, false⟩,
   ⟨"GLD_STATUS", 0x30, [], [Fld.GLD_STATUS_DMA_ERR, Fld.GLD_STATUS_IDX_ERR, Fld.GLD_STATUS_CFG_ERR, Fld.GLD_STATUS_LINK_DOWN, Fld.GLD_STATUS_POLL], [], none, .whole, false⟩,
   ⟨"GLD_CNT_LO", 0x400, [⟨12, 8⟩], [Fld.GLD_CNT_LO_VALUE_LO], [], none, .low, true⟩,
   ⟨"GLD_CNT_HI", 0x404, [⟨12, 8⟩], [Fld.GLD_CNT_HI_VALUE_HI], [], none, .high, false⟩,
   ⟨"GLD_RING", 0x1000, [⟨1024, 4⟩], [Fld.GLD_RING_EN, Fld.GLD_RING_KIND, Fld.GLD_RING_ARMED, Fld.GLD_RING_D], [], none, .whole, false⟩,
   ⟨"VRV_TXQ_CTL", 0x800, [], [Fld.VRV_TXQ_CTL_OVF, Fld.VRV_TXQ_CTL_THRESH, Fld.VRV_TXQ_CTL_COUNT], [], none, .whole, false⟩,
   ⟨"VRV_TXQ_LO", 0x808, [], [Fld.VRV_TXQ_LO_TS_NS], [], none, .low, false⟩,
   ⟨"VRV_TXQ_HI", 0x80c, [], [Fld.VRV_TXQ_HI_ID, Fld.VRV_TXQ_HI_FRAC, Fld.VRV_TXQ_HI_PORT], [], none, .high, false⟩]
def RegMap.block_guildPage : Block := ⟨0x100000000, 8, 0x10000, 0x10000, RegMap.regs_guildPage⟩

/-- Every block of the part. -/
def RegMap.blocks : List Block :=
  [RegMap.block_chip, RegMap.block_pwr, RegMap.block_boot, RegMap.block_irq, RegMap.block_vrv, RegMap.block_hif, RegMap.block_coop, RegMap.block_hbm, RegMap.block_ftm, RegMap.block_tly, RegMap.block_xbr, RegMap.block_mate, RegMap.block_tnk, RegMap.block_stn, RegMap.block_lane, RegMap.block_mac, RegMap.block_prs, RegMap.block_ept, RegMap.block_lpm, RegMap.block_ice, RegMap.block_rul, RegMap.block_ucs, RegMap.block_tsk, RegMap.block_swc, RegMap.block_cel, RegMap.block_egr, RegMap.block_tnkHooks, RegMap.block_station0, RegMap.block_guildPage]

/-- Reset words that no single field value gives: registers whose reset differs from one index to the next
(Tables 14.1 and 14.15: COOP_POOL, COOP_THR; Table 20.4: HBM_SHARE; Table 18.16: HIF_GUILD_BIND of G0). -/
def RegMap.resetWords : List (Nat × Nat) :=
  [(Reg.COOP_POOL 0, 8192 * 65536 + 8192), (Reg.COOP_POOL 1, 2048 * 65536 + 2048),
   (Reg.COOP_POOL 2, 512 * 65536 + 512), (Reg.COOP_POOL 3, 304 * 65536 + 304),
   (Reg.COOP_THR 0, 512 * 65536 + 1024), (Reg.COOP_THR 1, 128 * 65536 + 256),
   (Reg.COOP_THR 2, 32 * 65536 + 64), (Reg.COOP_THR 3, 19 * 65536 + 38),
   (Reg.HBM_SHARE 0, 222), (Reg.HBM_SHARE 1, 18), (Reg.HBM_SHARE 2, 6),
   (Reg.HBM_SHARE 3, 4), (Reg.HBM_SHARE 4, 2), (Reg.HBM_SHARE 5, 4),
   (Reg.HIF_GUILD_BIND 0, 0x80000000)]

/-- The word that fields hold together at reset. -/
def fieldsReset : List Field → Nat
  | [] => 0
  | f :: fs => f.reset % 2 ^ f.w * 2 ^ f.lo + fieldsReset fs

/-- The indices of a register array that the remaining offset names, none where it is no instance. -/
def dimIndex : List Dim → Nat → Option (List Nat)
  | [], o => if o = 0 then some [] else none
  | d :: ds, o =>
    if o / d.stride < d.count then (dimIndex ds (o % d.stride)).map (o / d.stride :: ·) else none

/-- The indices with which a block offset names an instance of a register. -/
def RegDef.index? (r : RegDef) (o : Nat) : Option (List Nat) :=
  if o < r.off then none else dimIndex r.dims (o - r.off)

/-- Sum of index times step, pairwise. -/
def stepSum : List Nat → List Nat → Nat
  | i :: is, k :: ks => i * k + stepSum is ks
  | _, _ => 0

/-- A register found in a block: its definition, its indices (the block instance first where the block has several). -/
structure RegHit where
  reg : RegDef
  idx : List Nat
  /-- Address of the block instance. -/
  inst : Nat
  deriving DecidableEq, Repr

def findReg (o inst : Nat) (pre : List Nat) : List RegDef → Option RegHit
  | [] => none
  | r :: rs =>
    match r.index? o with
    | some ix => some ⟨r, pre ++ ix, inst⟩
    | none => findReg o inst pre rs

/-- The register of a block at an address. -/
def Block.find? (b : Block) (a : Nat) : Option RegHit :=
  if a < b.base then none
  else
    let k := (a - b.base) / b.stride
    let k := if b.count = 1 then 0 else k
    if b.count ≤ k then none
    else
      let inst := b.base + k * b.stride
      if b.size ≤ a - inst then none
      else findReg (a - inst) inst (if b.count = 1 then [] else [k]) b.regs

def findBlock (a : Nat) : List Block → Option RegHit
  | [] => none
  | b :: bs =>
    match b.find? a with
    | some h => some h
    | none => findBlock a bs

/-- The register at an address; none at a reserved address (R428). -/
def regAt (a : Nat) : Option RegHit := findBlock a RegMap.blocks

def lookupWord (a : Nat) : List (Nat × Nat) → Option Nat
  | [] => none
  | (k, v) :: r => if k = a then some v else lookupWord a r

/-- What a register holds after the reset that clears it (R13); 0 at a reserved address (R428). -/
def regReset (a : Nat) : Word :=
  match lookupWord a RegMap.resetWords with
  | some v => BitVec.ofNat 32 v
  | none =>
    match regAt a with
    | some h => BitVec.ofNat 32 (fieldsReset h.reg.fields + stepSum h.idx h.reg.step)
    | none => 0#32

end Sys2Proof.Machine
end

