-- ==== Sys2Proof/Machine/State.lean ====
section
/-! DEFINITION. What the part holds, as plain data: the register file, the read and write latches of R10 and R11, and
one structure for each block's queues, tables, buffers and engines; what it has sent out; the commands that wait. -/
namespace Sys2Proof.Machine

/-- Why a step stops. No rule of the spec stops the part: every command of the table answers a next state, so no
meaning raises a fault. `unreachable` stands so that the type has a value; nothing raises it. Safe. -/
inductive Fault where
  | unreachable
  deriving DecidableEq, Repr

/-- Why a command is refused. `notModelled` is answered by an arm of `exec` whose command has no meaning yet.
Safe: a refused command proves nothing. -/
inductive Refusal where
  | notModelled (mnemonic : String)
  deriving DecidableEq, Repr

/-! ### Keys and requesters -/

/-- The part's latches belong to a requester and a register (R10, R11). -/
structure LatchKey where
  req : Requester
  addr : Nat
  deriving DecidableEq, Repr

/-! ### Supply loop (ch. 2) -/

/-- The AVS loop's counters (R38): the running sum and number of RAW readings of each station in this period, the
consecutive fast periods, and when the last request was sent. -/
structure Power where
  /-- Station → (sum of RAW readings, number of readings) that count in this period. -/
  sums : List (Nat × Nat × Nat) := []
  quiet : Nat := 0
  /-- Timebase instant of the last Voltage Write, ns; the first is sent at reset release (R42). -/
  lastReq : Option Nat := some 0
  /-- Consecutive invalid samples of each sensor (R49). -/
  misses : List (Nat × Nat) := []
  /-- A bus fault has suspended the loop, until the next period boundary after BUSERR is cleared (R41). -/
  suspended : Bool := false
  /-- SMB_ALERT_N is driven low (R449). -/
  smbLow : Bool := false
  deriving DecidableEq, Repr

/-- The search slots of a stage (R46): its place in the run of 256, and the F in force through that run. -/
structure SlotRun where
  pos : Nat := 0
  f : Nat := 256
  deriving DecidableEq, Repr

/-! ### Lanes and ports (ch. 3) -/

/-- What a port sampled at its last enable (R60), and what else its link state machine holds (R61 to R69). -/
structure Link where
  /-- LANE_CFG as sampled. -/
  cfg : Word := 0#32
  /-- LANE_AN_ADV as sampled. -/
  adv : Word := 0#32
  /-- LANE_TXEQ.OVERRIDE as sampled. -/
  txOverride : Bool := false
  /-- Number of lanes of the port as it was enabled. -/
  width : Nat := 1
  /-- A received Clause 81 remote fault holds transmission (R65). -/
  remoteFault : Bool := false
  /-- EN went to 0 and the last frame is still being transmitted (R61). -/
  stopping : Bool := false
  /-- The 100 ms hold-off after a training timeout runs (Table 03.4). -/
  holdoff : Bool := false
  /-- The port reached UP through auto-negotiation (R87). -/
  viaAn : Bool := false
  /-- LANE_TXEQ of this lane as written, while training has put other coefficients in use (R63). -/
  txeq : Option Word := none
  deriving DecidableEq, Repr

/-! ### Frames (ch. 1, 4, 13) -/

/-- What a frame carries from its completion at the MAC, or from its INJ descriptor, to the wire: its bytes from the
first byte of the destination address to the last byte before the FCS (R7: the length counts 4 B more), and what the
stages have attached to it. -/
structure Frame where
  bytes : List Byte
  /-- Global ingress port; 255 for an injected frame (Table 13.5). -/
  inPort : Nat := 255
  /-- Ingress class (R84). -/
  cls : Nat := 0
  /-- Steering action HOST selected (Table 04.3). -/
  toHost : Bool := false
  /-- Guild of the ingress port or of the injecting ring. -/
  guild : Nat := 0
  /-- Forwarding domain, none without a valid map entry (R115). -/
  fid : Option Nat := none
  /-- The learn flag of R120. -/
  learn : Bool := false
  /-- The ingress station was in Thaw service at the first-pass token (R120, R420). -/
  thaw : Bool := false
  /-- Receive timestamp (R316), as Table 13.5 carries it. -/
  rxTs : Nat := 0
  /-- Ingress cells of the frame, in byte order. -/
  cells : List Nat := []
  /-- Growth-reserve cells of the frame (R256), among `cells`. -/
  growth : Nat := 0
  /-- Cells charged to SHARED, to headroom, to the express reserve, and as injected (R258, R261). -/
  chShared : Nat := 0
  chHead : Nat := 0
  chExp : Nat := 0
  chInj : Nat := 0
  /-- An injected frame that asked for a transmit timestamp: its Guild and identifier (R319). -/
  txTs : Option (Nat × Nat) := none
  /-- Host-injected (Table 13.5), with the descriptor's KEY_DEPTH, ZONE and PVID (Table 18.11). -/
  inj : Bool := false
  keyDepth : Bool := false
  zone : Nat := 0
  pvid : Nat := 0
  /-- An uncorrectable error lies in its cells (Table 22.4, MEM 1 and 16). -/
  poison : Bool := false
  /-- Signature of its flow key; 0 if it has none (Table 18.10). -/
  sig : Nat := 0
  deriving DecidableEq, Repr

/-! ### What is sent out -/

/-- What the part has sent out: the model's record of every effect that only the outside sees, newest first (DESIGN
CHOICE, log 6). -/
inductive Output where
  /-- A DMA write for a Guild, with the PASID that it carries (R333). -/
  | dma (guild : Nat) (pasid : Option Nat) (addr : Nat) (bytes : List Byte)
  /-- A DMA write with a poisoned TLP (Table 22.4). -/
  | dmaPoison (guild : Nat) (pasid : Option Nat) (addr len : Nat)
  | msix (link vector : Nat)
  /-- A frame, or its last fragment, has left a port: its bytes, and whether its FCS matches them. -/
  | frame (port : Nat) (bytes : List Byte) (fcsGood : Bool)
  /-- An mPacket of a preemptable frame has left a port (R91): a start (SMD-S) or a continuation (SMD-C), and whether its
  mCRC, or the FCS in the last one, matches the bytes. -/
  | mpacket (port : Nat) (m : MPacket) (good : Bool)
  /-- A verify or respond mPacket. -/
  | verify (port : Nat)
  | respond (port : Nat)
  /-- A Clause 73 base page, in the layout of LANE_AN_ADV, and a null message page (R66). -/
  | anPage (port : Nat) (page : Word)
  | anNullPage (port : Nat)
  /-- A lane's generator begins a pattern of Table 03.7 in place of data, or ends it (R73). -/
  | prbs (lane : Nat) (pattern : Option Nat)
  /-- An AVSBus Voltage Write of a code (R38, R42). -/
  | avsWrite (code : Nat)
  /-- An AVSBus Status Read (R41). -/
  | avsRead
  /-- A pin's new level. -/
  | pin (name : String) (high : Bool)
  /-- The value that a read returned to its requester. -/
  | read (req : Requester) (addr : Nat) (value : Word)
  /-- A read completed with a poisoned TLP (Table 22.4). -/
  | readPoison (req : Requester) (addr : Nat)
  /-- The reply of the I2C port; none where it does not acknowledge. -/
  | smbus (reply : Option (List Byte))
  | tdo (bit : Bool)
  /-- The levels with which the boundary-scan cells drive the pins; none: the part drives them again (R450). -/
  | scan (cells : Option (List Bool))
  /-- A read of the serial flash: command, 24-bit address, bytes (R415). -/
  | flashRead (command addr len : Nat)
  /-- The data a port of the memory controller receives. -/
  | hbmData (port addr : Nat) (data : List Byte) (poisoned : Bool)
  deriving DecidableEq, Repr

/-! ### MAC (ch. 4) -/

/-- The cells of a frame that is still arriving, in byte order, and how many of them are charged to SHARED and to the
receive reserve of its port (R258). -/
structure Arrival where
  cells : List Nat := []
  shared : Nat := 0
  reserve : Nat := 0
  deriving DecidableEq, Repr

/-- A preemptable frame in reassembly (R95): its frame count, the fragment count that comes next, its bytes and cells so
far, MAX_LEN as it stood at its first byte (R79), and its timestamp point, that of its first fragment (R316). -/
structure Reasm where
  frameCount : Nat
  nextFrag : Nat
  bytes : List Byte
  arrival : Arrival := {}
  limit : Nat := 0
  point : Nat := 0
  deriving DecidableEq, Repr

/-- A frame queued at, or in transmission from, an output port (R290): the frame, its class, the blocks charged, when
it landed, and the stored multicast copy it shares, if any (R289). -/
structure EFrame where
  frame : Frame
  tc : Nat
  blocks : Nat
  /-- Timebase instant of landing. -/
  landed : Nat
  /-- Blocks charged to the port minimum, to SHARED and to the express reserve; 0 for a multicast copy. -/
  chMin : Nat := 0
  chShared : Nat := 0
  chExp : Nat := 0
  copy : Option Nat := none
  /-- The injector that has already acted on it on transmit (R393). -/
  injected : Bool := false
  /-- Cells crossed with an uncorrectable error: discarded as its last cell lands (Table 22.4). -/
  poison : Bool := false
  /-- First word of each of its blocks in the egress memory (MEM 3 of Table 22.3), free values. -/
  words : List Nat := []
  deriving DecidableEq, Repr

/-- A frame in transmission at a MAC (R290, R295): its close for GATE_OVERRUN (R300), when its first fragment began. -/
structure TxFrame where
  ef : EFrame
  /-- Varve time at its start, in 1/256 ns (R316). -/
  began : Nat
  /-- Timebase instant of its start, ns. -/
  beganAt : Nat := 0
  /-- The bytes as sent. -/
  sent : List Byte
  close : Option Nat := none
  fragments : Nat := 1
  /-- Bytes sent in fragments before the present one. -/
  done : Nat := 0
  /-- Preempted: its next fragment waits for the express MAC (R295). -/
  held : Bool := false
  /-- Corrupted by an injector: the FCS sent is bad (R393). -/
  badFcs : Bool := false
  /-- Frame count of its mPackets, at the preemptable MAC (R91). -/
  frameCount : Nat := 0
  deriving DecidableEq, Repr

/-- A pause or PFC frame that waits for the express MAC (R90): what follows its type field, and for a PFC frame the
classes that it pauses. -/
structure CtlFrame where
  body : List Byte
  pfc : Option Nat := none
  deriving DecidableEq, Repr

/-- What a MAC holds beside its registers (R88 to R95). -/
structure Mac where
  /-- Class → remaining pause time, quanta (R88). -/
  pause : List (Nat × Nat) := []
  reasm : Option Reasm := none
  /-- EN of the merge sublayer as in effect (R93). -/
  mergeEn : Bool := false
  /-- A 0-to-1 write of EN waits for a frame partly sent: it brings a verification (R92, R93). -/
  mergeRise : Bool := false
  /-- Verify mPackets sent in this verification (R92). -/
  verifyTries : Nat := 0
  /-- Frame in transmission at the express MAC, and at the preemptable MAC (R295). -/
  txExpress : Option TxFrame := none
  txPreempt : Option TxFrame := none
  /-- Frame count of the next preemptable frame, modulo 4 (R91). -/
  txCount : Nat := 0
  /-- Pause and PFC frames that wait, oldest first (R90). -/
  ctl : List CtlFrame := []
  /-- Timebase instant until which the control frame last sent is on the wire, if no frame has begun since (R90). -/
  ctlUntil : Nat := 0
  /-- MAX_LEN as treated before each change of it, with the timebase instant of the change, oldest first (R79). -/
  limits : List (Nat × Nat) := []
  /-- What a port in near-end loopback has sent to its own receiver and has not received yet, oldest first (R74). -/
  loop : List Output := []
  deriving DecidableEq, Repr

/-! ### Egress (ch. 15) -/

/-- The gate engine of a port: the list in force and its staged successor (R296 to R301). -/
structure Gates where
  /-- LEN, CYCLE and BASE of the list in force; none until the first switch. -/
  len : Nat := 1
  cycle : Nat := 1000000
  base : Nat := 0
  /-- Change instant of a pending switch, Varve ns (R301). -/
  changeAt : Option Nat := none
  /-- LEN, CYCLE and BASE that the pending switch brings into force. -/
  nextLen : Nat := 1
  nextCycle : Nat := 1000000
  nextBase : Nat := 0
  deriving DecidableEq, Repr

/-- The egress side of a port: class queues, WFQ tags (R293), gate engine. -/
structure EgrPort where
  /-- Class → frames, oldest first. -/
  queues : List (Nat × List EFrame) := []
  v : Nat := 0
  lastF : List (Nat × Nat) := []
  headF : List (Nat × Nat) := []
  gates : Gates := {}
  deriving DecidableEq, Repr

/-- A multicast copy stored once in SHARED (R289): blocks, and how many admitting ports have still to send it. -/
structure EgrCopy where
  sharedCh : Nat
  expCh : Nat
  left : Nat
  deriving DecidableEq, Repr

/-- Block charges of a station's egress buffer (Table 15.1). -/
structure Egress where
  expUsed : Nat := 0
  sharedUsed : Nat := 0
  /-- Local port → blocks charged to its minimum, and all its blocks U(i). -/
  minUsed : List (Nat × Nat) := []
  portUsed : List (Nat × Nat) := []
  /-- Stored multicast copies by number; the next number. -/
  copies : List (Nat × EgrCopy) := []
  nextCopy : Nat := 0
  /-- 1,168 × input port + VOQ, or + 1,160 + class of a multicast queue: a request of this input stands refused
  (R266, R287). -/
  refusing : List Nat := []
  deriving DecidableEq, Repr

/-! ### Switch core (ch. 13) -/

/-- Kind of a crossing (Table 13.5). -/
inductive XKind where
  | unicast | mcCopy | inject
  deriving DecidableEq, Repr

/-- A frame with its crossbar header (Table 13.5). -/
structure XFrame where
  frame : Frame
  kind : XKind := .unicast
  dest : Nat := 0
  mgrp : Nat := 0
  tc : Nat := 0
  guild : Nat := 0
  hairpin : Bool := false
  reason : Nat := 0
  part : Bool := false
  refused : Nat := 0
  /-- The flood set of a Thaw frame (R420). -/
  flood : Option Nat := none
  deriving DecidableEq, Repr

/-- A crossing context: the frame it carries, cells still to send, blocks reserved at the output (R265, R287). -/
structure Context where
  xf : XFrame
  cellsLeft : Nat
  /-- Blocks reserved at the output: to the port minimum, to SHARED, to the express reserve; `noRoom` under R288. -/
  minCh : Nat := 0
  sharedCh : Nat := 0
  expCh : Nat := 0
  noRoom : Bool := false
  /-- Granted without the checks of R287: the port was down (R291). -/
  down : Bool := false
  began : Bool := false
  beganSeq : Nat := 0
  /-- A multicast copy whose frame a drain has dropped (R283): it crosses and lands, and reports to no queue. -/
  lone : Bool := false
  /-- It has landed at crossbar port 12 and passed its bucket (R114, R279). -/
  passed : Bool := false
  deriving DecidableEq, Repr

/-- The multicast frame at the head of a queue (R270): stations not yet granted, granted and awaiting their count, the
refused total and what R271 reports. -/
structure McHead where
  toGrant : List Nat
  waiting : List Nat
  hostMember : Bool
  /-- Bit p: port p is a member, the ingress port pruned (R269), as read when the frame became head. -/
  ports : Nat := 0
  /-- HAIRPIN of the group then. -/
  hairpin : Bool := false
  /-- HOL_TIMEOUT has passed (R271). -/
  late : Bool := false
  refused : Nat := 0
  timedOut : Nat := 0
  outMap : Nat := 0
  hostPending : Bool := false
  deriving DecidableEq, Repr

/-- A multicast group entry (R269). -/
structure McGroup where
  guild : Nat
  hairpin : Bool
  /-- Bit p: destination p is a member. -/
  ports : Nat
  deriving DecidableEq, Repr

/-- A station's ingress side: cells, charges, VOQs and multicast queues. -/
structure SwitchCore where
  /-- Cells that are not free (the bitmap of R275, by exception: reset holds every cell free), ascending. -/
  taken : List Nat := []
  /-- Cells freed while a frame still chains them (R276). -/
  sharedUsed : Nat := 0
  expUsed : Nat := 0
  injUsed : Nat := 0
  growthUsed : Nat := 0
  /-- Local port → headroom cells charged. -/
  headUsed : List (Nat × Nat) := []
  /-- Local port → cells of its receive reserve charged to frames that are still arriving (R258). -/
  rsvUsed : List (Nat × Nat) := []
  /-- 8 × local port + class → SHARED cells charged, U(i, c) of R260. -/
  u : List (Nat × Nat) := []
  /-- VOQ → frames, oldest first. -/
  voqs : List (Nat × List XFrame) := []
  /-- Class → multicast frames, oldest first; class → the head's state. -/
  mcqs : List (Nat × List XFrame) := []
  mcHeads : List (Nat × McHead) := []
  /-- 8 × output crossbar port + class → crossing context. -/
  contexts : List (Nat × Context) := []
  /-- 8 × output crossbar port + class → last VOQ (or 1,160 + class) served, for the round robin of R265. -/
  rr : List (Nat × Nat) := []
  deriving DecidableEq, Repr

/-- Arbitration state of a crossbar output (R265): deficits, the class the round robin stands on, last input served
of each class. -/
structure XbrOut where
  cls : Nat := 6
  deficit : List (Nat × Nat) := []
  lastIn : List (Nat × Nat) := []
  deriving DecidableEq, Repr

/-! ### Moraine and Cooperage (ch. 14) -/

/-- A sweep of the cells of a station (R280) or of the Cooperage (R281). -/
structure Sweep where
  running : Bool := false
  /-- Cells or blocks taken or freed since the sweep began. -/
  touched : List Nat := []
  /-- Leaks found, untouched, in the previous sweep. -/
  leaked : List Nat := []
  /-- A host command that waits for this sweep to end (R285). -/
  waiters : List (Nat × Nat) := []
  /-- RECLAIM as it stood when the sweep began (R432). -/
  reclaim : Bool := false
  deriving DecidableEq, Repr

/-- A free stack (R278, R279): the blocks pushed since it was built, top first, above the blocks it was built with,
of which those in `gone` (ascending) have been popped. -/
structure Stack where
  pushed : List Nat := []
  gone : List Nat := []
  deriving DecidableEq, Repr

/-- The Cooperage (R278, R279): the five free stacks (4 is the housekeeping pool), and the holder table of the
housekeeping pool (block → engine). A block is numbered within its pool. -/
structure Coop where
  freeStacks : List (Nat × Stack) := []
  hkHolders : List (Nat × Nat) := []
  /-- 1,168 × input port + VOQ, or + 1,160 + class: a request for destination 144 stands refused (Table 14.2). -/
  refusing : List Nat := []
  sweep : Sweep := {}
  deriving DecidableEq, Repr

/-! ### Parser, endpoint and route tables (ch. 5, 6) -/

/-- An endpoint key (R115): Guild, FID, MAC address. -/
structure EptKey where
  guild : Nat
  fid : Nat
  mac : Nat
  deriving DecidableEq, Repr

/-- An endpoint entry (Table 06.1) less its key. -/
structure EptEntry where
  static : Bool := false
  frozen : Bool := false
  aged : Bool := false
  egress : Bool := false
  dest : Nat := 0
  mvCnt : Nat := 0
  mvTs : Nat := 0
  ts : Nat := 0
  deriving DecidableEq, Repr

/-- A request of a learn queue (R121): a source observation, or an endpoint command with its Guild and ring. -/
inductive LearnReq where
  | learn (key : EptKey) (dest : Nat) (egress : Bool)
  | cmd (guild ring : Nat)
  deriving DecidableEq, Repr

/-- A station's endpoint table: entry location (way × 32,768 + index) → key and entry; the learn queue; the entry the
sweep visits next. -/
structure Ept where
  table : List (Nat × EptKey × EptEntry) := []
  queue : List LearnReq := []
  /-- Place of the queue's head among its 512 words (MEM 6 of Table 22.3). -/
  head : Nat := 0
  /-- Endpoint commands that wait for room in the queue (R121). -/
  blocked : List (Nat × Nat) := []
  sweepAt : Nat := 0
  deriving DecidableEq, Repr

/-- A route key (R131): Guild, VRF, family, length, the top bits of the prefix as a number of that length. -/
structure RouteKey where
  guild : Nat
  vrf : Nat
  ipv6 : Bool
  len : Nat
  pfx : Nat
  deriving DecidableEq, Repr

/-- The result of a route lookup (R132). -/
structure RouteResult where
  hit : Bool := false
  word : Nat := 0
  rounds : Nat := 0
  deriving DecidableEq, Repr

/-- The result of the endpoint lookups (R118). -/
structure EptResult where
  daHit : Bool := false
  dest : Nat := 0
  static : Bool := false
  noFid : Bool := false
  floodGrp : Nat := 0
  deriving DecidableEq, Repr

/-! ### Flow table and Icehouse (ch. 7, 8) -/

/-- A half of a record (Table 07.1). -/
inductive Half where
  | a | b
  deriving DecidableEq, Repr

/-- What a station or the device sends the FTM (R147 to R149, R177). -/
inductive FtmMsg where
  | fill (sig d : Nat) (key : List Byte)
  /-- The place in this order of the CREATE of a key that stands in the station's creation queue (R150, R166). -/
  | create (sig d : Nat)
  | release (index : Nat) (half : Half)
  | refused (index : Nat) (half : Half)
  deriving DecidableEq, Repr

/-- A CREATE in a station's creation queue (R149, R150). -/
structure CreateReq where
  sig : Nat
  d : Nat
  key : List Byte
  rule : Nat
  bank : Nat
  /-- Its word among the queue's 64 (MEM 15 of Table 22.3). -/
  word : Nat
  deriving DecidableEq, Repr

/-- What the FTM sends a station, in the order it sends it (R166): the half that a FILL or a CREATE gets, and whether
that CREATE made the record; a no-room outcome with its action, and the key block of a pin conflict (R208); a recall; an
idle recall of the sweep; a SYNC (R179). -/
inductive StnMsg where
  | fill (sig d : Nat) (index : Nat) (half : Half) (new : Bool)
  | noRoom (sig d : Nat) (action : Nat) (kb : List Byte)
  | recall (index : Nat) (half : Half)
  | idleRecall (index : Nat) (half : Half)
  | sync (index : Nat) (half : Half) (g ring : Nat)
  deriving DecidableEq, Repr

/-- For whom the FTM recalls a half: a station's FILL or CREATE, a sweep visit, or a host command (its Guild and
ring). -/
inductive RecallFor where
  | fill (station sig d : Nat) (key : List Byte)
  | sweep
  | cmd (g ring : Nat)
  deriving DecidableEq, Repr

/-- A request that holds its pair of buckets while recalls are out (R146). -/
structure FtmOp where
  /-- Home and away bucket. -/
  pair : Nat × Nat
  index : Nat
  purpose : RecallFor
  /-- Halves whose recall has not been answered. -/
  waiting : List Half
  /-- A recall was refused: the half is pinned (R177). -/
  pinned : Bool := false
  /-- The timeout that a sweep visit has chosen, ticks (R155). -/
  limit : Nat := 0
  deriving DecidableEq, Repr

/-- The FTM beside its registers and the directory in HBM. -/
structure Ftm where
  /-- Station → its requests, oldest first. -/
  inbox : List (Nat × List FtmMsg) := []
  /-- Station → messages on their way to it, oldest first. -/
  outbox : List (Nat × List StnMsg) := []
  ops : List FtmOp := []
  /-- Home buckets whose spill bit is set (R145), ascending. -/
  spill : List Nat := []
  /-- Home buckets with a tag found in, or written into, their away bucket in this sweep pass. -/
  awaySeen : List Nat := []
  /-- Record indices in use or in quarantine, ascending. -/
  usedIdx : List Nat := []
  /-- Indices in quarantine (R154), oldest first. -/
  quarantine : List Nat := []
  /-- Bucket the sweep visits next. -/
  sweepAt : Nat := 0
  /-- Guild → no-room outcomes since its last FLOW_NOROOM event; Guild → timebase instant of that event (R152). -/
  noroomCnt : List (Nat × Nat) := []
  /-- Record index → the station that created the record, 15 for FLOW_ADD (Table 07.13). -/
  creator : List (Nat × Nat) := []
  noroomAt : List (Nat × Nat) := []
  deriving DecidableEq, Repr

/-- Slot states (Table 08.1). A FREE slot is not listed. -/
inductive SlotState where
  | filling | idle | held | draining | recalling
  deriving DecidableEq, Repr

/-- An Icehouse slot (R160). Tasks are named by their task slot. -/
structure Slot where
  st : SlotState
  sig : Nat := 0
  d : Nat := 0
  /-- Key block and half, 64 B each. -/
  key : List Byte := []
  half : List Byte := []
  index : Nat := 0
  which : Half := .a
  dirty : Bool := false
  pinned : Bool := false
  ref : Bool := false
  holder : Option Nat := none
  chain : List Nat := []
  /-- The contents of write-backs issued and not yet accepted, oldest first. -/
  wb : List (List Byte) := []
  /-- A SYNC waits for the current hold to end (R179); the FLOW_READ that waits for the write-back. -/
  sync : Bool := false
  syncFor : Option (Nat × Nat) := none
  /-- A flush command that counts this drain: Guild and ring. -/
  flushFor : Option (Nat × Nat) := none
  /-- A sweep visit waits to learn whether this drain releases the half (R155). -/
  sweepFor : Bool := false
  deriving DecidableEq, Repr

/-- Lease-wait entry states (Table 08.3). -/
inductive WaitState where
  | slot | fill | release
  deriving DecidableEq, Repr

/-- What a WAIT_FILL entry waits for: the FTM's answer to FILL, its rule search, room in the creation queue, or the
FTM's answer to CREATE (R150, R185); or its end without a record (`ended`). -/
inductive FillPhase where
  | sent | rule | createHeld | created | ended
  deriving DecidableEq, Repr

/-- A lease-wait entry (R170). -/
structure LeaseEntry where
  sig : Nat
  d : Nat
  key : List Byte
  st : WaitState
  phase : FillPhase := .sent
  /-- The FILLING slot of the entry. -/
  slot : Option Nat := none
  /-- Waiting tasks, first first. -/
  tasks : List Nat := []
  /-- The rule result of the creation search, and the bank that it searched. -/
  rule : Option Nat := none
  ruleBank : Nat := 0
  guild : Nat := 0
  /-- The ICE_PIN that waits for the fill: its Guild and ring (R180). -/
  pinFor : Option (Nat × Nat) := none
  deriving DecidableEq, Repr

/-- A station's Icehouse. -/
structure Ice where
  slots : List (Nat × Slot) := []
  /-- Lease-wait entries by number, 0 to 255. -/
  entries : List (Nat × LeaseEntry) := []
  /-- Clock hand of the drainer (R174). -/
  hand : Nat := 0
  /-- CREATE requests that wait for the FTM (R150), oldest first. -/
  createQ : List CreateReq := []
  /-- Posted adds not yet accepted: 2 × index + half → number (R148). -/
  addsPending : List (Nat × Nat) := []
  /-- The slots of the search stage (R46). -/
  stage : SlotRun := {}
  deriving DecidableEq, Repr

/-! ### Rule engine, action engines and tasks (ch. 9, 10, 12) -/

/-- A rule entry (R187): VALUE and MASK as the 640-bit numbers of Table 09.1, PRIO, result, VALID, the Guild that wrote
it. An entry that nothing has written is not listed. -/
structure RuleEntry where
  valid : Bool
  value : Nat
  mask : Nat
  prio : Nat
  result : Nat
  guild : Nat
  deriving DecidableEq, Repr

/-- A queued rule search (R189): for a lease-wait entry, for a task (policy or recirculation), or for RUL_SEARCH. -/
inductive SearchReq where
  | creation (entry : Nat) (express : Bool)
  | policy (task : Nat)
  | recirc (task : Nat)
  | test (guild ring : Nat)
  /-- The search of a task that has been dropped since: it is made, and its result discarded (R249). -/
  | gone (bank guild key kind : Nat)
  deriving DecidableEq, Repr

/-- The old bank of a Guild after a commit (R193): its bank, whether SYNC copies it, whether the copy runs. -/
structure RuleDrain where
  bank : Nat
  sync : Bool
  copying : Bool := false
  deriving DecidableEq, Repr

/-- A station's rule engine. -/
structure Rules where
  /-- bank × 4,096 + index → entry. -/
  entries : List (Nat × RuleEntry) := []
  /-- bank × 8 + Guild → default result (reset 0). -/
  defaults : List (Nat × Nat) := []
  /-- Guild → the bank it drains or copies. -/
  drains : List (Nat × RuleDrain) := []
  queue : List SearchReq := []
  /-- RUL_SEARCH commands that wait for one of the 64 entries. -/
  testWait : List SearchReq := []
  /-- The slots of the search stage (R46). -/
  stage : SlotRun := {}
  deriving DecidableEq, Repr

/-- Task-slot states (Table 12.1). A FREE slot is not listed. -/
inductive TaskState where
  | parsing | waiting | ready | running | done
  deriving DecidableEq, Repr

/-- Where a pass stands with its Icehouse search (R161 to R173): none to make, to be searched, stepping through further
matches, refused and waiting to retry, attached to a lease-wait entry, chained on or holding a slot, or done. -/
inductive IceWait where
  | none
  | search
  | steps (slots : List Nat)
  | refused
  | entry (e : Nat)
  | chained (slot : Nat)
  | holding (slot : Nat)
  deriving DecidableEq, Repr

/-- Where a recirculation or policy search stands (R185, R189). -/
inductive RuleWait where
  | none | withheld | refused | queued
  deriving DecidableEq, Repr

/-- What a finished pass does with its frame (Table 10.10 and the outcomes of R113, R152). -/
structure Decision where
  /-- 0 DROP, 1 UNICAST, 2 MULTICAST, 3 PUNT. -/
  action : Nat := 0
  dest : Nat := 0
  tc : Nat := 0
  mgrp : Nat := 0
  reason : Nat := 0
  /-- The flood set of a Thaw frame (R420): bit p for port p; then `mgrp` names no group. -/
  flood : Option Nat := none
  deriving DecidableEq, Repr

/-- A task: one frame in a task slot, from its first-pass token to its release (R241). -/
structure Task where
  st : TaskState
  frame : Frame
  /-- Dependence count (R243). -/
  cnt : Nat := 0
  /-- Timebase instant of the first-pass token (R249). -/
  born : Nat := 0
  /-- PASS: 0 on the first pass. -/
  pass : Nat := 0
  /-- Epoch tag: the bank of the frame's Guild at its first-pass token (R192), and that Guild. -/
  tag : Nat := 0
  tagGuild : Nat := 0
  plane : Nat := 0
  /-- Header vector: HDR_ID and offset of each header, in order, and where parsing ended (R105). -/
  hv : List (Nat × Nat) := []
  parseEnd : Nat := 0
  /-- Flow key, signature and direction (R108, R109); none without a valid signature. -/
  key : Option (List Byte) := none
  sig : Nat := 0
  d : Nat := 0
  /-- Rule search key fields that the parse supplies (Table 09.1), as bits of the 640-bit key. -/
  ruleKey : Nat := 0
  /-- Offset and length of each piece of the first L3 header of the header vector, as a routine's edits have moved and cut
  it; none once a byte of it has been removed (R263). The other: destination address and family of the L3 header that
  supplies the key's addresses (R131). -/
  l3 : List (Nat × Nat) := []
  l3dst : Option (Bool × Nat) := none
  /-- Outstanding lookups. -/
  eptWait : Bool := false
  routeWait : Bool := false
  ice : IceWait := .none
  ruleWait : RuleWait := .none
  /-- Results. -/
  ept : EptResult := {}
  route : RouteResult := {}
  /-- Rule result of this pass, if it searched or takes one under R213 case 2. -/
  rule : Option Nat := none
  searched : Bool := false
  newFlow : Bool := false
  /-- Key block returned without a lease (R208). -/
  conflictKey : List Byte := []
  /-- The no-room action that the pass takes (Table 07.8). -/
  noRoom : Option Nat := none
  /-- Engine that ran its last routine (R247). -/
  ranOn : Option Nat := none
  index : Nat := 0
  metaWord : Nat := 0
  /-- SEARCH of the routine that recirculated the frame. -/
  wantSearch : Bool := false
  /-- Requeued by a stop request: goes before its list (R248). -/
  restarted : Bool := false
  dec : Decision := {}
  /-- Leases taken by the frame's passes (R51). -/
  leases : Nat := 0
  /-- Counted as refused already (R251); by the lease-wait list (R172). -/
  refusedOnce : Bool := false
  waitRefused : Bool := false
  /-- Timebase instant at which it began to wait in a lease-wait entry (event 7 of Table 21.5). -/
  waitSince : Nat := 0
  /-- Its age reached RES_LIMIT while it was in PARSING or RUNNING (R249). -/
  aged : Bool := false
  deriving DecidableEq, Repr

/-- An edit of the frame that a routine staged (R210): a store, an insert or a delete at an offset. -/
inductive Edit where
  | store (off : Nat) (bytes : List Byte)
  | ins (off n : Nat)
  | del (off n : Nat)
  deriving DecidableEq, Repr

/-- Flags of an ALU (R203). -/
structure Flags where
  z : Bool := false
  n : Bool := false
  c : Bool := false
  deriving DecidableEq, Repr

/-- An engine while it runs a routine: an action engine, or a housekeeping engine (ch. 11). -/
structure Run where
  task : Nat
  pc : Nat
  /-- v0 to v31. -/
  regs : List (BitVec 64)
  fa : Flags := {}
  fb : Flags := {}
  hvMiss : Bool := false
  /-- Words executed in this run; in all runs of this dispatch; run number (R215). -/
  words : Nat := 0
  total : Nat := 0
  run : Nat := 0
  committed : Bool := false
  /-- Half with the staged stores applied; key block window; both empty without a window. -/
  half : List Byte := []
  keyw : List Byte := []
  stored : Bool := false
  /-- Staged adds: EXT word and addend (R209); adds staged in this run. -/
  adds : List (Nat × Nat) := []
  nAdds : Nat := 0
  /-- The header window as edited, its length (R210), and the length of that part of the frame that it replaces. -/
  frame : List Byte := []
  window : Nat := 0
  base : Nat := 0
  nEdits : Nat := 0
  net : Int := 0
  /-- The pieces of the first L3 header of the header vector in the frame as edited (R263). -/
  l3 : List (Nat × Nat) := []
  emits : List (List Byte) := []
  nEmits : Nat := 0
  traps : List (Nat × Nat) := []
  nTraps : Nat := 0
  /-- XWORDS at the dispatch on a reserved engine (R245). -/
  xwords : Option Nat := none
  /-- MAX_WORDS as it stood when the routine began, none in service mode (R432). -/
  maxWords : Option Nat := none
  /-- MAX_RESTART as it stood when the routine began (R432). -/
  maxRestart : Nat := 0
  restarted : Bool := false
  /-- A COMMIT word waits for room in the posted-add queue (R209). -/
  waiting : Bool := false
  /-- Return addresses of the micro-stack, top first (R238). -/
  stack : List Nat := []
  deriving DecidableEq, Repr

/-- A trap record (R218): engine, word address, IMM. -/
structure TrapRec where
  engine : Nat
  addr : Nat
  code : Nat
  deriving DecidableEq, Repr

/-- A station's task scheduler and action engines. -/
structure Tasks where
  /-- Task slot → task. -/
  slots : List (Nat × Task) := []
  /-- Ordered-release queues, oldest first (R252). -/
  orqs : List (Nat × List Nat) := []
  /-- Ready lists: 0 to 3 the weighted groups, 4 the express list (R244). -/
  ready : List (Nat × List Nat) := []
  /-- Deficits of the groups, and the group the round robin serves. -/
  deficit : List (Nat × Nat) := []
  rrGroup : Nat := 0
  /-- Frames whole at the MAC that wait for a token: express lane, other lane (R251), oldest first. -/
  laneX : List Frame := []
  laneN : List Frame := []
  /-- Before full service, and until they have taken tokens: the lane (1 express, 2 other) of each frame that waits, in
  the order they became whole (R423, step 5). -/
  whole : List Nat := []
  /-- Recirculated passes that wait for a token, oldest first. -/
  laneR : List Nat := []
  /-- Lanes whose next pass was refused a task slot (R242): 1 express, 2 other. -/
  stalled : List Nat := []
  /-- The head of the lane has been counted as stalled (R251). -/
  stallCounted : List Nat := []
  /-- Engine → what it runs. -/
  engines : List (Nat × Run) := []
  /-- Engine → consecutive hand-offs (R247); engine → task handed to it. -/
  handoffs : List (Nat × Nat) := []
  handTo : List (Nat × Nat) := []
  /-- Trap queue, oldest first (R218). -/
  trapQ : List TrapRec := []
  /-- Posted adds queued: 2 × index + half, HBM address and addend, oldest first (R209). -/
  addQ : List (Nat × Nat × Nat) := []
  /-- Engines that a stop request has reached and that have not answered it (R217, R228). -/
  stop : List Nat := []
  deriving DecidableEq, Repr

/-! ### Control stores and housekeeping engines (ch. 11) -/

/-- A control store and its dispatch table (R221, R222). `disp` lists the entries of Table 11.2 that are not 0, by
opcode. `vendor` and `customer` say that an image has been loaded into the region since reset: a word that it did not
supply holds SEQOP 15 (R223). -/
structure Store where
  words : List (Nat × BitVec 160) := []
  disp : List (Nat × Nat) := []
  vendor : Bool := false
  customer : Bool := false
  deriving DecidableEq, Repr

/-- An entry of Table 11.2: the first word of the routine, none where VALID is 0. -/
def entryAddr (w : Nat) : Option Nat := if w.testBit 31 then some (w % 16384) else none

/-- The dispatch entry of an opcode as UCS_DISPATCH and UCS_HK_DISPATCH show it (Table 11.2). -/
def Store.entryWord (m : Store) (op : Nat) : Nat := ((m.disp.find? fun e => e.1 == op).map Prod.snd).getD 0

/-- The first word of an opcode's routine; none where its entry is invalid. -/
def Store.entry (m : Store) (op : Nat) : Option Nat := entryAddr (m.entryWord op)

/-- The valid entries of a store, by opcode. -/
def Store.bound (m : Store) : List (Nat × Nat) := m.disp.filterMap fun e => (entryAddr e.2).map fun a => (e.1, a)

/-- A housekeeping job (Table 11.7): kind, opcode, argument bytes 16 to 31 of a HOST job. -/
structure Job where
  kind : Nat
  op : Nat
  arg : List Byte := []
  deriving DecidableEq, Repr

/-- A housekeeping engine. UCS_HK_CTL and UCS_HK_STATUS hold the rest. -/
structure HkEngine where
  queue : List Job := []
  run : Option Run := none
  /-- It waits at a SLEEP word (R238). -/
  asleep : Bool := false
  /-- Held by a load of its region (R228). -/
  held : Bool := false
  deriving DecidableEq, Repr

/-- The host command that a load, a drain or another long procedure completes: its Guild and local ring. -/
abbrev CmdRef := Nat × Nat

/-- The load in progress (R228): its target, where its image comes from, its image once the checks have passed, and
the station that switches. -/
structure Load where
  target : Nat
  host : Option CmdRef
  image : List Byte := []
  version : Nat := 0
  checked : Bool := false
  station : Nat := 0
  deriving DecidableEq, Repr

/-- Control-store loading, fuses and OTP. -/
structure Ucs where
  load : Option Load := none
  /-- Length that UCS_LOAD names. -/
  loadLen : Nat := 0
  /-- Customer key hash in OTP, as a big-endian number (R227). No reset clears it. -/
  ckey : Option Nat := none
  /-- Boot images still to load: target, flash offset and length, in order (R231). -/
  boot : List (Nat × Nat × Nat) := []
  deriving DecidableEq, Repr

/-! ### Varve time (ch. 17) -/

/-- An entry of a TX timestamp queue (R319). -/
structure TxqEntry where
  ts : Nat
  frac : Nat
  id : Nat
  port : Nat
  /-- Instant of the timestamp point, 1/256 ns of the timebase: the queue's order (R319). -/
  point : Nat := 0
  deriving DecidableEq, Repr

/-- Varve time and the servo. -/
structure Varve where
  /-- Varve time in units of 2⁻⁴⁴ ns, so that an advance by FADJ is exact (R314). -/
  t : Nat := 0
  /-- Integral term, units of 2⁻¹⁶ ppb (R322). -/
  i : Int := 0
  /-- FADJ as last written by VRV_FREQ (Table 17.2, FREERUN). -/
  freeF : Int := 0
  lockRun : Nat := 0
  /-- Steps that Varve time has made, oldest first: timebase instant, and by how much, 1/256 ns. A frame that was arriving
  takes its timestamp from the time before the step (R316). -/
  steps : List (Nat × Int) := []
  /-- Guild → TX timestamp queue, oldest first (R319). -/
  txq : List (Nat × List TxqEntry) := []
  /-- Levels of PPS_OUT and FREQ_OUT; timebase instant of the last PPS_OUT rise (R325). -/
  pps : Bool := false
  freq : Bool := false
  lastPps : Option Nat := none
  deriving DecidableEq, Repr
/-! ### Hosts, Guilds and rings (ch. 18) -/

/-- A command that its CMD ring runs: the 32 B of its descriptor, its index, the CPL ring its completion goes to, and
what a long procedure has gathered for its result. -/
structure Cmd where
  desc : List Byte
  index : Nat
  cplRing : Nat
  /-- Stations, halves or sweeps still to answer. -/
  left : Nat := 0
  /-- Counters that its result reports. -/
  acc : Nat := 0
  acc2 : Nat := 0
  acc3 : Nat := 0
  /-- The command has started and completes later. -/
  began : Bool := false
  /-- Its Guild has been disabled since it started: its completion is discarded (R349). -/
  orphan : Bool := false
  deriving DecidableEq, Repr

/-- A ring (R335 to R344). -/
structure Ring where
  enabled : Bool := false
  configured : Bool := false
  kind : Nat := 0
  log2n : Nat := 4
  vector : Nat := 0
  irqEn : Bool := false
  base : Nat := 0
  cons : Nat := 0
  /-- Device index, and doorbell index as last polled (modulo 2¹⁷). -/
  d : Nat := 0
  h : Nat := 0
  /-- Doorbell word as last polled. -/
  word : Word := 0#32
  /-- Bit 31 of the doorbell word as last polled, and as recorded at the last message. -/
  armBit : Bool := false
  armRec : Bool := false
  /-- Whether a poll has set the ARM baseline since the ring was enabled. -/
  baseline : Bool := false
  modCount : Nat := 1
  modUsec : Nat := 0
  bufLen : Nat := 2048
  reasonMask : Nat := 0
  /-- Descriptors written since the ring was last armed; timebase instant of the earliest (R344). -/
  fresh : Nat := 0
  first : Option Nat := none
  /-- RING_STOP has been asked for (R342), by the command of this ring, or by a failed DMA. -/
  stopping : Bool := false
  stopFor : Option CmdRef := none
  /-- Command in progress, of a CMD ring. -/
  cmd : Option Cmd := none
  /-- Slots reserved for completions, of a CPL ring (R340). -/
  reserved : Nat := 0
  deriving DecidableEq, Repr

/-- A punted frame (R345): staged in Cooperage block `block` of pool `pool`, and assigned ring `ring`. -/
structure Punt where
  xf : XFrame
  guild : Nat
  pool : Nat
  block : Nat
  ring : Nat
  /-- Station it came from. -/
  station : Nat
  deriving DecidableEq, Repr

/-- An injected frame (R346), staged in block `block` of pool `pool`, for a station. -/
structure Inject where
  frame : Frame
  guild : Nat
  ring : Nat
  station : Nat
  pool : Nat
  block : Nat
  /-- Granted: it crosses to its station (R261). -/
  crossing : Bool := false
  deriving DecidableEq, Repr

/-- A Guild at the host interface. -/
structure GuildHost where
  rings : List (Nat × Ring) := []
  evtSeq : Nat := 0
  tlmSeq : Nat := 0
  evtLoss : Bool := false
  tlmLoss : Bool := false
  /-- A failed doorbell read stopped polling (R348). -/
  pollStopped : Bool := false
  /-- Staged punts, oldest first; their bytes. -/
  punts : List Punt := []
  puntBytes : Nat := 0
  /-- Reason bucket → tokens and the timebase instant they were counted at (R114); a bucket not listed is full. -/
  buckets : List (Nat × Nat × Nat) := []
  deriving DecidableEq, Repr

/-- The host interface: links, Guilds, staged injects. -/
structure Hif where
  guilds : List (Nat × GuildHost) := []
  /-- Staged injects, oldest first. -/
  injects : List Inject := []
  /-- Station → INJ ring (1,024 × Guild + local) last granted, for the round robin of R346. -/
  injRr : List (Nat × Nat) := []
  /-- MSI-X vectors whose mask bit is 0: 2,048 × link + vector, ascending; and those pending (PCI Express, R344). -/
  unmasked : List Nat := []
  /-- Words of the MSI-X tables that differ from reset: 8,192 × link + word. -/
  msixTable : List (Nat × Word) := []
  msixPend : List Nat := []
  deriving DecidableEq, Repr

/-! ### Interrupt controller (ch. 19) -/

/-- A source disabled while deliverable: it may still be claimed once (R363). -/
structure Ghost where
  src : Nat
  target : Nat
  prio : Nat
  at_ : Nat
  req : Requester
  deriving DecidableEq, Repr

/-- The interrupt controller beside its registers. -/
structure Irq where
  /-- 16 × target + (number − 16): pending private sources, ascending. -/
  privPend : List Nat := []
  /-- Target → sources in service, with the priority each was claimed at, newest first. -/
  service : List (Nat × List (Nat × Nat)) := []
  ghosts : List Ghost := []
  deriving DecidableEq, Repr

/-! ### Memory controller (ch. 20) -/

/-- A read that waits in the hazard table (R369): who reads, where, how many writes of its block are still to drain
before it, the data it will return, and whether it is poisoned. -/
structure HbmRead where
  port : Nat
  block : Nat
  after : Nat
  data : List Byte
  poisoned : Bool
  deriving DecidableEq, Repr

/-- A posted add that the controller has accepted (R371). -/
structure HbmAdd where
  addr : Nat
  addend : Nat
  deriving DecidableEq, Repr

/-- The memory controller beside its registers. The bytes of the stacks are `State.mem`. -/
structure Hbm where
  /-- Blocks of accepted writes that have not drained, oldest first. -/
  writes : List Nat := []
  reads : List HbmRead := []
  adds : List HbmAdd := []
  /-- 32-B bursts in error: burst → uncorrectable (R374). -/
  bad : List (Nat × Bool) := []
  /-- Channels (16 × stack + channel) in power-down and in self-refresh. -/
  down : List Nat := []
  selfRefresh : List Nat := []
  /-- Bank (64 × channel + place in its channel) → timebase instant of its last refresh. -/
  refreshed : List (Nat × Nat) := []
  /-- Block the patrol scrub reads next. -/
  scrubAt : Nat := 0
  /-- CE counted since CE_TH was last cleared (R374). -/
  ceSince : Nat := 0
  /-- Stacks that issue writes ahead of reads: more than three-quarters full, and not half full since (R370). -/
  ahead : List Nat := []
  deriving DecidableEq, Repr

/-! ### Tallyman and telemetry (ch. 21) -/

/-- A dump that runs (R380, R381): its number, buffer, sets and destination as they stood at its start (an address in
HBM, or in the memory of `owner`), the buffer's size in bytes, the segments captured so far, and the set and instance of
each that is still to come. -/
structure Dump where
  number : Nat
  buffer : Nat
  triggered : Bool
  sets : Nat
  host : Bool
  owner : Nat
  tlm : Bool
  addr : Nat
  room : Nat
  tsStart : Nat
  skipped : Nat
  segments : List Byte
  todo : List (Nat × Nat) := []
  deriving DecidableEq, Repr

/-- The Tallyman and the telemetry store. -/
structure Tally where
  running : Option Dump := none
  /-- Number of the next dump. -/
  next : Nat := 0
  /-- Starts skipped since the last dump started. -/
  skipped : Nat := 0
  /-- A trigger waits: to be taken up, or held behind the dump that runs (R380, R384). -/
  held : Bool := false
  /-- Guild → write count W (R385). -/
  w : List (Nat × Nat) := []
  /-- Station → records queued, oldest first: Guild and 32 B (R386). -/
  queue : List (Nat × List (Nat × List Byte)) := []
  deriving DecidableEq, Repr

/-! ### Tinker and error handling (ch. 22) -/

/-- A frame that REORDER holds on receive (R393): injector, frames still to pass. -/
structure HeldRx where
  port : Nat
  inj : Nat
  frame : Frame
  left : Nat
  deriving DecidableEq, Repr

/-- A frame that REORDER set aside on transmit. -/
structure HeldTx where
  port : Nat
  inj : Nat
  ef : EFrame
  left : Nat
  deriving DecidableEq, Repr

/-- An error present in an on-die memory (R396): memory, station, word, whether it is uncorrectable. -/
structure OdErr where
  mem : Nat
  station : Nat
  index : Nat
  uncorr : Bool
  deriving DecidableEq, Repr

/-- The Tinker. Injectors are numbered 4 × port + k. -/
structure Tinker where
  lfsr : Word := 1#32
  /-- Injector → matching frames counted for PERIOD. -/
  period : List (Nat × Nat) := []
  /-- Injectors last set by TNK_SET, ascending. -/
  bySet : List Nat := []
  heldRx : List HeldRx := []
  heldTx : List HeldTx := []
  errors : List OdErr := []
  /-- Corrected errors since CE_TH was last cleared (R399). -/
  ceSince : Nat := 0
  deriving DecidableEq, Repr

/-! ### Mate pair (ch. 23) -/

/-- The mate interface beside MATE_STATUS. -/
structure Mate where
  /-- MATE_ACT_OUT and MATE_HB_OUT. -/
  actOut : Bool := false
  hbOut : Bool := false
  /-- MATE_KICK has been written within KICK_TMO_US (R403). -/
  kicked : Bool := false
  /-- Timebase instant of the last claim. -/
  claimed : Nat := 0
  /-- CLAIM_DELAY_MS has passed in STANDBY with MATE_ACT_IN low (R405). -/
  delayOver : Bool := false
  /-- The MATE_RELEASEs that wait for the mate's claim, oldest first (R412). -/
  release : List CmdRef := []
  deriving DecidableEq, Repr

/-! ### Bring-up (ch. 24), management ports (ch. 26) -/

/-- Bring-up beside the BOOT registers. -/
structure Boot where
  /-- Thaw service has been reached (R418). -/
  thaw : Bool := false
  /-- Lane → thaw group, for lanes with THAW_EN = 1 (R416, R420). -/
  lanes : List (Nat × Nat) := []
  /-- A profile was accepted, in a flash boot mode (R425). -/
  profile : Bool := false
  /-- Stations asked to switch, in the order they switch in; the first of them has its intake paused (R423). -/
  full : List Nat := []
  /-- Register words in force, where a write of R421 has stored another value. -/
  inForce : List (Nat × Word) := []
  /-- The part is held in reset, by a reset input or by BOOT_RESET (R413, R414). -/
  held : Bool := false
  /-- BOOT_RESET has asked for a warm reset, which holds the part from this timebase instant on (R414). -/
  warmDue : Bool := false
  warmAt : Nat := 0
  /-- RESET_N is held low. -/
  coldHeld : Bool := false
  /-- I2C_ADDR, as latched at the release of a cold reset (Table 26.9). -/
  i2cAddr : Nat := 0
  deriving DecidableEq, Repr

/-- States of the IEEE 1149.1 TAP controller (R450). -/
inductive TapState where
  | reset | idle | selDr | capDr | shDr | ex1Dr | paDr | ex2Dr | upDr | selIr | capIr | shIr | ex1Ir | paIr | ex2Ir | upIr
  deriving DecidableEq, Repr

/-- The JTAG port (R450): TAP state, instruction register, the data register in the scan path (bit 0 shifts out first). -/
structure Jtag where
  tap : TapState := .reset
  ir : List Bool := []
  /-- Instruction in force; none is IDCODE, as after Test-Logic-Reset. -/
  instr : Option (List Bool) := none
  dr : List Bool := []
  /-- What Update-DR has put into the boundary-scan cells (R450). -/
  cells : List Bool := []
  /-- The pins of IEEE 1149.6 show the inverse of their cells (R450). -/
  inverse : Bool := false
  deriving DecidableEq, Repr

/-! ### The part -/

/-- A station's blocks. -/
structure Stn where
  ept : Ept := {}
  ice : Ice := {}
  rules : Rules := {}
  tasks : Tasks := {}
  core : SwitchCore := {}
  egress : Egress := {}
  sweep : Sweep := {}
  store : Store := {}
  /-- A drain runs (R283), for this command; station-fatal errors drain without one (Table 22.4). -/
  drain : Option CmdRef := none
  draining : Bool := false
  /-- The drain is that of a yield's end: what it discards counts in DRAIN_DISCARDS (R408). -/
  yields : Bool := false
  deriving DecidableEq, Repr

/-- A port's link, MAC and egress scheduler. -/
structure PortSt where
  link : Link := {}
  mac : Mac := {}
  egr : EgrPort := {}
  deriving DecidableEq, Repr

/-- The whole part, and the commands that wait, first in, first out. -/
structure State where
  /-- Registers, by address, that differ from their reset value; ascending. -/
  regs : List (Nat × Word) := []
  /-- High words latched by a read of the low word, per requester (R10). -/
  latches : List (LatchKey × Word) := []
  /-- Low words written and not yet joined by their high word, per requester (R11). -/
  lows : List (LatchKey × Word) := []
  /-- The timebase, ns from reset release (R6, R313). -/
  now : Nat := 0
  power : Power := {}
  /-- 4 × station + accumulator → energy counted, µJ modulo 2⁴⁸ (R50). -/
  energy : List (Nat × Nat) := []
  ports : List (Nat × PortSt) := []
  stations : List (Nat × Stn) := []
  /-- Crossbar output port → its arbitration state (R265); next sequence number. -/
  xbr : List (Nat × XbrOut) := []
  seq : Nat := 0
  coop : Coop := {}
  /-- The pool drain of R284 runs, for this command. -/
  poolDrain : Option CmdRef := none
  /-- Route key → data, valid in all twelve replicas (R129, R134); the stations in which it is invalid (Table 22.4). -/
  routes : List (RouteKey × Nat) := []
  routeBad : List (Nat × RouteKey) := []
  /-- Multicast groups, in all twelve replicas (R269). -/
  groups : List (Nat × McGroup) := []
  ftm : Ftm := {}
  hk : List (Nat × HkEngine) := []
  /-- The housekeeping store. -/
  hkStore : Store := {}
  ucs : Ucs := {}
  varve : Varve := {}
  hif : Hif := {}
  irq : Irq := {}
  /-- The bytes of the two HBM stacks and, from 0xF0_0000_0000 on, of the Cooperage (R278), canonical. -/
  mem : List Host.Cell := []
  hbm : Hbm := {}
  tally : Tally := {}
  tinker : Tinker := {}
  mate : Mate := {}
  boot : Boot := {}
  jtag : Jtag := {}
  /-- The model's own: what the part has sent out, newest first (DESIGN CHOICE, log 6). -/
  out : List Output := []
  /-- The model's own: how many free values have been drawn (DESIGN CHOICE, log 7). -/
  fresh : Nat := 0
  pending : List Instr := []
  deriving DecidableEq, Repr

/-- The part right after the release of a cold reset (R413): every register at its reset value, every table, queue and
buffer empty, Varve time 0, no command waiting. The first AVSBus write (R42) is among what has gone out. -/
def State.reset : State := { out := [.avsWrite 156] }

end Sys2Proof.Machine
end

