-- ==== Sys2Proof/Machine/Ops.lean ====
section
/-! DEFINITION. The named operations that every meaning is written over: keyed lists, byte strings, registers and
their fields (ch. 25), counters (R12), the bytes of the HBM (R366), stations and ports, and what is sent out. -/
namespace Sys2Proof.Machine

/-! ### Keyed lists, in ascending order of their keys -/

def aget? {α : Type} (k : Nat) : List (Nat × α) → Option α
  | [] => none
  | (i, v) :: r => if i = k then some v else aget? k r

def aget {α : Type} (d : α) (k : Nat) (l : List (Nat × α)) : α := (aget? k l).getD d

def aset {α : Type} (k : Nat) (v : α) : List (Nat × α) → List (Nat × α)
  | [] => [(k, v)]
  | (i, w) :: r => if i = k then (k, v) :: r else if k < i then (k, v) :: (i, w) :: r else (i, w) :: aset k v r

def adel {α : Type} (k : Nat) (l : List (Nat × α)) : List (Nat × α) := l.filter fun e => e.1 != k

/-- An entry of a list in which the value d is not listed. (Two equal cases: the list is looked at before the value, so
that a term over an unknown list does not unfold the comparison.) -/
def awr {α : Type} [DecidableEq α] (k : Nat) (v d : α) : List (Nat × α) → List (Nat × α)
  | [] => if v = d then adel k [] else aset k v []
  | e :: r => if v = d then adel k (e :: r) else aset k v (e :: r)

/-- The keys rise strictly. -/
def rising {α : Type} (l : List (Nat × α)) : Bool := decide (l.Pairwise fun a b => a.1 < b.1)

/-- A counter kept in a keyed list; 0 is not listed. -/
def aadd (k : Nat) (n : Nat) (l : List (Nat × Nat)) : List (Nat × Nat) :=
  let v := aget 0 k l + n
  if v = 0 then adel k l else aset k v l

def asub (k : Nat) (n : Nat) (l : List (Nat × Nat)) : List (Nat × Nat) :=
  let v := aget 0 k l - n
  if v = 0 then adel k l else aset k v l

/-- Insertion into an ascending list without repeats. -/
def sinsert (n : Nat) : List Nat → List Nat
  | [] => [n]
  | i :: r => if i = n then i :: r else if n < i then n :: i :: r else i :: sinsert n r

/-- The first of the n numbers from `lo` on that is not in use, sought from the start-th of them, round. -/
def freeFrom (used : List Nat) (lo n start : Nat) : Nat :=
  (((List.range (used.length + 1)).map fun k => lo + (start + k) % n).find? fun i => !used.contains i).getD lo

/-! ### Byte strings (R14) -/

/-- The low n bytes of a number, least significant first. -/
def leBytes : Nat → Nat → List Byte
  | 0, _ => []
  | n + 1, v => BitVec.ofNat 8 v :: leBytes n (v / 256)

/-- The number that bytes hold, least significant first. -/
def leVal : List Byte → Nat
  | [] => 0
  | b :: bs => b.toNat + 256 * leVal bs

/-- The number that bytes hold, most significant first (network byte order). -/
def beVal (bs : List Byte) : Nat := bs.foldl (fun a b => a * 256 + b.toNat) 0

/-- The low n bytes of a number, most significant first. -/
def beBytes (n v : Nat) : List Byte := (leBytes n v).reverse

def zeros (n : Nat) : List Byte := List.replicate n 0#8

/-- Bits [hi:lo] of a number. -/
def bits (n hi lo : Nat) : Nat := (n >>> lo) % 2 ^ (hi + 1 - lo)

def bit (n k : Nat) : Bool := n.testBit k

/-- Bytes off to off + n − 1 of a frame in network byte order; absent bytes read 0. -/
def be (l : List Byte) (off n : Nat) : Nat :=
  beVal ((List.range n).map fun k => l.getD (off + k) 0#8)

/-- Bytes off to off + n − 1 of a descriptor, little-endian. -/
def le (l : List Byte) (off n : Nat) : Nat := leVal ((l.drop off).take n)

/-- A number brought into a range. -/
def clampNat (lo hi n : Nat) : Nat := if n < lo then lo else if hi < n then hi else n

def clampInt (lo hi n : Int) : Int := if n < lo then lo else if hi < n then hi else n

/-- A number read as two's complement of w bits. -/
def signedOf (w n : Nat) : Int := if 2 ^ (w - 1) ≤ n % 2 ^ w then (n % 2 ^ w : Int) - 2 ^ w else (n % 2 ^ w : Int)

/-- The w low bits of an integer in two's complement. -/
def toBits (w : Nat) (n : Int) : Nat := (n % (2 ^ w : Int)).toNat

/-- The default arm of an outcome: the next state. -/
abbrev Out := Host.Outcome State Fault Refusal

/-! ### Registers -/

/-- What a register holds (R13). -/
def State.rd (s : State) (a : Nat) : Word := (aget? a s.regs).getD (regReset a)

/-- A register's word as a number. -/
def State.rdN (s : State) (a : Nat) : Nat := (s.rd a).toNat

/-- A register takes a word; a word equal to the reset value is not listed. -/
def State.wr (s : State) (a : Nat) (v : Word) : State := { s with regs := awr a v (regReset a) s.regs }

/-- The canonical form of the register file: addresses strictly rising, no word equal to its reset value. -/
def Regs.wf (r : List (Nat × Word)) : Bool := rising r && r.all fun e => e.2 != regReset e.1

/-- A field of a register. -/
def State.get (s : State) (a : Nat) (f : Field) : Nat := s.rdN a / 2 ^ f.lo % 2 ^ f.w

def State.getB (s : State) (a : Nat) (f : Field) : Bool := s.get a f != 0

/-- A field's value in a word. -/
def Field.of (f : Field) (w : Word) : Nat := w.toNat / 2 ^ f.lo % 2 ^ f.w

def Field.mask (f : Field) : Nat := (2 ^ f.w - 1) * 2 ^ f.lo

/-- A word with a field replaced. -/
def Field.into (f : Field) (w : Word) (v : Nat) : Word :=
  BitVec.ofNat 32 (w.toNat - f.of w * 2 ^ f.lo + v % 2 ^ f.w * 2 ^ f.lo)

/-- A field takes a value. -/
def State.put (s : State) (a : Nat) (f : Field) (v : Nat) : State := s.wr a (f.into (s.rd a) v)

/-- A one-bit field takes a level. -/
def State.putB (s : State) (a : Nat) (f : Field) (v : Bool) : State := s.put a f (if v then 1 else 0)

/-- An event bit latches. -/
def State.raise (s : State) (a : Nat) (f : Field) : State := s.put a f (2 ^ f.w - 1)

/-- A 48-bit counter with its low word at `a` and its high word 4 B above it (Table 02.15). -/
def State.cntGet (s : State) (a : Nat) : Nat := s.rdN a + 2 ^ 32 * (s.rdN (a + 4) % 65536)

def State.cntSet (s : State) (a v : Nat) : State :=
  let v := v % 2 ^ 48
  (s.wr a (BitVec.ofNat 32 v)).wr (a + 4) (BitVec.ofNat 32 (v / 2 ^ 32))

/-- A 48-bit counter adds n and wraps (R12). -/
def State.cnt (s : State) (a n : Nat) : State := if n = 0 then s else s.cntSet a (s.cntGet a + n)

/-- One more. -/
def State.tick (s : State) (a : Nat) : State := s.cnt a 1

/-! ### What is sent out, free values -/

def State.emit (s : State) (o : Output) : State := { s with out := o :: s.out }

/-- A free number, and the state that has drawn it. -/
def State.drawNat (s : State) : Nat × State := (Config.freeNat s.fresh, { s with fresh := s.fresh + 1 })

def State.drawBool (s : State) : Bool × State := (Config.freeBool s.fresh, { s with fresh := s.fresh + 1 })

/-! ### Stations and ports -/

def State.stn (s : State) (st : Nat) : Stn := aget {} st s.stations

def State.setStn (s : State) (st : Nat) (v : Stn) : State := { s with stations := aset st v s.stations }

def State.modStn (s : State) (st : Nat) (f : Stn → Stn) : State := s.setStn st (f (s.stn st))

def State.port (s : State) (p : Nat) : PortSt := aget {} p s.ports

def State.setPort (s : State) (p : Nat) (v : PortSt) : State := { s with ports := aset p v s.ports }

def State.modPort (s : State) (p : Nat) (f : PortSt → PortSt) : State := s.setPort p (f (s.port p))

def State.modTasks (s : State) (st : Nat) (f : Tasks → Tasks) : State :=
  s.modStn st fun n => { n with tasks := f n.tasks }

def State.modCore (s : State) (st : Nat) (f : SwitchCore → SwitchCore) : State :=
  s.modStn st fun n => { n with core := f n.core }

def State.modIce (s : State) (st : Nat) (f : Ice → Ice) : State := s.modStn st fun n => { n with ice := f n.ice }

def State.modEpt (s : State) (st : Nat) (f : Ept → Ept) : State := s.modStn st fun n => { n with ept := f n.ept }

def State.modRules (s : State) (st : Nat) (f : Rules → Rules) : State :=
  s.modStn st fun n => { n with rules := f n.rules }

def State.modEgress (s : State) (st : Nat) (f : Egress → Egress) : State :=
  s.modStn st fun n => { n with egress := f n.egress }

def State.modLink (s : State) (p : Nat) (f : Link → Link) : State := s.modPort p fun n => { n with link := f n.link }

def State.modMac (s : State) (p : Nat) (f : Mac → Mac) : State := s.modPort p fun n => { n with mac := f n.mac }

def State.modEgr (s : State) (p : Nat) (f : EgrPort → EgrPort) : State := s.modPort p fun n => { n with egr := f n.egr }

def State.modFtm (s : State) (f : Ftm → Ftm) : State := { s with ftm := f s.ftm }

/-- The first lane of a port and its local number: station p / 12, local port p % 12 (R17). -/
def stationOf (p : Nat) : Nat := p / 12

def localOf (p : Nat) : Nat := p % 12

/-! ### The bytes of the HBM (R366)

Memory is a list of address and byte pairs in strictly rising order of address; an address that is not listed reads 0,
and no listed byte is 0 (DESIGN CHOICE, log 8). -/

/-- What an address that is not listed reads as. -/
def Memory.unlisted : Byte := 0#8

def Memory.read (a : Nat) : List Host.Cell → Byte
  | [] => Memory.unlisted
  | (i, b) :: r => if i = a then b else Memory.read a r

def Memory.write (a : Nat) (b : Byte) (m : List Host.Cell) : List Host.Cell := awr a b Memory.unlisted m

/-- n bytes from an address on. -/
def Memory.readN (m : List Host.Cell) (a : Nat) : Nat → List Byte
  | 0 => []
  | n + 1 => Memory.read a m :: Memory.readN m (a + 1) n

def Memory.writeN (a : Nat) : List Byte → List Host.Cell → List Host.Cell
  | [], m => m
  | b :: bs, m => Memory.writeN (a + 1) bs (Memory.write a b m)

/-- The canonical form: addresses strictly rising, no entry equal to what an unlisted address reads as. -/
def Memory.wf (m : List Host.Cell) : Bool := rising m && m.all fun e => e.2 != Memory.unlisted

def State.mrd (s : State) (a n : Nat) : List Byte := Memory.readN s.mem a n

def State.mwr (s : State) (a : Nat) (bs : List Byte) : State := { s with mem := Memory.writeN a bs s.mem }

/-! ### Time -/

/-- Varve time in whole nanoseconds (R314). -/
def State.varveNs (s : State) : Nat := s.varve.t / 2 ^ 44

/-- The Varve timestamp: whole nanoseconds modulo 2³² (R316). -/
def State.ts (s : State) : Nat := s.varveNs % 2 ^ 32

/-! ### Meanings -/

/-- A command takes its effect, unless a reset input holds the part in reset (R413): then nothing happens. -/
def act (s : State) (f : State → State) : Out := .next (if s.boot.held then s else f s)

/-- f where the condition holds. -/
def State.when (s : State) (c : Bool) (f : State → State) : State := if c then f s else s

end Sys2Proof.Machine
end

