-- ==== Sys2Proof/Machine/Operands.lean ====
section
/-! DEFINITION. The operand forms of the commands that arrive through a CMD ring: the descriptor's common bytes
(Table 18.5), which bits of bytes 8 to 31 each command uses (Tables 06.10, 06.11, 07.10, 08.7, 09.4, 11.9, 13.8, 14.6,
17.3, 18.8; R387, R401, R412), and which Guilds may issue it. -/
namespace Sys2Proof.Machine

/-- Opcode of a descriptor. -/
def descOp (d : List Byte) : Nat := le d 0 1

/-- CPL_RING of a descriptor. -/
def descCpl (d : List Byte) : Nat := le d 2 2 % 1024

/-- Bits of bytes 8 to 31, counted from bit 0 of byte 8, that a command uses: lowest bit and width of each field; none
for an opcode that no command has. -/
def cmdFields (op : Nat) : Option (List (Nat × Nat)) :=
  match op with
  | 0x00 => some [(0, 64)]
  | 0x01 => some [(0, 10), (16, 3), (24, 5), (32, 11), (48, 2), (64, 64), (128, 64)]
  | 0x02 => some [(0, 16), (16, 16), (32, 16), (48, 16), (64, 64)]
  | 0x03 => some [(0, 16)]
  | 0x04 => some []
  | 0x10 | 0x11 | 0x12 | 0x13 | 0x14 => some [(0, 12), (16, 12), (32, 48), (80, 8), (88, 4)]
  | 0x18 | 0x19 | 0x1A => some [(0, 8), (8, 2), (16, 8), (32, 26), (64, 128)]
  | 0x20 | 0x21 => some [(0, 64)]
  | 0x22 => some [(0, 32), (32, 1), (64, 64)]
  | 0x23 => some [(0, 32)]
  | 0x24 => some [(0, 16), (16, 8), (24, 2)]
  | 0x28 | 0x29 => some [(0, 26), (32, 1), (40, 4)]
  | 0x2A => some [(0, 12)]
  | 0x2B => some [(0, 26), (32, 1), (40, 4), (64, 64)]
  | 0x30 => some [(0, 12), (16, 12), (32, 2), (64, 64)]
  | 0x31 => some [(0, 12), (32, 1)]
  | 0x32 => some [(0, 12), (16, 12), (32, 2), (64, 64)]
  | 0x33 => some [(0, 12), (33, 1), (64, 64)]
  | 0x38 => some [(0, 32), (64, 64)]
  | 0x39 => some [(64, 64)]
  | 0x3A => some [(0, 2), (8, 8), (64, 128)]
  | 0x48 => some [(0, 14), (16, 2), (32, 152)]
  | 0x49 => some [(0, 14), (64, 64)]
  | 0x50 => some [(0, 4), (32, 16)]
  | 0x51 => some [(32, 16)]
  | 0x52 => some [(0, 12), (15, 1)]
  | 0x58 => some [(0, 64), (64, 2)]
  | 0x59 => some [(0, 48), (64, 32)]
  | 0x5A => some [(0, 32)]
  | 0x5B => some [(0, 1)]
  | 0x60 => some [(0, 64), (64, 32), (128, 64)]
  | 0x68 | 0x69 => some [(0, 8), (8, 2), (64, 64)]
  | 0x70 => some [(0, 1)]
  | _ => none

/-- A field of bytes 8 to 31. -/
def descField (d : List Byte) (lo w : Nat) : Nat := le d 8 24 / 2 ^ lo % 2 ^ w

/-- What is left of a number once the fields are taken out of it. -/
def clearFields (n : Nat) : List (Nat × Nat) → Nat
  | [] => n
  | (lo, w) :: r => clearFields (n - n / 2 ^ lo % 2 ^ w * 2 ^ lo) r

/-- A reserved byte or bit of the descriptor is not 0 (R341). -/
def descReserved (d : List Byte) (fs : List (Nat × Nat)) : Bool :=
  le d 1 1 != 0 || le d 3 1 / 4 != 0 || clearFields (le d 8 24) fs != 0

/-- The Guild may issue the command: G0 alone for the UCS, Moraine and mate commands (R240, R285, R412), the owner
alone for the Varve commands (R329), every Guild for the others. -/
def cmdPermitted (op g owner : Nat) : Bool :=
  if op = 0x38 ∨ op = 0x39 ∨ op = 0x3A ∨ op = 0x50 ∨ op = 0x51 ∨ op = 0x52 ∨ op = 0x70 then g == 0
  else if 0x58 ≤ op ∧ op ≤ 0x5B then g == owner
  else true

/-- The first of BAD_OPCODE, NOT_PERMITTED and BAD_RESERVED whose condition holds (R341). -/
def descRefusal (d : List Byte) (g owner : Nat) : Option Nat :=
  match cmdFields (descOp d) with
  | none => some 0x01
  | some fs =>
    if !cmdPermitted (descOp d) g owner then some 0x02 else if descReserved d fs then some 0x03 else none

end Sys2Proof.Machine
end

