-- ==== Sys2Proof/Machine/Rings.lean ====
section
/-! DEFINITION. The rings as the other blocks use them (ch. 18): DMA writes, descriptors with their PHASE (R337),
MSI-X messages (R344), events (R343) and completions (R340, R341). -/
namespace Sys2Proof.Machine

def State.guild (s : State) (g : Nat) : GuildHost := aget {} g s.hif.guilds

def State.modGuild (s : State) (g : Nat) (f : GuildHost → GuildHost) : State :=
  { s with hif := { s.hif with guilds := aset g (f (s.guild g)) s.hif.guilds } }

def State.ring (s : State) (g r : Nat) : Ring := aget {} r (s.guild g).rings

def State.modRing (s : State) (g r : Nat) (f : Ring → Ring) : State :=
  s.modGuild g fun h => { h with rings := aset r (f (s.ring g r)) h.rings }

/-- The Guild is enabled (R339). -/
def State.gldOn (s : State) (g : Nat) : Bool := s.getB (Reg.GLD_CTL g) Fld.GLD_CTL_EN

/-- The link a Guild is bound to (R333); none where it is not. -/
def State.gldLink (s : State) (g : Nat) : Option Nat :=
  if s.getB (Reg.HIF_GUILD_BIND g) Fld.HIF_GUILD_BIND_VALID then
    some (if g = 0 then s.get Reg.HIF_CFG Fld.HIF_CFG_G0_LINK else s.get (Reg.HIF_GUILD_BIND g) Fld.HIF_GUILD_BIND_LINK)
  else none

/-- The PASID that a Guild's requests carry, while PASID_EN is set (R333). -/
def State.pasid (s : State) (g : Nat) : Option Nat :=
  if s.getB (Reg.HIF_GUILD_BIND g) Fld.HIF_GUILD_BIND_PASID_EN then
    some (s.get (Reg.HIF_GUILD_BIND g) Fld.HIF_GUILD_BIND_PASID)
  else none

/-- A requester reaches the set-up space: a host through BAR0 of the G0 link only (R332), while that link is up (R349). -/
def reachesBar0 (s : State) (req : Requester) : Bool :=
  match req with
  | .link k => s.get Reg.HIF_CFG Fld.HIF_CFG_G0_LINK == k.val && s.getB (Reg.HIF_LINK_STATUS k.val) Fld.HIF_LINK_STATUS_UP
  | _ => true

/-- A Guild page does not answer a requester: a link to which the Guild is not bound (R334). -/
def pageForeign (s : State) (req : Requester) (g : Nat) : Bool :=
  match req with
  | .link k => s.gldLink g != some k.val
  | _ => false

/-- An access outside a link's Guilds is latched and counted (R334). -/
def isoViol (s : State) : State := (s.raise Reg.HIF_EVENT Fld.HIF_EVENT_ISO_VIOL).tick (Reg.HIF_CNT_LO 3)

/-- A read of a Guild-page register: v gives its word and side effects; a foreign link reads 0. -/
def pageRead (req : Requester) (g addr : Nat) (v : State → Word × State) (s : State) : State :=
  if pageForeign s req g then (isoViol s).emit (.read req addr 0#32)
  else
    let (w, s) := v s
    s.emit (.read req addr w)

/-- Number of slots. -/
def Ring.n (r : Ring) : Nat := 2 ^ r.log2n

/-- Distances of 17-bit indices (R336). -/
def idxDist (a b : Nat) : Nat := (a + 131072 - b % 131072) % 131072

/-- Entries the host has written and the device has not processed. -/
def Ring.posted (r : Ring) : Nat := idxDist r.h r.d

/-- Entries the device has written and the host has not consumed. -/
def Ring.unread (r : Ring) : Nat := idxDist r.d r.h

/-- The device may process index D (Table 18.4), keeping the slots reserved for completions. -/
def Ring.ready (r : Ring) : Bool :=
  r.enabled && !r.stopping &&
    (if r.kind = 0 ∨ r.kind = 3 ∨ r.kind = 4 then r.posted != 0 else decide (r.unread < r.n))

/-- PHASE = 1 − (⌊D / N⌋ mod 2) (R337). -/
def Ring.phase (r : Ring) : Nat := 1 - r.d / r.n % 2

def Ring.slotAddr (r : Ring) : Nat := r.base + 32 * (r.d % r.n)

/-- The ring is armed (R344). -/
def Ring.armed (r : Ring) : Bool := r.enabled && r.armBit != r.armRec

/-- A DMA write for a Guild. -/
def dmaWrite (g addr : Nat) (bs : List Byte) (s : State) : State :=
  (s.emit (.dma g (s.pasid g) addr bs)).tick (Reg.HIF_CNT_LO 1)

/-- A DMA write for a Guild whose data are bad: a poisoned TLP (Table 22.4). -/
def dmaWritePoison (g addr len : Nat) (s : State) : State :=
  (s.emit (.dmaPoison g (s.pasid g) addr len)).tick (Reg.HIF_CNT_LO 1)

/-- The MSI-X mask bit of a vector of a link; a vector is masked until its Vector Control is written (PRESUMED, log
20). -/
def msixMasked (s : State) (k v : Nat) : Bool := !(s.hif.unmasked.contains (2048 * k + v))

/-- An MSI-X message; a masked vector sets its pending bit instead (R344). -/
def msix (g v : Nat) (s : State) : State :=
  match s.gldLink g with
  | none => s
  | some k =>
    if msixMasked s k v then { s with hif := { s.hif with msixPend := sinsert (2048 * k + v) s.hif.msixPend } }
    else ((s.emit (.msix k v)).tick (Reg.HIF_CNT_LO 2)).tick (Reg.GLD_CNT_LO g 8)

/-- A ring sends its message, records ARM as it stands and is disarmed (R344). -/
def ringSignal (g r : Nat) (s : State) : State :=
  let s := msix g (s.ring g r).vector s
  s.modRing g r fun x => { x with armRec := x.armBit, fresh := 0, first := none }

/-- The message of an armed ring once MOD_COUNT descriptors have been written. -/
def ringSignalCount (g r : Nat) (s : State) : State :=
  let x := s.ring g r
  if x.irqEn && x.armed && decide (max 1 x.modCount ≤ x.fresh) then ringSignal g r s else s

/-- A descriptor is written at D, with its PHASE, D advances, and an armed ring may signal. -/
def ringWrite (g r : Nat) (desc : List Byte) (s : State) : State :=
  let x := s.ring g r
  let b1 := (desc.getD 1 0#8 &&& 0x7F#8) ||| BitVec.ofNat 8 (128 * x.phase)
  let s := dmaWrite g x.slotAddr (desc.set 1 b1) s
  let s := s.modRing g r fun x =>
    { x with d := (x.d + 1) % 131072
             fresh := if x.armed then x.fresh + 1 else x.fresh
             first := if x.armed ∧ x.first = none then some s.now else x.first }
  ringSignalCount g r s

/-- The enabled ring of a kind that a Guild has at most one of. -/
def kindRing (s : State) (g kind : Nat) : Option Nat :=
  ((s.guild g).rings.find? fun e => e.2.enabled && e.2.kind == kind).map Prod.fst

/-- The EVT ring of a Guild takes an event now. -/
def eventRoom (s : State) (g : Nat) : Bool := match kindRing s g 2 with | some r => (s.ring g r).ready | none => false

/-- An event of the EVT ring (R343): written with SEQ, LOSS and its timestamp, or discarded and counted. -/
def postEvent (g code : Nat) (body : List Byte) (s : State) : State :=
  let h := s.guild g
  match kindRing s g 2 with
  | some r =>
    if (s.ring g r).ready then
      let desc := leBytes 1 code ++ leBytes 1 (if h.evtLoss then 1 else 0) ++ leBytes 2 h.evtSeq ++ leBytes 4 s.ts
        ++ (body ++ zeros 24).take 24
      ringWrite g r desc (s.modGuild g fun h => { h with evtSeq := (h.evtSeq + 1) % 65536, evtLoss := false })
    else (s.modGuild g fun h => { h with evtSeq := (h.evtSeq + 1) % 65536, evtLoss := true }).tick (Reg.GLD_CNT_LO g 7)
  | none =>
    (s.modGuild g fun h => { h with evtSeq := (h.evtSeq + 1) % 65536, evtLoss := true }).tick (Reg.GLD_CNT_LO g 7)

/-- A descriptor of the TLM ring (R343, R381). -/
def postTlm (g code : Nat) (body : List Byte) (s : State) : State :=
  let h := s.guild g
  match kindRing s g 5 with
  | some r =>
    if (s.ring g r).ready then
      let desc := leBytes 1 code ++ leBytes 1 (if h.tlmLoss then 1 else 0) ++ leBytes 2 h.tlmSeq ++ leBytes 4 s.ts
        ++ (body ++ zeros 24).take 24
      ringWrite g r desc (s.modGuild g fun h => { h with tlmSeq := (h.tlmSeq + 1) % 65536, tlmLoss := false })
    else s.modGuild g fun h => { h with tlmSeq := (h.tlmSeq + 1) % 65536, tlmLoss := true }
  | none => s.modGuild g fun h => { h with tlmSeq := (h.tlmSeq + 1) % 65536, tlmLoss := true }

/-! ### Commands -/

/-- The completion descriptor (Table 18.6). A failing command's result is empty unless its own rule gives one
(DEDUCED, log 52). -/
def cplDesc (c : Cmd) (ring status : Nat) (result : List Byte) : List Byte :=
  leBytes 1 (descOp c.desc) ++ [0#8] ++ leBytes 1 status ++ [0#8] ++ (c.desc.drop 4).take 4
    ++ (result ++ zeros 16).take 16
    ++ leBytes 2 ring ++ [0#8, 0#8] ++ leBytes 4 c.index

/-- A command completes: its completion goes to the ring it reserved, its slot of the CMD ring is free again (R340).
The completion is discarded where the Guild has been disabled since (R349); where the CPL ring is no longer enabled,
the bootstrap CPL ring takes it (DEDUCED, log 21). -/
def complete (g ring status : Nat) (result : List Byte) (s : State) : State :=
  match (s.ring g ring).cmd with
  | none => s
  | some c =>
    if c.orphan then s.modRing g ring fun x => { x with cmd := none }
    else
      let s := s.modRing g ring fun x => { x with cmd := none, d := (x.d + 1) % 131072 }
      let t := if (s.ring g c.cplRing).enabled then c.cplRing else 1
      let s := (s.modRing g c.cplRing fun x => { x with reserved := x.reserved - 1 }).tick (Reg.GLD_CNT_LO g 0)
      if (s.ring g t).enabled then ringWrite g t (cplDesc c ring status result) s else s

/-- A DMA made for a ring has failed (R348): the ring stops as under RING_STOP, and the failure is latched and
counted. -/
def dmaFailed (g r : Nat) (s : State) : State :=
  let s := (s.raise (Reg.GLD_STATUS g) Fld.GLD_STATUS_DMA_ERR).raise Reg.HIF_EVENT Fld.HIF_EVENT_DMA_ERR
  (s.tick (Reg.GLD_CNT_LO g 10)).modRing g r fun x => { x with stopping := x.stopping || x.enabled }

/-- A command whose own DMA failed completes with DMA_ERROR (R348). -/
def dmaError (g ring : Nat) (s : State) : State := complete g ring 6 [] (dmaFailed g ring s)

/-- The data that a DMA read made for a command brought, n bytes of it; without data the DMA has failed. -/
def withData (g ring n : Nat) (data : Option (List Byte)) (f : List Byte → State → State) (s : State) : State :=
  let s := s.tick (Reg.HIF_CNT_LO 0)
  match data with
  | some d => f ((d ++ zeros n).take n) s
  | none => dmaError g ring s

/-- A command completes OK. -/
def completeOk (g ring : Nat) (result : List Byte) (s : State) : State := complete g ring 0 result s

/-- The command that a CMD ring runs, with this opcode, before it has taken any effect. -/
def startable (s : State) (g ring op : Nat) : Option Cmd :=
  match (s.ring g ring).cmd with
  | some c => if descOp c.desc = op ∧ !c.began then some c else none
  | none => none

/-- The command that a CMD ring runs, with this opcode, after it has begun and before it completes. -/
def waitingCmd (s : State) (g ring op : Nat) : Option Cmd :=
  match (s.ring g ring).cmd with
  | some c => if descOp c.desc = op ∧ c.began then some c else none
  | none => none

def State.modCmd (s : State) (g ring : Nat) (f : Cmd → Cmd) : State :=
  s.modRing g ring fun x => { x with cmd := x.cmd.map f }

/-- A command of the ring with this opcode runs f; in any other state of the ring nothing happens. -/
def onCmd (g ring op : Nat) (f : Cmd → State → State) (s : State) : State :=
  match startable s g ring op with
  | some c => f c s
  | none => s

/-- Every CMD ring that runs a command for which p holds: Guild and ring. -/
def cmdsWhere (s : State) (p : Nat → Cmd → Bool) : List CmdRef :=
  s.hif.guilds.flatMap fun e =>
    e.2.rings.filterMap fun x => match x.2.cmd with | some c => if p e.1 c then some (e.1, x.1) else none | none => none

end Sys2Proof.Machine
end

