-- ==== Sys2Proof/Machine/Flags.lean ====
section
/-! DEFINITION. The flags and counters that events leave: a station's programmable event counters (R383, R384), its
energy accumulators (R50), the statistics of a MAC with their half-range flags (R96, R97), SMB_ALERT_N and what boundary
scan drives (R449, R450), the memory errors that the
Tinker plants (R395). -/
namespace Sys2Proof.Machine

/-! ### Programmable event counters -/

/-- An event counter adds n; on passing 2⁴⁸ − 1 its overflow bit sets and, with DUMP, a dump is triggered (R384). -/
def evAdd (st k n : Nat) (dump : Bool) (s : State) : State :=
  let a := Reg.STN_EV_LO st k
  let v := s.cntGet a + n
  let s := s.cntSet a v
  if v < 2 ^ 48 then s
  else
    let o := Reg.STN_EV_OVF st (k / 32)
    let s := s.wr o (s.rd o ||| BitVec.ofNat 32 (2 ^ (k % 32)))
    if dump && s.getB Reg.TLY_CFG Fld.TLY_CFG_EN then { s with tally := { s.tally with held := true } } else s

/-- Every counter of a station whose STN_EVSEL chooses the event adds n (R383). STN_EVSEL resets to 0, which counts
nothing, so only those that have been written can choose it. -/
def evCount (st code n : Nat) (guild : Option Nat) (s : State) : State :=
  let lo := Reg.STN_EVSEL st 0
  s.regs.foldl (fun s e =>
    if lo ≤ e.1 ∧ e.1 < lo + 192 then
      let w := e.2
      let hit := Fld.STN_EVSEL_EVENT.of w == code &&
        (match guild with
         | none => true
         | some g => Fld.STN_EVSEL_GUILD_EN.of w == 0 || Fld.STN_EVSEL_GUILD.of w == g)
      if hit then evAdd st ((e.1 - lo) / 4) n (Fld.STN_EVSEL_DUMP.of w == 1) s else s
    else s) s

/-- Event 12: a drop of whatever cause. -/
def evDrop (st : Nat) (guild : Nat) (s : State) : State := evCount st 12 1 (some guild) s

/-! ### Pins -/

/-- SMB_ALERT_N is to be low (R449). -/
def smbAlert (s : State) : Bool :=
  s.getB Reg.THM_STATUS Fld.THM_STATUS_CRIT || s.getB Reg.THM_STATUS Fld.THM_STATUS_SENSOR_FAULT
    || s.get Reg.BOOT_STATUS Fld.BOOT_STATUS_STAGE == 4

/-- SMB_ALERT_N goes to a level. -/
def setSmb (low : Bool) (s : State) : State :=
  if s.power.smbLow = low then s
  else ({ s with power := { s.power with smbLow := low } } : State).emit (.pin "SMB_ALERT_N" !low)

/-- SMB_ALERT_N follows what it reports. -/
def alertShow (s : State) : State := setSmb (smbAlert s) s

/-- What the instruction of the test port selects (R450). -/
def jtagKind (j : Jtag) : Nat :=
  match j.instr with
  | none => 1
  | some i => if i.all id then 0 else Config.jtagRegister i

/-- The levels with which boundary scan drives the pins: under EXTEST those of its cells; EXTEST_PULSE and EXTEST_TRAIN
have the pins of IEEE 1149.6 show the inverse at times (R450; PRESUMED, log 111). While RESET_N is low it drives none
(R448). -/
def scanDrive (s : State) : Option (List Bool) :=
  let j := s.jtag
  if s.boot.coldHeld then none
  else match jtagKind j with
    | 2 => some j.cells
    | 3 | 4 => some (j.cells.mapIdx fun k b => b != (j.inverse && Config.boundaryAc k))
    | _ => none

/-- What boundary scan drives is shown where it has changed. -/
def scanShow (was : Option (List Bool)) (s : State) : State :=
  { s with out := if scanDrive s = was then s.out else .scan (scanDrive s) :: s.out }

/-! ### Energy -/

/-- An accumulator counts an event of a kind (R50). The weights are free values. -/
def energy (st acc kind : Nat) (s : State) : State :=
  let k := 4 * st + acc
  let v := aget 0 k s.energy
  { s with energy := aset k ((v + Config.energy acc kind (s.get Reg.PWR_AVS_STATUS Fld.PWR_AVS_STATUS_VREQ) v) % 2 ^ 48) s.energy }

/-! ### MAC statistics -/

/-- A counter of MAC_STAT adds n. When its bit 47 changes, its half-range flag sets, and STAT_HALF latches if the flag
was clear (R97). -/
def macStat (p k n : Nat) (s : State) : State :=
  if n = 0 then s
  else
    let a := Reg.MAC_STAT_LO p k
    let old := s.cntGet a
    let v := (old + n) % 2 ^ 48
    let s := s.cntSet a v
    if old / 2 ^ 47 = v / 2 ^ 47 then s
    else
      let h := Reg.MAC_STAT_HALF p (k / 32)
      let was := (s.rd h).toNat.testBit (k % 32)
      let s := s.wr h (s.rd h ||| BitVec.ofNat 32 (2 ^ (k % 32)))
      if was then s else s.raise (Reg.MAC_EVENT p) Fld.MAC_EVENT_STAT_HALF

/-! ### Planted memory errors -/

/-- An access to a memory of the station: accumulator 1 (Table 02.3). -/
def memEnergy (mem st : Nat) (s : State) : State :=
  if [1, 2, 3, 5, 6, 7, 8, 9, 10].contains mem then energy st 1 (8 + mem) s else s

/-- The error of a word is gone: the word has been rewritten or is no longer read. -/
def odClear (mem st idx : Nat) (s : State) : State :=
  { s with tinker := { s.tinker with
      errors := s.tinker.errors.filter fun e => !(e.mem == mem && e.station == st && e.index == idx) } }

/-- A write of the memory takes the error that TNK_MEMINJ has armed for it (R395). -/
def odPlant (mem st idx : Nat) (s : State) : State :=
  if s.getB Reg.TNK_MEMINJ Fld.TNK_MEMINJ_ARM && s.get Reg.TNK_MEMINJ Fld.TNK_MEMINJ_MEM == mem
      && (mem == 14 || mem == 15 || mem == 17 || s.get Reg.TNK_MEMINJ Fld.TNK_MEMINJ_STATION == st) then
    let parity := mem == 9 || mem == 12 || mem == 15
    let u := parity || mem == 16 || s.getB Reg.TNK_MEMINJ Fld.TNK_MEMINJ_KIND
    let e : OdErr := { mem := mem, station := st, index := idx, uncorr := u }
    { s.put Reg.TNK_MEMINJ Fld.TNK_MEMINJ_ARM 0 with tinker := { s.tinker with errors := s.tinker.errors ++ [e] } }
  else s

/-- A write of word `idx` of an on-die memory: the error that the word held is gone. -/
def odWrite (mem st idx : Nat) (s : State) : State := odPlant mem st idx (odClear mem st idx (memEnergy mem st s))

/-- A write of a part of what the number of a word stands for (log 43): an error in its other parts stays. -/
def odPart (mem st idx : Nat) (s : State) : State := odPlant mem st idx (memEnergy mem st s)

/-- Words of MEM 4 behind the task slots (DESIGN CHOICE, log 43): ordered-release queue q; VOQ v, or 1,160 + class for a
multicast queue; the queue of class c of a local port. -/
def orqWord (q : Nat) : Nat := 2048 + q

def voqWord (v : Nat) : Nat := 4096 + v

def egqWord (i c : Nat) : Nat := 8192 + 8 * i + c

/-- The descriptors of some queues are written (MEM 4). -/
def queuesWrite (st : Nat) (words : List Nat) (s : State) : State := words.foldl (fun s w => odWrite 4 st w s) s

/-- The error that a word of an on-die memory holds. -/
def odError (s : State) (mem st idx : Nat) : Option OdErr :=
  s.tinker.errors.find? fun e => e.mem == mem && e.station == st && e.index == idx

/-! ### Error reports -/

/-- A detected error of class 0 (corrected), 1 (uncorrectable) or 2 (station-fatal) is counted, recorded and written
as an event (R399). -/
def odReport (cls mem st idx : Nat) (s : State) : State :=
  let s := s.tick (Reg.TNK_ERR_CNT_LO cls)
  let st := if mem = 14 ∨ mem = 15 ∨ mem = 17 then 15 else st
  let s := if s.getB Reg.TNK_ERR_LAST0 Fld.TNK_ERR_LAST0_VALID then s
    else
      let s := (s.put Reg.TNK_ERR_LAST0 Fld.TNK_ERR_LAST0_CLASS cls).put Reg.TNK_ERR_LAST0 Fld.TNK_ERR_LAST0_MEM mem
      let s := s.put Reg.TNK_ERR_LAST0 Fld.TNK_ERR_LAST0_STATION st
      (s.raise Reg.TNK_ERR_LAST0 Fld.TNK_ERR_LAST0_VALID).wr Reg.TNK_ERR_LAST1 (BitVec.ofNat 32 idx)
  match cls with
  | 0 =>
    let n := s.tinker.ceSince + 1
    let s := { s with tinker := { s.tinker with ceSince := n } }
    if s.get Reg.TNK_ERR_TH Fld.TNK_ERR_TH_COUNT ≤ n then s.raise Reg.TNK_ERR_EVENT Fld.TNK_ERR_EVENT_CE_TH else s
  | 1 =>
    postEvent 0 0x70 (leBytes 1 mem ++ leBytes 1 st ++ leBytes 4 idx)
      (s.raise Reg.TNK_ERR_EVENT Fld.TNK_ERR_EVENT_UE)
  | _ =>
    postEvent 0 0x71 (leBytes 1 mem ++ leBytes 1 st ++ leBytes 4 idx)
      (s.raise Reg.TNK_ERR_EVENT Fld.TNK_ERR_EVENT_FATAL)

/-- What a reader of a word meets: no error, one corrected and rewritten, or one that is uncorrectable (R396). -/
inductive OdRead where
  | clean | corrected | bad
  deriving DecidableEq, Repr

/-- A word is read: its error is found and reported. A corrected word is rewritten; an uncorrectable error stays where
its reader's containment leaves it, so the word is taken out of the list by the reader's own rule (`odClear`). -/
def odRead (mem st idx : Nat) (s : State) : OdRead × State :=
  let s := memEnergy mem st s
  match odError s mem st idx with
  | none => (.clean, s)
  | some e =>
    if e.uncorr then (.bad, odReport 1 mem st idx s)
    else
      let s := { s with tinker := { s.tinker with errors := s.tinker.errors.filter fun x => x != e } }
      (.corrected, odReport 0 mem st idx s)

end Sys2Proof.Machine
end

