-- ==== Sys2Proof/Machine/Frames.lean ====
section
/-! DEFINITION. A frame as the MACs read it: its length (R7), its tags (R82), its address and size bins (R96); where
ports are formed (R57, R18); the TX timestamp queue (R319). -/
namespace Sys2Proof.Machine

/-! ### Ports -/

/-- Width in lanes of the port whose first lane is p in the layout of its quad; 0 if p is no port's first lane (Table
03.3). -/
def layoutWidth (mode pos : Nat) : Nat :=
  match mode, pos with
  | 0, _ => 1
  | 1, 0 => 2
  | 1, 1 => 0
  | 1, _ => 1
  | 2, 0 => 1
  | 2, 1 => 1
  | 2, 2 => 2
  | 2, _ => 0
  | 3, 0 => 2
  | 3, 2 => 2
  | 4, 0 => 4
  | _, _ => 0

def State.quadMode (s : State) (q : Nat) : Nat := s.get (Reg.STN_QUAD (q / 3) (q % 3)) Fld.STN_QUAD_MODE

/-- Width of the port formed at lane p; 0 if none is. -/
def State.portWidth (s : State) (p : Nat) : Nat := layoutWidth (s.quadMode (p / 4)) (p % 4)

/-- A formed port whose LANE_CFG.EN is 1 (R59). -/
def State.portEn (s : State) (p : Nat) : Bool :=
  decide (s.portWidth p ≠ 0) && s.getB (Reg.LANE_CFG p) Fld.LANE_CFG_EN

/-- A valid unicast destination (R18). -/
def State.validDest (s : State) (d : Nat) : Bool := d == 144 || (decide (d < 144) && s.portEn d)

/-- A port's state under Table 03.4. -/
def State.linkState (s : State) (p : Nat) : Nat := s.get (Reg.LANE_STATUS p) Fld.LANE_STATUS_STATE

/-- UP or HOLD: the MAC sees the link as up (R64). -/
def State.linkUp (s : State) (p : Nat) : Bool := s.linkState p == 4 || s.linkState p == 5

/-- Guild of a port (R333). -/
def State.portGuild (s : State) (p : Nat) : Nat := s.rdN (Reg.HIF_PORT_GUILD (p / 8)) / 2 ^ (4 * (p % 8)) % 8

/-- Rate of a type in Gb/s (Table 03.1). -/
def typeRate (t : Nat) : Nat :=
  match t with
  | 1 => 1
  | 2 => 10
  | 3 => 25
  | 4 => 50
  | 5 | 6 | 7 => 100
  | 8 => 200
  | _ => 1

/-- Rate of a port in Gb/s, by the type in use. -/
def State.portRate (s : State) (p : Nat) : Nat := typeRate (s.get (Reg.LANE_STATUS p) Fld.LANE_STATUS_ACT_TYPE)

/-- Varve time in 1/256 ns. -/
def State.vt (s : State) : Nat := s.varve.t / 2 ^ 36

/-- A station is in full service (R422). -/
def State.full (s : State) (st : Nat) : Bool := (s.get Reg.BOOT_STATUS Fld.BOOT_STATUS_FULL).testBit st

/-- Thaw group of a lane with THAW_EN = 1 (R416). -/
def thawGroup (s : State) (p : Nat) : Option Nat := aget? p s.boot.lanes

/-! ### Bytes -/

/-- Length of a frame (R7). -/
def Frame.len (f : Frame) : Nat := f.bytes.length + 4

/-- Cells or blocks of 256 B that n bytes occupy (R255, R286). -/
def cellsOf (n : Nat) : Nat := (n + 255) / 256

/-- Length after padding (R81). -/
def Frame.padLen (f : Frame) : Nat := max 64 f.len

/-- The bytes padded to 60, so that 64 with the FCS. -/
def padded (bs : List Byte) : List Byte := bs ++ zeros (60 - bs.length)

/-- The outer tag and the type field after at most two tags (R82). -/
structure Tags where
  tagged : Bool
  pcp : Nat
  vid : Nat
  etype : Nat
  /-- Offset of the first byte after the type field. -/
  off : Nat
  deriving DecidableEq, Repr

/-- The TPIDs that the MAC of port p recognises. -/
def macTpids (s : State) (p : Nat) : List Nat :=
  if s.getB (Reg.MAC_TPID p) Fld.MAC_TPID_EXTRA_EN then [0x8100, 0x88A8, s.get (Reg.MAC_TPID p) Fld.MAC_TPID_EXTRA]
  else [0x8100, 0x88A8]

def readTags (tpids : List Nat) (b : List Byte) : Tags :=
  if tpids.contains (be b 12 2) then
    let tci := be b 14 2
    if tpids.contains (be b 16 2) then ⟨true, tci / 8192, tci % 4096, be b 20 2, 22⟩
    else ⟨true, tci / 8192, tci % 4096, be b 16 2, 18⟩
  else ⟨false, 0, 0, be b 12 2, 14⟩

/-- 0 unicast, 1 multicast, 2 broadcast. -/
def daKind (b : List Byte) : Nat :=
  if be b 0 6 = 0xFFFFFFFFFFFF then 2 else if (be b 0 1) % 2 = 1 then 1 else 0

/-- Size bin of Table 04.6, from 0 for 64 B to 9. -/
def sizeBin (n : Nat) : Nat :=
  if n ≤ 64 then 0 else if n ≤ 127 then 1 else if n ≤ 255 then 2 else if n ≤ 511 then 3 else if n ≤ 1023 then 4
  else if n ≤ 1518 then 5 else if n ≤ 2047 then 6 else if n ≤ 4095 then 7 else if n ≤ 9216 then 8 else 9

/-- MAX_LEN as treated (R79). -/
def State.maxLen (s : State) (p : Nat) : Nat := clampNat 1518 16000 (s.get (Reg.MAC_CFG p) Fld.MAC_CFG_MAX_LEN)

/-- MAX_LEN for a frame of port p whose first bit arrived `age` (1/256 ns) ago. -/
def maxLenAt (s : State) (p age : Nat) : Nat :=
  match (s.port p).mac.limits.find? fun e => decide (256 * s.now < 256 * e.1 + age) with
  | some e => e.2
  | none => s.maxLen p

/-- Byte string with n bytes at offset off XORed with a mask in network byte order; bytes that do not exist stay so. -/
def xorAt (off n mask : Nat) (b : List Byte) : List Byte :=
  let m := beBytes n mask
  b.mapIdx fun k x => if off ≤ k ∧ k < off + n then x ^^^ m.getD (k - off) 0#8 else x

/-! ### Loopback (R74) -/

/-- LOOPBACK as treated (Table 03.17). -/
def loopbackOf (w : Word) : Nat :=
  let v := Fld.LANE_TEST_LOOPBACK.of w
  if 3 < v then 0 else v

/-- The port's transmitter feeds its own receiver (Table 03.8); the first lane decides. -/
def nearEnd (s : State) (p : Nat) : Bool :=
  let v := loopbackOf (s.rd (Reg.LANE_TEST p))
  v == 1 || v == 2

/-- The port retransmits what it receives. -/
def farEnd (s : State) (p : Nat) : Bool := loopbackOf (s.rd (Reg.LANE_TEST p)) == 3

/-- Lanes of a port as it was enabled. -/
def portLanes (s : State) (p : Nat) : List Nat := (List.range (s.port p).link.width).map (p + ·)

/-- A generator of the port replaces what it transmits (R73). -/
def generating (s : State) (p : Nat) : Bool :=
  s.linkState p == 6 && (portLanes s p).any fun l => s.getB (Reg.LANE_TEST l) Fld.LANE_TEST_GEN_EN

/-- A lane sends at the balls, unless near-end loopback leaves its transmitter idle there. -/
def laneOut (l : Nat) (o : Output) (s : State) : State :=
  if nearEnd s l && !s.getB (Reg.LANE_TEST l) Fld.LANE_TEST_TX_ON_LB then s else s.emit o

/-- A port sends at the balls, unless a generator has its lanes. -/
def ballOut (p : Nat) (o : Output) (s : State) : State := if generating s p then s else laneOut p o s

/-- A port's MAC sends: at the balls, and in near-end loopback to its own receiver. -/
def lineOut (p : Nat) (o : Output) (s : State) : State :=
  ballOut p o (if nearEnd s p && !generating s p then s.modMac p fun m => { m with loop := m.loop ++ [o] } else s)

/-- The first lane of the port that a lane lies in. -/
def ownerOf (s : State) (l : Nat) : Nat :=
  ((List.range 4).map fun i => l / 4 * 4 + i).find? (fun p => decide (p ≤ l ∧ l < p + s.portWidth p)) |>.getD l

/-- PATTERN as treated (Tables 03.7 and 03.17): the Q patterns exist on PAM4 lanes alone. Which those are follows from the
type in use, and with none in use from the configured one; a port with AN_EN 1 that has no type in use has NRZ lanes,
since LANE_CFG.TYPE is not used then (R56; DESIGN CHOICE, log 140). -/
def patternOf (s : State) (l : Nat) : Nat :=
  let p := ownerOf s l
  let act := s.get (Reg.LANE_STATUS p) Fld.LANE_STATUS_ACT_TYPE
  let c := (s.port p).link.cfg
  let t := if act ≠ 0 then act else if Fld.LANE_CFG_AN_EN.of c = 1 then 0 else Fld.LANE_CFG_TYPE.of c
  match s.get (Reg.LANE_TEST l) Fld.LANE_TEST_PATTERN, t == 4 || t == 5 || t == 6 || t == 8 with
  | 6, true => 6
  | 7, true => 7
  | 6, false => 2
  | v, _ => min 5 v

/-- What the lane's generator sends: a pattern, in TEST with GEN_EN 1. -/
def generated (s : State) (l : Nat) : Option Nat :=
  if s.linkState (ownerOf s l) = 6 ∧ s.getB (Reg.LANE_TEST l) Fld.LANE_TEST_GEN_EN then some (patternOf s l) else none

/-- What the generators of lanes send, of which `was` gives what they sent before: a change shows at the balls (R73). -/
def prbsShow (was : List (Nat × Option Nat)) (s : State) : State :=
  was.foldl (fun s e => if generated s e.1 = e.2 then s else laneOut e.1 (.prbs e.1 (generated s e.1)) s) s

/-! ### The TX timestamp queue -/

def txqInsert (e : TxqEntry) : List TxqEntry → List TxqEntry
  | [] => [e]
  | x :: r => if e.point < x.point then e :: x :: r else x :: txqInsert e r

/-- An entry enters its Guild's queue in the order of the timestamp points, or is lost (R319, R320). `vt` is Varve time at
its point, `point` the instant of it in 1/256 ns of the timebase. -/
def txqPush (g : Nat) (point vt id port : Nat) (s : State) : State :=
  let q := aget [] g s.varve.txq
  if 64 ≤ q.length then (s.raise (Reg.VRV_TXQ_CTL g) Fld.VRV_TXQ_CTL_OVF).tick (Reg.VRV_TXQ_LOST_LO g)
  else
    let e : TxqEntry := { ts := vt / 256 % 2 ^ 32, frac := vt % 256, id := id, port := port, point := point }
    let s := { s with varve := { s.varve with txq := aset g (txqInsert e q) s.varve.txq } }
    s.put (Reg.VRV_TXQ_CTL g) Fld.VRV_TXQ_CTL_COUNT (q.length + 1)

/-- A frame that asked for a timestamp and is discarded before its first bit leaves makes an entry with PORT 254
(R319, R347). -/
def txqDrop (f : Frame) (s : State) : State :=
  match f.txTs with
  | some (g, id) => txqPush g (256 * s.now) s.vt id 254 s
  | none => s

/-- A frame is dropped in a station, of whatever cause: event 12, and the timestamp it asked for. -/
def frameGone (st : Nat) (f : Frame) (s : State) : State := evDrop st f.guild (txqDrop f s)

end Sys2Proof.Machine
end

