-- ==== Sys2Proof/Machine/Buffers.lean ====
section
/-! DEFINITION. The ingress and egress buffers: cells and their charges (R255 to R261, R275 to R277), XOFF and the
pause frames it sends (R260, R90), egress blocks and their charges (R286 to R291). -/
namespace Sys2Proof.Machine

/-- Comparisons with α × a free count, α = 2^(code − 7), code 15 no limit (Table 13.3). -/
def geAlpha (code u free : Nat) : Bool := code != 15 && decide (free * 2 ^ code ≤ u * 128)

def leAlpha (code u free : Nat) : Bool := code == 15 || decide (u * 128 ≤ free * 2 ^ code)

/-! ### Flow control of a port -/

/-- MODE of MAC_FC_CFG as treated (Table 04.4). -/
def fcMode (s : State) (p : Nat) : Nat :=
  let m := s.get (Reg.MAC_FC_CFG p) Fld.MAC_FC_CFG_MODE
  if m = 3 then 0 else m

/-- Whether auto-negotiation decides link pause (R87). -/
def fcFollows (s : State) (p : Nat) : Bool :=
  s.getB (Reg.MAC_FC_CFG p) Fld.MAC_FC_CFG_FOLLOW_AN && (s.port p).link.viaAn

def pauseRxOn (s : State) (p : Nat) : Bool :=
  if fcFollows s p then s.getB (Reg.MAC_FC_STATUS p) Fld.MAC_FC_STATUS_AN_RX
  else s.getB (Reg.MAC_FC_CFG p) Fld.MAC_FC_CFG_PAUSE_RX

def pauseTxOn (s : State) (p : Nat) : Bool :=
  if fcFollows s p then s.getB (Reg.MAC_FC_STATUS p) Fld.MAC_FC_STATUS_AN_TX
  else s.getB (Reg.MAC_FC_CFG p) Fld.MAC_FC_CFG_PAUSE_TX

/-- Class c of port p is lossless (R259). -/
def lossless (s : State) (p c : Nat) : Bool :=
  c != 7 && ((fcMode s p == 2 && (s.get (Reg.MAC_FC_CFG p) Fld.MAC_FC_CFG_PFC_TX_EN).testBit c)
    || (fcMode s p == 1 && pauseTxOn s p))

/-- The device takes part in a pair (R403). Only then does R407 bar a device that is not ACTIVE (DEDUCED, log 23). -/
def mateOn (s : State) : Bool := s.getB Reg.MATE_CTL Fld.MATE_CTL_EN

def mateRole (s : State) : Nat := s.get Reg.MATE_STATUS Fld.MATE_STATUS_ROLE

/-- Received frames are discarded before their token, and no pause frame is sent (R407, R408). -/
def notActive (s : State) : Bool := mateOn s && mateRole s != 2

/-- A frame may be sent: by a device that is not ACTIVE only an injected one, with STBY_INJ (R407), and by a YIELDING one
what it had received before the yield as well (R408). -/
def txMay (s : State) (f : Frame) : Bool :=
  !notActive s || (if f.inj then s.getB Reg.MATE_CFG Fld.MATE_CFG_STBY_INJ else mateRole s == 3)

/-- Preemption is active (R93). -/
def mergeActive (s : State) (p : Nat) : Bool := s.getB (Reg.MAC_MERGE_STATUS p) Fld.MAC_MERGE_STATUS_ACTIVE

/-- MAC_SA, first byte sent first. -/
def macSa (s : State) (p : Nat) : List Byte :=
  beBytes 2 (s.get (Reg.MAC_SA_HI p) Fld.MAC_SA_HI_SA_HI) ++ beBytes 4 (s.rdN (Reg.MAC_SA_LO p))

/-- The MAC may send control frames: its link is up, no remote fault holds it, and the pair does not bar it. -/
def ctlCan (s : State) (p : Nat) : Bool :=
  s.linkUp p && !(s.port p).link.remoteFault && !(s.port p).link.stopping && !notActive s

/-- The frames of a class queue, oldest first. -/
def egrQueue (s : State) (p c : Nat) : List EFrame := aget [] c (s.port p).egr.queues

/-- The preemptable MAC is between frames, or holds one that waits to resume. -/
def preemptIdle (m : Mac) : Bool :=
  match m.txPreempt with
  | none => true
  | some t => t.held

/-- A control frame may begin: the express MAC is idle, and while a class-7 frame waits the frame before it was no control
frame (R90). -/
def ctlMay (s : State) (p : Nat) : Bool :=
  let m := (s.port p).mac
  ctlCan s p && m.txExpress.isNone && preemptIdle m && (decide (m.ctlUntil ≤ s.now) || (egrQueue s p 7).isEmpty)

/-- A pause or PFC frame leaves through the express MAC, where it takes 84 B of wire time (R90). It counts as a frame
transmitted (DEDUCED, log 24). -/
def ctlSend (p : Nat) (c : CtlFrame) (s : State) : State :=
  let b := padded (beBytes 6 0x0180C2000001 ++ macSa s p ++ [0x88#8, 0x08#8] ++ c.body)
  let s := energy (stationOf p) 2 2 (lineOut p (.frame p b true) s)
  let s := macStat p 41 64 (macStat p 42 1 (macStat p 44 1 (macStat p 62 1 s)))
  let s := if mergeActive s p then macStat p 59 1 s else s
  let s := s.modMac p fun m => { m with ctlUntil := s.now + (671 + s.portRate p) / s.portRate p }
  match c.pfc with
  | none => macStat p 49 1 s
  | some on => (List.range 8).foldl (fun s c => if on.testBit c then macStat p (50 + c) 1 s else s) s

/-- Control frames leave in order, as far as they may; the others wait. -/
def ctlRun (p : Nat) : List CtlFrame → State → State
  | [], s => s.modMac p fun m => { m with ctl := [] }
  | c :: r, s =>
    if ctlMay s p then ctlRun p r (ctlSend p c s) else s.modMac p fun m => { m with ctl := c :: r }

/-- The control frames that wait at a port leave, as far as they may. -/
def ctlDrain (p : Nat) (s : State) : State :=
  if (s.port p).mac.ctl.isEmpty then s else ctlRun p (s.port p).mac.ctl s

/-- A control frame is to be sent: at once, or behind those that wait. -/
def ctlQueue (p : Nat) (c : CtlFrame) (s : State) : State :=
  if ctlCan s p then ctlRun p ((s.port p).mac.ctl ++ [c]) s else s

/-- A link pause frame with a pause time. -/
def pauseSend (p quanta : Nat) (s : State) : State := ctlQueue p { body := [0#8, 1#8] ++ beBytes 2 quanta } s

/-- The bit vector with bit c set where f c holds, for c below 8. -/
def mask8 (f : Nat → Bool) : Nat := (List.range 8).foldl (fun a c => if f c then a + 2 ^ c else a) 0

/-- A PFC frame: the classes of `on` with the pause time, those of `off` with 0. -/
def pfcSend (p on off : Nat) (s : State) : State :=
  let q := s.get (Reg.MAC_FC_TIME p) Fld.MAC_FC_TIME_QUANTA
  let times := (List.range 8).flatMap fun c => beBytes 2 (if on.testBit c then q else 0)
  ctlQueue p { body := [1#8, 1#8] ++ beBytes 2 (on ||| off) ++ times, pfc := some on } s

/-- What the MAC sends when the classes in XOFF change (R90). A class that leaves XOFF because it is no longer lossless
is named in no frame (DEDUCED, log 24). -/
def xoffChanged (p old new : Nat) (s : State) : State :=
  match fcMode s p with
  | 1 =>
    if old = 0 ∧ new ≠ 0 then pauseSend p (s.get (Reg.MAC_FC_TIME p) Fld.MAC_FC_TIME_QUANTA) s
    else if old ≠ 0 ∧ new = 0 ∧ pauseTxOn s p then pauseSend p 0 s else s
  | 2 =>
    let en := s.get (Reg.MAC_FC_CFG p) Fld.MAC_FC_CFG_PFC_TX_EN
    let off := mask8 fun c => old.testBit c && !new.testBit c && en.testBit c
    if new ||| off = 0 then s else pfcSend p new off s
  | _ => s

/-! ### Ingress pools -/

/-- Size of SHARED (Table 13.1). -/
def ingSharedSize (s : State) (st : Nat) : Nat :=
  32768 - 3560 - min 4096 (s.get (Reg.SWC_CFG st) Fld.SWC_CFG_XRES)
    - ((List.range 12).map fun i => s.get (Reg.SWC_HEADROOM st i) Fld.SWC_HEADROOM_HEAD).sum

def ingSharedFree (s : State) (st : Nat) : Nat := ingSharedSize s st - (s.stn st).core.sharedUsed

/-- Free cells (R277). -/
def cellsFree (s : State) (st : Nat) : Nat := 32768 - (s.stn st).core.taken.length

/-- The classes of local port i in XOFF. -/
def xoffMask (s : State) (st i : Nat) : Nat := s.get (Reg.SWC_PORT_STATUS st i) Fld.SWC_PORT_STATUS_XOFF

/-- Whether (i, c) is in XOFF after the thresholds of R260 are compared. A station that drains holds every lossless
class in XOFF (R283). -/
def xoffNext (s : State) (st i c : Nat) : Bool :=
  lossless s (12 * st + i) c &&
    ((s.stn st).draining ||
      (let u := aget 0 (8 * i + c) (s.stn st).core.u
       let free := ingSharedFree s st
       let code := s.get (Reg.SWC_PFC_CFG st) Fld.SWC_PFC_CFG_ALPHA
       if (xoffMask s st i).testBit c then
         !leAlpha code (u + s.get (Reg.SWC_PFC_CFG st) Fld.SWC_PFC_CFG_XON_DELTA) free
       else geAlpha code u free))

def popcount8 (m : Nat) : Nat := ((List.range 8).filter fun c => m.testBit c).length

/-- XOFF of one port follows its thresholds. -/
def xoffPort (st i : Nat) (s : State) : State :=
  let old := xoffMask s st i
  let new := mask8 fun c => xoffNext s st i c
  if new = old then s
  else
    let s := s.cnt (Reg.SWC_CNT_LO st 15) (popcount8 (mask8 fun c => new.testBit c && !old.testBit c))
    let s := s.put (Reg.SWC_PORT_STATUS st i) Fld.SWC_PORT_STATUS_XOFF new
    let s := s.put (Reg.MAC_FC_STATUS (12 * st + i)) Fld.MAC_FC_STATUS_TX_XOFF new
    xoffChanged (12 * st + i) old new s

/-- XOFF of every port of a station that has flow control, or holds a class in XOFF. -/
def xoffUpdate (st : Nat) (s : State) : State :=
  (List.range 12).foldl (fun s i =>
    if fcMode s (12 * st + i) = 0 ∧ xoffMask s st i = 0 then s else xoffPort st i s) s

/-! ### Cells -/

/-- What a frame in reassembly holds of its cells, as a frame. -/
def Reasm.frame (p : Nat) (r : Reasm) : Frame := { bytes := r.bytes, inPort := p, cells := r.arrival.cells }

/-- The frames in reassembly at a station's ports (R95), with their ports. -/
def partFrames (s : State) (st : Nat) : List Frame :=
  s.ports.filterMap fun e => if stationOf e.1 = st then e.2.mac.reasm.map (Reasm.frame e.1) else none

/-- f at what a port holds in reassembly. -/
def mapPart (f : Frame → Frame) (p : Nat) (x : PortSt) : PortSt :=
  { x with mac := { x.mac with reasm := x.mac.reasm.map fun r =>
      let g := f (r.frame p)
      { r with bytes := g.bytes, arrival := { r.arrival with cells := g.cells } } } }

/-- f at every frame that the station holds in cells (R280). -/
def mapFrames (st : Nat) (f : Frame → Frame) (s : State) : State :=
  let xs (l : List XFrame) : List XFrame := l.map fun x => { x with frame := f x.frame }
  let s := s.modTasks st fun t =>
    { t with slots := t.slots.map fun e => (e.1, { e.2 with frame := f e.2.frame })
             laneX := t.laneX.map f
             laneN := t.laneN.map f }
  let s := s.modCore st fun c =>
    { c with voqs := c.voqs.map fun e => (e.1, xs e.2)
             mcqs := c.mcqs.map fun e => (e.1, xs e.2)
             contexts := c.contexts.map fun e => (e.1, { e.2 with xf := { e.2.xf with frame := f e.2.xf.frame } }) }
  let held := s.tinker.heldRx.map fun h => if stationOf h.port = st then { h with frame := f h.frame } else h
  { s with tinker := { s.tinker with heldRx := held }
           ports := s.ports.map fun e => if stationOf e.1 = st then (e.1, mapPart f e.1 e.2) else e }

/-- Every frame that the station holds in cells, with its holder's code (Table 14.4) and queue. -/
def heldFrames (s : State) (st : Nat) : List (Nat × Nat × Frame) :=
  let n := s.stn st
  n.tasks.slots.map (fun e => (1, 0, e.2.frame))
    ++ (n.tasks.laneX ++ n.tasks.laneN ++ partFrames s st).map (fun f => (0, 0, f))
    ++ (s.tinker.heldRx.filter fun h => stationOf h.port == st).map (fun h => (0, 0, h.frame))
    ++ n.core.voqs.flatMap (fun e => e.2.map fun x => (2, e.1, x.frame))
    ++ n.core.mcqs.flatMap (fun e => e.2.map fun x => (3, 1160 + e.1, x.frame))
    ++ n.core.contexts.flatMap (fun e => if e.2.xf.kind ≠ .mcCopy then [(4, 0, e.2.xf.frame)] else [])

/-- A frame's bytes of cell c after the cell has been given to another frame: free values (R276). -/
def Frame.corrupt (c draw : Nat) (f : Frame) : Frame :=
  if f.cells.contains c then
    let k := f.cells.idxOf c
    { f with bytes := f.bytes.mapIdx fun j b =>
        if 256 * k ≤ j ∧ j < 256 * k + 256 then BitVec.ofNat 8 (Config.cellByte draw j) else b }
  else f

def touch (st c : Nat) (s : State) : State :=
  s.modStn st fun n =>
    if n.sweep.running then { n with sweep := { n.sweep with touched := sinsert c n.sweep.touched } } else n

/-- A cell is taken from the bitmap: any free one (R275), for event 13 of Table 21.5 and accumulator 1 (R50). A frame
that still chains it loses its data there (R276). The writes of its data and of its chain pointer take a planted error
(R395). -/
def takeCell (st : Nat) (s : State) : Nat × State :=
  let n := cellsFree s st
  let low := s.get (Reg.CEL_WARN st) Fld.CEL_WARN_LOW
  let (k, s) := s.drawNat
  let c := freeFrom (s.stn st).core.taken 0 32768 k
  let s := touch st c (s.modCore st fun x => { x with taken := sinsert c x.taken })
  let s := if (heldFrames s st).any fun e => e.2.2.cells.contains c then
      mapFrames st (Frame.corrupt c s.fresh) { s with fresh := s.fresh + 1 }
    else s
  let s := energy st 1 3 (evCount st 13 1 none (odWrite 2 st c (odWrite 1 st (32 * c) s)))
  (c, if n = low then s.raise (Reg.MOR_EVENT st) Fld.MOR_EVENT_CELL_LOW else s)

def takeCells (st : Nat) : Nat → State → List Nat × State
  | 0, s => ([], s)
  | n + 1, s =>
    let (c, s) := takeCell st s
    let (r, s) := takeCells st n s
    (c :: r, s)

/-- A cell's bit is set, whatever it held (R276). -/
def freeCell (st : Nat) (s : State) (c : Nat) : State :=
  touch st c (s.modCore st fun x => { x with taken := x.taken.filter (· != c) })

/-! ### Charges -/

/-- Cells are charged to SHARED for (port, class); U(i, c) counts them for a frame received from a port (R260). -/
def chargeShared (st inPort cls n : Nat) (s : State) : State :=
  s.modCore st fun c =>
    { c with sharedUsed := c.sharedUsed + n
             u := if inPort < 144 then aadd (8 * localOf inPort + cls) n c.u else c.u }

def chargeHead (st i n : Nat) (s : State) : State :=
  let s := s.modCore st fun c => { c with headUsed := aadd i n c.headUsed }
  s.put (Reg.SWC_PORT_STATUS st i) Fld.SWC_PORT_STATUS_HEAD_USED (min 1023 (aget 0 i (s.stn st).core.headUsed))

/-- Every charge of a frame is given back. -/
def unchargeFrame (st : Nat) (f : Frame) (s : State) : State :=
  let i := localOf f.inPort
  let s := s.modCore st fun c =>
    { c with sharedUsed := c.sharedUsed - f.chShared
             expUsed := c.expUsed - f.chExp
             injUsed := c.injUsed - f.chInj
             growthUsed := c.growthUsed - f.growth
             headUsed := asub i f.chHead c.headUsed
             u := if f.inPort < 144 then asub (8 * i + f.cls) f.chShared c.u else c.u }
  if f.chHead = 0 then s
  else s.put (Reg.SWC_PORT_STATUS st i) Fld.SWC_PORT_STATUS_HEAD_USED (min 1023 (aget 0 i (s.stn st).core.headUsed))

/-- A frame's cells and charges are given back (R255, R276). -/
def freeFrame (st : Nat) (f : Frame) (s : State) : State :=
  xoffUpdate st (unchargeFrame st f (f.cells.foldl (freeCell st) s))

/-- A frame held in cells is dropped. -/
def dropFrame (st : Nat) (f : Frame) (s : State) : State := frameGone st f (freeFrame st f s)

/-- One more cell of a frame that is arriving at local port i: charged to SHARED while that has a free cell, else to the
receive reserve of the port (R258). -/
def arriveCell (st i : Nat) (a : Arrival) (s : State) : Arrival × State :=
  let shared := decide (0 < ingSharedFree s st)
  let (c, s) := takeCell st s
  let s := s.modCore st fun x =>
    if shared then { x with sharedUsed := x.sharedUsed + 1 } else { x with rsvUsed := aadd i 1 x.rsvUsed }
  ({ cells := a.cells ++ [c], shared := a.shared + shared.toNat, reserve := a.reserve + (!shared).toNat }, s)

def arriveCells (st i : Nat) : Nat → Arrival → State → Arrival × State
  | 0, a, s => (a, s)
  | n + 1, a, s =>
    let (a, s) := arriveCell st i a s
    arriveCells st i n a s

/-- n bytes of a frame have arrived: it has the cells that hold them, or what the bitmap could give (R76). -/
def arrive (st i n : Nat) (a : Arrival) (s : State) : Arrival × State :=
  let (a, s) := arriveCells st i (min (cellsOf n - a.cells.length) (cellsFree s st)) a s
  (a, xoffUpdate st s)

/-- The charges of a frame that was arriving are given back. -/
def unarrive (st i : Nat) (a : Arrival) (s : State) : State :=
  s.modCore st fun x => { x with sharedUsed := x.sharedUsed - a.shared, rsvUsed := asub i a.reserve x.rsvUsed }

/-- A frame that was arriving is dropped: its cells are freed (R76). -/
def arrivalFree (st i : Nat) (a : Arrival) (s : State) : State :=
  xoffUpdate st (unarrive st i a (a.cells.foldl (freeCell st) s))

/-- Where Table 13.2 charges n cells of (i, c): to the express reserve, to headroom, to SHARED; none where the pools
cannot take them. -/
def ingressSplit (s : State) (st i c n : Nat) : Option (Nat × Nat × Nat) :=
  let core := (s.stn st).core
  if c = 7 then
    let x := min n (min 4096 (s.get (Reg.SWC_CFG st) Fld.SWC_CFG_XRES) - core.expUsed)
    if n - x ≤ ingSharedFree s st then some (x, 0, n - x) else none
  else if (xoffMask s st i).testBit c && lossless s (12 * st + i) c then
    let h := min n (s.get (Reg.SWC_HEADROOM st i) Fld.SWC_HEADROOM_HEAD - aget 0 i core.headUsed)
    if n - h ≤ ingSharedFree s st then some (0, h, n - h) else none
  else if n ≤ ingSharedFree s st then some (0, 0, n) else none

/-- A lossless class is in XOFF: headroom takes its frames (row 2 of Table 13.2). -/
def inHeadroom (s : State) (st i c : Nat) : Bool := (xoffMask s st i).testBit c && lossless s (12 * st + i) c

/-- The drop of a frame that Table 13.2 cannot charge; `head`: its row was the second. -/
def ingressRefused (st i c : Nat) (head : Bool) (f : Frame) (s : State) : State :=
  let s :=
    if c = 7 then s.tick (Reg.SWC_CNT_LO st 4)
    else if head then
      ((s.tick (Reg.SWC_CNT_LO st 5)).tick (Reg.SWC_PCNT_LO st i 1)).raise (Reg.SWC_EVENT st) Fld.SWC_EVENT_HEADROOM_OVF
    else
      ((s.tick (Reg.SWC_CNT_LO st 3)).tick (Reg.SWC_PCNT_LO st i 0)).raise (Reg.SWC_EVENT st) Fld.SWC_EVENT_NO_CELL
  frameGone st f s

/-- A frame of local port i whose checks are complete, with the cells it has arrived in, is recharged (R258), or dropped:
the frame as charged, if it is kept. -/
def ingressCharge (st i : Nat) (a : Arrival) (f : Frame) (s : State) : Option Frame × State :=
  let n := cellsOf f.len
  let refuse (s : State) : Option Frame × State :=
    (none, ingressRefused st i f.cls (inHeadroom s st i f.cls) f (xoffUpdate st (a.cells.foldl (freeCell st) s)))
  let s := unarrive st i a s
  match ingressSplit s st i f.cls n with
  | none => refuse s
  | some (x, h, sh) =>
    if a.cells.length < n then refuse s
    else
      let s := s.modCore st fun c => { c with expUsed := c.expUsed + x }
      let s := if h = 0 then s else chargeHead st i h s
      let s := chargeShared st f.inPort f.cls sh s
      let s := s.tick (Reg.SWC_CNT_LO st 0)
      (some { f with cells := a.cells, chShared := sh, chHead := h, chExp := x }, xoffUpdate st s)

/-! ### Egress blocks -/

def egrMin (s : State) (p : Nat) : Nat :=
  min 256 (s.get (Reg.EGR_PORT_CFG (stationOf p) (localOf p)) Fld.EGR_PORT_CFG_MIN)

def egrXres (s : State) (st : Nat) : Nat := min 1024 (s.get (Reg.EGR_CFG st) Fld.EGR_CFG_XRES)

/-- Size of SHARED (Table 15.1). -/
def egrSharedSize (s : State) (st : Nat) : Nat :=
  6144 - egrXres s st - ((List.range 12).map fun i => egrMin s (12 * st + i)).sum

def egrSharedFree (s : State) (st : Nat) : Nat := egrSharedSize s st - (s.stn st).egress.sharedUsed

def setEgrQueue (p c : Nat) (q : List EFrame) (s : State) : State :=
  s.modEgr p fun e => { e with queues := if q.isEmpty then adel c e.queues else aset c q e.queues }

/-- The frames in transmission at a port. -/
def inTransmission (s : State) (p : Nat) : List EFrame :=
  let m := (s.port p).mac
  (m.txExpress.toList ++ m.txPreempt.toList).map TxFrame.ef

/-- Q(i, c): blocks of the frames queued or in transmission (DEDUCED, log 25). -/
def egrDepth (s : State) (p c : Nat) : Nat :=
  ((egrQueue s p c ++ (inTransmission s p).filter fun e => e.tc == c).map EFrame.blocks).sum

/-- An express charge of n blocks: to the express reserve, the excess to SHARED; none where there is no room
(R288). -/
def egrExpSplit (s : State) (st n : Nat) : Option (Nat × Nat) :=
  let x := min n (egrXres s st - (s.stn st).egress.expUsed)
  if n - x ≤ egrSharedFree s st then some (x, n - x) else none

/-- A unicast charge of class 0 to 6 for port p (R287): to the port minimum, and to SHARED. -/
def egrSplit (s : State) (p n : Nat) : Nat × Nat :=
  let m := min n (egrMin s p - aget 0 (localOf p) (s.stn (stationOf p)).egress.minUsed)
  (m, n - m)

/-- Whether R287 admits n blocks of class c for port p. -/
def egrAdmits (s : State) (p c n : Nat) : Bool :=
  let e := (s.stn (stationOf p)).egress
  let free := egrSharedFree s (stationOf p)
  decide (aget 0 (localOf p) e.portUsed + n ≤ egrMin s p)
    || (decide (n ≤ free) && leAlpha (s.get (Reg.EGR_CLASS (stationOf p) (localOf p) c) Fld.EGR_CLASS_ALPHA)
          (egrDepth s p c + n) free)

/-- Blocks are charged for a frame of class c of port p. -/
def egrCharge (p c mn sh x : Nat) (s : State) : State :=
  s.modEgress (stationOf p) fun e =>
    { e with expUsed := e.expUsed + x
             sharedUsed := e.sharedUsed + sh
             minUsed := aadd (localOf p) mn e.minUsed
             portUsed := if c = 7 then e.portUsed else aadd (localOf p) (mn + sh) e.portUsed }

/-- A frame's blocks are given back (R290); those of a stored copy when its last port is done with it (R289). -/
def egrRelease (p : Nat) (ef : EFrame) (s : State) : State :=
  s.modEgress (stationOf p) fun e =>
    match ef.copy with
    | none =>
      { e with expUsed := e.expUsed - ef.chExp
               sharedUsed := e.sharedUsed - ef.chShared
               minUsed := asub (localOf p) ef.chMin e.minUsed
               portUsed := if ef.tc = 7 then e.portUsed else asub (localOf p) (ef.chMin + ef.chShared) e.portUsed }
    | some k =>
      match aget? k e.copies with
      | none => e
      | some c =>
        if c.left ≤ 1 then
          { e with copies := adel k e.copies, sharedUsed := e.sharedUsed - c.sharedCh, expUsed := e.expUsed - c.expCh }
        else { e with copies := aset k { c with left := c.left - 1 } e.copies }

def pcnt (p k : Nat) (s : State) : State := s.tick (Reg.EGR_PCNT_LO (stationOf p) (localOf p) k)

/-- A frame of the egress buffer is discarded. -/
def egrDiscard (p : Nat) (s : State) (ef : EFrame) : State := frameGone (stationOf p) ef.frame (egrRelease p ef s)

/-- A frame is discarded because its port is down (R291). -/
def downDiscard (p : Nat) (s : State) (ef : EFrame) : State := egrDiscard p (pcnt p 1 s) ef

/-- Every frame queued for a port that is not UP or HOLD, set aside by an injector, or waiting to resume, is discarded
(R291, R393). A frame in transmission ends as it may (DEDUCED, log 26). -/
def portDiscard (p : Nat) (s : State) : State :=
  let m := (s.port p).mac
  let held := match m.txPreempt with
    | some t => if t.held then [t.ef] else []
    | none => []
  let queued := (s.port p).egr.queues.flatMap Prod.snd
  let aside := (s.tinker.heldTx.filter fun h => h.port == p).map HeldTx.ef
  let words := (s.port p).egr.queues.map fun q => egqWord (localOf p) q.1
  let s := queuesWrite (stationOf p) words (s.modEgr p fun e => { e with queues := [], headF := [] })
  let s := if held.isEmpty then s else s.modMac p fun m => { m with txPreempt := none }
  let s := { s with tinker := { s.tinker with heldTx := s.tinker.heldTx.filter fun h => h.port != p } }
  (queued ++ aside ++ held).foldl (downDiscard p) s

end Sys2Proof.Machine
end

