-- ==== Sys2Proof/Machine/Access.lean ====
section
/-! DEFINITION. A write of a word to a register by its access codes (Table 00.5, R433), with nothing of what its block
does besides. -/
namespace Sys2Proof.Machine

/-- What a field holds after a write (Table 00.5). -/
def Field.stored (f : Field) (locked : Bool) (old new : Nat) : Nat :=
  match f.acc with
  | .rw => new
  | .rws => new
  | .ro => old
  | .rc => old
  | .wo => old
  | .w1c => old &&& (2 ^ f.w - 1 - new)
  | .w1s => old ||| new
  | .rwl => if locked then old else new

/-- The word after a write, over the fields of the register. -/
def storeWord (fs : List Field) (locked : Bool) (old new : Word) : Word :=
  fs.foldl (fun w f => f.into w (f.stored locked (f.of old) (f.of new))) old

/-- Whether the commit bit that locks a register's RWL fields is set (R433). -/
def commitLocked (s : State) (h : RegHit) : Bool :=
  match h.reg.commit with
  | some o => (s.rd (h.inst + o)).toNat.testBit 31
  | none => false

/-- The register at an address takes a word; a reserved address takes none (R428). -/
def State.store (s : State) (a : Nat) (v : Word) : State :=
  match regAt a with
  | some h => s.wr a (storeWord h.reg.fields (commitLocked s h) (s.rd a) v)
  | none => s

/-- As `store`, but a field keeps what it holds. -/
def State.storeBut (s : State) (a : Nat) (f : Field) (v : Word) : State :=
  s.store a (f.into v (f.of (s.rd a)))

/-- A read of a low word latches its high word for the requester (R10). The latch belongs to the low word's address. -/
def State.latch (s : State) (req : Requester) (lo : Nat) (w : Word) : State :=
  let k : LatchKey := ⟨req, lo⟩
  { s with latches := (k, w) :: s.latches.filter fun e => e.1 != k }

/-! ### Set-up in force (R421) -/

/-- What a set-up register has in force: a write that Thaw service has only stored is not yet. -/
def State.inForce (s : State) (a : Nat) : Nat := ((aget? a s.boot.inForce).getD (s.rd a)).toNat

/-- A field of a set-up register as in force. -/
def State.cfg (s : State) (a : Nat) (f : Field) : Nat := s.inForce a / 2 ^ f.lo % 2 ^ f.w

def State.cfgB (s : State) (a : Nat) (f : Field) : Bool := s.cfg a f != 0

end Sys2Proof.Machine
end

