-- ==== Sys2Proof/Machine/Links.lean ====
section
/-! DEFINITION. What the link, MAC and scheduler of a port share: the merge sublayer's EN and verification (R92, R93),
entry to UP and what leaving UP and HOLD takes with it (R61, R64, R70, R291, R294), the start state (R62). -/
namespace Sys2Proof.Machine

/-! ### Merge sublayer -/

def verifyDis (s : State) (p : Nat) : Bool := s.getB (Reg.MAC_MERGE_CFG p) Fld.MAC_MERGE_CFG_VERIFY_DIS

/-- EN as last written. -/
def mergeEnCfg (s : State) (p : Nat) : Bool := s.getB (Reg.MAC_MERGE_CFG p) Fld.MAC_MERGE_CFG_EN

def verifyState (s : State) (p : Nat) : Nat := s.get (Reg.MAC_MERGE_STATUS p) Fld.MAC_MERGE_STATUS_VERIFY

def setVerify (p v : Nat) (s : State) : State := s.put (Reg.MAC_MERGE_STATUS p) Fld.MAC_MERGE_STATUS_VERIFY v

/-- ACTIVE follows R93; while a write of EN waits for the last fragment of a frame it keeps its value. -/
def activeUpdate (p : Nat) (s : State) : State :=
  let en := (s.port p).mac.mergeEn
  if en != mergeEnCfg s p || (s.port p).mac.mergeRise then s
  else s.putB (Reg.MAC_MERGE_STATUS p) Fld.MAC_MERGE_STATUS_ACTIVE
    (en && s.linkUp p && (verifyState s p == 3 || verifyDis s p))

/-- A verify mPacket is sent. -/
def verifySend (p : Nat) (s : State) : State :=
  (lineOut p (.verify p) s).modMac p fun m => { m with verifyTries := m.verifyTries + 1 }

/-- Verification starts at once, waits for UP, or is not made (R92). -/
def verifyStart (p : Nat) (s : State) : State :=
  let s := s.modMac p fun m => { m with verifyTries := 0 }
  let s :=
    if !(s.port p).mac.mergeEn || verifyDis s p then setVerify p 0 s
    else if s.linkUp p then verifySend p (setVerify p 2 s)
    else setVerify p 1 s
  activeUpdate p s

/-- A written EN takes effect once no preemptable frame is partly sent (R93); a 0-to-1 write brings a verification, though
a write before it that waited as well had set EN to 0 (R92). A frame in reassembly stays open when EN goes
to 0, which R95 leaves open (DESIGN CHOICE, log 121). -/
def mergeSettle (p : Nat) (s : State) : State :=
  let m := (s.port p).mac
  if m.txPreempt.isSome || (m.mergeEn == mergeEnCfg s p && !m.mergeRise) then s
  else verifyStart p (s.modMac p fun m => { m with mergeEn := mergeEnCfg s p, mergeRise := false })

/-! ### Leaving and entering UP -/

/-- A frame in reassembly is dropped, for event 12, and its cells are freed. -/
def reasmDrop (p : Nat) (s : State) : State :=
  match (s.port p).mac.reasm with
  | some r =>
    evDrop (stationOf p) (s.portGuild p)
      (arrivalFree (stationOf p) (localOf p) r.arrival (s.modMac p fun m => { m with reasm := none }))
  | none => s

/-- The part of a frame in reassembly at a port that leaves UP is discarded whole (R61). -/
def reasmLost (p : Nat) (s : State) : State :=
  if (s.port p).mac.reasm.isSome then macStat p 13 1 (reasmDrop p s) else s

/-- What a port loses when it is no longer UP or HOLD: its latencies (R70), what it was receiving (R61), its queued
frames (R291), verification (Table 04.5). LOCKED reads 0 until it is UP again (DESIGN CHOICE, log 32). Pause times in
force stay, which R88 leaves open (DESIGN CHOICE, log 122). -/
def linkLeft (p : Nat) (s : State) : State :=
  let s := (portLanes s p).foldl (fun s l => s.put (Reg.LANE_STATUS l) Fld.LANE_STATUS_LAT_VALID 0) s
  let s := s.put (Reg.LANE_STATUS p) Fld.LANE_STATUS_LOCKED 0
  let s := mergeSettle p (portDiscard p (reasmLost p s))
  let s := (s.modLink p fun l => { l with remoteFault := false }).modMac p fun m => { m with loop := [], ctl := [] }
  let s := setVerify p (if (s.port p).mac.mergeEn && !verifyDis s p then 1 else 0) s
  activeUpdate p s

def setLinkState (p v : Nat) (s : State) : State := s.put (Reg.LANE_STATUS p) Fld.LANE_STATUS_STATE v

/-- The port's state changes to one in which the MAC sees the link down. Its generators begin as it enters TEST, and
end as it leaves it. -/
def goDown (p v : Nat) (s : State) : State :=
  let was := s.linkUp p
  let sent := (portLanes s p).map fun l => (l, generated s l)
  let s := (setLinkState p v s).modLink p fun l => { l with holdoff := false, stopping := false }
  let s := prbsShow sent s
  if was then linkLeft p s else s

/-- The checkers of a port's lanes hold no lock. -/
def checkersOff (p : Nat) (s : State) : State :=
  (portLanes s p).foldl (fun s l => s.put (Reg.LANE_TEST l) Fld.LANE_TEST_CHK_LOCK 0) s

/-- State OFF: the lanes are powered down (R59), and the type in use reads 0. -/
def goOff (p : Nat) (s : State) : State :=
  let s := checkersOff p (goDown p 0 s)
  let s := (s.put (Reg.LANE_STATUS p) Fld.LANE_STATUS_ACT_TYPE 0).put (Reg.LANE_STATUS p) Fld.LANE_STATUS_ACT_FEC 0
  s.modLink p fun l => { l with viaAn := false }

/-- A generator, a checker or far-end loopback keeps the port in TEST (Table 03.4). -/
def testWanted (s : State) (p : Nat) : Bool :=
  (portLanes s p).any fun l =>
    let w := s.rd (Reg.LANE_TEST l)
    Fld.LANE_TEST_GEN_EN.of w != 0 || Fld.LANE_TEST_CHK_EN.of w != 0 || loopbackOf w == 3

/-- The start state of a port's sampled configuration (R62). -/
def startState (s : State) (p : Nat) : Nat :=
  let c := (s.port p).link.cfg
  if Fld.LANE_CFG_AN_EN.of c = 1 then 1
  else if Fld.LANE_CFG_TRAIN_EN.of c = 1 ∧ Fld.LANE_CFG_TYPE.of c ≠ 1 then 2 else 3

/-- The port's reference is present and within limits (R69). -/
def refOk (s : State) (p : Nat) : Bool := s.getB (Reg.LANE_STATUS p) Fld.LANE_STATUS_REFOK

/-- Ability bits that name a type of a width, in Clause 73's order of priority, highest first, with their types
(Table 03.5). -/
def abilities (width : Nat) : List (Nat × Nat) :=
  match width with
  | 1 => [(16, 5), (13, 4), (10, 3), (9, 3), (2, 2), (0, 1)]
  | 2 => [(14, 6)]
  | 4 => [(15, 8), (7, 7)]
  | _ => []

/-- A port's own base page as its partner reads it, in the layout of LANE_AN_LP (R66): the fields as sampled, and the
abilities that name a type of its width. -/
def anOwn (s : State) (p : Nat) : Word :=
  let l := (s.port p).link
  let named := ((abilities l.width).map fun e => 2 ^ e.1).sum
  Fld.LANE_AN_LP_ABILITY.into (Fld.LANE_AN_LP_FEC_BITS.into (Fld.LANE_AN_LP_PAUSE.into 0#32
    (Fld.LANE_AN_ADV_PAUSE.of l.adv)) (Fld.LANE_AN_ADV_FEC_BITS.of l.adv)) (Fld.LANE_AN_ADV_ABILITY.of l.adv &&& named)

/-- The base page that a port in AN sends (R66): the ability bits that name a type of its width, F0 to F3, C0 and C1, as
sampled. A port whose reference is lost sends nothing (R69). -/
def anSend (p : Nat) (s : State) : State :=
  let l := (s.port p).link
  let named := ((abilities l.width).map fun e => 2 ^ e.1).sum
  if s.linkState p = 1 ∧ refOk s p then
    ballOut p (.anPage p (Fld.LANE_AN_ADV_ABILITY.into l.adv (Fld.LANE_AN_ADV_ABILITY.of l.adv &&& named))) s
  else s

/-- A lane's coefficients are those last written, where training has replaced them (R63). -/
def txeqWritten (s : State) (l : Nat) : State :=
  match (s.port l).link.txeq with
  | some w => (s.wr (Reg.LANE_TXEQ l) w).modLink l fun x => { x with txeq := none }
  | none => s

/-- The port goes to TRAIN, or to ALIGN without training, with the coefficients as written (R63). -/
def goTrainOrAlign (p st : Nat) (s : State) : State := setLinkState p st ((portLanes s p).foldl txeqWritten s)

/-- The port enters its start state: AN forgets that the partner's page is valid, and the type in use, and begins to
send its own; else the configured type and FEC are in use. -/
def goStart (p : Nat) (s : State) : State :=
  let st := startState s p
  let s := goDown p st s
  let a := Reg.LANE_STATUS p
  if st = 1 then
    let s := ((s.put a Fld.LANE_STATUS_ACT_TYPE 0).put a Fld.LANE_STATUS_ACT_FEC 0).put (Reg.LANE_AN_LP p) Fld.LANE_AN_LP_VALID 0
    anSend p (s.modLink p fun l => { l with viaAn := false })
  else
    let c := (s.port p).link.cfg
    goTrainOrAlign p st
      ((s.put a Fld.LANE_STATUS_ACT_TYPE (Fld.LANE_CFG_TYPE.of c)).put a Fld.LANE_STATUS_ACT_FEC (Fld.LANE_CFG_FEC.of c))

/-- TEST where a generator, a checker or far-end loopback asks for it, with the coefficients as written (R63), else the
start state; a port whose reference is lost stops in its start state (R69). In TEST no type is in use: ACT_TYPE and
ACT_FEC stay 0 (DESIGN CHOICE, log 140). -/
def goStartOrTest (p : Nat) (s : State) : State :=
  if testWanted s p && refOk s p then goDown p 6 ((portLanes s p).foldl txeqWritten s) else goStart p s

/-- Codewords that a port's FEC has corrected, and symbols on each of its lanes (R72). -/
def fecCount (p corrected : Nat) (symbols : List Nat) (s : State) : State :=
  if s.get (Reg.LANE_STATUS p) Fld.LANE_STATUS_ACT_FEC = 0 then s
  else
    ((portLanes s p).zip symbols).foldl (fun s e => s.cnt (Reg.LANE_FEC_SYM_LO e.1) e.2)
      (s.cnt (Reg.LANE_FEC_CORR_LO p) corrected)

/-- Annex 28B resolution of the pause bits C0 (bit 0) and C1 (bit 1) of both ends: receive and transmit (R87). -/
def pauseResolve (mine theirs : Nat) : Bool × Bool :=
  let m0 := mine.testBit 0
  let m1 := mine.testBit 1
  let t0 := theirs.testBit 0
  let t1 := theirs.testBit 1
  ((m0 && t0) || (m0 && m1 && !t0 && t1), (m0 && t0) || (!m0 && m1 && t0 && t1))

/-- Entry to UP from ALIGN: its event, the pause result of auto-negotiation, the scheduler's tags (R294),
verification (R92). -/
def goUp (p : Nat) (s : State) : State :=
  let s := (setLinkState p 4 s).raise (Reg.LANE_EVENT p) Fld.LANE_EVENT_UP
  let l := (s.port p).link
  let r := if l.viaAn then
      pauseResolve (Fld.LANE_AN_ADV_PAUSE.of l.adv) (s.get (Reg.LANE_AN_LP p) Fld.LANE_AN_LP_PAUSE)
    else (false, false)
  let s := (s.putB (Reg.MAC_FC_STATUS p) Fld.MAC_FC_STATUS_AN_RX r.1).putB (Reg.MAC_FC_STATUS p) Fld.MAC_FC_STATUS_AN_TX r.2
  let s := s.put (Reg.LANE_STATUS p) Fld.LANE_STATUS_LOCKED (2 ^ l.width - 1)
  let s := s.modEgr p fun e => { e with v := 0, lastF := [], headF := [] }
  xoffUpdate (stationOf p) (verifyStart p s)

/-- Loss of lock of an UP port with no HOLD: DOWN, and the start state (R64). -/
def lockGone (p : Nat) (s : State) : State :=
  goStart p (s.raise (Reg.LANE_EVENT p) Fld.LANE_EVENT_DOWN)

end Sys2Proof.Machine
end

