-- ==== Sys2Proof/Machine/Lanes.lean ====
section
/-! DEFINITION. Lanes, quads and ports (ch. 3): configuration writes, the link state machine of Table 03.4,
auto-negotiation, references, latencies, FEC and PRBS. -/
namespace Sys2Proof.Machine

/-! ### Types -/

/-- Lanes of a type; 0 for a code that names none (Table 03.1). -/
def typeLanes (t : Nat) : Nat :=
  match t with
  | 1 | 2 | 3 | 4 | 5 => 1
  | 6 => 2
  | 7 | 8 => 4
  | _ => 0

/-- The FEC codes that a type allows (Table 03.1). -/
def typeFecs (t : Nat) : List Nat :=
  match t with
  | 1 => [0]
  | 2 => [0, 1]
  | 3 => [0, 1, 2]
  | 4 | 5 | 6 | 8 => [3]
  | 7 => [2]
  | _ => []

/-- The ability bits that can be set (R67). -/
def abilityMask : Nat := 0x1E685

/-- Whether an enable finds a valid configuration (R56). -/
def cfgValid (cfg adv : Word) (width : Nat) : Bool :=
  if Fld.LANE_CFG_AN_EN.of cfg = 1 then
    (abilities width).any fun e => (Fld.LANE_AN_ADV_ABILITY.of adv).testBit e.1
  else
    let t := Fld.LANE_CFG_TYPE.of cfg
    typeLanes t == width && decide (width ≠ 0) && (typeFecs t).contains (Fld.LANE_CFG_FEC.of cfg)

/-- FEC by Clause 73's F bits (F0 ability, F1 request, F2 RS request, F3 BASE-R request); a type with one FEC uses it
(R66). -/
def resolveFec (t bit mine theirs : Nat) : Nat :=
  let either := mine ||| theirs
  match t with
  | 2 => if mine.testBit 0 && theirs.testBit 0 && either.testBit 1 then 1 else 0
  | 3 =>
    if bit = 9 then (if either.testBit 2 || either.testBit 3 then 1 else 0)
    else if either.testBit 2 then 2 else if either.testBit 3 then 1 else 0
  | _ => (typeFecs t).headD 0

/-- Nominal latencies, ns: transmit, receive (Table 03.6). -/
def nominalLat (t fec : Nat) : Nat × Nat :=
  match t, fec with
  | 1, _ => (48, 72)
  | 2, 0 => (26, 38)
  | 2, _ => (30, 246)
  | 3, 0 => (18, 26)
  | 3, 1 => (20, 112)
  | 3, _ => (24, 252)
  | 4, _ => (22, 140)
  | 5, _ => (16, 84)
  | 6, _ => (18, 86)
  | 7, _ => (20, 88)
  | _, _ => (18, 56)

/-! ### Configuration writes -/

/-- QUAD_MODE_WRITE (R57). A write that leaves MODE as it is changes nothing else; ERR is W1C. -/
def quadWrite (q : Nat) (value : Word) (s : State) : State :=
  let a := Reg.STN_QUAD (q / 3) (q % 3)
  let m := Fld.STN_QUAD_MODE.of value
  let old := s.quadMode q
  let s := s.storeBut a Fld.STN_QUAD_MODE value
  if m = old then s
  else if 4 < m || (List.range 4).any (fun i => s.getB (Reg.LANE_CFG (4 * q + i)) Fld.LANE_CFG_EN) then
    s.raise a Fld.STN_QUAD_ERR
  else s.put a Fld.STN_QUAD_MODE m

def execQuadModeWrite (q : Fin 36) (value : Word) (s : State) : Out := act s (quadWrite q.val value)

/-- EN of lane p goes from 0 to 1 (R56, R58, R60). -/
def enablePort (p : Nat) (value : Word) (s : State) : State :=
  let st := Reg.LANE_STATUS p
  let w := s.portWidth p
  if w = 0 then (s.storeBut (Reg.LANE_CFG p) Fld.LANE_CFG_EN value).raise st Fld.LANE_STATUS_CFG_ERR
  else
    let s := if (s.port p).link.stopping then goOff p s else s
    let s := (s.store (Reg.LANE_CFG p) value).put st Fld.LANE_STATUS_CFG_PENDING 0
    let cfg := s.rd (Reg.LANE_CFG p)
    let adv := s.rd (Reg.LANE_AN_ADV p)
    let ovr := s.getB (Reg.LANE_TXEQ p) Fld.LANE_TXEQ_OVERRIDE
    let ok := cfgValid cfg adv w
    let s := s.putB st Fld.LANE_STATUS_CFG_ERR (!ok)
    if ok then
      goStartOrTest p (s.modLink p fun l => { l with cfg := cfg, adv := adv, txOverride := ovr, width := w })
    else s

/-- PORT_ENABLE (R60). -/
def execPortEnable (p : Port) (value : Word) (s : State) : Out :=
  act s fun s =>
    if Fld.LANE_CFG_EN.of value = 1 ∧ !s.getB (Reg.LANE_CFG p.val) Fld.LANE_CFG_EN then enablePort p.val value s else s

/-- EN of port p goes from 1 to 0 (R61): the frame in transmission ends first. -/
def disablePort (p : Nat) (value : Word) (s : State) : State :=
  let s := s.store (Reg.LANE_CFG p) value
  if s.linkUp p && !(inTransmission s p).isEmpty then
    (reasmLost p s).modLink p fun l => { l with stopping := true }
  else goOff p s

/-- PORT_DISABLE (R61). -/
def execPortDisable (p : Port) (value : Word) (s : State) : Out :=
  act s fun s =>
    if Fld.LANE_CFG_EN.of value = 0 ∧ s.getB (Reg.LANE_CFG p.val) Fld.LANE_CFG_EN then disablePort p.val value s else s

/-- PORT_OFF (R61). -/
def execPortOff (p : Port) (s : State) : Out :=
  act s fun s => if (s.port p.val).link.stopping && (inTransmission s p.val).isEmpty then goOff p.val s else s

/-- CFG_PENDING sets where the port is enabled (R60). -/
def stagePending (p : Nat) (s : State) : State :=
  if s.portEn p then s.raise (Reg.LANE_STATUS p) Fld.LANE_STATUS_CFG_PENDING else s

/-- A write of LANE_AN_ADV: bits that name no type cannot be set (R67). -/
def advWrite (p : Nat) (value : Word) (s : State) : State :=
  let a := Reg.LANE_AN_ADV p
  stagePending p (s.store a (Fld.LANE_AN_ADV_ABILITY.into value (Fld.LANE_AN_ADV_ABILITY.of value &&& abilityMask)))

/-- The coefficients with MAIN brought down so that the magnitudes sum to at most 63 (Table 03.16). -/
def txeqFit (w : Word) : Word :=
  let m (f : Field) : Nat := (signedOf 6 (f.of w)).natAbs
  let side := m Fld.LANE_TXEQ_PRE2 + m Fld.LANE_TXEQ_PRE1 + m Fld.LANE_TXEQ_POST1
  if 63 < side + Fld.LANE_TXEQ_MAIN.of w then Fld.LANE_TXEQ_MAIN.into w (63 - side) else w

/-- A write of LANE_TXEQ: its coefficients are those in use, and those as written. -/
def txeqWrite (p : Nat) (value : Word) (s : State) : State :=
  let a := Reg.LANE_TXEQ p
  let s := (s.store a value).modLink p fun l => { l with txeq := none }
  stagePending p (s.wr a (txeqFit (s.rd a)))

/-- A write of LANE_CFG: an enable, a disable, or values that stand until the next enable. -/
def cfgWrite (p : Nat) (value : Word) (s : State) : State :=
  let en := s.getB (Reg.LANE_CFG p) Fld.LANE_CFG_EN
  match en, Fld.LANE_CFG_EN.of value with
  | false, 1 => enablePort p value s
  | true, 0 => disablePort p value s
  | _, _ => stagePending p (s.store (Reg.LANE_CFG p) value)

/-- PORT_CFG_STAGE_WRITE (R60). -/
def execPortCfgStageWrite (p : Port) (reg : StageReg) (value : Word) (s : State) : Out :=
  act s fun s =>
    if s.portEn p.val then
      match reg with
      | .cfg => if Fld.LANE_CFG_EN.of value = 1 then cfgWrite p.val value s else s
      | .adv => advWrite p.val value s
      | .txeq => txeqWrite p.val value s
    else s

/-! ### The link state machine -/

/-- The port leaves AN with a type and FEC, for TRAIN or ALIGN. -/
def afterAn (p t fec : Nat) (s : State) : State :=
  let a := Reg.LANE_STATUS p
  let s := (s.put a Fld.LANE_STATUS_ACT_TYPE t).put a Fld.LANE_STATUS_ACT_FEC fec
  let s := (s.raise (Reg.LANE_EVENT p) Fld.LANE_EVENT_AN_DONE).modLink p fun l => { l with viaAn := true }
  goTrainOrAlign p (if Fld.LANE_CFG_TRAIN_EN.of (s.port p).link.cfg = 1 ∧ t ≠ 1 then 2 else 3) s

/-- AN_RESOLUTION (R66). PAUSE shows the partner's bits, as Table 03.15 says, where R66 speaks of the resolved ones
(DESIGN CHOICE, log 123). With no common type the port stays in AN, which restarts: VALID stays 1, and HCD and ABILITY
stay at a later entry to AN, which clears VALID alone (DESIGN CHOICE, log 124). In near-end loopback the page received
is the port's own, which asks for no next page (R74). -/
def execAnResolution (p : Port) (partner : AnPartner) (s : State) : Out :=
  act s fun s =>
    let p := p.val
    let page := if nearEnd s p then anOwn s p else partner.page
    if s.linkState p ≠ 1 ∨ !refOk s p then s
    else
      let l := (s.port p).link
      let mine := Fld.LANE_AN_ADV_ABILITY.of l.adv
      let theirs := Fld.LANE_AN_LP_ABILITY.of page
      let a := Reg.LANE_AN_LP p
      let s := (s.when (partner.nextPages && !nearEnd s p) (ballOut p (.anNullPage p))).wr a 0#32
      let s := ((s.put a Fld.LANE_AN_LP_VALID 1).put a Fld.LANE_AN_LP_PAUSE (Fld.LANE_AN_LP_PAUSE.of page)).put a
        Fld.LANE_AN_LP_FEC_BITS (Fld.LANE_AN_LP_FEC_BITS.of page)
      let s := s.put a Fld.LANE_AN_LP_ABILITY theirs
      match (abilities l.width).find? fun e => mine.testBit e.1 && theirs.testBit e.1 with
      | none => anSend p s
      | some (bit, t) =>
        afterAn p t (resolveFec t bit (Fld.LANE_AN_ADV_FEC_BITS.of l.adv) (Fld.LANE_AN_LP_FEC_BITS.of page))
          (s.put a Fld.LANE_AN_LP_HCD t)

/-- A lane's coefficients after training: as the partner asked, unless OVERRIDE holds those written; those written are
kept for a start without training (R63). -/
def trainedLane (ovr : Bool) (s : State) (l : Nat) : State :=
  if ovr then s
  else
    let (v, s) := s.drawNat
    let a := Reg.LANE_TXEQ l
    let s := s.modLink l fun x => { x with txeq := some (s.rd a) }
    s.wr a (txeqFit (storeWord [Fld.LANE_TXEQ_PRE2, Fld.LANE_TXEQ_PRE1, Fld.LANE_TXEQ_MAIN, Fld.LANE_TXEQ_POST1]
      false (s.rd a) (BitVec.ofNat 32 v)))

/-- TRAINING_DONE (R63). -/
def execTrainingDone (p : Port) (s : State) : Out :=
  act s fun s =>
    let p := p.val
    let l := (s.port p).link
    if s.linkState p = 2 ∧ !l.holdoff ∧ refOk s p then
      setLinkState p 3 ((portLanes s p).foldl (trainedLane l.txOverride) s)
    else s

/-- TRAINING_TIMEOUT (R63). -/
def execTrainingTimeout (p : Port) (s : State) : Out :=
  act s fun s =>
    let p := p.val
    if s.linkState p = 2 ∧ !(s.port p).link.holdoff ∧ refOk s p then
      let n := s.get (Reg.LANE_STATUS p) Fld.LANE_STATUS_TRAIN_FAILS
      let s := s.put (Reg.LANE_STATUS p) Fld.LANE_STATUS_TRAIN_FAILS (min 255 (n + 1))
      (s.raise (Reg.LANE_EVENT p) Fld.LANE_EVENT_TRAIN_FAIL).modLink p fun l => { l with holdoff := true }
    else s

/-- TRAIN_HOLDOFF_EXPIRY (R62). -/
def execTrainHoldoffExpiry (p : Port) (s : State) : Out :=
  act s fun s => if s.linkState p.val = 2 ∧ (s.port p.val).link.holdoff then goStart p.val s else s

/-- LOCK_ACQUIRED (R62): from ALIGN to UP, with its event; from HOLD back to UP, without one. -/
def execLockAcquired (p : Port) (s : State) : Out :=
  act s fun s =>
    let p := p.val
    if !refOk s p then s
    else if s.linkState p = 3 then goUp p s
    else if s.linkState p = 5 then
      (setLinkState p 4 s).put (Reg.LANE_STATUS p) Fld.LANE_STATUS_LOCKED (2 ^ (s.port p).link.width - 1)
    else s

/-- ALIGN_TIMEOUT (R62). -/
def execAlignTimeout (p : Port) (s : State) : Out :=
  act s fun s => if s.linkState p.val = 3 ∧ refOk s p.val then goStart p.val s else s

/-- LOCK_LOST (R64). Which lanes of a wider port still have lock is a free value. A disabled port that still sends its
last frame goes OFF at once, with neither HOLD nor DOWN (DESIGN CHOICE, log 140). -/
def execLockLost (p : Port) (s : State) : Out :=
  act s fun s =>
    let p := p.val
    if s.linkState p ≠ 4 then s
    else if (s.port p).link.stopping then goOff p s
    else if s.get (Reg.LANE_CFG p) Fld.LANE_CFG_DOWN_HOLD = 0 then lockGone p s
    else
      let (k, s) := s.drawNat
      let w := (s.port p).link.width
      reasmLost p ((setLinkState p 5 s).put (Reg.LANE_STATUS p) Fld.LANE_STATUS_LOCKED (k % (2 ^ w - 1)))

/-- DOWN_HOLD_EXPIRY (R64). -/
def execDownHoldExpiry (p : Port) (s : State) : Out :=
  act s fun s =>
    if s.linkState p.val ≠ 5 then s
    else if (s.port p.val).link.stopping then goOff p.val s
    else lockGone p.val s

/-- REMOTE_FAULT_RECEIVED (R65). -/
def execRemoteFaultReceived (p : Port) (s : State) : Out :=
  act s fun s =>
    if s.linkState p.val = 4 ∧ s.get (Reg.LANE_STATUS p.val) Fld.LANE_STATUS_ACT_TYPE ≠ 1 then
      s.modLink p.val fun l => { l with remoteFault := true }
    else s

/-- REMOTE_FAULT_CLEARED (R65). -/
def execRemoteFaultCleared (p : Port) (s : State) : Out :=
  act s fun s => s.modLink p.val fun l => { l with remoteFault := false }

/-! ### References and latencies -/

/-- A lane's reference is lost (R69). -/
def refLostLane (s : State) (l : Nat) : State :=
  (s.put (Reg.LANE_STATUS l) Fld.LANE_STATUS_REFOK 0).raise (Reg.LANE_EVENT l) Fld.LANE_EVENT_REFLOSS

/-- A checker that loses its lock clears CHK_LOCK and raises PRBS_LOSS (R73). -/
def checkerLoses (s : State) (l : Nat) : State :=
  if s.getB (Reg.LANE_TEST l) Fld.LANE_TEST_CHK_LOCK then
    (s.put (Reg.LANE_TEST l) Fld.LANE_TEST_CHK_LOCK 0).raise (Reg.LANE_EVENT l) Fld.LANE_EVENT_PRBS_LOSS
  else s

/-- A port on a lost reference stops in its start state, its checkers without lock (DEDUCED, log 125); one that was
ending its last frame ends in OFF. -/
def refLostPort (s : State) (p : Nat) : State :=
  if s.linkState p = 0 then s
  else if s.portEn p then goStart p ((portLanes s p).foldl checkerLoses s)
  else goOff p s

/-- REFCLK_LOSS (R69). -/
def execRefclkLoss (k : Fin 9) (s : State) : Out :=
  act s fun s =>
    let ls := (List.range 16).map (16 * k.val + ·)
    ls.foldl refLostPort (ls.foldl refLostLane s)

/-- REFCLK_RESTORED (R69). -/
def execRefclkRestored (k : Fin 9) (s : State) : Out :=
  act s fun s =>
    let ls := (List.range 16).map (16 * k.val + ·)
    let s := ls.foldl (fun s l => s.put (Reg.LANE_STATUS l) Fld.LANE_STATUS_REFOK 1) s
    ls.foldl (fun s p =>
      if s.portEn p && s.linkState p != 0 && testWanted s p then goDown p 6 s else anSend p s) s

/-- LANE_LATENCY_MEASURED (R70), of a lane of a port that is up. `tx` and `rx` are in 1/256 ns; each lies within 12 ns
above its nominal value. -/
def execLaneLatencyMeasured (lane : Port) (tx rx : Nat) (s : State) : Out :=
  act s fun s =>
    let l := lane.val
    let p := ownerOf s l
    let a := Reg.LANE_STATUS p
    if !s.linkUp p || s.getB (Reg.LANE_STATUS l) Fld.LANE_STATUS_LAT_VALID then s
    else
      let n := nominalLat (s.get a Fld.LANE_STATUS_ACT_TYPE) (s.get a Fld.LANE_STATUS_ACT_FEC)
      let fit (nom v : Nat) : Nat := clampNat (256 * nom) (256 * (nom + 12)) v
      let s := s.put (Reg.LANE_LAT_TX l) Fld.LANE_LAT_TX_LAT (fit n.1 tx)
      let s := s.put (Reg.LANE_LAT_RX l) Fld.LANE_LAT_RX_LAT (fit n.2 rx)
      s.put (Reg.LANE_STATUS l) Fld.LANE_STATUS_LAT_VALID 1

/-- FEC_UNCORRECTABLE (R72). `corrected` codewords, and `symbols` symbols on each lane of the port, were corrected since
the last command that reported them; one that receives a frame reports them too. The frames that the codeword overlaps
arrive with `codeError`. -/
def execFecUncorrectable (p : Port) (corrected : Nat) (symbols : List Nat) (s : State) : Out :=
  act s fun s =>
    let p := p.val
    if s.get (Reg.LANE_STATUS p) Fld.LANE_STATUS_ACT_FEC = 0 ∨ s.linkState p < 3 then s
    else
      ((fecCount p corrected symbols s).tick (Reg.LANE_FEC_UNCORR_LO p)).raise (Reg.LANE_EVENT p)
        Fld.LANE_EVENT_FEC_UNCORR

/-! ### PRBS and loopback -/

/-- A write of LANE_TEST of lane l (R73, R74), with what its generator then begins or ends. A change of LOOPBACK of an
enabled port is a loss of lock with DOWN_HOLD 0; a generator, a checker or far-end loopback places the port in TEST,
and the last of them leaves it. While the port's reference is lost it stays in its start state (R69). -/
def testWrite (l : Nat) (value : Word) (s : State) : State :=
  let a := Reg.LANE_TEST l
  let old := loopbackOf (s.rd a)
  let sent := generated s l
  let s := prbsShow [(l, sent)] (s.store a value)
  let s := if s.getB a Fld.LANE_TEST_CHK_EN then s else s.put a Fld.LANE_TEST_CHK_LOCK 0
  let p := ownerOf s l
  if !s.portEn p || s.linkState p = 0 then s
  else
    let changed := loopbackOf (s.rd a) != old
    let s := if changed && s.linkUp p then s.raise (Reg.LANE_EVENT p) Fld.LANE_EVENT_DOWN else s
    if testWanted s p && refOk s p then (if s.linkState p = 6 then s else goDown p 6 s)
    else if s.linkState p = 6 || changed then goStart p s
    else s

/-- LANE_TEST_WRITE (R73). -/
def execLaneTestWrite (p : Port) (value : Word) (s : State) : Out := act s (testWrite p.val value)

/-- LOOPBACK_CHANGE (R74): a write of LANE_TEST that changes LOOPBACK. -/
def execLoopbackChange (p : Port) (value : Word) (s : State) : Out :=
  act s fun s =>
    if loopbackOf value = loopbackOf (s.rd (Reg.LANE_TEST p.val)) then s else testWrite p.val value s

/-- Errors that a checker has counted. -/
def prbsErrors (l errors : Nat) (s : State) : State :=
  s.wr (Reg.LANE_PRBS_ERR l) (BitVec.ofNat 32 (min 0xFFFFFFFF (s.rdN (Reg.LANE_PRBS_ERR l) + errors)))

/-- The pattern that a lane receives: its own in near-end loopback (R74). -/
def prbsReceived (s : State) (l pattern : Nat) : Option Nat := if nearEnd s l then generated s l else some pattern

/-- PRBS_LOCK (R73). The lane of a port in TEST receives a pattern: its checker locks where that is the one it looks for,
and then counts errors; a checker that has lock goes on counting. -/
def execPrbsLock (check : PrbsCheck) (s : State) : Out :=
  act s fun s =>
    let l := check.lane.val
    let a := Reg.LANE_TEST l
    if s.linkState (ownerOf s l) = 6 ∧ s.getB a Fld.LANE_TEST_CHK_EN
        ∧ prbsReceived s l check.pattern.val = some (patternOf s l) then
      prbsErrors l check.errors (s.put a Fld.LANE_TEST_CHK_LOCK 1)
    else s

/-- PRBS_LOCK_LOST (R73). `errors` have been counted since the last command for the checker. -/
def execPrbsLockLost (lane : Port) (errors : Nat) (s : State) : Out :=
  act s fun s =>
    let l := lane.val
    if s.getB (Reg.LANE_TEST l) Fld.LANE_TEST_CHK_LOCK then checkerLoses (prbsErrors l errors s) l else s

end Sys2Proof.Machine
end

