-- ==== Sys2Proof/Machine/Injectors.lean ====
section
/-! DEFINITION. The Tinker's injectors as the receive and transmit paths evaluate them (R389 to R393). -/
namespace Sys2Proof.Machine

/-! ### FCS and generator -/

/-- One bit of the CRC-32 of IEEE 802.3, least significant first. -/
def crcBit (c : Nat) : Nat := if c % 2 = 1 then (c / 2) ^^^ 0xEDB88320 else c / 2

def crcByte (c : Nat) (b : Byte) : Nat :=
  crcBit (crcBit (crcBit (crcBit (crcBit (crcBit (crcBit (crcBit (c ^^^ b.toNat))))))))

/-- The four bytes of a frame's FCS, in wire order. -/
def fcsOf (b : List Byte) : List Byte := leBytes 4 (b.foldl crcByte 0xFFFFFFFF ^^^ 0xFFFFFFFF)

/-- One shift of the generator (R392). -/
def lfsrShift (g : Word) : Word :=
  let n := g.toNat
  let f := n.testBit 31 ^^ n.testBit 21 ^^ n.testBit 1 ^^ n.testBit 0
  (g <<< 1) ||| (if f then 1#32 else 0#32)

def lfsrShifts : Nat → Word → Word
  | 0, g => g
  | n + 1, g => lfsrShifts n (lfsrShift g)

/-- A draw: 16 shifts, then the low 16 bits. -/
def lfsrDraw (s : State) : Nat × State :=
  let g := lfsrShifts 16 s.tinker.lfsr
  (g.toNat % 65536, { s with tinker := { s.tinker with lfsr := g } })

/-! ### Evaluation -/

/-- A word of injector k of port p. -/
def injSel (s : State) (p k : Nat) : Word := s.rd (Reg.TNK_SEL (stationOf p) (localOf p) k)

def injCount (s : State) (p k : Nat) : Nat := s.rdN (Reg.TNK_INJ_CNT (stationOf p) (localOf p) k)

def injLimit (s : State) (p k : Nat) : Nat := s.rdN (Reg.TNK_LIMIT (stationOf p) (localOf p) k)

/-- The injector is enabled. One that is not matches no frame (DEDUCED, log 126). -/
def injOn (s : State) (p k : Nat) : Bool := s.getB Reg.TNK_CTL Fld.TNK_CTL_EN && Fld.TNK_SEL_EN.of (injSel s p k) == 1

/-- The injector acts (R389). -/
def injLive (s : State) (p k : Nat) : Bool :=
  injOn s p k && Fld.TNK_SEL_ACTION.of (injSel s p k) != 3 &&
    (injLimit s p k == 0 || decide (injCount s p k < injLimit s p k))

/-- Low 32 bits of the seconds of Varve time, and its nanoseconds, as one number (R315). -/
def secNs (s : State) : Nat := s.varveNs / 1000000000 % 2 ^ 32 * 2 ^ 30 + s.varveNs % 1000000000

/-- The instant lies in the injector's window (R390). -/
def injWindow (s : State) (p k : Nat) : Bool :=
  let st := stationOf p
  let i := localOf p
  let a := s.rdN (Reg.TNK_WIN_START_SEC st i k) * 2 ^ 30 + s.get (Reg.TNK_WIN_START_NS st i k) Fld.TNK_WIN_START_NS_NS
  let b := s.rdN (Reg.TNK_WIN_END_SEC st i k) * 2 ^ 30 + s.get (Reg.TNK_WIN_END_NS st i k) Fld.TNK_WIN_END_NS_NS
  decide (a ≤ secNs s ∧ secNs s < b)

/-- A frame of class c matches the injector (R390). -/
def injMatch (s : State) (p k : Nat) (tx : Bool) (c : Nat) (b : List Byte) : Bool :=
  let w := injSel s p k
  let off := min 252 (Fld.TNK_SEL_OFFSET.of w)
  let m := s.rdN (Reg.TNK_MASK (stationOf p) (localOf p) k)
  let v := s.rdN (Reg.TNK_MATCH (stationOf p) (localOf p) k)
  let full := if off + 4 ≤ b.length then b else b ++ fcsOf b
  injOn s p k && (Fld.TNK_SEL_DIR.of w == 1) == tx && (Fld.TNK_SEL_CLASSES.of w).testBit c
    && decide (off + 4 ≤ full.length) && (be full off 4 &&& m) == (v &&& m)
    && (Fld.TNK_SEL_WIN_EN.of w == 0 || injWindow s p k)

/-- Whether a matching injector triggers (R391), with the draw it makes. -/
def injTrigger (p k : Nat) (s : State) : Bool × State :=
  let w := injSel s p k
  let par := s.get (Reg.TNK_TRIG (stationOf p) (localOf p) k) Fld.TNK_TRIG_PARAM
  match Fld.TNK_SEL_TRIG.of w with
  | 1 => (decide ((aget 0 (4 * p + k) s.tinker.period + 1) % max 1 par = 0), s)
  | 2 =>
    let (d, s) := lfsrDraw s
    (decide (d < par), s)
  | _ => (true, s)

/-- A matching frame advances the period count of an injector that does not trigger, or that acts (DEDUCED, log 39). -/
def injAdvance (p k : Nat) (s : State) : State :=
  { s with tinker := { s.tinker with period := aadd (4 * p + k) 1 s.tinker.period } }

/-- The injector acts on a frame: it counts toward LIMIT, and at LIMIT it is done (R391, R400). -/
def injAct (p k : Nat) (s : State) : State :=
  let s := injAdvance p k s
  let n := injCount s p k + 1
  let s := s.wr (Reg.TNK_INJ_CNT (stationOf p) (localOf p) k) (BitVec.ofNat 32 n)
  if injLimit s p k ≠ 0 ∧ n = injLimit s p k then
    let a := Reg.TNK_PEVENT (stationOf p) (localOf p)
    let s := s.put a Fld.TNK_PEVENT_DONE (s.get a Fld.TNK_PEVENT_DONE ||| 2 ^ k)
    if s.tinker.bySet.contains (4 * p + k) then postEvent (s.portGuild p) 0x72 (leBytes 1 p ++ leBytes 1 k) s else s
  else s

/-- The injectors of a port and direction are evaluated on a frame, in ascending number: each that matches makes its draw,
and the lowest that triggers and may act does (R392, R393). -/
def injEval (p : Nat) (tx : Bool) (c : Nat) (b : List Byte) (s : State) : Option Nat × State :=
  (List.range 4).foldl (fun (r : Option Nat × State) k =>
    let (who, s) := r
    if injMatch s p k tx c b then
      let (hit, s) := injTrigger p k s
      if hit && injLive s p k then
        match who with
        | none => (some k, injAct p k s)
        | some j => (some j, s)
      else (who, injAdvance p k s)
    else (who, s)) (none, s)

/-- ACTION, FCS and HOLD of an injector. -/
def injAction (s : State) (p k : Nat) : Nat := Fld.TNK_SEL_ACTION.of (injSel s p k)

def injFcs (s : State) (p k : Nat) : Bool := Fld.TNK_SEL_FCS.of (injSel s p k) == 1

def injHold (s : State) (p k : Nat) : Nat := max 1 (s.get (Reg.TNK_TRIG (stationOf p) (localOf p) k) Fld.TNK_TRIG_HOLD)

/-- CORRUPT changes some byte of a frame of n bytes, its FCS among them. -/
def injChanges (s : State) (p k n : Nat) : Bool :=
  let off := s.get (Reg.TNK_CORR_OFF (stationOf p) (localOf p) k) Fld.TNK_CORR_OFF_CORR_OFF
  let m := beBytes 4 (s.rdN (Reg.TNK_CORR_MASK (stationOf p) (localOf p) k))
  (List.range 4).any fun j => decide (off + j < n) && m.getD j 0#8 != 0#8

/-- The bytes that CORRUPT leaves. -/
def injCorrupt (s : State) (p k : Nat) (b : List Byte) : List Byte :=
  xorAt (s.get (Reg.TNK_CORR_OFF (stationOf p) (localOf p) k) Fld.TNK_CORR_OFF_CORR_OFF) 4
    (s.rdN (Reg.TNK_CORR_MASK (stationOf p) (localOf p) k)) b

end Sys2Proof.Machine
end

