-- ==== Sys2Proof/Machine/Mac.lean ====
section
/-! DEFINITION. The MACs' receive side, pause and PFC, verification and statistics (ch. 4), with what a frame meets
from its last byte to its place before the parser (R80 to R85, R258, R390, R407). -/
namespace Sys2Proof.Machine

/-! ### Pause -/

/-- RX_PAUSED shows the classes held by received pause. -/
def pauseShow (p : Nat) (s : State) : State :=
  s.put (Reg.MAC_FC_STATUS p) Fld.MAC_FC_STATUS_RX_PAUSED (mask8 fun c => (aget? c (s.port p).mac.pause).isSome)

/-- A pause time for a class: it replaces what remains; 0 resumes the class (R88). -/
def pauseSet (p c quanta : Nat) (s : State) : State :=
  s.modMac p fun m => { m with pause := if quanta = 0 then adel c m.pause else aset c quanta m.pause }

/-- A received MAC control frame (rows 6 of Table 04.2; R86, R88). -/
def ctlReceive (p : Nat) (b : List Byte) (off : Nat) (s : State) : State :=
  let da := be b 0 6
  let mine := da == 0x0180C2000001 || da == beVal (macSa s p)
  match be b off 2 with
  | 1 =>
    let s := macStat p 14 1 s
    if mine && fcMode s p == 1 && pauseRxOn s p then
      pauseShow p ((List.range 7).foldl (fun s c => pauseSet p c (be b (off + 2) 2) s) s)
    else s
  | 0x101 =>
    let v := be b (off + 2) 2
    let s := (List.range 8).foldl (fun s c => if v.testBit c then macStat p (15 + c) 1 s else s) s
    if mine && fcMode s p == 2 then
      let en := s.get (Reg.MAC_FC_CFG p) Fld.MAC_FC_CFG_PFC_RX_EN
      pauseShow p ((List.range 7).foldl (fun s c =>
        if v.testBit c && en.testBit c then pauseSet p c (be b (off + 4 + 2 * c) 2) s else s) s)
    else s
  | _ => macStat p 23 1 s

/-! ### Steering -/

/-- What a filter or the class defaults decide of a frame (Table 04.3). -/
structure Steered where
  action : Nat
  cls : Nat
  deriving DecidableEq, Repr

/-- The fields a filter compares, in the layout of MAC_STEER_MATCH (R83). -/
def steerWord (t : Tags) : Nat := t.etype * 65536 + t.pcp * 8192 + (if t.tagged then 4096 else 0) + t.vid

/-- Filter k is live and matches. -/
def steerHit (s : State) (p : Nat) (t : Tags) (k : Nat) : Bool :=
  let a := s.rd (Reg.MAC_STEER_ACT p k)
  let m := s.rdN (Reg.MAC_STEER_MASK p k)
  Fld.MAC_STEER_ACT_VALID.of a == 1 && Fld.MAC_STEER_ACT_ACTION.of a != 3
    && (steerWord t &&& m) == (s.rdN (Reg.MAC_STEER_MATCH p k) &&& m)

/-- R84. -/
def steer (s : State) (p : Nat) (t : Tags) : Steered :=
  match (List.range 16).find? (steerHit s p t) with
  | some k =>
    let a := s.rd (Reg.MAC_STEER_ACT p k)
    ⟨Fld.MAC_STEER_ACT_ACTION.of a, Fld.MAC_STEER_ACT_TC.of a⟩
  | none =>
    ⟨0, if t.tagged then s.get (Reg.MAC_PCP_MAP p) Fld.MAC_PCP_MAP_MAP / 8 ^ t.pcp % 8
        else s.get (Reg.MAC_CFG p) Fld.MAC_CFG_DEF_TC⟩

/-! ### Receive -/

/-- A frame that is whole, charged and kept waits for its token: the express lane or the other (R251). Before full service
the order across the lanes is kept too. -/
def laneEnqueue (st : Nat) (f : Frame) (s : State) : State :=
  let full := s.full st
  s.modTasks st fun t =>
    let l := if f.cls = 7 then 1 else 2
    let t := if full then t else { t with whole := t.whole ++ [l] }
    if l = 1 then { t with laneX := t.laneX ++ [f] } else { t with laneN := t.laneN ++ [f] }

/-- One more frame of the port has completed its checks: the frames that REORDER holds come nearer their token
(R393), and those with none left to wait for take their place. -/
def heldStep (p : Nat) (s : State) : State :=
  let hs := s.tinker.heldRx.map fun h => if h.port = p then { h with left := h.left - 1 } else h
  let due := hs.filter fun h => h.port == p && h.left == 0
  let s := { s with tinker := { s.tinker with heldRx := hs.filter fun h => !(h.port == p && h.left == 0) } }
  due.foldl (fun s h => laneEnqueue (stationOf p) h.frame s) s

/-- A frame that arrived in cells is dropped before its token: it frees them (R76). -/
def rxGone (p : Nat) (a : Arrival) (f : Frame) (s : State) : State :=
  frameGone (stationOf p) f (arrivalFree (stationOf p) (localOf p) a s)

/-- A steered frame is discarded by a drain, or in Thaw service on a lane with THAW_EN = 0 (R420), or charged, and
waits for its token, or is held by REORDER. A held frame counts down from the completion after its own. -/
def rxKeep (p : Nat) (hold : Option (Nat × Nat)) (a : Arrival) (f : Frame) (s : State) : State :=
  let st := stationOf p
  if (s.stn st).draining then rxGone p a f (s.tick (Reg.MOR_CNT_LO st 4))
  else if !s.full st && (thawGroup s p).isNone then rxGone p a f (s.tick (Reg.BOOT_CNT_LO 0))
  else
    match ingressCharge st (localOf p) a f s with
    | (none, s) => s
    | (some f, s) =>
      match hold with
      | none => laneEnqueue st f s
      | some (k, n) =>
        let h : HeldRx := { port := p, inj := k, frame := f, left := n + 1 }
        { s with tinker := { s.tinker with heldRx := s.tinker.heldRx ++ [h] } }

/-- A steered frame that no injector has dropped: a device that is not ACTIVE discards it before its token, unless it
is for the host and STBY_HOST is 1 (R407). -/
def rxRole (p : Nat) (hold : Option (Nat × Nat)) (a : Arrival) (f : Frame) (s : State) : State :=
  if notActive s && !(f.toHost && s.getB Reg.MATE_CFG Fld.MATE_CFG_STBY_HOST) then
    rxGone p a f (s.tick (Reg.MATE_CNT_LO 1))
  else rxKeep p hold a f s

/-- The counters of a good frame (R96). -/
def rxGoodCount (p : Nat) (b : List Byte) (tagged : Bool) (s : State) : State :=
  let n := b.length + 4
  let s := macStat p 0 n (macStat p 2 1 (macStat p (3 + daKind b) 1 (macStat p (31 + sizeBin n) 1 s)))
  if tagged then macStat p 6 1 s else s

/-- Varve time at a received frame's timestamp point, 1/256 ns modulo 2⁴⁰ (R316), `sfdAge` and LAT_RX ago: the steps
that it has made since are taken out. -/
def rxPoint (s : State) (p sfdAge : Nat) : Nat :=
  let back := sfdAge + s.get (Reg.LANE_LAT_RX p) Fld.LANE_LAT_RX_LAT
  let since := s.varve.steps.filter fun e => decide (256 * s.now < 256 * e.1 + back)
  (((s.vt : Int) - back - (since.map Prod.snd).sum) % 2 ^ 40).toNat

/-- A frame with the timestamp point `pt` that passes the checks of R80 and is not a MAC control frame: steering (R84),
the injectors (R390), the role of the pair (R407), the charge (R258). -/
def rxSteered (p pt : Nat) (a : Arrival) (b : List Byte) (t : Tags) (s : State) : State :=
  let d := steer s p t
  let f : Frame := { bytes := b, inPort := p, cls := d.cls, toHost := d.action == 2, guild := s.portGuild p
                     rxTs := pt / 256 }
  if d.action = 1 then rxGone p a f (macStat p 24 1 (rxGoodCount p b t.tagged s))
  else
    let good (s : State) : State :=
      let s := rxGoodCount p b t.tagged s
      if d.action = 2 then macStat p 25 1 s else s
    match injEval p false d.cls b s with
    | (none, s) => rxRole p none a f (good s)
    | (some k, s) =>
      match injAction s p k with
      | 0 => rxGone p a f (good s)
      | 1 =>
        if injFcs s p k then rxRole p none a { f with bytes := injCorrupt s p k b } (good s)
        else rxGone p a f (macStat p 7 1 s)
      | _ => rxRole p (some (k, injHold s p k)) a f (good s)

/-- A frame is whole, in the cells `a`: the first row of Table 04.2 whose condition holds decides. -/
def rxJudge (p : Nat) (rx : RxFrame) (lost : Bool) (limit pt : Nat) (a : Arrival) (b : List Byte) (s : State) : State :=
  let n := b.length + 4
  let free (s : State) : State := arrivalFree (stationOf p) (localOf p) a s
  let bad (k : Nat) (s : State) : State := evDrop (stationOf p) (s.portGuild p) (free (macStat p k 1 s))
  if lost then bad 13 s
  else if rx.codeError then bad 8 s
  else if n < 64 then bad (if rx.fcsGood then 9 else 10) s
  else if limit < n then bad (if rx.fcsGood then 11 else 12) s
  else if !rx.fcsGood then bad 7 s
  else
    let t := readTags (macTpids s p) b
    if t.etype = 0x8808 then ctlReceive p b t.off (rxGoodCount p b t.tagged (free s))
    else rxSteered p pt a b t s

/-- What has arrived of a frame of port p lies in cells, up to 256 B beyond MAX_LEN (R76, R80). -/
def rxArrive (p limit n : Nat) (a : Arrival) (s : State) : Arrival × State :=
  arrive (stationOf p) (localOf p) (min n (limit + 256)) a s

/-- A frame has become whole: its last cells are taken, its octets counted, and its checks made; the frames that REORDER
holds come nearer their token (R393). -/
def rxWhole (p : Nat) (rx : RxFrame) (lost express : Bool) (limit pt : Nat) (a : Arrival) (b : List Byte) (s : State) :
    State :=
  let s := energy (stationOf p) 2 0 (macStat p 1 (b.length + 4) s)
  let s := if express && mergeActive s p then macStat p 26 1 s else s
  let (a, s) := rxArrive p limit (b.length + 4) a s
  heldStep p (rxJudge p rx lost limit pt a b s)

/-- A reassembly error: the partial frame is dropped (R95). Its bytes count in no octet counter, which R96 leaves open
(DESIGN CHOICE, log 127). -/
def asmError (p : Nat) (s : State) : State :=
  reasmDrop p ((macStat p 29 1 s).raise (Reg.MAC_EVENT p) Fld.MAC_EVENT_ASM_ERR)

/-- What port p's reassembly holds. -/
def reasmSet (p : Nat) (r : Option Reasm) (s : State) : State := s.modMac p fun m => { m with reasm := r }

/-- The frame in reassembly stays open with one fragment more: its bytes fill cells as they arrive (R95, R258). -/
def reasmHold (p : Nat) (r : Reasm) (s : State) : State :=
  let (a, s) := rxArrive p r.limit r.bytes.length r.arrival s
  reasmSet p (some { r with arrival := a }) s

/-- One mPacket of the preemptable MAC (R95). The bytes of one that EN 0 drops count in no octet counter, and a verify or
respond mPacket is no SMD error, which R95 and R96 leave open (DESIGN CHOICE, log 127). A preempted frame takes its
timestamp at the start of its first fragment (R316). -/
def rxMPacket (p : Nat) (rx : RxFrame) (lost : Bool) (s : State) (m : MPacket) : State :=
  if !(s.port p).mac.mergeEn then macStat p 30 1 s
  else
    let s := macStat p 27 1 s
    if m.start then
      let s := if (s.port p).mac.reasm.isSome then asmError p s else s
      let limit := maxLenAt s p rx.sfdAge
      let pt := rxPoint s p rx.sfdAge
      if m.last then rxWhole p rx lost false limit pt {} m.bytes s
      else reasmHold p { frameCount := m.frameCount.val, nextFrag := 0, bytes := m.bytes, limit := limit, point := pt } s
    else
      match (s.port p).mac.reasm with
      | none => asmError p s
      | some r =>
        if r.frameCount ≠ m.frameCount.val ∨ r.nextFrag ≠ m.fragCount.val then asmError p s
        else if m.last then rxWhole p rx lost false r.limit r.point r.arrival (r.bytes ++ m.bytes) (macStat p 28 1 (reasmSet p none s))
        else reasmHold p { r with nextFrag := (r.nextFrag + 1) % 4, bytes := r.bytes ++ m.bytes } s

/-- The port receives: a frame at the express MAC, or mPackets. -/
def rxReceive (p : Nat) (rx : RxFrame) (s : State) : State :=
  let lost := rx.linkLost || s.linkState p == 5 || (s.port p).link.stopping
  let s := fecCount p rx.fecCorrected rx.fecSymbols s
  if rx.mpackets.isEmpty then rxWhole p rx lost true (maxLenAt s p rx.sfdAge) (rxPoint s p rx.sfdAge) {} rx.bytes s
  else rx.mpackets.foldl (rxMPacket p rx lost) s

/-- The oldest of what the port has sent to its own receiver (R74) has arrived. -/
def loopTaken (p : Nat) (s : State) : State := s.modMac p fun m => { m with loop := m.loop.tail }

/-- A port in far-end loopback sends what it receives (Table 03.8). -/
def farSend (p : Nat) (rx : RxFrame) (s : State) : State :=
  if rx.mpackets.isEmpty then ballOut p (.frame p rx.bytes rx.fcsGood) s
  else rx.mpackets.foldl (fun s m => ballOut p (.mpacket p m (!m.last || rx.fcsGood)) s) s

/-- RX_FRAME_COMPLETE (R80). In near-end loopback the frame is the oldest that the port has sent itself, and the command
gives only how it arrived (R74). -/
def execRxFrameComplete (p : Port) (rx : RxFrame) (s : State) : Out :=
  act s fun s =>
    let p := p.val
    if s.linkState p = 6 ∧ farEnd s p then farSend p rx s
    else if !s.linkUp p && !rx.linkLost then s
    else if nearEnd s p then
      match (s.port p).mac.loop.head? with
      | some (.frame _ b good) => rxReceive p { rx with bytes := b, fcsGood := good, mpackets := [] } (loopTaken p s)
      | some (.mpacket _ m good) => rxReceive p { rx with fcsGood := good, mpackets := [m] } (loopTaken p s)
      | _ => s
    else rxReceive p rx s

/-- PAUSE_TIME_EXPIRY (R88). -/
def execPauseTimeExpiry (p : Port) (cls : Fin 8) (s : State) : Out :=
  act s fun s => pauseShow p.val (pauseSet p.val cls.val 0 s)

/-- PAUSE_REFRESH (R90). -/
def execPauseRefresh (p : Port) (s : State) : Out :=
  act s fun s =>
    let p := p.val
    let m := xoffMask s (stationOf p) (localOf p)
    if m = 0 then s
    else match fcMode s p with
      | 1 => pauseSend p (s.get (Reg.MAC_FC_TIME p) Fld.MAC_FC_TIME_QUANTA) s
      | 2 => pfcSend p m 0 s
      | _ => s

/-- A write of MAC_CFG: frames whose first byte arrived before it keep MAX_LEN as it stood (R79). -/
def macCfgWrite (p a : Nat) (value : Word) (s : State) : State :=
  let old := s.maxLen p
  let s := s.store a value
  if s.maxLen p = old then s else s.modMac p fun m => { m with limits := m.limits ++ [(s.now, old)] }

/-! ### Merge sublayer -/

/-- A write of MAC_MERGE_CFG (R92, R93). A write that sets EN starts one verification, whatever it does to
VERIFY_DIS. -/
def mergeWrite (p : Nat) (value : Word) (s : State) : State :=
  let dis := verifyDis s p
  let was := (s.port p).mac.mergeEn
  let en := mergeEnCfg s p
  let s := s.store (Reg.MAC_MERGE_CFG p) value
  let s := s.modMac p fun m => { m with mergeRise := m.mergeRise && mergeEnCfg s p || !en && mergeEnCfg s p }
  let s := mergeSettle p s
  if !was || !(s.port p).mac.mergeEn || dis == verifyDis s p then activeUpdate p s
  else verifyStart p s

/-- MERGE_CFG_WRITE (R92). -/
def execMergeCfgWrite (p : Port) (value : Word) (s : State) : Out := act s (mergeWrite p.val value)

/-- MERGE_EN_TAKES_EFFECT (R93). -/
def execMergeEnTakesEffect (p : Port) (s : State) : Out := act s (mergeSettle p.val)

/-- VERIFY_TIMER (R92). -/
def execVerifyTimer (p : Port) (s : State) : Out :=
  act s fun s =>
    let p := p.val
    if verifyState s p ≠ 2 then s
    else if (s.port p).mac.verifyTries < 3 then verifySend p s
    else (setVerify p 4 s).raise (Reg.MAC_EVENT p) Fld.MAC_EVENT_VERIFY_FAIL

/-- A verify or respond mPacket is received: in near-end loopback only one that the port has sent itself, in its turn. -/
def loopReceive (p : Nat) (o : Output) (f : State → State) (s : State) : State :=
  if !nearEnd s p then f s else if (s.port p).mac.loop.head? = some o then f (loopTaken p s) else s

/-- VERIFY_MPACKET_RECEIVED (R92). A port in far-end loopback sends what it receives (R74). While EN is 0 it is counted
nowhere (DESIGN CHOICE, log 127). -/
def execVerifyMpacketReceived (p : Port) (s : State) : Out :=
  act s fun s =>
    let p := p.val
    if s.linkState p = 6 ∧ farEnd s p then ballOut p (.verify p) s
    else loopReceive p (.verify p) (fun s =>
      if (s.port p).mac.mergeEn && s.linkState p == 4 then lineOut p (.respond p) s else s) s

/-- RESPOND_MPACKET_RECEIVED (R92, R74). -/
def execRespondMpacketReceived (p : Port) (s : State) : Out :=
  act s fun s =>
    let p := p.val
    if s.linkState p = 6 ∧ farEnd s p then ballOut p (.respond p) s
    else loopReceive p (.respond p) (fun s =>
      if verifyState s p = 2 then
        activeUpdate p ((setVerify p 3 s).raise (Reg.MAC_EVENT p) Fld.MAC_EVENT_VERIFY_OK)
      else s) s

/-! ### Statistics -/

/-- The 72 counters of a port read 0 (R98). -/
def statClear (p : Nat) (s : State) : State := (List.range 72).foldl (fun s k => s.cntSet (Reg.MAC_STAT_LO p k) 0) s

/-- STAT_CLEAR (R98). -/
def execStatClear (p : Port) (s : State) : Out := act s (statClear p.val)

end Sys2Proof.Machine
end

