-- ==== Sys2Proof/Machine/Parser.lean ====
section
/-! DEFINITION. The parse graph (ch. 5): nodes and transitions, the walk with its header checks, the flow key with its
signature and direction, the writes of the parse planes, of the salt's commit and of the punt buckets. -/
namespace Sys2Proof.Machine

/-! ### Nodes and transitions -/

/-- A parse node (Table 05.1). -/
structure PNode where
  valid : Bool
  hdrId : Nat
  lenMode : Nat
  lenBase : Nat
  lenOff : Nat
  lenShift : Nat
  lenWidth : Nat
  lenUnit : Nat
  selEnd : Bool
  selOff : Nat
  selMask : Nat
  transBase : Nat
  transCnt : Nat
  defNext : Nat
  failReason : Nat
  check : Nat
  deriving DecidableEq, Repr

/-- The fields of a 128-bit node. -/
def nodeOf (n : Nat) : PNode :=
  { valid := bit n 127, hdrId := bits n 126 121, lenMode := bits n 120 119, lenBase := bits n 118 111
    lenOff := bits n 110 103, lenShift := bits n 102 99, lenWidth := bits n 98 95, lenUnit := bits n 94 93
    selEnd := bit n 92, selOff := bits n 91 84, selMask := bits n 83 68, transBase := bits n 67 57
    transCnt := bits n 56 53, defNext := bits n 52 44, failReason := bits n 43 38, check := bits n 37 35 }

/-- Node n of a plane of a station (R100). -/
def parseNode (s : State) (st pl n : Nat) : PNode :=
  nodeOf (((List.range 4).map fun w => s.rdN (Reg.PRS_NODE st pl n w) * 2 ^ (32 * w)).sum)

/-- The node is defined and valid under Tables 05.2 and 05.3. -/
def PNode.ok (n : PNode) : Bool := n.valid && n.lenMode != 3 && n.check != 7

/-- The word of a node's error in MEM 13, and that of a transition entry (DESIGN CHOICE, log 43). -/
def nodeIdx (pl n : Nat) : Nat := 256 * pl + n

def transIdx (pl t : Nat) : Nat := 512 + 2048 * pl + t

/-- Whether entry t of a plane is live and matches a select value, and the node it names (R101, R102). -/
def transNext (s : State) (st pl t sel : Nat) : Option Nat :=
  let lo := s.rdN (Reg.PRS_TRANS st pl t 0)
  let hi := s.rdN (Reg.PRS_TRANS st pl t 1)
  if 2048 ≤ t then none
  else if bit hi 31 && (sel &&& bits lo 31 16) == (bits lo 15 0 &&& bits lo 31 16) then some (bits hi 24 16) else none

/-- The next node (R101). -/
def nextNode (s : State) (st pl : Nat) (n : PNode) (sel : Nat) : Nat :=
  ((List.range n.transCnt).findSome? fun k => transNext s st pl (n.transBase + k) sel).getD n.defNext

/-! ### Reads (R105) -/

/-- Reason of a read of n bytes at an offset: TRUNCATED or WINDOW; none if it may be made. -/
def readFault (b : List Byte) (off n : Nat) : Option Nat :=
  if b.length < off + n then some 6 else if 256 < off + n then some 5 else none

/-- n bytes at an offset in network byte order, or the reason that the read raises. -/
def readBe (b : List Byte) (off n : Nat) : Except Nat Nat :=
  match readFault b off n with
  | some r => .error r
  | none => .ok (be b off n)

/-- The header length of a node at an offset (Table 05.2). -/
def headerLength (n : PNode) (b : List Byte) (off : Nat) : Except Nat Nat :=
  if n.lenMode = 0 then .ok n.lenBase
  else
    match readBe b (off + n.lenOff) 2 with
    | .error r => .error r
    | .ok w =>
      let v := w / 2 ^ n.lenShift % 2 ^ (if n.lenWidth = 0 then 16 else n.lenWidth)
      let v := if n.lenMode = 2 then ((List.range 16).filter fun k => v.testBit k).length else v
      .ok (n.lenBase + v * 2 ^ n.lenUnit)

/-- The select value (R101). With SEL_MASK 0 no word is read, and so no reason raised (DESIGN CHOICE, log 142). A
select word that begins before the frame's first byte holds a free byte there (DESIGN CHOICE, log 42). -/
def selectValue (n : PNode) (b : List Byte) (off len free : Nat) : Except Nat Nat :=
  if n.selMask = 0 then .ok 0
  else if n.selEnd then
    if n.selOff + 2 ≤ off + len then (readBe b (off + len - 2 - n.selOff) 2).map fun w => w &&& n.selMask
    else if n.selOff + 1 = off + len then .ok ((free % 256 * 256 + be b 0 1) &&& n.selMask)
    else .ok (free % 65536 &&& n.selMask)
  else (readBe b (off + n.selOff) 2).map fun w => w &&& n.selMask

/-! ### Checks (R103, R107) -/

/-- Ones' complement sum of n 16-bit words at an offset, or the reason of a read. -/
def sumWords (b : List Byte) : Nat → Nat → Nat → Except Nat Nat
  | _, 0, acc => .ok acc
  | off, n + 1, acc =>
    match readBe b off 2 with
    | .error r => .error r
    | .ok w => sumWords b (off + 2) n ((acc + w) % 65536 + (acc + w) / 65536)

/-- What a check finds: the header is whole, or is a fragment, with or without offset 0. -/
abbrev CheckResult := Except Nat (Option Bool)

def checkIpv4 (b : List Byte) (off : Nat) : CheckResult := do
  let v ← readBe b off 1
  if v / 16 ≠ 4 ∨ v % 16 < 5 then .error 8
  else do
    let total ← readBe b (off + 2) 2
    if b.length - off < total then .error 8
    else do
      let sum ← sumWords b off (2 * (v % 16)) 0
      if sum ≠ 65535 then .error 9
      else do
        let w ← readBe b (off + 6) 2
        .ok (if w % 16384 ≠ 0 then some (w % 8192 == 0) else none)

def checkIpv6 (b : List Byte) (off : Nat) : CheckResult := do
  let v ← readBe b off 1
  if v / 16 ≠ 6 then .error 10
  else do
    let n ← readBe b (off + 4) 2
    if b.length - off < n + 40 then .error 10 else .ok none

/-- CHECK of a node (Table 05.3). -/
def applyCheck (n : PNode) (b : List Byte) (off len : Nat) : CheckResult :=
  match n.check with
  | 1 => checkIpv4 b off
  | 2 => checkIpv6 b off
  | 4 => .ok (some (be ((b.take 256).drop (off + 2)) 0 2 / 8 == 0))
  | 5 => if len < 8 then .error 7 else .ok none
  | 6 => do
    let v ← readBe b (off + 12) 1
    if v / 16 < 5 then .error 12 else .ok none
  | _ => .ok none

/-! ### The walk (R104) -/

/-- A role that a header plays in the flow key (Table 05.3), in the order of the walk. -/
inductive Role where
  | l3 (off : Nat) (v6 : Bool) (len : Nat)
  | proto (v : Nat)
  | l4 (off : Nat) (tcp : Bool)
  deriving DecidableEq, Repr

def Role.isL3 : Role → Bool
  | .l3 .. => true
  | _ => false

def Role.isL4 : Role → Bool
  | .l4 .. => true
  | _ => false

/-- What a walk has gathered. -/
structure Walk where
  off : Nat := 0
  hv : List (Nat × Nat) := []
  roles : List Role := []
  /-- Parsing ended at a fragment (R107), with fragment offset 0 or not. -/
  frag : Option Bool := none
  /-- The reason that ended it. -/
  reason : Option Nat := none
  deriving DecidableEq, Repr

/-- Number of zero bits below the lowest set bit of a mask of 16 bits. -/
def maskShift (m : Nat) : Nat := ((List.range 16).find? fun k => m.testBit k).getD 0

/-- The roles of a node's header. Of a protocol wider than the key's byte the low eight bits count (R103; DESIGN
CHOICE, log 142). -/
def nodeRoles (n : PNode) (off len sel : Nat) : List Role :=
  let p := Role.proto (sel / 2 ^ maskShift n.selMask % 256)
  match n.check with
  | 1 => [.l3 off false len, p]
  | 2 => [.l3 off true len, p]
  | 3 | 4 => [p]
  | 5 => [.l4 off false]
  | 6 => [.l4 off true]
  | _ => []

/-- The reason that FAIL raises through a node's FAIL_REASON (R112). -/
def failReason (r : Nat) : Nat := if 2 ≤ r ∧ r ≤ 16 then r else 3

/-- One visit: the select value, or the reason raised, and the walk with the header taken in. Under FRAG_MODE 1 a
fragmented header is taken in as any other, and its select word is read, before the walk ends there (DEDUCED, log 47). -/
def visit (n : PNode) (b : List Byte) (fragMode : Bool) (free : Nat) (w : Walk) : Except Nat (Nat × Walk) := do
  let len ← headerLength n b w.off
  if n.lenMode ≠ 0 ∧ len = 0 then .error 7
  else if b.length < w.off + len then .error 6
  else do
    let fr ← applyCheck n b w.off len
    if fr.isSome ∧ !fragMode then .error 11
    else do
      let sel ← selectValue n b w.off len free
      .ok (sel, { w with off := w.off + len
                         hv := if 0 < len then w.hv ++ [(n.hdrId, w.off)] else w.hv
                         roles := w.roles ++ nodeRoles n w.off len sel
                         frag := fr })

/-- The node is read from its plane; one in error is invalid (Table 22.4, MEM 13). -/
def readNode (st pl n : Nat) (s : State) : Option PNode × State :=
  let (r, s) := odRead 13 st (nodeIdx pl n) s
  if r = .bad then (none, s)
  else
    let p := parseNode s st pl n
    (if p.ok then some p else none, s)

/-- The entries that a node names are read; one in error raises NODE_INVALID. -/
def readTrans (st pl : Nat) (n : PNode) (s : State) : Bool × State :=
  if s.tinker.errors.isEmpty then (true, s)
  else
    (List.range n.transCnt).foldl (fun (r : Bool × State) k =>
      let (e, s) := odRead 13 st (transIdx pl (n.transBase + k)) r.2
      (r.1 && e != .bad, s)) (true, s)

/-- The walk from a node: at most 24 visits. `prev` is FAIL_REASON of the node before. -/
def walk (st pl : Nat) (fragMode : Bool) (b : List Byte) : Nat → Nat → Nat → Walk → State → Walk × State
  | fuel, node, prev, w, s =>
    if node = 256 then (w, s)
    else if 257 ≤ node then ({ w with reason := some (failReason prev) }, s)
    else
      match readNode st pl node s with
      | (none, s) => ({ w with reason := some 2 }, s)
      | (some n, s) =>
        match fuel with
        | 0 => ({ w with reason := some 4 }, s)
        | fuel + 1 =>
          let (free, s) := if n.selEnd && decide (w.off < n.selOff + 2) then s.drawNat else (0, s)
          match visit n b fragMode free w with
          | .error r => ({ w with reason := some r }, s)
          | .ok (sel, w) =>
            if w.frag.isSome then (w, s)
            else
              match readTrans st pl n s with
              | (false, s) => ({ w with reason := some 2 }, s)
              | (true, s) => walk st pl fragMode b fuel (nextNode s st pl n sel) n.failReason w s

/-! ### Flow key, signature and direction (R106 to R110) -/

/-- CRC-64, most significant bit first (R109). -/
def crc64Bit (c : Nat) : Nat := if c.testBit 63 then (c * 2 % 2 ^ 64) ^^^ 0x42F0E1EBA9EA3693 else c * 2

def crc64Byte (c : Nat) (b : Byte) : Nat :=
  let c := c ^^^ (b.toNat * 2 ^ 56)
  crc64Bit (crc64Bit (crc64Bit (crc64Bit (crc64Bit (crc64Bit (crc64Bit (crc64Bit c)))))))

def crc64 (bs : List Byte) : Nat := bs.foldl crc64Byte (2 ^ 64 - 1)

/-- PRS_SALT. -/
def prsSalt (s : State) (st : Nat) : Nat := s.rdN (Reg.PRS_SALT_LO st) + 2 ^ 32 * s.rdN (Reg.PRS_SALT_HI st)

/-- The signature of a key. -/
def flowSig (s : State) (st : Nat) (key : List Byte) : Nat := crc64 key ^^^ prsSalt s st

/-- ::ffff:a.b.c.d. -/
def v4Mapped (a : Nat) : Nat := 0xFFFF * 2 ^ 32 + a

/-- What the parse supplies to the key and to the searches (R106, R186): addresses, ports, protocol. -/
structure Endpoints where
  src : Nat := 0
  dst : Nat := 0
  sport : Nat := 0
  dport : Nat := 0
  proto : Nat := 0
  tos : Nat := 0
  hop : Nat := 0
  flags : Nat := 0
  v6 : Bool := false
  /-- Destination address as the packet holds it (R131). -/
  rawDst : Nat := 0
  deriving DecidableEq, Repr

/-- A byte that the parser may read; 0 where there is none. -/
def peekByte (b : List Byte) (off : Nat) : Nat := if off < 256 then be b off 1 else 0

/-- The roles from the L3 header that supplies the addresses up to the next L3 header: its own first. -/
def keyRoles (depth : Bool) (frag : Bool) (roles : List Role) : Option (List Role) :=
  let idx := (List.range roles.length).filter fun k => (roles.getD k (.proto 0)).isL3
  let pick := if frag || depth then idx.getLast? else idx.head?
  pick.map fun k =>
    let r := roles.drop k
    r.take 1 ++ (r.drop 1).takeWhile fun x => !x.isL3

/-- The protocol: the last value before the L4 header. -/
def keyProto (rs : List Role) : Nat :=
  (rs.takeWhile fun x => !x.isL4).foldl (fun a x => match x with | .proto v => v | _ => a) 0

/-- The addresses and the protocol that a key takes from its L3 header, or the reason of a read that fails. -/
def keyAddrs (b : List Byte) (rs : List Role) : Except Nat Endpoints :=
  match rs with
  | .l3 off v6 _ :: _ => do
    let (a, c) := if v6 then (off + 8, off + 24) else (off + 12, off + 16)
    let n := if v6 then 16 else 4
    let src ← readBe b a n
    let dst ← readBe b c n
    .ok { src := if v6 then src else v4Mapped src, dst := if v6 then dst else v4Mapped dst, proto := keyProto rs
          tos := if v6 then (peekByte b off % 16) * 16 + peekByte b (off + 1) / 16 else peekByte b (off + 1)
          hop := peekByte b (if v6 then off + 7 else off + 8), v6 := v6, rawDst := dst }
  | _ => .ok {}

/-- The ports that a key takes from its L4 header. -/
def keyPorts (b : List Byte) (frag : Bool) (rs : List Role) (e : Endpoints) : Except Nat Endpoints :=
  match if frag then none else (rs.drop 1).find? Role.isL4 with
  | some (.l4 p tcp) => do
    let sp ← readBe b p 2
    let dp ← readBe b (p + 2) 2
    .ok { e with sport := sp, dport := dp, flags := if tcp then peekByte b (p + 13) else 0 }
  | _ => .ok e

/-- The 40-B key (Table 05.5) and the direction bit. -/
def keyBytes (guild zone : Nat) (e : Endpoints) : List Byte × Nat :=
  let x := e.src * 65536 + e.sport
  let y := e.dst * 65536 + e.dport
  (beBytes 1 guild ++ beBytes 2 zone ++ beBytes 1 e.proto ++ beBytes 18 (min x y) ++ beBytes 18 (max x y),
   if y < x then 1 else 0)

/-- What a parse leaves (R104 to R110). -/
structure Parsed where
  hv : List (Nat × Nat) := []
  parseEnd : Nat := 0
  key : Option (List Byte) := none
  sig : Nat := 0
  d : Nat := 0
  /-- The addresses of the search key and of the route lookup; none without an L3 header. -/
  ends : Option Endpoints := none
  frag : Option Bool := none
  l3 : Option (Nat × Nat) := none
  /-- Reasons raised, in order; the last decides. -/
  reasons : List Nat := []
  deriving DecidableEq, Repr

/-- ACTION of a reason of 2 to 23, 3 treated as PUNT (Table 05.9). -/
def reasonAction (s : State) (st r : Nat) : Nat :=
  let a := s.get (Reg.PRS_REASON st r) Fld.PRS_REASON_ACTION
  if a = 3 then 0 else a

/-- KEY_DEPTH and ZONE of a frame: of its port, or of its INJ descriptor. -/
def frameDepth (s : State) (st : Nat) (f : Frame) : Bool :=
  if f.inj then f.keyDepth else s.getB (Reg.PRS_PORT st (localOf f.inPort)) Fld.PRS_PORT_KEY_DEPTH

def frameZone (s : State) (st : Nat) (f : Frame) : Nat :=
  if f.inj then f.zone else s.get (Reg.PRS_PORT st (localOf f.inPort)) Fld.PRS_PORT_ZONE

/-- COMMIT of PRS_CFG: keys may be taken (R110). -/
def keysOn (s : State) (st : Nat) : Bool := s.getB (Reg.PRS_CFG st) Fld.PRS_CFG_COMMIT

/-- The key is built from a walk (R106 to R110). Without COMMIT the frame has no valid signature; it keeps the
direction of R108, where a frame without addresses or ports to compare has 0 (DESIGN CHOICE, log 142). A read of the
ports that fails leaves the addresses, which a route lookup takes all the same (R131; DEDUCED, log 130). -/
def buildKey (s : State) (st : Nat) (f : Frame) (w : Walk) (p : Parsed) : Parsed :=
  match keyRoles (frameDepth s st f) w.frag.isSome w.roles with
  | none => p
  | some rs =>
    match keyAddrs f.bytes rs with
    | .error r => { p with reasons := p.reasons ++ [r] }
    | .ok e =>
      match keyPorts f.bytes w.frag.isSome rs e with
      | .error r => { p with reasons := p.reasons ++ [r], ends := some e }
      | .ok e =>
        let (key, d) := keyBytes f.guild (frameZone s st f) e
        if keysOn s st then { p with key := some key, sig := flowSig s st key, d := d, ends := some e }
        else { p with d := d, ends := some e }

/-- The first L3 header of the header vector: offset and length (R263). -/
def firstL3 (roles : List Role) : Option (Nat × Nat) :=
  roles.findSome? fun r => match r with | .l3 o _ n => if 0 < n then some (o, n) else none | _ => none

/-- PARSE_PASS: a frame is parsed from a start node under a plane. -/
def parsePass (st pl start : Nat) (f : Frame) (s : State) : Parsed × State :=
  let (w, s) := walk st pl (s.getB (Reg.PRS_CFG st) Fld.PRS_CFG_FRAG_MODE) f.bytes 24 start 0 {} s
  let p : Parsed := { hv := w.hv, parseEnd := w.off, frag := w.frag, l3 := firstL3 w.roles, reasons := w.reason.toList }
  match w.reason with
  | some r => if reasonAction s st r = 2 then (buildKey s st f w p, s) else (p, s)
  | none => (buildKey s st f w p, s)

/-! ### Writes (R110, R111, R114) -/

def oldBusy (s : State) (st : Nat) : Bool := s.getB (Reg.PRS_STATUS st) Fld.PRS_STATUS_OLD_BUSY

def activePlane (s : State) (st : Nat) : Nat := s.get (Reg.PRS_CFG st) Fld.PRS_CFG_ACTIVE

def prsWrErr (st : Nat) (s : State) : State := s.raise (Reg.PRS_STATUS st) Fld.PRS_STATUS_WR_ERR

/-- A write of PRS_CFG. OLD_BUSY reads 0 in Thaw service (R421). -/
def prsCfgWrite (st : Nat) (v : Word) (s : State) : State :=
  let flips := Fld.PRS_CFG_ACTIVE.of v != activePlane s st
  if flips && oldBusy s st then prsWrErr st s
  else
    let s := s.store (Reg.PRS_CFG st) v
    if flips && s.full st then s.raise (Reg.PRS_STATUS st) Fld.PRS_STATUS_OLD_BUSY else s

/-- PARSE_PLANE_SWITCH (R111). -/
def execParsePlaneSwitch (st : Station) (value : Word) (s : State) : Out := act s (prsCfgWrite st.val value)

/-- OLD_PLANE_DRAINED (R111). -/
def execOldPlaneDrained (st : Station) (s : State) : Out :=
  act s fun s => s.put (Reg.PRS_STATUS st.val) Fld.PRS_STATUS_OLD_BUSY 0

/-- PRS_COMMIT (R110): a write of PRS_CFG that sets COMMIT. -/
def execPrsCommit (st : Station) (value : Word) (s : State) : Out := act s (prsCfgWrite st.val value)

/-- A write of the node or transition memory at an offset of the PRS block: its plane, its word, the bits it keeps, the
word of MEM 13. -/
def parseMemAt (o : Nat) : Option (Nat × Nat × Nat) :=
  if 0x10000 ≤ o ∧ o < 0x12000 then
    let k := (o - 0x10000) / 4
    some (k / 1024, match k % 4 with | 0 => 0 | 1 => 0xFFFFFFF8 | _ => 0xFFFFFFFF, nodeIdx (k / 1024) (k % 1024 / 4))
  else if 0x20000 ≤ o ∧ o < 0x28000 then
    let k := (o - 0x20000) / 4
    some (k / 4096, if k % 2 = 0 then 0xFFFFFFFF else 0x81FF0000, transIdx (k / 4096) (k % 4096 / 2))
  else none

/-- A write to the parse memories at an address. -/
def parseMemWrite (a : Nat) (v : Word) (s : State) : State :=
  let st := (a - stationBase 0) / (stationBase 1 - stationBase 0)
  if a < stationBase 0 ∨ 12 ≤ st then s
  else
    match parseMemAt (a - stationBase st - 0xC0000) with
    | none => s
    | some (pl, keep, idx) =>
      if a < stationBase st + 0xC0000 then s
      else if pl = activePlane s st ∨ oldBusy s st then prsWrErr st s
      else odWrite 13 st idx (s.wr a (v &&& BitVec.ofNat 32 keep))

/-- PARSE_MEMORY_WRITE (R111). -/
def execParseMemoryWrite (addr : Nat) (value : Word) (s : State) : Out :=
  act s (parseMemWrite (addr - addr % 4) value)

/-- A write of a punt bucket's word sets its tokens to the new BURST (R114): a bucket that is not listed is full. -/
def puntBucketFill (g r : Nat) (s : State) : State :=
  s.modGuild g fun h => { h with buckets := h.buckets.filter fun e => e.1 != r }

/-- A write of word 0 or word 1 of a bucket. -/
def puntBucketWrite (g r : Nat) (burst : Bool) (v : Word) (s : State) : State :=
  puntBucketFill g r (s.store (if burst then Reg.HIF_PUNT_BKT_BURST g r else Reg.HIF_PUNT_BKT_RATE g r) v)

/-- PUNT_BUCKET_WRITE (R114). `burst`: word 1 of the bucket. -/
def execPuntBucketWrite (g : Guild) (reason : Fin 64) (burst : Bool) (value : Word) (s : State) : Out :=
  act s (puntBucketWrite g.val reason.val burst value)

end Sys2Proof.Machine
end

