-- ==== Sys2Proof/Machine/Sched.lean ====
section
/-! DEFINITION. The task scheduler as the other blocks use it (ch. 12): task slots, dependence counts, ready lists, the
end of a task, and what a station-fatal error does. -/
namespace Sys2Proof.Machine

/-! ### Tasks -/

/-- The task in a slot; a write of it (MEM 4 of Table 22.3). -/
def State.task? (s : State) (st k : Nat) : Option Task := aget? k (s.stn st).tasks.slots

def State.setTask (st k : Nat) (t : Task) (s : State) : State :=
  odPart 4 st k (s.modTasks st fun x => { x with slots := aset k t x.slots })

/-- The task in a slot changes; nothing happens in a FREE slot. -/
def State.modTask (st k : Nat) (f : Task → Task) (s : State) : State :=
  match s.task? st k with
  | some t => s.setTask st k (f t)
  | none => s

/-- An express-class task or frame. -/
def Task.express (t : Task) : Bool := t.frame.cls == 7

/-- The parser lane that supplied a task's pass (R251): 0 recirculated, 1 express, 2 other. -/
def Task.lane (t : Task) : Nat := if t.pass ≠ 0 then 0 else if t.express then 1 else 2

/-- The weighted group of an ingress class (Table 12.7). -/
def classGroup (s : State) (st c : Nat) : Nat := s.cfg (Reg.TSK_GROUP_MAP st) Fld.TSK_GROUP_MAP_MAP / 4 ^ c % 4

/-- The ready list of a task: 4 the express list, 0 to 3 the weighted groups. -/
def readyList (s : State) (st : Nat) (t : Task) : Nat := if t.express then 4 else classGroup s st t.frame.cls

/-- A task joins the tail, or the head, of its ready list. -/
def readyPush (st k : Nat) (head : Bool) (s : State) : State :=
  match s.task? st k with
  | none => s
  | some t =>
    let g := readyList s st t
    let s := s.setTask st k { t with st := .ready }
    s.modTasks st fun x =>
      let l := aget [] g x.ready
      { x with ready := aset g (if head then k :: l else l ++ [k]) x.ready }

/-- A task leaves its ready list or its hand-off. A group whose list empties loses its deficit (R244). -/
def readyDrop (st k : Nat) (s : State) : State :=
  s.modTasks st fun x =>
    let ready := x.ready.filterMap fun e =>
      let l := e.2.filter (· != k)
      if l.isEmpty then none else some (e.1, l)
    { x with ready := ready
             deficit := x.deficit.filter fun d => ready.any fun e => e.1 == d.1
             handTo := x.handTo.filter fun e => e.2 != k }

/-- A task's dependence count falls by one; at 0 it leaves WAITING and joins its list (R243, R244). A task that is not
in PARSING or WAITING has nothing to wait for. -/
def depDone (st k : Nat) (s : State) : State :=
  match s.task? st k with
  | none => s
  | some t =>
    if t.st ≠ .parsing ∧ t.st ≠ .waiting then s
    else
      let t := { t with cnt := t.cnt - 1 }
      let s := s.setTask st k t
      if t.cnt = 0 ∧ t.st = .waiting then readyPush st k false s else s

/-- A task is DONE with a decision (Table 12.1). -/
def taskDone (st k : Nat) (d : Decision) (s : State) : State :=
  s.modTask st k fun t =>
    { t with st := .done, dec := d, cnt := 0, eptWait := false, routeWait := false, ice := .none, ruleWait := .none }

/-- A task is DONE as a drop. -/
def taskDrop (st k : Nat) (s : State) : State := taskDone st k {} s

/-- RES_LIMIT as treated, ns (Table 12.5). -/
def resLimit (s : State) (st : Nat) : Nat := 1000 * clampNat 8 56 (s.cfg (Reg.TSK_CFG st) Fld.TSK_CFG_RES_LIMIT)

/-- A drop at the residency limit is counted and latched (R249). -/
def resDropCount (st : Nat) (s : State) : State :=
  (s.tick (Reg.TSK_CNT_LO st 5)).raise (Reg.TSK_EVENT st) Fld.TSK_EVENT_RES_DROP

/-! ### Station-fatal errors -/

/-- A stop request reaches the engines of a station that run a routine (R217). -/
def stopRequest (st : Nat) (s : State) : State :=
  s.modTasks st fun t => { t with stop := t.engines.map Prod.fst }

/-- A station's drain begins (R283, steps 1 and 2): XOFF on every lossless class, a stop request to its engines. -/
def drainBegin (st : Nat) (forCmd : Option CmdRef) (s : State) : State :=
  let s := stopRequest st (s.modStn st fun n => { n with draining := true, drain := forCmd })
  xoffUpdate st (s.raise (Reg.MOR_STATUS st) Fld.MOR_STATUS_DRAINING)

/-- A station-fatal error (MEM 4 of Table 22.4): the station drains without a command, and every frame of its egress
buffer is discarded in DOWN_DROPS. -/
def stationFatal (st idx : Nat) (s : State) : State :=
  let s := odClear 4 st idx (odReport 2 4 st idx s)
  let s := if (s.stn st).draining then s else drainBegin st none s
  (List.range 12).foldl (fun s i => mergeSettle (12 * st + i) (portDiscard (12 * st + i) s)) s

/-- A word of the scheduler and queue state is read: false where it holds an uncorrectable error, which is
station-fatal. -/
def schedRead (st idx : Nat) (s : State) : Bool × State :=
  match odError s 4 st idx with
  | none => (true, s)
  | some e => if e.uncorr then (false, stationFatal st idx s) else (true, (odRead 4 st idx s).2)

end Sys2Proof.Machine
end

