-- ==== Sys2Proof/Machine/Egress.lean ====
section
/-! DEFINITION. The egress scheduler of a port (ch. 15): time gates (R296 to R302), the choice of the next frame (R292
to R294), the two MACs (R295, R94), the end of a frame (R290, R300, R319), queue sampling (R304). -/
namespace Sys2Proof.Machine

/-! ### Time gates -/

def gateOn (s : State) (p : Nat) : Bool := s.getB (Reg.EGR_PORT_CFG (stationOf p) (localOf p)) Fld.EGR_PORT_CFG_GATE_EN

def gclCtl (p : Nat) : Nat := Reg.EGR_GCL_CTL (stationOf p) (localOf p)

/-- The bank in force. -/
def gclBank (s : State) (p : Nat) : Nat := s.get (gclCtl p) Fld.EGR_GCL_CTL_ACTIVE

def gclInterval (s : State) (p b k : Nat) : Nat :=
  s.get (Reg.EGR_GATE_INTERVAL (stationOf p) (localOf p) b k) Fld.EGR_GATE_INTERVAL_VALUE

def gclGates (s : State) (p b k : Nat) : Nat :=
  s.get (Reg.EGR_GATE_GATES (stationOf p) (localOf p) b k) Fld.EGR_GATE_GATES_VALUE

/-- An entry of the list in force: its start in the cycle, ns, its gates, its number. -/
structure Seg where
  start : Nat
  gates : Nat
  entry : Nat
  deriving DecidableEq, Repr

/-- The entries of the list in force that begin before the cycle ends (R297): those from entry k on, which begins at
t. -/
def gateSegsFrom (s : State) (p cycle : Nat) : (n k t : Nat) → List Seg
  | 0, _, _ => []
  | n + 1, k, t =>
    if cycle ≤ t then []
    else ⟨t, gclGates s p (gclBank s p) k, k⟩ :: gateSegsFrom s p cycle n (k + 1) (t + gclInterval s p (gclBank s p) k)

def gateSegs (s : State) (p : Nat) : List Seg :=
  let g := (s.port p).egr.gates
  gateSegsFrom s p g.cycle g.len 0 0

/-- Varve time as gate lists see it: the low 32 bits of SEC with NS (R315), 1/256 ns. -/
def State.vtGate (s : State) : Nat := s.vt % (256 * 1000000000 * 2 ^ 32)

/-- The place of Varve time in the cycle, 1/256 ns (R297). Before BASE the cycles are counted back from it (DEDUCED,
log 72). -/
def gatePos (s : State) (p : Nat) : Nat :=
  let g := (s.port p).egr.gates
  let c := 256 * max 1 g.cycle
  (s.vtGate % c + c - 256 * g.base % c) % c

/-- The number among the entries of the one in force. -/
def gateIndex (s : State) (p : Nat) : Nat :=
  ((gateSegs s p).filter fun g => decide (256 * g.start ≤ gatePos s p)).length - 1

def segAt (l : List Seg) (j : Nat) : Seg := l.getD j ⟨0, 0, 0⟩

/-- Gate states in force: every gate is open while GATE_EN is 0 (R296). -/
def gatesNow (s : State) (p : Nat) : Nat := if gateOn s p then (segAt (gateSegs s p) (gateIndex s p)).gates else 0xFF

/-- Time from now to the first boundary at which class c's bit goes from 1 to 0, 1/256 ns; none where it never
does (R298). -/
def gateCloseIn (s : State) (p c : Nat) : Option Nat :=
  let l := gateSegs s p
  let n := l.length
  let j := gateIndex s p
  let cyc := (s.port p).egr.gates.cycle
  ((List.range n).map fun m => j + m + 1).findSome? fun q =>
    let g := segAt l (q % n)
    if (segAt l ((q - 1) % n)).gates.testBit c && !g.gates.testBit c then
      some (256 * (q / n * cyc + g.start) - gatePos s p)
    else none

/-- Bit 7 stands in each of the n entries of a bank. -/
def sevenOpen (s : State) (p b n : Nat) : Bool := (List.range n).all fun k => (gclGates s p b k).testBit 7

/-- Gates never delay class 7: bit 7 stands in every entry of the list in force and of a list pending (R303, and row 12
of Table 16.2). -/
def sevenFree (s : State) (p : Nat) : Bool :=
  let g := (s.port p).egr.gates
  sevenOpen s p (gclBank s p) g.len && (g.changeAt.isNone || sevenOpen s p (1 - gclBank s p) g.nextLen)

/-- Time from now to a class's close, the change instant of a pending switch included (R298). A list that brings bit 7
in every entry closes nothing for class 7 as it takes effect, before or after a time step (R303, R310). -/
def closeIn (s : State) (p c : Nat) : Option Nat :=
  if c = 7 ∧ sevenFree s p = true then none
  else match (s.port p).egr.gates.changeAt, gateCloseIn s p c with
    | none, x => x
    | some t, none => some (256 * t - s.vtGate)
    | some t, some x => some (min x (256 * t - s.vtGate))

/-- GUARD as treated, 1/256 ns. -/
def gateGuard (s : State) (p : Nat) : Nat :=
  256 * min 2048 (s.get (Reg.EGR_GCL_GUARD (stationOf p) (localOf p)) Fld.EGR_GCL_GUARD_GUARD)

/-- 8 × (F + 8) / R in 1/256 ns, rounded up (R299). -/
def wireTime (s : State) (p : Nat) (f : Frame) : Nat :=
  let r := s.portRate p
  (2048 * (f.padLen + 8) + r - 1) / r

/-- The gate of class c is open and the frame fits (R292, R299). -/
def gateFits (s : State) (p c : Nat) (f : Frame) : Bool :=
  !gateOn s p ||
    ((gatesNow s p).testBit c &&
      (match closeIn s p c with
       | none => true
       | some d => decide (wireTime s p f + gateGuard s p ≤ d)))

/-- The longest run of intervals, ns, in which class c is open, over two cycles of the list. -/
def longestRun (c cycle : Nat) (l : List Seg) : Nat :=
  let n := l.length
  let width (i : Nat) : Nat := (if i + 1 < n then (segAt l (i + 1)).start else cycle) - (segAt l i).start
  ((List.range (2 * n)).foldl (fun (r : Nat × Nat) q =>
    let run := if (segAt l (q % n)).gates.testBit c then r.1 + width (q % n) else 0
    (run, max r.2 run)) (0, 0)).2

/-- The frame fits in no run of open intervals of the list in force (R300). -/
def neverFits (s : State) (p c : Nat) (f : Frame) : Bool :=
  gateOn s p && (gateSegs s p).any (fun g => !g.gates.testBit c) &&
    decide (256 * longestRun c (s.port p).egr.gates.cycle (gateSegs s p) < wireTime s p f + gateGuard s p)

/-- EGR_GCL_OPER shows the gates and the entry in force. -/
def operUpdate (p : Nat) (s : State) : State :=
  let a := Reg.EGR_GCL_OPER (stationOf p) (localOf p)
  (s.put a Fld.EGR_GCL_OPER_GATES (gatesNow s p)).put a Fld.EGR_GCL_OPER_ENTRY
    (segAt (gateSegs s p) (gateIndex s p)).entry

/-- GATE_BOUNDARY (R297). -/
def execGateBoundary (p : Port) (s : State) : Out := act s (operUpdate p.val)

/-- The close of a frame that begins, or goes on, now: its instant (R298). -/
def closeAt (s : State) (p c : Nat) : Option Nat := if gateOn s p then (closeIn s p c).map (s.vt + ·) else none

/-- The close of a frame already begun at the preemptable MAC is computed anew (R302). -/
def closeRetime (p : Nat) (s : State) : State :=
  match (s.port p).mac.txPreempt with
  | none => s
  | some t => s.modMac p fun m => { m with txPreempt := some { t with close := closeAt s p t.ef.tc } }

/-- Varve time has moved discontinuously: each gate engine in use takes its place from the new time, and its closes are
computed anew (R302). -/
def gatesRetime (s : State) : State :=
  (List.range 144).foldl (fun s p =>
    if gateOn s p then
      closeRetime p ((operUpdate p s).raise (Reg.EGR_EVENT (stationOf p)) Fld.EGR_EVENT_TIME_STEP)
    else s) s

/-- BASE, Varve ns. -/
def gclBase (s : State) (p : Nat) : Nat :=
  s.rdN (Reg.EGR_GCL_BASE_SEC (stationOf p) (localOf p)) * 1000000000
    + s.get (Reg.EGR_GCL_BASE_NS (stationOf p) (localOf p)) Fld.EGR_GCL_BASE_NS_VALUE

/-- R301 accepts the staged list with `len` entries. -/
def gclAccepts (s : State) (p len : Nat) : Bool :=
  let cyc := s.get (Reg.EGR_GCL_CYCLE (stationOf p) (localOf p)) Fld.EGR_GCL_CYCLE_CYCLE
  decide (1 ≤ len ∧ len ≤ 256 ∧ 256 ≤ cyc ∧ cyc ≤ 1000000000) &&
    (List.range len).all fun k =>
      let i := gclInterval s p (1 - gclBank s p) k
      decide (8 ≤ i ∧ i ≤ 1000000000)

/-- The first BASE + k × CYCLE at or after 10 µs from now (R301). -/
def gclChange (s : State) (base cycle : Nat) : Nat :=
  let t := (s.vtGate + 256 * 10000 + 255) / 256
  base + (t - base + cycle - 1) / cycle * cycle

/-- A write of EGR_GCL_CTL (R301): one that asks for a switch and is refused changes nothing but CFG_ERR. -/
def gclWrite (p : Nat) (value : Word) (s : State) : State :=
  let a := gclCtl p
  let len := Fld.EGR_GCL_CTL_LEN.of value
  if Fld.EGR_GCL_CTL_PENDING.of value = 0 ∨ s.getB a Fld.EGR_GCL_CTL_PENDING then
    s.storeBut a Fld.EGR_GCL_CTL_PENDING value
  else if gclAccepts s p len then
    let s := s.storeBut a Fld.EGR_GCL_CTL_PENDING value
    let cyc := s.get (Reg.EGR_GCL_CYCLE (stationOf p) (localOf p)) Fld.EGR_GCL_CYCLE_CYCLE
    let base := gclBase s p
    let t := gclChange s base cyc
    (s.putB a Fld.EGR_GCL_CTL_PENDING true).modEgr p fun e =>
      { e with gates := { e.gates with changeAt := some t, nextLen := len, nextCycle := cyc, nextBase := base } }
  else s.putB a Fld.EGR_GCL_CTL_CFG_ERR true

/-- GCL_SWITCH_REQUEST (R301). -/
def execGclSwitchRequest (p : Port) (value : Word) (s : State) : Out := act s (gclWrite p.val value)

/-- GCL_CHANGE_INSTANT (R301). -/
def execGclChangeInstant (p : Port) (s : State) : Out :=
  act s fun s =>
    let p := p.val
    match (s.port p).egr.gates.changeAt with
    | none => s
    | some _ =>
      let a := gclCtl p
      let s := (s.put a Fld.EGR_GCL_CTL_ACTIVE (1 - gclBank s p)).put a Fld.EGR_GCL_CTL_PENDING 0
      let s := s.modEgr p fun e =>
        { e with gates := { e.gates with changeAt := none, len := e.gates.nextLen, cycle := e.gates.nextCycle
                                         base := e.gates.nextBase } }
      operUpdate p (s.raise (Reg.EGR_EVENT (stationOf p)) Fld.EGR_EVENT_GCL_SWITCH)

/-- A write of a gate entry, at address a of bank b: ignored, with CFG_ERR, for the bank in force and while a switch
is pending (R296, R301). -/
def gateEntryWrite (p b a : Nat) (value : Word) (s : State) : State :=
  if b = gclBank s p ∨ s.getB (gclCtl p) Fld.EGR_GCL_CTL_PENDING then s.putB (gclCtl p) Fld.EGR_GCL_CTL_CFG_ERR true
  else s.store a value

/-! ### Weighted fair queueing (R293, R294) -/

/-- Weight code of class c (Table 15.10). -/
def wfqCode (s : State) (p c : Nat) : Nat :=
  if c < 4 then s.rdN (Reg.EGR_WFQ_LO (stationOf p) (localOf p)) / 256 ^ c % 256
  else s.rdN (Reg.EGR_WFQ_HI (stationOf p) (localOf p)) / 256 ^ (c - 4) % 256

/-- Tag a is earlier than b, by the sign of their 32-bit difference. -/
def tagEarlier (a b : Nat) : Bool := decide (2 ^ 31 ≤ (a + 2 ^ 32 - b % 2 ^ 32) % 2 ^ 32)

/-- A class takes the finish tag of a head frame. -/
def wfqTag (p c : Nat) (f : Frame) (s : State) : State :=
  let w := wfqCode s p c
  if c = 7 ∨ w = 0 then s
  else s.modEgr p fun e =>
    let last := aget 0 c e.lastF
    let start := if tagEarlier last e.v then e.v else last
    let h := (start + (f.padLen + 20) * 65536 / w) % 2 ^ 32
    { e with headF := aset c h e.headF, lastF := aset c h e.lastF }

/-- A class's queue has a new head: a frame that can never fit is discarded, and the next one looked at (R300); the
one that stays takes its tag. n bounds the frames. -/
def becomeHead (p c : Nat) : Nat → State → State
  | 0, s => s
  | n + 1, s =>
    let s := s.modEgr p fun e => { e with headF := adel c e.headF }
    match egrQueue s p c with
    | [] => s
    | ef :: r =>
      if neverFits s p c ef.frame then
        let s := queuesWrite (stationOf p) [egqWord (localOf p) c] (setEgrQueue p c r s)
        let s := (pcnt p 2 s).raise (Reg.EGR_EVENT (stationOf p)) Fld.EGR_EVENT_NEVER_FIT
        becomeHead p c n (egrDiscard p s ef)
      else wfqTag p c ef.frame s

def headChanged (p c : Nat) (s : State) : State := becomeHead p c ((egrQueue s p c).length + 1) s

/-- A frame enters its class queue (R290), whose descriptor is written (MEM 4). -/
def egrEnqueue (p : Nat) (ef : EFrame) (s : State) : State :=
  let q := egrQueue s p ef.tc
  let s := odWrite 4 (stationOf p) (egqWord (localOf p) ef.tc) (setEgrQueue p ef.tc (q ++ [ef]) s)
  if q.isEmpty then headChanged p ef.tc s else s

/-- A frame enters its class queue before all others: one that REORDER has set aside (R393; DEDUCED, log 73). -/
def egrReturn (p : Nat) (ef : EFrame) (s : State) : State :=
  headChanged p ef.tc
    (queuesWrite (stationOf p) [egqWord (localOf p) ef.tc] (setEgrQueue p ef.tc (ef :: egrQueue s p ef.tc) s))

/-- Virtual time takes a chosen tag, and idle classes catch up with it (R293, R294). -/
def wfqAdvance (p v : Nat) (s : State) : State :=
  let idle := (List.range 7).filter fun c => wfqCode s p c != 0 && (egrQueue s p c).isEmpty
  s.modEgr p fun e =>
    { e with v := v
             lastF := idle.foldl (fun l c => if tagEarlier (aget 0 c l) v then aset c v l else l) e.lastF }

/-- A write of weight codes (R294): a class changed to strict drops its tag, one changed from strict takes its first
tag at v. -/
def wfqWrite (p a : Nat) (value : Word) (s : State) : State :=
  let old := (List.range 7).map (wfqCode s p)
  let s := s.store a value
  (List.range 7).foldl (fun s c =>
    let w := wfqCode s p c
    if old.getD c 0 = w then s
    else if w = 0 then s.modEgr p fun e => { e with headF := adel c e.headF }
    else if old.getD c 0 = 0 then
      let s := s.modEgr p fun e => { e with lastF := aset c e.v e.lastF }
      match egrQueue s p c with
      | [] => s
      | ef :: _ => wfqTag p c ef.frame s
    else s) s

/-! ### The choice -/

/-- A device that is not ACTIVE sends no frame but, with STBY_INJ, injected ones (R407). -/
def mayLeave (s : State) (f : Frame) : Bool :=
  txMay s f

/-- The head of a class that is eligible now (R292). Class 7 is never held by pause (R89). -/
def eligible (s : State) (p c : Nat) : Option EFrame :=
  match egrQueue s p c with
  | [] => none
  | ef :: _ =>
    if (c = 7 ∨ (aget? c (s.port p).mac.pause).isNone) ∧ gateFits s p c ef.frame = true ∧ mayLeave s ef.frame = true
    then some ef else none

/-- Among eligible classes 0 to 6: strict ones, highest first; else the earliest tag, ties to the higher class. -/
def chooseClass (s : State) (p : Nat) : Option Nat :=
  let el := (List.range 7).filter fun c => (eligible s p c).isSome
  match (el.filter fun c => wfqCode s p c == 0).getLast? with
  | some c => some c
  | none =>
    let tag (c : Nat) : Nat := aget 0 c (s.port p).egr.headF
    el.foldl (fun best c =>
      match best with
      | none => some c
      | some b => if tagEarlier (tag b) (tag c) then some b else some c) none

/-! ### Sampling (R304) -/

/-- Bin of a value counted in units: 0 below 1, k for 2^(k−1) up to 2^k, 15 for the rest. -/
def histBin (n : Nat) : Nat := if n = 0 then 0 else min 15 (Nat.log2 n + 1)

/-- A bin counts one more and saturates. -/
def histCount (p c h b : Nat) (s : State) : State :=
  let a := Reg.EGR_HIST (stationOf p) (localOf p) c h b
  s.wr a (BitVec.ofNat 32 (min 0xFFFFFFFF (s.rdN a + 1)))

/-- The delay of a frame from its landing to the start of its first fragment. -/
def delaySample (p c delay : Nat) (s : State) : State :=
  let st := stationOf p
  let i := localOf p
  let s := histCount p c 0 (histBin (delay / 2 ^ s.get (Reg.EGR_HIST_CFG st i) Fld.EGR_HIST_CFG_UNIT_EXP)) s
  let a := Reg.EGR_QMAXDLY st i c
  s.wr a (BitVec.ofNat 32 (max (s.rdN a) (min 0xFFFFFFFF delay)))

/-- QUEUE_DEPTH_SAMPLE (R304). -/
def execQueueDepthSample (p : Port) (s : State) : Out :=
  act s fun s =>
    let p := p.val
    if s.get (Reg.EGR_HIST_CFG (stationOf p) (localOf p)) Fld.EGR_HIST_CFG_SAMPLE_US = 0 then s
    else (List.range 8).foldl (fun s c => histCount p c 1 (histBin (egrDepth s p c)) s) s

/-- The words of a port's histograms, from an address on, are zero. -/
def histZero (lo : Nat) (s : State) : State :=
  { s with regs := s.regs.filter fun e => !(decide (lo ≤ e.1 ∧ e.1 < lo + 0x400)) }

/-- A write of EGR_HIST_CFG: CLEAR zeroes both histograms of every queue of the port, and reads 0 (R304). -/
def histWrite (p : Nat) (value : Word) (s : State) : State :=
  let s := s.storeBut (Reg.EGR_HIST_CFG (stationOf p) (localOf p)) Fld.EGR_HIST_CFG_CLEAR value
  if Fld.EGR_HIST_CFG_CLEAR.of value = 0 then s else histZero (Reg.EGR_HIST (stationOf p) (localOf p) 0 0 0) s

/-- HIST_CLEAR (R304). -/
def execHistClear (p : Port) (value : Word) (s : State) : Out := act s (histWrite p.val value)

/-! ### Transmission -/

/-- The chosen frame leaves its queue. -/
def popHead (p c : Nat) (s : State) : State :=
  headChanged p c (odWrite 4 (stationOf p) (egqWord (localOf p) c) (setEgrQueue p c (egrQueue s p c).tail s))

/-- Another port has still to send the stored copy that the frame shares (R289). -/
def copyShared (s : State) (p : Nat) (ef : EFrame) : Bool :=
  ef.copy.any fun k => (aget? k (s.stn (stationOf p)).egress.copies).any fun c => 1 < c.left

/-- Block j of a frame, whose first word is w, is read from the egress buffer; an uncorrectable error there leaves eight
free bytes of it, at every port that sends the block: the bytes so far, and whether all were good. -/
def txReadBlock (p : Nat) (ef : EFrame) (r : (List Byte × Bool) × State) (e : Nat × Nat) : (List Byte × Bool) × State :=
  let st := stationOf p
  let (w, j) := e
  match odRead 3 st w r.2 with
  | (.bad, s) =>
    let (d, s) := ((s.fresh, { s with fresh := s.fresh + 1 }) : Nat × State)
    ((r.1.1.mapIdx fun k x => if 256 * j ≤ k ∧ k < 256 * j + 8 then BitVec.ofNat 8 (Config.cellByte d k) else x, false),
      if copyShared s p ef then s else odClear 3 st w s)
  | (_, s) => (r.1, s)

/-- The frame's blocks are read from the egress buffer: the bytes sent, and whether the FCS computed at landing matches
them (Table 22.4, MEM 3). -/
def txRead (p : Nat) (ef : EFrame) (s : State) : (List Byte × Bool) × State :=
  ef.words.zipIdx.foldl (txReadBlock p ef) ((padded ef.frame.bytes, true), energy (stationOf p) 1 6 s)

/-- The MAC begins a frame, as an injector may have corrupted it (Table 22.2); a frame longer than MAX_LEN is dropped
before it begins (R79). -/
def txStart (p : Nat) (express : Bool) (corr : Option Nat) (ef : EFrame) (s : State) : State :=
  if s.maxLen p < ef.frame.len then egrDiscard p (macStat p 48 1 s) ef
  else
    let s := delaySample p ef.tc (s.now - ef.landed) s
    let ((b, good), s) := txRead p ef s
    let b' := match corr with
      | some k => injCorrupt s p k b
      | none => b
    let good := good && (match corr with | some k => injFcs s p k || !injChanges s p k (b.length + 4) | none => true)
    let close := if express then none else closeAt s p ef.tc
    let t : TxFrame := { ef := ef, began := s.vt, beganAt := s.now, sent := b', close := close, badFcs := !good }
    s.modMac p fun m =>
      if express then { m with txExpress := some t, ctlUntil := 0 }
      else
        { m with txPreempt := some { t with frameCount := m.txCount }, txCount := (m.txCount + 1) % 4, ctlUntil := 0 }

/-- The chosen frame of class c has left its queue: the injectors of the port look at it (R390), and the MAC begins it,
drops it or sets it aside. -/
def txTaken (p c : Nat) (express : Bool) (ef : EFrame) (s : State) : State :=
  if ef.injected then txStart p express none ef s
  else
    match injEval p true c (padded ef.frame.bytes) s with
    | (none, s) => txStart p express none ef s
    | (some k, s) =>
      let ef := { ef with injected := true }
      match injAction s p k with
      | 0 => egrDiscard p s ef
      | 1 => txStart p express (some k) ef s
      | _ =>
        let h : HeldTx := { port := p, inj := k, ef := ef, left := injHold s p k }
        { s with tinker := { s.tinker with heldTx := s.tinker.heldTx ++ [h] } }

/-- The head of class c is chosen: its queue's descriptor is read, where an error is station-fatal (MEM 4); the tag of a
weighted class moves virtual time (R293). -/
def txChosen (p c : Nat) (express : Bool) (ef : EFrame) (s : State) : State :=
  match schedRead (stationOf p) (egqWord (localOf p) c) s with
  | (false, s) => s
  | (true, s) =>
    let s := if c = 7 ∨ wfqCode s p c = 0 then s else wfqAdvance p (aget 0 c (s.port p).egr.headF) s
    txTaken p c express ef (popHead p c s)

/-- The port may begin a new frame: its link is up, and neither a disable nor a remote fault holds it (R61, R65,
R291). -/
def txFree (s : State) (p : Nat) : Bool :=
  s.linkUp p && !(s.port p).link.stopping && !(s.port p).link.remoteFault

/-- The choice among classes 0 to 6. -/
def selectFrom (p : Nat) (express : Bool) (s : State) : State :=
  match chooseClass s p with
  | none => s
  | some c =>
    match eligible s p c with
    | none => s
    | some ef => txChosen p c express ef s

/-- EGRESS_SELECT (R292, R295): with preemption active the express MAC takes class 7, the preemptable MAC the others
when class 7 has nothing to send; else every class passes through the express MAC. A control frame that waits goes
first where it may (R90). -/
def execEgressSelect (p : Port) (express : Bool) (s : State) : Out :=
  act s fun s =>
    let p := p.val
    let s := ctlDrain p s
    let m := (s.port p).mac
    if !txFree s p || m.txExpress.isSome then s
    else if mergeActive s p then
      match eligible s p 7 with
      | some ef => if express && preemptIdle m then txChosen p 7 true ef s else s
      | none => if express || m.txPreempt.isSome then s else selectFrom p false s
    else if m.txPreempt.isSome then s
    else
      match eligible s p 7 with
      | some ef => txChosen p 7 true ef s
      | none => selectFrom p true s

/-- The mPacket in which n bytes of a preemptable frame leave next (R91): a start, or a continuation with its fragment
count. -/
def txPacket (t : TxFrame) (n : Nat) (last : Bool) : MPacket :=
  { start := t.fragments == 1, frameCount := Fin.ofNat 4 t.frameCount, fragCount := Fin.ofNat 4 (t.fragments - 2)
    bytes := (t.sent.drop t.done).take n, last := last }

/-- PREEMPTION (R91, R94): the frame in flight at the preemptable MAC stops after `sent` bytes of its present fragment,
which with its mCRC holds at least 64 B and leaves at least 64 B. -/
def execPreemption (p : Port) (sent : Nat) (s : State) : Out :=
  act s fun s =>
    let p := p.val
    match (s.port p).mac.txPreempt with
    | none => s
    | some t =>
      if t.held ∨ mergeActive s p = false ∨ sent < 60 ∨ t.sent.length + 4 < t.done + sent + 64 then s
      else
        let s := lineOut p (.mpacket p (txPacket t sent false) true) (macStat p 61 1 (macStat p 60 1 s))
        ctlDrain p (s.modMac p fun m =>
          { m with txPreempt := some { t with held := true, done := t.done + sent, fragments := t.fragments + 1 } })

/-- The express MAC can take a head of class 7 that waits (R295): preemption is active, and the port may begin a frame. -/
def expressTakes (s : State) (p : Nat) : Bool := mergeActive s p && txFree s p && (eligible s p 7).isSome

/-- FRAGMENT_RESUME (R295): the express MAC is idle, and has no head of class 7 to take. -/
def execFragmentResume (p : Port) (s : State) : Out :=
  act s fun s =>
    let p := p.val
    let m := (s.port p).mac
    match m.txPreempt with
    | none => s
    | some t =>
      if m.txExpress.isSome || (s.port p).link.remoteFault || expressTakes s p || !mayLeave s t.ef.frame then s
      else s.modMac p fun m => { m with txPreempt := some { t with held := false } }

/-- One more frame of class c has been sent: the frames set aside from its queue come nearer their turn (R393). -/
def heldTxStep (p c : Nat) (s : State) : State :=
  let mine (h : HeldTx) : Bool := h.port == p && h.ef.tc == c
  let hs := s.tinker.heldTx.map fun h => if mine h then { h with left := h.left - 1 } else h
  let due := hs.filter fun h => mine h && h.left == 0
  let s := { s with tinker := { s.tinker with heldTx := hs.filter fun h => !(mine h && h.left == 0) } }
  due.reverse.foldl (fun s h => egrReturn p h.ef s) s

/-- The counters of a frame transmitted (Table 04.6). -/
def txCount (p : Nat) (t : TxFrame) (express : Bool) (s : State) : State :=
  let n := t.sent.length + 4
  let s := macStat p 41 n (macStat p 42 1 (macStat p (43 + daKind t.sent) 1 (macStat p (62 + sizeBin n) 1 s)))
  let s := if (readTags (macTpids s p) t.sent).tagged then macStat p 46 1 s else s
  let s := if t.ef.frame.len < 64 then macStat p 47 1 s else s
  if express then (if mergeActive s p then macStat p 59 1 s else s) else macStat p 60 1 s

/-- The entry a frame makes in the TX timestamp queue: the first bit after its SFD at the ball plane (R316, R319). -/
def txStamp (p : Nat) (t : TxFrame) (s : State) : State :=
  match t.ef.frame.txTs with
  | none => s
  | some (g, id) =>
    let d := 64 * 256 / s.portRate p + s.get (Reg.LANE_LAT_TX p) Fld.LANE_LAT_TX_LAT
    txqPush g (256 * t.beganAt + d) (t.began + d) id p s

/-- A preempted frame whose last bit leaves after its close (R300). -/
def overrunCheck (p : Nat) (t : TxFrame) (s : State) : State :=
  match t.close with
  | none => s
  | some c =>
    if 1 < t.fragments ∧ c < s.vt then
      (pcnt p 3 s).raise (Reg.EGR_EVENT (stationOf p)) Fld.EGR_EVENT_GATE_OVERRUN
    else s

/-- The last bit of a frame has left: it is counted, its blocks are freed. -/
def txDone (p : Nat) (t : TxFrame) (express : Bool) (s : State) : State :=
  let o : Output := if express then .frame p t.sent (!t.badFcs)
    else .mpacket p (txPacket t t.sent.length true) (!t.badFcs)
  let s := lineOut p o s
  let s := energy (stationOf p) 2 1 (txStamp p t (overrunCheck p t (txCount p t express s)))
  heldTxStep p t.ef.tc (egrRelease p t.ef (pcnt p 0 s))

/-- TX_FRAME_END (R290). -/
def execTxFrameEnd (p : Port) (express : Bool) (s : State) : Out :=
  act s fun s =>
    let p := p.val
    let m := (s.port p).mac
    if express then
      match m.txExpress with
      | none => s
      | some t => ctlDrain p (txDone p t true (s.modMac p fun m => { m with txExpress := none }))
    else
      match m.txPreempt with
      | none => s
      | some t =>
        if t.held then s
        else ctlDrain p (mergeSettle p (txDone p t false (s.modMac p fun m => { m with txPreempt := none })))

end Sys2Proof.Machine
end

