-- ==== Sys2Proof/Machine/Memory.lean ====
section
/-! DEFINITION. Accesses to the HBM as the controller executes them (R366 to R375): counters, the hazard table, bursts
in error. -/
namespace Sys2Proof.Machine

/-! ### Places -/

/-- The 64-B block of an address. -/
def hbmBlock (a : Nat) : Nat := a / 64

/-- The place of a block in the stacks (Table 20.2): its bit k is A[k + 6]. -/
structure HbmPlace where
  stack : Nat
  pseudo : Nat
  channel : Nat
  /-- Block within the row. -/
  column : Nat
  /-- Bank group in bits 3:2, bank in bits 1:0. -/
  bank : Nat
  sid : Nat
  row : Nat
  deriving DecidableEq, Repr

def hbmPlace (b : Nat) : HbmPlace :=
  { stack := bits b 0 0, pseudo := bits b 1 1, channel := bits b 5 2 ^^^ bits b 22 19, column := bits b 9 6
    bank := bits b 13 10 ^^^ bits b 18 15, sid := bits b 14 14, row := bits b 28 15 }

/-- Stack and channel of a block, as 16 × stack + channel. -/
def hbmChannel (b : Nat) : Nat := 16 * (hbmPlace b).stack + (hbmPlace b).channel

/-- The bank of a block, in the numbering of HBM_REFRESH: 64 × channel + 32 × pseudo-channel + 16 × SID + bank (DESIGN
CHOICE, log 137). -/
def hbmBank (b : Nat) : Nat := 64 * hbmChannel b + 32 * (hbmPlace b).pseudo + 16 * (hbmPlace b).sid + (hbmPlace b).bank

/-- The blocks that n bytes from an address on lie in. -/
def hbmBlocks (a n : Nat) : List Nat :=
  if n = 0 then [] else (List.range ((a + n - 1) / 64 - a / 64 + 1)).map fun k => a / 64 + k

/-- The 32-B bursts of block b that hold bytes from address lo up to hi. Burst k holds bytes 32k to 32k + 31 (R368). -/
def hbmBursts (b lo hi : Nat) : List Nat := [2 * b, 2 * b + 1].filter fun k => decide (lo < 32 * k + 32 ∧ 32 * k < hi)

/-- An access wakes its channel (R375). -/
def hbmWake (b : Nat) (s : State) : State :=
  let c := hbmChannel b
  { s with hbm := { s.hbm with down := s.hbm.down.filter (· != c), selfRefresh := s.hbm.selfRefresh.filter (· != c) } }

/-- A request of a channel, or of a bank, waits. -/
def hbmWaits (s : State) (p : Nat → Bool) : Bool :=
  s.hbm.writes.any p || s.hbm.reads.any (fun r => p r.block) || s.hbm.adds.any fun x => p (hbmBlock x.addr)

/-! ### Errors (R374) -/

/-- An error of a block is recorded, if none is. -/
def hbmErrLast (b : Nat) (uncorr : Bool) (s : State) : State :=
  if s.getB Reg.HBM_ERR_LAST Fld.HBM_ERR_LAST_VALID then s
  else
    let s := (s.raise Reg.HBM_ERR_LAST Fld.HBM_ERR_LAST_VALID).putB Reg.HBM_ERR_LAST Fld.HBM_ERR_LAST_UNCORR uncorr
    s.put Reg.HBM_ERR_LAST Fld.HBM_ERR_LAST_BLOCK b

/-- A burst no longer holds an error. -/
def burstClear (k : Nat) (s : State) : State := { s with hbm := { s.hbm with bad := s.hbm.bad.filter fun e => e.1 != k } }

/-- A burst holds an error, in place of any that it held. -/
def burstBad (k : Nat) (uncorr : Bool) (s : State) : State :=
  let s := burstClear k s
  { s with hbm := { s.hbm with bad := (k, uncorr) :: s.hbm.bad } }

/-- A read of a burst meets its error: a correctable one is corrected and rewritten; an uncorrectable one marks the
data. -/
def burstCheck (k : Nat) (s : State) : Bool × State :=
  match s.hbm.bad.find? fun e => e.1 == k with
  | none => (false, s)
  | some (_, true) =>
    (true, hbmErrLast (k / 2) true ((s.tick (Reg.HBM_CNT_LO 5)).raise Reg.HBM_EVENT Fld.HBM_EVENT_UE))
  | some (_, false) =>
    let n := s.hbm.ceSince + 1
    let s := burstClear k { s with hbm := { s.hbm with ceSince := n } }
    let s := hbmErrLast (k / 2) false (s.tick (Reg.HBM_CNT_LO 4))
    (false, if max 1 (s.get Reg.HBM_CE_TH Fld.HBM_CE_TH_COUNT) ≤ n then s.raise Reg.HBM_EVENT Fld.HBM_EVENT_CE_TH else s)

/-- The bursts of a list are read: whether the data of any is poisoned. -/
def burstsCheck (ks : List Nat) (s : State) : Bool × State :=
  ks.foldl (fun (r : Bool × State) k => let (bad, s) := burstCheck k r.2; (r.1 || bad, s)) (false, s)

/-- Bytes lo up to hi of block b are written: the error of a burst rewritten whole is gone. An error that TNK_MEMINJ has
armed for the block is planted in a burst that is written (R395), a free one of two (DESIGN CHOICE, log 137). -/
def hbmPlant (b lo hi : Nat) (s : State) : State :=
  let ks := hbmBursts b lo hi
  let s := (ks.filter fun k => decide (lo ≤ 32 * k ∧ 32 * k + 32 ≤ hi)).foldl (fun s k => burstClear k s) s
  if s.getB Reg.TNK_MEMINJ Fld.TNK_MEMINJ_ARM && s.get Reg.TNK_MEMINJ Fld.TNK_MEMINJ_MEM == 31
      && s.get Reg.TNK_MEMINJ_ADDR Fld.TNK_MEMINJ_ADDR_VALUE == b then
    let u := s.getB Reg.TNK_MEMINJ Fld.TNK_MEMINJ_KIND
    let s := s.put Reg.TNK_MEMINJ Fld.TNK_MEMINJ_ARM 0
    match ks with
    | [k] => burstBad k u s
    | _ =>
      let (d, s) := s.drawNat
      burstBad (2 * b + d % 2) u s
  else s

/-! ### The write queues of the stacks (R369, R370) -/

/-- Writes that a stack holds. -/
def stackWrites (s : State) (h : Nat) : List Nat := s.hbm.writes.filter fun b => (hbmPlace b).stack == h

/-- A stack that issues writes ahead of reads does so until it is half full (R370). -/
def aheadSettle (h : Nat) (s : State) : State :=
  if (stackWrites s h).length ≤ 256 then { s with hbm := { s.hbm with ahead := s.hbm.ahead.filter (· != h) } }
  else if 384 < (stackWrites s h).length then { s with hbm := { s.hbm with ahead := sinsert h s.hbm.ahead } }
  else s

/-- The oldest write of a block is issued to its stack; a read that waited for no other returns its data. -/
def hbmDrain (b : Nat) (s : State) : State :=
  if !s.hbm.writes.contains b then s
  else
    let s := hbmWake b s
    let rs := s.hbm.reads.map fun r => if r.block = b then { r with after := r.after - 1 } else r
    let s := { s with hbm := { s.hbm with writes := s.hbm.writes.erase b, reads := rs.filter fun r => r.after != 0 } }
    let s := aheadSettle (hbmPlace b).stack s
    (rs.filter fun r => r.after == 0).foldl (fun s r => s.emit (.hbmData r.port (64 * r.block) r.data r.poisoned)) s

/-- A write enters the table; a stack that holds 512 issues its oldest. -/
def hazardEnter (b : Nat) (s : State) : State :=
  let s := match stackWrites s (hbmPlace b).stack with
    | x :: r => if 512 ≤ r.length + 1 then hbmDrain x s else s
    | [] => s
  aheadSettle (hbmPlace b).stack { s with hbm := { s.hbm with writes := s.hbm.writes ++ [b] } }

/-- A read is issued to the stack of block b: ahead of it a stack that has been more than three-quarters full issues
writes until it is half full (R370), and the access wakes its channel. -/
def readIssue (b : Nat) (s : State) : State :=
  let ws := stackWrites s (hbmPlace b).stack
  let s := if 384 < ws.length ∨ s.hbm.ahead.contains (hbmPlace b).stack then (ws.take (ws.length - 256)).foldl (fun s x => hbmDrain x s) s else s
  hbmWake b s

/-! ### Posted adds (R371) -/

/-- The atomic unit executes an add on the burst that holds the word; one whose read is uncorrectable is discarded. -/
def addExec (s : State) (x : HbmAdd) : State :=
  let (bad, s) := burstCheck (x.addr / 32) (readIssue (hbmBlock x.addr) s)
  if bad then s
  else hbmPlant (hbmBlock x.addr) x.addr (x.addr + 8) (s.mwr x.addr (leBytes 8 (leVal (s.mrd x.addr 8) + x.addend)))

/-- The adds accepted for a block are executed before a later access to it (R369). -/
def addsFlush (b : Nat) (s : State) : State :=
  let mine := s.hbm.adds.filter fun x => hbmBlock x.addr == b
  if mine.isEmpty then s
  else mine.foldl addExec { s with hbm := { s.hbm with adds := s.hbm.adds.filter fun x => hbmBlock x.addr != b } }

/-! ### Accesses -/

/-- A read of n bytes: the data, whether any of it is poisoned. A read of a block whose write has not drained waits for
it and returns the written data (R369). -/
def hbmRead (a n : Nat) (s : State) : List Byte × Bool × State :=
  let (p, s) := (hbmBlocks a n).foldl (fun (r : Bool × State) b =>
    let s := addsFlush b (r.2.tick (Reg.HBM_CNT_LO 0))
    let s := if s.hbm.writes.contains b then s.tick (Reg.HBM_CNT_LO 3) else s
    let (bad, s) := burstsCheck (hbmBursts b a (a + n)) (readIssue b s)
    (r.1 || bad, s)) (false, s)
  (s.mrd a n, p, s)

/-- A write: accepted, it stands in the hazard table until it has drained (R369). -/
def hbmWrite (a : Nat) (bs : List Byte) (s : State) : State :=
  let s := (hbmBlocks a bs.length).foldl (fun s b =>
    hbmPlant b a (a + bs.length) (hazardEnter b (addsFlush b (hbmWake b (s.tick (Reg.HBM_CNT_LO 1)))))) s
  s.mwr a bs

/-- Both stacks have trained (R376): without them no access reaches either. -/
def hbmReady (s : State) : Bool := s.get Reg.HBM_STATUS Fld.HBM_STATUS_TRAINED == 3

end Sys2Proof.Machine
end

