-- ==== Sys2Proof/Machine/Directory.lean ====
section
/-! DEFINITION. The flow directory and the record store as the FTM reads and writes them (ch. 7): tags, candidate
buckets, the spill bitmap, lookups, placement with its relocation chains, indices and their quarantine. -/
namespace Sys2Proof.Machine

/-! ### Records (R138 to R141) -/

def recAddr (i : Nat) : Nat := 256 * i

def halfAddr (i : Nat) (h : Half) : Nat := 256 * i + (match h with | .a => 64 | .b => 128)

def extAddr (i k : Nat) : Nat := 256 * i + 192 + 8 * k

/-- Fields of a key block (Table 07.2). -/
def kbGuild (kb : List Byte) : Nat := le kb 37 1 % 8
def kbInitD (kb : List Byte) : Nat := le kb 37 1 / 8 % 2
def kbTmo (kb : List Byte) : Nat := le kb 37 1 / 16 % 8
def kbOpcode (kb : List Byte) : Nat := le kb 40 1
def kbRule (kb : List Byte) : Nat := le kb 48 8
def kbRuleValid (kb : List Byte) : Bool := le kb 41 1 / 2 % 2 == 1
def kbSig (kb : List Byte) : Nat := le kb 56 8

/-- The canonical 40-B key that a key block gives (R140). -/
def kbKey (kb : List Byte) : List Byte :=
  let init := kb.take 18
  let resp := (kb.drop 18).take 18
  let eps := if kbInitD kb = 0 then init ++ resp else resp ++ init
  leBytes 1 (kbGuild kb) ++ (kb.drop 38).take 2 ++ (kb.drop 36).take 1 ++ eps

/-- The half that a packet of direction d uses (R140). -/
def halfOf (kb : List Byte) (d : Nat) : Half := if d = kbInitD kb then .a else .b

/-- The direction bit of the packets that use a half. -/
def halfDir (kb : List Byte) (h : Half) : Nat :=
  match h with
  | .a => kbInitD kb
  | .b => 1 - kbInitD kb

def ftmNow (s : State) : Nat := s.rdN Reg.FTM_NOW

/-- Elapsed ticks of FTM_NOW, modulo 2³². -/
def ftmSince (now t : Nat) : Nat := (now + 2 ^ 32 - t % 2 ^ 32) % 2 ^ 32

/-! ### Tags (R143, R144) -/

def dirBase : Nat := 0x700000000

structure Tag where
  frag : Nat
  index : Nat
  a : Option Nat := none
  b : Option Nat := none
  deriving DecidableEq, Repr

/-- The tag that a word holds; none where the slot is empty. -/
def tagOf (n : Nat) : Option Tag :=
  if bits n 63 36 = 0 then none
  else some { frag := bits n 63 36, index := bits n 35 10
              a := if bit n 4 then some (bits n 3 0) else none, b := if bit n 9 then some (bits n 8 5) else none }

def tagWord (t : Tag) : Nat :=
  t.frag * 2 ^ 36 + t.index * 2 ^ 10 + (match t.b with | some o => 512 + o * 32 | none => 0)
    + (match t.a with | some o => 16 + o | none => 0)

def Tag.owner (t : Tag) : Half → Option Nat
  | .a => t.a
  | .b => t.b

def Tag.setOwner (t : Tag) (h : Half) (o : Option Nat) : Tag :=
  match h with
  | .a => { t with a := o }
  | .b => { t with b := o }

/-- FRAG of a signature. -/
def sigFrag (sig : Nat) : Nat := let f := bits sig 49 22; if f = 0 then 1 else f

/-- The other candidate of a tag in bucket b. -/
def otherBucket (b frag : Nat) : Nat :=
  let h := (frag % 2 ^ 22) ^^^ (frag / 2 ^ 22 % 64 * 2 ^ 16)
  b ^^^ (if h = 0 then 1 else h)

/-- Home and away buckets of a signature. -/
def sigBuckets (sig : Nat) : Nat × Nat :=
  let b1 := sig % 2 ^ 22
  let b2 := otherBucket b1 (sigFrag sig)
  (min b1 b2, max b1 b2)

def tagAddr (b t : Nat) : Nat := dirBase + 128 * b + 8 * t

def State.tag (s : State) (b t : Nat) : Option Tag := tagOf (leVal (s.mrd (tagAddr b t) 8))

/-- A place in the directory with its tag. -/
structure TagAt where
  bucket : Nat
  slot : Nat
  tag : Tag
  deriving DecidableEq, Repr

/-- The tags of a bucket, slot 0 first. -/
def bucketTags (s : State) (b : Nat) : List TagAt :=
  (List.range 16).filterMap fun t => (s.tag b t).map fun x => ⟨b, t, x⟩

/-- Home and away bucket of a tag in a bucket. -/
def TagAt.pair (x : TagAt) : Nat × Nat :=
  (min x.bucket (otherBucket x.bucket x.tag.frag), max x.bucket (otherBucket x.bucket x.tag.frag))

/-- Every tag of the directory, in order of its place. -/
def allTags (s : State) : List TagAt :=
  let places := s.mem.filterMap fun c =>
    if dirBase ≤ c.1 ∧ c.1 < dirBase + 2 ^ 29 then some ((c.1 - dirBase) / 8) else none
  places.eraseDups.filterMap fun k => (s.tag (k / 16) (k % 16)).map fun x => ⟨k / 16, k % 16, x⟩

/-- FTM_RECORDS and a Guild's count move by n. -/
def ftmCount (g : Nat) (n : Int) (s : State) : State :=
  let s := s.put Reg.FTM_RECORDS Fld.FTM_RECORDS_COUNT ((s.get Reg.FTM_RECORDS Fld.FTM_RECORDS_COUNT + n : Int).toNat)
  s.put (Reg.FTM_GUILD_CNT g) Fld.FTM_GUILD_CNT_COUNT
    ((s.get (Reg.FTM_GUILD_CNT g) Fld.FTM_GUILD_CNT_COUNT + n : Int).toNat)

/-- A tag is written. In its away bucket it sets the spill bit of its home (R145). -/
def tagWrite (b t : Nat) (x : Tag) (s : State) : State :=
  let s := hbmWrite (tagAddr b t) (leBytes 8 (tagWord x)) s
  let home := min b (otherBucket b x.frag)
  if b = home then s
  else
    let s := s.modFtm fun f => { f with spill := sinsert home f.spill, awaySeen := sinsert home f.awaySeen }
    odWrite 15 0 home s

def tagClear (b t : Nat) (s : State) : State := hbmWrite (tagAddr b t) (zeros 8) s

def quarantineShow (s : State) : State :=
  s.put Reg.FTM_STATUS Fld.FTM_STATUS_QUARANTINE (min 65535 s.ftm.quarantine.length)

/-- Expiry and deletion, steps 1 to 3 of R157. -/
def tagRemove (x : TagAt) (g : Nat) (s : State) : State :=
  let s := ftmCount g (-1) (tagClear x.bucket x.slot s)
  quarantineShow (s.modFtm fun f => { f with quarantine := f.quarantine ++ [x.tag.index] })

/-! ### Reads with containment (Table 22.4, MEM 31) -/

/-- A key block is read; one in error has its record deleted. -/
def readKeyBlock (x : TagAt) (s : State) : Option (List Byte) × State :=
  let (kb, bad, s) := hbmRead (recAddr x.tag.index) 64 s
  if bad then (none, tagRemove x (kbGuild kb) s) else (some kb, s)

/-- A half is read; one in error is rewritten with DATA 0 and LAST_SEEN = FTM_NOW. -/
def readHalf (i : Nat) (h : Half) (s : State) : List Byte × State :=
  let (d, bad, s) := hbmRead (halfAddr i h) 64 s
  if bad then
    let d := leBytes 4 (ftmNow s) ++ zeros 60
    (d, hbmWrite (halfAddr i h) d s)
  else (d, s)

/-- A bucket is read; one in error is rewritten empty, its records gone. -/
def readBucket (b : Nat) (s : State) : List TagAt × State :=
  let (_, bad, s) := hbmRead (tagAddr b 0) 128 s
  if bad then
    let xs := bucketTags s b
    let s := xs.foldl (fun s x => tagRemove x (kbGuild (s.mrd (recAddr x.tag.index) 64)) s) s
    ([], hbmWrite (tagAddr b 0) (zeros 128) s)
  else (bucketTags s b, s)

/-! ### Lookup (R145) -/

/-- The record of a key among tags whose fragment matches, the lowest slot first. -/
def matchTags (frag : Nat) (key : List Byte) : List TagAt → State → Option TagAt × State
  | [], s => (none, s)
  | x :: r, s =>
    if x.tag.frag ≠ frag then matchTags frag key r s
    else
      match readKeyBlock x s with
      | (none, s) => matchTags frag key r s
      | (some kb, s) =>
        if kbKey kb = key then (some x, s) else matchTags frag key r (s.tick (Reg.FTM_CNT_LO 8))

/-- The spill bit of a home bucket; one in error reads as set (MEM 15). -/
def spillBit (home : Nat) (s : State) : Bool × State :=
  match odRead 15 0 home s with
  | (.bad, s) => (true, odClear 15 0 home (s.modFtm fun f => { f with spill := sinsert home f.spill }))
  | (_, s) => (s.ftm.spill.contains home, s)

/-- The tag of a key. -/
def ftmLookup (key : List Byte) (sig : Nat) (s : State) : Option TagAt × State :=
  let (home, away) := sigBuckets sig
  let (xs, s) := readBucket home s
  match matchTags (sigFrag sig) key xs s with
  | (some x, s) => (some x, s)
  | (none, s) =>
    let (sp, s) := spillBit home s
    if sp then
      let (ys, s) := readBucket away (s.tick (Reg.FTM_CNT_LO 9))
      matchTags (sigFrag sig) key ys s
    else (none, s)

/-- The tag of a record index in use: found through the signature of its key block. -/
def tagByIndex (s : State) (i : Nat) : Option TagAt :=
  let (home, away) := sigBuckets (kbSig (s.mrd (recAddr i) 64))
  (bucketTags s home ++ bucketTags s away).find? fun x => x.tag.index == i

/-- The record of an index that a Guild's command may name: its tag and key block (R158). -/
def guildRecord (s : State) (g i : Nat) : Option (TagAt × List Byte) :=
  match tagByIndex s i with
  | some x => let kb := s.mrd (recAddr i) 64; if kbGuild kb = g then some (x, kb) else none
  | none => none

/-- The key block of a record index in use, read with its containment. -/
def recordBlock (i : Nat) (s : State) : Option (List Byte) × State :=
  match tagByIndex s i with
  | some x => readKeyBlock x s
  | none => (none, s)

/-- The record of an index that a Guild's command names, its key block read with its containment: one in error is deleted
(Table 22.4, MEM 31). -/
def recordRead (g i : Nat) (s : State) : Option (TagAt × List Byte) × State :=
  match tagByIndex s i with
  | some x =>
    match readKeyBlock x s with
    | (some kb, s) => (if kbGuild kb = g then some (x, kb) else none, s)
    | (none, s) => (none, s)
  | none => (none, s)

/-! ### Placement (R149, R151) -/

/-- The lowest empty slot of a bucket. -/
def freeTagSlot (s : State) (b : Nat) : Option Nat := (List.range 16).find? fun t => (s.tag b t).isNone

/-- A chain of at most `fuel` moves that frees a slot of bucket b: places to move, ending with the free place. A tag
with an owner is never moved. The free value turns the order in which slots are tried (DESIGN CHOICE, log 46). -/
def tagChain (s : State) (free : Nat) : Nat → List Nat → Nat → Option (List (Nat × Nat))
  | fuel, seen, b =>
    match freeTagSlot s b with
    | some t => some [(b, t)]
    | none =>
      match fuel with
      | 0 => none
      | n + 1 =>
        let movable := (bucketTags s b).filter fun x =>
          x.tag.a.isNone && x.tag.b.isNone && !(b :: seen).contains (otherBucket b x.tag.frag)
        (movable.rotate (free / 16 ^ n % 16)).findSome? fun x =>
          (tagChain s free n (b :: seen) (otherBucket b x.tag.frag)).map ((b, x.slot) :: ·)

/-- The moves of a chain, the last first: the new slot is written before the old one is invalidated. -/
def tagShift : List (Nat × Nat) → State → State
  | (b, t) :: (c, u) :: r, s =>
    let s := tagShift ((c, u) :: r) s
    match s.tag b t with
    | some x => (tagClear b t (tagWrite c u x s)).tick (Reg.FTM_CNT_LO 7)
    | none => s
  | _, s => s

/-- Valid tags up to which every chain succeeds (R151). -/
def chainSafe (s : State) : Bool := decide (s.get Reg.FTM_RECORDS Fld.FTM_RECORDS_COUNT ≤ 62914560)

/-- A chain of places makes its moves. Above the guaranteed load a free value lets it fail after some of them: the moves
already made stand (R151). -/
def chainRun (c : List (Nat × Nat)) (s : State) : Option (Nat × Nat) × State :=
  let (f, s) := if chainSafe s then (0, s) else s.drawNat
  if f % 2 = 0 then (c.head?, tagShift c s) else (none, tagShift (c.drop (c.length - 1 - f / 2 % (c.length - 1))) s)

/-- The place of a new tag: the lowest free slot of the home bucket, of the away bucket, or one that a chain of at most
32 moves frees. -/
def tagPlace (sig : Nat) (s : State) : Option (Nat × Nat) × State :=
  let (home, away) := sigBuckets sig
  match freeTagSlot s home, freeTagSlot s away with
  | some t, _ => (some (home, t), s)
  | none, some t => (some (away, t), s)
  | none, none =>
    let (free, s) := s.drawNat
    let bs := if free / 16 ^ 32 % 2 = 0 then [home, away] else [away, home]
    match bs.findSome? fun b => tagChain s free 32 [] b with
    | some c => chainRun c s
    | none => (none, s)

/-- A record index that is neither in use nor in quarantine: any of them; none where all are (R152, R154). -/
def takeIndex (s : State) : Option Nat × State :=
  let n := s.ftm.usedIdx.length
  if 2 ^ 26 ≤ n then (none, s)
  else
    let (free, s) := s.drawNat
    let i := freeFrom s.ftm.usedIdx 0 (2 ^ 26) free
    (some i, s.modFtm fun f => { f with usedIdx := sinsert i f.usedIdx })

def dropIndex (i : Nat) (s : State) : State :=
  s.modFtm fun f => { f with usedIdx := f.usedIdx.filter (· != i), creator := adel i f.creator }

/-! ### Events and no room (R152, R159) -/

/-- A flow event of Table 07.12 with the layout of Table 07.13. -/
def flowEvent (g code sig idx reason st : Nat) (tail : List Byte) (s : State) : State :=
  let w := s.rd (Reg.FTM_GUILD_CFG g)
  let f := if code = 0x20 then Fld.FTM_GUILD_CFG_EVT_CREATE else if code = 0x21 then Fld.FTM_GUILD_CFG_EVT_EXPIRE
    else Fld.FTM_GUILD_CFG_EVT_NOROOM
  if f.of w = 1 then
    postEvent g code (leBytes 8 sig ++ leBytes 4 idx ++ leBytes 1 reason ++ leBytes 1 st ++ zeros 2 ++ tail) s
  else s

/-- The no-room action of a Guild, 3 treated as 1 (Table 07.8). -/
def noRoomAction (s : State) (g : Nat) : Nat :=
  let a := s.get (Reg.FTM_GUILD_CFG g) Fld.FTM_GUILD_CFG_NOROOM
  if a = 3 then 1 else a

/-- A no-room outcome of Guild g: reason 0 CHAIN, 1 INDEX, 2 QUOTA, 3 FOREIGN_PIN. Its event is due where none of the
Guild was written within the last millisecond, and carries the outcomes since the last one written: one that its ring
has no room for clears nothing (DEDUCED, log 51). -/
def noRoom (g sig reason st : Nat) (s : State) : State :=
  let s := (s.tick (Reg.FTM_CNT_LO 5)).raise Reg.FTM_STATUS Fld.FTM_STATUS_NOROOM
  let n := aget 0 g s.ftm.noroomCnt + 1
  let recent := match aget? g s.ftm.noroomAt with | some t => decide (s.now < t + 1000000) | none => false
  let due := s.getB (Reg.FTM_GUILD_CFG g) Fld.FTM_GUILD_CFG_EVT_NOROOM && !recent
  let s := s.modFtm fun f =>
    if due && eventRoom s g then { f with noroomCnt := adel g f.noroomCnt, noroomAt := aset g s.now f.noroomAt }
    else { f with noroomCnt := aset g n f.noroomCnt }
  if due then flowEvent g 0x22 sig 0 reason st (leBytes 4 n ++ zeros 4) s else s

/-- Why a record cannot be made. -/
inductive MakeResult where
  | made (index : Nat)
  | refused (reason : Nat)
  deriving DecidableEq, Repr

def ftmQuota (s : State) (g : Nat) : Nat := min 67108864 (s.get (Reg.FTM_GUILD_CFG g) Fld.FTM_GUILD_CFG_QUOTA)

/-- Steps 2 to 4 of R149 for a 192-B image: quota, index, place; then the record, and last the tag. -/
def makeRecord (g sig st : Nat) (image : List Byte) (a b : Option Nat) (s : State) : MakeResult × State :=
  if ftmQuota s g ≤ s.get (Reg.FTM_GUILD_CNT g) Fld.FTM_GUILD_CNT_COUNT then
    (.refused 2, s.tick (Reg.FTM_CNT_LO 6))
  else
    match takeIndex s with
    | (none, s) => (.refused 1, s)
    | (some i, s) =>
      match tagPlace sig s with
      | (none, s) => (.refused 0, dropIndex i s)
      | (some (bk, t), s) =>
        let s := hbmWrite (recAddr i) (image ++ zeros 64) s
        let s := tagWrite bk t { frag := sigFrag sig, index := i, a := a, b := b } s
        let s := s.modFtm fun f => { f with creator := aset i st f.creator }
        (.made i, flowEvent g 0x20 sig i 0 st (zeros 8) (ftmCount g 1 s))

/-- Key block and halves of a record that a station creates (R139, R141, R149): RULE_VALID = 1. -/
def createImage (key : List Byte) (sig d rule bank now : Nat) : List Byte :=
  let lo := (key.drop 4).take 18
  let hi := (key.drop 22).take 18
  let eps := if d = 0 then lo ++ hi else hi ++ lo
  let half := leBytes 4 now ++ zeros 60
  eps ++ (key.drop 3).take 1 ++ leBytes 1 (bits rule 55 53 * 16 + d % 2 * 8 + le key 0 1 % 8) ++ (key.drop 1).take 2
    ++ leBytes 1 (bits rule 63 56) ++ leBytes 1 (2 + bank % 2) ++ zeros 2 ++ leBytes 4 now ++ leBytes 8 rule
    ++ leBytes 8 sig ++ half ++ half

/-! ### Pairs (R146) -/

/-- A request holds a pair of home and away buckets. -/
def pairHeld (s : State) (pair : Nat × Nat) : Bool := s.ftm.ops.any fun o => o.pair == pair

def opPush (o : FtmOp) (s : State) : State := s.modFtm fun f => { f with ops := f.ops ++ [o] }

def opDrop (index : Nat) (s : State) : State := s.modFtm fun f => { f with ops := f.ops.filter fun o => o.index != index }

/-- A message on its way to a station. -/
def stnSend (st : Nat) (m : StnMsg) (s : State) : State :=
  s.modFtm fun f => { f with outbox := aset st (aget [] st f.outbox ++ [m]) f.outbox }

/-- A message on its way from a station. -/
def ftmSend (st : Nat) (m : FtmMsg) (s : State) : State :=
  s.modFtm fun f => { f with inbox := aset st (aget [] st f.inbox ++ [m]) f.inbox }

end Sys2Proof.Machine
end

