-- ==== Sys2Proof/Machine/Endpoint.lean ====
section
/-! DEFINITION. The endpoint tables (ch. 6): lookups, learning and its queue, moves and freezes, ageing, and the
endpoint commands. -/
namespace Sys2Proof.Machine

/-! ### The table -/

/-- The four places at which a key may stand, lowest way first (R116); the hashes are not given. -/
def eptLocs (k : EptKey) : List Nat :=
  (List.range 4).map fun w => 32768 * w + Config.eptIndex w k.guild k.fid k.mac % 32768

def State.eptAt (s : State) (st loc : Nat) : Option (EptKey × EptEntry) := aget? loc (s.stn st).ept.table

/-- A key's entry and its place. -/
def eptFind (s : State) (st : Nat) (k : EptKey) : Option (Nat × EptEntry) :=
  (eptLocs k).findSome? fun l =>
    match s.eptAt st l with
    | some (j, e) => if j = k then some (l, e) else none
    | none => none

def eptGuildAdd (st g : Nat) (n : Int) (s : State) : State :=
  s.put (Reg.EPT_GUILD_CNT st g) Fld.EPT_GUILD_CNT_COUNT
    ((s.get (Reg.EPT_GUILD_CNT st g) Fld.EPT_GUILD_CNT_COUNT + n : Int).toNat)

/-- An entry is written at a place. -/
def eptWrite (st loc : Nat) (k : EptKey) (e : EptEntry) (s : State) : State :=
  odWrite 7 st loc (s.modEpt st fun t => { t with table := aset loc (k, e) t.table })

/-- An entry is removed. -/
def eptRemove (st loc : Nat) (s : State) : State :=
  match s.eptAt st loc with
  | none => s
  | some (k, _) => eptGuildAdd st k.guild (-1) (s.modEpt st fun t => { t with table := adel loc t.table })

/-- A place is read: its entry, none where it is free or in error, which invalidates it (Table 22.4, MEM 7). -/
def eptReadAt (st loc : Nat) (s : State) : Option (EptKey × EptEntry) × State :=
  match odRead 7 st loc s with
  | (.bad, s) => (none, odClear 7 st loc (eptRemove st loc s))
  | (_, s) => (s.eptAt st loc, s)

/-- The places of a key are read: an entry in error is invalidated (Table 22.4, MEM 7). -/
def eptCheck (st : Nat) (k : EptKey) (s : State) : State :=
  (eptLocs k).foldl (fun s l => (eptReadAt st l s).2) s

def eptNow (s : State) (st : Nat) : Nat := s.get (Reg.EPT_STATUS st) Fld.EPT_STATUS_NOW

/-- Elapsed ticks of NOW, modulo 65,536. -/
def ticksSince (now t : Nat) : Nat := (now + 65536 - t % 65536) % 65536

/-! ### Insertion (R116) -/

/-- The chain of places, ending at a free one, by which at most `fuel` entries move; the free value turns the order in
which the ways are tried, so that any chain may be the one used. -/
def eptChain (s : State) (st free : Nat) : Nat → List Nat → Nat → Option (List Nat)
  | fuel, seen, loc =>
    match s.eptAt st loc with
    | none => some [loc]
    | some (k, _) =>
      match fuel with
      | 0 => none
      | n + 1 =>
        let ls := (eptLocs k).filter fun l => l != loc && !seen.contains l
        (ls.rotate (free / 4 ^ n % 4)).findSome? fun l => (eptChain s st free n (loc :: seen) l).map (loc :: ·)

/-- The entries of a chain move, the last first: each is written at its new place before its old one is invalidated
(R129). The head of the chain is free afterwards. -/
def eptShift (st : Nat) : List Nat → State → State
  | a :: b :: r, s =>
    let s := eptShift st (b :: r) s
    match s.eptAt st a with
    | some (k, e) => (eptWrite st b k e s).modEpt st fun t => { t with table := adel a t.table }
    | none => s
  | _, s => s

/-- A key is inserted: the lowest-numbered way that is free, else a place freed by moves; none where no chain of at most
16 moves frees one. -/
def eptInsert (st : Nat) (k : EptKey) (e : EptEntry) (s : State) : Option State :=
  let put (loc : Nat) (s : State) : State := eptGuildAdd st k.guild 1 (eptWrite st loc k e s)
  match (eptLocs k).find? fun l => (s.eptAt st l).isNone with
  | some l => some (put l s)
  | none =>
    let (free, s) := s.drawNat
    match ((eptLocs k).rotate (free / 4 ^ 16 % 4)).findSome? fun l => eptChain s st free 16 [] l with
    | some (l :: r) => some (put l (eptShift st (l :: r) s))
    | _ => none

/-! ### Events (R137) -/

/-- An endpoint event, where EPT_EVT_EN lets it out; none is written in Thaw service (R420). -/
def eptEvent (st code : Nat) (k : EptKey) (dest old : Nat) (egress quota : Bool) (s : State) : State :=
  if s.full st && (s.inForce (Reg.EPT_EVT_EN st)).testBit code then
    postEvent k.guild code (beBytes 6 k.mac ++ leBytes 2 k.fid ++ leBytes 1 dest ++ leBytes 1 old ++ leBytes 1 st
      ++ leBytes 1 ((if egress then 1 else 0) + (if quota then 2 else 0)) ++ leBytes 2 (eptNow s st)) s
  else s

def eptCnt (st k : Nat) (s : State) : State := s.tick (Reg.EPT_CNT_LO st k)

/-! ### Learn queue (R121) -/

def learnShow (st : Nat) (s : State) : State :=
  s.put (Reg.EPT_STATUS st) Fld.EPT_STATUS_LEARN_Q (s.stn st).ept.queue.length

/-- A request joins the tail. Its word of MEM 6 lies above those of the lease-wait list (DESIGN CHOICE, log 43). -/
def learnPush (st : Nat) (r : LearnReq) (s : State) : State :=
  let q := (s.stn st).ept
  let s := s.modEpt st fun t => { t with queue := t.queue ++ [r] }
  learnShow st (odWrite 6 st (256 + (q.head + q.queue.length) % 512) s)

/-- A learn request is merged with an equal one, or discarded where the queue is full. -/
def learnRequest (st : Nat) (k : EptKey) (dest : Nat) (egress : Bool) (s : State) : State :=
  let q := (s.stn st).ept.queue
  let same := q.any fun r => match r with | .learn j d _ => j == k && d == dest | .cmd .. => false
  if same then s else if 512 ≤ q.length then eptCnt st 1 s else learnPush st (.learn k dest egress) s

/-- An endpoint command of a ring enters a station's queue, or waits for room. -/
def learnCmd (g ring st : Nat) (s : State) : State :=
  if 512 ≤ (s.stn st).ept.queue.length ∨ !(s.stn st).ept.blocked.isEmpty then
    s.modEpt st fun t => { t with blocked := t.blocked ++ [(g, ring)] }
  else learnPush st (.cmd g ring) s

/-- The commands that wait for room take what the queue has, in the order in which they were made. -/
def learnAdmit (st : Nat) (s : State) : State :=
  let room := 512 - (s.stn st).ept.queue.length
  let go := (s.stn st).ept.blocked.take room
  let s := learnShow st (s.modEpt st fun t => { t with blocked := t.blocked.drop room })
  go.foldl (fun s x => learnPush st (.cmd x.1 x.2) s) s

/-- The head has left the queue: a command that waits for room takes it. -/
def learnPop (st : Nat) (s : State) : State :=
  learnAdmit st (s.modEpt st fun t => { t with queue := t.queue.drop 1, head := (t.head + 1) % 512 })

/-- A source observation (R119, R120): a refresh at once, nothing, or a request. -/
def observe (st : Nat) (k : EptKey) (dest : Nat) (egress : Bool) (s : State) : State :=
  match eptFind s st k with
  | some (l, e) =>
    if e.dest = dest then
      if e.static then s
      else eptWrite st l k { e with ts := eptNow s st, aged := false, egress := egress } s
    else learnRequest st k dest egress s
  | none => learnRequest st k dest egress s

/-- A source address that is never learned. -/
def badSource (b : List Byte) : Bool := be b 6 1 % 2 == 1 || be b 6 6 == 0

/-! ### Lookups (R115, R118, R119) -/

/-- Tags of a frame at the endpoint and rule stages: recognised as its port's MAC does (R82). -/
def frameTags (s : State) (f : Frame) : Tags :=
  readTags (if f.inPort < 144 then macTpids s f.inPort else [0x8100, 0x88A8]) f.bytes

/-- Outer VID, or the PVID of an untagged frame. -/
def frameVid (s : State) (st : Nat) (f : Frame) : Nat :=
  let t := frameTags s f
  if t.tagged then t.vid
  else if f.inj then f.pvid
  else s.cfg (Reg.EPT_PORT st (localOf f.inPort)) Fld.EPT_PORT_PVID

/-- The FID map entry of a frame; none where it is not VALID, or in error (MEM 7). -/
def fidEntry (st : Nat) (f : Frame) (s : State) : Option Word × State :=
  let v := frameVid s st f
  let a := Reg.EPT_FID_MAP st f.guild v
  let i := 131072 + 4096 * f.guild + v
  match odRead 7 st i s with
  | (.bad, s) => (none, odClear 7 st i (s.put a Fld.EPT_FID_MAP_VALID 0))
  | (_, s) =>
    let w := BitVec.ofNat 32 (s.inForce a)
    (if Fld.EPT_FID_MAP_VALID.of w = 1 then some w else none, s)

/-- The destination lookup of a frame. -/
def destLookup (st : Nat) (k : EptKey) (b : List Byte) (r : EptResult) (s : State) : EptResult × State :=
  if be b 0 1 % 2 = 1 then (r, s)
  else
    let s := eptCheck st k s
    match eptFind s st k with
    | some (_, e) => ({ r with daHit := true, dest := e.dest, static := e.static }, eptCnt st 10 s)
    | none => (r, eptCnt st 11 s)

/-- The source lookup (R118), and the observation that a frame observed under its enables makes of it (R119). -/
def sourceLookup (st : Nat) (k : EptKey) (f : Frame) (observed : Bool) (s : State) : State :=
  let s := eptCheck st k s
  if !observed then s else if badSource f.bytes then eptCnt st 9 s else observe st k f.inPort false s

/-- The endpoint pair of a frame that has an FID: destination lookup, source lookup. -/
def taskEpt (st : Nat) (t : Task) (fid : Nat) (s : State) : EptResult × State :=
  let f := t.frame
  let key (off : Nat) : EptKey := { guild := f.guild, fid := fid, mac := be f.bytes off 6 }
  let (r, s) := destLookup st (key 0) f.bytes t.ept (energy st 1 4 s)
  let observed := t.pass == 0 && !f.inj && f.learn && s.cfgB (Reg.EPT_CFG st) Fld.EPT_CFG_LEARN
    && s.cfgB (Reg.EPT_PORT st (localOf f.inPort)) Fld.EPT_PORT_LEARN_EN
  (r, sourceLookup st (key 6) f observed s)

/-- EPT_LOOKUP_DONE (R118): both results return. -/
def execEptLookupDone (st : Station) (slot : Fin 2048) (s : State) : Out :=
  act s fun s =>
    let st := st.val
    match s.task? st slot.val with
    | none => s
    | some t =>
      match t.frame.fid, t.eptWait with
      | some fid, true =>
        let (r, s) := taskEpt st t fid s
        depDone st slot.val (s.modTask st slot.val fun t => { t with eptWait := false, ept := r })
      | _, _ => s

/-! ### Applying a learn request (R122 to R126) -/

def moveWindow (s : State) (st : Nat) : Nat := max 1 (s.cfg (Reg.EPT_MOVE_CFG st) Fld.EPT_MOVE_CFG_MOVE_WINDOW)

def moveLimit (s : State) (st : Nat) : Nat := s.cfg (Reg.EPT_MOVE_CFG st) Fld.EPT_MOVE_CFG_MOVE_LIMIT

/-- The freeze of an entry has expired (R124). -/
def freezeOver (s : State) (st : Nat) (e : EptEntry) : Bool :=
  decide (s.cfg (Reg.EPT_MOVE_CFG st) Fld.EPT_MOVE_CFG_FREEZE_TIME ≤ ticksSince (eptNow s st) e.mvTs)

def EptEntry.unfrozen (e : EptEntry) : EptEntry := { e with frozen := false, mvCnt := 0 }

/-- A move (R123). MV_CNT has 4 bits (Table 06.1): with MOVE_LIMIT lowered below it, it counts modulo 16. -/
def eptMove (st loc : Nat) (k : EptKey) (e : EptEntry) (new : Nat) (egress : Bool) (s : State) : State :=
  let now := eptNow s st
  let limit := moveLimit s st
  let moved (e : EptEntry) : State :=
    eptEvent st 2 k new e.dest egress false
      (eptCnt st 4 (eptWrite st loc k { e with dest := new, ts := now, aged := false, egress := egress } s))
  if limit = 0 then moved e
  else
    let e := if e.mvCnt = 0 ∨ moveWindow s st ≤ ticksSince now e.mvTs then { e with mvCnt := 0, mvTs := now } else e
    if e.mvCnt = limit then
      eptEvent st 3 k e.dest new egress false (eptCnt st 5 (eptWrite st loc k { e with frozen := true, mvTs := now } s))
    else
      eptEvent st 2 k new e.dest egress false
        (eptCnt st 4 (eptWrite st loc k
          { e with mvCnt := (e.mvCnt + 1) % 16, dest := new, ts := now, aged := false, egress := egress } s))

def eptQuota (s : State) (st g : Nat) : Nat := min 131072 (s.cfg (Reg.EPT_QUOTA st g) Fld.EPT_QUOTA_LIMIT)

/-- The Guild has reached its quota (R126). -/
def eptOverQuota (s : State) (st g : Nat) : Bool :=
  decide (eptQuota s st g ≤ s.get (Reg.EPT_GUILD_CNT st g) Fld.EPT_GUILD_CNT_COUNT)

/-- A learn request on a key that is absent (rows 5 to 7 of Table 06.3); MV_TS is 0 (DESIGN CHOICE, log 143). -/
def learnAbsent (st : Nat) (k : EptKey) (dest : Nat) (egress : Bool) (s : State) : State :=
  if eptOverQuota s st k.guild then eptEvent st 5 k dest 0 egress true (eptCnt st 3 s)
  else
    match eptInsert st k { dest := dest, egress := egress, ts := eptNow s st } s with
    | some s => eptEvent st 1 k dest 0 egress false (eptCnt st 0 s)
    | none => eptEvent st 5 k dest 0 egress false (eptCnt st 2 s)

/-- A learn request is applied (Table 06.3). -/
def learnApply (st : Nat) (k : EptKey) (dest : Nat) (egress : Bool) (s : State) : State :=
  let s := eptCheck st k s
  match eptFind s st k with
  | none => learnAbsent st k dest egress s
  | some (l, e) =>
    if e.dest = dest then
      if e.static then s else eptWrite st l k { e with ts := eptNow s st, aged := false, egress := egress } s
    else if e.static then eptEvent st 6 k dest dest egress false (eptCnt st 7 s)
    else if e.frozen then
      if freezeOver s st e then
        let s := eptEvent st 7 k e.dest 0 e.egress false s
        eptMove st l k e.unfrozen dest egress s
      else eptCnt st 6 s
    else eptMove st l k e dest egress s

/-! ### Commands (R136) -/

def cmdStations (c : Cmd) : Nat := descField c.desc 0 12
def cmdFid (c : Cmd) : Nat := descField c.desc 16 12
def cmdMac (c : Cmd) : Nat := be c.desc 12 6
def cmdDest (c : Cmd) : Nat := descField c.desc 80 8
def cmdFlag (c : Cmd) (k : Nat) : Bool := descField c.desc (88 + k) 1 == 1

def cmdKey (g : Nat) (c : Cmd) : EptKey := { guild := g, fid := cmdFid c, mac := cmdMac c }

/-- A station has answered a command that acts in each named station: `fail` is its code, 0 for success, `n` its count.
`acc` gathers the failing stations, `acc2` the code of the lowest of them, `acc3` the counts; the last answer completes
the command with its result. -/
def stationAnswer (g ring st fail n : Nat) (result : Cmd → List Byte) (s : State) : State :=
  let s := s.modCmd g ring fun c =>
    let low := decide (c.acc % 2 ^ st = 0)
    { c with left := c.left - 1
             acc := if fail = 0 then c.acc else c.acc ||| 2 ^ st
             acc2 := if fail ≠ 0 ∧ low then fail else c.acc2
             acc3 := c.acc3 + n }
  match (s.ring g ring).cmd with
  | some c => if c.left = 0 then complete g ring c.acc2 (result c) s else s
  | none => s

/-- EPT_ADD in one station: its code. Of what Table 06.9 does not name AGED is cleared, and EGRESS and MV_TS are those
of the entry replaced, or 0 (DESIGN CHOICE, log 143). -/
def eptAddAt (st : Nat) (k : EptKey) (dest : Nat) (static : Bool) (s : State) : Nat × State :=
  let s := eptCheck st k s
  let e : EptEntry := { dest := dest, static := static, ts := eptNow s st }
  match eptFind s st k with
  | some (l, o) =>
    let s := eptWrite st l k { e with egress := o.egress, mvTs := o.mvTs } s
    (0, if o.frozen then eptEvent st 7 k dest 0 o.egress false s else s)
  | none =>
    if eptOverQuota s st k.guild then (0x11, s)
    else match eptInsert st k e s with
      | some s => (0, s)
      | none => (0x10, s)

/-- The entries that a flush removes. -/
def flushMatch (g : Nat) (c : Cmd) (e : Nat × EptKey × EptEntry) : Bool :=
  e.2.1.guild == g && (cmdFlag c 1 || !e.2.2.static) && (!cmdFlag c 2 || e.2.1.fid == cmdFid c)
    && (!cmdFlag c 3 || e.2.2.dest == cmdDest c)

/-- An entry as EPT_READ returns it (Table 06.1), as a number. -/
def entryWord (k : EptKey) (e : EptEntry) : Nat :=
  let b (x : Bool) (n : Nat) : Nat := if x then 2 ^ n else 0
  2 ^ 127 + b e.static 126 + b e.frozen 125 + b e.aged 124 + b e.egress 123 + k.guild * 2 ^ 120 + k.fid * 2 ^ 108
    + k.mac * 2 ^ 60 + e.dest * 2 ^ 52 + e.mvCnt % 16 * 2 ^ 48 + e.mvTs * 2 ^ 32 + e.ts * 2 ^ 16

/-- An endpoint command is applied in one station: its code, what it counts or returns. -/
def eptCmdAt (g st : Nat) (c : Cmd) (s : State) : Nat × Nat × State :=
  let k := cmdKey g c
  match descOp c.desc with
  | 0x10 =>
    let (r, s) := eptAddAt st k (cmdDest c) (cmdFlag c 0) s
    (r, 0, s)
  | 0x11 =>
    let s := eptCheck st k s
    match eptFind s st k with
    | some (l, _) => (0, 0, eptRemove st l s)
    | none => (0x12, 0, s)
  | 0x12 =>
    let s := (s.stn st).ept.table.foldl (fun s e => (eptReadAt st e.1 s).2) s
    let l := (s.stn st).ept.table.filter (flushMatch g c)
    (0, l.length, l.foldl (fun s e => eptRemove st e.1 s) s)
  | 0x13 =>
    let s := eptCheck st k s
    match eptFind s st k with
    | some (_, e) => (0, entryWord k e, s)
    | none => (0x12, 0, s)
  | _ =>
    let s := eptCheck st k s
    match eptFind s st k with
    | some (l, e) =>
      (0, 0, if e.frozen then eptEvent st 7 k e.dest 0 e.egress false (eptWrite st l k e.unfrozen s) else s)
    | none => (0x12, 0, s)

/-- Bytes 8 to 23 of an endpoint command's completion (Table 06.9). -/
def eptResult (c : Cmd) : List Byte :=
  match descOp c.desc with
  | 0x12 => leBytes 4 c.acc3
  | 0x13 => leBytes 16 c.acc3
  | _ => leBytes 2 c.acc

/-- LEARN_APPLY (R122): the head of the learn queue. -/
def execLearnApply (st : Station) (s : State) : Out :=
  act s fun s =>
    let st := st.val
    match (s.stn st).ept.queue with
    | [] => s
    | r :: _ =>
      let i := 256 + (s.stn st).ept.head
      let (read, s) := odRead 6 st i s
      let s := learnPop st (if read = .bad then odClear 6 st i s else s)
      match r with
      | .learn k dest egress =>
        if read = .bad then s else learnApply st k dest egress s
      | .cmd g ring =>
        match waitingCmd s g ring (match (s.ring g ring).cmd with | some c => descOp c.desc | none => 256) with
        | some c =>
          let (code, n, s) := eptCmdAt g st c s
          stationAnswer g ring st code n eptResult s
        | none => s

/-- The stations that a mask names, lowest first. -/
def stationsOf (m : Nat) : List Nat := (List.range 12).filter fun k => m.testBit k

/-- An endpoint command's checks that do not depend on the station, and its entry into the learn queues. -/
def eptStart (g ring op : Nat) (bad : Cmd → Option Nat) (s : State) : State :=
  onCmd g ring op (fun c s =>
    let ss := stationsOf (cmdStations c)
    if ss.isEmpty ∨ (op = 0x13 ∧ ss.length ≠ 1) then complete g ring 0x14 [] s
    else match bad c with
      | some code => complete g ring code [] s
      | none =>
        let s := s.modCmd g ring fun c => { c with began := true, left := ss.length }
        ss.foldl (fun s st => learnCmd g ring st s) s) s

/-- DEST of EPT_ADD is refused (Table 06.9). -/
def badDest (s : State) (g : Nat) (c : Cmd) : Option Nat :=
  let d := cmdDest c
  if d = 144 then none
  else if d = 255 then (if cmdFlag c 0 then none else some 0x13)
  else if d < 144 then
    if s.portWidth d ≠ 0 ∧ s.portGuild d = g then none else some 0x13
  else some 0x13

/-- EPT_ADD (R136). -/
def execEptAdd (g : Guild) (ring : Fin 1024) (s : State) : Out :=
  act s fun s => eptStart g.val ring.val 0x10 (badDest s g.val) s

/-- EPT_DEL (R136). -/
def execEptDel (g : Guild) (ring : Fin 1024) (s : State) : Out :=
  act s (eptStart g.val ring.val 0x11 fun _ => none)

/-- EPT_FLUSH (R136). -/
def execEptFlush (g : Guild) (ring : Fin 1024) (s : State) : Out :=
  act s (eptStart g.val ring.val 0x12 fun _ => none)

/-- EPT_READ (R136). -/
def execEptRead (g : Guild) (ring : Fin 1024) (s : State) : Out :=
  act s (eptStart g.val ring.val 0x13 fun _ => none)

/-- EPT_UNFREEZE (R136). -/
def execEptUnfreeze (g : Guild) (ring : Fin 1024) (s : State) : Out :=
  act s (eptStart g.val ring.val 0x14 fun _ => none)

/-! ### Ageing (R127) -/

/-- EPT_NOW_TICK (R127). -/
def execEptNowTick (st : Station) (s : State) : Out :=
  act s fun s => s.put (Reg.EPT_STATUS st.val) Fld.EPT_STATUS_NOW (eptNow s st.val + 1)

def ageLimit (s : State) (st : Nat) : Nat := min 32767 (s.cfg (Reg.EPT_AGE_CFG st) Fld.EPT_AGE_CFG_AGE_LIMIT)

/-- A visit of the sweep to an entry: unfreezing, clearing of moves, ageing. -/
def sweepEntry (st loc : Nat) (k : EptKey) (e : EptEntry) (s : State) : State :=
  let now := eptNow s st
  let thaws := e.frozen && freezeOver s st e
  let s := if thaws then eptEvent st 7 k e.dest 0 e.egress false s else s
  let e1 := if thaws then e.unfrozen else e
  let e1 := if e1.mvCnt ≠ 0 ∧ moveWindow s st ≤ ticksSince now e1.mvTs then { e1 with mvCnt := 0 } else e1
  let aged := !e1.static && decide (0 < ageLimit s st) && decide (ageLimit s st ≤ ticksSince now e1.ts)
  let mode := s.cfg (Reg.EPT_CFG st) Fld.EPT_CFG_AGE_MODE
  if aged then
    if mode = 1 then
      if e1.aged then eptWrite st loc k e1 s
      else eptEvent st 4 k e1.dest 0 e1.egress false (eptCnt st 8 (eptWrite st loc k { e1 with aged := true } s))
    else
      let s := eptRemove st loc (eptCnt st 8 s)
      if mode = 2 then s else eptEvent st 4 k e1.dest 0 e1.egress false s
  else if e1 = e then s
  else eptWrite st loc k e1 s

/-- EPT_SWEEP_VISIT (R127): the next place of the table. -/
def execEptSweepVisit (st : Station) (s : State) : Out :=
  act s fun s =>
    let st := st.val
    let loc := (s.stn st).ept.sweepAt
    let s := s.modEpt st fun t => { t with sweepAt := (t.sweepAt + 1) % 131072 }
    match eptReadAt st loc s with
    | (some (k, e), s) => sweepEntry st loc k e s
    | (none, s) => s

end Sys2Proof.Machine
end

