-- ==== Sys2Proof/Machine/Power.lean ====
section
/-! DEFINITION. Pace, the supply loop and the thermal throttle (ch. 2). -/
namespace Sys2Proof.Machine

/-! ### The supply loop -/

def avsUnrated (s : State) : Bool := s.getB Reg.PWR_AVS_CTL Fld.PWR_AVS_CTL_UNRATED

/-- The lowest and the highest code the loop requests (R39). R39 does not say which limit wins where VMIN as treated lies
above VMAX as treated: a raise then requests VMIN, a decrease and a manual write VMAX (DESIGN CHOICE, log 116). -/
def avsMin (s : State) : Nat :=
  let v := s.get Reg.PWR_AVS_LIMIT Fld.PWR_AVS_LIMIT_VMIN
  clampNat 136 170 (if avsUnrated s then v else max 148 v)

def avsMax (s : State) : Nat := clampNat 136 170 (s.get Reg.PWR_AVS_LIMIT Fld.PWR_AVS_LIMIT_VMAX)

/-- TARGET as treated (R39). -/
def avsTarget (s : State) : Nat :=
  let v := s.get Reg.PWR_AVS_TARGET Fld.PWR_AVS_TARGET_TARGET
  if avsUnrated s then v else max 1800 v

def avsVreq (s : State) : Nat := s.get Reg.PWR_AVS_STATUS Fld.PWR_AVS_STATUS_VREQ

/-- A Voltage Write with commit. -/
def avsSend (v : Nat) (s : State) : State :=
  let s := (s.put Reg.PWR_AVS_STATUS Fld.PWR_AVS_STATUS_VREQ v).emit (.avsWrite v)
  { s with power := { s.power with lastReq := some s.now } }

/-- The loop runs: EN is 1 and no bus fault suspends it (R38, R41). -/
def avsRuns (s : State) : Bool :=
  s.getB Reg.PWR_AVS_CTL Fld.PWR_AVS_CTL_EN && !s.getB Reg.PWR_AVS_STATUS Fld.PWR_AVS_STATUS_BUSERR && !s.power.suspended

/-- The lowest mean RAW pace of the stations measured, if any. -/
def avsMeasure (s : State) : Option Nat := (s.power.sums.map fun e => e.2.1 / e.2.2).min?

/-- One run of the model of R38, at the measure p. -/
def avsAct (p : Nat) (s : State) : State :=
  let target := avsTarget s
  let goal := target + s.get Reg.PWR_AVS_TARGET Fld.PWR_AVS_TARGET_HEADROOM
  let vreq := avsVreq s
  let s := s.put Reg.PWR_AVS_STATUS Fld.PWR_AVS_STATUS_PMIN p
  let s := if p < target ∧ vreq = avsMax s then s.raise Reg.PWR_AVS_STATUS Fld.PWR_AVS_STATUS_SHORT else s
  if p < goal then
    let up := max 1 (s.get Reg.PWR_AVS_TUNE Fld.PWR_AVS_TUNE_UP_STEP)
    let s := avsSend (max (avsMin s) (min (vreq + up) (avsMax s))) s
    { s with power := { s.power with quiet := 0 } }
  else if goal + s.get Reg.PWR_AVS_TUNE Fld.PWR_AVS_TUNE_DEADBAND ≤ p then
    let q := s.power.quiet + 1
    if max 1 (s.get Reg.PWR_AVS_TUNE Fld.PWR_AVS_TUNE_DOWN_HOLD) ≤ q then
      let s := avsSend (min (avsMax s) (max (vreq - 1) (avsMin s))) s
      { s with power := { s.power with quiet := 0 } }
    else { s with power := { s.power with quiet := q } }
  else { s with power := { s.power with quiet := 0 } }

/-- The end of a period: the loop acts on its measure; a new period begins. With nothing measured it holds (DEDUCED,
log 22). What was measured before EN went to 1 counts, and so does the quiet count (DESIGN CHOICE, log 141). -/
def avsPeriodEnd (s : State) : State :=
  let s := match avsMeasure s with
    | some p => if avsRuns s then avsAct p s else s
    | none => s
  { s with power := { s.power with sums := [] } }

/-- A reading within the first 50 µs after a request is left out (R38). -/
def avsExcluded (s : State) : Bool :=
  match s.power.lastReq with
  | some t => decide (s.now < t + 50000)
  | none => false

/-- A station's throttle value. -/
def throttleOf (s : State) (st : Nat) : Nat := s.get (Reg.THM_THROTTLE st) Fld.THM_THROTTLE_F

/-- A station publishes its pace; its counter adds EFF (R34 to R36). -/
def paceStation (st raw : Nat) (s : State) : State :=
  let raw := raw % 4096
  let eff := raw * throttleOf s st / 256
  let a := Reg.STN_PACE st
  let s := ((s.put a Fld.STN_PACE_RAW raw).put a Fld.STN_PACE_EFF eff).put a Fld.STN_PACE_VALID 1
  let s := s.cnt (Reg.STN_PACE_CNT_LO st) eff
  if avsExcluded s then s
  else
    let (t, n) := aget (0, 0) st s.power.sums
    { s with power := { s.power with sums := aset st (t + raw, n + 1) s.power.sums } }

def paceAll : Nat → List Nat → State → State
  | _, [], s => s
  | st, r :: rs, s => paceAll (st + 1) rs (paceStation st r s)

/-- PACE_MEASURE. `counts` is each station's RAW pace, S0 first, as its loops and fused factors give it (R34). A RAW
reading below TARGET that is not left out makes the loop act at once (R38), in the millisecond before its first period
too, which R42 leaves open (DESIGN CHOICE, log 117). -/
def execPaceMeasure (counts : List Nat) (s : State) : Out :=
  act s fun s =>
    let rs := counts.take 12
    let low := !avsExcluded s && avsRuns s && rs.any fun r => decide (r % 4096 < avsTarget s)
    let s := paceAll 0 rs s
    if low then avsPeriodEnd s else s

/-- A period boundary with BUSERR clear ends a suspension: the loop measures again from there on (R41). -/
def avsResume (s : State) : State :=
  if s.power.suspended && !s.getB Reg.PWR_AVS_STATUS Fld.PWR_AVS_STATUS_BUSERR then
    { s with power := { s.power with suspended := false } }
  else s

/-- AVS_PERIOD (R38, R41). -/
def execAvsPeriod (s : State) : Out := act s fun s => avsResume (avsPeriodEnd s)

/-- n repeats of the transaction that failed: a Status Read, or the last Voltage Write. The 50 µs that R38 leaves out
run from the first send of a Voltage Write (DESIGN CHOICE, log 141). -/
def avsRetry (read : Bool) : Nat → State → State
  | 0, s => s
  | n + 1, s => avsRetry read n (s.emit (if read then .avsRead else .avsWrite (avsVreq s)))

/-- AVS_BUS_FAULT (R41). With no retry that succeeded, all three have failed. -/
def execAvsBusFault (fault : BusFault) (s : State) : Out :=
  act s fun s =>
    match fault.retry with
    | some k => avsRetry fault.read (k.val + 1) s
    | none =>
      let s := (avsRetry fault.read 3 s).raise Reg.PWR_AVS_STATUS Fld.PWR_AVS_STATUS_BUSERR
      { s with power := { s.power with suspended := true } }

/-- A write of PWR_AVS_MANUAL, ignored while the loop runs (R42). -/
def avsManualWrite (value : Word) (s : State) : State :=
  if s.getB Reg.PWR_AVS_CTL Fld.PWR_AVS_CTL_EN then s
  else
    let v := Fld.PWR_AVS_MANUAL_VCODE.of value
    avsSend (min (avsMax s) (max (avsMin s) v)) (s.put Reg.PWR_AVS_MANUAL Fld.PWR_AVS_MANUAL_VCODE v)

/-- AVS_MANUAL_WRITE (R42). -/
def execAvsManualWrite (value : Word) (s : State) : Out := act s (avsManualWrite value)

/-! ### Thermal throttle -/

/-- Slot i of a run of 256 at F is enabled. Exactly F of a run are, and no two disabled ones are adjacent while F is 128
or more; R46 does not say which they are (DESIGN CHOICE, log 119). -/
def slotOn (f i : Nat) : Bool := (i + 1) * f / 256 != i * f / 256

/-- The first slot of a run takes F as it stands (R46). -/
def SlotRun.begin (f : Nat) (x : SlotRun) : SlotRun := if x.pos = 0 then { x with f := f } else x

/-- A search takes the next enabled slot, at the station's present F (R46). -/
def SlotRun.take (f : Nat) (x : SlotRun) : SlotRun :=
  let x := x.begin f
  let x := if slotOn x.f x.pos then x else SlotRun.begin f { x with pos := (x.pos + 1) % 256 }
  { x with pos := (x.pos + 1) % 256 }

/-- F at a reading of q quarter degrees (R45). -/
def throttleValue (q : Int) : Nat :=
  if q ≤ 380 then 256 else if 420 ≤ q then 154 else ((256 * (480 - q) + 99) / 100).toNat

/-- A sensor's sample: its reading is published; three invalid samples in a row make a fault, which the next valid
reading ends (R44, R49). -/
def sensorSample (k : Nat) (r : Option Int) (s : State) : State :=
  let a := Reg.THM_SENSOR k
  let map := s.get Reg.THM_STATUS Fld.THM_STATUS_FAULT_MAP
  match r with
  | some q =>
    let s := (s.put a Fld.THM_SENSOR_VALID 1).put a Fld.THM_SENSOR_TEMP (toBits 12 q)
    let s := if map.testBit k then s.put Reg.THM_STATUS Fld.THM_STATUS_FAULT_MAP (map - 2 ^ k) else s
    { s with power := { s.power with misses := adel k s.power.misses } }
  | none =>
    let n := aget 0 k s.power.misses + 1
    let s := s.put a Fld.THM_SENSOR_VALID 0
    let s := if n = 3 then
        (s.put Reg.THM_STATUS Fld.THM_STATUS_FAULT_MAP (map ||| 2 ^ k)).raise Reg.THM_STATUS Fld.THM_STATUS_SENSOR_FAULT
      else s
    { s with power := { s.power with misses := aset k (min n 4) s.power.misses } }

def sensorsSample : Nat → List (Option Int) → State → State
  | _, [], s => s
  | k, r :: rs, s => sensorsSample (k + 1) rs (sensorSample k r s)

/-- THERM_CRIT_N (R48): asserted by a valid reading of 110 °C, released when every valid reading is below 100 °C; a
sample with no valid reading releases it too, which R48 leaves open (DESIGN CHOICE, log 118). -/
def critUpdate (readings : List Int) (s : State) : State :=
  let crit := s.getB Reg.THM_STATUS Fld.THM_STATUS_CRIT
  if !crit && readings.any (fun q => decide (440 ≤ q)) then
    (s.raise Reg.THM_STATUS Fld.THM_STATUS_CRIT).emit (.pin "THERM_CRIT_N" false)
  else if crit && readings.all (fun q => decide (q < 400)) then
    (s.put Reg.THM_STATUS Fld.THM_STATUS_CRIT 0).emit (.pin "THERM_CRIT_N" true)
  else s

/-- A station's F after a sample: 154 with THERM_CRIT_N asserted or its own sensor faulted, else from its reading;
unchanged after an invalid sample that makes no fault (R45, R48, R49). -/
def throttleStation (st : Nat) (r : Option Int) (s : State) : State :=
  let a := Reg.THM_THROTTLE st
  if s.getB Reg.THM_STATUS Fld.THM_STATUS_CRIT || (s.get Reg.THM_STATUS Fld.THM_STATUS_FAULT_MAP).testBit st then
    s.put a Fld.THM_THROTTLE_F 154
  else match r with
    | some q => s.put a Fld.THM_THROTTLE_F (throttleValue q)
    | none => s

def throttleAll : Nat → List (Option Int) → State → State
  | _, [], s => s
  | st, r :: rs, s => throttleAll (st + 1) rs (throttleStation st r s)

/-- A write of THM_STATUS: SENSOR_FAULT clears (Table 02.11). -/
def thmWrite (value : Word) (s : State) : State := alertShow (s.store Reg.THM_STATUS value)

/-- THERMAL_SAMPLE (R44). `readings` is what each sensor returns, sensor 0 first, in quarters of a degree; none: no
valid reading. -/
def execThermalSample (readings : List (Option Int)) (s : State) : Out :=
  act s fun s =>
    let rs := (readings ++ List.replicate 16 none).take 16
    let s := critUpdate (rs.filterMap id) (sensorsSample 0 rs s)
    let s := throttleAll 0 (rs.take 12) (alertShow s)
    s.putB Reg.THM_STATUS Fld.THM_STATUS_THROTTLING ((List.range 12).any fun st => decide (throttleOf s st < 256))

end Sys2Proof.Machine
end

