-- ==== Sys2Proof/Machine/Rules.lean ====
section
/-! DEFINITION. The rule engine (ch. 9): the search key, entries and their priority, the queue of searches, epochs and
drain counts, commits, the rule commands. -/
namespace Sys2Proof.Machine

/-! ### The search key (R186) -/

/-- A field of the 640-bit key at its lowest bit. -/
def keyField (lo w v : Nat) : Nat := v % 2 ^ w * 2 ^ lo

/-- The fields that the parse of a pass gives (Table 09.1). FRAG of a frame that is no fragment is 0 (DEDUCED, log 53). -/
def parseKey (s : State) (st : Nat) (f : Frame) (p : Parsed) : Nat :=
  let e := p.ends.getD {}
  let frag := match p.frag with | none => 0 | some false => 2 | some true => 3
  keyField 512 128 e.src + keyField 384 128 e.dst + keyField 368 16 e.sport + keyField 352 16 e.dport
    + keyField 344 8 e.proto + keyField 336 8 e.tos + keyField 328 8 e.flags + keyField 320 8 e.hop
    + keyField 304 16 (frameTags s f).etype + keyField 288 16 (frameZone s st f)
    + keyField 129 2 frag + keyField 128 1 p.d

/-- The key of a pass's search: what the parse gave, and what the pass has gathered since. -/
def searchKey (s : State) (st : Nat) (t : Task) (create : Bool) : Nat :=
  let f := t.frame
  let hdrs := (List.range 64).foldl (fun a h => if t.hv.any fun e => e.1 == h then a + 2 ^ h else a) 0
  t.ruleKey + keyField 224 64 t.metaWord + keyField 160 64 hdrs
    + keyField 136 24 t.route.word + keyField 134 2 (t.route.word / 2 ^ 24) + keyField 133 1 t.route.hit.toNat
    + keyField 132 1 t.ept.daHit.toNat + keyField 131 1 t.ept.noFid.toNat
    + keyField 116 12 (f.fid.getD 0) + keyField 104 12 (frameVid s st f) + keyField 96 8 f.inPort
    + keyField 93 3 f.guild + keyField 90 3 f.cls + keyField 88 2 t.pass + keyField 87 1 create.toNat

/-! ### Matching (R187) -/

/-- The key agrees with VALUE where MASK has a 1. -/
def RuleEntry.agrees (e : RuleEntry) (key : Nat) : Bool := (key ^^^ e.value) &&& e.mask == 0

/-- The winner among entries: the highest PRIO, then the lowest index. -/
def ruleBest : List (Nat × RuleEntry) → Option (Nat × RuleEntry)
  | [] => none
  | x :: r =>
    match ruleBest r with
    | none => some x
    | some y => if x.2.prio < y.2.prio ∨ (x.2.prio = y.2.prio ∧ y.1 < x.1) then some y else some x

def ruleEntry? (s : State) (st bank i : Nat) : Option RuleEntry := aget? (4096 * bank + i) (s.stn st).rules.entries

/-- The entries of a bank, by index. -/
def bankEntries (s : State) (st bank : Nat) : List (Nat × RuleEntry) :=
  (s.stn st).rules.entries.filterMap fun e => if e.1 / 4096 = bank then some (e.1 % 4096, e.2) else none

/-- The entries of a bank with bad parity (MEM 9). -/
def badEntries (s : State) (st bank : Nat) : List Nat :=
  s.tinker.errors.filterMap fun e =>
    if e.mem = 9 ∧ e.station = st ∧ e.index / 4096 = bank then some (e.index % 4096) else none

/-- VALID of an entry is forced to 0 because of its parity, and reported (Table 22.4, MEM 9). -/
def ruleForce (st bank : Nat) (s : State) (i : Nat) : State :=
  let k := 4096 * bank + i
  let s := odClear 9 st k (odReport 1 9 st k s)
  s.modRules st fun r =>
    { r with entries := r.entries.map fun e => if e.1 = k then (k, { e.2 with valid := false }) else e }

/-- The default of a bank for a Guild; a bad one is 0 (MEM 10). -/
def ruleDefault (st bank g : Nat) (s : State) : Nat × State :=
  match odRead 10 st (8192 + 8 * bank + g) s with
  | (.bad, s) => (0, s)
  | (_, s) => (aget 0 (8 * bank + g) (s.stn st).rules.defaults, s)

/-- A search of a bank: the winning index, if any, and the result. An entry with bad parity may match or not. -/
def ruleMatch (st bank g key : Nat) (s : State) : Option Nat × Nat × State :=
  let bad := badEntries s st bank
  let (free, s) := if bad.isEmpty then (0, s) else s.drawNat
  let hits := (bankEntries s st bank).filter fun e =>
    e.2.valid && (if bad.contains e.1 then free.testBit e.1 else e.2.agrees key)
  let s := bad.foldl (ruleForce st bank) s
  match ruleBest hits with
  | some (i, e) =>
    match odRead 10 st (4096 * bank + i) s with
    | (.bad, s) => let (r, s) := ruleDefault st bank g s; (some i, r, s)
    | (_, s) => (some i, e.result, s)
  | none => let (r, s) := ruleDefault st bank g s; (none, r, s)

/-- A search takes the next slot that the throttle enables (R45, R46). -/
def ruleSlot (st : Nat) (s : State) : State := s.modRules st fun r => { r with stage := r.stage.take (throttleOf s st) }

/-- A search that takes its slot: counters (Table 09.13), events, the result. -/
def ruleRun (st bank g key kind : Nat) (s : State) : Option Nat × Nat × State :=
  let s := (s.tick (Reg.RUL_CNT_LO st 0)).tick (Reg.RUL_CNT_LO st kind)
  let s := energy st 1 1 (evCount st 8 1 (some g) (ruleSlot st s))
  let (i, r, s) := ruleMatch st bank g key s
  (i, r, s.tick (Reg.RUL_CNT_LO st (if i.isSome then 4 else 5)))

/-! ### Banks, epochs, drain counts (R190 to R193) -/

def ruleEpoch (s : State) (st g : Nat) : Nat := s.get (Reg.RUL_EPOCH st g) Fld.RUL_EPOCH_EPOCH

/-- The Guild's active bank. -/
def activeBank (s : State) (st g : Nat) : Nat := ruleEpoch s st g % 2

def shadowBank (s : State) (st g : Nat) : Nat := 1 - activeBank s st g

/-- Frames of a Guild that carry a bank's tag. -/
def drainCount (s : State) (st g bank : Nat) : Nat :=
  s.get (Reg.RUL_DRAIN st g) (if bank = 0 then Fld.RUL_DRAIN_A else Fld.RUL_DRAIN_B)

def drainAdd (st g bank : Nat) (n : Int) (s : State) : State :=
  s.put (Reg.RUL_DRAIN st g) (if bank = 0 then Fld.RUL_DRAIN_A else Fld.RUL_DRAIN_B)
    ((drainCount s st g bank + n : Int).toNat)

/-- BASE and last index of a Guild's range; the range is empty where the last is below BASE. -/
def ruleRange (s : State) (st g : Nat) : Nat × Nat × Bool :=
  let b := s.cfg (Reg.RUL_GUILD_RANGE st g) Fld.RUL_GUILD_RANGE_BASE
  let n := s.cfg (Reg.RUL_GUILD_RANGE st g) Fld.RUL_GUILD_RANGE_COUNT
  (b, min 4095 (b + n - 1), n == 0)

def inRange (s : State) (st g i : Nat) : Bool :=
  let (b, e, empty) := ruleRange s st g
  !empty && decide (b ≤ i ∧ i ≤ e)

/-- A valid entry of another Guild. -/
def RuleEntry.foreign (e : RuleEntry) (g : Nat) : Bool := e.valid && e.guild != g

def setRule (st bank i : Nat) (e : Option RuleEntry) (s : State) : State :=
  let k := 4096 * bank + i
  let s := s.modRules st fun r =>
    { r with entries := match e with | some x => aset k x r.entries | none => adel k r.entries }
  odWrite 10 st k (odWrite 9 st k s)

def setDefault (st bank g v : Nat) (s : State) : State :=
  let s := s.modRules st fun r =>
    { r with defaults := if v = 0 then adel (8 * bank + g) r.defaults else aset (8 * bank + g) v r.defaults }
  odWrite 10 st (8192 + 8 * bank + g) s

/-- RUL_STATUS follows the banks. -/
def ruleShow (st : Nat) (s : State) : State :=
  let active := mask8 fun g => activeBank s st g == 1
  let drains := mask8 fun g => (aget? g (s.stn st).rules.drains).isSome
  (s.put (Reg.RUL_STATUS st) Fld.RUL_STATUS_ACTIVE active).put (Reg.RUL_STATUS st) Fld.RUL_STATUS_DRAINING drains

/-! ### The queue (R189) -/

def SearchReq.creates : SearchReq → Bool
  | .creation .. => true
  | _ => false

/-- What a task's request becomes when the task is dropped: its key stands in it (R249). -/
def SearchReq.leave (k : Nat) (t : Task) (key : Nat) : SearchReq → SearchReq
  | .policy j => if j = k then .gone t.tag t.frame.guild key 2 else .policy j
  | .recirc j => if j = k then .gone t.tag t.frame.guild key 3 else .recirc j
  | r => r

/-- Policy and recirculation searches that are queued. -/
def policyCount (s : State) (st : Nat) : Nat :=
  ((s.stn st).rules.queue.filter fun r => !r.creates).length

def ruleEnqueue (st : Nat) (r : SearchReq) (s : State) : State :=
  let s := if (s.stn st).rules.queue.isEmpty then s else s.tick (Reg.RUL_CNT_LO st 8)
  s.modRules st fun x => { x with queue := x.queue ++ [r] }

/-- A refused pass counts once in REFUSAL_STALLS (R251). -/
def refusalStall (st k : Nat) (s : State) : State :=
  match s.task? st k with
  | some t => if t.refusedOnce then s else (s.setTask st k { t with refusedOnce := true }).tick (Reg.TSK_CNT_LO st 8)
  | none => s

/-- A task issues its policy or recirculation search, or is refused. -/
def searchIssue (st k : Nat) (r : SearchReq) (s : State) : State :=
  match s.task? st k with
  | none => s
  | some t =>
    if 64 ≤ policyCount s st then
      if t.ruleWait = .refused then s
      else
        let s := refusalStall st k (s.modTask st k fun t => { t with ruleWait := .refused })
        (s.tick (Reg.RUL_CNT_LO st 9)).raise (Reg.RUL_EVENT st) Fld.RUL_EVENT_SEARCH_REFUSED
    else ruleEnqueue st r (s.modTask st k fun t => { t with ruleWait := .queued })

/-- The search that a pass makes beside a creation search. -/
def Task.ownSearch (t : Task) (k : Nat) : SearchReq := if t.wantSearch then .recirc k else .policy k

/-- A withheld recirculation search is issued (R185). -/
def searchRelease (st k : Nat) (s : State) : State :=
  match s.task? st k with
  | some t => if t.ruleWait = .withheld then searchIssue st k (t.ownSearch k) s else s
  | none => s

/-- A withheld recirculation search is served by the creation search of the pass's entry (Table 12.2). -/
def searchServe (st k : Nat) (s : State) : State :=
  match s.task? st k with
  | some t =>
    if t.ruleWait = .withheld then depDone st k (s.setTask st k { t with ruleWait := .none, searched := true }) else s
  | none => s

/-- The request that takes the next slot, and its place in the queue: TC7 creation searches first, then the other
creation searches, then the rest. -/
def ruleNext (q : List SearchReq) : Option Nat :=
  match q.findIdx? (fun r => match r with | .creation _ x => x | _ => false) with
  | some i => some i
  | none =>
    match q.findIdx? SearchReq.creates with
    | some i => some i
    | none => if q.isEmpty then none else some 0

/-- RUL_SEARCH commands that wait take the entries that are free. -/
def testAdmit (st : Nat) (s : State) : State :=
  match (s.stn st).rules.testWait with
  | r :: rest =>
    if policyCount s st < 64 then ruleEnqueue st r (s.modRules st fun x => { x with testWait := rest }) else s
  | [] => s

/-! ### Results -/

/-- NOSTATE of a result. -/
def noState (r : Nat) : Bool := bit r 52

def State.entry? (s : State) (st e : Nat) : Option LeaseEntry := aget? e (s.stn st).ice.entries

/-- An entry of the lease-wait list is written (MEM 6). -/
def State.setEntry (s : State) (st e : Nat) (x : LeaseEntry) : State :=
  odPart 6 st e (s.modIce st fun i => { i with entries := aset e x i.entries })

/-- The task whose pass an entry's creation search is made for: the first attached one with the entry's own key. -/
def entryMaker (s : State) (st : Nat) (x : LeaseEntry) : Option Task :=
  x.tasks.findSome? fun k =>
    match s.task? st k with
    | some t => if t.key = some x.key then some t else none
    | none => none

/-- Word of a creation queue's entry in MEM 15: they follow the words of the spill bitmap (DESIGN CHOICE, log 43). -/
def createWord (st w : Nat) : Nat := 2 ^ 22 + 64 * st + w

/-- The CREATE of an entry joins the station's creation queue, or stays with its entry while the queue is full
(R150). -/
def createSend (st e : Nat) (x : LeaseEntry) (s : State) : State :=
  if 64 ≤ (s.stn st).ice.createQ.length then s.setEntry st e { x with phase := .createHeld }
  else
    let q := (s.stn st).ice.createQ
    let w := ((List.range 64).find? fun w => !q.any fun c => c.word == w).getD 0
    let c : CreateReq := { sig := x.sig, d := x.d, key := x.key, rule := x.rule.getD 0, bank := x.ruleBank, word := w }
    let s := (s.setEntry st e { x with phase := .created }).modIce st fun i => { i with createQ := q ++ [c] }
    odWrite 15 0 (createWord st w) (ftmSend st (.create x.sig x.d) s)

/-- An entry without a record asks for its creation search. One that no task with its key waits on ends, until a pass
joins it. -/
def creationAsk (st e : Nat) (x : LeaseEntry) (s : State) : State :=
  match entryMaker s st x with
  | none => s.setEntry st e { x with phase := .ended }
  | some t => ruleEnqueue st (.creation e t.express) (s.setEntry st e { x with phase := .rule })

/-- The creation search of an entry, in the bank of the pass whose key it searches (R191, R192): CREATE follows, or the
entry ends without a record (Table 07.6). -/
def creationRun (st e : Nat) (s : State) : State :=
  match s.entry? st e with
  | none => s
  | some x =>
    if x.phase ≠ .rule then s
    else
      match entryMaker s st x with
      | none => s.setEntry st e { x with phase := .ended }
      | some t =>
        let (_, r, s) := ruleRun st t.tag t.frame.guild (searchKey s st t true) 1 s
        let x := { x with rule := some r, ruleBank := t.tag }
        if noState r then s.setEntry st e { x with phase := .ended } else createSend st e x s

/-- The search of a task in its tagged bank: the result goes to its routine alone (R188, R192). -/
def taskSearch (st k kind : Nat) (s : State) : State :=
  match s.task? st k with
  | none => s
  | some t =>
    if t.ruleWait ≠ .queued then s
    else
      let (_, r, s) := ruleRun st t.tag t.frame.guild (searchKey s st t false) kind s
      depDone st k (s.modTask st k fun t => { t with ruleWait := .none, rule := some r, searched := true })

/-- The search of a RUL_SEARCH command: its bank and key stand in the command. -/
def testRun (st g ring : Nat) (s : State) : State :=
  match waitingCmd s g ring 0x33 with
  | none => s
  | some c =>
    let (i, r, s) := ruleRun st c.acc2 g c.acc 10 s
    completeOk g ring (leBytes 2 (match i with | some i => 0x8000 + i | none => 0) ++ zeros 2 ++ leBytes 8 r) s

/-- RULE_SEARCH (R187, R189). -/
def execRuleSearch (st : Station) (s : State) : Out :=
  act s fun s =>
    let st := st.val
    let q := (s.stn st).rules.queue
    match ruleNext q with
    | none => s
    | some i =>
      let s := s.modRules st fun x => { x with queue := x.queue.eraseIdx i }
      let s := match q.getD i (.policy 0) with
        | .creation e _ => creationRun st e s
        | .policy k => taskSearch st k 2 s
        | .recirc k => taskSearch st k 3 s
        | .test g ring => testRun st g ring s
        | .gone bank g key kind => (ruleRun st bank g key kind s).2.2
      testAdmit st s

/-! ### Commands (R197) -/

/-- An entry image as written for a Guild: its GUILD is forced (R190). -/
def imageEntry (g : Nat) (d : List Byte) : RuleEntry :=
  let v := be d 0 80
  let m := be d 80 80
  { valid := le d 169 1 % 2 == 1, value := v - bits v 95 93 * 2 ^ 93 + g * 2 ^ 93, mask := m ||| 7 * 2 ^ 93
    prio := le d 168 1 % 16, result := le d 160 8, guild := g }

/-- Reserved bytes, and reserved bits of PRIO, VALID and the result, of an entry image are not 0. -/
def badImage (d : List Byte) : Bool :=
  le d 170 6 != 0 || le d 168 1 / 16 != 0 || le d 169 1 / 2 != 0 || bits (le d 160 8) 51 48 != 0

def rulIndex (c : Cmd) : Nat := descField c.desc 16 12
def rulFlag (c : Cmd) (k : Nat) : Bool := descField c.desc (32 + k) 1 == 1

/-- RUL_WRITE in one station: its code. `new`: the image, none under INVALIDATE. -/
def ruleWriteAt (st g i : Nat) (dflt : Bool) (new : Option RuleEntry) (s : State) : Nat × State :=
  if (aget? g (s.stn st).rules.drains).isSome then (0x32, s)
  else
    let bank := shadowBank s st g
    if dflt then (0, setDefault st bank g (match new with | some e => e.result | none => 0) s)
    else
      match ruleEntry? s st bank i, new with
      | some e, some x => if e.foreign g then (0x31, s) else (0, setRule st bank i (some x) s)
      | some e, none => if e.foreign g then (0x31, s) else (0, setRule st bank i (some { e with valid := false }) s)
      | none, some x => (0, setRule st bank i (some x) s)
      | none, none => (0, s)

/-- RUL_WRITE in its stations: the completion names those that refused it. -/
def ruleWriteAll (g ring : Nat) (c : Cmd) (new : Option RuleEntry) (s : State) : State :=
  let (fails, code, s) := (stationsOf (cmdStations c)).foldl (fun (r : Nat × Nat × State) st =>
    let (code, s) := ruleWriteAt st g (rulIndex c) (rulFlag c 0) new r.2.2
    if code = 0 then (r.1, r.2.1, s) else (r.1 + 2 ^ st, if r.1 = 0 then code else r.2.1, s)) (0, 0, s)
  complete g ring code (leBytes 2 fails) s

/-- RUL_WRITE (R197). -/
def execRulWrite (g : Guild) (ring : Fin 1024) (data : Option (List Byte)) (s : State) : Out :=
  act s (onCmd g.val ring.val 0x30 fun c s =>
    let g := g.val
    let ring := ring.val
    let ss := stationsOf (cmdStations c)
    if ss.isEmpty then complete g ring 0x34 [] s
    else if !rulFlag c 0 && ss.any fun st => !inRange s st g (rulIndex c) then complete g ring 0x30 [] s
    else if rulFlag c 1 then ruleWriteAll g ring c none s
    else
      withData g ring 176 data (fun d s =>
        if badImage d then complete g ring 0x35 [] s else ruleWriteAll g ring c (some (imageEntry g d)) s) s)

/-- Bytes 8 to 23 of RUL_COMMIT's completion. -/
def commitResult (s : State) (g : Nat) (c : Cmd) : List Byte :=
  let ss := stationsOf (cmdStations c)
  let b := ss.foldl (fun a st => if activeBank s st g = 1 then a + 2 ^ st else a) 0
  leBytes 2 b ++ leBytes 1 (ruleEpoch s (ss.headD 0) g)

/-- A Guild's commit has reached step 4 in a station, or has been refused there: `acc3` of the command gathers the
stations that have answered. Where one has refused, the result is 0 (R340). -/
def commitAnswer (g ring st code : Nat) (s : State) : State :=
  stationAnswer g ring st code (2 ^ st) (fun c => if c.acc2 = 0 then commitResult s g c else []) s

/-- The old bank of a Guild becomes its writable shadow (step 4). -/
def drainOver (st g : Nat) (s : State) : State :=
  let s := ruleShow st (s.modRules st fun r => { r with drains := adel g r.drains })
  (cmdsWhere s fun h c => h == g && descOp c.desc == 0x31 && c.began && (cmdStations c).testBit st
    && !c.acc3.testBit st).foldl (fun s r => commitAnswer r.1 r.2 st 0 s) s

/-- The old bank's drain count has reached 0 (step 3). -/
def drainCheck (st g : Nat) (s : State) : State :=
  match aget? g (s.stn st).rules.drains with
  | some d =>
    if d.copying ∨ drainCount s st g d.bank ≠ 0 then s
    else if d.sync then s.modRules st fun r => { r with drains := aset g { d with copying := true } r.drains }
    else drainOver st g s
  | none => s

/-- An entry is read by a command or a copy: one with bad parity has VALID forced to 0, a bad result is 0 (Table 22.4,
MEM 9 and 10; DEDUCED, log 147). -/
def ruleRead (st bank i : Nat) (s : State) : Option RuleEntry × State :=
  let k := 4096 * bank + i
  match ruleEntry? s st bank i with
  | none => (none, s)
  | some e =>
    let s := memEnergy 9 st s
    let (e, s) := if (odError s 9 st k).isSome then ({ e with valid := false }, ruleForce st bank s i) else (e, s)
    match odRead 10 st k s with
    | (.bad, s) => (some { e with result := 0 }, s)
    | (_, s) => (some e, s)

/-- The SYNC copy of a Guild's default and range from bank `src` into bank `dst`. -/
def bankCopy (st g src dst : Nat) (s : State) : State :=
  let idx := ((bankEntries s st src).map Prod.fst ++ (bankEntries s st dst).map Prod.fst).eraseDups
  let s := (idx.filter fun i => inRange s st g i).foldl (fun s i =>
    let (e, s) := ruleRead st src i s
    let (o, s) := ruleRead st dst i s
    if e.any (·.foreign g) || o.any (·.foreign g) then s else setRule st dst i e s) s
  let (v, s) := ruleDefault st src g s
  setDefault st dst g v s

/-- A commit takes effect in one station (step 1), or is refused there (R194). -/
def commitAt (st g ring : Nat) (sync : Bool) (s : State) : State :=
  if (aget? g (s.stn st).rules.drains).isSome then commitAnswer g ring st 0x33 s
  else
    let old := activeBank s st g
    let s := s.put (Reg.RUL_EPOCH st g) Fld.RUL_EPOCH_EPOCH (ruleEpoch s st g + 1)
    let s := (s.modRules st fun r => { r with drains := aset g { bank := old, sync := sync } r.drains }).tick
      (Reg.RUL_CNT_LO st 11)
    drainCheck st g (ruleShow st s)

/-- RUL_COMMIT (R193). -/
def execRulCommit (g : Guild) (ring : Fin 1024) (s : State) : Out :=
  act s (onCmd g.val ring.val 0x31 fun c s =>
    let ss := stationsOf (cmdStations c)
    if ss.isEmpty then complete g.val ring.val 0x34 [] s
    else
      let s := s.modCmd g.val ring.val fun c => { c with began := true, left := ss.length }
      ss.foldl (fun s st => commitAt st g.val ring.val (rulFlag c 0) s) s)

/-- RUL_DRAIN_DONE (R193). -/
def execRulDrainDone (st : Station) (g : Guild) (s : State) : Out := act s (drainCheck st.val g.val)

/-- RUL_COPY_DONE (R193). -/
def execRulCopyDone (st : Station) (g : Guild) (s : State) : Out :=
  act s fun s =>
    match aget? g.val (s.stn st.val).rules.drains with
    | some d => if d.copying then drainOver st.val g.val (bankCopy st.val g.val (1 - d.bank) d.bank s) else s
    | none => s

/-- An entry as an image (Table 09.5). -/
def entryImage (e : RuleEntry) : List Byte :=
  beBytes 80 e.value ++ beBytes 80 e.mask ++ leBytes 8 e.result ++ leBytes 1 e.prio ++ leBytes 1 e.valid.toNat ++ zeros 6

/-- The default of a bank as RUL_READ copies it: an image with VALID = 1 (DEDUCED, log 54). -/
def defaultImage (v : Nat) : List Byte := zeros 160 ++ leBytes 8 v ++ leBytes 2 0x100 ++ zeros 6

/-- VALID and the image of an entry that RUL_READ has read: one of the Guild, or nothing of another Guild's. -/
def readImage (g : Nat) : Option RuleEntry → Nat × List Byte
  | some e => if e.guild = g then (e.valid.toNat, entryImage e) else (0, zeros 176)
  | none => (0, zeros 176)

/-- RUL_READ (R197). -/
def execRulRead (g : Guild) (ring : Fin 1024) (s : State) : Out :=
  act s (onCmd g.val ring.val 0x32 fun c s =>
    let g := g.val
    let ring := ring.val
    match stationsOf (cmdStations c) with
    | [st] =>
      let bank := if rulFlag c 1 then shadowBank s st g else activeBank s st g
      let i := rulIndex c
      let addr := descField c.desc 64 64
      if rulFlag c 0 then
        let (v, s) := ruleDefault st bank g s
        completeOk g ring (leBytes 1 1) (dmaWrite g addr (defaultImage v) s)
      else if !inRange s st g i then complete g ring 0x30 [] s
      else
        let (e, s) := ruleRead st bank i s
        if e.any (·.foreign g) then complete g ring 0x31 [] s
        else completeOk g ring (leBytes 1 (readImage g e).1) (dmaWrite g addr (readImage g e).2 s)
    | _ => complete g ring 0x34 [] s)

/-- RUL_SEARCH (R197). The reserved bits of the key are 0 (R186), whatever the image holds there. -/
def execRulSearch (g : Guild) (ring : Fin 1024) (data : Option (List Byte)) (s : State) : Out :=
  act s (onCmd g.val ring.val 0x33 fun c s =>
    let g := g.val
    let ring := ring.val
    match stationsOf (cmdStations c) with
    | [st] =>
      withData g ring 80 data (fun d s =>
        let v := be d 0 80
        let key := (v - bits v 95 93 * 2 ^ 93 + g * 2 ^ 93) / 2 ^ 87 * 2 ^ 87
        let bank := if rulFlag c 1 then shadowBank s st g else activeBank s st g
        let s := s.modCmd g ring fun c => { c with began := true, acc := key, acc2 := bank }
        testAdmit st (s.modRules st fun x => { x with testWait := x.testWait ++ [.test g ring] })) s
    | _ => complete g ring 0x34 [] s)

end Sys2Proof.Machine
end

