-- ==== Sys2Proof/Machine/FlowTable.lean ====
section
/-! DEFINITION. The flow table manager (ch. 7): fills, creations, releases and recalls, the expiry sweep, the flow
commands. A request whose pair of buckets another holds is not yet taken up (R146): its command changes nothing. -/
namespace Sys2Proof.Machine

/-! ### What the FTM knows of the stations -/

/-- The slot of a station that holds a half. -/
def iceFind (s : State) (st i : Nat) (h : Half) : Option (Nat × Slot) :=
  (s.stn st).ice.slots.find? fun e => e.2.index == i && e.2.which == h && e.2.st != .filling

def halfPinned (s : State) (st i : Nat) (h : Half) : Bool :=
  match iceFind s st i h with
  | some (_, x) => x.pinned
  | none => false

/-- The lease-wait entry of a 65-bit key. -/
def entryOf (s : State) (st sig d : Nat) : Option (Nat × LeaseEntry) :=
  (s.stn st).ice.entries.find? fun e => e.2.sig == sig && e.2.d == d

def ftmCnt (k : Nat) (s : State) : State := s.tick (Reg.FTM_CNT_LO k)

def recallSend (st i : Nat) (h : Half) (s : State) : State := stnSend st (.recall i h) (ftmCnt 2 s)

/-! ### FILL (R147) -/

/-- ABSENT: the station searches its rule engine once for the entry (R185). -/
def fillAbsent (st sig d : Nat) (s : State) : State :=
  let s := ftmCnt 1 s
  match entryOf s st sig d with
  | none => s
  | some (e, x) =>
    creationAsk st e x s

/-- The packet's half is pinned elsewhere: the no-room action of its Guild (Table 07.6, row 2). A load for ICE_PIN alone
is no packet, and is counted nowhere. -/
def fillConflict (st sig d : Nat) (kb : List Byte) (s : State) : State :=
  let g := kbGuild kb
  let packets := match entryOf s st sig d with | some (_, x) => !x.tasks.isEmpty | none => true
  let s := if packets then noRoom g sig 3 st (ftmCnt 10 s) else s
  stnSend st (.noRoom sig d (noRoomAction s g) kb) s

/-- The owner becomes the station, which gets the key block and the half. -/
def fillGrant (st sig d : Nat) (x : TagAt) (h : Half) (s : State) : State :=
  let s := tagWrite x.bucket x.slot (x.tag.setOwner h (some st)) s
  let (_, s) := readHalf x.tag.index h s
  stnSend st (.fill sig d x.tag.index h false) s

/-- A FILL, or a CREATE that finds its key present, on a record. -/
def fillKnown (st sig d : Nat) (key : List Byte) (x : TagAt) (s : State) : State :=
  let kb := s.mrd (recAddr x.tag.index) 64
  let h := halfOf kb d
  match x.tag.owner h with
  | some y =>
    if y = st then fillGrant st sig d x h s
    else if halfPinned s y x.tag.index h then fillConflict st sig d kb s
    else
      opPush { pair := x.pair, index := x.tag.index, purpose := .fill st sig d key, waiting := [h] }
        (recallSend y x.tag.index h s)
  | none => fillGrant st sig d x h s

def fillRun (st sig d : Nat) (key : List Byte) (s : State) : State :=
  match ftmLookup key sig s with
  | (some x, s) => fillKnown st sig d key x s
  | (none, s) => fillAbsent st sig d s

/-- The half that a FILL recalled has been released: the owner is set, and key block and half go to the station, without
a second lookup (Table 07.6, row 3). A record that a memory error has deleted meanwhile is absent. -/
def fillRecalled (st sig d i : Nat) (s : State) : State :=
  match tagByIndex s i with
  | some x => fillGrant st sig d x (halfOf (s.mrd (recAddr i) 64) d) s
  | none => fillAbsent st sig d s

/-- The pair that a message concerns. -/
def FtmMsg.pair (s : State) : FtmMsg → Option (Nat × Nat)
  | .fill sig _ _ => some (sigBuckets sig)
  | .create sig _ => some (sigBuckets sig)
  | .release i _ => (tagByIndex s i).map TagAt.pair
  | .refused i _ => (tagByIndex s i).map TagAt.pair

/-- A request that holds a pair waits for this half of this record. -/
def halfAwaited (s : State) (i : Nat) (h : Half) : Bool := s.ftm.ops.any fun o => o.index == i && o.waiting.contains h

/-- A FILL, CREATE or RELEASE that waits while another request holds its pair (R146); a RELEASE that answers that request,
and a refusal, never do. -/
def FtmMsg.waits (s : State) : FtmMsg → Bool
  | .fill sig _ _ => pairHeld s (sigBuckets sig)
  | .create sig _ => pairHeld s (sigBuckets sig)
  | .release i h => !halfAwaited s i h && (tagByIndex s i).any fun x => pairHeld s x.pair
  | .refused _ _ => false

/-- The place of the first message for which p holds, among those that may be taken up: every earlier one concerns
another pair, or waits for its own. -/
def msgPick (s : State) (p : FtmMsg → Bool) : List FtmMsg → Nat → Option Nat
  | [], _ => none
  | m :: r, k =>
    if p m then some k
    else if m.waits s then msgPick s p r (k + 1)
    else msgPick s (fun x => p x && x.pair s != m.pair s) r (k + 1)

/-- A message of a station is taken up. -/
def msgTake (st : Nat) (p : FtmMsg → Bool) (f : FtmMsg → State → State) (s : State) : State :=
  let q := aget [] st s.ftm.inbox
  match msgPick s p q 0 with
  | none => s
  | some k =>
    match q[k]? with
    | some m => f m (s.modFtm fun x => { x with inbox := aset st (q.eraseIdx k) x.inbox })
    | none => s

/-- FILL (R147). -/
def execFill (st : Station) (s : State) : Out :=
  act s fun s =>
    msgTake st.val (fun m => match m with | .fill .. => !m.waits s | _ => false)
      (fun m s => match m with | .fill sig d key => fillRun st.val sig d key (ftmCnt 0 s) | _ => s) s

/-! ### CREATE (R149, R150) -/

/-- An entry whose CREATE waits for room takes it. -/
def createFill (st : Nat) (s : State) : State :=
  match (s.stn st).ice.entries.find? fun e => e.2.phase == .createHeld with
  | some (e, x) => createSend st e x s
  | none => s

/-- Steps 1 to 4 of R149. -/
def createRun (st : Nat) (c : CreateReq) (s : State) : State :=
  match ftmLookup c.key c.sig s with
  | (some x, s) => fillKnown st c.sig c.d c.key x (ftmCnt 4 s)
  | (none, s) =>
    let g := le c.key 0 1 % 8
    let image := createImage c.key c.sig c.d c.rule c.bank (ftmNow s)
    match makeRecord g c.sig st image (some st) none s with
    | (.made i, s) => stnSend st (.fill c.sig c.d i .a true) (ftmCnt 3 s)
    | (.refused r, s) =>
      let s := noRoom g c.sig r st s
      stnSend st (.noRoom c.sig c.d (noRoomAction s g) []) s

/-- A CREATE is taken out of the creation queue. An entry of the queue in error is refused to its producer (Table 22.4,
MEM 15). -/
def createTake (st sig d : Nat) (s : State) : State :=
  match (s.stn st).ice.createQ.find? fun c => c.sig == sig && c.d == d with
  | none => s
  | some c =>
    let s := s.modIce st fun x => { x with createQ := x.createQ.filter fun y => y.word != c.word }
    let w := createWord st c.word
    match odRead 15 0 w s with
    | (.bad, s) =>
      let s := odClear 15 0 w s
      match entryOf s st sig d with
      | some (e, x) => createFill st (s.setEntry st e { x with phase := .createHeld })
      | none => s
    | (_, s) => createFill st (createRun st c s)

/-- CREATE (R149): the first of the station's creation queue whose pair is free, in the order of all that the station has
sent (R166). -/
def execCreate (st : Station) (s : State) : Out :=
  act s fun s =>
    msgTake st.val (fun m => match m with | .create .. => !m.waits s | _ => false)
      (fun m s => match m with | .create sig d => createTake st.val sig d s | _ => s) s

/-! ### Deletion and expiry (R155, R157) -/

/-- EXT0 and EXT1 of a record, every accepted add included (R371). -/
def extRead (i : Nat) (s : State) : List Byte × State :=
  let (d, _, s) := hbmRead (extAddr i 0) 16 s
  (d, s)

/-- Idle and closed values of a timeout class, limited as Table 07.19 says. -/
def tmoIdle (s : State) (k : Nat) : Nat := min 0x7FFFFFFF (s.rdN (Reg.FTM_TMO_IDLE k))

def tmoClosed (s : State) (k : Nat) : Nat := min 0x7FFFFFFF (s.rdN (Reg.FTM_TMO_CLOSED k))

def halfSeen (d : List Byte) : Nat := le d 0 4

def halfClosed (d : List Byte) : Bool := le d 4 1 % 2 == 1

/-- Halves A and B of a record in HBM. -/
def hbmHalves (s : State) (i : Nat) : List Byte × List Byte := (s.mrd (halfAddr i .a) 64, s.mrd (halfAddr i .b) 64)

/-- Whether a record is CLOSED by its halves, and its timeout. -/
def recTimeout (s : State) (i : Nat) : Bool × Nat :=
  let (a, b) := hbmHalves s i
  let k := kbTmo (s.mrd (recAddr i) 64)
  if halfClosed a || halfClosed b then (true, tmoClosed s k) else (false, tmoIdle s k)

/-- The end of a visit to a tag: an unowned record whose halves, read again, have both been idle for the timeout `t` of
the first read expires. -/
def sweepExpire (i t : Nat) (s : State) : State :=
  match tagByIndex s i with
  | none => s
  | some x =>
    let (_, s) := readHalf i .a s
    let (_, s) := readHalf i .b s
    let closed := (recTimeout s i).1
    let (a, b) := hbmHalves s i
    let now := ftmNow s
    if x.tag.a.isNone && x.tag.b.isNone && t != 0 && decide (t ≤ ftmSince now (halfSeen a))
        && decide (t ≤ ftmSince now (halfSeen b)) then
      let kb := s.mrd (recAddr i) 64
      let (ext, s) := extRead i s
      let s := tagRemove x (kbGuild kb) (ftmCnt (if closed then 12 else 11) s)
      flowEvent (kbGuild kb) 0x21 (kbSig kb) i closed.toNat (aget 15 i s.ftm.creator) (ext.take 8) s
    else s

/-- A record is deleted by a command (R157; no event, R159). -/
def flowDelete (x : TagAt) (g : Nat) (s : State) : State := tagRemove x g (ftmCnt 14 s)

/-! ### Answers to recalls and SYNCs (R146) -/

/-- Owner byte of a half: 16 + station, or 0. -/
def ownerByte (o : Option Nat) : List Byte := leBytes 1 (match o with | some y => 16 + y | none => 0)

/-- FLOW_READ copies the record and completes: `stale` names the halves that were not written back. -/
def flowReadDone (g ring : Nat) (c : Cmd) (stale : Nat) (s : State) : State :=
  let i := descField c.desc 0 26
  match guildRecord s g i with
  | none => complete g ring 0x23 [] s
  | some (x, _) =>
    let (d, bad, s) := hbmRead (recAddr i) 256 s
    let addr := descField c.desc 64 64
    let s := if bad then dmaWritePoison g addr 256 s else dmaWrite g addr d s
    complete g ring (if stale = 0 then 0 else 0x27) (leBytes 1 stale ++ ownerByte x.tag.a ++ ownerByte x.tag.b) s

/-- FLOW_DEL deletes once no half is owned. -/
def flowDelDone (g ring : Nat) (c : Cmd) (s : State) : State :=
  match recordRead g (descField c.desc 0 26) s with
  | (none, s) => complete g ring 0x23 [] s
  | (some (x, _), s) =>
    let (ext, s) := extRead x.tag.index s
    completeOk g ring ext (flowDelete x g s)

/-- One record less for a FLOW_FLUSH to wait for; `acc` counts deletions, `acc2` skips. -/
def flowFlushStep (g ring : Nat) (deleted : Bool) (s : State) : State :=
  let s := s.modCmd g ring fun c =>
    { c with left := c.left - 1, acc := c.acc + deleted.toNat, acc2 := c.acc2 + (!deleted).toNat }
  match waitingCmd s g ring 0x24 with
  | some c => if c.left = 0 then completeOk g ring (leBytes 4 c.acc ++ leBytes 4 c.acc2) s else s
  | none => s

/-- Every half that an operation waited for has been answered. -/
def opFinish (o : FtmOp) (s : State) : State :=
  let s := opDrop o.index s
  match o.purpose with
  | .fill st sig d _ =>
    if o.pinned then fillConflict st sig d (s.mrd (recAddr o.index) 64) s else fillRecalled st sig d o.index s
  | .sweep =>
    match recordBlock o.index s with
    | (some _, s) => sweepExpire o.index o.limit s
    | (none, s) => s
  | .cmd g ring =>
    match (s.ring g ring).cmd with
    | none => s
    | some c =>
      match descOp c.desc with
      | 0x22 => flowReadDone g ring c 0 s
      | 0x23 => if o.pinned then complete g ring 0x24 [] s else flowDelDone g ring c s
      | _ =>
        match recordRead g o.index s with
        | (some (x, _), s) =>
          if o.pinned then flowFlushStep g ring false s else flowFlushStep g ring true (flowDelete x g s)
        | (none, s) => flowFlushStep g ring false s

/-- A half is answered: released, refused, written back, or left alone. -/
def opAnswer (i : Nat) (h : Half) (refused : Bool) (s : State) : State :=
  match s.ftm.ops.find? fun o => o.index == i && o.waiting.contains h with
  | none => s
  | some o =>
    let o := { o with waiting := o.waiting.filter (· != h), pinned := o.pinned || refused }
    if o.waiting.isEmpty then opFinish o s
    else s.modFtm fun f => { f with ops := f.ops.map fun x => if x.index = i then o else x }

/-- RELEASE (R148): the owner is cleared, and what waited for the half goes on. One that answers no request waits while
another request holds its pair (R146). -/
def execRelease (st : Station) (s : State) : Out :=
  act s fun s => msgTake st.val (fun m => match m with | .release .. => !m.waits s | _ => false) (fun m s =>
    match m with
    | .release i h =>
      let s := match tagByIndex s i with
        | some x => if x.tag.owner h = some st.val then tagWrite x.bucket x.slot (x.tag.setOwner h none) s else s
        | none => s
      opAnswer i h false s
    | _ => s) s

/-- RECALL_REFUSED (R177). -/
def execRecallRefused (st : Station) (s : State) : Out :=
  act s (msgTake st.val (fun m => match m with | .refused .. => true | _ => false) fun m s =>
    match m with
    | .refused i h => opAnswer i h true s
    | _ => s)

/-! ### The sweep (R155) -/

/-- FTM_TICK (R155). -/
def execFtmTick (s : State) : Out := act s fun s => s.put Reg.FTM_NOW Fld.FTM_NOW_NOW (ftmNow s + 1)

/-- A visit to a tag: idle recalls to the owners of a record whose class expires, or its expiry. -/
def sweepTag (s : State) (x : TagAt) : State :=
  let home := x.pair.1
  let s := if x.bucket = home then s else s.modFtm fun f => { f with awaySeen := sinsert home f.awaySeen }
  match readKeyBlock x s with
  | (none, s) => s
  | (some _, s) =>
    let i := x.tag.index
    let (_, s) := readHalf i .a s
    let (_, s) := readHalf i .b s
    let t := (recTimeout s i).2
    if t = 0 then s
    else
      let own := [Half.a, Half.b].filterMap fun h => (x.tag.owner h).map fun y => (h, y)
      if own.isEmpty then sweepExpire i t s
      else
        let s := own.foldl (fun s e => stnSend e.2 (.idleRecall i e.1) (ftmCnt 13 s)) s
        opPush { pair := x.pair, index := i, purpose := .sweep, waiting := own.map Prod.fst, limit := t } s

/-- The end of a pass: the spill bit of a home clears where no tag of it was met in, or written into, its away bucket
(R145). -/
def sweepPassEnd (s : State) : State :=
  let s := s.put Reg.FTM_SWEEP Fld.FTM_SWEEP_PASSES (s.get Reg.FTM_SWEEP Fld.FTM_SWEEP_PASSES + 1)
  s.modFtm fun f => { f with spill := f.spill.filter fun b => f.awaySeen.contains b, awaySeen := [] }

/-- FTM_SWEEP_VISIT (R155): the next bucket, once no request holds a pair of its tags; none before both stacks have
trained (R376). -/
def execFtmSweepVisit (s : State) : Out :=
  act s fun s =>
    let b := s.ftm.sweepAt
    if !hbmReady s || (bucketTags s b).any fun x => pairHeld s x.pair then s
    else
      let (xs, s) := readBucket b s
      let s := xs.foldl sweepTag s
      let s := s.modFtm fun f => { f with sweepAt := (b + 1) % 2 ^ 22 }
      if b + 1 = 2 ^ 22 then sweepPassEnd s else s

/-- QUARANTINE_EXPIRY (R154): the oldest index may be handed out again. -/
def execQuarantineExpiry (s : State) : Out :=
  act s fun s =>
    match s.ftm.quarantine with
    | i :: r => quarantineShow (dropIndex i (s.modFtm fun f => { f with quarantine := r }))
    | [] => s

/-! ### Flow commands (R158) -/

/-- A command that needs the HBM completes with BOOT_NOT_READY until both stacks have trained (R419). -/
def hbmGate (g ring : Nat) (f : State → State) (s : State) : State :=
  if hbmReady s then f s else complete g ring 0x7C [] s

def flowCmd (g ring op : Nat) (f : Cmd → State → State) (s : State) : State :=
  onCmd g ring op (fun c s => hbmGate g ring (f c) s) s

/-- FLOW_ADD's image is refused (Table 07.11). -/
def badFlowImage (g : Nat) (d : List Byte) : Bool :=
  let initD := if beVal ((d.drop 18).take 18) < beVal (d.take 18) then 1 else 0
  kbGuild d != g || kbInitD d != initD || le d 41 1 / 4 != 0 || le d 42 2 != 0
    || le d 68 1 / 4 != 0 || le d 69 3 != 0 || le d 132 1 / 4 != 0 || le d 133 3 != 0

/-- The record that an image makes: HOSTMADE = 1, RULE_VALID = 0, CREATED and both LAST_SEEN now, its own SIG; bytes 4
to 7 of a half are 0 (R141). -/
def flowImage (d : List Byte) (sig now : Nat) : List Byte :=
  let half (o : Nat) : List Byte := leBytes 4 now ++ zeros 4 ++ (d.drop (o + 8)).take 56
  d.take 37 ++ leBytes 1 (le d 37 1 ||| 128) ++ (d.drop 38).take 3 ++ leBytes 1 (le d 41 1 % 2) ++ (d.drop 42).take 2
    ++ leBytes 4 now ++ (d.drop 48).take 8 ++ leBytes 8 sig ++ half 64 ++ half 128

/-- FLOW_ADD of an image that is sound. -/
def flowAddRun (g ring : Nat) (d : List Byte) (s : State) : State :=
  let key := kbKey d
  let sig := flowSig s 0 key
  match ftmLookup key sig s with
  | (some _, s) => complete g ring 0x20 [] s
  | (none, s) =>
    match makeRecord g sig 15 (flowImage d sig (ftmNow s)) none none s with
    | (.made i, s) => completeOk g ring (leBytes 4 i ++ leBytes 8 sig) (ftmCnt 15 s)
    | (.refused r, s) => complete g ring (if r = 2 then 0x22 else 0x21) [] (noRoom g sig r 15 s)

/-- FLOW_ADD (R158). -/
def execFlowAdd (g : Guild) (ring : Fin 1024) (data : Option (List Byte)) (s : State) : Out :=
  act s fun s =>
    if data.any fun d => pairHeld s (sigBuckets (flowSig s 0 (kbKey d))) then s
    else
      flowCmd g.val ring.val 0x20 (fun _ s =>
        withData g.val ring.val 192 data (fun d s =>
          if badFlowImage g.val d then complete g.val ring.val 0x26 [] s else flowAddRun g.val ring.val d s) s) s

/-- FLOW_FIND (R158). A key of another Guild is never found. -/
def execFlowFind (g : Guild) (ring : Fin 1024) (data : Option (List Byte)) (s : State) : Out :=
  act s fun s =>
    if data.any fun d => pairHeld s (sigBuckets (flowSig s 0 (d.take 40))) then s
    else
      flowCmd g.val ring.val 0x21 (fun _ s =>
        withData g.val ring.val 40 data (fun key s =>
          match ftmLookup key (flowSig s 0 key) s with
          | (some x, s) =>
            let kb := s.mrd (recAddr x.tag.index) 64
            if kbGuild kb = g.val then
              completeOk g.val ring.val
                (leBytes 4 x.tag.index ++ leBytes 1 (kbInitD kb) ++ ownerByte x.tag.a ++ ownerByte x.tag.b) s
            else complete g.val ring.val 0x23 [] s
          | (none, s) => complete g.val ring.val 0x23 [] s) s) s

/-- A flow command on the record that it names by index, its key block read by `read`. INDEX has 26 bits; a larger
number names no record. -/
def onRecord (g ring op : Nat) (read : Nat → Nat → State → Option (TagAt × List Byte) × State)
    (f : Cmd → TagAt → List Byte → State → State) (s : State) : State :=
  match startable s g ring op with
  | none => s
  | some c =>
    let i := descField c.desc 0 32
    match if i < 2 ^ 26 then guildRecord s g i else none with
    | none => flowCmd g ring op (fun _ s => complete g ring 0x23 [] (if i < 2 ^ 26 then (read g i s).2 else s)) s
    | some (x, _) =>
      if pairHeld s x.pair then s
      else flowCmd g ring op (fun c s =>
        match read g i s with
        | (some (x, kb), s) => f c x kb s
        | (none, s) => complete g ring 0x23 [] s) s

/-- The owned halves of a record, with their owners. -/
def TagAt.owned (x : TagAt) : List (Half × Nat) :=
  [Half.a, Half.b].filterMap fun h => (x.tag.owner h).map fun y => (h, y)

/-- FLOW_READ (R158): with SYNC, each owner first writes its half back. A key block in error is copied poisoned (Table
22.4), its record stays. -/
def execFlowRead (g : Guild) (ring : Fin 1024) (s : State) : Out :=
  act s (onRecord g.val ring.val 0x22 (fun g i s => (guildRecord s g i, s)) fun c x _ s =>
    let g := g.val
    let ring := ring.val
    let own := if descField c.desc 32 1 = 1 then x.owned else []
    if own.isEmpty then flowReadDone g ring c 0 s
    else
      let i := x.tag.index
      let s := s.modCmd g ring fun c => { c with began := true }
      let s := opPush { pair := x.pair, index := i, purpose := .cmd g ring, waiting := own.map Prod.fst } s
      own.foldl (fun s e => stnSend e.2 (.sync i e.1 g ring) s) s)

/-- FLOW_DEL (R158). -/
def execFlowDel (g : Guild) (ring : Fin 1024) (s : State) : Out :=
  act s (onRecord g.val ring.val 0x23 recordRead fun c x _ s =>
    let g := g.val
    let ring := ring.val
    let i := x.tag.index
    if x.owned.any fun e => halfPinned s e.2 i e.1 then complete g ring 0x24 [] s
    else if x.owned.isEmpty then flowDelDone g ring c s
    else
      let s := s.modCmd g ring fun c => { c with began := true }
      let s := opPush { pair := x.pair, index := i, purpose := .cmd g ring, waiting := x.owned.map Prod.fst } s
      x.owned.foldl (fun s e => recallSend e.2 i e.1 s) s)

/-- FLOW_FLUSH's filter. -/
def flowMatches (c : Cmd) (kb : List Byte) : Bool :=
  (descField c.desc 24 1 == 0 || (kb.drop 38).take 2 == (c.desc.drop 8).take 2)
    && (descField c.desc 25 1 == 0 || kbOpcode kb == descField c.desc 16 8)

/-- The Guild's records that a FLOW_FLUSH deletes. -/
def flushRecords (s : State) (g : Nat) (c : Cmd) : List TagAt :=
  (allTags s).filter fun x => let kb := s.mrd (recAddr x.tag.index) 64; kbGuild kb == g && flowMatches c kb

/-- The pass of a FLOW_FLUSH: it reads every bucket with tags and every key block, with their containment, and finds the
records that it deletes. -/
def flushPass (g : Nat) (c : Cmd) (s : State) : List TagAt × State :=
  let s := ((allTags s).map TagAt.bucket).eraseDups.foldl (fun s b => (readBucket b s).2) s
  (allTags s).foldl (fun r x =>
    match readKeyBlock x r.2 with
    | (some kb, s) => (if kbGuild kb == g && flowMatches c kb then r.1 ++ [x] else r.1, s)
    | (none, s) => (r.1, s)) ([], s)

/-- One record of a flush: deleted, skipped, or recalled first. -/
def flushRecord (g ring : Nat) (s : State) (x : TagAt) : State :=
  let i := x.tag.index
  if x.owned.any fun e => halfPinned s e.2 i e.1 then flowFlushStep g ring false s
  else if x.owned.isEmpty then flowFlushStep g ring true (flowDelete x g s)
  else
    let s := opPush { pair := x.pair, index := i, purpose := .cmd g ring, waiting := x.owned.map Prod.fst } s
    x.owned.foldl (fun s e => recallSend e.2 i e.1 s) s

/-- FLOW_FLUSH (R158): the pass is made at one instant, when no request holds a pair of its records (DEDUCED, log 58). -/
def execFlowFlush (g : Guild) (ring : Fin 1024) (s : State) : Out :=
  act s fun s =>
    match startable s g.val ring.val 0x24 with
    | none => s
    | some c =>
      if (flushRecords s g.val c).any fun x => pairHeld s x.pair then s
      else
        flowCmd g.val ring.val 0x24 (fun c s =>
          let (xs, s) := flushPass g.val c s
          if xs.isEmpty then completeOk g.val ring.val [] s
          else
            let s := s.modCmd g.val ring.val fun c => { c with began := true, left := xs.length }
            xs.foldl (flushRecord g.val ring.val) s) s

/-- What is left of the operations of a command ends without their answers. -/
def opsOf (s : State) (g ring : Nat) : List FtmOp := s.ftm.ops.filter fun o => o.purpose == .cmd g ring

/-- FLOW_WAIT_TIMEOUT (R158): FLOW_READ returns the HBM copies, FLOW_DEL and FLOW_FLUSH delete nothing more. -/
def execFlowWaitTimeout (g : Guild) (ring : Fin 1024) (s : State) : Out :=
  act s fun s =>
    let g := g.val
    let ring := ring.val
    let ops := opsOf s g ring
    match (s.ring g ring).cmd with
    | none => s
    | some c =>
      if ops.isEmpty ∨ !c.began then s
      else
        let s := ops.foldl (fun s o => opDrop o.index s) s
        match descOp c.desc with
        | 0x22 =>
          let late := ops.flatMap FtmOp.waiting
          flowReadDone g ring c ((if late.contains .a then 1 else 0) + (if late.contains .b then 2 else 0)) s
        | 0x23 => complete g ring (if ops.any FtmOp.pinned then 0x24 else 0x25) [] s
        | _ => ops.foldl (fun s _ => flowFlushStep g ring false s) s

end Sys2Proof.Machine
end

