-- ==== Sys2Proof/Machine/Crypto.lean ====
section
/-! DEFINITION. What the check of a signed image computes (R225): SHA-256 (FIPS 180-4) and the verification of an ECDSA
signature over P-256 (FIPS 186-4). -/
namespace Sys2Proof.Machine

/-! ### SHA-256

Words are numbers below 2³². The working words of a block are two histories, newest first: the values that word a of the
standard has had, and those that word e has had; b, c, d and f, g, h are the earlier values of the same two. -/

/-- The greatest number below 2 to the power of the fuel whose k-th power is at most n, found bit by bit above r. -/
def rootFrom (k n : Nat) : Nat → Nat → Nat
  | 0, r => r
  | b + 1, r => rootFrom k n b (if (r + 2 ^ b) ^ k ≤ n then r + 2 ^ b else r)

/-- The first 32 bits of the fractional part of the k-th root of n. -/
def rootFraction (k n : Nat) : Nat := rootFrom k (n * 2 ^ (32 * k)) 37 0 % 2 ^ 32

/-- The primes below 312: 64 of them. -/
def hashPrimes : List Nat :=
  (List.range 312).filter fun n => 2 ≤ n && (List.range 16).all fun d => d + 2 ≥ n || n % (d + 2) != 0

/-- A word turned right by each of the amounts, the results added without carry. -/
def turns (amounts : List Nat) (x : Nat) : Nat :=
  amounts.foldl (fun acc r => acc ^^^ (x >>> r + x * 2 ^ (32 - r) % 2 ^ 32)) 0

/-- The schedule's words from the sixteen of a block on, newest first: n more of them. -/
def hashExpand : Nat → List Nat → List Nat
  | 0, w => w
  | n + 1, w =>
    let near := w.getD 1 0
    let far := w.getD 14 0
    hashExpand n
      ((w.getD 15 0 + w.getD 6 0 + (turns [7, 18] far ^^^ far >>> 3) + (turns [17, 19] near ^^^ near >>> 10)) % 2 ^ 32 :: w)

/-- One round takes the sum of a schedule word and its constant. -/
def hashRound (st : List Nat × List Nat) (kw : Nat) : List Nat × List Nat :=
  match st with
  | (a :: b :: c :: d :: as, e :: f :: g :: h :: es) =>
    let choice := g ^^^ e &&& (f ^^^ g)
    let majority := a &&& b ||| c &&& (a ||| b)
    let mixed := h + turns [6, 11, 25] e + choice + kw
    ((mixed + turns [2, 13, 22] a + majority) % 2 ^ 32 :: a :: b :: c :: d :: as,
      (d + mixed) % 2 ^ 32 :: e :: f :: g :: h :: es)
  | other => other

/-- The eight words that a block leaves of the eight it begins with. -/
def hashBlock (before : List Nat) (block : List Byte) : List Nat :=
  let first := (List.range 16).map fun j => be block (4 * j) 4
  let sums := List.zipWith (fun w p => w + rootFraction 3 p) (hashExpand 48 first.reverse).reverse hashPrimes
  let (as, es) := sums.foldl hashRound (before.take 4, before.drop 4)
  List.zipWith (fun x y => (x + y) % 2 ^ 32) before (as.take 4 ++ es.take 4)

/-- The blocks of a padded message, one after the other. -/
def hashBlocks : Nat → List Byte → List Nat → List Nat
  | 0, _, ws => ws
  | n + 1, m, ws => hashBlocks n (m.drop 64) (hashBlock ws m)

/-- SHA-256 of a message, as a big-endian number. -/
def sha256 (m : List Byte) : Nat :=
  let total := (m.length + 72) / 64
  let padded := m ++ [0x80#8] ++ zeros (64 * total - m.length - 9) ++ beBytes 8 (8 * m.length)
  (hashBlocks total padded ((hashPrimes.take 8).map (rootFraction 2))).foldl (fun acc w => acc <<< 32 ||| w) 0

/-! ### ECDSA over P-256 -/

def p256P : Nat := 0xffffffff00000001000000000000000000000000ffffffffffffffffffffffff
def p256N : Nat := 0xffffffff00000000ffffffffffffffffbce6faada7179e84f3b9cac2fc632551
def p256B : Nat := 0x5ac635d8aa3a93e7b3ebbd55769886bc651d06b0cc53b0f63bce3c3e27d2604b

def p256G : Nat × Nat :=
  (0x6b17d1f2e12c4247f8bce6e563a440f277037d812deb33a0f4a13945d898c296,
   0x4fe342e2fe1a7f9b8ee7eb4a7c0f9e162bce33576b315ececbb6406837bf51f5)

/-- b to the power e modulo m, for e below 2 to the power of the fuel. -/
def powMod (m : Nat) : Nat → Nat → Nat → Nat
  | 0, _, _ => 1
  | n + 1, b, e =>
    let r := powMod m n (b * b % m) (e / 2)
    if e % 2 = 1 then r * b % m else r

/-- The inverse modulo a prime. -/
def invMod (m a : Nat) : Nat := powMod m 256 (a % m) (m - 2)

def subMod (m a b : Nat) : Nat := (a + m - b % m) % m

/-- A point of the curve; none is the point at infinity. -/
abbrev P256Point := Option (Nat × Nat)

def pointAdd (x y : P256Point) : P256Point :=
  match x, y with
  | none, q => q
  | p, none => p
  | some (x1, y1), some (x2, y2) =>
    if x1 = x2 ∧ (y1 + y2) % p256P = 0 then none
    else
      let l := if x1 = x2 then (3 * x1 * x1 + (p256P - 3)) % p256P * invMod p256P (2 * y1) % p256P
        else subMod p256P y2 y1 * invMod p256P (subMod p256P x2 x1) % p256P
      let x3 := subMod p256P (l * l % p256P) (x1 + x2)
      some (x3, subMod p256P (l * subMod p256P x1 x3 % p256P) y1)

/-- k times a point, for k below 2 to the power of the fuel. -/
def pointMul : Nat → Nat → P256Point → P256Point
  | 0, _, _ => none
  | n + 1, k, p =>
    let r := pointMul n (k / 2) (pointAdd p p)
    if k % 2 = 1 then pointAdd r p else r

def onCurve (x y : Nat) : Bool :=
  decide (x < p256P) && decide (y < p256P) && y * y % p256P == (x * x % p256P * x + (p256P - 3) * x + p256B) % p256P

/-- The signature (r, s) of a message with hash e is valid under the public key (x, y). -/
def ecdsaValid (x y r sg e : Nat) : Bool :=
  onCurve x y && decide (0 < r ∧ r < p256N) && decide (0 < sg ∧ sg < p256N) &&
    (let w := invMod p256N sg
     match pointAdd (pointMul 256 (e * w % p256N) (some p256G)) (pointMul 256 (r * w % p256N) (some (x, y))) with
     | some (rx, _) => rx % p256N == r
     | none => false)

end Sys2Proof.Machine
end

