-- ==== Sys2Proof/Machine/Microword.lean ====
section
/-! DEFINITION. The microword (ch. 10): its fields, the two ALUs, the lease and header ports, the conditions, the check
that finds a word's fault before it has any effect, and the execution of one word on what an engine holds (`Run`).
Nothing here touches the rest of the part; Engines.lean takes the staged effects into it at COMMIT. -/
namespace Sys2Proof.Machine

/-- Bits [hi:lo] of a microword (R198). -/
def mwBits (w : BitVec 160) (hi lo : Nat) : Nat := (w.toNat >>> lo) % 2 ^ (hi + 1 - lo)

def mwSeqop (w : BitVec 160) : Nat := mwBits w 159 156
def mwCond (w : BitVec 160) : Nat := mwBits w 155 150
def mwTarget (w : BitVec 160) : Nat := mwBits w 149 136
def mwLpOp (w : BitVec 160) : Nat := mwBits w 71 69
def mwLpOff (w : BitVec 160) : Nat := mwBits w 68 63
def mwLpReg (w : BitVec 160) : Nat := mwBits w 62 58
def mwByteEn (w : BitVec 160) : Nat := mwBits w 57 50
def mwHpOp (w : BitVec 160) : Nat := mwBits w 47 44
def mwHpOff (w : BitVec 160) : Nat := mwBits w 43 35
def mwHpReg (w : BitVec 160) : Nat := mwBits w 34 30
def mwHpLen (w : BitVec 160) : Nat := mwBits w 29 26
def mwImm (w : BitVec 160) : Nat := mwBits w 23 8
def mwCommit (w : BitVec 160) : Bool := mwBits w 7 7 = 1
def mwEmit (w : BitVec 160) : Bool := mwBits w 6 6 = 1
def mwYield (w : BitVec 160) : Bool := mwBits w 5 5 = 1
def mwTrap (w : BitVec 160) : Bool := mwBits w 4 4 = 1

/-- The 32 bits of an ALU's fields: ALU A at [135:104], ALU B at [103:72] (Table 10.1). -/
structure AluWord where
  op : Nat
  dst : Nat
  srca : Nat
  srcb : Nat
  shift : Nat
  width : Nat
  deriving DecidableEq, Repr

/-- The fields of ALU A (`lo = 104`) or ALU B (`lo = 72`). -/
def mwAlu (w : BitVec 160) (lo : Nat) : AluWord :=
  ⟨mwBits w (lo + 31) (lo + 26), mwBits w (lo + 25) (lo + 21), mwBits w (lo + 20) (lo + 16),
   mwBits w (lo + 15) (lo + 11), mwBits w (lo + 10) (lo + 5), mwBits w (lo + 4) lo⟩

/-- Register vN of a register list; 0 past the end. -/
def vGet (regs : List (BitVec 64)) (n : Nat) : BitVec 64 := regs.getD n 0#64

/-- A write of vN; writes to v0 and to v24 to v28 are discarded (R200). -/
def vSet (regs : List (BitVec 64)) (n : Nat) (v : BitVec 64) : List (BitVec 64) :=
  if n = 0 ∨ (24 ≤ n ∧ n ≤ 28) then regs else regs.set n v

/-- The low w bits of a number. -/
def lowBits (n w : Nat) : Nat := n % 2 ^ w


/-- Sum of the four 16-bit words of a 64-bit number. -/
def words16 (n : Nat) : Nat :=
  n % 65536 + n / 65536 % 65536 + n / 4294967296 % 65536 + n / 281474976710656 % 65536

/-- Folding with end-around carry to 16 bits; two folds suffice below 2³². -/
def fold16 (n : Nat) : Nat :=
  let a := n % 65536 + n / 65536
  let b := a % 65536 + a / 65536
  b % 65536 + b / 65536

/-! ### The ALUs (R202, R203) -/

/-- The width w of an ALU operation: WIDTH + 1, or 64 for WIDTH = 0 outside EXT and DEP. -/
def aluWidth (x : AluWord) : Nat :=
  if x.width = 0 ∧ x.op % 32 ≠ 12 ∧ x.op % 32 ≠ 13 then 64 else x.width + 1

/-- The result of an operation before masking to w bits, from A and from B (Table 10.4). -/
def aluRaw (x : AluWord) (a b : Nat) : Nat :=
  let w := aluWidth x
  let b' := b * 2 ^ x.shift % 2 ^ 64
  match x.op % 32 with
  | 1 => b'
  | 2 => a + b'
  | 3 => a + 2 ^ 64 - b'
  | 4 => a &&& b'
  | 5 => a ||| b'
  | 6 => a ^^^ b'
  | 7 => a &&& (2 ^ 64 - 1 - b')
  | 8 => a * 2 ^ (b % 64)
  | 9 => a >>> (b % 64)
  | 10 =>
    let am := lowBits a w
    let n := b % 64
    if am.testBit (w - 1) then 2 ^ w - 1 - ((2 ^ w - 1 - am) >>> n) else am >>> n
  | 11 => 2 ^ 64 - 1 - a
  | 12 => a >>> x.shift
  | 13 =>
    let top := min 64 (x.shift + w)
    let m := if x.shift < top then 2 ^ top - 2 ^ x.shift else 0
    (a &&& (2 ^ 64 - 1 - m)) ||| (lowBits b w * 2 ^ x.shift &&& m)
  | 14 => leVal ((leBytes (w / 8) a).reverse)
  | 15 => fold16 (words16 a + words16 b')
  | 16 => min a b'
  | 17 => max a b'
  | 18 => a + 2 ^ 64 - b'
  | 19 => a &&& b'
  | _ => 0

/-- The result as masked: CSUM to 16 bits, DEP to 64, every other operation to w. -/
def aluResult (x : AluWord) (a b : Nat) : Nat :=
  match x.op % 32 with
  | 13 => aluRaw x a b % 2 ^ 64
  | 15 => aluRaw x a b % 2 ^ 16
  | _ => aluRaw x a b % 2 ^ aluWidth x

/-- The flags of an operation (R203). -/
def aluFlags (x : AluWord) (a b : Nat) : Flags :=
  let r := aluResult x a b
  let w := match x.op % 32 with | 13 => 64 | 15 => 16 | _ => aluWidth x
  let b' := b * 2 ^ x.shift % 2 ^ 64
  let c := match x.op % 32 with
    | 2 => decide (2 ^ w ≤ lowBits a w + lowBits b' w)
    | 3 | 18 => decide (lowBits a w < lowBits b' w)
    | _ => false
  { z := r == 0, n := r.testBit (w - 1), c := c }

/-- Operand B: IMM where OP[5] is 1, else register SRCB. -/
def aluB (w : BitVec 160) (x : AluWord) (regs : List (BitVec 64)) : Nat :=
  if 32 ≤ x.op then mwImm w else (vGet regs x.srcb).toNat

/-- One ALU: the registers and its flags after the word, from the registers at its start. NOP writes nothing and
leaves the flags; CMP and TEST write flags only. -/
def aluStep (w : BitVec 160) (x : AluWord) (start regs : List (BitVec 64)) (f : Flags) : List (BitVec 64) × Flags :=
  let a := (vGet start x.srca).toNat
  let b := aluB w x start
  if x.op % 32 = 0 then (regs, f)
  else if x.op % 32 = 18 ∨ x.op % 32 = 19 then (regs, aluFlags x a b)
  else (vSet regs x.dst (BitVec.ofNat 64 (aluResult x a b)), aluFlags x a b)

/-! ### Conditions (R206) -/

/-- What a word can ask of its pass beside the flags. -/
structure PassBits where
  leased : Bool := false
  newFlow : Bool := false
  daHit : Bool := false
  routeHit : Bool := false
  rule : Bool := false
  firstPass : Bool := false
  express : Bool := false
  flowKey : Bool := false
  restarted : Bool := false
  mcastDa : Bool := false
  deriving DecidableEq, Repr

/-- The condition that COND[4:0] selects (Table 10.6). -/
def condBase (c : Nat) (r : Run) (p : PassBits) : Bool :=
  match c with
  | 0 => true
  | 1 => r.fa.z
  | 2 => r.fa.n
  | 3 => r.fa.c
  | 4 => r.fb.z
  | 5 => r.fb.n
  | 6 => r.fb.c
  | 7 => p.leased
  | 8 => p.newFlow
  | 9 => p.daHit
  | 10 => p.routeHit
  | 11 => p.rule
  | 12 => r.hvMiss
  | 13 => p.firstPass
  | 14 => p.express
  | 15 => p.flowKey
  | 16 => p.restarted
  | 17 => r.committed
  | 18 => p.mcastDa
  | _ => false

/-- Whether COND holds; COND[5] inverts it. -/
def condHolds (c : Nat) (r : Run) (p : PassBits) : Bool :=
  if 32 ≤ c then !condBase (c % 32) r p else condBase c r p

/-! ### The header port (R210, R211) -/

/-- The addressed byte: absolute, or indexed by v8 to v15. -/
def hpAddr (w : BitVec 160) (regs : List (BitVec 64)) : Nat :=
  let op := mwHpOp w
  if op = 2 ∨ op = 4 ∨ op = 6 ∨ op = 8 then
    (vGet regs (8 + mwHpOff w / 64)).toNat % 512 + mwHpOff w % 64
  else mwHpOff w

/-- Bytes inserted or deleted: 4 × LEN, or REG[6:0] where LEN is 0. -/
def hpCount (w : BitVec 160) (regs : List (BitVec 64)) : Nat :=
  if mwHpLen w = 0 then (vGet regs (mwHpReg w)).toNat % 128 else 4 * mwHpLen w

def isHpLoad (w : BitVec 160) : Bool := mwHpOp w = 1 || mwHpOp w = 2
def isHpStore (w : BitVec 160) : Bool := mwHpOp w = 3 || mwHpOp w = 4
def isHpIns (w : BitVec 160) : Bool := mwHpOp w = 5 || mwHpOp w = 6
def isHpDel (w : BitVec 160) : Bool := mwHpOp w = 7 || mwHpOp w = 8

/-- The net length change of the word's header-port edit. -/
def hpNet (w : BitVec 160) (regs : List (BitVec 64)) : Int :=
  if isHpIns w then hpCount w regs else if isHpDel w then - (hpCount w regs : Int) else 0

/-- HVLOC: the first or last header-vector entry with an HDR_ID. -/
def hvFind (id : Nat) (last : Bool) (hv : List (Nat × Nat)) : Option Nat :=
  ((if last then hv.reverse else hv).find? (fun e => e.1 == id)).map Prod.snd

/-- Bytes of a list replaced from an offset on. -/
def putBytes (l : List Byte) (off : Nat) (bs : List Byte) : List Byte :=
  l.take off ++ bs ++ l.drop (off + bs.length)

/-- The pieces of the first L3 header after n bytes were inserted at off: those behind it move, one that it lies inside is
cut in two. -/
def l3Ins (off n : Nat) (l : List (Nat × Nat)) : List (Nat × Nat) :=
  l.flatMap fun (o, k) =>
    if off ≤ o then [(o + n, k)] else if off < o + k then [(o, off - o), (off + n, o + k - off)] else [(o, k)]

/-- The pieces after n bytes were deleted at off: none where one of the bytes was the header's. -/
def l3Del (off n : Nat) (l : List (Nat × Nat)) : List (Nat × Nat) :=
  if n ≠ 0 ∧ (l.any fun (o, k) => decide (o < off + n ∧ off < o + k)) then []
  else l.map fun (o, k) => if off + n ≤ o then (o - n, k) else (o, k)

/-! ### The lease port (R207) -/

/-- A load of eight byte lanes from a 64-B block. -/
def lpLoad (blk : List Byte) (off en : Nat) : Nat :=
  leVal ((List.range 8).map fun k =>
    if en.testBit k ∧ off + k < 64 then blk.getD (off + k) 0#8 else 0#8)

/-- A store of eight byte lanes to the half. Bytes 0 to 3 and bits [7:1] of byte 4 are not the routine's (R141). -/
def lpStore (half : List Byte) (off en : Nat) (v : Nat) : List Byte :=
  (List.range 8).foldl (fun h k =>
    let o := off + k
    if en.testBit k ∧ o < 64 ∧ 4 ≤ o then
      let b := BitVec.ofNat 8 (v / 256 ^ k)
      if o = 4 then h.set 4 ((h.getD 4 0#8 &&& 0xFE#8) ||| (b &&& 0x01#8)) else h.set o b
    else h) half

/-! ### The fault of a word (R219) -/

/-- Fault codes (Table 10.11). -/
inductive FaultCode where
  | illegal | serviceOnly | region | runaway | hdrWindow | hdrEdit | leaseUse | stageLimit | ecc
  deriving DecidableEq, Repr

/-- The code's number in Table 10.11. -/
def FaultCode.num : FaultCode → Nat
  | .illegal => 1
  | .serviceOnly => 2
  | .region => 3
  | .runaway => 4
  | .hdrWindow => 5
  | .hdrEdit => 6
  | .leaseUse => 7
  | .stageLimit => 8
  | .ecc => 9

/-- What the check of a word needs to know of the engine and the store: dispatch entries by opcode (none where marked
invalid), the first word of the customer region, the store's size, whether the engine is a housekeeping engine in
service mode, whether the task holds a slot. -/
structure WordEnv where
  disp : List (Nat × Nat)
  custBase : Nat
  size : Nat
  service : Bool
  lease : Bool
  pass : PassBits

def WordEnv.entry (e : WordEnv) (op : Nat) : Option Nat :=
  (e.disp.find? (fun x => x.1 == op)).map Prod.snd

/-- A BSWAP whose width is no multiple of 8. -/
def aluIllegal (x : AluWord) : Bool :=
  decide (20 ≤ x.op % 32) || (x.op % 32 == 14 && !(aluWidth x % 8 == 0))

/-- A reserved bit or encoding (R198). -/
def wordIllegal (w : BitVec 160) (r : Run) (e : WordEnv) : Bool :=
  mwBits w 49 48 != 0 || mwBits w 25 24 != 0 || mwBits w 3 0 != 0 || decide (7 ≤ mwSeqop w)
  || aluIllegal (mwAlu w 104) || aluIllegal (mwAlu w 72)
  || decide (5 ≤ mwLpOp w) || (mwLpOp w == 4 && decide (8 ≤ mwLpOff w))
  || decide (10 ≤ mwHpOp w) || ((isHpLoad w || isHpStore w) && decide (8 ≤ mwHpLen w))
  || (mwHpOp w == 9 && mwHpOff w / 64 % 4 != 0)
  || (mwSeqop w != 0 && decide (19 ≤ mwCond w % 32))
  || (mwSeqop w == 3 && condHolds (mwCond w) r e.pass && (e.entry (mwImm w % 256)).isNone)

/-- The address the word goes on to, none where it ends the routine (R204). -/
def wordNext (w : BitVec 160) (r : Run) (e : WordEnv) : Option Nat :=
  let holds := condHolds (mwCond w) r e.pass
  match mwSeqop w with
  | 1 => some (if holds then mwTarget w else r.pc + 1)
  | 2 => if holds then none else some (r.pc + 1)
  | 3 => if holds then some ((e.entry (mwImm w % 256)).getD 0) else some (r.pc + 1)
  | 4 => some (if holds then mwTarget w else r.pc + 1)
  | 5 => if holds then (match r.stack with | a :: _ => some a | [] => some (r.pc + 1)) else some (r.pc + 1)
  | 6 => some (if holds then r.pc else r.pc + 1)
  | _ => some (r.pc + 1)

/-- A next address outside the store, or a BR (a CALL of service mode) from the customer region to the vendor region
(R205). -/
def wordRegion (w : BitVec 160) (r : Run) (e : WordEnv) : Bool :=
  match wordNext w r e with
  | none => false
  | some a =>
    decide (e.size ≤ a)
    || ((mwSeqop w == 1 || mwSeqop w == 4) && condHolds (mwCond w) r e.pass && decide (e.custBase ≤ r.pc) && decide (a < e.custBase))

/-- Outside the header window (R211). -/
def wordHdrWindow (w : BitVec 160) (r : Run) : Bool :=
  let a := hpAddr w r.regs
  if isHpLoad w || isHpStore w then decide (r.window < a + mwHpLen w + 1)
  else if isHpIns w then decide (r.window < a)
  else if isHpDel w then decide (r.window < a + hpCount w r.regs) || decide (r.window ≤ a)
  else false

/-- Net length change past 128 B either way (R211). -/
def wordHdrEdit (w : BitVec 160) (r : Run) : Bool :=
  let n := r.net + hpNet w r.regs
  decide (n < -128) || decide (128 < n)

/-- A lease store or ADDX without a hold, or after COMMIT (R208). -/
def wordLeaseUse (w : BitVec 160) (r : Run) (e : WordEnv) : Bool :=
  (mwLpOp w == 3 || mwLpOp w == 4) && (!e.lease || r.committed)

/-- More staged adds, edits, EMIT or TRAP records than a run may make (R209, R211, R218). -/
def wordStageLimit (w : BitVec 160) (r : Run) : Bool :=
  (mwLpOp w == 4 && decide (4 ≤ r.nAdds))
  || ((isHpStore w || isHpIns w || isHpDel w) && decide (16 ≤ r.nEdits))
  || (mwEmit w && decide (2 ≤ r.nEmits)) || (mwTrap w && decide (1 ≤ r.nTraps))

/-- One word more than the MAX_WORDS under which the routine runs (R215, R219, R432). -/
def Run.runaway (r : Run) : Bool := match r.maxWords with | some m => decide (m < r.words + 1) | none => false

/-- The fault the word raises, the lowest code first; RUNAWAY is checked before the word is examined (R219). -/
def wordFault (w : BitVec 160) (r : Run) (e : WordEnv) : Option FaultCode :=
  if r.runaway then some .runaway
  else if wordIllegal w r e then some .illegal
  else if !e.service && decide (4 ≤ mwSeqop w) && decide (mwSeqop w ≤ 6) && condHolds (mwCond w) r e.pass then some .serviceOnly
  else if wordRegion w r e then some .region
  else if wordHdrWindow w r then some .hdrWindow
  else if wordHdrEdit w r then some .hdrEdit
  else if wordLeaseUse w r e then some .leaseUse
  else if wordStageLimit w r then some .stageLimit
  else none

/-! ### One word (R199) -/

/-- The lease port's staged effect and load of one word. -/
def lpStep (w : BitVec 160) (r : Run) (start : List (BitVec 64)) : Run :=
  let v := (vGet start (mwLpReg w)).toNat
  match mwLpOp w with
  | 1 => { r with regs := vSet r.regs (mwLpReg w) (BitVec.ofNat 64 (lpLoad r.keyw (mwLpOff w) (mwByteEn w))) }
  | 2 => { r with regs := vSet r.regs (mwLpReg w) (BitVec.ofNat 64 (lpLoad r.half (mwLpOff w) (mwByteEn w))) }
  | 3 => { r with half := lpStore r.half (mwLpOff w) (mwByteEn w) v, stored := true }
  | 4 => { r with adds := r.adds ++ [(mwLpOff w % 8, v)], nAdds := r.nAdds + 1 }
  | _ => r

/-- The header port's staged effect and load of one word. -/
def hpStep (w : BitVec 160) (hv : List (Nat × Nat)) (r : Run) (start : List (BitVec 64)) : Run :=
  let a := hpAddr w start
  let n := mwHpLen w + 1
  let v := (vGet start (mwHpReg w)).toNat
  let c := hpCount w start
  if isHpLoad w then
    { r with regs := vSet r.regs (mwHpReg w) (BitVec.ofNat 64 (beVal ((r.frame.drop a).take n))) }
  else if isHpStore w then
    { r with frame := putBytes r.frame a (beBytes n v), nEdits := r.nEdits + 1 }
  else if isHpIns w then
    { r with frame := r.frame.take a ++ List.replicate c 0#8 ++ r.frame.drop a, window := r.window + c
             net := r.net + c, nEdits := r.nEdits + 1, l3 := l3Ins a c r.l3 }
  else if isHpDel w then
    { r with frame := r.frame.take a ++ r.frame.drop (a + c), window := r.window - c
             net := r.net - c, nEdits := r.nEdits + 1, l3 := l3Del a c r.l3 }
  else if mwHpOp w = 9 then
    match hvFind (mwHpOff w % 64) (decide (256 ≤ mwHpOff w)) hv with
    | some o => { r with regs := vSet r.regs (mwHpReg w) (BitVec.ofNat 64 o), hvMiss := false }
    | none => { r with regs := vSet r.regs (mwHpReg w) (BitVec.allOnes 64), hvMiss := true }
  else r

/-- The registers v20 to v23 as a record of 32 B, each little-endian (R218). -/
def emitRecord (regs : List (BitVec 64)) : List Byte :=
  leBytes 8 (vGet regs 20).toNat ++ leBytes 8 (vGet regs 21).toNat ++ leBytes 8 (vGet regs 22).toNat
    ++ leBytes 8 (vGet regs 23).toNat

/-- Everything a word does inside its engine: both ALUs, the lease port, the header port, and the records it stages, in
the order of R199, every unit reading the registers as they stood at the start. The pc is left to the sequencer. -/
def wordUnits (w : BitVec 160) (hv : List (Nat × Nat)) (r : Run) : Run :=
  let start := r.regs
  let (regs1, fa) := aluStep w (mwAlu w 104) start r.regs r.fa
  let (regs2, fb) := aluStep w (mwAlu w 72) start regs1 r.fb
  let r1 := { r with regs := regs2, fa := fa, fb := fb, words := r.words + 1, total := r.total + 1 }
  let r2 := hpStep w hv (lpStep w r1 start) start
  let r3 := if mwEmit w then { r2 with emits := r2.emits ++ [emitRecord start], nEmits := r2.nEmits + 1 } else r2
  if mwTrap w then { r3 with traps := r3.traps ++ [(r.pc, mwImm w)], nTraps := r3.nTraps + 1 } else r3

/-- Whether the word ends the routine. -/
def wordEnds (w : BitVec 160) (r : Run) (e : WordEnv) : Bool := (wordNext w r e).isNone

end Sys2Proof.Machine
end

