-- ==== Sys2Proof/Machine/Routes.lean ====
section
/-! DEFINITION. The route tables (ch. 6, R130 to R135): lookups in rounds over the lengths that the filter names, the
route commands. -/
namespace Sys2Proof.Machine

/-! ### The tables -/

/-- The bits of an address that a prefix of length n keeps. -/
def prefixOf (v6 : Bool) (n addr : Nat) : Nat := addr / 2 ^ ((if v6 then 128 else 32) - n)

/-- Word of a route entry in MEM 8 (DESIGN CHOICE, log 43). -/
def routeIdx (k : RouteKey) : Nat :=
  k.guild + 8 * (k.vrf + 256 * (k.ipv6.toNat + 2 * (k.len + 256 * k.pfx)))

def routeData (s : State) (k : RouteKey) : Option Nat := (s.routes.find? fun e => e.1 == k).map Prod.snd

/-- The lengths whose filter bits are set for a Guild, a VRF and a family, the longest first (R132). -/
def routeLengths (s : State) (g vrf : Nat) (v6 : Bool) : List Nat :=
  ((List.range 129).reverse).filter fun n =>
    s.routes.any fun e => e.1.guild == g && e.1.vrf == vrf && e.1.ipv6 == v6 && e.1.len == n

/-- An entry is read in a station: one in error is invalidated there (Table 22.4, MEM 8). -/
def routeRead (st : Nat) (k : RouteKey) (s : State) : Option Nat × State :=
  match routeData s k with
  | none => (none, s)
  | some v =>
    if s.routeBad.contains (st, k) then (none, s)
    else
      match odRead 8 st (routeIdx k) s with
      | (.bad, s) => (none, odClear 8 st (routeIdx k) { s with routeBad := (st, k) :: s.routeBad })
      | (_, s) => (some v, s)

/-- One round: the longest hit among its lengths. -/
def routeRound (st : Nat) (key : Nat → RouteKey) : List Nat → State → Option Nat × State
  | [], s => (none, s)
  | n :: r, s =>
    match routeRead st (key n) s with
    | (some v, s) => (some v, s)
    | (none, s) => routeRound st key r s

/-- The rounds of a lookup, 16 lengths each: the result, and how many were taken. -/
def routeRounds (st : Nat) (key : Nat → RouteKey) : Nat → Nat → List Nat → State → RouteResult × State
  | 0, done, _, s => ({ rounds := done }, s)
  | fuel + 1, done, ls, s =>
    if ls.isEmpty then ({ rounds := done }, s)
    else
      match routeRound st key (ls.take 16) s with
      | (some v, s) => ({ hit := true, word := v, rounds := done + 1 }, s)
      | (none, s) => routeRounds st key fuel (done + 1) (ls.drop 16) s

/-- A lookup of a destination (R131, R132). -/
def routeLookup (st g vrf : Nat) (v6 : Bool) (dst : Nat) (s : State) : RouteResult × State :=
  let key (n : Nat) : RouteKey := { guild := g, vrf := vrf, ipv6 := v6, len := n, pfx := prefixOf v6 n dst }
  let (r, s) := routeRounds st key 9 0 (routeLengths s g vrf v6) s
  let s := (s.tick (Reg.LPM_CNT_LO st 0)).cnt (Reg.LPM_CNT_LO st 1) r.rounds
  (r, if r.hit then s else s.tick (Reg.LPM_CNT_LO st 2))

/-- The route lookup that a task has issued. -/
def taskRoute (st : Nat) (t : Task) (s : State) : RouteResult × State :=
  match t.l3dst with
  | some (v6, dst) =>
    let vrf := s.cfg (Reg.LPM_PORT st (localOf t.frame.inPort)) Fld.LPM_PORT_VRF
    routeLookup st t.frame.guild vrf v6 dst (energy st 1 2 s)
  | none => (t.route, s)

/-- ROUTE_LOOKUP_DONE (R132). -/
def execRouteLookupDone (st : Station) (slot : Fin 2048) (s : State) : Out :=
  act s fun s =>
    let st := st.val
    match s.task? st slot.val with
    | none => s
    | some t =>
      if t.routeWait then
        let (r, s) := taskRoute st t s
        depDone st slot.val (s.modTask st slot.val fun t => { t with routeWait := false, route := r })
      else s

/-! ### Commands (R136) -/

def lpmLen (c : Cmd) : Nat := descField c.desc 0 8
def lpmV6 (c : Cmd) : Bool := descField c.desc 8 1 == 1
def lpmReplace (c : Cmd) : Bool := descField c.desc 9 1 == 1

/-- The prefix of a route command as a number of its family's width. -/
def lpmAddr (c : Cmd) : Nat := if lpmV6 c then be c.desc 16 16 else be c.desc 16 4

def lpmKey (g : Nat) (c : Cmd) : RouteKey :=
  { guild := g, vrf := descField c.desc 16 8, ipv6 := lpmV6 c, len := lpmLen c
    pfx := prefixOf (lpmV6 c) (lpmLen c) (lpmAddr c) }

/-- LEN beyond its range, a bit set beyond LEN, or a nonzero byte past an IPv4 prefix. -/
def badPrefix (c : Cmd) : Bool :=
  let w := if lpmV6 c then 128 else 32
  decide (w < lpmLen c) || lpmAddr c % 2 ^ (w - lpmLen c) != 0 || (!lpmV6 c && be c.desc 20 12 != 0)

def routeCount (s : State) (v6 : Bool) : Nat := (s.routes.filter fun e => e.1.ipv6 == v6).length

def routeGuildCount (s : State) (g : Nat) (v6 : Bool) : Nat :=
  (s.routes.filter fun e => e.1.ipv6 == v6 && e.1.guild == g).length

/-- Prefixes that a station's replica holds (Table 06.25). -/
def replicaCount (s : State) (st : Nat) (v6 : Bool) : Nat :=
  routeCount s v6 - (s.routeBad.filter fun e => e.1 == st && e.2.ipv6 == v6).length

def routeLimit (v6 : Bool) : Nat := if v6 then 65536 else 262144

def routeQuota (s : State) (g : Nat) (v6 : Bool) : Nat :=
  min (routeLimit v6)
    (if v6 then s.cfg (Reg.LPM_QUOTA6 g) Fld.LPM_QUOTA6_LIMIT else s.cfg (Reg.LPM_QUOTA4 g) Fld.LPM_QUOTA4_LIMIT)

/-- An entry is written in every replica: an error that an earlier write left is gone, one that TNK_MEMINJ has armed is
planted. -/
def routeWrite (k : RouteKey) (v : Nat) (s : State) : State :=
  let s := { s with routes := (s.routes.filter fun e => e.1 != k) ++ [(k, v)]
                    routeBad := s.routeBad.filter fun e => e.2 != k }
  (List.range 12).foldl (fun s st => odWrite 8 st (routeIdx k) s) s

/-- A route command: its prefix is checked first. -/
def lpmStart (g ring op : Nat) (f : Cmd → RouteKey → State → State) (s : State) : State :=
  onCmd g ring op (fun c s => if badPrefix c then complete g ring 0x17 [] s else f c (lpmKey g c) s) s

/-- LPM_ADD (R135). -/
def execLpmAdd (g : Guild) (ring : Fin 1024) (s : State) : Out :=
  act s (lpmStart g.val ring.val 0x18 fun c k s =>
    let g := g.val
    let ring := ring.val
    let v := descField c.desc 32 26
    match routeData s k with
    | some _ => if lpmReplace c then completeOk g ring [] (routeWrite k v s) else complete g ring 0x15 [] s
    | none =>
      if routeLimit k.ipv6 ≤ routeCount s k.ipv6 then complete g ring 0x16 [] s
      else if routeQuota s g k.ipv6 ≤ routeGuildCount s g k.ipv6 then complete g ring 0x11 [] s
      else completeOk g ring [] (routeWrite k v s))

/-- LPM_DEL (R135). -/
def execLpmDel (g : Guild) (ring : Fin 1024) (s : State) : Out :=
  act s (lpmStart g.val ring.val 0x19 fun _ k s =>
    match routeData s k with
    | none => complete g.val ring.val 0x12 [] s
    | some _ =>
      completeOk g.val ring.val []
        { s with routes := s.routes.filter fun e => e.1 != k, routeBad := s.routeBad.filter fun e => e.2 != k })

/-- The entry that LPM_READ returns: of the first replica that holds it without error (DESIGN CHOICE, log 146). -/
def routeReadAny (k : RouteKey) : List Nat → State → Option Nat × State
  | [], s => (none, s)
  | st :: r, s =>
    match routeRead st k s with
    | (some v, s) => (some v, s)
    | (none, s) => routeReadAny k r s

/-- LPM_READ (R136). -/
def execLpmRead (g : Guild) (ring : Fin 1024) (s : State) : Out :=
  act s (lpmStart g.val ring.val 0x1A fun _ k s =>
    match routeReadAny k (List.range 12) s with
    | (none, s) => complete g.val ring.val 0x12 [] s
    | (some v, s) => completeOk g.val ring.val (leBytes 4 v) s)

end Sys2Proof.Machine
end

