-- ==== Sys2Proof/Machine/Icehouse.lean ====
section
/-! DEFINITION. The Icehouse (ch. 8): searches, holds and chains, lease-wait entries, fills, the drainer, recalls,
pins, the Icehouse commands. -/
namespace Sys2Proof.Machine

/-! ### Slots -/

def State.slot? (s : State) (st n : Nat) : Option Slot := aget? n (s.stn st).ice.slots

def State.setSlot (s : State) (st n : Nat) (x : Slot) : State := s.modIce st fun i => { i with slots := aset n x i.slots }

def iceCnt (st k : Nat) (s : State) : State := s.tick (Reg.ICE_CNT_LO st k)

/-- Word of a slot in MEM 5: a slot holds 128 B (DESIGN CHOICE, log 43). -/
def slotWord (n : Nat) : Nat := 16 * n

/-- FREE slots. -/
def freeSlots (s : State) (st : Nat) : Nat := 8192 - (s.stn st).ice.slots.length

/-- A FREE slot: any of them. -/
def takeSlot (st : Nat) (s : State) : Nat × State :=
  let (k, s) := s.drawNat
  (freeFrom ((s.stn st).ice.slots.map Prod.fst) 0 8192 k, s)

/-- FREE_LOW and WAIT_HIGH as treated (Table 08.9). -/
def freeLow (s : State) (st : Nat) : Nat := clampNat 16 512 (s.cfg (Reg.ICE_CFG st) Fld.ICE_CFG_FREE_LOW)

def waitHigh (s : State) (st : Nat) : Nat := min 256 (s.cfg (Reg.ICE_CFG st) Fld.ICE_CFG_WAIT_HIGH)

/-- An idle recall of the sweep has been ignored, or its drain revived. -/
def sweepAnswer (i : Nat) (h : Half) (s : State) : State :=
  if s.ftm.ops.any fun o => o.index == i && o.purpose == .sweep && o.waiting.contains h then opAnswer i h false s else s

/-- A SYNC has been served. -/
def syncAnswer (i : Nat) (h : Half) (r : CmdRef) (s : State) : State :=
  if s.ftm.ops.any fun o => o.index == i && o.purpose == .cmd r.1 r.2 && o.waiting.contains h then opAnswer i h false s
  else s

/-- A slot that a flush drains has reached FREE, or has been revived (R184): `acc` counts drained, `acc2` skipped. -/
def flushAnswer (r : CmdRef) (drained : Bool) (s : State) : State :=
  let s := s.modCmd r.1 r.2 fun c =>
    { c with left := c.left - 1, acc := c.acc + drained.toNat, acc2 := c.acc2 + (!drained).toNat }
  match waitingCmd s r.1 r.2 0x2A with
  | some c => if c.left = 0 then completeOk r.1 r.2 (leBytes 4 c.acc ++ leBytes 4 c.acc2) s else s
  | none => s

/-- A slot is invalidated and RELEASE is sent, in one step (R168). The WAIT_RELEASE entry for its full key moves on
(R170). -/
def slotFree (st n : Nat) (x : Slot) (s : State) : State :=
  let s := s.modIce st fun i =>
    { i with slots := adel n i.slots
             entries := i.entries.map fun e =>
               if e.2.st = .release ∧ e.2.sig = x.sig ∧ e.2.d = x.d ∧ e.2.key = kbKey x.key then
                 (e.1, { e.2 with st := .slot })
               else e }
  let s := ftmSend st (.release x.index x.which) s
  let s := match x.syncFor with | some r => syncAnswer x.index x.which r s | none => s
  match x.flushFor with
  | some r => flushAnswer r true s
  | none => s

/-- A DRAINING slot, or a RECALLING one whose chain has ended, goes once its write-backs and the adds of its holders
have been accepted (R148, R168). -/
def slotLeave (st n : Nat) (s : State) : State :=
  match s.slot? st n with
  | some x =>
    let adds := aget 0 (2 * x.index + (if x.which = .a then 0 else 1)) (s.stn st).ice.addsPending
    if (x.st = .draining ∨ (x.st = .recalling ∧ x.holder = none ∧ x.chain = [])) ∧ x.wb = [] ∧ adds = 0 then
      slotFree st n x s
    else s
  | none => s

/-- A task searches again (R171). -/
def searchAgain (st : Nat) (s : State) (k : Nat) : State := s.modTask st k fun t => { t with ice := .search }

def pinCount (st g : Nat) (n : Int) (s : State) : State :=
  s.put (Reg.ICE_PIN_CNT st g) Fld.ICE_PIN_CNT_COUNT
    ((s.get (Reg.ICE_PIN_CNT st g) Fld.ICE_PIN_CNT_COUNT + n : Int).toNat)

/-! ### Errors of slots (Table 22.4, MEM 5) -/

/-- A slot in error is invalidated without write-back: the tasks chained on it search again, and RELEASE is sent once
nothing keeps it. -/
def slotInvalid (st n : Nat) (x : Slot) (s : State) : State :=
  slotLeave st n (x.chain.foldl (searchAgain st) (s.setSlot st n { x with st := .recalling, dirty := false, chain := [] }))

/-- A pinned slot in error is refilled from HBM. A record whose key block is in error there is deleted, and with it goes
the pin (DESIGN CHOICE, log 145). -/
def slotReload (st n : Nat) (x : Slot) (s : State) : State :=
  match recordBlock x.index s with
  | (some kb, s) =>
    let (half, s) := readHalf x.index x.which s
    odWrite 5 st (slotWord n) (s.setSlot st n { x with key := kb, half := half, dirty := false })
  | (none, s) => slotInvalid st n { x with pinned := false } (pinCount st (kbGuild x.key) (-1) s)

/-- The containment of a slot in error, as far as it concerns the slot and its chain. -/
def slotContain (st n : Nat) (x : Slot) (s : State) : State :=
  if x.pinned then slotReload st n x s else slotInvalid st n x s

/-- A slot's write-back is issued if it is due; DIRTY clears (R165). The half is read from the slot: one in error is not
written back (R397). -/
def issueWb (st n : Nat) (s : State) : State :=
  match s.slot? st n with
  | some x =>
    if x.dirty then
      match odRead 5 st (slotWord n) s with
      | (.bad, s) => slotContain st n x (odClear 5 st (slotWord n) s)
      | (_, s) => iceCnt st 7 (s.setSlot st n { x with dirty := false, wb := x.wb ++ [x.half] })
    else s
  | none => s

/-- A SYNC's write-back (R179): its answer comes once the slot's write-backs have been accepted, and at once where the
slot has none to issue. -/
def syncWb (st n : Nat) (r : CmdRef) (s : State) : State :=
  match s.slot? st n with
  | none => s
  | some x =>
    let s := issueWb st n (s.setSlot st n { x with syncFor := some r })
    match s.slot? st n with
    | none => s
    | some y =>
      let s := if x.wb.length < y.wb.length then iceCnt st 15 s else s
      if y.wb.isEmpty then syncAnswer x.index x.which r (s.setSlot st n { y with syncFor := x.syncFor }) else s

/-- A slot begins to leave: its write-back is issued if due. -/
def slotDrain (st n : Nat) (s : State) : State :=
  let s := issueWb st n s
  match s.slot? st n with
  | some x => if x.st = .recalling then s else slotLeave st n (s.setSlot st n { x with st := .draining })
  | none => s

/-- A DRAINING slot is revived (R175). -/
def slotRevive (st n : Nat) (x : Slot) (s : State) : State :=
  let s := iceCnt st 5 (s.setSlot st n { x with st := .idle, flushFor := none, sweepFor := false })
  let s := match x.flushFor with | some r => flushAnswer r false s | none => s
  if x.sweepFor then sweepAnswer x.index x.which s else s

/-! ### Grants (R163 to R165) -/

/-- The stamp of a half. -/
def stampHalf (now : Nat) (d : List Byte) : List Byte := leBytes 4 now ++ leBytes 1 (le d 4 1 ||| 2) ++ d.drop 5

/-- Opcode of a task's next dispatch and the case of R213 that gives it. A packet under the no-room action PUNT runs
the vendor routine of Table 11.6. -/
def taskOpcode (s : State) (st : Nat) (t : Task) : Nat :=
  match t.ice with
  | .holding n => match s.slot? st n with | some x => kbOpcode x.key | none => 0
  | _ =>
    if t.noRoom = some 2 then 0x05
    else match t.rule with
      | some r => bits r 63 56
      | none => s.get (Reg.STN_AE_UNCLASS st t.frame.guild) Fld.STN_AE_UNCLASS_OPCODE

/-- An opcode is marked in TSK_SHORT. -/
def shortOp (s : State) (st op : Nat) : Bool := (s.inForce (Reg.TSK_SHORT st (op / 32))).testBit (op % 32)

/-- Reserved engines (R245). -/
def reservedEngine (s : State) (st e : Nat) : Bool :=
  decide (24 - min 12 (s.cfg (Reg.TSK_CFG st) Fld.TSK_CFG_XRES) ≤ e)

/-- The conditions of an affinity hand-off (R247). -/
def handsOff (s : State) (st e k : Nat) (t : Task) : Bool :=
  let ts := (s.stn st).tasks
  t.st == .waiting && t.cnt == 1 && (aget [] 4 ts.ready).isEmpty
    && (!reservedEngine s st e || t.express || shortOp s st (taskOpcode s st t))
    && decide (aget 0 e ts.handoffs < s.cfg (Reg.TSK_CFG st) Fld.TSK_CFG_AFF_RUN)
    && (aget? e ts.handTo).isNone && !ts.handTo.any fun x => x.2 == k

/-- A hold is granted: stamp, REF, the task's count. After a hold that ended on engine `e`, the task may be handed to
it. -/
def grant (st n k : Nat) (e : Option Nat) (s : State) : State :=
  match s.slot? st n, s.task? st k with
  | some x, some t =>
    let half := stampHalf (ftmNow s) x.half
    let s := odPart 5 st (slotWord n) (s.setSlot st n
      { x with st := if x.st = .recalling then .recalling else .held, holder := some k, half := half, ref := true
               dirty := x.dirty || half != x.half })
    let s := s.setTask st k { t with ice := .holding n, index := x.index, leases := t.leases + 1 }
    let s := searchRelease st k s
    match e, s.task? st k with
    | some e, some t =>
      if handsOff s st e k t then
        let s := s.setTask st k { t with cnt := 0, st := .ready }
        (s.modTasks st fun ts =>
          { ts with handTo := aset e k ts.handTo, handoffs := aadd e 1 ts.handoffs }).tick (Reg.TSK_CNT_LO st 4)
      else depDone st k s
    | _, _ => depDone st k s
  | _, _ => s

/-- The place of a task in a chain: express tasks first, in search order (R164). -/
def chainInsert (s : State) (st k : Nat) (express : Bool) (c : List Nat) : List Nat :=
  if express then
    let x := c.takeWhile fun j => match s.task? st j with | some t => t.express | none => false
    x ++ k :: c.drop x.length
  else c ++ [k]

/-- A task is chained on a slot. -/
def chain (st n k : Nat) (s : State) : State :=
  match s.slot? st n, s.task? st k with
  | some x, some t =>
    (s.setSlot st n { x with chain := chainInsert s st k t.express x.chain }).setTask st k { t with ice := .chained n }
  | _, _ => s

/-- A hold ends (R163, Table 08.2): a waiting SYNC is issued, the next chained task is granted, or the slot is IDLE, or
a RECALLING one leaves. -/
def holdEnd (st n : Nat) (e : Option Nat) (s : State) : State :=
  match s.slot? st n with
  | none => s
  | some x =>
    let s := s.setSlot st n { x with holder := none, sync := false }
    let s := match x.sync, x.syncFor with
      | true, some r => syncWb st n r s
      | _, _ => s
    match s.slot? st n with
    | none => s
    | some x =>
      match x.chain with
      | k :: r => grant st n k e (s.setSlot st n { x with chain := r })
      | [] =>
        if x.st = .recalling then slotLeave st n (issueWb st n s) else s.setSlot st n { x with st := .idle }

/-! ### The search stage (R161, R162) -/

/-- The slots that match a 65-bit key: pinned ones first, then the others, in ascending order. -/
def searchMatches (s : State) (st sig d : Nat) : List Nat :=
  let m := (s.stn st).ice.slots.filter fun e => e.2.st != .filling && e.2.sig == sig && e.2.d == d
  ((m.filter fun e => e.2.pinned) ++ m.filter fun e => !e.2.pinned).map Prod.fst

/-- A search takes the next slot that the throttle enables (R45, R46). -/
def iceSearchSlot (st : Nat) (s : State) : State := s.modIce st fun i => { i with stage := i.stage.take (throttleOf s st) }

/-- A further step of a search takes its slot (R162). -/
def searchFurther (st : Nat) (s : State) : State := iceCnt st 12 (iceSearchSlot st s)

/-- The search of a task takes its slot: the slots that match its key, counted when they are several. -/
def searchMade (st : Nat) (t : Task) (s : State) : List Nat × State :=
  let s := energy st 1 0 (evCount st 5 1 (some t.frame.guild) (iceCnt st 0 (iceSearchSlot st s)))
  let l := searchMatches s st t.sig t.d
  (l, if l.length ≤ 1 then s else (iceCnt st 11 s).raise (Reg.ICE_EVENT st) Fld.ICE_EVENT_MULTI_MATCH)

/-- The slot with a task's full key, if slot n is it. -/
def slotHit (s : State) (st n : Nat) (t : Task) : Option Slot :=
  match s.slot? st n with
  | some x => if x.st != .filling && x.sig == t.sig && x.d == t.d && t.key == some (kbKey x.key) then some x else none
  | none => none

/-- The comparisons of a search whose result is discarded: each but the first is a step of its own. -/
def stepsDiscard (st : Nat) (t : Task) : List Nat → State → State
  | [], s => s
  | n :: r, s =>
    let s := memEnergy 5 st s
    if (slotHit s st n t).isSome || r.isEmpty then s else stepsDiscard st t r (searchFurther st s)

/-! ### Tasks that leave (R249) -/

/-- The lookups that a task still waits for are made, its Icehouse search among them, and their results discarded (R249;
DEDUCED, log 131). -/
def lookupsDiscard (st : Nat) (t : Task) (s : State) : State :=
  let s := match t.frame.fid, t.eptWait with
    | some fid, true => (taskEpt st t fid s).2
    | _, _ => s
  let s := if t.routeWait then (taskRoute st t s).2 else s
  match t.ice with
  | .search =>
    if t.st = .waiting then let (l, s) := searchMade st t s; stepsDiscard st t l s else s
  | .steps l => if l.isEmpty then s else stepsDiscard st t l (searchFurther st s)
  | _ => s

/-- A waiting task leaves its entry, for whatever reason: event 7 counts its wait (Table 21.5). -/
def entryLeave (st k : Nat) (s : State) : State :=
  match s.task? st k with
  | some t => evCount st 7 (s.now - t.waitSince) (some t.frame.guild) s
  | none => s

/-- A task leaves its entry, its chain, or its hold, which ends without writes; its engine, if it runs, is free. -/
def taskLeave (st k : Nat) (s : State) : State :=
  match s.task? st k with
  | none => s
  | some t =>
    let s := readyDrop st k (lookupsDiscard st t s)
    let s := s.modTasks st fun ts =>
      { ts with engines := ts.engines.filter fun e => e.2.task != k, laneR := ts.laneR.filter (· != k) }
    let key := searchKey s st t false
    let s := s.modRules st fun r => { r with queue := r.queue.map (SearchReq.leave k t key) }
    let s := s.setTask st k { t with ice := .none, ruleWait := .none, eptWait := false, routeWait := false }
    match t.ice with
    | .entry e =>
      let s := entryLeave st k s
      match s.entry? st e with
      | some x => s.setEntry st e { x with tasks := x.tasks.filter (· != k) }
      | none => s
    | .chained n =>
      match s.slot? st n with
      | some x => s.setSlot st n { x with chain := x.chain.filter (· != k) }
      | none => s
    | .holding n => holdEnd st n none s
    | _ => s

/-- A task is dropped wherever it stands. -/
def taskKill (st k : Nat) (s : State) : State := taskDrop st k (taskLeave st k s)

/-! ### Slots and entries as they are read (Table 22.4, MEM 5 and 6) -/

/-- A slot in error is contained, and its task is dropped. -/
def slotLost (st n : Nat) (x : Slot) (s : State) : State :=
  let s := slotContain st n x s
  match x.holder with
  | some k => taskKill st k s
  | none => s

/-- A slot is read: false where it holds an uncorrectable error, which is then contained. -/
def slotRead (st n : Nat) (s : State) : Bool × State :=
  match odRead 5 st (slotWord n) s with
  | (.bad, s) =>
    let s := odClear 5 st (slotWord n) s
    match s.slot? st n with
    | some x =>
      if x.st = .filling then (true, s) else 
        let s := slotLost st n x s
        ((s.slot? st n).any (·.pinned), s)
    | none => (true, s)
  | (_, s) => (true, s)

/-- An entry is taken out of the lease-wait list, with what it still has outstanding. -/
def entryRemove (st e : Nat) (s : State) : State :=
  match s.entry? st e with
  | none => s
  | some x =>
    let s := s.modIce st fun i =>
      { i with entries := adel e i.entries
               createQ := i.createQ.filter fun c => !(c.sig == x.sig && c.d == x.d) }
    let s := if x.phase = .created then s.modFtm fun f =>
        { f with inbox := f.inbox.map fun q =>
          if q.1 = st then (q.1, q.2.filter fun m => m != .create x.sig x.d) else q }
      else s
    s.modRules st fun r =>
      { r with queue := r.queue.filter fun q => match q with | .creation j _ => j != e | _ => true }

/-- The FILLING slot of an entry is FREE again. -/
def entrySlotFree (st : Nat) (x : LeaseEntry) (s : State) : State :=
  match x.slot with
  | some n => s.modIce st fun i => { i with slots := adel n i.slots }
  | none => s

/-- An entry in error is dropped with every task attached to it, and the load that an ICE_PIN waits for ends. -/
def entryLost (st e : Nat) (x : LeaseEntry) (s : State) : State :=
  let s := entrySlotFree st x (entryRemove st e s)
  let s := x.tasks.foldl (fun s k => taskKill st k s) s
  match x.pinFor with
  | some r => complete r.1 r.2 0x2D [] s
  | none => s

/-- An entry is read: none where it holds an uncorrectable error. -/
def entryRead (st e : Nat) (s : State) : Option LeaseEntry × State :=
  match odRead 6 st e s with
  | (.bad, s) =>
    let s := odClear 6 st e s
    match s.entry? st e with
    | some x => (none, entryLost st e x s)
    | none => (none, s)
  | (_, s) => (s.entry? st e, s)

/-! ### Entries (R170) -/

/-- An entry takes a FREE slot, which becomes FILLING, and sends FILL. -/
def fillStart (st e : Nat) (x : LeaseEntry) (s : State) : State :=
  let (n, s) := takeSlot st s
  let s := s.setSlot st n { st := .filling, sig := x.sig, d := x.d }
  ftmSend st (.fill x.sig x.d x.key) (s.setEntry st e { x with st := .fill, phase := .sent, slot := some n })

/-- The lowest number that no entry has. -/
def entryNumber (s : State) (st : Nat) : Nat :=
  ((List.range 256).find? fun e => (s.entry? st e).isNone).getD 0

/-- A new entry: WAIT_RELEASE while a RECALLING slot has its key, else WAIT_FILL with a FREE slot, else WAIT_SLOT. -/
def entryNew (st : Nat) (x : LeaseEntry) (recalling : Bool) (s : State) : State :=
  let e := entryNumber s st
  let s := (odClear 6 st e s).setEntry st e { x with st := if recalling then .release else .slot }
  let s := if (s.stn st).ice.entries.length = waitHigh s st then s.raise (Reg.ICE_EVENT st) Fld.ICE_EVENT_WAIT_HIGH else s
  if recalling then s
  else if freeSlots s st = 0 then iceCnt st 14 s
  else match s.entry? st e with
    | some x => fillStart st e x s
    | none => s

/-! ### Searches (R161, R162, R171, R172) -/

/-- A search that finds no hit: it joins the entry of its key, takes a new one, or is refused. An entry that ended
because no task with its key was left, and that has made no creation search, makes it for the pass that joins (R185). -/
def searchMiss (st k : Nat) (recalling : Bool) (s : State) : State :=
  match s.task? st k with
  | none => s
  | some t =>
    let g := t.frame.guild
    let (old, s) := match entryOf s st t.sig t.d with
      | some (e, _) => let (x, s) := entryRead st e s; (x.map fun x => (e, x), s)
      | none => (none, s)
    match old with
    | some (e, x) =>
      let x := { x with tasks := x.tasks ++ [k] }
      let s := iceCnt st 3 (s.setEntry st e x)
      let s := s.setTask st k { t with ice := .entry e, waitSince := s.now }
      if x.phase = .ended ∧ x.rule = none then creationAsk st e x s else s
    | none =>
      if 256 ≤ (s.stn st).ice.entries.length then
        let s := s.setTask st k { t with ice := .refused, waitRefused := true }
        if t.waitRefused then s
        else
          let s := refusalStall st k s
          (iceCnt st 13 s).raise (Reg.ICE_EVENT st) Fld.ICE_EVENT_WAIT_REFUSED
      else
        let s := evCount st 6 1 (some g) (iceCnt st 2 s)
        let s := s.setTask st k { t with ice := .entry (entryNumber s st), waitSince := s.now }
        entryNew st { sig := t.sig, d := t.d, key := t.key.getD [], st := .slot, tasks := [k], ruleBank := t.tag, guild := g }
          recalling s

/-- A search meets its flow's slot (Table 08.2). -/
def searchHit (st k n : Nat) (x : Slot) (s : State) : State :=
  match x.st with
  | .held => chain st n k (iceCnt st 4 (iceCnt st 1 s))
  | .draining => grant st n k none (slotRevive st n x (iceCnt st 1 s))
  | .idle => grant st n k none (iceCnt st 1 s)
  | _ => searchMiss st k true s

/-- One step of a search: a matching slot is compared with the full key; `rest` are those still to compare. -/
def searchStep (st k n : Nat) (rest : List Nat) (s : State) : State :=
  let (_, s) := slotRead st n s
  match s.task? st k with
  | none => s
  | some t =>
    match slotHit s st n t with
    | some x => searchHit st k n x s
    | none => if rest.isEmpty then searchMiss st k false s else s.setTask st k { t with ice := .steps rest }

/-- An express search waits for a slot of the search stage. -/
def expressWaits (s : State) (st : Nat) : Bool :=
  (s.stn st).tasks.slots.any fun e => e.2.express && (match e.2.ice with
    | .search => e.2.st == .waiting
    | .steps _ => true
    | .refused => decide ((s.stn st).ice.entries.length < 256)
    | _ => false)

/-- A task's search may take the next enabled slot: express searches go ahead of all others (R46, R309). -/
def slotTurn (s : State) (st : Nat) (t : Task) : Bool := t.express || !expressWaits s st

/-- The search of a task's pass. One that steps through several matches takes effect as a whole at its last step, where
the lease-wait list is looked at: a slot that a fill validates meanwhile is compared as well (R161, R168; DEDUCED,
log 132). -/
def searchRun (st k : Nat) (s : State) : State :=
  match s.task? st k with
  | none => s
  | some t =>
    match searchMade st t s with
    | ([], s) => searchMiss st k false s
    | (n :: rest, s) => searchStep st k n rest s

/-- ICE_SEARCH (R162). -/
def execIceSearch (st : Station) (slot : Fin 2048) (s : State) : Out :=
  act s fun s =>
    match s.task? st.val slot.val with
    | some t => if t.ice = .search ∧ t.st = .waiting ∧ slotTurn s st.val t then searchRun st.val slot.val s else s
    | none => s

/-- MM_STEP (R162). -/
def execMmStep (st : Station) (slot : Fin 2048) (s : State) : Out :=
  act s fun s =>
    match s.task? st.val slot.val with
    | some t =>
      match t.ice with
      | .steps (n :: rest) =>
        if slotTurn s st.val t then searchStep st.val slot.val n rest (searchFurther st.val s)
        else s
      | _ => s
    | none => s

/-- SEARCH_RETRY (R172): an entry is free again. -/
def execSearchRetry (st : Station) (slot : Fin 2048) (s : State) : Out :=
  act s fun s =>
    match s.task? st.val slot.val with
    | some t =>
      if t.ice = .refused ∧ (s.stn st.val).ice.entries.length < 256 ∧ slotTurn s st.val t then
        searchRun st.val slot.val s
      else s
    | none => s

/-- WAIT_ENTRY_FILL_START (R170). -/
def execWaitEntryFillStart (st : Station) (entry : Nat) (s : State) : Out :=
  act s fun s =>
    match s.entry? st.val entry with
    | some x => if x.st = .slot ∧ freeSlots s st.val ≠ 0 then fillStart st.val entry x s else s
    | none => s

/-! ### Pins (R180, R181) -/

def pinnedSlots (s : State) (st : Nat) : List (Nat × Slot) := (s.stn st).ice.slots.filter fun e => e.2.pinned

/-- Why a pin is refused in a station. -/
def pinRefused (s : State) (st g sig d : Nat) : Option Nat :=
  if 1024 ≤ (pinnedSlots s st).length
      ∨ min 1024 (s.get (Reg.ICE_PIN_QUOTA st g) Fld.ICE_PIN_QUOTA_LIMIT)
        ≤ s.get (Reg.ICE_PIN_CNT st g) Fld.ICE_PIN_CNT_COUNT then
    some 0x28
  else if (pinnedSlots s st).any fun e => e.2.sig == sig && e.2.d == d then some 0x2A
  else none

/-- A loaded half is pinned for a command, whose `acc` holds the previous owner's byte. A record that has been deleted
and made anew has another INDEX, and is not the one that the command names. -/
def pinNow (st n : Nat) (r : CmdRef) (s : State) : State :=
  match s.slot? st n, (s.ring r.1 r.2).cmd with
  | some x, some c =>
    if x.index ≠ descField c.desc 0 26 then complete r.1 r.2 0x23 [] s
    else match pinRefused s st r.1 x.sig x.d with
    | some code => complete r.1 r.2 code [] s
    | none =>
      let s := if x.st = .draining then slotRevive st n x s else s
      let s := match s.slot? st n with | some x => s.setSlot st n { x with pinned := true } | none => s
      completeOk r.1 r.2 (leBytes 1 c.acc) (pinCount st r.1 1 s)
  | _, _ => s

/-! ### Fills that return (R168, R169, R171) -/

/-- The tasks of an entry that share its key; the others search again (R171). -/
def entryTasks (st : Nat) (x : LeaseEntry) (s : State) : List Nat × State :=
  let isMine (k : Nat) : Bool := match s.task? st k with | some t => t.key == some x.key | none => false
  let s := (x.tasks.filter fun k => !isMine k).foldl
    (fun s k => searchAgain st (entryLeave st k s) k) s
  (x.tasks.filter isMine, s)

/-- What a pass takes from the creation search of its entry (R185): nothing after a race (R149). -/
def shareRule (st : Nat) (x : LeaseEntry) (raced : Bool) (s : State) (k : Nat) : State :=
  match x.rule with
  | some r =>
    searchServe st k (s.modTask st k fun t => { t with rule := if raced then none else some r, searched := true })
  | none => s

/-- A task of a returned fill: the first is granted, the others are chained. -/
def fillTask (st n : Nat) (s : State) (k : Nat) : State :=
  match s.slot? st n with
  | some y => if y.holder.isNone then grant st n k none s else chain st n k s
  | none => s

/-- A slot has become searchable: the searches of its key that are under way compare it too (log 132). -/
def stepsMeet (st n : Nat) (x : Slot) (s : State) : State :=
  s.modTasks st fun ts => { ts with slots := ts.slots.map fun e =>
    match e.2.ice with
    | .steps l =>
      if e.2.sig = x.sig ∧ e.2.d = x.d then (e.1, { e.2 with ice := .steps (l.filter (· != n) ++ [n]) }) else e
    | _ => e }

/-- The half that a fill brings is validated in its slot, and its entry is retired, in one step. -/
def fillLoad (st e : Nat) (x : LeaseEntry) (n i : Nat) (h : Half) (new : Bool) (s : State) : State :=
  let slot : Slot := { st := .idle, sig := x.sig, d := x.d, key := s.mrd (recAddr i) 64, half := s.mrd (halfAddr i h) 64
                       index := i, which := h }
  let s := stepsMeet st n slot (odWrite 5 st (slotWord n) ((entryRemove st e s).setSlot st n slot))
  let (ks, s) := entryTasks st x s
  let raced := x.phase == .created && !new
  let s := ks.foldl (fun s k => shareRule st x raced (entryLeave st k s) k) s
  let s := match ks with
    | k :: _ => s.modTask st k fun t => { t with newFlow := new }
    | [] => s
  let s := ks.foldl (fillTask st n) s
  match x.pinFor with
  | some r => pinNow st n r s
  | none => s

/-- The message at the head of those on their way to a station. -/
def stnHead (s : State) (st : Nat) : Option StnMsg := (aget [] st s.ftm.outbox).head?

def stnPop (st : Nat) (s : State) : State :=
  s.modFtm fun f => { f with outbox := aset st ((aget [] st f.outbox).drop 1) f.outbox }

/-- FILL_RETURNED (R168). A half that no entry waits for any longer is released at once. -/
def execFillReturned (st : Station) (s : State) : Out :=
  act s fun s =>
    let st := st.val
    match stnHead s st with
    | some (.fill sig d i h new) =>
      let s := stnPop st s
      match entryOf s st sig d with
      | none => ftmSend st (.release i h) s
      | some (e, _) =>
        match entryRead st e s with
        | (some x, s) =>
          match x.slot with
          | some n => fillLoad st e x n i h new s
          | none => ftmSend st (.release i h) s
        | (none, s) => ftmSend st (.release i h) s
    | _ => s

/-- The outcome of a pass whose entry ends without a lease: NOSTATE, or no room with its action and the key block of a
pin conflict (Table 07.8, R208). -/
def noLease (st : Nat) (x : LeaseEntry) (action : Option Nat) (kb : List Byte) (s : State) (k : Nat) : State :=
  if action = some 1 then taskKill st k s
  else
    let s := entryLeave st k s
    let rule := if kb.isEmpty then x.rule else some (kbRule kb)
    let s := s.modTask st k fun t =>
      { t with ice := .none, conflictKey := kb, noRoom := action, rule := rule <|> t.rule
               searched := t.searched || x.rule.isSome }
    depDone st k (if x.rule.isSome then searchServe st k s else searchRelease st k s)

/-- An entry ends without a lease: its slot is FREE again, its tasks take the outcome. An ICE_PIN that waits for it finds
the half pinned elsewhere, which the key block tells, or no record. -/
def entryEnd (st e : Nat) (x : LeaseEntry) (action : Option Nat) (kb : List Byte) (s : State) : State :=
  let s := entrySlotFree st x (entryRemove st e s)
  let (ks, s) := entryTasks st x s
  let s := ks.foldl (noLease st x action kb) s
  match x.pinFor with
  | some r => complete r.1 r.2 (if kb.isEmpty then 0x23 else 0x29) [] s
  | none => s

/-- FILL_NO_RECORD (R168): a no-room outcome arrives, or an entry has ended under a stateless result. -/
def execFillNoRecord (st : Station) (s : State) : Out :=
  act s fun s =>
    let st := st.val
    match (s.stn st).ice.entries.find? fun e => e.2.phase == .ended with
    | some (e, _) =>
      match entryRead st e s with
      | (some x, s) => entryEnd st e x none [] s
      | (none, s) => s
    | none =>
      match stnHead s st with
      | some (.noRoom sig d action kb) =>
        let s := stnPop st s
        match entryOf s st sig d with
        | none => s
        | some (e, _) =>
          match entryRead st e s with
          | (some x, s) => entryEnd st e x (some action) kb s
          | (none, s) => s
      | _ => s

/-- HOLD_END (R163): the routine of a task that still holds its slot has ended. -/
def execHoldEnd (st : Station) (slot : Fin 2048) (s : State) : Out :=
  act s fun s =>
    let st := st.val
    let k := slot.val
    match s.task? st k with
    | some t =>
      match t.ice with
      | .holding n =>
        if t.st = .done ∨ t.st = .parsing then
          let (_, s) := slotRead st n s
          match s.task? st k with
          | some t => if t.ice = .holding n then holdEnd st n t.ranOn (s.setTask st k { t with ice := .none }) else s
          | none => s
        else s
      | _ => s
    | none => s

/-! ### The drainer and write-backs (R174) -/

/-- The clock hand moves over the slots in order: REF of an IDLE unpinned slot clears, or the slot is the victim. -/
def clockHand (st : Nat) : List Nat → State → Option Nat × State
  | [], s => (none, s)
  | n :: r, s =>
    match s.slot? st n with
    | some x =>
      if x.st = .idle ∧ !x.pinned then
        if x.ref then clockHand st r (s.setSlot st n { x with ref := false }) else (some n, s)
      else clockHand st r s
    | none => clockHand st r s

/-- DRAINER_START (R174). -/
def execDrainerStart (st : Station) (s : State) : Out :=
  act s fun s =>
    let st := st.val
    let ice := (s.stn st).ice
    let begun := (ice.slots.filter fun e => e.2.st == .draining).length
    if freeLow s st ≤ freeSlots s st + begun then s
    else
      let ns := ice.slots.map Prod.fst
      let order := ns.filter (ice.hand ≤ ·) ++ ns.filter (· < ice.hand)
      match clockHand st (order ++ order) s with
      | (some n, s) => slotDrain st n (iceCnt st 6 (s.modIce st fun i => { i with hand := (n + 1) % 8192 }))
      | (none, s) => s

/-- WRITEBACK_ACCEPTED (R168): the oldest write-back that the slot has issued. -/
def execWritebackAccepted (st : Station) (ice : Fin 8192) (s : State) : Out :=
  act s fun s =>
    let st := st.val
    let n := ice.val
    match s.slot? st n with
    | none => s
    | some x =>
      match x.wb with
      | [] => s
      | w :: r =>
        let s := (hbmWrite (halfAddr x.index x.which) w s).setSlot st n
          { x with wb := r, syncFor := if r.isEmpty && !x.sync then none else x.syncFor }
        let s := match r.isEmpty && !x.sync, x.syncFor with
          | true, some c => syncAnswer x.index x.which c s
          | _, _ => s
        slotLeave st n s

/-! ### Recalls (R176 to R179) -/

/-- RECALL_RECEIVED (R176, R177). -/
def execRecallReceived (st : Station) (s : State) : Out :=
  act s fun s =>
    let st := st.val
    match stnHead s st with
    | some (.recall i h) =>
      let s := iceCnt st 8 (stnPop st s)
      match iceFind s st i h with
      | none => s
      | some (n, x) =>
        if x.pinned then ftmSend st (.refused i h) (iceCnt st 9 s)
        else
          let s := s.setSlot st n { x with st := .recalling }
          if x.holder.isNone && x.chain.isEmpty then slotLeave st n (issueWb st n s) else s
    | _ => s

/-- A slot is idle by its own stamp (R155, R178). -/
def slotIdle (s : State) (x : Slot) : Bool :=
  let k := kbTmo x.key
  decide ((if halfClosed x.half then tmoClosed s k else tmoIdle s k) ≤ ftmSince (ftmNow s) (halfSeen x.half))

/-- IDLE_RECALL (R178). -/
def execIdleRecall (st : Station) (s : State) : Out :=
  act s fun s =>
    let st := st.val
    match stnHead s st with
    | some (.idleRecall i h) =>
      let s := stnPop st s
      let s := match iceFind s st i h with | some (n, _) => (slotRead st n s).2 | none => s
      match iceFind s st i h with
      | none => s
      | some (n, x) =>
        if x.st = .idle ∧ !x.pinned ∧ slotIdle s x then
          slotDrain st n (iceCnt st 10 (s.setSlot st n { x with sweepFor := true }))
        else if x.st = .draining ∨ x.st = .recalling then s.setSlot st n { x with sweepFor := true }
        else sweepAnswer i h s
    | _ => s

/-- SYNC_WRITEBACK (R179). -/
def execSyncWriteback (st : Station) (s : State) : Out :=
  act s fun s =>
    let st := st.val
    match stnHead s st with
    | some (.sync i h g ring) =>
      let s := stnPop st s
      match iceFind s st i h with
      | none => syncAnswer i h (g, ring) s
      | some (n, x) =>
        if x.holder.isSome then s.setSlot st n { x with sync := true, syncFor := some (g, ring) }
        else syncWb st n (g, ring) s
    | _ => s

/-! ### Commands (R184) -/

def iceIndex (c : Cmd) : Nat := descField c.desc 0 26
def iceHalf (c : Cmd) : Half := if descField c.desc 32 1 = 0 then .a else .b
def iceStation (c : Cmd) : Nat := descField c.desc 40 4

/-- An Icehouse command on a half of a record in a station: its station, its record. -/
def onHalf (g ring op : Nat) (f : Cmd → TagAt → List Byte → State → State) (s : State) : State :=
  flowCmd g ring op (fun c s =>
    if 11 < iceStation c then complete g ring 0x2E [] s
    else match recordRead g (iceIndex c) s with
      | (none, s) => complete g ring 0x23 [] s
      | (some (x, kb), s) => f c x kb s) s

/-- ICE_PIN where the half is neither held nor awaited by the station: an entry loads it as a FILL would. -/
def pinLoad (st g ring : Nat) (x : TagAt) (kb : List Byte) (h : Half) (recalling : Bool) (s : State) : State :=
  let d := halfDir kb h
  match x.tag.owner h with
  | some y =>
    if y ≠ st ∧ halfPinned s y x.tag.index h then complete g ring 0x29 [] s
    else if 256 ≤ (s.stn st).ice.entries.length then s
    else
      let s := s.modCmd g ring fun c => { c with began := true, acc := 16 + y }
      entryNew st { sig := kbSig kb, d := d, key := kbKey kb, st := .slot, ruleBank := activeBank s st g, guild := g
                    pinFor := some (g, ring) } recalling s
  | none =>
    if 256 ≤ (s.stn st).ice.entries.length then s
    else
      let s := s.modCmd g ring fun c => { c with began := true }
      entryNew st { sig := kbSig kb, d := d, key := kbKey kb, st := .slot, ruleBank := activeBank s st g, guild := g
                    pinFor := some (g, ring) } recalling s

/-- ICE_PIN of a half that the station does not hold, or that it is giving up: the entry of its key loads it, which there
may be already (R170). -/
def pinAwait (st g ring own : Nat) (x : TagAt) (kb : List Byte) (h : Half) (recalling : Bool) (s : State) : State :=
  match entryOf s st (kbSig kb) (halfDir kb h) with
  | some (e, y) =>
    if y.key = kbKey kb ∧ y.pinFor = none then
      (s.setEntry st e { y with pinFor := some (g, ring) }).modCmd g ring fun c => { c with began := true, acc := own }
    else s
  | none => pinLoad st g ring x kb h recalling s

/-- ICE_PIN (R180, R181). -/
def execIcePin (g : Guild) (ring : Fin 1024) (s : State) : Out :=
  act s (onHalf g.val ring.val 0x28 fun c x kb s =>
    let g := g.val
    let ring := ring.val
    let st := iceStation c
    let h := iceHalf c
    let own := match x.tag.owner h with | some y => 16 + y | none => 0
    if halfPinned s st x.tag.index h then completeOk g ring (leBytes 1 (16 + st)) s
    else match pinRefused s st g (kbSig kb) (halfDir kb h) with
      | some code => complete g ring code [] s
      | none =>
        match iceFind s st x.tag.index h with
        | some (n, y) =>
          if y.st = .recalling then pinAwait st g ring own x kb h true s
          else pinNow st n (g, ring) (s.modCmd g ring fun c => { c with acc := own })
        | none => pinAwait st g ring own x kb h false s)

/-- ICE_UNPIN (R180). -/
def execIceUnpin (g : Guild) (ring : Fin 1024) (s : State) : Out :=
  act s (onHalf g.val ring.val 0x29 fun c x _ s =>
    let st := iceStation c
    match iceFind s st x.tag.index (iceHalf c) with
    | none => complete g.val ring.val 0x2C [] s
    | some (n, y) =>
      if y.pinned then
        completeOk g.val ring.val [] (pinCount st g.val (-1) (s.setSlot st n { y with pinned := false }))
      else complete g.val ring.val 0x2B [] s)

/-- One slot of a flush. -/
def flushSlot (st : Nat) (r : CmdRef) (s : State) (n : Nat) : State :=
  match s.slot? st n with
  | some x =>
    if x.st = .idle ∧ !x.pinned then slotDrain st n (s.setSlot st n { x with flushFor := some r })
    else flushAnswer r false s
  | none => flushAnswer r false s

/-- ICE_FLUSH (R184). -/
def execIceFlush (g : Guild) (ring : Fin 1024) (s : State) : Out :=
  act s (flowCmd g.val ring.val 0x2A fun c s =>
    let g := g.val
    let ring := ring.val
    let ss := stationsOf (cmdStations c)
    if ss.isEmpty then complete g ring 0x2E [] s
    else
      let xs := ss.flatMap fun st =>
        (s.stn st).ice.slots.filterMap fun e => if e.2.st ≠ .filling ∧ kbGuild e.2.key = g then some (st, e.1) else none
      if xs.isEmpty then completeOk g ring [] s
      else
        let s := s.modCmd g ring fun c => { c with began := true, left := xs.length }
        xs.foldl (fun s x => flushSlot x.1 (g, ring) s x.2) s)

/-- State code of a slot (Table 08.1). -/
def SlotState.code : SlotState → Nat
  | .filling => 1
  | .idle => 2
  | .held => 3
  | .draining => 4
  | .recalling => 5

/-- ICE_READ (R184). -/
def execIceRead (g : Guild) (ring : Fin 1024) (s : State) : Out :=
  act s (onHalf g.val ring.val 0x2B fun c x _ s =>
    let st := iceStation c
    let (good, s) := match iceFind s st x.tag.index (iceHalf c) with
      | some (n, _) => slotRead st n s
      | none => (false, s)
    match if good then iceFind s st x.tag.index (iceHalf c) else none with
    | none => complete g.val ring.val 0x2C [] s
    | some (_, y) =>
      let flags := y.dirty.toNat + 2 * y.pinned.toNat + 4 * y.ref.toNat
      completeOk g.val ring.val (leBytes 1 y.st.code ++ leBytes 1 flags ++ leBytes 2 y.chain.length)
        (dmaWrite g.val (descField c.desc 64 64) (y.key ++ y.half) s))

/-- The fill of an entry waits for a recall. -/
def entryRecalls (s : State) (st : Nat) (x : LeaseEntry) : Bool :=
  s.ftm.ops.any fun o => match o.purpose with | .fill t sig d _ => t == st && sig == x.sig && d == x.d | _ => false

/-- ICE_RECALL_TIMEOUT (R184): the load ends, and the half goes to no station unless a packet waits for it. -/
def execIceRecallTimeout (g : Guild) (ring : Fin 1024) (s : State) : Out :=
  act s fun s =>
    match waitingCmd s g.val ring.val 0x28 with
    | none => s
    | some c =>
      let st := iceStation c
      match (s.stn st).ice.entries.find? fun e => e.2.pinFor == some (g.val, ring.val) with
      | none => s
      | some (e, x) =>
        if !entryRecalls s st x then s
        else
          let s := complete g.val ring.val 0x2D [] s
          if x.tasks.isEmpty then
            let s := entrySlotFree st x (entryRemove st e s)
            s.modFtm fun f => { f with ops := f.ops.filter fun o =>
              match o.purpose with | .fill t sig d _ => !(t == st && sig == x.sig && d == x.d) | _ => true }
          else s.setEntry st e { x with pinFor := none }

end Sys2Proof.Machine
end

