-- ==== Sys2Proof/Machine/Tokens.lean ====
section
/-! DEFINITION. Tokens (ch. 12): the parser lanes and their stalls, task slots, the start and the parse of a pass, Thaw
forwarding (R420), the residency limit. -/
namespace Sys2Proof.Machine

/-! ### Task slots and lanes (R241, R242, R251) -/

def freeTasks (s : State) (st : Nat) : Nat := 2048 - (s.stn st).tasks.slots.length

def xslots (s : State) (st : Nat) : Nat := min 512 (s.cfg (Reg.TSK_CFG st) Fld.TSK_CFG_XSLOTS)

/-- A pass of a lane may take a slot: lane 1 any FREE slot, lane 2 only beyond XSLOTS of them. -/
def laneRoom (s : State) (st lane : Nat) : Bool :=
  if lane = 1 then freeTasks s st != 0 else decide (xslots s st < freeTasks s st)

/-- The lane stands still: its next pass found no slot, or a pass that it supplied stands refused. -/
def laneBlocked (s : State) (st lane : Nat) : Bool :=
  let t := (s.stn st).tasks
  t.stalled.contains lane
    || t.slots.any fun e => e.2.lane == lane && (e.2.ice == .refused || e.2.ruleWait == .refused)

/-- The lane stalls on its next pass, which is counted once. -/
def laneStall (st lane : Nat) (s : State) : State :=
  let s := if freeTasks s st = 0 then s.raise (Reg.TSK_EVENT st) Fld.TSK_EVENT_SLOTS_FULL else s
  let first := !(s.stn st).tasks.stallCounted.contains lane
  let s := s.modTasks st fun t => { t with stalled := sinsert lane t.stalled, stallCounted := sinsert lane t.stallCounted }
  if first then (s.tick (Reg.TSK_CNT_LO st (if lane = 1 then 7 else 6))).tick (Reg.TSK_CNT_LO st 8) else s

/-- The lowest FREE slot (DESIGN CHOICE, log 48). -/
def lowestSlot (s : State) (st : Nat) : Nat := freeFrom ((s.stn st).tasks.slots.map Prod.fst) 0 2048 0

/-! ### A pass (R104, R113, Table 12.2) -/

/-- The node at which a pass starts. -/
def startNode (s : State) (st : Nat) (t : Task) : Nat :=
  if t.pass ≠ 0 then s.get (Reg.PRS_CFG st) Fld.PRS_CFG_RECIRC_START
  else if t.frame.inj then s.get (Reg.PRS_CFG st) Fld.PRS_CFG_INJ_START
  else s.get (Reg.PRS_PORT st (localOf t.frame.inPort)) Fld.PRS_PORT_START

/-- A task as a new pass finds it: no results of an earlier one. -/
def Task.fresh (t : Task) : Task :=
  { t with cnt := 0, hv := [], parseEnd := 0, key := none, sig := 0, d := 0, ruleKey := 0, l3 := [], l3dst := none
           eptWait := false, routeWait := false, ice := .none, ruleWait := .none, ept := {}, route := {}, rule := none
           searched := false, newFlow := false, conflictKey := [], noRoom := none, index := 0, refusedOnce := false
           waitRefused := false, restarted := false, dec := {} }

/-- The parse ends: the pass issues its lookups, and waits for them or is READY. -/
def passGo (st k : Nat) (p : Parsed) (t : Task) (s : State) : State :=
  let f := t.frame
  let (e, s) := fidEntry st f s
  let f := { f with fid := e.map Fld.EPT_FID_MAP_FID.of, sig := p.sig
                    learn := match e with | some w => Fld.EPT_FID_MAP_LEARN_EN.of w == 1 | none => false }
  let port := if f.inj then none else some (localOf f.inPort)
  let route := p.ends.isSome && match port with
    | some i => s.cfgB (Reg.LPM_PORT st i) Fld.LPM_PORT_EN
    | none => false
  let policy := !t.wantSearch && p.key.isNone && f.cls != 7 && match port with
    | some i => s.cfgB (Reg.RUL_PORT st i) Fld.RUL_PORT_POLICY_EN
    | none => false
  let search := policy || t.wantSearch
  let cnt := f.fid.isSome.toNat + route.toNat + p.key.isSome.toNat + search.toNat
  let t := { t with
    frame := f, cnt := cnt, st := .waiting, hv := p.hv, parseEnd := p.parseEnd, key := p.key, sig := p.sig, d := p.d
    ruleKey := parseKey s st f p, l3 := p.l3.toList, l3dst := p.ends.map fun x => (x.v6, x.rawDst)
    eptWait := f.fid.isSome, routeWait := route
    ice := if p.key.isSome then .search else .none
    ruleWait := if t.wantSearch && p.key.isSome then .withheld else .none
    ept := { noFid := e.isNone, floodGrp := match e with | some w => Fld.EPT_FID_MAP_FLOOD_GRP.of w | none => 0 } }
  let s := s.setTask st k t
  if cnt = 0 then readyPush st k false s
  else if search && p.key.isNone then searchIssue st k (t.ownSearch k) s
  else s

/-- PARSE_PASS and PUNT_REASON_RAISE: every reason raised is counted; the last decides. -/
def passParse (st k : Nat) (t : Task) (s : State) : State :=
  let (p, s) := parsePass st t.plane (startNode s st t) t.frame s
  let s := p.reasons.foldl (fun s r => s.tick (Reg.PRS_REASON_CNT_LO st r)) s
  match p.reasons.getLast? with
  | none => passGo st k p t s
  | some r =>
    let s := s.setTask st k { t with hv := p.hv, parseEnd := p.parseEnd, l3 := p.l3.toList, frame := { t.frame with sig := p.sig } }
    match reasonAction s st r with
    | 2 => passGo st k p t s
    | 1 => taskDrop st k s
    | _ => taskDone st k { action := 3, reason := r, tc := s.get (Reg.PRS_REASON st r) Fld.PRS_REASON_TC } s

/-! ### Thaw service (R420) -/

/-- The UP ports of a thaw group but one. -/
def thawFlood (s : State) (grp : Option Nat) (ingress : Nat) : Nat :=
  (List.range 144).foldl (fun a p =>
    if p ≠ ingress ∧ grp.isSome ∧ s.linkState p = 4 ∧ thawGroup s p = grp then a + 2 ^ p else a) 0

/-- THAW_FORWARD: bridged by thaw group, or flooded. -/
def thawPass (st k : Nat) (t : Task) (s : State) : State :=
  let f := t.frame
  if f.toHost then taskDrop st k s
  else
    let grp := thawGroup s f.inPort
    let key (off : Nat) : EptKey := { guild := 0, fid := grp.getD 0, mac := be f.bytes off 6 }
    let (r, s) := destLookup st (key 0) f.bytes {} s
    let s := sourceLookup st (key 6) f true s
    let s := s.setTask st k { t with frame := { f with fid := some (grp.getD 0), learn := true, thaw := true }, ept := r }
    if r.daHit && decide (r.dest < 144) && s.linkState r.dest == 4 && thawGroup s r.dest == grp then
      taskDone st k { action := 1, dest := r.dest, tc := f.cls } s
    else taskDone st k { action := 2, tc := f.cls, flood := some (thawFlood s grp f.inPort) } s

/-! ### TOKEN_TAKE -/

/-- A pass takes its token. -/
def passToken (st k : Nat) (t : Task) (s : State) : State :=
  let g := t.frame.guild
  let s := energy st 0 0 (evCount st 1 1 (some g) s)
  let s := if t.express then evCount st 10 1 (some g) s else s
  let s := if t.pass = 0 then s else evCount st 9 1 (some g) (s.tick (Reg.RUL_CNT_LO st 6))
  if t.frame.toHost && s.full st then
    taskDone st k { action := 3, reason := 1, tc := t.frame.cls } (s.tick (Reg.PRS_REASON_CNT_LO st 1))
  else if s.full st then passParse st k t s
  else thawPass st k t s

/-- A first pass takes a task slot, its epoch tag and its place in its ordered-release queue (R192, R252). `counted`: it
has been counted in REFUSAL_STALLS, because it found no slot at first (R251). -/
def firstToken (st : Nat) (f : Frame) (counted : Bool) (s : State) : State :=
  let k := lowestSlot s st
  let q := if f.inj then 96 else 8 * localOf f.inPort + f.cls
  let f := { f with thaw := !s.full st }
  let tag := activeBank s st f.guild
  let t : Task :=
    { st := .parsing, frame := f, born := s.now, tag := tag, tagGuild := f.guild, plane := activePlane s st
      refusedOnce := counted }
  let s := ((odClear 4 st k s).setTask st k t).modTasks st fun x => { x with orqs := aset q (aget [] q x.orqs ++ [k]) x.orqs }
  let s := odWrite 4 st (orqWord q) s
  let s := drainAdd st f.guild tag 1 (s.tick (Reg.TSK_CNT_LO st 0))
  let s := if freeTasks s st = 0 then s.raise (Reg.TSK_EVENT st) Fld.TSK_EVENT_SLOTS_FULL else s
  passToken st k t s

/-- A recirculated pass takes its token once its routine's hold has ended; one past the residency limit is dropped in
place of it (R249). -/
def recircToken (st k : Nat) (t : Task) (s : State) : State :=
  let t := { t.fresh with plane := activePlane s st }
  if t.aged then taskDrop st k (resDropCount st (s.setTask st k t)) else passToken st k t (s.setTask st k t)

def Task.holds (t : Task) : Bool := match t.ice with | .holding _ => true | _ => false

/-- The first recirculated pass whose hold has ended. -/
def recircNext (s : State) (st : Nat) : Option (Nat × Task) :=
  (s.stn st).tasks.laneR.findSome? fun k =>
    match s.task? st k with
    | some t => if t.holds then none else some (k, t)
    | none => none

/-- The order in which the lanes are served: recirculated, express, other. In a station that has switched to full service
the frames that waited go in the order they became whole, those that have arrived since behind the ones that waited in
their own lane alone (R423, step 5). -/
def laneOrder (s : State) (st : Nat) : List Nat :=
  match s.full st, (s.stn st).tasks.whole with
  | true, 2 :: r => if r.contains 1 then [0, 2, 1] else [0, 1, 2]
  | _, _ => [0, 1, 2]

/-- The lanes in their order. -/
def tokenLane (st : Nat) : List Nat → State → State
  | [], s => s
  | lane :: r, s =>
    if laneBlocked s st lane then tokenLane st r s
    else if lane = 0 then
      match recircNext s st with
      | some (k, t) => recircToken st k t (s.modTasks st fun x => { x with laneR := x.laneR.filter (· != k) })
      | none => tokenLane st r s
    else
      let ts := (s.stn st).tasks
      match (if lane = 1 then ts.laneX else ts.laneN) with
      | [] => tokenLane st r s
      | f :: rest =>
        if laneRoom s st lane then
          firstToken st f (ts.stallCounted.contains lane) (s.modTasks st fun x =>
            { x with laneX := if lane = 1 then rest else x.laneX, laneN := if lane = 1 then x.laneN else rest
                     whole := x.whole.erase lane, stallCounted := x.stallCounted.filter (· != lane) })
        else tokenLane st r (laneStall st lane s)

/-- A station's passes take tokens: it has reached Thaw service (R418), and it is not paused to switch to full service
(R423). -/
def intakeRuns (s : State) (st : Nat) : Bool := (s.boot.thaw || s.full st) && s.boot.full.head? != some st

/-- TOKEN_TAKE (R241). -/
def execTokenTake (st : Station) (s : State) : Out :=
  act s fun s => if intakeRuns s st.val then tokenLane st.val (laneOrder s st.val) s else s

/-- LANE_RESUME (R251): a refused search takes its entry, a stalled lane its slot. -/
def execLaneResume (st : Station) (lane : Fin 3) (s : State) : Out :=
  act s fun s =>
    let st := st.val
    let l := lane.val
    let s := match (s.stn st).tasks.slots.find? fun e => e.2.lane == l && e.2.ruleWait == .refused with
      | some (k, t) => if policyCount s st < 64 then searchIssue st k (t.ownSearch k) s else s
      | none => s
    if l = 0 ∨ laneRoom s st l then s.modTasks st fun t => { t with stalled := t.stalled.filter (· != l) } else s

/-- RESIDENCY_EXPIRY (R249): the task's age has reached RES_LIMIT. A task in RUNNING, or one that waits for its next
token, is marked: it is dropped in place of a new pass. -/
def execResidencyExpiry (st : Station) (slot : Fin 2048) (s : State) : Out :=
  act s fun s =>
    let st := st.val
    let k := slot.val
    match s.task? st k with
    | none => s
    | some t =>
      match t.st with
      | .waiting | .ready => resDropCount st (taskKill st k s)
      | .parsing | .running => s.setTask st k { t with aged := true }
      | .done => s

end Sys2Proof.Machine
end

