-- ==== Sys2Proof/Machine/Engines.lean ====
section
/-! DEFINITION. The action engines (ch. 10, 12): which task an engine takes, what it finds at entry, one word with its
commit, restart, requeue and end, the trap queue. -/
namespace Sys2Proof.Machine

/-! ### Which task an engine takes (R244, R245, R247) -/

def engineCount : Nat := 24

/-- An engine that runs nothing. -/
def engineFree (s : State) (st e : Nat) : Bool := (aget? e (s.stn st).tasks.engines).isNone

/-- Dispatch is stopped while the station switches its store (R228). -/
def dispatchStopped (s : State) (st : Nat) : Bool :=
  s.boot.full.head? == some st ||
    (match s.ucs.load with
     | some l => l.checked && decide (l.target < 2) && l.station == st
     | none => false)

def groupHead (s : State) (st g : Nat) : Option Nat := (aget [] g (s.stn st).tasks.ready).head?

/-- TSK_WEIGHT, where 0 is treated as 1. -/
def groupWeight (s : State) (st g : Nat) : Nat := max 1 (s.cfg (Reg.TSK_WEIGHT st g) Fld.TSK_WEIGHT_WEIGHT)

/-- The deficit round robin: the group it serves next, with its position and deficits. Five visits reach every
group. -/
def drrNext (s : State) (st : Nat) : Nat → Nat → List (Nat × Nat) → Option (Nat × List (Nat × Nat))
  | 0, _, _ => none
  | n + 1, g, d =>
    if (groupHead s st g).isSome ∧ aget 0 g d ≠ 0 then some (g, d)
    else
      let g' := (g + 1) % 4
      drrNext s st n g' (if (groupHead s st g').isSome then aset g' (aget 0 g' d + groupWeight s st g') d else d)

/-- The order in which the round robin next visits the groups. -/
def drrOrder (s : State) (st : Nat) : List Nat :=
  let ts := (s.stn st).tasks
  let g := if aget 0 ts.rrGroup ts.deficit = 0 then ts.rrGroup + 1 else ts.rrGroup
  (List.range 4).map fun k => (g + k) % 4

/-- The first group head whose opcode is marked in TSK_SHORT. -/
def shortHead (s : State) (st : Nat) : Option Nat :=
  (drrOrder s st).findSome? fun g =>
    match groupHead s st g with
    | some k =>
      match s.task? st k with
      | some t => if shortOp s st (taskOpcode s st t) then some k else none
      | none => none
    | none => none

/-- How a task came to its engine. -/
inductive DispatchBy where
  | express | handOff | robin (g : Nat) (deficit : List (Nat × Nat)) | short
  deriving DecidableEq, Repr

/-- An engine may run a task (R245): it is not reserved, or the task is express or its opcode is marked. -/
def mayRunOn (s : State) (st e k : Nat) : Bool :=
  !reservedEngine s st e || (match s.task? st k with
    | some t => t.express || shortOp s st (taskOpcode s st t)
    | none => false)

/-- The task that a free engine takes now, if it is the engine that this task goes to. -/
def engineTask (s : State) (st e : Nat) : Option (Nat × DispatchBy) :=
  let ts := (s.stn st).tasks
  let free := (List.range engineCount).filter fun x => engineFree s st x
  let spare := free.filter fun x => (aget? x ts.handTo).isNone
  let lowest (l : List Nat) (reserved : Bool) : Option Nat := l.find? fun x => reservedEngine s st x == reserved
  if !engineFree s st e then none
  else match groupHead s st 4 with
    | some k => if (lowest free true <|> lowest free false) = some e then some (k, .express) else none
    | none =>
      match aget? e ts.handTo with
      | some k => if mayRunOn s st e k then some (k, .handOff) else none
      | none =>
        if lowest spare false = some e then
          (drrNext s st 6 ts.rrGroup ts.deficit).bind fun x => (groupHead s st x.1).map fun k => (k, .robin x.1 x.2)
        else if lowest spare false = none ∧ lowest spare true = some e then (shortHead s st).map fun k => (k, .short)
        else none

/-! ### Entry (R200, R201, R208, R212, R213) -/

/-- A bit of a register word. -/
def bitAt (b : Bool) (k : Nat) : Nat := if b then 2 ^ k else 0

/-- The slot that a task holds. -/
def heldSlot (s : State) (st : Nat) (t : Task) : Option Slot :=
  match t.ice with
  | .holding n => s.slot? st n
  | _ => none

/-- v24 to v30 at entry (Table 10.3, R212). -/
def contextRegs (t : Task) (x : Option Slot) (restarted : Bool) : List (BitVec 64) :=
  let f := t.frame
  let kb := match x with | some y => y.key | none => []
  let ruleBit := t.rule.isSome || t.searched || kbRuleValid kb
  let rule := match t.rule with | some r => r | none => if x.isSome then kbRule kb else 0
  let v24 := keyField 38 26 (if x.isSome then t.index else 0) + bitAt (be f.bytes 0 1 % 2 == 1) 37 + bitAt restarted 36
    + bitAt ruleBit 35 + bitAt t.key.isSome 34 + bitAt t.newFlow 33 + bitAt x.isSome 32
    + bitAt (match x with | some y => y.which == .b | none => false) 31 + keyField 30 1 t.d + keyField 28 2 t.pass
    + keyField 25 3 f.guild + keyField 22 3 f.cls + keyField 14 8 f.inPort + keyField 0 14 f.len
  let v25 := keyField 30 12 (f.fid.getD 0) + keyField 16 14 t.ept.floodGrp + keyField 8 8 (if t.ept.daHit then t.ept.dest else 0)
    + bitAt t.ept.noFid 2 + bitAt t.ept.static 1 + bitAt t.ept.daHit 0
  let v26 := keyField 33 4 t.route.rounds + bitAt t.route.hit 32 + keyField 0 32 t.route.word
  let v28 := if t.key.isSome then t.sig else 0
  [v24, v25, v26, rule, v28, t.metaWord, keyField 3 3 f.cls].map (BitVec.ofNat 64)

/-- Table 10.6's conditions of a pass. -/
def passBits (regs : List (BitVec 64)) : PassBits :=
  let c := (vGet regs 24).toNat
  { leased := bit c 32, newFlow := bit c 33, daHit := bit (vGet regs 25).toNat 0, routeHit := bit (vGet regs 26).toNat 32
    rule := bit c 35, firstPass := bits c 29 28 == 0, express := bits c 24 22 == 7, flowKey := bit c 34
    restarted := bit c 36, mcastDa := bit c 37 }

/-- MAX_WORDS as treated (Table 10.13). -/
def aeMaxWords (s : State) (st : Nat) : Nat := clampNat 16 1023 (s.get (Reg.STN_AE_CFG st) Fld.STN_AE_CFG_MAX_WORDS)

def aeMaxRestart (s : State) (st : Nat) : Nat := s.get (Reg.STN_AE_CFG st) Fld.STN_AE_CFG_MAX_RESTART

/-- What an engine holds at a routine's entry: registers afresh, the lease window, the header window. -/
def aeEntry (s : State) (st k : Nat) (t : Task) (pc run total : Nat) : Run :=
  let x := heldSlot s st t
  let again := t.restarted || run != 0
  let bs := t.frame.bytes.take 256
  { task := k, pc := pc, run := run, total := total, restarted := again
    regs := List.replicate 24 0#64 ++ contextRegs t x again ++ [0#64]
    half := match x with | some y => y.half | none => zeros 64
    keyw := match x with | some y => y.key | none => if t.conflictKey.isEmpty then zeros 64 else t.conflictKey
    frame := bs, window := bs.length, base := bs.length, l3 := t.l3
    maxWords := some (aeMaxWords s st), maxRestart := aeMaxRestart s st }

/-! ### Faults (R219) -/

def aeCnt (st k n : Nat) (s : State) : State := s.cnt (Reg.STN_AE_CNT_LO st k) n

/-- A fault is counted and latched. -/
def aeFault (st e code addr : Nat) (s : State) : State :=
  let s := (aeCnt st 4 1 s).raise (Reg.STN_AE_EVENT st) Fld.STN_AE_EVENT_FAULT
  let a := Reg.STN_AE_FAULT st
  if s.getB a Fld.STN_AE_FAULT_VALID then s
  else ((s.raise a Fld.STN_AE_FAULT_VALID).put a Fld.STN_AE_FAULT_ENGINE e).put a Fld.STN_AE_FAULT_CODE code
    |>.put a Fld.STN_AE_FAULT_ADDR addr

/-- Word of an engine's context buffer in MEM 12; word of a dispatch entry in MEM 11 (DESIGN CHOICE, log 43). -/
def contextWord (e : Nat) : Nat := 64 * e

def dispatchWord (op : Nat) : Nat := 16384 + op

/-! ### The end of a routine -/

/-- XWORDS as it stands at a dispatch on a reserved engine (R245); none on an unreserved one. -/
def xwordsAt (s : State) (st e : Nat) : Option Nat :=
  if reservedEngine s st e then some (clampNat 8 48 (s.cfg (Reg.TSK_XCFG st) Fld.TSK_XCFG_XWORDS)) else none

/-- The routine has executed more words than the limit it was dispatched under. -/
def Run.overXwords (r : Run) : Bool := match r.xwords with | some n => decide (n < r.total) | none => false

/-- A word has taken a routine from r to r1: one that was dispatched on a reserved engine is counted at the first word
past XWORDS, however it then ends (R245; DEDUCED, log 65). -/
def xwordsOver (st : Nat) (r r1 : Run) (s : State) : State :=
  if r1.overXwords && !r.overXwords then
    (s.tick (Reg.TSK_CNT_LO st 10)).raise (Reg.TSK_EVENT st) Fld.TSK_EVENT_XWORDS_OVER
  else s

/-- The engine is free. -/
def engineEnd (st e : Nat) (r : Run) (s : State) : State :=
  let s := s.modTasks st fun ts => { ts with engines := adel e ts.engines, stop := ts.stop.filter (· != e) }
  s.modTask st r.task fun t => { t with ranOn := some e }

/-- The task is DONE; a slot that it holds stays held until HOLD_END. -/
def routineDone (st k : Nat) (d : Decision) (s : State) : State :=
  s.modTask st k fun t => { t with st := .done, dec := d, cnt := 0 }

/-- A routine that asks for another pass (R195, R249, R283): the frame goes back to its lane, or is dropped. -/
def routineRecirc (st k : Nat) (search : Bool) (s : State) : State :=
  match s.task? st k with
  | none => s
  | some t =>
    if clampNat 1 4 (s.cfg (Reg.RUL_CFG st) Fld.RUL_CFG_MAX_PASS) ≤ t.pass + 1 then
      routineDone st k {} ((s.tick (Reg.RUL_CNT_LO st 7)).raise (Reg.RUL_EVENT st) Fld.RUL_EVENT_RECIRC_LIMIT)
    else if t.aged then routineDone st k {} (resDropCount st s)
    else if (s.stn st).draining then routineDone st k {} s
    else
      let s := s.setTask st k { t with st := .parsing, pass := t.pass + 1, wantSearch := search, cnt := 0 }
      s.modTasks st fun ts => { ts with laneR := ts.laneR ++ [k] }

/-- The decision of v30 at the end of a routine whose last word lay at `pc` (Table 10.10). A PUNT raises its reason,
which is counted (R112, R113); that of a copy for the host in a UNICAST or multicast decision is not counted as raised
(DESIGN CHOICE, log 142). -/
def routineDecide (st k pc v30 : Nat) (s : State) : State :=
  let reason := bits v30 35 30
  let d : Decision := { dest := bits v30 15 8, tc := bits v30 5 3, mgrp := bits v30 29 16, reason := reason }
  let bad := decide (4 < bits v30 2 0)
    || (bits v30 2 0 == 3 && decide (reason < if 8192 ≤ pc then 32 else 24))
  if bad then routineDone st k {} (aeCnt st 13 1 s)
  else match bits v30 2 0 with
    | 0 => routineDone st k {} (aeCnt st 6 1 s)
    | 1 => routineDone st k { d with action := 1 } s
    | 2 => routineDone st k { d with action := 2 } s
    | 3 => routineDone st k { d with action := 3 } (s.tick (Reg.PRS_REASON_CNT_LO st reason))
    | _ => routineRecirc st k (bit v30 6) s

/-- A faulted routine's frame is dropped (R215). -/
def faultDrop (st k : Nat) (s : State) : State :=
  routineDone st k {} ((aeCnt st 5 1 s).raise (Reg.STN_AE_EVENT st) Fld.STN_AE_EVENT_FAULT_DROP)

/-! ### TASK_DISPATCH -/

/-- The dispatch entry of an opcode in a station's store: its address, none where it is invalid, an ECC error. -/
inductive EntryRead where
  | at (addr : Nat) | invalid | bad
  deriving DecidableEq, Repr

def entryAt (st op : Nat) (s : State) : EntryRead × State :=
  match odRead 11 st (dispatchWord op) s with
  | (.bad, s) => (.bad, s)
  | (_, s) => (match (s.stn st).store.entry op with | some a => .at a | none => .invalid, s)

/-- A dispatch entry in error: each run faults at entry. -/
def entryFaults (st e : Nat) : Nat → State → State
  | 0, s => s
  | n + 1, s =>
    let (a, s) := s.drawNat
    entryFaults st e n (aeFault st e FaultCode.ecc.num (a % 16384) s)

/-- A pass whose dispatch entry is invalid is dropped without running (R213). -/
def badOpcode (st k : Nat) (s : State) : State := routineDone st k {} (aeCnt st 7 1 s)

/-- A routine starts on an engine, or its pass is dropped. -/
def routineStart (st e k : Nat) (t : Task) (s : State) : State :=
  match entryAt st (taskOpcode s st t) s with
  | (.invalid, s) => badOpcode st k s
  | (.bad, s) =>
    let n := aeMaxRestart s st
    faultDrop st k (aeCnt st 2 n (entryFaults st e (n + 1) s))
  | (.at a, s) =>
    let r := { aeEntry s st k t a 0 0 with xwords := xwordsAt s st e }
    let s := aeCnt st 0 1 (s.setTask st k { t with st := .running })
    odWrite 12 st (contextWord e) (s.modTasks st fun ts => { ts with engines := aset e r ts.engines })

/-- A dispatch that is no hand-off ends a run of them; one that still waits for the engine begins the next (R247). -/
def handoffsReset (st e : Nat) (s : State) : State :=
  s.modTasks st fun ts =>
    { ts with handoffs := if (aget? e ts.handTo).isSome then aset e 1 ts.handoffs else adel e ts.handoffs }

/-- A hand-off to an engine that has since become a reserved one, which may not run the task: it joins its list (R245). -/
def handBack (st e : Nat) (s : State) : State :=
  match aget? e (s.stn st).tasks.handTo with
  | some k =>
    if mayRunOn s st e k then s
    else readyPush st k false (s.modTasks st fun ts => { ts with handTo := adel e ts.handTo })
  | none => s

/-- The scheduler's side of a dispatch: lists, deficits, hand-off runs, counters. -/
def dispatchTake (st e k : Nat) (how : DispatchBy) (s : State) : State :=
  let s := s.modTasks st fun ts =>
    match how with
    | .robin g d =>
      let charged := match aget? k ts.slots with | some t => !t.restarted | none => true
      { ts with rrGroup := g, deficit := if charged then aset g (aget 0 g d - 1) d else d }
    | _ => ts
  let s := readyDrop st k s
  let s := if how = .handOff then s else handoffsReset st e s
  let s := energy st 0 2 (s.tick (Reg.TSK_CNT_LO st 1))
  let s := if how = .express then s.tick (Reg.TSK_CNT_LO st 2) else s
  if reservedEngine s st e then s.tick (Reg.TSK_CNT_LO st 3) else s

/-- TASK_DISPATCH (R213, R244). -/
def execTaskDispatch (st : Station) (engine : Fin 24) (s : State) : Out :=
  act s fun s =>
    let st := st.val
    let e := engine.val
    if dispatchStopped s st then s
    else
      let s := handBack st e s
      match engineTask s st e with
      | none => s
      | some (k, how) =>
        match schedRead st k s with
        | (false, s) => s
        | (true, s) =>
          let s := match s.task? st k with
            | some t => match t.ice with | .holding n => (slotRead st n s).2 | _ => s
            | none => s
          match s.task? st k with
          | some t =>
            if t.st = .ready then
              let s := dispatchTake st e k how s
              routineStart st e k { t with ranOn := none } (s.setTask st k { t with ranOn := none })
            else s
          | none => s

/-! ### Staged effects (R209, R215, R218, R256) -/

/-- A telemetry record joins its station's queue (R386), or is lost. -/
def tstoreQueue (st g : Nat) (rec : List Byte) (s : State) : State :=
  let q := aget [] st s.tally.queue
  if 256 ≤ q.length then s.tick (Reg.TLY_TSTORE_LOST_LO g)
  else { s with tally := { s.tally with queue := aset st (q ++ [(g, rec)]) s.tally.queue } }

/-- A trap record joins the station's queue, or is lost (R218). -/
def trapQueue (st e addr code : Nat) (s : State) : State :=
  let s := aeCnt st 10 1 s
  if 16 ≤ (s.stn st).tasks.trapQ.length then
    (aeCnt st 11 1 s).raise (Reg.STN_AE_EVENT st) Fld.STN_AE_EVENT_TRAP_LOST
  else
    (s.modTasks st fun ts => { ts with trapQ := ts.trapQ ++ [⟨e, addr, code⟩] }).raise (Reg.STN_AE_EVENT st)
      Fld.STN_AE_EVENT_TRAP

/-- A frame's cells follow its length: it takes cells of the growth reserve, or gives its last cells back. The last
cells are those of the growth reserve, then those charged to SHARED (DEDUCED, log 60). -/
def fitCells (st : Nat) (f : Frame) (s : State) : Frame × State :=
  let n := cellsOf f.len
  let have_ := f.cells.length
  if have_ < n ∧ n - have_ ≤ cellsFree s st then
    let k := n - have_
    let (cs, s) := takeCells st k s
    let s := s.modCore st fun c => { c with growthUsed := c.growthUsed + k }
    ({ f with cells := f.cells ++ cs, growth := f.growth + k }, s)
  else if n < have_ then
    let k := have_ - n
    let gr := min k f.growth
    let sh := min (k - gr) f.chShared
    let hd := min (k - gr - sh) f.chHead
    let xp := min (k - gr - sh - hd) f.chExp
    let gone : Frame := { f with cells := f.cells.drop n, growth := gr, chShared := sh, chHead := hd, chExp := xp
                                 chInj := min (k - gr - sh - hd - xp) f.chInj }
    ({ f with cells := f.cells.take n, growth := f.growth - gr, chShared := f.chShared - sh, chHead := f.chHead - hd
              chExp := f.chExp - xp, chInj := f.chInj - gone.chInj }, freeFrame st gone s)
  else (f, s)

/-- The header window as edited replaces its part of the frame, in the cells that hold it. -/
def applyHeader (st : Nat) (r : Run) (s : State) : State :=
  match s.task? st r.task with
  | none => s
  | some t =>
    let (f, s) := fitCells st { t.frame with bytes := r.frame ++ t.frame.bytes.drop r.base } s
    let s := (f.cells.take (cellsOf r.frame.length)).foldl (fun s c => odPart 1 st (32 * c) s) s
    s.setTask st r.task { t with frame := f }

/-- Staged stores reach the slot: DIRTY. -/
def applyHalf (st : Nat) (r : Run) (s : State) : State :=
  match s.task? st r.task with
  | some { ice := .holding n, .. } =>
    match s.slot? st n with
    | some x => odWrite 5 st (slotWord n) (s.setSlot st n { x with half := r.half, dirty := true })
    | none => s
  | _ => s

/-- Staged adds join the posted-add queue of the station. -/
def applyAdds (st : Nat) (r : Run) (s : State) : State :=
  match s.task? st r.task with
  | none => s
  | some t =>
    let key := 2 * t.index + (match heldSlot s st t with | some y => if y.which = .a then 0 else 1 | none => 0)
    let s := s.modTasks st fun ts => { ts with addQ := ts.addQ ++ r.adds.map fun a => (key, extAddr t.index a.1, a.2) }
    aeCnt st 8 r.adds.length (s.modIce st fun i => { i with addsPending := aadd key r.adds.length i.addsPending })

/-- Everything staged takes effect; the run as it goes on. -/
def applyStaged (st e : Nat) (r : Run) (edited : Bool) (s : State) : Run × State :=
  let s := if r.stored then applyHalf st r s else s
  let s := if r.adds.isEmpty then s else applyAdds st r s
  let s := match s.task? st r.task with
    | some t => r.emits.foldl (fun s b => aeCnt st 9 1 (tstoreQueue st t.frame.guild b s)) s
    | none => s
  let s := r.traps.foldl (fun s t => trapQueue st e t.1 t.2 s) s
  let s := if edited then applyHeader st r s else s
  ({ r with committed := true, stored := false, adds := [], emits := [], traps := [], base := r.window }, s)

/-! ### One word (R215) -/

/-- What the load of an image puts into a word that the image does not supply: SEQOP 15 (R223). -/
def fillWord : BitVec 160 := BitVec.ofNat 160 (15 * 2 ^ 156)

/-- A word of a store: in a region that nothing has loaded since reset it reads 0 (Table 11.15, Table 24.1; log 129). -/
def Store.word (m : Store) (a : Nat) : BitVec 160 :=
  (m.words.find? fun e => e.1 == a).elim (if (if a < 8192 then m.vendor else m.customer) then fillWord else 0) Prod.snd

/-- What the check of an action engine's word needs. -/
def aeEnv (s : State) (st : Nat) (r : Run) : WordEnv :=
  { disp := (s.stn st).store.bound, custBase := 8192, size := 16384, service := false
    lease := match s.task? st r.task with | some t => t.holds | none => false, pass := passBits r.regs }

def setRun (st e : Nat) (r : Run) (s : State) : State :=
  s.modTasks st fun ts => { ts with engines := aset e r ts.engines }

/-- A word faults: restart from the dispatch entry, or the frame is dropped. The restart may find the entry invalid
(R213), or in error, which every run that is left then meets (log 62). -/
def aeWordFault (st e : Nat) (r : Run) (code : FaultCode) (s : State) : State :=
  let s := aeFault st e code.num r.pc s
  match s.task? st r.task with
  | none => s
  | some t =>
    if !r.committed && decide (r.run < r.maxRestart) then
      match entryAt st (taskOpcode s st t) s with
      | (.at a, s) =>
        let s := odWrite 12 st (contextWord e) (aeCnt st 2 1 s)
        let again := aeEntry s st r.task t a (r.run + 1) r.total
        setRun st e { again with xwords := r.xwords, maxWords := r.maxWords, maxRestart := r.maxRestart } s
      | (.invalid, s) => badOpcode st r.task (engineEnd st e r (aeCnt st 2 1 s))
      | (.bad, s) =>
        let n := r.maxRestart - r.run
        faultDrop st r.task (engineEnd st e r (aeCnt st 2 n (entryFaults st e n s)))
    else faultDrop st r.task (engineEnd st e r s)

/-- A stop request acts at a YIELD word: the task goes back to the head of its list (R217, R248). -/
def stopRequeue (st e : Nat) (r : Run) (s : State) : State :=
  let s := s.modTasks st fun ts => { ts with engines := adel e ts.engines, stop := ts.stop.filter (· != e) }
  let s := (aeCnt st 3 1 s).tick (Reg.TSK_CNT_LO st 11)
  let s := readyPush st r.task true (s.modTask st r.task fun t => { t with restarted := true })
  match s.task? st r.task with
  | some t => if t.aged then resDropCount st (taskKill st r.task s) else s
  | none => s

/-- A word that raises no fault. -/
def aeWordRun (st e : Nat) (w : BitVec 160) (r : Run) (env : WordEnv) (t : Task) (s : State) : State :=
  let ends := wordEnds w r env
  let next := wordNext w r env
  let r1 := wordUnits w t.hv r
  let commits := !r.committed && (mwCommit w || ends)
  if commits && decide (48 < (s.stn st).tasks.addQ.length + r1.adds.length) then setRun st e { r with waiting := true } s
  else
    let s := xwordsOver st r r1 (energy st 0 1 (evCount st 4 1 (some t.frame.guild) (aeCnt st 1 1 s)))
    let s := if mwSeqop w = 3 ∧ condHolds (mwCond w) r env.pass then aeCnt st 12 1 s else s
    let edited := if r.committed then isHpStore w || isHpIns w || isHpDel w else r1.nEdits != 0
    let (r2, s) := if commits || r.committed then applyStaged st e r1 edited s else (r1, s)
    match next with
    | none =>
      let v := fun k => (vGet r2.regs k).toNat
      let s := s.modTask st r.task fun t => { t with metaWord := v 29, l3 := r2.l3, restarted := false }
      routineDecide st r.task r.pc (v 30) (engineEnd st e r2 s)
    | some a =>
      if mwYield w && (s.stn st).tasks.stop.contains e && !r2.committed then stopRequeue st e r2 s
      else setRun st e { r2 with pc := a, waiting := false } s

/-- The dispatch entry that a CHAIN goes to is read (R204): false where it holds an uncorrectable error (Table 22.4,
MEM 11 and 17). -/
def chainRead (mem st : Nat) (w : BitVec 160) (r : Run) (env : WordEnv) (s : State) : Bool × State :=
  if mwSeqop w = 3 ∧ condHolds (mwCond w) r env.pass then
    match odRead mem st (dispatchWord (mwImm w % 256)) s with
    | (.bad, s) => (false, s)
    | (_, s) => (true, s)
  else (true, s)

/-- A CHAIN acts on no part of an erroneous entry: the check of its word takes it as bound (R397). -/
def WordEnv.chained (env : WordEnv) (w : BitVec 160) (r : Run) (read : Bool) : WordEnv :=
  if read then env else { env with disp := (mwImm w % 256, r.pc) :: env.disp }

/-- The word at an engine's pc: its fault, or its effect. -/
def aeWord (st e : Nat) (r : Run) (s : State) : State :=
  match s.task? st r.task with
  | none => s
  | some t =>
    if r.runaway then aeWordFault st e r .runaway s
    else match odRead 11 st r.pc s with
      | (.bad, s) => aeWordFault st e r .ecc s
      | (_, s) =>
        let w := (s.stn st).store.word r.pc
        let env := aeEnv s st r
        let (read, s) := chainRead 11 st w r env s
        match wordFault w r (env.chained w r read) with
        | some c => aeWordFault st e r c s
        | none =>
          if !read then aeWordFault st e r .ecc s
          else
            match odRead 12 st (contextWord e) s with
            | (.bad, s) => aeWordFault st e r .ecc s
            | (_, s) => aeWordRun st e w r env t s

/-- MICROWORD_EXECUTE of an action engine; an engine that waits at its COMMIT word executes none. -/
def aeExecute (st e : Nat) (s : State) : State :=
  match aget? e (s.stn st).tasks.engines with
  | some r => if r.waiting then s else aeWord st e r s
  | none => s

/-- COMMIT_RESUME (R209): the word that waited for room in the posted-add queue executes. -/
def execCommitResume (st : Station) (engine : Fin 24) (s : State) : Out :=
  act s fun s =>
    match aget? engine.val (s.stn st.val).tasks.engines with
    | some r => if r.waiting then aeWord st.val engine.val r s else s
    | none => s

/-! ### The trap queue (R218, Table 10.17) -/

/-- Reading the low word removes the oldest record and latches its high word for the requester (R10). -/
def trapRead (req : Requester) (st : Nat) (s : State) : Word × State :=
  let lo := Reg.STN_AE_TRAP_LO st
  match (s.stn st).tasks.trapQ with
  | [] => (0#32, s.latch req lo 0#32)
  | t :: r =>
    let s := s.modTasks st fun ts => { ts with trapQ := r }
    (BitVec.ofNat 32 (t.code * 65536 + t.addr % 16384), s.latch req lo (BitVec.ofNat 32 (2 ^ 31 + t.engine)))

/-- TRAP_QUEUE_READ. -/
def execTrapQueueRead (req : Requester) (st : Station) (s : State) : Out :=
  act s fun s =>
    let (w, s) := trapRead req st.val s
    s.emit (.read req (Reg.STN_AE_TRAP_LO st.val) w)

end Sys2Proof.Machine
end

