-- ==== Sys2Proof/Machine/ControlStore.lean ====
section
/-! DEFINITION. Control stores (ch. 11): images and their checks, the loads of host and boot and the switches that take
them into force, the stage of bring-up that depends on them, the jobs of the housekeeping engines. -/
namespace Sys2Proof.Machine

/-! ### The stage of bring-up (R418, R425, R426) -/

def bootStage (s : State) : Nat := s.get Reg.BOOT_STATUS Fld.BOOT_STATUS_STAGE

def setStage (n : Nat) (s : State) : State := alertShow (s.put Reg.BOOT_STATUS Fld.BOOT_STATUS_STAGE n)

/-- Both vendor images are in force. -/
def vendorImages (s : State) : Bool :=
  s.rdN Reg.UCS_HK_VER_VENDOR != 0 && (List.range 12).all fun st => s.rdN (Reg.UCS_VER_VENDOR st) != 0

/-- STAGE goes on to READY once both stacks have trained and both vendor images are in force. -/
def stageSettle (s : State) : State :=
  if s.boot.thaw && (bootStage s == 1 || bootStage s == 4) && hbmReady s && vendorImages s then setStage 2 s else s

/-- A failure of bring-up (R425). -/
def bootFail (s : State) : State := setStage 4 (s.raise Reg.BOOT_EVENT Fld.BOOT_EVENT_FAIL)

/-- Milliseconds from reset release. -/
def bootMs (s : State) : Nat := min 65535 (s.now / 1000000)

/-! ### Images (R224 to R226) -/

def regionBase (target : Nat) : Nat := if target % 2 = 0 then 0 else 8192

/-- First opcode of a target's range, and how many there are. -/
def opcodeRange (target : Nat) : Nat × Nat := if target % 2 = 0 then (0, 64) else (64, 192)

def imgTarget (i : List Byte) : Nat := le i 5 1
def imgVersion (i : List Byte) : Nat := le i 8 4
def imgBase (i : List Byte) : Nat := le i 12 2
def imgWords (i : List Byte) : Nat := le i 14 2

/-- Entry k of the dispatch section. -/
def imgEntry (i : List Byte) (k : Nat) : Nat := le i (192 + 4 * k) 4

def imgSectionLen (target : Nat) : Nat := 4 * (opcodeRange target).2

/-- A valid dispatch entry lies outside the target's region. -/
def imgBadEntry (i : List Byte) (k : Nat) : Bool :=
  let e := imgEntry i k
  bit e 31 && bits e 13 0 / 8192 != regionBase (imgTarget i) / 8192

/-- The key hash that signs a target; none where it has not been programmed. -/
def targetHash (s : State) (target : Nat) : Option Nat := if target % 2 = 0 then some Config.vendorKeyHash else s.ucs.ckey

/-- The checks of Table 11.5 in their order: the completion code of the first that fails. -/
def imgRefusal (s : State) (i : List Byte) : Option Nat :=
  let t := imgTarget i
  let pub := (i.drop 48).take 64
  let reserved := le i 6 2 + le i 16 32 + le i 176 16
  if i.length ≠ 192 + imgSectionLen t + 20 * imgWords i ∨ 164800 < i.length then some 0x38
  else if le i 0 4 ≠ 0x46435531 ∨ le i 4 1 ≠ 1 ∨ 3 < t ∨ imgVersion i = 0 ∨ imgWords i = 0 ∨ 8192 < imgWords i
      ∨ 8192 < imgBase i + imgWords i ∨ reserved ≠ 0 then some 0x38
  else match targetHash s t with
    | none => some 0x39
    | some h =>
      if sha256 pub ≠ h then some 0x3A
      else if !ecdsaValid (beVal (pub.take 32)) (beVal (pub.drop 32)) (be i 112 32) (be i 144 32)
          (sha256 (i.take 112 ++ i.drop 176)) then some 0x3B
      else if (List.range (opcodeRange t).2).any (imgBadEntry i) then some 0x38
      else none

/-- The words that an image supplies, by address. -/
def imgStore (i : List Byte) : List (Nat × BitVec 160) :=
  let t := imgTarget i
  let body := i.drop (192 + imgSectionLen t)
  (List.range (imgWords i)).map fun k =>
    (regionBase t + imgBase i + k, BitVec.ofNat 160 (leVal ((body.drop (20 * k)).take 20)))

/-- The entries of an image that are not 0, by opcode, with the fields of Table 11.2; the other bits are reserved. -/
def imgDispatch (i : List Byte) : List (Nat × Nat) :=
  let (lo, n) := opcodeRange (imgTarget i)
  (List.range n).filterMap fun k =>
    let w := bitAt (bit (imgEntry i k) 31) 31 + bits (imgEntry i k) 13 0
    if w = 0 then none else some (lo + k, w)

/-- A store with the region of an image replaced as a whole (R221, R223). -/
def Store.load (m : Store) (i : List Byte) : Store :=
  if imgTarget i % 2 = 0 then
    { m with
      words := imgStore i ++ m.words.filter fun w => decide (8192 ≤ w.1)
      disp := imgDispatch i ++ m.disp.filter fun d => decide (64 ≤ d.1)
      vendor := true }
  else
    { m with
      words := (m.words.filter fun w => decide (w.1 < 8192)) ++ imgStore i
      disp := (m.disp.filter fun d => decide (d.1 < 64)) ++ imgDispatch i
      customer := true }

/-- Writing a region repairs the errors of its words and dispatch entries (Table 22.4, MEM 11 and 17), and takes a
planted one. -/
def storeErrors (mem st target : Nat) (s : State) : State :=
  let vendor := target % 2 == 0
  let mine (x : Nat) : Bool :=
    if x < 16384 then decide (x < 8192) == vendor else decide (x - 16384 < 64) == vendor
  let keep := s.tinker.errors.filter fun e => !(e.mem == mem && e.station == st && mine e.index)
  odWrite mem st (regionBase target) { s with tinker := { s.tinker with errors := keep } }

/-! ### The end of a load -/

/-- The boot block has tried its last image. -/
def bootImagesDone (s : State) : State :=
  (s.raise Reg.BOOT_EVENT Fld.BOOT_EVENT_IMAGES).put (Reg.BOOT_MS 1) Fld.BOOT_MS_MS (bootMs s)

/-- The result of a boot image is recorded (R417, R425). -/
def bootImage (t result code : Nat) (s : State) : State :=
  let a := Reg.BOOT_IMG t
  let s := (s.put a Fld.BOOT_IMG_RESULT result).put a Fld.BOOT_IMG_CODE code
  if result ≠ 1 ∧ t % 2 = 0 then bootFail s else s

/-- The load in progress ends: with its completion, or with the record of a boot image. -/
def loadEnd (code : Nat) (s : State) : State :=
  match s.ucs.load with
  | none => s
  | some l =>
    let s := { s with ucs := { s.ucs with load := none } }
    match l.host with
    | some (g, r) =>
      if code = 0 then completeOk g r (leBytes 4 l.version ++ leBytes 1 l.target) s else complete g r code [] s
    | none =>
      let s := { s with ucs := { s.ucs with boot := s.ucs.boot.drop 1 } }
      let s := bootImage l.target (if code = 0 then 1 else 3) code s
      if s.ucs.boot.isEmpty then bootImagesDone s else s

/-! ### Housekeeping engines (R234 to R238) -/

def State.hkEng (s : State) (e : Nat) : HkEngine := aget {} e s.hk

def State.modHk (s : State) (e : Nat) (f : HkEngine → HkEngine) : State := { s with hk := aset e (f (s.hkEng e)) s.hk }

/-- An engine runs: RUN is 1 and, for HK0 and HK1, a vendor housekeeping image is in force (R235). -/
def hkRun (s : State) (e : Nat) : Bool :=
  s.getB (Reg.UCS_HK_CTL e) Fld.UCS_HK_CTL_RUN && (decide (2 ≤ e) || s.rdN Reg.UCS_HK_VER_VENDOR != 0)

def hkService (s : State) (e : Nat) : Bool := s.getB (Reg.UCS_HK_CTL e) Fld.UCS_HK_CTL_SERVICE

/-- STATE (Table 11.20): 0 HALTED, 1 SLEEPING, 2 RUNNING, 3 at a SLEEP word. -/
def hkState (s : State) (e : Nat) : Nat :=
  let x := s.hkEng e
  if x.asleep then 3
  else if x.run.isSome then 2
  else if !hkRun s e then 0
  else if x.queue.isEmpty then 1 else 2

/-- An address lies in the region that an engine runs (R234). -/
def hkRegion (e a : Nat) : Bool := decide (a < 8192) == decide (e < 2)

/-- Registers at the entry of a housekeeping routine (Table 11.7). -/
def hkRegs (kind : Nat) (arg : List Byte) : List (BitVec 64) :=
  let a := (leBytes 16 (leVal arg))
  List.replicate 24 0#64 ++ [BitVec.ofNat 64 (256 * kind), BitVec.ofNat 64 (leVal (a.take 8)), BitVec.ofNat 64 (leVal (a.drop 8))]
    ++ List.replicate 5 0#64

/-- MAX_WORDS as treated (Table 11.18); service mode has no limit. -/
def hkMaxWords (s : State) (e : Nat) : Option Nat :=
  let m := s.get (Reg.UCS_HK_CFG e) Fld.UCS_HK_CFG_MAX_WORDS
  if hkService s e then none else some (if m = 0 then 16 else m)

/-- A housekeeping engine begins at a word, under MAX_WORDS as it stands (R432). -/
def hkBegin (e pc : Nat) (regs : List (BitVec 64)) (s : State) : State :=
  s.modHk e fun x => { x with run := some { task := 0, pc := pc, regs := regs, maxWords := hkMaxWords s e } }

/-- An engine in service mode runs from START (R238). -/
def hkServiceStart (e : Nat) (s : State) : State :=
  let x := s.hkEng e
  if hkRun s e && hkService s e && x.run.isNone && !x.held then
    hkBegin e (s.get (Reg.UCS_HK_CTL e) Fld.UCS_HK_CTL_START) (hkRegs 0 []) s
  else s

/-- A write of UCS_HK_CTL (Table 11.17). SERVICE changes only while HALTED. -/
def hkCtlWrite (e : Nat) (v : Word) (s : State) : State :=
  let a := Reg.UCS_HK_CTL e
  let s := if hkState s e = 0 then s.put a Fld.UCS_HK_CTL_SERVICE (Fld.UCS_HK_CTL_SERVICE.of v) else s
  let s := s.put a Fld.UCS_HK_CTL_START (Fld.UCS_HK_CTL_START.of v)
  if Fld.UCS_HK_CTL_RUN.of v = 0 then s.putB a Fld.UCS_HK_CTL_RUN false
  else if hkService s e && !hkRegion e (s.get a Fld.UCS_HK_CTL_START) then s
  else hkServiceStart e (s.putB a Fld.UCS_HK_CTL_RUN true)

/-- HK_RUN_WRITE. -/
def execHkRunWrite (_req : Requester) (e : Fin 4) (value : Word) (s : State) : Out := act s (hkCtlWrite e.val value)

/-- A fault halts an engine (R239). -/
def hkFault (e code addr : Nat) (s : State) : State :=
  let a := Reg.UCS_HK_STATUS e
  let s := ((s.put a Fld.UCS_HK_STATUS_CODE code).raise a Fld.UCS_HK_STATUS_FAULT).put a Fld.UCS_HK_STATUS_ADDR addr
  (s.modHk e fun x => { x with run := none, asleep := false }).putB (Reg.UCS_HK_CTL e) Fld.UCS_HK_CTL_RUN false

/-- A job joins the queue, if it has room: 16 (Table 11.7). -/
def hkQueue (e : Nat) (j : Job) (s : State) : State := s.modHk e fun x => { x with queue := x.queue ++ [j] }

def hkFull (s : State) (e : Nat) : Bool := decide (16 ≤ (s.hkEng e).queue.length)

/-- HK_TIMER (R236). -/
def execHkTimer (e : Fin 4) (s : State) : Out :=
  act s fun s =>
    let e := e.val
    let a := Reg.UCS_HK_STATUS e
    if s.get (Reg.UCS_HK_TIMER e) Fld.UCS_HK_TIMER_TIMER_US = 0 then s
    else if hkFull s e then s.put a Fld.UCS_HK_STATUS_LOST (min 3 (s.get a Fld.UCS_HK_STATUS_LOST + 1))
    else hkQueue e { kind := 1, op := 0 } s

/-- HK_JOB (R236, R240). -/
def execHkJob (g : Guild) (ring : Fin 1024) (s : State) : Out :=
  act s (onCmd g.val ring.val 0x3A fun c s =>
    let e := descField c.desc 0 2
    let op := descField c.desc 8 8
    if e < 2 ∨ op < 0x40 then complete g.val ring.val 0x3F [] s
    else if hkFull s e then complete g.val ring.val 0x3E [] s
    else completeOk g.val ring.val [] (hkQueue e { kind := 2, op := op, arg := (c.desc.drop 16).take 16 } s))

/-- Opcode of a job. -/
def jobOp (s : State) (e : Nat) (j : Job) : Nat :=
  match j.kind with
  | 0 => s.get (Reg.UCS_HK_CFG e) Fld.UCS_HK_CFG_IRQ_OP
  | 1 => s.get (Reg.UCS_HK_CFG e) Fld.UCS_HK_CFG_TIMER_OP
  | _ => j.op

/-- HK_JOB_DISPATCH (R236). A job whose dispatch entry is invalid, or whose routine the engine does not run (R234), ends
without running (DEDUCED, log 66). -/
def execHkJobDispatch (e : Fin 4) (s : State) : Out :=
  act s fun s =>
    let e := e.val
    let x := s.hkEng e
    if !hkRun s e || hkService s e || x.run.isSome || x.held then s
    else match x.queue with
      | [] => s
      | j :: rest =>
        let s := s.modHk e fun x => { x with queue := rest }
        match odRead 17 0 (dispatchWord (jobOp s e j)) s with
        | (.bad, s) => let (a, s) := s.drawNat; hkFault e FaultCode.ecc.num (a % 16384) s
        | (_, s) =>
          match s.hkStore.entry (jobOp s e j) with
          | some a =>
            if hkRegion e a then hkBegin e a (hkRegs j.kind j.arg) s else s
          | none => s

/-! ### Loads (R228 to R232) -/

/-- Engines that run a housekeeping target's region. -/
def hkOfTarget (target : Nat) : List Nat := if target % 2 = 0 then [0, 1] else [2, 3]

/-- A load is in progress in the device (R228, R230): a host's, or the boot block's list. -/
def loadBusy (s : State) : Bool := s.ucs.load.isSome || !s.ucs.boot.isEmpty

/-- UCS_LOAD: the image is read into staging. -/
def execUcsLoad (g : Guild) (ring : Fin 1024) (s : State) : Out :=
  act s (onCmd g.val ring.val 0x38 fun c s =>
    if loadBusy s then complete g.val ring.val 0x3D [] s
    else
      let s := s.modCmd g.val ring.val fun c => { c with began := true }
      { s with ucs := { s.ucs with load := some { target := 0, host := some (g.val, ring.val) }
                                   loadLen := descField c.desc 0 32 } })

/-- A load whose checks have passed: the first station, or the engines of the region, are asked to stop. -/
def loadBegin (l : Load) (image : List Byte) (s : State) : State :=
  let t := imgTarget image
  let l := { l with target := t, image := image, version := imgVersion image, checked := true, station := 0 }
  let s := { s with ucs := { s.ucs with load := some l } }
  if t < 2 then stopRequest 0 s
  else (hkOfTarget t).foldl (fun s e => s.modHk e fun x => { x with held := true }) s

/-- The image of a load is whole in staging, or its source has failed. -/
def imageArrived (l : Load) (len : Nat) (image : Option (List Byte)) (s : State) : State :=
  let s := { s with ucs := { s.ucs with load := some l } }
  match image, l.host with
  | none, some (g, r) => dmaError g r { s with ucs := { s.ucs with load := none } }
  | none, none =>
    let s := { s with ucs := { s.ucs with load := none, boot := s.ucs.boot.drop 1 } }
    let s := bootImage l.target 4 0 s
    if s.ucs.boot.isEmpty then bootImagesDone s else s
  | some d, h =>
    let i := if 164800 < len then d.take 0 else (d ++ zeros len).take len
    if h.isNone && imgTarget i != l.target then loadEnd 0x38 s
    else match imgRefusal s i with
      | some code => loadEnd code s
      | none => loadBegin l i s

/-- The boot block reads the serial flash (R415). -/
def flashRead (addr len : Nat) (s : State) : State :=
  s.emit (.flashRead (if s.get Reg.BOOT_STRAP Fld.BOOT_STRAP_MODE = 1 then 0x6B else 0x03) (addr % 2 ^ 24) len)

/-- IMAGE_STAGED (R226): a host load's image, else the next image of the boot block, read from flash. -/
def execImageStaged (image : Option (List Byte)) (s : State) : Out :=
  act s fun s =>
    match s.ucs.load with
    | some l =>
      if l.checked then s
      else imageArrived l s.ucs.loadLen image (if l.host.isSome then s.tick (Reg.HIF_CNT_LO 0) else s)
    | none =>
      match s.ucs.boot with
      | (t, off, len) :: _ => imageArrived { target := t, host := none } len image (flashRead off len s)
      | [] => s

/-- STATION_STORE_SWITCH (R228, step 3): no engine of the station runs a routine. -/
def execStationStoreSwitch (st : Station) (s : State) : Out :=
  act s fun s =>
    let st := st.val
    match s.ucs.load with
    | none => s
    | some l =>
      if l.checked && decide (l.target < 2) && l.station == st && (s.stn st).tasks.engines.isEmpty then
        let s := storeErrors 11 st l.target (s.modStn st fun n => { n with store := n.store.load l.image })
        let ver := if l.target = 0 then Reg.UCS_VER_VENDOR st else Reg.UCS_VER_CUSTOMER st
        let s := s.wr ver (BitVec.ofNat 32 l.version)
        if st = 11 then stageSettle (loadEnd 0 s)
        else stopRequest (st + 1) { s with ucs := { s.ucs with load := some { l with station := st + 1 } } }
      else s

/-- HK_STORE_SWITCH (R228, step 4; R235): a vendor image starts HK0 and HK1 in normal mode. -/
def execHkStoreSwitch (s : State) : Out :=
  act s fun s =>
    match s.ucs.load with
    | none => s
    | some l =>
      let es := hkOfTarget l.target
      if l.checked && decide (2 ≤ l.target) && es.all fun e => (s.hkEng e).run.isNone then
        let s := storeErrors 17 0 l.target { s with hkStore := s.hkStore.load l.image }
        let s := s.wr (if l.target = 2 then Reg.UCS_HK_VER_VENDOR else Reg.UCS_HK_VER_CUSTOMER) (BitVec.ofNat 32 l.version)
        let s := es.foldl (fun s e =>
          let s := s.modHk e fun x => { x with held := false }
          if l.target = 2 then
            (s.putB (Reg.UCS_HK_CTL e) Fld.UCS_HK_CTL_RUN true).putB (Reg.UCS_HK_CTL e) Fld.UCS_HK_CTL_SERVICE false
          else hkServiceStart e s) s
        stageSettle (loadEnd 0 s)
      else s

/-- The OTP takes the customer key, most significant byte first. -/
def keyStore (d : List Byte) (s : State) : State := { s with ucs := { s.ucs with ckey := some (beVal d) } }

/-- UCS_KEY_PROGRAM (R227). -/
def execUcsKeyProgram (g : Guild) (ring : Fin 1024) (data : Option (List Byte)) (s : State) : Out :=
  act s (onCmd g.val ring.val 0x39 fun _ s =>
    if loadBusy s then complete g.val ring.val 0x3D [] s
    else if s.ucs.ckey.isSome then complete g.val ring.val 0x3C [] s
    else
      withData g.val ring.val 32 data
        (fun d s => completeOk g.val ring.val [] (keyStore d s)) s)

/-- UCS_STORE_WRITE_ATTEMPT (R223). -/
def ucsStoreWrite (st : Nat) (s : State) : State := s.raise (Reg.UCS_STATUS st) Fld.UCS_STATUS_WR_ERR

def execUcsStoreWriteAttempt (st : Station) (s : State) : Out := act s (ucsStoreWrite st.val)

/-- Word j of a store word as UCS_RD_DATA shows it. -/
def ucsReadData (s : State) (st j : Nat) : Nat :=
  let a := Reg.UCS_RD_ADDR st
  let m := if st = 0 ∧ s.getB a Fld.UCS_RD_ADDR_HK then s.hkStore else (s.stn st).store
  bits (m.word (s.get a Fld.UCS_RD_ADDR_ADDR)).toNat (32 * j + 31) (32 * j)

end Sys2Proof.Machine
end

