-- ==== Sys2Proof/Machine/Pools.lean ====
section
/-! DEFINITION. The Cooperage pools (R278, R279): their free stacks, and what punts, injects and housekeeping engines
take from them. -/
namespace Sys2Proof.Machine

/-- Block size, blocks and base of pool n (Table 14.1). -/
def poolSize (n : Nat) : Nat :=
  match n with
  | 0 => 256
  | 1 => 2048
  | 2 => 9728
  | _ => 16384

def poolBase (n : Nat) : Nat :=
  0xF000000000 + match n with
    | 0 => 0
    | 1 => 0x200000
    | 2 => 0x600000
    | _ => 0xAC0000

/-- HK_BLOCKS as treated (Table 14.16). -/
def hkBlocks (s : State) : Nat := min 256 (s.get Reg.COOP_HK Fld.COOP_HK_HK_BLOCKS)

/-- First block, and number of blocks, of stack n: 4 is the housekeeping pool, the highest blocks of pool 3. -/
def stackFirst (s : State) (n : Nat) : Nat := if n = 4 then 336 - hkBlocks s else 0

def stackBlocks (s : State) (n : Nat) : Nat :=
  match n with
  | 0 => 8192
  | 1 => 2048
  | 2 => 512
  | 3 => 336 - hkBlocks s
  | _ => hkBlocks s

/-- Memory address of a block of pool n. -/
def blockAddr (n k : Nat) : Nat := poolBase n + poolSize n * k

/-- Number of a 64-B word of a block in MEM 14 (DESIGN CHOICE, log 43). -/
def blockWord (n k : Nat) : Nat := (blockAddr n k - 0xF000000000) / 64

def State.stack (s : State) (n : Nat) : Stack := aget {} n s.coop.freeStacks

def setStack (n : Nat) (x : Stack) (s : State) : State :=
  { s with coop := { s.coop with freeStacks := aset n x s.coop.freeStacks } }

/-- Blocks a stack was built with and still holds. -/
def builtLeft (s : State) (n : Nat) : Nat := stackBlocks s n - (s.stack n).gone.length

/-- Entries of a stack. -/
def stackFree (s : State) (n : Nat) : Nat := (s.stack n).pushed.length + builtLeft s n

/-- A block as the Cooperage sweep names it: pool and number. -/
def coopKey (n k : Nat) : Nat := 65536 * min n 3 + k

/-- The stack that block k of pool n belongs to: the highest blocks of pool 3 are the housekeeping pool's (R278). -/
def stackOf (s : State) (n k : Nat) : Nat := if n < 3 then n else if stackFirst s 4 ≤ k then 4 else 3

def coopTouch (n k : Nat) (s : State) : State :=
  if s.coop.sweep.running then
    { s with coop := { s.coop with sweep := { s.coop.sweep with touched := sinsert (coopKey n k) s.coop.sweep.touched } } }
  else s

/-- A pool whose free blocks are fewer than WARN latches its POOL_LOW (Table 14.2). -/
def poolLow (n : Nat) (s : State) : State :=
  if n < 4 ∧ stackFree s n < s.get (Reg.COOP_THR n) Fld.COOP_THR_WARN then
    s.put Reg.MOR_POOL_EVENT Fld.MOR_POOL_EVENT_POOL_LOW
      (s.get Reg.MOR_POOL_EVENT Fld.MOR_POOL_EVENT_POOL_LOW ||| 2 ^ n)
  else s

/-- A block is popped: the one last pushed, else one of those the stack was built with, whose order is free. -/
def coopPop (n : Nat) (s : State) : Option Nat × State :=
  let x := s.stack n
  match x.pushed with
  | k :: r => (some k, poolLow n (coopTouch n k (setStack n { x with pushed := r } s)))
  | [] =>
    let left := builtLeft s n
    if left = 0 then (none, s)
    else
      let (d, s) := s.drawNat
      let k := freeFrom x.gone (stackFirst s n) (stackBlocks s n) d
      (some k, poolLow n (coopTouch n k (setStack n { x with gone := sinsert k x.gone } s)))

/-- A block of pool n is pushed on its stack, unchecked. -/
def coopPush (n k : Nat) (s : State) : State :=
  let n := stackOf s n k
  let x := s.stack n
  coopTouch n k (setStack n { x with pushed := k :: x.pushed } s)

/-- Pool n can give a block to an inject, or to a punt (Table 14.2). -/
def poolGives (s : State) (inj : Bool) (n : Nat) : Bool :=
  decide ((if inj then s.get (Reg.COOP_THR n) Fld.COOP_THR_INJ_STOP else 0) < stackFree s n) && stackFree s n != 0

/-- The smallest pool whose block holds n bytes and that can give one (R279). -/
def poolFor (s : State) (inj : Bool) (bytes : Nat) : Option Nat :=
  (List.range 4).find? fun n => decide (bytes ≤ poolSize n) && poolGives s inj n

/-- A frame is staged in a block: its bytes are written there (DEDUCED, log 70). -/
def stageBytes (n k : Nat) (b : List Byte) (s : State) : State := odWrite 14 0 (blockWord n k) (s.mwr (blockAddr n k) b)

/-- A staged frame is read: its bytes, none where the block is in error (Table 22.4, MEM 14). -/
def unstage (n k len : Nat) (s : State) : Option (List Byte) × State :=
  match odRead 14 0 (blockWord n k) s with
  | (.bad, s) => (none, odClear 14 0 (blockWord n k) s)
  | (_, s) => (some (s.mrd (blockAddr n k) len), s)

/-! ### Housekeeping blocks -/

/-- A read of COOP_HK_ALLOC by a housekeeping engine pops a block, which the engine then holds. -/
def hkAlloc (e : Nat) (s : State) : Word × State :=
  match coopPop 4 s with
  | (none, s) => (0#32, s)
  | (some k, s) =>
    (BitVec.ofNat 32 (2 ^ 31 + k % 512), { s with coop := { s.coop with hkHolders := aset k e s.coop.hkHolders } })

/-- COOP_HK_ALLOC_READ: ignored through any port but a housekeeping engine's. -/
def hkAllocRead (req : Requester) (s : State) : Word × State :=
  match req with
  | .hk e => hkAlloc e.val s
  | _ => (0#32, s)

def execCoopHkAllocRead (req : Requester) (s : State) : Out :=
  act s fun s =>
    let (w, s) := hkAllocRead req s
    s.emit (.read req Reg.COOP_HK_ALLOC w)

/-- A write of COOP_HK_FREE by a housekeeping engine pushes a block. -/
def hkFreeWrite (req : Requester) (value : Word) (s : State) : State :=
  match req with
  | .hk _ =>
    let k := Fld.COOP_HK_FREE_BLOCK.of value
    if stackFirst s 4 ≤ k ∧ k < 336 then
      let s := coopPush 4 k s
      { s with coop := { s.coop with hkHolders := adel k s.coop.hkHolders } }
    else s.tick (Reg.COOP_CNT_LO 2)
  | _ => s

/-- COOP_HK_FREE_WRITE (R279). -/
def execCoopHkFreeWrite (req : Requester) (value : Word) (s : State) : Out := act s (hkFreeWrite req value)

/-- A write of COOP_THR. -/
def coopThrWrite (n : Nat) (value : Word) (s : State) : State := poolLow n (s.store (Reg.COOP_THR n) value)

/-- A write of COOP_HK moves the bound between pool 3 and the housekeeping pool: the blocks that the stacks hold, and
those that have left them, go with their numbers. -/
def coopHkWrite (value : Word) (s : State) : State :=
  let gone := (s.stack 3).gone ++ (s.stack 4).gone
  let pushed := (s.stack 3).pushed ++ (s.stack 4).pushed
  let s := s.store Reg.COOP_HK value
  let lo := stackFirst s 4
  let part (l : List Nat) (hk : Bool) : List Nat := l.filter fun k => decide (lo ≤ k) == hk
  let s := setStack 3 ⟨part pushed false, (part gone false).foldl (fun a k => sinsert k a) []⟩ s
  poolLow 3 (setStack 4 ⟨part pushed true, (part gone true).foldl (fun a k => sinsert k a) []⟩ s)

end Sys2Proof.Machine
end

