-- ==== Sys2Proof/Machine/Release.lean ====
section
/-! DEFINITION. Ordered release (R253): VOQ admission and ECN (R262, R263), the multicast queues (R269), destination
144. -/
namespace Sys2Proof.Machine

def swcCnt (st k : Nat) (s : State) : State := s.tick (Reg.SWC_CNT_LO st k)

/-! ### ECN (R263) -/

/-- The ECN field of the L3 header at an offset: its codepoint, and the family; none where the byte there holds neither
version 4 nor version 6. -/
def ecnAt (b : List Byte) (off : Nat) : Option (Bool × Nat) :=
  match be b off 1 / 16 with
  | 4 => some (false, be b (off + 1) 1 % 4)
  | 6 => some (true, be b (off + 1) 1 / 16 % 4)
  | _ => none

/-- One's complement sum of two 16-bit numbers. -/
def ocAdd (a b : Nat) : Nat := (a + b) % 65536 + (a + b) / 65536

/-- A checksum updated for a word that changes from m to n (RFC 1624). -/
def csumUpdate (h m n : Nat) : Nat := 65535 - ocAdd (ocAdd (65535 - h) (65535 - m)) n

/-- Bytes from an offset on replaced by others, where they exist. -/
def patch (off : Nat) (x b : List Byte) : List Byte :=
  b.mapIdx fun k y => if off ≤ k ∧ k < off + x.length then x.getD (k - off) 0#8 else y

/-- The header at an offset is marked CE. -/
def ecnMark (v6 : Bool) (off : Nat) (b : List Byte) : List Byte :=
  let w := be b off 2
  if v6 then patch off (beBytes 2 (w ||| 0x30)) b
  else
    let b' := patch off (beBytes 2 (w ||| 3)) b
    patch (off + 10) (beBytes 2 (csumUpdate (be b (off + 10) 2) w (w ||| 3))) b'

/-- What ECN_MODE does with a frame: passed on, marked, or dropped (Table 13.4). -/
inductive EcnAct where
  | pass | mark (v6 : Bool) (off : Nat) | drop
  deriving DecidableEq, Repr

def ecnAct (mode : Nat) (lossless : Bool) (l3 : List (Nat × Nat)) (b : List Byte) : EcnAct :=
  if mode = 0 ∨ 2 < mode then .pass
  else
    match l3.head?.bind fun x => (ecnAt b x.1).map fun e => (x.1, e) with
    | some (off, v6, 1) | some (off, v6, 2) => .mark v6 off
    | some (_, _, 3) => .pass
    | _ => if mode = 2 ∧ lossless = false then .drop else .pass

/-! ### Growth cells (R256) -/

/-- At release a growth cell is charged with the frame's other cells: as Table 13.2 charges it where there is room, else
to SHARED (DEDUCED, log 71). -/
def growthCharge (st : Nat) (f : Frame) (s : State) : Frame × State :=
  let n := f.growth
  if n = 0 then (f, s)
  else
    let s := s.modCore st fun c => { c with growthUsed := c.growthUsed - n }
    if 144 ≤ f.inPort then
      let s := s.modCore st fun c => { c with injUsed := c.injUsed + n }
      ({ f with growth := 0, chShared := f.chShared + n, chInj := f.chInj + n }, xoffUpdate st (chargeShared st f.inPort f.cls n s))
    else
      let i := localOf f.inPort
      let (x, h, sh) := (ingressSplit s st i f.cls n).getD (0, 0, n)
      let s := s.modCore st fun c => { c with expUsed := c.expUsed + x }
      let s := if h = 0 then s else chargeHead st i h s
      let s := chargeShared st f.inPort f.cls sh s
      ({ f with growth := 0, chShared := f.chShared + sh, chHead := f.chHead + h, chExp := f.chExp + x }, xoffUpdate st s)

/-! ### VOQs -/

/-- Cells of the frames queued for a destination and class, one that crosses included. -/
def voqDepth (s : State) (st v : Nat) : Nat :=
  let c := (s.stn st).core
  ((aget [] v c.voqs).map fun x => x.frame.cells.length).sum
    + (c.contexts.map fun e =>
        if e.2.xf.kind = .unicast ∧ 8 * e.2.xf.dest + e.2.xf.tc = v then e.2.xf.frame.cells.length else 0).sum

/-- The frame's ingress class is lossless (R262). -/
def frameLossless (s : State) (f : Frame) : Bool := decide (f.inPort < 144) && lossless s f.inPort f.cls

/-- A frame enters its VOQ. -/
def voqPush (st : Nat) (x : XFrame) (s : State) : State :=
  let v := 8 * x.dest + x.tc
  odWrite 4 st (voqWord v) (s.modCore st fun c => { c with voqs := aset v (aget [] v c.voqs ++ [x]) c.voqs })

/-- A packet is forwarded: a work unit for each lease access, or a stateless forward (R51). -/
def forwardCount (st leases guild : Nat) (s : State) : State :=
  if leases = 0 then evCount st 3 1 (some guild) s else evCount st 2 leases (some guild) s

/-- VOQ_ADMISSION and ECN_MARK: the frame enters the VOQ of its destination and class, or is dropped. -/
def unicastRelease (st dest tc reason leases : Nat) (l3 : List (Nat × Nat)) (f : Frame) (s : State) : State :=
  if !s.validDest dest then dropFrame st f (swcCnt st 1 s)
  else
    let w := s.rd (Reg.SWC_CLASS st tc)
    let d := voqDepth s st (8 * dest + tc)
    let ll := frameLossless s f
    if !(tc == 7 || ll || leAlpha (Fld.SWC_CLASS_ALPHA.of w) (d + f.cells.length) (ingSharedFree s st)) then
      let s := swcCnt st 2 s
      dropFrame st f (if f.inPort < 144 then s.tick (Reg.SWC_PCNT_LO st (localOf f.inPort) 2) else s)
    else
      let x : XFrame := { frame := f, dest := dest, tc := tc, guild := f.guild, reason := reason }
      let go (s : State) (x : XFrame) : State := forwardCount st leases f.guild (voqPush st x s)
      if tc = 7 ∨ d < Fld.SWC_CLASS_ECN_TH.of w then go s x
      else match ecnAct (Fld.SWC_CLASS_ECN_MODE.of w) ll l3 f.bytes with
        | .pass => go s x
        | .mark v6 off => go (swcCnt st 6 s) { x with frame := { f with bytes := ecnMark v6 off f.bytes } }
        | .drop => dropFrame st f (swcCnt st 7 s)

/-! ### Multicast queues (R269) -/

/-- Destinations less the frame's ingress port, unless HAIRPIN is 1. -/
def mcPrune (hairpin : Bool) (inPort ports : Nat) : Nat :=
  if hairpin || !ports.testBit inPort || decide (144 ≤ inPort) then ports else ports - 2 ^ inPort

/-- HAIRPIN of a multicast frame's group as it stands. -/
def mcHairpin (s : State) (x : XFrame) : Bool :=
  x.flood.isNone && (match aget? x.mgrp s.groups with | some g => g.hairpin | none => false)

/-- Destinations of a multicast frame as its group, or its Thaw flood set, stands. -/
def mcPorts (s : State) (hairpin : Bool) (x : XFrame) : Nat :=
  match x.flood with
  | some m => m
  | none => match aget? x.mgrp s.groups with
    | some g => mcPrune hairpin x.frame.inPort g.ports
    | none => 0

/-- MULTICAST_ENQUEUE: the frame enters the multicast queue of its class, or is dropped. -/
def multicastRelease (st mgrp tc reason leases : Nat) (flood : Option Nat) (f : Frame) (s : State) : State :=
  let x : XFrame := { frame := f, kind := .mcCopy, mgrp := if flood.isSome then 0 else mgrp, tc := tc, guild := f.guild
                      reason := reason, flood := flood }
  let refuse : Option Nat :=
    match flood, aget? mgrp s.groups with
    | some _, _ => none
    | none, none => some 12
    | none, some g => if g.guild = f.guild then none else some 11
  match refuse with
  | some k => dropFrame st f (swcCnt st k s)
  | none =>
    if mcPorts s (mcHairpin s x) x = 0 then dropFrame st f (swcCnt st 13 s)
    else
      let s := forwardCount st leases f.guild (swcCnt st 8 s)
      odWrite 4 st (voqWord (1160 + tc)) (s.modCore st fun c => { c with mcqs := aset tc (aget [] tc c.mcqs ++ [x]) c.mcqs })

/-! ### Destination 144 -/

/-- A punt departs towards destination 144 through its VOQ (R253, R345), under the admission of R262. -/
def puntRelease (st : Nat) (t : Task) (f : Frame) (s : State) : State :=
  unicastRelease st 144 t.dec.tc t.dec.reason t.leases t.l3 f (evCount st 11 1 (some f.guild) s)

/-! ### ORDERED_RELEASE -/

/-- A frame that the end of a yield discards (R408). -/
def yieldDrop (st : Nat) (s : State) (f : Frame) : State := dropFrame st f (s.tick (Reg.MATE_CNT_LO 2))

/-- The head of an ordered-release queue leaves its task slot. At the end of a yield its frame is discarded. -/
def releaseTask (st q k : Nat) (t : Task) (s : State) : State :=
  let s := s.modTasks st fun x =>
    let l := (aget [] q x.orqs).tail
    { x with slots := adel k x.slots, orqs := if l.isEmpty then adel q x.orqs else aset q l x.orqs }
  let s := drainAdd st t.tagGuild t.tag (-1) (odWrite 4 st (orqWord q) (s.tick (Reg.TSK_CNT_LO st 9)))
  let f := { t.frame with sig := if t.key.isSome then t.sig else t.frame.sig }
  if (s.stn st).yields then yieldDrop st s f
  else match t.dec.action with
  | 0 => dropFrame st f s
  | 1 =>
    let (f, s) := growthCharge st f s
    unicastRelease st t.dec.dest t.dec.tc t.dec.reason t.leases t.l3 f s
  | 2 =>
    let (f, s) := growthCharge st f s
    multicastRelease st t.dec.mgrp t.dec.tc t.dec.reason t.leases t.dec.flood f s
  | _ =>
    let (f, s) := growthCharge st f s
    puntRelease st t f s

/-- The words of MEM 4 that a reader needs, in order: false where one of them is bad. -/
def schedReads (st : Nat) : List Nat → State → Bool × State
  | [], s => (true, s)
  | w :: r, s => match schedRead st w s with
    | (false, s) => (false, s)
    | (true, s) => schedReads st r s

/-- ORDERED_RELEASE (R253): a head that is DONE is released once its hold has ended. -/
def execOrderedRelease (st : Station) (orq : Fin 97) (s : State) : Out :=
  act s fun s =>
    let st := st.val
    match aget [] orq.val (s.stn st).tasks.orqs with
    | [] => s
    | k :: _ =>
      match s.task? st k with
      | none => s
      | some t =>
        if t.st ≠ .done ∨ t.holds = true then s
        else match schedReads st [orqWord orq.val, k] s with
          | (false, s) => s
          | (true, s) => releaseTask st orq.val k t s

end Sys2Proof.Machine
end

