-- ==== Sys2Proof/Machine/Crossbar.lean ====
section
/-! DEFINITION. The crossbar (R264 to R268): what a free context takes up, egress admission, one slot of request, grant
and accept, one cell's crossing; the multicast head (R270, R271). -/
namespace Sys2Proof.Machine

/-! ### Contexts (R265) -/

/-- Output crossbar port of a destination. -/
def outOf (d : Nat) : Nat := if d = 144 then 12 else d / 12

/-- Where the context of input i, output o and class c stands: with the input station, or, for the host's input, with
the target station under output 13. -/
def ctxHome (i o : Nat) : Nat := if i = 12 then o else i

def ctxKey (i o c : Nat) : Nat := if i = 12 then 104 + c else 8 * o + c

def State.ctx? (s : State) (i o c : Nat) : Option Context := aget? (ctxKey i o c) (s.stn (ctxHome i o)).core.contexts

def State.setCtx (i o c : Nat) (x : Context) (s : State) : State :=
  s.modCore (ctxHome i o) fun k => { k with contexts := aset (ctxKey i o c) x k.contexts }

def State.delCtx (i o c : Nat) (s : State) : State :=
  s.modCore (ctxHome i o) fun k => { k with contexts := adel (ctxKey i o c) k.contexts }

def modHead (st c : Nat) (f : McHead → McHead) (s : State) : State :=
  s.modCore st fun k => match aget? c k.mcHeads with
    | some h => { k with mcHeads := aset c (f h) k.mcHeads }
    | none => k

/-! ### The head of a multicast queue (R270, R271) -/

/-- Members of a set of ports that lie in station o. -/
def membersOf (ports o : Nat) : List Nat := ((List.range 12).map (12 * o + ·)).filter fun p => ports.testBit p

/-- MC_HEAD: the frame at the head forms its target set and requests a copy to each station of it. -/
def execMcHead (st : Station) (cls : Fin 8) (s : State) : Out :=
  act s fun s =>
    let st := st.val
    let c := cls.val
    let core := (s.stn st).core
    match aget [] c core.mcqs, aget? c core.mcHeads with
    | x :: _, none =>
      match schedRead st (voqWord (1160 + c)) s with
      | (false, s) => s
      | (true, s) =>
        let hp := mcHairpin s x
        let ports := mcPorts s hp x
        let h : McHead :=
          { toGrant := (List.range 12).filter fun o => !(membersOf ports o).isEmpty
            waiting := [], hostMember := x.flood.isNone && ports.testBit 144, ports := ports, hairpin := hp }
        s.modCore st fun k => { k with mcHeads := aset c h k.mcHeads }
    | _, _ => s

/-- The multicast outcome record (Table 13.7). -/
def mcRecord (x : XFrame) (h : McHead) : List Byte :=
  leBytes 2 x.mgrp ++ leBytes 1 x.frame.inPort ++ leBytes 1 x.tc ++ leBytes 1 (min 255 h.refused)
    ++ leBytes 1 (min 255 h.timedOut) ++ leBytes 2 h.outMap ++ leBytes 4 x.frame.rxTs ++ zeros 20

/-- REFUSED is final: a partial delivery is counted, and recorded under REPORT (R271). -/
def mcOutcome (st c : Nat) (s : State) : State :=
  let core := (s.stn st).core
  match (aget [] c core.mcqs).head?, aget? c core.mcHeads with
  | some x, some h =>
    if h.refused = 0 then s
    else
      let s := swcCnt st 10 s
      if s.getB (Reg.SWC_MC_CFG st) Fld.SWC_MC_CFG_REPORT then tstoreQueue st x.frame.guild (mcRecord x h) s else s
  | _, _ => s

/-- A frame whose target set was empty when it became head is dropped: its group has been deleted since its release, or
has no destination left, which MC_EMPTY counts (DEDUCED, log 144). -/
def mcNone (st : Nat) (x : XFrame) (s : State) : State :=
  frameGone st x.frame (if (aget? x.mgrp s.groups).isSome then swcCnt st 13 s else s)

/-- The last copy has been taken: the frame's cells are freed (R270, step 4). -/
def mcFinish (st c : Nat) (s : State) : State :=
  match aget [] c (s.stn st).core.mcqs with
  | [] => s
  | x :: r =>
    let s := if (aget? c (s.stn st).core.mcHeads).any fun h => h.ports == 0 then mcNone st x s else s
    let s := s.modCore st fun k =>
      { k with mcqs := if r.isEmpty then adel c k.mcqs else aset c r k.mcqs, mcHeads := adel c k.mcHeads }
    freeFrame st x.frame (odWrite 4 st (voqWord (1160 + c)) s)

/-- A context carries a copy of the frame at the head of its multicast queue. -/
def Context.copies (x : Context) : Bool := x.xf.kind == .mcCopy && !x.lone

/-- A reservation at output o is given up. -/
def ctxRelease (o : Nat) (x : Context) (s : State) : State :=
  match x.xf.kind with
  | .unicast =>
    egrRelease x.xf.dest { frame := x.xf.frame, tc := x.xf.tc, blocks := 0, landed := 0, chMin := x.minCh
                           chShared := x.sharedCh, chExp := x.expCh } s
  | .mcCopy =>
    if x.sharedCh + x.expCh = 0 then s
    else s.modEgress o fun e => { e with sharedUsed := e.sharedUsed - x.sharedCh, expUsed := e.expUsed - x.expCh }
  | .inject => s

/-- MC_COUNTS_DONE: every target station has returned its count or timed out; the host copy is requested, or the frame
is done. REFUSED is final unless a host copy may still time out (DEDUCED, log 78). -/
def execMcCountsDone (st : Station) (cls : Fin 8) (s : State) : Out :=
  act s fun s =>
    let st := st.val
    let c := cls.val
    match aget? c (s.stn st).core.mcHeads with
    | none => s
    | some h =>
      if !h.toGrant.isEmpty || !h.waiting.isEmpty || h.hostPending || (s.ctx? st 12 c).any Context.copies then s
      else if h.hostMember then
        let s := if h.late then mcOutcome st c s else s
        modHead st c (fun h => { h with hostPending := true }) s
      else mcFinish st c (mcOutcome st c s)

/-- The context of a copy whose first cell has not been granted. -/
def copyIdle (s : State) (st o c : Nat) : Bool :=
  (s.ctx? st o c).any fun x => x.copies && !x.began

/-- Such a context is free again. -/
def copyDrop (st o c : Nat) (s : State) : State :=
  match s.ctx? st o c with
  | some x => if x.copies && !x.began then ctxRelease o x (s.delCtx st o c) else s
  | none => s

/-- n copies of the frame at the head are dropped for target o: each is a frame dropped (DEDUCED, log 80). -/
def copiesLost (st c o n : Nat) (s : State) : State :=
  match (aget [] c (s.stn st).core.mcqs).head? with
  | none => s
  | some x => (List.range n).foldl (fun s _ =>
      if o = 12 then evDrop st x.frame.guild s else frameGone st x.frame s) s

/-- A target whose copy has not been granted is timed out: n copies are dropped. -/
def mcTimeout (st c o n : Nat) (s : State) : State :=
  let s := copyDrop st o c s
  let s := ((copiesLost st c o n s).cnt (Reg.SWC_CNT_LO st 9) n).raise (Reg.SWC_EVENT st) Fld.SWC_EVENT_MC_HOL
  modHead st c (fun h =>
    { h with toGrant := h.toGrant.filter (· != o), waiting := h.waiting.filter (· != o)
             hostPending := h.hostPending && o != 12
             refused := h.refused + n, timedOut := h.timedOut + n, outMap := h.outMap + 2 ^ o }) s

/-- MC_HOL_TIMEOUT (R271): a host copy that has been requested and not granted is timed out as well. -/
def execMcHolTimeout (st : Station) (cls : Fin 8) (s : State) : Out :=
  act s fun s =>
    let st := st.val
    let c := cls.val
    match aget? c (s.stn st).core.mcHeads with
    | none => s
    | some h =>
      if h.late then s
      else
        let s := modHead st c (fun h => { h with late := true }) s
        let out := (List.range 12).filter fun o => h.toGrant.contains o || (h.waiting.contains o && copyIdle s st o c)
        let s := out.foldl (fun s o => mcTimeout st c o (membersOf h.ports o).length s) s
        if h.hostPending || copyIdle s st 12 c then mcFinish st c (mcOutcome st c (mcTimeout st c 12 1 s))
        else if (s.ctx? st 12 c).any Context.copies then mcOutcome st c s else s

/-! ### Admission at the output (R266, R287 to R289, R291, Table 14.2) -/

/-- Crossbar port 12 takes a frame for destination 144: some pool can stage it, and no pool drain runs (R284). -/
def hostTakes (s : State) (len : Nat) : Bool := s.poolDrain.isNone && (poolFor s false len).isSome

/-- Class 7 is never refused (R288): its blocks come from the express reserve and SHARED, or it crosses without any. -/
def expressAdmission (s : State) (o n : Nat) (x : Context) : Context :=
  match egrExpSplit s o n with
  | some (e, sh) => { x with expCh := e, sharedCh := sh }
  | none => { x with noRoom := true }

/-- The context of a frame that output o admits, with the blocks reserved for it; none where it refuses. A multicast
copy reserves its blocks as it is granted, like any other frame (R288, R289; DEDUCED, log 128). -/
def admission (s : State) (o : Nat) (xf : XFrame) : Option Context :=
  let n := cellsOf xf.frame.len
  let x : Context := { xf := xf, cellsLeft := n }
  if o = 12 then (if hostTakes s xf.frame.len then some x else none)
  else match xf.kind with
    | .unicast =>
      if !s.linkUp xf.dest then some { x with down := true }
      else if xf.tc = 7 then some (expressAdmission s o n x)
      else if egrAdmits s xf.dest xf.tc n then
        let (mn, sh) := egrSplit s xf.dest n
        some { x with minCh := mn, sharedCh := sh }
      else none
    | _ =>
      if xf.tc = 7 then some (expressAdmission s o n x)
      else if n ≤ egrSharedFree s o then some { x with sharedCh := n } else none

/-- Requests that stand refused at an output. -/
def refusedAt (s : State) (o : Nat) : List Nat := if o = 12 then s.coop.refusing else (s.stn o).egress.refusing

def setRefused (o : Nat) (l : List Nat) (s : State) : State :=
  if o = 12 then { s with coop := { s.coop with refusing := l } } else s.modEgress o fun e => { e with refusing := l }

/-- A request is refused: it is counted once while it stands (R287, Table 14.2). v names the VOQ, or 1,160 + class. The
refusal of a pool drain is no wait for a block. -/
def refuseNote (i o v : Nat) (s : State) : State :=
  let l := refusedAt s o
  if l.contains (1168 * i + v) then s
  else
    let s := setRefused o (sinsert (1168 * i + v) l) s
    if o = 12 then (if s.poolDrain.isSome then s else s.tick (Reg.COOP_CNT_LO 1)) else if v < 1160 then pcnt (v / 8) 6 s else s

def refuseClear (i o v : Nat) (s : State) : State :=
  let l := refusedAt s o
  if l.contains (1168 * i + v) then setRefused o (l.filter (· != 1168 * i + v)) s else s

/-! ### What a free context takes up -/

/-- What a context of an output and class chooses from: the VOQs of the output's ports, and the multicast queue. -/
def choiceSlots (o c : Nat) : List Nat :=
  (if o = 12 then [8 * 144 + c] else (List.range 12).map fun i => 8 * (12 * o + i) + c) ++ [1160 + c]

/-- The list turned so that it begins after the entry last served. -/
def rotateAfter (last : Option Nat) (l : List Nat) : List Nat :=
  match last with
  | none => l
  | some v => l.drop (l.idxOf v + 1) ++ l.take (l.idxOf v + 1)

/-- The frame that a VOQ, or the multicast queue, offers the output. -/
def offered (s : State) (st o c v : Nat) : Option XFrame :=
  let core := (s.stn st).core
  if v < 1160 then (aget [] v core.voqs).head?
  else match (aget [] c core.mcqs).head?, aget? c core.mcHeads with
    | some x, some h =>
      if o = 12 then
        if h.hostPending then
          some { x with dest := 144, hairpin := h.hairpin, part := h.refused != 0, refused := min 255 h.refused }
        else none
      else if h.toGrant.contains o then some { x with hairpin := h.hairpin } else none
    | _, _ => none

/-- The queue, as a refusal names it, that a context of crossbar port 12 has its frame from. -/
def Context.hostQueue (x : Context) (c : Nat) : Nat := if x.copies then 1160 + c else 8 * 144 + c

/-- Crossbar port 12 refuses the cells of a context, because no pool can stage its frame (Table 14.2). -/
def hostRefuses (s : State) (x : Context) : Bool := !hostTakes s x.xf.frame.len

/-- A refusal that has been noted stands: the output would refuse what the queue offers (R266), or port 12 the frame of
the queue that crosses. -/
def refusalStands (s : State) (o key : Nat) : Bool :=
  let st := key / 1168
  let v := key % 1168
  let c := if v < 1160 then v % 8 else v - 1160
  (o == 12 && (s.ctx? st 12 c).any fun x => x.hostQueue c == v && hostRefuses s x)
    || (match offered s st o c v with
        | some xf => (admission s o xf).isNone
        | none => false)

/-- The refusals of an output that stand. -/
def refusals (s : State) (o : Nat) : List Nat := (refusedAt s o).filter (refusalStands s o)

/-- A refusal ends when the thresholds clear (R266): those of output o that stand no more. -/
def refusalsSettle (s : State) (o : Nat) : State :=
  if (refusedAt s o).isEmpty then s else setRefused o (refusals s o) s

/-- The blocks that a context reserves are charged. -/
def ctxCharge (o : Nat) (x : Context) (s : State) : State :=
  if x.minCh + x.sharedCh + x.expCh = 0 then s
  else match x.xf.kind with
    | .unicast => egrCharge x.xf.dest x.xf.tc x.minCh x.sharedCh x.expCh s
    | _ => s.modEgress o fun e => { e with sharedUsed := e.sharedUsed + x.sharedCh, expUsed := e.expUsed + x.expCh }

/-- The frame leaves its VOQ for its context, or its copy is granted; the blocks are charged. -/
def contextTake (st o c v : Nat) (x : Context) (s : State) : State :=
  let s := s.modCore st fun k =>
    let k := { k with rr := aset (8 * o + c) v k.rr }
    if v < 1160 then
      let r := (aget [] v k.voqs).tail
      { k with voqs := if r.isEmpty then adel v k.voqs else aset v r k.voqs }
    else match aget? c k.mcHeads with
      | some h =>
        let h := if o = 12 then { h with hostPending := false }
          else { h with toGrant := h.toGrant.filter (· != o), waiting := sinsert o h.waiting }
        { k with mcHeads := aset c h k.mcHeads }
      | none => k
  (refuseClear st o v (ctxCharge o x (odWrite 4 st (voqWord v) s))).setCtx st o c x

/-- A free context looks at what it may take up, in round robin by frame. It reads the queue's descriptor, where an
uncorrectable error is station-fatal (MEM 4). -/
def contextChoose (st o c : Nat) : List Nat → State → State
  | [], s => s
  | v :: r, s =>
    match offered s st o c v with
    | none => contextChoose st o c r s
    | some xf =>
      match schedRead st (voqWord v) s with
      | (false, s) => s
      | (true, s) =>
        match admission s o xf with
        | some x => contextTake st o c v x s
        | none => contextChoose st o c r (refuseNote st o v s)

/-- The (output, class) pairs for which a station has something to send. -/
def wantedKeys (k : SwitchCore) : List Nat :=
  k.voqs.map (fun e => 8 * outOf (e.1 / 8) + e.1 % 8)
    ++ k.mcHeads.flatMap fun e => e.2.toGrant.map (fun o => 8 * o + e.1) ++ (if e.2.hostPending then [96 + e.1] else [])

/-- The free contexts of a station take up frames. -/
def contextsFill (s : State) (st : Nat) : State :=
  (wantedKeys (s.stn st).core).foldl (fun s k =>
    let o := k / 8
    let c := k % 8
    if (s.ctx? st o c).isSome then s
    else contextChoose st o c (rotateAfter (aget? k (s.stn st).core.rr) (choiceSlots o c)) s) s

/-! ### Request, grant, accept (R265) -/

/-- A request: input, output, class, and the sequence number of its frame's first cell, if it has crossed. -/
structure XReq where
  i : Nat
  o : Nat
  c : Nat
  first : Option Nat
  deriving DecidableEq, Repr

/-- Crossbar port 12 refuses the cells of every frame that no pool can stage, one that has begun to cross as well; each
wait is counted (Table 14.2). -/
def hostRefusals (s : State) : State :=
  let l := s.stations.flatMap fun e => e.2.core.contexts.filterMap fun x =>
    if x.1 / 8 = 12 ∧ x.2.cellsLeft ≠ 0 ∧ hostRefuses s x.2 then some (e.1, x.2.hostQueue (x.1 % 8)) else none
  l.foldl (fun s k => refuseNote k.1 12 k.2 s) s

/-- Every context with a cell to send requests its output; port 12 takes the cells of no frame that it refuses, and none
during a pool drain (R284, Table 14.2). -/
def xbrRequests (s : State) : List XReq :=
  s.stations.flatMap fun e => e.2.core.contexts.filterMap fun x =>
    if x.2.cellsLeft = 0 ∨ (x.1 / 8 = 12 ∧ hostRefuses s x.2) then none
    else
      let f := if x.2.began then some x.2.beganSeq else none
      some (if x.1 < 104 then ⟨e.1, x.1 / 8, x.1 % 8, f⟩ else ⟨12, e.1, x.1 % 8, f⟩)

def State.xbrOut (s : State) (o : Nat) : XbrOut := aget {} o s.xbr

def xbrWeight (s : State) (c : Nat) : Nat := max 1 (s.get (Reg.XBR_WEIGHT c) Fld.XBR_WEIGHT_WEIGHT)

/-- The deficit round robin over classes 0 to 6 of those that request. -/
def xbrRobin (w : Nat → Nat) (has : Nat → Bool) : Nat → XbrOut → Option (Nat × XbrOut)
  | 0, _ => none
  | n + 1, x =>
    if has x.cls && aget 0 x.cls x.deficit != 0 then some (x.cls, x)
    else
      let d := if has x.cls then x.deficit else adel x.cls x.deficit
      let c := (x.cls + 1) % 7
      xbrRobin w has n { x with cls := c, deficit := if has c then aset c (aget 0 c d + w c) d else d }

/-- The request of an output that it grants, of those that stand: class 7 first, else the round robin's class; among
its inputs, the one after that last served. -/
def xbrGrant (s : State) (o : Nat) (reqs : List XReq) : Option (XReq × XbrOut) :=
  let mine := reqs.filter fun r => r.o == o
  let has (c : Nat) : Bool := mine.any fun r => r.c == c
  let x := s.xbrOut o
  let pick := if has 7 then some (7, x) else xbrRobin (xbrWeight s) has 9 x
  pick.bind fun (c, x) =>
    let last := aget 12 c x.lastIn
    let far (r : XReq) : Nat := (r.i + 25 - last) % 13
    ((mine.filter fun r => r.c == c).foldl (fun (b : Option XReq) r =>
      match b with
      | none => some r
      | some y => if far r < far y then some r else some y) none).map fun r => (r, x)

/-- Which of two grants an input accepts: class 7, then the frame that began to cross earlier. -/
def xbrBetter (a b : XReq) : Bool :=
  if a.c = 7 ∧ b.c ≠ 7 then true
  else if b.c = 7 ∧ a.c ≠ 7 then false
  else match a.first, b.first with
    | some x, some y => decide (x < y)
    | some _, none => true
    | none, some _ => false
    | none, none => decide (a.o < b.o)

/-! ### A cell's crossing -/

/-- A chain pointer in error (Table 22.4, MEM 2): the frame is dropped; its cells beyond the pointer leak. -/
def chainLost (st o c k : Nat) (x : Context) (s : State) : State :=
  let f := { x.xf.frame with cells := x.xf.frame.cells.take (k + 1) }
  let s := odClear 2 st (x.xf.frame.cells.getD k 0) s
  if !x.copies then dropFrame st f (ctxRelease o x (s.delCtx st o c))
  else
    let mine (e : Nat × Context) : Bool := e.2.copies && e.1 % 8 == c
    let s := ((s.stn st).core.contexts.filter mine).foldl (fun s e => ctxRelease (e.1 / 8) e.2 s) s
    let s := s.modCore st fun q =>
      let r := (aget [] c q.mcqs).tail
      { q with mcqs := if r.isEmpty then adel c q.mcqs else aset c r q.mcqs, mcHeads := adel c q.mcHeads
               contexts := q.contexts.filter fun e => !mine e }
    dropFrame st f s

/-- An inject whose last cell has crossed gives its Cooperage block back (R279). -/
def injectCrossed (st c : Nat) (s : State) : State :=
  match s.hif.injects.find? fun j => j.crossing && j.station == st && j.frame.cls == c with
  | none => s
  | some j => coopPush j.pool j.block { s with hif := { s.hif with injects := s.hif.injects.filter (· != j) } }

/-- The last cell has left the input: a unicast frame's cells are freed (R255); an inject's block is. -/
def lastCell (i o c : Nat) (x : Context) (s : State) : State :=
  match x.xf.kind with
  | .unicast =>
    let f := x.xf.frame
    let bare : Frame := { f with cells := [], growth := 0, chShared := 0, chHead := 0, chExp := 0, chInj := 0 }
    freeFrame i f (s.setCtx i o c { x with xf := { x.xf with frame := bare } })
  | .inject => injectCrossed o c (s.setCtx i o c x)
  | .mcCopy => s.setCtx i o c x

/-- What a cell's data, and the cell in flight, bring: poisoned or not (Table 22.4, MEM 1 and 16). A frame that crosses
while its station's cells are rebuilt (R283) has none of its own. -/
def cellRead (i o : Nat) (cell : Option Nat) (s : State) : Bool × State :=
  let (a, s) := match cell with
    | some n => if i = 12 then (OdRead.clean, s) else odRead 1 i (32 * n) (energy i 1 7 s)
    | none => (OdRead.clean, s)
  let s := odWrite 16 (ctxHome i o) o s
  let (b, s) := odRead 16 (ctxHome i o) o s
  (a == .bad || b == .bad, odClear 16 (ctxHome i o) o s)

/-- The counters of a cell from input i to output o. A cell of a host inject has no sending station: accumulator 3 of
the station that receives it counts it (R50; DESIGN CHOICE, log 14). -/
def cellCount (i o c : Nat) (s : State) : State :=
  let s := (s.tick (Reg.XBR_PORT_CNT_LO i 0)).tick (Reg.XBR_PORT_CNT_LO o 1)
  let s := if c = 7 then s.tick (Reg.XBR_PORT_CNT_LO o 2) else s
  let s := energy (ctxHome i o) 3 0 s
  if i = 12 then s else evCount i 14 1 none (swcCnt i 14 s)

/-- One cell crosses. -/
def cellSend (s : State) (r : XReq) : State :=
  match s.ctx? r.i r.o r.c with
  | none => s
  | some x =>
    let y := s.xbrOut r.o
    let y := { y with deficit := if r.c = 7 then y.deficit else aset r.c (aget 0 r.c y.deficit - 1) y.deficit
                      lastIn := aset r.c r.i y.lastIn }
    let s := cellCount r.i r.o r.c { s with xbr := aset r.o y s.xbr }
    let n := cellsOf x.xf.frame.len
    let k := n - x.cellsLeft
    let cell := x.xf.frame.cells[k]?
    let x := if x.began then x else { x with began := true, beganSeq := s.seq }
    let s := { s with seq := s.seq + 1 }
    let (bad, s) := cellRead r.i r.o cell s
    let x := if bad then { x with xf := { x.xf with frame := { x.xf.frame with poison := true } } } else x
    let (ptr, s) := match cell with
      | some m => if r.i = 12 ∨ k + 1 = n then (OdRead.clean, s) else odRead 2 r.i m s
      | none => (OdRead.clean, s)
    if ptr = .bad then chainLost r.i r.o r.c k x s
    else
      let x := { x with cellsLeft := x.cellsLeft - 1 }
      if x.cellsLeft = 0 then lastCell r.i r.o r.c x s else s.setCtx r.i r.o r.c x

/-- One iteration among the inputs and outputs not yet matched: the requests that are met. -/
def xbrIterate (reqs : List XReq) (s : State) : List XReq × State :=
  let (grants, s) := (List.range 13).foldl (fun (a : List XReq × State) o =>
    match xbrGrant a.2 o reqs with
    | none => a
    | some (r, x) => (a.1 ++ [r], { a.2 with xbr := aset o x a.2.xbr })) ([], s)
  let taken := (List.range 13).filterMap fun i =>
    (grants.filter fun r => r.i == i).foldl (fun (b : Option XReq) r =>
      match b with
      | none => some r
      | some y => if xbrBetter r y then some r else some y) none
  (taken, taken.foldl cellSend s)

/-- XBR_CELL_TRANSFER (R264, R265): one slot, of two iterations. -/
def execXbrCellTransfer (s : State) : Out :=
  act s fun s =>
    let s := hostRefusals ((List.range 12).foldl contextsFill ((List.range 13).foldl refusalsSettle s))
    let reqs := xbrRequests s
    let (m, s) := xbrIterate reqs s
    let rest := reqs.filter fun r => !(m.any fun x => x.i == r.i || x.o == r.o)
    (xbrIterate rest s).2

end Sys2Proof.Machine
end

