-- ==== Sys2Proof/Machine/Landing.lean ====
section
/-! DEFINITION. What lands at the output of the crossbar (R267, R288 to R291), egress learning (R120), multicast copies
(R270, R273), injected frames (R261, R346), and the multicast commands (R274). -/
namespace Sys2Proof.Machine

/-! ### Egress learning (R120) -/

/-- EGRESS_OBSERVE: a frame that landed for local ports qs is observed once. In Thaw service every enable counts as 1,
and the key is that of R420. -/
def egressObserve (st : Nat) (qs : List Nat) (f : Frame) (s : State) : State :=
  let full := s.full st
  let enabled := !full || (f.learn && s.cfgB (Reg.EPT_CFG st) Fld.EPT_CFG_EGRESS_LEARN
    && qs.any fun q => s.cfgB (Reg.EPT_PORT st q) Fld.EPT_PORT_EGR_LEARN_EN)
  match f.fid with
  | none => s
  | some fid =>
    if f.inj || decide (144 ≤ f.inPort) || stationOf f.inPort == st || f.thaw == full || !enabled || badSource f.bytes
    then s
    else
      let k : EptKey := { guild := if full then f.guild else 0, fid := fid, mac := be f.bytes 6 6 }
      observe st k f.inPort true (eptCheck st k s)

/-! ### Unicast -/

/-- A frame takes n blocks in the egress buffer, at places that are free values; their writes take a planted error
(MEM 3). A block stands for its words (DESIGN CHOICE, log 43). -/
def egrBlocks (st : Nat) : Nat → State → List Nat × State
  | 0, s => ([], s)
  | n + 1, s =>
    let (d, s) := s.drawNat
    let w := 32 * (d % 6144)
    let (r, s) := egrBlocks st n (odWrite 3 st w s)
    (w :: r, s)

def egrStore (st n : Nat) (s : State) : List Nat × State := egrBlocks st n (energy st 1 5 s)

/-- A unicast frame lands (R267, R288, R291). -/
def landUnicast (st : Nat) (x : Context) (s : State) : State :=
  let f := x.xf.frame
  let p := x.xf.dest
  let gone (s : State) : State := frameGone st f (ctxRelease st x s)
  if f.poison then gone s
  else if x.down || !s.linkUp p then gone (pcnt p 1 s)
  else if x.noRoom then gone ((pcnt p 5 s).raise (Reg.EGR_EVENT st) Fld.EGR_EVENT_XNO_ROOM)
  else
    let (ws, s) := egrStore st (cellsOf f.len) s
    let ef : EFrame := { frame := f, tc := x.xf.tc, blocks := cellsOf f.len, landed := s.now, chMin := x.minCh
                         chShared := x.sharedCh, chExp := x.expCh, words := ws }
    egressObserve st [localOf p] f (egrEnqueue p ef s)

/-- FRAME_LAND (R267); an inject's last cell has landed in its target station, where it waits for its token (R346). -/
def execFrameLand (st : Station) (input : Fin 13) (cls : Fin 8) (s : State) : Out :=
  act s fun s =>
    let st := st.val
    let i := input.val
    let c := cls.val
    match s.ctx? i st c with
    | none => s
    | some x =>
      if x.cellsLeft ≠ 0 then s
      else match x.xf.kind with
        | .unicast => landUnicast st x (s.delCtx i st c)
        | .inject =>
          let s := s.delCtx i st c
          if x.xf.frame.poison then dropFrame st x.xf.frame s else laneEnqueue st x.xf.frame s
        | .mcCopy => s

/-! ### Multicast copies (R270, R289) -/

/-- A port's copy is refused (R270): counted as MC_REFUSED of that port. Every copy that is dropped is a frame dropped
(DEDUCED, log 80). -/
def copyRefused (p : Nat) (f : Frame) (s : State) : State :=
  frameGone (stationOf p) f (s.tick (Reg.SWC_PCNT_LO (stationOf p) (localOf p) 3))

/-- The admitted copies of a frame are stored once, and enter their queues. -/
def copyStore (st : Nat) (ports : List Nat) (xf : XFrame) (sharedCh expCh : Nat) (s : State) : State :=
  let f := xf.frame
  let k := (s.stn st).egress.nextCopy
  let s := s.modEgress st fun e =>
    { e with nextCopy := k + 1, copies := aset k ⟨sharedCh, expCh, ports.length⟩ e.copies
             sharedUsed := e.sharedUsed + sharedCh, expUsed := e.expUsed + expCh }
  let (ws, s) := egrStore st (cellsOf f.len) s
  let ef : EFrame := { frame := f, tc := xf.tc, blocks := cellsOf f.len, landed := s.now, copy := some k, words := ws }
  let s := ports.foldl (fun s p => egrEnqueue p ef (pcnt p 4 s)) s
  egressObserve st (ports.map localOf) f s

/-- A copy lands for the member ports of a station: each admits or refuses it, SHARED_FREE being measured before the
copy's charge (R289). The number refused. A copy of a group that has lost its members there since is dropped (DEDUCED,
log 144). -/
def copyLand (st : Nat) (x : Context) (s : State) : Nat × State :=
  let s := ctxRelease st x s
  let xf := x.xf
  let f := xf.frame
  let n := cellsOf f.len
  let c := xf.tc
  let members := membersOf (mcPorts s xf.hairpin xf) st
  let free := egrSharedFree s st
  let bad := members.filter fun p => !s.validDest p
  let valid := members.filter fun p => s.validDest p
  let down := valid.filter fun p => !s.linkUp p
  let up := valid.filter fun p => s.linkUp p
  let fits (p : Nat) : Bool :=
    c == 7 || leAlpha (s.get (Reg.EGR_CLASS st (localOf p) c) Fld.EGR_CLASS_ALPHA) (egrDepth s p c + n) free
  let full := up.filter fun p => !fits p
  let good := up.filter fits
  let s := if members.isEmpty then frameGone st f s else s
  let s := (bad ++ full).foldl (fun s p => copyRefused p f s) s
  let s := down.foldl (fun s p => frameGone st f (pcnt p 1 s)) s
  let s :=
    if good.isEmpty then s
    else if x.noRoom then
      (good.foldl (fun s p => frameGone st f (pcnt p 5 s)) s).raise (Reg.EGR_EVENT st) Fld.EGR_EVENT_XNO_ROOM
    else copyStore st good xf x.sharedCh x.expCh s
  ((bad ++ full).length, s)

/-- MC_COPY_LAND (R270): the target's count goes back to the ingress station, where a queue still holds the frame. -/
def execMcCopyLand (st : Station) (target : Station) (cls : Fin 8) (s : State) : Out :=
  act s fun s =>
    let st := st.val
    let o := target.val
    let c := cls.val
    match s.ctx? st o c with
    | none => s
    | some x =>
      if x.cellsLeft ≠ 0 ∨ x.xf.kind ≠ .mcCopy then s
      else
        let s := s.delCtx st o c
        let (n, s) := if x.xf.frame.poison then (0, frameGone o x.xf.frame (ctxRelease o x s)) else copyLand o x s
        if x.lone then s
        else modHead st c (fun h => { h with waiting := h.waiting.filter (· != o), refused := h.refused + n }) s

/-! ### Injects (R261, R346) -/

/-- The INJ ring of an inject as one number. -/
def injKey (j : Inject) : Nat := 1024 * j.guild + j.ring

/-- The first inject of each ring that waits for a station; a ring with one that crosses waits (R346). -/
def injHeads (s : State) (st : Nat) : List Inject :=
  let mine := s.hif.injects.filter fun j => j.station == st
  mine.foldl (fun l j => if l.any fun x => injKey x == injKey j then l else l ++ [j]) []
    |>.filter fun j => !j.crossing && !(mine.any fun x => x.crossing && injKey x == injKey j)

/-- R261: the inject finds room under the limit and in SHARED, and its context free. -/
def injFits (s : State) (st : Nat) (j : Inject) : Bool :=
  let n := cellsOf j.frame.len
  (s.ctx? 12 st j.frame.cls).isNone
    && decide ((s.stn st).core.injUsed + n ≤ s.get (Reg.SWC_INJ st) Fld.SWC_INJ_LIMIT
      ∧ n ≤ ingSharedFree s st ∧ n ≤ cellsFree s st)

/-- The ring that the round robin over rings reaches next. -/
def injNext (s : State) (st : Nat) : Option Inject :=
  let last := aget? st s.hif.injRr
  let far (j : Inject) : Nat := match last with
    | some l => (injKey j + 2 * 8192 - l - 1) % 8192
    | none => injKey j
  ((injHeads s st).filter (injFits s st)).foldl (fun (b : Option Inject) j =>
    match b with
    | none => some j
    | some y => if far j < far y then some j else some y) none

/-- A staged inject leaves the host interface without crossing: its block is free again. -/
def injectGone (j : Inject) (s : State) : State :=
  let s := { s with hif := { s.hif with injects := s.hif.injects.filter (· != j) } }
  frameGone j.station j.frame (coopPush j.pool j.block s)

/-- The inject is granted: its cells are taken and charged, and its crossing begins. -/
def injectCross (st : Nat) (j : Inject) (s : State) : State :=
  match unstage j.pool j.block j.frame.bytes.length s with
  | (none, s) => injectGone j s
  | (some b, s) =>
    let n := cellsOf j.frame.len
    let (cs, s) := takeCells st n s
    let f := { j.frame with bytes := b, cells := cs, chShared := n, chInj := n }
    let s := s.modCore st fun c => { c with injUsed := c.injUsed + n }
    let s := chargeShared st 255 f.cls n s
    let js := s.hif.injects.map fun x => if x = j then { x with crossing := true } else x
    let s := { s with hif := { s.hif with injects := js, injRr := aset st (injKey j) s.hif.injRr } }
    let x : Context := { xf := { frame := f, kind := .inject, dest := st, tc := f.cls, guild := f.guild }, cellsLeft := n }
    xoffUpdate st (s.setCtx 12 st f.cls x)

/-- INJECT_GRANT (R261): not to a station in Thaw service (R420) or in a drain (R283). -/
def execInjectGrant (st : Station) (s : State) : Out :=
  act s fun s =>
    let st := st.val
    if !s.full st || (s.stn st).draining then s
    else match injNext s st with
      | some j => injectCross st j s
      | none => s

/-! ### Commands (R273, R274) -/

/-- MC_SET: the group is written in all twelve replicas. -/
def execMcSet (g : Guild) (ring : Fin 1024) (s : State) : Out :=
  act s (onCmd g.val ring.val 0x48 fun c s =>
    let m := descField c.desc 0 14
    let ports := descField c.desc 32 152
    let foreign := match aget? m s.groups with | some e => e.guild != g.val | none => false
    let bad := decide (2 ^ 145 ≤ ports) || (List.range 144).any fun p => ports.testBit p && s.portGuild p != g.val
    if foreign then complete g.val ring.val 0x48 [] s
    else if bad then complete g.val ring.val 0x49 [] s
    else
      let e : McGroup := { guild := g.val, hairpin := descField c.desc 17 1 == 1, ports := ports }
      let gs := if descField c.desc 16 1 = 1 then aset m e s.groups else adel m s.groups
      completeOk g.val ring.val [] { s with groups := gs })

/-- MC_READ: the group's entry is copied to host memory. -/
def execMcRead (g : Guild) (ring : Fin 1024) (s : State) : Out :=
  act s (onCmd g.val ring.val 0x49 fun c s =>
    match aget? (descField c.desc 0 14) s.groups with
    | none => complete g.val ring.val 0x4A [] s
    | some e =>
      if e.guild ≠ g.val then complete g.val ring.val 0x48 [] s
      else
        let img := leBytes 19 e.ports ++ leBytes 1 (128 + bitAt e.hairpin 3 + e.guild) ++ zeros 12
        completeOk g.val ring.val [] (dmaWrite g.val (descField c.desc 64 64) img s))

end Sys2Proof.Machine
end

