-- ==== Sys2Proof/Machine/Cells.lean ====
section
/-! DEFINITION. Freed cells, the Moraine sweeps and the drains (R276, R280 to R285). -/
namespace Sys2Proof.Machine

/-- CEL_FREE_WRITE (R276). -/
def celFreeWrite (st : Nat) (value : Word) (s : State) : State := freeCell st s (Fld.CEL_FREE_INDEX.of value)

def execCelFreeWrite (st : Station) (value : Word) (s : State) : Out := act s (celFreeWrite st.val value)

/-! ### Reports (R282) -/

/-- A finding of a sweep: kind (0 FREE_HELD, 1 LEAK, 2 DUPLICATE, 3 RECLAIM), holder, copies, pool, index, queue. -/
structure Finding where
  kind : Nat
  holder : Nat := 15
  copies : Nat := 0
  pool : Nat := 0
  index : Nat
  queue : Nat := 0
  deriving DecidableEq, Repr

def morEvent (station pass : Nat) (x : Finding) (s : State) : State :=
  postEvent 0 (0x40 + x.kind)
    (leBytes 1 station ++ leBytes 1 x.pool ++ leBytes 1 x.holder ++ leBytes 1 (min 255 x.copies) ++ leBytes 4 x.index
      ++ leBytes 2 pass ++ leBytes 2 x.queue) s

/-- MORAINE_REPORT of a station: a reclaim has an event alone. -/
def morReport (st pass : Nat) (s : State) (x : Finding) : State :=
  let s := morEvent st pass x (s.tick (Reg.MOR_CNT_LO st (x.kind + if x.kind = 3 then 0 else 1)))
  if x.kind = 3 then s
  else
    let s := s.raise (Reg.MOR_EVENT st) (if x.kind = 0 then Fld.MOR_EVENT_FREE_HELD else Fld.MOR_EVENT_LEAK)
    let a := Reg.MOR_LAST st
    if s.getB a Fld.MOR_LAST_VALID then s
    else (((s.raise a Fld.MOR_LAST_VALID).put a Fld.MOR_LAST_KIND x.kind).put a Fld.MOR_LAST_HOLDER x.holder).put a
      Fld.MOR_LAST_INDEX x.index

/-- Index of a finding's counter among COOP_CNT. -/
def coopCntIndex (kind : Nat) : Nat :=
  match kind with
  | 0 => 4
  | 1 => 5
  | 2 => 6
  | _ => 7

/-- MORAINE_REPORT of the Cooperage. -/
def coopReport (pass : Nat) (s : State) (x : Finding) : State :=
  let s := morEvent 0xFF pass x (s.tick (Reg.COOP_CNT_LO (coopCntIndex x.kind)))
  if x.kind = 3 then s
  else
    let s := s.raise Reg.MOR_POOL_EVENT
      (match x.kind with
       | 0 => Fld.MOR_POOL_EVENT_FREE_HELD
       | 1 => Fld.MOR_POOL_EVENT_LEAK
       | _ => Fld.MOR_POOL_EVENT_DUPLICATE)
    let a := Reg.MOR_POOL_LAST
    if s.getB a Fld.MOR_POOL_LAST_VALID then s
    else
      let s := ((s.raise a Fld.MOR_POOL_LAST_VALID).put a Fld.MOR_POOL_LAST_KIND x.kind).put a
        Fld.MOR_POOL_LAST_HOLDER x.holder
      (s.put a Fld.MOR_POOL_LAST_POOL x.pool).put a Fld.MOR_POOL_LAST_INDEX x.index

/-- A target of MOR_SWEEP has finished its sweep, with n reports: the command completes after the last. -/
def sweepAnswered (n : Nat) (s : State) (r : CmdRef) : State :=
  match waitingCmd s r.1 r.2 0x52 with
  | none => s
  | some c =>
    if c.left ≤ 1 then completeOk r.1 r.2 (leBytes 4 (c.acc + n)) s
    else s.modCmd r.1 r.2 fun c => { c with left := c.left - 1, acc := c.acc + n }

/-! ### Cell sweeps (R280) -/

/-- A sweep begins. -/
def cellSweepBegin (st : Nat) (s : State) : State :=
  if (s.stn st).sweep.running then s
  else (s.modStn st fun n =>
      { n with sweep := { n.sweep with running := true, touched := []
                                       reclaim := s.getB (Reg.MOR_CFG st) Fld.MOR_CFG_RECLAIM } }).raise
    (Reg.MOR_STATUS st) Fld.MOR_STATUS_RUNNING

/-- CELL_SWEEP_START: the periodic start, while EN is 1. -/
def execCellSweepStart (st : Station) (s : State) : Out :=
  act s fun s => if s.getB (Reg.MOR_CFG st.val) Fld.MOR_CFG_EN then cellSweepBegin st.val s else s

/-- The cells of a held frame that are free: a growth cell is among the last of its frame. -/
def freeHeld (taken : List Nat) (x : Nat × Nat × Frame) : List Finding :=
  let f := x.2.2
  (f.cells.zipIdx.filter fun c => !taken.contains c.1).map fun c =>
    { kind := 0, holder := if f.cells.length - f.growth ≤ c.2 then 5 else x.1, index := c.1, queue := x.2.1 }

/-- Leaked cells of a station: neither free, nor held, nor touched. -/
def cellLeaks (s : State) (st : Nat) : List Nat :=
  let held := (heldFrames s st).flatMap fun x => x.2.2.cells
  (s.stn st).core.taken.filter fun c => !held.contains c && !(s.stn st).sweep.touched.contains c

/-- CELL_SWEEP_END. -/
def execCellSweepEnd (st : Station) (s : State) : Out :=
  act s fun s =>
    let st := st.val
    let w := (s.stn st).sweep
    if !w.running then s
    else
      let n := (s.get (Reg.MOR_STATUS st) Fld.MOR_STATUS_PASSES + 1) % 65536
      let s := (s.put (Reg.MOR_STATUS st) Fld.MOR_STATUS_RUNNING 0).put (Reg.MOR_STATUS st) Fld.MOR_STATUS_PASSES n
      let s := s.tick (Reg.MOR_CNT_LO st 0)
      let leaks := cellLeaks s st
      let back := if w.reclaim then leaks.filter w.leaked.contains else []
      let finds : List Finding :=
        (heldFrames s st).flatMap (freeHeld (s.stn st).core.taken) ++ leaks.map (fun c => { kind := 1, index := c })
          ++ back.map fun c => { kind := 3, index := c }
      let s := s.modStn st fun x =>
        { x with sweep := { running := false, touched := [], leaked := leaks.filter fun c => !back.contains c
                            waiters := [] } }
      let s := back.foldl (freeCell st) (finds.foldl (morReport st n) s)
      w.waiters.foldl (sweepAnswered finds.length) s

/-! ### Pool sweeps (R281) -/

def poolSweepBegin (s : State) : State :=
  if s.coop.sweep.running then s
  else { s with coop := { s.coop with sweep := { s.coop.sweep with
        running := true, touched := [], reclaim := s.getB Reg.MOR_POOL_CFG Fld.MOR_POOL_CFG_RECLAIM } } }.raise
    Reg.MOR_POOL_STATUS Fld.MOR_POOL_STATUS_RUNNING

/-- POOL_SWEEP_START: the periodic start, while EN is 1. -/
def execPoolSweepStart (s : State) : Out :=
  act s fun s => if s.getB Reg.MOR_POOL_CFG Fld.MOR_POOL_CFG_EN then poolSweepBegin s else s

/-- Copies of a block on a stack. -/
def stackCopies (s : State) (n k : Nat) : Nat :=
  let x := s.stack n
  x.pushed.count k
    + (if stackFirst s n ≤ k ∧ k < stackFirst s n + stackBlocks s n ∧ x.gone.contains k = false then 1 else 0)

/-- The holders of blocks in use: the stack that the block belongs to, block, holder code. -/
def blockHolders (s : State) : List (Nat × Nat × Nat) :=
  s.hif.injects.map (fun j => (stackOf s j.pool j.block, j.block, 6))
    ++ s.hif.guilds.flatMap (fun g => g.2.punts.map fun p => (stackOf s p.pool p.block, p.block, 7))
    ++ s.coop.hkHolders.map fun h => (stackOf s 4 h.1, h.1, 8 + h.2)

/-- Blocks of a stack found on it more than once. -/
def stackDups (s : State) (n : Nat) : List Finding :=
  (((s.stack n).pushed.eraseDups).filter fun k => decide (1 < stackCopies s n k)).map fun k =>
    { kind := 2, copies := stackCopies s n k, pool := n, index := k }

/-- Blocks on no stack, held by nothing and untouched. -/
def stackLeaks (s : State) (n : Nat) : List (Nat × Nat) :=
  ((s.stack n).gone.filter fun k =>
    stackCopies s n k == 0 && !((blockHolders s).any fun h => h.1 == n && h.2.1 == k)
      && !s.coop.sweep.touched.contains (coopKey n k)).map fun k => (n, k)

/-- POOL_SWEEP_END. -/
def execPoolSweepEnd (s : State) : Out :=
  act s fun s =>
    let w := s.coop.sweep
    if !w.running then s
    else
      let n := (s.get Reg.MOR_POOL_STATUS Fld.MOR_POOL_STATUS_PASSES + 1) % 65536
      let s := (s.put Reg.MOR_POOL_STATUS Fld.MOR_POOL_STATUS_RUNNING 0).put Reg.MOR_POOL_STATUS Fld.MOR_POOL_STATUS_PASSES n
      let s := s.tick (Reg.COOP_CNT_LO 3)
      let leaks := (List.range 5).flatMap (stackLeaks s)
      let back := if w.reclaim then
          leaks.filter fun x => w.leaked.contains (coopKey x.1 x.2) else []
      let finds : List Finding :=
        (List.range 5).flatMap (stackDups s)
          ++ ((blockHolders s).filter fun h => stackCopies s h.1 h.2.1 != 0).map
            (fun h => { kind := 0, holder := h.2.2, pool := h.1, index := h.2.1 })
          ++ leaks.map (fun x => { kind := 1, pool := x.1, index := x.2 })
          ++ back.map fun x => { kind := 3, pool := x.1, index := x.2 }
      let left := (leaks.filter fun x => !back.contains x).map fun x => coopKey x.1 x.2
      let s := { s with coop := { s.coop with sweep := { running := false, touched := [], leaked := left, waiters := [] } } }
      let s := back.foldl (fun s x => coopPush x.1 x.2 s) (finds.foldl (coopReport n) s)
      w.waiters.foldl (sweepAnswered finds.length) s

/-- MOR_SWEEP (R285): a target that sweeps already finishes its present sweep. -/
def execMorSweep (g : Guild) (ring : Fin 1024) (s : State) : Out :=
  act s (onCmd g.val ring.val 0x52 fun c s =>
    let m := descField c.desc 0 12
    let pools := descField c.desc 15 1 == 1
    if m = 0 ∧ pools = false then complete g.val ring.val 0x52 [] s
    else
      let r : CmdRef := (g.val, ring.val)
      let sts := stationsOf m
      let s := s.modCmd g.val ring.val fun c => { c with began := true, left := sts.length + pools.toNat }
      let s := sts.foldl (fun s st => (cellSweepBegin st s).modStn st fun n =>
        { n with sweep := { n.sweep with waiters := n.sweep.waiters ++ [r] } }) s
      if pools then
        let s := poolSweepBegin s
        { s with coop := { s.coop with sweep := { s.coop.sweep with waiters := s.coop.sweep.waiters ++ [r] } } }
      else s)

/-! ### Drains (R283, R284) -/

/-- A drain is in progress. -/
def drainRuns (s : State) : Bool := s.poolDrain.isSome || s.stations.any fun e => e.2.draining

/-- MOR_STN_DRAIN. -/
def execMorStnDrain (g : Guild) (ring : Fin 1024) (s : State) : Out :=
  act s (onCmd g.val ring.val 0x50 fun c s =>
    let st := descField c.desc 0 4
    if 11 < st then complete g.val ring.val 0x52 [] s
    else if drainRuns s then complete g.val ring.val 0x50 [] s
    else
      let n := s.cntGet (Reg.MOR_CNT_LO st 4)
      drainBegin st (some (g.val, ring.val)) (s.modCmd g.val ring.val fun c => { c with began := true, acc := n }))

/-- A frame that a drain discards (step 3). -/
def drainDrop (st : Nat) (s : State) (f : Frame) : State := dropFrame st f (s.tick (Reg.MOR_CNT_LO st 4))

/-- A task that a drain finds in its slot at the time-out: it gives up what it holds, and its frame is dropped. -/
def drainTask (st : Nat) (drop : Nat → State → Frame → State) (s : State) (k : Nat) : State :=
  let s := s.modTasks st fun ts =>
    { ts with engines := ts.engines.filter fun e => e.2.task != k
              stop := ts.stop.filter fun e => !(ts.engines.any fun x => x.1 == e && x.2.task == k) }
  let s := taskKill st k s
  match s.task? st k with
  | none => s
  | some t =>
    let s := s.modTasks st fun ts =>
      { ts with slots := adel k ts.slots, laneR := ts.laneR.filter (· != k)
                orqs := ts.orqs.filterMap fun e =>
                  let l := e.2.filter (· != k)
                  if l.isEmpty then none else some (e.1, l) }
    drop st (drainAdd st t.tagGuild t.tag (-1) s) t.frame

/-- Every frame that a station holds outside its task slots and before its crossing is dropped: those that wait for a
token or are held by REORDER, those in VOQs and multicast queues. -/
def queuesPurge (st : Nat) (drop : Nat → State → Frame → State) (s : State) : State :=
  let ts := (s.stn st).tasks
  let core := (s.stn st).core
  let held := s.tinker.heldRx.filter fun h => stationOf h.port == st
  let frames := ts.laneX ++ ts.laneN ++ held.map HeldRx.frame
    ++ (core.voqs.flatMap Prod.snd ++ core.mcqs.flatMap Prod.snd).map XFrame.frame
  let s := s.modTasks st fun ts => { ts with laneX := [], laneN := [], whole := [], stalled := [], stallCounted := [] }
  let idle (e : Nat × Context) : Bool := e.2.copies && !e.2.began
  let s := (core.contexts.filter idle).foldl (fun s e => ctxRelease (e.1 / 8) e.2 s) s
  let s := s.modCore st fun c =>
    { c with voqs := [], mcqs := [], mcHeads := []
             contexts := (c.contexts.filter fun e => !idle e).map fun e =>
               (e.1, { e.2 with lone := e.2.xf.kind == .mcCopy }) }
  let s := queuesWrite st (core.voqs.map (fun q => voqWord q.1) ++ core.mcqs.map fun q => voqWord (1160 + q.1)) s
  let s := { s with tinker := { s.tinker with heldRx := s.tinker.heldRx.filter fun h => stationOf h.port != st } }
  let mine (l : List Nat) : List Nat := l.filter fun k => k / 1168 != st
  let s := (List.range 13).foldl (fun s o => setRefused o (mine (refusedAt s o)) s) s
  frames.foldl (drop st) s

/-- Every frame that a station holds before its crossing is dropped. -/
def stationPurge (st : Nat) (drop : Nat → State → Frame → State) (s : State) : State :=
  queuesPurge st drop (((s.stn st).tasks.slots.map Prod.fst).foldl (drainTask st drop) s)

/-- What a port has in reassembly gives up its cells: it takes others as the frame goes on (DESIGN CHOICE, log 120). -/
def dropArrival (x : PortSt) : PortSt :=
  { x with mac := { x.mac with reasm := x.mac.reasm.map fun r => { r with arrival := {} } } }

/-- Step 4: every cell is free and every charge zero; the leak history is cleared. -/
def cellsRebuild (st : Nat) (s : State) : State :=
  let bare (f : Frame) : Frame := { f with cells := [], growth := 0, chShared := 0, chHead := 0, chExp := 0, chInj := 0 }
  let s := s.modCore st fun c =>
    { c with taken := [], sharedUsed := 0, expUsed := 0, injUsed := 0, growthUsed := 0, headUsed := [], rsvUsed := []
             u := []
             contexts := c.contexts.map fun e => (e.1, { e.2 with xf := { e.2.xf with frame := bare e.2.xf.frame } }) }
  let s := s.modStn st fun n => { n with sweep := { n.sweep with leaked := [] } }
  let parts := s.ports.map fun e => if stationOf e.1 = st then (e.1, dropArrival e.2) else e
  let s := { s with ports := parts }
  (List.range 12).foldl (fun s i => s.put (Reg.SWC_PORT_STATUS st i) Fld.SWC_PORT_STATUS_HEAD_USED 0) s

/-- Steps 4 and 5: XOFF is released, and intake resumes. -/
def drainEnd (st : Nat) (s : State) : State :=
  let s := (cellsRebuild st s).modStn st fun n => { n with draining := false, drain := none, yields := false }
  xoffUpdate st (s.put (Reg.MOR_STATUS st) Fld.MOR_STATUS_DRAINING 0)

/-- STN_DRAIN_QUIESCED: what the station still holds at the time-out is dropped (DEDUCED, log 83). -/
def execStnDrainQuiesced (st : Station) (s : State) : Out :=
  act s fun s =>
    let st := st.val
    if !(s.stn st).draining then s
    else
      let r := (s.stn st).drain
      let s := drainEnd st (stationPurge st (if (s.stn st).yields then yieldDrop else drainDrop) s)
      match r with
      | none => s
      | some r => match waitingCmd s r.1 r.2 0x50 with
        | some c => completeOk r.1 r.2 (leBytes 4 (s.cntGet (Reg.MOR_CNT_LO st 4) - c.acc)) s
        | none => s

/-- MOR_POOL_DRAIN: refused unless HK2 and HK3 are halted. -/
def execMorPoolDrain (g : Guild) (ring : Fin 1024) (s : State) : Out :=
  act s (onCmd g.val ring.val 0x51 fun _ s =>
    if drainRuns s then complete g.val ring.val 0x50 [] s
    else if hkState s 2 ≠ 0 ∨ hkState s 3 ≠ 0 then complete g.val ring.val 0x51 [] s
    else
      let n := s.cntGet (Reg.COOP_CNT_LO 8)
      let s := s.modCmd g.val ring.val fun c => { c with began := true, acc := n }
      { s with poolDrain := some (g.val, ring.val) }.raise Reg.MOR_POOL_STATUS Fld.MOR_POOL_STATUS_DRAINING)

/-- A staged inject that a pool drain finds unfinished is dropped, with the cells it crosses into. -/
def poolDrainInject (s : State) (j : Inject) : State :=
  let s := s.tick (Reg.COOP_CNT_LO 8)
  let s := { s with hif := { s.hif with injects := s.hif.injects.filter (· != j) } }
  match j.crossing, s.ctx? 12 j.station j.frame.cls with
  | true, some x => dropFrame j.station x.xf.frame (s.delCtx 12 j.station j.frame.cls)
  | _, _ => frameGone j.station j.frame s

/-- A staged punt that it finds unfinished is dropped. -/
def poolDrainPunt (g : Nat) (s : State) (x : Punt) : State :=
  let s := s.tick (Reg.COOP_CNT_LO 8)
  frameGone x.station x.xf.frame (s.modGuild g fun h => { h with punts := h.punts.filter (· != x), puntBytes := 0 })

/-- POOL_DRAIN_QUIESCED: the five stacks are rebuilt, and acceptance resumes. -/
def execPoolDrainQuiesced (s : State) : Out :=
  act s fun s =>
    match s.poolDrain with
    | none => s
    | some r =>
      let s := s.hif.injects.foldl poolDrainInject s
      let s := s.hif.guilds.foldl (fun s e => e.2.punts.foldl (poolDrainPunt e.1) s) s
      let w := { s.coop.sweep with leaked := [] }
      let s := { s with coop := { s.coop with freeStacks := [], hkHolders := [], refusing := [], sweep := w }
                        poolDrain := none }
      let s := s.put Reg.MOR_POOL_STATUS Fld.MOR_POOL_STATUS_DRAINING 0
      match waitingCmd s r.1 r.2 0x51 with
      | some c => completeOk r.1 r.2 (leBytes 4 (s.cntGet (Reg.COOP_CNT_LO 8) - c.acc)) s
      | none => s

end Sys2Proof.Machine
end

