-- ==== Sys2Proof/Machine/Irq.lean ====
section
/-! DEFINITION. The interrupt controller (ch. 19): levels, pending, choosing and claiming, completing, signalling,
disabling and the window of R363. -/
namespace Sys2Proof.Machine

/-! ### Sources (R352 to R354) -/

/-- A source that has an enable, a priority and a route: shared or message. -/
def irqRouted (n : Nat) : Bool := decide ((32 ≤ n ∧ n < 544) ∨ (1024 ≤ n ∧ n < 3072))

def irqPrivate (n : Nat) : Bool := decide (16 ≤ n ∧ n < 32)

/-- Two registers share a set bit. -/
def eventHigh (s : State) (ev en : Nat) : Bool := (s.rd ev &&& s.rd en) != 0#32

/-- Level of a station's source k (Table 19.3). -/
def stationLevel (s : State) (st k : Nat) : Bool :=
  let ports (ev en : Nat → Nat) : Bool := (List.range 12).any fun i => eventHigh s (ev (12 * st + i)) (en (12 * st + i))
  match k with
  | 0 => ports Reg.LANE_EVENT Reg.LANE_EVENT_EN
  | 1 => ports Reg.MAC_EVENT Reg.MAC_EVENT_EN
  | 2 => eventHigh s (Reg.ICE_EVENT st) (Reg.ICE_EVENT_EN st)
  | 3 => eventHigh s (Reg.RUL_EVENT st) (Reg.RUL_EVENT_EN st)
  | 4 => eventHigh s (Reg.STN_AE_EVENT st) (Reg.STN_AE_EVENT_EN st)
  | 5 => eventHigh s (Reg.TSK_EVENT st) (Reg.TSK_EVENT_EN st)
  | 6 => eventHigh s (Reg.SWC_EVENT st) (Reg.SWC_EVENT_EN st)
  | 7 => eventHigh s (Reg.MOR_EVENT st) (Reg.MOR_EVENT_EN st)
  | 8 => eventHigh s (Reg.EGR_EVENT st) (Reg.EGR_EVENT_EN st)
  | _ => false

/-- TNK_DONE: some port has DONE set in its event and its enable (R400). -/
def tnkDone (s : State) : Bool :=
  (List.range 144).any fun p =>
    s.get (Reg.TNK_PEVENT (p / 12) (p % 12)) Fld.TNK_PEVENT_DONE
      &&& s.get (Reg.TNK_PEVENT_EN (p / 12) (p % 12)) Fld.TNK_PEVENT_EN_DONE != 0

/-- Level of a shared source (Table 19.3, R377, R388, R400, R411, R427). -/
def sharedLevel (s : State) (n : Nat) : Bool :=
  if n < 224 then stationLevel s ((n - 32) / 16) ((n - 32) % 16)
  else if n < 240 then
    match n with
    | 224 => s.getB Reg.PWR_AVS_STATUS Fld.PWR_AVS_STATUS_BUSERR || s.getB Reg.PWR_AVS_STATUS Fld.PWR_AVS_STATUS_SHORT
    | 225 => s.getB Reg.THM_STATUS Fld.THM_STATUS_CRIT
    | 226 => s.getB Reg.THM_STATUS Fld.THM_STATUS_SENSOR_FAULT
    | 227 => s.getB Reg.FTM_STATUS Fld.FTM_STATUS_NOROOM
    | 228 => eventHigh s Reg.VRV_EVENT Reg.VRV_EVENT_EN
    | 229 => eventHigh s Reg.HIF_EVENT Reg.HIF_EVENT_EN
    | 230 => eventHigh s Reg.MOR_POOL_EVENT Reg.MOR_POOL_EVENT_EN
    | _ => n < 235 && s.getB (Reg.UCS_HK_STATUS (n - 231)) Fld.UCS_HK_STATUS_FAULT
  else if n < 246 then (s.rdN Reg.HBM_EVENT &&& s.rdN Reg.HBM_EVENT_EN).testBit (n - 240)
  else if n = 248 then
    (List.range 24).any fun i => eventHigh s (Reg.STN_EV_OVF (i / 2) (i % 2)) (Reg.STN_EV_OVF_EN (i / 2) (i % 2))
  else if n = 249 then eventHigh s Reg.TLY_EVENT Reg.TLY_EVENT_EN
  else if 256 ≤ n ∧ n < 259 then (s.rdN Reg.TNK_ERR_EVENT &&& s.rdN Reg.TNK_ERR_EVENT_EN).testBit (n - 256)
  else if n = 259 then tnkDone s && s.getB Reg.TNK_ERR_EVENT_EN Fld.TNK_ERR_EVENT_EN_TNK_DONE
  else if n = 272 then eventHigh s Reg.MATE_EVENT Reg.MATE_EVENT_EN
  else if 280 ≤ n ∧ n < 286 then (s.rdN Reg.BOOT_EVENT &&& s.rdN Reg.BOOT_EVENT_EN).testBit (n - 280)
  else false

/-- Level of private source n of target t. -/
def privateLevel (s : State) (t n : Nat) : Bool :=
  if 24 ≤ n then (s.get (Reg.IRQ_TGT_SOFT t) Fld.IRQ_TGT_SOFT_LEVEL).testBit (n - 24)
  else if t < 4 then false
  else
    let g := t - 4
    if n = 16 then
      let a := Reg.VRV_TXQ_CTL g
      let th := s.get a Fld.VRV_TXQ_CTL_THRESH
      s.getB a Fld.VRV_TXQ_CTL_OVF || (th != 0 && decide (th ≤ s.get a Fld.VRV_TXQ_CTL_COUNT))
    else n == 17 && s.rdN (Reg.GLD_STATUS g) / 2 ^ 28 != 0

/-- Level of a level source; for a private one, of target t. -/
def irqLevel (s : State) (t n : Nat) : Bool :=
  if irqPrivate n then privateLevel s t n else irqRouted n && decide (n < 1024) && sharedLevel s n

/-- Enable bit of a source. -/
def irqEnBit (s : State) (t n : Nat) : Bool :=
  if irqPrivate n then (s.get (Reg.IRQ_TGT_PRIV_EN t) Fld.IRQ_TGT_PRIV_EN_EN).testBit (n - 16)
  else irqRouted n && (s.rdN (Reg.IRQ_SRC_EN (n / 32))).testBit (n % 32)

def irqPrio (s : State) (t n : Nat) : Nat :=
  (if irqPrivate n then s.rdN (Reg.IRQ_TGT_PRIV_PRIO t ((n - 16) / 8)) else s.rdN (Reg.IRQ_SRC_PRIO (n / 8)))
    / 16 ^ (n % 8) % 16

def irqRoute (s : State) (n : Nat) : Nat := s.rdN (Reg.IRQ_SRC_ROUTE (n / 8)) / 16 ^ (n % 8) % 16

/-- The target of a source; for a private one, t. -/
def irqTarget (s : State) (t n : Nat) : Nat := if irqPrivate n then t else irqRoute s n

/-- A source is enabled (R354). -/
def irqEnabled (s : State) (t n : Nat) : Bool :=
  irqEnBit s t n && irqPrio s t n != 0 && decide (irqTarget s t n < 12)

def irqPending (s : State) (t n : Nat) : Bool :=
  if irqPrivate n then s.irq.privPend.contains (16 * t + n - 16) else (s.rdN (Reg.IRQ_PEND (n / 32))).testBit (n % 32)

/-- A source's pending state takes a value. -/
def setPending (t n : Nat) (v : Bool) (s : State) : State :=
  if irqPrivate n then
    let k := 16 * t + n - 16
    { s with irq := { s.irq with privPend := if v then sinsert k s.irq.privPend else s.irq.privPend.filter (· != k) } }
  else s.put (Reg.IRQ_PEND (n / 32)) ⟨n % 32, 1, .ro, 0⟩ (if v then 1 else 0)

/-- Sources in service at a target, with the priority each was claimed at. -/
def irqService (s : State) (t : Nat) : List (Nat × Nat) := aget [] t s.irq.service

def inService (s : State) (t n : Nat) : Bool := (irqService s t).any fun e => e.1 == n

/-- A source is in service: a private one at its target, any other at whichever target claimed it, for a route that has
changed since leaves it in service until it is completed (R356). -/
def serving (s : State) (t n : Nat) : Bool :=
  if irqPrivate n then inService s t n else s.irq.service.any fun e => e.2.any fun x => x.1 == n

/-- Running priority (R357). -/
def irqRun (s : State) (t : Nat) : Nat := (irqService s t).foldl (fun a e => max a e.2) 0

/-- The sources in service change; RUN and DEPTH follow. -/
def setService (t : Nat) (l : List (Nat × Nat)) (s : State) : State :=
  let s := { s with irq := { s.irq with service := if l.isEmpty then adel t s.irq.service else aset t l s.irq.service } }
  (s.put (Reg.IRQ_TGT_STATUS t) Fld.IRQ_TGT_STATUS_RUN (irqRun s t)).put (Reg.IRQ_TGT_STATUS t)
    Fld.IRQ_TGT_STATUS_DEPTH l.length

/-! ### Deliverable sources (R357) -/

/-- Bits that are set in a word. -/
def setBits (n : Nat) : List Nat := (List.range 32).filter fun b => n.testBit b

/-- Pending sources of a target: private ones, then shared and message ones, in ascending order. -/
def pendingOf (s : State) (t : Nat) : List Nat :=
  (s.irq.privPend.filter fun k => k / 16 == t).map (fun k => k % 16 + 16)
    ++ ((List.range 96).flatMap fun w => (setBits (s.rdN (Reg.IRQ_PEND w))).map (32 * w + ·)).filter
      fun n => irqRoute s n == t

/-- Of sources with their priorities, the one of highest priority; among equals the one of lowest number. -/
def irqBest (l : List (Nat × Nat)) : Option (Nat × Nat) :=
  l.foldl (fun b e =>
    match b with
    | none => some e
    | some x => if x.2 < e.2 ∨ (x.2 = e.2 ∧ e.1 < x.1) then some e else some x) none

/-- A priority passes THRESH and RUN. -/
def irqPasses (s : State) (t p : Nat) : Bool :=
  decide (s.get (Reg.IRQ_TGT_CTL t) Fld.IRQ_TGT_CTL_THRESH < p ∧ irqRun s t < p)

/-- The deliverable sources of a target, with their priorities. -/
def deliverable (s : State) (t : Nat) : List (Nat × Nat) :=
  ((pendingOf s t).map fun n => (n, irqPrio s t n)).filter fun e => irqPasses s t e.2 && !serving s t e.1

/-! ### Signalling (R360 to R362) -/

def irqMasked (s : State) (t : Nat) : Bool := s.getB (Reg.IRQ_TGT_CTL t) Fld.IRQ_TGT_CTL_MASK

/-- An IRQ job, unless one is queued (Table 11.7); while 16 jobs wait it is not made yet (DEDUCED, log 67). -/
def irqJob (e : Nat) (s : State) : State :=
  if irqMasked s e || hkFull s e || (s.hkEng e).queue.any fun j => j.kind == 0 then s else hkQueue e { kind := 0, op := 0 } s

/-- A target with a deliverable source is signalled: a job, or a message. -/
def irqSignal (t : Nat) (s : State) : State :=
  if (deliverable s t).isEmpty || irqMasked s t then s
  else if t < 4 then irqJob t s
  else
    let g := t - 4
    if s.getB (Reg.IRQ_TGT_STATUS t) Fld.IRQ_TGT_STATUS_SIGNALLED || !s.gldOn g
        || !s.getB (Reg.GLD_IRQ_VEC g) Fld.GLD_IRQ_VEC_IRQ_EN then s
    else
      let s := msix g (s.get (Reg.GLD_IRQ_VEC g) Fld.GLD_IRQ_VEC_VECTOR) s
      (s.putB (Reg.IRQ_TGT_STATUS t) Fld.IRQ_TGT_STATUS_SIGNALLED true).tick (Reg.IRQ_TGT_CNT_LO t 3)

/-- IRQ_SIGNAL. -/
def execIrqSignal (t : Fin 12) (s : State) : Out := act s (irqSignal t.val)

/-- A write of IRQ_TGT_CTL. -/
def irqCtlWrite (t : Nat) (value : Word) (s : State) : State := irqSignal t (s.store (Reg.IRQ_TGT_CTL t) value)

/-- IRQ_MASK_WRITE. -/
def execIrqMaskWrite (t : Fin 12) (value : Word) (s : State) : Out := act s (irqCtlWrite t.val value)

/-- HK_WAKE (R362): an engine at a SLEEP word goes on at the following one; a sleeping engine in normal mode makes an
IRQ job if MASK is 0. -/
def execHkWake (e : Fin 4) (s : State) : Out :=
  act s fun s =>
    let e := e.val
    let st := hkState s e
    if !((pendingOf s e).any fun n => irqEnabled s e n) || (st != 3 && (st != 1 || hkService s e)) then s
    else
      let s := (s.raise (Reg.IRQ_TGT_STATUS e) Fld.IRQ_TGT_STATUS_WOKEN).tick (Reg.IRQ_TGT_CNT_LO e 4)
      if st = 3 then
        s.modHk e fun x => { x with asleep := false, run := x.run.map fun r => { r with pc := (r.pc + 1) % 16384 } }
      else irqJob e s

/-! ### Becoming pending (R354, R355) -/

/-- IRQ_LEVEL_RISE. `target`: of a private source. -/
def execIrqLevelRise (target : Option (Fin 12)) (source : Fin 4096) (s : State) : Out :=
  act s fun s =>
    let n := source.val
    match target, irqPrivate n with
    | none, true => s
    | some _, false => s
    | _, _ =>
      let t := irqTarget s (target.elim 0 Fin.val) n
      if irqEnabled s t n && irqLevel s t n && !serving s t n then setPending t n true s else s

/-- A write of IRQ_MSG_DOORBELL. -/
def irqMsg (n : Nat) (s : State) : State :=
  let s := s.tick (Reg.IRQ_CNT_LO 0)
  if n < 1024 ∨ 3072 ≤ n then s.raise Reg.IRQ_STATUS Fld.IRQ_STATUS_BAD_MSG
  else if !irqEnabled s 0 n then s.tick (Reg.IRQ_CNT_LO 2)
  else if irqPending s 0 n then s.tick (Reg.IRQ_CNT_LO 1)
  else setPending 0 n true s

/-- IRQ_MSG_DOORBELL. -/
def execIrqMsgDoorbell (req : Requester) (value : Word) (s : State) : Out :=
  act s fun s => if reachesBar0 s req then irqMsg (Fld.IRQ_MSG_DOORBELL_NUMBER.of value) s else s

/-! ### Set-up (R356, R363) -/

/-- The set-up address of a word of the interrupt controller: the Guild pages show the windows of T4 to T11 (R351). -/
def irqAddr (a : Nat) : Nat :=
  let g := (a - guildPageBase 0) / 0x10000
  let o := (a - guildPageBase 0) % 0x10000
  if guildPageBase 0 ≤ a ∧ g < 8 ∧ 0x900 ≤ o ∧ o < 0xA00 then Reg.IRQ_TGT_CLAIM (4 + g) + (o - 0x900) else a

/-- Target of a window address. -/
def windowTarget (a : Nat) : Nat := (a - Reg.IRQ_TGT_CLAIM 0) / 0x100

/-- The eight 4-bit fields of a register take a write, but for those of enabled sources that it would change. A number
that is no source of the register has no field there (DEDUCED, log 115). -/
def nibblesWrite (mine : Nat → Bool) (a t first : Nat) (value : Word) (s : State) : State :=
  let old := s.rdN a
  let r := (List.range 8).foldl (fun (r : Nat × Bool) j =>
    let o := old / 16 ^ j % 16
    let v := value.toNat / 16 ^ j % 16
    let n := first + j
    if mine n && o != v then
      if irqEnBit s t n then (r.1, true) else (r.1 - o * 16 ^ j + v * 16 ^ j, r.2)
    else r) (old, false)
  let s := s.wr a (BitVec.ofNat 32 r.1)
  if r.2 then s.raise Reg.IRQ_STATUS Fld.IRQ_STATUS_CFG_ERR else s

/-- A write of priorities or routes. -/
def irqCfgWrite (addr : Nat) (value : Word) (s : State) : State :=
  let a := irqAddr (addr - addr % 4)
  if Reg.IRQ_SRC_PRIO 0 ≤ a ∧ a < Reg.IRQ_SRC_PRIO 384 then nibblesWrite irqRouted a 0 (2 * (a - Reg.IRQ_SRC_PRIO 0)) value s
  else if Reg.IRQ_SRC_ROUTE 0 ≤ a ∧ a < Reg.IRQ_SRC_ROUTE 384 then
    nibblesWrite irqRouted a 0 (2 * (a - Reg.IRQ_SRC_ROUTE 0)) value s
  else
    let t := windowTarget a
    if Reg.IRQ_TGT_CLAIM 0 ≤ a ∧ t < 12 ∧ a = Reg.IRQ_TGT_PRIV_PRIO t 0 then nibblesWrite irqPrivate a t 16 value s
    else if Reg.IRQ_TGT_CLAIM 0 ≤ a ∧ t < 12 ∧ a = Reg.IRQ_TGT_PRIV_PRIO t 1 then nibblesWrite irqPrivate a t 24 value s
    else s

/-- IRQ_CFG_WRITE. -/
def execIrqCfgWrite (addr : Nat) (value : Word) (s : State) : Out := act s (irqCfgWrite addr value)

/-- The enable bit of a source changes: a disabled source is no longer pending, though a delivery already decided may
still be claimed (R363); an enabled level source is pending if its level is high. -/
def enableChange (req : Requester) (t n : Nat) (was : Bool) (s : State) : State :=
  let on := irqEnabled s t n
  let t := irqTarget s t n
  if was && !on then
    if irqPending s t n && decide (t < 12) then
      let g : Ghost := { src := n, target := t, prio := irqPrio s t n, at_ := s.now, req := req }
      let s := { s with irq := { s.irq with ghosts := s.irq.ghosts ++ [g] } }
      setPending t n false s
    else s
  else if on && !was then
    let s := { s with irq := { s.irq with ghosts := s.irq.ghosts.filter fun g => !(g.src == n && g.target == t) } }
    if irqLevel s t n && !serving s t n then setPending t n true s else s
  else s

/-- The enable bits of a register take a write: its sources are those from `first` on. -/
def enablesWrite (mine : Nat → Bool) (req : Requester) (a t first count : Nat) (value : Word) (s : State) : State :=
  let ns := ((List.range count).map (first + ·)).filter mine
  let was := ns.map fun n => (n, irqEnabled s t n)
  let keep := ns.foldl (fun m n => m + 2 ^ (n - first)) 0
  let s := s.wr a (value &&& BitVec.ofNat 32 keep)
  was.foldl (fun s e => enableChange req t e.1 e.2 s) s

/-- A write of IRQ_SRC_EN or IRQ_TGT_PRIV_EN. -/
def irqEnableWrite (req : Requester) (addr : Nat) (value : Word) (s : State) : State :=
  let a := irqAddr (addr - addr % 4)
  let t := windowTarget a
  if Reg.IRQ_SRC_EN 0 ≤ a ∧ a < Reg.IRQ_SRC_EN 96 then 
    enablesWrite irqRouted req a 0 (8 * (a - Reg.IRQ_SRC_EN 0)) 32 value s
  else if Reg.IRQ_TGT_CLAIM 0 ≤ a ∧ t < 12 ∧ a = Reg.IRQ_TGT_PRIV_EN t then enablesWrite irqPrivate req a t 16 16 value s
  else s

/-- A read of an enable register by the requester that wrote the disable closes the window (R363). -/
def irqReadback (req : Requester) (a : Nat) (s : State) : State :=
  let hit (g : Ghost) : Bool :=
    g.req == req && a == if irqPrivate g.src then Reg.IRQ_TGT_PRIV_EN g.target else Reg.IRQ_SRC_EN (g.src / 32)
  { s with irq := { s.irq with ghosts := s.irq.ghosts.filter fun g => !hit g } }

/-! ### Claim and complete (R358, R359) -/

/-- A requester reaches a target's window: G0 and the housekeeping engines every one, a Guild's link its own
(R365). -/
def reachesTarget (s : State) (req : Requester) (t : Nat) : Bool :=
  reachesBar0 s req || (decide (4 ≤ t) && !pageForeign s req (t - 4))

/-- A disabled source that a claim within 48 ns may still find (R363): whether it does is free. -/
def ghostsSeen (t : Nat) (s : State) : List Ghost × State :=
  (s.irq.ghosts.filter fun g => g.target == t && decide (s.now ≤ g.at_ + 48) && irqPasses s t g.prio
    && !serving s t g.src).foldl (fun (a : List Ghost × State) g =>
      let (b, s) := a.2.drawBool
      (if b then a.1 ++ [g] else a.1, s)) ([], s)

/-- A read of IRQ_TGT_CLAIM: its value. -/
def irqClaim (t : Nat) (s : State) : Word × State :=
  let s := s.putB (Reg.IRQ_TGT_STATUS t) Fld.IRQ_TGT_STATUS_SIGNALLED false
  let (gs, s) := ghostsSeen t s
  match irqBest (deliverable s t ++ gs.map fun g => (g.src, g.prio)) with
  | none => (0#32, s.tick (Reg.IRQ_TGT_CNT_LO t 1))
  | some (n, p) =>
    let s := (setPending t n false s).tick (Reg.IRQ_TGT_CNT_LO t 0)
    let s := { s with irq := { s.irq with ghosts := s.irq.ghosts.filter fun g => !(g.src == n && g.target == t) } }
    let s := setService t ((n, p) :: irqService s t) s
    let live := decide (1024 ≤ n) || irqLevel s t n
    (BitVec.ofNat 32 ((if live then 2 ^ 31 else 0) + p * 65536 + n),
      if live then s else s.tick (Reg.IRQ_TGT_CNT_LO t 2))

/-- IRQ_CLAIM. -/
def execIrqClaim (req : Requester) (t : Fin 12) (s : State) : Out :=
  act s fun s =>
    let a := Reg.IRQ_TGT_CLAIM t.val
    if reachesTarget s req t.val then
      let (w, s) := irqClaim t.val s
      s.emit (.read req a w)
    else if t.val < 4 then s
    else (isoViol s).emit (.read req a 0#32)

/-- A write of IRQ_TGT_COMPLETE. -/
def irqComplete (t n : Nat) (s : State) : State :=
  if !inService s t n then s.raise Reg.IRQ_STATUS Fld.IRQ_STATUS_BAD_COMPLETE
  else
    let s := setService t ((irqService s t).filter fun e => e.1 != n) s
    if decide (n < 1024) && irqEnabled s t n && irqLevel s t n then setPending t n true s else s

/-- IRQ_COMPLETE. -/
def execIrqComplete (req : Requester) (t : Fin 12) (value : Word) (s : State) : Out :=
  act s fun s =>
    if reachesTarget s req t.val then irqComplete t.val (Fld.IRQ_TGT_COMPLETE_NUMBER.of value) s
    else if t.val < 4 then s
    else isoViol s

end Sys2Proof.Machine
end

