-- ==== Sys2Proof/Machine/Hbm.lean ====
section
/-! DEFINITION. The memory controller (ch. 20) as its own commands show it: accesses through its ports, the draining of
writes, posted adds, temperature, refresh, scrub, idle channels, training, shares. -/
namespace Sys2Proof.Machine

/-! ### Addresses (R366, R367) -/

/-- Addresses that are refused: the reserved partition, and those up to the Cooperage (R367); those beyond it as well
(DESIGN CHOICE, log 69). -/
def hbmReserved (a : Nat) : Bool := decide ((0x730000000 ≤ a ∧ a < 0xF000000000) ∨ 0xF001000000 ≤ a)

/-- An access is refused: counted and latched. -/
def hbmRefuse (s : State) : State := (s.tick (Reg.HBM_CNT_LO 8)).raise Reg.HBM_EVENT Fld.HBM_EVENT_BAD_ADDR

/-- Partitions that a port reaches (Tables 20.1 and 20.4): on FLOW the flow records, and by a fill's read its bucket. -/
def portReaches (port a : Nat) (read : Bool) : Bool :=
  match port with
  | 0 => decide (a < 0x400000000) || (read && decide (0x700000000 ≤ a ∧ a < 0x720000000))
  | 1 => decide (a < 0x400000000 ∨ (0x700000000 ≤ a ∧ a < 0x720000000))
  | 2 => decide (0x600000000 ≤ a ∧ a < 0x700000000)
  | 3 => decide (a < 0x730000000)
  | 4 => decide ((0x500000000 ≤ a ∧ a < 0x600000000) ∨ (0x720000000 ≤ a ∧ a < 0x730000000))
  | _ => decide (0x500000000 ≤ a ∧ a < 0x600000000)

/-! ### Accesses (R369) -/

/-- A port's read of a 64-B block: its data go out, or wait in the hazard table. -/
def portRead (port b : Nat) (s : State) : State :=
  let (d, bad, s) := hbmRead (64 * b) 64 s
  let n := (s.hbm.writes.filter (· == b)).length
  if n = 0 then s.emit (.hbmData port (64 * b) d bad)
  else
    let r : HbmRead := { port := port, block := b, after := n, data := d, poisoned := bad }
    { s with hbm := { s.hbm with reads := s.hbm.reads ++ [r] } }

/-- The add at the head of a station's posted-add queue is accepted (R209, R371): its half may leave once no add of its
holders is outstanding. -/
def addAccept (st key : Nat) (s : State) : State :=
  let s := s.modTasks st fun ts => { ts with addQ := ts.addQ.tail }
  let s := s.modIce st fun i => { i with addsPending := asub key 1 i.addsPending }
  (s.stn st).ice.slots.foldl (fun s e =>
    if 2 * e.2.index + (if e.2.which = .a then 0 else 1) = key then slotLeave st e.1 s else s) s

/-- An add is accepted from a port: on FLOW it is the head of some station's queue. -/
def portAdd (port a v : Nat) (s : State) : State :=
  let s := (hbmWake (hbmBlock a) s).tick (Reg.HBM_CNT_LO 2)
  let s : State := { s with hbm := { s.hbm with adds := s.hbm.adds ++ [{ addr := a, addend := v }] } }
  if port ≠ 0 then s
  else match s.stations.find? fun (e : Nat × Stn) => (e.2.tasks.addQ.head?).any fun x => x.2.1 == a && x.2.2 == v with
    | some (st, n) => match n.tasks.addQ with
      | (key, _) :: _ => addAccept st key s
      | [] => s
    | none => s

/-- HBM_ACCESS. Until both stacks have trained no access reaches them: BAR4 reads return 0 (R419). -/
def execHbmAccess (port : Fin 6) (access : HbmAccess) (s : State) : Out :=
  act s fun s =>
    let p := port.val
    let (addr, read) := match access with
      | .read a => (a, true)
      | .readError a _ => (a, true)
      | .write a _ => (a, false)
      | .add a _ => (a, false)
    let b := hbmBlock addr
    if p = 3 ∧ hbmReserved addr then
      (hbmRefuse s).when read fun s => s.emit (.hbmData p (64 * b) (zeros 64) false)
    else if !portReaches p addr read then s
    else if !hbmReady s then
      if read ∧ p = 2 then s.emit (.hbmData p (64 * b) (zeros 64) false) else s
    else
      match access with
      | .read _ => portRead p b s
      | .readError a u => portRead p b (burstBad (a / 32) u s)
      | .write a bs => if bs.isEmpty then s else hbmWrite a (bs.take (64 - a % 64)) s
      | .add a v =>
        let mine := s.stations.any fun e => (e.2.tasks.addQ.head?).any fun x => x.2.1 == a && x.2.2 == v.toNat
        if p = 3 ∨ (p = 0 ∧ mine) then portAdd p (if p = 3 then a - a % 8 else a) v.toNat s else s

/-- HBM_WRITE_DRAIN. -/
def execHbmWriteDrain (block : Nat) (s : State) : Out := act s (hbmDrain block)

/-- POSTED_ADD_EXECUTE: the oldest add that has been accepted. -/
def execPostedAddExecute (s : State) : Out :=
  act s fun s =>
    match s.hbm.adds with
    | [] => s
    | x :: r => addExec { s with hbm := { s.hbm with adds := r } } x

/-! ### Temperature, refresh, scrub (R373, R374) -/

/-- HBM_TEMP_READ. -/
def execHbmTempRead (stack : Fin 2) (temp : Fin 256) (s : State) : Out :=
  act s fun s =>
    let h := stack.val
    let s := s.put (Reg.HBM_TEMP h) Fld.HBM_TEMP_TEMP temp.val
    let r := s.get Reg.HBM_STATUS Fld.HBM_STATUS_REFRESH_2X
    let s := s.put Reg.HBM_STATUS Fld.HBM_STATUS_REFRESH_2X
      ((if r.testBit h then r - 2 ^ h else r) + if 85 < temp.val then 2 ^ h else 0)
    if 95 ≤ temp.val then s.raise Reg.HBM_EVENT Fld.HBM_EVENT_HOT else s

/-- HBM_REFRESH: refresh is scheduled into banks that have no waiting request; a bank of a channel in self-refresh, and
of a stack not trained, is not refreshed by the controller. -/
def execHbmRefresh (bank : Nat) (s : State) : Out :=
  act s fun s =>
    if 2048 ≤ bank ∨ !hbmReady s ∨ s.hbm.selfRefresh.contains (bank / 64) ∨ hbmWaits s (hbmBank · == bank) then s
    else { s with hbm := { s.hbm with refreshed := aset bank s.now s.hbm.refreshed } }

/-- HBM_SCRUB_READ: the patrol scrub reads the next block. -/
def execHbmScrubRead (s : State) : Out :=
  act s fun s =>
    if !hbmReady s || s.get Reg.HBM_SCRUB Fld.HBM_SCRUB_PERIOD_H == 0 then s
    else
      let b := s.hbm.scrubAt
      let s := { s with hbm := { s.hbm with scrubAt := (b + 1) % 2 ^ 29 } }
      (burstsCheck [2 * b, 2 * b + 1] ((readIssue b s).tick (Reg.HBM_CNT_LO 6))).2

/-! ### Idle channels (R375) -/

/-- CHANNEL_POWER_DOWN: of a channel with no request. -/
def execChannelPowerDown (channel : Fin 32) (s : State) : Out :=
  act s fun s =>
    let c := channel.val
    if s.get Reg.HBM_PWR Fld.HBM_PWR_PD_IDLE = 0 ∨ !hbmReady s ∨ s.hbm.down.contains c ∨ s.hbm.selfRefresh.contains c
        ∨ hbmWaits s (hbmChannel · == c) then s
    else { s with hbm := { s.hbm with down := sinsert c s.hbm.down } }.tick (Reg.HBM_CNT_LO 7)

/-- CHANNEL_SELF_REFRESH: of an idle channel. -/
def execChannelSelfRefresh (channel : Fin 32) (s : State) : Out :=
  act s fun s =>
    let c := channel.val
    if s.get Reg.HBM_PWR Fld.HBM_PWR_SR_IDLE = 0 ∨ !hbmReady s ∨ hbmWaits s (hbmChannel · == c) then s
    else { s with hbm := { s.hbm with down := s.hbm.down.filter (· != c), selfRefresh := sinsert c s.hbm.selfRefresh } }

/-! ### Training, shares, events (R372, R374, R376) -/

/-- HBM_TRAINING_DONE: a stack's result, once after a reset. -/
def execHbmTrainingDone (stack : Fin 2) (result : Fin 4) (repaired : Fin 256) (s : State) : Out :=
  act s fun s =>
    let h := stack.val
    let a := Reg.HBM_TRAIN h
    if result.val = 0 ∨ s.get a Fld.HBM_TRAIN_RESULT ≠ 0 then s
    else
      let s := (s.put a Fld.HBM_TRAIN_RESULT result.val).put a Fld.HBM_TRAIN_REPAIRED repaired.val
      let s := if s.get (Reg.HBM_TRAIN (1 - h)) Fld.HBM_TRAIN_RESULT = 0 then s
        else s.putB Reg.HBM_STATUS Fld.HBM_STATUS_TRAINING false
      if result.val = 3 then bootFail (s.raise Reg.HBM_EVENT Fld.HBM_EVENT_TRAIN_FAIL)
      else
        let s := s.put Reg.HBM_STATUS Fld.HBM_STATUS_TRAINED (s.get Reg.HBM_STATUS Fld.HBM_STATUS_TRAINED ||| 2 ^ h)
        if hbmReady s then
          stageSettle ((s.raise Reg.BOOT_EVENT Fld.BOOT_EVENT_HBM).put (Reg.BOOT_MS 2) Fld.BOOT_MS_MS (bootMs s))
        else s

/-- A write of HBM_SHARE. -/
def hbmShareWrite (port : Nat) (value : Word) (s : State) : State :=
  let share (p : Nat) : Nat :=
    if p = port then Fld.HBM_SHARE_SHARE.of value else s.get (Reg.HBM_SHARE p) Fld.HBM_SHARE_SHARE
  if 256 < ((List.range 6).map share).sum then s.raise Reg.HBM_EVENT Fld.HBM_EVENT_CFG_ERR
  else s.store (Reg.HBM_SHARE port) value

/-- HBM_SHARE_WRITE. -/
def execHbmShareWrite (port : Fin 6) (value : Word) (s : State) : Out := act s (hbmShareWrite port.val value)

/-- A write of HBM_EVENT: CE counts anew from where CE_TH is cleared. -/
def hbmEventWrite (value : Word) (s : State) : State :=
  let s := s.store Reg.HBM_EVENT value
  if value.toNat.testBit 0 then { s with hbm := { s.hbm with ceSince := 0 } } else s

end Sys2Proof.Machine
end

