-- ==== Sys2Proof/Machine/Hosts.lean ====
section
/-! DEFINITION. The host interface (ch. 18): Guilds and their rings, doorbell polling, the start of commands, the
host-interface commands, punt delivery and inject fetch, failures and link loss. -/
namespace Sys2Proof.Machine

/-- Number of local rings of a Guild (R335). -/
def ringCount (s : State) (g : Nat) : Nat := s.get (Reg.HIF_GUILD_RINGS g) Fld.HIF_GUILD_RINGS_COUNT

/-- A ring that the host writes (Table 18.4). -/
def Ring.hostWrites (x : Ring) : Bool := x.kind == 0 || x.kind == 3 || x.kind == 4

/-! ### Doorbells (R336, R338, R344) -/

/-- A doorbell index claims more than N entries. -/
def Ring.idxBad (x : Ring) (h : Nat) : Bool :=
  decide (x.n < if x.hostWrites then idxDist h x.d else idxDist x.d h)

/-- A ring takes a doorbell word. A value with an index error is ignored (R336). The first word read since the ring was
enabled gives the ARM baseline (R344). -/
def Ring.polled (x : Ring) (w : Word) : Ring :=
  let a := w.toNat.testBit 31
  let bad := x.idxBad (bits w.toNat 16 0)
  let x := { x with word := w, h := if bad then x.h else bits w.toNat 16 0 }
  if !x.baseline then { x with baseline := true, armBit := a, armRec := !a }
  else if bad then x
  else if !x.armed && { x with armBit := a }.armed then { x with armBit := a, fresh := 0, first := none }
  else { x with armBit := a }

/-- A doorbell word as read: whether it has changed. Each poll judges the value anew, so one in error latches and counts
at every poll that reads it, and is taken once D has moved so far that it claims no more than N. -/
def doorbell (g j : Nat) (w : Word) (s : State) : Bool × State :=
  let x := s.ring g j
  let s' := s.modRing g j fun x => x.polled w
  (!x.baseline || x.word != w,
    if x.idxBad (bits w.toNat 16 0) then (s'.raise (Reg.GLD_STATUS g) Fld.GLD_STATUS_IDX_ERR).tick (Reg.GLD_CNT_LO g 11)
    else s')

/-- Shortest and longest poll interval, units of 0.5 µs (Table 18.21). -/
def pollBounds (s : State) (g : Nat) : Nat × Nat :=
  let m := 2 * clampNat 1 100 (s.get (Reg.GLD_POLL g) Fld.GLD_POLL_MAX)
  (min m (max 1 (s.get (Reg.GLD_POLL g) Fld.GLD_POLL_MIN)), m)

/-- A doorbell read has failed: polling stops until DMA_ERR is cleared (R348). -/
def doorbellFailed (g : Nat) (s : State) : State :=
  let s := (s.raise (Reg.GLD_STATUS g) Fld.GLD_STATUS_DMA_ERR).raise Reg.HIF_EVENT Fld.HIF_EVENT_DMA_ERR
  (s.tick (Reg.GLD_CNT_LO g 10)).modGuild g fun h => { h with pollStopped := true }

/-- The enabled rings of a Guild. -/
def enabledRings (s : State) (g : Nat) : List Nat := ((s.guild g).rings.filter fun e => e.2.enabled).map Prod.fst

/-- The doorbell words of the enabled rings are read, by lines of 64 B: whether one has changed. -/
def doorbellsRead (g : Nat) (words : List Word) (s : State) : Bool × State :=
  let js := enabledRings s g
  let lines := js.foldl (fun l j => sinsert (j / 16) l) []
  let s := s.cnt (Reg.HIF_CNT_LO 0) lines.length
  js.foldl (fun (a : Bool × State) j =>
    let (b, s) := doorbell g j (words.getD j 0#32) a.2
    (a.1 || b, s)) (false, s)

/-- DOORBELL_POLL. -/
def execDoorbellPoll (g : Guild) (words : Option (List Word)) (s : State) : Out :=
  act s fun s =>
    let g := g.val
    if !s.gldOn g || (s.guild g).pollStopped then s
    else
      let s := s.tick (Reg.GLD_CNT_LO g 9)
      match words with
      | none => doorbellFailed g (s.tick (Reg.HIF_CNT_LO 0))
      | some ws =>
        let (changed, s) := doorbellsRead g ws s
        let (lo, hi) := pollBounds s g
        let iv := if changed then lo else min hi (2 * s.get (Reg.GLD_STATUS g) Fld.GLD_STATUS_POLL)
        s.put (Reg.GLD_STATUS g) Fld.GLD_STATUS_POLL iv

/-- A write of GLD_STATUS: clearing DMA_ERR resumes polling (R348). -/
def gldStatusWrite (g : Nat) (value : Word) (s : State) : State :=
  let s := s.store (Reg.GLD_STATUS g) value
  if s.getB (Reg.GLD_STATUS g) Fld.GLD_STATUS_DMA_ERR then s else s.modGuild g fun h => { h with pollStopped := false }

/-! ### Punts that leave their staging (R345, R348, R349) -/

/-- A staged punt gives its block back. -/
def puntUnstage (g : Nat) (p : Punt) (s : State) : State :=
  coopPush p.pool p.block (s.modGuild g fun h =>
    { h with punts := h.punts.erase p, puntBytes := h.puntBytes - p.xf.frame.len })

/-- A staged punt is dropped. -/
def puntDrop (g : Nat) (s : State) (p : Punt) : State := frameGone p.station p.xf.frame (puntUnstage g p s)

/-- The frames that wait for a PNT ring are dropped and counted. -/
def puntsDrop (g r : Nat) (s : State) : State :=
  ((s.guild g).punts.filter fun p => p.ring == r).foldl (fun s p => puntDrop g (s.tick (Reg.GLD_CNT_LO g 4)) p) s

/-- A ring stops on a failed DMA (R348), as under RING_STOP. -/
def ringFail (g r : Nat) (s : State) : State := puntsDrop g r (dmaFailed g r s)

/-! ### Enabling and disabling (R339, R349) -/

/-- A bootstrap ring from its registers (Table 18.22). -/
def bootRing (s : State) (lo hi kind : Nat) : Ring :=
  { enabled := true, configured := true, kind := kind
    log2n := clampNat 4 16 (s.get lo Fld.GLD_BOOT_CMD_LO_LOG2N)
    base := s.get lo Fld.GLD_BOOT_CMD_LO_BASE_LO * 4096 + s.rdN hi * 2 ^ 32 }

/-- GLD_BOOT_VEC gives the bootstrap CPL ring its vector. -/
def bootVec (g : Nat) (s : State) : State :=
  let a := Reg.GLD_BOOT_VEC g
  let on := s.getB a Fld.GLD_BOOT_VEC_IRQ_EN
  let v := s.get a Fld.GLD_BOOT_VEC_VECTOR
  s.modRing g 1 fun x => { x with irqEn := on, vector := v }

def bootVecWrite (g : Nat) (value : Word) (s : State) : State :=
  let s := s.store (Reg.GLD_BOOT_VEC g) value
  if s.gldOn g then bootVec g s else s

/-- Commands that a Guild's disable finds started run to their end without a completion; a RING_STOP has ended
(DEDUCED, log 90). -/
def orphanRings (h : GuildHost) : List (Nat × Ring) :=
  h.rings.filterMap fun e =>
    match e.2.cmd with
    | some c => if descOp c.desc = 3 ∧ c.began then none else some (e.1, { cmd := some { c with orphan := true } })
    | none => none

/-- GUILD_ENABLE: the bootstrap rings, the ARM baseline, polling. -/
def execGuildEnable (g : Guild) (value : Word) (doorbells : Option (List Word)) (s : State) : Out :=
  act s fun s =>
    let g := g.val
    if s.gldOn g || (s.gldLink g).isNone || !value.toNat.testBit 31 then s
    else
      let s := s.putB (Reg.GLD_CTL g) Fld.GLD_CTL_EN true
      let r0 := bootRing s (Reg.GLD_BOOT_CMD_LO g) (Reg.GLD_BOOT_CMD_HI g) 0
      let r1 := bootRing s (Reg.GLD_BOOT_CPL_LO g) (Reg.GLD_BOOT_CPL_HI g) 1
      let s := s.modGuild g fun h =>
        { h with rings := aset 0 { r0 with cmd := (aget {} 0 h.rings).cmd } (aset 1 r1 (orphanRings h))
                 evtSeq := 0, tlmSeq := 0, pollStopped := false }
      let s := (bootVec g s).put (Reg.GLD_STATUS g) Fld.GLD_STATUS_POLL (pollBounds s g).1
      match doorbells with
      | some ws => (doorbellsRead g ws s).2
      | none => doorbellFailed g (s.tick (Reg.HIF_CNT_LO 0))

/-- A Guild is disabled: polling and rings stop, staged punts and injects not yet granted are dropped. -/
def guildOff (g : Nat) (s : State) : State :=
  if !s.gldOn g then s
  else
    let s := s.putB (Reg.GLD_CTL g) Fld.GLD_CTL_EN false
    let s := (s.guild g).punts.foldl (puntDrop g) s
    let s := (s.hif.injects.filter fun j => j.guild == g && !j.crossing).foldl (fun s j => injectGone j s) s
    s.modGuild g fun h => { h with rings := orphanRings h }

/-- GUILD_DISABLE. -/
def execGuildDisable (g : Guild) (value : Word) (s : State) : Out :=
  act s fun s => if value.toNat.testBit 31 then s else guildOff g.val s

/-- A link is lost: its Guilds are disabled. -/
def linkLost (k : Nat) (s : State) : State :=
  let s := s.put Reg.HIF_EVENT Fld.HIF_EVENT_LINK_DOWN (s.get Reg.HIF_EVENT Fld.HIF_EVENT_LINK_DOWN ||| 2 ^ k)
  let a := Reg.HIF_LINK_STATUS k
  let s := ((s.putB a Fld.HIF_LINK_STATUS_UP false).put a Fld.HIF_LINK_STATUS_WIDTH 0).put a Fld.HIF_LINK_STATUS_SPEED 0
  (List.range 8).foldl (fun s g =>
    if s.gldLink g = some k then guildOff g (s.raise (Reg.GLD_STATUS g) Fld.GLD_STATUS_LINK_DOWN) else s) s

/-- LINK_DOWN. -/
def execLinkDown (k : Fin 4) (s : State) : Out := act s (linkLost k.val)

/-- Number of links (Table 18.1). -/
def linkCount (s : State) : Nat :=
  match s.get Reg.HIF_CFG Fld.HIF_CFG_BIF with
  | 1 => 2
  | 2 => 4
  | _ => 1

/-- PCIE_LINK_UP. -/
def execPcieLinkUp (k : Fin 4) (width : Fin 17) (speed : Fin 6) (s : State) : Out :=
  act s fun s =>
    let a := Reg.HIF_LINK_STATUS k.val
    if linkCount s ≤ k.val then s
    else
      let s := (s.putB a Fld.HIF_LINK_STATUS_UP true).putB a Fld.HIF_LINK_STATUS_PERST false
      (s.put a Fld.HIF_LINK_STATUS_WIDTH width.val).put a Fld.HIF_LINK_STATUS_SPEED speed.val

/-! ### Accesses from outside a link's Guilds (R334) -/

/-- A byte of BAR4 lies in a window of a Guild bound to the link. -/
def inWindow (s : State) (k off : Nat) : Bool :=
  (List.range 8).any fun g =>
    let base := s.get (Reg.HIF_SHW g) Fld.HIF_SHW_BASE * 2 ^ 24
    s.gldLink g == some k && decide (base ≤ off ∧ off < base + s.get (Reg.HIF_SHW g) Fld.HIF_SHW_SIZE * 2 ^ 24)

/-- Address at which the model names a byte of BAR4 in what a read returned (DESIGN CHOICE, log 4). -/
def windowAddr (off : Nat) : Nat := 0x200000000 + off

/-- Offset o of BAR4 addresses byte o of the shared area, whose place Table 20.1 gives (R332). -/
def sharedAddr (off : Nat) : Nat := 0x600000000 + off

/-- A word of a window is read: 0 until both stacks have trained (R419), poisoned where the data are bad (Table 22.4).
The word is the aligned one that holds the byte (DESIGN CHOICE, log 136). -/
def windowRead (k : Fin 4) (off : Nat) (s : State) : State :=
  if !hbmReady s then s.emit (.read (.link k) (windowAddr off) 0#32)
  else
    match hbmRead (sharedAddr (off / 4 * 4)) 4 s with
    | (_, true, s) => s.emit (.readPoison (.link k) (windowAddr off))
    | (b, false, s) => s.emit (.read (.link k) (windowAddr off) (BitVec.ofNat 32 (leVal b)))

/-- A word of a window is written: discarded until both stacks have trained (R419). -/
def windowWrite (off : Nat) (value : Word) (s : State) : State :=
  if hbmReady s then hbmWrite (sharedAddr (off / 4 * 4)) (leBytes 4 value.toNat) s else s

/-- GUILD_PAGE_FOREIGN_ACCESS. An access of a page by its own link is a register's read or write, which
REGISTER_READ and REGISTER_WRITE make. -/
def execGuildPageForeignAccess (k : Fin 4) (access : ForeignAccess) (s : State) : Out :=
  act s fun s =>
    match access with
    | .readPage g off =>
      if pageForeign s (.link k) g.val then (isoViol s).emit (.read (.link k) (guildPageBase g.val + off.val) 0#32) else s
    | .writePage g _ _ => if pageForeign s (.link k) g.val then isoViol s else s
    | .readWindow off =>
      if inWindow s k.val off.val then windowRead k off.val s
      else (isoViol s).emit (.read (.link k) (windowAddr off.val) 0#32)
    | .writeWindow off v => if inWindow s k.val off.val then windowWrite off.val v s else isoViol s

/-! ### MSI-X tables (R344, PCI Express) -/

/-- A write to link k's MSI-X table, at a word: the mask bit of a vector's control word; a pending message is sent on
unmask. -/
def msixTableWrite (k word : Nat) (value : Word) (s : State) : State :=
  let key := 2048 * k + word / 4
  let s := { s with hif := { s.hif with msixTable := aset (8192 * k + word) value s.hif.msixTable } }
  if word % 4 ≠ 3 then s
  else if value.toNat.testBit 0 then { s with hif := { s.hif with unmasked := s.hif.unmasked.filter (· != key) } }
  else
    let s := { s with hif := { s.hif with unmasked := sinsert key s.hif.unmasked } }
    if s.hif.msixPend.contains key then
      let s := { s with hif := { s.hif with msixPend := s.hif.msixPend.filter (· != key) } }
      (s.emit (.msix k (word / 4))).tick (Reg.HIF_CNT_LO 2)
    else s

/-- A word of link k's MSI-X table: the vector control word resets to 1 (PRESUMED, log 20). -/
def msixTableRead (s : State) (k word : Nat) : Word :=
  (aget? (8192 * k + word) s.hif.msixTable).getD (if word % 4 = 3 then 1#32 else 0#32)

/-- A word of link k's pending bits. -/
def msixPba (s : State) (k word : Nat) : Word :=
  BitVec.ofNat 32 ((List.range 32).foldl
    (fun n b => if s.hif.msixPend.contains (2048 * k + 32 * word + b) then n + 2 ^ b else n) 0)

/-- MSIX_MODERATION_TIMER. -/
def execMsixModerationTimer (g : Guild) (ring : Fin 1024) (s : State) : Out :=
  act s fun s =>
    let x := s.ring g.val ring.val
    if x.enabled && x.irqEn && x.armed && x.modUsec != 0 && x.first.isSome then ringSignal g.val ring.val s else s

/-! ### The start of commands (R340, R341) -/

/-- A local ring is an enabled CPL ring of the Guild, not stopping. -/
def cplValid (s : State) (g r : Nat) : Bool :=
  let x := s.ring g r
  decide (r < ringCount s g) && x.enabled && !x.stopping && x.kind == 1

/-- CMD_START: the descriptor at D is fetched; the command starts once its CPL ring has a slot for its completion. -/
def execCmdStart (g : Guild) (ring : Fin 1024) (data : Option (List Byte)) (s : State) : Out :=
  act s fun s =>
    let g := g.val
    let r := ring.val
    let x := s.ring g r
    if !s.gldOn g || !x.ready || x.kind != 0 || x.cmd.isSome then s
    else
      let s := s.tick (Reg.HIF_CNT_LO 0)
      match data with
      | none => ringFail g r s
      | some d =>
        let d := (d ++ zeros 32).take 32
        let valid := cplValid s g (descCpl d)
        let t := if valid then descCpl d else 1
        let y := s.ring g t
        if !y.enabled || decide (y.n ≤ y.unread + y.reserved) then s
        else
          let s := s.modRing g t fun y => { y with reserved := y.reserved + 1 }
          let s := s.modRing g r fun x => { x with cmd := some { desc := d, index := x.d, cplRing := t } }
          match descRefusal d g (s.get Reg.VRV_CFG Fld.VRV_CFG_OWNER), valid with
          | some code, _ => complete g r code [] s
          | none, false => complete g r 4 [] s
          | none, true => s

/-! ### Host-interface commands (R342) -/

/-- NOP: bytes 8 to 15 are echoed. -/
def execNop (g : Guild) (ring : Fin 1024) (s : State) : Out :=
  act s (onCmd g.val ring.val 0x00 fun c s => completeOk g.val ring.val ((c.desc.drop 8).take 8) s)

/-- The ring that a RING_SET configures: the parameters of RING_PARAM are kept. -/
def ringConfigured (x : Ring) (d : List Byte) : Ring :=
  { configured := true, kind := descField d 16 3, log2n := descField d 24 5, vector := descField d 32 11
    irqEn := descField d 48 1 == 1, base := descField d 64 64, cons := descField d 128 64
    modCount := x.modCount, modUsec := x.modUsec, bufLen := x.bufLen, reasonMask := x.reasonMask, cmd := x.cmd }

/-- What is wrong with a RING_SET. -/
def ringSetRefusal (s : State) (g : Nat) (d : List Byte) : Option Nat :=
  let r := descField d 0 10
  let y := ringConfigured {} d
  if r < 2 ∨ ringCount s g ≤ r ∨ (s.ring g r).enabled then some 4
  else if 5 < y.kind ∨ y.log2n < 4 ∨ 16 < y.log2n ∨ y.base % 4096 ≠ 0 ∨ (if y.kind = 4 then y.cons % 8 else y.cons) ≠ 0 then
    some 5
  else if descField d 49 1 = 1 ∧ (y.kind = 2 ∨ y.kind = 5) ∧ (kindRing s g y.kind).isSome then some 7
  else none

/-- RING_SET. The doorbell word of an enabled ring gives its H and its ARM baseline. -/
def execRingSet (g : Guild) (ring : Fin 1024) (db : Option Word) (s : State) : Out :=
  act s (onCmd g.val ring.val 0x01 fun c s =>
    let g := g.val
    let r := descField c.desc 0 10
    match ringSetRefusal s g c.desc with
    | some code => complete g ring.val code [] s
    | none =>
      let s := s.modRing g r fun x => ringConfigured x c.desc
      if descField c.desc 49 1 = 0 then completeOk g ring.val [] s
      else
        let s := s.tick (Reg.HIF_CNT_LO 0)
        match db with
        | none => complete g ring.val 6 [] (doorbellFailed g s)
        | some w =>
          let s := s.modRing g r fun x => { x with enabled := true }
          completeOk g ring.val [] (doorbell g r w s).2)

/-- RING_PARAM. BUF_LEN and REASON_MASK concern a PNT ring, or one that no RING_SET has configured, whose BUF_LEN of 0
changes nothing (DEDUCED, log 91). They apply to descriptors written after the completion. -/
def execRingParam (g : Guild) (ring : Fin 1024) (s : State) : Out :=
  act s (onCmd g.val ring.val 0x02 fun c s =>
    let g := g.val
    let r := descField c.desc 0 16
    let x := s.ring g r
    let len := descField c.desc 48 16
    let pnt := !x.configured || x.kind == 3
    let skip := !x.configured && len == 0
    if ringCount s g ≤ r then complete g ring.val 4 [] s
    else if pnt && !skip && (len % 64 != 0 || len < 256 || 16384 < len) then complete g ring.val 5 [] s
    else
      (completeOk g ring.val [] s).modRing g r fun x =>
        { x with modCount := descField c.desc 16 16, modUsec := descField c.desc 32 16
                 bufLen := if pnt && !skip then len else x.bufLen
                 reasonMask := if pnt then descField c.desc 64 64 else x.reasonMask })

/-- RING_STOP: refused for a ring that is not enabled or already stops. -/
def execRingStop (g : Guild) (ring : Fin 1024) (s : State) : Out :=
  act s (onCmd g.val ring.val 0x03 fun c s =>
    let g := g.val
    let r := descField c.desc 0 16
    let x := s.ring g r
    if r < 2 ∨ ringCount s g ≤ r ∨ r = ring.val ∨ !x.enabled ∨ x.stopping then complete g ring.val 4 [] s
    else
      let s := s.modCmd g ring.val fun c => { c with began := true }
      puntsDrop g r (s.modRing g r fun x => { x with stopping := true, stopFor := some (g, ring.val) }))

/-- RING_QUIESCED: a CMD ring is quiet once its command has completed, a CPL ring once it has taken every completion it
reserved a slot for, that of the RING_STOP itself among them. -/
def execRingQuiesced (g : Guild) (ring : Fin 1024) (s : State) : Out :=
  act s fun s =>
    let g := g.val
    let r := ring.val
    let x := s.ring g r
    let stopBy := x.stopFor.bind fun f => (waitingCmd s f.1 f.2 3).map fun c => (f.2, c)
    let own := match stopBy with
      | some (_, c) => if c.cplRing = r then 1 else 0
      | none => 0
    if !x.enabled || !x.stopping || x.cmd.isSome || decide (own < x.reserved) then s
    else
      let off (s : State) : State := s.modRing g r fun x => { x with enabled := false, stopping := false, stopFor := none }
      match stopBy with
      | none => off s
      | some (q, _) =>
        if own = 1 then off (completeOk g q (leBytes 4 ((x.d + 1) % 131072)) s)
        else completeOk g q (leBytes 4 x.d) (off s)

/-- GLD_INFO. -/
def execGldInfo (g : Guild) (ring : Fin 1024) (s : State) : Out :=
  act s (onCmd g.val ring.val 0x04 fun _ s =>
    let g := g.val
    completeOk g ring.val
      (leBytes 1 g ++ leBytes 1 ((s.gldLink g).getD 0)
        ++ leBytes 2 (s.get (Reg.HIF_GUILD_RINGS g) Fld.HIF_GUILD_RINGS_BASE) ++ leBytes 2 (ringCount s g)) s)

/-! ### Punt (R114, R345) -/

/-- The bucket of a Guild and reason admits a frame, or not. Tokens are counted in 10⁻⁹ of a packet. -/
def bucketTake (g r : Nat) (s : State) : Bool × State :=
  let rate := s.get (Reg.HIF_PUNT_BKT_RATE g r) Fld.HIF_PUNT_BKT_RATE_RATE
  let cap := max 1 (s.get (Reg.HIF_PUNT_BKT_BURST g r) Fld.HIF_PUNT_BKT_BURST_BURST) * 1000000000
  if rate = 0xFFFFFF then (true, s)
  else if rate = 0 then (false, s)
  else
    let (t, at_) := (aget? r (s.guild g).buckets).getD (cap, s.now)
    let t := min cap (t + rate * (s.now - at_))
    let ok := decide (1000000000 ≤ t)
    let v := (if ok then t - 1000000000 else t, s.now)
    (ok, s.modGuild g fun h => { h with buckets := aset r v h.buckets })

/-- LIMIT_KIB as treated, in bytes. -/
def stageLimit (s : State) (g : Nat) : Nat := 1024 * min 16384 (s.get (Reg.HIF_STAGE g) Fld.HIF_STAGE_LIMIT_KIB)

/-- The PNT ring of a reason: the lowest-numbered enabled one whose REASON_MASK has the bit. -/
def puntRing (s : State) (g r : Nat) : Option Nat :=
  ((s.guild g).rings.find? fun e => e.2.enabled && !e.2.stopping && e.2.kind == 3 && e.2.reasonMask.testBit r).map Prod.fst

/-- A punt is staged in a block of pool n, and its ring chosen. -/
def puntStage (st n : Nat) (xf : XFrame) (s : State) : State :=
  let g := xf.guild
  let f := xf.frame
  match coopPop n s with
  | (none, s) => s
  | (some k, s) =>
    let s := (stageBytes n k f.bytes s).tick (Reg.HIF_CNT_LO 4)
    match puntRing s g xf.reason with
    | none => frameGone st f ((coopPush n k s).tick (Reg.GLD_CNT_LO g 5))
    | some r =>
      let p : Punt := { xf := xf, guild := g, pool := n, block := k, ring := r, station := st }
      s.modGuild g fun h => { h with punts := h.punts ++ [p], puntBytes := h.puntBytes + f.len }

/-- Crossbar port 12 has taken the frame of a context: a host copy ends its multicast frame (R270). -/
def puntEnd (st c : Nat) (x : Context) (s : State) : State :=
  let s := s.delCtx st 12 c
  if x.copies then
    let late := match aget? c (s.stn st).core.mcHeads with
      | some h => h.late
      | none => false
    mcFinish st c (if late then s else mcOutcome st c s)
  else s

/-- A frame for destination 144 that has landed at crossbar port 12: bucket, staging limit, then the request for a block
(R279). With no block to be had it waits, its token taken, and the wait is counted (Table 14.2; DEDUCED, log 82). -/
def puntTake (st c : Nat) (x : Context) (s : State) : State :=
  let g := x.xf.guild
  let f := x.xf.frame
  if f.poison then puntEnd st c x (frameGone st f s)
  else
    let (ok, s) := if x.passed then (true, s) else bucketTake g x.xf.reason s
    if !ok then puntEnd st c x (frameGone st f (s.tick (Reg.HIF_PUNT_DROP_LO g x.xf.reason)))
    else if stageLimit s g < (s.guild g).puntBytes + f.len then
      puntEnd st c x (frameGone st f (s.tick (Reg.GLD_CNT_LO g 4)))
    else match poolFor s false f.len with
      | none => refuseNote st 12 (x.hostQueue c) (s.setCtx st 12 c { x with passed := true })
      | some n => puntEnd st c x (puntStage st n x.xf s)

/-- PUNT_ARRIVAL: the frame whose last cell of its class has crossed from a station to crossbar port 12. A pool drain
takes none (R284). -/
def execPuntArrival (st : Station) (cls : Fin 8) (s : State) : Out :=
  act s fun s =>
    let st := st.val
    let c := cls.val
    match s.ctx? st 12 c with
    | none => s
    | some x =>
      if x.cellsLeft ≠ 0 ∨ s.poolDrain.isSome then s else puntTake st c x s

/-- The PNT descriptor (Table 18.10). -/
def pntDesc (x : XFrame) (addr : Nat) (cut : Bool) : List Byte :=
  let f := x.frame
  leBytes 1 (x.reason % 64)
    ++ leBytes 1 ((if cut then 64 else 0) + (if x.part then 32 else 0) + (if f.inj then 16 else 0) + x.tc % 8)
    ++ leBytes 2 (f.len % 16384) ++ leBytes 4 f.rxTs ++ leBytes 8 addr ++ leBytes 1 f.inPort ++ leBytes 1 x.refused
    ++ leBytes 2 (f.fid.getD 0 % 4096) ++ leBytes 8 f.sig ++ leBytes 2 (if x.kind = .mcCopy then x.mgrp % 16384 else 0)
    ++ zeros 2

/-- PUNT_DELIVERY: the first frame staged for the ring is written into the posted buffer, then its descriptor. The
buffer takes the whole frame, its FCS included; an inject that asked for a timestamp has left by no port, and makes its
entry with PORT 254 (R319; DEDUCED, log 92). -/
def execPuntDelivery (g : Guild) (ring : Fin 1024) (posted : Option (List Byte)) (s : State) : Out :=
  act s fun s =>
    let g := g.val
    let r := ring.val
    let x := s.ring g r
    match (s.guild g).punts.find? fun p => p.ring == r with
    | none => s
    | some p =>
      if !x.ready || x.kind != 3 then s
      else
        let s := s.tick (Reg.HIF_CNT_LO 0)
        match posted with
        | none => ringFail g r s
        | some d =>
          match unstage p.pool p.block p.xf.frame.bytes.length s with
          | (none, s) => puntDrop g s p
          | (some b, s) =>
            let addr := le d 8 8
            let cut := decide (x.bufLen < p.xf.frame.len)
            let s := dmaWrite g addr ((b ++ fcsOf b).take x.bufLen) s
            let s := puntUnstage g p (ringWrite g r (pntDesc p.xf addr cut) s)
            let s := txqDrop p.xf.frame (s.tick (Reg.GLD_CNT_LO g 3))
            if cut then s.tick (Reg.GLD_CNT_LO g 6) else s

/-! ### Inject (R346, R347) -/

/-- D advances, and is written to CONS_ADDR. -/
def consAdvance (g r : Nat) (s : State) : State :=
  let s := s.modRing g r fun x => { x with d := (x.d + 1) % 131072 }
  let x := s.ring g r
  dmaWrite g x.cons (leBytes 4 x.d) s

/-- The frame of an INJ descriptor (Table 18.11): its last 4 of LEN bytes are its FCS. -/
def injFrame (g : Nat) (d b : List Byte) : Frame :=
  { bytes := b, cls := le d 1 1 % 8, guild := g, inj := true
    txTs := if (le d 1 1).testBit 3 then some (g, le d 2 2) else none
    keyDepth := (le d 1 1).testBit 4, zone := le d 6 2, pvid := le d 16 2 % 4096 }

/-- INJ_FETCH. -/
def execInjFetch (g : Guild) (ring : Fin 1024) (desc frame : Option (List Byte)) (s : State) : Out :=
  act s fun s =>
    let g := g.val
    let r := ring.val
    let x := s.ring g r
    if !s.gldOn g || !x.ready || x.kind != 4 || s.poolDrain.isSome then s
    else
      let s := s.tick (Reg.HIF_CNT_LO 0)
      match desc with
      | none => ringFail g r s
      | some d =>
        let len := le d 4 2 % 16384
        let st := le d 0 1 % 16
        if len < 64 ∨ 16000 < len ∨ 11 < st then
          txqDrop (injFrame g d []) (consAdvance g r (s.tick (Reg.GLD_CNT_LO g 2)))
        else match poolFor s true len with
          | none => s.tick (Reg.COOP_CNT_LO 0)
          | some n =>
            let s := s.tick (Reg.HIF_CNT_LO 0)
            match frame with
            | none => ringFail g r s
            | some b =>
              match coopPop n s with
              | (none, s) => s
              | (some k, s) =>
                let b := (b ++ zeros len).take (len - 4)
                let s := consAdvance g r (stageBytes n k b s)
                let s := (s.tick (Reg.GLD_CNT_LO g 1)).tick (Reg.HIF_CNT_LO 5)
                let j : Inject := { frame := injFrame g d b, guild := g, ring := r, station := st, pool := n, block := k }
                { s with hif := { s.hif with injects := s.hif.injects ++ [j] } }

/-! ### Failures (R348) -/

/-- DMA_FAILURE: of a doorbell read, or of a DMA made for a ring; a command in progress completes with DMA_ERROR. -/
def execDmaFailure (g : Guild) (ring : Fin 1024) (doorbell : Bool) (s : State) : Out :=
  act s fun s =>
    let g := g.val
    let r := ring.val
    if !s.gldOn g then s
    else if doorbell then doorbellFailed g s
    else if !(s.ring g r).enabled then s
    else complete g r 6 [] (ringFail g r s)

end Sys2Proof.Machine
end

