-- ==== Sys2Proof/Machine/Varve.lean ====
section
/-! DEFINITION. Varve time (ch. 17): steps, the servo, the time reference, PPS and frequency outputs, the TX timestamp
queue, the Varve commands. -/
namespace Sys2Proof.Machine

/-! ### Steps and frequency (R314) -/

/-- Varve time moves by d units of 2⁻⁴⁴ ns: a step, which a frame that is arriving looks back over (R316). -/
def varveStep (d : Int) (s : State) : State :=
  let t := ((s.varve.t : Int) + d) % (2 ^ 48 * 1000000000 * 2 ^ 44)
  let by_ := ((t.toNat / 2 ^ 36 : Nat) : Int) - s.vt
  let s := { s with varve := { s.varve with t := t.toNat, steps := s.varve.steps ++ [(s.now, by_)] } }
  gatesRetime ((s.raise Reg.VRV_EVENT Fld.VRV_EVENT_STEP).tick (Reg.VRV_CNT_LO 1))

/-- The step of at most 2 ns either way that a change of the reference makes (R313): its size is free. -/
def refStep (s : State) : State :=
  let (d, s) := s.drawNat
  varveStep ((d % (2 ^ 46 + 1) : Nat) - 2 ^ 45) s

/-- The clamp, in units of 2⁻¹⁶ ppb. -/
def fmax (s : State) : Int := min 200 (s.get Reg.VRV_SERVO_CFG Fld.VRV_SERVO_CFG_FMAX_PPB) * 500 * 65536

/-- The whole number nearest n / d. -/
def nearest (n : Int) (d : Nat) : Int := (2 * n + d) / (2 * d)

/-- A quotient held to a whole number of 2⁻¹⁶ ppb, the one below or the one above it (DESIGN CHOICE, log 86). -/
def heldQuot (n : Int) (d : Nat) : Int := n / d + (if n % d ≠ 0 ∧ Config.roundUp n d then 1 else 0)

/-- FADJ of a frequency in 2⁻¹⁶ ppb: round(f × 2⁴⁴ / 10⁹). -/
def fadjOf (f : Int) : Int := nearest (f * 2 ^ 28) 1000000000

/-- FADJ takes a frequency, clamped to ±FMAX_PPB (R314). -/
def setFadj (f : Int) (s : State) : State :=
  let m := fadjOf (fmax s)
  s.wr Reg.VRV_FADJ (BitVec.ofInt 32 (clampInt (-m) m f))

/-- A write of VRV_SERVO_CFG clamps the FADJ in force to the FMAX_PPB that it brings. -/
def servoCfgWrite (value : Word) (s : State) : State :=
  let s := s.store Reg.VRV_SERVO_CFG value
  setFadj (s.rd Reg.VRV_FADJ).toInt s

/-! ### Servo (R322 to R324) -/

def servoState (s : State) : Nat := s.get Reg.VRV_SERVO_CFG Fld.VRV_SERVO_CFG_STATE

def mateGap (s : State) : Bool := s.getB Reg.VRV_STATUS Fld.VRV_STATUS_MATE_GAP

def refLost (s : State) : Bool := s.getB Reg.VRV_STATUS Fld.VRV_STATUS_REF_LOST

/-- The servo changes state: HOLDOVER keeps the integral term, FREERUN the frequency of the last VRV_FREQ
(Table 17.2). In both a run of small offsets has ended (DEDUCED, log 135). -/
def setServo (v : Nat) (s : State) : State :=
  if servoState s = v then s
  else
    let s := (s.put Reg.VRV_SERVO_CFG Fld.VRV_SERVO_CFG_STATE v).raise Reg.VRV_EVENT Fld.VRV_EVENT_STATE_CHG
    let out (f : Int) : State := setFadj f { s with varve := { s.varve with lockRun := 0 } }
    if v = 3 then out (fadjOf s.varve.i) else if v = 0 then out s.varve.freeF else s

/-- Coefficient × θ, in 2⁻¹⁶ ppb (Table 17.1). -/
def servoTerm (m e : Nat) (theta : Int) : Int := heldQuot (m * theta) (2 ^ e)

/-- The servo steps on this offset. -/
def servoSteps (s : State) (theta : Int) (noStep : Bool) : Bool :=
  let th := s.get Reg.VRV_SERVO_TH Fld.VRV_SERVO_TH_STEP_TH * 1000 * 65536
  th != 0 && !noStep && (servoState s != 2 || s.getB Reg.VRV_SERVO_CFG Fld.VRV_SERVO_CFG_STEP_EN)
    && decide (th ≤ theta.natAbs)

/-- The slewing branch: i and f, FADJ, the run of small offsets, the state. The first offset accepted in FREERUN or
HOLDOVER leads to LOCKING, whatever LOCK_CNT is (Table 17.2; DEDUCED, log 135). -/
def servoSlew (theta : Int) (s : State) : State :=
  let m := fmax s
  let ki := servoTerm (s.get Reg.VRV_SERVO_KI Fld.VRV_SERVO_KI_M) (s.get Reg.VRV_SERVO_KI Fld.VRV_SERVO_KI_E) theta
  let kp := servoTerm (s.get Reg.VRV_SERVO_KP Fld.VRV_SERVO_KP_M) (s.get Reg.VRV_SERVO_KP Fld.VRV_SERVO_KP_E) theta
  let i := clampInt (-m) m (s.varve.i - ki)
  let f := clampInt (-m) m (i - kp)
  let low := decide (theta.natAbs < s.get Reg.VRV_SERVO_TH Fld.VRV_SERVO_TH_LOCK_TH * 65536)
  let run := if low then s.varve.lockRun + 1 else 0
  let s := setFadj (fadjOf f) { s with varve := { s.varve with i := i, lockRun := run } }
  if servoState s = 2 then s
  else
    let lock := max 1 (s.get Reg.VRV_SERVO_CFG Fld.VRV_SERVO_CFG_LOCK_CNT)
    setServo (if servoState s = 1 ∧ lock ≤ run then 2 else 1) s

/-- An offset θ, in 2⁻¹⁶ ns, reaches the servo: whether it was accepted and whether it stepped. -/
def servoOffset (theta : Int) (noStep resetI : Bool) (s : State) : Bool × Bool × State :=
  if mateGap s || refLost s then (false, false, s.tick (Reg.VRV_CNT_LO 2))
  else
    let s := s.tick (Reg.VRV_CNT_LO 0)
    let s := if resetI then { s with varve := { s.varve with i := 0 } } else s
    if servoSteps s theta noStep then
      let s := varveStep (-(theta * 2 ^ 28)) s
      (true, true, setServo 1 { s with varve := { s.varve with lockRun := 0 } })
    else (true, false, servoSlew theta s)

/-- SERVO_HOLD_TIMEOUT. -/
def execServoHoldTimeout (s : State) : Out :=
  act s fun s =>
    if servoState s = 2 ∧ s.get Reg.VRV_SERVO_CFG Fld.VRV_SERVO_CFG_HOLD_TMO ≠ 0 then setServo 3 s else s

/-! ### The time reference (R313) -/

/-- TIMEREF_LOSS. -/
def execTimerefLoss (s : State) : Out :=
  act s fun s =>
    if refLost s then s
    else
      let s := (refStep s).putB Reg.VRV_STATUS Fld.VRV_STATUS_REF_LOST true
      setServo 3 (s.raise Reg.VRV_EVENT Fld.VRV_EVENT_REF_LOSS)

/-- TIMEREF_RESTORED: the servo stays in HOLDOVER. -/
def execTimerefRestored (s : State) : Out :=
  act s fun s => if refLost s then (refStep s).putB Reg.VRV_STATUS Fld.VRV_STATUS_REF_LOST false else s

/-! ### Reading the time and the TX timestamp queue (R318, R320) -/

/-- VRV_TIME_NS as it reads. -/
def vrvNs (s : State) : Word := BitVec.ofNat 32 (s.varveNs % 1000000000)

def vrvSecLo (s : State) : Word := BitVec.ofNat 32 (s.varveNs / 1000000000)

/-- FRAC and the high 16 bits of SEC. -/
def vrvSecHi (s : State) : Word :=
  BitVec.ofNat 32 (s.varve.t / 2 ^ 28 % 65536 * 65536 + s.varveNs / 1000000000 / 2 ^ 32 % 65536)

/-- A read of VRV_TIME_NS latches the other two words for the requester, at either of its addresses. -/
def vrvTimeRead (req : Requester) (s : State) : Word × State :=
  (vrvNs s, (s.latch req Reg.VRV_TIME_SEC_LO (vrvSecLo s)).latch req Reg.VRV_TIME_SEC_HI (vrvSecHi s))

/-- VRV_TIME_READ, through BAR0 or a Guild page. -/
def execVrvTimeRead (req : Requester) (page : Option Guild) (s : State) : Out :=
  act s fun s =>
    match page with
    | some g => pageRead req g.val (guildPageBase g.val + 0x820) (vrvTimeRead req) s
    | none =>
      let (w, s) := vrvTimeRead req s
      s.emit (.read req Reg.VRV_TIME_NS w)

/-- A read of VRV_TXQ_LO takes the oldest entry and latches its other fields. -/
def txqRead (req : Requester) (g : Nat) (s : State) : Word × State :=
  let lo := Reg.VRV_TXQ_LO g
  match aget [] g s.varve.txq with
  | [] => (0#32, s.latch req lo 255#32)
  | e :: r =>
    let s := { s with varve := { s.varve with txq := if r.isEmpty then adel g s.varve.txq else aset g r s.varve.txq } }
    let s := s.put (Reg.VRV_TXQ_CTL g) Fld.VRV_TXQ_CTL_COUNT r.length
    (BitVec.ofNat 32 e.ts, s.latch req lo (BitVec.ofNat 32 (e.id % 65536 * 65536 + e.frac % 256 * 256 + e.port % 256)))

/-- TXQ_READ. -/
def execTxqRead (req : Requester) (g : Guild) (s : State) : Out :=
  act s (pageRead req g.val (Reg.VRV_TXQ_LO g.val) (txqRead req g.val))

/-! ### PPS and frequency (R321, R325, R326) -/

/-- PPS_IN_EDGE. -/
def execPpsInEdge (s : State) : Out :=
  act s fun s =>
    let ns := s.varveNs % 1000000000
    let s := (s.wr Reg.VRV_PPS_CAP_NS (vrvNs s)).wr Reg.VRV_PPS_CAP_SEC (vrvSecLo s)
    let s := s.raise Reg.VRV_EVENT Fld.VRV_EVENT_PPS_IN
    if s.getB Reg.VRV_CFG Fld.VRV_CFG_EN && s.getB Reg.VRV_CFG Fld.VRV_CFG_SRC then
      let d : Int := (ns : Int) - (s.get Reg.VRV_PPS_IN Fld.VRV_PPS_IN_PPS_DELAY : Nat)
      (servoOffset ((if ns < 500000000 then d else d - 1000000000) * 65536) false false s).2.2
    else s

def setPps (v : Bool) (s : State) : State :=
  if s.varve.pps = v then s else { s with varve := { s.varve with pps := v } }.emit (.pin "PPS_OUT" v)

def setFreq (v : Bool) (s : State) : State :=
  if s.varve.freq = v then s else { s with varve := { s.varve with freq := v } }.emit (.pin "FREQ_OUT" v)

/-- PPS_OUT_EDGE: suppressed within 500 ms of the previous rise. -/
def execPpsOutEdge (s : State) : Out :=
  act s fun s =>
    let soon := match s.varve.lastPps with
      | some t => decide (s.now < t + 500000000)
      | none => false
    if !s.getB Reg.VRV_PPS_OUT Fld.VRV_PPS_OUT_EN || mateGap s || soon then s
    else setPps true { s with varve := { s.varve with lastPps := some s.now } }

/-- PPS_OUT_WIDTH_END. -/
def execPpsOutWidthEnd (s : State) : Out := act s fun s => if mateGap s then s else setPps false s

/-- A write of VRV_PPS_OUT: low when EN is 0. -/
def ppsOutWrite (value : Word) (s : State) : State :=
  let s := s.store Reg.VRV_PPS_OUT value
  if s.getB Reg.VRV_PPS_OUT Fld.VRV_PPS_OUT_EN then s else setPps false s

/-- A write of VRV_FREQ_OUT: one whose PERIOD_NS is odd or does not divide 10⁹ is ignored as a whole (DEDUCED, log 87). -/
def freqOutWrite (value : Word) (s : State) : State :=
  let p := Fld.VRV_FREQ_OUT_PERIOD_NS.of value
  if p = 0 ∨ p % 2 = 1 ∨ 1000000000 % p ≠ 0 then s.raise Reg.VRV_FREQ_OUT Fld.VRV_FREQ_OUT_CFG_ERR
  else
    let s := s.store Reg.VRV_FREQ_OUT value
    if s.getB Reg.VRV_FREQ_OUT Fld.VRV_FREQ_OUT_EN then s else setFreq false s

/-- FREQ_OUT_WRITE. -/
def execFreqOutWrite (value : Word) (s : State) : Out := act s (freqOutWrite value)

/-- FREQ_OUT_EDGE: the edge of R325 nearest to Varve time, high from a multiple of PERIOD_NS, low half a period
later. -/
def execFreqOutEdge (s : State) : Out :=
  act s fun s =>
    if !s.getB Reg.VRV_FREQ_OUT Fld.VRV_FREQ_OUT_EN || mateGap s then s
    else
      let p := s.get Reg.VRV_FREQ_OUT Fld.VRV_FREQ_OUT_PERIOD_NS
      let x := 4 * (s.varveNs % p)
      setFreq (decide (x < p ∨ 3 * p ≤ x)) s

/-- A write of VRV_CFG: EN = 0 frees the servo (Table 17.2). -/
def vrvCfgWrite (value : Word) (s : State) : State :=
  let s := s.store Reg.VRV_CFG value
  if s.getB Reg.VRV_CFG Fld.VRV_CFG_EN then s else setServo 0 s

/-! ### Commands (R329) -/

/-- VRV_OFFSET. -/
def execVrvOffset (g : Guild) (ring : Fin 1024) (s : State) : Out :=
  act s (onCmd g.val ring.val 0x58 fun c s =>
    if !s.getB Reg.VRV_CFG Fld.VRV_CFG_EN || s.getB Reg.VRV_CFG Fld.VRV_CFG_SRC then complete g.val ring.val 0x5A [] s
    else
      match servoOffset (signedOf 64 (descField c.desc 0 64)) (descField c.desc 64 1 == 1) (descField c.desc 65 1 == 1) s with
      | (false, _, s) => complete g.val ring.val 0x59 [] s
      | (true, stepped, s) =>
        completeOk g.val ring.val
          (leBytes 4 (s.rdN Reg.VRV_FADJ) ++ leBytes 1 (2 * servoState s + (if stepped then 1 else 0))) s)

/-- VRV_SET: a LOCKED servo goes to LOCKING. -/
def execVrvSet (g : Guild) (ring : Fin 1024) (s : State) : Out :=
  act s (onCmd g.val ring.val 0x59 fun c s =>
    let ns := descField c.desc 64 32
    if 1000000000 ≤ ns then complete g.val ring.val 0x58 [] s
    else
      let t : Nat := (descField c.desc 0 48 * 1000000000 + ns) * 2 ^ 44
      let s := varveStep ((t : Int) - s.varve.t) s
      completeOk g.val ring.val [] (if servoState s = 2 then setServo 1 s else s))

/-- VRV_FREQ. -/
def execVrvFreq (g : Guild) (ring : Fin 1024) (s : State) : Out :=
  act s (onCmd g.val ring.val 0x5A fun c s =>
    let m := fadjOf (fmax s)
    let f := clampInt (-m) m (signedOf 32 (descField c.desc 0 32))
    let i := heldQuot (f * 1000000000) (2 ^ 28)
    let s := setFadj f { s with varve := { s.varve with i := i, freeF := f } }
    completeOk g.val ring.val (leBytes 4 (s.rdN Reg.VRV_FADJ)) s)

/-- VRV_HOLD: a switch-over gap keeps the servo in HOLDOVER (R326). -/
def execVrvHold (g : Guild) (ring : Fin 1024) (s : State) : Out :=
  act s (onCmd g.val ring.val 0x5B fun c s =>
    let s := if descField c.desc 0 1 = 1 then setServo 3 s
      else if servoState s = 3 ∧ !mateGap s then setServo 1 s else s
    completeOk g.val ring.val (leBytes 1 (servoState s)) s)

end Sys2Proof.Machine
end

