-- ==== Sys2Proof/Machine/Views.lean ====
section
/-! DEFINITION. What a register shows to a reader, without the side effects of a read: the registers whose fields follow
from what the blocks hold, and the word stored for every other one. -/
namespace Sys2Proof.Machine

/-- A field's value at its place in a word. -/
def Field.at (f : Field) (v : Nat) : Nat := v % 2 ^ f.w * 2 ^ f.lo

/-- Word w of a 256-bit hash (Table 11.16). -/
def hashWord (h w : Nat) : Nat := bits h (32 * w + 31) (32 * w)

/-- Number k of an array of words that starts at b and has n elements; none outside it. -/
def elem (a b n step : Nat) : Option Nat := if b ≤ a ∧ (a - b) / step < n ∧ (a - b) % step = 0 then some ((a - b) / step) else none

/-- Tasks of a station in a state (Table 12.9). -/
def taskCount (s : State) (st : Nat) (x : TaskState) : Nat :=
  ((s.stn st).tasks.slots.filter fun e => e.2.st = x).length

/-- TSK_ORQ (Table 12.12). -/
def orqView (s : State) (st k : Nat) : Nat :=
  let q := aget [] k (s.stn st).tasks.orqs
  let age := match q.head? with
    | some h => match s.task? st h with | some t => min 63 ((s.now - t.born) / 1000) | none => 0
    | none => 0
  Fld.TSK_ORQ_HEAD_AGE.at age + Fld.TSK_ORQ_DEPTH.at q.length

/-- SWC_VOQ_DEPTH of the queue that SWC_VOQ_SEL selects (Table 13.18). -/
def voqView (s : State) (st : Nat) : Nat :=
  let c := (s.stn st).core
  let sel := s.get (Reg.SWC_VOQ_SEL st) Fld.SWC_VOQ_SEL_INDEX
  if s.getB (Reg.SWC_VOQ_SEL st) Fld.SWC_VOQ_SEL_MC then
    let q := aget [] (sel % 8) c.mcqs
    Fld.SWC_VOQ_DEPTH_FRAMES.at q.length + Fld.SWC_VOQ_DEPTH_CELLS.at (q.map fun x => x.frame.cells.length).sum
  else
    let crossing := (c.contexts.filter fun e => e.2.xf.kind = .unicast ∧ 8 * e.2.xf.dest + e.2.xf.tc = sel).length
    Fld.SWC_VOQ_DEPTH_FRAMES.at ((aget [] sel c.voqs).length + crossing) + Fld.SWC_VOQ_DEPTH_CELLS.at (voqDepth s st sel)

/-- Bit p of XBR_STOP: output p refuses some port and class (R266). -/
def xbrStopView (s : State) : Nat :=
  (List.range 13).foldl (fun a o => if (refusals s o).isEmpty then a else a + 2 ^ o) 0

/-- UCS_HK_STATUS over the fields that its word holds (Table 11.20). -/
def hkStatusView (s : State) (e : Nat) : Word :=
  let x := s.hkEng e
  let w := s.rd (Reg.UCS_HK_STATUS e)
  let depth := match x.run with | some r => r.stack.length | none => 0
  Fld.UCS_HK_STATUS_STATE.into (Fld.UCS_HK_STATUS_DEPTH.into (Fld.UCS_HK_STATUS_QUEUE.into w x.queue.length) depth)
    (hkState s e)

/-- The word of ring j of Guild g (Table 18.20). -/
def ringView (s : State) (g j : Nat) : Nat :=
  if j < ringCount s g then
    let x := s.ring g j
    bitAt x.enabled 31 + Fld.GLD_RING_KIND.at x.kind + bitAt x.armed 27 + Fld.GLD_RING_D.at x.d
  else 0

/-- A word of IRQ_LEVEL; word 0 holds no shared source and is reserved (Table 19.8). -/
def levelView (s : State) (w : Nat) : Nat :=
  (List.range 32).foldl (fun a j => if irqLevel s 0 (32 * w + j) then a + 2 ^ j else a) 0

/-- The nibbles of routable sources of a priority or route word; the others are reserved and read 0. -/
def nibblesView (w : Word) (first : Nat) : Nat :=
  (List.range 8).foldl (fun a j => if irqRouted (first + j) then a + w.toNat / 16 ^ j % 16 * 16 ^ j else a) 0

/-- Registers of station st that show what its blocks hold; none for a register that shows its word. -/
def stationView (s : State) (st a : Nat) : Option Nat :=
  let n := s.stn st
  if a = Reg.LPM_COUNT4 st then some (replicaCount s st false)
  else if a = Reg.LPM_COUNT6 st then some (replicaCount s st true)
  else if a = Reg.ICE_OCC st then
    some (Fld.ICE_OCC_FREE.at (freeSlots s st)
      + Fld.ICE_OCC_HELD.at (n.ice.slots.filter fun e => e.2.st = .held || e.2.st = .recalling).length)
  else if a = Reg.ICE_PINWAIT st then
    some (Fld.ICE_PINWAIT_PINNED.at (pinnedSlots s st).length + Fld.ICE_PINWAIT_WAIT.at n.ice.entries.length)
  else if a = Reg.RUL_STATUS st then
    some (Fld.RUL_STATUS_QUEUE.into (s.rd a) n.rules.queue.length).toNat
  else if a = Reg.UCS_STATUS st then
    let sw := match s.ucs.load with
      | some l => l.checked && decide (l.target < 2) && l.station == st
      | none => false
    some (Fld.UCS_STATUS_LOADING.into (Fld.UCS_STATUS_SWITCHING.into (s.rd a) (bitAt sw 0)) (bitAt (loadBusy s) 0)).toNat
  else if a = Reg.TSK_OCC st then
    some (Fld.TSK_OCC_WAITING.at (taskCount s st .waiting) + Fld.TSK_OCC_USED.at n.tasks.slots.length)
  else if a = Reg.TSK_OCC2 st then
    some (Fld.TSK_OCC2_READY.at (taskCount s st .ready) + Fld.TSK_OCC2_DONE.at (taskCount s st .done))
  else if a = Reg.SWC_POOL st then
    some (Fld.SWC_POOL_SHARED_FREE.at (ingSharedFree s st) + Fld.SWC_POOL_SHARED.at (ingSharedSize s st))
  else if a = Reg.SWC_VOQ_DEPTH st then some (voqView s st)
  else if a = Reg.CEL_STATUS st then
    let free := cellsFree s st
    some (bitAt (decide (free < s.get (Reg.CEL_WARN st) Fld.CEL_WARN_LOW)) 31 + Fld.CEL_STATUS_FREE.at free)
  else if a = Reg.EGR_POOL st then
    some (Fld.EGR_POOL_SHARED_FREE.at (egrSharedFree s st) + Fld.EGR_POOL_SHARED.at (egrSharedSize s st))
  else match elem a (Reg.STN_ENERGY_LO st 0) 8 4 with
  | some k =>
    let v := aget 0 (4 * st + k / 2) s.energy
    some (if k % 2 = 0 then v % 2 ^ 32 else v / 2 ^ 32 % 65536)
  | none =>
    match elem a (Reg.UCS_RD_DATA st 0) 5 4 with
    | some j => some (ucsReadData s st j)
    | none =>
      match elem a (Reg.UCS_DISPATCH st 0) 256 4 with
      | some o => some (n.store.entryWord o)
      | none =>
        match elem a (Reg.TSK_ORQ st 0) 97 4 with
        | some k => some (orqView s st k)
        | none =>
          match elem a (Reg.EGR_QDEPTH st 0 0) 768 4 with
          | some k =>
            if k % 64 < 8 then
              let p := 12 * st + k / 64
              let c := k % 64
              let q := egrQueue s p c
              let sent := (inTransmission s p).filter fun x => x.tc == c
              some (Fld.EGR_QDEPTH_FRAMES.at (q.length + sent.length) + Fld.EGR_QDEPTH_BLOCKS.at (egrDepth s p c))
            else none
          | none => none

/-- Registers of station 0's UCS window that show the housekeeping store and the keys (Tables 11.16 to 11.20). -/
def station0View (s : State) (a : Nat) : Option Nat :=
  if a = Reg.UCS_KEY_STATUS then some (bitAt s.ucs.ckey.isSome 31)
  else match elem a (Reg.UCS_VKEY_HASH 0) 8 4 with
  | some w => some (hashWord Config.vendorKeyHash w)
  | none =>
    match elem a (Reg.UCS_CKEY_HASH 0) 8 4 with
    | some w => some (hashWord (s.ucs.ckey.getD 0) w)
    | none =>
      match elem a (Reg.UCS_HK_STATUS 0) 4 0x20 with
      | some e => some (hkStatusView s e).toNat
      | none => (elem a (Reg.UCS_HK_DISPATCH 0) 256 4).map s.hkStore.entryWord

/-- The device's own heartbeat is live (R403). -/
def hbLive (s : State) : Bool :=
  mateOn s && s.get Reg.BOOT_STATUS Fld.BOOT_STATUS_FULL == 4095 && s.mate.kicked

/-- MATE_STATUS as it reads: HB_LIVE follows the heartbeat. -/
def mateStatusView (s : State) : Word :=
  Fld.MATE_STATUS_HB_LIVE.into (s.rd Reg.MATE_STATUS) (bitAt (hbLive s) 0)

/-- MATE_PRIMARY, as read at reset. -/
def primary (s : State) : Bool := s.getB Reg.BOOT_STRAP Fld.BOOT_STRAP_PRIMARY

/-- Global registers that show what their blocks hold. -/
def globalView (s : State) (a : Nat) : Option Nat :=
  if a = Reg.CHIP_SERIAL_LO then some (Config.serial.toNat % 2 ^ 32)
  else if a = Reg.CHIP_SERIAL_HI then some (Config.serial.toNat / 2 ^ 32)
  else if a = Reg.PWR_AVS_STATUS then
    some (Fld.PWR_AVS_STATUS_FLOOR.into
      (Fld.PWR_AVS_STATUS_CEIL.into (s.rd a) (bitAt (decide (avsVreq s = avsMax s)) 0))
      (bitAt (decide (avsVreq s = avsMin s)) 0)).toNat
  else if a = Reg.VRV_TIME_NS then some (vrvNs s).toNat
  else if a = Reg.VRV_TIME_SEC_LO then some (vrvSecLo s).toNat
  else if a = Reg.VRV_TIME_SEC_HI then some (vrvSecHi s).toNat
  else if a = Reg.COOP_HK then some (Fld.COOP_HK_FREE.into (s.rd a) (stackFree s 4)).toNat
  else if a = Reg.HIF_GUILD_BIND 0 then
    some (Fld.HIF_GUILD_BIND_LINK.into (s.rd a) (s.get Reg.HIF_CFG Fld.HIF_CFG_G0_LINK)).toNat
  else if a = Reg.XBR_STOP then some (xbrStopView s)
  else if a = Reg.MATE_STATUS then some (mateStatusView s).toNat
  else if a = Reg.TLY_STATUS then
    let busy := s.tally.running.isSome
    some (Fld.TLY_STATUS_BUSY.into (Fld.TLY_STATUS_HELD.into (s.rd a) (bitAt (busy && s.tally.held) 0)) (bitAt busy 0)).toNat
  else if a = Reg.MATE_CFG then some (Fld.MATE_CFG_PRIMARY.into (s.rd a) (bitAt (primary s) 0)).toNat
  else if a = Reg.TNK_ERR_EVENT then
    some (Fld.TNK_ERR_EVENT_TNK_DONE.into (s.rd a) (bitAt (tnkDone s) 0)).toNat
  else match elem a (Reg.COOP_POOL 0) 4 4 with
  | some n => some (Fld.COOP_POOL_FREE.at (stackFree s n) + Fld.COOP_POOL_BLOCKS.at (stackBlocks s n))
  | none =>
    match elem a (Reg.IRQ_LEVEL 0) 17 4 with
    | some w => some (if w = 0 then 0 else levelView s w)
    | none =>
      match elem a (Reg.IRQ_SRC_PRIO 0) 384 4 with
      | some w => some (nibblesView (s.rd a) (8 * w))
      | none => (elem a (Reg.IRQ_SRC_ROUTE 0) 384 4).map fun w => nibblesView (s.rd a) (8 * w)

/-- Guild-page registers that show what the host interface holds: the ring words, and the TX timestamp queue's head. -/
def pageView (s : State) (g a : Nat) : Option Nat :=
  match elem a (Reg.GLD_RING g 0) 1024 4 with
  | some j => some (ringView s g j)
  | none => none

/-- The set-up address of a register of a Guild page that the set-up space shows as well: the copies of Varve time and
of the windows of T4 to T11 (R435); any other address itself. -/
def homeAddr (a : Nat) : Nat :=
  let g := (a - guildPageBase 0) / 0x10000
  let o := (a - guildPageBase 0) % 0x10000
  if guildPageBase 0 ≤ a ∧ g < 8 ∧ 0x820 ≤ o ∧ o < 0x82C then Reg.VRV_TIME_NS + (o - 0x820) else irqAddr a

/-- What the register at a set-up or Guild-page address shows; a reserved address shows 0 (R428). -/
def regView (s : State) (addr : Nat) : Word :=
  let a := homeAddr addr
  match regAt a with
  | none => 0#32
  | some _ =>
    let v :=
      if a < 0x2000000 then globalView s a
      else if a < 0x5000000 then
        let st := (a - 0x2000000) / 0x400000
        if st = 0 then (station0View s a).orElse fun _ => stationView s st a else stationView s st a
      else if guildPageBase 0 ≤ a then pageView s ((a - guildPageBase 0) / 0x10000) a
      else none
    match v with
    | some n => BitVec.ofNat 32 n
    | none => s.rd a

/-- Which word of a 64-bit value an address holds (R10). -/
def partOf (a : Nat) : WordPart := match regAt a with | some h => h.reg.part | none => .whole

end Sys2Proof.Machine
end

