-- ==== Sys2Proof/Machine/Tally.lean ====
section
/-! DEFINITION. The Tallyman and the telemetry store (ch. 21): the enable and its guards, dumps, the records of the
store, TLY_TREAD. -/
namespace Sys2Proof.Machine

/-! ### Segments (R378, R379) -/

/-- Eight bytes of an entry that holds a 48-bit counter. -/
def counterEntry (s : State) (a : Nat) : List Byte :=
  leBytes 8 ((regView s a).toNat + 2 ^ 32 * ((regView s (a + 4)).toNat % 65536))

/-- Eight bytes of an entry that holds a 32-bit value. -/
def wordEntry (s : State) (a : Nat) : List Byte := leBytes 8 (regView s a).toNat

/-- n counters, 8 B apart. -/
def counterRun (s : State) (a n : Nat) : List Byte := (List.range n).flatMap fun k => counterEntry s (a + 8 * k)

/-- n counters of each local port, `step` apart, port-major. -/
def portRun (s : State) (a step n : Nat) : List Byte := (List.range 12).flatMap fun i => counterRun s (a + step * i) n

/-- Segments and entries per segment of a set (Table 21.1). -/
def setShape (set : Nat) : Nat × Nat :=
  match set with
  | 0 => (144, 72)
  | 1 => (144, 3)
  | 2 => (12, 48)
  | 3 => (12, 5)
  | 4 => (12, 286)
  | 5 => (144, 256)
  | 6 => (12, 96)
  | _ => (1, 64)

/-- An entry of TLY_GSEL names a counter of a *_CNT array (R379, R435). -/
def gselHit (s : State) (k : Nat) : Option RegHit :=
  let a := Reg.TLY_GSEL k
  if s.getB a Fld.TLY_GSEL_VALID then
    match regAt (s.get a Fld.TLY_GSEL_ADDR) with
    | some h => if h.reg.counter then some h else none
    | none => none
  else none

/-- The entry of GLOBAL that TLY_GSEL[k] chooses. -/
def gselEntry (s : State) (k : Nat) : List Byte :=
  let a := s.get (Reg.TLY_GSEL k) Fld.TLY_GSEL_ADDR
  match gselHit s k with
  | some h => if h.reg.part = .low then counterEntry s a else wordEntry s a
  | none => zeros 8

/-- Some entry of TLY_GSEL in use is not read. -/
def gselErr (s : State) : Bool :=
  (List.range 64).any fun k => s.getB (Reg.TLY_GSEL k) Fld.TLY_GSEL_VALID && (gselHit s k).isNone

/-- The entries of instance i of a set, in the order of Table 21.1. -/
def setEntries (s : State) (set i : Nat) : List Byte :=
  match set with
  | 0 => counterRun s (Reg.MAC_STAT_LO i 0) 72
  | 1 => counterRun s (Reg.LANE_FEC_CORR_LO i) 3
  | 2 => counterRun s (Reg.STN_EV_LO i 0) 48
  | 3 => counterEntry s (Reg.STN_PACE_CNT_LO i) ++ counterRun s (Reg.STN_ENERGY_LO i 0) 4
  | 4 =>
    counterRun s (Reg.PRS_REASON_CNT_LO i 0) 64 ++ counterRun s (Reg.EPT_CNT_LO i 0) 12
      ++ counterRun s (Reg.LPM_CNT_LO i 0) 3 ++ counterRun s (Reg.ICE_CNT_LO i 0) 16
      ++ counterRun s (Reg.RUL_CNT_LO i 0) 12 ++ counterRun s (Reg.STN_AE_CNT_LO i 0) 14
      ++ counterRun s (Reg.TSK_CNT_LO i 0) 12 ++ counterRun s (Reg.SWC_CNT_LO i 0) 16
      ++ portRun s (Reg.SWC_PCNT_LO i 0 0) 0x20 4 ++ counterRun s (Reg.MOR_CNT_LO i 0) 5
      ++ portRun s (Reg.EGR_PCNT_LO i 0 0) 0x100 7
  | 5 => (List.range 256).flatMap fun k => wordEntry s (Reg.EGR_HIST (i / 12) (i % 12) 0 0 0 + 4 * k)
  | 6 => (List.range 96).flatMap fun k => wordEntry s (Reg.EGR_QDEPTH i (k / 8) (k % 8))
  | _ => (List.range 64).flatMap (gselEntry s)

/-- A segment: its header (Table 21.4) and its entries. -/
def segment (s : State) (set i : Nat) : List Byte :=
  leBytes 1 set ++ zeros 1 ++ leBytes 2 (i % 256) ++ leBytes 4 s.ts ++ leBytes 2 (setShape set).2 ++ zeros 6
    ++ setEntries s set i

/-- The segments of the selected sets, in set order: set and instance. -/
def segmentList (sets : Nat) : List (Nat × Nat) :=
  (List.range 8).flatMap fun set =>
    if sets.testBit set then (List.range (setShape set).1).map fun i => (set, i) else []

/-- The running dump captures its next segment, all of whose entries are of this instant (R379). -/
def dumpCapture (s : State) : State :=
  match s.tally.running with
  | some d =>
    match d.todo with
    | (set, i) :: rest =>
      let d := { d with segments := d.segments ++ segment s set i, todo := rest }
      let s := s.when (set == 7 && gselErr s) fun s => s.raise Reg.TLY_EVENT Fld.TLY_EVENT_GSEL_ERR
      { s with tally := { s.tally with running := some d } }
    | [] => s
  | none => s

/-! ### The enable -/

/-- TLY_CFG.EN. -/
def tlyOn (s : State) : Bool := s.getB Reg.TLY_CFG Fld.TLY_CFG_EN

def tlyCfgErr (s : State) : State := s.raise Reg.TLY_EVENT Fld.TLY_EVENT_CFG_ERR

/-- Buffers, and the size of one in bytes (Table 21.8). -/
def tlyCount (s : State) : Nat := max 1 (s.get Reg.TLY_BUF Fld.TLY_BUF_COUNT)

def tlyRoom (s : State) : Nat := 4096 * max 1 (s.get Reg.TLY_BUF Fld.TLY_BUF_SIZE)

/-- A trigger that waits is forgotten. -/
def tlyForget (s : State) : State := { s with tally := { s.tally with held := false } }

/-- A write of TLY_CFG (R380, R381). EN = 0 lets a running dump complete, and forgets a trigger that waits. -/
def tlyCfgWrite (value : Word) (s : State) : State :=
  let a := Reg.TLY_CFG
  let en := Fld.TLY_CFG_EN.of value
  if tlyOn s then
    let other := s.store a value
    let s := s.when (decide ((Fld.TLY_CFG_EN.into (other.rd a) 1) ≠ s.rd a)) tlyCfgErr
    if en = 1 then s else tlyForget (s.putB a Fld.TLY_CFG_EN false)
  else if en = 1 ∧ Fld.TLY_CFG_DEST.of value = 0 ∧ 2 ^ 28 < tlyCount s * tlyRoom s then tlyCfgErr s
  else s.store a value

/-- A write of TLY_BUF, or of TLY_HOST_BASE as a whole, which EN = 1 locks. -/
def tlyGuard (f : State → State) (s : State) : State := if tlyOn s then tlyCfgErr s else f s

/-- TLY_ENABLE_WRITE. -/
def execTlyEnableWrite (value : Word) (s : State) : Out := act s (tlyCfgWrite value)

/-! ### Dumps (R380 to R382) -/

/-- A start is skipped. -/
def tlySkip (s : State) : State :=
  let s := s.raise Reg.TLY_EVENT Fld.TLY_EVENT_SKIPPED
  { s with tally := { s.tally with skipped := s.tally.skipped + 1, held := false } }

/-- A dump may start: its destination takes it (R381, R419). -/
def tlyAdmits (s : State) : Bool :=
  let g := s.get Reg.TLY_CFG Fld.TLY_CFG_OWNER
  if s.getB Reg.TLY_CFG Fld.TLY_CFG_DEST then
    match kindRing s g 5 with
    | some r => decide ((s.ring g r).unread < min (tlyCount s) (s.ring g r).n)
    | none => false
  else hbmReady s

/-- A dump starts, and captures its first segment, or is skipped (R380). The tick captures each further one (DESIGN
CHOICE, log 99). -/
def tlyStart (triggered : Bool) (s : State) : State :=
  if !tlyAdmits s then tlySkip s
  else
    let host := s.getB Reg.TLY_CFG Fld.TLY_CFG_DEST
    let n := s.tally.next
    let k := n % tlyCount s
    let base := if host then s.rdN Reg.TLY_HOST_BASE_LO + 2 ^ 32 * s.rdN Reg.TLY_HOST_BASE_HI else 0x720000000
    let sets := s.get Reg.TLY_CFG Fld.TLY_CFG_SETS
    let d : Dump :=
      { number := n, buffer := k, triggered := triggered, sets := sets, host := host,
        owner := s.get Reg.TLY_CFG Fld.TLY_CFG_OWNER, tlm := s.getB Reg.TLY_CFG Fld.TLY_CFG_TLM_EN,
        addr := base + k * tlyRoom s, room := tlyRoom s, tsStart := s.ts, skipped := s.tally.skipped,
        segments := [], todo := segmentList sets }
    dumpCapture { s with tally := { s.tally with running := some d, next := (n + 1) % 2 ^ 32, skipped := 0
                                                 held := s.tally.held && !triggered } }

/-- TLY_DUMP_START. A triggered start takes up the trigger that waits (R384); behind a running dump it stays held. -/
def execTlyDumpStart (triggered : Bool) (s : State) : Out :=
  act s fun s =>
    if !tlyOn s then s
    else if triggered then
      if !s.tally.held || s.tally.running.isSome then s else tlyStart true s
    else if s.tally.running.isSome then
      let h := s.tally.held
      let s := tlySkip s
      { s with tally := { s.tally with held := h } }
    else tlyStart false s

/-- Bytes that a dump writes: header (Table 21.3) and segments, cut at the buffer's end. -/
def Dump.bytes (d : Dump) (tsEnd : Nat) : List Byte :=
  let len := min d.room (32 + d.segments.length)
  let trunc := decide (d.room < 32 + d.segments.length)
  (leBytes 4 d.number ++ leBytes 4 d.tsStart ++ leBytes 4 tsEnd ++ leBytes 4 len ++ leBytes 1 d.sets
    ++ leBytes 1 (bitAt trunc 0 + bitAt d.triggered 1) ++ zeros 2 ++ leBytes 4 d.skipped ++ zeros 8
    ++ d.segments).take len

/-- The TLY_DUMP descriptor's bytes 8 to 31 (Table 21.2). -/
def Dump.desc (d : Dump) : List Byte :=
  let trunc := decide (d.room < 32 + d.segments.length)
  leBytes 4 d.number ++ leBytes 4 (min d.room (32 + d.segments.length)) ++ leBytes 8 d.addr ++ leBytes 2 d.buffer
    ++ leBytes 1 (bitAt trunc 0 + bitAt d.triggered 1) ++ zeros 5

/-- TLY_DUMP_DONE: the last byte of a dump whose segments have all been captured is written; a held triggered dump
starts. -/
def execTlyDumpDone (s : State) : Out :=
  act s fun s =>
    match s.tally.running with
    | none => s
    | some d =>
      if !d.todo.isEmpty then s
      else
        let b := d.bytes s.ts
        let s := if d.host then dmaWrite d.owner d.addr b s else hbmWrite d.addr b s
        let s := s.when (decide (d.room < 32 + d.segments.length)) fun s => s.raise Reg.TLY_EVENT Fld.TLY_EVENT_TRUNC
        let s := s.when d.tlm (postTlm d.owner 0x50 d.desc)
        let s := s.raise Reg.TLY_EVENT Fld.TLY_EVENT_DONE
        let s := (s.put Reg.TLY_STATUS Fld.TLY_STATUS_BUF d.buffer).wr Reg.TLY_LAST (BitVec.ofNat 32 d.number)
        let s : State := { s with tally := { s.tally with running := none } }
        if s.tally.held && tlyOn s then tlyStart true s else s

/-! ### Telemetry store (R385, R386) -/

def storeOn (s : State) (g : Nat) : Bool := s.getB (Reg.TLY_TSTORE g) Fld.TLY_TSTORE_EN

/-- First byte, and number of records, of a region that a word of TLY_TSTORE names. -/
def storeBase (w : Word) : Nat := 0x500000000 + Fld.TLY_TSTORE_BASE.of w * 2 ^ 24

def storeRecords (w : Word) : Nat := Fld.TLY_TSTORE_SIZE.of w * 524288

def storeEnd (w : Word) : Nat := Fld.TLY_TSTORE_BASE.of w + Fld.TLY_TSTORE_SIZE.of w

/-- Two regions share a byte. -/
def storeOverlap (a b : Word) : Bool :=
  decide (Fld.TLY_TSTORE_BASE.of a < storeEnd b) && decide (Fld.TLY_TSTORE_BASE.of b < storeEnd a)
    && Fld.TLY_TSTORE_SIZE.of a != 0 && Fld.TLY_TSTORE_SIZE.of b != 0

/-- TSTORE_ENABLE. -/
def storeWrite (g : Nat) (value : Word) (s : State) : State :=
  let en := Fld.TLY_TSTORE_EN.of value == 1
  let clash := en && (List.range 8).any fun h => h != g && storeOn s h && storeOverlap value (s.rd (Reg.TLY_TSTORE h))
  if 256 < storeEnd value ∨ clash then tlyCfgErr s
  else
    let s := if en && !storeOn s g then { s with tally := { s.tally with w := adel g s.tally.w } } else s
    s.store (Reg.TLY_TSTORE g) value

def execTstoreEnable (g : Guild) (value : Word) (s : State) : Out := act s (storeWrite g.val value)

/-- Address of record n of a Guild's region. -/
def recordAddr (s : State) (g n : Nat) : Nat :=
  let w := s.rd (Reg.TLY_TSTORE g)
  storeBase w + 32 * (n % storeRecords w)

/-- TSTORE_RECORD_WRITE: the oldest record of the station leaves its queue, once the stacks take writes. -/
def execTstoreRecordWrite (st : Station) (s : State) : Out :=
  act s fun s =>
    match aget [] st.val s.tally.queue with
    | [] => s
    | (g, rec) :: rest =>
      if !hbmReady s then s
      else
        let s : State := { s with tally := { s.tally with queue := aset st.val rest s.tally.queue } }
        if storeOn s g && storeRecords (s.rd (Reg.TLY_TSTORE g)) != 0 then
          let w := aget 0 g s.tally.w
          let s := hbmWrite (recordAddr s g w) ((rec ++ zeros 32).take 32) s
          { s with tally := { s.tally with w := aset g (w + 1) s.tally.w } }
        else s.tick (Reg.TLY_TSTORE_LOST_LO g)

/-! ### TLY_TREAD (R387) -/

/-- Records read from the store, and whether one of them is poisoned. -/
def recordsRead (g start : Nat) : Nat → State → List Byte × Bool × State
  | 0, s => ([], false, s)
  | n + 1, s =>
    let x := hbmRead (recordAddr s g start) 32 s
    let y := recordsRead g (start + 1) n x.2.2
    (x.1 ++ y.1, x.2.1 || y.2.1, y.2.2)

/-- TLY_TREAD. -/
def execTlyTread (g : Guild) (ring : Fin 1024) (s : State) : Out :=
  act s (onCmd g.val ring.val 0x60 fun c s =>
    hbmGate g.val ring.val (fun s =>
      let g := g.val
      let r := ring.val
      let start := descField c.desc 0 64
      let n := descField c.desc 64 32
      let addr := descField c.desc 128 64
      let w := aget 0 g s.tally.w
      let cap := storeRecords (s.rd (Reg.TLY_TSTORE g))
      if 65536 < n ∨ addr % 64 ≠ 0 then complete g r 5 [] s
      else if !storeOn s g ∨ cap = 0 then complete g r 0x61 [] s
      else if start + cap < w ∨ w < start + n then complete g r 0x60 [] s
      else
        let (b, bad, s) := recordsRead g start n s
        let s := if n = 0 then s
          else if bad then dmaWritePoison g addr b.length s
          else dmaWrite g addr b s
        completeOk g r (leBytes 8 w ++ leBytes 4 n ++ leBytes 4 (s.rdN (Reg.TLY_TSTORE_LOST_LO g))) s) s)

end Sys2Proof.Machine
end

