-- ==== Sys2Proof/Machine/Tinker.lean ====
section
/-! DEFINITION. The Tinker as its own commands show it (ch. 22): the release of reordered frames, writes of injectors,
seed and memory injection, the scrub of the on-die memories, TNK_SET and TNK_READ. -/
namespace Sys2Proof.Machine

/-! ### Injectors (R389, R391, R401) -/

/-- Address of word w (0 to 11) of injector k of port p. -/
def injWord (p k w : Nat) : Nat := Reg.TNK_SEL (stationOf p) (localOf p) k + 4 * w

/-- Injector n is armed by a set, or not. -/
def injMark (n : Nat) (bySet : Bool) (s : State) : State :=
  let others := s.tinker.bySet.filter (· != n)
  { s with tinker := { s.tinker with bySet := if bySet then sinsert n others else others } }

/-- The count of an injector's period starts anew. -/
def injAnew (n : Nat) (s : State) : State := { s with tinker := { s.tinker with period := adel n s.tinker.period } }

/-- A write of TNK_SEL: a 0-to-1 write of EN starts both counts of the injector anew (R391, Table 22.12). -/
def injSelWrite (p k : Nat) (value : Word) (bySet : Bool) (s : State) : State :=
  let n := 4 * p + k
  let rises := Fld.TNK_SEL_EN.of value = 1 ∧ Fld.TNK_SEL_EN.of (injSel s p k) = 0
  let s := injMark n bySet (s.store (injWord p k 0) value)
  if rises then injAnew n (s.wr (injWord p k 11) 0#32) else s

/-- A write of another word of an injector, ignored while its EN is 1 (R389). -/
def injWordWrite (p k w : Nat) (value : Word) (s : State) : State :=
  if Fld.TNK_SEL_EN.of (injSel s p k) = 1 then
    s.raise (Reg.TNK_PEVENT (stationOf p) (localOf p)) Fld.TNK_PEVENT_CFG_ERR
  else s.store (injWord p k w) value

/-- Word w of an injector's image. -/
def imageWord (d : List Byte) (w : Nat) : Word := BitVec.ofNat 32 (le d (4 * w) 4)

/-- The twelve words of an image, its TNK_SEL last. -/
def injImage (p k : Nat) (d : List Byte) (s : State) : State :=
  let s := ((List.range 12).drop 1).foldl (fun s w => injWordWrite p k w (imageWord d w) s) s
  injSelWrite p k (imageWord d 0) true s

/-- REORDER_RELEASE: the frame held longest by an injector takes its place (R393). -/
def execReorderRelease (p : Port) (inj : Fin 4) (tx : Bool) (s : State) : Out :=
  act s fun s =>
    let p := p.val
    let k := inj.val
    if tx then
      match s.tinker.heldTx.find? fun h => h.port == p && h.inj == k with
      | some h => egrReturn p h.ef { s with tinker := { s.tinker with heldTx := s.tinker.heldTx.erase h } }
      | none => s
    else
      match s.tinker.heldRx.find? fun h => h.port == p && h.inj == k with
      | some h =>
        laneEnqueue (stationOf p) h.frame { s with tinker := { s.tinker with heldRx := s.tinker.heldRx.erase h } }
      | none => s

/-- TNK_SEED_WRITE: 0 is treated as 1. -/
def seedWrite (value : Word) (s : State) : State :=
  let s := s.store Reg.TNK_SEED value
  { s with tinker := { s.tinker with lfsr := if value = 0#32 then 1#32 else value } }

def execTnkSeedWrite (value : Word) (s : State) : Out := act s (seedWrite value)

/-- The checks of Table 22.6, then f on the port and the injector. -/
def tnkCmd (g ring op : Nat) (f : Nat → Nat → State → State) (s : State) : State :=
  onCmd g ring op (fun c s =>
    let p := descField c.desc 0 8
    if 144 ≤ p ∨ s.portGuild p ≠ g ∨ s.portWidth p = 0 then complete g ring 0x68 [] s
    else if s.get Reg.TNK_CTL Fld.TNK_CTL_EN = 0 ∨ !(s.get Reg.TNK_CTL Fld.TNK_CTL_GUILD_EN).testBit g then
      complete g ring 0x69 [] s
    else f p (descField c.desc 8 2) s) s

/-- TNK_SET. -/
def execTnkSet (g : Guild) (ring : Fin 1024) (data : Option (List Byte)) (s : State) : Out :=
  act s (tnkCmd g.val ring.val 0x68 fun p k =>
    withData g.val ring.val 48 data fun d s => completeOk g.val ring.val [] (injImage p k d s))

/-- TNK_READ. -/
def execTnkRead (g : Guild) (ring : Fin 1024) (s : State) : Out :=
  act s fun s =>
    let addr := match startable s g.val ring.val 0x69 with
      | some c => descField c.desc 64 64
      | none => 0
    tnkCmd g.val ring.val 0x69 (fun p k s =>
      let words := (List.range 12).flatMap fun w => leBytes 4 (s.rdN (injWord p k w))
      completeOk g.val ring.val [] (dmaWrite g.val addr words s)) s

/-! ### Memory errors (R395 to R397) -/

/-- MEMINJ_ARM. A write while ARM is 1 is ignored and latches a CFG_ERR; of which port the spec does not say, so it is
free (DESIGN CHOICE, log 100). -/
def meminjWrite (value : Word) (s : State) : State :=
  if s.getB Reg.TNK_MEMINJ Fld.TNK_MEMINJ_ARM then
    let (d, s) := s.drawNat
    s.raise (Reg.TNK_PEVENT (d % 144 / 12) (d % 12)) Fld.TNK_PEVENT_CFG_ERR
  else s.store Reg.TNK_MEMINJ value

def execMeminjArm (value : Word) (s : State) : Out := act s (meminjWrite value)

/-- The memories that a scrub reads (Table 22.3). -/
def scrubbed (mem : Nat) : Bool := [1, 2, 3, 4, 5, 7, 8, 9, 10, 11, 13, 14, 15, 17].contains mem

/-- The station under which an error of a memory is kept: 0 for the global memories. -/
def memStation (mem st : Nat) : Nat := if mem = 14 ∨ mem = 15 ∨ mem = 17 then 0 else st

/-- First 64-B word of the Cooperage block that holds a word of MEM 14. -/
def blockStart (w : Nat) : Nat :=
  let a := 64 * w
  let n := if a < 0x200000 then 0 else if a < 0x600000 then 1 else if a < 0xAC0000 then 2 else 3
  let base := poolBase n - 0xF000000000
  (base + (a - base) / poolSize n * poolSize n) / 64

/-- The word under which a memory's reader finds an error of the item that holds word i (DESIGN CHOICE, log 43): a
cell's data, an egress block, an Icehouse slot and a Cooperage block have one such word each. -/
def memWord (mem i : Nat) : Nat :=
  match mem with
  | 1 => i / 32 * 32
  | 3 => i / 32 * 32
  | 5 => i / 16 * 16
  | 14 => blockStart i
  | _ => i

/-- An error has arisen by itself in a word. -/
def errorArises (mem st i : Nat) (uncorr : Bool) (s : State) : State :=
  let e : OdErr := { mem := mem, station := st, index := i, uncorr := uncorr || mem == 9 || mem == 15 }
  let s := odClear mem st i s
  { s with tinker := { s.tinker with errors := s.tinker.errors ++ [e] } }

/-- The scrub has found an uncorrectable error: what Table 22.4 does to the item that the word holds. An item whose
containment lies with its reader (its frame, its search, its walk, its routine) keeps the error for it. -/
def scrubContain (mem st i : Nat) (s : State) : State :=
  match mem with
  | 7 =>
    let s := odClear 7 st i s
    if i < 131072 then eptRemove st i s
    else s.put (Reg.EPT_FID_MAP st ((i - 131072) / 4096) ((i - 131072) % 4096)) Fld.EPT_FID_MAP_VALID 0
  | 8 =>
    let bad := (s.routes.map Prod.fst).filter fun k => routeIdx k = i ∧ !s.routeBad.contains (st, k)
    odClear 8 st i { s with routeBad := bad.map (fun k => (st, k)) ++ s.routeBad }
  | 15 => if i < 2 ^ 22 then odClear 15 0 i (s.modFtm fun f => { f with spill := sinsert i f.spill }) else s
  | _ => s

/-- The scrub reads a word (R396). -/
def scrubRead (mem st i : Nat) (s : State) : State :=
  match odError s mem st i with
  | none => s
  | some e =>
    if !e.uncorr then (odRead mem st i s).2
    else
      match mem with
      | 4 => stationFatal st i s
      | 5 => (slotRead st (i / 16) s).2
      | 9 => ruleForce st (i / 4096) s (i % 4096)
      | _ => scrubContain mem st i (odReport 1 mem st i s)

/-- ONDIE_SCRUB: the scrub of a memory reads a word in which an error may have arisen: one that it corrects, or an
uncorrectable one. -/
def execOndieScrub (mem : Fin 32) (st : Station) (index : Nat) (arisen : Option Bool) (s : State) : Out :=
  act s fun s =>
    let m := mem.val
    let t := memStation m st.val
    let i := memWord m index
    if !scrubbed m then s
    else
      let s := match arisen with
        | some u => errorArises m t i u s
        | none => s
      scrubRead m t i s

end Sys2Proof.Machine
end

