-- ==== Sys2Proof/Machine/Mate.lean ====
section
/-! DEFINITION. The mate pair (ch. 23): heartbeat, roles, claims and yields, the switch-over gap, MATE_RELEASE. -/
namespace Sys2Proof.Machine

/-! ### Status -/

def mateBit (s : State) (f : Field) : Bool := s.getB Reg.MATE_STATUS f

def setMate (f : Field) (v : Bool) (s : State) : State := s.putB Reg.MATE_STATUS f v

def mateEvent (f : Field) (s : State) : State := s.raise Reg.MATE_EVENT f

/-- MATE_ACT_OUT is driven. -/
def actOut (v : Bool) (s : State) : State :=
  if s.mate.actOut = v then s else { s.emit (.pin "MATE_ACT_OUT" v) with mate := { s.mate with actOut := v } }

/-- MATE_HB_OUT is driven. -/
def hbOut (v : Bool) (s : State) : State :=
  if s.mate.hbOut = v then s else { s.emit (.pin "MATE_HB_OUT" v) with mate := { s.mate with hbOut := v } }

/-- The state changes, with its event (Tables 23.2 and 23.4). -/
def setRole (role cause : Nat) (s : State) : State :=
  postEvent 0 0x78 (leBytes 1 role ++ leBytes 1 cause) (s.put Reg.MATE_STATUS Fld.MATE_STATUS_ROLE role)

/-- The switch-over gap starts (R410): PPS_OUT and FREQ_OUT hold, the servo is in HOLDOVER (R326). -/
def gapStart (s : State) : State :=
  let s := (setMate Fld.MATE_STATUS_GAP true s).tick (Reg.MATE_CNT_LO 0)
  setServo 3 (s.putB Reg.VRV_STATUS Fld.VRV_STATUS_MATE_GAP true)

/-- Both devices are ACTIVE (R406). -/
def split (s : State) : State := (mateEvent Fld.MATE_EVENT_SPLIT s).tick (Reg.MATE_CNT_LO 3)

/-- A claim (R405). -/
def claim (cause : Nat) (s : State) : State :=
  let s := mateEvent Fld.MATE_EVENT_CLAIMED (setRole 2 cause (actOut true s))
  let s : State := { s with mate := { s.mate with claimed := s.now, delayOver := false } }
  if mateBit s Fld.MATE_STATUS_PEER_ACT then split s else s

/-- A yield (R406): PEER_WAS_ACT starts anew from the mate's present level. -/
def yieldNow (cause : Nat) (s : State) : State :=
  let s := mateEvent Fld.MATE_EVENT_YIELDED (setRole 3 cause (actOut false s))
  gapStart (setMate Fld.MATE_STATUS_PEER_WAS_ACT (mateBit s Fld.MATE_STATUS_PEER_ACT) s)

/-- STANDBY, with MATE_FORCE_N high: the device may claim. -/
def mayClaim (s : State) : Bool := mateRole s == 1 && !mateBit s Fld.MATE_STATUS_FORCED

/-- The initial claim, where its condition holds (R405). -/
def initialClaim (s : State) : State :=
  if mayClaim s && !mateBit s Fld.MATE_STATUS_PEER_ACT && (primary s || s.mate.delayOver) then claim 1 s else s

/-- The device enters STANDBY. -/
def enterStandby (cause : Nat) (s : State) : State :=
  initialClaim (setRole 1 cause { s with mate := { s.mate with delayOver := false } })

/-! ### Heartbeats (R403, R404) -/

/-- MATE_KICK: HK0 and HK1 alone write it. -/
def mateKick (req : Requester) (s : State) : State :=
  match req with
  | .hk e => if e.val < 2 then { s with mate := { s.mate with kicked := true } } else s
  | _ => s

def execMateKick (req : Requester) (s : State) : Out := act s (mateKick req)

/-- KICK_TIMEOUT. -/
def execKickTimeout (s : State) : Out := act s fun s => { s with mate := { s.mate with kicked := false } }

/-- HEARTBEAT_LIVE_CHANGE. Without a live heartbeat MATE_HB_OUT is held low (Table 23.1). -/
def execHeartbeatLiveChange (s : State) : Out :=
  act s fun s =>
    let s := if hbLive s then s else hbOut false s
    if hbLive s ∧ mateRole s = 0 then enterStandby 0 s
    else if !hbLive s ∧ mateRole s = 1 then setRole 0 0 s
    else s

/-- MATE_HB_IN_EDGE. -/
def execMateHbInEdge (s : State) : Out := act s (setMate Fld.MATE_STATUS_PEER_HB true)

/-- MATE_HB_STALE, and the takeover by silence (R405). -/
def execMateHbStale (s : State) : Out :=
  act s fun s =>
    if !mateBit s Fld.MATE_STATUS_PEER_HB then s
    else
      let s := mateEvent Fld.MATE_EVENT_PEER_LOST (setMate Fld.MATE_STATUS_PEER_HB false s)
      if mayClaim s && mateBit s Fld.MATE_STATUS_PEER_ACT && s.getB Reg.MATE_CFG Fld.MATE_CFG_HB_TAKE then
        claim 3 (gapStart s)
      else s

/-! ### The mate's claim and release (R405, R406, R412) -/

/-- A MATE_RELEASE that waits completes with ROLE. -/
def releaseOne (s : State) (r : CmdRef) : State :=
  let s : State := { s with mate := { s.mate with release := s.mate.release.erase r } }
  match waitingCmd s r.1 r.2 0x70 with
  | some _ => completeOk r.1 r.2 (leBytes 1 (mateRole s)) s
  | none => s

/-- Every MATE_RELEASE that waits completes: the mate has claimed (R412). -/
def releaseDone (s : State) : State := s.mate.release.foldl releaseOne s

/-- MATE_ACT_IN has risen: the debounced level shows a claim that the mate made 1 µs ago. A claim within 1 µs of this
device's own makes the secondary yield; a later one makes either yield (R406). -/
def actInRises (s : State) : State :=
  let s := setMate Fld.MATE_STATUS_PEER_ACT true (setMate Fld.MATE_STATUS_PEER_WAS_ACT true s)
  let s : State := { s with mate := { s.mate with delayOver := false } }
  let s := releaseDone s
  if mateRole s ≠ 2 then s
  else
    let s := split s
    if s.mate.claimed + 2000 < s.now then yieldNow 6 s else if primary s then s else yieldNow 7 s

/-- MATE_ACT_IN has fallen: the takeover by release. -/
def actInFalls (s : State) : State :=
  let s := setMate Fld.MATE_STATUS_PEER_ACT false s
  if mayClaim s && mateBit s Fld.MATE_STATUS_PEER_WAS_ACT then claim 2 (gapStart s) else s

/-- MATE_ACT_IN_CHANGE. -/
def execMateActInChange (high : Bool) (s : State) : Out :=
  act s fun s =>
    if mateBit s Fld.MATE_STATUS_PEER_ACT = high then s else if high then actInRises s else actInFalls s

/-- CLAIM_DELAY_EXPIRY. -/
def execClaimDelayExpiry (s : State) : Out :=
  act s fun s =>
    if mateRole s = 1 ∧ !mateBit s Fld.MATE_STATUS_PEER_ACT then
      initialClaim { s with mate := { s.mate with delayOver := true } }
    else s

/-- MATE_FORCE_FALL. -/
def execMateForceFall (s : State) : Out :=
  act s fun s =>
    if mateBit s Fld.MATE_STATUS_FORCED then s
    else
      let s := mateEvent Fld.MATE_EVENT_FORCE (setMate Fld.MATE_STATUS_FORCED true s)
      if mateRole s = 2 then yieldNow 5 s else s

/-- MATE_FORCE_RISE. -/
def execMateForceRise (s : State) : Out := act s fun s => initialClaim (setMate Fld.MATE_STATUS_FORCED false s)

/-- MATE_RELEASE. -/
def execMateRelease (g : Guild) (ring : Fin 1024) (s : State) : Out :=
  act s (onCmd g.val ring.val 0x70 fun c s =>
    let force := descField c.desc 0 1 == 1
    let ready := mateBit s Fld.MATE_STATUS_PEER_HB && !mateBit s Fld.MATE_STATUS_PEER_ACT
    if mateRole s ≠ 2 then complete g.val ring.val 0x70 [] s
    else if !force && !ready then complete g.val ring.val 0x71 [] s
    else
      let s := s.modCmd g.val ring.val fun c => { c with began := true }
      let s := yieldNow 4 { s with mate := { s.mate with release := s.mate.release ++ [(g.val, ring.val)] } }
      if mateBit s Fld.MATE_STATUS_PEER_ACT then releaseDone s else s)

/-- A MATE_RELEASE with FORCE waits. -/
def forcedRelease (s : State) (r : CmdRef) : Bool :=
  (waitingCmd s r.1 r.2 0x70).any fun c => descField c.desc 0 1 == 1

/-- MATE_RELEASE_TIMEOUT: of the oldest forced release that waits. -/
def execMateReleaseTimeout (s : State) : Out :=
  act s fun s =>
    match s.mate.release.find? (forcedRelease s) with
    | none => s
    | some r => releaseOne s r

/-! ### The end of a yield and of the gap (R408, R410) -/

/-- The frames queued at a port, or set aside by an injector, are discarded. -/
def yieldPort (s : State) (p : Nat) : State :=
  let queued := (s.port p).egr.queues.flatMap Prod.snd
  let aside := (s.tinker.heldTx.filter fun h => h.port == p).map HeldTx.ef
  let words := (s.port p).egr.queues.map fun q => egqWord (localOf p) q.1
  let s := queuesWrite (stationOf p) words (s.modEgr p fun e => { e with queues := [], headF := [] })
  let s : State := { s with tinker := { s.tinker with heldTx := s.tinker.heldTx.filter fun h => h.port != p } }
  (queued ++ aside).foldl (fun s ef => egrDiscard p (s.tick (Reg.MATE_CNT_LO 2)) ef) s

/-- A station gives up every frame in its task slots, VOQs and egress queues by the steps of R283: XOFF, the stop request,
and all that no routine is at work on is discarded now. A routine runs to its release, where its frame is discarded;
STN_DRAIN_QUIESCED ends the drain (DEDUCED, log 138). -/
def yieldStation (s : State) (st : Nat) : State :=
  let s := drainBegin st (s.stn st).drain (s.modStn st fun n => { n with yields := true })
  let idle := ((s.stn st).tasks.slots.filter fun e => e.2.st != .running).map Prod.fst
  let s := queuesPurge st yieldDrop (idle.foldl (drainTask st yieldDrop) s)
  (List.range 12).foldl (fun s i => yieldPort s (12 * st + i)) s

/-- YIELD_DRAIN_EXPIRY. -/
def execYieldDrainExpiry (s : State) : Out :=
  act s fun s =>
    if mateRole s ≠ 3 then s
    else
      let s := (List.range 12).foldl yieldStation s
      if hbLive s then enterStandby 8 s else setRole 0 8 s

/-- GAP_END. -/
def execGapEnd (s : State) : Out :=
  act s fun s =>
    (setMate Fld.MATE_STATUS_GAP false s).putB Reg.VRV_STATUS Fld.VRV_STATUS_MATE_GAP false

end Sys2Proof.Machine
end

