-- ==== Sys2Proof/Machine/Boot.lean ====
section
/-! DEFINITION. Resets, the flash profile, Thaw service and the switch to full service (ch. 24). -/
namespace Sys2Proof.Machine

/-! ### Resets (R413, R414) -/

/-- Outputs that fall, or are released, with a reset (R413, R448). -/
def outputsReset (s : State) : State :=
  let s := setSmb false (setFreq false (setPps false (hbOut false (actOut false s))))
  if s.getB Reg.THM_STATUS Fld.THM_STATUS_CRIT then s.emit (.pin "THERM_CRIT_N" true) else s

/-- RESET_ASSERT: the part is held in reset, with the mate's outputs low; by an input from now on, where BOOT_RESET had
asked for it. -/
def execResetAssert (cold : Bool) (s : State) : Out :=
  let s := hbOut false (actOut false s)
  let s := if cold then outputsReset s else s
  let was := scanDrive s
  .next (scanShow was
    { s with boot := { s.boot with held := true, coldHeld := s.boot.coldHeld || cold, warmDue := false } })

/-- What a retraining leaves of the stacks: free bytes where something had been written, except that the flow directory
holds no tag, as FTM_RECORDS reads (DESIGN CHOICE, log 106). -/
def memLost (draw : Nat) (m : List Host.Cell) : List Host.Cell :=
  m.filterMap fun c =>
    let v := BitVec.ofNat 8 (Config.hbmByte draw c.1)
    if dirBase ≤ c.1 ∧ c.1 < 0x720000000 then none else if v = Memory.unlisted then none else some (c.1, v)

/-- The part right after a reset's release, but for what each kind of reset keeps: all of State.reset, with fuses, OTP
and the test port as they were, and the model's own record of what has gone out. -/
def afterReset (s : State) : State :=
  let (d, s) := s.drawNat
  let s := outputsReset s
  { State.reset with
      mem := memLost d s.mem, ucs := { ckey := s.ucs.ckey }, jtag := s.jtag, fresh := s.fresh, pending := s.pending
      out := State.reset.out ++ s.out }

/-- The strapped address on the management bus. -/
def i2cSet (n : Nat) (s : State) : State := { s with boot := { s.boot with i2cAddr := n } }

/-- COLD_RESET: the straps are read. -/
def execColdReset (bifStrap modeStrap : Fin 4) (primary : Bool) (i2cAddr : Fin 4) (s : State) : Out :=
  let was := scanDrive s
  let s := scanShow was (afterReset s)
  let strap := bifStrap.val + 16 * modeStrap.val + bitAt primary 8
  .next (i2cSet i2cAddr.val ((s.wr Reg.BOOT_STRAP (BitVec.ofNat 32 strap)).put Reg.HIF_CFG Fld.HIF_CFG_BIF bifStrap.val))

/-- The MSI-X tables are those of s. -/
def keepMsix (s t : State) : State :=
  { t with hif := { t.hif with unmasked := s.hif.unmasked, msixTable := s.hif.msixTable, msixPend := s.hif.msixPend } }

/-- A register is that of s. -/
def keepReg (s t : State) (a : Nat) : State := t.wr a (s.rd a)

/-- A warm reset of a kind (Table 24.9): straps, and the physical layer and configuration of the PCI Express links, are
kept (DEDUCED, log 107). -/
def warmRelease (kind : Nat) (s : State) : State :=
  let t := (List.range 4).foldl (fun t k => keepReg s t (Reg.HIF_LINK_STATUS k)) (keepReg s (afterReset s) Reg.BOOT_STRAP)
  let t := t.put Reg.HIF_CFG Fld.HIF_CFG_BIF (s.get Reg.HIF_CFG Fld.HIF_CFG_BIF)
  keepMsix s (i2cSet s.boot.i2cAddr (t.put Reg.BOOT_CAUSE Fld.BOOT_CAUSE_KIND kind))

/-- WARM_RESET: WRESET_N rises, or the 1 ms of a reset by BOOT_RESET ends. -/
def execWarmReset (s : State) : Out :=
  .next (if s.boot.coldHeld then s else if s.boot.warmDue then warmRelease 2 s else if s.boot.held then warmRelease 1 s else s)

/-- LINK_RESET: link k is reset, its MSI-X table with it. -/
def execLinkReset (k : Fin 4) (s : State) : Out :=
  act s fun s =>
    let k := k.val
    if linkCount s ≤ k then s
    else
      let s := (linkLost k s).putB (Reg.HIF_LINK_STATUS k) Fld.HIF_LINK_STATUS_PERST true
      { s with hif := { s.hif with unmasked := s.hif.unmasked.filter fun n => n / 2048 != k
                                   msixPend := s.hif.msixPend.filter fun n => n / 2048 != k
                                   msixTable := s.hif.msixTable.filter fun e => e.1 / 8192 != k } }

/-- A write of BOOT_RESET: a warm reset starts 1 µs after the write. A write before that changes nothing more. -/
def bootResetWrite (value : Word) (s : State) : State :=
  if Fld.BOOT_RESET_WARM.of value = 1 ∧ Fld.BOOT_RESET_KEY.of value = 0x5754 ∧ s.boot.warmDue = false then
    { s with boot := { s.boot with warmDue := true, warmAt := s.now + 1000 } }
  else s

/-- The warm reset that BOOT_RESET asked for holds the part, once it is due. -/
def warmHold (s : State) : State :=
  if s.boot.warmDue && decide (s.boot.warmAt ≤ s.now) then
    let s := hbOut false (actOut false s)
    { s with boot := { s.boot with held := true } }
  else s

/-- BOOT_RESET_WRITE (R414). -/
def execBootResetWrite (value : Word) (s : State) : Out := act s (bootResetWrite value)

/-! ### The flash profile (R416, R417) -/

/-- A flash boot mode whose profile has neither been accepted nor refused. -/
def profileDue (s : State) : Bool :=
  s.get Reg.BOOT_STRAP Fld.BOOT_STRAP_MODE != 2 && !s.boot.profile
    && !s.getB Reg.BOOT_STATUS Fld.BOOT_STATUS_PROFILE_ERR

/-- The profile is refused, and the part continues as if BOOT_MODE were 2. -/
def profileRefused (s : State) : State := bootFail (s.raise Reg.BOOT_STATUS Fld.BOOT_STATUS_PROFILE_ERR)

/-- MAGIC, FORMAT and CRC (R416). -/
def profileOk (b : List Byte) : Bool :=
  b.length == 1376 && le b 0 4 == 0x46435046 && le b 4 1 == 1 && le b 1372 4 == leVal (fcsOf (b.take 1372))

/-- Lanes with THAW_EN, and their groups. -/
def profileLanes (b : List Byte) : List (Nat × Nat) :=
  (List.range 144).filterMap fun l =>
    let v := le b (1228 + l) 1
    if bit v 7 then some (l, v % 4) else none

/-- The images of the directory, in the order of R231: target, offset and length. -/
def profileImages (b : List Byte) : List (Nat × Nat × Nat) :=
  [2, 0, 3, 1].map fun t => (t, le b (8 + 8 * t) 4, le b (12 + 8 * t) 4)

/-- An accepted profile configures links, quads and lanes, and lists the images to load. -/
def profileTake (b : List Byte) (s : State) : State :=
  let g0 := le b 5 1
  let link := if bit g0 7 ∧ g0 % 4 < linkCount s then g0 % 4 else 0
  let s := s.put Reg.HIF_CFG Fld.HIF_CFG_G0_LINK link
  let s := (List.range 36).foldl (fun s q => quadWrite q (BitVec.ofNat 32 (le b (40 + q) 1)) s) s
  let s := (List.range 144).foldl (fun s l => advWrite l (BitVec.ofNat 32 (le b (652 + 4 * l) 4)) s) s
  let s := (List.range 144).foldl (fun s l => cfgWrite l (BitVec.ofNat 32 (le b (76 + 4 * l) 4)) s) s
  let s : State := { s with boot := { s.boot with profile := true, lanes := profileLanes b } }
  let s := (profileImages b).foldl (fun s e => if e.2.2 = 0 then bootImage e.1 2 0 s else s) s
  let due := (profileImages b).filter fun e => e.2.2 != 0
  if due.isEmpty then bootImagesDone s else { s with ucs := { s.ucs with boot := due } }

/-- PROFILE_READ: the boot block reads the profile at flash address 0. -/
def execProfileRead (profile : List Byte) (s : State) : Out :=
  act s fun s =>
    if !profileDue s then s
    else
      let s := flashRead 0 1376 s
      if profileOk profile then profileTake profile s else profileRefused s

/-- FLASH_TIMEOUT: the read of the profile has had no response. -/
def execFlashTimeout (s : State) : Out :=
  act s fun s =>
    if profileDue s then profileRefused ((flashRead 0 1376 s).raise Reg.BOOT_STATUS Fld.BOOT_STATUS_FLASH_ERR) else s

/-! ### Thaw and full service (R418 to R424) -/

/-- THAW_REACHED. -/
def execThawReached (s : State) : Out :=
  act s fun s =>
    if s.boot.thaw then s
    else
      let s : State := { s with boot := { s.boot with thaw := true } }
      let s := (s.raise Reg.BOOT_EVENT Fld.BOOT_EVENT_THAW).put (Reg.BOOT_MS 0) Fld.BOOT_MS_MS (bootMs s)
      stageSettle (if bootStage s = 0 then setStage 1 s else s)

/-- BOOT_FULL_REQUEST: the stations of one write switch in ascending order, after those of earlier writes (DEDUCED, log
139). -/
def bootFullWrite (value : Word) (s : State) : State :=
  let go := Fld.BOOT_FULL_GO.of value
  if go = 0 then s
  else if bootStage s ≠ 2 ∧ bootStage s ≠ 3 then s.raise Reg.BOOT_EVENT Fld.BOOT_EVENT_GO_ERR
  else
    let asked := (stationsOf go).filter fun st => !s.full st && !s.boot.full.contains st
    { s with boot := { s.boot with full := s.boot.full ++ asked } }

def execBootFullRequest (value : Word) (s : State) : Out := act s (bootFullWrite value)

/-- Step 3 of R423: the learn requests of Thaw observations and the dynamic entries go; endpoint commands that waited
for room in the queue take it (R121). -/
def learnClear (st : Nat) (s : State) : State :=
  let s := s.modEpt st fun t => { t with queue := t.queue.filter fun r => match r with | .learn _ _ _ => false | _ => true }
  let dynamic := ((s.stn st).ept.table.filter fun e => !e.2.2.static).map Prod.fst
  dynamic.foldl (fun s l => eptRemove st l s) (learnAdmit st s)

/-- Step 4: the stored set-up of the station takes effect. -/
def setupApply (st : Nat) (s : State) : State :=
  let mine (a : Nat) : Bool := decide (stationBase st ≤ a ∧ a < stationBase (st + 1))
  { s with boot := { s.boot with inForce := s.boot.inForce.filter fun e => !mine e.1 } }

/-- STATION_FULL_SWITCH: of the station that is paused, once its Thaw passes are released; HK0 carries it out. -/
def execStationFullSwitch (st : Station) (s : State) : Out :=
  act s fun s =>
    let st := st.val
    match s.boot.full with
    | [] => s
    | h :: rest =>
      if h ≠ st ∨ (s.stn st).tasks.slots ≠ [] ∨ !hkRun s 0 then s
      else
        let s := setupApply st (learnClear st s)
        let full := s.get Reg.BOOT_STATUS Fld.BOOT_STATUS_FULL ||| 2 ^ st
        let s := s.put Reg.BOOT_STATUS Fld.BOOT_STATUS_FULL full
        let s := (s.raise Reg.BOOT_EVENT Fld.BOOT_EVENT_FULL).tick (Reg.BOOT_CNT_LO 1)
        let s : State := { s with boot := { s.boot with full := rest } }
        if full = 4095 then setStage 3 s else s

end Sys2Proof.Machine
end

