-- ==== Sys2Proof/Machine/Clock.lean ====
section
/-! DEFINITION. The passage of time (R6, R313, R314), and what is counted in microseconds. -/
namespace Sys2Proof.Machine

/-- Varve time advances by n timebase ticks at the frequency in force (R314); SEC has 48 bits. -/
def varveAdvance (n : Nat) (s : State) : State :=
  let f := signedOf 32 (s.rdN Reg.VRV_FADJ)
  let t := ((s.varve.t : Int) + n * (2 ^ 44 + f)) % (2 ^ 48 * 1000000000 * 2 ^ 44)
  { s with varve := { s.varve with t := t.toNat } }

/-- A microsecond has passed: event 15 of each station (Table 21.5), TX_PAUSED_US of each port that a received pause
holds (Table 04.6). -/
def microsecond (s : State) : State :=
  let s := (List.range 12).foldl (fun s st => evCount st 15 1 none s) s
  s.ports.foldl (fun s e => if e.2.mac.pause.isEmpty then s else macStat e.1 58 1 s) s

/-- MATE_HB_OUT toggles every 500 ns of the timebase while the heartbeat is live, and is low otherwise (Table 23.1). -/
def heartbeat (s : State) : State :=
  if !hbLive s then hbOut false s else if s.now % 500 = 0 then hbOut (!s.mate.hbOut) s else s

/-- The pause and PFC frames that wait at a port leave, as far as they may (R90). -/
def ctlTick (s : State) : State := s.ports.foldl (fun s e => ctlDrain e.1 s) s

/-- One nanosecond passes: a dump that runs captures its next segment (DESIGN CHOICE, log 99), the heartbeat goes on,
and a warm reset by BOOT_RESET may fall due. A part held in reset keeps its time at 0 (Table 24.1). -/
def tickTime (s : State) : State :=
  if s.boot.held then s
  else
    let s := varveAdvance 1 { s with now := s.now + 1 }
    warmHold (heartbeat (dumpCapture (ctlTick (if s.now % 1000 = 0 then microsecond s else s))))

end Sys2Proof.Machine
end

