-- ==== Sys2Proof/Machine/Registers.lean ====
section
/-! DEFINITION. Accesses to registers (R10, R11, R13, R365, R421, R428 to R433): who reaches a register, what a write of
one does in its block, what a read of one returns and clears. -/
namespace Sys2Proof.Machine

/-! ### Who reaches what (R332, R334, R365) -/

/-- The first address of link k's MSI-X table, and of its pending bits, as the model names them (DESIGN CHOICE, log 4). -/
def msixTableBase : Nat := guildPageBase 8
def msixPbaBase : Nat := guildPageBase 8 + 0x8000

/-- Where an access lands: the set-up space, Guild page g, the requester's MSI-X table or pending bits, or nowhere. -/
inductive Place where
  | setup
  | page (g : Nat)
  | foreign
  | table (k word : Nat)
  | pba (k word : Nat)
  | none
  deriving DecidableEq, Repr

def placeOf (s : State) (req : Requester) (a : Nat) : Place :=
  if a < 0x8000000 then if reachesBar0 s req then .setup else .none
  else if guildPageBase 0 ≤ a ∧ a < guildPageBase 8 then
    let g := (a - guildPageBase 0) / 0x10000
    match req with
    | .link _ => if pageForeign s req g then .foreign else .page g
    | _ => .none
  else
    match req with
    | .link k =>
      if msixTableBase ≤ a ∧ a < msixPbaBase then .table k.val ((a - msixTableBase) / 4)
      else if msixPbaBase ≤ a ∧ a < msixPbaBase + 256 then .pba k.val ((a - msixPbaBase) / 4)
      else .none
    | _ => .none

/-- Station offsets of blocks that G0 alone writes, through BAR0: the engines' registers, ICE, RUL, TSK, SWC, CEL and
MOR, EGR, the injectors. -/
def bar0Station (o : Nat) : Bool :=
  decide ((0x1000 ≤ o ∧ o < 0x2000) ∨ (0x180000 ≤ o ∧ o < 0x200000) ∨ (0x280000 ≤ o ∧ o < 0x400000))

/-- Registers that G0 alone writes, through BAR0 (chs. 7 to 10, 12 to 15, 17 to 24; R365): a write of a housekeeping
engine is ignored (DEDUCED, log 112). -/
def bar0Only (a : Nat) : Bool :=
  decide (0x200000 ≤ a ∧ a < 0x400000)
    || decide (Reg.IRQ_SRC_EN 0 ≤ a ∧ a < Reg.IRQ_SRC_EN 96)
    || decide (Reg.IRQ_SRC_PRIO 0 ≤ a ∧ a < Reg.IRQ_TGT_CLAIM 0)
    || (decide (0x800000 ≤ a ∧ a < 0x2000000) && a != Reg.COOP_HK_ALLOC && a != Reg.COOP_HK_FREE && a != Reg.MATE_KICK)
    || (decide (stationBase 0 ≤ a ∧ a < stationBase 12) && bar0Station ((a - stationBase 0) % 0x400000))

/-- Whether a write of a requester reaches the register at a set-up address. -/
def mayWrite (req : Requester) (a : Nat) : Bool :=
  let hk (p : Fin 4 → Bool) : Bool := match req with | .hk e => p e | _ => false
  if a = Reg.UCS_HK_CFG 0 ∨ a = Reg.UCS_HK_CFG 1 ∨ a = Reg.UCS_HK_TIMER 0 ∨ a = Reg.UCS_HK_TIMER 1 then
    hk fun e => decide (e.val < 2)
  else !(bar0Only a && hk fun _ => true)

/-! ### Set-up that Thaw service only stores (R421) -/

/-- A register whose writes Thaw service stores: the station's PRS, EPT, LPM, ICE, RUL and TSK blocks. -/
def thawStored (a : Nat) : Option Nat :=
  if stationBase 0 ≤ a ∧ a < stationBase 12 then
    let o := (a - stationBase 0) % 0x400000
    if (0xC0000 ≤ o ∧ o < 0x200000) ∨ (0x280000 ≤ o ∧ o < 0x2C0000) then some ((a - stationBase 0) / 0x400000) else none
  else none

/-- The word in force stays in force while the station is not in full service. -/
def thawKeep (a : Nat) (s : State) : State :=
  match thawStored a with
  | some st =>
    if s.full st || (aget? a s.boot.inForce).isSome then s
    else { s with boot := { s.boot with inForce := aset a (s.rd a) s.boot.inForce } }
  | none => s

/-! ### Writes that their blocks check -/

def hifCfgErr (s : State) : State := s.raise Reg.HIF_EVENT Fld.HIF_EVENT_CFG_ERR

/-- HIF_CFG.COMMIT locks both words of a Guild's binding (R433). -/
def hifLocked (s : State) : Bool := s.getB Reg.HIF_CFG Fld.HIF_CFG_COMMIT

/-- A write of HIF_GUILD_BIND (Table 18.16); VALID and LINK of G0 are read-only. -/
def guildBindWrite (g : Nat) (value : Word) (s : State) : State :=
  let a := Reg.HIF_GUILD_BIND g
  if hifLocked s then s
  else if s.gldOn g then hifCfgErr s
  else
    let v := if g = 0 then
        Fld.HIF_GUILD_BIND_LINK.into (Fld.HIF_GUILD_BIND_VALID.into value (s.get a Fld.HIF_GUILD_BIND_VALID))
          (s.get a Fld.HIF_GUILD_BIND_LINK)
      else value
    s.store a v

/-- The ring range of a write of HIF_GUILD_RINGS is one that Guild g may have. -/
def ringsFit (s : State) (g : Nat) (value : Word) : Bool :=
  let n := Fld.HIF_GUILD_RINGS_COUNT.of value
  let b := Fld.HIF_GUILD_RINGS_BASE.of value
  decide (2 ≤ n ∧ n ≤ 1024 ∧ b + n ≤ 8192) &&
    (List.range 8).all fun h =>
      let hb := s.get (Reg.HIF_GUILD_RINGS h) Fld.HIF_GUILD_RINGS_BASE
      h == g || !s.getB (Reg.HIF_GUILD_BIND h) Fld.HIF_GUILD_BIND_VALID
        || decide (b + n ≤ hb ∨ hb + ringCount s h ≤ b)

/-- A write of HIF_GUILD_RINGS (Table 18.16). -/
def guildRingsWrite (g : Nat) (value : Word) (s : State) : State :=
  if hifLocked s then s
  else if s.gldOn g || !ringsFit s g value then hifCfgErr s
  else s.store (Reg.HIF_GUILD_RINGS g) value

/-- A register of the Guild page that EN locks (R339): its write while EN is 1 is ignored and latches CFG_ERR. -/
def gldGuard (g : Nat) (f : State → State) (s : State) : State :=
  if s.gldOn g then s.raise (Reg.GLD_STATUS g) Fld.GLD_STATUS_CFG_ERR else f s

/-- A write of MAC_STAT_CTL (R98). -/
def statCtlWrite (p : Nat) (value : Word) (s : State) : State :=
  let s := s.storeBut (Reg.MAC_STAT_CTL p) Fld.MAC_STAT_CTL_CLEAR value
  if Fld.MAC_STAT_CTL_CLEAR.of value = 1 then statClear p s else s

/-- A write of EPT_FID_MAP, a word of MEM 7 (Table 22.3). -/
def fidMapWrite (st g v : Nat) (value : Word) (s : State) : State :=
  odWrite 7 st (131072 + 4096 * g + v) (s.store (Reg.EPT_FID_MAP st g v) value)

/-- A write of TNK_ERR_EVENT: corrected errors count anew from where CE_TH is cleared. -/
def errEventWrite (value : Word) (s : State) : State :=
  let s := s.store Reg.TNK_ERR_EVENT value
  if Fld.TNK_ERR_EVENT_CE_TH.of value = 1 then { s with tinker := { s.tinker with ceSince := 0 } } else s

/-- What a write of a register does: on the register's indices, the requester, the address and the value. -/
abbrev WriteHook := List Nat → Requester → Nat → Word → State → State

/-- First and second index of a register, and the global number of a port or lane from station and local number. -/
def ix0 (ix : List Nat) : Nat := ix.getD 0 0
def ix1 (ix : List Nat) : Nat := ix.getD 1 0
def ix2 (ix : List Nat) : Nat := ix.getD 2 0
def ixPort (ix : List Nat) : Nat := 12 * ix0 ix + ix1 ix

/-- Registers of the global blocks whose write is more than a store. -/
def globalHooks : List (String × WriteHook) :=
  [("PWR_AVS_MANUAL", fun _ _ _ => avsManualWrite),
   ("THM_STATUS", fun _ _ _ => thmWrite),
   ("BOOT_FULL", fun _ _ _ => bootFullWrite),
   ("BOOT_RESET", fun _ _ _ => bootResetWrite),
   ("IRQ_MSG_DOORBELL", fun _ _ _ v => irqMsg (Fld.IRQ_MSG_DOORBELL_NUMBER.of v)),
   ("IRQ_SRC_EN", fun _ req a v => irqEnableWrite req a v),
   ("IRQ_SRC_PRIO", fun _ _ a v => irqCfgWrite a v),
   ("IRQ_SRC_ROUTE", fun _ _ a v => irqCfgWrite a v),
   ("IRQ_TGT_COMPLETE", fun ix _ _ v => irqComplete (ix0 ix) (Fld.IRQ_TGT_COMPLETE_NUMBER.of v)),
   ("IRQ_TGT_CTL", fun ix _ _ => irqCtlWrite (ix0 ix)),
   ("IRQ_TGT_PRIV_EN", fun _ req a v => irqEnableWrite req a v),
   ("IRQ_TGT_PRIV_PRIO", fun _ _ a v => irqCfgWrite a v),
   ("VRV_CFG", fun _ _ _ => vrvCfgWrite),
   ("VRV_SERVO_CFG", fun _ _ _ => servoCfgWrite),
   ("VRV_PPS_OUT", fun _ _ _ => ppsOutWrite),
   ("VRV_FREQ_OUT", fun _ _ _ => freqOutWrite),
   ("HIF_GUILD_BIND", fun ix _ _ => guildBindWrite (ix0 ix)),
   ("HIF_GUILD_RINGS", fun ix _ _ => guildRingsWrite (ix0 ix)),
   ("HIF_PORT_GUILD", fun _ _ a v s => s.store a (v &&& 0x77777777#32)),
   ("HIF_PUNT_BKT_RATE", fun ix _ _ => puntBucketWrite (ix0 ix) (ix1 ix) false),
   ("HIF_PUNT_BKT_BURST", fun ix _ _ => puntBucketWrite (ix0 ix) (ix1 ix) true),
   ("COOP_THR", fun ix _ _ => coopThrWrite (ix0 ix)),
   ("COOP_HK", fun _ _ _ => coopHkWrite),
   ("COOP_HK_FREE", fun _ req _ => hkFreeWrite req),
   ("HBM_SHARE", fun ix _ _ => hbmShareWrite (ix0 ix)),
   ("HBM_EVENT", fun _ _ _ => hbmEventWrite),
   ("TLY_CFG", fun _ _ _ => tlyCfgWrite),
   ("TLY_BUF", fun _ _ a v => tlyGuard fun s => s.store a v),
   ("TLY_TSTORE", fun ix _ _ => storeWrite (ix0 ix)),
   ("MATE_KICK", fun _ req _ _ => mateKick req),
   ("TNK_SEED", fun _ _ _ => seedWrite),
   ("TNK_MEMINJ", fun _ _ _ => meminjWrite),
   ("TNK_ERR_EVENT", fun _ _ _ => errEventWrite)]

/-- Word w of an injector: its write. -/
def injHook (w : Nat) : WriteHook := fun ix _ _ => injWordWrite (ixPort ix) (ix2 ix) w

/-- After a register of a station that PFC depends on has been written, XOFF follows. Pause times in force stay through a
change of MODE, which R86 leaves open (DESIGN CHOICE, log 122). -/
def xoffHook : WriteHook := fun ix _ a v s => xoffUpdate (ix0 ix) (s.store a v)

/-- Registers of the stations whose write is more than a store. -/
def stationHooks : List (String × WriteHook) :=
  [("STN_EV_OVF_EN", fun ix _ a v s => s.store a (if ix1 ix = 0 then v else v &&& 0xFFFF#32)),
   ("STN_QUAD", fun ix _ _ => quadWrite (3 * ix0 ix + ix1 ix)),
   ("LANE_CFG", fun ix _ _ => cfgWrite (ixPort ix)),
   ("LANE_AN_ADV", fun ix _ _ => advWrite (ixPort ix)),
   ("LANE_TXEQ", fun ix _ _ => txeqWrite (ixPort ix)),
   ("LANE_TEST", fun ix _ _ => testWrite (ixPort ix)),
   ("MAC_CFG", fun ix _ => macCfgWrite (ixPort ix)),
   ("MAC_FC_CFG", xoffHook),
   ("MAC_MERGE_CFG", fun ix _ _ => mergeWrite (ixPort ix)),
   ("MAC_STAT_CTL", fun ix _ _ => statCtlWrite (ixPort ix)),
   ("PRS_CFG", fun ix _ _ => prsCfgWrite (ix0 ix)),
   ("PRS_NODE", fun _ _ => parseMemWrite),
   ("PRS_TRANS", fun _ _ => parseMemWrite),
   ("EPT_FID_MAP", fun ix _ _ => fidMapWrite (ix0 ix) (ix1 ix) (ix2 ix)),
   ("UCS_RD_DATA", fun ix _ _ _ => ucsStoreWrite (ix0 ix)),
   ("UCS_DISPATCH", fun ix _ _ _ => ucsStoreWrite (ix0 ix)),
   ("UCS_HK_DISPATCH", fun _ _ _ _ => ucsStoreWrite 0),
   ("UCS_HK_CTL", fun ix _ _ => hkCtlWrite (ix0 ix)),
   ("SWC_CFG", xoffHook),
   ("SWC_HEADROOM", xoffHook),
   ("SWC_PFC_CFG", xoffHook),
   ("CEL_FREE", fun ix _ _ => celFreeWrite (ix0 ix)),
   ("EGR_PORT_CFG", fun ix _ a v s => operUpdate (ixPort ix) (s.store a v)),
   ("EGR_WFQ_LO", fun ix _ => wfqWrite (ixPort ix)),
   ("EGR_WFQ_HI", fun ix _ => wfqWrite (ixPort ix)),
   ("EGR_GCL_CTL", fun ix _ _ => gclWrite (ixPort ix)),
   ("EGR_HIST_CFG", fun ix _ _ => histWrite (ixPort ix)),
   ("EGR_GATE_INTERVAL", fun ix _ => gateEntryWrite (ixPort ix) (ix2 ix)),
   ("EGR_GATE_GATES", fun ix _ => gateEntryWrite (ixPort ix) (ix2 ix)),
   ("TNK_SEL", fun ix _ _ v => injSelWrite (ixPort ix) (ix2 ix) v false),
   ("TNK_MATCH", injHook 1), ("TNK_MASK", injHook 2), ("TNK_TRIG", injHook 3), ("TNK_LIMIT", injHook 4),
   ("TNK_CORR_OFF", injHook 5), ("TNK_CORR_MASK", injHook 6), ("TNK_WIN_START_NS", injHook 7),
   ("TNK_WIN_START_SEC", injHook 8), ("TNK_WIN_END_NS", injHook 9), ("TNK_WIN_END_SEC", injHook 10),
   ("TNK_INJ_CNT", injHook 11)]

/-- A write of GLD_CTL: EN = 0 disables the Guild; a write that enables one is GUILD_ENABLE, which has a row of its own
(DEDUCED, log 113). -/
def gldCtlWrite (g : Nat) (value : Word) (s : State) : State :=
  if Fld.GLD_CTL_EN.of value = 0 then guildOff g s else s

/-- Registers of a Guild page whose write is more than a store. -/
def pageHooks : List (String × WriteHook) :=
  [("GLD_CTL", fun ix _ _ => gldCtlWrite (ix0 ix)),
   ("GLD_BOOT_VEC", fun ix _ _ => bootVecWrite (ix0 ix)),
   ("GLD_STATUS", fun ix _ _ => gldStatusWrite (ix0 ix))]

/-- A whole register takes a written word. -/
def wordWrite (h : RegHit) (req : Requester) (a : Nat) (v : Word) (s : State) : State :=
  match (globalHooks ++ stationHooks ++ pageHooks).lookup h.reg.name with
  | some f => f h.idx req a v s
  | none => s.store a v

/-! ### 64-bit registers (R11) -/

/-- The guard that a pair's own chapter puts before a write of either word. -/
def pairGuard (h : RegHit) (f : State → State) (s : State) : State :=
  let n := h.reg.name
  if n = "TLY_HOST_BASE_LO" || n = "TLY_HOST_BASE_HI" then tlyGuard f s
  else if ["GLD_DB_ADDR_LO", "GLD_DB_ADDR_HI", "GLD_BOOT_CMD_LO", "GLD_BOOT_CMD_HI", "GLD_BOOT_CPL_LO",
      "GLD_BOOT_CPL_HI"].contains n then gldGuard (ix0 h.idx) f s
  else f s

/-- The word kept under a key. -/
def latchWord (k : LatchKey) (l : List (LatchKey × Word)) : Option Word :=
  (l.find? fun e => e.1 == k).map Prod.snd

/-- The low word is kept for its requester; the device acts on nothing yet. -/
def lowWrite (req : Requester) (a : Nat) (v : Word) (s : State) : State :=
  let k : LatchKey := ⟨req, a⟩
  { s with lows := (k, v) :: s.lows.filter fun e => e.1 != k }

/-- The high word makes the pair take effect, with the requester's latest low word, else the one the register holds. -/
def highWrite (req : Requester) (a : Nat) (v : Word) (s : State) : State :=
  let lo := (latchWord ⟨req, a - 4⟩ s.lows).getD (s.rd (a - 4))
  (s.store (a - 4) lo).store a v

/-! ### A write (R428, R430 to R433) -/

/-- A write of a register, at its set-up or Guild-page address. -/
def regStore (req : Requester) (a : Nat) (v : Word) (s : State) : State :=
  match regAt a with
  | none => s
  | some h =>
    match h.reg.part with
    | .low => pairGuard h (lowWrite req a v) s
    | .high => pairGuard h (fun s => highWrite req a v (thawKeep (a - 4) (thawKeep a s))) s
    | .whole => wordWrite h req a v (thawKeep a s)

/-- A partial write of a dword is ignored and latched (R430, Table 25.5). -/
def partialWrite (a : Nat) (s : State) : State :=
  let s := if s.getB Reg.CHIP_STATUS Fld.CHIP_STATUS_ACC_ERR then s
    else s.put Reg.CHIP_STATUS Fld.CHIP_STATUS_ADDR (a % 2 ^ 27)
  s.raise Reg.CHIP_STATUS Fld.CHIP_STATUS_ACC_ERR

/-- A requester writes a word at an address. A partial write through a Guild page is ignored like any other, but its
address is none of the set-up space, so CHIP_STATUS keeps what it holds (DEDUCED, log 112). -/
def regWrite (req : Requester) (addr : Nat) (v : Word) (partialBytes : Bool) (s : State) : State :=
  let a := addr - addr % 4
  match placeOf s req a with
  | .none => s
  | .foreign => isoViol s
  | .setup => if partialBytes then partialWrite a s else if mayWrite req a then regStore req a v s else s
  | .page _ => if partialBytes then s else regStore req (homeAddr a) v s
  | .table k w => if partialBytes then s else msixTableWrite k w v s
  | .pba _ _ => s

/-- REGISTER_WRITE. -/
def execRegisterWrite (req : Requester) (addr : Nat) (value : Word) (partialBytes : Bool) (s : State) : Out :=
  act s (regWrite req addr value partialBytes)

/-- HIGH_WORD_WRITE: of the high word of a 64-bit register. -/
def execHighWordWrite (req : Requester) (addr : Nat) (value : Word) (s : State) : Out :=
  act s fun s => if partOf (homeAddr (addr - addr % 4)) = .high then regWrite req addr value false s else s

/-- An address holds enable bits: of IRQ_SRC_EN, or of a target's IRQ_TGT_PRIV_EN. -/
def enablesAt (a : Nat) : Bool :=
  match regAt a with
  | some h => h.reg.name = "IRQ_SRC_EN" || h.reg.name = "IRQ_TGT_PRIV_EN"
  | none => false

/-- IRQ_ENABLE_WRITE: by whoever reaches the register (R365). -/
def execIrqEnableWrite (req : Requester) (addr : Nat) (value : Word) (s : State) : Out :=
  act s fun s => if enablesAt (homeAddr (addr - addr % 4)) then regWrite req addr value false s else s

/-! ### A read (R10, R13) -/

/-- The RC fields of a register clear. -/
def rcClear (h : RegHit) (a : Nat) (s : State) : State :=
  h.reg.fields.foldl (fun s f => if f.acc = .rc then s.put a f 0 else s) s

/-- A word that a requester's read of a low word has latched; the high word's reset value where it has read none
(DESIGN CHOICE, log 98). -/
def latched (s : State) (req : Requester) (lo : Nat) : Word := (latchWord ⟨req, lo⟩ s.latches).getD (regReset (lo + 4))

/-- The word that a read of a register returns, and what the read does. -/
def regLoad (req : Requester) (a : Nat) (s : State) : Word × State :=
  match regAt a with
  | none => (0#32, s)
  | some h =>
    let n := h.reg.name
    let i := ix0 h.idx
    if n = "IRQ_TGT_CLAIM" then irqClaim i s
    else if n = "IRQ_SRC_EN" || n = "IRQ_TGT_PRIV_EN" then (regView s a, irqReadback req a s)
    else if n = "VRV_TIME_NS" then vrvTimeRead req s
    else if n = "VRV_TIME_SEC_LO" || n = "VRV_TIME_SEC_HI" then (latched s req a, s)
    else if n = "COOP_HK_ALLOC" then hkAllocRead req s
    else if n = "STN_AE_TRAP_LO" then trapRead req i s
    else if n = "VRV_TXQ_LO" then txqRead req i s
    else
      match h.reg.part with
      | .low => (regView s a, s.latch req a (regView s (a + 4)))
      | .high => (latched s req (a - 4), s)
      | .whole => (regView s a, rcClear h a s)

/-- A requester reads a word: the value, and whether any answer comes at all. -/
def regRead (req : Requester) (addr : Nat) (s : State) : Option Word × State :=
  let a := addr - addr % 4
  let answer (r : Word × State) : Option Word × State := (some r.1, r.2)
  match placeOf s req a with
  | .none => (none, s)
  | .foreign => (some 0#32, isoViol s)
  | .setup => answer (regLoad req a s)
  | .page _ => answer (regLoad req (homeAddr a) s)
  | .table k w => (some (msixTableRead s k w), s)
  | .pba k w => (some (msixPba s k w), s)

/-- A read and its answer. -/
def regReadOut (req : Requester) (addr : Nat) (s : State) : State :=
  match regRead req addr s with
  | (some w, s) => s.emit (.read req (addr - addr % 4) w)
  | (none, s) => s

/-- LOW_WORD_READ_LATCH: of the low word of a 64-bit register. -/
def execLowWordReadLatch (req : Requester) (addr : Nat) (s : State) : Out :=
  act s fun s => if partOf (homeAddr (addr - addr % 4)) = .low then regReadOut req addr s else s

/-- RC_FIELD_READ; a register without RC fields is read as any register is (DEDUCED, log 112). -/
def execRcFieldRead (req : Requester) (addr : Nat) (s : State) : Out := act s (regReadOut req addr)

end Sys2Proof.Machine
end

