-- ==== Sys2Proof/Machine/Housekeeping.lean ====
section
/-! DEFINITION. The housekeeping engines' words (R234 to R239): their checks, their memory port, their register port, the
micro-stack of service mode; and one word of any engine. -/
namespace Sys2Proof.Machine

/-! ### The memory port (R237, R278, R367) -/

/-- The block that the memory port addresses: v16[39:6] × 64. -/
def hkBlockAddr (regs : List (BitVec 64)) : Nat := bits (vGet regs 16).toNat 39 6 * 64

/-- An address of the Cooperage. -/
def inCooperage (a : Nat) : Bool := decide (0xF000000000 ≤ a ∧ a < 0xF001000000)

/-- An address of the housekeeping pool: the highest blocks of pool 3. -/
def inHkPool (s : State) (a : Nat) : Bool :=
  decide (blockAddr 3 (stackFirst s 4) ≤ a ∧ a < blockAddr 3 336)

/-- Where HK2 and HK3 may go: the data tables, the telemetry store, the shared windows, the housekeeping pool. -/
def hkMayReach (s : State) (e a : Nat) : Bool :=
  decide (e < 2) || decide (0x400000000 ≤ a ∧ a < 0x700000000) || inHkPool s a

/-- A free 64-bit value. -/
def hkFree64 (s : State) : List Byte × State :=
  ((List.range 64).map fun k => BitVec.ofNat 8 (Config.hbmByte s.fresh k), { s with fresh := s.fresh + 1 })

/-- A read of a block: 0 where it is refused; a free value while the stacks have not trained, or of a block in error
(DESIGN CHOICE, log 69). -/
def hkBlockRead (a : Nat) (s : State) : List Byte × State :=
  if inCooperage a then
    match odRead 14 0 ((a - 0xF000000000) / 64) s with
    | (.bad, s) => hkFree64 s
    | (_, s) => (s.mrd a 64, s)
  else if hbmReserved a then (zeros 64, hbmRefuse s)
  else if !hbmReady s then hkFree64 s
  else
    match hbmRead a 64 s with
    | (_, true, s) => hkFree64 s
    | (b, false, s) => (b, s)

/-- Bytes written at an address: discarded where the access is refused, and while the stacks have not trained. -/
def hkBytesWrite (a : Nat) (bs : List Byte) (s : State) : State :=
  if bs.isEmpty then s
  else if inCooperage a then odWrite 14 0 ((a - 0xF000000000) / 64) (s.mwr a bs)
  else if hbmReserved a then hbmRefuse s
  else if !hbmReady s then s
  else hbmWrite a bs s

/-- STH: the enabled lanes whose offset is at most 63. The lanes between them are rewritten as
they stand once the adds accepted before have been executed (R369). -/
def hkStore (a off en v : Nat) (s : State) : State :=
  let ks := (List.range 8).filter fun k => en.testBit k && decide (off + k < 64)
  match ks.head?, ks.getLast? with
  | some lo, some hi =>
    let n := hi + 1 - lo
    let s := addsFlush (hbmBlock a) s
    let old := s.mrd (a + off + lo) n
    hkBytesWrite (a + off + lo)
      (old.mapIdx fun i b => if en.testBit (lo + i) then BitVec.ofNat 8 (v / 256 ^ (lo + i)) else b) s
  | _, _ => s

/-- ADDX: a posted add; in the Cooperage the word takes it at once (DEDUCED, log 114). -/
def hkAdd (a v : Nat) (s : State) : State :=
  if inCooperage a then hkBytesWrite a (leBytes 8 (leVal (s.mrd a 8) + v)) s
  else if hbmReserved a then hbmRefuse s
  else if hbmReady s then portAdd 3 a v s
  else s

/-- The memory port's part of a word. -/
def hkMemStep (w : BitVec 160) (start : List (BitVec 64)) (r : Run) (s : State) : Run × State :=
  let a := hkBlockAddr start
  let v := (vGet start (mwLpReg w)).toNat
  match mwLpOp w with
  | 2 =>
    let (b, s) := hkBlockRead a s
    ({ r with regs := vSet r.regs (mwLpReg w) (BitVec.ofNat 64 (lpLoad b (mwLpOff w) (mwByteEn w))) }, s)
  | 3 => (r, hkStore a (mwLpOff w) (mwByteEn w) v s)
  | 4 => (r, hkAdd (a + 8 * (mwLpOff w % 8)) v s)
  | _ => (r, s)

/-! ### The register port (R237, R430) -/

/-- The register that an indexed header operation names. -/
def hkRegAddr (w : BitVec 160) (regs : List (BitVec 64)) : Nat :=
  (vGet regs (8 + mwHpOff w / 64)).toNat % 2 ^ 27 + 4 * (mwHpOff w % 64)

/-- The register port's part of a word: one access, of the engine's own requester. -/
def hkRegStep (e : Fin 4) (w : BitVec 160) (start : List (BitVec 64)) (r : Run) (s : State) : Run × State :=
  let a := hkRegAddr w start
  match mwHpOp w with
  | 2 =>
    let (v, s) := regRead (.hk e) a s
    ({ r with regs := vSet r.regs (mwHpReg w) (BitVec.ofNat 64 (v.getD 0#32).toNat) }, s)
  | 4 => (r, regWrite (.hk e) a (BitVec.ofNat 32 ((vGet start (mwHpReg w)).toNat % 2 ^ 32)) false s)
  | _ => (r, s)

/-! ### The fault of a word (R236 to R239) -/

/-- What the check of a housekeeping engine's word needs. -/
def hkEnv (s : State) (e : Nat) (r : Run) : WordEnv :=
  { disp := s.hkStore.bound, custBase := 8192, size := 16384, service := hkService s e, lease := true
    pass := passBits r.regs }

/-- Operations that a housekeeping engine's ports do not have (Table 11.8). -/
def hkIllegal (w : BitVec 160) : Bool :=
  mwLpOp w == 1 || (mwHpOp w != 0 && ((mwHpOp w != 2 && mwHpOp w != 4) || mwHpLen w != 3))

/-- Where a SLEEP that holds goes on once it is woken: no word of the store, or one outside the region (DEDUCED, log
66). -/
def sleepOutside (e : Nat) (w : BitVec 160) (r : Run) (env : WordEnv) : Bool :=
  mwSeqop w == 6 && condHolds (mwCond w) r env.pass && (decide (env.size ≤ r.pc + 1) || !hkRegion e (r.pc + 1))

/-- A next address outside the region that the engine runs (DEDUCED, log 66), or a memory address outside what it
reaches. -/
def hkOutside (s : State) (e : Nat) (w : BitVec 160) (r : Run) (env : WordEnv) : Bool :=
  wordRegion w r env || sleepOutside e w r env
    || (match wordNext w r env with | some a => !hkRegion e a | none => false)
    || (mwLpOp w != 0 && !hkMayReach s e (hkBlockAddr r.regs))

/-- A ninth CALL, or a RET with the stack empty (R238). -/
def hkStackFault (w : BitVec 160) (r : Run) (env : WordEnv) : Bool :=
  condHolds (mwCond w) r env.pass
    && ((mwSeqop w == 4 && decide (8 ≤ r.stack.length)) || (mwSeqop w == 5 && r.stack.isEmpty))

/-- The fault code that a word raises, the lowest first; RUNAWAY before the word is examined (R219). -/
def hkWordFault (s : State) (e : Nat) (w : BitVec 160) (r : Run) (env : WordEnv) : Option Nat :=
  if wordIllegal w r env || hkIllegal w then some FaultCode.illegal.num
  else if !env.service && decide (4 ≤ mwSeqop w) && decide (mwSeqop w ≤ 6) && condHolds (mwCond w) r env.pass then
    some FaultCode.serviceOnly.num
  else if hkOutside s e w r env then some FaultCode.region.num
  else if hkStackFault w r env then some 10
  else none

/-! ### One word (R199, R237) -/

/-- Both ALUs, and the word count. -/
def hkAlus (w : BitVec 160) (r : Run) : Run :=
  let (regs1, fa) := aluStep w (mwAlu w 104) r.regs r.regs r.fa
  let (regs2, fb) := aluStep w (mwAlu w 72) r.regs regs1 r.fb
  { r with regs := regs2, fa := fa, fb := fb, words := r.words + 1, total := r.total + 1 }

/-- The micro-stack after a word (R238). -/
def hkStack (w : BitVec 160) (r : Run) (env : WordEnv) : List Nat :=
  if !condHolds (mwCond w) r env.pass then r.stack
  else match mwSeqop w with
    | 4 => (r.pc + 1) :: r.stack
    | 5 => r.stack.tail
    | _ => r.stack

/-- The engine after its last word: it takes its next job, or halts in service mode. -/
def hkEnd (e : Nat) (s : State) : State :=
  let s := s.modHk e fun x => { x with run := none }
  if hkService s e then s.putB (Reg.UCS_HK_CTL e) Fld.UCS_HK_CTL_RUN false else s

/-- A word that raises no fault; every write acts at its end, COMMIT, EMIT and TRAP do nothing (DEDUCED, log 114). -/
def hkWordRun (e : Fin 4) (w : BitVec 160) (r : Run) (env : WordEnv) (s : State) : State :=
  let (r1, s) := hkMemStep w r.regs (hkAlus w r) s
  let (r2, s) := hkRegStep e w r.regs r1 s
  match wordNext w r env with
  | none => hkEnd e.val s
  | some a =>
    let asleep := mwSeqop w == 6 && condHolds (mwCond w) r env.pass
    s.modHk e.val fun x => { x with run := some { r2 with pc := a, stack := hkStack w r env }, asleep := asleep }

/-- One word of housekeeping engine e; a fault halts it at the word (R239). -/
def hkExecute (e : Fin 4) (s : State) : State :=
  let x := s.hkEng e.val
  match x.run with
  | none => s
  | some r =>
    if x.asleep then s
    else if r.runaway then hkFault e.val FaultCode.runaway.num r.pc s
    else match odRead 17 0 r.pc s with
      | (.bad, s) => hkFault e.val FaultCode.ecc.num r.pc s
      | (_, s) =>
        let w := s.hkStore.word r.pc
        let env := hkEnv s e.val r
        let (read, s) := chainRead 17 0 w r env s
        match hkWordFault s e.val w r (env.chained w r read) with
        | some c => hkFault e.val c r.pc s
        | none => if read then hkWordRun e w r env s else hkFault e.val FaultCode.ecc.num r.pc s

/-- MICROWORD_EXECUTE. -/
def execMicrowordExecute (x : EngineRef) (s : State) : Out :=
  act s fun s =>
    match x with
    | .ae st e => aeExecute st.val e.val s
    | .hk e => hkExecute e s

end Sys2Proof.Machine
end

