-- ==== Sys2Proof/Machine/Mgmt.lean ====
section
/-! DEFINITION. The management ports (ch. 26): the I2C port's reads and alert response, the JTAG port. -/
namespace Sys2Proof.Machine

/-! ### I2C (R449) -/

/-- The register that a command byte names (Table 26.10). -/
def i2cRegister (c : Nat) : Option Nat :=
  if c = 0 then some Reg.CHIP_ID
  else if c = 1 then some Reg.BOOT_STATUS
  else if c = 2 then some Reg.THM_STATUS
  else if c = 3 then some Reg.PWR_AVS_STATUS
  else if c = 4 then some Reg.MATE_STATUS
  else if 0x10 ≤ c ∧ c < 0x20 then some (Reg.THM_SENSOR (c - 0x10))
  else if 0x20 ≤ c ∧ c < 0x22 then some (Reg.HBM_TEMP (c - 0x20))
  else none

/-- The port's 7-bit address. -/
def i2cAddress (s : State) : Nat := 0x58 + s.boot.i2cAddr

/-- One bit of the CRC-8 of SMBus packet error checking, x⁸ + x² + x + 1. -/
def crc8Bit (c : Nat) : Nat := if 128 ≤ c then (c * 2 % 256) ^^^ 7 else c * 2

def crc8Byte (c : Nat) (b : Byte) : Nat :=
  crc8Bit (crc8Bit (crc8Bit (crc8Bit (crc8Bit (crc8Bit (crc8Bit (crc8Bit (c ^^^ b.toNat))))))))

def crc8 (bs : List Byte) : Nat := bs.foldl crc8Byte 0

/-- I2C_BLOCK_READ: four bytes, and the PEC that follows if the host clocks it (PRESUMED, log 108); any other command
byte is not acknowledged. -/
def execI2cBlockRead (command : Byte) (s : State) : Out :=
  .next <|
    if s.boot.coldHeld then s
    else match i2cRegister command.toNat with
      | none => s.emit (.smbus none)
      | some a =>
        let d := leBytes 4 (regView s a).toNat
        let w := BitVec.ofNat 8 (2 * i2cAddress s)
        s.emit (.smbus (some (d ++ leBytes 1 (crc8 ([w, command, w ||| 1#8, 4#8] ++ d)))))

/-- SMB_ALERT_RESPONSE: the device answers with its address. -/
def execSmbAlertResponse (s : State) : Out :=
  .next <|
    if s.boot.coldHeld || !smbAlert s then s
    else s.emit (.smbus (some [BitVec.ofNat 8 (2 * i2cAddress s)]))

/-! ### JTAG (R450, IEEE 1149.1) -/

/-- The state of the TAP controller after a rising edge of TCK. -/
def TapState.next : TapState → Bool → TapState
  | .reset, tms => if tms then .reset else .idle
  | .idle, tms => if tms then .selDr else .idle
  | .selDr, tms => if tms then .selIr else .capDr
  | .capDr, tms => if tms then .ex1Dr else .shDr
  | .shDr, tms => if tms then .ex1Dr else .shDr
  | .ex1Dr, tms => if tms then .upDr else .paDr
  | .paDr, tms => if tms then .ex2Dr else .paDr
  | .ex2Dr, tms => if tms then .upDr else .shDr
  | .upDr, tms => if tms then .selDr else .idle
  | .selIr, tms => if tms then .reset else .capIr
  | .capIr, tms => if tms then .ex1Ir else .shIr
  | .shIr, tms => if tms then .ex1Ir else .shIr
  | .ex1Ir, tms => if tms then .upIr else .paIr
  | .paIr, tms => if tms then .ex2Ir else .paIr
  | .ex2Ir, tms => if tms then .upIr else .shIr
  | .upIr, tms => if tms then .selDr else .idle

/-- The n low bits of a number, bit 0 first. -/
def boolBits (n v : Nat) : List Bool := (List.range n).map v.testBit

/-- The level of a signal of Table 26.3 that the part holds, in the model's numbering; none of any other. -/
def pinLevel (s : State) (pin : Nat) : Option Bool :=
  let strap := s.rdN Reg.BOOT_STRAP
  match pin with
  | 0 => some s.varve.pps
  | 1 => some s.varve.freq
  | 2 => some !s.boot.coldHeld
  | 3 => some !s.getB Reg.THM_STATUS Fld.THM_STATUS_CRIT
  | 4 => some !s.power.smbLow
  | 5 => some s.mate.actOut
  | 6 => some s.mate.hbOut
  | 7 => some (mateBit s Fld.MATE_STATUS_PEER_ACT)
  | 8 => some !mateBit s Fld.MATE_STATUS_FORCED
  | 9 => some (strap.testBit 8)
  | 10 | 11 => some (strap.testBit (pin - 10))
  | 12 | 13 => some (strap.testBit (pin - 8))
  | 14 | 15 => some (s.boot.i2cAddr.testBit (pin - 14))
  | 16 | 17 | 18 | 19 => some !s.getB (Reg.HIF_LINK_STATUS (pin - 16)) Fld.HIF_LINK_STATUS_PERST
  | _ => none

/-- What Capture-DR loads: 0 for BYPASS, the IDCODE, the levels of the signals. -/
def jtagCapture (s : State) (draw : Nat) : List Bool :=
  match jtagKind s.jtag with
  | 0 => [false]
  | 1 => boolBits 32 0x101446C9
  | _ => (List.range Config.boundaryLen).map fun k =>
      (pinLevel s (Config.boundaryPin k)).getD (Config.boundaryCell draw k)

/-- A register shifts towards TDO, TDI entering at its far end. -/
def shiftIn (l : List Bool) (tdi : Bool) : List Bool := l.tail ++ [tdi]

/-- What the rising edge does in the controller's state. Capture-IR loads 01 in the two low bits; the others are free. -/
def jtagRise (tdi : Bool) (s : State) : State :=
  let j := s.jtag
  match j.tap with
  | .capDr =>
    let (d, s) := s.drawNat
    { s with jtag := { j with dr := jtagCapture s d } }
  | .shDr => { s with jtag := { j with dr := shiftIn j.dr tdi } }
  | .capIr =>
    let (d, s) := s.drawNat
    { s with jtag := { j with ir := [true, false] ++ boolBits Config.jtagIrLen d } }
  | .shIr => { s with jtag := { j with ir := shiftIn j.ir tdi } }
  | _ => s

/-- What the port holds after the falling edge in state t: an instruction takes effect in Update-IR, and IDCODE in
Test-Logic-Reset; Update-DR puts the boundary-scan register into its cells. In Run-Test/Idle the pins of IEEE 1149.6 show
the inverse of their cells under EXTEST_PULSE, and change with each cycle under EXTEST_TRAIN. -/
def jtagFall (t : TapState) (j : Jtag) : Jtag :=
  let j := { j with tap := t }
  let j := match t with
    | .reset => { j with instr := none }
    | .upIr => { j with instr := some j.ir }
    | .upDr => if 2 ≤ jtagKind j then { j with cells := j.dr } else j
    | _ => j
  { j with inverse := t == .idle && (jtagKind j == 3 || (jtagKind j == 4 && !j.inverse)) }

/-- The bit that TDO shows; it is held low while RESET_N is low (R448). -/
def tdoShow (l : List Bool) (s : State) : State := s.emit (.tdo (l.headD false && !s.boot.coldHeld))

/-- JTAG_OPERATION: one cycle of TCK, after whose falling edge TDO shows the next bit of a register that shifts; or TRST_N
goes low, which is Test-Logic-Reset. -/
def execJtagOperation (input : TapInput) (tdi : Bool) (s : State) : Out :=
  let was := scanDrive s
  .next <| match input with
    | .trst => scanShow was { s with jtag := jtagFall .reset s.jtag }
    | .cycle tms =>
      let t := s.jtag.tap.next tms
      let s := jtagRise tdi s
      let s := scanShow was { s with jtag := jtagFall t s.jtag }
      match t with
      | .shDr => tdoShow s.jtag.dr s
      | .shIr => tdoShow s.jtag.ir s
      | _ => s

end Sys2Proof.Machine
end

