-- ==== Sys2Proof/Machine/Dispatch.lean ====
section
/-! DEFINITION. The meaning of every command: one arm per constructor of `Instr`. -/
namespace Sys2Proof.Machine

def exec (i : Instr) (s : State) : Host.Outcome State Fault Refusal :=
  match i with
  | .registerWrite req addr value partialBytes => Sys2Proof.Machine.execRegisterWrite req addr value partialBytes s
  | .lowWordReadLatch req addr => Sys2Proof.Machine.execLowWordReadLatch req addr s
  | .highWordWrite req addr value => Sys2Proof.Machine.execHighWordWrite req addr value s
  | .rcFieldRead req addr => Sys2Proof.Machine.execRcFieldRead req addr s
  | .paceMeasure counts => Sys2Proof.Machine.execPaceMeasure counts s
  | .avsPeriod => Sys2Proof.Machine.execAvsPeriod s
  | .avsBusFault fault => Sys2Proof.Machine.execAvsBusFault fault s
  | .avsManualWrite value => Sys2Proof.Machine.execAvsManualWrite value s
  | .thermalSample readings => Sys2Proof.Machine.execThermalSample readings s
  | .quadModeWrite q value => Sys2Proof.Machine.execQuadModeWrite q value s
  | .portEnable p value => Sys2Proof.Machine.execPortEnable p value s
  | .portDisable p value => Sys2Proof.Machine.execPortDisable p value s
  | .portOff p => Sys2Proof.Machine.execPortOff p s
  | .portCfgStageWrite p reg value => Sys2Proof.Machine.execPortCfgStageWrite p reg value s
  | .anResolution p partner => Sys2Proof.Machine.execAnResolution p partner s
  | .trainingDone p => Sys2Proof.Machine.execTrainingDone p s
  | .trainingTimeout p => Sys2Proof.Machine.execTrainingTimeout p s
  | .trainHoldoffExpiry p => Sys2Proof.Machine.execTrainHoldoffExpiry p s
  | .lockAcquired p => Sys2Proof.Machine.execLockAcquired p s
  | .alignTimeout p => Sys2Proof.Machine.execAlignTimeout p s
  | .lockLost p => Sys2Proof.Machine.execLockLost p s
  | .downHoldExpiry p => Sys2Proof.Machine.execDownHoldExpiry p s
  | .remoteFaultReceived p => Sys2Proof.Machine.execRemoteFaultReceived p s
  | .remoteFaultCleared p => Sys2Proof.Machine.execRemoteFaultCleared p s
  | .refclkLoss k => Sys2Proof.Machine.execRefclkLoss k s
  | .refclkRestored k => Sys2Proof.Machine.execRefclkRestored k s
  | .laneLatencyMeasured lane tx rx => Sys2Proof.Machine.execLaneLatencyMeasured lane tx rx s
  | .fecUncorrectable p corrected symbols => Sys2Proof.Machine.execFecUncorrectable p corrected symbols s
  | .laneTestWrite p value => Sys2Proof.Machine.execLaneTestWrite p value s
  | .loopbackChange p value => Sys2Proof.Machine.execLoopbackChange p value s
  | .prbsLock check => Sys2Proof.Machine.execPrbsLock check s
  | .prbsLockLost lane errors => Sys2Proof.Machine.execPrbsLockLost lane errors s
  | .rxFrameComplete p rx => Sys2Proof.Machine.execRxFrameComplete p rx s
  | .pauseTimeExpiry p cls => Sys2Proof.Machine.execPauseTimeExpiry p cls s
  | .pauseRefresh p => Sys2Proof.Machine.execPauseRefresh p s
  | .txFrameEnd p express => Sys2Proof.Machine.execTxFrameEnd p express s
  | .mergeCfgWrite p value => Sys2Proof.Machine.execMergeCfgWrite p value s
  | .mergeEnTakesEffect p => Sys2Proof.Machine.execMergeEnTakesEffect p s
  | .verifyTimer p => Sys2Proof.Machine.execVerifyTimer p s
  | .verifyMpacketReceived p => Sys2Proof.Machine.execVerifyMpacketReceived p s
  | .respondMpacketReceived p => Sys2Proof.Machine.execRespondMpacketReceived p s
  | .preemption p sent => Sys2Proof.Machine.execPreemption p sent s
  | .fragmentResume p => Sys2Proof.Machine.execFragmentResume p s
  | .statClear p => Sys2Proof.Machine.execStatClear p s
  | .tokenTake st => Sys2Proof.Machine.execTokenTake st s
  | .laneResume st lane => Sys2Proof.Machine.execLaneResume st lane s
  | .parsePlaneSwitch st value => Sys2Proof.Machine.execParsePlaneSwitch st value s
  | .oldPlaneDrained st => Sys2Proof.Machine.execOldPlaneDrained st s
  | .parseMemoryWrite addr value => Sys2Proof.Machine.execParseMemoryWrite addr value s
  | .prsCommit st value => Sys2Proof.Machine.execPrsCommit st value s
  | .puntBucketWrite g reason burst value => Sys2Proof.Machine.execPuntBucketWrite g reason burst value s
  | .eptLookupDone st slot => Sys2Proof.Machine.execEptLookupDone st slot s
  | .learnApply st => Sys2Proof.Machine.execLearnApply st s
  | .eptNowTick st => Sys2Proof.Machine.execEptNowTick st s
  | .eptSweepVisit st => Sys2Proof.Machine.execEptSweepVisit st s
  | .routeLookupDone st slot => Sys2Proof.Machine.execRouteLookupDone st slot s
  | .eptAdd g ring => Sys2Proof.Machine.execEptAdd g ring s
  | .eptDel g ring => Sys2Proof.Machine.execEptDel g ring s
  | .eptFlush g ring => Sys2Proof.Machine.execEptFlush g ring s
  | .eptRead g ring => Sys2Proof.Machine.execEptRead g ring s
  | .eptUnfreeze g ring => Sys2Proof.Machine.execEptUnfreeze g ring s
  | .lpmAdd g ring => Sys2Proof.Machine.execLpmAdd g ring s
  | .lpmDel g ring => Sys2Proof.Machine.execLpmDel g ring s
  | .lpmRead g ring => Sys2Proof.Machine.execLpmRead g ring s
  | .iceSearch st slot => Sys2Proof.Machine.execIceSearch st slot s
  | .mmStep st slot => Sys2Proof.Machine.execMmStep st slot s
  | .searchRetry st slot => Sys2Proof.Machine.execSearchRetry st slot s
  | .waitEntryFillStart st entry => Sys2Proof.Machine.execWaitEntryFillStart st entry s
  | .fill st => Sys2Proof.Machine.execFill st s
  | .create st => Sys2Proof.Machine.execCreate st s
  | .release st => Sys2Proof.Machine.execRelease st s
  | .recallRefused st => Sys2Proof.Machine.execRecallRefused st s
  | .fillReturned st => Sys2Proof.Machine.execFillReturned st s
  | .fillNoRecord st => Sys2Proof.Machine.execFillNoRecord st s
  | .holdEnd st slot => Sys2Proof.Machine.execHoldEnd st slot s
  | .drainerStart st => Sys2Proof.Machine.execDrainerStart st s
  | .writebackAccepted st ice => Sys2Proof.Machine.execWritebackAccepted st ice s
  | .recallReceived st => Sys2Proof.Machine.execRecallReceived st s
  | .idleRecall st => Sys2Proof.Machine.execIdleRecall st s
  | .syncWriteback st => Sys2Proof.Machine.execSyncWriteback st s
  | .ftmTick => Sys2Proof.Machine.execFtmTick s
  | .ftmSweepVisit => Sys2Proof.Machine.execFtmSweepVisit s
  | .quarantineExpiry => Sys2Proof.Machine.execQuarantineExpiry s
  | .flowAdd g ring data => Sys2Proof.Machine.execFlowAdd g ring data s
  | .flowFind g ring data => Sys2Proof.Machine.execFlowFind g ring data s
  | .flowRead g ring => Sys2Proof.Machine.execFlowRead g ring s
  | .flowDel g ring => Sys2Proof.Machine.execFlowDel g ring s
  | .flowFlush g ring => Sys2Proof.Machine.execFlowFlush g ring s
  | .flowWaitTimeout g ring => Sys2Proof.Machine.execFlowWaitTimeout g ring s
  | .icePin g ring => Sys2Proof.Machine.execIcePin g ring s
  | .iceUnpin g ring => Sys2Proof.Machine.execIceUnpin g ring s
  | .iceFlush g ring => Sys2Proof.Machine.execIceFlush g ring s
  | .iceRead g ring => Sys2Proof.Machine.execIceRead g ring s
  | .iceRecallTimeout g ring => Sys2Proof.Machine.execIceRecallTimeout g ring s
  | .ruleSearch st => Sys2Proof.Machine.execRuleSearch st s
  | .rulWrite g ring data => Sys2Proof.Machine.execRulWrite g ring data s
  | .rulCommit g ring => Sys2Proof.Machine.execRulCommit g ring s
  | .rulDrainDone st g => Sys2Proof.Machine.execRulDrainDone st g s
  | .rulCopyDone st g => Sys2Proof.Machine.execRulCopyDone st g s
  | .rulRead g ring => Sys2Proof.Machine.execRulRead g ring s
  | .rulSearch g ring data => Sys2Proof.Machine.execRulSearch g ring data s
  | .taskDispatch st engine => Sys2Proof.Machine.execTaskDispatch st engine s
  | .microwordExecute e => Sys2Proof.Machine.execMicrowordExecute e s
  | .commitResume st engine => Sys2Proof.Machine.execCommitResume st engine s
  | .trapQueueRead req st => Sys2Proof.Machine.execTrapQueueRead req st s
  | .residencyExpiry st slot => Sys2Proof.Machine.execResidencyExpiry st slot s
  | .orderedRelease st orq => Sys2Proof.Machine.execOrderedRelease st orq s
  | .xbrCellTransfer => Sys2Proof.Machine.execXbrCellTransfer s
  | .frameLand st input cls => Sys2Proof.Machine.execFrameLand st input cls s
  | .mcHead st cls => Sys2Proof.Machine.execMcHead st cls s
  | .mcCopyLand st target cls => Sys2Proof.Machine.execMcCopyLand st target cls s
  | .mcCountsDone st cls => Sys2Proof.Machine.execMcCountsDone st cls s
  | .mcHolTimeout st cls => Sys2Proof.Machine.execMcHolTimeout st cls s
  | .mcSet g ring => Sys2Proof.Machine.execMcSet g ring s
  | .mcRead g ring => Sys2Proof.Machine.execMcRead g ring s
  | .injectGrant st => Sys2Proof.Machine.execInjectGrant st s
  | .celFreeWrite st value => Sys2Proof.Machine.execCelFreeWrite st value s
  | .cellSweepStart st => Sys2Proof.Machine.execCellSweepStart st s
  | .cellSweepEnd st => Sys2Proof.Machine.execCellSweepEnd st s
  | .poolSweepStart => Sys2Proof.Machine.execPoolSweepStart s
  | .poolSweepEnd => Sys2Proof.Machine.execPoolSweepEnd s
  | .coopHkAllocRead req => Sys2Proof.Machine.execCoopHkAllocRead req s
  | .coopHkFreeWrite req value => Sys2Proof.Machine.execCoopHkFreeWrite req value s
  | .morStnDrain g ring => Sys2Proof.Machine.execMorStnDrain g ring s
  | .stnDrainQuiesced st => Sys2Proof.Machine.execStnDrainQuiesced st s
  | .morPoolDrain g ring => Sys2Proof.Machine.execMorPoolDrain g ring s
  | .poolDrainQuiesced => Sys2Proof.Machine.execPoolDrainQuiesced s
  | .morSweep g ring => Sys2Proof.Machine.execMorSweep g ring s
  | .egressSelect p express => Sys2Proof.Machine.execEgressSelect p express s
  | .gateBoundary p => Sys2Proof.Machine.execGateBoundary p s
  | .gclSwitchRequest p value => Sys2Proof.Machine.execGclSwitchRequest p value s
  | .gclChangeInstant p => Sys2Proof.Machine.execGclChangeInstant p s
  | .queueDepthSample p => Sys2Proof.Machine.execQueueDepthSample p s
  | .histClear p value => Sys2Proof.Machine.execHistClear p value s
  | .timerefLoss => Sys2Proof.Machine.execTimerefLoss s
  | .timerefRestored => Sys2Proof.Machine.execTimerefRestored s
  | .vrvTimeRead req page => Sys2Proof.Machine.execVrvTimeRead req page s
  | .txqRead req g => Sys2Proof.Machine.execTxqRead req g s
  | .ppsInEdge => Sys2Proof.Machine.execPpsInEdge s
  | .servoHoldTimeout => Sys2Proof.Machine.execServoHoldTimeout s
  | .ppsOutEdge => Sys2Proof.Machine.execPpsOutEdge s
  | .ppsOutWidthEnd => Sys2Proof.Machine.execPpsOutWidthEnd s
  | .freqOutWrite value => Sys2Proof.Machine.execFreqOutWrite value s
  | .vrvOffset g ring => Sys2Proof.Machine.execVrvOffset g ring s
  | .vrvSet g ring => Sys2Proof.Machine.execVrvSet g ring s
  | .vrvFreq g ring => Sys2Proof.Machine.execVrvFreq g ring s
  | .vrvHold g ring => Sys2Proof.Machine.execVrvHold g ring s
  | .guildEnable g value doorbells => Sys2Proof.Machine.execGuildEnable g value doorbells s
  | .guildDisable g value => Sys2Proof.Machine.execGuildDisable g value s
  | .linkDown k => Sys2Proof.Machine.execLinkDown k s
  | .guildPageForeignAccess k access => Sys2Proof.Machine.execGuildPageForeignAccess k access s
  | .doorbellPoll g words => Sys2Proof.Machine.execDoorbellPoll g words s
  | .cmdStart g ring data => Sys2Proof.Machine.execCmdStart g ring data s
  | .nop g ring => Sys2Proof.Machine.execNop g ring s
  | .ringSet g ring doorbell => Sys2Proof.Machine.execRingSet g ring doorbell s
  | .ringParam g ring => Sys2Proof.Machine.execRingParam g ring s
  | .ringStop g ring => Sys2Proof.Machine.execRingStop g ring s
  | .ringQuiesced g ring => Sys2Proof.Machine.execRingQuiesced g ring s
  | .gldInfo g ring => Sys2Proof.Machine.execGldInfo g ring s
  | .msixModerationTimer g ring => Sys2Proof.Machine.execMsixModerationTimer g ring s
  | .puntArrival st cls => Sys2Proof.Machine.execPuntArrival st cls s
  | .puntDelivery g ring posted => Sys2Proof.Machine.execPuntDelivery g ring posted s
  | .injFetch g ring desc frame => Sys2Proof.Machine.execInjFetch g ring desc frame s
  | .dmaFailure g ring doorbell => Sys2Proof.Machine.execDmaFailure g ring doorbell s
  | .irqLevelRise target source => Sys2Proof.Machine.execIrqLevelRise target source s
  | .irqMsgDoorbell req value => Sys2Proof.Machine.execIrqMsgDoorbell req value s
  | .irqCfgWrite addr value => Sys2Proof.Machine.execIrqCfgWrite addr value s
  | .irqEnableWrite req addr value => Sys2Proof.Machine.execIrqEnableWrite req addr value s
  | .irqClaim req t => Sys2Proof.Machine.execIrqClaim req t s
  | .irqComplete req t value => Sys2Proof.Machine.execIrqComplete req t value s
  | .irqSignal t => Sys2Proof.Machine.execIrqSignal t s
  | .irqMaskWrite t value => Sys2Proof.Machine.execIrqMaskWrite t value s
  | .hkWake e => Sys2Proof.Machine.execHkWake e s
  | .hkJobDispatch e => Sys2Proof.Machine.execHkJobDispatch e s
  | .hkTimer e => Sys2Proof.Machine.execHkTimer e s
  | .hkRunWrite req e value => Sys2Proof.Machine.execHkRunWrite req e value s
  | .ucsStoreWriteAttempt st => Sys2Proof.Machine.execUcsStoreWriteAttempt st s
  | .ucsLoad g ring => Sys2Proof.Machine.execUcsLoad g ring s
  | .imageStaged image => Sys2Proof.Machine.execImageStaged image s
  | .stationStoreSwitch st => Sys2Proof.Machine.execStationStoreSwitch st s
  | .hkStoreSwitch => Sys2Proof.Machine.execHkStoreSwitch s
  | .ucsKeyProgram g ring data => Sys2Proof.Machine.execUcsKeyProgram g ring data s
  | .hkJob g ring => Sys2Proof.Machine.execHkJob g ring s
  | .hbmAccess port access => Sys2Proof.Machine.execHbmAccess port access s
  | .hbmWriteDrain block => Sys2Proof.Machine.execHbmWriteDrain block s
  | .postedAddExecute => Sys2Proof.Machine.execPostedAddExecute s
  | .hbmTempRead stack temp => Sys2Proof.Machine.execHbmTempRead stack temp s
  | .hbmRefresh bank => Sys2Proof.Machine.execHbmRefresh bank s
  | .hbmScrubRead => Sys2Proof.Machine.execHbmScrubRead s
  | .channelPowerDown channel => Sys2Proof.Machine.execChannelPowerDown channel s
  | .channelSelfRefresh channel => Sys2Proof.Machine.execChannelSelfRefresh channel s
  | .hbmTrainingDone stack result repaired => Sys2Proof.Machine.execHbmTrainingDone stack result repaired s
  | .hbmShareWrite port value => Sys2Proof.Machine.execHbmShareWrite port value s
  | .tlyEnableWrite value => Sys2Proof.Machine.execTlyEnableWrite value s
  | .tlyDumpStart triggered => Sys2Proof.Machine.execTlyDumpStart triggered s
  | .tlyDumpDone => Sys2Proof.Machine.execTlyDumpDone s
  | .tstoreEnable g value => Sys2Proof.Machine.execTstoreEnable g value s
  | .tstoreRecordWrite st => Sys2Proof.Machine.execTstoreRecordWrite st s
  | .tlyTread g ring => Sys2Proof.Machine.execTlyTread g ring s
  | .reorderRelease p inj tx => Sys2Proof.Machine.execReorderRelease p inj tx s
  | .tnkSeedWrite value => Sys2Proof.Machine.execTnkSeedWrite value s
  | .meminjArm value => Sys2Proof.Machine.execMeminjArm value s
  | .ondieScrub mem st index arisen => Sys2Proof.Machine.execOndieScrub mem st index arisen s
  | .tnkSet g ring data => Sys2Proof.Machine.execTnkSet g ring data s
  | .tnkRead g ring => Sys2Proof.Machine.execTnkRead g ring s
  | .mateKick req => Sys2Proof.Machine.execMateKick req s
  | .kickTimeout => Sys2Proof.Machine.execKickTimeout s
  | .heartbeatLiveChange => Sys2Proof.Machine.execHeartbeatLiveChange s
  | .mateHbStale => Sys2Proof.Machine.execMateHbStale s
  | .mateActInChange high => Sys2Proof.Machine.execMateActInChange high s
  | .claimDelayExpiry => Sys2Proof.Machine.execClaimDelayExpiry s
  | .mateForceFall => Sys2Proof.Machine.execMateForceFall s
  | .yieldDrainExpiry => Sys2Proof.Machine.execYieldDrainExpiry s
  | .gapEnd => Sys2Proof.Machine.execGapEnd s
  | .mateRelease g ring => Sys2Proof.Machine.execMateRelease g ring s
  | .mateReleaseTimeout => Sys2Proof.Machine.execMateReleaseTimeout s
  | .resetAssert cold => Sys2Proof.Machine.execResetAssert cold s
  | .coldReset bifStrap modeStrap primary i2cAddr => Sys2Proof.Machine.execColdReset bifStrap modeStrap primary i2cAddr s
  | .warmReset => Sys2Proof.Machine.execWarmReset s
  | .linkReset k => Sys2Proof.Machine.execLinkReset k s
  | .bootResetWrite value => Sys2Proof.Machine.execBootResetWrite value s
  | .profileRead profile => Sys2Proof.Machine.execProfileRead profile s
  | .flashTimeout => Sys2Proof.Machine.execFlashTimeout s
  | .thawReached => Sys2Proof.Machine.execThawReached s
  | .bootFullRequest value => Sys2Proof.Machine.execBootFullRequest value s
  | .stationFullSwitch st => Sys2Proof.Machine.execStationFullSwitch st s
  | .i2cBlockRead command => Sys2Proof.Machine.execI2cBlockRead command s
  | .smbAlertResponse => Sys2Proof.Machine.execSmbAlertResponse s
  | .jtagOperation input tdi => Sys2Proof.Machine.execJtagOperation input tdi s
  | .freqOutEdge => Sys2Proof.Machine.execFreqOutEdge s
  | .pcieLinkUp k width speed => Sys2Proof.Machine.execPcieLinkUp k width speed s
  | .mateHbInEdge => Sys2Proof.Machine.execMateHbInEdge s
  | .mateForceRise => Sys2Proof.Machine.execMateForceRise s

end Sys2Proof.Machine
end

