-- ==== Sys2Proof/Safety.lean ====
section
/-! DEFINITION. What the claims are stated in: the canonical form of a state, a step that goes on, a command that
answers a next state, and what two states share. -/
namespace Sys2Proof.Machine

/-- Memory and register file are in their one canonical form. -/
def State.canonical (s : State) : Bool := Memory.wf s.mem && Regs.wf s.regs

/-- A step that goes on: neither a fault nor a refusal. -/
def Safe (s : State) : Prop := ∃ t, step s = .next t

/-- The command completes in a state for which P holds. -/
def Answers (c : Instr) (s : State) (P : State → Prop) : Prop := ∃ t, exec c s = .next t ∧ P t

/-- Every byte of memory reads as before. -/
def SameMem (s t : State) : Prop := ∀ a, Memory.read a t.mem = Memory.read a s.mem

/-- Every byte of memory outside n bytes from an address on reads as before. -/
def SameMemBut (a n : Nat) (s t : State) : Prop :=
  ∀ k, k < a ∨ a + n ≤ k → Memory.read k t.mem = Memory.read k s.mem

/-- Every register but those listed holds what it held. -/
def SameRegsBut (l : List Nat) (s t : State) : Prop := ∀ a, a ∉ l → t.rd a = s.rd a

/-- The states agree on everything but the register file. -/
def OnlyRegs (s t : State) : Prop := t = { s with regs := t.regs }

/-- Nothing changes but the registers listed. -/
def OnlyRegsOf (l : List Nat) (s t : State) : Prop := OnlyRegs s t ∧ SameRegsBut l s t

/-- Nothing changes but the registers listed and what has been sent out, which grows by `o`, newest first. -/
def SendsAndRegs (o : List Output) (l : List Nat) (s t : State) : Prop :=
  t = { s with regs := t.regs, out := o ++ s.out } ∧ SameRegsBut l s t

/-- A 48-bit counter has grown by n, modulo 2⁴⁸ (R12). -/
abbrev Counts (a n : Nat) (s t : State) : Prop := t.cntGet a = (s.cntGet a + n) % 2 ^ 48

/-- No memory holds an error, and none is armed (R395). -/
abbrev State.sound (s : State) : Prop :=
  s.tinker.errors = [] ∧ s.getB Reg.TNK_MEMINJ Fld.TNK_MEMINJ_ARM = false ∧ s.hbm.bad = []

/-- A CMD ring runs the command c, of opcode op, as CMD_START leaves it: nothing counted for it yet, its Guild enabled
ever since, its CPL ring enabled. -/
abbrev CmdReady (s : State) (g ring op : Nat) (c : Cmd) : Prop :=
  s.boot.held = false ∧ startable s g ring op = some c ∧ c.orphan = false ∧ (s.ring g c.cplRing).enabled = true ∧
    c.acc = 0 ∧ c.acc2 = 0 ∧ c.acc3 = 0

/-- Since s, the command c of a ring has completed: the ring is free, and a completion descriptor with this status and
result has gone out for the Guild, its PHASE in bit 7 of byte 1 (Table 18.6, R337). Its PASID is that of every DMA write
of a ring (R333). -/
def CompletedWith (g ring : Nat) (c : Cmd) (status : Nat) (result : List Byte) (s t : State) : Prop :=
  (t.ring g ring).cmd = none ∧ ∃ new pasid a ph, t.out = new ++ s.out ∧
    .dma g pasid a ((cplDesc c ring status result).set 1 ph) ∈ new

/-- The task in a slot of a station, where it holds a property. -/
def TaskHas (t : State) (st k : Nat) (P : Task → Prop) : Prop := ∃ x, t.task? st k = some x ∧ P x

/-- Port p's MAC has sent o: at its balls, and in near-end loopback to its own receiver (R74). -/
abbrev LineSends (p : Nat) (o : Output) (s t : State) : Prop :=
  if nearEnd s p then
    (t.port p).mac.loop = (s.port p).mac.loop ++ [o] ∧
      t.out = if s.getB (Reg.LANE_TEST p) Fld.LANE_TEST_TX_ON_LB then o :: s.out else s.out
  else t.out = o :: s.out

/-- A station holds the cells that it held, and as many frames wait for their token as before. -/
abbrev SameCells (st : Nat) (s t : State) : Prop :=
  (t.stn st).core.taken = (s.stn st).core.taken ∧
    (t.stn st).tasks.laneX.length = (s.stn st).tasks.laneX.length ∧
    (t.stn st).tasks.laneN.length = (s.stn st).tasks.laneN.length

/-- What SMB_ALERT_N shows as it follows, from s, what it reports in t (R449): nothing where it stays. -/
abbrev AlertPin (s t : State) : List Output :=
  if s.power.smbLow = smbAlert t then [] else [.pin "SMB_ALERT_N" !smbAlert t]

/-- The winner of a search of a bank for a Guild (R187): the matching entry of the highest PRIO and, among those, the
lowest index, with its result; with no match, the Guild's default. -/
def Wins (s : State) (st bank g key : Nat) (i : Option Nat) (r : Nat) : Prop :=
  let hit (x : Nat × RuleEntry) : Prop := x ∈ bankEntries s st bank ∧ x.2.valid = true ∧ x.2.agrees key = true
  match i with
  | some i => ∃ e, hit (i, e) ∧ r = e.result ∧ ∀ y, hit y → y.2.prio < e.prio ∨ y.2.prio = e.prio ∧ i ≤ y.1
  | none => (∀ y, ¬ hit y) ∧ r = aget 0 (8 * bank + g) (s.stn st).rules.defaults

/-- The Guilds that a frame names, its own and that of the timestamp it asks for, are Guilds (R333). -/
abbrev Frame.known (f : Frame) : Prop := f.guild < 8 ∧ f.txTs.all (fun p => decide (p.1 < 8)) = true

/-- No reset input holds the part: a command acts (R413). -/
abbrev State.running (s : State) : Prop := s.boot.held = false

end Sys2Proof.Machine
end

