-- ==== Sys2Proof/WellFormed.lean ====
section
/-! DEFINITION. Which commands the outside can send: the checks on operands whose type admits more than the part's
interfaces carry. The meanings are total: they need none of these. -/
namespace Sys2Proof

/-- A register access names a dword of BAR0, of a Guild page, or of the MSI-X table and its pending bits (R332, R430);
a housekeeping engine and the boot block name one of the set-up space. -/
def wfRegAddr (req : Requester) (addr : Nat) : Bool :=
  addr % 4 == 0 && (decide (addr < 0x8000000) ||
    (match req with
     | .link _ => decide (0x100000000 ≤ addr ∧ addr < 0x100100000)
     | _ => false))

/-- What a DMA read returns has the length that its reader asked for. -/
def wfData (n : Nat) (data : Option (List Byte)) : Bool :=
  match data with
  | some d => d.length == n
  | none => true

/-- A doorbell page has one word for each of 1,024 local rings (R336). -/
def wfDoorbells (words : Option (List Word)) : Bool :=
  match words with
  | some ws => ws.length == 1024
  | none => true

/-- An access to the memory controller stays in one 64-B block; an add names a 64-bit word (R369, R371). -/
def wfHbm (access : HbmAccess) : Bool :=
  match access with
  | .read a => decide (a < 2 ^ 40)
  | .readError a _ => decide (a < 2 ^ 40)
  | .write a bs => decide (a < 2 ^ 40) && decide (bs ≠ []) && decide (a % 64 + bs.length ≤ 64)
  | .add a _ => decide (a < 2 ^ 40) && a % 8 == 0

/-- RAW pace of each of twelve stations (R34). -/
def wfPace (counts : List Nat) : Bool := counts.length == 12 && counts.all fun n => decide (n < 65536)

/-- A reading of each of sixteen sensors (R44). -/
def wfThermal (readings : List (Option Int)) : Bool := readings.length == 16

/-- A received frame holds at least a destination and a source address, or is a fragment that the port counts (R78); its
mPackets hold its bytes. -/
def wfRx (rx : RxFrame) : Bool := decide (rx.bytes ≠ []) && (rx.mpackets.isEmpty || (rx.mpackets.flatMap (·.bytes)) != [])

/-- The words of an on-die memory are numbered below 2²⁰. -/
def wfIndex (index : Nat) : Bool := decide (index < 2 ^ 20)

/-- A command as the outside can send it. -/
def Instr.wf : Instr → Bool
  | .registerWrite req addr _ _ => wfRegAddr req addr
  | .lowWordReadLatch req addr => wfRegAddr req addr
  | .highWordWrite req addr _ => wfRegAddr req addr
  | .rcFieldRead req addr => wfRegAddr req addr
  | .irqCfgWrite addr _ => wfRegAddr (.link 0) addr
  | .irqEnableWrite req addr _ => wfRegAddr req addr
  | .parseMemoryWrite addr _ => wfRegAddr (.link 0) addr
  | .paceMeasure counts => wfPace counts
  | .thermalSample readings => wfThermal readings
  | .rxFrameComplete _ rx => wfRx rx
  | .laneLatencyMeasured _ tx rx => decide (tx < 2 ^ 32) && decide (rx < 2 ^ 32)
  | .waitEntryFillStart _ entry => decide (entry < 256)
  | .flowAdd _ _ data => wfData 192 data
  | .flowFind _ _ data => wfData 40 data
  | .rulWrite _ _ data => wfData 176 data
  | .rulSearch _ _ data => wfData 80 data
  | .ucsKeyProgram _ _ data => wfData 32 data
  | .tnkSet _ _ data => wfData 48 data
  | .cmdStart _ _ data => wfData 32 data
  | .puntDelivery _ _ posted => wfData 32 posted
  | .injFetch _ _ desc _ => wfData 32 desc
  | .guildEnable _ _ doorbells => wfDoorbells doorbells
  | .doorbellPoll _ words => wfDoorbells words
  | .hbmAccess _ access => wfHbm access
  | .hbmWriteDrain block => decide (block < 2 ^ 29)
  | .hbmRefresh bank => decide (bank < 2048)
  | .ondieScrub _ _ index _ => wfIndex index
  | .profileRead profile => profile.length == 1376
  | _ => true

end Sys2Proof
end

