-- ==== Sys2Proof/Certificates/Slice0/Obligations.lean ====
section
/-! DEFINITION. The obligations: what the part does at each command and over all of them, stated for the provers. A
clause of the form `Answers c s P` says that the command completes in a next state of which P holds. -/
open Sys2Proof Sys2Proof.Machine

/-! ### The machine as a whole -/

/-- A step with a command at the front of the queue is that command's effect on the state with the queue's rest. -/
def Obligations.StepRunsTheFrontCommand : Prop :=
  ∀ (s : State) (c : Instr) (rest : List Instr),
    step { s with pending := c :: rest } = exec c { s with pending := rest }

/-- With no command waiting, a step is one nanosecond of the timebase (the model's choice, log 3): unless a reset
input holds the part, `now` and, by R314, Varve time advance, the heartbeat toggles every 500 ns while it is live
and is low otherwise (Table 23.1), a warm reset that BOOT_RESET has asked for 1 µs ago holds the part with the
mate's outputs low (R414), and pause and PFC frames that wait at a port may leave (R90; with none waiting nothing
else goes out); memory keeps every byte, and the queue stays empty. -/
def Obligations.EmptyQueueStepIsATick : Prop :=
  ∀ s : State, s.pending = [] →
    ∃ t, step s = .next t ∧ t.pending = [] ∧ t.mem = s.mem ∧ t.hif = s.hif ∧ t.ftm = s.ftm ∧
      (s.boot.held = true → t = s) ∧
      (s.running →
        let due := s.boot.warmDue && decide (s.boot.warmAt ≤ s.now + 1)
        let hb := hbLive s && (if (s.now + 1) % 500 = 0 then !s.mate.hbOut else s.mate.hbOut)
        let pin (name : String) (was v : Bool) : List Output := if was = v then [] else [.pin name v]
        t.now = s.now + 1 ∧
        t.varve.t = (((s.varve.t : Int) + (2 ^ 44 + signedOf 32 (s.rdN Reg.VRV_FADJ)))
          % (2 ^ 48 * 1000000000 * 2 ^ 44)).toNat ∧
        t.boot = { s.boot with held := due } ∧
        ∃ sent : List Output, (∀ o ∈ sent, ∃ p b, o = .frame p b true) ∧
          ((∀ e ∈ s.ports, e.2.mac.ctl = []) → sent = []) ∧
          (due = false → t.mate = { s.mate with hbOut := hb } ∧
            t.out = pin "MATE_HB_OUT" s.mate.hbOut hb ++ sent ++ s.out) ∧
          (due = true → t.mate = { s.mate with hbOut := false, actOut := false } ∧
            t.out = pin "MATE_HB_OUT" hb false ++ pin "MATE_ACT_OUT" s.mate.actOut false ++
              pin "MATE_HB_OUT" s.mate.hbOut hb ++ sent ++ s.out))

/-- What reset leaves (R413, R42): a canonical state in which every register holds its reset value, every byte of the
memory reads 0 (log 8), Varve time is 0, no command waits, no station, Guild or port holds anything, and the one
thing that has gone out is the initial Voltage Write of code 156. Choices of the model that it rests on: log 8
(DESIGN CHOICE), log 9 (DESIGN CHOICE). -/
def Obligations.ResetLeavesEveryRegisterAtItsResetValue : Prop :=
  State.reset.canonical = true ∧ (∀ a, State.reset.rd a = regReset a) ∧
    (∀ a, Memory.read a State.reset.mem = 0#8) ∧ State.reset.varve.t = 0 ∧ State.reset.now = 0 ∧
    State.reset.pending = [] ∧ State.reset.running ∧ State.reset.out = [.avsWrite 156] ∧
    (∀ st, State.reset.stn st = {}) ∧ (∀ p, State.reset.port p = {}) ∧ (∀ g, State.reset.guild g = {})

/-- No command stops the part: every step from every state goes on. The invariant: memory and register file stay in
canonical form whatever command is at the front, and the queue becomes its own rest: no command sends another.
Choices of the model that it rests on: log 1 (DESIGN CHOICE). -/
def Obligations.EveryStepGoesOnInCanonicalForm : Prop :=
  (∀ s : State, Safe s) ∧
  (∀ s t : State, s.canonical = true → step s = .next t → t.canonical = true ∧ t.pending = s.pending.tail)

/-- R413, R6: the timebase is counted by the passage of time alone. Of the commands only the two resets set it, to 0.
R413: while a reset input or a due warm reset holds the part, no command has any effect but the resets, the two
management ports and JTAG; and only the resets begin or end that state. R450: the JTAG port's state is changed by
JTAG operations and by no other command; and a JTAG operation changes nothing else but what goes out and the draws
of free values. R227: the customer key hash is written once. A hash that is held stays, whatever command follows;
and a hash appears by UCS_KEY_PROGRAM alone. -/
def Obligations.FewCommandsReachWhatIsApart : Prop :=
  (∀ (c : Instr) (s t : State), exec c s = .next t →
     t.now = s.now ∨ t.now = 0 ∧ ((∃ b m p i, c = .coldReset b m p i) ∨ c = .warmReset)) ∧
  (∀ (c : Instr) (s t : State), exec c s = .next t →
     (s.boot.held = true → t = s ∨ (∃ x, c = .resetAssert x) ∨ (∃ b m p i, c = .coldReset b m p i) ∨ c = .warmReset ∨
       (∃ x, c = .i2cBlockRead x) ∨ c = .smbAlertResponse ∨ ∃ x y, c = .jtagOperation x y) ∧
     (t.boot.held ≠ s.boot.held → (∃ x, c = .resetAssert x) ∨ (∃ b m p i, c = .coldReset b m p i) ∨ c = .warmReset)) ∧
  (∀ (c : Instr) (s t : State), exec c s = .next t →
     (∀ input tdi, c = .jtagOperation input tdi →
       t = { s with jtag := t.jtag, out := t.out, fresh := t.fresh }) ∧
     ((∀ input tdi, c ≠ .jtagOperation input tdi) → t.jtag = s.jtag)) ∧
  (∀ (c : Instr) (s t : State), exec c s = .next t →
     (s.ucs.ckey.isSome → t.ucs.ckey = s.ucs.ckey) ∧
     (t.ucs.ckey ≠ s.ucs.ckey → ∃ g ring data, c = .ucsKeyProgram g ring data))

/-! ### Register accesses (chs. 1 and 25) -/

/-- REGISTER_WRITE (R13, R432, R433): a whole-word register of the set-up space without a rule of its own takes, in
every field, what the field's access code gives, a locked RWL field keeping what it holds; no other register and
no byte of memory changes. REGISTER_WRITE where no register takes the word: a reserved address, or a host without
BAR0 (R428, R332), changes nothing; a partial write of the set-up space latches CHIP_STATUS.ACC_ERR and is
otherwise ignored (R430); a write of a Guild page from outside its Guilds latches ISO_VIOL and counts it (R334).
Choices of the model that it rests on: log 4 (DESIGN CHOICE), log 112 (DEDUCED). -/
def Obligations.RegisterWritesFollowTheAccessCodes : Prop :=
  (∀ (s : State) (req : Requester) (a : Nat) (v : Word) (h : RegHit),
     s.running → a % 4 = 0 → placeOf s req a = .setup → mayWrite req a = true → regAt a = some h →
     h.reg.part = .whole → (globalHooks ++ stationHooks ++ pageHooks).lookup h.reg.name = none →
     Answers (.registerWrite req a v false) s fun t =>
       (∀ f ∈ h.reg.fields, f.of (t.rd a) =
         match f.acc with
         | .rw | .rws => f.of v
         | .ro | .rc | .wo => f.of (s.rd a)
         | .w1c => f.of (s.rd a) &&& (2 ^ f.w - 1 - f.of v)
         | .w1s => f.of (s.rd a) ||| f.of v
         | .rwl => if commitLocked s h then f.of (s.rd a) else f.of v) ∧
       SameRegsBut [a] s t ∧ SameMem s t) ∧
  (∀ (s : State) (req : Requester) (a : Nat) (v : Word) (b : Bool), s.running → a % 4 = 0 →
     (placeOf s req a = .setup → regAt a = none → exec (.registerWrite req a v false) s = .next s) ∧
     (placeOf s req a = .none → exec (.registerWrite req a v b) s = .next s) ∧
     (placeOf s req a = .setup → Answers (.registerWrite req a v true) s fun t =>
       t.get Reg.CHIP_STATUS Fld.CHIP_STATUS_ACC_ERR = 1 ∧
       t.get Reg.CHIP_STATUS Fld.CHIP_STATUS_ADDR =
         (if s.getB Reg.CHIP_STATUS Fld.CHIP_STATUS_ACC_ERR then s.get Reg.CHIP_STATUS Fld.CHIP_STATUS_ADDR
           else a % 2 ^ 27) ∧
       OnlyRegsOf [Reg.CHIP_STATUS] s t) ∧
     (placeOf s req a = .foreign → Answers (.registerWrite req a v b) s fun t =>
       t.get Reg.HIF_EVENT Fld.HIF_EVENT_ISO_VIOL = 1 ∧ Counts (Reg.HIF_CNT_LO 3) 1 s t ∧
       OnlyRegsOf [Reg.HIF_EVENT, Reg.HIF_CNT_LO 3, Reg.HIF_CNT_LO 3 + 4] s t))

/-- A 64-bit register (R11): a write of the low word changes no register; the write of the high word makes the pair
take effect with the low word that the requester wrote last. Both words follow their access codes. (A pair with a
guard of its own is excepted: the Guild pages' addresses while EN is 1, R339; the Tallyman's while dumps are
enabled, R380.) Choices of the model that it rests on: log 98 (DESIGN CHOICE). -/
def Obligations.APairTakesEffectWithItsHighWord : Prop :=
  ∀ (s : State) (req : Requester) (a : Nat) (lo hi : Word) (hl hh : RegHit),
    s.running → a % 4 = 0 → placeOf s req a = .setup → placeOf s req (a + 4) = .setup → mayWrite req a = true →
    mayWrite req (a + 4) = true → regAt a = some hl → regAt (a + 4) = some hh → hl.reg.part = .low →
    hh.reg.part = .high → hl.reg.name ≠ "TLY_HOST_BASE_LO" → hh.reg.name ≠ "TLY_HOST_BASE_HI" →
    Answers (.registerWrite req a lo false) s fun t => (∀ x, t.rd x = s.rd x) ∧ SameMem s t ∧
      Answers (.highWordWrite req (a + 4) hi) t fun u =>
        u.rd a = storeWord hl.reg.fields (commitLocked s hl) (s.rd a) lo ∧
        u.rd (a + 4) = storeWord hh.reg.fields (commitLocked s hh) (s.rd (a + 4)) hi ∧
        SameRegsBut [a, a + 4] s u ∧ SameMem s u

/-- A 64-bit register (R10), in the set-up space or on a Guild page: a read of the low word returns it and latches the
high word for its requester, so that a read of the high word later returns the latched word; neither read changes
a register. RC_FIELD_READ (R13), in the set-up space or on a Guild page: the read of a whole-word register without
a read of its own returns what the register shows; its RC fields read 0 from then on, and its other fields keep
what they hold. The seconds of Varve time are what the requester's read of its nanoseconds latched (R318). A
reserved address reads 0 (R428); a Guild page that is not the requester's reads 0, and HIF_EVENT.ISO_VIOL latches
(R334). Choices of the model that it rests on: log 98 (DESIGN CHOICE), log 112 (DEDUCED). -/
def Obligations.ReadsLatchAndClear : Prop :=
  (∀ (s : State) (req : Requester) (a : Nat) (h hh : RegHit), s.running → a % 4 = 0 →
     (∀ x, x = a ∨ x = a + 4 → placeOf s req x = .setup ∨ ∃ g, placeOf s req x = .page g) →
     let b := homeAddr a
     homeAddr (a + 4) = b + 4 → regAt b = some h → regAt (b + 4) = some hh → h.reg.part = .low → hh.reg.part = .high →
     h.reg.name ≠ "STN_AE_TRAP_LO" → h.reg.name ≠ "VRV_TXQ_LO" →
     Answers (.lowWordReadLatch req a) s fun t =>
       t.out = .read req a (regView s b) :: s.out ∧ t.regs = s.regs ∧ SameMem s t ∧
       Answers (.rcFieldRead req (a + 4)) t fun u =>
         u.out = .read req (a + 4) (regView s (b + 4)) :: t.out ∧ u.regs = s.regs) ∧
  ((∀ (s : State) (req : Requester) (a : Nat), s.running → a % 4 = 0 →
     placeOf s req a = .setup ∨ (∃ g, placeOf s req a = .page g) →
     let b := homeAddr a
     (regAt b = none → exec (.rcFieldRead req a) s = .next (s.emit (.read req a 0#32))) ∧
     (∀ h, regAt b = some h → h.reg.name = "VRV_TIME_SEC_LO" ∨ h.reg.name = "VRV_TIME_SEC_HI" →
       exec (.rcFieldRead req a) s = .next (s.emit (.read req a (latched s req b)))) ∧
     (∀ h, regAt b = some h → h.reg.part = .whole →
       h.reg.name ∉ ["IRQ_TGT_CLAIM", "IRQ_SRC_EN", "IRQ_TGT_PRIV_EN", "VRV_TIME_NS", "VRV_TIME_SEC_LO",
         "VRV_TIME_SEC_HI", "COOP_HK_ALLOC"] →
       Answers (.rcFieldRead req a) s fun t =>
         t.out = .read req a (regView s b) :: s.out ∧
         (∀ f ∈ h.reg.fields, f.of (t.rd b) = if f.acc = .rc then 0 else f.of (s.rd b)) ∧
         SameRegsBut [b] s t ∧ SameMem s t)) ∧
   (∀ (s : State) (req : Requester) (a : Nat), s.running → a % 4 = 0 → placeOf s req a = .foreign →
     Answers (.rcFieldRead req a) s fun t => t.out = .read req a 0#32 :: s.out ∧
       t.get Reg.HIF_EVENT Fld.HIF_EVENT_ISO_VIOL = 1 ∧ SameMem s t))

/-! ### Pace, supply and temperature (ch. 2) -/

/-- The supply loop at the end of a period (R38, R39): with p the lowest mean, a pace below the goal raises the
request by UP_STEP and one that stays DEADBAND above it for DOWN_HOLD periods lowers it by 1, within the limits,
each by one Voltage Write; otherwise nothing is sent; PMIN shows p, and SHORT latches where p is below TARGET at
VMAX. Where VMIN as treated lies above VMAX as treated, which R39 leaves open, the order of the limits is the
model's choice (log 116); so is that what was measured before EN went to 1 counts (log 141). The loop never
requests less than VMIN, as treated, nor a code above VMAX, nor one outside 136 to 170 (R39): every code that a
command sends while the limits are in order lies between them; the code of a reset's release is 156 (R42).
AVS_BUS_FAULT (R41) and AVS_MANUAL_WRITE (R42): a fault repeats its own transaction, a Status Read or the last
Voltage Write, up to three times; when all three fail BUSERR sets, and the loop does not run until a period
boundary with BUSERR clear has come. A manual write while EN is 0 sends its clamped code once; while EN is 1
nothing happens. Choices of the model that it rests on: log 22 (DEDUCED), log 116 (DESIGN CHOICE), log 141 (DESIGN
CHOICE). -/
def Obligations.TheSupplyLoopStaysWithinItsLimits : Prop :=
  (∀ (s : State) (p : Nat), s.running → avsRuns s = true → avsMeasure s = some p → p < 4096 →
     let goal := avsTarget s + s.get Reg.PWR_AVS_TARGET Fld.PWR_AVS_TARGET_HEADROOM
     let up := max 1 (s.get Reg.PWR_AVS_TUNE Fld.PWR_AVS_TUNE_UP_STEP)
     let slow := goal + s.get Reg.PWR_AVS_TUNE Fld.PWR_AVS_TUNE_DEADBAND ≤ p
     let enough := max 1 (s.get Reg.PWR_AVS_TUNE Fld.PWR_AVS_TUNE_DOWN_HOLD) ≤ s.power.quiet + 1
     Answers .avsPeriod s fun t =>
       t.get Reg.PWR_AVS_STATUS Fld.PWR_AVS_STATUS_PMIN = p ∧ t.power.sums = [] ∧
       SameRegsBut [Reg.PWR_AVS_STATUS] s t ∧ SameMem s t ∧
       (p < avsTarget s → avsVreq s = avsMax s → t.get Reg.PWR_AVS_STATUS Fld.PWR_AVS_STATUS_SHORT = 1) ∧
       (p < goal → avsVreq t = max (avsMin s) (min (avsVreq s + up) (avsMax s)) ∧
         t.out = .avsWrite (avsVreq t) :: s.out ∧ t.power.quiet = 0 ∧ t.power.lastReq = some s.now) ∧
       (slow → enough → avsVreq t = min (avsMax s) (max (avsVreq s - 1) (avsMin s)) ∧
         t.out = .avsWrite (avsVreq t) :: s.out ∧ t.power.quiet = 0 ∧ t.power.lastReq = some s.now) ∧
       (slow → ¬ enough → avsVreq t = avsVreq s ∧ t.out = s.out ∧ t.power.quiet = s.power.quiet + 1) ∧
       (goal ≤ p → ¬ slow → avsVreq t = avsVreq s ∧ t.out = s.out ∧ t.power.quiet = 0)) ∧
  (∀ (s t : State) (c : Instr), exec c s = .next t →
     (c = .avsPeriod ∨ (∃ l, c = .paceMeasure l) ∨ ∃ v, c = .avsManualWrite v) → avsMin s ≤ avsMax s →
     t.out = s.out ∨ ∃ v, t.out = .avsWrite v :: s.out ∧ avsMin s ≤ v ∧ v ≤ avsMax s ∧ 136 ≤ v ∧ v ≤ 170) ∧
  ((∀ (s : State) (read : Bool), s.running →
     let again := if read then Output.avsRead else .avsWrite (avsVreq s)
     (∀ k : Fin 3, exec (.avsBusFault ⟨read, some k⟩) s =
       .next { s with out := List.replicate (k.val + 1) again ++ s.out }) ∧
     Answers (.avsBusFault ⟨read, none⟩) s fun t =>
       t.get Reg.PWR_AVS_STATUS Fld.PWR_AVS_STATUS_BUSERR = 1 ∧ t.power = { s.power with suspended := true } ∧
       avsRuns t = false ∧ t.out = List.replicate 3 again ++ s.out ∧ SameRegsBut [Reg.PWR_AVS_STATUS] s t ∧
       SameMem s t) ∧
   (∀ s : State, s.running → Answers .avsPeriod s fun t =>
     t.power.suspended = (s.power.suspended && s.getB Reg.PWR_AVS_STATUS Fld.PWR_AVS_STATUS_BUSERR)) ∧
   (∀ (s : State) (v : Word), s.running → s.getB Reg.PWR_AVS_CTL Fld.PWR_AVS_CTL_EN = false →
     Answers (.avsManualWrite v) s fun t =>
       let code := min (avsMax s) (max (avsMin s) (Fld.PWR_AVS_MANUAL_VCODE.of v))
       avsVreq t = code ∧ t.get Reg.PWR_AVS_MANUAL Fld.PWR_AVS_MANUAL_VCODE = Fld.PWR_AVS_MANUAL_VCODE.of v ∧
       t.out = .avsWrite code :: s.out ∧ SameRegsBut [Reg.PWR_AVS_STATUS, Reg.PWR_AVS_MANUAL] s t ∧ SameMem s t) ∧
   (∀ (s : State) (v : Word), s.running → s.getB Reg.PWR_AVS_CTL Fld.PWR_AVS_CTL_EN = true →
     exec (.avsManualWrite v) s = .next s))

/-- PACE_MEASURE: EFF is ⌊RAW × F / 256⌋ with the station's own F (R35), and the pace counter adds it (R36).
THERMAL_SAMPLE with a valid reading of every sensor (R44, R45, R48, R49): each sensor shows its reading in
quarters of a degree; a reading of 110 °C asserts THERM_CRIT_N, and with it or at 105 °C and above every station's
F is 154; a station at or below 95 °C has F = 256, and between them ⌈256 × (1 − 0.04 × (T − 95))⌉. SMB_ALERT_N
follows what it reports (R449), THERM_CRIT_N among it. THERMAL_SAMPLE while THERM_CRIT_N is asserted (R48): it is
released when every valid reading is below 100 °C, and stays asserted, with every station at F = 154, while one is
not. THERMAL_SAMPLE of a sensor that returns no valid reading (R49): the third such sample in a row sets its
FAULT_MAP bit and SENSOR_FAULT, and its station takes F = 154; one that makes no fault leaves F as it is, and a
valid reading clears the bit. -/
def Obligations.PaceAndTemperatureAreMeasured : Prop :=
  (∀ (s : State) (counts : List Nat) (st : Nat), s.running → counts.length = 12 → st < 12 →
     Answers (.paceMeasure counts) s fun t =>
       let raw := counts.getD st 0 % 4096
       let eff := raw * throttleOf s st / 256
       t.get (Reg.STN_PACE st) Fld.STN_PACE_RAW = raw ∧ t.get (Reg.STN_PACE st) Fld.STN_PACE_EFF = eff % 4096 ∧
       t.get (Reg.STN_PACE st) Fld.STN_PACE_VALID = 1 ∧ Counts (Reg.STN_PACE_CNT_LO st) eff s t ∧ SameMem s t) ∧
  (∀ (s : State) (q : List Int), s.running → q.length = 16 → (∀ x ∈ q, -1024 ≤ x ∧ x < 1024) →
     s.getB Reg.THM_STATUS Fld.THM_STATUS_CRIT = false → s.get Reg.THM_STATUS Fld.THM_STATUS_FAULT_MAP = 0 →
     Answers (.thermalSample (q.map some)) s fun t =>
       (∀ k < 16, t.get (Reg.THM_SENSOR k) Fld.THM_SENSOR_VALID = 1 ∧
         signedOf 12 (t.get (Reg.THM_SENSOR k) Fld.THM_SENSOR_TEMP) = q.getD k 0) ∧
       t.power.smbLow = smbAlert t ∧
       ((∃ x ∈ q, 440 ≤ x) → t.get Reg.THM_STATUS Fld.THM_STATUS_CRIT = 1 ∧ smbAlert t = true ∧
         t.out = AlertPin s t ++ .pin "THERM_CRIT_N" false :: s.out ∧ ∀ st < 12, throttleOf t st = 154) ∧
       ((∀ x ∈ q, x < 440) → t.get Reg.THM_STATUS Fld.THM_STATUS_CRIT = 0 ∧ t.out = AlertPin s t ++ s.out ∧
         ∀ st < 12, let x := q.getD st 0
           (x ≤ 380 → throttleOf t st = 256) ∧ (420 ≤ x → throttleOf t st = 154) ∧
           (380 < x → x < 420 → ∃ f : Int, (throttleOf t st : Int) = f ∧ 100 * (f - 1) < 256 * (480 - x) ∧
             256 * (480 - x) ≤ 100 * f)) ∧
       SameMem s t) ∧
  (∀ (s : State) (q : List Int), s.running → q.length = 16 → s.getB Reg.THM_STATUS Fld.THM_STATUS_CRIT = true →
     Answers (.thermalSample (q.map some)) s fun t =>
       ((∀ x ∈ q, x < 400) → t.get Reg.THM_STATUS Fld.THM_STATUS_CRIT = 0 ∧
         t.out = AlertPin s t ++ .pin "THERM_CRIT_N" true :: s.out) ∧
       ((∃ x ∈ q, 400 ≤ x) → t.get Reg.THM_STATUS Fld.THM_STATUS_CRIT = 1 ∧ t.out = AlertPin s t ++ s.out ∧
         ∀ st < 12, throttleOf t st = 154)) ∧
  (∀ (s : State) (r : List (Option Int)) (k : Nat), s.running → r.length = 16 → k < 16 →
     Answers (.thermalSample r) s fun t =>
       let n := aget 0 k s.power.misses
       let map (u : State) := (u.get Reg.THM_STATUS Fld.THM_STATUS_FAULT_MAP).testBit k
       (r.getD k none = none → t.get (Reg.THM_SENSOR k) Fld.THM_SENSOR_VALID = 0) ∧
       (r.getD k none = none → n = 2 → map t = true ∧ t.getB Reg.THM_STATUS Fld.THM_STATUS_SENSOR_FAULT = true ∧
         (k < 12 → throttleOf t k = 154)) ∧
       (r.getD k none = none → n < 2 → map t = map s ∧
         (k < 12 → map s = false → t.getB Reg.THM_STATUS Fld.THM_STATUS_CRIT = false →
           throttleOf t k = throttleOf s k)) ∧
       ((r.getD k none).isSome → map t = false ∧ t.get (Reg.THM_SENSOR k) Fld.THM_SENSOR_VALID = 1))

/-! ### Lanes and ports (ch. 3) -/

/-- QUAD_MODE_WRITE (R57): a legal layout takes effect while no port of the quad is enabled; a write of another layout
that is illegal, or made while one is, latches ERR and leaves MODE. Nothing but STN_QUAD changes. PORT_ENABLE
(R56, R60): a formed port samples LANE_CFG, LANE_AN_ADV and TXEQ.OVERRIDE; with a valid configuration it enters
its start state, or TEST where a test asks for it and the reference is there (R69); with an invalid one CFG_ERR
sets and the sampled values and the state stay. A lane that is no port's first latches CFG_ERR and EN stays 0. No
byte of memory changes. PORT_DISABLE and PORT_OFF (R61): a port with no frame in transmission enters OFF at once;
one that is UP with one waits, its frame in reassembly discarded, and enters OFF when that frame has ended.
PORT_CFG_STAGE_WRITE (R60): on an enabled port a write of LANE_CFG that leaves EN at 1, of LANE_AN_ADV or of
LANE_TXEQ is stored and sets CFG_PENDING; what the port sampled at its enable stands. Choices of the model that it
rests on: log 26 (DEDUCED), log 27 (DEDUCED). -/
def Obligations.PortsAreSetUpEnabledAndDisabled : Prop :=
  (∀ (s : State) (q : Fin 36) (v : Word), s.running →
     Answers (.quadModeWrite q v) s fun t =>
       let a := Reg.STN_QUAD (q.val / 3) (q.val % 3)
       let m := Fld.STN_QUAD_MODE.of v
       let free := ∀ i < 4, s.getB (Reg.LANE_CFG (4 * q.val + i)) Fld.LANE_CFG_EN = false
       (m ≤ 4 → free → t.quadMode q.val = m) ∧
       (m ≠ s.quadMode q.val → (4 < m ∨ ¬ free) → t.quadMode q.val = s.quadMode q.val ∧
         t.get a Fld.STN_QUAD_ERR = 1) ∧
       OnlyRegsOf [a] s t) ∧
  (∀ (s : State) (p : Port) (v : Word), s.running → Fld.LANE_CFG_EN.of v = 1 →
     s.getB (Reg.LANE_CFG p.val) Fld.LANE_CFG_EN = false →
     Answers (.portEnable p v) s fun t =>
       let p := p.val
       let l := (t.port p).link
       SameMem s t ∧
       (s.portWidth p = 0 → t.getB (Reg.LANE_STATUS p) Fld.LANE_STATUS_CFG_ERR = true ∧
         t.getB (Reg.LANE_CFG p) Fld.LANE_CFG_EN = false ∧ OnlyRegsOf [Reg.LANE_STATUS p, Reg.LANE_CFG p] s t) ∧
       (s.portWidth p ≠ 0 → t.rd (Reg.LANE_CFG p) = storeWord [Fld.LANE_CFG_EN, Fld.LANE_CFG_DOWN_HOLD,
           Fld.LANE_CFG_TX_INV, Fld.LANE_CFG_RX_INV, Fld.LANE_CFG_TRAIN_EN, Fld.LANE_CFG_AN_EN, Fld.LANE_CFG_FEC,
           Fld.LANE_CFG_TYPE] false (s.rd (Reg.LANE_CFG p)) v ∧ t.portEn p = true ∧
         (cfgValid (t.rd (Reg.LANE_CFG p)) (s.rd (Reg.LANE_AN_ADV p)) (s.portWidth p) = true →
           l.cfg = t.rd (Reg.LANE_CFG p) ∧ l.adv = s.rd (Reg.LANE_AN_ADV p) ∧ l.width = s.portWidth p ∧
           l.txOverride = s.getB (Reg.LANE_TXEQ p) Fld.LANE_TXEQ_OVERRIDE ∧
           t.getB (Reg.LANE_STATUS p) Fld.LANE_STATUS_CFG_ERR = false ∧
           t.linkState p = if testWanted t p && refOk s p then 6 else startState t p) ∧
         (cfgValid (t.rd (Reg.LANE_CFG p)) (s.rd (Reg.LANE_AN_ADV p)) (s.portWidth p) = false →
           (s.port p).link.stopping = false → t.getB (Reg.LANE_STATUS p) Fld.LANE_STATUS_CFG_ERR = true ∧
           t.linkState p = s.linkState p ∧ t.ports = s.ports))) ∧
  ((∀ (s : State) (p : Port) (v : Word), s.running → Fld.LANE_CFG_EN.of v = 0 →
     s.getB (Reg.LANE_CFG p.val) Fld.LANE_CFG_EN = true →
     Answers (.portDisable p v) s fun t =>
       t.getB (Reg.LANE_CFG p.val) Fld.LANE_CFG_EN = false ∧ SameMem s t ∧
       (s.linkUp p.val = true → inTransmission s p.val ≠ [] →
         (t.port p.val).link.stopping = true ∧ (t.port p.val).mac.reasm = none ∧
           t.linkState p.val = s.linkState p.val ∧
         inTransmission t p.val = inTransmission s p.val) ∧
       (¬ (s.linkUp p.val = true ∧ inTransmission s p.val ≠ []) →
         t.linkState p.val = 0 ∧ t.get (Reg.LANE_STATUS p.val) Fld.LANE_STATUS_ACT_TYPE = 0)) ∧
   (∀ (s : State) (p : Port), s.running → (s.port p.val).link.stopping = true → inTransmission s p.val = [] →
     Answers (.portOff p) s fun t =>
       t.linkState p.val = 0 ∧ t.get (Reg.LANE_STATUS p.val) Fld.LANE_STATUS_ACT_TYPE = 0 ∧
       (t.port p.val).link.stopping = false ∧ SameMem s t)) ∧
  (∀ (s : State) (p : Port) (reg : StageReg) (v : Word), s.running → s.portEn p.val = true →
     (reg = .cfg → Fld.LANE_CFG_EN.of v = 1) →
     Answers (.portCfgStageWrite p reg v) s fun t =>
       t.getB (Reg.LANE_STATUS p.val) Fld.LANE_STATUS_CFG_PENDING = true ∧
       SameRegsBut [Reg.LANE_STATUS p.val,
         match reg with | .cfg => Reg.LANE_CFG p.val | .adv => Reg.LANE_AN_ADV p.val | .txeq => Reg.LANE_TXEQ p.val] s t ∧
       t = { s with regs := t.regs, ports := t.ports } ∧ (reg ≠ .txeq → t.ports = s.ports) ∧
       (t.port p.val = if reg = .txeq then { s.port p.val with link := { (s.port p.val).link with txeq := none } }
         else s.port p.val) ∧ (∀ q, q ≠ p.val → t.port q = s.port q) ∧
       (reg = .cfg → t.get (Reg.LANE_CFG p.val) Fld.LANE_CFG_TYPE = Fld.LANE_CFG_TYPE.of v ∧
         t.get (Reg.LANE_CFG p.val) Fld.LANE_CFG_FEC = Fld.LANE_CFG_FEC.of v) ∧
       (reg = .adv → t.get (Reg.LANE_AN_ADV p.val) Fld.LANE_AN_ADV_ABILITY =
         Fld.LANE_AN_ADV_ABILITY.of v &&& abilityMask) ∧
       (reg = .txeq → t.get (Reg.LANE_TXEQ p.val) Fld.LANE_TXEQ_PRE1 = Fld.LANE_TXEQ_PRE1.of v))

/-- The moves of Table 03.4 (R62 to R66): from AN with the highest common type and FEC to TRAIN or ALIGN, or with none
AN again, which sends the port's page anew and leaves LANE_AN_LP.VALID at 1 (the model's choice, log 124); from
TRAIN to ALIGN, each lane's coefficients as written kept beside the trained ones, or into the hold-off and back to
the start state; from ALIGN to UP, or back; from UP to HOLD and back, or with DOWN to the start state. A port
whose EN has gone to 0 leaves UP or HOLD to OFF, at once where it loses lock before its last frame has ended (the
model's choice, log 140). In near-end loopback the page received is the port's own (R74). Choices of the model
that it rests on: log 27 (DEDUCED), log 31 (PRESUMED), log 32 (DESIGN CHOICE), log 38 (DEDUCED), log 124 (DESIGN
CHOICE), log 140 (DESIGN CHOICE). -/
def Obligations.PortsMoveByTheLinkStateTable : Prop :=
  ∀ (s : State) (p : Port), s.running →
    let n := p.val
    let ev (t : State) (f : Field) : Bool := t.getB (Reg.LANE_EVENT n) f
    (∀ (partner : Word) (nextPages : Bool), s.linkState n = 1 → refOk s n = true →
      let l := (s.port n).link
      let page := if nearEnd s n then anOwn s n else partner
      Answers (.anResolution p ⟨partner, nextPages⟩) s fun t =>
        SameMem s t ∧ t.getB (Reg.LANE_AN_LP n) Fld.LANE_AN_LP_VALID = true ∧
        match (abilities l.width).find? fun e =>
          (Fld.LANE_AN_ADV_ABILITY.of l.adv).testBit e.1 && (Fld.LANE_AN_LP_ABILITY.of page).testBit e.1 with
        | none => t.linkState n = 1 ∧ (∃ o, SendsAndRegs o [Reg.LANE_AN_LP n] s t) ∧
          (nearEnd s n = false → ∃ w : Word,
            t.out = .anPage n w :: ((if nextPages then [.anNullPage n] else []) ++ s.out) ∧
            Fld.LANE_AN_ADV_FEC_BITS.of w = Fld.LANE_AN_ADV_FEC_BITS.of l.adv ∧
            Fld.LANE_AN_ADV_PAUSE.of w = Fld.LANE_AN_ADV_PAUSE.of l.adv ∧
            ∀ b, (Fld.LANE_AN_ADV_ABILITY.of w).testBit b = ((Fld.LANE_AN_ADV_ABILITY.of l.adv).testBit b &&
              (abilities l.width).any fun e => e.1 == b))
        | some (bit, ty) =>
          t.linkState n = (if Fld.LANE_CFG_TRAIN_EN.of l.cfg = 1 ∧ ty ≠ 1 then 2 else 3) ∧
          t.get (Reg.LANE_STATUS n) Fld.LANE_STATUS_ACT_TYPE = ty ∧
          t.get (Reg.LANE_STATUS n) Fld.LANE_STATUS_ACT_FEC = resolveFec ty bit (Fld.LANE_AN_ADV_FEC_BITS.of l.adv)
            (Fld.LANE_AN_LP_FEC_BITS.of page) ∧
          t.get (Reg.LANE_AN_LP n) Fld.LANE_AN_LP_HCD = ty ∧ ev t Fld.LANE_EVENT_AN_DONE = true) ∧
    (s.linkState n = 2 → (s.port n).link.holdoff = false → refOk s n = true →
      Answers (.trainingDone p) s fun t => t.linkState n = 3 ∧ SameMem s t ∧
        (∀ q, t.port q = { s.port q with link := { (s.port q).link with txeq := (t.port q).link.txeq } }) ∧
        ((s.port n).link.txOverride = true → t.ports = s.ports) ∧
        ((s.port n).link.txOverride = false → ∀ l ∈ portLanes s n,
          (t.port l).link.txeq = some (s.rd (Reg.LANE_TXEQ l))) ∧
        SameRegsBut (Reg.LANE_STATUS n :: (portLanes s n).map Reg.LANE_TXEQ) s t) ∧
    (s.linkState n = 2 → (s.port n).link.holdoff = false → refOk s n = true →
      Answers (.trainingTimeout p) s fun t =>
        t.linkState n = 2 ∧ (t.port n).link.holdoff = true ∧ ev t Fld.LANE_EVENT_TRAIN_FAIL = true ∧
        t.get (Reg.LANE_STATUS n) Fld.LANE_STATUS_TRAIN_FAILS =
          min 255 (s.get (Reg.LANE_STATUS n) Fld.LANE_STATUS_TRAIN_FAILS + 1) ∧
        SameRegsBut [Reg.LANE_STATUS n, Reg.LANE_EVENT n] s t ∧ SameMem s t) ∧
    (s.linkState n = 2 → (s.port n).link.holdoff = true →
      Answers (.trainHoldoffExpiry p) s fun t =>
        t.linkState n = startState s n ∧ (t.port n).link.holdoff = false ∧
        SameRegsBut (Reg.LANE_STATUS n :: Reg.LANE_AN_LP n :: (portLanes s n).map Reg.LANE_TXEQ) s t ∧ SameMem s t) ∧
    (s.linkState n = 3 → refOk s n = true →
      Answers (.lockAcquired p) s fun t => t.linkState n = 4 ∧ ev t Fld.LANE_EVENT_UP = true ∧ SameMem s t) ∧
    (s.linkState n = 5 → refOk s n = true →
      Answers (.lockAcquired p) s fun t => t.linkState n = 4 ∧ OnlyRegsOf [Reg.LANE_STATUS n] s t) ∧
    (s.linkState n = 3 → refOk s n = true →
      Answers (.alignTimeout p) s fun t => t.linkState n = startState s n ∧
        SameRegsBut (Reg.LANE_STATUS n :: Reg.LANE_AN_LP n :: (portLanes s n).map Reg.LANE_TXEQ) s t ∧ SameMem s t) ∧
    (s.linkState n = 4 → (s.port n).link.stopping = false →
      Answers (.lockLost p) s fun t => SameMem s t ∧
        (s.get (Reg.LANE_CFG n) Fld.LANE_CFG_DOWN_HOLD = 0 →
          t.linkState n = startState s n ∧ ev t Fld.LANE_EVENT_DOWN = true) ∧
        (s.get (Reg.LANE_CFG n) Fld.LANE_CFG_DOWN_HOLD ≠ 0 →
          t.linkState n = 5 ∧ t.rd (Reg.LANE_EVENT n) = s.rd (Reg.LANE_EVENT n))) ∧
    (s.linkState n = 4 → (s.port n).link.stopping = true → Answers (.lockLost p) s fun t => t.linkState n = 0) ∧
    (s.linkState n = 5 → Answers (.downHoldExpiry p) s fun t => SameMem s t ∧
        ((s.port n).link.stopping = false → t.linkState n = startState s n ∧ ev t Fld.LANE_EVENT_DOWN = true) ∧
        ((s.port n).link.stopping = true → t.linkState n = 0))

/-- Remote faults (R65), lane references (R69) and measured latencies (R70). A remote fault leaves the port in UP and
is held until it clears. With a lane reference lost, REFOK of its sixteen lanes reads 0, each has its REFLOSS
event, and every enabled port on them stands in its start state; restored, REFOK reads 1 again, and a port that a
test asks for goes to TEST. FEC counts, of the port and of each of its lanes (R72), PRBS and loopback (R73, R74):
a checker locks on the pattern it looks for alone, which in near-end loopback comes from its own generator; TEST
needs the port's reference (R69); a generator that begins, ends or changes its pattern is seen at its ball. That
PRBS_LOCK and PRBS_LOCK_LOST bring the n errors counted since, and that a checker runs only in TEST, are the
model's choice (log 125). Choices of the model that it rests on: log 28 (DEDUCED), log 125 (DEDUCED). -/
def Obligations.PortFaultsFecAndLoopback : Prop :=
  ((∀ (s : State) (p : Port), s.running → s.linkState p.val = 4 →
     s.get (Reg.LANE_STATUS p.val) Fld.LANE_STATUS_ACT_TYPE ≠ 1 →
     Answers (.remoteFaultReceived p) s fun t =>
       (t.port p.val).link = { (s.port p.val).link with remoteFault := true } ∧ t = { s with ports := t.ports } ∧
       (t.port p.val).mac = (s.port p.val).mac ∧ ∀ q, q ≠ p.val → t.port q = s.port q) ∧
   (∀ (s : State) (p : Port), s.running →
     Answers (.remoteFaultCleared p) s fun t =>
       (t.port p.val).link = { (s.port p.val).link with remoteFault := false } ∧ t = { s with ports := t.ports } ∧
       (t.port p.val).mac = (s.port p.val).mac ∧ ∀ q, q ≠ p.val → t.port q = s.port q) ∧
   (∀ (s : State) (k : Fin 9), s.running →
     Answers (.refclkLoss k) s fun t => SameMem s t ∧
       ∀ i < 16, let l := 16 * k.val + i
         refOk t l = false ∧ t.getB (Reg.LANE_EVENT l) Fld.LANE_EVENT_REFLOSS = true ∧
         (s.linkState l ≠ 0 → t.linkState l = if s.portEn l then startState s l else 0)) ∧
   (∀ (s : State) (k : Fin 9), s.running →
     Answers (.refclkRestored k) s fun t => SameMem s t ∧
       ∀ i < 16, let l := 16 * k.val + i
         refOk t l = true ∧ (testWanted s l = false → t.linkState l = s.linkState l) ∧
         (s.portEn l = true → s.linkState l ≠ 0 → testWanted s l = true → t.linkState l = 6)) ∧
   (∀ (s : State) (lane : Port) (tx rx : Nat), s.running →
     let l := lane.val
     let p := ownerOf s l
     let nom := nominalLat (s.get (Reg.LANE_STATUS p) Fld.LANE_STATUS_ACT_TYPE)
       (s.get (Reg.LANE_STATUS p) Fld.LANE_STATUS_ACT_FEC)
     s.linkUp p = true → s.getB (Reg.LANE_STATUS l) Fld.LANE_STATUS_LAT_VALID = false →
     256 * nom.1 ≤ tx → tx ≤ 256 * (nom.1 + 12) → 256 * nom.2 ≤ rx → rx ≤ 256 * (nom.2 + 12) →
     Answers (.laneLatencyMeasured lane tx rx) s fun t =>
       t.get (Reg.LANE_LAT_TX l) Fld.LANE_LAT_TX_LAT = tx ∧ t.get (Reg.LANE_LAT_RX l) Fld.LANE_LAT_RX_LAT = rx ∧
       t.getB (Reg.LANE_STATUS l) Fld.LANE_STATUS_LAT_VALID = true ∧
       OnlyRegsOf [Reg.LANE_STATUS l, Reg.LANE_LAT_TX l, Reg.LANE_LAT_RX l] s t)) ∧
  ((∀ (s : State) (p : Port) (c : Nat) (ys : List Nat), s.running →
     s.get (Reg.LANE_STATUS p.val) Fld.LANE_STATUS_ACT_FEC ≠ 0 → 3 ≤ s.linkState p.val →
     Answers (.fecUncorrectable p c ys) s fun t =>
       Counts (Reg.LANE_FEC_CORR_LO p.val) c s t ∧
       (∀ i < (s.port p.val).link.width, Counts (Reg.LANE_FEC_SYM_LO (p.val + i)) (ys.getD i 0) s t) ∧
       Counts (Reg.LANE_FEC_UNCORR_LO p.val) 1 s t ∧ t.getB (Reg.LANE_EVENT p.val) Fld.LANE_EVENT_FEC_UNCORR = true ∧
       OnlyRegsOf ([Reg.LANE_FEC_CORR_LO p.val, Reg.LANE_FEC_CORR_LO p.val + 4, Reg.LANE_FEC_UNCORR_LO p.val,
         Reg.LANE_FEC_UNCORR_LO p.val + 4, Reg.LANE_EVENT p.val] ++
         (portLanes s p.val).flatMap fun l => [Reg.LANE_FEC_SYM_LO l, Reg.LANE_FEC_SYM_LO l + 4]) s t) ∧
   (∀ (s : State) (l : Port) (v : Word), s.running → Answers (.laneTestWrite l v) s fun t =>
       let a := Reg.LANE_TEST l.val
       let p := ownerOf s l.val
       let wanted := testWanted t p && refOk s p
       t.get a Fld.LANE_TEST_GEN_EN = Fld.LANE_TEST_GEN_EN.of v ∧
         t.get a Fld.LANE_TEST_CHK_EN = Fld.LANE_TEST_CHK_EN.of v ∧
       t.get a Fld.LANE_TEST_PATTERN = Fld.LANE_TEST_PATTERN.of v ∧
       t.get a Fld.LANE_TEST_LOOPBACK = Fld.LANE_TEST_LOOPBACK.of v ∧
       (Fld.LANE_TEST_CHK_EN.of v = 0 → t.get a Fld.LANE_TEST_CHK_LOCK = 0) ∧ SameMem s t ∧
       (s.portEn p = false → ∃ o, SendsAndRegs o [a] s t) ∧
       (s.portEn p = true → s.linkState p ≠ 0 → wanted = true → t.linkState p = 6) ∧
       (s.portEn p = true → s.linkState p = 6 → wanted = false → t.linkState p = startState s p) ∧
       (l.val ∈ portLanes s p → generated t l.val ≠ generated s l.val → nearEnd t l.val = false →
         .prbs l.val (generated t l.val) ∈ t.out)) ∧
   (∀ (s : State) (p : Port) (v : Word), s.running → loopbackOf v ≠ loopbackOf (s.rd (Reg.LANE_TEST p.val)) →
     ownerOf s p.val = p.val → s.portEn p.val = true → s.linkUp p.val = true →
     Answers (.loopbackChange p v) s fun t =>
       loopbackOf (t.rd (Reg.LANE_TEST p.val)) = loopbackOf v ∧
       t.getB (Reg.LANE_EVENT p.val) Fld.LANE_EVENT_DOWN = true ∧
       t.linkState p.val = if testWanted t p.val && refOk s p.val then 6 else startState s p.val) ∧
   (∀ (s : State) (l : Port) (pattern : Fin 8) (n : Nat), s.running →
     s.getB (Reg.LANE_TEST l.val) Fld.LANE_TEST_CHK_EN = true → s.linkState (ownerOf s l.val) = 6 →
     let received := if nearEnd s l.val then generated s l.val else some pattern.val
     (received = some (patternOf s l.val) →
       Answers (.prbsLock ⟨l, pattern, n⟩) s fun t => t.getB (Reg.LANE_TEST l.val) Fld.LANE_TEST_CHK_LOCK = true ∧
         t.rdN (Reg.LANE_PRBS_ERR l.val) = min 0xFFFFFFFF (s.rdN (Reg.LANE_PRBS_ERR l.val) + n) ∧
         OnlyRegsOf [Reg.LANE_TEST l.val, Reg.LANE_PRBS_ERR l.val] s t) ∧
     (received ≠ some (patternOf s l.val) → exec (.prbsLock ⟨l, pattern, n⟩) s = .next s)) ∧
   (∀ (s : State) (p : Port) (n : Nat), s.running → s.getB (Reg.LANE_TEST p.val) Fld.LANE_TEST_CHK_LOCK = true →
     Answers (.prbsLockLost p n) s fun t => t.getB (Reg.LANE_TEST p.val) Fld.LANE_TEST_CHK_LOCK = false ∧
       t.rdN (Reg.LANE_PRBS_ERR p.val) = min 0xFFFFFFFF (s.rdN (Reg.LANE_PRBS_ERR p.val) + n) ∧
       t.getB (Reg.LANE_EVENT p.val) Fld.LANE_EVENT_PRBS_LOSS = true ∧
       OnlyRegsOf [Reg.LANE_TEST p.val, Reg.LANE_PRBS_ERR p.val, Reg.LANE_EVENT p.val] s t))

/-! ### The MAC (ch. 4) -/

/-- RX_FRAME_COMPLETE (R80): the first row of Table 04.2 whose condition holds decides a bad frame's one counter; the
frame's octets count in RX_OCTETS_ALL, the cells that it arrived in are free again (R76), and with no frame of the
port held by REORDER no frame more waits for its token. In far-end loopback the frame is sent again, unless a
generator has the port's lanes (R73), and on a port that is down nothing is received; in near-end loopback nothing
is received but what the port has sent itself (R74). RX_FRAME_COMPLETE of a good frame that is steered to the
pipeline (R80 row 7, R84, R251, R255, R258) of a station in full service that has room for it: it waits for its
token in the lane of its class with its bytes, port, Guild and class, in ⌈F / 256⌉ cells, and counts in
RX_FRAMES_OK and RX_OCTETS_OK. Room: SHARED has the cells free, or Table 13.2 charges the frame to the express
reserve, or to the headroom of a class that stays in XOFF. Reassembly (R95): a start opens a frame, in cells as
its bytes arrive (R258), and with MAX_LEN as it stands (R79); a continuation with the right counts adds its bytes,
and one that ends the frame makes it whole, counted in RX_MERGE_ASM_OK, its fragments in RX_MERGE_FRAG; a start
that is the last mPacket too is a whole frame at once, judged by Table 04.2; a continuation with no start, or with
a wrong frame count, and a start while a frame is open, drop the partial frame, count in RX_MERGE_ASM_ERR and
raise ASM_ERR; while EN is 0 an mPacket counts in RX_MERGE_SMD_ERR and is dropped, and a frame that was open stays
so (the model's choice, log 121). A frame's timestamp point is that of its first fragment (R316). Choices of the
model that it rests on: log 29 (DESIGN CHOICE), log 35 (DEDUCED), log 40 (DEDUCED), log 41 (DEDUCED), log 44
(DEDUCED), log 121 (DESIGN CHOICE). -/
def Obligations.ReceivedFramesAreCheckedAndCharged : Prop :=
  (∀ (s : State) (p : Port) (rx : RxFrame), s.running →
     let n := rx.bytes.length + 4
     let lost := rx.linkLost || s.linkState p.val == 5 || (s.port p.val).link.stopping
     let limit := maxLenAt s p.val rx.sfdAge
     (s.linkUp p.val = true → nearEnd s p.val = false → rx.mpackets = [] →
       (lost = true ∨ rx.codeError = true ∨ n < 64 ∨ limit < n ∨ rx.fcsGood = false) →
       Answers (.rxFrameComplete p rx) s fun t =>
         Counts (Reg.MAC_STAT_LO p.val 1) n s t ∧ SameMem s t ∧
         (t.stn (stationOf p.val)).core.taken = (s.stn (stationOf p.val)).core.taken ∧
         ((∀ h ∈ s.tinker.heldRx, h.port ≠ p.val) → SameCells (stationOf p.val) s t) ∧
         Counts (Reg.MAC_STAT_LO p.val
           (if lost then 13 else if rx.codeError then 8
             else if n < 64 then (if rx.fcsGood then 9 else 10)
             else if limit < n then (if rx.fcsGood then 11 else 12) else 7)) 1 s t) ∧
     (s.linkState p.val = 6 → farEnd s p.val = true → rx.mpackets = [] →
       exec (.rxFrameComplete p rx) s =
         .next (if generating s p.val then s else s.emit (.frame p.val rx.bytes rx.fcsGood))) ∧
     (s.linkUp p.val = false → s.linkState p.val ≠ 6 → rx.linkLost = false →
       exec (.rxFrameComplete p rx) s = .next s) ∧
     (s.linkUp p.val = true → nearEnd s p.val = true → (s.port p.val).mac.loop = [] →
       exec (.rxFrameComplete p rx) s = .next s)) ∧
  (∀ (s : State) (p : Port) (rx : RxFrame), s.running → s.linkState p.val = 4 → (s.port p.val).link.stopping = false →
     nearEnd s p.val = false → rx.mpackets = [] → rx.linkLost = false → rx.codeError = false → rx.fcsGood = true →
       60 ≤ rx.bytes.length →
     rx.bytes.length + 4 ≤ maxLenAt s p.val rx.sfdAge →
     let tags := readTags (macTpids s p.val) rx.bytes
     let st := stationOf p.val
     let d := steer s p.val tags
     tags.etype ≠ 0x8808 → d.action = 0 → s.getB Reg.TNK_CTL Fld.TNK_CTL_EN = false → notActive s = false →
     (s.stn st).draining = false → s.full st = true → (∀ h ∈ s.tinker.heldRx, h.port ≠ p.val) →
     let n := cellsOf (rx.bytes.length + 4)
     (n ≤ ingSharedFree s st ∨ ingressSplit s st (localOf p.val) d.cls n ≠ none ∧
       (d.cls = 7 ∨ (xoffMask s st (localOf p.val)).testBit d.cls = true ∧
         xoffNext s st (localOf p.val) d.cls = true)) →
     n ≤ cellsFree s st →
     Answers (.rxFrameComplete p rx) s fun t =>
       let lane (u : State) := if d.cls = 7 then (u.stn st).tasks.laneX else (u.stn st).tasks.laneN
       (∃ f, (lane t).getLast? = some f ∧ f.bytes = rx.bytes ∧ f.inPort = p.val ∧ f.cls = d.cls ∧
         f.guild = s.portGuild p.val ∧ f.cells.length = n) ∧
       (lane t).length = (lane s).length + 1 ∧
       Counts (Reg.MAC_STAT_LO p.val 2) 1 s t ∧ Counts (Reg.MAC_STAT_LO p.val 0) (rx.bytes.length + 4) s t ∧
         SameMem s t) ∧
  (∀ (s : State) (p : Port) (rx : RxFrame) (m : MPacket), s.running → s.linkUp p.val = true →
     nearEnd s p.val = false →
     rx.mpackets = [m] →
     let mac := (s.port p.val).mac
     let st := stationOf p.val
     let limit := maxLenAt s p.val rx.sfdAge
     let opened (t : State) : Prop := ∃ a : Arrival,
       (t.port p.val).mac.reasm = some ⟨m.frameCount.val, 0, m.bytes, a, limit, rxPoint s p.val rx.sfdAge⟩ ∧
       (mac.reasm = none → a.cells.length = min (cellsOf (min m.bytes.length (limit + 256))) (cellsFree s st))
     (mac.mergeEn = false → Answers (.rxFrameComplete p rx) s fun t =>
       Counts (Reg.MAC_STAT_LO p.val 30) 1 s t ∧ t.ports = s.ports ∧ t.stations = s.stations) ∧
     (mac.mergeEn = true → m.start = true → m.last = false → mac.reasm = none →
       Answers (.rxFrameComplete p rx) s fun t => Counts (Reg.MAC_STAT_LO p.val 27) 1 s t ∧ opened t) ∧
     (mac.mergeEn = true → m.start = true → m.last = false → mac.reasm ≠ none →
       Answers (.rxFrameComplete p rx) s fun t => Counts (Reg.MAC_STAT_LO p.val 29) 1 s t ∧
         t.getB (Reg.MAC_EVENT p.val) Fld.MAC_EVENT_ASM_ERR = true ∧ opened t) ∧
     (mac.mergeEn = true → m.start = true → m.last = true →
       Answers (.rxFrameComplete p rx) s fun t => Counts (Reg.MAC_STAT_LO p.val 27) 1 s t ∧
         Counts (Reg.MAC_STAT_LO p.val 1) (m.bytes.length + 4) s t ∧ (t.port p.val).mac.reasm = none ∧ SameMem s t ∧
         Counts (Reg.MAC_STAT_LO p.val 28) 0 s t ∧
           Counts (Reg.MAC_STAT_LO p.val 29) (if mac.reasm = none then 0 else 1) s t ∧
         (mac.reasm ≠ none → t.getB (Reg.MAC_EVENT p.val) Fld.MAC_EVENT_ASM_ERR = true) ∧
         (s.linkState p.val = 4 → (s.port p.val).link.stopping = false → rx.linkLost = false → rx.codeError = false →
           60 ≤ m.bytes.length → m.bytes.length + 4 ≤ limit → rx.fcsGood = false →
           Counts (Reg.MAC_STAT_LO p.val 7) 1 s t)) ∧
     (mac.mergeEn = true → m.start = false →
       (∀ r, mac.reasm = some r → r.frameCount ≠ m.frameCount.val ∨ r.nextFrag ≠ m.fragCount.val) →
       Answers (.rxFrameComplete p rx) s fun t => Counts (Reg.MAC_STAT_LO p.val 29) 1 s t ∧
         t.getB (Reg.MAC_EVENT p.val) Fld.MAC_EVENT_ASM_ERR = true ∧ (t.port p.val).mac.reasm = none) ∧
     (∀ r, mac.mergeEn = true → m.start = false → mac.reasm = some r →
       r.frameCount = m.frameCount.val → r.nextFrag = m.fragCount.val →
       Answers (.rxFrameComplete p rx) s fun t => Counts (Reg.MAC_STAT_LO p.val 27) 1 s t ∧
         (m.last = false → ∃ a : Arrival, (t.port p.val).mac.reasm =
           some { r with nextFrag := (r.nextFrag + 1) % 4, bytes := r.bytes ++ m.bytes, arrival := a }) ∧
         (m.last = true → Counts (Reg.MAC_STAT_LO p.val 28) 1 s t ∧ (t.port p.val).mac.reasm = none ∧
           Counts (Reg.MAC_STAT_LO p.val 1) (r.bytes.length + m.bytes.length + 4) s t)))

/-- A received link pause frame (R86, R88, R89) that the port's mode allows sets, or with a time of 0 ends, the pause
of TC0 to TC6, and never that of TC7; it is consumed, its cells free again, and counts in RX_PAUSE and
RX_FRAMES_OK. A received PFC frame (R86, R88, R89) on a port in mode 2: for each priority of TC0 to TC6 whose
vector bit and PFC_RX_EN bit are set its time replaces what remained, or with 0 ends the pause; every other class,
and TC7 always, keeps what it had. RX_PAUSED shows the classes paused; the frame is consumed, its cells free
again, and counts in RX_FRAMES_OK and in RX_PFC of each priority in the vector. PAUSE_TIME_EXPIRY and
PAUSE_REFRESH (R88, R90): a class whose pause time ends resumes, the others staying as they are; while a port or a
class stays in XOFF the pause or PFC frame goes out again, to 01-80-C2-00-00-01 from MAC_SA, with QUANTA for each
class in XOFF. It goes out where the express MAC may begin it and no earlier one waits, and waits behind those
otherwise; and with a class-7 frame waiting another control frame may not follow it at once. Choices of the model
that it rests on: log 24 (DEDUCED). -/
def Obligations.PausesHoldClassesUntilTheyExpire : Prop :=
  (∀ (s : State) (p : Port) (rx : RxFrame), s.running → s.linkState p.val = 4 → (s.port p.val).link.stopping = false →
     nearEnd s p.val = false → rx.mpackets = [] → rx.linkLost = false → rx.codeError = false → rx.fcsGood = true →
       60 ≤ rx.bytes.length →
     rx.bytes.length + 4 ≤ maxLenAt s p.val rx.sfdAge →
     let tags := readTags (macTpids s p.val) rx.bytes
     let q := be rx.bytes (tags.off + 2) 2
     tags.etype = 0x8808 → be rx.bytes tags.off 2 = 1 →
     (be rx.bytes 0 6 = 0x0180C2000001 ∨ be rx.bytes 0 6 = beVal (macSa s p.val)) → fcMode s p.val = 1 →
     pauseRxOn s p.val = true →
     Answers (.rxFrameComplete p rx) s fun t =>
       (∀ c < 7, aget? c (t.port p.val).mac.pause = if q = 0 then none else some q) ∧
       aget? 7 (t.port p.val).mac.pause = aget? 7 (s.port p.val).mac.pause ∧
       Counts (Reg.MAC_STAT_LO p.val 14) 1 s t ∧ Counts (Reg.MAC_STAT_LO p.val 2) 1 s t ∧ SameMem s t ∧
       (t.stn (stationOf p.val)).core.taken = (s.stn (stationOf p.val)).core.taken ∧
       ((∀ h ∈ s.tinker.heldRx, h.port ≠ p.val) → SameCells (stationOf p.val) s t)) ∧
  (∀ (s : State) (p : Port) (rx : RxFrame), s.running → s.linkState p.val = 4 → (s.port p.val).link.stopping = false →
     nearEnd s p.val = false → rx.mpackets = [] → rx.linkLost = false → rx.codeError = false → rx.fcsGood = true →
       60 ≤ rx.bytes.length →
     rx.bytes.length + 4 ≤ maxLenAt s p.val rx.sfdAge →
     let tags := readTags (macTpids s p.val) rx.bytes
     let vector := be rx.bytes (tags.off + 2) 2
     let time (c : Nat) := be rx.bytes (tags.off + 4 + 2 * c) 2
     let en := s.get (Reg.MAC_FC_CFG p.val) Fld.MAC_FC_CFG_PFC_RX_EN
     tags.etype = 0x8808 → be rx.bytes tags.off 2 = 0x101 →
     (be rx.bytes 0 6 = 0x0180C2000001 ∨ be rx.bytes 0 6 = beVal (macSa s p.val)) → fcMode s p.val = 2 →
     Answers (.rxFrameComplete p rx) s fun t =>
       (∀ c < 7, aget? c (t.port p.val).mac.pause =
         if vector.testBit c = true ∧ en.testBit c = true then (if time c = 0 then none else some (time c))
         else aget? c (s.port p.val).mac.pause) ∧
       aget? 7 (t.port p.val).mac.pause = aget? 7 (s.port p.val).mac.pause ∧
       (∀ c < 8, (t.get (Reg.MAC_FC_STATUS p.val) Fld.MAC_FC_STATUS_RX_PAUSED).testBit c =
         (aget? c (t.port p.val).mac.pause).isSome) ∧
       (∀ c < 8, Counts (Reg.MAC_STAT_LO p.val (15 + c)) (if vector.testBit c then 1 else 0) s t) ∧
       Counts (Reg.MAC_STAT_LO p.val 2) 1 s t ∧ SameMem s t ∧
       (t.stn (stationOf p.val)).core.taken = (s.stn (stationOf p.val)).core.taken) ∧
  ((∀ (s : State) (p : Port) (c : Fin 8), s.running → Answers (.pauseTimeExpiry p c) s fun t =>
     aget? c.val (t.port p.val).mac.pause = none ∧
     (∀ d, d ≠ c.val → aget? d (t.port p.val).mac.pause = aget? d (s.port p.val).mac.pause) ∧
     (t.get (Reg.MAC_FC_STATUS p.val) Fld.MAC_FC_STATUS_RX_PAUSED).testBit c.val = false ∧
     SameRegsBut [Reg.MAC_FC_STATUS p.val] s t ∧ SameMem s t) ∧
   (∀ (s : State) (p : Port), s.running → ctlMay s p.val = true → (s.port p.val).mac.ctl = [] → fcMode s p.val = 1 →
     xoffMask s (stationOf p.val) (localOf p.val) ≠ 0 → Answers (.pauseRefresh p) s fun t =>
       (t.port p.val).mac.ctl = [] ∧ (egrQueue s p.val 7 ≠ [] → ctlMay t p.val = false) ∧
       Counts (Reg.MAC_STAT_LO p.val 49) 1 s t ∧ ∃ b, LineSends p.val (.frame p.val b true) s t ∧ b.length = 60 ∧
         be b 0 6 = 0x0180C2000001 ∧ be b 6 6 = beVal (macSa s p.val) ∧ be b 12 2 = 0x8808 ∧ be b 14 2 = 1 ∧
         be b 16 2 = s.get (Reg.MAC_FC_TIME p.val) Fld.MAC_FC_TIME_QUANTA) ∧
   (∀ (s : State) (p : Port), s.running → ctlCan s p.val = true → ctlMay s p.val = false → fcMode s p.val = 1 →
     xoffMask s (stationOf p.val) (localOf p.val) ≠ 0 → Answers (.pauseRefresh p) s fun t =>
       (t.port p.val).mac = { (s.port p.val).mac with ctl := (s.port p.val).mac.ctl ++
         [{ body := [0#8, 1#8] ++ beBytes 2 (s.get (Reg.MAC_FC_TIME p.val) Fld.MAC_FC_TIME_QUANTA) }] } ∧
       t = { s with ports := t.ports } ∧ ∀ q, q ≠ p.val → t.port q = s.port q) ∧
   (∀ (s : State) (p : Port), s.running → ctlCan s p.val = false → exec (.pauseRefresh p) s = .next s) ∧
   (∀ (s : State) (p : Port), s.running → ctlMay s p.val = true → (s.port p.val).mac.ctl = [] → fcMode s p.val = 2 →
     let m := xoffMask s (stationOf p.val) (localOf p.val)
     m ≠ 0 → Answers (.pauseRefresh p) s fun t => ∃ b, LineSends p.val (.frame p.val b true) s t ∧ b.length = 60 ∧
         be b 0 6 = 0x0180C2000001 ∧ be b 12 2 = 0x8808 ∧ be b 14 2 = 0x101 ∧ be b 16 2 = m ∧
         ∀ c < 8, be b (18 + 2 * c) 2 =
           if m.testBit c then s.get (Reg.MAC_FC_TIME p.val) Fld.MAC_FC_TIME_QUANTA else 0))

/-- The merge sublayer (R92, R93): EN written from 0 to 1 takes effect at once where no preemptable frame is partly
sent, and starts verification on an UP port; else it waits for MERGE_EN_TAKES_EFFECT, and starts it then, also
where EN had been written 0 meanwhile. Three verify mPackets without a respond fail; a respond succeeds, and
preemption is then active. A verify mPacket is answered while EN is 1. In near-end loopback a port receives those
mPackets alone that it has sent itself, in their order, and in far-end loopback it sends them again (R74).
PREEMPTION and FRAGMENT_RESUME (R94, R295): a preemptable frame in flight of which at least 64 B has been sent and
at least 64 B is left is held at that place, its fragment sent as an mPacket of the frame's count (R91), and
counted in TX_MERGE_HOLD; it goes on when the express MAC is idle and cannot take a head of class 7, which with
preemption active it can on a port that may begin a frame, the pair not barring it (R407). Choices of the model
that it rests on: log 12 (DEDUCED), log 37 (DEDUCED), log 38 (DEDUCED), log 74 (DESIGN CHOICE). -/
def Obligations.PreemptionIsVerifiedAndUsed : Prop :=
  (∀ (s : State) (p : Port), s.running →
     let n := p.val
     let mac := (s.port n).mac
     (∀ v : Word, mac.txPreempt = none → mac.mergeEn = false → Fld.MAC_MERGE_CFG_EN.of v = 1 →
       Fld.MAC_MERGE_CFG_VERIFY_DIS.of v = 0 → s.linkUp n = true → Answers (.mergeCfgWrite p v) s fun t =>
         (t.port n).mac.mergeEn = true ∧ verifyState t n = 2 ∧ LineSends n (.verify n) s t ∧
           mergeActive t n = false) ∧
     (∀ v : Word, mac.txPreempt = none → mac.mergeEn = true → Fld.MAC_MERGE_CFG_EN.of v = 0 →
       Answers (.mergeCfgWrite p v) s fun t =>
         (t.port n).mac.mergeEn = false ∧ verifyState t n = 0 ∧ t.out = s.out ∧ mergeActive t n = false) ∧
     (∀ v : Word, mac.txPreempt.isSome → Fld.MAC_MERGE_CFG_EN.of v ≠ (if mac.mergeEn then 1 else 0) →
       Fld.MAC_MERGE_CFG_VERIFY_DIS.of v = (if verifyDis s n then 1 else 0) →
       Answers (.mergeCfgWrite p v) s fun t =>
         t.get (Reg.MAC_MERGE_CFG n) Fld.MAC_MERGE_CFG_EN = Fld.MAC_MERGE_CFG_EN.of v ∧
         (t.port n = { s.port n with mac := { mac with mergeRise := (t.port n).mac.mergeRise } }) ∧
         ((t.port n).mac.mergeRise = true ↔
           Fld.MAC_MERGE_CFG_EN.of v = 1 ∧ (mac.mergeRise = true ∨ mergeEnCfg s n = false)) ∧
         (∀ q, q ≠ n → t.port q = s.port q) ∧ mergeActive t n = mergeActive s n) ∧
     (∀ v : Word, mac.txPreempt.isSome → mac.mergeEn = true → mergeEnCfg s n = false → Fld.MAC_MERGE_CFG_EN.of v = 1 →
       Fld.MAC_MERGE_CFG_VERIFY_DIS.of v = (if verifyDis s n then 1 else 0) →
       Answers (.mergeCfgWrite p v) s fun t => (t.port n).mac.mergeRise = true ∧ (t.port n).mac.mergeEn = true ∧
         mergeActive t n = mergeActive s n ∧ t.out = s.out) ∧
     (mac.txPreempt = none → mac.mergeEn ≠ mergeEnCfg s n ∨ mac.mergeRise = true →
       Answers (.mergeEnTakesEffect p) s fun t =>
         (t.port n).mac.mergeEn = mergeEnCfg s n ∧ (t.port n).mac.mergeRise = false ∧
         (mergeEnCfg s n = true → verifyDis s n = false → s.linkUp n = true →
           verifyState t n = 2 ∧ LineSends n (.verify n) s t ∧ mergeActive t n = false)) ∧
     (verifyState s n = 2 → mac.verifyTries < 3 → generating s n = false → Answers (.verifyTimer p) s fun t =>
         LineSends n (.verify n) s t ∧ (t.port n).mac.verifyTries = mac.verifyTries + 1 ∧ t.regs = s.regs) ∧
     (verifyState s n = 2 → 3 ≤ mac.verifyTries → Answers (.verifyTimer p) s fun t =>
         verifyState t n = 4 ∧ t.getB (Reg.MAC_EVENT n) Fld.MAC_EVENT_VERIFY_FAIL = true ∧
         OnlyRegsOf [Reg.MAC_MERGE_STATUS n, Reg.MAC_EVENT n] s t) ∧
     (mac.mergeEn = true → s.linkState n = 4 → nearEnd s n = false →
       exec (.verifyMpacketReceived p) s = .next (s.emit (.respond n))) ∧
     (nearEnd s n = true → mac.loop.head? ≠ some (.verify n) → exec (.verifyMpacketReceived p) s = .next s) ∧
     (nearEnd s n = true → mac.loop.head? = some (.verify n) → mac.mergeEn = true → s.linkState n = 4 →
       Answers (.verifyMpacketReceived p) s fun t => (t.port n).mac.loop = mac.loop.tail ++ [.respond n]) ∧
     (nearEnd s n = true → mac.loop.head? ≠ some (.respond n) → exec (.respondMpacketReceived p) s = .next s) ∧
     (s.linkState n = 6 → farEnd s n = true →
       exec (.verifyMpacketReceived p) s = .next (if generating s n then s else s.emit (.verify n)) ∧
       exec (.respondMpacketReceived p) s = .next (if generating s n then s else s.emit (.respond n))) ∧
     (verifyState s n = 2 → nearEnd s n = false → (s.linkState n ≠ 6 ∨ farEnd s n = false) →
       Answers (.respondMpacketReceived p) s fun t =>
         verifyState t n = 3 ∧ t.getB (Reg.MAC_EVENT n) Fld.MAC_EVENT_VERIFY_OK = true ∧
         (mac.mergeEn = true → mac.mergeRise = false → mergeEnCfg s n = true → s.linkUp n = true →
           mergeActive t n = true) ∧
         OnlyRegsOf [Reg.MAC_MERGE_STATUS n, Reg.MAC_EVENT n] s t)) ∧
  (∀ (s : State) (p : Port) (f : TxFrame), s.running → (s.port p.val).mac.txPreempt = some f →
     (∀ sent, f.held = false → mergeActive s p.val = true → 60 ≤ sent → f.done + sent + 64 ≤ f.sent.length + 4 →
       Answers (.preemption p sent) s fun t =>
         (t.port p.val).mac.txPreempt =
           some { f with held := true, done := f.done + sent, fragments := f.fragments + 1 } ∧
         (generating s p.val = false → (s.port p.val).mac.ctl = [] →
           ∃ m : MPacket, LineSends p.val (.mpacket p.val m true) s t ∧ m.last = false ∧
           m.bytes = (f.sent.drop f.done).take sent ∧ m.frameCount.val = f.frameCount % 4 ∧
           (m.start = true ↔ f.fragments = 1) ∧ (2 ≤ f.fragments → m.fragCount.val = (f.fragments - 2) % 4)) ∧
         Counts (Reg.MAC_STAT_LO p.val 61) 1 s t ∧ SameMem s t) ∧
     let sevenGoes := mergeActive s p.val = true ∧ txFree s p.val = true ∧ (eligible s p.val 7).isSome = true
     ((s.port p.val).mac.txExpress = none → (s.port p.val).link.remoteFault = false → ¬ sevenGoes →
       mayLeave s f.ef.frame = true → Answers (.fragmentResume p) s fun t =>
         (t.port p.val).mac.txPreempt = some { f with held := false } ∧ t = { s with ports := t.ports }) ∧
     ((s.port p.val).mac.txExpress.isSome ∨ (s.port p.val).link.remoteFault = true ∨ sevenGoes ∨
       mayLeave s f.ef.frame = false → exec (.fragmentResume p) s = .next s))

/-- STAT_CLEAR (R98): all 72 counters of the port are 0 at one instant, an increment after that instant counts in the
new value, and nothing else changes, MAC_STAT_HALF included. -/
def Obligations.StatClearZeroesTheCounters : Prop :=
  ∀ (s : State) (p : Port), s.running →
    Answers (.statClear p) s fun t =>
      (∀ k < 72, t.cntGet (Reg.MAC_STAT_LO p.val k) = 0) ∧
      (∀ k < 72, ∀ n < 2 ^ 48, (macStat p.val k n t).cntGet (Reg.MAC_STAT_LO p.val k) = n) ∧
      (∀ w < 3, t.rd (Reg.MAC_STAT_HALF p.val w) = s.rd (Reg.MAC_STAT_HALF p.val w)) ∧ OnlyRegs s t ∧
      ∀ a, (∀ k < 72, a ≠ Reg.MAC_STAT_LO p.val k ∧ a ≠ Reg.MAC_STAT_LO p.val k + 4) → t.rd a = s.rd a

/-! ### Egress (ch. 15) -/

/-- EGRESS_SELECT (R292, R295): on a port that may begin a frame, with preemption not active and no frame in
transmission, an eligible head of class 7 goes first, else the head of the class that R292 and R293 choose; the
MAC begins it, padded to 64 B with its FCS. Only control frames that waited go out now (R90). With preemption
active (R295) the express MAC takes an eligible head of class 7 while the preemptable MAC is between frames or
holds one; the preemptable MAC begins the chosen frame of the other classes, under the next frame count (R91),
where class 7 has no eligible head and it holds none. Otherwise neither begins a frame, nor does a port with a
frame held once preemption is no longer active. Of classes 0 to 6 (R292) an eligible strict class is chosen before
every weighted one, the highest first; a chosen class is eligible. TX_FRAME_END (R290): the frame leaves with its
bytes, or with the last of its mPackets (R91), unless a generator has the port's lanes (R73); it is counted in
TX_FRAMES_OK and TX_OCTETS_OK, and the blocks charged to it are freed, those of a multicast copy with the last of
its ports (R289). A frame that waits to resume has not ended. Gate lists (R297, R301): a boundary publishes the
gates and the entry in force; a PENDING write of a valid staged list sets its change instant to the first BASE + k
× CYCLE at or after 10 µs from now, on the low 32 bits of SEC (R315), and one of an invalid list sets CFG_ERR
alone; at that instant ACTIVE toggles, PENDING clears, GCL_SWITCH latches and the staged list is in force.
Histograms (R304): a depth sample counts one more, saturating, in the bin of each class's depth, which is 0 for an
empty queue and k for a depth of 2^(k−1) to 2^k − 1 blocks; CLEAR zeroes every bin of the port and no other
register but EGR_HIST_CFG changes. Choices of the model that it rests on: log 25 (DEDUCED), log 33 (DEDUCED), log
34 (DEDUCED), log 72 (DEDUCED), log 73 (DEDUCED), log 75 (DESIGN CHOICE), log 76 (DEDUCED). -/
def Obligations.EgressChoosesSendsAndGates : Prop :=
  (∀ (s : State) (p : Port) (ex : Bool) (c : Nat) (f : EFrame), s.running → txFree s p.val = true →
     (s.port p.val).mac.txExpress = none → (s.port p.val).mac.txPreempt = none → mergeActive s p.val = false →
     s.getB Reg.TNK_CTL Fld.TNK_CTL_EN = false → f.frame.len ≤ s.maxLen p.val →
     (∀ w ∈ f.words, odError s 3 (stationOf p.val) w = none) →
     odError s 4 (stationOf p.val) (egqWord (localOf p.val) c) = none → eligible s p.val c = some f →
     (c = 7 ∨ eligible s p.val 7 = none ∧ chooseClass s p.val = some c) →
     Answers (.egressSelect p ex) s fun t =>
       (∃ x, (t.port p.val).mac.txExpress = some x ∧ x.ef = f ∧ x.sent = padded f.frame.bytes ∧ x.badFcs = false ∧
         x.held = false) ∧ (t.port p.val).mac.txPreempt = none ∧ ((s.port p.val).mac.ctl = [] → t.out = s.out) ∧
           SameMem s t) ∧
  (∀ (s : State) (p : Port), s.running → txFree s p.val = true →
     let mac := (s.port p.val).mac
     let st := stationOf p.val
     let ready (c : Nat) (f : EFrame) : Prop := eligible s p.val c = some f ∧ f.frame.len ≤ s.maxLen p.val ∧
       (∀ w ∈ f.words, odError s 3 st w = none) ∧ odError s 4 st (egqWord (localOf p.val) c) = none
     mac.txExpress = none →
     (mergeActive s p.val = true → s.getB Reg.TNK_CTL Fld.TNK_CTL_EN = false →
       (∀ f, ready 7 f → preemptIdle mac = true → Answers (.egressSelect p true) s fun t =>
         (∃ x, (t.port p.val).mac.txExpress = some x ∧ x.ef = f ∧ x.sent = padded f.frame.bytes ∧ x.badFcs = false) ∧
         (t.port p.val).mac.txPreempt = mac.txPreempt ∧ SameMem s t) ∧
       (∀ c f, eligible s p.val 7 = none → chooseClass s p.val = some c → ready c f → mac.txPreempt = none →
         Answers (.egressSelect p false) s fun t =>
           (∃ x, (t.port p.val).mac.txPreempt = some x ∧ x.ef = f ∧ x.sent = padded f.frame.bytes ∧ x.badFcs = false ∧
             x.held = false ∧ x.fragments = 1 ∧ x.frameCount = mac.txCount) ∧
           (t.port p.val).mac.txCount = (mac.txCount + 1) % 4 ∧ (t.port p.val).mac.txExpress = none ∧ SameMem s t)) ∧
     (∀ ex : Bool, mac.ctl = [] →
       (mergeActive s p.val = true ∧
         (if ex then eligible s p.val 7 = none ∨ preemptIdle mac = false
           else (eligible s p.val 7).isSome ∨ mac.txPreempt.isSome ∨ chooseClass s p.val = none)) ∨
       (mergeActive s p.val = false ∧ mac.txPreempt.isSome) →
       exec (.egressSelect p ex) s = .next s)) ∧
  (∀ (s : State) (p c : Nat), chooseClass s p = some c →
     c < 7 ∧ (eligible s p c).isSome ∧
     (∀ d < 7, (eligible s p d).isSome → wfqCode s p d = 0 → wfqCode s p c = 0 ∧ d ≤ c)) ∧
  (∀ (s : State) (p : Port) (ex : Bool) (x : TxFrame), s.running →
     (if ex then (s.port p.val).mac.txExpress else (s.port p.val).mac.txPreempt) = some x →
     (ex = false → x.held = false) → (∀ h ∈ s.tinker.heldTx, h.port ≠ p.val) → x.ef.frame.known →
     Answers (.txFrameEnd p ex) s fun t =>
       let o : Output := if ex then .frame p.val x.sent (!x.badFcs)
         else .mpacket p.val (txPacket x x.sent.length true) (!x.badFcs)
       let e := (s.stn (stationOf p.val)).egress
       let e' := (t.stn (stationOf p.val)).egress
       (generating s p.val = false → if nearEnd s p.val then o ∈ (t.port p.val).mac.loop else o ∈ t.out) ∧
       (if ex then (t.port p.val).mac.txExpress else (t.port p.val).mac.txPreempt) = none ∧ SameMem s t ∧
       ((s.port p.val).mac.ctl = [] →
         Counts (Reg.MAC_STAT_LO p.val 42) 1 s t ∧ Counts (Reg.MAC_STAT_LO p.val 41) (x.sent.length + 4) s t) ∧
       match x.ef.copy with
       | none => e'.sharedUsed = e.sharedUsed - x.ef.chShared ∧ e'.expUsed = e.expUsed - x.ef.chExp ∧
         e'.copies = e.copies
       | some k => ∀ c, aget? k e.copies = some c →
         (1 < c.left → e'.sharedUsed = e.sharedUsed ∧ e'.expUsed = e.expUsed ∧
           aget? k e'.copies = some { c with left := c.left - 1 }) ∧
         (c.left ≤ 1 → e'.sharedUsed = e.sharedUsed - c.sharedCh ∧ e'.expUsed = e.expUsed - c.expCh ∧
           aget? k e'.copies = none)) ∧
  (∀ (s : State) (p : Port), s.running →
     let st := stationOf p.val
     let i := localOf p.val
     let a := Reg.EGR_GCL_CTL st i
     Answers (.gateBoundary p) s (fun t =>
       t.get (Reg.EGR_GCL_OPER st i) Fld.EGR_GCL_OPER_GATES = gatesNow s p.val % 256 ∧
       t.get (Reg.EGR_GCL_OPER st i) Fld.EGR_GCL_OPER_ENTRY =
         (segAt (gateSegs s p.val) (gateIndex s p.val)).entry % 256 ∧
       OnlyRegsOf [Reg.EGR_GCL_OPER st i] s t) ∧
     (∀ v : Word, Fld.EGR_GCL_CTL_PENDING.of v = 1 → s.getB a Fld.EGR_GCL_CTL_PENDING = false →
       Answers (.gclSwitchRequest p v) s fun t => SameRegsBut [a] s t ∧ SameMem s t ∧
         (gclAccepts s p.val (Fld.EGR_GCL_CTL_LEN.of v) = true → t.getB a Fld.EGR_GCL_CTL_PENDING = true ∧ ∃ T k,
           let cycle := s.get (Reg.EGR_GCL_CYCLE st i) Fld.EGR_GCL_CYCLE_CYCLE
           (t.port p.val).egr.gates = { (s.port p.val).egr.gates with
             changeAt := some T, nextLen := Fld.EGR_GCL_CTL_LEN.of v, nextCycle := cycle, nextBase := gclBase s p.val } ∧
           T = gclBase s p.val + k * cycle ∧ s.vtGate + 2560000 ≤ 256 * T ∧
           (k = 0 ∨ 256 * (T - cycle) < s.vtGate + 2560000)) ∧
         (gclAccepts s p.val (Fld.EGR_GCL_CTL_LEN.of v) = false →
           t.rd a = Fld.EGR_GCL_CTL_CFG_ERR.into (s.rd a) 1 ∧ t.ports = s.ports)) ∧
     (∀ T, (s.port p.val).egr.gates.changeAt = some T → Answers (.gclChangeInstant p) s fun t =>
       let g := (s.port p.val).egr.gates
       gclBank t p.val = 1 - gclBank s p.val ∧ t.getB a Fld.EGR_GCL_CTL_PENDING = false ∧
       t.getB (Reg.EGR_EVENT st) Fld.EGR_EVENT_GCL_SWITCH = true ∧
       (t.port p.val).egr.gates =
         { g with changeAt := none, len := g.nextLen, cycle := g.nextCycle, base := g.nextBase } ∧
       SameRegsBut [a, Reg.EGR_EVENT st, Reg.EGR_GCL_OPER st i] s t ∧ SameMem s t)) ∧
  (∀ (s : State) (p : Port), s.running →
     let st := stationOf p.val
     let i := localOf p.val
     (s.get (Reg.EGR_HIST_CFG st i) Fld.EGR_HIST_CFG_SAMPLE_US ≠ 0 → Answers (.queueDepthSample p) s fun t =>
       OnlyRegs s t ∧ ∀ c < 8, ∃ b < 16,
         (egrDepth s p.val c = 0 ↔ b = 0) ∧ (b ≠ 0 → 2 ^ (b - 1) ≤ egrDepth s p.val c) ∧
         (b < 15 → egrDepth s p.val c < 2 ^ b) ∧
         t.rdN (Reg.EGR_HIST st i c 1 b) = min 0xFFFFFFFF (s.rdN (Reg.EGR_HIST st i c 1 b) + 1) ∧
         ∀ b' < 16, b' ≠ b → t.rd (Reg.EGR_HIST st i c 1 b') = s.rd (Reg.EGR_HIST st i c 1 b')) ∧
     (∀ v : Word, Fld.EGR_HIST_CFG_CLEAR.of v = 1 → Answers (.histClear p v) s fun t =>
       OnlyRegs s t ∧ (∀ c < 8, ∀ h < 2, ∀ b < 16, t.rd (Reg.EGR_HIST st i c h b) = 0#32) ∧
       ∀ x, x ≠ Reg.EGR_HIST_CFG st i → (x < Reg.EGR_HIST st i 0 0 0 ∨ Reg.EGR_HIST st i 0 0 0 + 0x400 ≤ x) →
         t.rd x = s.rd x))

/-! ### Parse graph (ch. 5) -/

/-- PARSE_PLANE_SWITCH, OLD_PLANE_DRAINED and PARSE_MEMORY_WRITE (R111): a write of PRS_CFG that changes ACTIVE takes
effect while OLD_BUSY is 0, and in full service sets it; while OLD_BUSY is 1 it is ignored as a whole and WR_ERR
sets. A write of a node or transition word of the inactive plane is stored while OLD_BUSY is 0; any other is
ignored and WR_ERR sets. PRS_COMMIT (R110, R433): once COMMIT is set keys may be taken, COMMIT cannot be cleared
by a write, and no write changes the salt. PUNT_BUCKET_WRITE (R114): the written word is stored and the bucket is
full again, the other buckets keeping their tokens. Choices of the model that it rests on: log 45 (DEDUCED). -/
def Obligations.ParsePlanesChangeWhenDrained : Prop :=
  (∀ (s : State) (st : Station), s.running →
     let a := Reg.PRS_STATUS st.val
     (∀ v : Word, Fld.PRS_CFG_ACTIVE.of v ≠ activePlane s st.val → oldBusy s st.val = false →
       Answers (.parsePlaneSwitch st v) s fun t =>
         activePlane t st.val = Fld.PRS_CFG_ACTIVE.of v ∧
         t.get (Reg.PRS_CFG st.val) Fld.PRS_CFG_RECIRC_START = Fld.PRS_CFG_RECIRC_START.of v ∧
         oldBusy t st.val = s.full st.val ∧ OnlyRegsOf [Reg.PRS_CFG st.val, a] s t) ∧
     (∀ v : Word, Fld.PRS_CFG_ACTIVE.of v ≠ activePlane s st.val → oldBusy s st.val = true →
       Answers (.parsePlaneSwitch st v) s fun t =>
         t.getB a Fld.PRS_STATUS_WR_ERR = true ∧ oldBusy t st.val = true ∧ OnlyRegsOf [a] s t) ∧
     Answers (.oldPlaneDrained st) s (fun t => oldBusy t st.val = false ∧ OnlyRegsOf [a] s t) ∧
     (∀ (pl n w x : Nat) (v : Word), pl < 2 → n < 256 → w < 4 →
       (x = Reg.PRS_NODE st.val pl n w ∨ ∃ i < 2048, w < 2 ∧ x = Reg.PRS_TRANS st.val pl i w) →
       (pl ≠ activePlane s st.val → oldBusy s st.val = false → s.sound →
         Answers (.parseMemoryWrite x v) s fun t => OnlyRegsOf [x] s t ∧
           (x = Reg.PRS_NODE st.val pl n w →
             t.rd x = if w = 0 then 0#32 else if w = 1 then v &&& 0xFFFFFFF8#32 else v) ∧
           (x ≠ Reg.PRS_NODE st.val pl n w → t.rd x = if w = 0 then v else v &&& 0x81FF0000#32)) ∧
       (pl = activePlane s st.val ∨ oldBusy s st.val = true →
         Answers (.parseMemoryWrite x v) s fun t =>
           t.getB a Fld.PRS_STATUS_WR_ERR = true ∧ OnlyRegsOf [a] s t))) ∧
  ((∀ (s : State) (st : Station) (v : Word), s.running → Fld.PRS_CFG_COMMIT.of v = 1 →
     Fld.PRS_CFG_ACTIVE.of v = activePlane s st.val →
     Answers (.prsCommit st v) s fun t => keysOn t st.val = true ∧ OnlyRegsOf [Reg.PRS_CFG st.val] s t) ∧
   (∀ (s u : State) (st : Station) (req : Requester) (a : Nat) (v : Word), keysOn s st.val = true →
     (a = Reg.PRS_SALT_LO st.val ∨ a = Reg.PRS_SALT_HI st.val ∨ a = Reg.PRS_CFG st.val) →
     (exec (.registerWrite req a v false) s = .next u ∨ exec (.highWordWrite req a v) s = .next u ∨
       exec (.prsCommit st v) s = .next u) → keysOn u st.val = true ∧ prsSalt u st.val = prsSalt s st.val) ∧
   (∀ (s : State) (g : Guild) (r : Fin 64) (burst : Bool) (v : Word), s.running →
     Answers (.puntBucketWrite g r burst v) s fun t =>
       (if burst then t.get (Reg.HIF_PUNT_BKT_BURST g.val r.val) Fld.HIF_PUNT_BKT_BURST_BURST =
           Fld.HIF_PUNT_BKT_BURST_BURST.of v
         else t.get (Reg.HIF_PUNT_BKT_RATE g.val r.val) Fld.HIF_PUNT_BKT_RATE_RATE =
           Fld.HIF_PUNT_BKT_RATE_RATE.of v) ∧
       aget? r.val (t.guild g.val).buckets = none ∧
       (∀ k, k ≠ r.val → aget? k (t.guild g.val).buckets = aget? k (s.guild g.val).buckets) ∧
       SameRegsBut [Reg.HIF_PUNT_BKT_BURST g.val r.val, Reg.HIF_PUNT_BKT_RATE g.val r.val] s t ∧ SameMem s t))

/-! ### Endpoint tables (ch. 6) -/

/-- EPT_LOOKUP_DONE (R118, R243): a waiting task of a forwarding domain takes the destination result: a hit with DEST
and STATIC of the entry that its Guild, FID and destination address name, or a miss; its dependence count falls by
one, and at 0 it is READY; a group address takes no lookup. A received frame's source address on its first pass
(R119), where learning is enabled for it, makes a learn request at the tail of the queue on a miss or a hit with
another DEST, unless an equal one waits or the queue is full; a group or all-zero source address is counted and
never learned; and a source that is not observed changes nothing. LEARN_APPLY of a learn request (R122, Table
06.3), first row first: the same DEST refreshes the entry's stamp; a STATIC entry, or a frozen one whose freeze
has not expired, stays as it is; an entry moves under R123: freely with MOVE_LIMIT 0, else counted within its
window, and at the limit it freezes on its DEST; one whose freeze has expired is unfrozen, and then moves (R124);
an absent key over its Guild's quota is not inserted, nor one for which no chain of moves frees a place; one with
a free place is inserted with its DEST and TS = NOW. Each outcome is counted. Choices of the model that it rests
on: log 46 (DESIGN CHOICE). -/
def Obligations.EndpointsAreLookedUpAndLearned : Prop :=
  (∀ (s : State) (st : Station) (k : Fin 2048) (x : Task) (fid : Nat), s.running → s.sound →
     s.task? st.val k.val = some x → x.frame.fid = some fid → x.eptWait = true → x.st = .waiting → 1 ≤ x.cnt →
     x.ept.daHit = false →
     Answers (.eptLookupDone st k) s fun t => SameMem s t ∧ (TaskHas t st.val k.val fun y =>
       y.eptWait = false ∧ y.cnt = x.cnt - 1 ∧ y.st = (if x.cnt = 1 then .ready else .waiting) ∧
       match (if be x.frame.bytes 0 1 % 2 = 1 then none
         else eptFind s st.val ⟨x.frame.guild, fid, be x.frame.bytes 0 6⟩) with
         | some (_, e) => y.ept.daHit = true ∧ y.ept.dest = e.dest ∧ y.ept.static = e.static
         | none => y.ept.daHit = false) ∧
       let n := st.val
       let src : EptKey := ⟨x.frame.guild, fid, be x.frame.bytes 6 6⟩
       let observed := x.pass = 0 ∧ x.frame.inj = false ∧ x.frame.learn = true ∧
         s.cfgB (Reg.EPT_CFG n) Fld.EPT_CFG_LEARN = true ∧
         s.cfgB (Reg.EPT_PORT n (localOf x.frame.inPort)) Fld.EPT_PORT_LEARN_EN = true
       let never := be x.frame.bytes 6 1 % 2 = 1 ∨ be x.frame.bytes 6 6 = 0
       let table (u : State) := (u.stn n).ept.table
       let queue (u : State) := (u.stn n).ept.queue
       (¬ observed ∨ never → table t = table s ∧ queue t = queue s) ∧
       (observed → never → Counts (Reg.EPT_CNT_LO n 9) 1 s t) ∧
       (observed → ¬ never → (∀ l e, eptFind s n src = some (l, e) → e.dest ≠ x.frame.inPort) →
         (∀ r ∈ queue s, ∀ eg, r ≠ .learn src x.frame.inPort eg) → (queue s).length < 512 →
         queue t = queue s ++ [.learn src x.frame.inPort false] ∧ table t = table s) ∧
       (∀ l e, observed → ¬ never → eptFind s n src = some (l, e) → e.dest = x.frame.inPort → e.static = false →
         queue t = queue s ∧ eptFind t n src = some (l, { e with ts := eptNow s n, aged := false, egress := false }))) ∧
  (∀ (s : State) (st : Station) (k : EptKey) (dest : Nat) (eg : Bool) (rest : List LearnReq), s.running → s.sound →
     (s.stn st.val).ept.queue = .learn k dest eg :: rest → k.guild < 8 →
     let n := st.val
     let table (t : State) := (t.stn n).ept.table
     let cnt (i : Nat) (t : State) := Counts (Reg.EPT_CNT_LO n i) 1 s t
     (∀ l e, eptFind s n k = some (l, e) →
       (e.dest = dest → e.static = false → Answers (.learnApply st) s fun t =>
         eptFind t n k = some (l, { e with ts := eptNow s n, aged := false, egress := eg })) ∧
       (e.dest = dest → e.static = true → Answers (.learnApply st) s fun t => table t = table s) ∧
       (e.dest ≠ dest → e.static = true → Answers (.learnApply st) s fun t => table t = table s ∧ cnt 7 t) ∧
       (e.dest ≠ dest → e.static = false → e.frozen = true → freezeOver s n e = false →
         Answers (.learnApply st) s fun t => table t = table s ∧ cnt 6 t) ∧
       (e.dest ≠ dest → e.static = false → e.frozen = false → moveLimit s n = 0 →
         Answers (.learnApply st) s fun t => cnt 4 t ∧
           eptFind t n k = some (l, { e with dest := dest, ts := eptNow s n, aged := false, egress := eg })) ∧
       (e.dest ≠ dest → e.static = false → e.frozen = false → moveLimit s n ≠ 0 →
         let fresh := e.mvCnt = 0 ∨ moveWindow s n ≤ ticksSince (eptNow s n) e.mvTs
         let e1 := if fresh then { e with mvCnt := 0, mvTs := eptNow s n } else e
         (e1.mvCnt = moveLimit s n → Answers (.learnApply st) s fun t => cnt 5 t ∧
           eptFind t n k = some (l, { e1 with frozen := true, mvTs := eptNow s n })) ∧
         (e1.mvCnt < moveLimit s n → Answers (.learnApply st) s fun t => cnt 4 t ∧ eptFind t n k =
           some (l, { e1 with mvCnt := e1.mvCnt + 1, dest := dest, ts := eptNow s n, aged := false, egress := eg }))) ∧
       (e.dest ≠ dest → e.static = false → e.frozen = true → freezeOver s n e = true →
         Answers (.learnApply st) s fun t => cnt 4 t ∧ eptFind t n k = some (l,
           { e with frozen := false, dest := dest, ts := eptNow s n, aged := false, egress := eg
                    mvCnt := if moveLimit s n = 0 then 0 else 1
                    mvTs := if moveLimit s n = 0 then e.mvTs else eptNow s n }))) ∧
     (eptFind s n k = none → eptOverQuota s n k.guild = true →
       Answers (.learnApply st) s fun t => table t = table s ∧ cnt 3 t) ∧
     (eptFind s n k = none → eptOverQuota s n k.guild = false →
       (∀ d, ∀ l ∈ eptLocs k, eptChain s n d 16 [] l = none) →
       Answers (.learnApply st) s fun t => table t = table s ∧ cnt 2 t) ∧
     (eptFind s n k = none → eptOverQuota s n k.guild = false → (∃ l ∈ eptLocs k, s.eptAt n l = none) →
       Answers (.learnApply st) s fun t => cnt 0 t ∧ ∃ l ∈ eptLocs k, s.eptAt n l = none ∧
         eptFind t n k = some (l, { dest := dest, egress := eg, ts := eptNow s n })))

/-- Ageing (R127): NOW counts modulo 65,536; a sweep visit removes an aged entry in mode 0, or keeps it with AGED set
in mode 1; a static entry is never aged; a frozen entry whose freeze has expired is unfrozen (R124), and the moves
of one whose window has passed are forgotten; the visit goes on at the next place. At an empty place nothing else
happens, but for the access's energy. The endpoint commands (R136) enter the learn queue of every station they
name, in order, and complete with the answer of the last; BAD_STATIONS where none is named. In one named station
with an empty queue: EPT_ADD inserts the key with its DEST and STATIC, EPT_DEL removes it, EPT_FLUSH leaves no
entry that its filter matches, EPT_READ returns the entry as Table 06.1 lays it out, EPT_UNFREEZE clears FROZEN
and MV_CNT of a frozen one. -/
def Obligations.EndpointsAgeAndTakeCommands : Prop :=
  (∀ (s : State) (st : Station), s.running →
     let n := st.val
     let at_ := (s.stn n).ept.sweepAt
     Answers (.eptNowTick st) s (fun t => eptNow t n = (eptNow s n + 1) % 65536 ∧ OnlyRegsOf [Reg.EPT_STATUS n] s t) ∧
     Answers (.eptSweepVisit st) s (fun t => (t.stn n).ept.sweepAt = (at_ + 1) % 131072) ∧
     (s.sound → s.eptAt n at_ = none → Answers (.eptSweepVisit st) s fun t =>
       t = { s with stations := t.stations, energy := t.energy } ∧
         (t.stn n).ept = { (s.stn n).ept with sweepAt := (at_ + 1) % 131072 }) ∧
     (∀ k e, s.sound → s.eptAt n at_ = some (k, e) → k.guild < 8 → e.frozen = false → e.mvCnt = 0 →
       let aged := 0 < ageLimit s n ∧ ageLimit s n ≤ ticksSince (eptNow s n) e.ts
       Answers (.eptSweepVisit st) s fun t => (t.stn n).ept.sweepAt = (at_ + 1) % 131072 ∧
         (e.static = true ∨ ¬ aged → (t.stn n).ept.table = (s.stn n).ept.table) ∧
         (e.static = false → aged → s.cfg (Reg.EPT_CFG n) Fld.EPT_CFG_AGE_MODE = 0 →
           t.eptAt n at_ = none ∧ Counts (Reg.EPT_CNT_LO n 8) 1 s t) ∧
         (e.static = false → aged → s.cfg (Reg.EPT_CFG n) Fld.EPT_CFG_AGE_MODE = 1 →
           t.eptAt n at_ = some (k, { e with aged := true }))) ∧
     (∀ k e, s.sound → s.eptAt n at_ = some (k, e) → k.guild < 8 →
       ¬ (e.static = false ∧ 0 < ageLimit s n ∧ ageLimit s n ≤ ticksSince (eptNow s n) e.ts) →
       Answers (.eptSweepVisit st) s fun t =>
         (e.frozen = true → freezeOver s n e = true →
           t.eptAt n at_ = some (k, { e with frozen := false, mvCnt := 0 })) ∧
         (e.frozen = false ∨ freezeOver s n e = false → t.eptAt n at_ = some (k,
           if e.mvCnt ≠ 0 ∧ moveWindow s n ≤ ticksSince (eptNow s n) e.mvTs then { e with mvCnt := 0 } else e)))) ∧
  (∀ (s : State) (g : Guild) (ring : Fin 1024) (c : Cmd) (st : Station),
     let op : Instr → Nat := fun i => match i with
       | .eptAdd _ _ => 0x10 | .eptDel _ _ => 0x11 | .eptFlush _ _ => 0x12 | .eptRead _ _ => 0x13 | _ => 0x14
     let key := cmdKey g.val c
     let apply (i : Instr) (P : State → Prop) : Prop :=
       CmdReady s g.val ring.val (op i) c → s.sound → stationsOf (cmdStations c) = [st.val] →
       (s.stn st.val).ept.queue = [] → (s.stn st.val).ept.blocked = [] →
       Answers i s fun t => (t.stn st.val).ept.queue = [.cmd g.val ring.val] ∧
         Answers (.learnApply st) t P
     (∀ i ∈ [Instr.eptAdd g ring, .eptDel g ring, .eptFlush g ring, .eptRead g ring, .eptUnfreeze g ring],
       CmdReady s g.val ring.val (op i) c → stationsOf (cmdStations c) = [] →
       Answers i s fun t => CompletedWith g.val ring.val c 0x14 [] s t ∧ t.stations = s.stations) ∧
     (badDest s g.val c = none → eptFind s st.val key = none → eptOverQuota s st.val g.val = false →
       (∃ l ∈ eptLocs key, s.eptAt st.val l = none) →
       apply (.eptAdd g ring) fun u => CompletedWith g.val ring.val c 0 (leBytes 2 0) s u ∧ ∃ l,
         eptFind u st.val key =
           some (l, { dest := cmdDest c, static := cmdFlag c 0, ts := eptNow s st.val })) ∧
     (∀ l e, eptFind s st.val key = some (l, e) → apply (.eptDel g ring) fun u =>
       CompletedWith g.val ring.val c 0 (leBytes 2 0) s u ∧ u.eptAt st.val l = none) ∧
     ((∀ x ∈ (s.stn st.val).ept.table, x.2.1.guild < 8) → apply (.eptFlush g ring) fun u =>
       (∀ x ∈ (u.stn st.val).ept.table, flushMatch g.val c x = false) ∧ CompletedWith g.val ring.val c 0
         (leBytes 4 ((s.stn st.val).ept.table.filter (flushMatch g.val c)).length) s u) ∧
     (∀ l e, eptFind s st.val key = some (l, e) → apply (.eptRead g ring) fun u =>
       CompletedWith g.val ring.val c 0 (leBytes 16 (entryWord key e)) s u ∧
         (u.stn st.val).ept.table = (s.stn st.val).ept.table) ∧
     (∀ l e, eptFind s st.val key = some (l, e) → apply (.eptUnfreeze g ring) fun u =>
       CompletedWith g.val ring.val c 0 (leBytes 2 0) s u ∧
         eptFind u st.val key = some (l, if e.frozen then { e with frozen := false, mvCnt := 0 } else e)))

/-! ### Route tables (ch. 6) -/

/-- ROUTE_LOOKUP_DONE (R131, R132): in a station without invalid entries the result is the word of the longest prefix
of the task's Guild and VRF that its destination address has, or a miss where it has none; the task's count falls.
The route commands (R134 to R136): LPM_ADD of an absent key within the pool and the quota makes it hold its result
word, no other route changing; of a present key without REPLACE it answers ROUTE_EXISTS; LPM_DEL removes the key;
LPM_READ returns its word, of the first station whose replica holds it (the model's choice, log 146); a prefix
with a bit beyond LEN is refused with BAD_PREFIX. Choices of the model that it rests on: log 56 (DEDUCED), log 146
(DESIGN CHOICE). -/
def Obligations.RoutesAreLookedUpAndKept : Prop :=
  (∀ (s : State) (st : Station) (k : Fin 2048) (x : Task) (v6 : Bool) (dst : Nat), s.running → s.sound →
     s.routeBad = [] → s.task? st.val k.val = some x → x.l3dst = some (v6, dst) → x.routeWait = true →
     x.st = .waiting → 1 ≤ x.cnt →
     let key (n : Nat) : RouteKey :=
       { guild := x.frame.guild, ipv6 := v6, len := n, pfx := prefixOf v6 n dst
         vrf := s.cfg (Reg.LPM_PORT st.val (localOf x.frame.inPort)) Fld.LPM_PORT_VRF }
     Answers (.routeLookupDone st k) s fun t => SameMem s t ∧ t.routes = s.routes ∧
       TaskHas t st.val k.val fun y => y.routeWait = false ∧ y.cnt = x.cnt - 1 ∧
         y.st = (if x.cnt = 1 then .ready else .waiting) ∧
         (∀ n ≤ 128, ∀ v, routeData s (key n) = some v → (∀ m ≤ 128, n < m → routeData s (key m) = none) →
           y.route.hit = true ∧ y.route.word = v) ∧
         ((∀ n ≤ 128, routeData s (key n) = none) → y.route.hit = false)) ∧
  (∀ (s : State) (g : Guild) (ring : Fin 1024) (c : Cmd),
     let key := lpmKey g.val c
     let v := descField c.desc 32 26
     let ready := CmdReady s g.val ring.val
     (ready 0x18 c → badPrefix c = false → (routeData s key).isSome → lpmReplace c = false →
       Answers (.lpmAdd g ring) s fun t => CompletedWith g.val ring.val c 0x15 [] s t ∧ t.routes = s.routes) ∧
     (ready 0x18 c → badPrefix c = false → (lpmReplace c = true ∨ routeData s key = none) →
       ((routeData s key).isSome ∨ routeCount s key.ipv6 < routeLimit key.ipv6 ∧
         routeGuildCount s g.val key.ipv6 < routeQuota s g.val key.ipv6) →
       Answers (.lpmAdd g ring) s fun t => CompletedWith g.val ring.val c 0 [] s t ∧ routeData t key = some v ∧
         (∀ k, k ≠ key → routeData t k = routeData s k) ∧ SameMem s t) ∧
     (ready 0x19 c → badPrefix c = false → (routeData s key).isSome →
       Answers (.lpmDel g ring) s fun t => CompletedWith g.val ring.val c 0 [] s t ∧ routeData t key = none ∧
         (∀ k, k ≠ key → routeData t k = routeData s k) ∧ SameMem s t) ∧
     (∀ w, ready 0x1A c → s.sound → (∃ st < 12, (st, key) ∉ s.routeBad) → badPrefix c = false →
       routeData s key = some w →
       Answers (.lpmRead g ring) s fun t => CompletedWith g.val ring.val c 0 (leBytes 4 w) s t ∧ t.routes = s.routes ∧
         t.stations = s.stations ∧ SameMem s t) ∧
     (∀ i ∈ [(0x18, Instr.lpmAdd g ring), (0x19, .lpmDel g ring), (0x1A, .lpmRead g ring)],
       ready i.1 c → badPrefix c = true →
       Answers i.2 s fun t => CompletedWith g.val ring.val c 0x17 [] s t ∧ t.routes = s.routes))

/-! ### Tokens (ch. 12) -/

/-- TOKEN_TAKE, LANE_RESUME and RESIDENCY_EXPIRY (R241, R242, R249, R251, R252). While a station's intake runs, the
head of the lane that is served takes the lowest FREE slot with its epoch tag, its birth and its place in its
ordered-release queue: an express head first, which needs no more than one FREE slot, another only beyond XSLOTS
of them; without room the lane stalls, until a slot is free again; a waiting or READY task that reaches RES_LIMIT
is dropped, counted and latched, its outstanding lookups being made for nothing (the model's reading, log 131), a
running one is marked. Without intake no token is taken. TASK_DISPATCH (R213, R244, R245): a free engine starts
the task it is to take at the entry of its opcode, its registers v0 to v23 at 0, under the XWORDS, MAX_WORDS and
MAX_RESTART of the dispatch; an invalid entry drops the pass. An express task goes before every other, and a
reserved engine takes no task of the round robin and no hand-off that it may not run. ORDERED_RELEASE (R253, R262,
R269): the head of an ordered-release queue leaves its slot once it is DONE and holds nothing, its Guild's drain
count falling, and only the head. A unicast frame, and a punt for destination 144, enters the VOQ of its
destination and class; it is dropped for a destination that is not valid, by a class that does not admit it
(R262), and by ECN_MODE 2 past ECN_TH where it cannot be marked (R263). A multicast frame of a group of its own
Guild enters its class queue, and is dropped where the group does not exist, is another Guild's, or leaves no
destination; at the end of a yield a frame is discarded (R408); a head that is not done keeps all behind it.
Choices of the model that it rests on: log 1 (DESIGN CHOICE), log 48 (DESIGN CHOICE), log 49 (DEDUCED), log 59
(DEDUCED), log 65 (DEDUCED), log 77 (DEDUCED), log 109 (DEDUCED), log 131 (DEDUCED). -/
def Obligations.TasksGoFromTokenToRelease : Prop :=
  (∀ (s : State) (st : Station), s.running →
     let n := st.val
     let tk (t : State) := (t.stn n).tasks
     (intakeRuns s n = false → Answers (.tokenTake st) s (· = s)) ∧
     (∀ f rest, intakeRuns s n = true → s.sound → (tk s).laneR = [] → (tk s).laneX = [] →
       (tk s).laneN = f :: rest → f.known → laneBlocked s n 0 = false → laneBlocked s n 1 = false →
         laneBlocked s n 2 = false →
       let q := if f.inj then 96 else 8 * localOf f.inPort + f.cls
       (xslots s n < freeTasks s n → Answers (.tokenTake st) s fun t =>
         (tk t).laneN = rest ∧ Counts (Reg.TSK_CNT_LO n 0) 1 s t ∧
         aget [] q (tk t).orqs = aget [] q (tk s).orqs ++ [lowestSlot s n] ∧
         TaskHas t n (lowestSlot s n) fun x => x.frame.bytes = f.bytes ∧ x.born = s.now ∧ x.pass = 0 ∧
           x.tag = activeBank s n f.guild) ∧
       (freeTasks s n ≤ xslots s n → Answers (.tokenTake st) s fun t =>
         (tk t).laneN = (tk s).laneN ∧ (tk t).slots = (tk s).slots ∧ 2 ∈ (tk t).stalled)) ∧
     (∀ f rest, intakeRuns s n = true → s.sound → (tk s).laneR = [] → laneOrder s n = [0, 1, 2] →
       (tk s).laneX = f :: rest → f.known → laneBlocked s n 0 = false → laneBlocked s n 1 = false →
       let q := if f.inj then 96 else 8 * localOf f.inPort + f.cls
       (freeTasks s n ≠ 0 → Answers (.tokenTake st) s fun t =>
         (tk t).laneX = rest ∧ (tk t).laneN = (tk s).laneN ∧ Counts (Reg.TSK_CNT_LO n 0) 1 s t ∧
         aget [] q (tk t).orqs = aget [] q (tk s).orqs ++ [lowestSlot s n] ∧
         TaskHas t n (lowestSlot s n) fun x => x.frame.bytes = f.bytes ∧ x.born = s.now ∧ x.pass = 0 ∧
           x.tag = activeBank s n f.guild) ∧
       (freeTasks s n = 0 → Answers (.tokenTake st) s fun t =>
         (tk t).laneX = (tk s).laneX ∧ (tk t).slots = (tk s).slots ∧ 1 ∈ (tk t).stalled)) ∧
     (∀ l : Fin 3, (∀ e ∈ (tk s).slots, e.2.ruleWait ≠ .refused) → Answers (.laneResume st l) s fun t =>
       (tk t).stalled = (if laneRoom s n l.val ∨ l = 0 then (tk s).stalled.filter (· != l.val) else (tk s).stalled) ∧
       t = { s with stations := t.stations }) ∧
     (∀ (k : Fin 2048) x, s.task? n k.val = some x →
       (s.sound → x.st = .waiting ∨ x.st = .ready → Answers (.residencyExpiry st k) s fun t =>
         t.getB (Reg.TSK_EVENT n) Fld.TSK_EVENT_RES_DROP = true ∧
         ((∀ m, x.ice ≠ .holding m) → Counts (Reg.TSK_CNT_LO n 5) 1 s t) ∧
         TaskHas t n k.val fun y => y.st = .done ∧ y.dec = {} ∧ y.frame = x.frame ∧ y.ice = .none) ∧
       (x.st = .parsing ∨ x.st = .running → Answers (.residencyExpiry st k) s fun t =>
         t.task? n k.val = some { x with aged := true } ∧ SameRegsBut [Reg.TNK_MEMINJ] s t ∧ SameMem s t) ∧
       (x.st = .done → Answers (.residencyExpiry st k) s (· = s)))) ∧
  (∀ (s : State) (st : Station) (e : Fin 24), s.running → s.sound →
     let n := st.val
     (∀ k how x, dispatchStopped s n = false → engineTask s n e.val = some (k, how) → s.task? n k = some x →
       x.st = .ready →
       (∀ a, (s.stn n).store.entry (taskOpcode s n x) = some a → Answers (.taskDispatch st e) s fun t =>
         SameMem s t ∧ Counts (Reg.STN_AE_CNT_LO n 0) 1 s t ∧ Counts (Reg.TSK_CNT_LO n 1) 1 s t ∧
         t.task? n k = some { x with st := .running, ranOn := none } ∧
         ∃ r, aget? e.val (t.stn n).tasks.engines = some r ∧ r.task = k ∧ r.pc = a ∧ r.words = 0 ∧
           r.committed = false ∧ r.xwords = xwordsAt s n e.val ∧ r.maxWords = some (aeMaxWords s n) ∧
             r.maxRestart = aeMaxRestart s n ∧ (∀ v < 24, vGet r.regs v = 0#64) ∧
             r.frame = x.frame.bytes.take 256) ∧
       ((s.stn n).store.entry (taskOpcode s n x) = none → Answers (.taskDispatch st e) s fun t =>
         Counts (Reg.STN_AE_CNT_LO n 7) 1 s t ∧ aget? e.val (t.stn n).tasks.engines = none ∧
         TaskHas t n k fun y => y.st = .done ∧ y.dec = {})) ∧
     ((dispatchStopped s n = true ∨ engineTask s n e.val = none ∧
         ∀ k, aget? e.val (s.stn n).tasks.handTo = some k → mayRunOn s n e.val k = true) →
       Answers (.taskDispatch st e) s (· = s)) ∧
     (∀ k, engineTask s n e.val = some (k, .handOff) → mayRunOn s n e.val k = true) ∧
     (∀ k how j, groupHead s n 4 = some j → engineTask s n e.val = some (k, how) → k = j) ∧
     (∀ k g d, reservedEngine s n e.val = true → engineTask s n e.val ≠ some (k, .robin g d))) ∧
  (∀ (s : State) (st : Station) (q : Fin 97) (k : Nat) (rest : List Nat) (x : Task), s.running → s.sound →
     aget [] q.val (s.stn st.val).tasks.orqs = k :: rest → s.task? st.val k = some x →
     let n := st.val
     let core (t : State) := (t.stn n).core
     let left (t : State) : Prop := t.task? n k = none ∧ aget [] q.val (t.stn n).tasks.orqs = rest ∧
       Counts (Reg.TSK_CNT_LO n 9) 1 s t ∧
       drainCount t n x.tagGuild x.tag = drainCount s n x.tagGuild x.tag - 1
     let gone (k : Nat) (t : State) : Prop := left t ∧ Counts (Reg.SWC_CNT_LO n k) 1 s t ∧
       (core t).voqs = (core s).voqs ∧ (core t).mcqs = (core s).mcqs ∧ ∀ c ∈ x.frame.cells, c ∉ (core t).taken
     (x.st ≠ .done ∨ x.holds = true → Answers (.orderedRelease st q) s (· = s)) ∧
     (x.st = .done → x.holds = false → x.tag ≤ 1 → x.tagGuild < 8 →
       (x.dec.action = 0 → x.frame.known → Answers (.orderedRelease st q) s fun t => left t ∧ SameMem s t ∧
         (core t).voqs = (core s).voqs ∧ (core t).mcqs = (core s).mcqs) ∧
       ((s.stn n).yields = true → x.frame.known → Answers (.orderedRelease st q) s fun t => left t ∧
         Counts (Reg.MATE_CNT_LO 2) 1 s t ∧ (core t).voqs = (core s).voqs ∧ (core t).mcqs = (core s).mcqs) ∧
       ((s.stn n).yields = false → x.dec.action = 1 ∨ x.dec.action = 3 → x.frame.growth = 0 →
         let dest := if x.dec.action = 3 then 144 else x.dec.dest
         let v := 8 * dest + x.dec.tc
         let w := s.rd (Reg.SWC_CLASS n x.dec.tc)
         let ll := frameLossless s x.frame
         let below := x.dec.tc = 7 ∨ voqDepth s n v < Fld.SWC_CLASS_ECN_TH.of w
         let admits := x.dec.tc = 7 ∨ ll = true ∨ leAlpha (Fld.SWC_CLASS_ALPHA.of w)
           (voqDepth s n v + x.frame.cells.length) (ingSharedFree s n) = true
         let act := ecnAct (Fld.SWC_CLASS_ECN_MODE.of w) ll x.l3 x.frame.bytes
         let queued (bs : List Byte) (t : State) : Prop := left t ∧ ∃ y,
           aget [] v (core t).voqs = aget [] v (core s).voqs ++ [y] ∧
           y.frame.bytes = bs ∧ y.dest = dest ∧ y.tc = x.dec.tc ∧ y.reason = x.dec.reason
         (s.validDest dest = false → x.frame.known → Answers (.orderedRelease st q) s (gone 1)) ∧
         (s.validDest dest = true → ¬ admits → x.frame.known → Answers (.orderedRelease st q) s fun t => gone 2 t ∧
           (x.frame.inPort < 144 → Counts (Reg.SWC_PCNT_LO n (localOf x.frame.inPort) 2) 1 s t)) ∧
         (s.validDest dest = true → admits → below ∨ act = .pass →
           Answers (.orderedRelease st q) s (queued x.frame.bytes)) ∧
         (∀ v6 off, s.validDest dest = true → admits → ¬ below → act = .mark v6 off →
           Answers (.orderedRelease st q) s fun t => queued (ecnMark v6 off x.frame.bytes) t ∧
             Counts (Reg.SWC_CNT_LO n 6) 1 s t) ∧
         (s.validDest dest = true → admits → ¬ below → act = .drop → x.frame.known →
           Answers (.orderedRelease st q) s (gone 7))) ∧
       ((s.stn n).yields = false → x.dec.action = 2 → x.frame.growth = 0 →
         let ports := mcPorts s (x.dec.flood.isNone && ((aget? x.dec.mgrp s.groups).elim false (·.hairpin)))
           { frame := x.frame, kind := .mcCopy, mgrp := x.dec.mgrp, tc := x.dec.tc, flood := x.dec.flood }
         let mine := x.dec.flood.isSome ∨ ∃ gr, aget? x.dec.mgrp s.groups = some gr ∧ gr.guild = x.frame.guild
         (x.dec.flood = none → aget? x.dec.mgrp s.groups = none → x.frame.known →
           Answers (.orderedRelease st q) s (gone 12)) ∧
         (∀ gr, x.dec.flood = none → aget? x.dec.mgrp s.groups = some gr → gr.guild ≠ x.frame.guild → x.frame.known →
           Answers (.orderedRelease st q) s (gone 11)) ∧
         (mine → ports = 0 → x.frame.known → Answers (.orderedRelease st q) s (gone 13)) ∧
         (mine → ports ≠ 0 → Answers (.orderedRelease st q) s fun t => left t ∧ Counts (Reg.SWC_CNT_LO n 8) 1 s t ∧
           ∃ y, aget [] x.dec.tc (core t).mcqs = aget [] x.dec.tc (core s).mcqs ++ [y] ∧
             y.frame.bytes = x.frame.bytes ∧ y.flood = x.dec.flood ∧ (x.dec.flood = none → y.mgrp = x.dec.mgrp)))))

/-! ### Rules (ch. 9) -/

/-- RULE_SEARCH (R187, R188, R192): with no creation search queued, the oldest search is made in the task's tagged
bank; the task takes the winner's result, or its Guild's default, and its dependence count falls. A creation
search goes first (R189), in the bank of the pass whose key it searches (R192): its entry takes the result, and
ends where it says NOSTATE (R185). The search of a task that has been dropped is made too, and its result goes to
no task (R249). RUL_WRITE, RUL_READ and RUL_SEARCH (R190, R194, R197). A sound image goes into the shadow bank of
every named station, its GUILD forced, no other entry changing; a station whose old bank still drains refuses it.
RUL_READ copies the entry's image to the host; RUL_SEARCH, once its search is made, returns the winner and the
result for the key given, its GUILD forced. RUL_COMMIT, RUL_DRAIN_DONE and RUL_COPY_DONE (R193, R194): the Guild's
banks change places in one step. The command completes at once where the old bank has no frames and SYNC is 0;
else the old bank drains, and then, with SYNC, takes a copy of the Guild's entries and default. A station whose
old bank still drains refuses a further commit. Choices of the model that it rests on: log 1 (DESIGN CHOICE), log
52 (DEDUCED), log 54 (DEDUCED), log 55 (DEDUCED). -/
def Obligations.RulesAreSearchedWrittenAndCommitted : Prop :=
  (∀ (s : State) (st : Station), s.running → s.sound →
     let n := st.val
     (∀ k x rest, (s.stn n).rules.queue = .policy k :: rest ∨ (s.stn n).rules.queue = .recirc k :: rest →
       (∀ r ∈ rest, r.creates = false) → s.task? n k = some x → x.ruleWait = .queued → x.st = .waiting →
       Answers (.ruleSearch st) s fun t => SameMem s t ∧ Counts (Reg.RUL_CNT_LO n 0) 1 s t ∧
         ∃ i r, Wins s n x.tag x.frame.guild (searchKey s n x false) i r ∧ TaskHas t n k fun y =>
           y.rule = some r ∧ y.searched = true ∧ y.ruleWait = .none ∧ y.cnt = x.cnt - 1 ∧
           y.st = if x.cnt ≤ 1 then .ready else .waiting) ∧
     (∀ e x maker rest, (s.stn n).rules.queue = .creation e true :: rest → s.entry? n e = some x → x.phase = .rule →
       entryMaker s n x = some maker →
       Answers (.ruleSearch st) s fun t => ∃ i r, Wins s n maker.tag maker.frame.guild (searchKey s n maker true) i r ∧
         ∃ y, t.entry? n e = some y ∧ y.rule = some r ∧ (noState r = true → y.phase = .ended) ∧
           (noState r = false → y.phase = if (s.stn n).ice.createQ.length < 64 then .created else .createHeld)) ∧
     (∀ bank g key kind rest, (s.stn n).rules.queue = .gone bank g key kind :: rest →
       (∀ r ∈ rest, r.creates = false) →
       kind = 2 ∨ kind = 3 → Answers (.ruleSearch st) s fun t => SameMem s t ∧ Counts (Reg.RUL_CNT_LO n 0) 1 s t ∧
         (t.stn n).tasks = (s.stn n).tasks) ∧
     ((s.stn n).rules.queue = [] → Answers (.ruleSearch st) s (· = s))) ∧
  (∀ (s : State) (g : Guild) (ring : Fin 1024) (c : Cmd),
     let G := g.val
     let i := rulIndex c
     let ss := stationsOf (cmdStations c)
     (∀ d, CmdReady s G ring.val 0x30 c → d.length = 176 → badImage d = false → rulFlag c 0 = false →
       rulFlag c 1 = false → ss ≠ [] → (∀ n ∈ ss, inRange s n G i = true) →
       ((∀ n ∈ ss, aget? G (s.stn n).rules.drains = none) →
         (∀ n ∈ ss, ∀ e, ruleEntry? s n (shadowBank s n G) i = some e → e.foreign G = false) →
         Answers (.rulWrite g ring (some d)) s fun t => CompletedWith G ring.val c 0 (leBytes 2 0) s t ∧ SameMem s t ∧
           (∀ n ∈ ss, ruleEntry? t n (shadowBank s n G) i = some (imageEntry G d)) ∧
           (∀ n b j, b < 2 → j < 4096 → (n ∉ ss ∨ b ≠ shadowBank s n G ∨ j ≠ i) →
             ruleEntry? t n b j = ruleEntry? s n b j)) ∧
       (∀ n, ss = [n] → (aget? G (s.stn n).rules.drains).isSome →
         Answers (.rulWrite g ring (some d)) s fun t =>
           CompletedWith G ring.val c 0x32 (leBytes 2 (2 ^ n)) s t ∧ t.stations = s.stations)) ∧
     (∀ n e bank, CmdReady s G ring.val 0x32 c → ss = [n] → inRange s n G i = true → rulFlag c 0 = false →
       bank = (if rulFlag c 1 then shadowBank s n G else activeBank s n G) → ruleEntry? s n bank i = some e →
       e.guild = G → s.sound → Answers (.rulRead g ring) s fun t =>
         CompletedWith G ring.val c 0 (leBytes 1 e.valid.toNat) s t ∧ t.stations = s.stations ∧ SameMem s t ∧
         .dma G (s.pasid G) (descField c.desc 64 64) (entryImage e) ∈ t.out) ∧
     (∀ (st : Station) d bank, CmdReady s G ring.val 0x33 c → ss = [st.val] → d.length = 80 → s.sound →
       bank = (if rulFlag c 1 then shadowBank s st.val G else activeBank s st.val G) →
       (s.stn st.val).rules.queue = [] → (s.stn st.val).rules.testWait = [] →
       Answers (.rulSearch g ring (some d)) s fun t => (t.stn st.val).rules.queue = [.test G ring.val] ∧
         Answers (.ruleSearch st) t fun u => ∃ key w r, Wins s st.val bank G key w r ∧ bits key 95 93 = G ∧
           bits key 639 96 = bits (be d 0 80) 639 96 ∧
           CompletedWith G ring.val c 0
             (leBytes 2 (match w with | some w => 0x8000 + w | none => 0) ++ zeros 2 ++ leBytes 8 r) s u)) ∧
  (∀ (s : State) (g : Guild) (st : Station),
     let n := st.val
     let G := g.val
     let drain (t : State) := aget? G (t.stn n).rules.drains
     (∀ (ring : Fin 1024) c, CmdReady s G ring.val 0x31 c → stationsOf (cmdStations c) = [n] →
       (drain s = none → Answers (.rulCommit g ring) s fun t => activeBank t n G = shadowBank s n G ∧
         Counts (Reg.RUL_CNT_LO n 11) 1 s t ∧ SameMem s t ∧ (t.stn n).rules.entries = (s.stn n).rules.entries ∧
         (drainCount s n G (activeBank s n G) = 0 → rulFlag c 0 = false → drain t = none ∧
           CompletedWith G ring.val c 0
             (leBytes 2 (if activeBank t n G = 1 then 2 ^ n else 0) ++ leBytes 1 (ruleEpoch t n G)) s t) ∧
         (drainCount s n G (activeBank s n G) ≠ 0 →
           drain t = some { bank := activeBank s n G, sync := rulFlag c 0 } ∧ t.out = s.out)) ∧
       ((drain s).isSome → Answers (.rulCommit g ring) s fun t =>
         activeBank t n G = activeBank s n G ∧ t.stations = s.stations ∧ CompletedWith G ring.val c 0x33 [] s t)) ∧
     (∀ d, s.running → s.sound → drain s = some d → d.bank ≤ 1 → drainCount s n G d.bank = 0 →
       (d.copying = false → Answers (.rulDrainDone st g) s fun t => (t.stn n).rules.entries = (s.stn n).rules.entries ∧
         drain t = if d.sync then some { d with copying := true } else none) ∧
       (d.copying = true → Answers (.rulCopyDone st g) s fun t => drain t = none ∧
         aget 0 (8 * d.bank + G) (t.stn n).rules.defaults = aget 0 (8 * (1 - d.bank) + G) (s.stn n).rules.defaults ∧
         ∀ i, inRange s n G i = true →
           (∀ b ≤ 1, ∀ e, ruleEntry? s n b i = some e → e.foreign G = false) →
           ruleEntry? t n d.bank i = ruleEntry? s n (1 - d.bank) i)))

/-! ### The flow table (ch. 7) -/

/-- FILL, RELEASE and RECALL_REFUSED (R145 to R148, R177, Table 07.6), with no other request under way. A key without
a record is ABSENT, and the station searches its rules for the entry; a free half, or one that the station owns,
is granted: its tag names the station, which gets the half, and no other byte of the memory changes; a half pinned
elsewhere gives the no-room outcome; one owned elsewhere is recalled, and granted when its owner's RELEASE comes;
a refused recall is a no-room outcome. A RELEASE that answers no request waits while one holds its pair (R146).
Choices of the model that it rests on: log 10 (DESIGN CHOICE), log 46 (DESIGN CHOICE). -/
def Obligations.FillsFollowTable076 : Prop :=
  ∀ (s : State) (st : Station), s.running → s.sound → s.hbm.adds = [] →
    let n := st.val
    let box (t : State) (k : Nat) := aget [] k t.ftm.outbox
    let inb (t : State) := aget [] n t.ftm.inbox
    let taken (x : TagAt) (h : Half) (y sig d : Nat) (t : State) : Prop :=
      t.tag x.bucket x.slot = some (x.tag.setOwner h (some y)) ∧ SameMemBut (tagAddr x.bucket x.slot) 8 s t ∧
      box t y = box s y ++ [.fill sig d x.tag.index h false] ∧ t.ftm.ops = []
    let noRoomFor (y sig d : Nat) (kb : List Byte) (t : State) : Prop :=
      box t y = box s y ++ [.noRoom sig d (noRoomAction s (kbGuild kb)) kb] ∧ SameMem s t ∧ t.ftm.ops = [] ∧
      (∀ e x, entryOf s y sig d = some (e, x) → x.tasks ≠ [] → Counts (Reg.FTM_CNT_LO 10) 1 s t ∧
        Counts (Reg.FTM_CNT_LO 5) 1 s t ∧ t.getB Reg.FTM_STATUS Fld.FTM_STATUS_NOROOM = true)
    (∀ sig d key rest, inb s = .fill sig d key :: rest → s.ftm.ops = [] →
      ((ftmLookup key sig s).1 = none → ∀ e x k, entryOf s n sig d = some (e, x) → entryMaker s n x = some k →
        Answers (.fill st) s fun t => inb t = rest ∧ SameMem s t ∧ Counts (Reg.FTM_CNT_LO 0) 1 s t ∧
          Counts (Reg.FTM_CNT_LO 1) 1 s t ∧ t.entry? n e = some { x with phase := .rule } ∧
          (t.stn n).rules.queue = (s.stn n).rules.queue ++ [.creation e k.express]) ∧
      (∀ x, (ftmLookup key sig s).1 = some x →
        let kb := s.mrd (recAddr x.tag.index) 64
        let h := halfOf kb d
        kbKey kb = key ∧ x.tag.frag = sigFrag sig ∧
        (x.tag.owner h = none ∨ x.tag.owner h = some n →
          Answers (.fill st) s fun t => inb t = rest ∧ taken x h n sig d t) ∧
        (∀ y, x.tag.owner h = some y → y ≠ n →
          (halfPinned s y x.tag.index h = true →
            Answers (.fill st) s fun t => inb t = rest ∧ noRoomFor n sig d kb t) ∧
          (halfPinned s y x.tag.index h = false →
            Answers (.fill st) s fun t => inb t = rest ∧ SameMem s t ∧
              box t y = box s y ++ [.recall x.tag.index h] ∧ t.ftm.ops =
                [{ pair := x.pair, index := x.tag.index, purpose := .fill n sig d key, waiting := [h] }])))) ∧
    (∀ i h rest x, inb s = .release i h :: rest → tagByIndex s i = some x → x.tag.owner h = some n →
      (s.ftm.ops = [] → Answers (.release st) s fun t => inb t = rest ∧
        t.tag x.bucket x.slot = some (x.tag.setOwner h none) ∧ SameMemBut (tagAddr x.bucket x.slot) 8 s t ∧
        t.ftm.outbox = s.ftm.outbox) ∧
      (∀ o y sig d key, s.ftm.ops = [o] → o.index = i → o.purpose = .fill y sig d key → o.waiting = [h] →
        o.pinned = false → y < 12 → halfOf (s.mrd (recAddr i) 64) d = h →
        Answers (.release st) s fun t => inb t = rest ∧ taken x h y sig d t)) ∧
    (∀ i h x, inb s = [.release i h] → tagByIndex s i = some x → pairHeld s x.pair = true →
      (∀ o ∈ s.ftm.ops, o.index = i → h ∉ o.waiting) → exec (.release st) s = .next s) ∧
    (∀ i h rest o y sig d key, inb s = .refused i h :: rest → s.ftm.ops = [o] → o.index = i →
      o.purpose = .fill y sig d key → o.waiting = [h] →
      Answers (.recallRefused st) s fun t => inb t = rest ∧ noRoomFor y sig d (s.mrd (recAddr i) 64) t)

/-- CREATE (R149, R151, R152), in its turn among all that the station has sent (R166), FTM_TICK, FTM_SWEEP_VISIT
(R155, R157) and QUARANTINE_EXPIRY (R154). With quota, an index and a free slot, a record is made: an index not in
use, the key block and halves of Table 07.1 with an extension of 0, the tag, written last, in the lowest free slot
of its home bucket or else of its away bucket, owned by the station, which gets its A-half; at the quota the
station gets the no-room action. A sweep visit recalls owned halves that may be idle, and removes a record without
owners whose halves have both been idle for the timeout: its tag is empty, its index quarantined; before both
stacks have trained no bucket is visited (R376). Choices of the model that it rests on: log 1 (DESIGN CHOICE), log
51 (DEDUCED). -/
def Obligations.RecordsAreMadeAndExpire : Prop :=
  ∀ (s : State), s.running → s.sound → s.hbm.adds = [] →
    (∀ (st : Station) r rest sent, s.ftm.ops = [] → (s.stn st.val).ice.createQ = r :: rest →
      aget [] st.val s.ftm.inbox = .create r.sig r.d :: sent →
      (∀ y ∈ rest, y.word ≠ r.word) → (∀ e ∈ (s.stn st.val).ice.entries, e.2.phase ≠ .createHeld) →
      (ftmLookup r.key r.sig s).1 = none → r.key.length = 40 →
      let n := st.val
      let g := le r.key 0 1 % 8
      let home := (sigBuckets r.sig).1
      let away := (sigBuckets r.sig).2
      let count (t : State) := t.get (Reg.FTM_GUILD_CNT g) Fld.FTM_GUILD_CNT_COUNT
      (count s < ftmQuota s g → s.ftm.usedIdx.length < 2 ^ 26 →
        (freeTagSlot s home).isSome ∨ (freeTagSlot s away).isSome →
        Answers (.create st) s fun t => ∃ i b k, i ∉ s.ftm.usedIdx ∧ i < 2 ^ 26 ∧ i ∈ t.ftm.usedIdx ∧
          (b = home ∧ freeTagSlot s home = some k ∨
            b = away ∧ freeTagSlot s home = none ∧ freeTagSlot s away = some k) ∧
          t.tag b k = some { frag := sigFrag r.sig, index := i, a := some n } ∧
          t.mrd (recAddr i) 256 = createImage r.key r.sig r.d r.rule r.bank (ftmNow s) ++ zeros 64 ∧
          count t = count s + 1 ∧ (t.stn n).ice.createQ = rest ∧
          aget [] n t.ftm.inbox = sent ∧ Counts (Reg.FTM_CNT_LO 3) 1 s t ∧
          aget [] n t.ftm.outbox = aget [] n s.ftm.outbox ++ [.fill r.sig r.d i .a true]) ∧
      (ftmQuota s g ≤ count s → Answers (.create st) s fun t => SameMem s t ∧ Counts (Reg.FTM_CNT_LO 6) 1 s t ∧
        aget [] n t.ftm.outbox = aget [] n s.ftm.outbox ++ [.noRoom r.sig r.d (noRoomAction s g) []])) ∧
    Answers .ftmTick s (fun t => ftmNow t = (ftmNow s + 1) % 2 ^ 32 ∧ OnlyRegsOf [Reg.FTM_NOW] s t) ∧
    (hbmReady s = false → Answers .ftmSweepVisit s (· = s)) ∧
    (hbmReady s = true → s.ftm.ops = [] → s.ftm.sweepAt < 2 ^ 22 →
      let b := s.ftm.sweepAt
      (bucketTags s b = [] → Answers .ftmSweepVisit s fun t => SameMem s t ∧
        t.ftm.sweepAt = (b + 1) % 2 ^ 22 ∧ t.ftm.quarantine = s.ftm.quarantine ∧
        t.ftm.spill = if b + 1 = 2 ^ 22 then s.ftm.spill.filter fun h => s.ftm.awaySeen.contains h else s.ftm.spill) ∧
      (∀ x, bucketTags s b = [x] → tagByIndex s x.tag.index = some x →
        let i := x.tag.index
        let kb := s.mrd (recAddr i) 64
        let idle (h : Half) := ftmSince (ftmNow s) (halfSeen (s.mrd (halfAddr i h) 64))
        let t0 := (recTimeout s i).2
        ((x.tag.a ≠ none ∨ x.tag.b ≠ none) → t0 ≠ 0 → Answers .ftmSweepVisit s fun t => SameMem s t ∧
          (∀ y, x.tag.a = some y → .idleRecall i .a ∈ aget [] y t.ftm.outbox) ∧
          (∀ y, x.tag.b = some y → .idleRecall i .b ∈ aget [] y t.ftm.outbox) ∧
          ∃ o, t.ftm.ops = [o] ∧ o.pair = x.pair ∧ o.index = i ∧ o.purpose = .sweep ∧ o.limit = t0) ∧
        (x.tag.a = none → x.tag.b = none →
          (t0 ≠ 0 → t0 ≤ idle .a → t0 ≤ idle .b → Answers .ftmSweepVisit s fun t => t.tag b x.slot = none ∧
            SameMemBut (tagAddr b x.slot) 8 s t ∧ t.ftm.quarantine = s.ftm.quarantine ++ [i] ∧
            t.get (Reg.FTM_GUILD_CNT (kbGuild kb)) Fld.FTM_GUILD_CNT_COUNT =
              s.get (Reg.FTM_GUILD_CNT (kbGuild kb)) Fld.FTM_GUILD_CNT_COUNT - 1 ∧
            Counts (Reg.FTM_CNT_LO (if (recTimeout s i).1 then 12 else 11)) 1 s t) ∧
          (t0 = 0 ∨ idle .a < t0 ∨ idle .b < t0 → Answers .ftmSweepVisit s fun t => SameMem s t ∧
            t.ftm.quarantine = s.ftm.quarantine ∧ t.ftm.outbox = s.ftm.outbox)))) ∧
    (∀ i r, s.ftm.quarantine = i :: r → Answers .quarantineExpiry s fun t => t.ftm.quarantine = r ∧
      i ∉ t.ftm.usedIdx ∧ (∀ j, j ≠ i → (j ∈ t.ftm.usedIdx ↔ j ∈ s.ftm.usedIdx)) ∧ SameMem s t ∧
      t.get Reg.FTM_STATUS Fld.FTM_STATUS_QUARANTINE = min 65535 r.length)

/-- The flow commands (R158, Tables 07.10 and 07.11), while no request holds their pair. FLOW_ADD makes a record
without owners from a sound image, or answers FLOW_EXISTS or FLOW_QUOTA; FLOW_FIND returns index, INIT_D and
owners; FLOW_READ copies the record to the host; FLOW_DEL empties the tag of a record without owners and returns
its counters, recalls owned halves first, and refuses a pinned one; FLOW_FLUSH removes the records that its filter
matches; a record of another Guild is FLOW_NOT_FOUND; a wait on an owner ends with FLOW_PARTIAL, FLOW_PINNED or
FLOW_BUSY. That FLOW_PARTIAL carries its result bytes, where Table 18.6 gives 0 for a status that is not OK, is
the model's choice (log 52). Choices of the model that it rests on: log 52 (DEDUCED), log 58 (DEDUCED). -/
def Obligations.FlowCommandsActOnTheirGuildsRecords : Prop :=
  ∀ (s : State) (g : Guild) (ring : Fin 1024) (c : Cmd), s.sound → s.hbm.adds = [] →
    let G := g.val
    let ready (op : Nat) : Prop := CmdReady s G ring.val op c ∧ s.ftm.ops = [] ∧ hbmReady s = true
    let ends (status : Nat) (result : List Byte) (t : State) : Prop := CompletedWith G ring.val c status result s t
    let count (t : State) := t.get (Reg.FTM_GUILD_CNT G) Fld.FTM_GUILD_CNT_COUNT
    let i := descField c.desc 0 32
    let box (t : State) (k : Nat) := aget [] k t.ftm.outbox
    let gone (x : TagAt) (t : State) : Prop := t.tag x.bucket x.slot = none ∧ x.tag.index ∈ t.ftm.quarantine
    (∀ d, ready 0x20 → d.length = 192 → badFlowImage G d = false →
      let sig := flowSig s 0 (kbKey d)
      ((ftmLookup (kbKey d) sig s).1 = none → count s < ftmQuota s G → s.ftm.usedIdx.length < 2 ^ 26 →
        (freeTagSlot s (sigBuckets sig).1).isSome → Answers (.flowAdd g ring (some d)) s fun t =>
          ∃ j k, j ∉ s.ftm.usedIdx ∧ j < 2 ^ 26 ∧ ends 0 (leBytes 4 j ++ leBytes 8 sig) t ∧
            freeTagSlot s (sigBuckets sig).1 = some k ∧
            t.tag (sigBuckets sig).1 k = some { frag := sigFrag sig, index := j } ∧
            t.mrd (recAddr j) 256 = flowImage d sig (ftmNow s) ++ zeros 64 ∧ count t = count s + 1) ∧
      ((ftmLookup (kbKey d) sig s).1 ≠ none →
        Answers (.flowAdd g ring (some d)) s fun t => ends 0x20 [] t ∧ SameMem s t) ∧
      ((ftmLookup (kbKey d) sig s).1 = none → ftmQuota s G ≤ count s →
        Answers (.flowAdd g ring (some d)) s fun t => ends 0x22 [] t ∧ SameMem s t)) ∧
    (∀ key x, ready 0x21 → key.length = 40 → (ftmLookup key (flowSig s 0 key) s).1 = some x →
      let kb := s.mrd (recAddr x.tag.index) 64
      Answers (.flowFind g ring (some key)) s fun t => SameMem s t ∧
        if kbGuild kb = G then
          ends 0 (leBytes 4 x.tag.index ++ leBytes 1 (kbInitD kb) ++ ownerByte x.tag.a ++ ownerByte x.tag.b) t
        else ends 0x23 [] t) ∧
    (∀ x kb, i < 2 ^ 26 → guildRecord s G i = some (x, kb) →
      (ready 0x22 → (descField c.desc 32 1 = 0 ∨ x.owned = []) → Answers (.flowRead g ring) s fun t => SameMem s t ∧
        ends 0 (leBytes 1 0 ++ ownerByte x.tag.a ++ ownerByte x.tag.b) t ∧
        .dma G (s.pasid G) (descField c.desc 64 64) (s.mrd (recAddr i) 256) ∈ t.out) ∧
      (ready 0x22 → descField c.desc 32 1 = 1 → ∀ h y, x.owned = [(h, y)] → Answers (.flowRead g ring) s fun t =>
        SameMem s t ∧ box t y = box s y ++ [.sync i h G ring.val] ∧ (t.ring G ring.val).cmd.isSome) ∧
      (ready 0x23 → x.owned = [] → Answers (.flowDel g ring) s fun t =>
        ends 0 (s.mrd (extAddr i 0) 16) t ∧ gone x t ∧ count t = count s - 1 ∧
        SameMemBut (tagAddr x.bucket x.slot) 8 s t) ∧
      (ready 0x23 → (∃ e ∈ x.owned, halfPinned s e.2 i e.1 = true) →
        Answers (.flowDel g ring) s fun t => ends 0x24 [] t ∧ SameMem s t) ∧
      (ready 0x23 → ∀ h y, x.owned = [(h, y)] → halfPinned s y i h = false → Answers (.flowDel g ring) s fun t =>
        SameMem s t ∧ box t y = box s y ++ [.recall i h] ∧ (t.ring G ring.val).cmd.isSome)) ∧
    ((i < 2 ^ 26 → guildRecord s G i = none) →
      (ready 0x22 → Answers (.flowRead g ring) s fun t => ends 0x23 [] t ∧ SameMem s t) ∧
      (ready 0x23 → Answers (.flowDel g ring) s fun t => ends 0x23 [] t ∧ SameMem s t)) ∧
    (ready 0x24 → (∀ x ∈ flushRecords s G c, x.owned = []) → Answers (.flowFlush g ring) s fun t =>
      ends 0 (leBytes 4 (flushRecords s G c).length ++ leBytes 4 0) t ∧ ∀ x ∈ flushRecords s G c, gone x t) ∧
    (s.running → (s.ring G ring.val).cmd = some c → c.began = true → c.orphan = false →
      (s.ring G c.cplRing).enabled = true → ∀ o, opsOf s G ring.val = [o] →
      (∀ x kb, descOp c.desc = 0x22 → descField c.desc 0 26 = o.index → guildRecord s G o.index = some (x, kb) →
        o.waiting = [.a] → Answers (.flowWaitTimeout g ring) s fun t => SameMem s t ∧ opsOf t G ring.val = [] ∧
          ends 0x27 (leBytes 1 1 ++ ownerByte x.tag.a ++ ownerByte x.tag.b) t) ∧
      (descOp c.desc = 0x23 → Answers (.flowWaitTimeout g ring) s fun t => SameMem s t ∧ opsOf t G ring.val = [] ∧
        ends (if o.pinned then 0x24 else 0x25) [] t) ∧
      (descOp c.desc = 0x24 → c.left = 1 → Answers (.flowWaitTimeout g ring) s fun t => SameMem s t ∧
        ends 0 (leBytes 4 c.acc ++ leBytes 4 (c.acc2 + 1)) t)) ∧
    (∀ e ∈ [(0x22, Instr.flowRead g ring), (0x23, .flowDel g ring), (0x24, .flowFlush g ring)],
      CmdReady s G ring.val e.1 c → s.ftm.ops = [] → hbmReady s = false →
      Answers e.2 s fun t => ends 0x7C [] t ∧ SameMem s t)

/-! ### The Icehouse (ch. 8) -/

/-- ICE_SEARCH, SEARCH_RETRY, MM_STEP and WAIT_ENTRY_FILL_START (R46, R162, R164, R165, R170 to R172, R175). While an
express search waits, a search of another class takes no slot. Else a search with one match of its full key is
granted an IDLE slot, stamped, revives a DRAINING one, or is chained on a HELD one; with no match it joins the
entry of its key, or takes a new entry, with a FREE slot for its fill where there is one; with all 256 entries in
use it is refused. Several matches are compared in turn: a step that does not match goes to the next, and the
search is decided as a whole at its last step (the model's choice, log 132). Choices of the model that it rests
on: log 1 (DESIGN CHOICE), log 10 (DESIGN CHOICE), log 48 (DESIGN CHOICE), log 132 (DEDUCED). -/
def Obligations.SearchesHitJoinMissOrAreRefused : Prop :=
  ∀ (s : State) (st : Station) (k : Fin 2048) (x : Task), s.running → s.sound →
    s.task? st.val k.val = some x → x.st = .waiting →
    let n := st.val
    let ice (t : State) := (t.stn n).ice
    let cnt (i : Nat) (t : State) := Counts (Reg.ICE_CNT_LO n i) 1 s t
    let held (m : Nat) (y : Slot) (t : State) : Prop :=
      (∃ z, t.slot? n m = some z ∧ z.st = .held ∧ z.holder = some k.val ∧ z.ref = true ∧ z.key = y.key ∧
        z.half = stampHalf (ftmNow s) y.half ∧ z.dirty = (y.dirty || z.half != y.half)) ∧
      TaskHas t n k.val fun u => u.ice = .holding m ∧ u.index = y.index ∧ u.cnt = x.cnt - 1
    let filling (e m : Nat) (t : State) : Prop := s.slot? n m = none ∧
      t.slot? n m = some { st := .filling, sig := x.sig, d := x.d } ∧
      ∃ w, t.entry? n e = some w ∧ w.st = .fill ∧ w.slot = some m ∧
        aget [] n t.ftm.inbox = aget [] n s.ftm.inbox ++ [.fill x.sig x.d w.key]
    let missed (t : State) : Prop :=
      (∀ e w, entryOf s n x.sig x.d = some (e, w) → s.entry? n e = some w →
        cnt 3 t ∧ (TaskHas t n k.val fun u => u.ice = .entry e ∧ u.cnt = x.cnt) ∧
        (¬(w.phase = .ended ∧ w.rule = none) → t.entry? n e = some { w with tasks := w.tasks ++ [k.val] }) ∧
        (w.phase = .ended → w.rule = none → x.key = some w.key →
          t.entry? n e = some { w with tasks := w.tasks ++ [k.val], phase := .rule })) ∧
      (entryOf s n x.sig x.d = none → (ice s).entries.length < 256 → cnt 2 t ∧ ∃ e w, s.entry? n e = none ∧
        t.entry? n e = some w ∧ w.tasks = [k.val] ∧ w.key = x.key.getD [] ∧ w.ruleBank = x.tag ∧
        (TaskHas t n k.val fun u => u.ice = .entry e ∧ u.cnt = x.cnt) ∧
        (freeSlots s n = 0 → w.st = .slot ∧ cnt 14 t) ∧ (freeSlots s n ≠ 0 → ∃ m, filling e m t)) ∧
      (entryOf s n x.sig x.d = none → 256 ≤ (ice s).entries.length →
        (ice t).entries = (ice s).entries ∧ (TaskHas t n k.val fun u => u.ice = .refused ∧ u.cnt = x.cnt) ∧
        (x.waitRefused = false → cnt 13 t ∧ t.getB (Reg.ICE_EVENT n) Fld.ICE_EVENT_WAIT_REFUSED = true))
    let met (m : Nat) (t : State) : Prop := ∀ y, s.slot? n m = some y →
      (y.st = .idle → held m y t) ∧ (y.st = .draining → y.flushFor = none → y.sweepFor = false → held m y t ∧
        cnt 5 t) ∧
      (y.st = .held → cnt 4 t ∧ t.slot? n m = some { y with chain := chainInsert s n k.val x.express y.chain } ∧
        TaskHas t n k.val fun u => u.ice = .chained m ∧ u.cnt = x.cnt) ∧
      (y.st = .recalling → entryOf s n x.sig x.d = none → (ice s).entries.length < 256 → cnt 2 t ∧
        t.slot? n m = some y ∧ ∃ e w, t.entry? n e = some w ∧ w.st = .release ∧ w.tasks = [k.val])
    let runs (P : State → Prop) : Prop := (x.ice = .search → Answers (.iceSearch st k) s P) ∧
      (x.ice = .refused → (ice s).entries.length < 256 → Answers (.searchRetry st k) s P)
    let isKey (m : Nat) : Prop := ∃ y, s.slot? n m = some y ∧ y.st ≠ .filling ∧ y.sig = x.sig ∧ y.d = x.d ∧
      x.key = some (kbKey y.key)
    (x.express = false → expressWaits s n = true →
      ∀ c ∈ [Instr.iceSearch st k, .mmStep st k, .searchRetry st k], Answers c s (· = s)) ∧
    (slotTurn s n x = true → (∀ m, searchMatches s n x.sig x.d = [m] → isKey m → runs fun t => met m t ∧ cnt 0 t) ∧
    (searchMatches s n x.sig x.d = [] → runs fun t => missed t ∧ cnt 0 t) ∧
    (∀ m rest, searchMatches s n x.sig x.d = m :: rest → rest ≠ [] →
      (isKey m → runs fun t => met m t ∧ cnt 0 t ∧ cnt 11 t) ∧
      (¬ isKey m → runs fun t => cnt 0 t ∧ cnt 11 t ∧ t.getB (Reg.ICE_EVENT n) Fld.ICE_EVENT_MULTI_MATCH = true ∧
        t.task? n k.val = some { x with ice := .steps rest })) ∧
    (∀ m rest, x.ice = .steps (m :: rest) →
      (isKey m → Answers (.mmStep st k) s fun t => met m t ∧ cnt 12 t) ∧
      (¬ isKey m → rest = [] → Answers (.mmStep st k) s fun t => missed t ∧ cnt 12 t) ∧
      (¬ isKey m → rest ≠ [] → Answers (.mmStep st k) s fun t => cnt 12 t ∧
        t.task? n k.val = some { x with ice := .steps rest }))) ∧
    (∀ e w, s.entry? n e = some w → w.st = .slot → w.sig = x.sig → w.d = x.d → freeSlots s n ≠ 0 →
      Answers (.waitEntryFillStart st e) s fun t => ∃ m, filling e m t)

/-- FILL_RETURNED, FILL_NO_RECORD and HOLD_END (R163, R168, R169, R171, Table 08.2). A returned half stands in the
slot of its entry, held, stamped, by the entry's task, and the entry is retired; one that no entry waits for is
released. An entry without a record frees its slot, and its task goes on without a lease, or is dropped under
action 1. At the end of a hold the next chained task is granted the slot, else it is IDLE, and a clean RECALLING
one is released. -/
def Obligations.FillsAndHoldsEndByTable082 : Prop :=
  ∀ (s : State) (st : Station), s.running → s.sound →
    let n := st.val
    let box (t : State) := aget [] n t.ftm.outbox
    let inb (t : State) := aget [] n t.ftm.inbox
    let heldBy (m j i : Nat) (h : Half) (key half : List Byte) (t : State) : Prop :=
      ∃ z, t.slot? n m = some z ∧ z.holder = some j ∧ z.st = .held ∧ z.index = i ∧ z.which = h ∧ z.key = key ∧
        z.half = stampHalf (ftmNow s) half
    (∀ e w k x, s.entry? n e = some w → entryOf s n w.sig w.d = some (e, w) → w.tasks = [k] → w.pinFor = none →
      s.task? n k = some x → x.key = some w.key →
      (∀ i h new rest m, box s = .fill w.sig w.d i h new :: rest → w.slot = some m →
        Answers (.fillReturned st) s fun t => box t = rest ∧ t.entry? n e = none ∧
          heldBy m k i h (s.mrd (recAddr i) 64) (s.mrd (halfAddr i h) 64) t ∧
          TaskHas t n k fun u => u.ice = .holding m ∧ u.newFlow = new ∧ u.index = i) ∧
      ((s.stn n).ice.entries.find? (fun e => e.2.phase == .ended) = some (e, w) →
        Answers (.fillNoRecord st) s fun t => t.entry? n e = none ∧ box t = box s ∧
          (∀ m, w.slot = some m → t.slot? n m = none) ∧
          TaskHas t n k fun u => u.ice = .none ∧ u.noRoom = none ∧ u.rule = (w.rule <|> x.rule)) ∧
      (∀ a rest, (∀ e ∈ (s.stn n).ice.entries, e.2.phase ≠ .ended) → box s = .noRoom w.sig w.d a [] :: rest →
        Answers (.fillNoRecord st) s fun t => t.entry? n e = none ∧ box t = rest ∧
          (∀ m, w.slot = some m → t.slot? n m = none) ∧ TaskHas t n k fun u => u.ice = .none ∧
            (a = 1 → u.st = .done ∧ u.dec = {}) ∧ (a ≠ 1 → u.noRoom = some a))) ∧
    (∀ sig d i h new rest, box s = .fill sig d i h new :: rest → entryOf s n sig d = none →
      Answers (.fillReturned st) s fun t => box t = rest ∧ inb t = inb s ++ [.release i h] ∧
        t.stations = s.stations ∧ SameMem s t) ∧
    (∀ (k : Fin 2048) x m y, s.task? n k.val = some x → x.ice = .holding m → (x.st = .done ∨ x.st = .parsing) →
      s.slot? n m = some y → y.holder = some k.val → y.sync = false → s.ftm.ops = [] →
      (y.st = .held → y.chain = [] → Answers (.holdEnd st k) s fun t =>
        t.slot? n m = some { y with st := .idle, holder := none } ∧ t.task? n k.val = some { x with ice := .none }) ∧
      (∀ j r z, y.st = .held → y.chain = j :: r → j ≠ k.val → s.task? n j = some z → z.st = .waiting →
        Answers (.holdEnd st k) s fun t => heldBy m j y.index y.which y.key y.half t ∧
          TaskHas t n j fun u => u.ice = .holding m ∧ u.index = y.index) ∧
      (y.st = .recalling → y.chain = [] → y.dirty = false → y.wb = [] → (s.stn n).ice.addsPending = [] →
        Answers (.holdEnd st k) s fun t => t.slot? n m = none ∧ inb t = inb s ++ [.release y.index y.which]))

/-- DRAINER_START, WRITEBACK_ACCEPTED, RECALL_RECEIVED, IDLE_RECALL and SYNC_WRITEBACK (R165, R168, R174 to R179),
with no FTM request under way. While FREE slots are below FREE_LOW an IDLE unpinned slot is evicted; a recall
takes any slot but a pinned one, an idle recall only one idle by its own stamp; a slot that leaves writes a dirty
half back first, and is invalidated with its RELEASE once nothing is due; an accepted write-back is what its half
in memory then holds. Choices of the model that it rests on: log 1 (DESIGN CHOICE). -/
def Obligations.SlotsLeaveAfterTheirWriteBacks : Prop :=
  ∀ (s : State) (st : Station), s.running → s.sound → s.ftm.ops = [] → s.hbm.adds = [] →
    let n := st.val
    let box (t : State) := aget [] n t.ftm.outbox
    let inb (t : State) := aget [] n t.ftm.inbox
    let cnt (i : Nat) (t : State) := Counts (Reg.ICE_CNT_LO n i) 1 s t
    let clean (y : Slot) : Prop := y.dirty = false ∧ y.wb = [] ∧ (s.stn n).ice.addsPending = [] ∧ y.flushFor = none
    let left (m : Nat) (y : Slot) (t : State) : Prop :=
      t.slot? n m = none ∧ inb t = inb s ++ [.release y.index y.which] ∧ SameMem s t
    let begun := ((s.stn n).ice.slots.filter fun e => e.2.st == .draining).length
    (freeLow s n ≤ freeSlots s n + begun → Answers (.drainerStart st) s (· = s)) ∧
    (freeSlots s n + begun < freeLow s n → (∃ m y, s.slot? n m = some y ∧ y.st = .idle ∧ y.pinned = false) →
      Answers (.drainerStart st) s fun t => ∃ m y, s.slot? n m = some y ∧ y.st = .idle ∧ y.pinned = false ∧
        (clean y → cnt 6 t ∧ left m y t) ∧ (y.dirty = true → cnt 6 t ∧ inb t = inb s ∧ ∃ z, t.slot? n m = some z ∧
          z.st = .draining ∧
          z.dirty = false ∧ z.wb = y.wb ++ [y.half])) ∧
    (∀ (m : Fin 8192) y w r, s.slot? n m.val = some y → y.wb = w :: r → w.length = 64 →
      Answers (.writebackAccepted st m) s fun t => t.mrd (halfAddr y.index y.which) 64 = w ∧
        SameMemBut (halfAddr y.index y.which) 64 s t ∧
        (y.st = .draining → r = [] → (s.stn n).ice.addsPending = [] →
          t.slot? n m.val = none ∧ inb t = inb s ++ [.release y.index y.which]) ∧
        (y.st = .idle ∨ y.st = .held → inb t = inb s ∧ ∃ z, t.slot? n m.val = some z ∧ z.st = y.st ∧ z.wb = r)) ∧
    (∀ i h rest m y, iceFind s n i h = some (m, y) → s.slot? n m = some y →
      (box s = .recall i h :: rest →
        (y.pinned = true → Answers (.recallReceived st) s fun t => box t = rest ∧ t.stations = s.stations ∧
          inb t = inb s ++ [.refused i h] ∧ cnt 8 t ∧ cnt 9 t) ∧
        (y.pinned = false → y.holder = none → y.chain = [] →
          (clean y → Answers (.recallReceived st) s fun t => box t = rest ∧ left m y t ∧ cnt 8 t) ∧
          (y.dirty = true → Answers (.recallReceived st) s fun t => inb t = inb s ∧ ∃ z, t.slot? n m = some z ∧
            z.st = .recalling ∧ z.dirty = false ∧ z.wb = y.wb ++ [y.half])) ∧
        (y.pinned = false → y.holder ≠ none → Answers (.recallReceived st) s fun t => inb t = inb s ∧
          t.slot? n m = some { y with st := .recalling })) ∧
      (box s = .idleRecall i h :: rest →
        (y.st = .idle → y.pinned = false → slotIdle s y = true → clean y →
          Answers (.idleRecall st) s fun t => box t = rest ∧ left m y t ∧ cnt 10 t) ∧
        (y.pinned = true ∨ y.st = .held ∨ slotIdle s y = false ∧ y.st = .idle → y.st = .idle ∨ y.st = .held →
          Answers (.idleRecall st) s fun t => box t = rest ∧ t.stations = s.stations)) ∧
      (∀ g ring, box s = .sync i h g ring :: rest →
        (y.holder = none → y.dirty = true → Answers (.syncWriteback st) s fun t => inb t = inb s ∧ cnt 15 t ∧
          ∃ z, t.slot? n m = some z ∧ z.st = y.st ∧ z.dirty = false ∧ z.wb = y.wb ++ [y.half]) ∧
        (y.holder ≠ none → Answers (.syncWriteback st) s fun t =>
          t.slot? n m = some { y with sync := true, syncFor := some (g, ring) }))) ∧
    (∀ i h rest, iceFind s n i h = none → box s = .recall i h :: rest →
      Answers (.recallReceived st) s fun t => box t = rest ∧ t.stations = s.stations)

/-- The Icehouse commands (R180, R181, R184, Tables 08.7 and 08.8) on a record of the Guild. ICE_PIN pins an IDLE slot
that holds the half, counts it and names its owner, changes nothing where it is pinned already, is refused at the
limit or the quota, and else waits for an entry to load the half; ICE_UNPIN undoes it; ICE_READ copies the slot;
ICE_FLUSH drains the Guild's IDLE unpinned slots and counts them and the others; a recall that is not answered
ends ICE_PIN. -/
def Obligations.IcehouseCommandsActOnTheirSlots : Prop :=
  ∀ (s : State) (g : Guild) (ring : Fin 1024) (c : Cmd), s.sound →
    let G := g.val
    let n := iceStation c
    let ends (status : Nat) (result : List Byte) (t : State) : Prop := CompletedWith G ring.val c status result s t
    let pins (t : State) := t.get (Reg.ICE_PIN_CNT n G) Fld.ICE_PIN_CNT_COUNT
    let ice (t : State) := (t.stn n).ice
    (∀ x kb, n ≤ 11 → guildRecord s G (iceIndex c) = some (x, kb) → hbmReady s = true →
      (∀ a ∈ s.hbm.adds, hbmBlock a.addr ≠ hbmBlock (recAddr (iceIndex c))) →
      let h := iceHalf c
      let d := halfDir kb h
      let own := match x.tag.owner h with | some y => 16 + y | none => 0
      let at_ := iceFind s n x.tag.index h
      (∀ m y, at_ = some (m, y) → s.slot? n m = some y →
        (CmdReady s G ring.val 0x28 c → y.pinned = true →
          Answers (.icePin g ring) s fun t => ends 0 (leBytes 1 (16 + n)) t ∧ ice t = ice s ∧ pins t = pins s) ∧
        (CmdReady s G ring.val 0x28 c → y.pinned = false → y.st = .idle → pinRefused s n G (kbSig kb) d = none →
          pinRefused s n G y.sig y.d = none → Answers (.icePin g ring) s fun t => ends 0 (leBytes 1 own) t ∧
            t.slot? n m = some { y with pinned := true } ∧ pins t = pins s + 1) ∧
        (∀ code, CmdReady s G ring.val 0x28 c → y.pinned = false → pinRefused s n G (kbSig kb) d = some code →
          Answers (.icePin g ring) s fun t => ends code [] t ∧ ice t = ice s ∧ pins t = pins s) ∧
        (CmdReady s G ring.val 0x29 c → Answers (.iceUnpin g ring) s fun t =>
          if y.pinned then ends 0 [] t ∧ t.slot? n m = some { y with pinned := false } ∧ pins t = pins s - 1
          else ends 0x2B [] t ∧ ice t = ice s) ∧
        (CmdReady s G ring.val 0x2B c → Answers (.iceRead g ring) s fun t => t.stations = s.stations ∧
          ends 0 (leBytes 1 y.st.code ++ leBytes 1 (y.dirty.toNat + 2 * y.pinned.toNat + 4 * y.ref.toNat)
            ++ leBytes 2 y.chain.length) t ∧
          .dma G (s.pasid G) (descField c.desc 64 64) (y.key ++ y.half) ∈ t.out)) ∧
      (at_ = none →
        (CmdReady s G ring.val 0x29 c → Answers (.iceUnpin g ring) s fun t => ends 0x2C [] t ∧ ice t = ice s) ∧
        (CmdReady s G ring.val 0x2B c → Answers (.iceRead g ring) s fun t => ends 0x2C [] t ∧ ice t = ice s) ∧
        (CmdReady s G ring.val 0x28 c → pinRefused s n G (kbSig kb) d = none → x.tag.owner h = none →
          entryOf s n (kbSig kb) d = none → (ice s).entries.length < 256 → freeSlots s n ≠ 0 →
          Answers (.icePin g ring) s fun t => (t.ring G ring.val).cmd.isSome ∧ ∃ e w m, t.entry? n e = some w ∧
            w.pinFor = some (G, ring.val) ∧ w.slot = some m ∧ s.slot? n m = none ∧
            aget [] n t.ftm.inbox = aget [] n s.ftm.inbox ++ [.fill (kbSig kb) d (kbKey kb)]))) ∧
    (∀ e ∈ [(0x28, Instr.icePin g ring), (0x29, .iceUnpin g ring), (0x2B, .iceRead g ring)],
      CmdReady s G ring.val e.1 c → hbmReady s = true → 11 < n → Answers e.2 s fun t => ends 0x2E [] t) ∧
    (∀ m, CmdReady s G ring.val 0x2A c → hbmReady s = true → s.ftm.ops = [] → stationsOf (cmdStations c) = [m] →
      let mine := (s.stn m).ice.slots.filter fun e => e.2.st != .filling && kbGuild e.2.key == G
      let idle := mine.filter fun e => e.2.st == .idle && !e.2.pinned
      (mine.map Prod.fst).Nodup → (∀ e ∈ mine, s.slot? m e.1 = some e.2) → (s.stn m).ice.addsPending = [] →
      (∀ e ∈ idle, e.2.dirty = false ∧ e.2.wb = []) → Answers (.iceFlush g ring) s fun t =>
        ends 0 (leBytes 4 idle.length ++ leBytes 4 (mine.length - idle.length)) t ∧
        (∀ e ∈ idle, t.slot? m e.1 = none) ∧ ∀ e ∈ mine, e ∉ idle → t.slot? m e.1 = some e.2) ∧
    (∀ e w, s.running → waitingCmd s G ring.val 0x28 = some c → c.orphan = false →
      (s.ring G c.cplRing).enabled = true →
      (ice s).entries.find? (fun e => e.2.pinFor == some (G, ring.val)) = some (e, w) → entryRecalls s n w = true →
      Answers (.iceRecallTimeout g ring) s fun t => ends 0x2D [] t ∧
        (w.tasks = [] → t.entry? n e = none ∧ ∀ m, w.slot = some m → t.slot? n m = none) ∧
        (w.tasks ≠ [] → t.entry? n e = some { w with pinFor := none }))

/-! ### Action engines and ordered release (ch. 10, 12) -/

/-- MICROWORD_EXECUTE, COMMIT_RESUME and TRAP_QUEUE_READ (R199, R200, R207, R209, R215, R218, R219). A word without a
fault that neither commits nor ends has its effect inside its engine alone; a COMMIT without room for its adds
waits; the last word's v30 decides, and a PUNT counts its reason; a word in fault restarts its routine, or drops
its frame once it has committed or has been restarted MAX_RESTART times, or finds its dispatch entry invalid. No
word writes v0 or v24 to v28; no lease store writes bytes 0 to 3. A read of the trap queue takes its oldest
record. Choices of the model that it rests on: log 60 (DEDUCED), log 61 (DEDUCED), log 65 (DEDUCED). -/
def Obligations.AWordActsInsideItsEngineUntilItCommits : Prop :=
  ∀ (s : State) (st : Station), s.running → s.sound →
    let n := st.val
    let runs (t : State) (e : Nat) := aget? e (t.stn n).tasks.engines
    let cnt (k : Nat) (t : State) := Counts (Reg.STN_AE_CNT_LO n k) 1 s t
    (∀ (e : Fin 24) r x, runs s e.val = some r → s.task? n r.task = some x → x.frame.known →
      let w := (s.stn n).store.word r.pc
      let env := aeEnv s n r
      let r1 := wordUnits w x.hv r
      let v30 := (vGet r1.regs 30).toNat
      let commits := !r.committed && (mwCommit w || wordEnds w r env)
      let room := (s.stn n).tasks.addQ.length + r1.adds.length ≤ 48
      let ok := wordFault w r env = none
      let acts (P : State → Prop) : Prop := (r.waiting = false → Answers (.microwordExecute (.ae st e)) s P) ∧
        (r.waiting = true → Answers (.commitResume st e) s P)
      (∀ a, ok → commits = false → r.committed = false → wordNext w r env = some a →
        ¬ (mwYield w = true ∧ e.val ∈ (s.stn n).tasks.stop) →
        acts fun t => runs t e.val = some { r1 with pc := a, waiting := false } ∧ cnt 1 t ∧ SameMem s t ∧
          t.out = s.out ∧ (t.stn n).tasks.slots = (s.stn n).tasks.slots ∧ (t.stn n).ice = (s.stn n).ice) ∧
      (ok → commits = true → ¬ room → acts fun t => runs t e.val = some { r with waiting := true } ∧
        (t.stn n).tasks.slots = (s.stn n).tasks.slots ∧ t.regs = s.regs) ∧
      (ok → wordNext w r env = none → (r.committed = true ∨ room) → acts fun t => runs t e.val = none ∧ cnt 1 t ∧
        (bits v30 2 0 = 0 → cnt 6 t ∧ TaskHas t n r.task fun y => y.st = .done ∧ y.dec = {}) ∧
        (bits v30 2 0 = 1 → TaskHas t n r.task fun y => y.st = .done ∧ y.dec.action = 1 ∧
          y.dec.dest = bits v30 15 8 ∧ y.dec.tc = bits v30 5 3) ∧
        (bits v30 2 0 = 3 → (if 8192 ≤ r.pc then 32 else 24) ≤ bits v30 35 30 →
          Counts (Reg.PRS_REASON_CNT_LO n (bits v30 35 30)) 1 s t ∧
          TaskHas t n r.task fun y => y.st = .done ∧ y.dec.action = 3 ∧ y.dec.reason = bits v30 35 30) ∧
        (4 < bits v30 2 0 → cnt 13 t ∧ TaskHas t n r.task fun y => y.st = .done ∧ y.dec = {})) ∧
      (∀ c, wordFault w r env = some c →
        (r.committed = true ∨ r.maxRestart ≤ r.run → acts fun t => runs t e.val = none ∧ cnt 4 t ∧ cnt 5 t ∧
          TaskHas t n r.task fun y => y.st = .done ∧ y.dec = {}) ∧
        (∀ a, r.committed = false → r.run < r.maxRestart →
          (s.stn n).store.entry (taskOpcode s n x) = some a → acts fun t => cnt 2 t ∧ cnt 4 t ∧
            (t.stn n).ice = (s.stn n).ice ∧ (t.stn n).tasks.slots = (s.stn n).tasks.slots ∧
            ∃ q, runs t e.val = some q ∧ q.pc = a ∧ q.run = r.run + 1 ∧ q.words = 0 ∧ q.adds = [] ∧
              q.total = r.total ∧ q.xwords = r.xwords ∧ q.maxWords = r.maxWords ∧ q.maxRestart = r.maxRestart) ∧
        (r.committed = false → r.run < r.maxRestart → (s.stn n).store.entry (taskOpcode s n x) = none →
          acts fun t => runs t e.val = none ∧ cnt 4 t ∧ cnt 7 t ∧ TaskHas t n r.task fun y => y.st = .done ∧
            y.dec = {}))) ∧
    (∀ (w : BitVec 160) hv (r : Run), ∀ v ∈ [0, 24, 25, 26, 27, 28], vGet (wordUnits w hv r).regs v = vGet r.regs v) ∧
    (∀ half off en v j, half.length = 64 → j < 4 → (lpStore half off en v).getD j 0#8 = half.getD j 0#8) ∧
    (∀ req r rest, (s.stn n).tasks.trapQ = r :: rest → Answers (.trapQueueRead req st) s fun t =>
      (t.stn n).tasks.trapQ = rest ∧ t.regs = s.regs ∧
      t.out = .read req (Reg.STN_AE_TRAP_LO n) (BitVec.ofNat 32 (r.code * 65536 + r.addr % 16384)) :: s.out) ∧
    (∀ req, (s.stn n).tasks.trapQ = [] → Answers (.trapQueueRead req st) s fun t => t.stations = s.stations ∧
      t.out = .read req (Reg.STN_AE_TRAP_LO n) 0#32 :: s.out)

/-! ### Control stores and housekeeping engines (ch. 11) -/

/-- UCS_LOAD, IMAGE_STAGED, STATION_STORE_SWITCH, HK_STORE_SWITCH, UCS_KEY_PROGRAM and UCS_STORE_WRITE_ATTEMPT (R221,
R223, R225 to R229). One load at a time; an image that a check of Table 11.5 refuses changes no store; an accepted
one replaces its region as a whole, station by station once no engine there runs, the other region staying as it
is; the last station completes the load with its version. The customer key is written once; a host write of a
store is refused with WR_ERR. Choices of the model that it rests on: log 1 (DESIGN CHOICE), log 59 (DEDUCED), log
64 (DESIGN CHOICE), log 104 (DEDUCED). -/
def Obligations.StoresTakeVerifiedLoads : Prop :=
  (∀ (s : State) (g : Guild) (ring : Fin 1024) (c : Cmd),
    let G := g.val
    let ends (status : Nat) (t : State) : Prop := CompletedWith G ring.val c status [] s t
    (CmdReady s G ring.val 0x38 c → loadBusy s = true →
      Answers (.ucsLoad g ring) s fun t => ends 0x3D t ∧ t.ucs = s.ucs) ∧
    (CmdReady s G ring.val 0x38 c → loadBusy s = false → Answers (.ucsLoad g ring) s fun t => t.out = s.out ∧
      t.ucs.loadLen = descField c.desc 0 32 ∧ ∃ l, t.ucs.load = some l ∧ l.host = some (G, ring.val) ∧
        l.checked = false) ∧
    (∀ d, CmdReady s G ring.val 0x39 c → d.length = 32 → loadBusy s = false →
      (s.ucs.ckey = none → Answers (.ucsKeyProgram g ring (some d)) s fun t => ends 0 t ∧
        t.ucs.ckey = some (beVal d)) ∧
      (s.ucs.ckey ≠ none → Answers (.ucsKeyProgram g ring (some d)) s fun t => ends 0x3C t ∧ t.ucs = s.ucs)) ∧
    (∀ l i, s.running → s.ucs.load = some l → l.host = some (G, ring.val) → l.checked = false →
      s.ucs.loadLen = i.length → i.length ≤ 164800 → (s.ring G ring.val).cmd = some c → c.orphan = false →
      (s.ring G c.cplRing).enabled = true →
      (∀ code, imgRefusal s i = some code → Answers (.imageStaged (some i)) s fun t => ends code t ∧
        t.ucs.load = none ∧ t.stations = s.stations ∧ t.hkStore = s.hkStore) ∧
      (imgRefusal s i = none → Answers (.imageStaged (some i)) s fun t => t.hkStore = s.hkStore ∧
        (∀ n, (t.stn n).store = (s.stn n).store) ∧
        ∃ m, t.ucs.load = some m ∧ m.checked = true ∧ m.image = i ∧ m.target = imgTarget i ∧ m.station = 0))) ∧
  (∀ (s : State) (st : Station) (l : Load), s.running → s.ucs.load = some l → l.checked = true → l.target < 4 →
    (∀ g r, l.host = some (g, r) → g < 8) →
    let n := st.val
    (l.target < 2 → l.station = n → (s.stn n).tasks.engines = [] → Answers (.stationStoreSwitch st) s fun t =>
      (t.stn n).store = (s.stn n).store.load l.image ∧ (∀ m, m ≠ n → (t.stn m).store = (s.stn m).store) ∧
      t.rd (if l.target = 0 then Reg.UCS_VER_VENDOR n else Reg.UCS_VER_CUSTOMER n) = BitVec.ofNat 32 l.version ∧
      (n < 11 → t.ucs.load = some { l with station := n + 1 }) ∧ (n = 11 → t.ucs.load = none)) ∧
    ((2 ≤ l.target ∨ l.station ≠ n ∨ (s.stn n).tasks.engines ≠ []) → Answers (.stationStoreSwitch st) s (· = s)) ∧
    (2 ≤ l.target → (∀ e ∈ hkOfTarget l.target, (s.hkEng e).run = none) → Answers .hkStoreSwitch s fun t =>
      t.hkStore = s.hkStore.load l.image ∧ t.ucs.load = none ∧
      (l.target = 2 → BitVec.ofNat 32 l.version ≠ 0#32 → hkRun t 0 = true ∧ hkRun t 1 = true ∧
        hkService t 0 = false ∧
        hkService t 1 = false))) ∧
  (∀ (s : State) (st : Station), s.running → Answers (.ucsStoreWriteAttempt st) s fun t =>
    t.getB (Reg.UCS_STATUS st.val) Fld.UCS_STATUS_WR_ERR = true ∧ OnlyRegsOf [Reg.UCS_STATUS st.val] s t) ∧
  (∀ (m : Store) (i : List Byte) (a : Nat), imgBase i + imgWords i ≤ 8192 →
    let lo := regionBase (imgTarget i) + imgBase i
    (lo ≤ a → a < lo + imgWords i → ∃ w, (a, w) ∈ imgStore i ∧ (m.load i).word a = w) ∧
    (a / 8192 = regionBase (imgTarget i) / 8192 → (a < lo ∨ lo + imgWords i ≤ a) → (m.load i).word a = fillWord) ∧
    (a < 16384 → a / 8192 ≠ regionBase (imgTarget i) / 8192 → (m.load i).word a = m.word a))

/-- The housekeeping engines (R234 to R240): HK_JOB queues a host job on HK2 or HK3, or is refused; HK_TIMER queues a
timer job, or counts it in LOST; HK_JOB_DISPATCH starts the oldest job of a running engine in normal mode at the
entry of its opcode; HK_WAKE ends a SLEEP word; a write of RUN starts or stops the engine; a fault halts it at its
word. Choices of the model that it rests on: log 1 (DESIGN CHOICE), log 66 (DEDUCED), log 67 (DEDUCED), log 68
(DEDUCED), log 69 (DESIGN CHOICE), log 114 (DEDUCED). -/
def Obligations.HousekeepingEnginesRunTheirJobs : Prop :=
  (∀ (s : State) (g : Guild) (ring : Fin 1024) (c : Cmd), CmdReady s g.val ring.val 0x3A c →
    let e := descField c.desc 0 2
    let op := descField c.desc 8 8
    let ends (status : Nat) (t : State) : Prop := CompletedWith g.val ring.val c status [] s t
    ((e < 2 ∨ op < 0x40) → Answers (.hkJob g ring) s fun t => ends 0x3F t ∧ t.hk = s.hk) ∧
    (2 ≤ e → 0x40 ≤ op → hkFull s e = true → Answers (.hkJob g ring) s fun t => ends 0x3E t ∧ t.hk = s.hk) ∧
    (2 ≤ e → 0x40 ≤ op → hkFull s e = false → Answers (.hkJob g ring) s fun t => ends 0 t ∧
      (t.hkEng e).queue = (s.hkEng e).queue ++ [{ kind := 2, op := op, arg := (c.desc.drop 16).take 16 }])) ∧
  (∀ (s : State) (e : Fin 4), s.running →
    let n := e.val
    let x := s.hkEng n
    let a := Reg.UCS_HK_STATUS n
    let timer := s.get (Reg.UCS_HK_TIMER n) Fld.UCS_HK_TIMER_TIMER_US
    (timer ≠ 0 → hkFull s n = false → Answers (.hkTimer e) s fun t => t.regs = s.regs ∧
      (t.hkEng n).queue = x.queue ++ [{ kind := 1, op := 0 }]) ∧
    (timer ≠ 0 → hkFull s n = true → Answers (.hkTimer e) s fun t => OnlyRegsOf [a] s t ∧
      t.get a Fld.UCS_HK_STATUS_LOST = min 3 (s.get a Fld.UCS_HK_STATUS_LOST + 1)) ∧
    (∀ j rest pc, s.sound → hkRun s n = true → hkService s n = false → x.run = none → x.held = false →
      x.queue = j :: rest → s.hkStore.entry (jobOp s n j) = some pc → hkRegion n pc = true →
      Answers (.hkJobDispatch e) s fun t => (t.hkEng n).queue = rest ∧ t.regs = s.regs ∧
        ∃ r, (t.hkEng n).run = some r ∧ r.pc = pc ∧ r.words = 0 ∧ r.maxWords = hkMaxWords s n ∧
          r.regs = hkRegs j.kind j.arg) ∧
    ((hkRun s n = false ∨ hkService s n = true) → Answers (.hkJobDispatch e) s (· = s)) ∧
    (∀ r k, x.asleep = true → x.run = some r → k ∈ pendingOf s n → irqEnabled s n k = true →
      Answers (.hkWake e) s fun t => (t.hkEng n).asleep = false ∧
        (t.hkEng n).run = some { r with pc := (r.pc + 1) % 16384 } ∧ Counts (Reg.IRQ_TGT_CNT_LO n 4) 1 s t) ∧
    (∀ req (v : Word), Fld.UCS_HK_CTL_RUN.of v = 0 → Answers (.hkRunWrite req e v) s fun t => hkRun t n = false) ∧
    (∀ req (v : Word), Fld.UCS_HK_CTL_RUN.of v = 1 → Fld.UCS_HK_CTL_SERVICE.of v = 0 → hkState s n = 0 →
      (n < 2 → s.rdN Reg.UCS_HK_VER_VENDOR ≠ 0) →
      Answers (.hkRunWrite req e v) s fun t => hkRun t n = true ∧ hkService t n = false) ∧
    (∀ r, s.sound → x.run = some r → x.asleep = false → r.runaway = false →
      let w := s.hkStore.word r.pc
      let env := hkEnv s n r
      (∀ code, hkWordFault s n w r env = some code → code < 16 → Answers (.microwordExecute (.hk e)) s fun t =>
        (t.hkEng n).run = none ∧ hkRun t n = false ∧ t.getB a Fld.UCS_HK_STATUS_FAULT = true ∧
        t.get a Fld.UCS_HK_STATUS_CODE = code ∧ t.get a Fld.UCS_HK_STATUS_ADDR = r.pc % 16384 ∧ SameMem s t) ∧
      (∀ pc, hkWordFault s n w r env = none → wordNext w r env = some pc →
        Answers (.microwordExecute (.hk e)) s fun t => ∃ q, (t.hkEng n).run = some q ∧ q.pc = pc ∧
          q.words = r.words + 1)) ∧
    (∀ r, x.run = some r → x.asleep = false → r.runaway = true → Answers (.microwordExecute (.hk e)) s fun t =>
      (t.hkEng n).run = none ∧ hkRun t n = false ∧ t.get a Fld.UCS_HK_STATUS_CODE = 4 ∧ SameMem s t))

/-! ### Switch core and crossbar (ch. 13) -/

/-- XBR_CELL_TRANSFER, FRAME_LAND and INJECT_GRANT (R255, R261, R264 to R267, R291, R346). In a slot at most one cell
leaves each input and one enters each output, and an output grants class 7 first; a frame of one cell that alone
waits crosses in one slot, its cells freed. A frame that has crossed enters its class queue, or is discarded where
its port is down; an inject waits for its token. An inject that fits is granted its cells; none is in Thaw service
or a drain. No cell requests port 12 in a pool drain (R284), nor one of a frame that no pool can stage (R279).
Choices of the model that it rests on: log 1 (DESIGN CHOICE), log 78 (DEDUCED), log 81 (DEDUCED), log 82
(DEDUCED). -/
def Obligations.CellsCrossOneToAPortInASlot : Prop :=
  (∀ s : State, s.running → s.sound → Answers .xbrCellTransfer s fun t => ∀ k < 13,
    (∃ n ≤ 1, Counts (Reg.XBR_PORT_CNT_LO k 0) n s t) ∧ (∃ n ≤ 1, Counts (Reg.XBR_PORT_CNT_LO k 1) n s t)) ∧
  (∀ (s : State) (r : XReq), (∀ e ∈ s.stations, e.1 < 12) → r ∈ xbrRequests s → r.o = 12 → s.poolDrain = none ∧
    ∃ e ∈ s.stations, ∃ y ∈ e.2.core.contexts, e.1 = r.i ∧ y.1 = 96 + r.c ∧ y.2.cellsLeft ≠ 0 ∧
      (poolFor s false y.2.xf.frame.len).isSome) ∧
  (∀ (s : State) (o : Nat) (reqs : List XReq) (r : XReq) (x : XbrOut), xbrGrant s o reqs = some (r, x) →
    r ∈ reqs ∧ r.o = o ∧ ((∃ q ∈ reqs, q.o = o ∧ q.c = 7) → r.c = 7)) ∧
  (∀ (s : State) (st : Station) (x : XFrame) (y : Context), s.running → s.sound →
    let n := st.val
    let o := outOf x.dest
    x.dest ≤ 144 → x.tc < 8 → x.kind = .unicast → cellsOf x.frame.len = 1 →
    (∀ e ∈ s.stations, e.2.core.contexts = [] ∧ e.2.core.mcHeads = [] ∧ (e.1 ≠ n → e.2.core.voqs = [])) →
    (s.stn n).core.voqs = [(8 * x.dest + x.tc, [x])] → admission s o x = some y →
    Answers .xbrCellTransfer s fun t => (t.stn n).core.voqs = [] ∧ Counts (Reg.XBR_PORT_CNT_LO n 0) 1 s t ∧
      Counts (Reg.XBR_PORT_CNT_LO o 1) 1 s t ∧ SameMem s t ∧
      (∀ c ∈ x.frame.cells, c ∉ (t.stn n).core.taken) ∧
      ∃ z, t.ctx? n o x.tc = some z ∧ z.cellsLeft = 0 ∧ z.xf.frame.bytes = x.frame.bytes ∧ z.xf.dest = x.dest) ∧
  (∀ (s : State) (st : Station) (i : Fin 13) (c : Fin 8) (x : Context), s.running →
    s.ctx? i.val st.val c.val = some x → x.cellsLeft = 0 →
    let p := x.xf.dest
    let f := x.xf.frame
    (x.xf.kind = .unicast → f.poison = false → x.down = false → x.noRoom = false → s.linkUp p = true →
      gateOn s p = false →
      Answers (.frameLand st i c) s fun t => t.ctx? i.val st.val c.val = none ∧
        ∃ e, egrQueue t p x.xf.tc = egrQueue s p x.xf.tc ++ [e] ∧ e.frame = f ∧ e.blocks = cellsOf f.len) ∧
    (x.xf.kind = .unicast → f.poison = false → x.down = true ∨ s.linkUp p = false → p < 144 → f.known →
      Answers (.frameLand st i c) s fun t => t.ctx? i.val st.val c.val = none ∧ t.ports = s.ports ∧
        Counts (Reg.EGR_PCNT_LO (stationOf p) (localOf p) 1) 1 s t) ∧
    (x.xf.kind = .inject → f.poison = false → Answers (.frameLand st i c) s fun t => t.regs = s.regs ∧
      t.ctx? i.val st.val c.val = none ∧
      if f.cls = 7 then (t.stn st.val).tasks.laneX = (s.stn st.val).tasks.laneX ++ [f]
      else (t.stn st.val).tasks.laneN = (s.stn st.val).tasks.laneN ++ [f])) ∧
  (∀ (s : State) (st : Station), s.running → s.sound →
    let n := st.val
    ((s.full n = false ∨ (s.stn n).draining = true) → Answers (.injectGrant st) s (· = s)) ∧
    (∀ j, s.full n = true → (s.stn n).draining = false → injNext s n = some j → j.station = n →
      Answers (.injectGrant st) s fun t => (t.stn n).core.injUsed = (s.stn n).core.injUsed + cellsOf j.frame.len ∧
        ∃ x, t.ctx? 12 n j.frame.cls = some x ∧ x.xf.kind = .inject ∧ x.cellsLeft = cellsOf j.frame.len ∧
          x.xf.frame.bytes = s.mrd (blockAddr j.pool j.block) j.frame.bytes.length))

/-- MC_HEAD, MC_COPY_LAND, MC_COUNTS_DONE, MC_HOL_TIMEOUT (R270, R271, R273) and MC_SET, MC_READ (R274). The frame at
the head requests a copy to every station with a member, its ingress port pruned; each member of a landed copy
queues it or counts it refused, by SHARED_FREE as it is without the copy's own blocks; when every target has
answered the frame leaves its queue, and a partial delivery is counted; a target that has not been granted in time
is dropped from it. A group is written for its Guild's own ports alone, and only by its Guild. Choices of the
model that it rests on: log 1 (DESIGN CHOICE), log 78 (DEDUCED), log 80 (DEDUCED). -/
def Obligations.MulticastCopiesReachOrAreCounted : Prop :=
  (∀ (s : State) (st : Station) (c : Fin 8), s.running →
    let n := st.val
    let core (t : State) := (t.stn n).core
    let head (t : State) := aget? c.val (core t).mcHeads
    let q (t : State) := aget [] c.val (core t).mcqs
    (∀ x rest, s.sound → q s = x :: rest → head s = none → Answers (.mcHead st c) s fun t => q t = q s ∧
      t.regs = s.regs ∧
      ∃ h, head t = some h ∧ h.ports = mcPorts s (mcHairpin s x) x ∧ h.refused = 0 ∧ h.waiting = [] ∧
        ∀ o, o ∈ h.toGrant ↔ o < 12 ∧ ∃ p < 144, p / 12 = o ∧ h.ports.testBit p = true) ∧
    (∀ (o : Station) x h, s.ctx? n o.val c.val = some x → x.cellsLeft = 0 → x.xf.kind = .mcCopy → x.xf.tc = c.val →
      x.xf.frame.poison = false → x.noRoom = false → x.lone = false → head s = some h →
      let ports := membersOf (mcPorts s x.xf.hairpin x.xf) o.val
      let size := cellsOf x.xf.frame.len
      let fits (p : Nat) : Bool := leAlpha (s.get (Reg.EGR_CLASS o.val (localOf p) c.val) Fld.EGR_CLASS_ALPHA)
        (egrDepth s p c.val + size) (egrSharedFree (ctxRelease o.val x s) o.val)
      (∀ p ∈ ports, s.validDest p = true ∧ s.linkUp p = true ∧ gateOn s p = false ∧ c.val ≠ 7) →
      Answers (.mcCopyLand st o c) s fun t => t.ctx? n o.val c.val = none ∧
        (∀ p ∈ ports, fits p = true → ∃ e, egrQueue t p c.val = egrQueue s p c.val ++ [e] ∧ e.frame = x.xf.frame) ∧
        (∀ p ∈ ports, fits p = false → egrQueue t p c.val = egrQueue s p c.val ∧
          Counts (Reg.SWC_PCNT_LO o.val (localOf p) 3) 1 s t) ∧
        ∃ k, head t = some k ∧ k.waiting = h.waiting.filter (· != o.val) ∧
          k.refused = h.refused + (ports.filter fun p => !fits p).length) ∧
    (∀ x rest h, q s = x :: rest → head s = some h → h.hostPending = false → s.ctx? n 12 c.val = none →
      (h.toGrant = [] → h.waiting = [] → h.hostMember = false → x.frame.known →
        Answers (.mcCountsDone st c) s fun t =>
        q t = rest ∧ head t = none ∧ (∀ k ∈ x.frame.cells, k ∉ (core t).taken) ∧
        (h.refused ≠ 0 → Counts (Reg.SWC_CNT_LO n 10) 1 s t)) ∧
      (h.toGrant = [] → h.waiting = [] → h.hostMember = true → h.late = false →
        Answers (.mcCountsDone st c) s fun t => q t = q s ∧ head t = some { h with hostPending := true }) ∧
      (h.toGrant ≠ [] ∨ h.waiting ≠ [] → Answers (.mcCountsDone st c) s (· = s)) ∧
      (∀ o, o < 12 → h.late = false → h.toGrant = [o] → h.waiting = [] → s.ctx? n o c.val = none →
        Answers (.mcHolTimeout st c) s fun t =>
          Counts (Reg.SWC_CNT_LO n 9) (membersOf h.ports o).length s t ∧
          t.getB (Reg.SWC_EVENT n) Fld.SWC_EVENT_MC_HOL = true ∧ ∃ k, head t = some k ∧ k.late = true ∧
            k.toGrant = [] ∧ k.refused = h.refused + (membersOf h.ports o).length))) ∧
  (∀ (s : State) (g : Guild) (ring : Fin 1024) (c : Cmd),
    let G := g.val
    let m := descField c.desc 0 14
    let ports := descField c.desc 32 152
    let own (t : State) := aget? m t.groups
    let ends (status : Nat) (t : State) : Prop := CompletedWith G ring.val c status [] s t
    let foreign := ∃ e, own s = some e ∧ e.guild ≠ G
    let bad := 2 ^ 145 ≤ ports ∨ ∃ p < 144, ports.testBit p = true ∧ s.portGuild p ≠ G
    (CmdReady s G ring.val 0x48 c → foreign → Answers (.mcSet g ring) s fun t => ends 0x48 t ∧ t.groups = s.groups) ∧
    (CmdReady s G ring.val 0x48 c → ¬ foreign → bad → Answers (.mcSet g ring) s fun t => ends 0x49 t ∧
      t.groups = s.groups) ∧
    (CmdReady s G ring.val 0x48 c → ¬ foreign → ¬ bad → Answers (.mcSet g ring) s fun t => ends 0 t ∧
      (∀ k, k ≠ m → aget? k t.groups = aget? k s.groups) ∧
      own t = if descField c.desc 16 1 = 1 then
          some { guild := G, hairpin := descField c.desc 17 1 == 1, ports := ports }
        else none) ∧
    (∀ e, CmdReady s G ring.val 0x49 c → own s = some e → e.guild = G →
      Answers (.mcRead g ring) s fun t => ends 0 t ∧
      t.groups = s.groups ∧ .dma G (s.pasid G) (descField c.desc 64 64)
        (leBytes 19 e.ports ++ leBytes 1 (128 + bitAt e.hairpin 3 + e.guild) ++ zeros 12) ∈ t.out) ∧
    (CmdReady s G ring.val 0x49 c → own s = none → Answers (.mcRead g ring) s fun t => ends 0x4A t))

/-! ### Moraine and Cooperage (ch. 14) -/

/-- CEL_FREE_WRITE, CELL_SWEEP_START, CELL_SWEEP_END, POOL_SWEEP_START, POOL_SWEEP_END and MOR_SWEEP (R276, R280,
R281, R285). A freed cell is free whatever it held. A sweep counts its pass, and with RECLAIM as it was when the
sweep began (R432) frees the cells, or pushes the blocks, that two sweeps running have found leaked, and no
others. MOR_SWEEP completes with the number of the reports of its sweep. Choices of the model that it rests on:
log 1 (DESIGN CHOICE), log 79 (DEDUCED), log 84 (DEDUCED). -/
def Obligations.SweepsReclaimWhatLeaksTwice : Prop :=
  (∀ (s : State) (st : Station), s.running →
    let n := st.val
    let taken (t : State) := (t.stn n).core.taken
    let a := Reg.MOR_STATUS n
    let w := (s.stn n).sweep
    let en := s.getB (Reg.MOR_CFG n) Fld.MOR_CFG_EN
    (∀ v : Word, Answers (.celFreeWrite st v) s fun t => t.regs = s.regs ∧ SameMem s t ∧
      ∀ k, k ∈ taken t ↔ k ∈ taken s ∧ k ≠ Fld.CEL_FREE_INDEX.of v) ∧
    (en = false ∨ w.running = true → Answers (.cellSweepStart st) s (· = s)) ∧
    (en = true → w.running = false → Answers (.cellSweepStart st) s fun t => (t.stn n).sweep.running = true ∧
      (t.stn n).sweep.touched = [] ∧ (t.stn n).sweep.reclaim = s.getB (Reg.MOR_CFG n) Fld.MOR_CFG_RECLAIM ∧
        t.getB a Fld.MOR_STATUS_RUNNING = true ∧
        OnlyRegsOf [a] { s with stations := t.stations } t) ∧
    (w.running = false → Answers (.cellSweepEnd st) s (· = s)) ∧
    (w.running = true → w.waiters = [] → Answers (.cellSweepEnd st) s fun t => (t.stn n).sweep.running = false ∧
      t.get a Fld.MOR_STATUS_PASSES = (s.get a Fld.MOR_STATUS_PASSES + 1) % 65536 ∧
      t.getB a Fld.MOR_STATUS_RUNNING = false ∧ Counts (Reg.MOR_CNT_LO n 0) 1 s t ∧
      Counts (Reg.MOR_CNT_LO n 2) (cellLeaks s n).length s t ∧
      ∀ k, k ∈ taken t ↔ k ∈ taken s ∧
        ¬ (w.reclaim = true ∧ k ∈ cellLeaks s n ∧ k ∈ w.leaked))) ∧
  (∀ s : State, s.running →
    let a := Reg.MOR_POOL_STATUS
    let w := s.coop.sweep
    let en := s.getB Reg.MOR_POOL_CFG Fld.MOR_POOL_CFG_EN
    (en = false ∨ w.running = true → Answers .poolSweepStart s (· = s)) ∧
    (en = true → w.running = false → Answers .poolSweepStart s fun t => t.coop.sweep.running = true ∧
      t.coop.freeStacks = s.coop.freeStacks ∧ t.getB a Fld.MOR_POOL_STATUS_RUNNING = true ∧
        t.coop.sweep.reclaim = s.getB Reg.MOR_POOL_CFG Fld.MOR_POOL_CFG_RECLAIM) ∧
    (w.running = true → w.waiters = [] →
      Answers .poolSweepEnd s fun t => t.coop.sweep.running = false ∧
        (w.reclaim = false → t.coop.freeStacks = s.coop.freeStacks) ∧
        (∀ n < 5, (t.stack n).gone = (s.stack n).gone ∧ ∀ k, k ∈ (t.stack n).pushed ↔ k ∈ (s.stack n).pushed ∨
          w.reclaim = true ∧ ∃ m < 5, (m, k) ∈ stackLeaks s m ∧ coopKey m k ∈ w.leaked ∧ stackOf s m k = n) ∧
        t.get a Fld.MOR_POOL_STATUS_PASSES = (s.get a Fld.MOR_POOL_STATUS_PASSES + 1) % 65536 ∧
        Counts (Reg.COOP_CNT_LO 5) ((List.range 5).flatMap (stackLeaks s)).length s t)) ∧
  (∀ (s : State) (g : Guild) (ring : Fin 1024) (c : Cmd), CmdReady s g.val ring.val 0x52 c →
    let m := descField c.desc 0 12
    let pools := descField c.desc 15 1
    (m = 0 → pools = 0 → Answers (.morSweep g ring) s fun t => CompletedWith g.val ring.val c 0x52 [] s t) ∧
    (∀ st : Station, stationsOf m = [st.val] → pools = 0 → (s.stn st.val).sweep = {} →
      Answers (.morSweep g ring) s fun t => (t.ring g.val ring.val).cmd.isSome ∧
        (t.stn st.val).sweep.running = true ∧ Answers (.cellSweepEnd st) t fun u =>
          CompletedWith g.val ring.val c 0 (leBytes 4 ((cellLeaks s st.val).length + ((heldFrames s st.val).map fun f =>
            (f.2.2.cells.filter fun k => !(s.stn st.val).core.taken.contains k).length).sum)) s u) ∧
    (m = 0 → pools = 1 → s.coop.sweep = {} →
      Answers (.morSweep g ring) s fun t => (t.ring g.val ring.val).cmd.isSome ∧
      t.coop.sweep.running = true ∧ Answers .poolSweepEnd t fun u =>
        CompletedWith g.val ring.val c 0 (leBytes 4 (((List.range 5).flatMap (stackDups s)).length +
          ((blockHolders s).filter fun h => stackCopies s h.1 h.2.1 != 0).length +
          ((List.range 5).flatMap (stackLeaks s)).length)) s u))

/-- MOR_STN_DRAIN, STN_DRAIN_QUIESCED, MOR_POOL_DRAIN, POOL_DRAIN_QUIESCED (R283 to R285), COOP_HK_ALLOC_READ and
COOP_HK_FREE_WRITE (R279). One drain at a time. A drain stops the station's engines; when it ends no task, queue
or cell of the station is held and no charge stands. A pool drain rebuilds the stacks. A housekeeping engine is
given a block that is not out, 0 where none is left; any other requester reads 0. Choices of the model that it
rests on: log 1 (DESIGN CHOICE), log 83 (DEDUCED), log 85 (DEDUCED). -/
def Obligations.DrainsLeaveEveryCellFree : Prop :=
  (∀ (s : State) (g : Guild) (ring : Fin 1024) (c : Cmd),
    let ends (status : Nat) (t : State) : Prop := CompletedWith g.val ring.val c status [] s t
    let n := descField c.desc 0 4
    (CmdReady s g.val ring.val 0x50 c → 11 < n → Answers (.morStnDrain g ring) s fun t => ends 0x52 t) ∧
    (CmdReady s g.val ring.val 0x50 c → n ≤ 11 → drainRuns s = true →
      Answers (.morStnDrain g ring) s fun t => ends 0x50 t ∧ t.stations = s.stations) ∧
    (CmdReady s g.val ring.val 0x50 c → n ≤ 11 → drainRuns s = false → Answers (.morStnDrain g ring) s fun t =>
      (t.stn n).draining = true ∧ (t.stn n).drain = some (g.val, ring.val) ∧
      t.getB (Reg.MOR_STATUS n) Fld.MOR_STATUS_DRAINING = true ∧
      ∀ e, aget? e (s.stn n).tasks.engines ≠ none → e ∈ (t.stn n).tasks.stop) ∧
    (CmdReady s g.val ring.val 0x51 c → drainRuns s = true →
      Answers (.morPoolDrain g ring) s fun t => ends 0x50 t ∧ t.coop = s.coop) ∧
    (CmdReady s g.val ring.val 0x51 c → drainRuns s = false → hkState s 2 ≠ 0 ∨ hkState s 3 ≠ 0 →
      Answers (.morPoolDrain g ring) s fun t => ends 0x51 t ∧ t.coop = s.coop) ∧
    (CmdReady s g.val ring.val 0x51 c → drainRuns s = false → hkState s 2 = 0 → hkState s 3 = 0 →
      Answers (.morPoolDrain g ring) s fun t => t.poolDrain = some (g.val, ring.val) ∧ t.out = s.out ∧
        t.getB Reg.MOR_POOL_STATUS Fld.MOR_POOL_STATUS_DRAINING = true)) ∧
  (∀ (s : State) (st : Station), s.running →
    let n := st.val
    ((s.stn n).draining = false → Answers (.stnDrainQuiesced st) s (· = s)) ∧
    ((s.stn n).draining = true → (∀ r, (s.stn n).drain = some r → r.1 < 8) →
      Answers (.stnDrainQuiesced st) s fun t => (t.stn n).draining = false ∧
      (t.stn n).tasks.slots = [] ∧ (t.stn n).tasks.laneX = [] ∧ (t.stn n).tasks.laneN = [] ∧
      t.getB (Reg.MOR_STATUS n) Fld.MOR_STATUS_DRAINING = false ∧
      (t.stn n).yields = false ∧
      let c := (t.stn n).core
      c.taken = [] ∧ c.rsvUsed = [] ∧ c.sharedUsed = 0 ∧ c.expUsed = 0 ∧ c.injUsed = 0 ∧ c.growthUsed = 0 ∧
        c.headUsed = [] ∧ c.u = [] ∧
        c.voqs = [] ∧ c.mcqs = [])) ∧
  (∀ s : State, s.running → (s.poolDrain = none → Answers .poolDrainQuiesced s (· = s)) ∧
    ((∃ r, s.poolDrain = some r ∧ r.1 < 8) → Answers .poolDrainQuiesced s fun t => t.poolDrain = none ∧
      t.coop.freeStacks = [] ∧
      t.coop.hkHolders = [] ∧ t.hif.injects = [] ∧
      t.getB Reg.MOR_POOL_STATUS Fld.MOR_POOL_STATUS_DRAINING = false)) ∧
  (∀ (s : State) (req : Requester), s.running → (∀ e, req ≠ .hk e) →
    (Answers (.coopHkAllocRead req) s fun t => t = { s with out := .read req Reg.COOP_HK_ALLOC 0#32 :: s.out }) ∧
    ∀ v, Answers (.coopHkFreeWrite req v) s (· = s)) ∧
  (∀ (s : State) (e : Fin 4), s.running →
    let read (k : Nat) (t : State) : Prop := t.out = .read (.hk e) Reg.COOP_HK_ALLOC (BitVec.ofNat 32 k) :: s.out
    (stackFree s 4 = 0 → Answers (.coopHkAllocRead (.hk e)) s fun t => read 0 t ∧ t.coop = s.coop) ∧
    ((s.stack 4).pushed = [] → builtLeft s 4 ≠ 0 → Answers (.coopHkAllocRead (.hk e)) s fun t => ∃ k,
      stackFirst s 4 ≤ k ∧ k < 336 ∧ k ∉ (s.stack 4).gone ∧ k ∈ (t.stack 4).gone ∧ read (2 ^ 31 + k) t ∧
      aget? k t.coop.hkHolders = some e.val) ∧
    (∀ k rest, (s.stack 4).pushed = k :: rest → k < 336 → Answers (.coopHkAllocRead (.hk e)) s fun t =>
      read (2 ^ 31 + k) t ∧ (t.stack 4).pushed = rest) ∧
    (∀ v : Word, let k := Fld.COOP_HK_FREE_BLOCK.of v
      (stackFirst s 4 ≤ k → k < 336 → Answers (.coopHkFreeWrite (.hk e) v) s fun t =>
        (t.stack 4).pushed = k :: (s.stack 4).pushed ∧ aget? k t.coop.hkHolders = none ∧ t.regs = s.regs) ∧
      (k < stackFirst s 4 ∨ 336 ≤ k → Answers (.coopHkFreeWrite (.hk e) v) s fun t => t.coop = s.coop ∧
        Counts (Reg.COOP_CNT_LO 2) 1 s t)))

/-! ### Varve time (ch. 17) -/

/-- The servo (R313, R321 to R324, R326, R329). An offset of VRV_OFFSET, or of PPS_IN under SRC = 1, is rejected
during a switch-over gap and while REF_LOST is 1; an accepted one of STEP_TH or more steps Varve time by it, where
it may, and leads to LOCKING; any other moves i and f by KI and KP, each clamped to FMAX_PPB, sets FADJ to f and
counts the run of small offsets that leads from LOCKING to LOCKED; the first offset accepted in FREERUN or
HOLDOVER leads to LOCKING whatever LOCK_CNT is (the model's choice, log 135). VRV_SET steps to its time, a step
that frames under way look back over; VRV_FREQ sets FADJ and i, clamped; VRV_HOLD enters or leaves HOLDOVER, as
HOLD_TMO and the loss of the time reference enter it, with FADJ the integral term, clamped. The loss and the
return of the reference move Varve time by at most 2 ns. Choices of the model that it rests on: log 1 (DESIGN
CHOICE), log 86 (DESIGN CHOICE), log 88 (DEDUCED), log 135 (DEDUCED). -/
def Obligations.TheServoSteersVarveTime : Prop :=
  ∀ s : State, s.running →
    let wrap (n : Int) : Nat := (n % (2 ^ 48 * 1000000000 * 2 ^ 44)).toNat
    let en := s.getB Reg.VRV_CFG Fld.VRV_CFG_EN
    let src := s.getB Reg.VRV_CFG Fld.VRV_CFG_SRC
    let held := mateGap s = true ∨ refLost s = true
    let near (q n : Int) (d : Nat) : Prop := q * d - n < d ∧ n - q * d < d
    let m := fmax s
    let lock := max 1 (s.get Reg.VRV_SERVO_CFG Fld.VRV_SERVO_CFG_LOCK_CNT)
    let small (theta : Int) : Prop := theta.natAbs < s.get Reg.VRV_SERVO_TH Fld.VRV_SERVO_TH_LOCK_TH * 65536
    let cnt (k : Nat) (t : State) := Counts (Reg.VRV_CNT_LO k) 1 s t
    let holds (t : State) : Prop := servoState t = 3 ∧
      (servoState s ≠ 3 → t.varve.lockRun = 0 ∧
        t.rd Reg.VRV_FADJ = BitVec.ofInt 32 (clampInt (-fadjOf m) (fadjOf m) (fadjOf s.varve.i)))
    let kept (t : State) : Prop := t.varve = { s.varve with lockRun := t.varve.lockRun }
    let steps (theta : Int) (noStep : Bool) : Prop :=
      0 < s.get Reg.VRV_SERVO_TH Fld.VRV_SERVO_TH_STEP_TH ∧ noStep = false ∧
      (servoState s ≠ 2 ∨ s.getB Reg.VRV_SERVO_CFG Fld.VRV_SERVO_CFG_STEP_EN = true) ∧
      s.get Reg.VRV_SERVO_TH Fld.VRV_SERVO_TH_STEP_TH * 65536000 ≤ theta.natAbs
    let took (theta : Int) (noStep resetI : Bool) (t : State) : Prop := cnt 0 t ∧
      (steps theta noStep → t.varve.t = wrap (s.varve.t - theta * 2 ^ 28) ∧ servoState t = 1 ∧ cnt 1 t ∧
        t.varve.lockRun = 0 ∧ t.varve.i = (if resetI then 0 else s.varve.i)) ∧
      (¬ steps theta noStep → t.varve.t = s.varve.t ∧ ∃ ki kp : Int,
        near ki (s.get Reg.VRV_SERVO_KI Fld.VRV_SERVO_KI_M * theta) (2 ^ s.get Reg.VRV_SERVO_KI Fld.VRV_SERVO_KI_E) ∧
        near kp (s.get Reg.VRV_SERVO_KP Fld.VRV_SERVO_KP_M * theta) (2 ^ s.get Reg.VRV_SERVO_KP Fld.VRV_SERVO_KP_E) ∧
        t.varve.i = clampInt (-m) m ((if resetI then 0 else s.varve.i) - ki) ∧
        t.rd Reg.VRV_FADJ = BitVec.ofInt 32 (fadjOf (clampInt (-m) m (t.varve.i - kp))) ∧
        (small theta → t.varve.lockRun = s.varve.lockRun + 1) ∧ (¬ small theta → t.varve.lockRun = 0) ∧
        servoState t = if servoState s = 2 ∨ servoState s = 1 ∧ lock ≤ t.varve.lockRun then 2 else 1)
    (∀ (g : Guild) (ring : Fin 1024) (c : Cmd),
      let ready := CmdReady s g.val ring.val
      let ends (status : Nat) (result : List Byte) (t : State) : Prop :=
        CompletedWith g.val ring.val c status result s t
      let theta := signedOf 64 (descField c.desc 0 64)
      let noStep := descField c.desc 64 1 == 1
      (ready 0x58 c → en = false ∨ src = true → Answers (.vrvOffset g ring) s fun t => ends 0x5A [] t ∧
        t.varve = s.varve) ∧
      (ready 0x58 c → en = true → src = false → held → Answers (.vrvOffset g ring) s fun t => ends 0x59 [] t ∧
        t.varve = s.varve ∧ cnt 2 t) ∧
      (ready 0x58 c → en = true → src = false → ¬ held → Answers (.vrvOffset g ring) s fun t => SameMem s t ∧
        took theta noStep (descField c.desc 65 1 == 1) t ∧ ∃ stepped, (stepped = 1 ↔ steps theta noStep) ∧
          ends 0 (leBytes 4 (t.rdN Reg.VRV_FADJ) ++ leBytes 1 (2 * servoState t + stepped)) t ∧ stepped < 2) ∧
      (let sec := descField c.desc 0 48
       let ns := descField c.desc 64 32
       (ready 0x59 c → 1000000000 ≤ ns → Answers (.vrvSet g ring) s fun t => ends 0x58 [] t ∧ t.varve = s.varve) ∧
       (ready 0x59 c → ns < 1000000000 → Answers (.vrvSet g ring) s fun t => ends 0 [] t ∧ cnt 1 t ∧
        t.varve = { s.varve with t := (sec * 1000000000 + ns) * 2 ^ 44,
                                 steps := s.varve.steps ++ [(s.now, (((sec * 1000000000 + ns) * 256 : Nat) : Int) - s.vt)] } ∧
        t.getB Reg.VRV_EVENT Fld.VRV_EVENT_STEP = true ∧
        servoState t = (if servoState s = 2 then 1 else servoState s))) ∧
      (ready 0x5A c → Answers (.vrvFreq g ring) s fun t =>
        let f := clampInt (-fadjOf m) (fadjOf m) (signedOf 32 (descField c.desc 0 32))
        t.rd Reg.VRV_FADJ = BitVec.ofInt 32 f ∧ near t.varve.i (f * 1000000000) (2 ^ 28) ∧ t.varve.freeF = f ∧
        t.varve.t = s.varve.t ∧ ends 0 (leBytes 4 (t.rdN Reg.VRV_FADJ)) t) ∧
      (ready 0x5B c → Answers (.vrvHold g ring) s fun t => ends 0 (leBytes 1 (servoState t)) t ∧ kept t ∧
        (descField c.desc 0 1 = 1 → holds t) ∧
        (descField c.desc 0 1 = 0 → servoState t =
          if servoState s = 3 ∧ mateGap s = false then 1 else servoState s))) ∧
    Answers .ppsInEdge s (fun t =>
      let ns := s.varveNs % 1000000000
      let d : Int := (ns : Int) - s.get Reg.VRV_PPS_IN Fld.VRV_PPS_IN_PPS_DELAY
      let theta : Int := (if ns < 500000000 then d else d - 1000000000) * 65536
      t.rdN Reg.VRV_PPS_CAP_NS = ns ∧ t.rdN Reg.VRV_PPS_CAP_SEC = s.varveNs / 1000000000 % 2 ^ 32 ∧
      t.getB Reg.VRV_EVENT Fld.VRV_EVENT_PPS_IN = true ∧ SameMem s t ∧ t.out = s.out ∧
      (en = true → src = true → ¬ held → took theta false false t) ∧
      (en = true → src = true → held → t.varve = s.varve ∧ cnt 2 t) ∧
      (en = false ∨ src = false → t.varve = s.varve ∧ t.rd Reg.VRV_FADJ = s.rd Reg.VRV_FADJ)) ∧
    (servoState s = 2 → s.get Reg.VRV_SERVO_CFG Fld.VRV_SERVO_CFG_HOLD_TMO ≠ 0 → Answers .servoHoldTimeout s fun t =>
      holds t ∧ kept t ∧ OnlyRegsOf [Reg.VRV_SERVO_CFG, Reg.VRV_EVENT, Reg.VRV_FADJ] { s with varve := t.varve } t) ∧
    (servoState s ≠ 2 ∨ s.get Reg.VRV_SERVO_CFG Fld.VRV_SERVO_CFG_HOLD_TMO = 0 →
      Answers .servoHoldTimeout s (· = s)) ∧
    (refLost s = false → Answers .timerefLoss s fun t => refLost t = true ∧ holds t ∧ cnt 1 t ∧
      t.getB Reg.VRV_EVENT Fld.VRV_EVENT_REF_LOSS = true ∧
      ∃ d : Int, -2 ^ 45 ≤ d ∧ d ≤ 2 ^ 45 ∧
        t.varve = { s.varve with t := wrap (s.varve.t + d), lockRun := t.varve.lockRun, steps := t.varve.steps }) ∧
    (refLost s = true → Answers .timerefRestored s fun t => refLost t = false ∧ servoState t = servoState s ∧
      cnt 1 t ∧
      ∃ d : Int, -2 ^ 45 ≤ d ∧ d ≤ 2 ^ 45 ∧
        t.varve = { s.varve with t := wrap (s.varve.t + d), steps := t.varve.steps }) ∧
    (refLost s = true → Answers .timerefLoss s (· = s)) ∧ (refLost s = false → Answers .timerefRestored s (· = s))

/-- Varve time as it is read and put out (R318, R320, R325, R326). A read of VRV_TIME_NS returns the nanoseconds and
latches the other words of one instant for its requester; a read of a Guild's TX timestamp queue takes its oldest
entry, latches its other fields, and on an empty queue returns 0 and latches PORT 255; a link to which the Guild
is not bound reads 0. PPS_OUT rises at most once in 500 ms, neither pulse moves during a switch-over gap, and a
FREQ_OUT period that is odd or does not divide 10⁹ is ignored with CFG_ERR. Choices of the model that it rests on:
log 1 (DESIGN CHOICE), log 87 (DEDUCED), log 88 (DEDUCED), log 98 (DESIGN CHOICE). -/
def Obligations.VarveTimeIsReadAndPulsed : Prop :=
  ∀ s : State, s.running →
    let ns := s.varveNs
    let held := mateGap s = true
    (∀ (req : Requester) (page : Option Guild), (∀ g, page = some g → pageForeign s req g.val = false) →
      Answers (.vrvTimeRead req page) s fun t => t = { s with out := t.out, latches := t.latches } ∧
        t.out = .read req (match page with | some g => guildPageBase g.val + 0x820 | none => Reg.VRV_TIME_NS)
          (BitVec.ofNat 32 (ns % 1000000000)) :: s.out ∧
        (latched t req Reg.VRV_TIME_SEC_LO).toNat + 2 ^ 32 * ((latched t req Reg.VRV_TIME_SEC_HI).toNat % 65536) =
          ns / 1000000000 % 2 ^ 48 ∧
        (latched t req Reg.VRV_TIME_SEC_HI).toNat / 65536 = s.varve.t / 2 ^ 28 % 65536) ∧
    (∀ (req : Requester) (g : Guild),
      let q (t : State) := aget [] g.val t.varve.txq
      let a := Reg.VRV_TXQ_LO g.val
      (pageForeign s req g.val = true → Answers (.txqRead req g) s fun t => t.out = .read req a 0#32 :: s.out ∧
        t.varve = s.varve ∧ t.getB Reg.HIF_EVENT Fld.HIF_EVENT_ISO_VIOL = true ∧ Counts (Reg.HIF_CNT_LO 3) 1 s t) ∧
      (∀ e rest, pageForeign s req g.val = false → q s = e :: rest → Answers (.txqRead req g) s fun t =>
        t.out = .read req a (BitVec.ofNat 32 e.ts) :: s.out ∧ q t = rest ∧
        latched t req a = BitVec.ofNat 32 (e.id % 65536 * 65536 + e.frac % 256 * 256 + e.port % 256) ∧
        SameRegsBut [Reg.VRV_TXQ_CTL g.val] s t ∧
        (rest.length < 128 → t.get (Reg.VRV_TXQ_CTL g.val) Fld.VRV_TXQ_CTL_COUNT = rest.length)) ∧
      (pageForeign s req g.val = false → q s = [] → Answers (.txqRead req g) s fun t =>
        t.out = .read req a 0#32 :: s.out ∧ latched t req a = 255#32 ∧ t.regs = s.regs ∧ t.varve = s.varve)) ∧
    (let soon := ∃ u, s.varve.lastPps = some u ∧ s.now < u + 500000000
     let on := s.getB Reg.VRV_PPS_OUT Fld.VRV_PPS_OUT_EN = true
     (on → ¬ held → ¬ soon → Answers .ppsOutEdge s fun t =>
        t = { s with varve := { s.varve with pps := true, lastPps := some s.now }
                     out := (if s.varve.pps then [] else [.pin "PPS_OUT" true]) ++ s.out }) ∧
     (¬ on ∨ held ∨ soon → Answers .ppsOutEdge s (· = s))) ∧
    (¬ held → Answers .ppsOutWidthEnd s fun t =>
      t = { s with varve := { s.varve with pps := false }
                   out := (if s.varve.pps then [.pin "PPS_OUT" false] else []) ++ s.out }) ∧
    (held → Answers .ppsOutWidthEnd s (· = s)) ∧
    (∀ v : Word,
      let p := Fld.VRV_FREQ_OUT_PERIOD_NS.of v
      let a := Reg.VRV_FREQ_OUT
      (p % 2 = 1 ∨ ¬ p ∣ 1000000000 → Answers (.freqOutWrite v) s fun t =>
        t.getB a Fld.VRV_FREQ_OUT_CFG_ERR = true ∧ OnlyRegsOf [a] s t ∧
        t.get a Fld.VRV_FREQ_OUT_PERIOD_NS = s.get a Fld.VRV_FREQ_OUT_PERIOD_NS ∧
        t.get a Fld.VRV_FREQ_OUT_EN = s.get a Fld.VRV_FREQ_OUT_EN) ∧
      (p % 2 = 0 → p ∣ 1000000000 → Answers (.freqOutWrite v) s fun t => t.get a Fld.VRV_FREQ_OUT_PERIOD_NS = p ∧
        t.get a Fld.VRV_FREQ_OUT_EN = Fld.VRV_FREQ_OUT_EN.of v ∧ SameRegsBut [a] s t ∧
        t.varve = { s.varve with freq := s.varve.freq && Fld.VRV_FREQ_OUT_EN.of v == 1 })) ∧
    (let p := s.get Reg.VRV_FREQ_OUT Fld.VRV_FREQ_OUT_PERIOD_NS
     let on := s.getB Reg.VRV_FREQ_OUT Fld.VRV_FREQ_OUT_EN = true
     (∀ level : Bool, on → ¬ held → 0 < p → (if level then ns % p = 0 else 2 * (ns % p) = p) →
        Answers .freqOutEdge s fun t =>
          t = { s with varve := { s.varve with freq := level }
                       out := (if s.varve.freq = level then [] else [.pin "FREQ_OUT" level]) ++ s.out }) ∧
     (¬ on ∨ held → Answers .freqOutEdge s (· = s)))

/-! ### Hosts, Guilds and rings (ch. 18) -/

/-- Guilds and links (R332, R334, R338, R339, R349, Table 18.1). GUILD_ENABLE enables the two bootstrap rings with D =
0 and polling, which a failed doorbell read stops; GUILD_DISABLE, and the loss or reset of its link, stop every
ring of a Guild, drop its staged punts and the injects not yet granted, and leave a started command without a
completion; other Guilds keep all they hold. A link that comes up shows its width and speed. An access outside a
link's Guilds is latched and counted, and reads 0; one inside a window reaches the shared area once the stacks
have trained, in the aligned word that holds its byte (the model's choice, log 136). Choices of the model that it
rests on: log 1 (DESIGN CHOICE), log 4 (DESIGN CHOICE), log 20 (PRESUMED), log 89 (DEDUCED), log 90 (DEDUCED), log
94 (DEDUCED), log 136 (DESIGN CHOICE). -/
def Obligations.GuildsComeAndGoWithTheirLinks : Prop :=
  ∀ s : State, s.running →
    let known := (∀ h, ∀ p ∈ (s.guild h).punts, p.station < 12 ∧ p.xf.frame.known) ∧
      ∀ j ∈ s.hif.injects, j.station < 12 ∧ j.frame.known
    let off (G : Nat) (t : State) : Prop := t.gldOn G = false ∧ (s.gldOn G = true → (t.guild G).punts = [] ∧
      (∀ j ∈ t.hif.injects, j.guild = G → j.crossing = true) ∧
      ∀ r, (t.ring G r).enabled = false ∧ ∀ c, (t.ring G r).cmd = some c → c.orphan = true)
    let keeps (G : Nat) (t : State) : Prop := t.gldOn G = s.gldOn G ∧ t.guild G = s.guild G ∧
      ∀ j ∈ s.hif.injects, j.guild = G → j ∈ t.hif.injects
    let lost (k : Nat) (t : State) : Prop := SameMem s t ∧
      t.getB (Reg.HIF_LINK_STATUS k) Fld.HIF_LINK_STATUS_UP = false ∧
      (t.get Reg.HIF_EVENT Fld.HIF_EVENT_LINK_DOWN).testBit k = true ∧ ∀ h < 8,
        (s.gldLink h = some k → off h t ∧ t.getB (Reg.GLD_STATUS h) Fld.GLD_STATUS_LINK_DOWN = true) ∧
        (s.gldLink h ≠ some k → keeps h t)
    let violates (t : State) : Prop := t.getB Reg.HIF_EVENT Fld.HIF_EVENT_ISO_VIOL = true ∧
      Counts (Reg.HIF_CNT_LO 3) 1 s t
    (∀ (g : Guild) (v : Word),
      let G := g.val
      let boots (t : State) : Prop := t.gldOn G = true ∧ SameMem s t ∧ (t.guild G).evtSeq = 0 ∧
        (t.guild G).evtLoss = (s.guild G).evtLoss ∧
        (let x := t.ring G 0
         x.enabled = true ∧ x.kind = 0 ∧ x.d = 0 ∧
          x.base = s.get (Reg.GLD_BOOT_CMD_LO G) Fld.GLD_BOOT_CMD_LO_BASE_LO * 4096 +
            s.rdN (Reg.GLD_BOOT_CMD_HI G) * 2 ^ 32) ∧
        (let x := t.ring G 1
         x.enabled = true ∧ x.kind = 1 ∧ x.d = 0 ∧
          x.base = s.get (Reg.GLD_BOOT_CPL_LO G) Fld.GLD_BOOT_CPL_LO_BASE_LO * 4096 +
            s.rdN (Reg.GLD_BOOT_CPL_HI G) * 2 ^ 32)
      (s.gldOn G = false → (s.gldLink G).isSome → v.toNat.testBit 31 = true →
        (∀ ws, Answers (.guildEnable g v (some ws)) s fun t => boots t ∧ (t.guild G).pollStopped = false) ∧
        Answers (.guildEnable g v none) s fun t => boots t ∧ (t.guild G).pollStopped = true ∧
          t.getB (Reg.GLD_STATUS G) Fld.GLD_STATUS_DMA_ERR = true) ∧
      (∀ ws, s.gldOn G = true ∨ s.gldLink G = none ∨ v.toNat.testBit 31 = false →
        Answers (.guildEnable g v ws) s (· = s)) ∧
      (v.toNat.testBit 31 = false → known → Answers (.guildDisable g v) s fun t => off G t ∧ SameMem s t ∧
        ∀ h < 8, h ≠ G → keeps h t) ∧
      (v.toNat.testBit 31 = true → Answers (.guildDisable g v) s (· = s))) ∧
    (∀ k : Fin 4,
      let a := Reg.HIF_LINK_STATUS k.val
      (known → Answers (.linkDown k) s (lost k.val)) ∧
      (known → k.val < linkCount s → Answers (.linkReset k) s fun t => lost k.val t ∧
        t.getB a Fld.HIF_LINK_STATUS_PERST = true ∧ ∀ v < 2048, msixMasked t k.val v = true) ∧
      (linkCount s ≤ k.val → Answers (.linkReset k) s (· = s)) ∧
      (∀ (w : Fin 17) (v : Fin 6), (k.val < linkCount s → Answers (.pcieLinkUp k w v) s fun t =>
          t.getB a Fld.HIF_LINK_STATUS_UP = true ∧ t.getB a Fld.HIF_LINK_STATUS_PERST = false ∧
          t.get a Fld.HIF_LINK_STATUS_WIDTH = w.val ∧ t.get a Fld.HIF_LINK_STATUS_SPEED = v.val ∧
            OnlyRegsOf [a] s t) ∧
        (linkCount s ≤ k.val → Answers (.pcieLinkUp k w v) s (· = s))) ∧
      (∀ (g : Guild) off_ v,
        (s.gldLink g.val ≠ some k.val → (Answers (.guildPageForeignAccess k (.readPage g off_)) s fun t => violates t ∧
            t.out = .read (.link k) (guildPageBase g.val + off_.val) 0#32 :: s.out) ∧
          Answers (.guildPageForeignAccess k (.writePage g off_ v)) s fun t => violates t ∧
            OnlyRegsOf [Reg.HIF_EVENT, Reg.HIF_CNT_LO 3, Reg.HIF_CNT_LO 3 + 4] s t) ∧
        (s.gldLink g.val = some k.val → Answers (.guildPageForeignAccess k (.writePage g off_ v)) s (· = s))) ∧
      ∀ off_ v,
        (inWindow s k.val off_.val = false → (Answers (.guildPageForeignAccess k (.readWindow off_)) s fun t =>
            violates t ∧ t.out = .read (.link k) (windowAddr off_.val) 0#32 :: s.out) ∧
          Answers (.guildPageForeignAccess k (.writeWindow off_ v)) s fun t => violates t ∧ SameMem s t) ∧
        (inWindow s k.val off_.val = true →
          let a := 0x600000000 + off_.val / 4 * 4
          (hbmReady s = false → (Answers (.guildPageForeignAccess k (.readWindow off_)) s fun t =>
              t.out = .read (.link k) (windowAddr off_.val) 0#32 :: s.out ∧ t.regs = s.regs) ∧
            Answers (.guildPageForeignAccess k (.writeWindow off_ v)) s (· = s)) ∧
          (hbmReady s = true → s.sound → (s.hbm.adds = [] →
            Answers (.guildPageForeignAccess k (.readWindow off_)) s fun t =>
              .read (.link k) (windowAddr off_.val) (BitVec.ofNat 32 (leVal (s.mrd a 4))) ∈ t.out ∧ SameMem s t) ∧
            Answers (.guildPageForeignAccess k (.writeWindow off_ v)) s fun t =>
              t.mrd a 4 = leBytes 4 v.toNat ∧ (s.hbm.adds = [] → SameMemBut a 4 s t))))

/-- Doorbells, commands and messages (R336, R338, R340, R341, R344, R348). A poll takes each enabled ring's index, but
for one that claims more than N entries, whether its word changed or not, and sets the interval: the shortest
where a word changed, else twice as long. A command starts with a slot reserved on its CPL ring; one that a check
refuses, or whose CPL_RING is none, completes with its code; without a slot it waits. An armed ring whose oldest
descriptor is old enough sends its message and is disarmed. A failed DMA stops its ring, and its command completes
with DMA_ERROR. Choices of the model that it rests on: log 1 (DESIGN CHOICE), log 20 (PRESUMED), log 21 (DEDUCED),
log 89 (DEDUCED), log 93 (DEDUCED), log 94 (DEDUCED). -/
def Obligations.DoorbellsStartCommandsInOrder : Prop :=
  ∀ (s : State) (g : Guild), s.running →
    let G := g.val
    let failed (t : State) : Prop := (t.guild G).pollStopped = true ∧
      t.getB (Reg.GLD_STATUS G) Fld.GLD_STATUS_DMA_ERR = true ∧ Counts (Reg.GLD_CNT_LO G 10) 1 s t
    let stops (r : Nat) (t : State) : Prop := (t.ring G r).stopping = true ∧
      t.getB (Reg.GLD_STATUS G) Fld.GLD_STATUS_DMA_ERR = true ∧ Counts (Reg.GLD_CNT_LO G 10) 1 s t
    let polls := s.gldOn G = true ∧ (s.guild G).pollStopped = false
    (∀ ws : List Word, polls → Answers (.doorbellPoll g (some ws)) s fun t =>
      let fresh (j : Nat) : Prop := (s.ring G j).baseline = false ∨ (s.ring G j).word ≠ ws.getD j 0#32
      let poll (t : State) := t.get (Reg.GLD_STATUS G) Fld.GLD_STATUS_POLL
      Counts (Reg.GLD_CNT_LO G 9) 1 s t ∧ SameMem s t ∧ t.out = s.out ∧
      (∀ j, (s.ring G j).enabled = true →
        let h := bits (ws.getD j 0#32).toNat 16 0
        ((s.ring G j).idxBad h = false → (t.ring G j).h = h) ∧
        ((s.ring G j).idxBad h = true → (t.ring G j).h = (s.ring G j).h ∧
          t.getB (Reg.GLD_STATUS G) Fld.GLD_STATUS_IDX_ERR = true)) ∧
      ((∃ j ∈ enabledRings s G, fresh j) → poll t = (pollBounds s G).1) ∧
      ((∀ j ∈ enabledRings s G, ¬ fresh j) → poll t = min (pollBounds s G).2 (2 * poll s))) ∧
    (polls → Answers (.doorbellPoll g none) s failed) ∧
    (∀ ws, ¬ polls → Answers (.doorbellPoll g ws) s (· = s)) ∧
    (∀ ring : Fin 1024,
      let r := ring.val
      let x := s.ring G r
      let starts := s.gldOn G = true ∧ x.ready = true ∧ x.kind = 0 ∧ x.cmd = none
      let punted := ∀ p ∈ (s.guild G).punts, p.ring = r → p.station < 12 ∧ p.xf.frame.known
      (∀ d : List Byte, starts → d.length = 32 →
        let valid := cplValid s G (descCpl d) = true
        let refusal := descRefusal d G (s.get Reg.VRV_CFG Fld.VRV_CFG_OWNER)
        let room (q : Nat) : Prop := (s.ring G q).enabled = true ∧ (s.ring G q).unread + (s.ring G q).reserved <
          (s.ring G q).n
        let c (q : Nat) : Cmd := { desc := d, index := x.d, cplRing := q }
        (valid → room (descCpl d) → refusal = none → Answers (.cmdStart g ring (some d)) s fun t =>
          (t.ring G r).cmd = some (c (descCpl d)) ∧ t.out = s.out ∧
          (t.ring G (descCpl d)).reserved = (s.ring G (descCpl d)).reserved + 1) ∧
        (∀ code, valid → room (descCpl d) → refusal = some code → Answers (.cmdStart g ring (some d)) s fun t =>
          CompletedWith G r (c (descCpl d)) code [] s t ∧ SameMem s t) ∧
        (¬ valid → room 1 → Answers (.cmdStart g ring (some d)) s fun t =>
          CompletedWith G r (c 1) (refusal.getD 4) [] s t ∧ SameMem s t) ∧
        (valid → ¬ room (descCpl d) → Answers (.cmdStart g ring (some d)) s fun t => t.hif = s.hif ∧
          t.out = s.out)) ∧
      (starts → punted → Answers (.cmdStart g ring none) s (stops r)) ∧
      (∀ d, ¬ starts → Answers (.cmdStart g ring d) s (· = s)) ∧
      (∀ k, x.enabled = true → x.irqEn = true → x.armed = true → x.modUsec ≠ 0 → x.first ≠ none →
        s.gldLink G = some k →
        msixMasked s k x.vector = false → Answers (.msixModerationTimer g ring) s fun t =>
          t.out = .msix k x.vector :: s.out ∧ (t.ring G r).armed = false ∧ (t.ring G r).first = none ∧
          Counts (Reg.GLD_CNT_LO G 8) 1 s t) ∧
      (x.armed = false ∨ x.modUsec = 0 ∨ x.first = none → Answers (.msixModerationTimer g ring) s (· = s)) ∧
      (s.gldOn G = true → Answers (.dmaFailure g ring true) s failed) ∧
      (s.gldOn G = true → x.enabled = true → punted → Answers (.dmaFailure g ring false) s fun t => stops r t ∧
        ∀ c, x.cmd = some c → c.orphan = false → (s.ring G c.cplRing).enabled = true →
          CompletedWith G r c 6 [] s t) ∧
      (s.gldOn G = false → Answers (.dmaFailure g ring false) s (· = s)))

/-- The host-interface commands (R342, Table 18.8). NOP echoes bytes 8 to 15; RING_SET configures a ring that is not
enabled, and enables it with its doorbell word, or is refused with BAD_RING, BAD_PARAM or RING_LIMIT; RING_PARAM
sets its moderation, and a PNT ring's buffer length and reasons; RING_STOP drops the frames that wait for the ring
and completes, with D, once the ring is quiet and disabled; GLD_INFO returns Guild, link, base and count. Choices
of the model that it rests on: log 1 (DESIGN CHOICE), log 89 (DEDUCED), log 91 (DEDUCED), log 94 (DEDUCED). -/
def Obligations.RingCommandsSetAndStopRings : Prop :=
  ∀ (s : State) (g : Guild) (ring : Fin 1024) (c : Cmd),
    let G := g.val
    let q := ring.val
    let ready := CmdReady s G q
    let ends (status : Nat) (result : List Byte) (t : State) : Prop := CompletedWith G q c status result s t
    let count := s.get (Reg.HIF_GUILD_RINGS G) Fld.HIF_GUILD_RINGS_COUNT
    (ready 0x00 c → Answers (.nop g ring) s fun t => ends 0 ((c.desc.drop 8).take 8) t ∧ SameMem s t ∧
      t.stations = s.stations) ∧
    (∀ k, ready 0x04 c → s.gldLink G = some k → Answers (.gldInfo g ring) s fun t => SameMem s t ∧
      ends 0 (leBytes 1 G ++
      leBytes 1 k ++ leBytes 2 (s.get (Reg.HIF_GUILD_RINGS G) Fld.HIF_GUILD_RINGS_BASE) ++ leBytes 2 count) t) ∧
    (let r := descField c.desc 0 10
     let kind := descField c.desc 16 3
     let log2n := descField c.desc 24 5
     let base := descField c.desc 64 64
     let cons := descField c.desc 128 64
     let enable := descField c.desc 49 1
     let bad := r < 2 ∨ count ≤ r ∨ (s.ring G r).enabled = true
     let odd := 5 < kind ∨ log2n < 4 ∨ 16 < log2n ∨ base % 4096 ≠ 0 ∨ (if kind = 4 then cons % 8 else cons) ≠ 0
     let second := enable = 1 ∧ (kind = 2 ∨ kind = 5) ∧ kindRing s G kind ≠ none
     let set (t : State) : Prop := let x := t.ring G r
       x.kind = kind ∧ x.log2n = log2n ∧ x.base = base ∧ x.cons = cons ∧ x.vector = descField c.desc 32 11 ∧
       x.irqEn = (descField c.desc 48 1 == 1) ∧ x.d = 0 ∧ x.modCount = (s.ring G r).modCount ∧
       x.bufLen = (s.ring G r).bufLen ∧ x.reasonMask = (s.ring G r).reasonMask
     ready 0x01 c → r ≠ q →
      (∀ db, bad → Answers (.ringSet g ring db) s fun t => ends 4 [] t ∧ (r ≠ c.cplRing → t.ring G r = s.ring G r)) ∧
      (∀ db, ¬ bad → odd → Answers (.ringSet g ring db) s fun t => ends 5 [] t ∧ t.ring G r = s.ring G r) ∧
      (∀ db, ¬ bad → ¬ odd → second → Answers (.ringSet g ring db) s fun t => ends 7 [] t ∧
        t.ring G r = s.ring G r) ∧
      (∀ db, ¬ bad → ¬ odd → enable = 0 → Answers (.ringSet g ring db) s fun t => ends 0 [] t ∧ set t ∧
        (t.ring G r).enabled = false) ∧
      (∀ w : Word, ¬ bad → ¬ odd → enable = 1 → ¬ second →
        Answers (.ringSet g ring (some w)) s fun t => ends 0 [] t ∧
        set t ∧ (t.ring G r).enabled = true ∧ (t.ring G r).armed = true ∧
        (kind = 0 ∨ kind = 3 ∨ kind = 4 → bits w.toNat 16 0 ≤ 2 ^ log2n → (t.ring G r).h = bits w.toNat 16 0)) ∧
      (¬ bad → ¬ odd → enable = 1 → ¬ second → Answers (.ringSet g ring none) s fun t => ends 6 [] t ∧
        (t.ring G r).enabled = false ∧ (t.guild G).pollStopped = true)) ∧
    (let r := descField c.desc 0 16
     let x := s.ring G r
     let len := descField c.desc 48 16
     ready 0x02 c → (count ≤ r → Answers (.ringParam g ring) s fun t => ends 4 [] t) ∧
      (r < count → x.configured = true → x.kind = 3 → len % 64 ≠ 0 ∨ len < 256 ∨ 16384 < len →
        Answers (.ringParam g ring) s fun t => ends 5 [] t) ∧
      (r < count → x.configured = true → (x.kind = 3 → len % 64 = 0 ∧ 256 ≤ len ∧ len ≤ 16384) →
        Answers (.ringParam g ring) s fun t => ends 0 [] t ∧ (t.ring G r).modCount = descField c.desc 16 16 ∧
          (t.ring G r).modUsec = descField c.desc 32 16 ∧
          (t.ring G r).bufLen = (if x.kind = 3 then len else x.bufLen) ∧
          (t.ring G r).reasonMask = if x.kind = 3 then descField c.desc 64 64 else x.reasonMask)) ∧
    (let r := descField c.desc 0 16
     let x := s.ring G r
     ready 0x03 c →
      (r < 2 ∨ count ≤ r ∨ r = q ∨ x.enabled = false ∨ x.stopping = true → Answers (.ringStop g ring) s fun t =>
        ends 4 [] t ∧ SameMem s t) ∧
      (2 ≤ r → r < count → r ≠ q → x.enabled = true → x.stopping = false →
        (∀ p ∈ (s.guild G).punts, p.ring = r → p.station < 12 ∧ p.xf.frame.known) →
          Answers (.ringStop g ring) s fun t =>
          (t.ring G r).stopping = true ∧ (t.ring G r).stopFor = some (G, q) ∧ (t.ring G q).cmd.isSome ∧
            t.out = s.out ∧
          (∀ p ∈ (t.guild G).punts, p.ring ≠ r) ∧
          ∀ p ∈ (s.guild G).punts, p.ring ≠ r → p ∈ (t.guild G).punts)) ∧
    (∀ r : Fin 1024, s.running →
      let x := s.ring G r.val
      let quiet := x.enabled = true ∧ x.stopping = true ∧ x.cmd = none
      (∀ d, quiet → x.stopFor = some (G, q) → waitingCmd s G q 3 = some d → d.orphan = false → q ≠ r.val →
        (s.ring G d.cplRing).enabled = true →
        (d.cplRing ≠ r.val → x.reserved = 0 →
          Answers (.ringQuiesced g r) s fun t => (t.ring G r.val).enabled = false ∧
          CompletedWith G q d 0 (leBytes 4 x.d) s t) ∧
        (d.cplRing = r.val → x.reserved = 1 →
          Answers (.ringQuiesced g r) s fun t => (t.ring G r.val).enabled = false ∧
          CompletedWith G q d 0 (leBytes 4 ((x.d + 1) % 131072)) s t)) ∧
      (quiet → x.stopFor = none → x.reserved = 0 → Answers (.ringQuiesced g r) s fun t =>
        (t.ring G r.val).enabled = false ∧ t.out = s.out ∧ t.regs = s.regs) ∧
      (¬ quiet → Answers (.ringQuiesced g r) s (· = s)))

/-- Punts and injects (R279, R345, R346). A punted frame that its bucket admits is staged in a block of its Guild's
share and waits for the lowest ring of its reason; each stage that refuses it counts it; with no block to be had
it waits at crossbar port 12, which is counted once. The first frame of a ring is written into the posted buffer,
cut to BUF_LEN, and then its descriptor; its block is free again. An inject's frame is read into a block, its
ring's D advances and goes to CONS_ADDR, and it waits for its station; a descriptor out of range is consumed and
counted. Choices of the model that it rests on: log 1 (DESIGN CHOICE), log 70 (DEDUCED), log 82 (DEDUCED), log 92
(DEDUCED), log 93 (DEDUCED). -/
def Obligations.PuntsAndInjectsPassTheirStages : Prop :=
  (∀ (s : State) (st : Station) (cls : Fin 8) (x : Context), s.running → s.sound →
    s.ctx? st.val 12 cls.val = some x → x.cellsLeft = 0 → x.xf.kind ≠ .mcCopy → x.xf.frame.poison = false →
    x.xf.frame.known → x.xf.guild < 8 → x.xf.reason < 64 → s.poolDrain = none → x.passed = false →
    let g := x.xf.guild
    let f := x.xf.frame
    let admits := (bucketTake g x.xf.reason s).1 = true
    let fits := (s.guild g).puntBytes + f.len ≤ stageLimit s g
    let punts (t : State) := (t.guild g).punts
    let crossed (t : State) : Prop := t.ctx? st.val 12 cls.val = none
    let pool := poolFor s false f.len
    (¬ admits → Answers (.puntArrival st cls) s fun t => crossed t ∧ punts t = punts s ∧
      Counts (Reg.HIF_PUNT_DROP_LO g x.xf.reason) 1 s t ∧ SameMem s t) ∧
    (admits → ¬ fits → Answers (.puntArrival st cls) s fun t => crossed t ∧ punts t = punts s ∧
      Counts (Reg.GLD_CNT_LO g 4) 1 s t ∧ SameMem s t) ∧
    (admits → fits → pool = none → Answers (.puntArrival st cls) s fun t => punts t = punts s ∧ SameMem s t ∧
      t.ctx? st.val 12 cls.val = some { x with passed := true } ∧
      (1168 * st.val + 8 * 144 + cls.val ∉ s.coop.refusing → Counts (Reg.COOP_CNT_LO 1) 1 s t)) ∧
    (∀ n, admits → fits → pool = some n → puntRing s g x.xf.reason = none →
      Answers (.puntArrival st cls) s fun t => crossed t ∧
      punts t = punts s ∧ Counts (Reg.GLD_CNT_LO g 5) 1 s t) ∧
    (∀ n r, admits → fits → pool = some n → puntRing s g x.xf.reason = some r →
      Answers (.puntArrival st cls) s fun t => crossed t ∧
      ∃ p, punts t = punts s ++ [p] ∧ p.xf = x.xf ∧ p.ring = r ∧ p.pool = n ∧
        t.mrd (blockAddr n p.block) f.bytes.length = f.bytes ∧
        (t.guild g).puntBytes = (s.guild g).puntBytes + f.len)) ∧
  (∀ (s : State) (g : Guild) (ring : Fin 1024), s.running →
    let G := g.val
    let r := ring.val
    let x := s.ring G r
    (∀ p d, s.sound → (s.guild G).punts.find? (fun p => p.ring == r) = some p → x.ready = true → x.kind = 3 →
      p.xf.frame.known → Answers (.puntDelivery g ring (some d)) s fun t =>
        let b := s.mrd (blockAddr p.pool p.block) p.xf.frame.bytes.length
        let cut := decide (x.bufLen < p.xf.frame.len)
        (t.guild G).punts = (s.guild G).punts.erase p ∧ (t.ring G r).d = (x.d + 1) % 131072 ∧ SameMem s t ∧
        .dma G (s.pasid G) (le d 8 8) ((b ++ fcsOf b).take x.bufLen) ∈ t.out ∧
        (∃ ph, .dma G (s.pasid G) x.slotAddr ((pntDesc p.xf (le d 8 8) cut).set 1 ph) ∈ t.out) ∧
        Counts (Reg.GLD_CNT_LO G 3) 1 s t ∧ (cut = true → Counts (Reg.GLD_CNT_LO G 6) 1 s t)) ∧
    (∀ d, (∀ p ∈ (s.guild G).punts, p.ring ≠ r) ∨ x.ready = false → Answers (.puntDelivery g ring d) s (· = s)) ∧
    (∀ (d : List Byte) frame, s.gldOn G = true → x.ready = true → x.kind = 4 → s.poolDrain = none →
      let len := le d 4 2 % 16384
      let st := le d 0 1 % 16
      let bad := len < 64 ∨ 16000 < len ∨ 11 < st
      let taken (t : State) : Prop := (t.ring G r).d = (x.d + 1) % 131072 ∧
        .dma G (s.pasid G) x.cons (leBytes 4 ((x.d + 1) % 131072)) ∈ t.out
      (bad → Answers (.injFetch g ring (some d) frame) s fun t => taken t ∧ t.hif.injects = s.hif.injects ∧
        Counts (Reg.GLD_CNT_LO G 2) 1 s t ∧ SameMem s t) ∧
      (¬ bad → poolFor s true len = none → Answers (.injFetch g ring (some d) frame) s fun t => t.hif = s.hif ∧
        Counts (Reg.COOP_CNT_LO 0) 1 s t) ∧
      (∀ n b, ¬ bad → poolFor s true len = some n → frame = some b → b.length = len →
        Answers (.injFetch g ring (some d) frame) s fun t => taken t ∧ Counts (Reg.GLD_CNT_LO G 1) 1 s t ∧
          ∃ j, t.hif.injects = s.hif.injects ++ [j] ∧ j.frame = injFrame G d (b.take (len - 4)) ∧ j.guild = G ∧
            j.ring = r ∧ j.station = st ∧ j.pool = n ∧ j.crossing = false ∧
            t.mrd (blockAddr n j.block) (len - 4) = b.take (len - 4))) ∧
    (∀ d frame, s.gldOn G = false ∨ x.ready = false ∨ x.kind ≠ 4 ∨ s.poolDrain ≠ none →
      Answers (.injFetch g ring d frame) s (· = s)))

/-- R337: a slot that the device writes (`ringWrite` is the one way it does) carries its PHASE in bit 7 of byte 1, 1
on the first pass round the ring, 0 on the second and so on; every other bit is the descriptor's own, and D
advances. -/
def Obligations.EverySlotCarriesItsPhase : Prop :=
  ∀ (s : State) (g r : Nat) (desc : List Byte), 1 < desc.length →
    let x := s.ring g r
    let t := ringWrite g r desc s
    (t.ring g r).d = (x.d + 1) % 131072 ∧ ∃ new b1, t.out = new ++ s.out ∧
      .dma g (s.pasid g) x.slotAddr (desc.set 1 b1) ∈ new ∧
      b1.toNat = (desc.getD 1 0#8).toNat % 128 + 128 * (1 - x.d / x.n % 2) ∧
      (x.d < x.n → b1.toNat / 128 = 1) ∧ (x.n ≤ x.d → x.d < 2 * x.n → b1.toNat / 128 = 0)

/-! ### Interrupts (ch. 19) -/

/-- Pending, claim and complete (R354, R355, R357 to R359). A source that is enabled, high and not in service becomes
pending; a message to an enabled source makes it pending, is merged with one that is, or is dropped and counted. A
claim takes the deliverable source of the highest priority and, among those, the lowest number, puts it in service
and says whether its level is high; a claim of nothing reads 0 and is counted. A complete takes its source out of
service; a level source that is still high is pending again. Choices of the model that it rests on: log 1 (DESIGN
CHOICE), log 95 (DEDUCED). -/
def Obligations.SourcesArePendingClaimedAndCompleted : Prop :=
  ∀ s : State, s.running →
    (∀ (target : Option (Fin 12)) (source : Fin 4096), target.isSome = irqPrivate source.val →
      let n := source.val
      let t := irqTarget s (target.elim 0 Fin.val) n
      let rises := irqEnabled s t n = true ∧ irqLevel s t n = true ∧ serving s t n = false
      (rises → Answers (.irqLevelRise target source) s fun u => irqPending u t n = true ∧
        (∀ k m, m ≠ n → irqPending u k m = irqPending s k m) ∧
        SameRegsBut (if irqPrivate n then [] else [Reg.IRQ_PEND (n / 32)]) s u ∧ u.out = s.out ∧ SameMem s u) ∧
      (¬ rises → Answers (.irqLevelRise target source) s (· = s))) ∧
    (∀ (req : Requester) (v : Word),
      let n := Fld.IRQ_MSG_DOORBELL_NUMBER.of v
      let cnt (k : Nat) (u : State) := Counts (Reg.IRQ_CNT_LO k) 1 s u
      let message := 1024 ≤ n ∧ n < 3072
      (reachesBar0 s req = true → message → irqEnabled s 0 n = true →
        Answers (.irqMsgDoorbell req v) s fun u => cnt 0 u ∧ irqPending u 0 n = true ∧ SameMem s u ∧
          (irqPending s 0 n = true → cnt 1 u)) ∧
      (reachesBar0 s req = true → message → irqEnabled s 0 n = false →
        Answers (.irqMsgDoorbell req v) s fun u => cnt 0 u ∧ cnt 2 u ∧ irqPending u 0 n = irqPending s 0 n) ∧
      (reachesBar0 s req = true → ¬ message → Answers (.irqMsgDoorbell req v) s fun u => cnt 0 u ∧
        u.getB Reg.IRQ_STATUS Fld.IRQ_STATUS_BAD_MSG = true ∧
        OnlyRegsOf [Reg.IRQ_STATUS, Reg.IRQ_CNT_LO 0, Reg.IRQ_CNT_LO 0 + 4] s u) ∧
      (reachesBar0 s req = false → Answers (.irqMsgDoorbell req v) s (· = s))) ∧
    (∀ (req : Requester) (target : Fin 12),
      let t := target.val
      let a := Reg.IRQ_TGT_CLAIM t
      let cnt (k : Nat) (u : State) := Counts (Reg.IRQ_TGT_CNT_LO t k) 1 s u
      let calm := ∀ x ∈ s.irq.ghosts, x.target = t → x.at_ + 48 < s.now
      let reaches := reachesTarget s req t = true
      (reaches → calm → deliverable s t = [] → Answers (.irqClaim req target) s fun u =>
        u.out = .read req a 0#32 :: s.out ∧ cnt 1 u ∧ irqService u t = irqService s t ∧
        u.getB (Reg.IRQ_TGT_STATUS t) Fld.IRQ_TGT_STATUS_SIGNALLED = false) ∧
      (∀ n p, reaches → calm → (n, p) ∈ deliverable s t → (∀ x ∈ deliverable s t, x.2 < p ∨ x.2 = p ∧ n ≤ x.1) →
        Answers (.irqClaim req target) s fun u =>
          let live := 1024 ≤ n ∨ irqLevel s t n = true
          (live → u.out = .read req a (BitVec.ofNat 32 (2 ^ 31 + p * 65536 + n)) :: s.out ∧ cnt 0 u) ∧
          (¬ live → u.out = .read req a (BitVec.ofNat 32 (p * 65536 + n)) :: s.out ∧ cnt 0 u ∧ cnt 2 u) ∧
          irqService u t = (n, p) :: irqService s t ∧ irqPending u t n = false ∧
          u.getB (Reg.IRQ_TGT_STATUS t) Fld.IRQ_TGT_STATUS_SIGNALLED = false) ∧
      (¬ reaches → 4 ≤ t → Answers (.irqClaim req target) s fun u => u.out = .read req a 0#32 :: s.out ∧
        u.irq = s.irq ∧ u.getB Reg.HIF_EVENT Fld.HIF_EVENT_ISO_VIOL = true) ∧
      (¬ reaches → t < 4 → Answers (.irqClaim req target) s (· = s)) ∧
      ∀ v : Word,
        let n := Fld.IRQ_TGT_COMPLETE_NUMBER.of v
        (reaches → inService s t n = false → Answers (.irqComplete req target v) s fun u =>
          u.getB Reg.IRQ_STATUS Fld.IRQ_STATUS_BAD_COMPLETE = true ∧ OnlyRegsOf [Reg.IRQ_STATUS] s u) ∧
        (reaches → inService s t n = true → Answers (.irqComplete req target v) s fun u =>
          irqService u t = (irqService s t).filter (fun x => x.1 != n) ∧ u.out = s.out ∧ SameMem s u ∧
          irqPending u t n = (irqPending s t n ||
            (decide (n < 1024) && irqEnabled s t n && irqLevel s t n))) ∧
        (¬ reaches → t < 4 → Answers (.irqComplete req target v) s (· = s)) ∧
        (¬ reaches → 4 ≤ t → Answers (.irqComplete req target v) s fun u => u.irq = s.irq ∧
          u.getB Reg.HIF_EVENT Fld.HIF_EVENT_ISO_VIOL = true))

/-- Set-up and signals (R356, R360, R361, R363, R365). A write of priorities or routes changes the fields of sources
whose enable bit is 0 alone, and CFG_ERR latches where it would change another. Enables are written by whoever
reaches their register. A source that is disabled is no longer pending; a level source that is enabled while its
level is high is pending. While a source is deliverable and MASK is 0, a Guild's target sends one message until
the next claim, and a housekeeping target queues one job where its queue has room. Choices of the model that it
rests on: log 1 (DESIGN CHOICE), log 95 (DEDUCED), log 115 (DEDUCED). -/
def Obligations.SourcesAreSetUpAndSignalled : Prop :=
  ∀ s : State, s.running →
    (∀ (a t first : Nat) (mine : Nat → Bool) (v : Word),
      ((∃ k < 384, (a = Reg.IRQ_SRC_PRIO k ∨ a = Reg.IRQ_SRC_ROUTE k) ∧ first = 8 * k ∧ t = 0 ∧ mine = irqRouted) ∨
        t < 12 ∧ ∃ h < 2, a = Reg.IRQ_TGT_PRIV_PRIO t h ∧ first = 16 + 8 * h ∧ mine = irqPrivate) →
      Answers (.irqCfgWrite a v) s fun u =>
        let nib (w : Word) (j : Nat) := w.toNat / 16 ^ j % 16
        let fixed (j : Nat) : Prop := mine (first + j) = true ∧ irqEnBit s t (first + j) = true ∧
          nib v j ≠ nib (s.rd a) j
        (∀ j < 8, nib (u.rd a) j =
          if mine (first + j) = true ∧ irqEnBit s t (first + j) = false then nib v j else nib (s.rd a) j) ∧
        ((∃ j < 8, fixed j) → u.getB Reg.IRQ_STATUS Fld.IRQ_STATUS_CFG_ERR = true) ∧
        ((∀ j < 8, ¬ fixed j) → u.rd Reg.IRQ_STATUS = s.rd Reg.IRQ_STATUS) ∧ OnlyRegsOf [Reg.IRQ_STATUS, a] s u) ∧
    (∀ (req : Requester) (b a t first count : Nat) (mine : Nat → Bool) (v : Word), b % 4 = 0 → homeAddr b = a →
      ((∃ w < 96, a = Reg.IRQ_SRC_EN w ∧ first = 32 * w ∧ count = 32 ∧ t = 0 ∧ mine = irqRouted) ∨
        t < 12 ∧ a = Reg.IRQ_TGT_PRIV_EN t ∧ first = 16 ∧ count = 16 ∧ mine = irqPrivate) →
      (placeOf s req b = .none ∨ placeOf s req b = .setup ∧ mayWrite req b = false →
        Answers (.irqEnableWrite req b v) s (· = s)) ∧
      (placeOf s req b = .foreign → Answers (.irqEnableWrite req b v) s fun u => u.irq = s.irq ∧
        u.getB Reg.HIF_EVENT Fld.HIF_EVENT_ISO_VIOL = true) ∧
      ((placeOf s req b = .setup ∧ mayWrite req b = true ∨ ∃ g, placeOf s req b = .page g) →
        Answers (.irqEnableWrite req b v) s fun u => u.out = s.out ∧ SameMem s u ∧
        SameRegsBut [a, Reg.IRQ_PEND (first / 32)] s u ∧ ∀ k < count,
          let n := first + k
          let q := irqTarget s t n
          mine n = true → irqEnBit u t n = v.toNat.testBit k ∧
            (irqEnabled s t n = true → v.toNat.testBit k = false → irqPending u q n = false) ∧
            (irqEnabled s t n = irqEnabled u t n → irqPending u q n = irqPending s q n) ∧
            (irqEnabled s t n = false → irqEnabled u t n = true → irqPending u q n =
              (irqPending s q n || (irqLevel s q n && !serving s q n))))) ∧
    (∀ target : Fin 12,
      let t := target.val
      let g := t - 4
      let sends (vec k : Nat) (u : State) : Prop := u.out = .msix k vec :: s.out ∧
        u.getB (Reg.IRQ_TGT_STATUS t) Fld.IRQ_TGT_STATUS_SIGNALLED = true ∧ Counts (Reg.IRQ_TGT_CNT_LO t 3) 1 s u
      let waits := deliverable s t = [] ∨ irqMasked s t = true
      (waits → Answers (.irqSignal target) s (· = s)) ∧
      (∀ vec k, ¬ waits → 4 ≤ t → s.getB (Reg.IRQ_TGT_STATUS t) Fld.IRQ_TGT_STATUS_SIGNALLED = false →
        s.gldOn g = true → s.getB (Reg.GLD_IRQ_VEC g) Fld.GLD_IRQ_VEC_IRQ_EN = true →
        vec = s.get (Reg.GLD_IRQ_VEC g) Fld.GLD_IRQ_VEC_VECTOR → s.gldLink g = some k → msixMasked s k vec = false →
        Answers (.irqSignal target) s fun u => sends vec k u ∧
          (∀ v : Word, Fld.IRQ_TGT_CTL_MASK.of v = 0 → Fld.IRQ_TGT_CTL_THRESH.of v =
            s.get (Reg.IRQ_TGT_CTL t) Fld.IRQ_TGT_CTL_THRESH → Answers (.irqMaskWrite target v) s (sends vec k))) ∧
      (4 ≤ t → s.getB (Reg.IRQ_TGT_STATUS t) Fld.IRQ_TGT_STATUS_SIGNALLED = true →
        Answers (.irqSignal target) s (· = s)) ∧
      (¬ waits → t < 4 → Answers (.irqSignal target) s fun u => u.regs = s.regs ∧ u.out = s.out ∧
        if hkFull s t = true ∨ ∃ j ∈ (s.hkEng t).queue, j.kind = 0 then u = s
        else (u.hkEng t).queue = (s.hkEng t).queue ++ [{ kind := 0, op := 0 }]) ∧
      (∀ v : Word, Fld.IRQ_TGT_CTL_MASK.of v = 1 → Answers (.irqMaskWrite target v) s fun u =>
        irqMasked u t = true ∧ u.get (Reg.IRQ_TGT_CTL t) Fld.IRQ_TGT_CTL_THRESH = Fld.IRQ_TGT_CTL_THRESH.of v ∧
        OnlyRegsOf [Reg.IRQ_TGT_CTL t] s u))

/-- R377, R388, R427: a source of the memory controller, of the Tallyman and of the boot block is high while the event
bits that it stands for are set together with their enables, and an unassigned number never is. -/
def Obligations.LevelSourcesFollowTheirEvents : Prop :=
  ∀ (s : State) (t : Nat),
    let both (ev en k : Nat) : Prop := (s.rdN ev).testBit k = true ∧ (s.rdN en).testBit k = true
    (∀ k < 6, irqLevel s t (240 + k) = true ↔ both Reg.HBM_EVENT Reg.HBM_EVENT_EN k) ∧
    (irqLevel s t 248 = true ↔
      ∃ st < 12, ∃ w < 2, ∃ k, both (Reg.STN_EV_OVF st w) (Reg.STN_EV_OVF_EN st w) k) ∧
    (irqLevel s t 249 = true ↔ ∃ k, both Reg.TLY_EVENT Reg.TLY_EVENT_EN k) ∧
    (∀ k < 6, irqLevel s t (280 + k) = true ↔ both Reg.BOOT_EVENT Reg.BOOT_EVENT_EN k) ∧
    ∀ n ∈ [246, 247, 250, 251, 252, 253, 254, 255, 286, 287], irqLevel s t n = false

/-! ### Memory controller (ch. 20) -/

/-- HBM_ACCESS, HBM_WRITE_DRAIN and POSTED_ADD_EXECUTE (R366, R367, R369 to R372, R374). A read of a block with no
write in the hazard table returns its bytes at once; behind a write it waits until that write has drained, and
then returns the written data; ahead of a read, a stack that has been more than three-quarters full, and not yet
half full since, issues writes until it is half full. A read may meet an error that has arisen in its burst, which
the sender names with it in burst A / 32 (the model's choice, log 137): corrected, or marked poisoned, and
counted. A write is what its bytes then read as, and no other byte changes; an accepted add is executed modulo
2⁶⁴. An address of the reserved partition reads 0, and is counted; before both stacks have trained no access
reaches them. Choices of the model that it rests on: log 1 (DESIGN CHOICE), log 96 (DEDUCED), log 97 (DESIGN
CHOICE), log 137 (DESIGN CHOICE). -/
def Obligations.AccessesToABlockAreExecutedInOrder : Prop :=
  ∀ s : State, s.running → s.sound →
    let h (t : State) := t.hbm
    (∀ (port : Fin 6) (a : Nat), let p := port.val
      let b := a / 64
      let reaches (read : Bool) := portReaches p a read = true ∧ hbmReady s = true ∧ ¬ (p = 3 ∧ hbmReserved a = true)
      let ofStack (t : State) := stackWrites t (hbmPlace b).stack
      let stack := (hbmPlace b).stack
      let few := (ofStack s).length ≤ 256 ∨ (ofStack s).length ≤ 384 ∧ stack ∉ s.hbm.ahead
      (reaches true → s.hbm.adds = [] → few → b ∉ s.hbm.writes → Answers (.hbmAccess port (.read a)) s fun t =>
        t.out = .hbmData p (64 * b) (s.mrd (64 * b) 64) false :: s.out ∧ SameMem s t ∧
          Counts (Reg.HBM_CNT_LO 0) 1 s t) ∧
      (∀ u : Bool, reaches true → s.hbm.adds = [] → few → b ∉ s.hbm.writes →
        Answers (.hbmAccess port (.readError a u)) s fun t =>
          t.out = .hbmData p (64 * b) (s.mrd (64 * b) 64) u :: s.out ∧ SameMem s t ∧
            Counts (Reg.HBM_CNT_LO 0) 1 s t ∧
          Counts (Reg.HBM_CNT_LO (if u then 5 else 4)) 1 s t ∧ t.hbm.bad = (if u then [(a / 32, true)] else []) ∧
          (u = true → t.getB Reg.HBM_EVENT Fld.HBM_EVENT_UE = true)) ∧
      (∀ u : Bool, exec (.hbmAccess port (.readError a u)) s =
        exec (.hbmAccess port (.read a)) (if reaches true then burstBad (a / 32) u s else s)) ∧
      (reaches true → s.hbm.adds = [] → ¬ few → Answers (.hbmAccess port (.read a)) s fun t =>
        ofStack t = (ofStack s).drop ((ofStack s).length - 256) ∧ SameMem s t) ∧
      (reaches true → s.hbm.adds = [] → few → b ∈ s.hbm.writes → Answers (.hbmAccess port (.read a)) s fun t =>
        t.out = s.out ∧ SameMem s t ∧ Counts (Reg.HBM_CNT_LO 3) 1 s t ∧ ∃ r, (h t).reads = (h s).reads ++ [r] ∧
          r.port = p ∧ r.block = b ∧ r.data = s.mrd (64 * b) 64 ∧ r.after = (s.hbm.writes.filter (· == b)).length) ∧
      (∀ bs : List Byte, reaches false → s.hbm.adds = [] → bs ≠ [] → a % 64 + bs.length ≤ 64 →
        Answers (.hbmAccess port (.write a bs)) s fun t => t.mrd a bs.length = bs ∧ SameMemBut a bs.length s t ∧
          Counts (Reg.HBM_CNT_LO 1) 1 s t ∧
          (stack ∈ (h t).ahead ↔
            256 < (ofStack t).length ∧ (stack ∈ s.hbm.ahead ∨ 384 < (ofStack t).length)) ∧
          (s.hbm.writes.length < 511 → (h t).writes = (h s).writes ++ [b] ∧ t.out = s.out)) ∧
      (∀ v : BitVec 64, reaches false → p = 3 → Answers (.hbmAccess port (.add a v)) s fun t => SameMem s t ∧
        (h t).adds = (h s).adds ++ [⟨a - a % 8, v.toNat⟩] ∧ Counts (Reg.HBM_CNT_LO 2) 1 s t) ∧
      (p = 3 → hbmReserved a = true →
        (Answers (.hbmAccess port (.read a)) s fun t => t.out = .hbmData 3 (64 * b) (zeros 64) false :: s.out ∧
          t.getB Reg.HBM_EVENT Fld.HBM_EVENT_BAD_ADDR = true ∧ Counts (Reg.HBM_CNT_LO 8) 1 s t ∧ SameMem s t) ∧
        ∀ v : BitVec 64, ∀ bs, ∀ x ∈ [HbmAccess.write a bs, .add a v], Answers (.hbmAccess port x) s fun t =>
          t.getB Reg.HBM_EVENT Fld.HBM_EVENT_BAD_ADDR = true ∧ Counts (Reg.HBM_CNT_LO 8) 1 s t ∧
          OnlyRegsOf [Reg.HBM_EVENT, Reg.HBM_CNT_LO 8, Reg.HBM_CNT_LO 8 + 4] s t) ∧
      (portReaches p a true = true → hbmReady s = false → p = 2 → Answers (.hbmAccess port (.read a)) s fun t =>
        t = { s with out := .hbmData 2 (64 * b) (zeros 64) false :: s.out }) ∧
      (∀ bs, portReaches p a false = false ∨ hbmReady s = false → ¬ (p = 3 ∧ hbmReserved a = true) →
        Answers (.hbmAccess port (.write a bs)) s (· = s))) ∧
    (∀ b : Nat, (b ∉ s.hbm.writes → Answers (.hbmWriteDrain b) s (· = s)) ∧
      (b ∈ s.hbm.writes → Answers (.hbmWriteDrain b) s fun t => (h t).writes = (h s).writes.erase b ∧
        t.regs = s.regs ∧
        SameMem s t ∧ (let stack := (hbmPlace b).stack
          stack ∈ (h t).ahead ↔ 256 < (stackWrites t stack).length ∧
            (stack ∈ s.hbm.ahead ∨ 384 < (stackWrites t stack).length)) ∧ ∀ r, (h s).reads = [r] →
              r.block = b → r.after ≠ 0 →
          (r.after = 1 → (h t).reads = [] ∧ t.out = .hbmData r.port (64 * b) r.data r.poisoned :: s.out) ∧
          (1 < r.after → (h t).reads = [{ r with after := r.after - 1 }] ∧ t.out = s.out))) ∧
    (s.hbm.adds = [] → Answers .postedAddExecute s (· = s)) ∧
    (∀ x rest, s.hbm.adds = x :: rest → Answers .postedAddExecute s fun t => (h t).adds = rest ∧
      t.mrd x.addr 8 = leBytes 8 (leVal (s.mrd x.addr 8) + x.addend) ∧ SameMemBut x.addr 8 s t ∧
      (let stack := (hbmPlace (x.addr / 64)).stack
       (stackWrites s stack).length ≤ 256 ∨ (stackWrites s stack).length ≤ 384 ∧ stack ∉ s.hbm.ahead →
         t.out = s.out))

/-- The controller by itself (R372 to R376). A temperature reading shows, doubles the refresh above 85 °C and latches
HOT from 95 °C on; a refresh is made of a bank that is awake and for which no request waits; the scrub takes the
blocks in turn, corrects what it can and reports the rest; a channel for which none waits goes to power-down or
self-refresh where its time is set. A stack's training result shows once; the second success brings the HBM event,
a failure TRAIN_FAIL. Shares beyond 256 are refused. Choices of the model that it rests on: log 1 (DESIGN CHOICE). -/
def Obligations.TheControllerKeepsItsStacks : Prop :=
  ∀ s : State, s.running →
    let ready := hbmReady s = true
    let ev (f : Field) (t : State) : Prop := t.getB Reg.HBM_EVENT f = true
    let doubled (t : State) (k : Nat) := (t.get Reg.HBM_STATUS Fld.HBM_STATUS_REFRESH_2X).testBit k
    (∀ (k : Fin 2) (temp : Fin 256), Answers (.hbmTempRead k temp) s fun t =>
      t.get (Reg.HBM_TEMP k.val) Fld.HBM_TEMP_TEMP = temp.val ∧ doubled t k.val = decide (85 < temp.val) ∧
      doubled t (1 - k.val) = doubled s (1 - k.val) ∧ (95 ≤ temp.val → ev Fld.HBM_EVENT_HOT t) ∧
      (temp.val < 95 → t.rd Reg.HBM_EVENT = s.rd Reg.HBM_EVENT) ∧
      OnlyRegsOf [Reg.HBM_TEMP k.val, Reg.HBM_STATUS, Reg.HBM_EVENT] s t) ∧
    (∀ bank : Nat,
      let wakes := bank < 2048 ∧ ready ∧ bank / 64 ∉ s.hbm.selfRefresh ∧ hbmWaits s (hbmBank · == bank) = false
      (wakes → Answers (.hbmRefresh bank) s fun t => aget? bank t.hbm.refreshed = some s.now ∧
        t = { s with hbm := { s.hbm with refreshed := t.hbm.refreshed } }) ∧
      (¬ wakes → Answers (.hbmRefresh bank) s (· = s))) ∧
    (let b := s.hbm.scrubAt
     let on := ready ∧ s.get Reg.HBM_SCRUB Fld.HBM_SCRUB_PERIOD_H ≠ 0
     let next (t : State) : Prop := t.hbm.scrubAt = (b + 1) % 2 ^ 29 ∧ Counts (Reg.HBM_CNT_LO 6) 1 s t ∧ SameMem s t
     let first (u : Bool) (t : State) : Prop := s.getB Reg.HBM_ERR_LAST Fld.HBM_ERR_LAST_VALID = false →
       t.getB Reg.HBM_ERR_LAST Fld.HBM_ERR_LAST_VALID = true ∧ t.getB Reg.HBM_ERR_LAST Fld.HBM_ERR_LAST_UNCORR = u ∧
       t.get Reg.HBM_ERR_LAST Fld.HBM_ERR_LAST_BLOCK = b % 2 ^ 29
     let found (k : Nat) := s.hbm.bad.find? fun e => e.1 == k
     let clean := found (2 * b) = none ∧ found (2 * b + 1) = none
     (¬ on → Answers .hbmScrubRead s (· = s)) ∧
     (on → clean → Answers .hbmScrubRead s fun t => next t ∧ t.hbm.bad = s.hbm.bad ∧
        t.rd Reg.HBM_EVENT = s.rd Reg.HBM_EVENT) ∧
     (∀ (u : Bool) (k : Nat), on → (k = 2 * b ∨ k = 2 * b + 1) → found k = some (k, u) →
       found (4 * b + 1 - k) = none →
        Answers .hbmScrubRead s fun t => next t ∧ first u t ∧
          (u = false → (∀ e ∈ t.hbm.bad, e.1 ≠ k) ∧ Counts (Reg.HBM_CNT_LO 4) 1 s t ∧
            (max 1 (s.get Reg.HBM_CE_TH Fld.HBM_CE_TH_COUNT) ≤ s.hbm.ceSince + 1 → ev Fld.HBM_EVENT_CE_TH t)) ∧
          (u = true → (k, true) ∈ t.hbm.bad ∧ Counts (Reg.HBM_CNT_LO 5) 1 s t ∧ ev Fld.HBM_EVENT_UE t))) ∧
    (∀ c : Fin 32,
      let waits := hbmWaits s (hbmChannel · == c.val) = true
      let awake := c.val ∉ s.hbm.down ∧ c.val ∉ s.hbm.selfRefresh
      let pd := s.get Reg.HBM_PWR Fld.HBM_PWR_PD_IDLE
      let sr := s.get Reg.HBM_PWR Fld.HBM_PWR_SR_IDLE
      (pd ≠ 0 → ready → awake → ¬ waits → Answers (.channelPowerDown c) s fun t => c.val ∈ t.hbm.down ∧
        Counts (Reg.HBM_CNT_LO 7) 1 s t ∧ SameMem s t) ∧
      (pd = 0 ∨ ¬ ready ∨ ¬ awake ∨ waits → Answers (.channelPowerDown c) s (· = s)) ∧
      (sr ≠ 0 → ready → ¬ waits → Answers (.channelSelfRefresh c) s fun t => c.val ∈ t.hbm.selfRefresh ∧
        c.val ∉ t.hbm.down ∧
        t.regs = s.regs ∧ SameMem s t) ∧
      (sr = 0 ∨ ¬ ready ∨ waits → Answers (.channelSelfRefresh c) s (· = s))) ∧
    (∀ (k : Fin 2) (result : Fin 4) (repaired : Fin 256),
      let a := Reg.HBM_TRAIN k.val
      let other := s.get (Reg.HBM_TRAIN (1 - k.val)) Fld.HBM_TRAIN_RESULT
      let trained (t : State) := t.get Reg.HBM_STATUS Fld.HBM_STATUS_TRAINED
      (result.val ≠ 0 → s.get a Fld.HBM_TRAIN_RESULT = 0 → Answers (.hbmTrainingDone k result repaired) s fun t =>
        SameMem s t ∧ (t.out = AlertPin s t ++ s.out ∨ result.val ≠ 3 ∧ t.out = s.out) ∧
          t.get a Fld.HBM_TRAIN_RESULT = result.val ∧
        t.get a Fld.HBM_TRAIN_REPAIRED = repaired.val ∧
        (other ≠ 0 → t.getB Reg.HBM_STATUS Fld.HBM_STATUS_TRAINING = false) ∧
        (result.val = 3 → trained t = trained s ∧ ev Fld.HBM_EVENT_TRAIN_FAIL t ∧ bootStage t = 4) ∧
        (result.val ≠ 3 → trained t = trained s ||| 2 ^ k.val ∧
          (trained s = 2 ^ (1 - k.val) → hbmReady t = true ∧ t.getB Reg.BOOT_EVENT Fld.BOOT_EVENT_HBM = true ∧
            t.get (Reg.BOOT_MS 2) Fld.BOOT_MS_MS = min 65535 (s.now / 1000000)))) ∧
      (result.val = 0 ∨ s.get a Fld.HBM_TRAIN_RESULT ≠ 0 → Answers (.hbmTrainingDone k result repaired) s (· = s))) ∧
    (∀ (p : Fin 6) (v : Word),
      let share (k : Nat) := if k = p.val then Fld.HBM_SHARE_SHARE.of v else s.get (Reg.HBM_SHARE k) Fld.HBM_SHARE_SHARE
      let sum := share 0 + share 1 + share 2 + share 3 + share 4 + share 5
      (256 < sum → Answers (.hbmShareWrite p v) s fun t => ev Fld.HBM_EVENT_CFG_ERR t ∧
        OnlyRegsOf [Reg.HBM_EVENT] s t) ∧
      (sum ≤ 256 → Answers (.hbmShareWrite p v) s fun t => OnlyRegsOf [Reg.HBM_SHARE p.val] s t ∧
        t.get (Reg.HBM_SHARE p.val) Fld.HBM_SHARE_SHARE = Fld.HBM_SHARE_SHARE.of v))

/-! ### Tallyman (ch. 21) -/

/-- The Tallyman and its dumps (R379 to R382). EN = 1 locks TLY_CFG, a buffer area above 256 MiB is refused, and EN =
0 forgets a trigger that waits. A start that is admitted captures the selected sets in set order for the next
buffer, a segment at a time (one at the start and one at each tick, the model's choice, log 99); one that is not
is skipped and counted, while a triggered one behind a running dump stays held. A dump whose segments have all
been captured is in its buffer when it is done, whether in memory or at the host, cut at the buffer's end; it is
told to the TLM ring, and then a held trigger starts. Choices of the model that it rests on: log 1 (DESIGN
CHOICE), log 99 (DESIGN CHOICE). -/
def Obligations.DumpsCaptureTheSelectedSets : Prop :=
  ∀ s : State, s.running →
    let ev (f : Field) (t : State) : Prop := t.getB Reg.TLY_EVENT f = true
    let cfg (f : Field) := s.get Reg.TLY_CFG f
    let host := s.getB Reg.TLY_CFG Fld.TLY_CFG_DEST = true
    let shows (f : Field) (t : State) : Prop := f.of (regView t Reg.TLY_STATUS) = 1
    let busy (t : State) : Prop := t.tally.running ≠ none ∧ shows Fld.TLY_STATUS_BUSY t
    let list := segmentList (cfg Fld.TLY_CFG_SETS)
    let starts (trig : Bool) (t : State) : Prop := ∃ d, t.tally.running = some d ∧ d.number = s.tally.next ∧
      d.buffer = s.tally.next % tlyCount s ∧ d.room = tlyRoom s ∧ d.triggered = trig ∧ d.skipped = s.tally.skipped ∧
      d.sets = cfg Fld.TLY_CFG_SETS ∧ d.tsStart = s.ts ∧ d.todo = list.drop 1 ∧
      (∃ u, u = { s with tally := u.tally } ∧ d.segments = (list.take 1).flatMap fun e => segment u e.1 e.2) ∧
      (host → d.host = true ∧ d.owner = cfg Fld.TLY_CFG_OWNER ∧
        d.addr = s.rdN Reg.TLY_HOST_BASE_LO + 2 ^ 32 * s.rdN Reg.TLY_HOST_BASE_HI + d.buffer * d.room) ∧
      (¬ host → d.host = false ∧ d.addr = 0x720000000 + d.buffer * d.room) ∧
        d.tlm = s.getB Reg.TLY_CFG Fld.TLY_CFG_TLM_EN
    (∀ v : Word,
      let on := Fld.TLY_CFG_EN.of v = 1
      let all := [Fld.TLY_CFG_EN, Fld.TLY_CFG_DEST, Fld.TLY_CFG_OWNER, Fld.TLY_CFG_TLM_EN, Fld.TLY_CFG_SETS]
      let tooBig := Fld.TLY_CFG_DEST.of v = 0 ∧ 2 ^ 28 < tlyCount s * tlyRoom s
      (tlyOn s = false → on → tooBig → Answers (.tlyEnableWrite v) s fun t => ev Fld.TLY_EVENT_CFG_ERR t ∧
        OnlyRegsOf [Reg.TLY_EVENT] s t) ∧
      (tlyOn s = false → ¬ (on ∧ tooBig) → Answers (.tlyEnableWrite v) s fun t => OnlyRegsOf [Reg.TLY_CFG] s t ∧
        ∀ f ∈ all, t.get Reg.TLY_CFG f = f.of v) ∧
      (tlyOn s = true → Answers (.tlyEnableWrite v) s fun t => SameRegsBut [Reg.TLY_CFG, Reg.TLY_EVENT] s t ∧
        t = { s with regs := t.regs, tally := t.tally } ∧ t.tally.running = s.tally.running ∧
        (∀ f ∈ all.tail, t.get Reg.TLY_CFG f = cfg f) ∧ tlyOn t = decide on ∧
        ((∃ f ∈ all.tail, f.of v ≠ cfg f) → ev Fld.TLY_EVENT_CFG_ERR t) ∧
        (on → t.tally = s.tally) ∧ (¬ on → t.tally.held = false))) ∧
    (∀ trig : Bool,
      let due := tlyOn s = true ∧ (trig = true → s.tally.held = true)
      let idle := s.tally.running = none
      (due → idle → tlyAdmits s = true → Answers (.tlyDumpStart trig) s fun t => starts trig t ∧ busy t ∧
        t.tally.next = (s.tally.next + 1) % 2 ^ 32 ∧ t.tally.skipped = 0 ∧
        (cfg Fld.TLY_CFG_SETS = 128 → gselErr s = true → ev Fld.TLY_EVENT_GSEL_ERR t) ∧
        t.mem = s.mem ∧ t.out = s.out ∧ SameRegsBut [Reg.TLY_EVENT] s t) ∧
      (due → idle → tlyAdmits s = false → Answers (.tlyDumpStart trig) s fun t => ev Fld.TLY_EVENT_SKIPPED t ∧
        t.tally = { s.tally with skipped := s.tally.skipped + 1, held := false } ∧
        SameRegsBut [Reg.TLY_EVENT] s t) ∧
      (due → ¬ idle → trig = false → Answers (.tlyDumpStart trig) s fun t => ev Fld.TLY_EVENT_SKIPPED t ∧ busy t ∧
        t.tally = { s.tally with skipped := s.tally.skipped + 1 } ∧
        SameRegsBut [Reg.TLY_EVENT] s t) ∧
      (due → ¬ idle → trig = true → Answers (.tlyDumpStart trig) s fun t => t = s ∧ busy t ∧
        shows Fld.TLY_STATUS_HELD t) ∧
      (¬ due → Answers (.tlyDumpStart trig) s (· = s))) ∧
    (∀ d x rest, s.tally.running = some d → d.todo = x :: rest → (Answers .tlyDumpDone s (· = s)) ∧
      ∃ t e more, step { s with pending := [] } = .next t ∧ t.tally.running = some e ∧ e.todo = rest ∧
        e.segments = d.segments ++ more ∧ more.length = 16 + 8 * (setShape x.1).2 ∧
        (x.1 = 7 → gselErr s = true → ev Fld.TLY_EVENT_GSEL_ERR t)) ∧
    (s.tally.running = none → Answers .tlyDumpDone s (· = s)) ∧
    (∀ d, s.tally.running = some d → d.todo = [] → s.sound → s.hbm.adds = [] → d.owner < 8 →
      Answers .tlyDumpDone s fun t =>
      let b := d.bytes s.ts
      b.length = min d.room (32 + d.segments.length) ∧ ev Fld.TLY_EVENT_DONE t ∧
      (d.room < 32 + d.segments.length → ev Fld.TLY_EVENT_TRUNC t) ∧
      t.get Reg.TLY_STATUS Fld.TLY_STATUS_BUF = d.buffer % 65536 ∧ t.rdN Reg.TLY_LAST = d.number % 2 ^ 32 ∧
      (d.host = false → t.mrd d.addr b.length = b ∧ SameMemBut d.addr b.length s t) ∧
      (d.host = true → SameMem s t ∧ .dma d.owner (s.pasid d.owner) d.addr b ∈ t.out) ∧
      (∀ r, d.tlm = true → kindRing s d.owner 5 = some r → (s.ring d.owner r).ready = true → ∃ h,
        h.length = 8 ∧ h.take 1 = [0x50#8] ∧
          .dma d.owner (s.pasid d.owner) (s.ring d.owner r).slotAddr (h ++ d.desc) ∈ t.out) ∧
      (s.tally.held = false → t.tally = { s.tally with running := none }) ∧
      (s.tally.held = true → tlyOn s = true → ¬ host → hbmReady s = true →
        busy t ∧ t.tally.held = false ∧ ∃ e, t.tally.running = some e ∧ e.triggered = true ∧
          e.number = s.tally.next))

/-- The telemetry store (R385 to R387). A write that would take a region past 4 GiB or onto another enabled one is
refused; EN from 0 to 1 starts the region at W = 0. A station's oldest record goes to record W mod C of its
Guild's region and W advances, or is lost where the Guild has none. TLY_TREAD copies the records asked for that
the region still holds, and completes with W, their number and the records lost. Choices of the model that it
rests on: log 1 (DESIGN CHOICE), log 99 (DESIGN CHOICE). -/
def Obligations.RecordsGoRoundTheTelemetryStore : Prop :=
  (∀ (s : State) (g : Guild) (v : Word), s.running →
    let G := g.val
    let a := Reg.TLY_TSTORE G
    let lo (w : Word) := Fld.TLY_TSTORE_BASE.of w
    let hi (w : Word) := Fld.TLY_TSTORE_BASE.of w + Fld.TLY_TSTORE_SIZE.of w
    let clash := Fld.TLY_TSTORE_EN.of v = 1 ∧ ∃ h < 8, h ≠ G ∧ storeOn s h = true ∧
      ∃ x, lo v ≤ x ∧ x < hi v ∧ lo (s.rd (Reg.TLY_TSTORE h)) ≤ x ∧ x < hi (s.rd (Reg.TLY_TSTORE h))
    (256 < hi v ∨ clash → Answers (.tstoreEnable g v) s fun t => t.getB Reg.TLY_EVENT Fld.TLY_EVENT_CFG_ERR = true ∧
      OnlyRegsOf [Reg.TLY_EVENT] s t) ∧
    (hi v ≤ 256 → ¬ clash → Answers (.tstoreEnable g v) s fun t => SameRegsBut [a] s t ∧ SameMem s t ∧
      (∀ f ∈ [Fld.TLY_TSTORE_EN, Fld.TLY_TSTORE_BASE, Fld.TLY_TSTORE_SIZE], t.get a f = f.of v) ∧
      aget 0 G t.tally.w = (if Fld.TLY_TSTORE_EN.of v = 1 ∧ storeOn s G = false then 0 else aget 0 G s.tally.w) ∧
      ∀ h, h ≠ G → aget 0 h t.tally.w = aget 0 h s.tally.w)) ∧
  (∀ (s : State) (st : Station), s.running →
    let queue (t : State) := aget [] st.val t.tally.queue
    let cap (g : Nat) := storeRecords (s.rd (Reg.TLY_TSTORE g))
    (∀ g rec rest, queue s = (g, rec) :: rest → hbmReady s = true → g < 8 → rec.length = 32 →
      (storeOn s g = true → cap g ≠ 0 → s.hbm.adds = [] → Answers (.tstoreRecordWrite st) s fun t =>
        let w := aget 0 g s.tally.w
        let at_ := storeBase (s.rd (Reg.TLY_TSTORE g)) + 32 * (w % cap g)
        queue t = rest ∧ aget 0 g t.tally.w = w + 1 ∧ t.mrd at_ 32 = rec ∧ SameMemBut at_ 32 s t) ∧
      (storeOn s g = false ∨ cap g = 0 → Answers (.tstoreRecordWrite st) s fun t => queue t = rest ∧
        t.tally.w = s.tally.w ∧ Counts (Reg.TLY_TSTORE_LOST_LO g) 1 s t ∧ t.mem = s.mem)) ∧
    (queue s = [] ∨ hbmReady s = false → Answers (.tstoreRecordWrite st) s (· = s))) ∧
  (∀ (s : State) (g : Guild) (ring : Fin 1024) (c : Cmd), CmdReady s g.val ring.val 0x60 c → hbmReady s = true →
    let G := g.val
    let start := descField c.desc 0 64
    let n := descField c.desc 64 32
    let addr := descField c.desc 128 64
    let w := aget 0 G s.tally.w
    let cap := storeRecords (s.rd (Reg.TLY_TSTORE G))
    let none_ := storeOn s G = false ∨ cap = 0
    let ends (status : Nat) (result : List Byte) (t : State) : Prop := CompletedWith G ring.val c status result s t ∧
      SameMem s t
    (65536 < n ∨ addr % 64 ≠ 0 → Answers (.tlyTread g ring) s (ends 5 [])) ∧
    (n ≤ 65536 → addr % 64 = 0 →
      (none_ → Answers (.tlyTread g ring) s (ends 0x61 [])) ∧
      (¬ none_ → (start + cap < w ∨ w < start + n) → Answers (.tlyTread g ring) s (ends 0x60 [])) ∧
      (¬ none_ → w ≤ start + cap → start + n ≤ w → s.sound → s.hbm.adds = [] → Answers (.tlyTread g ring) s fun t =>
        ends 0 (leBytes 8 w ++ leBytes 4 n ++ leBytes 4 (s.rdN (Reg.TLY_TSTORE_LOST_LO G))) t ∧
        t.tally = s.tally ∧ (n ≠ 0 → .dma G (s.pasid G) addr ((List.range n).flatMap fun k => s.mrd
          (storeBase (s.rd (Reg.TLY_TSTORE G)) + 32 * ((start + k) % cap)) 32) ∈ t.out))))

/-! ### Tinker (ch. 22) -/

/-- The Tinker's own commands (R389 to R396, Table 22.4). A frame that REORDER holds takes its place, on receive
behind all others, on transmit, where R393 does not say the place, before them (the model's choice, log 73), and
the bound of 100 µs, whose passing the command is, is taken to hold for a frame set aside on transmit too (the
model's choice, log 103). A seed of 0 acts as 1; an armed memory injection is not written again. TNK_SET writes an
injector that is off and arms it, leaves all but TNK_SEL of one that is on, and TNK_READ returns its twelve words;
both serve the Guild of the port alone. The scrub corrects what it can, invalidates an endpoint entry that it
cannot, and drains a station whose scheduler state is lost. Choices of the model that it rests on: log 1 (DESIGN
CHOICE), log 43 (DESIGN CHOICE), log 73 (DEDUCED), log 100 (DESIGN CHOICE), log 101 (DEDUCED), log 102 (DEDUCED),
log 103 (DEDUCED). -/
def Obligations.TheTinkerPlantsAndTheScrubFinds : Prop :=
  (∀ s : State, s.running →
    (∀ (p : Port) (inj : Fin 4),
      let lanes (t : State) := ((t.stn (stationOf p.val)).tasks.laneX, (t.stn (stationOf p.val)).tasks.laneN)
      let mine (a b : Nat) : Bool := a == p.val && b == inj.val
      (∀ h, s.tinker.heldRx.find? (fun h => mine h.port h.inj) = some h →
        Answers (.reorderRelease p inj false) s fun t =>
        t.tinker.heldRx = s.tinker.heldRx.erase h ∧ t.regs = s.regs ∧ t.mem = s.mem ∧ t.ports = s.ports ∧
        lanes t = if h.frame.cls = 7 then ((lanes s).1 ++ [h.frame], (lanes s).2)
          else ((lanes s).1, (lanes s).2 ++ [h.frame])) ∧
      (∀ h, s.tinker.heldTx.find? (fun h => mine h.port h.inj) = some h →
        neverFits s p.val h.ef.tc h.ef.frame = false →
        Answers (.reorderRelease p inj true) s fun t => t.tinker.heldTx = s.tinker.heldTx.erase h ∧
          SameRegsBut [Reg.TNK_MEMINJ] s t ∧
          (s.getB Reg.TNK_MEMINJ Fld.TNK_MEMINJ_ARM = false → t.regs = s.regs) ∧ t.mem = s.mem ∧
            egrQueue t p.val h.ef.tc = h.ef :: egrQueue s p.val h.ef.tc) ∧
      ((∀ h ∈ s.tinker.heldRx, mine h.port h.inj = false) → Answers (.reorderRelease p inj false) s (· = s)) ∧
      ((∀ h ∈ s.tinker.heldTx, mine h.port h.inj = false) → Answers (.reorderRelease p inj true) s (· = s))) ∧
    (∀ v : Word, Answers (.tnkSeedWrite v) s fun t => SameRegsBut [Reg.TNK_SEED] s t ∧ t.rd Reg.TNK_SEED = v ∧
      t = { s with regs := t.regs, tinker := { s.tinker with lfsr := if v = 0#32 then 1#32 else v } }) ∧
    (∀ v : Word,
      let armed := s.getB Reg.TNK_MEMINJ Fld.TNK_MEMINJ_ARM = true
      (armed → Answers (.meminjArm v) s fun t => t.tinker = s.tinker ∧ t.mem = s.mem ∧ ∃ p : Port,
        let a := Reg.TNK_PEVENT (stationOf p.val) (localOf p.val)
        t.getB a Fld.TNK_PEVENT_CFG_ERR = true ∧ SameRegsBut [a] s t) ∧
      (¬ armed → Answers (.meminjArm v) s fun t => OnlyRegsOf [Reg.TNK_MEMINJ] s t ∧
        t.getB Reg.TNK_MEMINJ Fld.TNK_MEMINJ_ARM = (Fld.TNK_MEMINJ_ARM.of v != 0) ∧
        ∀ f ∈ [Fld.TNK_MEMINJ_MEM, Fld.TNK_MEMINJ_STATION, Fld.TNK_MEMINJ_KIND], t.get Reg.TNK_MEMINJ f = f.of v)) ∧
    (∀ (mem : Fin 32) (st : Station) (i : Nat),
      let m := mem.val
      let n := st.val
      let sole (u : Bool) (k : Nat) := scrubbed m = true ∧ s.tinker.errors =
        [{ mem := m, station := k, index := memWord m i, uncorr := u }]
      let loud (u : Bool) (k : Nat) (P : State → Prop) : Prop :=
        (sole u k → Answers (.ondieScrub mem st i none) s P) ∧
        (scrubbed m = true → s.tinker.errors = [] → Answers (.ondieScrub mem st i (some u)) s P)
      let e := if m = 14 ∨ m = 15 ∨ m = 17 then 0 else n
      (scrubbed m = false → ∀ x, Answers (.ondieScrub mem st i x) s (· = s)) ∧
      (s.tinker.errors = [] → Answers (.ondieScrub mem st i none) s (· = s)) ∧
      (m ≠ 9 → m ≠ 15 → loud false e fun t => t.tinker.errors = [] ∧ t.mem = s.mem ∧ t.stations = s.stations ∧
        t.out = s.out ∧ Counts (Reg.TNK_ERR_CNT_LO 0) 1 s t) ∧
      (∀ k v, m = 7 → i < 131072 → s.eptAt n i = some (k, v) → k.guild < 8 → loud true n fun t =>
        t.eptAt n i = none ∧ t.tinker.errors = [] ∧ Counts (Reg.TNK_ERR_CNT_LO 1) 1 s t ∧
        t.getB Reg.TNK_ERR_EVENT Fld.TNK_ERR_EVENT_UE = true ∧ t.mem = s.mem) ∧
      (m = 4 → (s.stn n).draining = false → (∀ j < 12, (s.port (12 * n + j)).egr.queues = []) →
        s.tinker.heldTx = [] →
        loud true n fun t => (t.stn n).draining = true ∧ t.tinker.errors = [] ∧ Counts (Reg.TNK_ERR_CNT_LO 2) 1 s t ∧
          t.getB Reg.TNK_ERR_EVENT Fld.TNK_ERR_EVENT_FATAL = true ∧
          t.getB (Reg.MOR_STATUS n) Fld.MOR_STATUS_DRAINING = true))) ∧
  (∀ (s : State) (g : Guild) (ring : Fin 1024) (op : Nat) (c : Cmd), CmdReady s g.val ring.val op c →
    let p := descField c.desc 0 8
    let k := descField c.desc 8 2
    let a (w : Nat) := injWord p k w
    let ends (status : Nat) (t : State) : Prop := CompletedWith g.val ring.val c status [] s t ∧ SameMem s t
    let foreign := 144 ≤ p ∨ s.portGuild p ≠ g.val ∨ s.portWidth p = 0
    let barred := s.get Reg.TNK_CTL Fld.TNK_CTL_EN = 0 ∨
      (s.get Reg.TNK_CTL Fld.TNK_CTL_GUILD_EN).testBit g.val = false
    (∀ data, foreign ∨ barred → op = 0x68 → Answers (.tnkSet g ring data) s
      fun t => (foreign → ends 0x68 t) ∧ (¬ foreign → ends 0x69 t) ∧ t.tinker = s.tinker) ∧
    (foreign ∨ barred → op = 0x69 → Answers (.tnkRead g ring) s
      fun t => (foreign → ends 0x68 t) ∧ (¬ foreign → ends 0x69 t) ∧ t.tinker = s.tinker) ∧
    (∀ d : List Byte, ¬ foreign → ¬ barred → op = 0x68 → d.length = 48 → Answers (.tnkSet g ring (some d)) s fun t =>
      let word (w : Nat) := BitVec.ofNat 32 (leVal ((d.drop (4 * w)).take 4))
      ends 0 t ∧ (4 * p + k) ∈ t.tinker.bySet ∧ t.rd (a 0) = (s.store (a 0) (word 0)).rd (a 0) ∧
      (Fld.TNK_SEL_EN.of (s.rd (a 0)) = 0 → (∀ w, 0 < w → w < 11 → t.rd (a w) = (s.store (a w) (word w)).rd (a w)) ∧
        (Fld.TNK_SEL_EN.of (word 0) = 1 → t.rd (a 11) = 0#32 ∧ aget? (4 * p + k) t.tinker.period = none)) ∧
      (Fld.TNK_SEL_EN.of (s.rd (a 0)) = 1 → (∀ w, 0 < w → w < 12 → t.rd (a w) = s.rd (a w)) ∧
        t.getB (Reg.TNK_PEVENT (stationOf p) (localOf p)) Fld.TNK_PEVENT_CFG_ERR = true)) ∧
    (¬ foreign → ¬ barred → op = 0x69 → Answers (.tnkRead g ring) s fun t => ends 0 t ∧ t.tinker = s.tinker ∧
      .dma g.val (s.pasid g.val) (descField c.desc 64 64) ((List.range 12).flatMap fun w => leBytes 4 (s.rdN (a w))) ∈ t.out))

/-- R383, R384: an event adds to every counter of its station whose STN_EVSEL chooses it, for the Guild of its filter
where GUILD_EN is set, and to no other. A counter that passes 2⁴⁸ − 1 wraps and sets its bit of STN_EV_OVF, and
with DUMP a dump is triggered while dumps are enabled. -/
def Obligations.EventCountersWrapIntoTheirOverflowBits : Prop :=
  ∀ (s : State) (st code n : Nat) (guild : Option Nat), s.canonical = true → (∀ e ∈ s.regs, e.1 % 4 = 0) → st < 12 →
    code ≠ 0 → n < 2 ^ 48 →
    let t := evCount st code n guild s
    let sel (k : Nat) (f : Field) := s.get (Reg.STN_EVSEL st k) f
    let hit (k : Nat) : Prop := sel k Fld.STN_EVSEL_EVENT = code ∧
      ∀ g, guild = some g → sel k Fld.STN_EVSEL_GUILD_EN = 0 ∨ sel k Fld.STN_EVSEL_GUILD = g
    let wraps (k : Nat) : Prop := hit k ∧ 2 ^ 48 ≤ s.cntGet (Reg.STN_EV_LO st k) + n
    let ovf (k : Nat) (u : State) := (u.rdN (Reg.STN_EV_OVF st (k / 32))).testBit (k % 32)
    (∀ k < 48, (hit k → Counts (Reg.STN_EV_LO st k) n s t) ∧ (¬ hit k → Counts (Reg.STN_EV_LO st k) 0 s t) ∧
      (wraps k → ovf k t = true ∧
        (sel k Fld.STN_EVSEL_DUMP = 1 → s.getB Reg.TLY_CFG Fld.TLY_CFG_EN = true → t.tally.held = true)) ∧
      (¬ wraps k → ovf k t = ovf k s)) ∧
    ((∀ k < 48, wraps k → sel k Fld.STN_EVSEL_DUMP = 0) → t.tally = s.tally) ∧ SameMem s t ∧ t.out = s.out

/-! ### Mate pair (ch. 23) -/

/-- What moves a device of a mate pair between its roles (R403 to R406, R410, Tables 23.2 and 23.4). HK0 and HK1 alone
kick. A live heartbeat takes IDLE to STANDBY; its loss takes STANDBY to IDLE, and MATE_HB_OUT low (Table 23.1). A
STANDBY device that MATE_FORCE_N does not bar claims while its mate is not active, at once if it is the primary or
else once its claim delay is over; on the fall of MATE_ACT_IN; and, with HB_TAKE, when the heartbeat of an active
mate goes stale. An ACTIVE device yields when MATE_FORCE_N falls, and when its mate has claimed, unless it is the
primary and both claimed within 1 µs. A takeover and a yield start the gap, which GAP_END ends. Choices of the
model that it rests on: log 1 (DESIGN CHOICE), log 105 (DEDUCED). -/
def Obligations.RolesFollowTheInterlock : Prop :=
  ∀ s : State, s.running →
    let bit (f : Field) (t : State) : Prop := t.getB Reg.MATE_STATUS f = true
    let peer (t : State) := bit Fld.MATE_STATUS_PEER_ACT t
    let was (t : State) := bit Fld.MATE_STATUS_PEER_WAS_ACT t
    let beats (t : State) := bit Fld.MATE_STATUS_PEER_HB t
    let gap (t : State) : Prop := bit Fld.MATE_STATUS_GAP t ∧ t.getB Reg.VRV_STATUS Fld.VRV_STATUS_MATE_GAP = true ∧
      servoState t = 3
    let ev (f : Field) (t : State) : Prop := t.getB Reg.MATE_EVENT f = true
    let still (t : State) : Prop := t.mem = s.mem ∧ mateRole t = mateRole s ∧ t.mate.actOut = s.mate.actOut
    let enters (role cause : Nat) (t : State) : Prop := t.mem = s.mem ∧ mateRole t = role ∧
      ∀ r, kindRing s 0 2 = some r → (s.ring 0 r).ready = true →
        ∃ h, h.length = 8 ∧ h.take 1 = [0x78#8] ∧
          .dma 0 (s.pasid 0) (s.ring 0 r).slotAddr (h ++ leBytes 1 role ++ leBytes 1 cause ++ zeros 22) ∈ t.out
    let claims (cause : Nat) (t : State) : Prop := enters 2 cause t ∧ t.mate.actOut = true ∧ t.mate.claimed = s.now ∧
      ev Fld.MATE_EVENT_CLAIMED t
    let yields (cause : Nat) (t : State) : Prop := enters 3 cause t ∧ t.mate.actOut = false ∧
      ev Fld.MATE_EVENT_YIELDED t ∧
      gap t
    let standby := mateRole s = 1
    let forced := bit Fld.MATE_STATUS_FORCED s
    let may := standby ∧ ¬ forced
    (∀ req, Answers (.mateKick req) s fun t => t = { s with mate := { s.mate with
      kicked := s.mate.kicked || decide (req = .hk 0 ∨ req = .hk 1) } }) ∧
    Answers .kickTimeout s (fun t => t = { s with mate := { s.mate with kicked := false } }) ∧
    (hbLive s = true → mateRole s = 0 →
      (primary s = true → ¬ forced → ¬ peer s → Answers .heartbeatLiveChange s fun t => t.mate.actOut = true ∧
        mateRole t = 2 ∧ ev Fld.MATE_EVENT_CLAIMED t) ∧
      (primary s = false ∨ forced ∨ peer s → Answers .heartbeatLiveChange s fun t => enters 1 0 t ∧
        t.mate = { s.mate with delayOver := false })) ∧
    (hbLive s = false → standby → Answers .heartbeatLiveChange s fun t => enters 0 0 t ∧
      t.mate = { s.mate with hbOut := false }) ∧
    (hbLive s = true → mateRole s ≠ 0 → Answers .heartbeatLiveChange s (· = s)) ∧
    (hbLive s = false → ¬ standby → Answers .heartbeatLiveChange s fun t => t = { s with
      mate := { s.mate with hbOut := false }
      out := (if s.mate.hbOut then [.pin "MATE_HB_OUT" false] else []) ++ s.out }) ∧
    Answers .mateHbInEdge s (fun t => beats t ∧ still t ∧ OnlyRegsOf [Reg.MATE_STATUS] s t) ∧
    (¬ beats s → Answers .mateHbStale s (· = s)) ∧
    (beats s →
      let takes := may ∧ peer s ∧ s.getB Reg.MATE_CFG Fld.MATE_CFG_HB_TAKE = true
      (takes → Answers .mateHbStale s fun t => claims 3 t ∧ gap t ∧ ev Fld.MATE_EVENT_PEER_LOST t ∧ ¬ beats t ∧
        ev Fld.MATE_EVENT_SPLIT t) ∧
      (¬ takes → Answers .mateHbStale s fun t => still t ∧ ev Fld.MATE_EVENT_PEER_LOST t ∧ ¬ beats t ∧
        OnlyRegsOf [Reg.MATE_STATUS, Reg.MATE_EVENT] s t)) ∧
    (∀ high, (peer s ↔ high = true) → Answers (.mateActInChange high) s (· = s)) ∧
    (peer s →
      (may → was s → Answers (.mateActInChange false) s fun t => claims 2 t ∧ gap t ∧ ¬ peer t) ∧
      (¬ (may ∧ was s) → Answers (.mateActInChange false) s fun t => still t ∧ ¬ peer t ∧
        OnlyRegsOf [Reg.MATE_STATUS] s t)) ∧
    (¬ peer s → s.mate.release = [] →
      (mateRole s ≠ 2 → Answers (.mateActInChange true) s fun t => still t ∧ peer t ∧ was t ∧
        t.mate.delayOver = false) ∧
      (mateRole s = 2 → s.mate.claimed + 2000 < s.now → Answers (.mateActInChange true) s fun t => yields 6 t ∧
        peer t ∧
        was t ∧ ev Fld.MATE_EVENT_SPLIT t) ∧
      (mateRole s = 2 → s.now ≤ s.mate.claimed + 2000 →
        (primary s = true → Answers (.mateActInChange true) s fun t => still t ∧ peer t ∧
          ev Fld.MATE_EVENT_SPLIT t) ∧
        (primary s = false → Answers (.mateActInChange true) s fun t => yields 7 t ∧ peer t ∧
          ev Fld.MATE_EVENT_SPLIT t))) ∧
    (standby → ¬ peer s →
      (¬ forced → Answers .claimDelayExpiry s (claims 1)) ∧
      (forced → Answers .claimDelayExpiry s fun t => t = { s with mate := { s.mate with delayOver := true } })) ∧
    (¬ standby ∨ peer s → Answers .claimDelayExpiry s (· = s)) ∧
    (forced → Answers .mateForceFall s (· = s)) ∧
    (¬ forced → mateRole s = 2 → Answers .mateForceFall s fun t => yields 5 t ∧ ev Fld.MATE_EVENT_FORCE t ∧
      bit Fld.MATE_STATUS_FORCED t) ∧
    (¬ forced → mateRole s ≠ 2 → Answers .mateForceFall s fun t => still t ∧ ev Fld.MATE_EVENT_FORCE t ∧
      bit Fld.MATE_STATUS_FORCED t ∧ OnlyRegsOf [Reg.MATE_STATUS, Reg.MATE_EVENT] s t) ∧
    (let now := standby ∧ ¬ peer s ∧ (primary s = true ∨ s.mate.delayOver = true)
     (now → Answers .mateForceRise s fun t => claims 1 t ∧ ¬ bit Fld.MATE_STATUS_FORCED t) ∧
     (¬ now → Answers .mateForceRise s fun t => still t ∧ ¬ bit Fld.MATE_STATUS_FORCED t ∧
       OnlyRegsOf [Reg.MATE_STATUS] s t)) ∧
    Answers .gapEnd s (fun t => ¬ bit Fld.MATE_STATUS_GAP t ∧ still t ∧
      t.getB Reg.VRV_STATUS Fld.VRV_STATUS_MATE_GAP = false ∧ OnlyRegsOf [Reg.MATE_STATUS, Reg.VRV_STATUS] s t)

/-- MATE_RELEASE and the end of a yield (R408, R412, Table 23.5). A release needs the ACTIVE role and, without FORCE,
a beating mate that is not active; it yields, and completes with ROLE once the mate has claimed, each that waits,
or, of a forced one, when its time is over. At the end of DRAIN_US the frames queued anywhere are discarded and
counted, and the device goes to STANDBY, or to IDLE where its heartbeat is not live. That every station is set
draining and yielding at once, and that a drain that still runs stays one, is the model's choice (log 138).
Choices of the model that it rests on: log 1 (DESIGN CHOICE), log 105 (DEDUCED), log 138 (DEDUCED). -/
def Obligations.AReleaseYieldsAndAYieldDrains : Prop :=
  (∀ (s : State) (g : Guild) (ring : Fin 1024) (c : Cmd), CmdReady s g.val ring.val 0x70 c →
    let force := descField c.desc 0 1 = 1
    let peer := s.getB Reg.MATE_STATUS Fld.MATE_STATUS_PEER_ACT = true
    let beats := s.getB Reg.MATE_STATUS Fld.MATE_STATUS_PEER_HB = true
    let ends (status : Nat) (result : List Byte) (t : State) : Prop :=
      CompletedWith g.val ring.val c status result s t ∧ SameMem s t
    let yields (t : State) : Prop := mateRole t = 3 ∧ t.mate.actOut = false ∧
      t.getB Reg.MATE_STATUS Fld.MATE_STATUS_GAP = true
    (mateRole s ≠ 2 → Answers (.mateRelease g ring) s fun t => ends 0x70 [] t ∧ t.mate = s.mate) ∧
    (mateRole s = 2 → ¬ force → ¬ beats ∨ peer → Answers (.mateRelease g ring) s fun t =>
      ends 0x71 [] t ∧ t.mate = s.mate ∧ mateRole t = 2) ∧
    (mateRole s = 2 → force ∨ beats → ¬ peer → Answers (.mateRelease g ring) s fun t => yields t ∧
      t.mate.release = s.mate.release ++ [(g.val, ring.val)] ∧
        (t.ring g.val ring.val).cmd = some { c with began := true }) ∧
    (mateRole s = 2 → force → peer → (∀ x ∈ s.mate.release, x.1 < 8) → Answers (.mateRelease g ring) s fun t =>
      yields t ∧ ends 0 (leBytes 1 3) t ∧ t.mate.release = [])) ∧
  (∀ s : State, s.running →
    let waits (g r : Nat) (c : Cmd) : Prop := waitingCmd s g r 0x70 = some c ∧ c.orphan = false ∧
      (s.ring g c.cplRing).enabled = true
    let done (c : Cmd) (g r : Nat) (t : State) : Prop := SameMem s t ∧
      CompletedWith g r c 0 (leBytes 1 (mateRole s)) s t
    let forced (x : CmdRef) : Prop := ∃ c, waitingCmd s x.1 x.2 0x70 = some c ∧ descField c.desc 0 1 = 1
    ((∀ x ∈ s.mate.release, ¬ forced x) → Answers .mateReleaseTimeout s (· = s)) ∧
    (∀ older g r c later, s.mate.release = older ++ (g, r) :: later → (∀ x ∈ older, ¬ forced x) → waits g r c →
      descField c.desc 0 1 = 1 → Answers .mateReleaseTimeout s fun t => done c g r t ∧
        t.mate = { s.mate with release := older ++ later }) ∧
    (∀ g r c, (g, r) ∈ s.mate.release → waits g r c → mateRole s ≠ 2 → (∀ x ∈ s.mate.release, x.1 < 8) →
      s.getB Reg.MATE_STATUS Fld.MATE_STATUS_PEER_ACT = false →
      Answers (.mateActInChange true) s fun t => done c g r t ∧ t.mate.release = []) ∧
    (mateRole s ≠ 3 → Answers .yieldDrainExpiry s (· = s)) ∧
    (mateRole s = 3 →
      (∀ st < 12, let x := s.stn st
        x.tasks.slots = [] ∧ x.tasks.laneX = [] ∧ x.tasks.laneN = [] ∧ x.core.voqs = [] ∧ x.core.mcqs = []) →
      s.tinker.heldRx = [] → (∀ h ∈ s.tinker.heldTx, h.ef.frame.known) →
      (∀ p, ∀ q ∈ (s.port p).egr.queues, ∀ ef ∈ q.2, ef.frame.known) →
      Answers .yieldDrainExpiry s fun t => (∀ p < 144, (t.port p).egr.queues = []) ∧ SameMem s t ∧
        (∀ st < 12, (t.stn st).draining = true ∧ (t.stn st).yields = true ∧ (t.stn st).drain = (s.stn st).drain ∧
          t.getB (Reg.MOR_STATUS st) Fld.MOR_STATUS_DRAINING = true) ∧
        (∀ h ∈ t.tinker.heldTx, 144 ≤ h.port) ∧
        (∀ p < 144, ∀ c ef, (s.port p).egr.queues = [(c, [ef])] → (∀ q < 144, q ≠ p → (s.port q).egr.queues = []) →
          s.tinker.heldTx = [] → Counts (Reg.MATE_CNT_LO 2) 1 s t) ∧
        (hbLive s = false → mateRole t = 0) ∧
        (hbLive s = true → mateRole t = if primary s = true ∧ s.getB Reg.MATE_STATUS Fld.MATE_STATUS_FORCED = false ∧
          s.getB Reg.MATE_STATUS Fld.MATE_STATUS_PEER_ACT = false then 2 else 1)))

/-! ### Resets, bring-up and Thaw service (ch. 24), management ports (ch. 26) -/

/-- The resets (R413, R414, Table 24.1). A reset input holds the part, the mate's outputs low; BOOT_RESET with its key
asks for the same from 1 µs on. A cold reset reads the straps and leaves every other register at its reset value;
a warm one, by WRESET_N or by BOOT_RESET, keeps the straps and the configuration of the links and records its
kind. Both keep fuses, OTP and the test port and clear all else, control stores and Varve time among it; of the
memory the flow directory holds no tag. That the reset asked for is due 1,000 ns after the write, that a second
write before then changes nothing, and that a reset input takes the place of one that is due, are the model's
choice (log 139). Choices of the model that it rests on: log 1 (DESIGN CHOICE), log 9 (DESIGN CHOICE), log 106
(DESIGN CHOICE), log 107 (DEDUCED), log 139 (DEDUCED). -/
def Obligations.ResetsKeepFusesAndStrapsAlone : Prop :=
  ∀ s : State,
    let cleared (t : State) : Prop := t = { State.reset with
        regs := t.regs, mem := t.mem, ucs := { ckey := s.ucs.ckey }, jtag := s.jtag, pending := s.pending, out := t.out
        fresh := s.fresh + 1, hif := t.hif, boot := { State.reset.boot with i2cAddr := t.boot.i2cAddr } } ∧
      (∃ new, t.out = new ++ s.out ∧ .avsWrite 156 ∈ new) ∧
      ∀ a, dirBase ≤ a → a < 0x720000000 → Memory.read a t.mem = 0#8
    let warm (kind : Nat) (t : State) : Prop :=
      let kept := (List.range 4).map Reg.HIF_LINK_STATUS ++ [Reg.BOOT_STRAP]
      cleared t ∧ t.boot.i2cAddr = s.boot.i2cAddr ∧ t.get Reg.BOOT_CAUSE Fld.BOOT_CAUSE_KIND = kind ∧
      t.hif = { unmasked := s.hif.unmasked, msixTable := s.hif.msixTable, msixPend := s.hif.msixPend } ∧
      (∀ a ∈ kept, t.rd a = s.rd a) ∧ t.get Reg.HIF_CFG Fld.HIF_CFG_BIF = s.get Reg.HIF_CFG Fld.HIF_CFG_BIF ∧
      ∀ a, a ∉ kept → a ≠ Reg.HIF_CFG → a ≠ Reg.BOOT_CAUSE → t.rd a = regReset a
    (∀ cold, Answers (.resetAssert cold) s fun t => t.boot.held = true ∧
      t.boot.coldHeld = (s.boot.coldHeld || cold) ∧
      t.mate.actOut = false ∧ t.mate.hbOut = false ∧ t.boot.warmDue = false ∧ t.regs = s.regs ∧ t.mem = s.mem ∧
        t.stations = s.stations ∧ t.pending = s.pending ∧
      (cold = true → t.varve.pps = false ∧ t.varve.freq = false ∧ t.power.smbLow = false ∧ scanDrive t = none)) ∧
    (∀ (bf mode : Fin 4) (p : Bool) (i : Fin 4), Answers (.coldReset bf mode p i) s fun t => cleared t ∧ t.hif = {} ∧
      t.boot.i2cAddr = i.val ∧ t.get Reg.BOOT_STRAP Fld.BOOT_STRAP_BIF = bf.val ∧
      t.get Reg.BOOT_STRAP Fld.BOOT_STRAP_MODE = mode.val ∧ t.getB Reg.BOOT_STRAP Fld.BOOT_STRAP_PRIMARY = p ∧
      t.get Reg.HIF_CFG Fld.HIF_CFG_BIF = bf.val ∧
      ∀ a, a ≠ Reg.BOOT_STRAP → a ≠ Reg.HIF_CFG → t.rd a = regReset a) ∧
    (s.boot.coldHeld = true → Answers .warmReset s (· = s)) ∧
    (s.boot.coldHeld = false → s.boot.warmDue = true → Answers .warmReset s (warm 2)) ∧
    (s.boot.coldHeld = false → s.boot.warmDue = false → s.boot.held = true → Answers .warmReset s (warm 1)) ∧
    (s.boot.coldHeld = false → s.boot.warmDue = false → s.boot.held = false → Answers .warmReset s (· = s)) ∧
    ∀ v : Word, s.running →
      let keyed := Fld.BOOT_RESET_WARM.of v = 1 ∧ Fld.BOOT_RESET_KEY.of v = 0x5754
      (keyed → s.boot.warmDue = false → Answers (.bootResetWrite v) s fun t =>
        t = { s with boot := { s.boot with warmDue := true, warmAt := s.now + 1000 } }) ∧
      (¬ keyed ∨ s.boot.warmDue = true → Answers (.bootResetWrite v) s (· = s))

/-- The management ports (R449, R450, Table 26.10). The I2C port answers a block read of a register it knows with four
bytes and their PEC, and acknowledges no other; an alert response brings its address while SMB_ALERT_N is low. The
TAP goes to Test-Logic-Reset in five cycles of TMS = 1, where IDCODE is in force; a shift moves one bit from TDI
to TDO; an instruction takes effect in Update-IR, that of all ones as BYPASS. Capture-DR takes the levels that the
part holds into the cells of the boundary-scan register, Update-DR puts the register into the cells, EXTEST_PULSE
and EXTEST_TRAIN invert pins in Run-Test/Idle, what they drive shows where it changes, and TRST_N low is
Test-Logic-Reset; TDO is held low while RESET_N is. What of IEEE 1149.1 and 1149.6 the spec does not repeat is
PRESUMED (log 111). Choices of the model that it rests on: log 1 (DESIGN CHOICE), log 108 (PRESUMED), log 111
(PRESUMED). -/
def Obligations.TheManagementPortsAnswer : Prop :=
  ∀ s : State,
    (∀ c : Byte,
      (s.boot.coldHeld = true → Answers (.i2cBlockRead c) s (· = s)) ∧
      (s.boot.coldHeld = false → i2cRegister c.toNat = none →
        Answers (.i2cBlockRead c) s fun t => t = s.emit (.smbus none)) ∧
      (∀ a, s.boot.coldHeld = false → i2cRegister c.toNat = some a → Answers (.i2cBlockRead c) s fun t =>
        ∃ pec, t = s.emit (.smbus (some (leBytes 4 (regView s a).toNat ++ [pec]))))) ∧
    (let low := s.getB Reg.THM_STATUS Fld.THM_STATUS_CRIT = true ∨
        s.getB Reg.THM_STATUS Fld.THM_STATUS_SENSOR_FAULT = true ∨ bootStage s = 4
     (s.boot.coldHeld = false → low → Answers .smbAlertResponse s fun t =>
        t = s.emit (.smbus (some [BitVec.ofNat 8 (2 * (0x58 + s.boot.i2cAddr))]))) ∧
     (s.boot.coldHeld = true ∨ ¬ low → Answers .smbAlertResponse s (· = s))) ∧
    (let scan (t : State) : List Output := if scanDrive t = scanDrive s then [] else [.scan (scanDrive t)]
     (∀ tdi, Answers (.jtagOperation .trst tdi) s fun t => t = { s with jtag := t.jtag, out := scan t ++ s.out } ∧
        t.jtag = { s.jtag with tap := .reset, instr := none, inverse := false } ∧ scanDrive t = none) ∧
     ∀ tms tdi,
      let j := s.jtag
      let to_ := j.tap.next tms
      let is (P : Jtag → Prop) : Prop := Answers (.jtagOperation (.cycle tms) tdi) s fun t => t.jtag.tap = to_ ∧ P t.jtag
      Answers (.jtagOperation (.cycle tms) tdi) s (fun t => t.jtag.tap = to_ ∧
        t = { s with jtag := t.jtag, out := t.out, fresh := t.fresh } ∧
        (to_ = .shDr → t.out = .tdo (t.jtag.dr.headD false && !s.boot.coldHeld) :: (scan t ++ s.out)) ∧
        (to_ = .shIr → t.out = .tdo (t.jtag.ir.headD false && !s.boot.coldHeld) :: (scan t ++ s.out)) ∧
        (to_ ≠ .shDr → to_ ≠ .shIr → t.out = scan t ++ s.out)) ∧
      (j.tap = .capDr → is fun k => jtagKind j ≤ 1 ∨ k.dr.length = Config.boundaryLen ∧
        ∀ c v, c < Config.boundaryLen → pinLevel s (Config.boundaryPin c) = some v → k.dr[c]? = some v) ∧
      is (fun k => k.cells = (if to_ = .upDr ∧ 2 ≤ jtagKind j then j.dr else j.cells) ∧
        (k.inverse = true ↔ to_ = .idle ∧ (jtagKind j = 3 ∨ jtagKind j = 4 ∧ j.inverse = false))) ∧
      (j.tap = .shDr → is fun k => k.dr = j.dr.tail ++ [tdi] ∧ k.ir = j.ir ∧ k.instr = j.instr) ∧
      (j.tap = .shIr → is fun k => k.ir = j.ir.tail ++ [tdi] ∧ k.dr = j.dr ∧ k.instr = j.instr) ∧
      (j.tap = .capDr → j.instr = none → is fun k => k.dr = (List.range 32).map (0x101446C9).testBit) ∧
      (∀ i, j.tap = .capDr → j.instr = some i → (∀ b ∈ i, b = true) → is fun k => k.dr = [false]) ∧
      (j.tap = .capIr → is fun k => k.ir.take 2 = [true, false]) ∧
      (to_ = .reset → is fun k => k.instr = none) ∧
      (to_ = .upIr → is fun k => k.instr = some k.ir)) ∧
    (∀ x : TapState, ((((x.next true).next true).next true).next true).next true = .reset)

/-- Bring-up (R415 to R418, R423, R425, R426, Table 24.5). The boot block reads the profile at address 0 of its flash.
One that fails its checks, and a flash that does not answer, latch their errors and degrade the part; one that
passes sets the G0 link, the quads, the lanes and the thaw groups, and lists the images to be loaded, an absent
one being recorded. THAW shows with its time, and READY follows where all else is done. BOOT_FULL asks for
stations in READY or FULL alone, those of a write in ascending order, and behind those of earlier ones, which is
the model's choice (log 139). A station whose last Thaw pass has been released switches: its learn requests and
dynamic entries go, its commands and static entries stay, commands that waited for room take it, its stored set-up
is in force, and once all twelve have switched STAGE is FULL. Choices of the model that it rests on: log 1 (DESIGN
CHOICE), log 110 (DEDUCED), log 139 (DEDUCED). -/
def Obligations.BringUpGoesFromFlashToFullService : Prop :=
  ∀ s : State, s.running →
    let stage := bootStage s
    let due := s.get Reg.BOOT_STRAP Fld.BOOT_STRAP_MODE ≠ 2 ∧ s.boot.profile = false ∧
      s.getB Reg.BOOT_STATUS Fld.BOOT_STATUS_PROFILE_ERR = false
    let asks : Output := .flashRead (if s.get Reg.BOOT_STRAP Fld.BOOT_STRAP_MODE = 1 then 0x6B else 0x03) 0 1376
    let refused (t : State) : Prop := t.getB Reg.BOOT_STATUS Fld.BOOT_STATUS_PROFILE_ERR = true ∧ bootStage t = 4 ∧
      t.getB Reg.BOOT_EVENT Fld.BOOT_EVENT_FAIL = true ∧ SameRegsBut [Reg.BOOT_STATUS, Reg.BOOT_EVENT] s t ∧
      t = { s with regs := t.regs, power := { s.power with smbLow := true }, out := AlertPin s t ++ asks :: s.out }
    (∀ b : List Byte,
      let good := b.length = 1376 ∧ leVal (b.take 4) = 0x46435046 ∧ leVal ((b.drop 4).take 1) = 1 ∧
        leVal (b.drop 1372) = leVal (fcsOf (b.take 1372))
      let byte (k : Nat) := (b.getD k 0#8).toNat
      let off (k : Nat) := leVal ((b.drop (8 + 8 * k)).take 4)
      let len (k : Nat) := leVal ((b.drop (12 + 8 * k)).take 4)
      let word (o : Nat) := BitVec.ofNat 32 (leVal ((b.drop o).take 4))
      (¬ due → Answers (.profileRead b) s (· = s)) ∧
      (due → ¬ good → Answers (.profileRead b) s refused) ∧
      (due → good → s.ports = [] → (∀ p < 144, s.getB (Reg.LANE_CFG p) Fld.LANE_CFG_EN = false) →
        s.tinker.heldTx = [] → s.tinker.heldRx = [] →
        Answers (.profileRead b) s fun t => t.boot.profile = true ∧ asks ∈ t.out ∧
        t.get Reg.HIF_CFG Fld.HIF_CFG_G0_LINK =
          (if (byte 5).testBit 7 = true ∧ byte 5 % 4 < linkCount s then byte 5 % 4 else 0) ∧
        (∀ q < 36, let m := Fld.STN_QUAD_MODE.of (BitVec.ofNat 32 (byte (40 + q)))
          t.quadMode q = if m ≤ 4 then m else s.quadMode q) ∧
        (∀ l < 144, aget? l t.boot.lanes =
          if (byte (1228 + l)).testBit 7 = true then some (byte (1228 + l) % 4) else none) ∧
        (∀ l < 144, t.portEn l = (decide (Fld.LANE_CFG_EN.of (word (76 + 4 * l)) = 1) && decide (t.portWidth l ≠ 0))) ∧
        (∀ k < 4, len k = 0 → t.get (Reg.BOOT_IMG k) Fld.BOOT_IMG_RESULT = 2) ∧
        (len 0 = 0 ∨ len 2 = 0 → bootStage t = 4) ∧ (len 0 ≠ 0 → len 2 ≠ 0 → bootStage t = stage) ∧
        ((∃ k < 4, len k ≠ 0) → t.ucs.boot = ([2, 0, 3, 1].map fun k => (k, off k, len k)).filter fun e => e.2.2 != 0) ∧
        ((∀ k < 4, len k = 0) → t.getB Reg.BOOT_EVENT Fld.BOOT_EVENT_IMAGES = true ∧ t.ucs = s.ucs))) ∧
    (due → Answers .flashTimeout s fun t => refused t ∧ t.getB Reg.BOOT_STATUS Fld.BOOT_STATUS_FLASH_ERR = true) ∧
    (¬ due → Answers .flashTimeout s (· = s)) ∧
    (s.boot.thaw = true → Answers .thawReached s (· = s)) ∧
    (s.boot.thaw = false → Answers .thawReached s fun t => t.boot = { s.boot with thaw := true } ∧
      t.getB Reg.BOOT_EVENT Fld.BOOT_EVENT_THAW = true ∧
        t.get (Reg.BOOT_MS 0) Fld.BOOT_MS_MS = min 65535 (s.now / 1000000) ∧
      bootStage t = (if (stage = 0 ∨ stage = 1 ∨ stage = 4) ∧ hbmReady s = true ∧ vendorImages s = true then 2
        else if stage = 0 then 1 else stage) ∧
      SameRegsBut [Reg.BOOT_STATUS, Reg.BOOT_EVENT, Reg.BOOT_MS 0] s t ∧ SameMem s t) ∧
    (∀ v : Word,
      let go := Fld.BOOT_FULL_GO.of v
      (go = 0 → Answers (.bootFullRequest v) s (· = s)) ∧
      (go ≠ 0 → stage ≠ 2 → stage ≠ 3 → Answers (.bootFullRequest v) s fun t =>
        t.getB Reg.BOOT_EVENT Fld.BOOT_EVENT_GO_ERR = true ∧ OnlyRegsOf [Reg.BOOT_EVENT] s t) ∧
      (go ≠ 0 → stage = 2 ∨ stage = 3 → Answers (.bootFullRequest v) s fun t =>
        t = { s with boot := { s.boot with full := t.boot.full } } ∧
        ∃ asked, t.boot.full = s.boot.full ++ asked ∧ asked.Pairwise (· < ·) ∧
          ∀ n, n ∈ asked ↔ n < 12 ∧ go.testBit n = true ∧ s.full n = false ∧ n ∉ s.boot.full)) ∧
    (∀ (st : Station) (rest : List Nat),
      let n := st.val
      let free := (s.stn n).tasks.slots = [] ∧ hkRun s 0 = true
      let table (t : State) (l : Nat) := t.eptAt n l
      let all := s.get Reg.BOOT_STATUS Fld.BOOT_STATUS_FULL ||| 2 ^ n
      (s.boot.full = n :: rest → free → (∀ x ∈ (s.stn n).ept.table, table s x.1 = some x.2 ∧ x.2.1.guild < 8) →
        Answers (.stationFullSwitch st) s fun t => t.boot.full = rest ∧ t.full n = true ∧ SameMem s t ∧
        (∀ m, m ≠ n → m < 12 → t.full m = s.full m ∧ t.stn m = s.stn m) ∧ Counts (Reg.BOOT_CNT_LO 1) 1 s t ∧
        t.getB Reg.BOOT_EVENT Fld.BOOT_EVENT_FULL = true ∧
        (let kept := (s.stn n).ept.queue.filter fun r => match r with | .learn _ _ _ => false | _ => true
         ∀ g r, .cmd g r ∈ (t.stn n).ept.queue ↔
          .cmd g r ∈ kept ∨ (g, r) ∈ (s.stn n).ept.blocked.take (512 - kept.length)) ∧
        (∀ k d e, .learn k d e ∉ (t.stn n).ept.queue) ∧
        (∀ l, table t l = (table s l).bind fun x => if x.2.static then some x else none) ∧
        (∀ a, stationBase n ≤ a → a < stationBase (n + 1) → t.inForce a = t.rdN a) ∧
        (t.stn n).tasks = (s.stn n).tasks ∧ (t.stn n).core = (s.stn n).core ∧
        bootStage t = if all = 4095 then 3 else stage) ∧
      (s.boot.full.head? ≠ some n ∨ ¬ free → Answers (.stationFullSwitch st) s (· = s)))

/-! ### Action engines and ordered release (ch. 10, 12) -/

/-- What the operations of one word give (R199 to R204, R206, R207, R210, R218). Every unit reads the registers and
flags as they stood at the start of the word. An ALU's result is that of Table 10.4, masked to its width; it sets
Z, N and C of its own flags from it; NOP writes nothing and leaves them, CMP and TEST write no register. Of two
units that write one register the later in the order ALU A, ALU B, lease load, header load wins; a register that
no unit writes, v0 and v24 to v28 keep their values. The lease port loads and stores the lanes of BYTEEN, the
header port moves LEN + 1 bytes big-endian, inserts and deletes n bytes, and finds header offsets; EMIT stages v20
to v23, TRAP the word's address and IMM; what no unit of the word works on stays as it was. The sequencer takes
the next word of Table 10.5 under the condition of Table 10.6. -/
def Obligations.AWordsUnitsGiveTheirResults : Prop :=
  ∀ (w : BitVec 160) (hv : List (Nat × Nat)) (r : Run), r.regs.length = 32 →
    let v (k : Nat) := vGet r.regs k
    let q := wordUnits w hv r
    let byte (k : Nat) (x : BitVec 64) : Byte := x.extractLsb' (8 * k) 8
    let b (y : AluWord) := if 32 ≤ y.op then BitVec.ofNat 64 (mwImm w) else v y.srcb
    let width (y : AluWord) := if y.width = 0 ∧ y.op % 32 ≠ 12 ∧ y.op % 32 ≠ 13 then 64 else y.width + 1
    let gives (y : AluWord) (x : BitVec 64) : Prop :=
      let op := y.op % 32
      let a := v y.srca
      let b := b y
      let b' := b <<< y.shift
      let n := width y
      let masked (z : BitVec 64) : Prop := x = z &&& BitVec.ofNat 64 (2 ^ n - 1)
      (op = 1 → masked b') ∧ (op = 2 → masked (a + b')) ∧ (op = 3 ∨ op = 18 → masked (a - b')) ∧
        (op = 4 ∨ op = 19 → masked (a &&& b')) ∧ (op = 5 → masked (a ||| b')) ∧ (op = 6 → masked (a ^^^ b')) ∧
        (op = 7 → masked (a &&& ~~~b')) ∧ (op = 8 → masked (a <<< (b.toNat % 64))) ∧
        (op = 9 → masked (a >>> (b.toNat % 64))) ∧
        (op = 10 → masked (((a.setWidth n).sshiftRight (b.toNat % 64)).setWidth 64)) ∧ (op = 11 → masked (~~~a)) ∧
        (op = 12 → masked (a >>> y.shift)) ∧
        (op = 13 → ∀ k < 64, x.getLsbD k =
          if y.shift ≤ k ∧ k < y.shift + n then b.getLsbD (k - y.shift) else a.getLsbD k) ∧
        (op = 14 → n % 8 = 0 → x.toNat < 2 ^ n ∧ ∀ k < n / 8, byte k x = byte (n / 8 - 1 - k) a) ∧
        (op = 15 →
          let sum := ((List.range 4).map fun k => (a.extractLsb' (16 * k) 16).toNat + (b'.extractLsb' (16 * k) 16).toNat).sum
          x.toNat < 65536 ∧ x.toNat % 65535 = sum % 65535 ∧ (x = 0#64 ↔ sum = 0)) ∧
        (op = 16 → masked (if a.toNat ≤ b'.toNat then a else b')) ∧ (op = 17 →
          masked (if a.toNat ≤ b'.toNat then b' else a))
    let flags (y : AluWord) (x : BitVec 64) (f : Flags) : Prop :=
      let op := y.op % 32
      let n := width y
      let a := (v y.srca).toNat % 2 ^ n
      let b' := (b y <<< y.shift).toNat % 2 ^ n
      f.z = (x == 0#64) ∧ f.n = x.getLsbD ((if op = 13 then 64 else if op = 15 then 16 else n) - 1) ∧
        f.c = (if op = 2 then decide (2 ^ n ≤ a + b') else if op = 3 ∨ op = 18 then decide (a < b') else false)
    let yA := mwAlu w 104
    let yB := mwAlu w 72
    let dst (y : AluWord) : List Nat := if y.op % 32 = 0 ∨ y.op % 32 = 18 ∨ y.op % 32 = 19 then [] else [y.dst]
    let lpDst : List Nat := if mwLpOp w = 1 ∨ mwLpOp w = 2 then [mwLpReg w] else []
    let hpDst : List Nat := if mwHpOp w = 1 ∨ mwHpOp w = 2 ∨ mwHpOp w = 9 then [mwHpReg w] else []
    let fixed : List Nat := [0, 24, 25, 26, 27, 28]
    let alu (y : AluWord) (later : List Nat) (old new : Flags) : Prop :=
      (y.op % 32 = 0 → new = old) ∧ (y.op % 32 ≠ 0 → y.op % 32 < 20 → ∃ x, gives y x ∧ flags y x new ∧
        (y.op % 32 < 18 → y.dst ∉ later ++ fixed → vGet q.regs y.dst = x))
    let lp : Nat := mwLpOff w
    let hp : Nat := if mwHpOp w % 2 = 0 then (v (8 + mwHpOff w / 64)).toNat % 512 + mwHpOff w % 64 else mwHpOff w
    let n := if mwHpLen w = 0 then (v (mwHpReg w)).toNat % 128 else 4 * mwHpLen w
    let reg := v (mwHpReg w)
    alu yA (dst yB ++ lpDst ++ hpDst) r.fa q.fa ∧ alu yB (lpDst ++ hpDst) r.fb q.fb ∧
    (∀ k, k ∈ fixed ∨ k ∉ dst yA ++ dst yB ++ lpDst ++ hpDst → vGet q.regs k = v k) ∧
    (mwLpReg w ∉ hpDst ++ fixed → ∀ k < 8, ∀ blk : List Byte, mwLpOp w = 1 ∧ blk = r.keyw ∨ mwLpOp w = 2 ∧
      blk = r.half →
      byte k (vGet q.regs (mwLpReg w)) =
        if (mwByteEn w).testBit k ∧ lp + k < 64 then blk.getD (lp + k) 0#8 else 0#8) ∧
    (mwLpOp w = 3 → r.half.length = 64 → q.half.length = 64 ∧ q.stored = true ∧ ∀ j < 64, q.half.getD j 0#8 =
      if 4 ≤ j ∧ lp ≤ j ∧ j < lp + 8 ∧ (mwByteEn w).testBit (j - lp) then
        if j = 4 then r.half.getD 4 0#8 &&& 0xFE#8 ||| byte (4 - lp) (v (mwLpReg w)) &&& 0x01#8
        else byte (j - lp) (v (mwLpReg w))
      else r.half.getD j 0#8) ∧
    (mwLpOp w ≠ 3 → q.half = r.half ∧ q.stored = r.stored) ∧
    (q.adds, q.nAdds) = (if mwLpOp w = 4 then (r.adds ++ [(lp % 8, (v (mwLpReg w)).toNat)], r.nAdds + 1)
      else (r.adds, r.nAdds)) ∧
    (mwHpOp w = 1 ∨ mwHpOp w = 2 → mwHpReg w ∉ fixed → mwHpLen w < 8 → hp + mwHpLen w < r.frame.length → ∀ k < 8,
      byte k (vGet q.regs (mwHpReg w)) = if k ≤ mwHpLen w then r.frame.getD (hp + mwHpLen w - k) 0#8 else 0#8) ∧
    (mwHpOp w = 3 ∨ mwHpOp w = 4 → mwHpLen w < 8 → hp + mwHpLen w < r.frame.length →
      q.frame.length = r.frame.length ∧ ∀ j, q.frame.getD j 0#8 =
        if hp ≤ j ∧ j ≤ hp + mwHpLen w then byte (hp + mwHpLen w - j) reg else r.frame.getD j 0#8) ∧
    (mwHpOp w = 5 ∨ mwHpOp w = 6 → q.frame = r.frame.take hp ++ List.replicate n 0#8 ++ r.frame.drop hp ∧
      q.window = r.window + n ∧ q.net = r.net + n) ∧
    (mwHpOp w = 7 ∨ mwHpOp w = 8 → q.frame = r.frame.take hp ++ r.frame.drop (hp + n) ∧ q.window = r.window - n ∧
      q.net = r.net - n) ∧
    q.nEdits = r.nEdits + (if 3 ≤ mwHpOp w ∧ mwHpOp w ≤ 8 then 1 else 0) ∧
    (mwHpOp w < 3 ∨ 8 < mwHpOp w → q.frame = r.frame ∧ q.l3 = r.l3) ∧
    (mwHpOp w < 5 ∨ 8 < mwHpOp w → q.window = r.window ∧ q.net = r.net) ∧
    (mwHpOp w = 9 → (∀ before id o after, hv = before ++ (id, o) :: after → id = mwHpOff w % 64 →
        (∀ e ∈ if 256 ≤ mwHpOff w then after else before, e.1 ≠ id) → q.hvMiss = false ∧
          (mwHpReg w ∉ fixed → vGet q.regs (mwHpReg w) = BitVec.ofNat 64 o)) ∧
      ((∀ e ∈ hv, e.1 ≠ mwHpOff w % 64) → q.hvMiss = true ∧
        (mwHpReg w ∉ fixed → vGet q.regs (mwHpReg w) = BitVec.allOnes 64))) ∧
    (mwHpOp w ≠ 9 → q.hvMiss = r.hvMiss) ∧
    q.emits = r.emits ++ (if mwEmit w then [(List.range 4).flatMap fun k => leBytes 8 (v (20 + k)).toNat] else []) ∧
    q.traps = r.traps ++ (if mwTrap w then [(r.pc, mwImm w)] else []) ∧
    (q.pc, q.keyw, q.committed, q.base, q.stack, q.task, q.words) =
      (r.pc, r.keyw, r.committed, r.base, r.stack, r.task, r.words + 1) ∧
    (∀ env : WordEnv, env.pass = passBits r.regs →
      let held (c : Nat) : Bool := [true, r.fa.z, r.fa.n, r.fa.c, r.fb.z, r.fb.n, r.fb.c, (v 24).getLsbD 32,
        (v 24).getLsbD 33, (v 25).getLsbD 0, (v 26).getLsbD 32, (v 24).getLsbD 35, r.hvMiss,
        (v 24).extractLsb' 28 2 == 0#2, (v 24).extractLsb' 22 3 == 7#3, (v 24).getLsbD 34, (v 24).getLsbD 36,
        r.committed, (v 24).getLsbD 37].getD c false
      ∀ c < 19, mwCond w % 32 = c →
        let holds := held c != decide (32 ≤ mwCond w)
        (mwSeqop w = 0 → wordNext w r env = some (r.pc + 1)) ∧
        (1 ≤ mwSeqop w → mwSeqop w < 7 → holds = false → wordNext w r env = some (r.pc + 1)) ∧
        (mwSeqop w = 1 → holds = true → wordNext w r env = some (mwTarget w)) ∧
        (mwSeqop w = 2 → holds = true → wordNext w r env = none) ∧
        (mwSeqop w = 4 → holds = true → wordNext w r env = some (mwTarget w)) ∧
        (∀ a rest, mwSeqop w = 5 → holds = true → r.stack = a :: rest → wordNext w r env = some a) ∧
        (mwSeqop w = 6 → holds = true → wordNext w r env = some r.pc) ∧
        (∀ a, mwSeqop w = 3 → holds = true → env.entry (mwImm w % 256) = some a → wordNext w r env = some a))
end

