-- ==== Sys2Proof/Laws/Lists.lean ====
section
/-! SUPPORT. Keyed lists, the register file and the bytes of memory: what is read after a write, and the canonical
forms, kept by every operation. -/
namespace Sys2Proof.Machine

@[simp] theorem aget?_aset_same {α : Type} (k : Nat) (v : α) (l : List (Nat × α)) : aget? k (aset k v l) = some v := by
  induction l with
  | nil => simp [aset, aget?]
  | cons e r ih =>
    obtain ⟨i, w⟩ := e
    unfold aset
    split
    · simp [aget?]
    · split
      · simp [aget?]
      · simp [aget?, *]

theorem aget?_aset_ne {α : Type} {j k : Nat} (h : j ≠ k) (v : α) (l : List (Nat × α)) :
    aget? j (aset k v l) = aget? j l := by
  induction l with
  | nil => simp [aset, aget?, Ne.symm h]
  | cons e r ih =>
    obtain ⟨i, w⟩ := e
    unfold aset
    split
    · next hi => subst hi; simp [aget?, Ne.symm h]
    · split
      · simp [aget?, Ne.symm h]
      · simp [aget?, ih]

@[simp] theorem aget?_adel_same {α : Type} (k : Nat) (l : List (Nat × α)) : aget? k (adel k l) = none := by
  induction l with
  | nil => simp [adel, aget?]
  | cons e r ih =>
    obtain ⟨i, w⟩ := e
    by_cases hi : i = k
    · simpa [adel, hi] using ih
    · simpa [adel, hi, aget?] using ih

theorem aget?_adel_ne {α : Type} {j k : Nat} (h : j ≠ k) (l : List (Nat × α)) : aget? j (adel k l) = aget? j l := by
  induction l with
  | nil => simp [adel]
  | cons e r ih =>
    obtain ⟨i, w⟩ := e
    by_cases hi : i = k
    · subst hi; simpa [adel, aget?, Ne.symm h] using ih
    · by_cases hj : i = j
      · subst hj; simp [adel, aget?, hi]
      · simpa [adel, aget?, hi, hj] using ih

@[simp] theorem aget_aset_same {α : Type} (d : α) (k : Nat) (v : α) (l : List (Nat × α)) : aget d k (aset k v l) = v := by
  simp [aget]

theorem aget_aset_ne {α : Type} (d : α) {j k : Nat} (h : j ≠ k) (v : α) (l : List (Nat × α)) :
    aget d j (aset k v l) = aget d j l := by
  simp [aget, aget?_aset_ne h]

@[simp] theorem aget_adel_same {α : Type} (d : α) (k : Nat) (l : List (Nat × α)) : aget d k (adel k l) = d := by
  simp [aget]

theorem aget_adel_ne {α : Type} (d : α) {j k : Nat} (h : j ≠ k) (l : List (Nat × α)) :
    aget d j (adel k l) = aget d j l := by
  simp [aget, aget?_adel_ne h]

/-! ### Canonical forms -/

theorem rising_iff {α : Type} (l : List (Nat × α)) : rising l = true ↔ l.Pairwise fun a b => a.1 < b.1 := by
  simp [rising]

theorem mem_aset {α : Type} {k : Nat} {v : α} {l : List (Nat × α)} {e : Nat × α} (h : e ∈ aset k v l) :
    e = (k, v) ∨ e ∈ l := by
  induction l with
  | nil => simpa [aset] using h
  | cons x r ih =>
    obtain ⟨i, w⟩ := x
    unfold aset at h
    split at h
    · simp only [List.mem_cons] at h ⊢; tauto
    · split at h
      · simpa using h
      · simp only [List.mem_cons] at h ⊢
        rcases h with h | h
        · tauto
        · rcases ih h with h | h <;> tauto

theorem pairwise_aset {α : Type} (k : Nat) (v : α) {l : List (Nat × α)} (h : l.Pairwise fun a b => a.1 < b.1) :
    (aset k v l).Pairwise fun a b => a.1 < b.1 := by
  induction l with
  | nil => simp [aset]
  | cons x r ih =>
    obtain ⟨i, w⟩ := x
    rw [List.pairwise_cons] at h
    unfold aset
    split
    · next hi => subst hi; exact List.pairwise_cons.2 ⟨h.1, h.2⟩
    · split
      · next hk =>
        refine List.pairwise_cons.2 ⟨fun e he => ?_, List.pairwise_cons.2 h⟩
        rcases List.mem_cons.1 he with he | he
        · subst he; exact hk
        · exact Nat.lt_trans hk (h.1 e he)
      · next h1 h2 =>
        refine List.pairwise_cons.2 ⟨fun e he => ?_, ih h.2⟩
        rcases mem_aset he with he | he
        · subst he; simp only; omega
        · exact h.1 e he

theorem rising_aset {α : Type} (k : Nat) (v : α) {l : List (Nat × α)} (h : rising l = true) :
    rising (aset k v l) = true := by
  rw [rising_iff] at *; exact pairwise_aset k v h

theorem rising_adel {α : Type} (k : Nat) {l : List (Nat × α)} (h : rising l = true) : rising (adel k l) = true := by
  rw [rising_iff] at *; exact h.filter _

theorem rising_filter {α : Type} (p : Nat × α → Bool) {l : List (Nat × α)} (h : rising l = true) :
    rising (l.filter p) = true := by
  rw [rising_iff] at *; exact h.filter _

theorem awr_eq {α : Type} [DecidableEq α] (k : Nat) (v d : α) (l : List (Nat × α)) :
    awr k v d l = if v = d then adel k l else aset k v l := by
  cases l <;> rfl

/-! ### Registers -/

@[simp] theorem State.rd_wr_same (s : State) (a : Nat) (v : Word) : (s.wr a v).rd a = v := by
  unfold State.rd State.wr
  rw [awr_eq]
  split
  · next h => simp [h]
  · simp

theorem State.rd_wr_ne (s : State) {a b : Nat} (h : b ≠ a) (v : Word) : (s.wr a v).rd b = s.rd b := by
  unfold State.rd State.wr
  rw [awr_eq]
  split
  · simp [aget?_adel_ne h]
  · simp [aget?_aset_ne h]

theorem Regs.wf_wr {s : State} (a : Nat) (v : Word) (h : Regs.wf s.regs = true) : Regs.wf (s.wr a v).regs = true := by
  simp only [Regs.wf, Bool.and_eq_true, List.all_eq_true] at *
  unfold State.wr
  rw [awr_eq]
  split
  · exact ⟨rising_adel a h.1, fun e he => h.2 e (List.mem_of_mem_filter he)⟩
  · next hv =>
    refine ⟨rising_aset a v h.1, fun e he => ?_⟩
    rcases mem_aset he with he | he
    · subst he; simpa using hv
    · exact h.2 e he

theorem Regs.wf_filter {r : List (Nat × Word)} (p : Nat × Word → Bool) (h : Regs.wf r = true) :
    Regs.wf (r.filter p) = true := by
  simp only [Regs.wf, Bool.and_eq_true, List.all_eq_true] at *
  exact ⟨rising_filter p h.1, fun e he => h.2 e (List.mem_of_mem_filter he)⟩

/-! ### Memory -/

theorem Memory.read_eq (a : Nat) (m : List Host.Cell) : Memory.read a m = (aget? a m).getD Memory.unlisted := by
  induction m with
  | nil => simp [Memory.read, aget?]
  | cons e r ih =>
    obtain ⟨i, w⟩ := e
    by_cases hi : i = a <;> simp [Memory.read, aget?, hi, ih]

@[simp] theorem Memory.read_write_same (a : Nat) (b : Byte) (m : List Host.Cell) :
    Memory.read a (Memory.write a b m) = b := by
  rw [Memory.read_eq]
  unfold Memory.write
  rw [awr_eq]
  split
  · next h => simp [h]
  · simp

theorem Memory.read_write_ne {a k : Nat} (h : k ≠ a) (b : Byte) (m : List Host.Cell) :
    Memory.read k (Memory.write a b m) = Memory.read k m := by
  rw [Memory.read_eq, Memory.read_eq]
  unfold Memory.write
  rw [awr_eq]
  split
  · rw [aget?_adel_ne h]
  · rw [aget?_aset_ne h]

theorem Memory.wf_write (a : Nat) (b : Byte) {m : List Host.Cell} (h : Memory.wf m = true) :
    Memory.wf (Memory.write a b m) = true := by
  simp only [Memory.wf, Bool.and_eq_true, List.all_eq_true] at *
  unfold Memory.write
  rw [awr_eq]
  split
  · exact ⟨rising_adel a h.1, fun e he => h.2 e (List.mem_of_mem_filter he)⟩
  · next hv =>
    refine ⟨rising_aset a b h.1, fun e he => ?_⟩
    rcases mem_aset he with he | he
    · subst he; simpa using hv
    · exact h.2 e he

theorem Memory.wf_writeN (bs : List Byte) {a : Nat} {m : List Host.Cell} (h : Memory.wf m = true) :
    Memory.wf (Memory.writeN a bs m) = true := by
  induction bs generalizing a m with
  | nil => exact h
  | cons b bs ih => exact ih (Memory.wf_write a b h)

/-- The number that freeFrom gives is one of the n, and not in use, where fewer than n are. -/
theorem freeFrom_spec {used : List Nat} {n : Nat} (lo start : Nat) (h : used.length < n) :
    freeFrom used lo n start ∉ used ∧ lo ≤ freeFrom used lo n start ∧ freeFrom used lo n start < lo + n := by
  have hn : 0 < n := by omega
  unfold freeFrom
  cases hf : ((List.range (used.length + 1)).map fun k => lo + (start + k) % n).find? fun i => !used.contains i with
  | some i =>
    have h1 := List.find?_some hf
    obtain ⟨k, -, rfl⟩ := List.mem_map.1 (List.mem_of_find?_eq_some hf)
    have h2 := Nat.mod_lt (start + k) hn
    refine ⟨by simpa using h1, ?_, ?_⟩ <;> simp only [Option.getD_some] <;> omega
  | none =>
    exfalso
    have hall : ∀ k < used.length + 1, lo + (start + k) % n ∈ used := by
      simpa [List.find?_eq_none] using hf
    have hinj : Set.InjOn (fun k => lo + (start + k) % n) (Finset.range (used.length + 1)) := by
      intro a ha b hb hab
      simp only [Finset.coe_range, Set.mem_Iio] at ha hb
      have h3 : (start + a) % n = (start + b) % n := by simpa using hab
      have h4 : a % n = b % n := Nat.ModEq.add_left_cancel' start h3
      rwa [Nat.mod_eq_of_lt (by omega), Nat.mod_eq_of_lt (by omega)] at h4
    have hsub : (Finset.range (used.length + 1)).image (fun k => lo + (start + k) % n) ⊆ used.toFinset := by
      intro x hx
      obtain ⟨k, hk, rfl⟩ := Finset.mem_image.1 hx
      exact List.mem_toFinset.2 (hall k (Finset.mem_range.1 hk))
    have hc := Finset.card_le_card hsub
    rw [Finset.card_image_of_injOn hinj, Finset.card_range] at hc
    have := List.toFinset_card_le used
    omega

/-- A write of bytes leaves every address outside them as it was. -/
theorem Memory.read_writeN_out (bs : List Byte) {a k : Nat} (h : k < a ∨ a + bs.length ≤ k) (m : List Host.Cell) :
    Memory.read k (Memory.writeN a bs m) = Memory.read k m := by
  induction bs generalizing a m with
  | nil => rfl
  | cons b bs ih =>
    simp only [List.length_cons] at h
    have h2 : k ≠ a := by omega
    rw [Memory.writeN, ih (by omega), Memory.read_write_ne h2]

/-- A write of bytes is read back. -/
theorem Memory.readN_writeN (bs : List Byte) (a : Nat) (m : List Host.Cell) :
    Memory.readN (Memory.writeN a bs m) a bs.length = bs := by
  induction bs generalizing a m with
  | nil => rfl
  | cons b bs ih =>
    have h : Memory.read a (Memory.writeN (a + 1) bs (Memory.write a b m)) = b := by
      rw [Memory.read_writeN_out bs (Or.inl (Nat.lt_succ_self a)), Memory.read_write_same]
    simp only [List.length_cons, Memory.readN, Memory.writeN, h, ih]

end Sys2Proof.Machine
end

