-- ==== Sys2Proof/Laws/Keeps.lean ====
section
/-! SUPPORT. What every operation of the part keeps: `Keeps s0 s` says that the memory and the register file of s are in
canonical form, and that the queue, the timebase, the test port, the reset hold and the customer key are those of s0. -/
namespace Sys2Proof.Machine

/-- `Keeps`, over the components. -/
def Kept (s0 : State) (mem : List Host.Cell) (regs : List (Nat × Word)) (pending : List Instr) (now : Nat) (jtag : Jtag)
    (held : Bool) (ckey : Option Nat) : Prop :=
  (Memory.wf mem = true ∧ Regs.wf regs = true) ∧ pending = s0.pending ∧ now = s0.now ∧ jtag = s0.jtag
    ∧ held = s0.boot.held ∧ ckey = s0.ucs.ckey

def Keeps (s0 s : State) : Prop := Kept s0 s.mem s.regs s.pending s.now s.jtag s.boot.held s.ucs.ckey

theorem kept_of {s0 : State} (s : State) (h : Keeps s0 s) :
    Kept s0 s.mem s.regs s.pending s.now s.jtag s.boot.held s.ucs.ckey := h

/-- A state whose relevant parts are those of s. -/
theorem Keeps.of_eq {s0 s t : State} (h : Keeps s0 s) (h1 : t.mem = s.mem) (h2 : t.regs = s.regs)
    (h3 : t.pending = s.pending) (h4 : t.now = s.now) (h5 : t.jtag = s.jtag) (h6 : t.boot.held = s.boot.held)
    (h7 : t.ucs.ckey = s.ucs.ckey) : Keeps s0 t := by
  unfold Keeps; rw [h1, h2, h3, h4, h5, h6, h7]; exact h

theorem Keeps.refl {s : State} (h1 : Memory.wf s.mem = true) (h2 : Regs.wf s.regs = true) : Keeps s s :=
  ⟨⟨h1, h2⟩, rfl, rfl, rfl, rfl, rfl⟩

theorem keeps_mk {s0 : State} {a0 a1 a2 a3 a4 a5 a6 a7 a8 a9 a10 a11 a12 a13 a14 a15 a16 a17 a18 a19 a20 a21 a22 a23 a24 a25 a26 a27 a28 a29 a30 a31}
    :
    Keeps s0 (State.mk a0 a1 a2 a3 a4 a5 a6 a7 a8 a9 a10 a11 a12 a13 a14 a15 a16 a17 a18 a19 a20 a21 a22 a23 a24 a25 a26 a27 a28 a29 a30 a31) = Kept s0 a22 a0 a31 a3 a28 (Boot.held a27) (Ucs.ckey a18) := rfl

theorem keeps_snd {α : Type} {s0 s : State} {a : α} {p : α × State} (e : p = (a, s)) (h : Keeps s0 p.2) : Keeps s0 s := by
  subst e; exact h

theorem keeps_snd2 {α β : Type} {s0 s : State} {a : α} {b : β} {p : α × β × State} (e : p = (a, b, s))
    (h : Keeps s0 p.2.2) : Keeps s0 s := by
  subst e; exact h

theorem keeps_pair {α : Type} {s0 s : State} {a : α} (h : Keeps s0 s) : Keeps s0 (a, s).2 := h

theorem keeps_triple {α β : Type} {s0 s : State} {a : α} {b : β} (h : Keeps s0 s) : Keeps s0 (a, b, s).2.2 := h

theorem keeps_have {α β γ : Type} {s0 : State} (e : α) (f : α → β × γ × State) (h : Keeps s0 (f e).2.2) :
    Keeps s0 (have x := e; f x).2.2 := h

theorem keeps_foldl {α : Type} {s0 : State} {f : State → α → State} {l : List α} {s : State}
    (hf : ∀ s x, Keeps s0 s → Keeps s0 (f s x)) (h : Keeps s0 s) : Keeps s0 (l.foldl f s) := by
  induction l generalizing s with
  | nil => exact h
  | cons x r ih => exact ih (hf s x h)

theorem keeps_foldl2 {α β : Type} {s0 : State} {f : β × State → α → β × State} {l : List α} {p : β × State}
    (hf : ∀ p x, Keeps s0 p.2 → Keeps s0 (f p x).2) (h : Keeps s0 p.2) : Keeps s0 (l.foldl f p).2 := by
  induction l generalizing p with
  | nil => exact h
  | cons x r ih => exact ih (hf p x h)

theorem keeps_foldl3 {α β γ : Type} {s0 : State} {f : γ × β × State → α → γ × β × State} {l : List α}
    {p : γ × β × State} (hf : ∀ p x, Keeps s0 p.2.2 → Keeps s0 (f p x).2.2) (h : Keeps s0 p.2.2) :
    Keeps s0 (l.foldl f p).2.2 := by
  induction l generalizing p with
  | nil => exact h
  | cons x r ih => exact ih (hf p x h)

theorem State.wr_keeps {s0 s : State} {a : Nat} {v : Word} (h : Keeps s0 s) : Keeps s0 (s.wr a v) :=
  ⟨⟨h.1.1, Regs.wf_wr a v h.1.2⟩, h.2⟩

theorem State.mwr_keeps {s0 s : State} {a : Nat} {bs : List Byte} (h : Keeps s0 s) : Keeps s0 (s.mwr a bs) :=
  ⟨⟨Memory.wf_writeN bs h.1.1, h.1.2⟩, h.2⟩

theorem act_keeps {s0 s t : State} {f : State → State} (hf : ∀ s, Keeps s0 s → Keeps s0 (f s)) (h : Keeps s0 s)
    (e : act s f = .next t) : Keeps s0 t := by
  unfold act at e
  injection e with e
  subst e
  split
  · exact h
  · exact hf s h

end Sys2Proof.Machine
end

