-- ==== Sys2Proof/Laws/OpsK.lean ====
section
/-! SUPPORT. Every operation of Machine/Ops.lean keeps what `Keeps` says. -/
set_option linter.unusedTactic false
set_option linter.unreachableTactic false
set_option linter.unusedSimpArgs false
namespace Sys2Proof.Machine

theorem State.put_keeps {s0 s : State} {x2 x3 x4} (h : Keeps s0 s) :
    Keeps s0 (State.put s x2 x3 x4) := by
  unfold State.put
  repeat' first
    | with_reducible assumption
    | with_reducible apply State.wr_keeps
    | intro z
    | split
    | dsimp only

theorem State.putB_keeps {s0 s : State} {x2 x3 x4} (h : Keeps s0 s) :
    Keeps s0 (State.putB s x2 x3 x4) := by
  unfold State.putB
  repeat' first
    | with_reducible assumption
    | with_reducible apply State.put_keeps
    | intro z
    | split
    | dsimp only

theorem State.raise_keeps {s0 s : State} {x2 x3} (h : Keeps s0 s) :
    Keeps s0 (State.raise s x2 x3) := by
  unfold State.raise
  repeat' first
    | with_reducible assumption
    | with_reducible apply State.put_keeps
    | intro z
    | split
    | dsimp only

theorem State.cntSet_keeps {s0 s : State} {x2 x3} (h : Keeps s0 s) :
    Keeps s0 (State.cntSet s x2 x3) := by
  unfold State.cntSet
  repeat' first
    | with_reducible assumption
    | with_reducible apply State.wr_keeps
    | (intro z; refine (fun (hz : Keeps s0 z) => ?_) ?_; (on_goal 1 => clear_value z); (on_goal 2 => (dsimp -zeta only [z]; clear z)))
    | (intro z; refine (fun (hF : ∀ s, Keeps s0 s → Keeps s0 (z s)) => ?_) ?_; (on_goal 1 => clear_value z); (on_goal 2 => (dsimp -zeta only [z]; clear z; intros)))
    | (intro z; refine (fun (hG : ∀ s y, Keeps s0 s → Keeps s0 (z s y)) => ?_) ?_; (on_goal 1 => clear_value z); (on_goal 2 => (dsimp -zeta only [z]; clear z; intros)))
    | (intro z; refine (fun (hK : ∀ y s, Keeps s0 s → Keeps s0 (z y s)) => ?_) ?_; (on_goal 1 => clear_value z); (on_goal 2 => (dsimp -zeta only [z]; clear z; intros)))
    | intro z
    | lift_lets
    | with_reducible apply hF
    | with_reducible apply hG
    | with_reducible apply hK
    | split
    | dsimp only
    | (clear_value *; split)

theorem State.cnt_keeps {s0 s : State} {x2 x3} (h : Keeps s0 s) :
    Keeps s0 (State.cnt s x2 x3) := by
  unfold State.cnt
  repeat' first
    | with_reducible assumption
    | with_reducible apply State.cntSet_keeps
    | intro z
    | split
    | dsimp only

theorem State.tick_keeps {s0 s : State} {x2} (h : Keeps s0 s) :
    Keeps s0 (State.tick s x2) := by
  unfold State.tick
  repeat' first
    | with_reducible assumption
    | with_reducible apply State.cnt_keeps
    | intro z
    | split
    | dsimp only

theorem State.emit_keeps {s0 s : State} {x2} (h : Keeps s0 s) :
    Keeps s0 (State.emit s x2) := by
  unfold State.emit
  repeat' first
    | with_reducible assumption
    | (simp -zeta only [keeps_mk]; with_reducible refine kept_of _ ?_)
    | intro z
    | split
    | dsimp only

theorem State.drawNat_keeps {s0 s : State} (h : Keeps s0 s) :
    Keeps s0 (State.drawNat s).2 := by
  unfold State.drawNat
  repeat' first
    | with_reducible assumption
    | (simp -zeta only [keeps_mk]; with_reducible refine kept_of _ ?_)
    | intro z
    | split
    | dsimp only

theorem State.drawBool_keeps {s0 s : State} (h : Keeps s0 s) :
    Keeps s0 (State.drawBool s).2 := by
  unfold State.drawBool
  repeat' first
    | with_reducible assumption
    | (simp -zeta only [keeps_mk]; with_reducible refine kept_of _ ?_)
    | intro z
    | split
    | dsimp only

theorem State.setStn_keeps {s0 s : State} {x2 x3} (h : Keeps s0 s) :
    Keeps s0 (State.setStn s x2 x3) := by
  unfold State.setStn
  repeat' first
    | with_reducible assumption
    | (simp -zeta only [keeps_mk]; with_reducible refine kept_of _ ?_)
    | intro z
    | split
    | dsimp only

theorem State.modStn_keeps {s0 s : State} {x2 x3} (h : Keeps s0 s) :
    Keeps s0 (State.modStn s x2 x3) := by
  unfold State.modStn
  repeat' first
    | with_reducible assumption
    | with_reducible apply State.setStn_keeps
    | intro z
    | split
    | dsimp only

theorem State.setPort_keeps {s0 s : State} {x2 x3} (h : Keeps s0 s) :
    Keeps s0 (State.setPort s x2 x3) := by
  unfold State.setPort
  repeat' first
    | with_reducible assumption
    | (simp -zeta only [keeps_mk]; with_reducible refine kept_of _ ?_)
    | intro z
    | split
    | dsimp only

theorem State.modPort_keeps {s0 s : State} {x2 x3} (h : Keeps s0 s) :
    Keeps s0 (State.modPort s x2 x3) := by
  unfold State.modPort
  repeat' first
    | with_reducible assumption
    | with_reducible apply State.setPort_keeps
    | intro z
    | split
    | dsimp only

theorem State.modTasks_keeps {s0 s : State} {x2 x3} (h : Keeps s0 s) :
    Keeps s0 (State.modTasks s x2 x3) := by
  unfold State.modTasks
  repeat' first
    | with_reducible assumption
    | with_reducible apply State.modStn_keeps
    | (simp -zeta only [keeps_mk]; with_reducible refine kept_of _ ?_)
    | intro z
    | split
    | dsimp only

theorem State.modCore_keeps {s0 s : State} {x2 x3} (h : Keeps s0 s) :
    Keeps s0 (State.modCore s x2 x3) := by
  unfold State.modCore
  repeat' first
    | with_reducible assumption
    | with_reducible apply State.modStn_keeps
    | (simp -zeta only [keeps_mk]; with_reducible refine kept_of _ ?_)
    | intro z
    | split
    | dsimp only

theorem State.modIce_keeps {s0 s : State} {x2 x3} (h : Keeps s0 s) :
    Keeps s0 (State.modIce s x2 x3) := by
  unfold State.modIce
  repeat' first
    | with_reducible assumption
    | with_reducible apply State.modStn_keeps
    | (simp -zeta only [keeps_mk]; with_reducible refine kept_of _ ?_)
    | intro z
    | split
    | dsimp only

theorem State.modEpt_keeps {s0 s : State} {x2 x3} (h : Keeps s0 s) :
    Keeps s0 (State.modEpt s x2 x3) := by
  unfold State.modEpt
  repeat' first
    | with_reducible assumption
    | with_reducible apply State.modStn_keeps
    | (simp -zeta only [keeps_mk]; with_reducible refine kept_of _ ?_)
    | intro z
    | split
    | dsimp only

theorem State.modRules_keeps {s0 s : State} {x2 x3} (h : Keeps s0 s) :
    Keeps s0 (State.modRules s x2 x3) := by
  unfold State.modRules
  repeat' first
    | with_reducible assumption
    | with_reducible apply State.modStn_keeps
    | (simp -zeta only [keeps_mk]; with_reducible refine kept_of _ ?_)
    | intro z
    | split
    | dsimp only

theorem State.modEgress_keeps {s0 s : State} {x2 x3} (h : Keeps s0 s) :
    Keeps s0 (State.modEgress s x2 x3) := by
  unfold State.modEgress
  repeat' first
    | with_reducible assumption
    | with_reducible apply State.modStn_keeps
    | (simp -zeta only [keeps_mk]; with_reducible refine kept_of _ ?_)
    | intro z
    | split
    | dsimp only

theorem State.modLink_keeps {s0 s : State} {x2 x3} (h : Keeps s0 s) :
    Keeps s0 (State.modLink s x2 x3) := by
  unfold State.modLink
  repeat' first
    | with_reducible assumption
    | with_reducible apply State.modPort_keeps
    | (simp -zeta only [keeps_mk]; with_reducible refine kept_of _ ?_)
    | intro z
    | split
    | dsimp only

theorem State.modMac_keeps {s0 s : State} {x2 x3} (h : Keeps s0 s) :
    Keeps s0 (State.modMac s x2 x3) := by
  unfold State.modMac
  repeat' first
    | with_reducible assumption
    | with_reducible apply State.modPort_keeps
    | (simp -zeta only [keeps_mk]; with_reducible refine kept_of _ ?_)
    | intro z
    | split
    | dsimp only

theorem State.modEgr_keeps {s0 s : State} {x2 x3} (h : Keeps s0 s) :
    Keeps s0 (State.modEgr s x2 x3) := by
  unfold State.modEgr
  repeat' first
    | with_reducible assumption
    | with_reducible apply State.modPort_keeps
    | (simp -zeta only [keeps_mk]; with_reducible refine kept_of _ ?_)
    | intro z
    | split
    | dsimp only

theorem State.modFtm_keeps {s0 s : State} {x2} (h : Keeps s0 s) :
    Keeps s0 (State.modFtm s x2) := by
  unfold State.modFtm
  repeat' first
    | with_reducible assumption
    | (simp -zeta only [keeps_mk]; with_reducible refine kept_of _ ?_)
    | intro z
    | split
    | dsimp only

theorem State.when_keeps {s0 s : State} {x2 x3} (h : Keeps s0 s) (h3 : ∀ s, Keeps s0 s → Keeps s0 (x3 s)) :
    Keeps s0 (State.when s x2 x3) := by
  unfold State.when
  repeat' first
    | with_reducible assumption
    | with_reducible apply h3
    | intro z
    | split
    | dsimp only

end Sys2Proof.Machine
end

