-- ==== Sys2Proof/Laws/AccessK.lean ====
section
/-! SUPPORT. Every operation of Machine/Access.lean keeps what `Keeps` says. -/
set_option linter.unusedTactic false
set_option linter.unreachableTactic false
set_option linter.unusedSimpArgs false
namespace Sys2Proof.Machine

theorem State.store_keeps {s0 s : State} {x2 x3} (h : Keeps s0 s) :
    Keeps s0 (State.store s x2 x3) := by
  unfold State.store
  repeat' first
    | with_reducible assumption
    | with_reducible apply State.wr_keeps
    | (simp -zeta only [keeps_mk]; with_reducible refine kept_of _ ?_)
    | with_reducible refine keeps_snd (by with_reducible assumption) ?_
    | with_reducible refine keeps_snd2 (by with_reducible assumption) ?_
    | intro z
    | split
    | dsimp only

theorem State.storeBut_keeps {s0 s : State} {x2 x3 x4} (h : Keeps s0 s) :
    Keeps s0 (State.storeBut s x2 x3 x4) := by
  unfold State.storeBut
  repeat' first
    | with_reducible assumption
    | with_reducible apply State.store_keeps
    | intro z
    | split
    | dsimp only

theorem State.latch_keeps {s0 s : State} {x2 x3 x4} (h : Keeps s0 s) :
    Keeps s0 (State.latch s x2 x3 x4) := by
  unfold State.latch
  repeat' first
    | with_reducible assumption
    | (simp -zeta only [keeps_mk]; with_reducible refine kept_of _ ?_)
    | with_reducible refine keeps_snd (by with_reducible assumption) ?_
    | with_reducible refine keeps_snd2 (by with_reducible assumption) ?_
    | (intro z; refine (fun (hz : Keeps s0 z) => ?_) ?_; (on_goal 1 => clear_value z); (on_goal 2 => (dsimp -zeta only [z]; clear z)))
    | (intro z; refine (fun (hF : ∀ s, Keeps s0 s → Keeps s0 (z s)) => ?_) ?_; (on_goal 1 => clear_value z); (on_goal 2 => (dsimp -zeta only [z]; clear z; intros)))
    | (intro z; refine (fun (hG : ∀ s y, Keeps s0 s → Keeps s0 (z s y)) => ?_) ?_; (on_goal 1 => clear_value z); (on_goal 2 => (dsimp -zeta only [z]; clear z; intros)))
    | (intro z; refine (fun (hK : ∀ y s, Keeps s0 s → Keeps s0 (z y s)) => ?_) ?_; (on_goal 1 => clear_value z); (on_goal 2 => (dsimp -zeta only [z]; clear z; intros)))
    | intro z
    | lift_lets
    | with_reducible apply hF
    | with_reducible apply hG
    | with_reducible apply hK
    | split
    | dsimp only
    | (clear_value *; split)

end Sys2Proof.Machine
end

