-- ==== Sys2Proof/Laws/RingsK.lean ====
section
/-! SUPPORT. Every operation of Machine/Rings.lean keeps what `Keeps` says. -/
set_option linter.unusedTactic false
set_option linter.unreachableTactic false
set_option linter.unusedSimpArgs false
namespace Sys2Proof.Machine

theorem State.modGuild_keeps {s0 s : State} {x2 x3} (h : Keeps s0 s) :
    Keeps s0 (State.modGuild s x2 x3) := by
  unfold State.modGuild
  repeat' first
    | with_reducible assumption
    | (simp -zeta only [keeps_mk]; with_reducible refine kept_of _ ?_)
    | intro z
    | split
    | dsimp only

theorem State.modRing_keeps {s0 s : State} {x2 x3 x4} (h : Keeps s0 s) :
    Keeps s0 (State.modRing s x2 x3 x4) := by
  unfold State.modRing
  repeat' first
    | with_reducible assumption
    | with_reducible apply State.modGuild_keeps
    | (simp -zeta only [keeps_mk]; with_reducible refine kept_of _ ?_)
    | intro z
    | split
    | dsimp only

theorem isoViol_keeps {s0 s : State} (h : Keeps s0 s) :
    Keeps s0 (isoViol s) := by
  unfold isoViol
  repeat' first
    | with_reducible assumption
    | with_reducible apply State.tick_keeps
    | with_reducible apply State.raise_keeps
    | intro z
    | split
    | dsimp only

theorem pageRead_keeps {s0 s : State} {x1 x2 x3 x4} (h : Keeps s0 s) (h4 : ∀ s, Keeps s0 s → Keeps s0 (x4 s).2) :
    Keeps s0 (pageRead x1 x2 x3 x4 s) := by
  unfold pageRead
  repeat' first
    | with_reducible assumption
    | with_reducible apply State.emit_keeps
    | with_reducible apply isoViol_keeps
    | with_reducible apply h4
    | with_reducible refine keeps_snd (by with_reducible assumption) ?_
    | with_reducible refine keeps_snd2 (by with_reducible assumption) ?_
    | (intro z; refine (fun (hz : Keeps s0 z) => ?_) ?_; (on_goal 1 => clear_value z); (on_goal 2 => (dsimp -zeta only [z]; clear z)))
    | intro z
    | lift_lets
    | split
    | dsimp only
    | (clear_value *; split)

theorem dmaWrite_keeps {s0 s : State} {x1 x2 x3} (h : Keeps s0 s) :
    Keeps s0 (dmaWrite x1 x2 x3 s) := by
  unfold dmaWrite
  repeat' first
    | with_reducible assumption
    | with_reducible apply State.tick_keeps
    | with_reducible apply State.emit_keeps
    | intro z
    | split
    | dsimp only

theorem dmaWritePoison_keeps {s0 s : State} {x1 x2 x3} (h : Keeps s0 s) :
    Keeps s0 (dmaWritePoison x1 x2 x3 s) := by
  unfold dmaWritePoison
  repeat' first
    | with_reducible assumption
    | with_reducible apply State.tick_keeps
    | with_reducible apply State.emit_keeps
    | intro z
    | split
    | dsimp only

theorem msix_keeps {s0 s : State} {x1 x2} (h : Keeps s0 s) :
    Keeps s0 (msix x1 x2 s) := by
  unfold msix
  repeat' first
    | with_reducible assumption
    | with_reducible apply State.tick_keeps
    | with_reducible apply State.emit_keeps
    | (simp -zeta only [keeps_mk]; with_reducible refine kept_of _ ?_)
    | with_reducible refine keeps_snd (by with_reducible assumption) ?_
    | with_reducible refine keeps_snd2 (by with_reducible assumption) ?_
    | intro z
    | split
    | dsimp only

theorem ringSignal_keeps {s0 s : State} {x1 x2} (h : Keeps s0 s) :
    Keeps s0 (ringSignal x1 x2 s) := by
  unfold ringSignal
  repeat' first
    | with_reducible assumption
    | with_reducible apply msix_keeps
    | with_reducible apply State.modRing_keeps
    | (simp -zeta only [keeps_mk]; with_reducible refine kept_of _ ?_)
    | (intro z; refine (fun (hz : Keeps s0 z) => ?_) ?_; (on_goal 1 => clear_value z); (on_goal 2 => (dsimp -zeta only [z]; clear z)))
    | (intro z; refine (fun (hF : ∀ s, Keeps s0 s → Keeps s0 (z s)) => ?_) ?_; (on_goal 1 => clear_value z); (on_goal 2 => (dsimp -zeta only [z]; clear z; intros)))
    | (intro z; refine (fun (hG : ∀ s y, Keeps s0 s → Keeps s0 (z s y)) => ?_) ?_; (on_goal 1 => clear_value z); (on_goal 2 => (dsimp -zeta only [z]; clear z; intros)))
    | (intro z; refine (fun (hK : ∀ y s, Keeps s0 s → Keeps s0 (z y s)) => ?_) ?_; (on_goal 1 => clear_value z); (on_goal 2 => (dsimp -zeta only [z]; clear z; intros)))
    | intro z
    | lift_lets
    | with_reducible apply hF
    | with_reducible apply hG
    | with_reducible apply hK
    | split
    | dsimp only
    | (clear_value *; split)

theorem ringSignalCount_keeps {s0 s : State} {x1 x2} (h : Keeps s0 s) :
    Keeps s0 (ringSignalCount x1 x2 s) := by
  unfold ringSignalCount
  repeat' first
    | with_reducible assumption
    | with_reducible apply ringSignal_keeps
    | (intro z; refine (fun (hz : Keeps s0 z) => ?_) ?_; (on_goal 1 => clear_value z); (on_goal 2 => (dsimp -zeta only [z]; clear z)))
    | (intro z; refine (fun (hF : ∀ s, Keeps s0 s → Keeps s0 (z s)) => ?_) ?_; (on_goal 1 => clear_value z); (on_goal 2 => (dsimp -zeta only [z]; clear z; intros)))
    | (intro z; refine (fun (hG : ∀ s y, Keeps s0 s → Keeps s0 (z s y)) => ?_) ?_; (on_goal 1 => clear_value z); (on_goal 2 => (dsimp -zeta only [z]; clear z; intros)))
    | (intro z; refine (fun (hK : ∀ y s, Keeps s0 s → Keeps s0 (z y s)) => ?_) ?_; (on_goal 1 => clear_value z); (on_goal 2 => (dsimp -zeta only [z]; clear z; intros)))
    | intro z
    | lift_lets
    | with_reducible apply hF
    | with_reducible apply hG
    | with_reducible apply hK
    | split
    | dsimp only
    | (clear_value *; split)

theorem ringWrite_keeps {s0 s : State} {x1 x2 x3} (h : Keeps s0 s) :
    Keeps s0 (ringWrite x1 x2 x3 s) := by
  unfold ringWrite
  repeat' first
    | with_reducible assumption
    | with_reducible apply dmaWrite_keeps
    | with_reducible apply State.modRing_keeps
    | with_reducible apply ringSignalCount_keeps
    | (simp -zeta only [keeps_mk]; with_reducible refine kept_of _ ?_)
    | (intro z; refine (fun (hz : Keeps s0 z) => ?_) ?_; (on_goal 1 => clear_value z); (on_goal 2 => (dsimp -zeta only [z]; clear z)))
    | (intro z; refine (fun (hF : ∀ s, Keeps s0 s → Keeps s0 (z s)) => ?_) ?_; (on_goal 1 => clear_value z); (on_goal 2 => (dsimp -zeta only [z]; clear z; intros)))
    | (intro z; refine (fun (hG : ∀ s y, Keeps s0 s → Keeps s0 (z s y)) => ?_) ?_; (on_goal 1 => clear_value z); (on_goal 2 => (dsimp -zeta only [z]; clear z; intros)))
    | (intro z; refine (fun (hK : ∀ y s, Keeps s0 s → Keeps s0 (z y s)) => ?_) ?_; (on_goal 1 => clear_value z); (on_goal 2 => (dsimp -zeta only [z]; clear z; intros)))
    | intro z
    | lift_lets
    | with_reducible apply hF
    | with_reducible apply hG
    | with_reducible apply hK
    | split
    | dsimp only
    | (clear_value *; split)

theorem postEvent_keeps {s0 s : State} {x1 x2 x3} (h : Keeps s0 s) :
    Keeps s0 (postEvent x1 x2 x3 s) := by
  unfold postEvent
  repeat' first
    | with_reducible assumption
    | with_reducible apply ringWrite_keeps
    | with_reducible apply State.modGuild_keeps
    | with_reducible apply State.tick_keeps
    | (simp -zeta only [keeps_mk]; with_reducible refine kept_of _ ?_)
    | with_reducible refine keeps_snd (by with_reducible assumption) ?_
    | with_reducible refine keeps_snd2 (by with_reducible assumption) ?_
    | (intro z; refine (fun (hz : Keeps s0 z) => ?_) ?_; (on_goal 1 => clear_value z); (on_goal 2 => (dsimp -zeta only [z]; clear z)))
    | (intro z; refine (fun (hF : ∀ s, Keeps s0 s → Keeps s0 (z s)) => ?_) ?_; (on_goal 1 => clear_value z); (on_goal 2 => (dsimp -zeta only [z]; clear z; intros)))
    | (intro z; refine (fun (hG : ∀ s y, Keeps s0 s → Keeps s0 (z s y)) => ?_) ?_; (on_goal 1 => clear_value z); (on_goal 2 => (dsimp -zeta only [z]; clear z; intros)))
    | (intro z; refine (fun (hK : ∀ y s, Keeps s0 s → Keeps s0 (z y s)) => ?_) ?_; (on_goal 1 => clear_value z); (on_goal 2 => (dsimp -zeta only [z]; clear z; intros)))
    | intro z
    | lift_lets
    | with_reducible apply hF
    | with_reducible apply hG
    | with_reducible apply hK
    | split
    | dsimp only
    | (clear_value *; split)

theorem postTlm_keeps {s0 s : State} {x1 x2 x3} (h : Keeps s0 s) :
    Keeps s0 (postTlm x1 x2 x3 s) := by
  unfold postTlm
  repeat' first
    | with_reducible assumption
    | with_reducible apply ringWrite_keeps
    | with_reducible apply State.modGuild_keeps
    | (simp -zeta only [keeps_mk]; with_reducible refine kept_of _ ?_)
    | with_reducible refine keeps_snd (by with_reducible assumption) ?_
    | with_reducible refine keeps_snd2 (by with_reducible assumption) ?_
    | (intro z; refine (fun (hz : Keeps s0 z) => ?_) ?_; (on_goal 1 => clear_value z); (on_goal 2 => (dsimp -zeta only [z]; clear z)))
    | (intro z; refine (fun (hF : ∀ s, Keeps s0 s → Keeps s0 (z s)) => ?_) ?_; (on_goal 1 => clear_value z); (on_goal 2 => (dsimp -zeta only [z]; clear z; intros)))
    | (intro z; refine (fun (hG : ∀ s y, Keeps s0 s → Keeps s0 (z s y)) => ?_) ?_; (on_goal 1 => clear_value z); (on_goal 2 => (dsimp -zeta only [z]; clear z; intros)))
    | (intro z; refine (fun (hK : ∀ y s, Keeps s0 s → Keeps s0 (z y s)) => ?_) ?_; (on_goal 1 => clear_value z); (on_goal 2 => (dsimp -zeta only [z]; clear z; intros)))
    | intro z
    | lift_lets
    | with_reducible apply hF
    | with_reducible apply hG
    | with_reducible apply hK
    | split
    | dsimp only
    | (clear_value *; split)

theorem complete_keeps {s0 s : State} {x1 x2 x3 x4} (h : Keeps s0 s) :
    Keeps s0 (complete x1 x2 x3 x4 s) := by
  unfold complete
  repeat' first
    | with_reducible assumption
    | with_reducible apply State.modRing_keeps
    | with_reducible apply State.tick_keeps
    | with_reducible apply ringWrite_keeps
    | (simp -zeta only [keeps_mk]; with_reducible refine kept_of _ ?_)
    | with_reducible refine keeps_snd (by with_reducible assumption) ?_
    | with_reducible refine keeps_snd2 (by with_reducible assumption) ?_
    | (intro z; refine (fun (hz : Keeps s0 z) => ?_) ?_; (on_goal 1 => clear_value z); (on_goal 2 => (dsimp -zeta only [z]; clear z)))
    | (intro z; refine (fun (hF : ∀ s, Keeps s0 s → Keeps s0 (z s)) => ?_) ?_; (on_goal 1 => clear_value z); (on_goal 2 => (dsimp -zeta only [z]; clear z; intros)))
    | (intro z; refine (fun (hG : ∀ s y, Keeps s0 s → Keeps s0 (z s y)) => ?_) ?_; (on_goal 1 => clear_value z); (on_goal 2 => (dsimp -zeta only [z]; clear z; intros)))
    | (intro z; refine (fun (hK : ∀ y s, Keeps s0 s → Keeps s0 (z y s)) => ?_) ?_; (on_goal 1 => clear_value z); (on_goal 2 => (dsimp -zeta only [z]; clear z; intros)))
    | intro z
    | lift_lets
    | with_reducible apply hF
    | with_reducible apply hG
    | with_reducible apply hK
    | split
    | dsimp only
    | (clear_value *; split)

theorem dmaFailed_keeps {s0 s : State} {x1 x2} (h : Keeps s0 s) :
    Keeps s0 (dmaFailed x1 x2 s) := by
  unfold dmaFailed
  repeat' first
    | with_reducible assumption
    | with_reducible apply State.raise_keeps
    | with_reducible apply State.modRing_keeps
    | with_reducible apply State.tick_keeps
    | (simp -zeta only [keeps_mk]; with_reducible refine kept_of _ ?_)
    | (intro z; refine (fun (hz : Keeps s0 z) => ?_) ?_; (on_goal 1 => clear_value z); (on_goal 2 => (dsimp -zeta only [z]; clear z)))
    | (intro z; refine (fun (hF : ∀ s, Keeps s0 s → Keeps s0 (z s)) => ?_) ?_; (on_goal 1 => clear_value z); (on_goal 2 => (dsimp -zeta only [z]; clear z; intros)))
    | (intro z; refine (fun (hG : ∀ s y, Keeps s0 s → Keeps s0 (z s y)) => ?_) ?_; (on_goal 1 => clear_value z); (on_goal 2 => (dsimp -zeta only [z]; clear z; intros)))
    | (intro z; refine (fun (hK : ∀ y s, Keeps s0 s → Keeps s0 (z y s)) => ?_) ?_; (on_goal 1 => clear_value z); (on_goal 2 => (dsimp -zeta only [z]; clear z; intros)))
    | intro z
    | lift_lets
    | with_reducible apply hF
    | with_reducible apply hG
    | with_reducible apply hK
    | split
    | dsimp only
    | (clear_value *; split)

theorem dmaError_keeps {s0 s : State} {x1 x2} (h : Keeps s0 s) :
    Keeps s0 (dmaError x1 x2 s) := by
  unfold dmaError
  repeat' first
    | with_reducible assumption
    | with_reducible apply complete_keeps
    | with_reducible apply dmaFailed_keeps
    | intro z
    | split
    | dsimp only

theorem withData_keeps {s0 s : State} {x1 x2 x3 x4 x5} (h : Keeps s0 s) (h5 : ∀ y1 s, Keeps s0 s → Keeps s0 (x5 y1 s)) :
    Keeps s0 (withData x1 x2 x3 x4 x5 s) := by
  unfold withData
  repeat' first
    | with_reducible assumption
    | with_reducible apply State.tick_keeps
    | with_reducible apply dmaError_keeps
    | with_reducible apply h5
    | (simp -zeta only [keeps_mk]; with_reducible refine kept_of _ ?_)
    | with_reducible refine keeps_snd (by with_reducible assumption) ?_
    | with_reducible refine keeps_snd2 (by with_reducible assumption) ?_
    | (intro z; refine (fun (hz : Keeps s0 z) => ?_) ?_; (on_goal 1 => clear_value z); (on_goal 2 => (dsimp -zeta only [z]; clear z)))
    | (intro z; refine (fun (hF : ∀ s, Keeps s0 s → Keeps s0 (z s)) => ?_) ?_; (on_goal 1 => clear_value z); (on_goal 2 => (dsimp -zeta only [z]; clear z; intros)))
    | (intro z; refine (fun (hG : ∀ s y, Keeps s0 s → Keeps s0 (z s y)) => ?_) ?_; (on_goal 1 => clear_value z); (on_goal 2 => (dsimp -zeta only [z]; clear z; intros)))
    | (intro z; refine (fun (hK : ∀ y s, Keeps s0 s → Keeps s0 (z y s)) => ?_) ?_; (on_goal 1 => clear_value z); (on_goal 2 => (dsimp -zeta only [z]; clear z; intros)))
    | intro z
    | lift_lets
    | with_reducible apply hF
    | with_reducible apply hG
    | with_reducible apply hK
    | split
    | dsimp only
    | (clear_value *; split)

theorem completeOk_keeps {s0 s : State} {x1 x2 x3} (h : Keeps s0 s) :
    Keeps s0 (completeOk x1 x2 x3 s) := by
  unfold completeOk
  repeat' first
    | with_reducible assumption
    | with_reducible apply complete_keeps
    | intro z
    | split
    | dsimp only

theorem State.modCmd_keeps {s0 s : State} {x2 x3 x4} (h : Keeps s0 s) :
    Keeps s0 (State.modCmd s x2 x3 x4) := by
  unfold State.modCmd
  repeat' first
    | with_reducible assumption
    | with_reducible apply State.modRing_keeps
    | (simp -zeta only [keeps_mk]; with_reducible refine kept_of _ ?_)
    | intro z
    | split
    | dsimp only

theorem onCmd_keeps {s0 s : State} {x1 x2 x3 x4} (h : Keeps s0 s) (h4 : ∀ y1 s, Keeps s0 s → Keeps s0 (x4 y1 s)) :
    Keeps s0 (onCmd x1 x2 x3 x4 s) := by
  unfold onCmd
  repeat' first
    | with_reducible assumption
    | with_reducible apply h4
    | (simp -zeta only [keeps_mk]; with_reducible refine kept_of _ ?_)
    | with_reducible refine keeps_snd (by with_reducible assumption) ?_
    | with_reducible refine keeps_snd2 (by with_reducible assumption) ?_
    | intro z
    | split
    | dsimp only

end Sys2Proof.Machine
end

