-- ==== Sys2Proof/Laws/FlagsK.lean ====
section
/-! SUPPORT. Every operation of Machine/Flags.lean keeps what `Keeps` says. -/
set_option linter.unusedTactic false
set_option linter.unreachableTactic false
set_option linter.unusedSimpArgs false
namespace Sys2Proof.Machine

theorem evAdd_keeps {s0 s : State} {x1 x2 x3 x4} (h : Keeps s0 s) :
    Keeps s0 (evAdd x1 x2 x3 x4 s) := by
  unfold evAdd
  repeat' first
    | with_reducible assumption
    | with_reducible apply State.cntSet_keeps
    | with_reducible apply State.wr_keeps
    | (simp -zeta only [keeps_mk]; with_reducible refine kept_of _ ?_)
    | (intro z; refine (fun (hz : Keeps s0 z) => ?_) ?_; (on_goal 1 => clear_value z); (on_goal 2 => (dsimp -zeta only [z]; clear z)))
    | (intro z; refine (fun (hF : ∀ s, Keeps s0 s → Keeps s0 (z s)) => ?_) ?_; (on_goal 1 => clear_value z); (on_goal 2 => (dsimp -zeta only [z]; clear z; intros)))
    | (intro z; refine (fun (hG : ∀ s y, Keeps s0 s → Keeps s0 (z s y)) => ?_) ?_; (on_goal 1 => clear_value z); (on_goal 2 => (dsimp -zeta only [z]; clear z; intros)))
    | (intro z; refine (fun (hK : ∀ y s, Keeps s0 s → Keeps s0 (z y s)) => ?_) ?_; (on_goal 1 => clear_value z); (on_goal 2 => (dsimp -zeta only [z]; clear z; intros)))
    | intro z
    | lift_lets
    | with_reducible apply hF
    | with_reducible apply hG
    | with_reducible apply hK
    | split
    | dsimp only
    | (clear_value *; split)

theorem evCount_keeps {s0 s : State} {x1 x2 x3 x4} (h : Keeps s0 s) :
    Keeps s0 (evCount x1 x2 x3 x4 s) := by
  unfold evCount
  repeat' first
    | with_reducible assumption
    | with_reducible apply evAdd_keeps
    | (simp -zeta only [keeps_mk]; with_reducible refine kept_of _ ?_)
    | (with_reducible refine keeps_foldl (fun _ _ _ => ?_) ?_)
    | (with_reducible refine keeps_foldl2 (fun _ _ _ => ?_) ?_)
    | (with_reducible refine keeps_foldl3 (fun _ _ _ => ?_) ?_)
    | with_reducible refine keeps_snd (by with_reducible assumption) ?_
    | with_reducible refine keeps_snd2 (by with_reducible assumption) ?_
    | (intro z; refine (fun (hz : Keeps s0 z) => ?_) ?_; (on_goal 1 => clear_value z); (on_goal 2 => (dsimp -zeta only [z]; clear z)))
    | (intro z; refine (fun (hF : ∀ s, Keeps s0 s → Keeps s0 (z s)) => ?_) ?_; (on_goal 1 => clear_value z); (on_goal 2 => (dsimp -zeta only [z]; clear z; intros)))
    | (intro z; refine (fun (hG : ∀ s y, Keeps s0 s → Keeps s0 (z s y)) => ?_) ?_; (on_goal 1 => clear_value z); (on_goal 2 => (dsimp -zeta only [z]; clear z; intros)))
    | (intro z; refine (fun (hK : ∀ y s, Keeps s0 s → Keeps s0 (z y s)) => ?_) ?_; (on_goal 1 => clear_value z); (on_goal 2 => (dsimp -zeta only [z]; clear z; intros)))
    | intro z
    | lift_lets
    | with_reducible apply hF
    | with_reducible apply hG
    | with_reducible apply hK
    | split
    | dsimp only
    | (clear_value *; split)

theorem evDrop_keeps {s0 s : State} {x1 x2} (h : Keeps s0 s) :
    Keeps s0 (evDrop x1 x2 s) := by
  unfold evDrop
  repeat' first
    | with_reducible assumption
    | with_reducible apply evCount_keeps
    | intro z
    | split
    | dsimp only

theorem setSmb_keeps {s0 s : State} {x1} (h : Keeps s0 s) :
    Keeps s0 (setSmb x1 s) := by
  unfold setSmb
  repeat' first
    | with_reducible assumption
    | with_reducible apply State.emit_keeps
    | (simp -zeta only [keeps_mk]; with_reducible refine kept_of _ ?_)
    | intro z
    | split
    | dsimp only

theorem alertShow_keeps {s0 s : State} (h : Keeps s0 s) :
    Keeps s0 (alertShow s) := by
  unfold alertShow
  repeat' first
    | with_reducible assumption
    | with_reducible apply setSmb_keeps
    | intro z
    | split
    | dsimp only

theorem scanShow_keeps {s0 s : State} {x1} (h : Keeps s0 s) :
    Keeps s0 (scanShow x1 s) := by
  unfold scanShow
  repeat' first
    | with_reducible assumption
    | (simp -zeta only [keeps_mk]; with_reducible refine kept_of _ ?_)
    | intro z
    | split
    | dsimp only

theorem energy_keeps {s0 s : State} {x1 x2 x3} (h : Keeps s0 s) :
    Keeps s0 (energy x1 x2 x3 s) := by
  unfold energy
  repeat' first
    | with_reducible assumption
    | (simp -zeta only [keeps_mk]; with_reducible refine kept_of _ ?_)
    | (intro z; refine (fun (hz : Keeps s0 z) => ?_) ?_; (on_goal 1 => clear_value z); (on_goal 2 => (dsimp -zeta only [z]; clear z)))
    | (intro z; refine (fun (hF : ∀ s, Keeps s0 s → Keeps s0 (z s)) => ?_) ?_; (on_goal 1 => clear_value z); (on_goal 2 => (dsimp -zeta only [z]; clear z; intros)))
    | (intro z; refine (fun (hG : ∀ s y, Keeps s0 s → Keeps s0 (z s y)) => ?_) ?_; (on_goal 1 => clear_value z); (on_goal 2 => (dsimp -zeta only [z]; clear z; intros)))
    | (intro z; refine (fun (hK : ∀ y s, Keeps s0 s → Keeps s0 (z y s)) => ?_) ?_; (on_goal 1 => clear_value z); (on_goal 2 => (dsimp -zeta only [z]; clear z; intros)))
    | intro z
    | lift_lets
    | with_reducible apply hF
    | with_reducible apply hG
    | with_reducible apply hK
    | split
    | dsimp only
    | (clear_value *; split)

theorem macStat_keeps {s0 s : State} {x1 x2 x3} (h : Keeps s0 s) :
    Keeps s0 (macStat x1 x2 x3 s) := by
  unfold macStat
  repeat' first
    | with_reducible assumption
    | with_reducible apply State.cntSet_keeps
    | with_reducible apply State.wr_keeps
    | with_reducible apply State.raise_keeps
    | (intro z; refine (fun (hz : Keeps s0 z) => ?_) ?_; (on_goal 1 => clear_value z); (on_goal 2 => (dsimp -zeta only [z]; clear z)))
    | (intro z; refine (fun (hF : ∀ s, Keeps s0 s → Keeps s0 (z s)) => ?_) ?_; (on_goal 1 => clear_value z); (on_goal 2 => (dsimp -zeta only [z]; clear z; intros)))
    | (intro z; refine (fun (hG : ∀ s y, Keeps s0 s → Keeps s0 (z s y)) => ?_) ?_; (on_goal 1 => clear_value z); (on_goal 2 => (dsimp -zeta only [z]; clear z; intros)))
    | (intro z; refine (fun (hK : ∀ y s, Keeps s0 s → Keeps s0 (z y s)) => ?_) ?_; (on_goal 1 => clear_value z); (on_goal 2 => (dsimp -zeta only [z]; clear z; intros)))
    | intro z
    | lift_lets
    | with_reducible apply hF
    | with_reducible apply hG
    | with_reducible apply hK
    | split
    | dsimp only
    | (clear_value *; split)

theorem memEnergy_keeps {s0 s : State} {x1 x2} (h : Keeps s0 s) :
    Keeps s0 (memEnergy x1 x2 s) := by
  unfold memEnergy
  repeat' first
    | with_reducible assumption
    | with_reducible apply energy_keeps
    | intro z
    | split
    | dsimp only

theorem odClear_keeps {s0 s : State} {x1 x2 x3} (h : Keeps s0 s) :
    Keeps s0 (odClear x1 x2 x3 s) := by
  unfold odClear
  repeat' first
    | with_reducible assumption
    | (simp -zeta only [keeps_mk]; with_reducible refine kept_of _ ?_)
    | intro z
    | split
    | dsimp only

theorem odPlant_keeps {s0 s : State} {x1 x2 x3} (h : Keeps s0 s) :
    Keeps s0 (odPlant x1 x2 x3 s) := by
  unfold odPlant
  repeat' first
    | with_reducible assumption
    | with_reducible apply State.put_keeps
    | (simp -zeta only [keeps_mk]; with_reducible refine kept_of _ ?_)
    | (intro z; refine (fun (hz : Keeps s0 z) => ?_) ?_; (on_goal 1 => clear_value z); (on_goal 2 => (dsimp -zeta only [z]; clear z)))
    | (intro z; refine (fun (hF : ∀ s, Keeps s0 s → Keeps s0 (z s)) => ?_) ?_; (on_goal 1 => clear_value z); (on_goal 2 => (dsimp -zeta only [z]; clear z; intros)))
    | (intro z; refine (fun (hG : ∀ s y, Keeps s0 s → Keeps s0 (z s y)) => ?_) ?_; (on_goal 1 => clear_value z); (on_goal 2 => (dsimp -zeta only [z]; clear z; intros)))
    | (intro z; refine (fun (hK : ∀ y s, Keeps s0 s → Keeps s0 (z y s)) => ?_) ?_; (on_goal 1 => clear_value z); (on_goal 2 => (dsimp -zeta only [z]; clear z; intros)))
    | intro z
    | lift_lets
    | with_reducible apply hF
    | with_reducible apply hG
    | with_reducible apply hK
    | split
    | dsimp only
    | (clear_value *; split)

theorem odWrite_keeps {s0 s : State} {x1 x2 x3} (h : Keeps s0 s) :
    Keeps s0 (odWrite x1 x2 x3 s) := by
  unfold odWrite
  repeat' first
    | with_reducible assumption
    | with_reducible apply odPlant_keeps
    | with_reducible apply odClear_keeps
    | with_reducible apply memEnergy_keeps
    | intro z
    | split
    | dsimp only

theorem odPart_keeps {s0 s : State} {x1 x2 x3} (h : Keeps s0 s) :
    Keeps s0 (odPart x1 x2 x3 s) := by
  unfold odPart
  repeat' first
    | with_reducible assumption
    | with_reducible apply odPlant_keeps
    | with_reducible apply memEnergy_keeps
    | intro z
    | split
    | dsimp only

theorem queuesWrite_keeps {s0 s : State} {x1 x2} (h : Keeps s0 s) :
    Keeps s0 (queuesWrite x1 x2 s) := by
  unfold queuesWrite
  repeat' first
    | with_reducible assumption
    | with_reducible apply odWrite_keeps
    | (with_reducible refine keeps_foldl (fun _ _ _ => ?_) ?_)
    | (with_reducible refine keeps_foldl2 (fun _ _ _ => ?_) ?_)
    | (with_reducible refine keeps_foldl3 (fun _ _ _ => ?_) ?_)
    | intro z
    | split
    | dsimp only

theorem odReport_keeps {s0 s : State} {x1 x2 x3 x4} (h : Keeps s0 s) :
    Keeps s0 (odReport x1 x2 x3 x4 s) := by
  unfold odReport
  repeat' first
    | with_reducible assumption
    | with_reducible apply State.tick_keeps
    | with_reducible apply State.put_keeps
    | with_reducible apply State.wr_keeps
    | with_reducible apply State.raise_keeps
    | with_reducible apply postEvent_keeps
    | (simp -zeta only [keeps_mk]; with_reducible refine kept_of _ ?_)
    | with_reducible refine keeps_snd (by with_reducible assumption) ?_
    | with_reducible refine keeps_snd2 (by with_reducible assumption) ?_
    | (intro z; refine (fun (hz : Keeps s0 z) => ?_) ?_; (on_goal 1 => clear_value z); (on_goal 2 => (dsimp -zeta only [z]; clear z)))
    | (intro z; refine (fun (hF : ∀ s, Keeps s0 s → Keeps s0 (z s)) => ?_) ?_; (on_goal 1 => clear_value z); (on_goal 2 => (dsimp -zeta only [z]; clear z; intros)))
    | (intro z; refine (fun (hG : ∀ s y, Keeps s0 s → Keeps s0 (z s y)) => ?_) ?_; (on_goal 1 => clear_value z); (on_goal 2 => (dsimp -zeta only [z]; clear z; intros)))
    | (intro z; refine (fun (hK : ∀ y s, Keeps s0 s → Keeps s0 (z y s)) => ?_) ?_; (on_goal 1 => clear_value z); (on_goal 2 => (dsimp -zeta only [z]; clear z; intros)))
    | intro z
    | lift_lets
    | with_reducible apply hF
    | with_reducible apply hG
    | with_reducible apply hK
    | split
    | dsimp only
    | (clear_value *; split)

theorem odRead_keeps {s0 s : State} {x1 x2 x3} (h : Keeps s0 s) :
    Keeps s0 (odRead x1 x2 x3 s).2 := by
  unfold odRead
  repeat' first
    | with_reducible assumption
    | with_reducible apply memEnergy_keeps
    | with_reducible apply odReport_keeps
    | (simp -zeta only [keeps_mk]; with_reducible refine kept_of _ ?_)
    | with_reducible refine keeps_snd (by with_reducible assumption) ?_
    | with_reducible refine keeps_snd2 (by with_reducible assumption) ?_
    | (intro z; refine (fun (hz : Keeps s0 z) => ?_) ?_; (on_goal 1 => clear_value z); (on_goal 2 => (dsimp -zeta only [z]; clear z)))
    | (intro z; refine (fun (hF : ∀ s, Keeps s0 s → Keeps s0 (z s)) => ?_) ?_; (on_goal 1 => clear_value z); (on_goal 2 => (dsimp -zeta only [z]; clear z; intros)))
    | (intro z; refine (fun (hG : ∀ s y, Keeps s0 s → Keeps s0 (z s y)) => ?_) ?_; (on_goal 1 => clear_value z); (on_goal 2 => (dsimp -zeta only [z]; clear z; intros)))
    | (intro z; refine (fun (hK : ∀ y s, Keeps s0 s → Keeps s0 (z y s)) => ?_) ?_; (on_goal 1 => clear_value z); (on_goal 2 => (dsimp -zeta only [z]; clear z; intros)))
    | intro z
    | lift_lets
    | with_reducible apply hF
    | with_reducible apply hG
    | with_reducible apply hK
    | split
    | dsimp only
    | (clear_value *; split)

end Sys2Proof.Machine
end

