-- ==== Sys2Proof/Laws/FramesK.lean ====
section
/-! SUPPORT. Every operation of Machine/Frames.lean keeps what `Keeps` says. -/
set_option linter.unusedTactic false
set_option linter.unreachableTactic false
set_option linter.unusedSimpArgs false
namespace Sys2Proof.Machine

theorem laneOut_keeps {s0 s : State} {x1 x2} (h : Keeps s0 s) :
    Keeps s0 (laneOut x1 x2 s) := by
  unfold laneOut
  repeat' first
    | with_reducible assumption
    | with_reducible apply State.emit_keeps
    | intro z
    | split
    | dsimp only

theorem ballOut_keeps {s0 s : State} {x1 x2} (h : Keeps s0 s) :
    Keeps s0 (ballOut x1 x2 s) := by
  unfold ballOut
  repeat' first
    | with_reducible assumption
    | with_reducible apply laneOut_keeps
    | intro z
    | split
    | dsimp only

theorem lineOut_keeps {s0 s : State} {x1 x2} (h : Keeps s0 s) :
    Keeps s0 (lineOut x1 x2 s) := by
  unfold lineOut
  repeat' first
    | with_reducible assumption
    | with_reducible apply ballOut_keeps
    | with_reducible apply State.modMac_keeps
    | (simp -zeta only [keeps_mk]; with_reducible refine kept_of _ ?_)
    | intro z
    | split
    | dsimp only

theorem prbsShow_keeps {s0 s : State} {x1} (h : Keeps s0 s) :
    Keeps s0 (prbsShow x1 s) := by
  unfold prbsShow
  repeat' first
    | with_reducible assumption
    | with_reducible apply laneOut_keeps
    | (with_reducible refine keeps_foldl (fun _ _ _ => ?_) ?_)
    | (with_reducible refine keeps_foldl2 (fun _ _ _ => ?_) ?_)
    | (with_reducible refine keeps_foldl3 (fun _ _ _ => ?_) ?_)
    | intro z
    | split
    | dsimp only

theorem txqPush_keeps {s0 s : State} {x1 x2 x3 x4 x5} (h : Keeps s0 s) :
    Keeps s0 (txqPush x1 x2 x3 x4 x5 s) := by
  unfold txqPush
  repeat' first
    | with_reducible assumption
    | with_reducible apply State.tick_keeps
    | with_reducible apply State.raise_keeps
    | with_reducible apply State.put_keeps
    | (simp -zeta only [keeps_mk]; with_reducible refine kept_of _ ?_)
    | (intro z; refine (fun (hz : Keeps s0 z) => ?_) ?_; (on_goal 1 => clear_value z); (on_goal 2 => (dsimp -zeta only [z]; clear z)))
    | (intro z; refine (fun (hF : ∀ s, Keeps s0 s → Keeps s0 (z s)) => ?_) ?_; (on_goal 1 => clear_value z); (on_goal 2 => (dsimp -zeta only [z]; clear z; intros)))
    | (intro z; refine (fun (hG : ∀ s y, Keeps s0 s → Keeps s0 (z s y)) => ?_) ?_; (on_goal 1 => clear_value z); (on_goal 2 => (dsimp -zeta only [z]; clear z; intros)))
    | (intro z; refine (fun (hK : ∀ y s, Keeps s0 s → Keeps s0 (z y s)) => ?_) ?_; (on_goal 1 => clear_value z); (on_goal 2 => (dsimp -zeta only [z]; clear z; intros)))
    | intro z
    | lift_lets
    | with_reducible apply hF
    | with_reducible apply hG
    | with_reducible apply hK
    | split
    | dsimp only
    | (clear_value *; split)

theorem txqDrop_keeps {s0 s : State} {x1} (h : Keeps s0 s) :
    Keeps s0 (txqDrop x1 s) := by
  unfold txqDrop
  repeat' first
    | with_reducible assumption
    | with_reducible apply txqPush_keeps
    | (simp -zeta only [keeps_mk]; with_reducible refine kept_of _ ?_)
    | with_reducible refine keeps_snd (by with_reducible assumption) ?_
    | with_reducible refine keeps_snd2 (by with_reducible assumption) ?_
    | intro z
    | split
    | dsimp only

theorem frameGone_keeps {s0 s : State} {x1 x2} (h : Keeps s0 s) :
    Keeps s0 (frameGone x1 x2 s) := by
  unfold frameGone
  repeat' first
    | with_reducible assumption
    | with_reducible apply evDrop_keeps
    | with_reducible apply txqDrop_keeps
    | intro z
    | split
    | dsimp only

end Sys2Proof.Machine
end

