-- ==== Sys2Proof/Laws/BuffersK.lean ====
section
/-! SUPPORT. Every operation of Machine/Buffers.lean keeps what `Keeps` says. -/
set_option linter.unusedTactic false
set_option linter.unreachableTactic false
set_option linter.unusedSimpArgs false
namespace Sys2Proof.Machine

theorem ctlSend_keeps {s0 s : State} {x1 x2} (h : Keeps s0 s) :
    Keeps s0 (ctlSend x1 x2 s) := by
  unfold ctlSend
  repeat' first
    | with_reducible assumption
    | with_reducible apply energy_keeps
    | with_reducible apply lineOut_keeps
    | with_reducible apply macStat_keeps
    | with_reducible apply State.modMac_keeps
    | (simp -zeta only [keeps_mk]; with_reducible refine kept_of _ ?_)
    | (with_reducible refine keeps_foldl (fun _ _ _ => ?_) ?_)
    | (with_reducible refine keeps_foldl2 (fun _ _ _ => ?_) ?_)
    | (with_reducible refine keeps_foldl3 (fun _ _ _ => ?_) ?_)
    | with_reducible refine keeps_snd (by with_reducible assumption) ?_
    | with_reducible refine keeps_snd2 (by with_reducible assumption) ?_
    | (intro z; refine (fun (hz : Keeps s0 z) => ?_) ?_; (on_goal 1 => clear_value z); (on_goal 2 => (dsimp -zeta only [z]; clear z)))
    | (intro z; refine (fun (hF : ∀ s, Keeps s0 s → Keeps s0 (z s)) => ?_) ?_; (on_goal 1 => clear_value z); (on_goal 2 => (dsimp -zeta only [z]; clear z; intros)))
    | (intro z; refine (fun (hG : ∀ s y, Keeps s0 s → Keeps s0 (z s y)) => ?_) ?_; (on_goal 1 => clear_value z); (on_goal 2 => (dsimp -zeta only [z]; clear z; intros)))
    | (intro z; refine (fun (hK : ∀ y s, Keeps s0 s → Keeps s0 (z y s)) => ?_) ?_; (on_goal 1 => clear_value z); (on_goal 2 => (dsimp -zeta only [z]; clear z; intros)))
    | intro z
    | lift_lets
    | with_reducible apply hF
    | with_reducible apply hG
    | with_reducible apply hK
    | split
    | dsimp only
    | (clear_value *; split)

theorem ctlRun_keeps {s0 s : State} {x1 x2} (h : Keeps s0 s) :
    Keeps s0 (ctlRun x1 x2 s) := by
  fun_induction ctlRun x1 x2 s
  all_goals repeat' first
    | (with_reducible apply_assumption)
    | with_reducible assumption
    | with_reducible apply State.modMac_keeps
    | with_reducible apply ctlSend_keeps
    | (simp -zeta only [keeps_mk]; with_reducible refine kept_of _ ?_)
    | intro z
    | split
    | dsimp only

theorem ctlDrain_keeps {s0 s : State} {x1} (h : Keeps s0 s) :
    Keeps s0 (ctlDrain x1 s) := by
  unfold ctlDrain
  repeat' first
    | with_reducible assumption
    | with_reducible apply ctlRun_keeps
    | intro z
    | split
    | dsimp only

theorem ctlQueue_keeps {s0 s : State} {x1 x2} (h : Keeps s0 s) :
    Keeps s0 (ctlQueue x1 x2 s) := by
  unfold ctlQueue
  repeat' first
    | with_reducible assumption
    | with_reducible apply ctlRun_keeps
    | intro z
    | split
    | dsimp only

theorem pauseSend_keeps {s0 s : State} {x1 x2} (h : Keeps s0 s) :
    Keeps s0 (pauseSend x1 x2 s) := by
  unfold pauseSend
  repeat' first
    | with_reducible assumption
    | with_reducible apply ctlQueue_keeps
    | intro z
    | split
    | dsimp only

theorem pfcSend_keeps {s0 s : State} {x1 x2 x3} (h : Keeps s0 s) :
    Keeps s0 (pfcSend x1 x2 x3 s) := by
  unfold pfcSend
  repeat' first
    | with_reducible assumption
    | with_reducible apply ctlQueue_keeps
    | (intro z; refine (fun (hz : Keeps s0 z) => ?_) ?_; (on_goal 1 => clear_value z); (on_goal 2 => (dsimp -zeta only [z]; clear z)))
    | (intro z; refine (fun (hF : ∀ s, Keeps s0 s → Keeps s0 (z s)) => ?_) ?_; (on_goal 1 => clear_value z); (on_goal 2 => (dsimp -zeta only [z]; clear z; intros)))
    | (intro z; refine (fun (hG : ∀ s y, Keeps s0 s → Keeps s0 (z s y)) => ?_) ?_; (on_goal 1 => clear_value z); (on_goal 2 => (dsimp -zeta only [z]; clear z; intros)))
    | (intro z; refine (fun (hK : ∀ y s, Keeps s0 s → Keeps s0 (z y s)) => ?_) ?_; (on_goal 1 => clear_value z); (on_goal 2 => (dsimp -zeta only [z]; clear z; intros)))
    | intro z
    | lift_lets
    | with_reducible apply hF
    | with_reducible apply hG
    | with_reducible apply hK
    | split
    | dsimp only
    | (clear_value *; split)

theorem xoffChanged_keeps {s0 s : State} {x1 x2 x3} (h : Keeps s0 s) :
    Keeps s0 (xoffChanged x1 x2 x3 s) := by
  unfold xoffChanged
  repeat' first
    | with_reducible assumption
    | with_reducible apply pauseSend_keeps
    | with_reducible apply pfcSend_keeps
    | (simp -zeta only [keeps_mk]; with_reducible refine kept_of _ ?_)
    | with_reducible refine keeps_snd (by with_reducible assumption) ?_
    | with_reducible refine keeps_snd2 (by with_reducible assumption) ?_
    | (intro z; refine (fun (hz : Keeps s0 z) => ?_) ?_; (on_goal 1 => clear_value z); (on_goal 2 => (dsimp -zeta only [z]; clear z)))
    | (intro z; refine (fun (hF : ∀ s, Keeps s0 s → Keeps s0 (z s)) => ?_) ?_; (on_goal 1 => clear_value z); (on_goal 2 => (dsimp -zeta only [z]; clear z; intros)))
    | (intro z; refine (fun (hG : ∀ s y, Keeps s0 s → Keeps s0 (z s y)) => ?_) ?_; (on_goal 1 => clear_value z); (on_goal 2 => (dsimp -zeta only [z]; clear z; intros)))
    | (intro z; refine (fun (hK : ∀ y s, Keeps s0 s → Keeps s0 (z y s)) => ?_) ?_; (on_goal 1 => clear_value z); (on_goal 2 => (dsimp -zeta only [z]; clear z; intros)))
    | intro z
    | lift_lets
    | with_reducible apply hF
    | with_reducible apply hG
    | with_reducible apply hK
    | split
    | dsimp only
    | (clear_value *; split)

theorem xoffPort_keeps {s0 s : State} {x1 x2} (h : Keeps s0 s) :
    Keeps s0 (xoffPort x1 x2 s) := by
  unfold xoffPort
  repeat' first
    | with_reducible assumption
    | with_reducible apply State.cnt_keeps
    | with_reducible apply State.put_keeps
    | with_reducible apply xoffChanged_keeps
    | (intro z; refine (fun (hz : Keeps s0 z) => ?_) ?_; (on_goal 1 => clear_value z); (on_goal 2 => (dsimp -zeta only [z]; clear z)))
    | (intro z; refine (fun (hF : ∀ s, Keeps s0 s → Keeps s0 (z s)) => ?_) ?_; (on_goal 1 => clear_value z); (on_goal 2 => (dsimp -zeta only [z]; clear z; intros)))
    | (intro z; refine (fun (hG : ∀ s y, Keeps s0 s → Keeps s0 (z s y)) => ?_) ?_; (on_goal 1 => clear_value z); (on_goal 2 => (dsimp -zeta only [z]; clear z; intros)))
    | (intro z; refine (fun (hK : ∀ y s, Keeps s0 s → Keeps s0 (z y s)) => ?_) ?_; (on_goal 1 => clear_value z); (on_goal 2 => (dsimp -zeta only [z]; clear z; intros)))
    | intro z
    | lift_lets
    | with_reducible apply hF
    | with_reducible apply hG
    | with_reducible apply hK
    | split
    | dsimp only
    | (clear_value *; split)

theorem xoffUpdate_keeps {s0 s : State} {x1} (h : Keeps s0 s) :
    Keeps s0 (xoffUpdate x1 s) := by
  unfold xoffUpdate
  repeat' first
    | with_reducible assumption
    | with_reducible apply xoffPort_keeps
    | (with_reducible refine keeps_foldl (fun _ _ _ => ?_) ?_)
    | (with_reducible refine keeps_foldl2 (fun _ _ _ => ?_) ?_)
    | (with_reducible refine keeps_foldl3 (fun _ _ _ => ?_) ?_)
    | intro z
    | split
    | dsimp only

theorem mapFrames_keeps {s0 s : State} {x1 x2} (h : Keeps s0 s) :
    Keeps s0 (mapFrames x1 x2 s) := by
  unfold mapFrames
  repeat' first
    | with_reducible assumption
    | with_reducible apply State.modTasks_keeps
    | with_reducible apply State.modCore_keeps
    | (simp -zeta only [keeps_mk]; with_reducible refine kept_of _ ?_)
    | (intro z; refine (fun (hz : Keeps s0 z) => ?_) ?_; (on_goal 1 => clear_value z); (on_goal 2 => (dsimp -zeta only [z]; clear z)))
    | (intro z; refine (fun (hF : ∀ s, Keeps s0 s → Keeps s0 (z s)) => ?_) ?_; (on_goal 1 => clear_value z); (on_goal 2 => (dsimp -zeta only [z]; clear z; intros)))
    | (intro z; refine (fun (hG : ∀ s y, Keeps s0 s → Keeps s0 (z s y)) => ?_) ?_; (on_goal 1 => clear_value z); (on_goal 2 => (dsimp -zeta only [z]; clear z; intros)))
    | (intro z; refine (fun (hK : ∀ y s, Keeps s0 s → Keeps s0 (z y s)) => ?_) ?_; (on_goal 1 => clear_value z); (on_goal 2 => (dsimp -zeta only [z]; clear z; intros)))
    | intro z
    | lift_lets
    | with_reducible apply hF
    | with_reducible apply hG
    | with_reducible apply hK
    | split
    | dsimp only
    | (clear_value *; split)

theorem touch_keeps {s0 s : State} {x1 x2} (h : Keeps s0 s) :
    Keeps s0 (touch x1 x2 s) := by
  unfold touch
  repeat' first
    | with_reducible assumption
    | with_reducible apply State.modStn_keeps
    | (simp -zeta only [keeps_mk]; with_reducible refine kept_of _ ?_)
    | intro z
    | split
    | dsimp only

theorem takeCell_keeps {s0 s : State} {x1} (h : Keeps s0 s) :
    Keeps s0 (takeCell x1 s).2 := by
  unfold takeCell
  repeat' first
    | with_reducible assumption
    | with_reducible apply State.drawNat_keeps
    | with_reducible apply touch_keeps
    | with_reducible apply State.modCore_keeps
    | with_reducible apply mapFrames_keeps
    | with_reducible apply energy_keeps
    | with_reducible apply evCount_keeps
    | with_reducible apply odWrite_keeps
    | with_reducible apply State.raise_keeps
    | (simp -zeta only [keeps_mk]; with_reducible refine kept_of _ ?_)
    | with_reducible refine keeps_snd (by with_reducible assumption) ?_
    | with_reducible refine keeps_snd2 (by with_reducible assumption) ?_
    | (intro z; refine (fun (hz : Keeps s0 z) => ?_) ?_; (on_goal 1 => clear_value z); (on_goal 2 => (dsimp -zeta only [z]; clear z)))
    | (intro z; refine (fun (hF : ∀ s, Keeps s0 s → Keeps s0 (z s)) => ?_) ?_; (on_goal 1 => clear_value z); (on_goal 2 => (dsimp -zeta only [z]; clear z; intros)))
    | (intro z; refine (fun (hG : ∀ s y, Keeps s0 s → Keeps s0 (z s y)) => ?_) ?_; (on_goal 1 => clear_value z); (on_goal 2 => (dsimp -zeta only [z]; clear z; intros)))
    | (intro z; refine (fun (hK : ∀ y s, Keeps s0 s → Keeps s0 (z y s)) => ?_) ?_; (on_goal 1 => clear_value z); (on_goal 2 => (dsimp -zeta only [z]; clear z; intros)))
    | intro z
    | lift_lets
    | with_reducible apply hF
    | with_reducible apply hG
    | with_reducible apply hK
    | split
    | dsimp only
    | (clear_value *; split)

theorem takeCells_keeps {s0 s : State} {x1 x2} (h : Keeps s0 s) :
    Keeps s0 (takeCells x1 x2 s).2 := by
  fun_induction takeCells x1 x2 s
  all_goals repeat' first
    | (with_reducible apply_assumption)
    | with_reducible assumption
    | with_reducible apply takeCell_keeps
    | with_reducible refine keeps_snd (by with_reducible assumption) ?_
    | with_reducible refine keeps_snd2 (by with_reducible assumption) ?_
    | (intro z; refine (fun (hz : Keeps s0 z) => ?_) ?_; (on_goal 1 => clear_value z); (on_goal 2 => (dsimp -zeta only [z]; clear z)))
    | intro z
    | lift_lets
    | split
    | dsimp only
    | (clear_value *; split)

theorem freeCell_keeps {s0 s : State} {x1 x3} (h : Keeps s0 s) :
    Keeps s0 (freeCell x1 s x3) := by
  unfold freeCell
  repeat' first
    | with_reducible assumption
    | with_reducible apply touch_keeps
    | with_reducible apply State.modCore_keeps
    | (simp -zeta only [keeps_mk]; with_reducible refine kept_of _ ?_)
    | intro z
    | split
    | dsimp only

theorem chargeShared_keeps {s0 s : State} {x1 x2 x3 x4} (h : Keeps s0 s) :
    Keeps s0 (chargeShared x1 x2 x3 x4 s) := by
  unfold chargeShared
  repeat' first
    | with_reducible assumption
    | with_reducible apply State.modCore_keeps
    | (simp -zeta only [keeps_mk]; with_reducible refine kept_of _ ?_)
    | intro z
    | split
    | dsimp only

theorem chargeHead_keeps {s0 s : State} {x1 x2 x3} (h : Keeps s0 s) :
    Keeps s0 (chargeHead x1 x2 x3 s) := by
  unfold chargeHead
  repeat' first
    | with_reducible assumption
    | with_reducible apply State.modCore_keeps
    | with_reducible apply State.put_keeps
    | (simp -zeta only [keeps_mk]; with_reducible refine kept_of _ ?_)
    | (intro z; refine (fun (hz : Keeps s0 z) => ?_) ?_; (on_goal 1 => clear_value z); (on_goal 2 => (dsimp -zeta only [z]; clear z)))
    | (intro z; refine (fun (hF : ∀ s, Keeps s0 s → Keeps s0 (z s)) => ?_) ?_; (on_goal 1 => clear_value z); (on_goal 2 => (dsimp -zeta only [z]; clear z; intros)))
    | (intro z; refine (fun (hG : ∀ s y, Keeps s0 s → Keeps s0 (z s y)) => ?_) ?_; (on_goal 1 => clear_value z); (on_goal 2 => (dsimp -zeta only [z]; clear z; intros)))
    | (intro z; refine (fun (hK : ∀ y s, Keeps s0 s → Keeps s0 (z y s)) => ?_) ?_; (on_goal 1 => clear_value z); (on_goal 2 => (dsimp -zeta only [z]; clear z; intros)))
    | intro z
    | lift_lets
    | with_reducible apply hF
    | with_reducible apply hG
    | with_reducible apply hK
    | split
    | dsimp only
    | (clear_value *; split)

theorem unchargeFrame_keeps {s0 s : State} {x1 x2} (h : Keeps s0 s) :
    Keeps s0 (unchargeFrame x1 x2 s) := by
  unfold unchargeFrame
  repeat' first
    | with_reducible assumption
    | with_reducible apply State.modCore_keeps
    | with_reducible apply State.put_keeps
    | (simp -zeta only [keeps_mk]; with_reducible refine kept_of _ ?_)
    | (intro z; refine (fun (hz : Keeps s0 z) => ?_) ?_; (on_goal 1 => clear_value z); (on_goal 2 => (dsimp -zeta only [z]; clear z)))
    | (intro z; refine (fun (hF : ∀ s, Keeps s0 s → Keeps s0 (z s)) => ?_) ?_; (on_goal 1 => clear_value z); (on_goal 2 => (dsimp -zeta only [z]; clear z; intros)))
    | (intro z; refine (fun (hG : ∀ s y, Keeps s0 s → Keeps s0 (z s y)) => ?_) ?_; (on_goal 1 => clear_value z); (on_goal 2 => (dsimp -zeta only [z]; clear z; intros)))
    | (intro z; refine (fun (hK : ∀ y s, Keeps s0 s → Keeps s0 (z y s)) => ?_) ?_; (on_goal 1 => clear_value z); (on_goal 2 => (dsimp -zeta only [z]; clear z; intros)))
    | intro z
    | lift_lets
    | with_reducible apply hF
    | with_reducible apply hG
    | with_reducible apply hK
    | split
    | dsimp only
    | (clear_value *; split)

theorem freeFrame_keeps {s0 s : State} {x1 x2} (h : Keeps s0 s) :
    Keeps s0 (freeFrame x1 x2 s) := by
  unfold freeFrame
  repeat' first
    | with_reducible assumption
    | with_reducible apply xoffUpdate_keeps
    | with_reducible apply unchargeFrame_keeps
    | with_reducible apply freeCell_keeps
    | (with_reducible refine keeps_foldl (fun _ _ _ => ?_) ?_)
    | (with_reducible refine keeps_foldl2 (fun _ _ _ => ?_) ?_)
    | (with_reducible refine keeps_foldl3 (fun _ _ _ => ?_) ?_)
    | intro z
    | split
    | dsimp only

theorem dropFrame_keeps {s0 s : State} {x1 x2} (h : Keeps s0 s) :
    Keeps s0 (dropFrame x1 x2 s) := by
  unfold dropFrame
  repeat' first
    | with_reducible assumption
    | with_reducible apply frameGone_keeps
    | with_reducible apply freeFrame_keeps
    | intro z
    | split
    | dsimp only

theorem arriveCell_keeps {s0 s : State} {x1 x2 x3} (h : Keeps s0 s) :
    Keeps s0 (arriveCell x1 x2 x3 s).2 := by
  unfold arriveCell
  repeat' first
    | with_reducible assumption
    | with_reducible apply takeCell_keeps
    | with_reducible apply State.modCore_keeps
    | (simp -zeta only [keeps_mk]; with_reducible refine kept_of _ ?_)
    | with_reducible refine keeps_snd (by with_reducible assumption) ?_
    | with_reducible refine keeps_snd2 (by with_reducible assumption) ?_
    | (intro z; refine (fun (hz : Keeps s0 z) => ?_) ?_; (on_goal 1 => clear_value z); (on_goal 2 => (dsimp -zeta only [z]; clear z)))
    | (intro z; refine (fun (hF : ∀ s, Keeps s0 s → Keeps s0 (z s)) => ?_) ?_; (on_goal 1 => clear_value z); (on_goal 2 => (dsimp -zeta only [z]; clear z; intros)))
    | (intro z; refine (fun (hG : ∀ s y, Keeps s0 s → Keeps s0 (z s y)) => ?_) ?_; (on_goal 1 => clear_value z); (on_goal 2 => (dsimp -zeta only [z]; clear z; intros)))
    | (intro z; refine (fun (hK : ∀ y s, Keeps s0 s → Keeps s0 (z y s)) => ?_) ?_; (on_goal 1 => clear_value z); (on_goal 2 => (dsimp -zeta only [z]; clear z; intros)))
    | intro z
    | lift_lets
    | with_reducible apply hF
    | with_reducible apply hG
    | with_reducible apply hK
    | split
    | dsimp only
    | (clear_value *; split)

theorem arriveCells_keeps {s0 s : State} {x1 x2 x3 x4} (h : Keeps s0 s) :
    Keeps s0 (arriveCells x1 x2 x3 x4 s).2 := by
  fun_induction arriveCells x1 x2 x3 x4 s
  all_goals repeat' first
    | (with_reducible apply_assumption)
    | with_reducible assumption
    | with_reducible apply arriveCell_keeps
    | with_reducible refine keeps_snd (by with_reducible assumption) ?_
    | with_reducible refine keeps_snd2 (by with_reducible assumption) ?_
    | (intro z; refine (fun (hz : Keeps s0 z) => ?_) ?_; (on_goal 1 => clear_value z); (on_goal 2 => (dsimp -zeta only [z]; clear z)))
    | intro z
    | lift_lets
    | split
    | dsimp only
    | (clear_value *; split)

theorem arrive_keeps {s0 s : State} {x1 x2 x3 x4} (h : Keeps s0 s) :
    Keeps s0 (arrive x1 x2 x3 x4 s).2 := by
  unfold arrive
  repeat' first
    | with_reducible assumption
    | with_reducible apply arriveCells_keeps
    | with_reducible apply xoffUpdate_keeps
    | with_reducible refine keeps_snd (by with_reducible assumption) ?_
    | with_reducible refine keeps_snd2 (by with_reducible assumption) ?_
    | (intro z; refine (fun (hz : Keeps s0 z) => ?_) ?_; (on_goal 1 => clear_value z); (on_goal 2 => (dsimp -zeta only [z]; clear z)))
    | intro z
    | lift_lets
    | split
    | dsimp only
    | (clear_value *; split)

theorem unarrive_keeps {s0 s : State} {x1 x2 x3} (h : Keeps s0 s) :
    Keeps s0 (unarrive x1 x2 x3 s) := by
  unfold unarrive
  repeat' first
    | with_reducible assumption
    | with_reducible apply State.modCore_keeps
    | (simp -zeta only [keeps_mk]; with_reducible refine kept_of _ ?_)
    | intro z
    | split
    | dsimp only

theorem arrivalFree_keeps {s0 s : State} {x1 x2 x3} (h : Keeps s0 s) :
    Keeps s0 (arrivalFree x1 x2 x3 s) := by
  unfold arrivalFree
  repeat' first
    | with_reducible assumption
    | with_reducible apply xoffUpdate_keeps
    | with_reducible apply unarrive_keeps
    | with_reducible apply freeCell_keeps
    | (with_reducible refine keeps_foldl (fun _ _ _ => ?_) ?_)
    | (with_reducible refine keeps_foldl2 (fun _ _ _ => ?_) ?_)
    | (with_reducible refine keeps_foldl3 (fun _ _ _ => ?_) ?_)
    | intro z
    | split
    | dsimp only

theorem ingressRefused_keeps {s0 s : State} {x1 x2 x3 x4 x5} (h : Keeps s0 s) :
    Keeps s0 (ingressRefused x1 x2 x3 x4 x5 s) := by
  unfold ingressRefused
  repeat' first
    | with_reducible assumption
    | with_reducible apply State.tick_keeps
    | with_reducible apply State.raise_keeps
    | with_reducible apply frameGone_keeps
    | (intro z; refine (fun (hz : Keeps s0 z) => ?_) ?_; (on_goal 1 => clear_value z); (on_goal 2 => (dsimp -zeta only [z]; clear z)))
    | (intro z; refine (fun (hF : ∀ s, Keeps s0 s → Keeps s0 (z s)) => ?_) ?_; (on_goal 1 => clear_value z); (on_goal 2 => (dsimp -zeta only [z]; clear z; intros)))
    | (intro z; refine (fun (hG : ∀ s y, Keeps s0 s → Keeps s0 (z s y)) => ?_) ?_; (on_goal 1 => clear_value z); (on_goal 2 => (dsimp -zeta only [z]; clear z; intros)))
    | (intro z; refine (fun (hK : ∀ y s, Keeps s0 s → Keeps s0 (z y s)) => ?_) ?_; (on_goal 1 => clear_value z); (on_goal 2 => (dsimp -zeta only [z]; clear z; intros)))
    | intro z
    | lift_lets
    | with_reducible apply hF
    | with_reducible apply hG
    | with_reducible apply hK
    | split
    | dsimp only
    | (clear_value *; split)

theorem ingressCharge_keeps {s0 s : State} {x1 x2 x3 x4} (h : Keeps s0 s) :
    Keeps s0 (ingressCharge x1 x2 x3 x4 s).2 := by
  unfold ingressCharge
  repeat' first
    | with_reducible assumption
    | with_reducible apply ingressRefused_keeps
    | with_reducible apply xoffUpdate_keeps
    | with_reducible apply freeCell_keeps
    | with_reducible apply unarrive_keeps
    | with_reducible apply State.modCore_keeps
    | with_reducible apply chargeHead_keeps
    | with_reducible apply chargeShared_keeps
    | with_reducible apply State.tick_keeps
    | (simp -zeta only [keeps_mk]; with_reducible refine kept_of _ ?_)
    | (with_reducible refine keeps_foldl (fun _ _ _ => ?_) ?_)
    | (with_reducible refine keeps_foldl2 (fun _ _ _ => ?_) ?_)
    | (with_reducible refine keeps_foldl3 (fun _ _ _ => ?_) ?_)
    | with_reducible refine keeps_snd (by with_reducible assumption) ?_
    | with_reducible refine keeps_snd2 (by with_reducible assumption) ?_
    | (intro z; refine (fun (hz : Keeps s0 z) => ?_) ?_; (on_goal 1 => clear_value z); (on_goal 2 => (dsimp -zeta only [z]; clear z)))
    | (intro z; refine (fun (hF : ∀ s, Keeps s0 s → Keeps s0 (z s)) => ?_) ?_; (on_goal 1 => clear_value z); (on_goal 2 => (dsimp -zeta only [z]; clear z; intros)))
    | (intro z; refine (fun (hG : ∀ s y, Keeps s0 s → Keeps s0 (z s y)) => ?_) ?_; (on_goal 1 => clear_value z); (on_goal 2 => (dsimp -zeta only [z]; clear z; intros)))
    | (intro z; refine (fun (hK : ∀ y s, Keeps s0 s → Keeps s0 (z y s)) => ?_) ?_; (on_goal 1 => clear_value z); (on_goal 2 => (dsimp -zeta only [z]; clear z; intros)))
    | intro z
    | lift_lets
    | with_reducible apply hF
    | with_reducible apply hG
    | with_reducible apply hK
    | split
    | dsimp only
    | (clear_value *; split)

theorem setEgrQueue_keeps {s0 s : State} {x1 x2 x3} (h : Keeps s0 s) :
    Keeps s0 (setEgrQueue x1 x2 x3 s) := by
  unfold setEgrQueue
  repeat' first
    | with_reducible assumption
    | with_reducible apply State.modEgr_keeps
    | (simp -zeta only [keeps_mk]; with_reducible refine kept_of _ ?_)
    | intro z
    | split
    | dsimp only

theorem egrCharge_keeps {s0 s : State} {x1 x2 x3 x4 x5} (h : Keeps s0 s) :
    Keeps s0 (egrCharge x1 x2 x3 x4 x5 s) := by
  unfold egrCharge
  repeat' first
    | with_reducible assumption
    | with_reducible apply State.modEgress_keeps
    | (simp -zeta only [keeps_mk]; with_reducible refine kept_of _ ?_)
    | intro z
    | split
    | dsimp only

theorem egrRelease_keeps {s0 s : State} {x1 x2} (h : Keeps s0 s) :
    Keeps s0 (egrRelease x1 x2 s) := by
  unfold egrRelease
  repeat' first
    | with_reducible assumption
    | with_reducible apply State.modEgress_keeps
    | (simp -zeta only [keeps_mk]; with_reducible refine kept_of _ ?_)
    | with_reducible refine keeps_snd (by with_reducible assumption) ?_
    | with_reducible refine keeps_snd2 (by with_reducible assumption) ?_
    | intro z
    | split
    | dsimp only

theorem pcnt_keeps {s0 s : State} {x1 x2} (h : Keeps s0 s) :
    Keeps s0 (pcnt x1 x2 s) := by
  unfold pcnt
  repeat' first
    | with_reducible assumption
    | with_reducible apply State.tick_keeps
    | intro z
    | split
    | dsimp only

theorem egrDiscard_keeps {s0 s : State} {x1 x3} (h : Keeps s0 s) :
    Keeps s0 (egrDiscard x1 s x3) := by
  unfold egrDiscard
  repeat' first
    | with_reducible assumption
    | with_reducible apply frameGone_keeps
    | with_reducible apply egrRelease_keeps
    | intro z
    | split
    | dsimp only

theorem downDiscard_keeps {s0 s : State} {x1 x3} (h : Keeps s0 s) :
    Keeps s0 (downDiscard x1 s x3) := by
  unfold downDiscard
  repeat' first
    | with_reducible assumption
    | with_reducible apply egrDiscard_keeps
    | with_reducible apply pcnt_keeps
    | intro z
    | split
    | dsimp only

theorem portDiscard_keeps {s0 s : State} {x1} (h : Keeps s0 s) :
    Keeps s0 (portDiscard x1 s) := by
  unfold portDiscard
  repeat' first
    | with_reducible assumption
    | with_reducible apply queuesWrite_keeps
    | with_reducible apply State.modEgr_keeps
    | with_reducible apply State.modMac_keeps
    | with_reducible apply downDiscard_keeps
    | (simp -zeta only [keeps_mk]; with_reducible refine kept_of _ ?_)
    | (with_reducible refine keeps_foldl (fun _ _ _ => ?_) ?_)
    | (with_reducible refine keeps_foldl2 (fun _ _ _ => ?_) ?_)
    | (with_reducible refine keeps_foldl3 (fun _ _ _ => ?_) ?_)
    | with_reducible refine keeps_snd (by with_reducible assumption) ?_
    | with_reducible refine keeps_snd2 (by with_reducible assumption) ?_
    | (intro z; refine (fun (hz : Keeps s0 z) => ?_) ?_; (on_goal 1 => clear_value z); (on_goal 2 => (dsimp -zeta only [z]; clear z)))
    | (intro z; refine (fun (hF : ∀ s, Keeps s0 s → Keeps s0 (z s)) => ?_) ?_; (on_goal 1 => clear_value z); (on_goal 2 => (dsimp -zeta only [z]; clear z; intros)))
    | (intro z; refine (fun (hG : ∀ s y, Keeps s0 s → Keeps s0 (z s y)) => ?_) ?_; (on_goal 1 => clear_value z); (on_goal 2 => (dsimp -zeta only [z]; clear z; intros)))
    | (intro z; refine (fun (hK : ∀ y s, Keeps s0 s → Keeps s0 (z y s)) => ?_) ?_; (on_goal 1 => clear_value z); (on_goal 2 => (dsimp -zeta only [z]; clear z; intros)))
    | intro z
    | lift_lets
    | with_reducible apply hF
    | with_reducible apply hG
    | with_reducible apply hK
    | split
    | dsimp only
    | (clear_value *; split)

end Sys2Proof.Machine
end

