-- ==== Sys2Proof/Laws/LinksK.lean ====
section
/-! SUPPORT. Every operation of Machine/Links.lean keeps what `Keeps` says. -/
set_option linter.unusedTactic false
set_option linter.unreachableTactic false
set_option linter.unusedSimpArgs false
namespace Sys2Proof.Machine

theorem setVerify_keeps {s0 s : State} {x1 x2} (h : Keeps s0 s) :
    Keeps s0 (setVerify x1 x2 s) := by
  unfold setVerify
  repeat' first
    | with_reducible assumption
    | with_reducible apply State.put_keeps
    | intro z
    | split
    | dsimp only

theorem activeUpdate_keeps {s0 s : State} {x1} (h : Keeps s0 s) :
    Keeps s0 (activeUpdate x1 s) := by
  unfold activeUpdate
  repeat' first
    | with_reducible assumption
    | with_reducible apply State.putB_keeps
    | (intro z; refine (fun (hz : Keeps s0 z) => ?_) ?_; (on_goal 1 => clear_value z); (on_goal 2 => (dsimp -zeta only [z]; clear z)))
    | (intro z; refine (fun (hF : ∀ s, Keeps s0 s → Keeps s0 (z s)) => ?_) ?_; (on_goal 1 => clear_value z); (on_goal 2 => (dsimp -zeta only [z]; clear z; intros)))
    | (intro z; refine (fun (hG : ∀ s y, Keeps s0 s → Keeps s0 (z s y)) => ?_) ?_; (on_goal 1 => clear_value z); (on_goal 2 => (dsimp -zeta only [z]; clear z; intros)))
    | (intro z; refine (fun (hK : ∀ y s, Keeps s0 s → Keeps s0 (z y s)) => ?_) ?_; (on_goal 1 => clear_value z); (on_goal 2 => (dsimp -zeta only [z]; clear z; intros)))
    | intro z
    | lift_lets
    | with_reducible apply hF
    | with_reducible apply hG
    | with_reducible apply hK
    | split
    | dsimp only
    | (clear_value *; split)

theorem verifySend_keeps {s0 s : State} {x1} (h : Keeps s0 s) :
    Keeps s0 (verifySend x1 s) := by
  unfold verifySend
  repeat' first
    | with_reducible assumption
    | with_reducible apply State.modMac_keeps
    | with_reducible apply lineOut_keeps
    | (simp -zeta only [keeps_mk]; with_reducible refine kept_of _ ?_)
    | intro z
    | split
    | dsimp only

theorem verifyStart_keeps {s0 s : State} {x1} (h : Keeps s0 s) :
    Keeps s0 (verifyStart x1 s) := by
  unfold verifyStart
  repeat' first
    | with_reducible assumption
    | with_reducible apply State.modMac_keeps
    | with_reducible apply setVerify_keeps
    | with_reducible apply verifySend_keeps
    | with_reducible apply activeUpdate_keeps
    | (simp -zeta only [keeps_mk]; with_reducible refine kept_of _ ?_)
    | (intro z; refine (fun (hz : Keeps s0 z) => ?_) ?_; (on_goal 1 => clear_value z); (on_goal 2 => (dsimp -zeta only [z]; clear z)))
    | (intro z; refine (fun (hF : ∀ s, Keeps s0 s → Keeps s0 (z s)) => ?_) ?_; (on_goal 1 => clear_value z); (on_goal 2 => (dsimp -zeta only [z]; clear z; intros)))
    | (intro z; refine (fun (hG : ∀ s y, Keeps s0 s → Keeps s0 (z s y)) => ?_) ?_; (on_goal 1 => clear_value z); (on_goal 2 => (dsimp -zeta only [z]; clear z; intros)))
    | (intro z; refine (fun (hK : ∀ y s, Keeps s0 s → Keeps s0 (z y s)) => ?_) ?_; (on_goal 1 => clear_value z); (on_goal 2 => (dsimp -zeta only [z]; clear z; intros)))
    | intro z
    | lift_lets
    | with_reducible apply hF
    | with_reducible apply hG
    | with_reducible apply hK
    | split
    | dsimp only
    | (clear_value *; split)

theorem mergeSettle_keeps {s0 s : State} {x1} (h : Keeps s0 s) :
    Keeps s0 (mergeSettle x1 s) := by
  unfold mergeSettle
  repeat' first
    | with_reducible assumption
    | with_reducible apply verifyStart_keeps
    | with_reducible apply State.modMac_keeps
    | (simp -zeta only [keeps_mk]; with_reducible refine kept_of _ ?_)
    | (intro z; refine (fun (hz : Keeps s0 z) => ?_) ?_; (on_goal 1 => clear_value z); (on_goal 2 => (dsimp -zeta only [z]; clear z)))
    | (intro z; refine (fun (hF : ∀ s, Keeps s0 s → Keeps s0 (z s)) => ?_) ?_; (on_goal 1 => clear_value z); (on_goal 2 => (dsimp -zeta only [z]; clear z; intros)))
    | (intro z; refine (fun (hG : ∀ s y, Keeps s0 s → Keeps s0 (z s y)) => ?_) ?_; (on_goal 1 => clear_value z); (on_goal 2 => (dsimp -zeta only [z]; clear z; intros)))
    | (intro z; refine (fun (hK : ∀ y s, Keeps s0 s → Keeps s0 (z y s)) => ?_) ?_; (on_goal 1 => clear_value z); (on_goal 2 => (dsimp -zeta only [z]; clear z; intros)))
    | intro z
    | lift_lets
    | with_reducible apply hF
    | with_reducible apply hG
    | with_reducible apply hK
    | split
    | dsimp only
    | (clear_value *; split)

theorem reasmDrop_keeps {s0 s : State} {x1} (h : Keeps s0 s) :
    Keeps s0 (reasmDrop x1 s) := by
  unfold reasmDrop
  repeat' first
    | with_reducible assumption
    | with_reducible apply evDrop_keeps
    | with_reducible apply arrivalFree_keeps
    | with_reducible apply State.modMac_keeps
    | (simp -zeta only [keeps_mk]; with_reducible refine kept_of _ ?_)
    | with_reducible refine keeps_snd (by with_reducible assumption) ?_
    | with_reducible refine keeps_snd2 (by with_reducible assumption) ?_
    | intro z
    | split
    | dsimp only

theorem reasmLost_keeps {s0 s : State} {x1} (h : Keeps s0 s) :
    Keeps s0 (reasmLost x1 s) := by
  unfold reasmLost
  repeat' first
    | with_reducible assumption
    | with_reducible apply macStat_keeps
    | with_reducible apply reasmDrop_keeps
    | intro z
    | split
    | dsimp only

theorem linkLeft_keeps {s0 s : State} {x1} (h : Keeps s0 s) :
    Keeps s0 (linkLeft x1 s) := by
  unfold linkLeft
  repeat' first
    | with_reducible assumption
    | with_reducible apply State.put_keeps
    | with_reducible apply mergeSettle_keeps
    | with_reducible apply portDiscard_keeps
    | with_reducible apply reasmLost_keeps
    | with_reducible apply State.modMac_keeps
    | with_reducible apply State.modLink_keeps
    | with_reducible apply setVerify_keeps
    | with_reducible apply activeUpdate_keeps
    | (simp -zeta only [keeps_mk]; with_reducible refine kept_of _ ?_)
    | (with_reducible refine keeps_foldl (fun _ _ _ => ?_) ?_)
    | (with_reducible refine keeps_foldl2 (fun _ _ _ => ?_) ?_)
    | (with_reducible refine keeps_foldl3 (fun _ _ _ => ?_) ?_)
    | (intro z; refine (fun (hz : Keeps s0 z) => ?_) ?_; (on_goal 1 => clear_value z); (on_goal 2 => (dsimp -zeta only [z]; clear z)))
    | (intro z; refine (fun (hF : ∀ s, Keeps s0 s → Keeps s0 (z s)) => ?_) ?_; (on_goal 1 => clear_value z); (on_goal 2 => (dsimp -zeta only [z]; clear z; intros)))
    | (intro z; refine (fun (hG : ∀ s y, Keeps s0 s → Keeps s0 (z s y)) => ?_) ?_; (on_goal 1 => clear_value z); (on_goal 2 => (dsimp -zeta only [z]; clear z; intros)))
    | (intro z; refine (fun (hK : ∀ y s, Keeps s0 s → Keeps s0 (z y s)) => ?_) ?_; (on_goal 1 => clear_value z); (on_goal 2 => (dsimp -zeta only [z]; clear z; intros)))
    | intro z
    | lift_lets
    | with_reducible apply hF
    | with_reducible apply hG
    | with_reducible apply hK
    | split
    | dsimp only
    | (clear_value *; split)

theorem setLinkState_keeps {s0 s : State} {x1 x2} (h : Keeps s0 s) :
    Keeps s0 (setLinkState x1 x2 s) := by
  unfold setLinkState
  repeat' first
    | with_reducible assumption
    | with_reducible apply State.put_keeps
    | intro z
    | split
    | dsimp only

theorem goDown_keeps {s0 s : State} {x1 x2} (h : Keeps s0 s) :
    Keeps s0 (goDown x1 x2 s) := by
  unfold goDown
  repeat' first
    | with_reducible assumption
    | with_reducible apply State.modLink_keeps
    | with_reducible apply setLinkState_keeps
    | with_reducible apply prbsShow_keeps
    | with_reducible apply linkLeft_keeps
    | (simp -zeta only [keeps_mk]; with_reducible refine kept_of _ ?_)
    | with_reducible refine keeps_snd (by with_reducible assumption) ?_
    | with_reducible refine keeps_snd2 (by with_reducible assumption) ?_
    | (intro z; refine (fun (hz : Keeps s0 z) => ?_) ?_; (on_goal 1 => clear_value z); (on_goal 2 => (dsimp -zeta only [z]; clear z)))
    | (intro z; refine (fun (hF : ∀ s, Keeps s0 s → Keeps s0 (z s)) => ?_) ?_; (on_goal 1 => clear_value z); (on_goal 2 => (dsimp -zeta only [z]; clear z; intros)))
    | (intro z; refine (fun (hG : ∀ s y, Keeps s0 s → Keeps s0 (z s y)) => ?_) ?_; (on_goal 1 => clear_value z); (on_goal 2 => (dsimp -zeta only [z]; clear z; intros)))
    | (intro z; refine (fun (hK : ∀ y s, Keeps s0 s → Keeps s0 (z y s)) => ?_) ?_; (on_goal 1 => clear_value z); (on_goal 2 => (dsimp -zeta only [z]; clear z; intros)))
    | intro z
    | lift_lets
    | with_reducible apply hF
    | with_reducible apply hG
    | with_reducible apply hK
    | split
    | dsimp only
    | (clear_value *; split)

theorem checkersOff_keeps {s0 s : State} {x1} (h : Keeps s0 s) :
    Keeps s0 (checkersOff x1 s) := by
  unfold checkersOff
  repeat' first
    | with_reducible assumption
    | with_reducible apply State.put_keeps
    | (with_reducible refine keeps_foldl (fun _ _ _ => ?_) ?_)
    | (with_reducible refine keeps_foldl2 (fun _ _ _ => ?_) ?_)
    | (with_reducible refine keeps_foldl3 (fun _ _ _ => ?_) ?_)
    | intro z
    | split
    | dsimp only

theorem goOff_keeps {s0 s : State} {x1} (h : Keeps s0 s) :
    Keeps s0 (goOff x1 s) := by
  unfold goOff
  repeat' first
    | with_reducible assumption
    | with_reducible apply checkersOff_keeps
    | with_reducible apply goDown_keeps
    | with_reducible apply State.put_keeps
    | with_reducible apply State.modLink_keeps
    | (simp -zeta only [keeps_mk]; with_reducible refine kept_of _ ?_)
    | (intro z; refine (fun (hz : Keeps s0 z) => ?_) ?_; (on_goal 1 => clear_value z); (on_goal 2 => (dsimp -zeta only [z]; clear z)))
    | (intro z; refine (fun (hF : ∀ s, Keeps s0 s → Keeps s0 (z s)) => ?_) ?_; (on_goal 1 => clear_value z); (on_goal 2 => (dsimp -zeta only [z]; clear z; intros)))
    | (intro z; refine (fun (hG : ∀ s y, Keeps s0 s → Keeps s0 (z s y)) => ?_) ?_; (on_goal 1 => clear_value z); (on_goal 2 => (dsimp -zeta only [z]; clear z; intros)))
    | (intro z; refine (fun (hK : ∀ y s, Keeps s0 s → Keeps s0 (z y s)) => ?_) ?_; (on_goal 1 => clear_value z); (on_goal 2 => (dsimp -zeta only [z]; clear z; intros)))
    | intro z
    | lift_lets
    | with_reducible apply hF
    | with_reducible apply hG
    | with_reducible apply hK
    | split
    | dsimp only
    | (clear_value *; split)

theorem anSend_keeps {s0 s : State} {x1} (h : Keeps s0 s) :
    Keeps s0 (anSend x1 s) := by
  unfold anSend
  repeat' first
    | with_reducible assumption
    | with_reducible apply ballOut_keeps
    | (intro z; refine (fun (hz : Keeps s0 z) => ?_) ?_; (on_goal 1 => clear_value z); (on_goal 2 => (dsimp -zeta only [z]; clear z)))
    | (intro z; refine (fun (hF : ∀ s, Keeps s0 s → Keeps s0 (z s)) => ?_) ?_; (on_goal 1 => clear_value z); (on_goal 2 => (dsimp -zeta only [z]; clear z; intros)))
    | (intro z; refine (fun (hG : ∀ s y, Keeps s0 s → Keeps s0 (z s y)) => ?_) ?_; (on_goal 1 => clear_value z); (on_goal 2 => (dsimp -zeta only [z]; clear z; intros)))
    | (intro z; refine (fun (hK : ∀ y s, Keeps s0 s → Keeps s0 (z y s)) => ?_) ?_; (on_goal 1 => clear_value z); (on_goal 2 => (dsimp -zeta only [z]; clear z; intros)))
    | intro z
    | lift_lets
    | with_reducible apply hF
    | with_reducible apply hG
    | with_reducible apply hK
    | split
    | dsimp only
    | (clear_value *; split)

theorem txeqWritten_keeps {s0 s : State} {x2} (h : Keeps s0 s) :
    Keeps s0 (txeqWritten s x2) := by
  unfold txeqWritten
  repeat' first
    | with_reducible assumption
    | with_reducible apply State.modLink_keeps
    | with_reducible apply State.wr_keeps
    | (simp -zeta only [keeps_mk]; with_reducible refine kept_of _ ?_)
    | with_reducible refine keeps_snd (by with_reducible assumption) ?_
    | with_reducible refine keeps_snd2 (by with_reducible assumption) ?_
    | intro z
    | split
    | dsimp only

theorem goTrainOrAlign_keeps {s0 s : State} {x1 x2} (h : Keeps s0 s) :
    Keeps s0 (goTrainOrAlign x1 x2 s) := by
  unfold goTrainOrAlign
  repeat' first
    | with_reducible assumption
    | with_reducible apply setLinkState_keeps
    | with_reducible apply txeqWritten_keeps
    | (with_reducible refine keeps_foldl (fun _ _ _ => ?_) ?_)
    | (with_reducible refine keeps_foldl2 (fun _ _ _ => ?_) ?_)
    | (with_reducible refine keeps_foldl3 (fun _ _ _ => ?_) ?_)
    | intro z
    | split
    | dsimp only

theorem goStart_keeps {s0 s : State} {x1} (h : Keeps s0 s) :
    Keeps s0 (goStart x1 s) := by
  unfold goStart
  repeat' first
    | with_reducible assumption
    | with_reducible apply goDown_keeps
    | with_reducible apply State.put_keeps
    | with_reducible apply anSend_keeps
    | with_reducible apply State.modLink_keeps
    | with_reducible apply goTrainOrAlign_keeps
    | (simp -zeta only [keeps_mk]; with_reducible refine kept_of _ ?_)
    | (intro z; refine (fun (hz : Keeps s0 z) => ?_) ?_; (on_goal 1 => clear_value z); (on_goal 2 => (dsimp -zeta only [z]; clear z)))
    | (intro z; refine (fun (hF : ∀ s, Keeps s0 s → Keeps s0 (z s)) => ?_) ?_; (on_goal 1 => clear_value z); (on_goal 2 => (dsimp -zeta only [z]; clear z; intros)))
    | (intro z; refine (fun (hG : ∀ s y, Keeps s0 s → Keeps s0 (z s y)) => ?_) ?_; (on_goal 1 => clear_value z); (on_goal 2 => (dsimp -zeta only [z]; clear z; intros)))
    | (intro z; refine (fun (hK : ∀ y s, Keeps s0 s → Keeps s0 (z y s)) => ?_) ?_; (on_goal 1 => clear_value z); (on_goal 2 => (dsimp -zeta only [z]; clear z; intros)))
    | intro z
    | lift_lets
    | with_reducible apply hF
    | with_reducible apply hG
    | with_reducible apply hK
    | split
    | dsimp only
    | (clear_value *; split)

theorem goStartOrTest_keeps {s0 s : State} {x1} (h : Keeps s0 s) :
    Keeps s0 (goStartOrTest x1 s) := by
  unfold goStartOrTest
  repeat' first
    | with_reducible assumption
    | with_reducible apply goDown_keeps
    | with_reducible apply txeqWritten_keeps
    | with_reducible apply goStart_keeps
    | (with_reducible refine keeps_foldl (fun _ _ _ => ?_) ?_)
    | (with_reducible refine keeps_foldl2 (fun _ _ _ => ?_) ?_)
    | (with_reducible refine keeps_foldl3 (fun _ _ _ => ?_) ?_)
    | intro z
    | split
    | dsimp only

theorem fecCount_keeps {s0 s : State} {x1 x2 x3} (h : Keeps s0 s) :
    Keeps s0 (fecCount x1 x2 x3 s) := by
  unfold fecCount
  repeat' first
    | with_reducible assumption
    | with_reducible apply State.cnt_keeps
    | (with_reducible refine keeps_foldl (fun _ _ _ => ?_) ?_)
    | (with_reducible refine keeps_foldl2 (fun _ _ _ => ?_) ?_)
    | (with_reducible refine keeps_foldl3 (fun _ _ _ => ?_) ?_)
    | intro z
    | split
    | dsimp only

theorem goUp_keeps {s0 s : State} {x1} (h : Keeps s0 s) :
    Keeps s0 (goUp x1 s) := by
  unfold goUp
  repeat' first
    | with_reducible assumption
    | with_reducible apply State.raise_keeps
    | with_reducible apply setLinkState_keeps
    | with_reducible apply State.putB_keeps
    | with_reducible apply State.put_keeps
    | with_reducible apply State.modEgr_keeps
    | with_reducible apply xoffUpdate_keeps
    | with_reducible apply verifyStart_keeps
    | (simp -zeta only [keeps_mk]; with_reducible refine kept_of _ ?_)
    | with_reducible refine keeps_snd (by with_reducible assumption) ?_
    | with_reducible refine keeps_snd2 (by with_reducible assumption) ?_
    | (intro z; refine (fun (hz : Keeps s0 z) => ?_) ?_; (on_goal 1 => clear_value z); (on_goal 2 => (dsimp -zeta only [z]; clear z)))
    | (intro z; refine (fun (hF : ∀ s, Keeps s0 s → Keeps s0 (z s)) => ?_) ?_; (on_goal 1 => clear_value z); (on_goal 2 => (dsimp -zeta only [z]; clear z; intros)))
    | (intro z; refine (fun (hG : ∀ s y, Keeps s0 s → Keeps s0 (z s y)) => ?_) ?_; (on_goal 1 => clear_value z); (on_goal 2 => (dsimp -zeta only [z]; clear z; intros)))
    | (intro z; refine (fun (hK : ∀ y s, Keeps s0 s → Keeps s0 (z y s)) => ?_) ?_; (on_goal 1 => clear_value z); (on_goal 2 => (dsimp -zeta only [z]; clear z; intros)))
    | intro z
    | lift_lets
    | with_reducible apply hF
    | with_reducible apply hG
    | with_reducible apply hK
    | split
    | dsimp only
    | (clear_value *; split)

theorem lockGone_keeps {s0 s : State} {x1} (h : Keeps s0 s) :
    Keeps s0 (lockGone x1 s) := by
  unfold lockGone
  repeat' first
    | with_reducible assumption
    | with_reducible apply goStart_keeps
    | with_reducible apply State.raise_keeps
    | intro z
    | split
    | dsimp only

end Sys2Proof.Machine
end

