-- ==== Sys2Proof/Laws/EndpointK.lean ====
section
/-! SUPPORT. Every operation of Machine/Endpoint.lean keeps what `Keeps` says. -/
set_option linter.unusedTactic false
set_option linter.unreachableTactic false
set_option linter.unusedSimpArgs false
namespace Sys2Proof.Machine

theorem eptGuildAdd_keeps {s0 s : State} {x1 x2 x3} (h : Keeps s0 s) :
    Keeps s0 (eptGuildAdd x1 x2 x3 s) := by
  unfold eptGuildAdd
  repeat' first
    | with_reducible assumption
    | with_reducible apply State.put_keeps
    | intro z
    | split
    | dsimp only

theorem eptWrite_keeps {s0 s : State} {x1 x2 x3 x4} (h : Keeps s0 s) :
    Keeps s0 (eptWrite x1 x2 x3 x4 s) := by
  unfold eptWrite
  repeat' first
    | with_reducible assumption
    | with_reducible apply odWrite_keeps
    | with_reducible apply State.modEpt_keeps
    | (simp -zeta only [keeps_mk]; with_reducible refine kept_of _ ?_)
    | with_reducible refine keeps_snd (by with_reducible assumption) ?_
    | with_reducible refine keeps_snd2 (by with_reducible assumption) ?_
    | intro z
    | split
    | dsimp only

theorem eptRemove_keeps {s0 s : State} {x1 x2} (h : Keeps s0 s) :
    Keeps s0 (eptRemove x1 x2 s) := by
  unfold eptRemove
  repeat' first
    | with_reducible assumption
    | with_reducible apply eptGuildAdd_keeps
    | with_reducible apply State.modEpt_keeps
    | (simp -zeta only [keeps_mk]; with_reducible refine kept_of _ ?_)
    | with_reducible refine keeps_snd (by with_reducible assumption) ?_
    | with_reducible refine keeps_snd2 (by with_reducible assumption) ?_
    | intro z
    | split
    | dsimp only

theorem eptReadAt_keeps {s0 s : State} {x1 x2} (h : Keeps s0 s) :
    Keeps s0 (eptReadAt x1 x2 s).2 := by
  unfold eptReadAt
  repeat' first
    | with_reducible assumption
    | with_reducible apply odRead_keeps
    | with_reducible apply odClear_keeps
    | with_reducible apply eptRemove_keeps
    | (simp -zeta only [keeps_mk]; with_reducible refine kept_of _ ?_)
    | with_reducible refine keeps_snd (by with_reducible assumption) ?_
    | with_reducible refine keeps_snd2 (by with_reducible assumption) ?_
    | intro z
    | split
    | dsimp only

theorem eptCheck_keeps {s0 s : State} {x1 x2} (h : Keeps s0 s) :
    Keeps s0 (eptCheck x1 x2 s) := by
  unfold eptCheck
  repeat' first
    | with_reducible assumption
    | with_reducible apply eptReadAt_keeps
    | (with_reducible refine keeps_foldl (fun _ _ _ => ?_) ?_)
    | (with_reducible refine keeps_foldl2 (fun _ _ _ => ?_) ?_)
    | (with_reducible refine keeps_foldl3 (fun _ _ _ => ?_) ?_)
    | intro z
    | split
    | dsimp only

theorem eptShift_keeps {s0 s : State} {x1 x2} (h : Keeps s0 s) :
    Keeps s0 (eptShift x1 x2 s) := by
  fun_induction eptShift x1 x2 s
  all_goals repeat' first
    | (with_reducible apply_assumption)
    | with_reducible assumption
    | with_reducible apply State.modEpt_keeps
    | with_reducible apply eptWrite_keeps
    | (simp -zeta only [keeps_mk]; with_reducible refine kept_of _ ?_)
    | with_reducible refine keeps_snd (by with_reducible assumption) ?_
    | with_reducible refine keeps_snd2 (by with_reducible assumption) ?_
    | (intro z; refine (fun (hz : Keeps s0 z) => ?_) ?_; (on_goal 1 => clear_value z); (on_goal 2 => (dsimp -zeta only [z]; clear z)))
    | (intro z; refine (fun (hF : ∀ s, Keeps s0 s → Keeps s0 (z s)) => ?_) ?_; (on_goal 1 => clear_value z); (on_goal 2 => (dsimp -zeta only [z]; clear z; intros)))
    | (intro z; refine (fun (hG : ∀ s y, Keeps s0 s → Keeps s0 (z s y)) => ?_) ?_; (on_goal 1 => clear_value z); (on_goal 2 => (dsimp -zeta only [z]; clear z; intros)))
    | (intro z; refine (fun (hK : ∀ y s, Keeps s0 s → Keeps s0 (z y s)) => ?_) ?_; (on_goal 1 => clear_value z); (on_goal 2 => (dsimp -zeta only [z]; clear z; intros)))
    | intro z
    | lift_lets
    | with_reducible apply hF
    | with_reducible apply hG
    | with_reducible apply hK
    | split
    | dsimp only
    | (clear_value *; split)

theorem eptInsert_keeps {s0 s t : State} {st k e} (h : Keeps s0 s) (x : eptInsert st k e s = some t) : Keeps s0 t := by
  have put (loc : Nat) {s : State} (h : Keeps s0 s) : Keeps s0 (eptGuildAdd st k.guild 1 (eptWrite st loc k e s)) :=
    eptGuildAdd_keeps (eptWrite_keeps h)
  unfold eptInsert at x
  split at x
  · injection x with x; subst x; exact put _ h
  · dsimp only at x
    split at x
    · injection x with x; subst x; exact put _ (eptShift_keeps (State.drawNat_keeps h))
    · cases x

theorem eptEvent_keeps {s0 s : State} {x1 x2 x3 x4 x5 x6 x7} (h : Keeps s0 s) :
    Keeps s0 (eptEvent x1 x2 x3 x4 x5 x6 x7 s) := by
  unfold eptEvent
  repeat' first
    | with_reducible assumption
    | with_reducible apply postEvent_keeps
    | intro z
    | split
    | dsimp only

theorem eptCnt_keeps {s0 s : State} {x1 x2} (h : Keeps s0 s) :
    Keeps s0 (eptCnt x1 x2 s) := by
  unfold eptCnt
  repeat' first
    | with_reducible assumption
    | with_reducible apply State.tick_keeps
    | intro z
    | split
    | dsimp only

theorem learnShow_keeps {s0 s : State} {x1} (h : Keeps s0 s) :
    Keeps s0 (learnShow x1 s) := by
  unfold learnShow
  repeat' first
    | with_reducible assumption
    | with_reducible apply State.put_keeps
    | intro z
    | split
    | dsimp only

theorem learnPush_keeps {s0 s : State} {x1 x2} (h : Keeps s0 s) :
    Keeps s0 (learnPush x1 x2 s) := by
  unfold learnPush
  repeat' first
    | with_reducible assumption
    | with_reducible apply State.modEpt_keeps
    | with_reducible apply learnShow_keeps
    | with_reducible apply odWrite_keeps
    | (simp -zeta only [keeps_mk]; with_reducible refine kept_of _ ?_)
    | (intro z; refine (fun (hz : Keeps s0 z) => ?_) ?_; (on_goal 1 => clear_value z); (on_goal 2 => (dsimp -zeta only [z]; clear z)))
    | (intro z; refine (fun (hF : ∀ s, Keeps s0 s → Keeps s0 (z s)) => ?_) ?_; (on_goal 1 => clear_value z); (on_goal 2 => (dsimp -zeta only [z]; clear z; intros)))
    | (intro z; refine (fun (hG : ∀ s y, Keeps s0 s → Keeps s0 (z s y)) => ?_) ?_; (on_goal 1 => clear_value z); (on_goal 2 => (dsimp -zeta only [z]; clear z; intros)))
    | (intro z; refine (fun (hK : ∀ y s, Keeps s0 s → Keeps s0 (z y s)) => ?_) ?_; (on_goal 1 => clear_value z); (on_goal 2 => (dsimp -zeta only [z]; clear z; intros)))
    | intro z
    | lift_lets
    | with_reducible apply hF
    | with_reducible apply hG
    | with_reducible apply hK
    | split
    | dsimp only
    | (clear_value *; split)

theorem learnRequest_keeps {s0 s : State} {x1 x2 x3 x4} (h : Keeps s0 s) :
    Keeps s0 (learnRequest x1 x2 x3 x4 s) := by
  unfold learnRequest
  repeat' first
    | with_reducible assumption
    | with_reducible apply eptCnt_keeps
    | with_reducible apply learnPush_keeps
    | (simp -zeta only [keeps_mk]; with_reducible refine kept_of _ ?_)
    | with_reducible refine keeps_snd (by with_reducible assumption) ?_
    | with_reducible refine keeps_snd2 (by with_reducible assumption) ?_
    | (intro z; refine (fun (hz : Keeps s0 z) => ?_) ?_; (on_goal 1 => clear_value z); (on_goal 2 => (dsimp -zeta only [z]; clear z)))
    | (intro z; refine (fun (hF : ∀ s, Keeps s0 s → Keeps s0 (z s)) => ?_) ?_; (on_goal 1 => clear_value z); (on_goal 2 => (dsimp -zeta only [z]; clear z; intros)))
    | (intro z; refine (fun (hG : ∀ s y, Keeps s0 s → Keeps s0 (z s y)) => ?_) ?_; (on_goal 1 => clear_value z); (on_goal 2 => (dsimp -zeta only [z]; clear z; intros)))
    | (intro z; refine (fun (hK : ∀ y s, Keeps s0 s → Keeps s0 (z y s)) => ?_) ?_; (on_goal 1 => clear_value z); (on_goal 2 => (dsimp -zeta only [z]; clear z; intros)))
    | intro z
    | lift_lets
    | with_reducible apply hF
    | with_reducible apply hG
    | with_reducible apply hK
    | split
    | dsimp only
    | (clear_value *; split)

theorem learnCmd_keeps {s0 s : State} {x1 x2 x3} (h : Keeps s0 s) :
    Keeps s0 (learnCmd x1 x2 x3 s) := by
  unfold learnCmd
  repeat' first
    | with_reducible assumption
    | with_reducible apply State.modEpt_keeps
    | with_reducible apply learnPush_keeps
    | (simp -zeta only [keeps_mk]; with_reducible refine kept_of _ ?_)
    | with_reducible refine keeps_snd (by with_reducible assumption) ?_
    | with_reducible refine keeps_snd2 (by with_reducible assumption) ?_
    | intro z
    | split
    | dsimp only

theorem learnAdmit_keeps {s0 s : State} {x1} (h : Keeps s0 s) :
    Keeps s0 (learnAdmit x1 s) := by
  unfold learnAdmit
  repeat' first
    | with_reducible assumption
    | with_reducible apply learnShow_keeps
    | with_reducible apply State.modEpt_keeps
    | with_reducible apply learnPush_keeps
    | (simp -zeta only [keeps_mk]; with_reducible refine kept_of _ ?_)
    | (with_reducible refine keeps_foldl (fun _ _ _ => ?_) ?_)
    | (with_reducible refine keeps_foldl2 (fun _ _ _ => ?_) ?_)
    | (with_reducible refine keeps_foldl3 (fun _ _ _ => ?_) ?_)
    | (intro z; refine (fun (hz : Keeps s0 z) => ?_) ?_; (on_goal 1 => clear_value z); (on_goal 2 => (dsimp -zeta only [z]; clear z)))
    | (intro z; refine (fun (hF : ∀ s, Keeps s0 s → Keeps s0 (z s)) => ?_) ?_; (on_goal 1 => clear_value z); (on_goal 2 => (dsimp -zeta only [z]; clear z; intros)))
    | (intro z; refine (fun (hG : ∀ s y, Keeps s0 s → Keeps s0 (z s y)) => ?_) ?_; (on_goal 1 => clear_value z); (on_goal 2 => (dsimp -zeta only [z]; clear z; intros)))
    | (intro z; refine (fun (hK : ∀ y s, Keeps s0 s → Keeps s0 (z y s)) => ?_) ?_; (on_goal 1 => clear_value z); (on_goal 2 => (dsimp -zeta only [z]; clear z; intros)))
    | intro z
    | lift_lets
    | with_reducible apply hF
    | with_reducible apply hG
    | with_reducible apply hK
    | split
    | dsimp only
    | (clear_value *; split)

theorem learnPop_keeps {s0 s : State} {x1} (h : Keeps s0 s) :
    Keeps s0 (learnPop x1 s) := by
  unfold learnPop
  repeat' first
    | with_reducible assumption
    | with_reducible apply learnAdmit_keeps
    | with_reducible apply State.modEpt_keeps
    | (simp -zeta only [keeps_mk]; with_reducible refine kept_of _ ?_)
    | intro z
    | split
    | dsimp only

theorem observe_keeps {s0 s : State} {x1 x2 x3 x4} (h : Keeps s0 s) :
    Keeps s0 (observe x1 x2 x3 x4 s) := by
  unfold observe
  repeat' first
    | with_reducible assumption
    | with_reducible apply eptWrite_keeps
    | with_reducible apply learnRequest_keeps
    | (simp -zeta only [keeps_mk]; with_reducible refine kept_of _ ?_)
    | with_reducible refine keeps_snd (by with_reducible assumption) ?_
    | with_reducible refine keeps_snd2 (by with_reducible assumption) ?_
    | intro z
    | split
    | dsimp only

theorem fidEntry_keeps {s0 s : State} {x1 x2} (h : Keeps s0 s) :
    Keeps s0 (fidEntry x1 x2 s).2 := by
  unfold fidEntry
  repeat' first
    | with_reducible assumption
    | with_reducible apply odRead_keeps
    | with_reducible apply odClear_keeps
    | with_reducible apply State.put_keeps
    | (simp -zeta only [keeps_mk]; with_reducible refine kept_of _ ?_)
    | with_reducible refine keeps_snd (by with_reducible assumption) ?_
    | with_reducible refine keeps_snd2 (by with_reducible assumption) ?_
    | (intro z; refine (fun (hz : Keeps s0 z) => ?_) ?_; (on_goal 1 => clear_value z); (on_goal 2 => (dsimp -zeta only [z]; clear z)))
    | (intro z; refine (fun (hF : ∀ s, Keeps s0 s → Keeps s0 (z s)) => ?_) ?_; (on_goal 1 => clear_value z); (on_goal 2 => (dsimp -zeta only [z]; clear z; intros)))
    | (intro z; refine (fun (hG : ∀ s y, Keeps s0 s → Keeps s0 (z s y)) => ?_) ?_; (on_goal 1 => clear_value z); (on_goal 2 => (dsimp -zeta only [z]; clear z; intros)))
    | (intro z; refine (fun (hK : ∀ y s, Keeps s0 s → Keeps s0 (z y s)) => ?_) ?_; (on_goal 1 => clear_value z); (on_goal 2 => (dsimp -zeta only [z]; clear z; intros)))
    | intro z
    | lift_lets
    | with_reducible apply hF
    | with_reducible apply hG
    | with_reducible apply hK
    | split
    | dsimp only
    | (clear_value *; split)

theorem destLookup_keeps {s0 s : State} {x1 x2 x3 x4} (h : Keeps s0 s) :
    Keeps s0 (destLookup x1 x2 x3 x4 s).2 := by
  unfold destLookup
  repeat' first
    | with_reducible assumption
    | with_reducible apply eptCheck_keeps
    | with_reducible apply eptCnt_keeps
    | (simp -zeta only [keeps_mk]; with_reducible refine kept_of _ ?_)
    | with_reducible refine keeps_snd (by with_reducible assumption) ?_
    | with_reducible refine keeps_snd2 (by with_reducible assumption) ?_
    | (intro z; refine (fun (hz : Keeps s0 z) => ?_) ?_; (on_goal 1 => clear_value z); (on_goal 2 => (dsimp -zeta only [z]; clear z)))
    | (intro z; refine (fun (hF : ∀ s, Keeps s0 s → Keeps s0 (z s)) => ?_) ?_; (on_goal 1 => clear_value z); (on_goal 2 => (dsimp -zeta only [z]; clear z; intros)))
    | (intro z; refine (fun (hG : ∀ s y, Keeps s0 s → Keeps s0 (z s y)) => ?_) ?_; (on_goal 1 => clear_value z); (on_goal 2 => (dsimp -zeta only [z]; clear z; intros)))
    | (intro z; refine (fun (hK : ∀ y s, Keeps s0 s → Keeps s0 (z y s)) => ?_) ?_; (on_goal 1 => clear_value z); (on_goal 2 => (dsimp -zeta only [z]; clear z; intros)))
    | intro z
    | lift_lets
    | with_reducible apply hF
    | with_reducible apply hG
    | with_reducible apply hK
    | split
    | dsimp only
    | (clear_value *; split)

theorem sourceLookup_keeps {s0 s : State} {x1 x2 x3 x4} (h : Keeps s0 s) :
    Keeps s0 (sourceLookup x1 x2 x3 x4 s) := by
  unfold sourceLookup
  repeat' first
    | with_reducible assumption
    | with_reducible apply eptCheck_keeps
    | with_reducible apply eptCnt_keeps
    | with_reducible apply observe_keeps
    | (intro z; refine (fun (hz : Keeps s0 z) => ?_) ?_; (on_goal 1 => clear_value z); (on_goal 2 => (dsimp -zeta only [z]; clear z)))
    | (intro z; refine (fun (hF : ∀ s, Keeps s0 s → Keeps s0 (z s)) => ?_) ?_; (on_goal 1 => clear_value z); (on_goal 2 => (dsimp -zeta only [z]; clear z; intros)))
    | (intro z; refine (fun (hG : ∀ s y, Keeps s0 s → Keeps s0 (z s y)) => ?_) ?_; (on_goal 1 => clear_value z); (on_goal 2 => (dsimp -zeta only [z]; clear z; intros)))
    | (intro z; refine (fun (hK : ∀ y s, Keeps s0 s → Keeps s0 (z y s)) => ?_) ?_; (on_goal 1 => clear_value z); (on_goal 2 => (dsimp -zeta only [z]; clear z; intros)))
    | intro z
    | lift_lets
    | with_reducible apply hF
    | with_reducible apply hG
    | with_reducible apply hK
    | split
    | dsimp only
    | (clear_value *; split)

theorem taskEpt_keeps {s0 s : State} {x1 x2 x3} (h : Keeps s0 s) :
    Keeps s0 (taskEpt x1 x2 x3 s).2 := by
  unfold taskEpt
  repeat' first
    | with_reducible assumption
    | with_reducible apply destLookup_keeps
    | with_reducible apply energy_keeps
    | with_reducible apply sourceLookup_keeps
    | with_reducible refine keeps_snd (by with_reducible assumption) ?_
    | with_reducible refine keeps_snd2 (by with_reducible assumption) ?_
    | (intro z; refine (fun (hz : Keeps s0 z) => ?_) ?_; (on_goal 1 => clear_value z); (on_goal 2 => (dsimp -zeta only [z]; clear z)))
    | (intro z; refine (fun (hF : ∀ s, Keeps s0 s → Keeps s0 (z s)) => ?_) ?_; (on_goal 1 => clear_value z); (on_goal 2 => (dsimp -zeta only [z]; clear z; intros)))
    | (intro z; refine (fun (hG : ∀ s y, Keeps s0 s → Keeps s0 (z s y)) => ?_) ?_; (on_goal 1 => clear_value z); (on_goal 2 => (dsimp -zeta only [z]; clear z; intros)))
    | (intro z; refine (fun (hK : ∀ y s, Keeps s0 s → Keeps s0 (z y s)) => ?_) ?_; (on_goal 1 => clear_value z); (on_goal 2 => (dsimp -zeta only [z]; clear z; intros)))
    | intro z
    | lift_lets
    | with_reducible apply hF
    | with_reducible apply hG
    | with_reducible apply hK
    | split
    | dsimp only
    | (clear_value *; split)

theorem execEptLookupDone_keeps {s0 s t : State} {x1 x2} (h : Keeps s0 s) (e : execEptLookupDone x1 x2 s = .next t) :
    Keeps s0 t := by
  unfold execEptLookupDone at e
  refine act_keeps (fun s h => ?_) h e
  repeat' first
    | with_reducible assumption
    | with_reducible apply taskEpt_keeps
    | with_reducible apply depDone_keeps
    | with_reducible apply State.modTask_keeps
    | (simp -zeta only [keeps_mk]; with_reducible refine kept_of _ ?_)
    | with_reducible refine keeps_snd (by with_reducible assumption) ?_
    | with_reducible refine keeps_snd2 (by with_reducible assumption) ?_
    | (intro z; refine (fun (hz : Keeps s0 z) => ?_) ?_; (on_goal 1 => clear_value z); (on_goal 2 => (dsimp -zeta only [z]; clear z)))
    | (intro z; refine (fun (hF : ∀ s, Keeps s0 s → Keeps s0 (z s)) => ?_) ?_; (on_goal 1 => clear_value z); (on_goal 2 => (dsimp -zeta only [z]; clear z; intros)))
    | (intro z; refine (fun (hG : ∀ s y, Keeps s0 s → Keeps s0 (z s y)) => ?_) ?_; (on_goal 1 => clear_value z); (on_goal 2 => (dsimp -zeta only [z]; clear z; intros)))
    | (intro z; refine (fun (hK : ∀ y s, Keeps s0 s → Keeps s0 (z y s)) => ?_) ?_; (on_goal 1 => clear_value z); (on_goal 2 => (dsimp -zeta only [z]; clear z; intros)))
    | intro z
    | lift_lets
    | with_reducible apply hF
    | with_reducible apply hG
    | with_reducible apply hK
    | split
    | dsimp only
    | (clear_value *; split)

theorem eptMove_keeps {s0 s : State} {x1 x2 x3 x4 x5 x6} (h : Keeps s0 s) :
    Keeps s0 (eptMove x1 x2 x3 x4 x5 x6 s) := by
  unfold eptMove
  repeat' first
    | with_reducible assumption
    | with_reducible apply eptEvent_keeps
    | with_reducible apply eptCnt_keeps
    | with_reducible apply eptWrite_keeps
    | (simp -zeta only [keeps_mk]; with_reducible refine kept_of _ ?_)
    | (intro z; refine (fun (hz : Keeps s0 z) => ?_) ?_; (on_goal 1 => clear_value z); (on_goal 2 => (dsimp -zeta only [z]; clear z)))
    | (intro z; refine (fun (hF : ∀ s, Keeps s0 s → Keeps s0 (z s)) => ?_) ?_; (on_goal 1 => clear_value z); (on_goal 2 => (dsimp -zeta only [z]; clear z; intros)))
    | (intro z; refine (fun (hG : ∀ s y, Keeps s0 s → Keeps s0 (z s y)) => ?_) ?_; (on_goal 1 => clear_value z); (on_goal 2 => (dsimp -zeta only [z]; clear z; intros)))
    | (intro z; refine (fun (hK : ∀ y s, Keeps s0 s → Keeps s0 (z y s)) => ?_) ?_; (on_goal 1 => clear_value z); (on_goal 2 => (dsimp -zeta only [z]; clear z; intros)))
    | intro z
    | lift_lets
    | with_reducible apply hF
    | with_reducible apply hG
    | with_reducible apply hK
    | split
    | dsimp only
    | (clear_value *; split)

theorem learnAbsent_keeps {s0 s : State} {x1 x2 x3 x4} (h : Keeps s0 s) :
    Keeps s0 (learnAbsent x1 x2 x3 x4 s) := by
  unfold learnAbsent
  repeat' first
    | with_reducible assumption
    | with_reducible apply eptEvent_keeps
    | with_reducible apply eptCnt_keeps
    | with_reducible refine eptInsert_keeps ?_ (by with_reducible assumption)
    | (simp -zeta only [keeps_mk]; with_reducible refine kept_of _ ?_)
    | with_reducible refine keeps_snd (by with_reducible assumption) ?_
    | with_reducible refine keeps_snd2 (by with_reducible assumption) ?_
    | intro z
    | split
    | dsimp only

theorem learnApply_keeps {s0 s : State} {x1 x2 x3 x4} (h : Keeps s0 s) :
    Keeps s0 (learnApply x1 x2 x3 x4 s) := by
  unfold learnApply
  repeat' first
    | with_reducible assumption
    | with_reducible apply eptCheck_keeps
    | with_reducible apply learnAbsent_keeps
    | with_reducible apply eptWrite_keeps
    | with_reducible apply eptEvent_keeps
    | with_reducible apply eptCnt_keeps
    | with_reducible apply eptMove_keeps
    | (simp -zeta only [keeps_mk]; with_reducible refine kept_of _ ?_)
    | with_reducible refine keeps_snd (by with_reducible assumption) ?_
    | with_reducible refine keeps_snd2 (by with_reducible assumption) ?_
    | (intro z; refine (fun (hz : Keeps s0 z) => ?_) ?_; (on_goal 1 => clear_value z); (on_goal 2 => (dsimp -zeta only [z]; clear z)))
    | (intro z; refine (fun (hF : ∀ s, Keeps s0 s → Keeps s0 (z s)) => ?_) ?_; (on_goal 1 => clear_value z); (on_goal 2 => (dsimp -zeta only [z]; clear z; intros)))
    | (intro z; refine (fun (hG : ∀ s y, Keeps s0 s → Keeps s0 (z s y)) => ?_) ?_; (on_goal 1 => clear_value z); (on_goal 2 => (dsimp -zeta only [z]; clear z; intros)))
    | (intro z; refine (fun (hK : ∀ y s, Keeps s0 s → Keeps s0 (z y s)) => ?_) ?_; (on_goal 1 => clear_value z); (on_goal 2 => (dsimp -zeta only [z]; clear z; intros)))
    | intro z
    | lift_lets
    | with_reducible apply hF
    | with_reducible apply hG
    | with_reducible apply hK
    | split
    | dsimp only
    | (clear_value *; split)

theorem stationAnswer_keeps {s0 s : State} {x1 x2 x3 x4 x5 x6} (h : Keeps s0 s) :
    Keeps s0 (stationAnswer x1 x2 x3 x4 x5 x6 s) := by
  unfold stationAnswer
  repeat' first
    | with_reducible assumption
    | with_reducible apply State.modCmd_keeps
    | with_reducible apply complete_keeps
    | (simp -zeta only [keeps_mk]; with_reducible refine kept_of _ ?_)
    | with_reducible refine keeps_snd (by with_reducible assumption) ?_
    | with_reducible refine keeps_snd2 (by with_reducible assumption) ?_
    | (intro z; refine (fun (hz : Keeps s0 z) => ?_) ?_; (on_goal 1 => clear_value z); (on_goal 2 => (dsimp -zeta only [z]; clear z)))
    | (intro z; refine (fun (hF : ∀ s, Keeps s0 s → Keeps s0 (z s)) => ?_) ?_; (on_goal 1 => clear_value z); (on_goal 2 => (dsimp -zeta only [z]; clear z; intros)))
    | (intro z; refine (fun (hG : ∀ s y, Keeps s0 s → Keeps s0 (z s y)) => ?_) ?_; (on_goal 1 => clear_value z); (on_goal 2 => (dsimp -zeta only [z]; clear z; intros)))
    | (intro z; refine (fun (hK : ∀ y s, Keeps s0 s → Keeps s0 (z y s)) => ?_) ?_; (on_goal 1 => clear_value z); (on_goal 2 => (dsimp -zeta only [z]; clear z; intros)))
    | intro z
    | lift_lets
    | with_reducible apply hF
    | with_reducible apply hG
    | with_reducible apply hK
    | split
    | dsimp only
    | (clear_value *; split)

theorem eptAddAt_keeps {s0 s : State} {x1 x2 x3 x4} (h : Keeps s0 s) :
    Keeps s0 (eptAddAt x1 x2 x3 x4 s).2 := by
  unfold eptAddAt
  repeat' first
    | with_reducible assumption
    | with_reducible apply eptCheck_keeps
    | with_reducible apply eptWrite_keeps
    | with_reducible apply eptEvent_keeps
    | with_reducible refine eptInsert_keeps ?_ (by with_reducible assumption)
    | (simp -zeta only [keeps_mk]; with_reducible refine kept_of _ ?_)
    | with_reducible refine keeps_snd (by with_reducible assumption) ?_
    | with_reducible refine keeps_snd2 (by with_reducible assumption) ?_
    | (intro z; refine (fun (hz : Keeps s0 z) => ?_) ?_; (on_goal 1 => clear_value z); (on_goal 2 => (dsimp -zeta only [z]; clear z)))
    | (intro z; refine (fun (hF : ∀ s, Keeps s0 s → Keeps s0 (z s)) => ?_) ?_; (on_goal 1 => clear_value z); (on_goal 2 => (dsimp -zeta only [z]; clear z; intros)))
    | (intro z; refine (fun (hG : ∀ s y, Keeps s0 s → Keeps s0 (z s y)) => ?_) ?_; (on_goal 1 => clear_value z); (on_goal 2 => (dsimp -zeta only [z]; clear z; intros)))
    | (intro z; refine (fun (hK : ∀ y s, Keeps s0 s → Keeps s0 (z y s)) => ?_) ?_; (on_goal 1 => clear_value z); (on_goal 2 => (dsimp -zeta only [z]; clear z; intros)))
    | intro z
    | lift_lets
    | with_reducible apply hF
    | with_reducible apply hG
    | with_reducible apply hK
    | split
    | dsimp only
    | (clear_value *; split)

theorem eptCmdAt_keeps {s0 s : State} {x1 x2 x3} (h : Keeps s0 s) :
    Keeps s0 (eptCmdAt x1 x2 x3 s).2.2 := by
  unfold eptCmdAt
  repeat' first
    | with_reducible assumption
    | with_reducible apply eptAddAt_keeps
    | with_reducible apply eptCheck_keeps
    | with_reducible apply eptRemove_keeps
    | with_reducible apply eptReadAt_keeps
    | with_reducible apply eptEvent_keeps
    | with_reducible apply eptWrite_keeps
    | (simp -zeta only [keeps_mk]; with_reducible refine kept_of _ ?_)
    | (with_reducible refine keeps_foldl (fun _ _ _ => ?_) ?_)
    | (with_reducible refine keeps_foldl2 (fun _ _ _ => ?_) ?_)
    | (with_reducible refine keeps_foldl3 (fun _ _ _ => ?_) ?_)
    | with_reducible refine keeps_snd (by with_reducible assumption) ?_
    | with_reducible refine keeps_snd2 (by with_reducible assumption) ?_
    | (intro z; refine (fun (hz : Keeps s0 z) => ?_) ?_; (on_goal 1 => clear_value z); (on_goal 2 => (dsimp -zeta only [z]; clear z)))
    | (intro z; refine (fun (hF : ∀ s, Keeps s0 s → Keeps s0 (z s)) => ?_) ?_; (on_goal 1 => clear_value z); (on_goal 2 => (dsimp -zeta only [z]; clear z; intros)))
    | (intro z; refine (fun (hG : ∀ s y, Keeps s0 s → Keeps s0 (z s y)) => ?_) ?_; (on_goal 1 => clear_value z); (on_goal 2 => (dsimp -zeta only [z]; clear z; intros)))
    | (intro z; refine (fun (hK : ∀ y s, Keeps s0 s → Keeps s0 (z y s)) => ?_) ?_; (on_goal 1 => clear_value z); (on_goal 2 => (dsimp -zeta only [z]; clear z; intros)))
    | intro z
    | lift_lets
    | with_reducible apply hF
    | with_reducible apply hG
    | with_reducible apply hK
    | split
    | dsimp only
    | (clear_value *; split)

theorem execLearnApply_keeps {s0 s t : State} {x1} (h : Keeps s0 s) (e : execLearnApply x1 s = .next t) :
    Keeps s0 t := by
  unfold execLearnApply at e
  refine act_keeps (fun s h => ?_) h e
  repeat' first
    | with_reducible assumption
    | with_reducible apply odRead_keeps
    | with_reducible apply learnPop_keeps
    | with_reducible apply odClear_keeps
    | with_reducible apply learnApply_keeps
    | with_reducible apply eptCmdAt_keeps
    | with_reducible apply stationAnswer_keeps
    | (simp -zeta only [keeps_mk]; with_reducible refine kept_of _ ?_)
    | with_reducible refine keeps_snd (by with_reducible assumption) ?_
    | with_reducible refine keeps_snd2 (by with_reducible assumption) ?_
    | (intro z; refine (fun (hz : Keeps s0 z) => ?_) ?_; (on_goal 1 => clear_value z); (on_goal 2 => (dsimp -zeta only [z]; clear z)))
    | (intro z; refine (fun (hF : ∀ s, Keeps s0 s → Keeps s0 (z s)) => ?_) ?_; (on_goal 1 => clear_value z); (on_goal 2 => (dsimp -zeta only [z]; clear z; intros)))
    | (intro z; refine (fun (hG : ∀ s y, Keeps s0 s → Keeps s0 (z s y)) => ?_) ?_; (on_goal 1 => clear_value z); (on_goal 2 => (dsimp -zeta only [z]; clear z; intros)))
    | (intro z; refine (fun (hK : ∀ y s, Keeps s0 s → Keeps s0 (z y s)) => ?_) ?_; (on_goal 1 => clear_value z); (on_goal 2 => (dsimp -zeta only [z]; clear z; intros)))
    | intro z
    | lift_lets
    | with_reducible apply hF
    | with_reducible apply hG
    | with_reducible apply hK
    | split
    | dsimp only
    | (clear_value *; split)

theorem eptStart_keeps {s0 s : State} {x1 x2 x3 x4} (h : Keeps s0 s) :
    Keeps s0 (eptStart x1 x2 x3 x4 s) := by
  unfold eptStart
  repeat' first
    | with_reducible assumption
    | with_reducible apply onCmd_keeps
    | with_reducible apply complete_keeps
    | with_reducible apply State.modCmd_keeps
    | with_reducible apply learnCmd_keeps
    | (simp -zeta only [keeps_mk]; with_reducible refine kept_of _ ?_)
    | (with_reducible refine keeps_foldl (fun _ _ _ => ?_) ?_)
    | (with_reducible refine keeps_foldl2 (fun _ _ _ => ?_) ?_)
    | (with_reducible refine keeps_foldl3 (fun _ _ _ => ?_) ?_)
    | with_reducible refine keeps_snd (by with_reducible assumption) ?_
    | with_reducible refine keeps_snd2 (by with_reducible assumption) ?_
    | (intro z; refine (fun (hz : Keeps s0 z) => ?_) ?_; (on_goal 1 => clear_value z); (on_goal 2 => (dsimp -zeta only [z]; clear z)))
    | (intro z; refine (fun (hF : ∀ s, Keeps s0 s → Keeps s0 (z s)) => ?_) ?_; (on_goal 1 => clear_value z); (on_goal 2 => (dsimp -zeta only [z]; clear z; intros)))
    | (intro z; refine (fun (hG : ∀ s y, Keeps s0 s → Keeps s0 (z s y)) => ?_) ?_; (on_goal 1 => clear_value z); (on_goal 2 => (dsimp -zeta only [z]; clear z; intros)))
    | (intro z; refine (fun (hK : ∀ y s, Keeps s0 s → Keeps s0 (z y s)) => ?_) ?_; (on_goal 1 => clear_value z); (on_goal 2 => (dsimp -zeta only [z]; clear z; intros)))
    | intro z
    | lift_lets
    | with_reducible apply hF
    | with_reducible apply hG
    | with_reducible apply hK
    | split
    | dsimp only
    | (clear_value *; split)

theorem execEptAdd_keeps {s0 s t : State} {x1 x2} (h : Keeps s0 s) (e : execEptAdd x1 x2 s = .next t) :
    Keeps s0 t := by
  unfold execEptAdd at e
  refine act_keeps (fun s h => ?_) h e
  repeat' first
    | with_reducible assumption
    | with_reducible apply eptStart_keeps
    | intro z
    | split
    | dsimp only

theorem execEptDel_keeps {s0 s t : State} {x1 x2} (h : Keeps s0 s) (e : execEptDel x1 x2 s = .next t) :
    Keeps s0 t := by
  unfold execEptDel at e
  refine act_keeps (fun s h => ?_) h e
  repeat' first
    | with_reducible assumption
    | with_reducible apply eptStart_keeps
    | intro z
    | split
    | dsimp only

theorem execEptFlush_keeps {s0 s t : State} {x1 x2} (h : Keeps s0 s) (e : execEptFlush x1 x2 s = .next t) :
    Keeps s0 t := by
  unfold execEptFlush at e
  refine act_keeps (fun s h => ?_) h e
  repeat' first
    | with_reducible assumption
    | with_reducible apply eptStart_keeps
    | intro z
    | split
    | dsimp only

theorem execEptRead_keeps {s0 s t : State} {x1 x2} (h : Keeps s0 s) (e : execEptRead x1 x2 s = .next t) :
    Keeps s0 t := by
  unfold execEptRead at e
  refine act_keeps (fun s h => ?_) h e
  repeat' first
    | with_reducible assumption
    | with_reducible apply eptStart_keeps
    | intro z
    | split
    | dsimp only

theorem execEptUnfreeze_keeps {s0 s t : State} {x1 x2} (h : Keeps s0 s) (e : execEptUnfreeze x1 x2 s = .next t) :
    Keeps s0 t := by
  unfold execEptUnfreeze at e
  refine act_keeps (fun s h => ?_) h e
  repeat' first
    | with_reducible assumption
    | with_reducible apply eptStart_keeps
    | intro z
    | split
    | dsimp only

theorem execEptNowTick_keeps {s0 s t : State} {x1} (h : Keeps s0 s) (e : execEptNowTick x1 s = .next t) :
    Keeps s0 t := by
  unfold execEptNowTick at e
  refine act_keeps (fun s h => ?_) h e
  repeat' first
    | with_reducible assumption
    | with_reducible apply State.put_keeps
    | intro z
    | split
    | dsimp only

theorem sweepEntry_keeps {s0 s : State} {x1 x2 x3 x4} (h : Keeps s0 s) :
    Keeps s0 (sweepEntry x1 x2 x3 x4 s) := by
  unfold sweepEntry
  repeat' first
    | with_reducible assumption
    | with_reducible apply eptEvent_keeps
    | with_reducible apply eptWrite_keeps
    | with_reducible apply eptCnt_keeps
    | with_reducible apply eptRemove_keeps
    | (simp -zeta only [keeps_mk]; with_reducible refine kept_of _ ?_)
    | (intro z; refine (fun (hz : Keeps s0 z) => ?_) ?_; (on_goal 1 => clear_value z); (on_goal 2 => (dsimp -zeta only [z]; clear z)))
    | (intro z; refine (fun (hF : ∀ s, Keeps s0 s → Keeps s0 (z s)) => ?_) ?_; (on_goal 1 => clear_value z); (on_goal 2 => (dsimp -zeta only [z]; clear z; intros)))
    | (intro z; refine (fun (hG : ∀ s y, Keeps s0 s → Keeps s0 (z s y)) => ?_) ?_; (on_goal 1 => clear_value z); (on_goal 2 => (dsimp -zeta only [z]; clear z; intros)))
    | (intro z; refine (fun (hK : ∀ y s, Keeps s0 s → Keeps s0 (z y s)) => ?_) ?_; (on_goal 1 => clear_value z); (on_goal 2 => (dsimp -zeta only [z]; clear z; intros)))
    | intro z
    | lift_lets
    | with_reducible apply hF
    | with_reducible apply hG
    | with_reducible apply hK
    | split
    | dsimp only
    | (clear_value *; split)

theorem execEptSweepVisit_keeps {s0 s t : State} {x1} (h : Keeps s0 s) (e : execEptSweepVisit x1 s = .next t) :
    Keeps s0 t := by
  unfold execEptSweepVisit at e
  refine act_keeps (fun s h => ?_) h e
  repeat' first
    | with_reducible assumption
    | with_reducible apply State.modEpt_keeps
    | with_reducible apply eptReadAt_keeps
    | with_reducible apply sweepEntry_keeps
    | (simp -zeta only [keeps_mk]; with_reducible refine kept_of _ ?_)
    | with_reducible refine keeps_snd (by with_reducible assumption) ?_
    | with_reducible refine keeps_snd2 (by with_reducible assumption) ?_
    | (intro z; refine (fun (hz : Keeps s0 z) => ?_) ?_; (on_goal 1 => clear_value z); (on_goal 2 => (dsimp -zeta only [z]; clear z)))
    | (intro z; refine (fun (hF : ∀ s, Keeps s0 s → Keeps s0 (z s)) => ?_) ?_; (on_goal 1 => clear_value z); (on_goal 2 => (dsimp -zeta only [z]; clear z; intros)))
    | (intro z; refine (fun (hG : ∀ s y, Keeps s0 s → Keeps s0 (z s y)) => ?_) ?_; (on_goal 1 => clear_value z); (on_goal 2 => (dsimp -zeta only [z]; clear z; intros)))
    | (intro z; refine (fun (hK : ∀ y s, Keeps s0 s → Keeps s0 (z y s)) => ?_) ?_; (on_goal 1 => clear_value z); (on_goal 2 => (dsimp -zeta only [z]; clear z; intros)))
    | intro z
    | lift_lets
    | with_reducible apply hF
    | with_reducible apply hG
    | with_reducible apply hK
    | split
    | dsimp only
    | (clear_value *; split)

end Sys2Proof.Machine
end

