-- ==== Sys2Proof/Laws/DirectoryK.lean ====
section
/-! SUPPORT. Every operation of Machine/Directory.lean keeps what `Keeps` says. -/
set_option linter.unusedTactic false
set_option linter.unreachableTactic false
set_option linter.unusedSimpArgs false
namespace Sys2Proof.Machine

theorem ftmCount_keeps {s0 s : State} {x1 x2} (h : Keeps s0 s) :
    Keeps s0 (ftmCount x1 x2 s) := by
  unfold ftmCount
  repeat' first
    | with_reducible assumption
    | with_reducible apply State.put_keeps
    | (intro z; refine (fun (hz : Keeps s0 z) => ?_) ?_; (on_goal 1 => clear_value z); (on_goal 2 => (dsimp -zeta only [z]; clear z)))
    | (intro z; refine (fun (hF : ∀ s, Keeps s0 s → Keeps s0 (z s)) => ?_) ?_; (on_goal 1 => clear_value z); (on_goal 2 => (dsimp -zeta only [z]; clear z; intros)))
    | (intro z; refine (fun (hG : ∀ s y, Keeps s0 s → Keeps s0 (z s y)) => ?_) ?_; (on_goal 1 => clear_value z); (on_goal 2 => (dsimp -zeta only [z]; clear z; intros)))
    | (intro z; refine (fun (hK : ∀ y s, Keeps s0 s → Keeps s0 (z y s)) => ?_) ?_; (on_goal 1 => clear_value z); (on_goal 2 => (dsimp -zeta only [z]; clear z; intros)))
    | intro z
    | lift_lets
    | with_reducible apply hF
    | with_reducible apply hG
    | with_reducible apply hK
    | split
    | dsimp only
    | (clear_value *; split)

theorem tagWrite_keeps {s0 s : State} {x1 x2 x3} (h : Keeps s0 s) :
    Keeps s0 (tagWrite x1 x2 x3 s) := by
  unfold tagWrite
  repeat' first
    | with_reducible assumption
    | with_reducible apply hbmWrite_keeps
    | with_reducible apply State.modFtm_keeps
    | with_reducible apply odWrite_keeps
    | (simp -zeta only [keeps_mk]; with_reducible refine kept_of _ ?_)
    | (intro z; refine (fun (hz : Keeps s0 z) => ?_) ?_; (on_goal 1 => clear_value z); (on_goal 2 => (dsimp -zeta only [z]; clear z)))
    | (intro z; refine (fun (hF : ∀ s, Keeps s0 s → Keeps s0 (z s)) => ?_) ?_; (on_goal 1 => clear_value z); (on_goal 2 => (dsimp -zeta only [z]; clear z; intros)))
    | (intro z; refine (fun (hG : ∀ s y, Keeps s0 s → Keeps s0 (z s y)) => ?_) ?_; (on_goal 1 => clear_value z); (on_goal 2 => (dsimp -zeta only [z]; clear z; intros)))
    | (intro z; refine (fun (hK : ∀ y s, Keeps s0 s → Keeps s0 (z y s)) => ?_) ?_; (on_goal 1 => clear_value z); (on_goal 2 => (dsimp -zeta only [z]; clear z; intros)))
    | intro z
    | lift_lets
    | with_reducible apply hF
    | with_reducible apply hG
    | with_reducible apply hK
    | split
    | dsimp only
    | (clear_value *; split)

theorem tagClear_keeps {s0 s : State} {x1 x2} (h : Keeps s0 s) :
    Keeps s0 (tagClear x1 x2 s) := by
  unfold tagClear
  repeat' first
    | with_reducible assumption
    | with_reducible apply hbmWrite_keeps
    | intro z
    | split
    | dsimp only

theorem quarantineShow_keeps {s0 s : State} (h : Keeps s0 s) :
    Keeps s0 (quarantineShow s) := by
  unfold quarantineShow
  repeat' first
    | with_reducible assumption
    | with_reducible apply State.put_keeps
    | intro z
    | split
    | dsimp only

theorem tagRemove_keeps {s0 s : State} {x1 x2} (h : Keeps s0 s) :
    Keeps s0 (tagRemove x1 x2 s) := by
  unfold tagRemove
  repeat' first
    | with_reducible assumption
    | with_reducible apply ftmCount_keeps
    | with_reducible apply tagClear_keeps
    | with_reducible apply quarantineShow_keeps
    | with_reducible apply State.modFtm_keeps
    | (simp -zeta only [keeps_mk]; with_reducible refine kept_of _ ?_)
    | (intro z; refine (fun (hz : Keeps s0 z) => ?_) ?_; (on_goal 1 => clear_value z); (on_goal 2 => (dsimp -zeta only [z]; clear z)))
    | (intro z; refine (fun (hF : ∀ s, Keeps s0 s → Keeps s0 (z s)) => ?_) ?_; (on_goal 1 => clear_value z); (on_goal 2 => (dsimp -zeta only [z]; clear z; intros)))
    | (intro z; refine (fun (hG : ∀ s y, Keeps s0 s → Keeps s0 (z s y)) => ?_) ?_; (on_goal 1 => clear_value z); (on_goal 2 => (dsimp -zeta only [z]; clear z; intros)))
    | (intro z; refine (fun (hK : ∀ y s, Keeps s0 s → Keeps s0 (z y s)) => ?_) ?_; (on_goal 1 => clear_value z); (on_goal 2 => (dsimp -zeta only [z]; clear z; intros)))
    | intro z
    | lift_lets
    | with_reducible apply hF
    | with_reducible apply hG
    | with_reducible apply hK
    | split
    | dsimp only
    | (clear_value *; split)

theorem readKeyBlock_keeps {s0 s : State} {x1} (h : Keeps s0 s) :
    Keeps s0 (readKeyBlock x1 s).2 := by
  unfold readKeyBlock
  repeat' first
    | with_reducible assumption
    | with_reducible apply hbmRead_keeps
    | with_reducible apply tagRemove_keeps
    | with_reducible refine keeps_snd (by with_reducible assumption) ?_
    | with_reducible refine keeps_snd2 (by with_reducible assumption) ?_
    | (intro z; refine (fun (hz : Keeps s0 z) => ?_) ?_; (on_goal 1 => clear_value z); (on_goal 2 => (dsimp -zeta only [z]; clear z)))
    | intro z
    | lift_lets
    | split
    | dsimp only
    | (clear_value *; split)

theorem readHalf_keeps {s0 s : State} {x1 x2} (h : Keeps s0 s) :
    Keeps s0 (readHalf x1 x2 s).2 := by
  unfold readHalf
  repeat' first
    | with_reducible assumption
    | with_reducible apply hbmRead_keeps
    | with_reducible apply hbmWrite_keeps
    | with_reducible refine keeps_snd (by with_reducible assumption) ?_
    | with_reducible refine keeps_snd2 (by with_reducible assumption) ?_
    | (intro z; refine (fun (hz : Keeps s0 z) => ?_) ?_; (on_goal 1 => clear_value z); (on_goal 2 => (dsimp -zeta only [z]; clear z)))
    | (intro z; refine (fun (hF : ∀ s, Keeps s0 s → Keeps s0 (z s)) => ?_) ?_; (on_goal 1 => clear_value z); (on_goal 2 => (dsimp -zeta only [z]; clear z; intros)))
    | (intro z; refine (fun (hG : ∀ s y, Keeps s0 s → Keeps s0 (z s y)) => ?_) ?_; (on_goal 1 => clear_value z); (on_goal 2 => (dsimp -zeta only [z]; clear z; intros)))
    | (intro z; refine (fun (hK : ∀ y s, Keeps s0 s → Keeps s0 (z y s)) => ?_) ?_; (on_goal 1 => clear_value z); (on_goal 2 => (dsimp -zeta only [z]; clear z; intros)))
    | intro z
    | lift_lets
    | with_reducible apply hF
    | with_reducible apply hG
    | with_reducible apply hK
    | split
    | dsimp only
    | (clear_value *; split)

theorem readBucket_keeps {s0 s : State} {x1} (h : Keeps s0 s) :
    Keeps s0 (readBucket x1 s).2 := by
  unfold readBucket
  repeat' first
    | with_reducible assumption
    | with_reducible apply hbmRead_keeps
    | with_reducible apply tagRemove_keeps
    | with_reducible apply hbmWrite_keeps
    | (with_reducible refine keeps_foldl (fun _ _ _ => ?_) ?_)
    | (with_reducible refine keeps_foldl2 (fun _ _ _ => ?_) ?_)
    | (with_reducible refine keeps_foldl3 (fun _ _ _ => ?_) ?_)
    | with_reducible refine keeps_snd (by with_reducible assumption) ?_
    | with_reducible refine keeps_snd2 (by with_reducible assumption) ?_
    | (intro z; refine (fun (hz : Keeps s0 z) => ?_) ?_; (on_goal 1 => clear_value z); (on_goal 2 => (dsimp -zeta only [z]; clear z)))
    | (intro z; refine (fun (hF : ∀ s, Keeps s0 s → Keeps s0 (z s)) => ?_) ?_; (on_goal 1 => clear_value z); (on_goal 2 => (dsimp -zeta only [z]; clear z; intros)))
    | (intro z; refine (fun (hG : ∀ s y, Keeps s0 s → Keeps s0 (z s y)) => ?_) ?_; (on_goal 1 => clear_value z); (on_goal 2 => (dsimp -zeta only [z]; clear z; intros)))
    | (intro z; refine (fun (hK : ∀ y s, Keeps s0 s → Keeps s0 (z y s)) => ?_) ?_; (on_goal 1 => clear_value z); (on_goal 2 => (dsimp -zeta only [z]; clear z; intros)))
    | intro z
    | lift_lets
    | with_reducible apply hF
    | with_reducible apply hG
    | with_reducible apply hK
    | split
    | dsimp only
    | (clear_value *; split)

theorem matchTags_keeps {s0 s : State} {x1 x2 x3} (h : Keeps s0 s) : Keeps s0 (matchTags x1 x2 x3 s).2 := by
  induction x3 generalizing s with
  | nil => exact h
  | cons x r ih =>
    unfold matchTags
    split
    · exact ih h
    · have hk := readKeyBlock_keeps (x1 := x) h
      split
      · next e => exact ih (keeps_snd e hk)
      · next e =>
        split
        · exact keeps_snd e hk
        · exact ih (State.tick_keeps (keeps_snd e hk))

theorem spillBit_keeps {s0 s : State} {x1} (h : Keeps s0 s) :
    Keeps s0 (spillBit x1 s).2 := by
  unfold spillBit
  repeat' first
    | with_reducible assumption
    | with_reducible apply odRead_keeps
    | with_reducible apply odClear_keeps
    | with_reducible apply State.modFtm_keeps
    | (simp -zeta only [keeps_mk]; with_reducible refine kept_of _ ?_)
    | with_reducible refine keeps_snd (by with_reducible assumption) ?_
    | with_reducible refine keeps_snd2 (by with_reducible assumption) ?_
    | intro z
    | split
    | dsimp only

theorem ftmLookup_keeps {s0 s : State} {x1 x2} (h : Keeps s0 s) :
    Keeps s0 (ftmLookup x1 x2 s).2 := by
  unfold ftmLookup
  repeat' first
    | with_reducible assumption
    | with_reducible apply readBucket_keeps
    | with_reducible apply matchTags_keeps
    | with_reducible apply spillBit_keeps
    | with_reducible apply State.tick_keeps
    | (simp -zeta only [keeps_mk]; with_reducible refine kept_of _ ?_)
    | with_reducible refine keeps_snd (by with_reducible assumption) ?_
    | with_reducible refine keeps_snd2 (by with_reducible assumption) ?_
    | (intro z; refine (fun (hz : Keeps s0 z) => ?_) ?_; (on_goal 1 => clear_value z); (on_goal 2 => (dsimp -zeta only [z]; clear z)))
    | intro z
    | lift_lets
    | split
    | dsimp only
    | (clear_value *; split)

theorem recordBlock_keeps {s0 s : State} {x1} (h : Keeps s0 s) :
    Keeps s0 (recordBlock x1 s).2 := by
  unfold recordBlock
  repeat' first
    | with_reducible assumption
    | with_reducible apply readKeyBlock_keeps
    | (simp -zeta only [keeps_mk]; with_reducible refine kept_of _ ?_)
    | with_reducible refine keeps_snd (by with_reducible assumption) ?_
    | with_reducible refine keeps_snd2 (by with_reducible assumption) ?_
    | intro z
    | split
    | dsimp only

theorem recordRead_keeps {s0 s : State} {x1 x2} (h : Keeps s0 s) :
    Keeps s0 (recordRead x1 x2 s).2 := by
  unfold recordRead
  repeat' first
    | with_reducible assumption
    | with_reducible apply readKeyBlock_keeps
    | (simp -zeta only [keeps_mk]; with_reducible refine kept_of _ ?_)
    | with_reducible refine keeps_snd (by with_reducible assumption) ?_
    | with_reducible refine keeps_snd2 (by with_reducible assumption) ?_
    | intro z
    | split
    | dsimp only

theorem tagShift_keeps {s0 s : State} {x1} (h : Keeps s0 s) :
    Keeps s0 (tagShift x1 s) := by
  fun_induction tagShift x1 s
  all_goals repeat' first
    | (with_reducible apply_assumption)
    | with_reducible assumption
    | with_reducible apply State.tick_keeps
    | with_reducible apply tagClear_keeps
    | with_reducible apply tagWrite_keeps
    | (simp -zeta only [keeps_mk]; with_reducible refine kept_of _ ?_)
    | with_reducible refine keeps_snd (by with_reducible assumption) ?_
    | with_reducible refine keeps_snd2 (by with_reducible assumption) ?_
    | (intro z; refine (fun (hz : Keeps s0 z) => ?_) ?_; (on_goal 1 => clear_value z); (on_goal 2 => (dsimp -zeta only [z]; clear z)))
    | (intro z; refine (fun (hF : ∀ s, Keeps s0 s → Keeps s0 (z s)) => ?_) ?_; (on_goal 1 => clear_value z); (on_goal 2 => (dsimp -zeta only [z]; clear z; intros)))
    | (intro z; refine (fun (hG : ∀ s y, Keeps s0 s → Keeps s0 (z s y)) => ?_) ?_; (on_goal 1 => clear_value z); (on_goal 2 => (dsimp -zeta only [z]; clear z; intros)))
    | (intro z; refine (fun (hK : ∀ y s, Keeps s0 s → Keeps s0 (z y s)) => ?_) ?_; (on_goal 1 => clear_value z); (on_goal 2 => (dsimp -zeta only [z]; clear z; intros)))
    | intro z
    | lift_lets
    | with_reducible apply hF
    | with_reducible apply hG
    | with_reducible apply hK
    | split
    | dsimp only
    | (clear_value *; split)

theorem chainRun_keeps {s0 s : State} {x1} (h : Keeps s0 s) :
    Keeps s0 (chainRun x1 s).2 := by
  unfold chainRun
  repeat' first
    | with_reducible assumption
    | with_reducible apply State.drawNat_keeps
    | with_reducible apply tagShift_keeps
    | with_reducible refine keeps_snd (by with_reducible assumption) ?_
    | with_reducible refine keeps_snd2 (by with_reducible assumption) ?_
    | (intro z; refine (fun (hz : Keeps s0 z) => ?_) ?_; (on_goal 1 => clear_value z); (on_goal 2 => (dsimp -zeta only [z]; clear z)))
    | intro z
    | lift_lets
    | split
    | dsimp only
    | (clear_value *; split)

theorem tagPlace_keeps {s0 s : State} {x1} (h : Keeps s0 s) :
    Keeps s0 (tagPlace x1 s).2 := by
  unfold tagPlace
  repeat' first
    | with_reducible assumption
    | with_reducible apply State.drawNat_keeps
    | with_reducible apply chainRun_keeps
    | (simp -zeta only [keeps_mk]; with_reducible refine kept_of _ ?_)
    | with_reducible refine keeps_snd (by with_reducible assumption) ?_
    | with_reducible refine keeps_snd2 (by with_reducible assumption) ?_
    | (intro z; refine (fun (hz : Keeps s0 z) => ?_) ?_; (on_goal 1 => clear_value z); (on_goal 2 => (dsimp -zeta only [z]; clear z)))
    | (intro z; refine (fun (hF : ∀ s, Keeps s0 s → Keeps s0 (z s)) => ?_) ?_; (on_goal 1 => clear_value z); (on_goal 2 => (dsimp -zeta only [z]; clear z; intros)))
    | (intro z; refine (fun (hG : ∀ s y, Keeps s0 s → Keeps s0 (z s y)) => ?_) ?_; (on_goal 1 => clear_value z); (on_goal 2 => (dsimp -zeta only [z]; clear z; intros)))
    | (intro z; refine (fun (hK : ∀ y s, Keeps s0 s → Keeps s0 (z y s)) => ?_) ?_; (on_goal 1 => clear_value z); (on_goal 2 => (dsimp -zeta only [z]; clear z; intros)))
    | intro z
    | lift_lets
    | with_reducible apply hF
    | with_reducible apply hG
    | with_reducible apply hK
    | split
    | dsimp only
    | (clear_value *; split)

theorem takeIndex_keeps {s0 s : State} (h : Keeps s0 s) :
    Keeps s0 (takeIndex s).2 := by
  unfold takeIndex
  repeat' first
    | with_reducible assumption
    | with_reducible apply State.drawNat_keeps
    | with_reducible apply State.modFtm_keeps
    | (simp -zeta only [keeps_mk]; with_reducible refine kept_of _ ?_)
    | with_reducible refine keeps_snd (by with_reducible assumption) ?_
    | with_reducible refine keeps_snd2 (by with_reducible assumption) ?_
    | (intro z; refine (fun (hz : Keeps s0 z) => ?_) ?_; (on_goal 1 => clear_value z); (on_goal 2 => (dsimp -zeta only [z]; clear z)))
    | (intro z; refine (fun (hF : ∀ s, Keeps s0 s → Keeps s0 (z s)) => ?_) ?_; (on_goal 1 => clear_value z); (on_goal 2 => (dsimp -zeta only [z]; clear z; intros)))
    | (intro z; refine (fun (hG : ∀ s y, Keeps s0 s → Keeps s0 (z s y)) => ?_) ?_; (on_goal 1 => clear_value z); (on_goal 2 => (dsimp -zeta only [z]; clear z; intros)))
    | (intro z; refine (fun (hK : ∀ y s, Keeps s0 s → Keeps s0 (z y s)) => ?_) ?_; (on_goal 1 => clear_value z); (on_goal 2 => (dsimp -zeta only [z]; clear z; intros)))
    | intro z
    | lift_lets
    | with_reducible apply hF
    | with_reducible apply hG
    | with_reducible apply hK
    | split
    | dsimp only
    | (clear_value *; split)

theorem dropIndex_keeps {s0 s : State} {x1} (h : Keeps s0 s) :
    Keeps s0 (dropIndex x1 s) := by
  unfold dropIndex
  repeat' first
    | with_reducible assumption
    | with_reducible apply State.modFtm_keeps
    | (simp -zeta only [keeps_mk]; with_reducible refine kept_of _ ?_)
    | with_reducible refine keeps_snd (by with_reducible assumption) ?_
    | with_reducible refine keeps_snd2 (by with_reducible assumption) ?_
    | intro z
    | split
    | dsimp only

theorem flowEvent_keeps {s0 s : State} {x1 x2 x3 x4 x5 x6 x7} (h : Keeps s0 s) :
    Keeps s0 (flowEvent x1 x2 x3 x4 x5 x6 x7 s) := by
  unfold flowEvent
  repeat' first
    | with_reducible assumption
    | with_reducible apply postEvent_keeps
    | (intro z; refine (fun (hz : Keeps s0 z) => ?_) ?_; (on_goal 1 => clear_value z); (on_goal 2 => (dsimp -zeta only [z]; clear z)))
    | (intro z; refine (fun (hF : ∀ s, Keeps s0 s → Keeps s0 (z s)) => ?_) ?_; (on_goal 1 => clear_value z); (on_goal 2 => (dsimp -zeta only [z]; clear z; intros)))
    | (intro z; refine (fun (hG : ∀ s y, Keeps s0 s → Keeps s0 (z s y)) => ?_) ?_; (on_goal 1 => clear_value z); (on_goal 2 => (dsimp -zeta only [z]; clear z; intros)))
    | (intro z; refine (fun (hK : ∀ y s, Keeps s0 s → Keeps s0 (z y s)) => ?_) ?_; (on_goal 1 => clear_value z); (on_goal 2 => (dsimp -zeta only [z]; clear z; intros)))
    | intro z
    | lift_lets
    | with_reducible apply hF
    | with_reducible apply hG
    | with_reducible apply hK
    | split
    | dsimp only
    | (clear_value *; split)

theorem noRoom_keeps {s0 s : State} {x1 x2 x3 x4} (h : Keeps s0 s) :
    Keeps s0 (noRoom x1 x2 x3 x4 s) := by
  unfold noRoom
  repeat' first
    | with_reducible assumption
    | with_reducible apply State.raise_keeps
    | with_reducible apply State.tick_keeps
    | with_reducible apply State.modFtm_keeps
    | with_reducible apply flowEvent_keeps
    | (simp -zeta only [keeps_mk]; with_reducible refine kept_of _ ?_)
    | with_reducible refine keeps_snd (by with_reducible assumption) ?_
    | with_reducible refine keeps_snd2 (by with_reducible assumption) ?_
    | (intro z; refine (fun (hz : Keeps s0 z) => ?_) ?_; (on_goal 1 => clear_value z); (on_goal 2 => (dsimp -zeta only [z]; clear z)))
    | (intro z; refine (fun (hF : ∀ s, Keeps s0 s → Keeps s0 (z s)) => ?_) ?_; (on_goal 1 => clear_value z); (on_goal 2 => (dsimp -zeta only [z]; clear z; intros)))
    | (intro z; refine (fun (hG : ∀ s y, Keeps s0 s → Keeps s0 (z s y)) => ?_) ?_; (on_goal 1 => clear_value z); (on_goal 2 => (dsimp -zeta only [z]; clear z; intros)))
    | (intro z; refine (fun (hK : ∀ y s, Keeps s0 s → Keeps s0 (z y s)) => ?_) ?_; (on_goal 1 => clear_value z); (on_goal 2 => (dsimp -zeta only [z]; clear z; intros)))
    | intro z
    | lift_lets
    | with_reducible apply hF
    | with_reducible apply hG
    | with_reducible apply hK
    | split
    | dsimp only
    | (clear_value *; split)

theorem makeRecord_keeps {s0 s : State} {x1 x2 x3 x4 x5 x6} (h : Keeps s0 s) :
    Keeps s0 (makeRecord x1 x2 x3 x4 x5 x6 s).2 := by
  unfold makeRecord
  repeat' first
    | with_reducible assumption
    | with_reducible apply State.tick_keeps
    | with_reducible apply takeIndex_keeps
    | with_reducible apply tagPlace_keeps
    | with_reducible apply dropIndex_keeps
    | with_reducible apply hbmWrite_keeps
    | with_reducible apply tagWrite_keeps
    | with_reducible apply State.modFtm_keeps
    | with_reducible apply flowEvent_keeps
    | with_reducible apply ftmCount_keeps
    | (simp -zeta only [keeps_mk]; with_reducible refine kept_of _ ?_)
    | with_reducible refine keeps_snd (by with_reducible assumption) ?_
    | with_reducible refine keeps_snd2 (by with_reducible assumption) ?_
    | (intro z; refine (fun (hz : Keeps s0 z) => ?_) ?_; (on_goal 1 => clear_value z); (on_goal 2 => (dsimp -zeta only [z]; clear z)))
    | (intro z; refine (fun (hF : ∀ s, Keeps s0 s → Keeps s0 (z s)) => ?_) ?_; (on_goal 1 => clear_value z); (on_goal 2 => (dsimp -zeta only [z]; clear z; intros)))
    | (intro z; refine (fun (hG : ∀ s y, Keeps s0 s → Keeps s0 (z s y)) => ?_) ?_; (on_goal 1 => clear_value z); (on_goal 2 => (dsimp -zeta only [z]; clear z; intros)))
    | (intro z; refine (fun (hK : ∀ y s, Keeps s0 s → Keeps s0 (z y s)) => ?_) ?_; (on_goal 1 => clear_value z); (on_goal 2 => (dsimp -zeta only [z]; clear z; intros)))
    | intro z
    | lift_lets
    | with_reducible apply hF
    | with_reducible apply hG
    | with_reducible apply hK
    | split
    | dsimp only
    | (clear_value *; split)

theorem opPush_keeps {s0 s : State} {x1} (h : Keeps s0 s) :
    Keeps s0 (opPush x1 s) := by
  unfold opPush
  repeat' first
    | with_reducible assumption
    | with_reducible apply State.modFtm_keeps
    | (simp -zeta only [keeps_mk]; with_reducible refine kept_of _ ?_)
    | intro z
    | split
    | dsimp only

theorem opDrop_keeps {s0 s : State} {x1} (h : Keeps s0 s) :
    Keeps s0 (opDrop x1 s) := by
  unfold opDrop
  repeat' first
    | with_reducible assumption
    | with_reducible apply State.modFtm_keeps
    | (simp -zeta only [keeps_mk]; with_reducible refine kept_of _ ?_)
    | intro z
    | split
    | dsimp only

theorem stnSend_keeps {s0 s : State} {x1 x2} (h : Keeps s0 s) :
    Keeps s0 (stnSend x1 x2 s) := by
  unfold stnSend
  repeat' first
    | with_reducible assumption
    | with_reducible apply State.modFtm_keeps
    | (simp -zeta only [keeps_mk]; with_reducible refine kept_of _ ?_)
    | intro z
    | split
    | dsimp only

theorem ftmSend_keeps {s0 s : State} {x1 x2} (h : Keeps s0 s) :
    Keeps s0 (ftmSend x1 x2 s) := by
  unfold ftmSend
  repeat' first
    | with_reducible assumption
    | with_reducible apply State.modFtm_keeps
    | (simp -zeta only [keeps_mk]; with_reducible refine kept_of _ ?_)
    | intro z
    | split
    | dsimp only

end Sys2Proof.Machine
end

