-- ==== Sys2Proof/Laws/RoutesK.lean ====
section
/-! SUPPORT. Every operation of Machine/Routes.lean keeps what `Keeps` says. -/
set_option linter.unusedTactic false
set_option linter.unreachableTactic false
set_option linter.unusedSimpArgs false
namespace Sys2Proof.Machine

theorem routeRead_keeps {s0 s : State} {x1 x2} (h : Keeps s0 s) :
    Keeps s0 (routeRead x1 x2 s).2 := by
  unfold routeRead
  repeat' first
    | with_reducible assumption
    | with_reducible apply odRead_keeps
    | with_reducible apply odClear_keeps
    | (simp -zeta only [keeps_mk]; with_reducible refine kept_of _ ?_)
    | with_reducible refine keeps_snd (by with_reducible assumption) ?_
    | with_reducible refine keeps_snd2 (by with_reducible assumption) ?_
    | intro z
    | split
    | dsimp only

theorem routeRound_keeps {s0 s : State} {x1 x2 x3} (h : Keeps s0 s) :
    Keeps s0 (routeRound x1 x2 x3 s).2 := by
  fun_induction routeRound x1 x2 x3 s
  all_goals repeat' first
    | (with_reducible apply_assumption)
    | with_reducible assumption
    | with_reducible apply routeRead_keeps
    | (simp -zeta only [keeps_mk]; with_reducible refine kept_of _ ?_)
    | with_reducible refine keeps_snd (by with_reducible assumption) ?_
    | with_reducible refine keeps_snd2 (by with_reducible assumption) ?_
    | intro z
    | split
    | dsimp only

theorem routeRounds_keeps {s0 s : State} {x1 x2 x3 x4 x5} (h : Keeps s0 s) :
    Keeps s0 (routeRounds x1 x2 x3 x4 x5 s).2 := by
  induction x3 generalizing x4 x5 s with
  | zero => exact h
  | succ fuel ih =>
    unfold routeRounds
    split
    · exact h
    · have hr := routeRound_keeps (x1 := x1) (x2 := x2) (x3 := x5.take 16) h
      split
      · next e => exact keeps_snd e hr
      · next e => exact ih (keeps_snd e hr)

theorem routeLookup_keeps {s0 s : State} {x1 x2 x3 x4 x5} (h : Keeps s0 s) :
    Keeps s0 (routeLookup x1 x2 x3 x4 x5 s).2 := by
  unfold routeLookup
  repeat' first
    | with_reducible assumption
    | with_reducible apply routeRounds_keeps
    | with_reducible apply State.cnt_keeps
    | with_reducible apply State.tick_keeps
    | with_reducible refine keeps_snd (by with_reducible assumption) ?_
    | with_reducible refine keeps_snd2 (by with_reducible assumption) ?_
    | (intro z; refine (fun (hz : Keeps s0 z) => ?_) ?_; (on_goal 1 => clear_value z); (on_goal 2 => (dsimp -zeta only [z]; clear z)))
    | (intro z; refine (fun (hF : ∀ s, Keeps s0 s → Keeps s0 (z s)) => ?_) ?_; (on_goal 1 => clear_value z); (on_goal 2 => (dsimp -zeta only [z]; clear z; intros)))
    | (intro z; refine (fun (hG : ∀ s y, Keeps s0 s → Keeps s0 (z s y)) => ?_) ?_; (on_goal 1 => clear_value z); (on_goal 2 => (dsimp -zeta only [z]; clear z; intros)))
    | (intro z; refine (fun (hK : ∀ y s, Keeps s0 s → Keeps s0 (z y s)) => ?_) ?_; (on_goal 1 => clear_value z); (on_goal 2 => (dsimp -zeta only [z]; clear z; intros)))
    | intro z
    | lift_lets
    | with_reducible apply hF
    | with_reducible apply hG
    | with_reducible apply hK
    | split
    | dsimp only
    | (clear_value *; split)

theorem taskRoute_keeps {s0 s : State} {x1 x2} (h : Keeps s0 s) :
    Keeps s0 (taskRoute x1 x2 s).2 := by
  unfold taskRoute
  repeat' first
    | with_reducible assumption
    | with_reducible apply routeLookup_keeps
    | with_reducible apply energy_keeps
    | (simp -zeta only [keeps_mk]; with_reducible refine kept_of _ ?_)
    | with_reducible refine keeps_snd (by with_reducible assumption) ?_
    | with_reducible refine keeps_snd2 (by with_reducible assumption) ?_
    | (intro z; refine (fun (hz : Keeps s0 z) => ?_) ?_; (on_goal 1 => clear_value z); (on_goal 2 => (dsimp -zeta only [z]; clear z)))
    | (intro z; refine (fun (hF : ∀ s, Keeps s0 s → Keeps s0 (z s)) => ?_) ?_; (on_goal 1 => clear_value z); (on_goal 2 => (dsimp -zeta only [z]; clear z; intros)))
    | (intro z; refine (fun (hG : ∀ s y, Keeps s0 s → Keeps s0 (z s y)) => ?_) ?_; (on_goal 1 => clear_value z); (on_goal 2 => (dsimp -zeta only [z]; clear z; intros)))
    | (intro z; refine (fun (hK : ∀ y s, Keeps s0 s → Keeps s0 (z y s)) => ?_) ?_; (on_goal 1 => clear_value z); (on_goal 2 => (dsimp -zeta only [z]; clear z; intros)))
    | intro z
    | lift_lets
    | with_reducible apply hF
    | with_reducible apply hG
    | with_reducible apply hK
    | split
    | dsimp only
    | (clear_value *; split)

theorem execRouteLookupDone_keeps {s0 s t : State} {x1 x2} (h : Keeps s0 s) (e : execRouteLookupDone x1 x2 s = .next t) :
    Keeps s0 t := by
  unfold execRouteLookupDone at e
  refine act_keeps (fun s h => ?_) h e
  repeat' first
    | with_reducible assumption
    | with_reducible apply taskRoute_keeps
    | with_reducible apply depDone_keeps
    | with_reducible apply State.modTask_keeps
    | (simp -zeta only [keeps_mk]; with_reducible refine kept_of _ ?_)
    | with_reducible refine keeps_snd (by with_reducible assumption) ?_
    | with_reducible refine keeps_snd2 (by with_reducible assumption) ?_
    | (intro z; refine (fun (hz : Keeps s0 z) => ?_) ?_; (on_goal 1 => clear_value z); (on_goal 2 => (dsimp -zeta only [z]; clear z)))
    | (intro z; refine (fun (hF : ∀ s, Keeps s0 s → Keeps s0 (z s)) => ?_) ?_; (on_goal 1 => clear_value z); (on_goal 2 => (dsimp -zeta only [z]; clear z; intros)))
    | (intro z; refine (fun (hG : ∀ s y, Keeps s0 s → Keeps s0 (z s y)) => ?_) ?_; (on_goal 1 => clear_value z); (on_goal 2 => (dsimp -zeta only [z]; clear z; intros)))
    | (intro z; refine (fun (hK : ∀ y s, Keeps s0 s → Keeps s0 (z y s)) => ?_) ?_; (on_goal 1 => clear_value z); (on_goal 2 => (dsimp -zeta only [z]; clear z; intros)))
    | intro z
    | lift_lets
    | with_reducible apply hF
    | with_reducible apply hG
    | with_reducible apply hK
    | split
    | dsimp only
    | (clear_value *; split)

theorem routeWrite_keeps {s0 s : State} {x1 x2} (h : Keeps s0 s) :
    Keeps s0 (routeWrite x1 x2 s) := by
  unfold routeWrite
  repeat' first
    | with_reducible assumption
    | with_reducible apply odWrite_keeps
    | (simp -zeta only [keeps_mk]; with_reducible refine kept_of _ ?_)
    | (with_reducible refine keeps_foldl (fun _ _ _ => ?_) ?_)
    | (with_reducible refine keeps_foldl2 (fun _ _ _ => ?_) ?_)
    | (with_reducible refine keeps_foldl3 (fun _ _ _ => ?_) ?_)
    | with_reducible refine keeps_snd (by with_reducible assumption) ?_
    | with_reducible refine keeps_snd2 (by with_reducible assumption) ?_
    | (intro z; refine (fun (hz : Keeps s0 z) => ?_) ?_; (on_goal 1 => clear_value z); (on_goal 2 => (dsimp -zeta only [z]; clear z)))
    | (intro z; refine (fun (hF : ∀ s, Keeps s0 s → Keeps s0 (z s)) => ?_) ?_; (on_goal 1 => clear_value z); (on_goal 2 => (dsimp -zeta only [z]; clear z; intros)))
    | (intro z; refine (fun (hG : ∀ s y, Keeps s0 s → Keeps s0 (z s y)) => ?_) ?_; (on_goal 1 => clear_value z); (on_goal 2 => (dsimp -zeta only [z]; clear z; intros)))
    | (intro z; refine (fun (hK : ∀ y s, Keeps s0 s → Keeps s0 (z y s)) => ?_) ?_; (on_goal 1 => clear_value z); (on_goal 2 => (dsimp -zeta only [z]; clear z; intros)))
    | intro z
    | lift_lets
    | with_reducible apply hF
    | with_reducible apply hG
    | with_reducible apply hK
    | split
    | dsimp only
    | (clear_value *; split)

theorem lpmStart_keeps {s0 s : State} {x1 x2 x3 x4} (h : Keeps s0 s) (h4 : ∀ y1 y2 s, Keeps s0 s → Keeps s0 (x4 y1 y2 s)) :
    Keeps s0 (lpmStart x1 x2 x3 x4 s) := by
  unfold lpmStart
  repeat' first
    | with_reducible assumption
    | with_reducible apply onCmd_keeps
    | with_reducible apply complete_keeps
    | with_reducible apply h4
    | intro z
    | split
    | dsimp only

theorem execLpmAdd_keeps {s0 s t : State} {x1 x2} (h : Keeps s0 s) (e : execLpmAdd x1 x2 s = .next t) :
    Keeps s0 t := by
  unfold execLpmAdd at e
  refine act_keeps (fun s h => ?_) h e
  repeat' first
    | with_reducible assumption
    | with_reducible apply lpmStart_keeps
    | with_reducible apply completeOk_keeps
    | with_reducible apply routeWrite_keeps
    | with_reducible apply complete_keeps
    | (simp -zeta only [keeps_mk]; with_reducible refine kept_of _ ?_)
    | with_reducible refine keeps_snd (by with_reducible assumption) ?_
    | with_reducible refine keeps_snd2 (by with_reducible assumption) ?_
    | (intro z; refine (fun (hz : Keeps s0 z) => ?_) ?_; (on_goal 1 => clear_value z); (on_goal 2 => (dsimp -zeta only [z]; clear z)))
    | (intro z; refine (fun (hF : ∀ s, Keeps s0 s → Keeps s0 (z s)) => ?_) ?_; (on_goal 1 => clear_value z); (on_goal 2 => (dsimp -zeta only [z]; clear z; intros)))
    | (intro z; refine (fun (hG : ∀ s y, Keeps s0 s → Keeps s0 (z s y)) => ?_) ?_; (on_goal 1 => clear_value z); (on_goal 2 => (dsimp -zeta only [z]; clear z; intros)))
    | (intro z; refine (fun (hK : ∀ y s, Keeps s0 s → Keeps s0 (z y s)) => ?_) ?_; (on_goal 1 => clear_value z); (on_goal 2 => (dsimp -zeta only [z]; clear z; intros)))
    | intro z
    | lift_lets
    | with_reducible apply hF
    | with_reducible apply hG
    | with_reducible apply hK
    | split
    | dsimp only
    | (clear_value *; split)

theorem execLpmDel_keeps {s0 s t : State} {x1 x2} (h : Keeps s0 s) (e : execLpmDel x1 x2 s = .next t) :
    Keeps s0 t := by
  unfold execLpmDel at e
  refine act_keeps (fun s h => ?_) h e
  repeat' first
    | with_reducible assumption
    | with_reducible apply lpmStart_keeps
    | with_reducible apply complete_keeps
    | with_reducible apply completeOk_keeps
    | (simp -zeta only [keeps_mk]; with_reducible refine kept_of _ ?_)
    | with_reducible refine keeps_snd (by with_reducible assumption) ?_
    | with_reducible refine keeps_snd2 (by with_reducible assumption) ?_
    | intro z
    | split
    | dsimp only

theorem routeReadAny_keeps {s0 s : State} {x1 x2} (h : Keeps s0 s) :
    Keeps s0 (routeReadAny x1 x2 s).2 := by
  fun_induction routeReadAny x1 x2 s
  all_goals repeat' first
    | (with_reducible apply_assumption)
    | with_reducible assumption
    | with_reducible apply routeRead_keeps
    | (simp -zeta only [keeps_mk]; with_reducible refine kept_of _ ?_)
    | with_reducible refine keeps_snd (by with_reducible assumption) ?_
    | with_reducible refine keeps_snd2 (by with_reducible assumption) ?_
    | intro z
    | split
    | dsimp only

theorem execLpmRead_keeps {s0 s t : State} {x1 x2} (h : Keeps s0 s) (e : execLpmRead x1 x2 s = .next t) :
    Keeps s0 t := by
  unfold execLpmRead at e
  refine act_keeps (fun s h => ?_) h e
  repeat' first
    | with_reducible assumption
    | with_reducible apply lpmStart_keeps
    | with_reducible apply routeReadAny_keeps
    | with_reducible apply complete_keeps
    | with_reducible apply completeOk_keeps
    | (simp -zeta only [keeps_mk]; with_reducible refine kept_of _ ?_)
    | with_reducible refine keeps_snd (by with_reducible assumption) ?_
    | with_reducible refine keeps_snd2 (by with_reducible assumption) ?_
    | intro z
    | split
    | dsimp only

end Sys2Proof.Machine
end

