-- ==== Sys2Proof/Laws/PoolsK.lean ====
section
/-! SUPPORT. Every operation of Machine/Pools.lean keeps what `Keeps` says. -/
set_option linter.unusedTactic false
set_option linter.unreachableTactic false
set_option linter.unusedSimpArgs false
namespace Sys2Proof.Machine

theorem setStack_keeps {s0 s : State} {x1 x2} (h : Keeps s0 s) :
    Keeps s0 (setStack x1 x2 s) := by
  unfold setStack
  repeat' first
    | with_reducible assumption
    | (simp -zeta only [keeps_mk]; with_reducible refine kept_of _ ?_)
    | intro z
    | split
    | dsimp only

theorem coopTouch_keeps {s0 s : State} {x1 x2} (h : Keeps s0 s) :
    Keeps s0 (coopTouch x1 x2 s) := by
  unfold coopTouch
  repeat' first
    | with_reducible assumption
    | (simp -zeta only [keeps_mk]; with_reducible refine kept_of _ ?_)
    | intro z
    | split
    | dsimp only

theorem poolLow_keeps {s0 s : State} {x1} (h : Keeps s0 s) :
    Keeps s0 (poolLow x1 s) := by
  unfold poolLow
  repeat' first
    | with_reducible assumption
    | with_reducible apply State.put_keeps
    | intro z
    | split
    | dsimp only

theorem coopPop_keeps {s0 s : State} {x1} (h : Keeps s0 s) :
    Keeps s0 (coopPop x1 s).2 := by
  unfold coopPop
  repeat' first
    | with_reducible assumption
    | with_reducible apply poolLow_keeps
    | with_reducible apply coopTouch_keeps
    | with_reducible apply setStack_keeps
    | with_reducible apply State.drawNat_keeps
    | (simp -zeta only [keeps_mk]; with_reducible refine kept_of _ ?_)
    | with_reducible refine keeps_snd (by with_reducible assumption) ?_
    | with_reducible refine keeps_snd2 (by with_reducible assumption) ?_
    | (intro z; refine (fun (hz : Keeps s0 z) => ?_) ?_; (on_goal 1 => clear_value z); (on_goal 2 => (dsimp -zeta only [z]; clear z)))
    | (intro z; refine (fun (hF : ∀ s, Keeps s0 s → Keeps s0 (z s)) => ?_) ?_; (on_goal 1 => clear_value z); (on_goal 2 => (dsimp -zeta only [z]; clear z; intros)))
    | (intro z; refine (fun (hG : ∀ s y, Keeps s0 s → Keeps s0 (z s y)) => ?_) ?_; (on_goal 1 => clear_value z); (on_goal 2 => (dsimp -zeta only [z]; clear z; intros)))
    | (intro z; refine (fun (hK : ∀ y s, Keeps s0 s → Keeps s0 (z y s)) => ?_) ?_; (on_goal 1 => clear_value z); (on_goal 2 => (dsimp -zeta only [z]; clear z; intros)))
    | intro z
    | lift_lets
    | with_reducible apply hF
    | with_reducible apply hG
    | with_reducible apply hK
    | split
    | dsimp only
    | (clear_value *; split)

theorem coopPush_keeps {s0 s : State} {x1 x2} (h : Keeps s0 s) :
    Keeps s0 (coopPush x1 x2 s) := by
  unfold coopPush
  repeat' first
    | with_reducible assumption
    | with_reducible apply coopTouch_keeps
    | with_reducible apply setStack_keeps
    | (simp -zeta only [keeps_mk]; with_reducible refine kept_of _ ?_)
    | (intro z; refine (fun (hz : Keeps s0 z) => ?_) ?_; (on_goal 1 => clear_value z); (on_goal 2 => (dsimp -zeta only [z]; clear z)))
    | (intro z; refine (fun (hF : ∀ s, Keeps s0 s → Keeps s0 (z s)) => ?_) ?_; (on_goal 1 => clear_value z); (on_goal 2 => (dsimp -zeta only [z]; clear z; intros)))
    | (intro z; refine (fun (hG : ∀ s y, Keeps s0 s → Keeps s0 (z s y)) => ?_) ?_; (on_goal 1 => clear_value z); (on_goal 2 => (dsimp -zeta only [z]; clear z; intros)))
    | (intro z; refine (fun (hK : ∀ y s, Keeps s0 s → Keeps s0 (z y s)) => ?_) ?_; (on_goal 1 => clear_value z); (on_goal 2 => (dsimp -zeta only [z]; clear z; intros)))
    | intro z
    | lift_lets
    | with_reducible apply hF
    | with_reducible apply hG
    | with_reducible apply hK
    | split
    | dsimp only
    | (clear_value *; split)

theorem stageBytes_keeps {s0 s : State} {x1 x2 x3} (h : Keeps s0 s) :
    Keeps s0 (stageBytes x1 x2 x3 s) := by
  unfold stageBytes
  repeat' first
    | with_reducible assumption
    | with_reducible apply odWrite_keeps
    | with_reducible apply State.mwr_keeps
    | intro z
    | split
    | dsimp only

theorem unstage_keeps {s0 s : State} {x1 x2 x3} (h : Keeps s0 s) :
    Keeps s0 (unstage x1 x2 x3 s).2 := by
  unfold unstage
  repeat' first
    | with_reducible assumption
    | with_reducible apply odRead_keeps
    | with_reducible apply odClear_keeps
    | (simp -zeta only [keeps_mk]; with_reducible refine kept_of _ ?_)
    | with_reducible refine keeps_snd (by with_reducible assumption) ?_
    | with_reducible refine keeps_snd2 (by with_reducible assumption) ?_
    | intro z
    | split
    | dsimp only

theorem hkAlloc_keeps {s0 s : State} {x1} (h : Keeps s0 s) :
    Keeps s0 (hkAlloc x1 s).2 := by
  unfold hkAlloc
  repeat' first
    | with_reducible assumption
    | with_reducible apply coopPop_keeps
    | (simp -zeta only [keeps_mk]; with_reducible refine kept_of _ ?_)
    | with_reducible refine keeps_snd (by with_reducible assumption) ?_
    | with_reducible refine keeps_snd2 (by with_reducible assumption) ?_
    | intro z
    | split
    | dsimp only

theorem hkAllocRead_keeps {s0 s : State} {x1} (h : Keeps s0 s) :
    Keeps s0 (hkAllocRead x1 s).2 := by
  unfold hkAllocRead
  repeat' first
    | with_reducible assumption
    | with_reducible apply hkAlloc_keeps
    | (simp -zeta only [keeps_mk]; with_reducible refine kept_of _ ?_)
    | with_reducible refine keeps_snd (by with_reducible assumption) ?_
    | with_reducible refine keeps_snd2 (by with_reducible assumption) ?_
    | intro z
    | split
    | dsimp only

theorem execCoopHkAllocRead_keeps {s0 s t : State} {x1} (h : Keeps s0 s) (e : execCoopHkAllocRead x1 s = .next t) :
    Keeps s0 t := by
  unfold execCoopHkAllocRead at e
  refine act_keeps (fun s h => ?_) h e
  repeat' first
    | with_reducible assumption
    | with_reducible apply hkAllocRead_keeps
    | with_reducible apply State.emit_keeps
    | with_reducible refine keeps_snd (by with_reducible assumption) ?_
    | with_reducible refine keeps_snd2 (by with_reducible assumption) ?_
    | (intro z; refine (fun (hz : Keeps s0 z) => ?_) ?_; (on_goal 1 => clear_value z); (on_goal 2 => (dsimp -zeta only [z]; clear z)))
    | intro z
    | lift_lets
    | split
    | dsimp only
    | (clear_value *; split)

theorem hkFreeWrite_keeps {s0 s : State} {x1 x2} (h : Keeps s0 s) :
    Keeps s0 (hkFreeWrite x1 x2 s) := by
  unfold hkFreeWrite
  repeat' first
    | with_reducible assumption
    | with_reducible apply coopPush_keeps
    | with_reducible apply State.tick_keeps
    | (simp -zeta only [keeps_mk]; with_reducible refine kept_of _ ?_)
    | with_reducible refine keeps_snd (by with_reducible assumption) ?_
    | with_reducible refine keeps_snd2 (by with_reducible assumption) ?_
    | (intro z; refine (fun (hz : Keeps s0 z) => ?_) ?_; (on_goal 1 => clear_value z); (on_goal 2 => (dsimp -zeta only [z]; clear z)))
    | (intro z; refine (fun (hF : ∀ s, Keeps s0 s → Keeps s0 (z s)) => ?_) ?_; (on_goal 1 => clear_value z); (on_goal 2 => (dsimp -zeta only [z]; clear z; intros)))
    | (intro z; refine (fun (hG : ∀ s y, Keeps s0 s → Keeps s0 (z s y)) => ?_) ?_; (on_goal 1 => clear_value z); (on_goal 2 => (dsimp -zeta only [z]; clear z; intros)))
    | (intro z; refine (fun (hK : ∀ y s, Keeps s0 s → Keeps s0 (z y s)) => ?_) ?_; (on_goal 1 => clear_value z); (on_goal 2 => (dsimp -zeta only [z]; clear z; intros)))
    | intro z
    | lift_lets
    | with_reducible apply hF
    | with_reducible apply hG
    | with_reducible apply hK
    | split
    | dsimp only
    | (clear_value *; split)

theorem execCoopHkFreeWrite_keeps {s0 s t : State} {x1 x2} (h : Keeps s0 s) (e : execCoopHkFreeWrite x1 x2 s = .next t) :
    Keeps s0 t := by
  unfold execCoopHkFreeWrite at e
  refine act_keeps (fun s h => ?_) h e
  repeat' first
    | with_reducible assumption
    | with_reducible apply hkFreeWrite_keeps
    | intro z
    | split
    | dsimp only

theorem coopThrWrite_keeps {s0 s : State} {x1 x2} (h : Keeps s0 s) :
    Keeps s0 (coopThrWrite x1 x2 s) := by
  unfold coopThrWrite
  repeat' first
    | with_reducible assumption
    | with_reducible apply poolLow_keeps
    | with_reducible apply State.store_keeps
    | intro z
    | split
    | dsimp only

theorem coopHkWrite_keeps {s0 s : State} {x1} (h : Keeps s0 s) :
    Keeps s0 (coopHkWrite x1 s) := by
  unfold coopHkWrite
  repeat' first
    | with_reducible assumption
    | with_reducible apply State.store_keeps
    | with_reducible apply setStack_keeps
    | with_reducible apply poolLow_keeps
    | (with_reducible refine keeps_foldl (fun _ _ _ => ?_) ?_)
    | (with_reducible refine keeps_foldl2 (fun _ _ _ => ?_) ?_)
    | (with_reducible refine keeps_foldl3 (fun _ _ _ => ?_) ?_)
    | (intro z; refine (fun (hz : Keeps s0 z) => ?_) ?_; (on_goal 1 => clear_value z); (on_goal 2 => (dsimp -zeta only [z]; clear z)))
    | (intro z; refine (fun (hF : ∀ s, Keeps s0 s → Keeps s0 (z s)) => ?_) ?_; (on_goal 1 => clear_value z); (on_goal 2 => (dsimp -zeta only [z]; clear z; intros)))
    | (intro z; refine (fun (hG : ∀ s y, Keeps s0 s → Keeps s0 (z s y)) => ?_) ?_; (on_goal 1 => clear_value z); (on_goal 2 => (dsimp -zeta only [z]; clear z; intros)))
    | (intro z; refine (fun (hK : ∀ y s, Keeps s0 s → Keeps s0 (z y s)) => ?_) ?_; (on_goal 1 => clear_value z); (on_goal 2 => (dsimp -zeta only [z]; clear z; intros)))
    | intro z
    | lift_lets
    | with_reducible apply hF
    | with_reducible apply hG
    | with_reducible apply hK
    | split
    | dsimp only
    | (clear_value *; split)

end Sys2Proof.Machine
end

