-- ==== Sys2Proof/Laws/MgmtK.lean ====
section
/-! SUPPORT. Every operation of Machine/Mgmt.lean keeps what `Keeps` says. -/
set_option linter.unusedTactic false
set_option linter.unreachableTactic false
set_option linter.unusedSimpArgs false
namespace Sys2Proof.Machine

theorem execI2cBlockRead_keeps {s0 s t : State} {x1} (h : Keeps s0 s) (e : execI2cBlockRead x1 s = .next t) :
    Keeps s0 t := by
  unfold execI2cBlockRead at e
  injection e with e
  subst e
  split
  · exact h
  · split
    · exact State.emit_keeps h
    · exact State.emit_keeps h

theorem execSmbAlertResponse_keeps {s0 s t : State} (h : Keeps s0 s) (e : execSmbAlertResponse s = .next t) :
    Keeps s0 t := by
  unfold execSmbAlertResponse at e
  injection e with e
  subst e
  split
  · exact h
  · exact State.emit_keeps h

theorem tdoShow_keeps {s0 s : State} {x1} (h : Keeps s0 s) :
    Keeps s0 (tdoShow x1 s) := by
  unfold tdoShow
  repeat' first
    | with_reducible assumption
    | with_reducible apply State.emit_keeps
    | intro z
    | split
    | dsimp only

end Sys2Proof.Machine
end

