-- ==== Sys2Proof/Laws/ParserK.lean ====
section
/-! SUPPORT. Every operation of Machine/Parser.lean keeps what `Keeps` says. -/
set_option linter.unusedTactic false
set_option linter.unreachableTactic false
set_option linter.unusedSimpArgs false
namespace Sys2Proof.Machine

theorem readNode_keeps {s0 s : State} {x1 x2 x3} (h : Keeps s0 s) :
    Keeps s0 (readNode x1 x2 x3 s).2 := by
  unfold readNode
  repeat' first
    | with_reducible assumption
    | with_reducible apply odRead_keeps
    | with_reducible refine keeps_snd (by with_reducible assumption) ?_
    | with_reducible refine keeps_snd2 (by with_reducible assumption) ?_
    | (intro z; refine (fun (hz : Keeps s0 z) => ?_) ?_; (on_goal 1 => clear_value z); (on_goal 2 => (dsimp -zeta only [z]; clear z)))
    | (intro z; refine (fun (hF : ∀ s, Keeps s0 s → Keeps s0 (z s)) => ?_) ?_; (on_goal 1 => clear_value z); (on_goal 2 => (dsimp -zeta only [z]; clear z; intros)))
    | (intro z; refine (fun (hG : ∀ s y, Keeps s0 s → Keeps s0 (z s y)) => ?_) ?_; (on_goal 1 => clear_value z); (on_goal 2 => (dsimp -zeta only [z]; clear z; intros)))
    | (intro z; refine (fun (hK : ∀ y s, Keeps s0 s → Keeps s0 (z y s)) => ?_) ?_; (on_goal 1 => clear_value z); (on_goal 2 => (dsimp -zeta only [z]; clear z; intros)))
    | intro z
    | lift_lets
    | with_reducible apply hF
    | with_reducible apply hG
    | with_reducible apply hK
    | split
    | dsimp only
    | (clear_value *; split)

theorem readTrans_keeps {s0 s : State} {x1 x2 x3} (h : Keeps s0 s) :
    Keeps s0 (readTrans x1 x2 x3 s).2 := by
  unfold readTrans
  repeat' first
    | with_reducible assumption
    | with_reducible apply odRead_keeps
    | (with_reducible refine keeps_foldl (fun _ _ _ => ?_) ?_)
    | (with_reducible refine keeps_foldl2 (fun _ _ _ => ?_) ?_)
    | (with_reducible refine keeps_foldl3 (fun _ _ _ => ?_) ?_)
    | with_reducible refine keeps_snd (by with_reducible assumption) ?_
    | with_reducible refine keeps_snd2 (by with_reducible assumption) ?_
    | (intro z; refine (fun (hz : Keeps s0 z) => ?_) ?_; (on_goal 1 => clear_value z); (on_goal 2 => (dsimp -zeta only [z]; clear z)))
    | intro z
    | lift_lets
    | split
    | dsimp only
    | (clear_value *; split)

theorem walk_keeps {s0 s : State} {x1 x2 x3 x4 x5 x6 x7 x8} (h : Keeps s0 s) :
    Keeps s0 (walk x1 x2 x3 x4 x5 x6 x7 x8 s).2 := by
  have hd {c : Bool} {s : State} (h : Keeps s0 s) : Keeps s0 (if c then s.drawNat else (0, s)).2 := by
    split
    · exact State.drawNat_keeps h
    · exact h
  induction x5 generalizing x6 x7 x8 s with
  | zero =>
    unfold walk
    split
    · exact h
    · split
      · exact h
      · have hr := readNode_keeps (x1 := x1) (x2 := x2) (x3 := x6) h
        split <;> (next e => exact keeps_snd e hr)
  | succ fuel ih =>
    unfold walk
    split
    · exact h
    · split
      · exact h
      · have hr := readNode_keeps (x1 := x1) (x2 := x2) (x3 := x6) h
        split
        · next e => exact keeps_snd e hr
        · next n s e =>
          have h1 := hd (c := n.selEnd && decide (x8.off < n.selOff + 2)) (keeps_snd e hr)
          dsimp only
          generalize (if (n.selEnd && decide (x8.off < n.selOff + 2)) = true then s.drawNat else (0, s)) = p at h1 ⊢
          split
          · exact h1
          · split
            · exact h1
            · have h2 := readTrans_keeps (x1 := x1) (x2 := x2) (x3 := n) h1
              split
              · next e => exact keeps_snd e h2
              · next e => exact ih (keeps_snd e h2)

theorem parsePass_keeps {s0 s : State} {x1 x2 x3 x4} (h : Keeps s0 s) :
    Keeps s0 (parsePass x1 x2 x3 x4 s).2 := by
  unfold parsePass
  repeat' first
    | with_reducible assumption
    | with_reducible apply walk_keeps
    | (simp -zeta only [keeps_mk]; with_reducible refine kept_of _ ?_)
    | with_reducible refine keeps_snd (by with_reducible assumption) ?_
    | with_reducible refine keeps_snd2 (by with_reducible assumption) ?_
    | (intro z; refine (fun (hz : Keeps s0 z) => ?_) ?_; (on_goal 1 => clear_value z); (on_goal 2 => (dsimp -zeta only [z]; clear z)))
    | (intro z; refine (fun (hF : ∀ s, Keeps s0 s → Keeps s0 (z s)) => ?_) ?_; (on_goal 1 => clear_value z); (on_goal 2 => (dsimp -zeta only [z]; clear z; intros)))
    | (intro z; refine (fun (hG : ∀ s y, Keeps s0 s → Keeps s0 (z s y)) => ?_) ?_; (on_goal 1 => clear_value z); (on_goal 2 => (dsimp -zeta only [z]; clear z; intros)))
    | (intro z; refine (fun (hK : ∀ y s, Keeps s0 s → Keeps s0 (z y s)) => ?_) ?_; (on_goal 1 => clear_value z); (on_goal 2 => (dsimp -zeta only [z]; clear z; intros)))
    | intro z
    | lift_lets
    | with_reducible apply hF
    | with_reducible apply hG
    | with_reducible apply hK
    | split
    | dsimp only
    | (clear_value *; split)

theorem prsWrErr_keeps {s0 s : State} {x1} (h : Keeps s0 s) :
    Keeps s0 (prsWrErr x1 s) := by
  unfold prsWrErr
  repeat' first
    | with_reducible assumption
    | with_reducible apply State.raise_keeps
    | intro z
    | split
    | dsimp only

theorem prsCfgWrite_keeps {s0 s : State} {x1 x2} (h : Keeps s0 s) :
    Keeps s0 (prsCfgWrite x1 x2 s) := by
  unfold prsCfgWrite
  repeat' first
    | with_reducible assumption
    | with_reducible apply prsWrErr_keeps
    | with_reducible apply State.store_keeps
    | with_reducible apply State.raise_keeps
    | (intro z; refine (fun (hz : Keeps s0 z) => ?_) ?_; (on_goal 1 => clear_value z); (on_goal 2 => (dsimp -zeta only [z]; clear z)))
    | (intro z; refine (fun (hF : ∀ s, Keeps s0 s → Keeps s0 (z s)) => ?_) ?_; (on_goal 1 => clear_value z); (on_goal 2 => (dsimp -zeta only [z]; clear z; intros)))
    | (intro z; refine (fun (hG : ∀ s y, Keeps s0 s → Keeps s0 (z s y)) => ?_) ?_; (on_goal 1 => clear_value z); (on_goal 2 => (dsimp -zeta only [z]; clear z; intros)))
    | (intro z; refine (fun (hK : ∀ y s, Keeps s0 s → Keeps s0 (z y s)) => ?_) ?_; (on_goal 1 => clear_value z); (on_goal 2 => (dsimp -zeta only [z]; clear z; intros)))
    | intro z
    | lift_lets
    | with_reducible apply hF
    | with_reducible apply hG
    | with_reducible apply hK
    | split
    | dsimp only
    | (clear_value *; split)

theorem execParsePlaneSwitch_keeps {s0 s t : State} {x1 x2} (h : Keeps s0 s) (e : execParsePlaneSwitch x1 x2 s = .next t) :
    Keeps s0 t := by
  unfold execParsePlaneSwitch at e
  refine act_keeps (fun s h => ?_) h e
  repeat' first
    | with_reducible assumption
    | with_reducible apply prsCfgWrite_keeps
    | intro z
    | split
    | dsimp only

theorem execOldPlaneDrained_keeps {s0 s t : State} {x1} (h : Keeps s0 s) (e : execOldPlaneDrained x1 s = .next t) :
    Keeps s0 t := by
  unfold execOldPlaneDrained at e
  refine act_keeps (fun s h => ?_) h e
  repeat' first
    | with_reducible assumption
    | with_reducible apply State.put_keeps
    | intro z
    | split
    | dsimp only

theorem execPrsCommit_keeps {s0 s t : State} {x1 x2} (h : Keeps s0 s) (e : execPrsCommit x1 x2 s = .next t) :
    Keeps s0 t := by
  unfold execPrsCommit at e
  refine act_keeps (fun s h => ?_) h e
  repeat' first
    | with_reducible assumption
    | with_reducible apply prsCfgWrite_keeps
    | intro z
    | split
    | dsimp only

theorem parseMemWrite_keeps {s0 s : State} {x1 x2} (h : Keeps s0 s) :
    Keeps s0 (parseMemWrite x1 x2 s) := by
  unfold parseMemWrite
  repeat' first
    | with_reducible assumption
    | with_reducible apply prsWrErr_keeps
    | with_reducible apply odWrite_keeps
    | with_reducible apply State.wr_keeps
    | (simp -zeta only [keeps_mk]; with_reducible refine kept_of _ ?_)
    | with_reducible refine keeps_snd (by with_reducible assumption) ?_
    | with_reducible refine keeps_snd2 (by with_reducible assumption) ?_
    | (intro z; refine (fun (hz : Keeps s0 z) => ?_) ?_; (on_goal 1 => clear_value z); (on_goal 2 => (dsimp -zeta only [z]; clear z)))
    | (intro z; refine (fun (hF : ∀ s, Keeps s0 s → Keeps s0 (z s)) => ?_) ?_; (on_goal 1 => clear_value z); (on_goal 2 => (dsimp -zeta only [z]; clear z; intros)))
    | (intro z; refine (fun (hG : ∀ s y, Keeps s0 s → Keeps s0 (z s y)) => ?_) ?_; (on_goal 1 => clear_value z); (on_goal 2 => (dsimp -zeta only [z]; clear z; intros)))
    | (intro z; refine (fun (hK : ∀ y s, Keeps s0 s → Keeps s0 (z y s)) => ?_) ?_; (on_goal 1 => clear_value z); (on_goal 2 => (dsimp -zeta only [z]; clear z; intros)))
    | intro z
    | lift_lets
    | with_reducible apply hF
    | with_reducible apply hG
    | with_reducible apply hK
    | split
    | dsimp only
    | (clear_value *; split)

theorem execParseMemoryWrite_keeps {s0 s t : State} {x1 x2} (h : Keeps s0 s) (e : execParseMemoryWrite x1 x2 s = .next t) :
    Keeps s0 t := by
  unfold execParseMemoryWrite at e
  refine act_keeps (fun s h => ?_) h e
  repeat' first
    | with_reducible assumption
    | with_reducible apply parseMemWrite_keeps
    | intro z
    | split
    | dsimp only

theorem puntBucketFill_keeps {s0 s : State} {x1 x2} (h : Keeps s0 s) :
    Keeps s0 (puntBucketFill x1 x2 s) := by
  unfold puntBucketFill
  repeat' first
    | with_reducible assumption
    | with_reducible apply State.modGuild_keeps
    | (simp -zeta only [keeps_mk]; with_reducible refine kept_of _ ?_)
    | intro z
    | split
    | dsimp only

theorem puntBucketWrite_keeps {s0 s : State} {x1 x2 x3 x4} (h : Keeps s0 s) :
    Keeps s0 (puntBucketWrite x1 x2 x3 x4 s) := by
  unfold puntBucketWrite
  repeat' first
    | with_reducible assumption
    | with_reducible apply puntBucketFill_keeps
    | with_reducible apply State.store_keeps
    | intro z
    | split
    | dsimp only

theorem execPuntBucketWrite_keeps {s0 s t : State} {x1 x2 x3 x4} (h : Keeps s0 s) (e : execPuntBucketWrite x1 x2 x3 x4 s = .next t) :
    Keeps s0 t := by
  unfold execPuntBucketWrite at e
  refine act_keeps (fun s h => ?_) h e
  repeat' first
    | with_reducible assumption
    | with_reducible apply puntBucketWrite_keeps
    | intro z
    | split
    | dsimp only

end Sys2Proof.Machine
end

