-- ==== Sys2Proof/Laws/RegistersK.lean ====
section
/-! SUPPORT. Every operation of Machine/Registers.lean keeps what `Keeps` says. -/
set_option linter.unusedTactic false
set_option linter.unreachableTactic false
set_option linter.unusedSimpArgs false
namespace Sys2Proof.Machine

theorem thawKeep_keeps {s0 s : State} {x1} (h : Keeps s0 s) :
    Keeps s0 (thawKeep x1 s) := by
  unfold thawKeep
  repeat' first
    | with_reducible assumption
    | (simp -zeta only [keeps_mk]; with_reducible refine kept_of _ ?_)
    | with_reducible refine keeps_snd (by with_reducible assumption) ?_
    | with_reducible refine keeps_snd2 (by with_reducible assumption) ?_
    | intro z
    | split
    | dsimp only

theorem hifCfgErr_keeps {s0 s : State} (h : Keeps s0 s) :
    Keeps s0 (hifCfgErr s) := by
  unfold hifCfgErr
  repeat' first
    | with_reducible assumption
    | with_reducible apply State.raise_keeps
    | intro z
    | split
    | dsimp only

theorem guildBindWrite_keeps {s0 s : State} {x1 x2} (h : Keeps s0 s) :
    Keeps s0 (guildBindWrite x1 x2 s) := by
  unfold guildBindWrite
  repeat' first
    | with_reducible assumption
    | with_reducible apply hifCfgErr_keeps
    | with_reducible apply State.store_keeps
    | (intro z; refine (fun (hz : Keeps s0 z) => ?_) ?_; (on_goal 1 => clear_value z); (on_goal 2 => (dsimp -zeta only [z]; clear z)))
    | (intro z; refine (fun (hF : ∀ s, Keeps s0 s → Keeps s0 (z s)) => ?_) ?_; (on_goal 1 => clear_value z); (on_goal 2 => (dsimp -zeta only [z]; clear z; intros)))
    | (intro z; refine (fun (hG : ∀ s y, Keeps s0 s → Keeps s0 (z s y)) => ?_) ?_; (on_goal 1 => clear_value z); (on_goal 2 => (dsimp -zeta only [z]; clear z; intros)))
    | (intro z; refine (fun (hK : ∀ y s, Keeps s0 s → Keeps s0 (z y s)) => ?_) ?_; (on_goal 1 => clear_value z); (on_goal 2 => (dsimp -zeta only [z]; clear z; intros)))
    | intro z
    | lift_lets
    | with_reducible apply hF
    | with_reducible apply hG
    | with_reducible apply hK
    | split
    | dsimp only
    | (clear_value *; split)

theorem guildRingsWrite_keeps {s0 s : State} {x1 x2} (h : Keeps s0 s) :
    Keeps s0 (guildRingsWrite x1 x2 s) := by
  unfold guildRingsWrite
  repeat' first
    | with_reducible assumption
    | with_reducible apply hifCfgErr_keeps
    | with_reducible apply State.store_keeps
    | intro z
    | split
    | dsimp only

theorem gldGuard_keeps {s0 s : State} {x1 x2} (h : Keeps s0 s) (h2 : ∀ s, Keeps s0 s → Keeps s0 (x2 s)) :
    Keeps s0 (gldGuard x1 x2 s) := by
  unfold gldGuard
  repeat' first
    | with_reducible assumption
    | with_reducible apply State.raise_keeps
    | with_reducible apply h2
    | intro z
    | split
    | dsimp only

theorem statCtlWrite_keeps {s0 s : State} {x1 x2} (h : Keeps s0 s) :
    Keeps s0 (statCtlWrite x1 x2 s) := by
  unfold statCtlWrite
  repeat' first
    | with_reducible assumption
    | with_reducible apply State.storeBut_keeps
    | with_reducible apply statClear_keeps
    | (intro z; refine (fun (hz : Keeps s0 z) => ?_) ?_; (on_goal 1 => clear_value z); (on_goal 2 => (dsimp -zeta only [z]; clear z)))
    | (intro z; refine (fun (hF : ∀ s, Keeps s0 s → Keeps s0 (z s)) => ?_) ?_; (on_goal 1 => clear_value z); (on_goal 2 => (dsimp -zeta only [z]; clear z; intros)))
    | (intro z; refine (fun (hG : ∀ s y, Keeps s0 s → Keeps s0 (z s y)) => ?_) ?_; (on_goal 1 => clear_value z); (on_goal 2 => (dsimp -zeta only [z]; clear z; intros)))
    | (intro z; refine (fun (hK : ∀ y s, Keeps s0 s → Keeps s0 (z y s)) => ?_) ?_; (on_goal 1 => clear_value z); (on_goal 2 => (dsimp -zeta only [z]; clear z; intros)))
    | intro z
    | lift_lets
    | with_reducible apply hF
    | with_reducible apply hG
    | with_reducible apply hK
    | split
    | dsimp only
    | (clear_value *; split)

theorem fidMapWrite_keeps {s0 s : State} {x1 x2 x3 x4} (h : Keeps s0 s) :
    Keeps s0 (fidMapWrite x1 x2 x3 x4 s) := by
  unfold fidMapWrite
  repeat' first
    | with_reducible assumption
    | with_reducible apply odWrite_keeps
    | with_reducible apply State.store_keeps
    | intro z
    | split
    | dsimp only

theorem errEventWrite_keeps {s0 s : State} {x1} (h : Keeps s0 s) :
    Keeps s0 (errEventWrite x1 s) := by
  unfold errEventWrite
  repeat' first
    | with_reducible assumption
    | with_reducible apply State.store_keeps
    | (simp -zeta only [keeps_mk]; with_reducible refine kept_of _ ?_)
    | (intro z; refine (fun (hz : Keeps s0 z) => ?_) ?_; (on_goal 1 => clear_value z); (on_goal 2 => (dsimp -zeta only [z]; clear z)))
    | (intro z; refine (fun (hF : ∀ s, Keeps s0 s → Keeps s0 (z s)) => ?_) ?_; (on_goal 1 => clear_value z); (on_goal 2 => (dsimp -zeta only [z]; clear z; intros)))
    | (intro z; refine (fun (hG : ∀ s y, Keeps s0 s → Keeps s0 (z s y)) => ?_) ?_; (on_goal 1 => clear_value z); (on_goal 2 => (dsimp -zeta only [z]; clear z; intros)))
    | (intro z; refine (fun (hK : ∀ y s, Keeps s0 s → Keeps s0 (z y s)) => ?_) ?_; (on_goal 1 => clear_value z); (on_goal 2 => (dsimp -zeta only [z]; clear z; intros)))
    | intro z
    | lift_lets
    | with_reducible apply hF
    | with_reducible apply hG
    | with_reducible apply hK
    | split
    | dsimp only
    | (clear_value *; split)

theorem gldCtlWrite_keeps {s0 s : State} {x1 x2} (h : Keeps s0 s) :
    Keeps s0 (gldCtlWrite x1 x2 s) := by
  unfold gldCtlWrite
  repeat' first
    | with_reducible assumption
    | with_reducible apply guildOff_keeps
    | intro z
    | split
    | dsimp only

theorem keeps_lookup {s0 : State} {n : String} {f : WriteHook} {l : List (String × WriteHook)}
    (hl : ∀ e ∈ l, ∀ ix req a v s, Keeps s0 s → Keeps s0 (e.2 ix req a v s)) (h : l.lookup n = some f) :
    ∀ ix req a v s, Keeps s0 s → Keeps s0 (f ix req a v s) := by
  induction l with
  | nil => cases h
  | cons e r ih =>
    obtain ⟨k, g⟩ := e
    simp only [List.lookup] at h
    split at h
    · injection h with h
      subst h
      exact hl _ (List.mem_cons_self ..)
    · exact ih (fun e he => hl e (List.mem_cons_of_mem _ he)) h

theorem injHook_keeps {s0 s : State} {w ix req a v} (h : Keeps s0 s) : Keeps s0 (injHook w ix req a v s) := by
  unfold injHook
  exact injWordWrite_keeps h

theorem globalHooks_keeps {s0 : State} :
    ∀ e ∈ globalHooks, ∀ ix req a v s, Keeps s0 s → Keeps s0 (e.2 ix req a v s) := by
  intro e he ix req a v s h
  simp only [globalHooks, List.mem_cons, List.not_mem_nil, or_false] at he
  rcases he with
    rfl | rfl | rfl | rfl | rfl | rfl | rfl | rfl | rfl | rfl | rfl | rfl | rfl | rfl | rfl | rfl | rfl | rfl |
    rfl | rfl | rfl | rfl | rfl | rfl | rfl | rfl | rfl | rfl | rfl | rfl | rfl | rfl | rfl
  · exact avsManualWrite_keeps h
  · exact thmWrite_keeps h
  · exact bootFullWrite_keeps h
  · exact bootResetWrite_keeps h
  · exact irqMsg_keeps h
  · exact irqEnableWrite_keeps h
  · exact irqCfgWrite_keeps h
  · exact irqCfgWrite_keeps h
  · exact irqComplete_keeps h
  · exact irqCtlWrite_keeps h
  · exact irqEnableWrite_keeps h
  · exact irqCfgWrite_keeps h
  · exact vrvCfgWrite_keeps h
  · exact servoCfgWrite_keeps h
  · exact ppsOutWrite_keeps h
  · exact freqOutWrite_keeps h
  · exact guildBindWrite_keeps h
  · exact guildRingsWrite_keeps h
  · exact State.store_keeps h
  · exact puntBucketWrite_keeps h
  · exact puntBucketWrite_keeps h
  · exact coopThrWrite_keeps h
  · exact coopHkWrite_keeps h
  · exact hkFreeWrite_keeps h
  · exact hbmShareWrite_keeps h
  · exact hbmEventWrite_keeps h
  · exact tlyCfgWrite_keeps h
  · exact tlyGuard_keeps h fun _ h => State.store_keeps h
  · exact storeWrite_keeps h
  · exact mateKick_keeps h
  · exact seedWrite_keeps h
  · exact meminjWrite_keeps h
  · exact errEventWrite_keeps h

theorem stationHooks_keeps {s0 : State} :
    ∀ e ∈ stationHooks, ∀ ix req a v s, Keeps s0 s → Keeps s0 (e.2 ix req a v s) := by
  intro e he ix req a v s h
  simp only [stationHooks, List.mem_cons, List.not_mem_nil, or_false] at he
  rcases he with
    rfl | rfl | rfl | rfl | rfl | rfl | rfl | rfl | rfl | rfl | rfl | rfl | rfl | rfl | rfl | rfl | rfl | rfl |
    rfl | rfl | rfl | rfl | rfl | rfl | rfl | rfl | rfl | rfl | rfl | rfl | rfl | rfl | rfl | rfl | rfl | rfl |
    rfl | rfl | rfl | rfl | rfl
  · exact State.store_keeps h
  · exact quadWrite_keeps h
  · exact cfgWrite_keeps h
  · exact advWrite_keeps h
  · exact txeqWrite_keeps h
  · exact testWrite_keeps h
  · exact macCfgWrite_keeps h
  · exact xoffUpdate_keeps (State.store_keeps h)
  · exact mergeWrite_keeps h
  · exact statCtlWrite_keeps h
  · exact prsCfgWrite_keeps h
  · dsimp only; exact parseMemWrite_keeps h
  · dsimp only; exact parseMemWrite_keeps h
  · exact fidMapWrite_keeps h
  · exact ucsStoreWrite_keeps h
  · exact ucsStoreWrite_keeps h
  · exact ucsStoreWrite_keeps h
  · exact hkCtlWrite_keeps h
  · exact xoffUpdate_keeps (State.store_keeps h)
  · exact xoffUpdate_keeps (State.store_keeps h)
  · exact xoffUpdate_keeps (State.store_keeps h)
  · exact celFreeWrite_keeps h
  · exact operUpdate_keeps (State.store_keeps h)
  · exact wfqWrite_keeps h
  · exact wfqWrite_keeps h
  · exact gclWrite_keeps h
  · exact histWrite_keeps h
  · exact gateEntryWrite_keeps h
  · exact gateEntryWrite_keeps h
  · exact injSelWrite_keeps h
  · exact injHook_keeps (req := req) (a := a) h
  · exact injHook_keeps (req := req) (a := a) h
  · exact injHook_keeps (req := req) (a := a) h
  · exact injHook_keeps (req := req) (a := a) h
  · exact injHook_keeps (req := req) (a := a) h
  · exact injHook_keeps (req := req) (a := a) h
  · exact injHook_keeps (req := req) (a := a) h
  · exact injHook_keeps (req := req) (a := a) h
  · exact injHook_keeps (req := req) (a := a) h
  · exact injHook_keeps (req := req) (a := a) h
  · exact injHook_keeps (req := req) (a := a) h

theorem pageHooks_keeps {s0 : State} : ∀ e ∈ pageHooks, ∀ ix req a v s, Keeps s0 s → Keeps s0 (e.2 ix req a v s) := by
  intro e he ix req a v s h
  simp only [pageHooks, List.mem_cons, List.not_mem_nil, or_false] at he
  rcases he with rfl | rfl | rfl
  · exact gldCtlWrite_keeps h
  · exact bootVecWrite_keeps h
  · exact gldStatusWrite_keeps h

theorem wordWrite_keeps {s0 s : State} {x1 x2 x3 x4} (h : Keeps s0 s) : Keeps s0 (wordWrite x1 x2 x3 x4 s) := by
  unfold wordWrite
  split
  · next f e =>
    refine keeps_lookup (fun e he => ?_) e _ _ _ _ _ h
    simp only [List.mem_append] at he
    rcases he with (he | he) | he
    · exact globalHooks_keeps e he
    · exact stationHooks_keeps e he
    · exact pageHooks_keeps e he
  · exact State.store_keeps h

theorem pairGuard_keeps {s0 s : State} {x1 x2} (h : Keeps s0 s) (h2 : ∀ s, Keeps s0 s → Keeps s0 (x2 s)) :
    Keeps s0 (pairGuard x1 x2 s) := by
  unfold pairGuard
  repeat' first
    | with_reducible assumption
    | with_reducible apply tlyGuard_keeps
    | with_reducible apply gldGuard_keeps
    | with_reducible apply h2
    | (intro z; refine (fun (hz : Keeps s0 z) => ?_) ?_; (on_goal 1 => clear_value z); (on_goal 2 => (dsimp -zeta only [z]; clear z)))
    | (intro z; refine (fun (hF : ∀ s, Keeps s0 s → Keeps s0 (z s)) => ?_) ?_; (on_goal 1 => clear_value z); (on_goal 2 => (dsimp -zeta only [z]; clear z; intros)))
    | (intro z; refine (fun (hG : ∀ s y, Keeps s0 s → Keeps s0 (z s y)) => ?_) ?_; (on_goal 1 => clear_value z); (on_goal 2 => (dsimp -zeta only [z]; clear z; intros)))
    | (intro z; refine (fun (hK : ∀ y s, Keeps s0 s → Keeps s0 (z y s)) => ?_) ?_; (on_goal 1 => clear_value z); (on_goal 2 => (dsimp -zeta only [z]; clear z; intros)))
    | intro z
    | lift_lets
    | with_reducible apply hF
    | with_reducible apply hG
    | with_reducible apply hK
    | split
    | dsimp only
    | (clear_value *; split)

theorem lowWrite_keeps {s0 s : State} {x1 x2 x3} (h : Keeps s0 s) :
    Keeps s0 (lowWrite x1 x2 x3 s) := by
  unfold lowWrite
  repeat' first
    | with_reducible assumption
    | (simp -zeta only [keeps_mk]; with_reducible refine kept_of _ ?_)
    | with_reducible refine keeps_snd (by with_reducible assumption) ?_
    | with_reducible refine keeps_snd2 (by with_reducible assumption) ?_
    | (intro z; refine (fun (hz : Keeps s0 z) => ?_) ?_; (on_goal 1 => clear_value z); (on_goal 2 => (dsimp -zeta only [z]; clear z)))
    | (intro z; refine (fun (hF : ∀ s, Keeps s0 s → Keeps s0 (z s)) => ?_) ?_; (on_goal 1 => clear_value z); (on_goal 2 => (dsimp -zeta only [z]; clear z; intros)))
    | (intro z; refine (fun (hG : ∀ s y, Keeps s0 s → Keeps s0 (z s y)) => ?_) ?_; (on_goal 1 => clear_value z); (on_goal 2 => (dsimp -zeta only [z]; clear z; intros)))
    | (intro z; refine (fun (hK : ∀ y s, Keeps s0 s → Keeps s0 (z y s)) => ?_) ?_; (on_goal 1 => clear_value z); (on_goal 2 => (dsimp -zeta only [z]; clear z; intros)))
    | intro z
    | lift_lets
    | with_reducible apply hF
    | with_reducible apply hG
    | with_reducible apply hK
    | split
    | dsimp only
    | (clear_value *; split)

theorem highWrite_keeps {s0 s : State} {x1 x2 x3} (h : Keeps s0 s) :
    Keeps s0 (highWrite x1 x2 x3 s) := by
  unfold highWrite
  repeat' first
    | with_reducible assumption
    | with_reducible apply State.store_keeps
    | with_reducible refine keeps_snd (by with_reducible assumption) ?_
    | with_reducible refine keeps_snd2 (by with_reducible assumption) ?_
    | (intro z; refine (fun (hz : Keeps s0 z) => ?_) ?_; (on_goal 1 => clear_value z); (on_goal 2 => (dsimp -zeta only [z]; clear z)))
    | (intro z; refine (fun (hF : ∀ s, Keeps s0 s → Keeps s0 (z s)) => ?_) ?_; (on_goal 1 => clear_value z); (on_goal 2 => (dsimp -zeta only [z]; clear z; intros)))
    | (intro z; refine (fun (hG : ∀ s y, Keeps s0 s → Keeps s0 (z s y)) => ?_) ?_; (on_goal 1 => clear_value z); (on_goal 2 => (dsimp -zeta only [z]; clear z; intros)))
    | (intro z; refine (fun (hK : ∀ y s, Keeps s0 s → Keeps s0 (z y s)) => ?_) ?_; (on_goal 1 => clear_value z); (on_goal 2 => (dsimp -zeta only [z]; clear z; intros)))
    | intro z
    | lift_lets
    | with_reducible apply hF
    | with_reducible apply hG
    | with_reducible apply hK
    | split
    | dsimp only
    | (clear_value *; split)

theorem regStore_keeps {s0 s : State} {x1 x2 x3} (h : Keeps s0 s) :
    Keeps s0 (regStore x1 x2 x3 s) := by
  unfold regStore
  repeat' first
    | with_reducible assumption
    | with_reducible apply pairGuard_keeps
    | with_reducible apply lowWrite_keeps
    | with_reducible apply highWrite_keeps
    | with_reducible apply thawKeep_keeps
    | with_reducible apply wordWrite_keeps
    | (simp -zeta only [keeps_mk]; with_reducible refine kept_of _ ?_)
    | with_reducible refine keeps_snd (by with_reducible assumption) ?_
    | with_reducible refine keeps_snd2 (by with_reducible assumption) ?_
    | intro z
    | split
    | dsimp only

theorem partialWrite_keeps {s0 s : State} {x1} (h : Keeps s0 s) :
    Keeps s0 (partialWrite x1 s) := by
  unfold partialWrite
  repeat' first
    | with_reducible assumption
    | with_reducible apply State.put_keeps
    | with_reducible apply State.raise_keeps
    | (intro z; refine (fun (hz : Keeps s0 z) => ?_) ?_; (on_goal 1 => clear_value z); (on_goal 2 => (dsimp -zeta only [z]; clear z)))
    | (intro z; refine (fun (hF : ∀ s, Keeps s0 s → Keeps s0 (z s)) => ?_) ?_; (on_goal 1 => clear_value z); (on_goal 2 => (dsimp -zeta only [z]; clear z; intros)))
    | (intro z; refine (fun (hG : ∀ s y, Keeps s0 s → Keeps s0 (z s y)) => ?_) ?_; (on_goal 1 => clear_value z); (on_goal 2 => (dsimp -zeta only [z]; clear z; intros)))
    | (intro z; refine (fun (hK : ∀ y s, Keeps s0 s → Keeps s0 (z y s)) => ?_) ?_; (on_goal 1 => clear_value z); (on_goal 2 => (dsimp -zeta only [z]; clear z; intros)))
    | intro z
    | lift_lets
    | with_reducible apply hF
    | with_reducible apply hG
    | with_reducible apply hK
    | split
    | dsimp only
    | (clear_value *; split)

theorem regWrite_keeps {s0 s : State} {x1 x2 x3 x4} (h : Keeps s0 s) :
    Keeps s0 (regWrite x1 x2 x3 x4 s) := by
  unfold regWrite
  repeat' first
    | with_reducible assumption
    | with_reducible apply isoViol_keeps
    | with_reducible apply partialWrite_keeps
    | with_reducible apply regStore_keeps
    | with_reducible apply msixTableWrite_keeps
    | (simp -zeta only [keeps_mk]; with_reducible refine kept_of _ ?_)
    | with_reducible refine keeps_snd (by with_reducible assumption) ?_
    | with_reducible refine keeps_snd2 (by with_reducible assumption) ?_
    | (intro z; refine (fun (hz : Keeps s0 z) => ?_) ?_; (on_goal 1 => clear_value z); (on_goal 2 => (dsimp -zeta only [z]; clear z)))
    | (intro z; refine (fun (hF : ∀ s, Keeps s0 s → Keeps s0 (z s)) => ?_) ?_; (on_goal 1 => clear_value z); (on_goal 2 => (dsimp -zeta only [z]; clear z; intros)))
    | (intro z; refine (fun (hG : ∀ s y, Keeps s0 s → Keeps s0 (z s y)) => ?_) ?_; (on_goal 1 => clear_value z); (on_goal 2 => (dsimp -zeta only [z]; clear z; intros)))
    | (intro z; refine (fun (hK : ∀ y s, Keeps s0 s → Keeps s0 (z y s)) => ?_) ?_; (on_goal 1 => clear_value z); (on_goal 2 => (dsimp -zeta only [z]; clear z; intros)))
    | intro z
    | lift_lets
    | with_reducible apply hF
    | with_reducible apply hG
    | with_reducible apply hK
    | split
    | dsimp only
    | (clear_value *; split)

theorem execRegisterWrite_keeps {s0 s t : State} {x1 x2 x3 x4} (h : Keeps s0 s) (e : execRegisterWrite x1 x2 x3 x4 s = .next t) :
    Keeps s0 t := by
  unfold execRegisterWrite at e
  refine act_keeps (fun s h => ?_) h e
  repeat' first
    | with_reducible assumption
    | with_reducible apply regWrite_keeps
    | intro z
    | split
    | dsimp only

theorem execHighWordWrite_keeps {s0 s t : State} {x1 x2 x3} (h : Keeps s0 s) (e : execHighWordWrite x1 x2 x3 s = .next t) :
    Keeps s0 t := by
  unfold execHighWordWrite at e
  refine act_keeps (fun s h => ?_) h e
  repeat' first
    | with_reducible assumption
    | with_reducible apply regWrite_keeps
    | intro z
    | split
    | dsimp only

theorem execIrqEnableWrite_keeps {s0 s t : State} {x1 x2 x3} (h : Keeps s0 s) (e : execIrqEnableWrite x1 x2 x3 s = .next t) :
    Keeps s0 t := by
  unfold execIrqEnableWrite at e
  refine act_keeps (fun s h => ?_) h e
  repeat' first
    | with_reducible assumption
    | with_reducible apply regWrite_keeps
    | with_reducible refine keeps_snd (by with_reducible assumption) ?_
    | with_reducible refine keeps_snd2 (by with_reducible assumption) ?_
    | intro z
    | split
    | dsimp only

theorem rcClear_keeps {s0 s : State} {x1 x2} (h : Keeps s0 s) :
    Keeps s0 (rcClear x1 x2 s) := by
  unfold rcClear
  repeat' first
    | with_reducible assumption
    | with_reducible apply State.put_keeps
    | (with_reducible refine keeps_foldl (fun _ _ _ => ?_) ?_)
    | (with_reducible refine keeps_foldl2 (fun _ _ _ => ?_) ?_)
    | (with_reducible refine keeps_foldl3 (fun _ _ _ => ?_) ?_)
    | intro z
    | split
    | dsimp only

theorem regLoad_keeps {s0 s : State} {x1 x2} (h : Keeps s0 s) :
    Keeps s0 (regLoad x1 x2 s).2 := by
  unfold regLoad
  repeat' first
    | with_reducible assumption
    | with_reducible apply irqClaim_keeps
    | with_reducible apply irqReadback_keeps
    | with_reducible apply vrvTimeRead_keeps
    | with_reducible apply hkAllocRead_keeps
    | with_reducible apply trapRead_keeps
    | with_reducible apply txqRead_keeps
    | with_reducible apply State.latch_keeps
    | with_reducible apply rcClear_keeps
    | (simp -zeta only [keeps_mk]; with_reducible refine kept_of _ ?_)
    | with_reducible refine keeps_snd (by with_reducible assumption) ?_
    | with_reducible refine keeps_snd2 (by with_reducible assumption) ?_
    | (intro z; refine (fun (hz : Keeps s0 z) => ?_) ?_; (on_goal 1 => clear_value z); (on_goal 2 => (dsimp -zeta only [z]; clear z)))
    | (intro z; refine (fun (hF : ∀ s, Keeps s0 s → Keeps s0 (z s)) => ?_) ?_; (on_goal 1 => clear_value z); (on_goal 2 => (dsimp -zeta only [z]; clear z; intros)))
    | (intro z; refine (fun (hG : ∀ s y, Keeps s0 s → Keeps s0 (z s y)) => ?_) ?_; (on_goal 1 => clear_value z); (on_goal 2 => (dsimp -zeta only [z]; clear z; intros)))
    | (intro z; refine (fun (hK : ∀ y s, Keeps s0 s → Keeps s0 (z y s)) => ?_) ?_; (on_goal 1 => clear_value z); (on_goal 2 => (dsimp -zeta only [z]; clear z; intros)))
    | intro z
    | lift_lets
    | with_reducible apply hF
    | with_reducible apply hG
    | with_reducible apply hK
    | split
    | dsimp only
    | (clear_value *; split)

theorem regRead_keeps {s0 s : State} {x1 x2} (h : Keeps s0 s) :
    Keeps s0 (regRead x1 x2 s).2 := by
  unfold regRead
  repeat' first
    | with_reducible assumption
    | with_reducible apply isoViol_keeps
    | with_reducible apply regLoad_keeps
    | (simp -zeta only [keeps_mk]; with_reducible refine kept_of _ ?_)
    | with_reducible refine keeps_snd (by with_reducible assumption) ?_
    | with_reducible refine keeps_snd2 (by with_reducible assumption) ?_
    | (intro z; refine (fun (hz : Keeps s0 z) => ?_) ?_; (on_goal 1 => clear_value z); (on_goal 2 => (dsimp -zeta only [z]; clear z)))
    | (intro z; refine (fun (hF : ∀ s, Keeps s0 s → Keeps s0 (z s)) => ?_) ?_; (on_goal 1 => clear_value z); (on_goal 2 => (dsimp -zeta only [z]; clear z; intros)))
    | (intro z; refine (fun (hG : ∀ s y, Keeps s0 s → Keeps s0 (z s y)) => ?_) ?_; (on_goal 1 => clear_value z); (on_goal 2 => (dsimp -zeta only [z]; clear z; intros)))
    | (intro z; refine (fun (hK : ∀ y s, Keeps s0 s → Keeps s0 (z y s)) => ?_) ?_; (on_goal 1 => clear_value z); (on_goal 2 => (dsimp -zeta only [z]; clear z; intros)))
    | intro z
    | lift_lets
    | with_reducible apply hF
    | with_reducible apply hG
    | with_reducible apply hK
    | split
    | dsimp only
    | (clear_value *; split)

theorem regReadOut_keeps {s0 s : State} {x1 x2} (h : Keeps s0 s) :
    Keeps s0 (regReadOut x1 x2 s) := by
  unfold regReadOut
  repeat' first
    | with_reducible assumption
    | with_reducible apply regRead_keeps
    | with_reducible apply State.emit_keeps
    | (simp -zeta only [keeps_mk]; with_reducible refine kept_of _ ?_)
    | with_reducible refine keeps_snd (by with_reducible assumption) ?_
    | with_reducible refine keeps_snd2 (by with_reducible assumption) ?_
    | intro z
    | split
    | dsimp only

theorem execLowWordReadLatch_keeps {s0 s t : State} {x1 x2} (h : Keeps s0 s) (e : execLowWordReadLatch x1 x2 s = .next t) :
    Keeps s0 t := by
  unfold execLowWordReadLatch at e
  refine act_keeps (fun s h => ?_) h e
  repeat' first
    | with_reducible assumption
    | with_reducible apply regReadOut_keeps
    | intro z
    | split
    | dsimp only

theorem execRcFieldRead_keeps {s0 s t : State} {x1 x2} (h : Keeps s0 s) (e : execRcFieldRead x1 x2 s = .next t) :
    Keeps s0 t := by
  unfold execRcFieldRead at e
  refine act_keeps (fun s h => ?_) h e
  repeat' first
    | with_reducible assumption
    | with_reducible apply regReadOut_keeps
    | intro z
    | split
    | dsimp only

end Sys2Proof.Machine
end

