-- ==== Sys2Proof/Laws/Resets.lean ====
section
/-! SUPPORT. What the resets, the tick, UCS_KEY_PROGRAM and the test port keep: the canonical form, and the queue. -/
namespace Sys2Proof.Machine

/-- The canonical form, and the queue of another state. -/
def Stands (s0 s : State) : Prop := (Memory.wf s.mem = true ∧ Regs.wf s.regs = true) ∧ s.pending = s0.pending

theorem stands_mk {s0 s : State} (h1 : Memory.wf s.mem = true) (h2 : Regs.wf s.regs = true)
    (h3 : s.pending = s0.pending) : Stands s0 s := ⟨⟨h1, h2⟩, h3⟩

theorem Keeps.stands {s0 s : State} (h : Keeps s0 s) : Stands s0 s := ⟨h.1, h.2.1⟩

theorem Stands.keeps {s0 s : State} (h : Stands s0 s) : Keeps s s := Keeps.refl h.1.1 h.1.2

/-- An operation that keeps all that `Keeps` says keeps this too. -/
theorem Stands.trans {s0 s t : State} (h : Stands s0 s) (k : Keeps s s → Keeps s t) : Stands s0 t :=
  let q := k h.keeps
  ⟨q.1, q.2.1.trans h.2⟩

/-- An operation that keeps all that `Keeps` says but the reset's own record keeps the rest. -/
theorem warmHold_stands {s0 s : State} (h : Stands s0 s) : Stands s0 (warmHold s) := by
  unfold warmHold
  split
  · have h1 := h.trans fun k => hbOut_keeps (x1 := false) (actOut_keeps (x1 := false) k)
    exact h1
  · exact h

theorem tickTime_stands {s : State} (h : Stands s s) : Stands s (tickTime s) := by
  unfold tickTime
  split
  · exact h
  · have h1 : Stands s { s with now := s.now + 1 } := ⟨h.1, h.2⟩
    have h2 := h1.trans fun k => varveAdvance_keeps (x1 := 1) k
    refine warmHold_stands (Stands.trans (s := varveAdvance 1 { s with now := s.now + 1 }) h2 fun k => ?_)
    refine heartbeat_keeps (dumpCapture_keeps (ctlTick_keeps ?_))
    split
    · exact microsecond_keeps k
    · exact k

theorem wf_memLost (d : Nat) {m : List Host.Cell} (h : Memory.wf m = true) : Memory.wf (memLost d m) = true := by
  simp only [Memory.wf, Bool.and_eq_true, List.all_eq_true] at *
  have key : ∀ x ∈ memLost d m, ∃ y ∈ m, y.1 = x.1 ∧ x.2 ≠ Memory.unlisted := by
    intro x hx
    obtain ⟨y, hy, e⟩ := List.mem_filterMap.mp hx
    dsimp only at e
    split at e
    · cases e
    · split at e
      · cases e
      · next hn => injection e with e; subst e; exact ⟨y, hy, rfl, hn⟩
  refine ⟨?_, fun x hx => ?_⟩
  · rw [rising_iff] at *
    have := h.1
    unfold memLost
    rw [List.pairwise_filterMap]
    refine this.imp fun {a b} hab x hx y hy => ?_
    dsimp only at hx hy
    split at hx <;> [cases hx; skip]
    split at hx <;> [cases hx; skip]
    split at hy <;> [cases hy; skip]
    split at hy <;> [cases hy; skip]
    injection hx with hx
    injection hy with hy
    subst hx hy
    exact hab
  · obtain ⟨_, _, _, hn⟩ := key x hx
    simpa using hn

theorem afterReset_stands {s0 s : State} (h : Stands s0 s) : Stands s0 (afterReset s) := by
  have h1 := h.trans fun k => State.drawNat_keeps k
  have h2 := h1.trans fun k => outputsReset_keeps k
  unfold afterReset
  exact stands_mk (wf_memLost _ h2.1.1) (by rfl) h2.2

theorem Stands.next {s0 s t u : State} (h : Stands s0 s) (k : Keeps s s → Keeps s t)
    (e : (.next t : Out) = .next u) : Stands s0 u := by
  injection e with e
  exact e ▸ h.trans k

/-- Showing what boundary scan drives keeps them. -/
theorem scanShow_stands {s0 s : State} {w} (h : Stands s0 s) : Stands s0 (scanShow w s) := by
  exact h.trans fun k => scanShow_keeps k

theorem execColdReset_stands {s0 s t : State} {a b c d} (h : Stands s0 s) (e : execColdReset a b c d s = .next t) :
    Stands s0 t :=
  (scanShow_stands (w := scanDrive s) (afterReset_stands h)).next (fun k => i2cSet_keeps (State.put_keeps (State.wr_keeps k))) e

theorem keepReg_keeps' {s0 s t : State} {a} (h : Keeps s0 t) : Keeps s0 (keepReg s t a) := State.wr_keeps h

theorem keepMsix_keeps' {s0 s t : State} (h : Keeps s0 t) : Keeps s0 (keepMsix s t) := h

theorem warmRelease_stands {s0 s : State} {k} (h : Stands s0 s) : Stands s0 (warmRelease k s) :=
  (afterReset_stands h).trans fun q => keepMsix_keeps' (i2cSet_keeps (State.put_keeps (State.put_keeps
    (keeps_foldl (fun _ _ => keepReg_keeps') (keepReg_keeps' q)))))

theorem execWarmReset_stands {s0 s t : State} (h : Stands s0 s) (e : execWarmReset s = .next t) : Stands s0 t := by
  unfold execWarmReset at e
  injection e with e
  subst e
  split
  · exact h
  · split
    · exact warmRelease_stands h
    · split
      · exact warmRelease_stands h
      · exact h

theorem execResetAssert_stands {s0 s t : State} {c} (h : Stands s0 s) (e : execResetAssert c s = .next t) :
    Stands s0 t := by
  unfold execResetAssert at e
  injection e with e
  subst e
  have h1 := h.trans fun k => hbOut_keeps (x1 := false) (actOut_keeps (x1 := false) k)
  dsimp only
  split
  · have h2 := h1.trans fun k => outputsReset_keeps k
    exact scanShow_stands h2
  · exact scanShow_stands h1

theorem keyStore_stands {s0 s : State} {d} (h : Stands s0 s) : Stands s0 (keyStore d s) := h

theorem jtagRise_stands {s0 s : State} {b} (h : Stands s0 s) : Stands s0 (jtagRise b s) := by
  unfold jtagRise
  dsimp only
  split
  · exact h
  · exact h
  · exact h
  · exact h
  · exact h

theorem execJtagOperation_stands {s0 s t : State} {a b} (h : Stands s0 s) (e : execJtagOperation a b s = .next t) :
    Stands s0 t := by
  unfold execJtagOperation at e
  injection e with e
  subst e
  cases a with
  | trst => exact scanShow_stands (show Stands s0 { s with jtag := jtagFall .reset s.jtag } from h)
  | cycle tms =>
    have h1 := jtagRise_stands (b := b) h
    have h2 := scanShow_stands (w := scanDrive s)
      (show Stands s0 { jtagRise b s with jtag := jtagFall (s.jtag.tap.next tms) (jtagRise b s).jtag } from h1)
    dsimp only
    generalize scanShow _ _ = z at h2 ⊢
    split
    · exact h2.trans fun k => State.emit_keeps k
    · exact h2.trans fun k => State.emit_keeps k
    · exact h2

/-- UCS_KEY_PROGRAM: everything that `Keeps` names stays, but for an empty key, which the OTP may take. -/
theorem execUcsKeyProgram_keeps_or {s t : State} {g r x} (h : Keeps s s) (e : execUcsKeyProgram g r x s = .next t) :
    Keeps s t ∨ (s.ucs.ckey = none ∧ ∃ d, Keeps (keyStore d s) t) := by
  unfold execUcsKeyProgram act at e
  injection e with e
  subst e
  split
  · exact .inl h
  · unfold onCmd
    split
    · dsimp only
      split
      · exact .inl (complete_keeps h)
      · split
        · exact .inl (complete_keeps h)
        · next hn =>
          unfold withData
          have h1 := State.tick_keeps (x2 := Reg.HIF_CNT_LO 0) h
          dsimp only
          split
          · next d =>
            refine .inr ⟨by simpa using hn, (d ++ zeros 32).take 32, completeOk_keeps ?_⟩
            exact ⟨h1.1, h1.2.1, h1.2.2.1, h1.2.2.2.1, h1.2.2.2.2.1, rfl⟩
          · exact .inl (dmaError_keeps h1)
    · exact .inl h

end Sys2Proof.Machine
end

