-- ==== Sys2Proof/Laws/State.lean ====
section
/-! SUPPORT. What each update of the state leaves, field by field; registers, fields and counters read back. -/
namespace Sys2Proof.Machine

/-! ### `State.wr` -/

@[simp] theorem State.wr_latches (s : State) (a : Nat) (v : Word) : (s.wr a v).latches = s.latches := rfl
@[simp] theorem State.wr_lows (s : State) (a : Nat) (v : Word) : (s.wr a v).lows = s.lows := rfl
@[simp] theorem State.wr_now (s : State) (a : Nat) (v : Word) : (s.wr a v).now = s.now := rfl
@[simp] theorem State.wr_power (s : State) (a : Nat) (v : Word) : (s.wr a v).power = s.power := rfl
@[simp] theorem State.wr_energy (s : State) (a : Nat) (v : Word) : (s.wr a v).energy = s.energy := rfl
@[simp] theorem State.wr_ports (s : State) (a : Nat) (v : Word) : (s.wr a v).ports = s.ports := rfl
@[simp] theorem State.wr_stations (s : State) (a : Nat) (v : Word) : (s.wr a v).stations = s.stations := rfl
@[simp] theorem State.wr_xbr (s : State) (a : Nat) (v : Word) : (s.wr a v).xbr = s.xbr := rfl
@[simp] theorem State.wr_seq (s : State) (a : Nat) (v : Word) : (s.wr a v).seq = s.seq := rfl
@[simp] theorem State.wr_coop (s : State) (a : Nat) (v : Word) : (s.wr a v).coop = s.coop := rfl
@[simp] theorem State.wr_poolDrain (s : State) (a : Nat) (v : Word) : (s.wr a v).poolDrain = s.poolDrain := rfl
@[simp] theorem State.wr_routes (s : State) (a : Nat) (v : Word) : (s.wr a v).routes = s.routes := rfl
@[simp] theorem State.wr_routeBad (s : State) (a : Nat) (v : Word) : (s.wr a v).routeBad = s.routeBad := rfl
@[simp] theorem State.wr_groups (s : State) (a : Nat) (v : Word) : (s.wr a v).groups = s.groups := rfl
@[simp] theorem State.wr_ftm (s : State) (a : Nat) (v : Word) : (s.wr a v).ftm = s.ftm := rfl
@[simp] theorem State.wr_hk (s : State) (a : Nat) (v : Word) : (s.wr a v).hk = s.hk := rfl
@[simp] theorem State.wr_hkStore (s : State) (a : Nat) (v : Word) : (s.wr a v).hkStore = s.hkStore := rfl
@[simp] theorem State.wr_ucs (s : State) (a : Nat) (v : Word) : (s.wr a v).ucs = s.ucs := rfl
@[simp] theorem State.wr_varve (s : State) (a : Nat) (v : Word) : (s.wr a v).varve = s.varve := rfl
@[simp] theorem State.wr_hif (s : State) (a : Nat) (v : Word) : (s.wr a v).hif = s.hif := rfl
@[simp] theorem State.wr_irq (s : State) (a : Nat) (v : Word) : (s.wr a v).irq = s.irq := rfl
@[simp] theorem State.wr_mem (s : State) (a : Nat) (v : Word) : (s.wr a v).mem = s.mem := rfl
@[simp] theorem State.wr_hbm (s : State) (a : Nat) (v : Word) : (s.wr a v).hbm = s.hbm := rfl
@[simp] theorem State.wr_tally (s : State) (a : Nat) (v : Word) : (s.wr a v).tally = s.tally := rfl
@[simp] theorem State.wr_tinker (s : State) (a : Nat) (v : Word) : (s.wr a v).tinker = s.tinker := rfl
@[simp] theorem State.wr_mate (s : State) (a : Nat) (v : Word) : (s.wr a v).mate = s.mate := rfl
@[simp] theorem State.wr_boot (s : State) (a : Nat) (v : Word) : (s.wr a v).boot = s.boot := rfl
@[simp] theorem State.wr_jtag (s : State) (a : Nat) (v : Word) : (s.wr a v).jtag = s.jtag := rfl
@[simp] theorem State.wr_out (s : State) (a : Nat) (v : Word) : (s.wr a v).out = s.out := rfl
@[simp] theorem State.wr_fresh (s : State) (a : Nat) (v : Word) : (s.wr a v).fresh = s.fresh := rfl
@[simp] theorem State.wr_pending (s : State) (a : Nat) (v : Word) : (s.wr a v).pending = s.pending := rfl

/-! ### `State.put` -/

@[simp] theorem State.put_latches (s : State) (a : Nat) (f : Field) (v : Nat) : (s.put a f v).latches = s.latches := rfl
@[simp] theorem State.put_lows (s : State) (a : Nat) (f : Field) (v : Nat) : (s.put a f v).lows = s.lows := rfl
@[simp] theorem State.put_now (s : State) (a : Nat) (f : Field) (v : Nat) : (s.put a f v).now = s.now := rfl
@[simp] theorem State.put_power (s : State) (a : Nat) (f : Field) (v : Nat) : (s.put a f v).power = s.power := rfl
@[simp] theorem State.put_energy (s : State) (a : Nat) (f : Field) (v : Nat) : (s.put a f v).energy = s.energy := rfl
@[simp] theorem State.put_ports (s : State) (a : Nat) (f : Field) (v : Nat) : (s.put a f v).ports = s.ports := rfl
@[simp] theorem State.put_stations (s : State) (a : Nat) (f : Field) (v : Nat) : (s.put a f v).stations = s.stations := rfl
@[simp] theorem State.put_xbr (s : State) (a : Nat) (f : Field) (v : Nat) : (s.put a f v).xbr = s.xbr := rfl
@[simp] theorem State.put_seq (s : State) (a : Nat) (f : Field) (v : Nat) : (s.put a f v).seq = s.seq := rfl
@[simp] theorem State.put_coop (s : State) (a : Nat) (f : Field) (v : Nat) : (s.put a f v).coop = s.coop := rfl
@[simp] theorem State.put_poolDrain (s : State) (a : Nat) (f : Field) (v : Nat) : (s.put a f v).poolDrain = s.poolDrain := rfl
@[simp] theorem State.put_routes (s : State) (a : Nat) (f : Field) (v : Nat) : (s.put a f v).routes = s.routes := rfl
@[simp] theorem State.put_routeBad (s : State) (a : Nat) (f : Field) (v : Nat) : (s.put a f v).routeBad = s.routeBad := rfl
@[simp] theorem State.put_groups (s : State) (a : Nat) (f : Field) (v : Nat) : (s.put a f v).groups = s.groups := rfl
@[simp] theorem State.put_ftm (s : State) (a : Nat) (f : Field) (v : Nat) : (s.put a f v).ftm = s.ftm := rfl
@[simp] theorem State.put_hk (s : State) (a : Nat) (f : Field) (v : Nat) : (s.put a f v).hk = s.hk := rfl
@[simp] theorem State.put_hkStore (s : State) (a : Nat) (f : Field) (v : Nat) : (s.put a f v).hkStore = s.hkStore := rfl
@[simp] theorem State.put_ucs (s : State) (a : Nat) (f : Field) (v : Nat) : (s.put a f v).ucs = s.ucs := rfl
@[simp] theorem State.put_varve (s : State) (a : Nat) (f : Field) (v : Nat) : (s.put a f v).varve = s.varve := rfl
@[simp] theorem State.put_hif (s : State) (a : Nat) (f : Field) (v : Nat) : (s.put a f v).hif = s.hif := rfl
@[simp] theorem State.put_irq (s : State) (a : Nat) (f : Field) (v : Nat) : (s.put a f v).irq = s.irq := rfl
@[simp] theorem State.put_mem (s : State) (a : Nat) (f : Field) (v : Nat) : (s.put a f v).mem = s.mem := rfl
@[simp] theorem State.put_hbm (s : State) (a : Nat) (f : Field) (v : Nat) : (s.put a f v).hbm = s.hbm := rfl
@[simp] theorem State.put_tally (s : State) (a : Nat) (f : Field) (v : Nat) : (s.put a f v).tally = s.tally := rfl
@[simp] theorem State.put_tinker (s : State) (a : Nat) (f : Field) (v : Nat) : (s.put a f v).tinker = s.tinker := rfl
@[simp] theorem State.put_mate (s : State) (a : Nat) (f : Field) (v : Nat) : (s.put a f v).mate = s.mate := rfl
@[simp] theorem State.put_boot (s : State) (a : Nat) (f : Field) (v : Nat) : (s.put a f v).boot = s.boot := rfl
@[simp] theorem State.put_jtag (s : State) (a : Nat) (f : Field) (v : Nat) : (s.put a f v).jtag = s.jtag := rfl
@[simp] theorem State.put_out (s : State) (a : Nat) (f : Field) (v : Nat) : (s.put a f v).out = s.out := rfl
@[simp] theorem State.put_fresh (s : State) (a : Nat) (f : Field) (v : Nat) : (s.put a f v).fresh = s.fresh := rfl
@[simp] theorem State.put_pending (s : State) (a : Nat) (f : Field) (v : Nat) : (s.put a f v).pending = s.pending := rfl

/-! ### `State.putB` -/

@[simp] theorem State.putB_latches (s : State) (a : Nat) (f : Field) (v : Bool) : (s.putB a f v).latches = s.latches := rfl
@[simp] theorem State.putB_lows (s : State) (a : Nat) (f : Field) (v : Bool) : (s.putB a f v).lows = s.lows := rfl
@[simp] theorem State.putB_now (s : State) (a : Nat) (f : Field) (v : Bool) : (s.putB a f v).now = s.now := rfl
@[simp] theorem State.putB_power (s : State) (a : Nat) (f : Field) (v : Bool) : (s.putB a f v).power = s.power := rfl
@[simp] theorem State.putB_energy (s : State) (a : Nat) (f : Field) (v : Bool) : (s.putB a f v).energy = s.energy := rfl
@[simp] theorem State.putB_ports (s : State) (a : Nat) (f : Field) (v : Bool) : (s.putB a f v).ports = s.ports := rfl
@[simp] theorem State.putB_stations (s : State) (a : Nat) (f : Field) (v : Bool) : (s.putB a f v).stations = s.stations := rfl
@[simp] theorem State.putB_xbr (s : State) (a : Nat) (f : Field) (v : Bool) : (s.putB a f v).xbr = s.xbr := rfl
@[simp] theorem State.putB_seq (s : State) (a : Nat) (f : Field) (v : Bool) : (s.putB a f v).seq = s.seq := rfl
@[simp] theorem State.putB_coop (s : State) (a : Nat) (f : Field) (v : Bool) : (s.putB a f v).coop = s.coop := rfl
@[simp] theorem State.putB_poolDrain (s : State) (a : Nat) (f : Field) (v : Bool) : (s.putB a f v).poolDrain = s.poolDrain := rfl
@[simp] theorem State.putB_routes (s : State) (a : Nat) (f : Field) (v : Bool) : (s.putB a f v).routes = s.routes := rfl
@[simp] theorem State.putB_routeBad (s : State) (a : Nat) (f : Field) (v : Bool) : (s.putB a f v).routeBad = s.routeBad := rfl
@[simp] theorem State.putB_groups (s : State) (a : Nat) (f : Field) (v : Bool) : (s.putB a f v).groups = s.groups := rfl
@[simp] theorem State.putB_ftm (s : State) (a : Nat) (f : Field) (v : Bool) : (s.putB a f v).ftm = s.ftm := rfl
@[simp] theorem State.putB_hk (s : State) (a : Nat) (f : Field) (v : Bool) : (s.putB a f v).hk = s.hk := rfl
@[simp] theorem State.putB_hkStore (s : State) (a : Nat) (f : Field) (v : Bool) : (s.putB a f v).hkStore = s.hkStore := rfl
@[simp] theorem State.putB_ucs (s : State) (a : Nat) (f : Field) (v : Bool) : (s.putB a f v).ucs = s.ucs := rfl
@[simp] theorem State.putB_varve (s : State) (a : Nat) (f : Field) (v : Bool) : (s.putB a f v).varve = s.varve := rfl
@[simp] theorem State.putB_hif (s : State) (a : Nat) (f : Field) (v : Bool) : (s.putB a f v).hif = s.hif := rfl
@[simp] theorem State.putB_irq (s : State) (a : Nat) (f : Field) (v : Bool) : (s.putB a f v).irq = s.irq := rfl
@[simp] theorem State.putB_mem (s : State) (a : Nat) (f : Field) (v : Bool) : (s.putB a f v).mem = s.mem := rfl
@[simp] theorem State.putB_hbm (s : State) (a : Nat) (f : Field) (v : Bool) : (s.putB a f v).hbm = s.hbm := rfl
@[simp] theorem State.putB_tally (s : State) (a : Nat) (f : Field) (v : Bool) : (s.putB a f v).tally = s.tally := rfl
@[simp] theorem State.putB_tinker (s : State) (a : Nat) (f : Field) (v : Bool) : (s.putB a f v).tinker = s.tinker := rfl
@[simp] theorem State.putB_mate (s : State) (a : Nat) (f : Field) (v : Bool) : (s.putB a f v).mate = s.mate := rfl
@[simp] theorem State.putB_boot (s : State) (a : Nat) (f : Field) (v : Bool) : (s.putB a f v).boot = s.boot := rfl
@[simp] theorem State.putB_jtag (s : State) (a : Nat) (f : Field) (v : Bool) : (s.putB a f v).jtag = s.jtag := rfl
@[simp] theorem State.putB_out (s : State) (a : Nat) (f : Field) (v : Bool) : (s.putB a f v).out = s.out := rfl
@[simp] theorem State.putB_fresh (s : State) (a : Nat) (f : Field) (v : Bool) : (s.putB a f v).fresh = s.fresh := rfl
@[simp] theorem State.putB_pending (s : State) (a : Nat) (f : Field) (v : Bool) : (s.putB a f v).pending = s.pending := rfl

/-! ### `State.raise` -/

@[simp] theorem State.raise_latches (s : State) (a : Nat) (f : Field) : (s.raise a f).latches = s.latches := rfl
@[simp] theorem State.raise_lows (s : State) (a : Nat) (f : Field) : (s.raise a f).lows = s.lows := rfl
@[simp] theorem State.raise_now (s : State) (a : Nat) (f : Field) : (s.raise a f).now = s.now := rfl
@[simp] theorem State.raise_power (s : State) (a : Nat) (f : Field) : (s.raise a f).power = s.power := rfl
@[simp] theorem State.raise_energy (s : State) (a : Nat) (f : Field) : (s.raise a f).energy = s.energy := rfl
@[simp] theorem State.raise_ports (s : State) (a : Nat) (f : Field) : (s.raise a f).ports = s.ports := rfl
@[simp] theorem State.raise_stations (s : State) (a : Nat) (f : Field) : (s.raise a f).stations = s.stations := rfl
@[simp] theorem State.raise_xbr (s : State) (a : Nat) (f : Field) : (s.raise a f).xbr = s.xbr := rfl
@[simp] theorem State.raise_seq (s : State) (a : Nat) (f : Field) : (s.raise a f).seq = s.seq := rfl
@[simp] theorem State.raise_coop (s : State) (a : Nat) (f : Field) : (s.raise a f).coop = s.coop := rfl
@[simp] theorem State.raise_poolDrain (s : State) (a : Nat) (f : Field) : (s.raise a f).poolDrain = s.poolDrain := rfl
@[simp] theorem State.raise_routes (s : State) (a : Nat) (f : Field) : (s.raise a f).routes = s.routes := rfl
@[simp] theorem State.raise_routeBad (s : State) (a : Nat) (f : Field) : (s.raise a f).routeBad = s.routeBad := rfl
@[simp] theorem State.raise_groups (s : State) (a : Nat) (f : Field) : (s.raise a f).groups = s.groups := rfl
@[simp] theorem State.raise_ftm (s : State) (a : Nat) (f : Field) : (s.raise a f).ftm = s.ftm := rfl
@[simp] theorem State.raise_hk (s : State) (a : Nat) (f : Field) : (s.raise a f).hk = s.hk := rfl
@[simp] theorem State.raise_hkStore (s : State) (a : Nat) (f : Field) : (s.raise a f).hkStore = s.hkStore := rfl
@[simp] theorem State.raise_ucs (s : State) (a : Nat) (f : Field) : (s.raise a f).ucs = s.ucs := rfl
@[simp] theorem State.raise_varve (s : State) (a : Nat) (f : Field) : (s.raise a f).varve = s.varve := rfl
@[simp] theorem State.raise_hif (s : State) (a : Nat) (f : Field) : (s.raise a f).hif = s.hif := rfl
@[simp] theorem State.raise_irq (s : State) (a : Nat) (f : Field) : (s.raise a f).irq = s.irq := rfl
@[simp] theorem State.raise_mem (s : State) (a : Nat) (f : Field) : (s.raise a f).mem = s.mem := rfl
@[simp] theorem State.raise_hbm (s : State) (a : Nat) (f : Field) : (s.raise a f).hbm = s.hbm := rfl
@[simp] theorem State.raise_tally (s : State) (a : Nat) (f : Field) : (s.raise a f).tally = s.tally := rfl
@[simp] theorem State.raise_tinker (s : State) (a : Nat) (f : Field) : (s.raise a f).tinker = s.tinker := rfl
@[simp] theorem State.raise_mate (s : State) (a : Nat) (f : Field) : (s.raise a f).mate = s.mate := rfl
@[simp] theorem State.raise_boot (s : State) (a : Nat) (f : Field) : (s.raise a f).boot = s.boot := rfl
@[simp] theorem State.raise_jtag (s : State) (a : Nat) (f : Field) : (s.raise a f).jtag = s.jtag := rfl
@[simp] theorem State.raise_out (s : State) (a : Nat) (f : Field) : (s.raise a f).out = s.out := rfl
@[simp] theorem State.raise_fresh (s : State) (a : Nat) (f : Field) : (s.raise a f).fresh = s.fresh := rfl
@[simp] theorem State.raise_pending (s : State) (a : Nat) (f : Field) : (s.raise a f).pending = s.pending := rfl

/-! ### `State.emit` -/

@[simp] theorem State.emit_regs (s : State) (o : Output) : (s.emit o).regs = s.regs := rfl
@[simp] theorem State.emit_latches (s : State) (o : Output) : (s.emit o).latches = s.latches := rfl
@[simp] theorem State.emit_lows (s : State) (o : Output) : (s.emit o).lows = s.lows := rfl
@[simp] theorem State.emit_now (s : State) (o : Output) : (s.emit o).now = s.now := rfl
@[simp] theorem State.emit_power (s : State) (o : Output) : (s.emit o).power = s.power := rfl
@[simp] theorem State.emit_energy (s : State) (o : Output) : (s.emit o).energy = s.energy := rfl
@[simp] theorem State.emit_ports (s : State) (o : Output) : (s.emit o).ports = s.ports := rfl
@[simp] theorem State.emit_stations (s : State) (o : Output) : (s.emit o).stations = s.stations := rfl
@[simp] theorem State.emit_xbr (s : State) (o : Output) : (s.emit o).xbr = s.xbr := rfl
@[simp] theorem State.emit_seq (s : State) (o : Output) : (s.emit o).seq = s.seq := rfl
@[simp] theorem State.emit_coop (s : State) (o : Output) : (s.emit o).coop = s.coop := rfl
@[simp] theorem State.emit_poolDrain (s : State) (o : Output) : (s.emit o).poolDrain = s.poolDrain := rfl
@[simp] theorem State.emit_routes (s : State) (o : Output) : (s.emit o).routes = s.routes := rfl
@[simp] theorem State.emit_routeBad (s : State) (o : Output) : (s.emit o).routeBad = s.routeBad := rfl
@[simp] theorem State.emit_groups (s : State) (o : Output) : (s.emit o).groups = s.groups := rfl
@[simp] theorem State.emit_ftm (s : State) (o : Output) : (s.emit o).ftm = s.ftm := rfl
@[simp] theorem State.emit_hk (s : State) (o : Output) : (s.emit o).hk = s.hk := rfl
@[simp] theorem State.emit_hkStore (s : State) (o : Output) : (s.emit o).hkStore = s.hkStore := rfl
@[simp] theorem State.emit_ucs (s : State) (o : Output) : (s.emit o).ucs = s.ucs := rfl
@[simp] theorem State.emit_varve (s : State) (o : Output) : (s.emit o).varve = s.varve := rfl
@[simp] theorem State.emit_hif (s : State) (o : Output) : (s.emit o).hif = s.hif := rfl
@[simp] theorem State.emit_irq (s : State) (o : Output) : (s.emit o).irq = s.irq := rfl
@[simp] theorem State.emit_mem (s : State) (o : Output) : (s.emit o).mem = s.mem := rfl
@[simp] theorem State.emit_hbm (s : State) (o : Output) : (s.emit o).hbm = s.hbm := rfl
@[simp] theorem State.emit_tally (s : State) (o : Output) : (s.emit o).tally = s.tally := rfl
@[simp] theorem State.emit_tinker (s : State) (o : Output) : (s.emit o).tinker = s.tinker := rfl
@[simp] theorem State.emit_mate (s : State) (o : Output) : (s.emit o).mate = s.mate := rfl
@[simp] theorem State.emit_boot (s : State) (o : Output) : (s.emit o).boot = s.boot := rfl
@[simp] theorem State.emit_jtag (s : State) (o : Output) : (s.emit o).jtag = s.jtag := rfl
@[simp] theorem State.emit_fresh (s : State) (o : Output) : (s.emit o).fresh = s.fresh := rfl
@[simp] theorem State.emit_pending (s : State) (o : Output) : (s.emit o).pending = s.pending := rfl

/-! ### `State.mwr` -/

@[simp] theorem State.mwr_regs (s : State) (a : Nat) (bs : List Byte) : (s.mwr a bs).regs = s.regs := rfl
@[simp] theorem State.mwr_latches (s : State) (a : Nat) (bs : List Byte) : (s.mwr a bs).latches = s.latches := rfl
@[simp] theorem State.mwr_lows (s : State) (a : Nat) (bs : List Byte) : (s.mwr a bs).lows = s.lows := rfl
@[simp] theorem State.mwr_now (s : State) (a : Nat) (bs : List Byte) : (s.mwr a bs).now = s.now := rfl
@[simp] theorem State.mwr_power (s : State) (a : Nat) (bs : List Byte) : (s.mwr a bs).power = s.power := rfl
@[simp] theorem State.mwr_energy (s : State) (a : Nat) (bs : List Byte) : (s.mwr a bs).energy = s.energy := rfl
@[simp] theorem State.mwr_ports (s : State) (a : Nat) (bs : List Byte) : (s.mwr a bs).ports = s.ports := rfl
@[simp] theorem State.mwr_stations (s : State) (a : Nat) (bs : List Byte) : (s.mwr a bs).stations = s.stations := rfl
@[simp] theorem State.mwr_xbr (s : State) (a : Nat) (bs : List Byte) : (s.mwr a bs).xbr = s.xbr := rfl
@[simp] theorem State.mwr_seq (s : State) (a : Nat) (bs : List Byte) : (s.mwr a bs).seq = s.seq := rfl
@[simp] theorem State.mwr_coop (s : State) (a : Nat) (bs : List Byte) : (s.mwr a bs).coop = s.coop := rfl
@[simp] theorem State.mwr_poolDrain (s : State) (a : Nat) (bs : List Byte) : (s.mwr a bs).poolDrain = s.poolDrain := rfl
@[simp] theorem State.mwr_routes (s : State) (a : Nat) (bs : List Byte) : (s.mwr a bs).routes = s.routes := rfl
@[simp] theorem State.mwr_routeBad (s : State) (a : Nat) (bs : List Byte) : (s.mwr a bs).routeBad = s.routeBad := rfl
@[simp] theorem State.mwr_groups (s : State) (a : Nat) (bs : List Byte) : (s.mwr a bs).groups = s.groups := rfl
@[simp] theorem State.mwr_ftm (s : State) (a : Nat) (bs : List Byte) : (s.mwr a bs).ftm = s.ftm := rfl
@[simp] theorem State.mwr_hk (s : State) (a : Nat) (bs : List Byte) : (s.mwr a bs).hk = s.hk := rfl
@[simp] theorem State.mwr_hkStore (s : State) (a : Nat) (bs : List Byte) : (s.mwr a bs).hkStore = s.hkStore := rfl
@[simp] theorem State.mwr_ucs (s : State) (a : Nat) (bs : List Byte) : (s.mwr a bs).ucs = s.ucs := rfl
@[simp] theorem State.mwr_varve (s : State) (a : Nat) (bs : List Byte) : (s.mwr a bs).varve = s.varve := rfl
@[simp] theorem State.mwr_hif (s : State) (a : Nat) (bs : List Byte) : (s.mwr a bs).hif = s.hif := rfl
@[simp] theorem State.mwr_irq (s : State) (a : Nat) (bs : List Byte) : (s.mwr a bs).irq = s.irq := rfl
@[simp] theorem State.mwr_hbm (s : State) (a : Nat) (bs : List Byte) : (s.mwr a bs).hbm = s.hbm := rfl
@[simp] theorem State.mwr_tally (s : State) (a : Nat) (bs : List Byte) : (s.mwr a bs).tally = s.tally := rfl
@[simp] theorem State.mwr_tinker (s : State) (a : Nat) (bs : List Byte) : (s.mwr a bs).tinker = s.tinker := rfl
@[simp] theorem State.mwr_mate (s : State) (a : Nat) (bs : List Byte) : (s.mwr a bs).mate = s.mate := rfl
@[simp] theorem State.mwr_boot (s : State) (a : Nat) (bs : List Byte) : (s.mwr a bs).boot = s.boot := rfl
@[simp] theorem State.mwr_jtag (s : State) (a : Nat) (bs : List Byte) : (s.mwr a bs).jtag = s.jtag := rfl
@[simp] theorem State.mwr_out (s : State) (a : Nat) (bs : List Byte) : (s.mwr a bs).out = s.out := rfl
@[simp] theorem State.mwr_fresh (s : State) (a : Nat) (bs : List Byte) : (s.mwr a bs).fresh = s.fresh := rfl
@[simp] theorem State.mwr_pending (s : State) (a : Nat) (bs : List Byte) : (s.mwr a bs).pending = s.pending := rfl

/-! ### `State.modStn` -/

@[simp] theorem State.modStn_regs (s : State) (st : Nat) (f : Stn → Stn) : (s.modStn st f).regs = s.regs := rfl
@[simp] theorem State.modStn_latches (s : State) (st : Nat) (f : Stn → Stn) : (s.modStn st f).latches = s.latches := rfl
@[simp] theorem State.modStn_lows (s : State) (st : Nat) (f : Stn → Stn) : (s.modStn st f).lows = s.lows := rfl
@[simp] theorem State.modStn_now (s : State) (st : Nat) (f : Stn → Stn) : (s.modStn st f).now = s.now := rfl
@[simp] theorem State.modStn_power (s : State) (st : Nat) (f : Stn → Stn) : (s.modStn st f).power = s.power := rfl
@[simp] theorem State.modStn_energy (s : State) (st : Nat) (f : Stn → Stn) : (s.modStn st f).energy = s.energy := rfl
@[simp] theorem State.modStn_ports (s : State) (st : Nat) (f : Stn → Stn) : (s.modStn st f).ports = s.ports := rfl
@[simp] theorem State.modStn_xbr (s : State) (st : Nat) (f : Stn → Stn) : (s.modStn st f).xbr = s.xbr := rfl
@[simp] theorem State.modStn_seq (s : State) (st : Nat) (f : Stn → Stn) : (s.modStn st f).seq = s.seq := rfl
@[simp] theorem State.modStn_coop (s : State) (st : Nat) (f : Stn → Stn) : (s.modStn st f).coop = s.coop := rfl
@[simp] theorem State.modStn_poolDrain (s : State) (st : Nat) (f : Stn → Stn) : (s.modStn st f).poolDrain = s.poolDrain := rfl
@[simp] theorem State.modStn_routes (s : State) (st : Nat) (f : Stn → Stn) : (s.modStn st f).routes = s.routes := rfl
@[simp] theorem State.modStn_routeBad (s : State) (st : Nat) (f : Stn → Stn) : (s.modStn st f).routeBad = s.routeBad := rfl
@[simp] theorem State.modStn_groups (s : State) (st : Nat) (f : Stn → Stn) : (s.modStn st f).groups = s.groups := rfl
@[simp] theorem State.modStn_ftm (s : State) (st : Nat) (f : Stn → Stn) : (s.modStn st f).ftm = s.ftm := rfl
@[simp] theorem State.modStn_hk (s : State) (st : Nat) (f : Stn → Stn) : (s.modStn st f).hk = s.hk := rfl
@[simp] theorem State.modStn_hkStore (s : State) (st : Nat) (f : Stn → Stn) : (s.modStn st f).hkStore = s.hkStore := rfl
@[simp] theorem State.modStn_ucs (s : State) (st : Nat) (f : Stn → Stn) : (s.modStn st f).ucs = s.ucs := rfl
@[simp] theorem State.modStn_varve (s : State) (st : Nat) (f : Stn → Stn) : (s.modStn st f).varve = s.varve := rfl
@[simp] theorem State.modStn_hif (s : State) (st : Nat) (f : Stn → Stn) : (s.modStn st f).hif = s.hif := rfl
@[simp] theorem State.modStn_irq (s : State) (st : Nat) (f : Stn → Stn) : (s.modStn st f).irq = s.irq := rfl
@[simp] theorem State.modStn_mem (s : State) (st : Nat) (f : Stn → Stn) : (s.modStn st f).mem = s.mem := rfl
@[simp] theorem State.modStn_hbm (s : State) (st : Nat) (f : Stn → Stn) : (s.modStn st f).hbm = s.hbm := rfl
@[simp] theorem State.modStn_tally (s : State) (st : Nat) (f : Stn → Stn) : (s.modStn st f).tally = s.tally := rfl
@[simp] theorem State.modStn_tinker (s : State) (st : Nat) (f : Stn → Stn) : (s.modStn st f).tinker = s.tinker := rfl
@[simp] theorem State.modStn_mate (s : State) (st : Nat) (f : Stn → Stn) : (s.modStn st f).mate = s.mate := rfl
@[simp] theorem State.modStn_boot (s : State) (st : Nat) (f : Stn → Stn) : (s.modStn st f).boot = s.boot := rfl
@[simp] theorem State.modStn_jtag (s : State) (st : Nat) (f : Stn → Stn) : (s.modStn st f).jtag = s.jtag := rfl
@[simp] theorem State.modStn_out (s : State) (st : Nat) (f : Stn → Stn) : (s.modStn st f).out = s.out := rfl
@[simp] theorem State.modStn_fresh (s : State) (st : Nat) (f : Stn → Stn) : (s.modStn st f).fresh = s.fresh := rfl
@[simp] theorem State.modStn_pending (s : State) (st : Nat) (f : Stn → Stn) : (s.modStn st f).pending = s.pending := rfl

/-! ### `State.modPort` -/

@[simp] theorem State.modPort_regs (s : State) (p : Nat) (f : PortSt → PortSt) : (s.modPort p f).regs = s.regs := rfl
@[simp] theorem State.modPort_latches (s : State) (p : Nat) (f : PortSt → PortSt) : (s.modPort p f).latches = s.latches := rfl
@[simp] theorem State.modPort_lows (s : State) (p : Nat) (f : PortSt → PortSt) : (s.modPort p f).lows = s.lows := rfl
@[simp] theorem State.modPort_now (s : State) (p : Nat) (f : PortSt → PortSt) : (s.modPort p f).now = s.now := rfl
@[simp] theorem State.modPort_power (s : State) (p : Nat) (f : PortSt → PortSt) : (s.modPort p f).power = s.power := rfl
@[simp] theorem State.modPort_energy (s : State) (p : Nat) (f : PortSt → PortSt) : (s.modPort p f).energy = s.energy := rfl
@[simp] theorem State.modPort_stations (s : State) (p : Nat) (f : PortSt → PortSt) : (s.modPort p f).stations = s.stations := rfl
@[simp] theorem State.modPort_xbr (s : State) (p : Nat) (f : PortSt → PortSt) : (s.modPort p f).xbr = s.xbr := rfl
@[simp] theorem State.modPort_seq (s : State) (p : Nat) (f : PortSt → PortSt) : (s.modPort p f).seq = s.seq := rfl
@[simp] theorem State.modPort_coop (s : State) (p : Nat) (f : PortSt → PortSt) : (s.modPort p f).coop = s.coop := rfl
@[simp] theorem State.modPort_poolDrain (s : State) (p : Nat) (f : PortSt → PortSt) : (s.modPort p f).poolDrain = s.poolDrain := rfl
@[simp] theorem State.modPort_routes (s : State) (p : Nat) (f : PortSt → PortSt) : (s.modPort p f).routes = s.routes := rfl
@[simp] theorem State.modPort_routeBad (s : State) (p : Nat) (f : PortSt → PortSt) : (s.modPort p f).routeBad = s.routeBad := rfl
@[simp] theorem State.modPort_groups (s : State) (p : Nat) (f : PortSt → PortSt) : (s.modPort p f).groups = s.groups := rfl
@[simp] theorem State.modPort_ftm (s : State) (p : Nat) (f : PortSt → PortSt) : (s.modPort p f).ftm = s.ftm := rfl
@[simp] theorem State.modPort_hk (s : State) (p : Nat) (f : PortSt → PortSt) : (s.modPort p f).hk = s.hk := rfl
@[simp] theorem State.modPort_hkStore (s : State) (p : Nat) (f : PortSt → PortSt) : (s.modPort p f).hkStore = s.hkStore := rfl
@[simp] theorem State.modPort_ucs (s : State) (p : Nat) (f : PortSt → PortSt) : (s.modPort p f).ucs = s.ucs := rfl
@[simp] theorem State.modPort_varve (s : State) (p : Nat) (f : PortSt → PortSt) : (s.modPort p f).varve = s.varve := rfl
@[simp] theorem State.modPort_hif (s : State) (p : Nat) (f : PortSt → PortSt) : (s.modPort p f).hif = s.hif := rfl
@[simp] theorem State.modPort_irq (s : State) (p : Nat) (f : PortSt → PortSt) : (s.modPort p f).irq = s.irq := rfl
@[simp] theorem State.modPort_mem (s : State) (p : Nat) (f : PortSt → PortSt) : (s.modPort p f).mem = s.mem := rfl
@[simp] theorem State.modPort_hbm (s : State) (p : Nat) (f : PortSt → PortSt) : (s.modPort p f).hbm = s.hbm := rfl
@[simp] theorem State.modPort_tally (s : State) (p : Nat) (f : PortSt → PortSt) : (s.modPort p f).tally = s.tally := rfl
@[simp] theorem State.modPort_tinker (s : State) (p : Nat) (f : PortSt → PortSt) : (s.modPort p f).tinker = s.tinker := rfl
@[simp] theorem State.modPort_mate (s : State) (p : Nat) (f : PortSt → PortSt) : (s.modPort p f).mate = s.mate := rfl
@[simp] theorem State.modPort_boot (s : State) (p : Nat) (f : PortSt → PortSt) : (s.modPort p f).boot = s.boot := rfl
@[simp] theorem State.modPort_jtag (s : State) (p : Nat) (f : PortSt → PortSt) : (s.modPort p f).jtag = s.jtag := rfl
@[simp] theorem State.modPort_out (s : State) (p : Nat) (f : PortSt → PortSt) : (s.modPort p f).out = s.out := rfl
@[simp] theorem State.modPort_fresh (s : State) (p : Nat) (f : PortSt → PortSt) : (s.modPort p f).fresh = s.fresh := rfl
@[simp] theorem State.modPort_pending (s : State) (p : Nat) (f : PortSt → PortSt) : (s.modPort p f).pending = s.pending := rfl

/-! ### `State.modFtm` -/

@[simp] theorem State.modFtm_regs (s : State) (f : Ftm → Ftm) : (s.modFtm f).regs = s.regs := rfl
@[simp] theorem State.modFtm_latches (s : State) (f : Ftm → Ftm) : (s.modFtm f).latches = s.latches := rfl
@[simp] theorem State.modFtm_lows (s : State) (f : Ftm → Ftm) : (s.modFtm f).lows = s.lows := rfl
@[simp] theorem State.modFtm_now (s : State) (f : Ftm → Ftm) : (s.modFtm f).now = s.now := rfl
@[simp] theorem State.modFtm_power (s : State) (f : Ftm → Ftm) : (s.modFtm f).power = s.power := rfl
@[simp] theorem State.modFtm_energy (s : State) (f : Ftm → Ftm) : (s.modFtm f).energy = s.energy := rfl
@[simp] theorem State.modFtm_ports (s : State) (f : Ftm → Ftm) : (s.modFtm f).ports = s.ports := rfl
@[simp] theorem State.modFtm_stations (s : State) (f : Ftm → Ftm) : (s.modFtm f).stations = s.stations := rfl
@[simp] theorem State.modFtm_xbr (s : State) (f : Ftm → Ftm) : (s.modFtm f).xbr = s.xbr := rfl
@[simp] theorem State.modFtm_seq (s : State) (f : Ftm → Ftm) : (s.modFtm f).seq = s.seq := rfl
@[simp] theorem State.modFtm_coop (s : State) (f : Ftm → Ftm) : (s.modFtm f).coop = s.coop := rfl
@[simp] theorem State.modFtm_poolDrain (s : State) (f : Ftm → Ftm) : (s.modFtm f).poolDrain = s.poolDrain := rfl
@[simp] theorem State.modFtm_routes (s : State) (f : Ftm → Ftm) : (s.modFtm f).routes = s.routes := rfl
@[simp] theorem State.modFtm_routeBad (s : State) (f : Ftm → Ftm) : (s.modFtm f).routeBad = s.routeBad := rfl
@[simp] theorem State.modFtm_groups (s : State) (f : Ftm → Ftm) : (s.modFtm f).groups = s.groups := rfl
@[simp] theorem State.modFtm_hk (s : State) (f : Ftm → Ftm) : (s.modFtm f).hk = s.hk := rfl
@[simp] theorem State.modFtm_hkStore (s : State) (f : Ftm → Ftm) : (s.modFtm f).hkStore = s.hkStore := rfl
@[simp] theorem State.modFtm_ucs (s : State) (f : Ftm → Ftm) : (s.modFtm f).ucs = s.ucs := rfl
@[simp] theorem State.modFtm_varve (s : State) (f : Ftm → Ftm) : (s.modFtm f).varve = s.varve := rfl
@[simp] theorem State.modFtm_hif (s : State) (f : Ftm → Ftm) : (s.modFtm f).hif = s.hif := rfl
@[simp] theorem State.modFtm_irq (s : State) (f : Ftm → Ftm) : (s.modFtm f).irq = s.irq := rfl
@[simp] theorem State.modFtm_mem (s : State) (f : Ftm → Ftm) : (s.modFtm f).mem = s.mem := rfl
@[simp] theorem State.modFtm_hbm (s : State) (f : Ftm → Ftm) : (s.modFtm f).hbm = s.hbm := rfl
@[simp] theorem State.modFtm_tally (s : State) (f : Ftm → Ftm) : (s.modFtm f).tally = s.tally := rfl
@[simp] theorem State.modFtm_tinker (s : State) (f : Ftm → Ftm) : (s.modFtm f).tinker = s.tinker := rfl
@[simp] theorem State.modFtm_mate (s : State) (f : Ftm → Ftm) : (s.modFtm f).mate = s.mate := rfl
@[simp] theorem State.modFtm_boot (s : State) (f : Ftm → Ftm) : (s.modFtm f).boot = s.boot := rfl
@[simp] theorem State.modFtm_jtag (s : State) (f : Ftm → Ftm) : (s.modFtm f).jtag = s.jtag := rfl
@[simp] theorem State.modFtm_out (s : State) (f : Ftm → Ftm) : (s.modFtm f).out = s.out := rfl
@[simp] theorem State.modFtm_fresh (s : State) (f : Ftm → Ftm) : (s.modFtm f).fresh = s.fresh := rfl
@[simp] theorem State.modFtm_pending (s : State) (f : Ftm → Ftm) : (s.modFtm f).pending = s.pending := rfl

/-! ### `State.cnt` -/

@[simp] theorem State.cnt_latches (s : State) (a n : Nat) : (s.cnt a n).latches = s.latches := by unfold State.cnt; split <;> rfl
@[simp] theorem State.cnt_lows (s : State) (a n : Nat) : (s.cnt a n).lows = s.lows := by unfold State.cnt; split <;> rfl
@[simp] theorem State.cnt_now (s : State) (a n : Nat) : (s.cnt a n).now = s.now := by unfold State.cnt; split <;> rfl
@[simp] theorem State.cnt_power (s : State) (a n : Nat) : (s.cnt a n).power = s.power := by unfold State.cnt; split <;> rfl
@[simp] theorem State.cnt_energy (s : State) (a n : Nat) : (s.cnt a n).energy = s.energy := by unfold State.cnt; split <;> rfl
@[simp] theorem State.cnt_ports (s : State) (a n : Nat) : (s.cnt a n).ports = s.ports := by unfold State.cnt; split <;> rfl
@[simp] theorem State.cnt_stations (s : State) (a n : Nat) : (s.cnt a n).stations = s.stations := by unfold State.cnt; split <;> rfl
@[simp] theorem State.cnt_xbr (s : State) (a n : Nat) : (s.cnt a n).xbr = s.xbr := by unfold State.cnt; split <;> rfl
@[simp] theorem State.cnt_seq (s : State) (a n : Nat) : (s.cnt a n).seq = s.seq := by unfold State.cnt; split <;> rfl
@[simp] theorem State.cnt_coop (s : State) (a n : Nat) : (s.cnt a n).coop = s.coop := by unfold State.cnt; split <;> rfl
@[simp] theorem State.cnt_poolDrain (s : State) (a n : Nat) : (s.cnt a n).poolDrain = s.poolDrain := by unfold State.cnt; split <;> rfl
@[simp] theorem State.cnt_routes (s : State) (a n : Nat) : (s.cnt a n).routes = s.routes := by unfold State.cnt; split <;> rfl
@[simp] theorem State.cnt_routeBad (s : State) (a n : Nat) : (s.cnt a n).routeBad = s.routeBad := by unfold State.cnt; split <;> rfl
@[simp] theorem State.cnt_groups (s : State) (a n : Nat) : (s.cnt a n).groups = s.groups := by unfold State.cnt; split <;> rfl
@[simp] theorem State.cnt_ftm (s : State) (a n : Nat) : (s.cnt a n).ftm = s.ftm := by unfold State.cnt; split <;> rfl
@[simp] theorem State.cnt_hk (s : State) (a n : Nat) : (s.cnt a n).hk = s.hk := by unfold State.cnt; split <;> rfl
@[simp] theorem State.cnt_hkStore (s : State) (a n : Nat) : (s.cnt a n).hkStore = s.hkStore := by unfold State.cnt; split <;> rfl
@[simp] theorem State.cnt_ucs (s : State) (a n : Nat) : (s.cnt a n).ucs = s.ucs := by unfold State.cnt; split <;> rfl
@[simp] theorem State.cnt_varve (s : State) (a n : Nat) : (s.cnt a n).varve = s.varve := by unfold State.cnt; split <;> rfl
@[simp] theorem State.cnt_hif (s : State) (a n : Nat) : (s.cnt a n).hif = s.hif := by unfold State.cnt; split <;> rfl
@[simp] theorem State.cnt_irq (s : State) (a n : Nat) : (s.cnt a n).irq = s.irq := by unfold State.cnt; split <;> rfl
@[simp] theorem State.cnt_mem (s : State) (a n : Nat) : (s.cnt a n).mem = s.mem := by unfold State.cnt; split <;> rfl
@[simp] theorem State.cnt_hbm (s : State) (a n : Nat) : (s.cnt a n).hbm = s.hbm := by unfold State.cnt; split <;> rfl
@[simp] theorem State.cnt_tally (s : State) (a n : Nat) : (s.cnt a n).tally = s.tally := by unfold State.cnt; split <;> rfl
@[simp] theorem State.cnt_tinker (s : State) (a n : Nat) : (s.cnt a n).tinker = s.tinker := by unfold State.cnt; split <;> rfl
@[simp] theorem State.cnt_mate (s : State) (a n : Nat) : (s.cnt a n).mate = s.mate := by unfold State.cnt; split <;> rfl
@[simp] theorem State.cnt_boot (s : State) (a n : Nat) : (s.cnt a n).boot = s.boot := by unfold State.cnt; split <;> rfl
@[simp] theorem State.cnt_jtag (s : State) (a n : Nat) : (s.cnt a n).jtag = s.jtag := by unfold State.cnt; split <;> rfl
@[simp] theorem State.cnt_out (s : State) (a n : Nat) : (s.cnt a n).out = s.out := by unfold State.cnt; split <;> rfl
@[simp] theorem State.cnt_fresh (s : State) (a n : Nat) : (s.cnt a n).fresh = s.fresh := by unfold State.cnt; split <;> rfl
@[simp] theorem State.cnt_pending (s : State) (a n : Nat) : (s.cnt a n).pending = s.pending := by unfold State.cnt; split <;> rfl

/-! ### `State.tick` -/

@[simp] theorem State.tick_latches (s : State) (a : Nat) : (s.tick a).latches = s.latches := State.cnt_latches s a 1
@[simp] theorem State.tick_lows (s : State) (a : Nat) : (s.tick a).lows = s.lows := State.cnt_lows s a 1
@[simp] theorem State.tick_now (s : State) (a : Nat) : (s.tick a).now = s.now := State.cnt_now s a 1
@[simp] theorem State.tick_power (s : State) (a : Nat) : (s.tick a).power = s.power := State.cnt_power s a 1
@[simp] theorem State.tick_energy (s : State) (a : Nat) : (s.tick a).energy = s.energy := State.cnt_energy s a 1
@[simp] theorem State.tick_ports (s : State) (a : Nat) : (s.tick a).ports = s.ports := State.cnt_ports s a 1
@[simp] theorem State.tick_stations (s : State) (a : Nat) : (s.tick a).stations = s.stations := State.cnt_stations s a 1
@[simp] theorem State.tick_xbr (s : State) (a : Nat) : (s.tick a).xbr = s.xbr := State.cnt_xbr s a 1
@[simp] theorem State.tick_seq (s : State) (a : Nat) : (s.tick a).seq = s.seq := State.cnt_seq s a 1
@[simp] theorem State.tick_coop (s : State) (a : Nat) : (s.tick a).coop = s.coop := State.cnt_coop s a 1
@[simp] theorem State.tick_poolDrain (s : State) (a : Nat) : (s.tick a).poolDrain = s.poolDrain := State.cnt_poolDrain s a 1
@[simp] theorem State.tick_routes (s : State) (a : Nat) : (s.tick a).routes = s.routes := State.cnt_routes s a 1
@[simp] theorem State.tick_routeBad (s : State) (a : Nat) : (s.tick a).routeBad = s.routeBad := State.cnt_routeBad s a 1
@[simp] theorem State.tick_groups (s : State) (a : Nat) : (s.tick a).groups = s.groups := State.cnt_groups s a 1
@[simp] theorem State.tick_ftm (s : State) (a : Nat) : (s.tick a).ftm = s.ftm := State.cnt_ftm s a 1
@[simp] theorem State.tick_hk (s : State) (a : Nat) : (s.tick a).hk = s.hk := State.cnt_hk s a 1
@[simp] theorem State.tick_hkStore (s : State) (a : Nat) : (s.tick a).hkStore = s.hkStore := State.cnt_hkStore s a 1
@[simp] theorem State.tick_ucs (s : State) (a : Nat) : (s.tick a).ucs = s.ucs := State.cnt_ucs s a 1
@[simp] theorem State.tick_varve (s : State) (a : Nat) : (s.tick a).varve = s.varve := State.cnt_varve s a 1
@[simp] theorem State.tick_hif (s : State) (a : Nat) : (s.tick a).hif = s.hif := State.cnt_hif s a 1
@[simp] theorem State.tick_irq (s : State) (a : Nat) : (s.tick a).irq = s.irq := State.cnt_irq s a 1
@[simp] theorem State.tick_mem (s : State) (a : Nat) : (s.tick a).mem = s.mem := State.cnt_mem s a 1
@[simp] theorem State.tick_hbm (s : State) (a : Nat) : (s.tick a).hbm = s.hbm := State.cnt_hbm s a 1
@[simp] theorem State.tick_tally (s : State) (a : Nat) : (s.tick a).tally = s.tally := State.cnt_tally s a 1
@[simp] theorem State.tick_tinker (s : State) (a : Nat) : (s.tick a).tinker = s.tinker := State.cnt_tinker s a 1
@[simp] theorem State.tick_mate (s : State) (a : Nat) : (s.tick a).mate = s.mate := State.cnt_mate s a 1
@[simp] theorem State.tick_boot (s : State) (a : Nat) : (s.tick a).boot = s.boot := State.cnt_boot s a 1
@[simp] theorem State.tick_jtag (s : State) (a : Nat) : (s.tick a).jtag = s.jtag := State.cnt_jtag s a 1
@[simp] theorem State.tick_out (s : State) (a : Nat) : (s.tick a).out = s.out := State.cnt_out s a 1
@[simp] theorem State.tick_fresh (s : State) (a : Nat) : (s.tick a).fresh = s.fresh := State.cnt_fresh s a 1
@[simp] theorem State.tick_pending (s : State) (a : Nat) : (s.tick a).pending = s.pending := State.cnt_pending s a 1

/-! ### Registers are untouched by what is not one -/

@[simp] theorem State.rd_emit (s : State) (o : Output) (a : Nat) : (s.emit o).rd a = s.rd a := rfl
@[simp] theorem State.rd_mwr (s : State) (b : Nat) (bs : List Byte) (a : Nat) : (s.mwr b bs).rd a = s.rd a := rfl
@[simp] theorem State.rd_modStn (s : State) (st : Nat) (f : Stn → Stn) (a : Nat) : (s.modStn st f).rd a = s.rd a := rfl
@[simp] theorem State.rd_modPort (s : State) (p : Nat) (f : PortSt → PortSt) (a : Nat) :
    (s.modPort p f).rd a = s.rd a := rfl
@[simp] theorem State.get_emit (s : State) (o : Output) (a : Nat) (f : Field) : (s.emit o).get a f = s.get a f := rfl
@[simp] theorem State.get_mwr (s : State) (b : Nat) (bs : List Byte) (a : Nat) (f : Field) :
    (s.mwr b bs).get a f = s.get a f := rfl
@[simp] theorem State.get_modStn (s : State) (st : Nat) (g : Stn → Stn) (a : Nat) (f : Field) :
    (s.modStn st g).get a f = s.get a f := rfl
@[simp] theorem State.get_modPort (s : State) (p : Nat) (g : PortSt → PortSt) (a : Nat) (f : Field) :
    (s.modPort p g).get a f = s.get a f := rfl

/-! ### Stations and ports -/

@[simp] theorem State.stn_modStn_same (s : State) (st : Nat) (f : Stn → Stn) : (s.modStn st f).stn st = f (s.stn st) := by
  simp [State.modStn, State.setStn, State.stn]

theorem State.stn_modStn_ne (s : State) {st k : Nat} (h : k ≠ st) (f : Stn → Stn) : (s.modStn st f).stn k = s.stn k := by
  simp [State.modStn, State.setStn, State.stn, aget_aset_ne _ h]

@[simp] theorem State.port_modPort_same (s : State) (p : Nat) (f : PortSt → PortSt) :
    (s.modPort p f).port p = f (s.port p) := by
  simp [State.modPort, State.setPort, State.port]

theorem State.port_modPort_ne (s : State) {p k : Nat} (h : k ≠ p) (f : PortSt → PortSt) :
    (s.modPort p f).port k = s.port k := by
  simp [State.modPort, State.setPort, State.port, aget_aset_ne _ h]

@[simp] theorem State.stn_wr (s : State) (a : Nat) (v : Word) (st : Nat) : (s.wr a v).stn st = s.stn st := rfl
@[simp] theorem State.stn_put (s : State) (a : Nat) (f : Field) (v st : Nat) : (s.put a f v).stn st = s.stn st := rfl
@[simp] theorem State.port_wr (s : State) (a : Nat) (v : Word) (p : Nat) : (s.wr a v).port p = s.port p := rfl
@[simp] theorem State.port_put (s : State) (a : Nat) (f : Field) (v p : Nat) : (s.put a f v).port p = s.port p := rfl
@[simp] theorem State.stn_emit (s : State) (o : Output) (st : Nat) : (s.emit o).stn st = s.stn st := rfl
@[simp] theorem State.port_emit (s : State) (o : Output) (p : Nat) : (s.emit o).port p = s.port p := rfl

/-! ### Fields -/

theorem Field.into_toNat (f : Field) (h : f.lo + f.w ≤ 32) (w : Word) (v : Nat) :
    (f.into w v).toNat = w.toNat - f.of w * 2 ^ f.lo + v % 2 ^ f.w * 2 ^ f.lo := by
  have hw : w.toNat < 2 ^ 32 := w.isLt
  obtain ⟨A, hA⟩ : ∃ A, A = 2 ^ f.lo := ⟨_, rfl⟩
  obtain ⟨B, hB⟩ : ∃ B, B = 2 ^ f.w := ⟨_, rfl⟩
  obtain ⟨C, hC⟩ : ∃ C, C = 2 ^ (32 - f.lo - f.w) := ⟨_, rfl⟩
  have h32 : A * B * C = 2 ^ 32 := by
    rw [hA, hB, hC, ← Nat.pow_add, ← Nat.pow_add]
    congr 1
    omega
  have hAp : 0 < A := by rw [hA]; exact Nat.two_pow_pos _
  have hBp : 0 < B := by rw [hB]; exact Nat.two_pow_pos _
  unfold Field.into Field.of
  rw [← hA, ← hB, BitVec.toNat_ofNat]
  apply Nat.mod_eq_of_lt
  have e1 : w.toNat / A = B * (w.toNat / A / B) + w.toNat / A % B := (Nat.div_add_mod _ _).symm
  have e2 : w.toNat = A * (w.toNat / A) + w.toNat % A := (Nat.div_add_mod _ _).symm
  have m1 : w.toNat % A < A := Nat.mod_lt _ hAp
  have m2 : v % B < B := Nat.mod_lt _ hBp
  have q : w.toNat / A / B < C := by
    rw [Nat.div_div_eq_div_mul]
    exact Nat.div_lt_of_lt_mul (by rw [h32]; exact hw)
  generalize w.toNat / A / B = Q at *
  generalize w.toNat / A % B = R at *
  generalize w.toNat % A = M at *
  generalize v % B = V at *
  rw [e1] at e2
  have : w.toNat - R * A = A * (B * Q) + M := by
    rw [e2]
    have : A * (B * Q + R) = A * (B * Q) + R * A := by ring
    omega
  rw [this]
  have k1 : A * (B * Q) + M + V * A < A * (B * Q) + A * B := by
    have : V * A + A ≤ A * B := by
      calc V * A + A = A * (V + 1) := by ring
        _ ≤ A * B := Nat.mul_le_mul_left _ m2
    omega
  have k2 : A * (B * Q) + A * B ≤ A * B * C := by
    calc A * (B * Q) + A * B = A * B * (Q + 1) := by ring
      _ ≤ A * B * C := Nat.mul_le_mul_left _ q
  omega

/-- A field that takes a value holds it, cut to its width. -/
theorem Field.of_into (f : Field) (h : f.lo + f.w ≤ 32) (w : Word) (v : Nat) : f.of (f.into w v) = v % 2 ^ f.w := by
  have e := f.into_toNat h w v
  unfold Field.of at *
  rw [e]
  obtain ⟨A, hA⟩ : ∃ A, A = 2 ^ f.lo := ⟨_, rfl⟩
  obtain ⟨B, hB⟩ : ∃ B, B = 2 ^ f.w := ⟨_, rfl⟩
  rw [← hA, ← hB]
  have hAp : 0 < A := by rw [hA]; exact Nat.two_pow_pos _
  have e1 : w.toNat / A = B * (w.toNat / A / B) + w.toNat / A % B := (Nat.div_add_mod _ _).symm
  have e2 : w.toNat = A * (w.toNat / A) + w.toNat % A := (Nat.div_add_mod _ _).symm
  have m1 : w.toNat % A < A := Nat.mod_lt _ hAp
  have m2 : v % B < B := Nat.mod_lt _ (by rw [hB]; exact Nat.two_pow_pos _)
  generalize w.toNat / A / B = Q at *
  generalize w.toNat / A % B = R at *
  generalize w.toNat % A = M at *
  generalize v % B = V at *
  rw [e1] at e2
  have : w.toNat - R * A + V * A = M + A * (V + B * Q) := by
    rw [e2]
    have : A * (B * Q + R) = A * (B * Q) + R * A := by ring
    have : A * (V + B * Q) = V * A + A * (B * Q) := by ring
    omega
  rw [this, Nat.add_mul_div_left _ _ hAp, Nat.div_eq_of_lt m1, Nat.zero_add, Nat.add_mul_mod_self_left,
    Nat.mod_eq_of_lt m2]

theorem State.get_eq (s : State) (a : Nat) (f : Field) : s.get a f = f.of (s.rd a) := rfl

/-- A field that a register takes reads back. -/
theorem State.get_put_same (s : State) (a : Nat) (f : Field) (h : f.lo + f.w ≤ 32) (v : Nat) :
    (s.put a f v).get a f = v % 2 ^ f.w := by
  rw [State.get_eq, State.put, State.rd_wr_same, f.of_into h]

theorem State.get_put_ne (s : State) {a b : Nat} (h : b ≠ a) (f g : Field) (v : Nat) :
    (s.put a f v).get b g = s.get b g := by
  rw [State.get_eq, State.get_eq, State.put, State.rd_wr_ne _ h]

theorem State.rd_put_ne (s : State) {a b : Nat} (h : b ≠ a) (f : Field) (v : Nat) : (s.put a f v).rd b = s.rd b :=
  State.rd_wr_ne s h _

/-! ### Counters -/

theorem State.rd_cnt_ne (s : State) {a b : Nat} (h : b ≠ a) (h4 : b ≠ a + 4) (n : Nat) : (s.cnt a n).rd b = s.rd b := by
  unfold State.cnt State.cntSet
  split
  · rfl
  · rw [State.rd_wr_ne _ h4, State.rd_wr_ne _ h]

/-- A counter that takes a value reads it back. -/
theorem State.cntGet_cntSet (s : State) (a v : Nat) : (s.cntSet a v).cntGet a = v % 2 ^ 48 := by
  unfold State.cntGet State.cntSet State.rdN
  dsimp only
  rw [State.rd_wr_same, State.rd_wr_ne _ (by omega), State.rd_wr_same]
  simp only [BitVec.toNat_ofNat]
  omega

/-- One more, modulo 2 to the 48th. -/
theorem State.cntGet_tick (s : State) (a : Nat) : (s.tick a).cntGet a = (s.cntGet a + 1) % 2 ^ 48 := by
  simp [State.tick, State.cnt, State.cntGet_cntSet]

/-! ### A command's effect -/

theorem act_held {s : State} (h : s.boot.held = true) (f : State → State) : act s f = .next s := by simp [act, h]

theorem act_running {s : State} (h : s.boot.held = false) (f : State → State) : act s f = .next (f s) := by simp [act, h]

end Sys2Proof.Machine
end

