-- ==== Sys2Proof/Laws/Rings.lean ====
section
/-! SUPPORT. What the ring operations do: rings read back, and a completion, an event or a DMA write changes registers,
the host interface and what has gone out alone. -/
namespace Sys2Proof.Machine

/-! ### Guilds and rings read back -/

@[simp] theorem State.guild_modGuild_same (s : State) (g : Nat) (f : GuildHost → GuildHost) :
    (s.modGuild g f).guild g = f (s.guild g) := by simp [State.modGuild, State.guild]

theorem State.guild_modGuild_ne (s : State) {g k : Nat} (h : k ≠ g) (f : GuildHost → GuildHost) :
    (s.modGuild g f).guild k = s.guild k := by simp [State.modGuild, State.guild, aget_aset_ne _ h]

@[simp] theorem State.ring_modRing_same (s : State) (g r : Nat) (f : Ring → Ring) :
    (s.modRing g r f).ring g r = f (s.ring g r) := by simp [State.modRing, State.ring]

theorem State.ring_modRing_ne (s : State) (g : Nat) {r k : Nat} (h : k ≠ r) (f : Ring → Ring) :
    (s.modRing g r f).ring g k = s.ring g k := by simp [State.modRing, State.ring, aget_aset_ne _ h]

theorem State.ring_of_hif {s t : State} (h : t.hif = s.hif) (g r : Nat) : t.ring g r = s.ring g r := by
  simp [State.ring, State.guild, h]

/-- A property that an update of any ring keeps, after an update of one. -/
theorem State.ring_modRing_keeps {P : Ring → Prop} (s : State) (g r k : Nat) (f : Ring → Ring) (h : P (s.ring g k))
    (hf : ∀ x, P x → P (f x)) : P ((s.modRing g r f).ring g k) := by
  by_cases e : k = r
  · subst e; rw [State.ring_modRing_same]; exact hf _ h
  · rw [State.ring_modRing_ne s g e]; exact h

/-! ### What goes out only adds to what has gone out -/

/-- From s to t registers, the host interface and what has gone out have changed alone, and the last has only grown. -/
def Sends (s t : State) : Prop :=
  (∃ new, t.out = new ++ s.out) ∧ t = { s with regs := t.regs, hif := t.hif, out := t.out }

theorem Sends.refl (s : State) : Sends s s := ⟨⟨[], rfl⟩, rfl⟩

theorem Sends.trans {s t u : State} (h : Sends s t) (k : Sends t u) : Sends s u := by
  obtain ⟨⟨a, ha⟩, h⟩ := h
  obtain ⟨⟨b, hb⟩, k⟩ := k
  refine ⟨⟨b ++ a, by rw [hb, ha, List.append_assoc]⟩, ?_⟩
  rw [k, h]

theorem Sends.mem {s t : State} (h : Sends s t) : t.mem = s.mem := by rw [h.2]

theorem Sends.out {s t : State} (h : Sends s t) {o : Output} (k : o ∈ s.out) : o ∈ t.out := by
  obtain ⟨⟨a, ha⟩, -⟩ := h
  rw [ha]; exact List.mem_append_right _ k

theorem sends_wr (s : State) (a : Nat) (v : Word) : Sends s (s.wr a v) := ⟨⟨[], rfl⟩, rfl⟩
theorem sends_put (s : State) (a : Nat) (f : Field) (v : Nat) : Sends s (s.put a f v) := sends_wr _ _ _
theorem sends_raise (s : State) (a : Nat) (f : Field) : Sends s (s.raise a f) := sends_wr _ _ _
theorem sends_emit (s : State) (o : Output) : Sends s (s.emit o) := ⟨⟨[o], rfl⟩, rfl⟩
theorem sends_modGuild (s : State) (g : Nat) (f : GuildHost → GuildHost) : Sends s (s.modGuild g f) := ⟨⟨[], rfl⟩, rfl⟩
theorem sends_modRing (s : State) (g r : Nat) (f : Ring → Ring) : Sends s (s.modRing g r f) := sends_modGuild _ _ _

theorem sends_tick (s : State) (a : Nat) : Sends s (s.tick a) := by
  simp only [State.tick, State.cnt, State.cntSet]
  split
  · exact Sends.refl s
  · exact (sends_wr _ _ _).trans (sends_wr _ _ _)

theorem sends_dmaWrite (g a : Nat) (b : List Byte) (s : State) : Sends s (dmaWrite g a b s) :=
  (sends_emit _ _).trans (sends_tick _ _)

theorem sends_msix (g v : Nat) (s : State) : Sends s (msix g v s) := by
  unfold msix
  split
  · exact Sends.refl s
  · split
    · exact ⟨⟨[], rfl⟩, rfl⟩
    · exact ((sends_emit _ _).trans (sends_tick _ _)).trans (sends_tick _ _)

theorem sends_ringSignal (g r : Nat) (s : State) : Sends s (ringSignal g r s) :=
  (sends_msix _ _ _).trans (sends_modRing _ _ _ _)

theorem sends_ringSignalCount (g r : Nat) (s : State) : Sends s (ringSignalCount g r s) := by
  simp only [ringSignalCount]
  split
  · exact sends_ringSignal _ _ _
  · exact Sends.refl s

theorem sends_ringWrite (g r : Nat) (d : List Byte) (s : State) : Sends s (ringWrite g r d s) :=
  ((sends_dmaWrite _ _ _ _).trans (sends_modRing _ _ _ _)).trans (sends_ringSignalCount _ _ _)

theorem sends_postEvent (g code : Nat) (body : List Byte) (s : State) : Sends s (postEvent g code body s) := by
  simp only [postEvent]
  split
  · split
    · exact (sends_modGuild _ _ _).trans (sends_ringWrite _ _ _ _)
    · exact (sends_modGuild _ _ _).trans (sends_tick _ _)
  · exact (sends_modGuild _ _ _).trans (sends_tick _ _)

theorem sends_postTlm (g code : Nat) (body : List Byte) (s : State) : Sends s (postTlm g code body s) := by
  simp only [postTlm]
  split
  · split
    · exact (sends_modGuild _ _ _).trans (sends_ringWrite _ _ _ _)
    · exact sends_modGuild _ _ _
  · exact sends_modGuild _ _ _

theorem sends_complete (g ring status : Nat) (result : List Byte) (s : State) :
    Sends s (complete g ring status result s) := by
  simp only [complete]
  split
  · exact Sends.refl s
  · split
    · exact sends_modRing _ _ _ _
    · repeat' split
      all_goals try refine Sends.trans ?_ (sends_ringWrite _ _ _ _)
      all_goals exact ((sends_modRing _ _ _ _).trans (sends_modRing _ _ _ _)).trans (sends_tick _ _)

theorem sends_dmaFailed (g r : Nat) (s : State) : Sends s (dmaFailed g r s) :=
  (((sends_raise _ _ _).trans (sends_raise _ _ _)).trans (sends_tick _ _)).trans (sends_modRing _ _ _ _)

theorem sends_dmaError (g ring : Nat) (s : State) : Sends s (dmaError g ring s) :=
  (sends_dmaFailed _ _ _).trans (sends_complete _ _ _ _ _)

/-! ### The descriptor that goes out -/

/-- A descriptor written to a ring goes out at the ring's slot, its PHASE in bit 7 of byte 1 (R337). -/
theorem ringWrite_out (g r : Nat) (d : List Byte) (s : State) :
    ∃ new, (ringWrite g r d s).out = new ++ s.out ∧ Output.dma g (s.pasid g) (s.ring g r).slotAddr
      (d.set 1 ((d.getD 1 0#8 &&& 0x7F#8) ||| BitVec.ofNat 8 (128 * (s.ring g r).phase))) ∈ new := by
  have h (u : State) (f : Ring → Ring) : Sends u (ringSignalCount g r ((u.tick (Reg.HIF_CNT_LO 1)).modRing g r f)) :=
    (sends_tick _ _).trans ((sends_modRing _ _ _ _).trans (sends_ringSignalCount _ _ _))
  obtain ⟨⟨new, hn⟩, -⟩ := h (s.emit (.dma g (s.pasid g) (s.ring g r).slotAddr
    (d.set 1 ((d.getD 1 0#8 &&& 0x7F#8) ||| BitVec.ofNat 8 (128 * (s.ring g r).phase))))) _
  exact ⟨new ++ [_], hn.trans (List.append_assoc new [_] s.out).symm, List.mem_append_right _ List.mem_cons_self⟩

theorem cmd_ringSignalCount (g r k : Nat) (s : State) :
    ((ringSignalCount g r s).ring g k).cmd = (s.ring g k).cmd := by
  simp only [ringSignalCount]
  split
  · unfold ringSignal
    refine State.ring_modRing_keeps (P := fun x => x.cmd = (s.ring g k).cmd) _ g r k _ ?_ fun x h => h
    unfold msix
    split
    · rfl
    · split
      · rfl
      · exact congrArg Ring.cmd (State.ring_of_hif (by simp) g k)
  · rfl

theorem cmd_ringWrite (g r k : Nat) (d : List Byte) (s : State) :
    ((ringWrite g r d s).ring g k).cmd = (s.ring g k).cmd := by
  unfold ringWrite
  dsimp only
  rw [cmd_ringSignalCount]
  refine State.ring_modRing_keeps (P := fun x => x.cmd = (s.ring g k).cmd) _ g r k _ ?_ fun x h => h
  exact congrArg Ring.cmd (State.ring_of_hif (by simp [dmaWrite]) g k)

/-! ### A command's completion -/

/-- Everything a completion does for a command whose Guild is enabled still, its CPL ring too: the command is done, and
its descriptor has gone out (R340, R341). -/
theorem complete_completes {g ring : Nat} {c : Cmd} {s : State} (status : Nat) (result : List Byte)
    (h : (s.ring g ring).cmd = some c) (ho : c.orphan = false) (he : (s.ring g c.cplRing).enabled = true) :
    CompletedWith g ring c status result s (complete g ring status result s) := by
  simp only [complete, h, ho, Bool.false_eq_true, if_false]
  generalize hx : s.modRing g ring _ = x
  have e1 : (x.ring g c.cplRing).enabled = true := by
    rw [← hx]
    exact State.ring_modRing_keeps (P := fun y => y.enabled = true) s g ring c.cplRing _ he fun y k => k
  have e2 : (x.ring g ring).cmd = none := by rw [← hx, State.ring_modRing_same]
  rw [if_pos e1]
  generalize hy : (x.modRing g c.cplRing _).tick _ = y
  have e3 : (y.ring g c.cplRing).enabled = true := by
    rw [← hy, State.ring_of_hif (State.tick_hif _ _)]
    exact State.ring_modRing_keeps (P := fun y => y.enabled = true) x g _ _ _ e1 fun y k => k
  have e4 : (y.ring g ring).cmd = none := by
    rw [← hy, State.ring_of_hif (State.tick_hif _ _)]
    exact State.ring_modRing_keeps (P := fun y => y.cmd = none) x g _ _ _ e2 fun y k => k
  have e5 : y.out = s.out := by rw [← hy, State.tick_out, ← hx]; rfl
  rw [if_pos e3]
  obtain ⟨new, hn, hm⟩ := ringWrite_out g c.cplRing (cplDesc c ring status result) y
  exact ⟨by rw [cmd_ringWrite]; exact e4, new, _, _, _, by rw [hn, e5], hm⟩

/-! ### The command a ring runs -/

theorem onCmd_runs {g ring op : Nat} {c : Cmd} {s : State} (f : Cmd → State → State)
    (h : startable s g ring op = some c) : onCmd g ring op f s = f c s := by simp [onCmd, h]

theorem onCmd_idle {g ring op : Nat} {s : State} (f : Cmd → State → State) (h : startable s g ring op = none) :
    onCmd g ring op f s = s := by simp [onCmd, h]

theorem startable_cmd {s : State} {g ring op : Nat} {c : Cmd} (h : startable s g ring op = some c) :
    (s.ring g ring).cmd = some c ∧ descOp c.desc = op ∧ c.began = false := by
  unfold startable at h
  split at h
  · split at h
    · cases h
      rename_i e k
      exact ⟨e, k.1, by simpa using k.2⟩
    · cases h
  · cases h

/-- A command that is ready completes with what is given to `complete`. -/
theorem CmdReady.completes {s : State} {g ring op : Nat} {c : Cmd} (h : CmdReady s g ring op c) (status : Nat)
    (result : List Byte) : CompletedWith g ring c status result s (complete g ring status result s) :=
  complete_completes status result (startable_cmd h.2.1).1 h.2.2.1 h.2.2.2.1

end Sys2Proof.Machine
end

