-- ==== Sys2Proof/Laws/Stacks.lean ====
section
/-! SUPPORT. What a read and a write of the stacks do where no memory holds an error and no posted add waits: the read
gives the bytes that are there, the write changes its own bytes alone. -/
namespace Sys2Proof.Machine

/-- No error, none armed, no add waits; the bytes are m. -/
def Calm (m : List Host.Cell) (s : State) : Prop := s.mem = m ∧ s.hbm.adds = [] ∧ s.sound

theorem foldl_calm {α : Type} {m : List Host.Cell} {f : State → α → State} (hf : ∀ s x, Calm m s → Calm m (f s x))
    (l : List α) {s : State} (h : Calm m s) : Calm m (l.foldl f s) := by
  induction l generalizing s with
  | nil => exact h
  | cons x l ih => exact ih (hf s x h)

theorem Calm.tick {m : List Host.Cell} {s : State} {a : Nat} (h : Calm m s) (h0 : Reg.TNK_MEMINJ ≠ a)
    (h4 : Reg.TNK_MEMINJ ≠ a + 4) : Calm m (s.tick a) := by
  obtain ⟨h1, h2, h3, h5, h6⟩ := h
  refine ⟨by simpa using h1, by simpa using h2, by simpa using h3, ?_, by simpa using h6⟩
  rw [← h5]
  simp only [State.getB, State.get, State.rdN, State.tick, State.rd_cnt_ne s h0 h4]

theorem Calm.wake {m : List Host.Cell} {s : State} (b : Nat) (h : Calm m s) : Calm m (hbmWake b s) := h

theorem Calm.flush {m : List Host.Cell} {s : State} (b : Nat) (h : Calm m s) : addsFlush b s = s := by
  simp [addsFlush, h.2.1]

theorem Calm.check {m : List Host.Cell} {s : State} (k : Nat) (h : Calm m s) : burstCheck k s = (false, s) := by
  simp [burstCheck, h.2.2.2.2]

theorem Calm.checks {m : List Host.Cell} {s : State} (ks : List Nat) (h : Calm m s) : burstsCheck ks s = (false, s) := by
  unfold burstsCheck
  induction ks with
  | nil => rfl
  | cons k ks ih => simpa [h.check k] using ih

theorem Calm.clear {m : List Host.Cell} {s : State} (k : Nat) (h : Calm m s) : Calm m (burstClear k s) := by
  obtain ⟨h1, h2, h3, h5, h6⟩ := h
  exact ⟨h1, h2, h3, h5, by simp [burstClear, h6]⟩

theorem Calm.plant {m : List Host.Cell} {s : State} (b lo hi : Nat) (h : Calm m s) : Calm m (hbmPlant b lo hi s) := by
  have k := foldl_calm (f := fun s k => burstClear k s) (fun s k h => h.clear k)
    ((hbmBursts b lo hi).filter fun k => decide (lo ≤ 32 * k ∧ 32 * k + 32 ≤ hi)) h
  unfold hbmPlant
  dsimp only
  generalize ((hbmBursts b lo hi).filter fun k => decide (lo ≤ 32 * k ∧ 32 * k + 32 ≤ hi)).foldl
    (fun s k => burstClear k s) s = s1 at k ⊢
  simp only [k.2.2.2.1, Bool.false_and, Bool.false_eq_true, if_false]
  exact k

theorem Calm.emit {m : List Host.Cell} {s : State} (o : Output) (h : Calm m s) : Calm m (s.emit o) := h

theorem Calm.settle {m : List Host.Cell} {s : State} (k : Nat) (h : Calm m s) : Calm m (aheadSettle k s) := by
  unfold aheadSettle
  split
  · exact h
  · split <;> exact h

theorem Calm.drain {m : List Host.Cell} {s : State} (b : Nat) (h : Calm m s) : Calm m (hbmDrain b s) := by
  unfold hbmDrain
  split
  · exact h
  · exact foldl_calm (fun s _ k => k.emit _) _ (Calm.settle _ (show Calm m _ from h))

theorem Calm.enter {m : List Host.Cell} {s : State} (b : Nat) (h : Calm m s) : Calm m (hazardEnter b s) := by
  have k : Calm m (match stackWrites s (hbmPlace b).stack with
    | x :: r => if 512 ≤ r.length + 1 then hbmDrain x s else s
    | [] => s) := by
    split
    · split
      · exact h.drain _
      · exact h
    · exact h
  exact Calm.settle _ (show Calm m _ from k)

theorem Calm.issue {m : List Host.Cell} {s : State} (b : Nat) (h : Calm m s) : Calm m (readIssue b s) := by
  unfold readIssue
  dsimp only
  split
  · exact (foldl_calm (fun s x k => k.drain x) _ h).wake b
  · exact h.wake b

/-- A write changes its own bytes alone. -/
theorem hbmWrite_calm {m : List Host.Cell} {s : State} (a : Nat) (bs : List Byte) (h : Calm m s) :
    Calm (Memory.writeN a bs m) (hbmWrite a bs s) := by
  have k := foldl_calm (f := fun s b =>
    hbmPlant b a (a + bs.length) (hazardEnter b (addsFlush b (hbmWake b (s.tick (Reg.HBM_CNT_LO 1))))))
    (fun s b h => by
      have h := (h.tick (a := Reg.HBM_CNT_LO 1) (by decide) (by decide)).wake b
      rw [h.flush]
      exact (h.enter b).plant _ _ _) (hbmBlocks a bs.length) h
  exact ⟨congrArg (Memory.writeN a bs) k.1, k.2⟩

theorem hbmWrite_mem {s : State} (a : Nat) (bs : List Byte) (h : s.sound) (hn : s.hbm.adds = []) :
    (hbmWrite a bs s).mem = Memory.writeN a bs s.mem := (hbmWrite_calm a bs ⟨rfl, hn, h⟩).1

/-- What a write has written reads back, and every other byte reads as before. -/
theorem hbmWrite_reads {s : State} (a : Nat) (bs : List Byte) (h : s.sound) (hn : s.hbm.adds = []) :
    (hbmWrite a bs s).mrd a bs.length = bs ∧ SameMemBut a bs.length s (hbmWrite a bs s) := by
  refine ⟨?_, fun k hk => ?_⟩
  · rw [State.mrd, hbmWrite_mem a bs h hn]; exact Memory.readN_writeN bs a s.mem
  · rw [hbmWrite_mem a bs h hn]; exact Memory.read_writeN_out bs hk s.mem

/-- A read gives the bytes that are there, unpoisoned, and leaves memory as it is. -/
theorem hbmRead_calm {m : List Host.Cell} {s : State} (a n : Nat) (h : Calm m s) :
    (hbmRead a n s).1 = Memory.readN m a n ∧ (hbmRead a n s).2.1 = false ∧ Calm m (hbmRead a n s).2.2 := by
  have k (l : List Nat) (p : Bool × State) (hp : p.1 = false ∧ Calm m p.2) :
      let q := l.foldl (fun (r : Bool × State) b =>
        let s := addsFlush b (r.2.tick (Reg.HBM_CNT_LO 0))
        let s := if s.hbm.writes.contains b then s.tick (Reg.HBM_CNT_LO 3) else s
        let (bad, s) := burstsCheck (hbmBursts b a (a + n)) (readIssue b s)
        (r.1 || bad, s)) p
      q.1 = false ∧ Calm m q.2 := by
    induction l generalizing p with
    | nil => exact hp
    | cons b l ih =>
      refine ih _ ?_
      have h1 := hp.2.tick (a := Reg.HBM_CNT_LO 0) (by decide) (by decide)
      dsimp only
      rw [h1.flush]
      have h2 : Calm m (if (p.2.tick (Reg.HBM_CNT_LO 0)).hbm.writes.contains b = true then
          (p.2.tick (Reg.HBM_CNT_LO 0)).tick (Reg.HBM_CNT_LO 3) else p.2.tick (Reg.HBM_CNT_LO 0)) := by
        split
        · exact h1.tick (by decide) (by decide)
        · exact h1
      rw [(h2.issue b).checks]
      exact ⟨by simp [hp.1], h2.issue b⟩
  obtain ⟨k1, k2⟩ := k (hbmBlocks a n) (false, s) ⟨rfl, h⟩
  exact ⟨congrArg (fun m => Memory.readN m a n) k2.1, k1, k2⟩

end Sys2Proof.Machine
end

