-- ==== Sys2Proof/Tests/Slice0.lean ====
section
/-! SUPPORT. Tests, each one step on a small state. A theorem test_<Name> shows, for the obligation of that name, states
and operands that meet the premises of its clauses, and what the command then does there, as the spec has it. -/
set_option Elab.async false

namespace Sys2Proof.Tests
open Sys2Proof.Machine

/-- The state after a command. -/
def after (c : Instr) (s : State) : State := match exec c s with | .next t => t | _ => s

/-- The state after a step. -/
def stepped (s : State) : State := match step s with | .next t => t | _ => s

/-- A state with these fields of registers. -/
def with_ (l : List (Nat × Field × Nat)) (s : State) : State := l.foldl (fun s x => s.put x.1 x.2.1 x.2.2) s

/-- Reset, with nothing sent out. -/
def s0 : State := { State.reset with out := [] }

/-- Host 0's link is UP. -/
def s1 : State := with_ [(Reg.HIF_LINK_STATUS 0, Fld.HIF_LINK_STATUS_UP, 1)] s0

/-- A frame of n bytes to a unicast address. -/
def fr (n : Nat) : Frame := { bytes := zeros n, inPort := 0 }

/-- The premise `State.sound`, as a Bool. -/
def isSound (s : State) : Bool := decide s.sound

/-! ### Well-formed commands -/

theorem test_illFormed :
    Instr.wf (.rcFieldRead (.link 0) 2) = false ∧ Instr.wf (.registerWrite (.hk 0) 0x100000000 0 false) = false ∧
    Instr.wf (.flowFind 0 0 (some [])) = false ∧ Instr.wf (.doorbellPoll 0 (some [0#32])) = false ∧
    Instr.wf (.hbmAccess 0 (.write 60 (zeros 8))) = false ∧ Instr.wf (.hbmAccess 3 (.add 4 1)) = false ∧
    Instr.wf (.paceMeasure [1, 2]) = false ∧ Instr.wf (.thermalSample []) = false ∧
    Instr.wf (.rxFrameComplete 0 { bytes := [] }) = false ∧ Instr.wf (.ondieScrub 1 0 (2 ^ 20) none) = false ∧
    Instr.wf (.laneLatencyMeasured 0 (2 ^ 32) 0) = false ∧ Instr.wf (.waitEntryFillStart 0 256) = false ∧
    Instr.wf (.hbmWriteDrain (2 ^ 29)) = false ∧ Instr.wf (.hbmRefresh 2048) = false ∧
    Instr.wf (.profileRead []) = false ∧ Instr.wf (.rcFieldRead (.link 0) 4) = true := by decide +kernel

theorem test_noWordSpellsACommand : decodeTableWord 32 0xFFFFFFFF = none := rfl

/-! ### The machine as a whole -/

theorem test_step : stepped { s0 with pending := [.mateHbInEdge, .kickTimeout] } =
    after .mateHbInEdge { s0 with pending := [.kickTimeout] } := by decide +kernel

theorem test_EmptyQueueStepIsATick : s0.pending = [] ∧ s0.running ∧ (stepped s0).now = 1 := by decide +kernel

/-- The part drives a live heartbeat, at 499 ns. -/
def pulsing : State :=
  let s := with_ [(Reg.MATE_CTL, Fld.MATE_CTL_EN, 1), (Reg.BOOT_STATUS, Fld.BOOT_STATUS_FULL, 4095)] s0
  { s with now := 499, mate := { s.mate with kicked := true } }

/-- A warm reset asked for holds the part once its time has come. -/
theorem test_EmptyQueueStepIsATick_pins :
    let due := { s0 with boot := { s0.boot with warmDue := true, warmAt := 1 } }
    (stepped { s0 with mate := { s0.mate with actOut := true }, boot := due.boot }).out =
      [.pin "MATE_ACT_OUT" false] ∧
    hbLive pulsing = true ∧ (stepped pulsing).out = [.pin "MATE_HB_OUT" true] ∧
    (stepped due).boot.held = true ∧ (stepped { due with now := 5 }).boot.held = true ∧
    stepped (stepped due) = stepped due := by decide +kernel

theorem test_EveryStepGoesOnInCanonicalForm : State.reset.canonical = true ∧
    (after (.statClear 0) s0).canonical = true := by decide +kernel

/-- A part held in reset: a command does nothing, the release of RESET_N brings it back. -/
theorem test_FewCommandsReachWhatIsApart :
    after .mateHbInEdge (after (.resetAssert true) s0) = after (.resetAssert true) s0 ∧
    (after (.coldReset 0 0 false 0) (after (.resetAssert true) s0)).boot.held = false ∧
    (after (.ucsKeyProgram 0 2 none) s0).ucs.ckey = none := by decide +kernel

/-! ### Register accesses -/

theorem test_RegisterWritesFollowTheAccessCodes :
    let a := Reg.TNK_SEED
    let b := Reg.PWR_AVS_TUNE
    placeOf s1 (.link 0) b = .setup ∧ mayWrite (.link 0) b = true ∧
    ((regAt b).any fun h => h.reg.part == .whole &&
      ((globalHooks ++ stationHooks ++ pageHooks).lookup h.reg.name).isNone) = true ∧
    (after (.registerWrite (.link 0) b 0xFFFFFFFF false) s1).rd b ≠ s1.rd b ∧
    (after (.registerWrite (.link 0) a 5 false) s1).rd a = 5 ∧ (regAt 0x7FFFFFC).isNone = true ∧
    placeOf s0 (.link 0) b = .none ∧ placeOf s1 (.link 0) 0x200000000 = .none ∧ placeOf s0 (.link 3) (guildPageBase 7) = .foreign ∧
    (after (.registerWrite (.link 0) b 0 true) s1).get Reg.CHIP_STATUS Fld.CHIP_STATUS_ACC_ERR = 1 ∧
    (after (.registerWrite (.link 3) (guildPageBase 7) 0 false) s0).get Reg.HIF_EVENT Fld.HIF_EVENT_ISO_VIOL = 1 := by
  decide +kernel

/-- The pair of event counter 3 of station 2: its two words. -/
theorem test_APairTakesEffectWithItsHighWord :
    let a := Reg.STN_EV_LO 2 3
    let t := after (.registerWrite (.link 0) a 9 false) s1
    ((regAt a).any fun h => h.reg.part == .low && h.reg.name != "TLY_HOST_BASE_LO") = true ∧
    ((regAt (a + 4)).any fun h => h.reg.part == .high && h.reg.name != "TLY_HOST_BASE_HI") = true ∧
    mayWrite (.link 0) a = true ∧ placeOf s1 (.link 0) (a + 4) = .setup ∧
    t.rd a = 0 ∧ (after (.highWordWrite (.link 0) (a + 4) 1) t).cntGet a = 2 ^ 32 + 9 := by decide +kernel

theorem test_ReadsLatchAndClear :
    let a := Reg.STN_EV_LO 2 3
    let s := s1.cntSet a (2 ^ 32 * 5 + 7)
    let t := after (.lowWordReadLatch (.link 0) a) s
    let u := after (.rcFieldRead (.link 0) (a + 4)) (t.cntSet a 0)
    let c := Reg.LANE_PRBS_ERR 3
    let v := after (.rcFieldRead (.link 0) c) (s1.wr c 5)
    t.out.head? = some (.read (.link 0) a 7) ∧ u.out.head? = some (.read (.link 0) (a + 4) 5) ∧
    ((regAt c).any fun h => h.reg.part == .whole && h.reg.fields.any fun f => f.acc == .rc) = true ∧
    placeOf s (.link 0) a = .setup ∧ placeOf s (.link 0) (a + 4) = .setup ∧ homeAddr (a + 4) = homeAddr a + 4 ∧
    v.rd c = 0 ∧ v.out = [.read (.link 0) c 5] := by decide +kernel

/-- Varve time through a Guild page and through the set-up space, a reserved address, a foreign page. -/
theorem test_ReadsLatchAndClear_places :
    let go (a : Nat) (s : State) := after (.rcFieldRead (.link 0) a) s
    let at5 := { s1 with varve := { s1.varve with t := 5000000007 * 2 ^ 44 } }
    let page := guildPageBase 0
    placeOf at5 (.link 0) page = .page 0 ∧ homeAddr page = page ∧ (regAt page).isSome = true ∧
    homeAddr (page + 0x820) = Reg.VRV_TIME_NS ∧
    (go (page + 0x824) (go (page + 0x820) at5)).out.head? = some (.read (.link 0) (page + 0x824) 5) ∧
    (go (Reg.VRV_TIME_NS + 4) at5).out.head? = some (.read (.link 0) (Reg.VRV_TIME_NS + 4) 0) ∧
    (go 0x7FFFFFC s1).out = [.read (.link 0) 0x7FFFFFC 0] ∧ placeOf s1 (.link 3) (guildPageBase 7) = .foreign ∧
    (after (.rcFieldRead (.link 3) (guildPageBase 7)) s1).get Reg.HIF_EVENT Fld.HIF_EVENT_ISO_VIOL = 1 ∧
    (after (.rcFieldRead (.link 3) (guildPageBase 7)) s1).out = [.read (.link 3) (guildPageBase 7) 0] := by
  decide +kernel

/-! ### Pace, supply and temperature -/

/-- A supply loop that has measured p once. -/
def loopAt (p quiet : Nat) : State :=
  let s := with_ [(Reg.PWR_AVS_CTL, Fld.PWR_AVS_CTL_EN, 1)] s0
  { s with power := { s.power with sums := [(0, p, 1)], quiet := quiet } }

theorem test_TheSupplyLoopStaysWithinItsLimits :
    avsRuns (loopAt 1000 0) = true ∧ avsMeasure (loopAt 1000 0) = some 1000 ∧ avsMin (loopAt 0 0) ≤ avsMax (loopAt 0 0) ∧
    (after .avsPeriod (loopAt 1000 0)).out = [.avsWrite (156 +
      max 1 (s0.get Reg.PWR_AVS_TUNE Fld.PWR_AVS_TUNE_UP_STEP))] ∧
    (after .avsPeriod (loopAt 4095 1000)).out = [.avsWrite 155] ∧ (after .avsPeriod (loopAt 4095 0)).power.quiet = 1 ∧
    (after .avsPeriod (loopAt (avsTarget s0 + s0.get Reg.PWR_AVS_TARGET Fld.PWR_AVS_TARGET_HEADROOM) 5)).power.quiet = 0 ∧
    (after (.avsBusFault ⟨false, some 2⟩) s0).out = List.replicate 3 (.avsWrite 156) ∧
    (after (.avsBusFault ⟨true, some 0⟩) s0).out = [.avsRead] ∧
    avsRuns (after (.avsBusFault ⟨true, none⟩) (loopAt 0 0)) = false ∧
    (after .avsPeriod (after (.avsBusFault ⟨true, none⟩) (loopAt 0 0))).power.suspended = true ∧
    (after .avsPeriod { s0 with power := { s0.power with suspended := true } }).power.suspended = false ∧
    (after (.avsManualWrite 255) (with_ [(Reg.PWR_AVS_CTL, Fld.PWR_AVS_CTL_EN, 0)] s0)).out = [.avsWrite (avsMax s0)] ∧
    after (.avsManualWrite 255) (loopAt 0 0) = loopAt 0 0 := by decide +kernel

theorem test_PaceAndTemperatureAreMeasured :
    let hot := after (.thermalSample (List.replicate 16 (some 440))) s0
    let mid := after (.thermalSample (List.replicate 16 (some 400))) s0
    let bad := { s0 with power := { s0.power with misses := [(3, 2)] } }
    let one := (List.replicate 16 (some 0)).set 3 none
    (after (.paceMeasure (List.replicate 12 2000)) s0).get (Reg.STN_PACE 11) Fld.STN_PACE_EFF = 2000 ∧
    hot.out = [.pin "SMB_ALERT_N" false, .pin "THERM_CRIT_N" false] ∧ mid.out = [] ∧
    (after (.thermalSample (List.replicate 16 (some 399))) hot).out.head? = some (.pin "SMB_ALERT_N" true) ∧ throttleOf hot 0 = 154 ∧ throttleOf mid 0 = 205 ∧
    throttleOf (after (.thermalSample (List.replicate 16 (some 380))) s0) 0 = 256 ∧
    throttleOf (after (.thermalSample (List.replicate 16 (some 420))) s0) 0 = 154 ∧
    hot.getB Reg.THM_STATUS Fld.THM_STATUS_CRIT = true ∧
    (after (.thermalSample (List.replicate 16 (some 399))) hot).getB Reg.THM_STATUS Fld.THM_STATUS_CRIT = false ∧
    (after (.thermalSample (List.replicate 16 (some 400))) hot).getB Reg.THM_STATUS Fld.THM_STATUS_CRIT = true ∧
    (after (.thermalSample one) bad).get Reg.THM_STATUS Fld.THM_STATUS_FAULT_MAP = 8 ∧
    (after (.thermalSample one) s0).get Reg.THM_STATUS Fld.THM_STATUS_FAULT_MAP = 0 ∧
    (after (.thermalSample (List.replicate 16 (some 0))) (after (.thermalSample one) bad)).get
      Reg.THM_STATUS Fld.THM_STATUS_FAULT_MAP = 0 := by decide +kernel

/-! ### Lanes and ports -/

/-- The word of LANE_CFG that enables a port of a type and FEC. -/
def enW (t fec : Nat) : Word :=
  Fld.LANE_CFG_FEC.into (Fld.LANE_CFG_TYPE.into (Fld.LANE_CFG_EN.into 0#32 1) t) fec

/-- Port 3 enabled at 25 Gb/s without AN or FEC, in a state of Table 03.4. -/
def port3 (state : Nat) : State :=
  let s := (s0.wr (Reg.LANE_CFG 3) (enW 3 0)).modLink 3 fun l => { l with cfg := enW 3 0 }
  with_ [(Reg.LANE_STATUS 3, Fld.LANE_STATUS_STATE, state), (Reg.LANE_STATUS 3, Fld.LANE_STATUS_ACT_TYPE, 3),
    (Reg.LANE_STATUS 3, Fld.LANE_STATUS_REFOK, 1)] s

/-- A frame at an output port, and one in transmission. -/
def ef1 : EFrame := { frame := fr 60, tc := 0, blocks := 1, landed := 0 }
def tx1 : TxFrame := { ef := ef1, began := 0, sent := zeros 60 }

def sending3 (state : Nat) : State := (port3 state).modMac 3 fun m => { m with txPreempt := some tx1 }

/-- Port 3 UP in a station in full service, with frames of up to 2,000 B. -/
def mac3 : State := with_ [(Reg.BOOT_STATUS, Fld.BOOT_STATUS_FULL, 1), (Reg.MAC_CFG 3, Fld.MAC_CFG_MAX_LEN, 2000)] (port3 4)

theorem test_PortsAreSetUpEnabledAndDisabled :
    let m (v : Word) (s : State) := after (.quadModeWrite 0 v) s
    let off := with_ [(Reg.LANE_CFG 3, Fld.LANE_CFG_EN, 0)] s0
    let en (v : Word) := after (.portEnable 3 v) off
    let dis (s : State) := after (.portDisable 3 0) s
    (m 4 s0).quadMode 0 = 4 ∧ (m 5 s0).get (Reg.STN_QUAD 0 0) Fld.STN_QUAD_ERR = 1 ∧ (m 4 (port3 4)).quadMode 0 = 0 ∧
    off.portWidth 3 = 1 ∧ cfgValid (enW 3 0) 0 1 = true ∧ (en (enW 3 0)).linkState 3 = 3 ∧
    cfgValid (enW 8 0) 0 1 = false ∧ (en (enW 8 0)).getB (Reg.LANE_STATUS 3) Fld.LANE_STATUS_CFG_ERR = true ∧
    (m 4 off).portWidth 3 = 0 ∧ (after (.portEnable 3 (enW 3 0)) (m 4 off)).portEn 3 = false ∧
    (sending3 4).linkUp 3 = true ∧ inTransmission (sending3 4) 3 ≠ [] ∧
    ((dis (sending3 4)).port 3).link.stopping = true ∧ (dis (port3 4)).linkState 3 = 0 ∧
    (after (.portOff 3) ((port3 4).modLink 3 fun l => { l with stopping := true })).linkState 3 = 0 ∧
    testWanted (port3 0) 3 = false ∧ (port3 4).portEn 3 = true := by decide +kernel

theorem test_PortsAreSetUpEnabledAndDisabled_staged (r : StageReg) :
    (after (.portCfgStageWrite 3 r (enW 3 1)) (port3 4)).getB (Reg.LANE_STATUS 3) Fld.LANE_STATUS_CFG_PENDING = true := by
  cases r <;> decide +kernel

theorem test_PortsMoveByTheLinkStateTable :
    let st (c : Instr) (s : State) := (after c s).linkState 3
    let an := (port3 1).modLink 3 fun l => { l with adv := Fld.LANE_AN_ADV_ABILITY.into 0 (2 ^ 10) }
    let held := (port3 2).modLink 3 fun l => { l with holdoff := true }
    let near := with_ [(Reg.LANE_TEST 3, Fld.LANE_TEST_LOOPBACK, 1)]
    let stops (n : Nat) := (port3 n).modLink 3 fun l => { l with stopping := true }
    let hold := (port3 4).wr (Reg.LANE_CFG 3) (Fld.LANE_CFG_DOWN_HOLD.into (enW 3 0) 5)
    refOk an 3 = true ∧ st (.anResolution 3 ⟨Fld.LANE_AN_LP_ABILITY.into 0 (2 ^ 10), false⟩) an = 3 ∧
    st (.anResolution 3 ⟨0, true⟩) an = 1 ∧ nearEnd an 3 = false ∧ nearEnd (near an) 3 = true ∧
    st (.anResolution 3 ⟨0, true⟩) (near an) = 3 ∧ (after (.anResolution 3 ⟨0, true⟩) an).out.length = 2 ∧
    ((port3 2).port 3).link.txOverride = false ∧ ((port3 2).port 3).link.holdoff = false ∧
    st (.trainingDone 3) ((port3 2).modLink 3 fun l => { l with txOverride := true }) = 3 ∧ (port3 2).linkState 3 = 2 ∧ refOk (port3 2) 3 = true ∧
    ((after (.trainingTimeout 3) (port3 2)).port 3).link.holdoff = true ∧ st (.trainHoldoffExpiry 3) held = 3 ∧
    st (.lockAcquired 3) (port3 3) = 4 ∧ st (.lockAcquired 3) (port3 5) = 4 ∧ st (.alignTimeout 3) (port3 3) = 3 ∧
    st (.lockLost 3) (port3 4) = 3 ∧ hold.get (Reg.LANE_CFG 3) Fld.LANE_CFG_DOWN_HOLD ≠ 0 ∧ hold.linkState 3 = 4 ∧
    st (.lockLost 3) (stops 4) = 0 ∧
    st (.downHoldExpiry 3) (port3 5) = 3 ∧ st (.downHoldExpiry 3) (stops 5) = 0 := by decide +kernel

theorem test_PortFaultsFecAndLoopback :
    let fault := after (.remoteFaultReceived 3) (port3 4)
    let fec := with_ [(Reg.LANE_STATUS 3, Fld.LANE_STATUS_ACT_FEC, 2)] (port3 4)
    let a := Reg.LANE_STATUS 3
    (fault.port 3).link.remoteFault = true ∧ ((after (.remoteFaultCleared 3) fault).port 3).link.remoteFault = false ∧
    (port3 4).getB a Fld.LANE_STATUS_LAT_VALID = false ∧
    (after (.laneLatencyMeasured 3 (256 * 18) (256 * 38)) (port3 4)).get (Reg.LANE_LAT_RX 3) Fld.LANE_LAT_RX_LAT = 9728 ∧
    (after (.fecUncorrectable 3 7 [9]) fec).cntGet (Reg.LANE_FEC_CORR_LO 3) = 7 := by decide +kernel

theorem test_PortFaultsFecAndLoopback_ref :
    (after (.refclkLoss 0) (port3 4)).linkState 3 = 3 ∧
    refOk (after (.refclkRestored 0) (port3 4)) 3 = true ∧
    (after (.refclkRestored 0) (with_ [(Reg.LANE_TEST 3, Fld.LANE_TEST_GEN_EN, 1)] (port3 3))).linkState 3 = 6 := by decide +kernel

theorem test_PortFaultsFecAndLoopback_test :
    let chk := with_ [(Reg.LANE_TEST 3, Fld.LANE_TEST_CHK_EN, 1), (Reg.LANE_TEST 3, Fld.LANE_TEST_PATTERN, 1)] (port3 6)
    let locked := after (.prbsLock ⟨3, 1, 4⟩) chk
    let bare := with_ [(Reg.LANE_TEST 3, Fld.LANE_TEST_LOOPBACK, 1)] chk
    let own := with_ [(Reg.LANE_TEST 3, Fld.LANE_TEST_GEN_EN, 1)] bare
    let on := after (.laneTestWrite 3 (Fld.LANE_TEST_GEN_EN.into 0 1)) (port3 4)
    let loop := Fld.LANE_TEST_LOOPBACK.into 0 1
    on.linkState 3 = 6 ∧ generated on 3 = some 0 ∧ generated (port3 4) 3 = none ∧ on.out.head? = some (.prbs 3 (some 0)) ∧
    3 ∈ portLanes (port3 4) 3 ∧ patternOf chk 3 = 1 ∧ after (.prbsLock ⟨3, 2, 4⟩) chk = chk ∧
    nearEnd own 3 = true ∧ generated own 3 = some 1 ∧ after (.prbsLock ⟨3, 1, 4⟩) bare = bare ∧
    (after (.prbsLock ⟨3, 2, 4⟩) own).getB (Reg.LANE_TEST 3) Fld.LANE_TEST_CHK_LOCK = true ∧
    (after (.laneTestWrite 3 0) chk).linkState 3 = 3 ∧ (port3 4).linkUp 3 = true ∧ ownerOf (port3 4) 3 = 3 ∧
    loopbackOf loop ≠ loopbackOf ((port3 4).rd (Reg.LANE_TEST 3)) ∧
    (after (.loopbackChange 3 loop) (port3 4)).linkState 3 ≠ 4 ∧
    locked.getB (Reg.LANE_TEST 3) Fld.LANE_TEST_CHK_LOCK = true ∧
    (after (.prbsLockLost 3 8) locked).rdN (Reg.LANE_PRBS_ERR 3) = 12 := by decide +kernel

/-! ### The MAC -/

/-- A link pause frame of a time. -/
def pauseFr (q : Nat) : List Byte := padded (beBytes 6 0x0180C2000001 ++ zeros 6 ++ beBytes 2 0x8808 ++ beBytes 2 1 ++ beBytes 2 q)

def mac3fc (mode : Nat) : State :=
  with_ [(Reg.MAC_FC_CFG 3, Fld.MAC_FC_CFG_MODE, mode), (Reg.MAC_FC_CFG 3, Fld.MAC_FC_CFG_FOLLOW_AN, 0),
    (Reg.MAC_FC_CFG 3, Fld.MAC_FC_CFG_PAUSE_RX, 1), (Reg.MAC_FC_CFG 3, Fld.MAC_FC_CFG_PAUSE_TX, 1),
    (Reg.MAC_FC_CFG 3, Fld.MAC_FC_CFG_PFC_TX_EN, 255), (Reg.SWC_PORT_STATUS 0 3, Fld.SWC_PORT_STATUS_XOFF, 3)] mac3

/-- Bad frames, one for each row of Table 04.2: the counter of each. -/
theorem test_ReceivedFramesAreCheckedAndCharged :
    let rx (r : RxFrame) (k : Nat) : Bool :=
      (after (.rxFrameComplete 3 r) mac3).cntGet (Reg.MAC_STAT_LO 3 k) == 1
    mac3.linkUp 3 = true ∧ rx { bytes := zeros 60, linkLost := true } 13 = true ∧
    rx { bytes := zeros 60, codeError := true } 8 = true ∧ rx { bytes := zeros 59 } 9 = true ∧
    rx { bytes := zeros 59, fcsGood := false } 10 = true ∧ maxLenAt mac3 3 0 < 1997 + 4 ∧
    nearEnd mac3 3 = false ∧
    rx { bytes := zeros 60, fcsGood := false } 7 = true := by decide +kernel

/-- Far-end loopback, a port that is down, near-end loopback with nothing sent. -/
theorem test_ReceivedFramesAreCheckedAndCharged_loopback :
    let loop (v st : Nat) := with_ [(Reg.LANE_TEST 3, Fld.LANE_TEST_LOOPBACK, v),
      (Reg.LANE_STATUS 3, Fld.LANE_STATUS_STATE, st)] mac3
    let rx : RxFrame := { bytes := zeros 60 }
    (loop 3 6).linkState 3 = 6 ∧ farEnd (loop 3 6) 3 = true ∧
    (after (.rxFrameComplete 3 rx) (loop 3 6)).out = [.frame 3 (zeros 60) true] ∧
    (loop 0 3).linkUp 3 = false ∧ (loop 0 3).linkState 3 ≠ 6 ∧ after (.rxFrameComplete 3 rx) (loop 0 3) = loop 0 3 ∧
    (loop 1 4).linkUp 3 = true ∧ nearEnd (loop 1 4) 3 = true ∧ after (.rxFrameComplete 3 rx) (loop 1 4) = loop 1 4 := by
  decide +kernel

theorem test_ReceivedFramesAreCheckedAndCharged_good :
    let t := after (.rxFrameComplete 3 { bytes := zeros 60 }) mac3
    (readTags (macTpids mac3 3) (zeros 60)).etype ≠ 0x8808 ∧ 1 ≤ ingSharedFree mac3 0 ∧ mac3.full 0 = true ∧ notActive mac3 = false ∧ (steer mac3 3 (readTags (macTpids mac3 3) (zeros 60))).action = 0 ∧
    ingressSplit mac3 0 3 0 1 ≠ none ∧ 1 ≤ cellsFree mac3 0 ∧
    (t.stn 0).tasks.laneN.length = 1 := by decide +kernel

theorem test_ReceivedFramesAreCheckedAndCharged_fragments :
    let en := mac3.modMac 3 fun m => { m with mergeEn := true }
    let op (s : State) := s.modMac 3 fun m => { m with reasm := some { frameCount := 1, nextFrag := 0, bytes := zeros 60, limit := 2000 } }
    let go (s : State) (m : MPacket) := after (.rxFrameComplete 3 { bytes := m.bytes, mpackets := [m] }) s
    let first : MPacket := { start := true, frameCount := 1, fragCount := 0, bytes := zeros 60, last := false }
    let last : MPacket := { first with start := false, last := true }
    (go mac3 first).cntGet (Reg.MAC_STAT_LO 3 30) = 1 ∧ ((go en first).port 3).mac.reasm.map (·.bytes) = some (zeros 60) ∧
    (go (op en) first).cntGet (Reg.MAC_STAT_LO 3 29) = 1 ∧ ((go en last).port 3).mac.reasm = none ∧
    (go (op en) { last with fragCount := 1 }).cntGet (Reg.MAC_STAT_LO 3 29) = 1 ∧
    (go (op en) last).cntGet (Reg.MAC_STAT_LO 3 28) = 1 := by decide +kernel

/-- A frame of one mPacket, with a bad FCS, alone and while another frame is open. -/
theorem test_ReceivedFramesAreCheckedAndCharged_whole :
    let en := mac3.modMac 3 fun m => { m with mergeEn := true }
    let op := en.modMac 3 fun m => { m with reasm := some { frameCount := 1, nextFrag := 0, bytes := zeros 60, limit := 2000 } }
    let whole : MPacket := { start := true, frameCount := 1, fragCount := 0, bytes := zeros 60, last := true }
    let go (s : State) := after (.rxFrameComplete 3 { bytes := zeros 60, fcsGood := false, mpackets := [whole] }) s
    let cnt (s : State) := [1, 7, 27, 28, 29].map fun k => s.cntGet (Reg.MAC_STAT_LO 3 k)
    cnt (go en) = [64, 1, 1, 0, 0] ∧ cnt (go op) = [64, 1, 1, 0, 1] ∧ ((go op).port 3).mac.reasm = none := by decide +kernel

theorem test_PausesHoldClassesUntilTheyExpire :
    let go (q : Nat) := after (.rxFrameComplete 3 { bytes := pauseFr q }) (mac3fc 1)
    let tags := readTags (macTpids (mac3fc 1) 3) (pauseFr 5)
    tags.etype = 0x8808 ∧ be (pauseFr 5) tags.off 2 = 1 ∧ fcMode (mac3fc 1) 3 = 1 ∧ pauseRxOn (mac3fc 1) 3 = true ∧
    aget? 6 ((go 5).port 3).mac.pause = some 5 ∧ aget? 7 ((go 5).port 3).mac.pause = none ∧
    aget? 0 ((go 0).port 3).mac.pause = none ∧ aget? 6 ((after (.pauseTimeExpiry 3 6) (go 5)).port 3).mac.pause = none ∧
    ctlMay (mac3fc 1) 3 = true ∧ ctlMay (mac3fc 2) 3 = true ∧ xoffMask (mac3fc 1) 0 3 = 3 ∧ fcMode (mac3fc 2) 3 = 2 ∧
    ctlCan (port3 3) 3 = false ∧
    (after (.pauseRefresh 3) (mac3fc 1)).out.length = 1 ∧
    (match (after (.pauseRefresh 3) (mac3fc 2)).out with | [.frame 3 b true] => be b 16 2 | _ => 0) = 3 := by
  decide +kernel

/-- Vector 0x83 with times 5, 0 and, of TC7, 9; TC1 was paused. -/
def pfcFr : List Byte :=
  padded (beBytes 6 0x0180C2000001 ++ zeros 6 ++ beBytes 2 0x8808 ++ beBytes 2 0x101 ++ beBytes 2 0x83 ++ beBytes 2 5 ++
    zeros 12 ++ beBytes 2 9)

theorem test_PausesHoldClassesUntilTheyExpire_pfc :
    let s := (with_ [(Reg.MAC_FC_CFG 3, Fld.MAC_FC_CFG_PFC_RX_EN, 255)] (mac3fc 2)).modMac 3 fun m =>
      { m with pause := [(1, 7), (2, 6)] }
    let t := after (.rxFrameComplete 3 { bytes := pfcFr }) s
    let tags := readTags (macTpids s 3) pfcFr
    tags.etype = 0x8808 ∧ be pfcFr tags.off 2 = 0x101 ∧ be pfcFr (tags.off + 2) 2 = 0x83 ∧ s.linkState 3 = 4 ∧
    (s.port 3).link.stopping = false ∧ nearEnd s 3 = false ∧ pfcFr.length = 60 ∧ maxLenAt s 3 0 = 2000 ∧
    ([0, 1, 2, 3, 7].map fun c => aget? c (t.port 3).mac.pause) = [some 5, none, some 6, none, none] ∧
    t.get (Reg.MAC_FC_STATUS 3) Fld.MAC_FC_STATUS_RX_PAUSED = 5 ∧
    ([15, 16, 17, 22].map fun k => t.cntGet (Reg.MAC_STAT_LO 3 k)) = [1, 1, 0, 1] := by decide +kernel

/-- A pause frame waits for the express frame in transmission, and leaves after it; of two, with a class-7 frame waiting,
the second does not follow at once. -/
theorem test_PausesHoldClassesUntilTheyExpire_waits :
    let busy := (mac3fc 1).modMac 3 fun m => { m with txExpress := some tx1 }
    let one := after (.pauseRefresh 3) busy
    let ends := after (.txFrameEnd 3 true) one
    let seven := egrEnqueue 3 { ef1 with tc := 7 } (mac3fc 1)
    let twice := after (.pauseRefresh 3) (after (.pauseRefresh 3) seven)
    ctlMay busy 3 = false ∧ ctlCan busy 3 = true ∧ one.out = [] ∧ (one.port 3).mac.ctl.length = 1 ∧ ends.out.length = 2 ∧
    (ends.port 3).mac.ctl = [] ∧ egrQueue seven 3 7 ≠ [] ∧ ctlMay (after (.pauseRefresh 3) seven) 3 = false ∧
    twice.out.length = 1 ∧ (twice.port 3).mac.ctl.length = 1 ∧
    (stepped { twice with now := 100 }).out.length = 2 := by decide +kernel

/-- Port 3 in near-end loopback, these waiting for its own receiver. -/
def loop1 (s : State) (l : List Output) : State :=
  (with_ [(Reg.LANE_TEST 3, Fld.LANE_TEST_LOOPBACK, 1)] s).modMac 3 fun m => { m with loop := l }

theorem test_PreemptionIsVerifiedAndUsed :
    let on := Fld.MAC_MERGE_CFG_EN.into 0 1
    let cfg (s : State) := with_ [(Reg.MAC_MERGE_CFG 3, Fld.MAC_MERGE_CFG_EN, 1)] s
    let en := mac3.modMac 3 fun m => { m with mergeEn := true }
    let busy := mac3.modMac 3 fun m => { m with txPreempt := some tx1 }
    let ver (k : Nat) := with_ [(Reg.MAC_MERGE_STATUS 3, Fld.MAC_MERGE_STATUS_VERIFY, 2)]
      (cfg (en.modMac 3 fun m => { m with verifyTries := k }))
    let long := { tx1 with sent := zeros 200 }
    let act := with_ [(Reg.MAC_MERGE_STATUS 3, Fld.MAC_MERGE_STATUS_ACTIVE, 1)]
      (en.modMac 3 fun m => { m with txPreempt := some long })
    (after (.mergeCfgWrite 3 on) mac3).out = [.verify 3] ∧ ((after (.mergeCfgWrite 3 0) en).port 3).mac.mergeEn = false ∧
    ((after (.mergeCfgWrite 3 (if verifyDis busy 3 then on ||| Fld.MAC_MERGE_CFG_VERIFY_DIS.into 0 1 else on)) busy).port
      3).mac.mergeEn = false ∧
    mergeEnCfg (cfg mac3) 3 = true ∧ ((after (.mergeEnTakesEffect 3) (cfg mac3)).port 3).mac.mergeEn = true ∧
    verifyState (ver 2) 3 = 2 ∧ (after (.verifyTimer 3) (ver 2)).out = [.verify 3] ∧
    verifyState (after (.verifyTimer 3) (ver 3)) 3 = 4 ∧ (after (.verifyMpacketReceived 3) en).out = [.respond 3] ∧
    nearEnd (loop1 en []) 3 = true ∧ after (.verifyMpacketReceived 3) (loop1 en []) = loop1 en [] ∧
    after (.respondMpacketReceived 3) (loop1 en []) = loop1 en [] ∧
    ((after (.verifyMpacketReceived 3) (loop1 en [.verify 3])).port 3).mac.loop = [.respond 3] ∧
    mergeActive (after (.respondMpacketReceived 3) (ver 1)) 3 = true ∧ mergeActive act 3 = true ∧
    ((after (.preemption 3 140) act).port 3).mac.txPreempt =
      some { long with held := true, done := 140, fragments := 2 } ∧
    ((after (.fragmentResume 3) (after (.preemption 3 140) act)).port 3).mac.txPreempt =
      some { long with done := 140, fragments := 2 } ∧
    eligible act 3 7 = none ∧ mayLeave act tx1.ef.frame = true ∧ txFree act 3 = true ∧
    after (.fragmentResume 3) (egrEnqueue 3 { ef1 with tc := 7 } (after (.preemption 3 140) act)) =
      egrEnqueue 3 { ef1 with tc := 7 } (after (.preemption 3 140) act) := by decide +kernel

/-- EN written 0 and 1 again with a frame partly sent: it verifies once that frame has ended. Far-end loopback; an
express head that the MAC cannot take, preemption being no longer active. -/
theorem test_PreemptionIsVerifiedAndUsed_rise :
    let en := with_ [(Reg.MAC_MERGE_CFG 3, Fld.MAC_MERGE_CFG_EN, 1)] (mac3.modMac 3 fun m =>
      { m with mergeEn := true, txPreempt := some tx1 })
    let off := after (.mergeCfgWrite 3 0) en
    let on := after (.mergeCfgWrite 3 (Fld.MAC_MERGE_CFG_EN.into 0 1)) off
    let idle := on.modMac 3 fun m => { m with txPreempt := none }
    let far := with_ [(Reg.LANE_TEST 3, Fld.LANE_TEST_LOOPBACK, 3), (Reg.LANE_STATUS 3, Fld.LANE_STATUS_STATE, 6)] mac3
    let stays := egrEnqueue 3 { ef1 with tc := 7 } (en.modMac 3 fun m => { m with txPreempt := some { tx1 with held := true } })
    (off.port 3).mac.mergeEn = true ∧ mergeEnCfg off 3 = false ∧ (on.port 3).mac.mergeRise = true ∧ on.out = [] ∧
    (after (.mergeEnTakesEffect 3) idle).out = [.verify 3] ∧ verifyState (after (.mergeEnTakesEffect 3) idle) 3 = 2 ∧
    farEnd far 3 = true ∧ (after (.verifyMpacketReceived 3) far).out = [.verify 3] ∧
    (after (.respondMpacketReceived 3) far).out = [.respond 3] ∧
    (eligible stays 3 7).isSome = true ∧ mergeActive stays 3 = false ∧
    after (.egressSelect 3 true) stays = stays ∧
    ((after (.fragmentResume 3) stays).port 3).mac.txPreempt = some tx1 := by decide +kernel

theorem test_StatClearZeroesTheCounters :
    (after (.statClear 3) (s0.cntSet (Reg.MAC_STAT_LO 3 71) 77)).cntGet (Reg.MAC_STAT_LO 3 71) = 0 := by decide +kernel

/-! ### Egress -/

/-- Frames queued at port 3. -/
def egr3 (l : List EFrame) : State := l.foldl (fun s f => egrEnqueue 3 f s) mac3

theorem test_EgressChoosesSendsAndGates :
    let two := egr3 [ef1, { ef1 with tc := 7 }]
    let one := egr3 [{ ef1 with tc := 2 }, { ef1 with tc := 5 }]
    let go (s : State) := (after (.egressSelect 3 true) s).port 3
    let sent (ex : Bool) (s : State) := (after (.txFrameEnd 3 ex) s).out
    let pre := mac3.modMac 3 fun m => { m with txPreempt := some tx1 }
    let exp := mac3.modMac 3 fun m => { m with txExpress := some tx1 }
    txFree two 3 = true ∧ mergeActive two 3 = false ∧ (eligible two 3 7).isSome = true ∧
    (go two).mac.txExpress.map (·.ef.tc) = some 7 ∧ chooseClass one 3 = some 5 ∧
    (go one).mac.txExpress.map (·.ef.tc) = some 5 ∧ ef1.frame.txTs = none ∧
    sent true exp = [.frame 3 (zeros 60) true] ∧
    sent false pre = [.mpacket 3 (txPacket tx1 60 true) true] ∧ (txPacket tx1 60 true).bytes = zeros 60 ∧
    tx1.ef.frame.known ∧
    ((after (.txFrameEnd 3 true) (loop1 exp [])).port 3).mac.loop = [.frame 3 (zeros 60) true] := by decide +kernel

/-- With preemption active: a class-7 head, a head of class 2, both; a frame held, and one in flight. -/
theorem test_EgressChoosesSendsAndGates_preemption :
    let act := with_ [(Reg.MAC_MERGE_STATUS 3, Fld.MAC_MERGE_STATUS_ACTIVE, 1)] (mac3.modMac 3 fun m => { m with mergeEn := true })
    let q (l : List Nat) := l.foldl (fun s c => egrEnqueue 3 { ef1 with tc := c } s) act
    let pre (h : Bool) (s : State) := s.modMac 3 fun m => { m with txPreempt := some { tx1 with held := h } }
    let mac (ex : Bool) (s : State) := ((after (.egressSelect 3 ex) s).port 3).mac
    txFree (q [7]) 3 = true ∧ mergeActive (q [7]) 3 = true ∧ (eligible (q [7]) 3 7).isSome = true ∧
    chooseClass (q [2]) 3 = some 2 ∧ eligible (q [2]) 3 7 = none ∧ preemptIdle ((pre true (q [7])).port 3).mac = true ∧
    (mac true (q [7, 2])).txExpress.map (·.ef.tc) = some 7 ∧ (mac true (pre true (q [7, 2]))).txExpress.isSome = true ∧
    (mac false (q [2])).txPreempt.map (fun x => (x.ef.tc, x.fragments, x.held)) = some (2, 1, false) ∧
    (mac false (q [2])).txCount = 1 ∧
    after (.egressSelect 3 true) (q [2]) = q [2] ∧
    after (.egressSelect 3 true) (pre false (q [7])) = pre false (q [7]) ∧
    after (.egressSelect 3 false) (q [7, 2]) = q [7, 2] ∧
    after (.egressSelect 3 false) (pre true (q [2])) = pre true (q [2]) ∧
    after (.egressSelect 3 false) act = act := by decide +kernel

/-- A copy of a stored multicast frame: the first of two to end frees nothing, the last one the blocks of the copy. -/
theorem test_EgressChoosesSendsAndGates_copies :
    let s (n : Nat) := (mac3.modMac 3 fun m => { m with txExpress := some { tx1 with ef := { ef1 with copy := some 4 } } }).modEgress 0
      fun e => { e with sharedUsed := 9, copies := [(4, { left := n, sharedCh := 2, expCh := 0 })] }
    let e (n : Nat) := ((after (.txFrameEnd 3 true) (s n)).stn 0).egress
    ((e 2).sharedUsed, (e 2).copies.map fun c => c.2.left) = (9, [1]) ∧ ((e 1).sharedUsed, (e 1).copies.length) = (7, 0) := by
  decide +kernel

theorem test_EgressChoosesSendsAndGates_gates :
    let a := Reg.EGR_GCL_CTL 0 3
    let ask := Fld.EGR_GCL_CTL_LEN.into (Fld.EGR_GCL_CTL_PENDING.into 0 1) 1
    let list (cycle : Nat) := with_ [(Reg.EGR_GCL_CYCLE 0 3, Fld.EGR_GCL_CYCLE_CYCLE, cycle),
      (Reg.EGR_GATE_INTERVAL 0 3 1 0, Fld.EGR_GATE_INTERVAL_VALUE, cycle)] s0
    let due := s0.modEgr 3 fun e => { e with gates := { e.gates with changeAt := some 20000 } }
    (after (.gateBoundary 3) s0).get (Reg.EGR_GCL_OPER 0 3) Fld.EGR_GCL_OPER_GATES = gatesNow s0 3 % 256 ∧
    gclAccepts (list 100000) 3 1 = true ∧
    ((after (.gclSwitchRequest 3 ask) (list 100000)).port 3).egr.gates.changeAt = some 100000 ∧
    gclAccepts (list 0) 3 1 = false ∧
    (after (.gclSwitchRequest 3 ask) (list 0)).getB a Fld.EGR_GCL_CTL_CFG_ERR = true ∧
    gclBank (after (.gclChangeInstant 3) due) 3 = 1 ∧
    (after (.queueDepthSample 3) (with_ [(Reg.EGR_HIST_CFG 0 3, Fld.EGR_HIST_CFG_SAMPLE_US, 1)] s0)).rdN
      (Reg.EGR_HIST 0 3 5 1 0) = 1 ∧
    (after (.histClear 3 (Fld.EGR_HIST_CFG_CLEAR.into 0 1)) (s0.wr (Reg.EGR_HIST 0 3 5 1 0) 9)).rdN
      (Reg.EGR_HIST 0 3 5 1 0) = 0 := by decide +kernel

/-! ### Commands of a ring -/

/-- A command: its opcode, and the fields of its bytes 8 to 31 by lowest bit. Its completion goes to ring 1. -/
def cmdOf (op : Nat) (fields : List (Nat × Nat)) : Cmd :=
  { desc := leBytes 1 op ++ zeros 1 ++ leBytes 2 1 ++ zeros 4 ++ leBytes 24 (fields.foldl (fun n f => n + f.2 * 2 ^ f.1) 0)
    index := 5, cplRing := 1 }

/-- Ring 1 of Guild g is its enabled CPL ring, ring 2 its CMD ring, which runs a command. -/
def ringed (g : Nat) (c : Cmd) (s : State) : State :=
  (s.modRing g 1 fun r => { r with enabled := true, configured := true, kind := 1, reserved := 1 }).modRing g 2 fun r =>
    { r with enabled := true, configured := true, kind := 0, cmd := some c }

/-- The status and the first n bytes of the result of the completion last written for Guild g. -/
def answer (g n : Nat) (t : State) : Option (Nat × List Byte) :=
  t.out.findSome? fun o => match o with
    | .dma h _ _ b => if h == g && b.length == 32 then some (le b 2 1, (b.drop 8).take n) else none
    | _ => none

/-- Ring 2 of a Guild is ready to start a command. -/
def readyFor (s : State) (g op : Nat) (c : Cmd) : Bool :=
  !s.boot.held && startable s g 2 op == some c && !c.orphan && (s.ring g c.cplRing).enabled &&
    c.acc == 0 && c.acc2 == 0 && c.acc3 == 0

theorem readyFor_iff (s : State) (g op : Nat) (c : Cmd) : readyFor s g op c = true ↔ CmdReady s g 2 op c := by
  simp [readyFor, CmdReady, and_assoc]

/-! ### Parse graph -/

theorem test_ParsePlanesChangeWhenDrained :
    let a := Fld.PRS_CFG_ACTIVE.into 0 1
    let busy := with_ [(Reg.PRS_STATUS 0, Fld.PRS_STATUS_OLD_BUSY, 1)] mac3
    let wrErr (t : State) := t.getB (Reg.PRS_STATUS 0) Fld.PRS_STATUS_WR_ERR
    let word (v : Word) (s : State) := after (.parseMemoryWrite (Reg.PRS_NODE 0 1 2 1) v) s
    Fld.PRS_CFG_ACTIVE.of a ≠ activePlane mac3 0 ∧ oldBusy mac3 0 = false ∧ mac3.full 0 = true ∧ mac3.sound ∧
    activePlane (after (.parsePlaneSwitch 0 a) mac3) 0 = 1 ∧ oldBusy (after (.parsePlaneSwitch 0 a) mac3) 0 = true ∧
    wrErr (after (.parsePlaneSwitch 0 a) busy) = true ∧ oldBusy (after (.oldPlaneDrained 0) busy) 0 = false ∧
    (word 0xFFFFFFFF mac3).rd (Reg.PRS_NODE 0 1 2 1) = 0xFFFFFFF8#32 ∧ wrErr (word 1 busy) = true ∧
    (after (.parseMemoryWrite (Reg.PRS_TRANS 0 1 2047 1) 0xFFFFFFFF) mac3).rd (Reg.PRS_TRANS 0 1 2047 1) = 0x81FF0000#32 := by
  decide +kernel

theorem test_ParsePlanesChangeWhenDrained_commit :
    let v := Fld.PRS_CFG_COMMIT.into 0 1
    let t := after (.prsCommit 0 v) s1
    let spent := s0.modGuild 0 fun h => { h with buckets := [(3, 0, 0), (4, 1, 0)] }
    Fld.PRS_CFG_COMMIT.of v = 1 ∧ keysOn s0 0 = false ∧ keysOn t 0 = true ∧ keysOn (after (.prsCommit 0 0) t) 0 = true ∧
    prsSalt (after (.registerWrite (.link 0) (Reg.PRS_SALT_LO 0) 7 false) t) 0 = prsSalt t 0 ∧
    ((after (.puntBucketWrite 0 3 true 9) spent).guild 0).buckets = [(4, 1, 0)] := by decide +kernel

/-! ### Endpoint tables -/

def key1 : EptKey := { guild := 0, fid := 1, mac := 0 }

/-- Station 0 with an endpoint table and a queue. -/
def eptSt (t : List (Nat × EptKey × EptEntry)) (q : List LearnReq) : State :=
  s0.modEpt 0 fun e => { e with table := t, queue := q }

/-- The first place of key1. -/
def loc1 : Nat := Config.eptIndex 0 key1.guild key1.fid key1.mac % 32768

theorem eptFind_loc1 (s : State) (e : EptEntry) (h : (s.stn 0).ept.table = [(loc1, key1, e)]) :
    eptFind s 0 key1 = some (loc1, e) := by
  have r : List.range 4 = [0, 1, 2, 3] := rfl
  simp only [eptFind, eptLocs, r, State.eptAt, h, List.map_cons, List.findSome?_cons]
  simp [aget?, loc1]

def waits (x : Task) : State := s0.modTasks 0 fun t => { t with slots := [(7, x)] }

theorem test_EndpointsAreLookedUpAndLearned :
    let x : Task := { st := .waiting, frame := { fr 60 with fid := some 1 }, cnt := 2, eptWait := true }
    let s := waits x
    let q (d : Nat) := eptSt [] [.learn { key1 with mac := 5 } d true]
    let full := with_ [(Reg.EPT_QUOTA 0 0, Fld.EPT_QUOTA_LIMIT, 0)] (q 1)
    s.sound ∧ s.task? 0 7 = some x ∧ be x.frame.bytes 0 1 % 2 = 0 ∧ x.ept.daHit = false ∧
    eptFind (q 1) 0 { key1 with mac := 5 } = none ∧ eptOverQuota (q 1) 0 0 = false ∧
    (∃ l ∈ eptLocs { key1 with mac := 5 }, (q 1).eptAt 0 l = none) ∧ eptOverQuota full 0 0 = true ∧
    (after (.learnApply 0) full).cntGet (Reg.EPT_CNT_LO 0 3) = 1 ∧
    (after (.learnApply 0) (q 1)).cntGet (Reg.EPT_CNT_LO 0 0) = 1 := by decide +kernel

/-- An entry of key1: the same DEST, another DEST with STATIC, frozen, or neither. -/
theorem test_EndpointsAreLookedUpAndLearned_known (e : EptEntry) :
    let s := eptSt [(loc1, key1, e)] [.learn key1 5 true]
    s.running ∧ s.sound ∧ eptFind s 0 key1 = some (loc1, e) ∧
    freezeOver s0 0 { frozen := true, dest := 4 } = false ∧
    moveLimit (with_ [(Reg.EPT_MOVE_CFG 0, Fld.EPT_MOVE_CFG_MOVE_LIMIT, 0)] s0) 0 = 0 :=
  ⟨by rfl, ⟨by rfl, (by decide +kernel : s0.getB Reg.TNK_MEMINJ Fld.TNK_MEMINJ_ARM = false), by rfl⟩, eptFind_loc1 _ e (by rfl), by decide +kernel, by decide +kernel⟩

/-- MOVE_LIMIT 3, MOVE_WINDOW and FREEZE_TIME 10, NOW 20. -/
def moving (s : State) : State :=
  with_ [(Reg.EPT_MOVE_CFG 0, Fld.EPT_MOVE_CFG_MOVE_LIMIT, 3), (Reg.EPT_MOVE_CFG 0, Fld.EPT_MOVE_CFG_MOVE_WINDOW, 10),
    (Reg.EPT_MOVE_CFG 0, Fld.EPT_MOVE_CFG_FREEZE_TIME, 10), (Reg.EPT_STATUS 0, Fld.EPT_STATUS_NOW, 20)] s

/-- An entry that moves for the first time, again within its window, at the limit; a frozen one whose freeze holds, and
one whose freeze is over, which the sweep unfreezes too. -/
theorem test_EndpointsAreLookedUpAndLearned_moves :
    let e (n ts : Nat) (fz : Bool) : EptEntry := { dest := 4, mvCnt := n, mvTs := ts, frozen := fz, ts := 20 }
    let s (x : EptEntry) := moving (eptSt [(0, key1, x)] [.learn key1 5 true])
    let go (x : EptEntry) := eptMove 0 0 key1 x 5 false (s x)
    let sweep (x : EptEntry) := (after (.eptSweepVisit 0) (s x)).eptAt 0 0
    moveLimit (s (e 0 0 false)) 0 = 3 ∧ moveWindow (s (e 0 0 false)) 0 = 10 ∧ ticksSince 20 15 = 5 ∧
    freezeOver (s (e 3 10 true)) 0 (e 3 10 true) = true ∧ freezeOver (s (e 3 15 true)) 0 (e 3 15 true) = false ∧
    (go (e 0 0 false)).eptAt 0 0 = some (key1, { e 1 20 false with dest := 5 }) ∧
    (go (e 1 15 false)).eptAt 0 0 = some (key1, { e 2 15 false with dest := 5 }) ∧
    (go (e 3 15 false)).eptAt 0 0 = some (key1, e 3 20 true) ∧
    (go (e 3 15 false)).cntGet (Reg.EPT_CNT_LO 0 5) = 1 ∧
    (go (e 3 10 false)).eptAt 0 0 = some (key1, { e 1 20 false with dest := 5 }) ∧
    sweep (e 3 10 true) = some (key1, e 0 10 false) ∧ sweep (e 3 15 true) = some (key1, e 3 15 true) ∧
    sweep (e 3 10 false) = some (key1, e 0 10 false) := by decide +kernel

/-- The same entries are found under their key. -/
theorem test_EndpointsAreLookedUpAndLearned_moving (e : EptEntry) :
    eptFind (moving (eptSt [(loc1, key1, e)] [.learn key1 5 true])) 0 key1 = some (loc1, e) :=
  eptFind_loc1 _ e (by rfl)

/-- A table in which the places of key1 and those of another key all hold entries of that other key. -/
def fullTable : List (Nat × EptKey × EptEntry) :=
  (eptLocs key1 ++ eptLocs { key1 with mac := 5 }).map fun l => (l, { key1 with mac := 5 }, { dest := 5 })

theorem aget?_map_const {α : Type} (v : α) (k : Nat) :
    ∀ l : List Nat, k ∈ l → aget? k (l.map fun i => (i, v)) = some v := by
  intro l
  induction l with
  | nil => simp
  | cons i r ih =>
    intro h
    simp only [List.map_cons, aget?]
    split
    · rfl
    · rcases List.mem_cons.1 h with h | h
      · exact absurd h.symm ‹_›
      · exact ih h

theorem eptChain_full (s : State) (j : EptKey) (e : EptEntry) (f : Nat) (h : ∀ l ∈ eptLocs j, s.eptAt 0 l = some (j, e)) :
    ∀ n seen l, s.eptAt 0 l = some (j, e) → eptChain s 0 f n seen l = none := by
  intro n
  induction n with
  | zero => intro seen l hl; unfold eptChain; rw [hl]
  | succ n ih =>
    intro seen l hl
    unfold eptChain
    rw [hl]
    simp only []
    rw [List.findSome?_eq_none_iff]
    intro m hm
    have hm : m ∈ eptLocs j := (List.mem_filter.1 (List.mem_rotate.1 hm)).1
    rw [ih _ m (h m hm)]; rfl

/-- No chain of moves frees a place for key1: the learn request of the full table. -/
theorem test_EndpointsAreLookedUpAndLearned_full :
    let s := eptSt fullTable [.learn key1 5 true]
    eptFind s 0 key1 = none ∧ eptOverQuota s 0 0 = false ∧ s.running ∧
    ∀ d, ∀ l ∈ eptLocs key1, eptChain s 0 d 16 [] l = none := by
  have at_ : ∀ l, l ∈ eptLocs key1 ++ eptLocs { key1 with mac := 5 } →
      (eptSt fullTable [.learn key1 5 true]).eptAt 0 l = some ({ key1 with mac := 5 }, { dest := 5 }) := fun l h =>
    aget?_map_const _ l _ h
  refine ⟨?_, by decide +kernel, rfl, fun d l h => ?_⟩
  · unfold eptFind
    rw [List.findSome?_eq_none_iff]
    intro l h
    rw [at_ l (List.mem_append_left _ h)]
    exact if_neg (by decide)
  · exact eptChain_full _ _ _ d (fun m hm => at_ m (List.mem_append_right _ hm)) _ _ l (at_ l (List.mem_append_left _ h))

/-- A group destination; a source that is observed and new; a group source; one that waits already; no learning. -/
theorem test_EndpointsAreLookedUpAndLearned_sources :
    let x (da sa : Nat) (learn : Bool) : Task := { st := .waiting, cnt := 2, eptWait := true, frame :=
      { fr 60 with bytes := beBytes 6 da ++ beBytes 6 sa ++ zeros 48, fid := some 1, learn := learn, inPort := 3 } }
    let s (t : Task) := with_ [(Reg.EPT_CFG 0, Fld.EPT_CFG_LEARN, 1), (Reg.EPT_PORT 0 3, Fld.EPT_PORT_LEARN_EN, 1)] (waits t)
    let go (t : Task) := after (.eptLookupDone 0 7) (s t)
    let queue (t : State) := (t.stn 0).ept.queue
    let new : LearnReq := .learn { key1 with mac := 9 } 3 false
    (s (x 4 9 true)).cfgB (Reg.EPT_CFG 0) Fld.EPT_CFG_LEARN = true ∧
    (s (x 4 9 true)).cfgB (Reg.EPT_PORT 0 3) Fld.EPT_PORT_LEARN_EN = true ∧
    eptFind (s (x 4 9 true)) 0 { key1 with mac := 9 } = none ∧ queue (s (x 4 9 true)) = [] ∧
    queue (go (x 4 9 true)) = [new] ∧ queue (go (x (2 ^ 40) 9 true)) = [new] ∧
    ((go (x (2 ^ 40) 9 true)).task? 0 7).map (·.ept.daHit) = some false ∧
    queue (go (x 4 (2 ^ 40) true)) = [] ∧ (go (x 4 (2 ^ 40) true)).cntGet (Reg.EPT_CNT_LO 0 9) = 1 ∧
    queue (go (x 4 9 false)) = [] := by decide +kernel

/-- The source is known, at its port. -/
theorem test_EndpointsAreLookedUpAndLearned_refresh (e : EptEntry) (x : Task) :
    eptFind ((waits x).modEpt 0 fun t => { t with table := [(loc1, key1, e)] }) 0 key1 = some (loc1, e) :=
  eptFind_loc1 _ e (by rfl)

theorem test_EndpointsAgeAndTakeCommands :
    let e : EptEntry := { dest := 5, ts := 0 }
    let old (mode : Nat) (e : EptEntry) := with_ [(Reg.EPT_STATUS 0, Fld.EPT_STATUS_NOW, 9),
      (Reg.EPT_AGE_CFG 0, Fld.EPT_AGE_CFG_AGE_LIMIT, 9), (Reg.EPT_CFG 0, Fld.EPT_CFG_AGE_MODE, mode)]
      (eptSt [(0, key1, e)] [])
    let go (s : State) := ((after (.eptSweepVisit 0) s).stn 0).ept.table
    eptNow (after (.eptNowTick 0) (with_ [(Reg.EPT_STATUS 0, Fld.EPT_STATUS_NOW, 65535)] s0)) 0 = 0 ∧
    s0.eptAt 0 0 = none ∧ ((after (.eptSweepVisit 0) s0).stn 0).ept.sweepAt = 1 ∧
    (old 0 e).eptAt 0 0 = some (key1, e) ∧ ageLimit (old 0 e) 0 = 9 ∧ go (old 0 e) = [] ∧
    go (old 1 e) = [(0, key1, { e with aged := true })] ∧ go (old 0 { e with static := true }) =
      [(0, key1, { e with static := true })] ∧ go (old 0 { e with ts := 1 }) = [(0, key1, { e with ts := 1 })] := by
  decide +kernel

/-- EPT_ADD of key1 in station 0, its DEST 5. -/
def eptCmd (op stations : Nat) : Cmd := cmdOf op [(0, stations), (16, 1), (80, 5)]

theorem test_EndpointsAgeAndTakeCommands_commands :
    let s (op : Nat) := ringed 0 (eptCmd op 1) s0
    let none_ (op : Nat) := ringed 0 (eptCmd op 0) s0
    let c := eptCmd 0x10 1
    ([0x10, 0x11, 0x12, 0x13, 0x14].all fun op =>
      readyFor (s op) 0 op (eptCmd op 1) && readyFor (none_ op) 0 op (eptCmd op 0)) = true ∧
    stationsOf (cmdStations c) = [0] ∧ stationsOf (cmdStations (eptCmd 0x10 0)) = [] ∧ cmdKey 0 c = key1 ∧
    ((s 0x10).stn 0).ept.queue = [] ∧ ((s 0x10).stn 0).ept.blocked = [] ∧ badDest (s 0x10) 0 c = none ∧
    eptOverQuota (s 0x10) 0 0 = false ∧ (∃ l ∈ eptLocs key1, (s 0x10).eptAt 0 l = none) ∧
    answer 0 2 (after (.eptAdd 0 2) (none_ 0x10)) = some (0x14, zeros 2) ∧
    answer 0 2 (after (.learnApply 0) (after (.eptAdd 0 2) (s 0x10))) = some (0, zeros 2) ∧
    answer 0 4 (after (.learnApply 0) (after (.eptFlush 0 2)
      ((s 0x12).modEpt 0 fun t => { t with table := [(0, key1, { dest := 5 })] }))) = some (0, leBytes 4 1) := by
  decide +kernel

theorem test_EndpointsAgeAndTakeCommands_known (e : EptEntry) :
    eptFind ((ringed 0 (eptCmd 0x11 1) s0).modEpt 0 fun t => { t with table := [(loc1, key1, e)] }) 0 key1 = some (loc1, e) :=
  eptFind_loc1 _ e (by rfl)

/-! ### Routes -/

/-- 10.0.0.0/len in VRF 0 with the word 0x155. -/
def lpmCmd (op len : Nat) : Cmd := cmdOf op [(0, len), (32, 0x155), (64, 10)]

def key10 : RouteKey := { guild := 0, vrf := 0, ipv6 := false, len := 8, pfx := 10 }

theorem test_RoutesAreLookedUpAndKept :
    let x : Task := { st := .waiting, frame := { fr 60 with inPort := 3 }, cnt := 1, routeWait := true
                      l3dst := some (false, 0x0A010203) }
    let s : State := { waits x with routes := [(key10, 5), ({ key10 with len := 16, pfx := 0x0A01 }, 6)] }
    let miss : State := { waits x with routes := [({ key10 with guild := 1 }, 5)] }
    let y (s : State) := (after (.routeLookupDone 0 7) s).task? 0 7
    s.sound ∧ s.task? 0 7 = some x ∧ routeData s { key10 with len := 16, pfx := prefixOf false 16 0x0A010203 } = some 6 ∧
    routeData s key10 = some 5 ∧ (y s).map (·.route.word) = some 6 ∧ (y s).map (·.st) = some .ready ∧
    (y miss).map (·.route.hit) = some false := by decide +kernel

theorem test_RoutesAreLookedUpAndKept_commands :
    let rd (op len : Nat) (l : List (RouteKey × Nat)) : State := { ringed 0 (lpmCmd op len) s0 with routes := l }
    let one := [(key10, 5)]
    readyFor (rd 0x18 8 []) 0 0x18 (lpmCmd 0x18 8) = true ∧ lpmKey 0 (lpmCmd 0x18 8) = key10 ∧
    badPrefix (lpmCmd 0x18 8) = false ∧ badPrefix (lpmCmd 0x18 4) = true ∧ routeData (rd 0x18 8 []) key10 = none ∧
    routeCount (rd 0x18 8 []) false < routeLimit false ∧ routeGuildCount (rd 0x18 8 []) 0 false < routeQuota s0 0 false ∧
    lpmReplace (lpmCmd 0x18 8) = false ∧
    answer 0 0 (after (.lpmAdd 0 2) (rd 0x18 8 one)) = some (0x15, []) ∧
    answer 0 0 (after (.lpmAdd 0 2) (rd 0x18 8 [])) = some (0, []) ∧
    routeData (after (.lpmAdd 0 2) (rd 0x18 8 [])) key10 = some 0x155 ∧
    (after (.lpmDel 0 2) (rd 0x19 8 one)).routes = [] ∧
    answer 0 4 (after (.lpmRead 0 2) (rd 0x1A 8 one)) = some (0, leBytes 4 5) ∧
    answer 0 0 (after (.lpmRead 0 2) (rd 0x1A 4 one)) = some (0x17, []) := by decide +kernel

/-! ### Tasks -/

theorem test_TasksGoFromTokenToRelease_tokens :
    let f : Frame := { fr 60 with inPort := 3, cls := 2 }
    let s := mac3.modTasks 0 fun t => { t with laneN := [f] }
    let none_ := with_ [(Reg.TSK_CFG 0, Fld.TSK_CFG_XSLOTS, 512)] (s.modTasks 0 fun t =>
      { t with slots := (List.range 1600).map fun k => (k, { st := .done, frame := f }) })
    let t := after (.tokenTake 0) s
    intakeRuns s0 0 = false ∧ intakeRuns s 0 = true ∧ 2 ∈ laneOrder s 0 ∧ s.sound ∧ f.known ∧ laneBlocked s 0 2 = false ∧
    xslots s 0 < freeTasks s 0 ∧ freeTasks none_ 0 ≤ xslots none_ 0 ∧
    (t.stn 0).tasks.orqs = [(26, [0])] ∧ (t.task? 0 0).map (·.frame.bytes) = some f.bytes ∧
    t.cntGet (Reg.TSK_CNT_LO 0 0) = 1 ∧ ((after (.tokenTake 0) none_).stn 0).tasks.stalled = [2] ∧
    ((after (.laneResume 0 2) (s.modTasks 0 fun t => { t with stalled := [2] })).stn 0).tasks.stalled = [] := by
  decide +kernel

/-- An express head goes first, and stalls its lane where no slot is FREE. -/
theorem test_TasksGoFromTokenToRelease_express :
    let f : Frame := { fr 60 with inPort := 3, cls := 7 }
    let full (n : Nat) := mac3.modTasks 0 fun t =>
      { t with laneX := [f], laneN := [f], slots := (List.range n).map fun k => (k, { st := .done, frame := f }) }
    let one := full 3
    let t := after (.tokenTake 0) one
    let u := after (.tokenTake 0) (full 2048)
    intakeRuns one 0 = true ∧ laneOrder one 0 = [0, 1, 2] ∧ laneBlocked one 0 0 = false ∧
    laneBlocked one 0 1 = false ∧ freeTasks one 0 ≠ 0 ∧ freeTasks (full 2048) 0 = 0 ∧
    (t.stn 0).tasks.laneX = [] ∧ (t.stn 0).tasks.laneN = [f] ∧ aget [] 31 (t.stn 0).tasks.orqs = [3] ∧
    (u.stn 0).tasks.laneX = [f] ∧ 1 ∈ (u.stn 0).tasks.stalled := by decide +kernel

theorem test_TasksGoFromTokenToRelease_residency :
    let x : Task := { st := .waiting, frame := fr 60, cnt := 1 }
    let go (st : TaskState) := after (.residencyExpiry 0 7) (waits { x with st := st })
    (waits x).task? 0 7 = some x ∧ ((go .waiting).task? 0 7).map (·.st) = some .done ∧
    (go .ready).cntGet (Reg.TSK_CNT_LO 0 5) = 1 ∧
    (go .ready).getB (Reg.TSK_EVENT 0) Fld.TSK_EVENT_RES_DROP = true ∧
    (go .running).task? 0 7 = some { x with st := .running, aged := true } ∧
    go .done = waits { x with st := .done } := by decide +kernel

/-- A READY task of an opcode with an entry, or without. -/
def readyTask (disp : List (Nat × Nat)) : State :=
  (s0.modTasks 0 fun t => { t with slots := [(7, { st := .ready, frame := fr 60 })], ready := [(0, [7])] }).modStn 0 fun n =>
    { n with store := { words := [], disp := disp } }

theorem test_TasksGoFromTokenToRelease_dispatch :
    let x : Task := { st := .ready, frame := fr 60 }
    let op := taskOpcode s0 0 x
    let s := readyTask [(op, 0x80000064)]
    let t (s : State) (e : Fin 24) := after (.taskDispatch 0 e) s
    let e := (List.finRange 24).find? fun e => (engineTask s 0 e.val).isSome
    let run := e.bind fun e => aget? e.val ((t s e).stn 0).tasks.engines
    (s.stn 0).store.entry op = some 100 ∧ ((readyTask [(op, 100)]).stn 0).store.entry op = none ∧
    dispatchStopped s 0 = false ∧ s.sound ∧ s.task? 0 7 = some x ∧ e.isSome = true ∧
    (e.map fun e => (engineTask s 0 e.val).map Prod.fst) = some (some 7) ∧ (run.map (·.pc)) = some 100 ∧
    (run.map fun r => (r.task, r.words, r.frame)) = some (7, 0, zeros 60) ∧
    (e.bind fun e => (t s e).task? 0 7) = some { x with st := .running } ∧
    (e.map fun e => ((t (readyTask []) e).cntGet (Reg.STN_AE_CNT_LO 0 7),
      (t (readyTask []) e).task? 0 7 == some { x with st := .done })) = some (1, true) ∧
    engineTask s0 0 3 = none := by decide +kernel

/-- A hand-off to an engine that may run it, and one to a reserved engine that may not. -/
theorem test_TasksGoFromTokenToRelease_handOff :
    let s (e : Nat) := (readyTask []).modTasks 0 fun t => { t with handTo := [(e, 7)] }
    let open_ := (List.range 24).find? fun e => reservedEngine (s e) 0 e == false
    let held := (List.range 24).find? fun e => reservedEngine (s e) 0 e
    (open_.map fun e => (mayRunOn (s e) 0 e 7, (engineTask (s e) 0 e).map Prod.fst)) = some (true, some 7) ∧
    (held.map fun e => (mayRunOn (s e) 0 e 7, (engineTask (s e) 0 e).isNone)) = some (false, true) := by decide +kernel

theorem test_TasksGoFromTokenToRelease_dispatchOrder :
    let s := (readyTask []).modTasks 0 fun t => { t with ready := [(0, [7]), (4, [8])] }
    groupHead s 0 4 = some 8 ∧ ((List.range 24).any fun e => (engineTask s 0 e).map Prod.fst == some 8) = true ∧
    ((List.range 24).any fun e => reservedEngine s 0 e) = true := by decide +kernel

/-- A finished task at the head of queue 26 with a decision. -/
def doneTask (d : Decision) : State :=
  mac3.modTasks 0 fun t =>
    { t with slots := [(7, { st := .done, frame := { fr 60 with inPort := 3, cells := [9] }, dec := d })]
             orqs := [(26, [7, 8])] }

theorem test_TasksGoFromTokenToRelease_release :
    let go (s : State) := after (.orderedRelease 0 26) s
    let uni := doneTask { action := 1, dest := 3, tc := 7 }
    let mc : State := { doneTask { action := 2, tc := 1, mgrp := 4 } with groups := [(4, ⟨0, false, 2 ^ 20⟩)] }
    let x : Task := { st := .done, frame := { fr 60 with inPort := 3, cells := [9] } }
    x.holds = false ∧ (doneTask {}).sound ∧ x.frame.known ∧ (doneTask {}).task? 0 7 = some x ∧
    uni.validDest 3 = true ∧ mcPrune false 3 (2 ^ 20) ≠ 0 ∧
    go (waits { x with st := .ready }) = waits { x with st := .ready } ∧
    (go (doneTask {})).task? 0 7 = none ∧ aget [] 26 ((go (doneTask {})).stn 0).tasks.orqs = [8] ∧
    (go (doneTask {})).cntGet (Reg.TSK_CNT_LO 0 9) = 1 ∧
    (aget [] 31 ((go uni).stn 0).core.voqs).map (fun y => (y.frame.bytes, y.dest, y.tc)) = [(zeros 60, 3, 7)] ∧
    (aget [] 1 ((go mc).stn 0).core.mcqs).map (fun y => (y.frame.bytes, y.mgrp)) = [(zeros 60, 4)] ∧
    ((go mc).cntGet (Reg.SWC_CNT_LO 0 8) = 1 ∧ (uni.stn 0).yields = false) ∧
    (go (uni.modStn 0 fun n => { n with yields := true })).cntGet (Reg.MATE_CNT_LO 2) = 1 := by decide +kernel

/-- PUNT to destination 144, a destination that is not valid, a VOQ that is full; marked and dropped past ECN_TH. -/
theorem test_TasksGoFromTokenToRelease_unicast :
    let go (s : State) := after (.orderedRelease 0 26) s
    let cnt (k : Nat) (s : State) := (go s).cntGet (Reg.SWC_CNT_LO 0 k)
    let voq (v : Nat) (s : State) := (aget [] v ((go s).stn 0).core.voqs).map fun y => (y.frame.bytes, y.dest, y.tc, y.reason)
    let uni (dest tc : Nat) := doneTask { action := 1, dest := dest, tc := tc }
    let old : XFrame := { frame := { fr 60 with cells := List.replicate 9000 1 }, dest := 3, tc := 2 }
    let full := (with_ [(Reg.SWC_CLASS 0 2, Fld.SWC_CLASS_ALPHA, 0)] (uni 3 2)).modCore 0 fun c => { c with voqs := [(26, [old])] }
    let ip (ecn mode : Nat) := (with_ [(Reg.SWC_CLASS 0 2, Fld.SWC_CLASS_ECN_TH, 0), (Reg.SWC_CLASS 0 2, Fld.SWC_CLASS_ECN_MODE, mode)]
      (uni 3 2)).modTask 0 7 fun x =>
        { x with l3 := [(14, 20)], frame := { x.frame with bytes := zeros 14 ++ [0x45#8, BitVec.ofNat 8 ecn] ++ zeros 44 } }
    let marked : List Byte := ecnMark false 14 (zeros 14 ++ [0x45#8, 2#8] ++ zeros 44)
    voq 1154 (doneTask { action := 3, reason := 24, tc := 2 }) = [(zeros 60, 144, 2, 24)] ∧
    (doneTask {}).validDest 144 = true ∧ (doneTask {}).validDest 150 = false ∧ cnt 1 (uni 150 2) = 1 ∧
    leAlpha 0 9001 (ingSharedFree full 0) = false ∧ frameLossless full (fr 60) = false ∧ cnt 2 full = 1 ∧
    (go full).cntGet (Reg.SWC_PCNT_LO 0 3 2) = 1 ∧ voqDepth full 0 26 = 9000 ∧
    voq 26 (ip 2 1) = [(marked, 3, 2, 0)] ∧ marked.getD 15 0#8 = 3#8 ∧ cnt 6 (ip 2 1) = 1 ∧
    voq 26 (ip 3 1) = [(zeros 14 ++ [0x45#8, 3#8] ++ zeros 44, 3, 2, 0)] ∧ voq 26 (ip 0 2) = [] ∧ cnt 7 (ip 0 2) = 1 := by
  decide +kernel

/-- A group that does not exist, another Guild's, one that leaves no destination; a flood set, and an empty one. -/
theorem test_TasksGoFromTokenToRelease_multicast :
    let go (d : Decision) (groups : List (Nat × McGroup)) : State := after (.orderedRelease 0 26)
      { doneTask { d with action := 2, tc := 1 } with groups := groups }
    let cnt (k : Nat) (t : State) := t.cntGet (Reg.SWC_CNT_LO 0 k)
    cnt 12 (go { mgrp := 4 } []) = 1 ∧ cnt 11 (go { mgrp := 4 } [(4, ⟨1, false, 2 ^ 20⟩)]) = 1 ∧
    mcPrune false 3 (2 ^ 3) = 0 ∧ cnt 13 (go { mgrp := 4 } [(4, ⟨0, false, 2 ^ 3⟩)]) = 1 ∧
    cnt 8 (go { flood := some 6 } []) = 1 ∧ cnt 13 (go { flood := some 0 } []) = 1 ∧
    (aget [] 1 ((go { flood := some 6 } []).stn 0).core.mcqs).map (·.flood) = [some 6] := by decide +kernel

theorem test_TasksGoFromTokenToRelease_shared :
    let s := doneTask { action := 1, dest := 3, tc := 2 }
    let w := s.rd (Reg.SWC_CLASS 0 2)
    leAlpha (Fld.SWC_CLASS_ALPHA.of w) (voqDepth s 0 26 + 1) (ingSharedFree s 0) = true ∧
    voqDepth s 0 26 < Fld.SWC_CLASS_ECN_TH.of w := by decide +kernel

/-! ### Rules -/

/-- The image of an entry that matches every key. -/
def image (prio result : Nat) : List Byte := zeros 160 ++ leBytes 8 result ++ leBytes 1 prio ++ leBytes 1 1 ++ zeros 6

/-- Guild 0 may use the first 16 indices; task 7 waits for a policy search. -/
def ruled (l : List (Nat × RuleEntry)) : State :=
  (with_ [(Reg.RUL_GUILD_RANGE 0 0, Fld.RUL_GUILD_RANGE_COUNT, 16)]
    (waits { st := .waiting, frame := { fr 60 with inPort := 3 }, cnt := 1, ruleWait := .queued })).modRules 0 fun r =>
      { r with entries := l, queue := [.policy 7] }

theorem test_RulesAreSearchedWrittenAndCommitted_search :
    let s := ruled [(0, imageEntry 0 (image 2 5)), (1, imageEntry 0 (image 3 6)), (2, imageEntry 0 (image 3 7))]
    let t := after (.ruleSearch 0) s
    let def_ := after (.ruleSearch 0) ((ruled []).modRules 0 fun r => { r with defaults := [(0, 9)] })
    s.sound ∧ (s.stn 0).rules.queue = [.policy 7] ∧ (t.task? 0 7).map (fun y => (y.rule, y.searched, y.st)) =
      some (some 6, true, .ready) ∧ t.cntGet (Reg.RUL_CNT_LO 0 0) = 1 ∧ (def_.task? 0 7).map (·.rule) = some (some 9) := by
  decide +kernel

/-- The search of a dropped task, and an empty queue. -/
theorem test_RulesAreSearchedWrittenAndCommitted_gone :
    let s := (ruled []).modRules 0 fun r => { r with queue := [.gone 0 0 5 2] }
    (after (.ruleSearch 0) s).cntGet (Reg.RUL_CNT_LO 0 0) = 1 ∧
    after (.ruleSearch 0) s0 = s0 := by decide +kernel

/-- A lease-wait entry that waits for its creation search, of task 7. -/
def lease4 : LeaseEntry := { sig := 1, d := 0, key := [1#8], st := .fill, phase := .rule, tasks := [7] }

/-- The default result of Guild 0 is r. -/
def creating (r : Nat) : State :=
  ((waits { st := .waiting, frame := { fr 60 with inPort := 3 }, cnt := 1, key := some [1#8] }).modIce 0 fun i =>
    { i with entries := [(4, lease4)] }).modRules 0 fun x => { x with queue := [.creation 4 true], defaults := [(0, r)] }

theorem test_RulesAreSearchedWrittenAndCommitted_creation :
    let y (r : Nat) := (after (.ruleSearch 0) (creating r)).entry? 0 4
    (creating 1).entry? 0 4 = some lease4 ∧ (entryMaker (creating 1) 0 lease4).isSome = true ∧ noState (2 ^ 52) = true ∧
    (y 1).map (·.rule) = some (some 1) ∧ (y 1).map (·.phase) = some .created ∧ (y (2 ^ 52)).map (·.phase) = some .ended := by
  decide +kernel

theorem test_RulesAreSearchedWrittenAndCommitted_commands :
    let wr := cmdOf 0x30 [(0, 1), (16, 3)]
    let rd := cmdOf 0x32 [(0, 1), (16, 3), (64, 4096)]
    let se := cmdOf 0x33 [(0, 1)]
    let d := image 2 5
    let rs (c : Cmd) := ringed 0 c ((ruled [(3, imageEntry 0 d)]).modRules 0 fun r => { r with queue := [] })
    let busy := (rs wr).modRules 0 fun r => { r with drains := [(0, { bank := 1, sync := false })] }
    let t := after (.rulWrite 0 2 (some d)) (rs wr)
    let u := after (.ruleSearch 0) (after (.rulSearch 0 2 (some (zeros 80))) (rs se))
    readyFor (rs wr) 0 0x30 wr = true ∧ readyFor (rs rd) 0 0x32 rd = true ∧ readyFor (rs se) 0 0x33 se = true ∧
    d.length = 176 ∧ badImage d = false ∧ rulFlag wr 0 = false ∧ rulFlag wr 1 = false ∧ stationsOf (cmdStations wr) = [0] ∧
    inRange (rs wr) 0 0 3 = true ∧ aget? 0 ((rs wr).stn 0).rules.drains = none ∧ ruleEntry? (rs wr) 0 1 3 = none ∧
    answer 0 2 t = some (0, zeros 2) ∧ ruleEntry? t 0 1 3 = some (imageEntry 0 d) ∧
    answer 0 2 (after (.rulWrite 0 2 (some d)) busy) = some (0x32, leBytes 2 1) ∧
    answer 0 1 (after (.rulRead 0 2) (rs rd)) = some (0, leBytes 1 1) ∧
    (after (.rulRead 0 2) (rs rd)).out.contains (.dma 0 none 4096 (entryImage (imageEntry 0 d))) = true ∧
    answer 0 12 u = some (0, leBytes 2 0x8003 ++ zeros 2 ++ leBytes 8 5) := by decide +kernel

theorem test_RulesAreSearchedWrittenAndCommitted_commit :
    let c (sync : Nat) := cmdOf 0x31 [(0, 1), (32, sync)]
    let s (n sync : Nat) := with_ [(Reg.RUL_DRAIN 0 0, Fld.RUL_DRAIN_A, n)] (ringed 0 (c sync) (ruled []))
    let t := after (.rulCommit 0 2) (s 0 0)
    let held := (s 0 0).modRules 0 fun r => { r with drains := [(0, { bank := 1, sync := false })] }
    let drn (sync copying : Bool) := (ruled [(3, imageEntry 0 (image 2 5))]).modRules 0 fun r =>
      { r with drains := [(0, { bank := 1, sync := sync, copying := copying })], defaults := [(0, 9)] }
    let drains (t : State) := aget? 0 (t.stn 0).rules.drains
    readyFor (s 0 0) 0 0x31 (c 0) = true ∧ drains (s 0 0) = none ∧ activeBank t 0 0 = 1 ∧ drains t = none ∧
    answer 0 3 t = some (0, leBytes 2 1 ++ leBytes 1 1) ∧ t.cntGet (Reg.RUL_CNT_LO 0 11) = 1 ∧
    drains (after (.rulCommit 0 2) (s 4 1)) = some { bank := 0, sync := true } ∧
    activeBank (after (.rulCommit 0 2) held) 0 0 = 0 ∧ ((after (.rulCommit 0 2) held).ring 0 2).cmd = none ∧
    answer 0 16 (after (.rulCommit 0 2) held) = some (0x33, zeros 16) ∧
    drainCount (drn true false) 0 0 1 = 0 ∧
    drains (after (.rulDrainDone 0 0) (drn false false)) = none ∧
    drains (after (.rulDrainDone 0 0) (drn true false)) = some { bank := 1, sync := true, copying := true } ∧
    drains (after (.rulCopyDone 0 0) (drn true true)) = none ∧
    ruleEntry? (after (.rulCopyDone 0 0) (drn true true)) 0 1 3 = some (imageEntry 0 (image 2 5)) ∧
    aget 0 8 ((after (.rulCopyDone 0 0) (drn true true)).stn 0).rules.defaults = 9 := by decide +kernel

/-! ### The flow table -/

def key40 : List Byte := zeros 39 ++ [7#8]
def sig40 : Nat := flowSig s0 0 key40
def home40 : Nat := (sigBuckets sig40).1

/-- Record 5 of key40, with its owners, in slot 2 of its home bucket. -/
def rec5 (a b : Option Nat) (s : State) : State :=
  tagWrite home40 2 { frag := sigFrag sig40, index := 5, a := a, b := b }
    (hbmWrite (recAddr 5) (createImage key40 sig40 0 0 0 0 ++ zeros 64)
      (s.modFtm fun f => { f with usedIdx := [5] }))

def tag5 (a b : Option Nat) : TagAt := ⟨home40, 2, { frag := sigFrag sig40, index := 5, a := a, b := b }⟩

/-- Station 3 has sent the FTM a message. -/
def sent3 (m : FtmMsg) (s : State) : State := s.modFtm fun f => { f with inbox := [(3, [m])] }

theorem test_FillsFollowTable076 :
    let go (s : State) := after (.fill 3) (sent3 (.fill sig40 0 key40) s)
    (ftmLookup key40 sig40 (rec5 none none s0)).1 = some (tag5 none none) ∧
    halfOf ((rec5 none none s0).mrd (recAddr 5) 64) 0 = Half.a ∧
    isSound (rec5 none none s0) = true ∧ (rec5 none none s0).hbm.adds.isEmpty = true ∧
    ((go (rec5 none none s0)).tag home40 2).map (·.a) = some (some 3) ∧
    aget [] 3 (go (rec5 none none s0)).ftm.outbox = [.fill sig40 0 5 .a false] := by decide +kernel

theorem test_FillsFollowTable076_owned :
    let go (s : State) := after (.fill 3) (sent3 (.fill sig40 0 key40) s)
    let pin (s : State) := s.modIce 4 fun i => { i with slots := [(9, { st := .idle, index := 5, which := .a, pinned := true })] }
    let rel := after (.release 3) (sent3 (.release 5 .a) (rec5 (some 3) none s0))
    halfPinned (pin s0) 4 5 .a = true ∧ halfPinned s0 4 5 .a = false ∧
    aget [] 3 (go (pin (rec5 (some 4) none s0))).ftm.outbox =
      [.noRoom sig40 0 (noRoomAction s0 0) ((rec5 none none s0).mrd (recAddr 5) 64)] ∧
    aget [] 4 (go (rec5 (some 4) none s0)).ftm.outbox = [.recall 5 .a] ∧
    (go (rec5 (some 4) none s0)).ftm.ops =
      [{ pair := (tag5 none none).pair, index := 5, purpose := .fill 3 sig40 0 key40, waiting := [.a] }] ∧
    tagByIndex (rec5 (some 3) none s0) 5 = some (tag5 (some 3) none) ∧
    (rel.tag home40 2).map (·.a) = some none ∧ rel.ftm.outbox = [] := by
  decide +kernel

theorem test_FillsFollowTable076_absent :
    let e : LeaseEntry := { sig := sig40, d := 0, key := key40, st := .fill, tasks := [7] }
    let s := sent3 (.fill sig40 0 key40) ((s0.modTasks 3 fun t =>
      { t with slots := [(7, { st := .waiting, frame := fr 60, key := some key40 })] }).modIce 3 fun i => { i with entries := [(4, e)] })
    let t := after (.fill 3) s
    (ftmLookup key40 sig40 s).1 = none ∧ entryOf s 3 sig40 0 = some (4, e) ∧ (entryMaker s 3 e).isSome = true ∧
    t.entry? 3 4 = some { e with phase := .rule } ∧ (t.stn 3).rules.queue = [.creation 4 false] ∧
    t.cntGet (Reg.FTM_CNT_LO 1) = 1 := by decide +kernel

/-- Station 4 waits for the A-half of record 5, which station 3 owns. -/
def recalled : State :=
  (rec5 (some 3) none s0).modFtm fun f =>
    { f with ops := [{ pair := (tag5 none none).pair, index := 5, purpose := .fill 4 sig40 0 key40, waiting := [.a] }] }

theorem test_FillsFollowTable076_recalled :
    let t := after (.release 3) (sent3 (.release 5 .a) recalled)
    let u := after (.recallRefused 3) (sent3 (.refused 5 .a) recalled)
    (t.tag home40 2).map (·.a) = some (some 4) ∧ aget [] 4 t.ftm.outbox = [.fill sig40 0 5 .a false] ∧ t.ftm.ops = [] ∧
    aget [] 4 u.ftm.outbox = [.noRoom sig40 0 (noRoomAction s0 0) (recalled.mrd (recAddr 5) 64)] ∧ u.ftm.ops = [] := by
  decide +kernel

/-- A release that answers no request waits for the pair's holder. -/
theorem test_FillsFollowTable076_waits :
    let s := sent3 (.release 5 .a) ((rec5 (some 3) none s0).modFtm fun f =>
      { f with ops := [{ pair := (tag5 none none).pair, index := 6, purpose := .sweep, waiting := [.a] }] })
    tagByIndex s 5 = some (tag5 (some 3) none) ∧ pairHeld s (tag5 none none).pair = true ∧
    (s.ftm.ops.all fun o => o.index != 5) = true ∧ after (.release 3) s = s := by decide +kernel

theorem test_RecordsAreMadeAndExpire_create :
    let r : CreateReq := { sig := sig40, d := 0, key := key40, rule := 0, bank := 0, word := 3 }
    let q (n : Nat) := with_ [(Reg.FTM_GUILD_CFG 0, Fld.FTM_GUILD_CFG_QUOTA, n)] (sent3 (.create sig40 0) (s0.modIce 3 fun i => { i with createQ := [r] }))
    let t := after (.create 3) (q 0)
    ((q 1).stn 3).ice.createQ = [r] ∧ aget [] 3 (q 1).ftm.inbox = [.create sig40 0] ∧
    (ftmLookup key40 sig40 (q 1)).1 = none ∧ key40.length = 40 ∧ le key40 0 1 % 8 = 0 ∧
    (q 1).get (Reg.FTM_GUILD_CNT 0) Fld.FTM_GUILD_CNT_COUNT < ftmQuota (q 1) 0 ∧ (freeTagSlot (q 1) home40).isSome = true ∧
    aget [] 3 t.ftm.outbox = [.noRoom sig40 0 (noRoomAction s0 0) []] ∧ t.cntGet (Reg.FTM_CNT_LO 6) = 1 := by decide +kernel

theorem test_RecordsAreMadeAndExpire_sweep :
    let up (s : State) := with_ [(Reg.HBM_STATUS, Fld.HBM_STATUS_TRAINED, 3)] s
    let at_ (now : Nat) (s : State) := ((up s).wr Reg.FTM_NOW (BitVec.ofNat 32 now)).modFtm fun f => { f with sweepAt := home40 }
    let go (s : State) := after .ftmSweepVisit s
    let old := at_ (2 ^ 31) (rec5 none none s0)
    let mine := at_ (2 ^ 31) (rec5 (some 3) none s0)
    let t := after .quarantineExpiry (s0.modFtm fun f => { f with usedIdx := [5, 6], quarantine := [5] })
    bucketTags old home40 = [tag5 none none] ∧ tagByIndex old 5 = some (tag5 none none) ∧
    (recTimeout old 5).2 ≠ 0 ∧ (recTimeout old 5).2 ≤ ftmSince (ftmNow old) (halfSeen (old.mrd (halfAddr 5 .a) 64)) ∧
    (go old).tag home40 2 = none ∧ (go old).ftm.quarantine = [5] ∧
    (go (at_ 0 (rec5 none none s0))).tag home40 2 = some (tag5 none none).tag ∧
    aget [] 3 (go mine).ftm.outbox = [.idleRecall 5 .a] ∧ (go mine).ftm.ops.map (·.purpose) = [.sweep] ∧
    (go mine).ftm.ops.map (·.limit) = [(recTimeout mine 5).2] ∧ hbmReady s0 = false ∧ go s0 = s0 ∧
    (go (up s0)).ftm.sweepAt = 1 ∧ ftmNow (after .ftmTick old) = 2 ^ 31 + 1 ∧ t.ftm.usedIdx = [6] ∧ t.ftm.quarantine = [] := by
  decide +kernel

/-- A flow command of Guild 0 on record 5, with trained stacks. -/
def flowCmd (op flags : Nat) : Cmd :=
  if op = 0x24 then cmdOf op [] else cmdOf op ([(0, 5)] ++ if op = 0x22 then [(32, flags), (64, 4096)] else [])

def flows (c : Cmd) (s : State) : State := with_ [(Reg.HBM_STATUS, Fld.HBM_STATUS_TRAINED, 3)] (ringed 0 c s)

theorem test_FlowCommandsActOnTheirGuildsRecords_add :
    let c := cmdOf 0x20 []
    let f := cmdOf 0x21 []
    let d := createImage key40 0 0 0 0 0
    let room := with_ [(Reg.FTM_GUILD_CFG 0, Fld.FTM_GUILD_CFG_QUOTA, 9)] s0
    let full := with_ [(Reg.FTM_GUILD_CFG 0, Fld.FTM_GUILD_CFG_QUOTA, 0)] s0
    let add (s : State) := after (.flowAdd 0 2 (some d)) (flows c s)
    let find (s : State) := after (.flowFind 0 2 (some key40)) (flows f s)
    readyFor (flows c s0) 0 0x20 c = true ∧ hbmReady (flows c s0) = true ∧ readyFor (flows f s0) 0 0x21 f = true ∧
    d.length = 192 ∧ badFlowImage 0 d = false ∧ kbKey d = key40 ∧ (ftmLookup key40 sig40 (flows c room)).1 = none ∧
    (freeTagSlot room home40).isSome = true ∧ ftmQuota room 0 = 9 ∧
    answer 0 0 (add (rec5 none none s0)) = some (0x20, []) ∧ answer 0 0 (add full) = some (0x22, []) ∧
    answer 0 7 (find (rec5 (some 3) none s0)) = some (0, leBytes 4 5 ++ [0#8] ++ ownerByte (some 3) ++ ownerByte none) := by
  decide +kernel

theorem test_FlowCommandsActOnTheirGuildsRecords_record :
    let run (op flags : Nat) (i : Instr) (s : State) := after i (flows (flowCmd op flags) s)
    let r (a : Option Nat) := rec5 a none s0
    let pin (s : State) := s.modIce 3 fun i => { i with slots := [(9, { st := .idle, index := 5, which := .a, pinned := true })] }
    let rd := run 0x22 0 (.flowRead 0 2) (r none)
    let del := run 0x23 0 (.flowDel 0 2) (r none)
    let own := run 0x23 0 (.flowDel 0 2) (r (some 3))
    [0x22, 0x23, 0x24].all (fun op => readyFor (flows (flowCmd op 1) s0) 0 op (flowCmd op 1)) = true ∧
    guildRecord (r none) 0 5 = some (tag5 none none, (r none).mrd (recAddr 5) 64) ∧ guildRecord s0 0 5 = none ∧
    descField (flowCmd 0x22 1).desc 32 1 = 1 ∧ (tag5 (some 3) none).owned = [(.a, 3)] ∧
    answer 0 3 rd = some (0, [0#8] ++ ownerByte none ++ ownerByte none) ∧
    rd.out.contains (.dma 0 none 4096 ((r none).mrd (recAddr 5) 256)) = true ∧
    aget [] 3 (run 0x22 1 (.flowRead 0 2) (r (some 3))).ftm.outbox = [.sync 5 .a 0 2] ∧
    answer 0 16 del = some (0, zeros 16) ∧ del.tag home40 2 = none ∧ del.ftm.quarantine = [5] ∧
    answer 0 0 (run 0x23 0 (.flowDel 0 2) (pin (r (some 3)))) = some (0x24, []) ∧
    aget [] 3 own.ftm.outbox = [.recall 5 .a] ∧ (own.ring 0 2).cmd.isSome = true ∧
    answer 0 0 (run 0x22 0 (.flowRead 0 2) s0) = some (0x23, []) ∧
    answer 0 0 (run 0x23 0 (.flowDel 0 2) s0) = some (0x23, []) := by decide +kernel

theorem test_FlowCommandsActOnTheirGuildsRecords_flush :
    let c := flowCmd 0x24 0
    let s := flows c (rec5 none none s0)
    let t := after (.flowFlush 0 2) s
    flushRecords s 0 c = [tag5 none none] ∧ answer 0 8 t = some (0, leBytes 4 1 ++ zeros 4) ∧ t.tag home40 2 = none ∧
    hbmReady (ringed 0 c s0) = false ∧ answer 0 0 (after (.flowFlush 0 2) (ringed 0 c s0)) = some (0x7C, []) := by
  decide +kernel

theorem test_FlowCommandsActOnTheirGuildsRecords_waits :
    let w (op : Nat) (pinned : Bool) := (flows { flowCmd op 1 with began := true, left := 1 } (rec5 (some 3) none s0)).modFtm fun f =>
      { f with ops := [{ pair := (tag5 none none).pair, index := 5, purpose := .cmd 0 2, waiting := [.a], pinned := pinned }] }
    let go (op : Nat) (pinned : Bool) := after (.flowWaitTimeout 0 2) (w op pinned)
    (opsOf (w 0x22 false) 0 2).length = 1 ∧ descField (flowCmd 0x22 1).desc 0 26 = 5 ∧
    answer 0 3 (go 0x22 false) = some (0x27, [1#8] ++ ownerByte (some 3) ++ ownerByte none) ∧
    answer 0 0 (go 0x23 false) = some (0x25, []) ∧ answer 0 0 (go 0x23 true) = some (0x24, []) ∧
    answer 0 8 (go 0x24 false) = some (0, leBytes 4 0 ++ leBytes 4 1) ∧ opsOf (go 0x22 false) 0 2 = [] := by decide +kernel

/-! ### The Icehouse -/

/-- The key block of record 5, and its A-half. -/
def kb5 : List Byte := (createImage key40 sig40 0 0 0 0).take 64
def half5 : List Byte := leBytes 4 1 ++ zeros 60

/-- Slot 9 with the A-half of record 5. -/
def slot9 (st : SlotState) : Slot := { st := st, sig := sig40, d := 0, key := kb5, half := half5, index := 5, which := .a }

def task40 (ice : IceWait) : Task := { st := .waiting, frame := fr 60, cnt := 1, key := some key40, sig := sig40, ice := ice }

/-- Task 7 of station 3 with these slots and entries. -/
def iced (x : Task) (slots : List (Nat × Slot)) (entries : List (Nat × LeaseEntry)) : State :=
  (s0.modTasks 3 fun t => { t with slots := [(7, x)] }).modIce 3 fun i => { i with slots := slots, entries := entries }

/-- State, holder and half of slot 9 of station 3; the place of its task 7, and its count. -/
def slotOf (t : State) : Option (SlotState × Option Nat × List Byte) := (t.slot? 3 9).map fun z => (z.st, z.holder, z.half)
def iceOf (t : State) : Option (IceWait × Nat) := (t.task? 3 7).map fun u => (u.ice, u.cnt)
def endOf (t : State) : Option (IceWait × Option Nat × TaskState) := (t.task? 3 7).map fun u => (u.ice, u.noRoom, u.st)

def wait4 (st : WaitState) : LeaseEntry := { sig := sig40, d := 0, key := key40, st := st, tasks := [7] }

theorem test_SearchesHitJoinMissOrAreRefused :
    let go (y : Slot) := after (.iceSearch 3 7) (iced (task40 .search) [(9, y)] [])
    let t := go (slot9 .idle)
    searchMatches (iced (task40 .search) [(9, slot9 .idle)] []) 3 sig40 0 = [9] ∧ kbKey kb5 = key40 ∧
    isSound (iced (task40 .search) [(9, slot9 .idle)] []) = true ∧
    slotOf t = some (.held, some 7, stampHalf 0 half5) ∧ iceOf t = some (.holding 9, 0) ∧ t.cntGet (Reg.ICE_CNT_LO 3 0) = 1 ∧
    slotOf (go (slot9 .draining)) = some (.held, some 7, stampHalf 0 half5) ∧
    (go (slot9 .draining)).cntGet (Reg.ICE_CNT_LO 3 5) = 1 ∧
    ((go (slot9 .held)).slot? 3 9).map (·.chain) = some [7] ∧ iceOf (go (slot9 .held)) = some (.chained 9, 1) ∧
    (go (slot9 .recalling)).slot? 3 9 = some (slot9 .recalling) ∧
    (go (slot9 .recalling)).cntGet (Reg.ICE_CNT_LO 3 2) = 1 := by decide +kernel

/-- A search waits for an express one; one of a pass refused before counts no second refusal; an ended entry is searched
for the pass that joins it. -/
theorem test_SearchesHitJoinMissOrAreRefused_turns :
    let alone := iced (task40 .search) [(9, slot9 .idle)] []
    let both := alone.modTasks 3 fun t => { t with slots := t.slots ++ [(8, { task40 .search with frame := { fr 60 with cls := 7 } })] }
    let ended := { wait4 .fill with phase := .ended, tasks := [] }
    let join := after (.iceSearch 3 7) (iced (task40 .search) [] [(4, ended)])
    slotTurn alone 3 (task40 .search) = true ∧ expressWaits both 3 = true ∧ after (.iceSearch 3 7) both = both ∧
    (task40 .search).waitRefused = false ∧ (join.entry? 3 4).map (fun w => (w.tasks, w.phase)) = some ([7], .rule) := by
  decide +kernel

theorem test_SearchesHitJoinMissOrAreRefused_misses :
    let join := after (.iceSearch 3 7) (iced (task40 .search) [] [(4, wait4 .fill)])
    let full := iced (task40 .search) [] ((List.range 256).map fun k => (k, { wait4 .fill with sig := 1 }))
    let retry := after (.searchRetry 3 7) (iced (task40 .refused) [(9, slot9 .idle)] [])
    let t := after (.iceSearch 3 7) full
    let new := after (.iceSearch 3 7) (iced (task40 .search) [] [])
    searchMatches full 3 sig40 0 = [] ∧ entryOf full 3 sig40 0 = none ∧ freeSlots s0 3 = 8192 ∧
    (join.entry? 3 4).map (·.tasks) = some [7, 7] ∧ (join.task? 3 7).map (·.ice) = some (.entry 4) ∧
    (t.task? 3 7).map (·.ice) = some .refused ∧ t.cntGet (Reg.ICE_CNT_LO 3 13) = 1 ∧
    t.getB (Reg.ICE_EVENT 3) Fld.ICE_EVENT_WAIT_REFUSED = true ∧
    (retry.task? 3 7).map (·.ice) = some (.holding 9) ∧ new.cntGet (Reg.ICE_CNT_LO 3 2) = 1 := by decide +kernel

theorem test_SearchesHitJoinMissOrAreRefused_steps :
    let other := { slot9 .idle with key := zeros 64 }
    let s (l : List Nat) := iced (task40 (.steps l)) [(8, other), (9, slot9 .idle)] [(4, wait4 .slot)]
    let t := after (.mmStep 3 7) (s [8, 9])
    kbKey (zeros 64) ≠ key40 ∧ (t.task? 3 7).map (·.ice) = some (.steps [9]) ∧ t.cntGet (Reg.ICE_CNT_LO 3 12) = 1 ∧
    ((after (.mmStep 3 7) (s [9])).task? 3 7).map (·.ice) = some (.holding 9) ∧
    ((after (.mmStep 3 7) (s [8])).task? 3 7).map (·.ice) = some (.entry 4) ∧
    (s [8]).entry? 3 4 = some (wait4 .slot) ∧
    aget [] 3 (after (.waitEntryFillStart 3 4) (s [8])).ftm.inbox = [.fill sig40 0 key40] := by decide +kernel

/-- Two slots match: the first is the key's, or another's. -/
theorem test_SearchesHitJoinMissOrAreRefused_several :
    let other := { slot9 .idle with key := zeros 64 }
    let s (a b : Slot) := iced (task40 .search) [(8, a), (9, b)] []
    let go (a b : Slot) := after (.iceSearch 3 7) (s a b)
    searchMatches (s other (slot9 .idle)) 3 sig40 0 = [8, 9] ∧ slotTurn (s other other) 3 (task40 .search) = true ∧
    iceOf (go other (slot9 .idle)) = some (.steps [9], 1) ∧ iceOf (go (slot9 .idle) other) = some (.holding 8, 0) ∧
    (go (slot9 .idle) other).cntGet (Reg.ICE_CNT_LO 3 11) = 1 ∧
    (go other other).getB (Reg.ICE_EVENT 3) Fld.ICE_EVENT_MULTI_MATCH = true := by decide +kernel

/-- Entry 4 of station 3 has slot 9, and this message is on its way. -/
def answered (m : List StnMsg) (w : LeaseEntry) : State :=
  (iced (task40 (.entry 4)) [(9, { st := .filling, sig := sig40 })] [(4, { w with slot := some 9 })]).modFtm fun f =>
    { f with outbox := [(3, m)] }

theorem test_FillsAndHoldsEndByTable082 :
    let s := rec5 (some 3) none (answered [.fill sig40 0 5 .a true] (wait4 .fill))
    let t := after (.fillReturned 3) s
    let lone := { answered [.fill 1 0 5 .a true] (wait4 .fill) with out := [] }
    let ended := after (.fillNoRecord 3) (answered [] { wait4 .fill with phase := .ended, rule := some 6 })
    let noRoom (a : Nat) := after (.fillNoRecord 3) (answered [.noRoom sig40 0 a []] (wait4 .fill))
    (s.entry? 3 4).isSome = true ∧ (entryOf s 3 sig40 0).isSome = true ∧ entryOf lone 3 1 0 = none ∧
    t.entry? 3 4 = none ∧ (t.slot? 3 9).map (fun z => (z.st, z.holder, z.key)) = some (.held, some 7, s.mrd (recAddr 5) 64) ∧
    (t.task? 3 7).map (fun u => (u.ice, u.newFlow, u.index)) = some (.holding 9, true, 5) ∧
    aget [] 3 (after (.fillReturned 3) lone).ftm.inbox = [.release 5 .a] ∧
    ended.entry? 3 4 = none ∧ ended.slot? 3 9 = none ∧ (ended.task? 3 7).map (·.rule) = some (some 6) ∧
    endOf ended = some (.none, none, .ready) ∧ endOf (noRoom 1) = some (.none, none, .done) ∧
    endOf (noRoom 2) = some (.none, some 2, .ready) := by decide +kernel

theorem test_FillsAndHoldsEndByTable082_holds :
    let x : Task := { task40 (.holding 9) with st := .done }
    let s (st : SlotState) (chain : List Nat) :=
      (iced x [(9, { slot9 st with holder := some 7, chain := chain })] []).modTasks 3 fun t =>
        { t with slots := t.slots ++ [(8, task40 (.chained 9))] }
    let go (st : SlotState) (chain : List Nat) := after (.holdEnd 3 7) (s st chain)
    (s .held [8]).task? 3 7 = some x ∧ ((s .held [8]).task? 3 8).isSome = true ∧
    (go .held []).slot? 3 9 = some (slot9 .idle) ∧ ((go .held []).task? 3 7) = some { x with ice := .none } ∧
    ((go .held [8]).slot? 3 9).map (·.holder) = some (some 8) ∧
    ((go .held [8]).task? 3 8).map (·.ice) = some (.holding 9) ∧ (go .recalling []).slot? 3 9 = none ∧
    aget [] 3 (go .recalling []).ftm.inbox = [.release 5 .a] := by decide +kernel

/-- Slot 9 of station 3, and a message on its way. -/
def slotted (y : Slot) (m : List StnMsg) : State :=
  (s0.modIce 3 fun i => { i with slots := [(9, y)] }).modFtm fun f => { f with outbox := [(3, m)] }

/-- Slot 9 and n others that are held. -/
def many (n : Nat) (y : Slot) : State :=
  s0.modIce 3 fun i => { i with slots := (9, y) :: List.replicate n (10, slot9 .held) }

theorem test_SlotsLeaveAfterTheirWriteBacks_drainer (n : Nat) (y : Slot) (hn : n = 8190) (h : y.st = .idle) :
    (many n y).slot? 3 9 = some y ∧ freeLow (many n y) 3 = freeLow s0 3 ∧
    freeSlots (many n y) 3 + (((many n y).stn 3).ice.slots.filter fun e => e.2.st == .draining).length < freeLow s0 3 := by
  have l : ((many n y).stn 3).ice.slots = (9, y) :: List.replicate n (10, slot9 .held) := rfl
  have f : 16 ≤ freeLow s0 3 := by decide +kernel
  refine ⟨by simp [State.slot?, l, aget?], rfl, ?_⟩
  simp [freeSlots, l, h, slot9]
  omega

theorem test_SlotsLeaveAfterTheirWriteBacks_enoughFree :
    freeLow s0 3 ≤ freeSlots (slotted (slot9 .idle) []) 3 ∧
    after (.drainerStart 3) (slotted (slot9 .idle) []) = slotted (slot9 .idle) [] := by decide +kernel

theorem test_SlotsLeaveAfterTheirWriteBacks_writeBacks :
    let go (st : SlotState) := after (.writebackAccepted 3 9) (slotted { slot9 st with wb := [half5] } [])
    half5.length = 64 ∧ (go .draining).mrd (halfAddr 5 .a) 64 = half5 ∧ (go .draining).slot? 3 9 = none ∧
    aget [] 3 (go .draining).ftm.inbox = [.release 5 .a] ∧ (go .idle).slot? 3 9 = some (slot9 .idle) ∧
    aget [] 3 (go .idle).ftm.inbox = [] := by decide +kernel

theorem test_SlotsLeaveAfterTheirWriteBacks_recalls :
    let go (y : Slot) := after (.recallReceived 3) (slotted y [.recall 5 .a])
    let i := slot9 .idle
    let inb (t : State) := aget [] 3 t.ftm.inbox
    let slot (t : State) := (t.slot? 3 9).map fun z => (z.st, z.dirty, z.wb)
    iceFind (slotted i []) 3 5 .a = some (9, i) ∧ iceFind s0 3 5 .a = none ∧
    inb (go { i with pinned := true }) = [.refused 5 .a] ∧ (go { i with pinned := true }).cntGet (Reg.ICE_CNT_LO 3 9) = 1 ∧
    (go i).slot? 3 9 = none ∧ inb (go i) = [.release 5 .a] ∧
    slot (go { i with dirty := true }) = some (.recalling, false, [half5]) ∧ inb (go { i with dirty := true }) = [] ∧
    slot (go { slot9 .held with holder := some 7 }) = some (.recalling, false, []) ∧
    (after (.recallReceived 3) (slotted { i with index := 6 } [.recall 5 .a])).slot? 3 9 = some { i with index := 6 } := by
  decide +kernel

theorem test_SlotsLeaveAfterTheirWriteBacks_others :
    let go (now : Nat) (y : Slot) := after (.idleRecall 3) ((slotted y [.idleRecall 5 .a]).wr Reg.FTM_NOW (BitVec.ofNat 32 now))
    let sync (y : Slot) := after (.syncWriteback 3) (slotted y [.sync 5 .a 0 2])
    let i := slot9 .idle
    slotIdle (s0.wr Reg.FTM_NOW 0x7FFFFFFF) i = true ∧ slotIdle (s0.wr Reg.FTM_NOW 1) i = false ∧
    (go 0x7FFFFFFF i).slot? 3 9 = none ∧ aget [] 3 (go 0x7FFFFFFF i).ftm.inbox = [.release 5 .a] ∧
    (go 1 i).slot? 3 9 = some i ∧ aget [] 3 (go 1 i).ftm.outbox = [] ∧
    (go 0x7FFFFFFF { i with pinned := true }).slot? 3 9 = some { i with pinned := true } ∧
    ((sync { i with dirty := true }).slot? 3 9).map (fun z => (z.dirty, z.wb)) = some (false, [half5]) ∧
    (sync { i with dirty := true }).cntGet (Reg.ICE_CNT_LO 3 15) = 1 ∧
    ((sync { slot9 .held with holder := some 7 }).slot? 3 9).map (fun z => (z.sync, z.syncFor)) = some (true, some (0, 2)) := by
  decide +kernel

/-- An Icehouse command of Guild 0 on the A-half of record 5 in a station. -/
def iceCmd (op st : Nat) : Cmd := cmdOf op ([(0, 5), (40, st)] ++ if op = 0x2B then [(64, 4096)] else [])

def icePinned (op : Nat) (slots : List (Nat × Slot)) : State :=
  flows (iceCmd op 3) (rec5 none none (s0.modIce 3 fun i => { i with slots := slots }))

theorem test_IcehouseCommandsActOnTheirSlots_pin :
    let i := slot9 .idle
    let q (n : Nat) (s : State) := with_ [(Reg.ICE_PIN_QUOTA 3 0, Fld.ICE_PIN_QUOTA_LIMIT, n)] s
    let go (n : Nat) (y : Slot) := after (.icePin 0 2) (q n (icePinned 0x28 [(9, y)]))
    let un (y : Slot) := after (.iceUnpin 0 2)
      (with_ [(Reg.ICE_PIN_CNT 3 0, Fld.ICE_PIN_CNT_COUNT, 1)] (icePinned 0x29 [(9, y)]))
    let pins (t : State) := t.get (Reg.ICE_PIN_CNT 3 0) Fld.ICE_PIN_CNT_COUNT
    readyFor (icePinned 0x28 []) 0 0x28 (iceCmd 0x28 3) = true ∧ readyFor (icePinned 0x29 []) 0 0x29 (iceCmd 0x29 3) = true ∧
    readyFor (icePinned 0x2B []) 0 0x2B (iceCmd 0x2B 3) = true ∧ hbmReady (icePinned 0x28 []) = true ∧
    guildRecord (icePinned 0x28 []) 0 (iceIndex (iceCmd 0x28 3)) = some (tag5 none none, kb5) ∧
    iceFind (icePinned 0x28 [(9, i)]) 3 5 .a = some (9, i) ∧ pinRefused (q 9 s0) 3 0 (kbSig kb5) 0 = none ∧
    pinRefused (q 0 s0) 3 0 (kbSig kb5) 0 = some 0x28 ∧
    answer 0 1 (go 9 { i with pinned := true }) = some (0, [19#8]) ∧
    answer 0 1 (go 9 i) = some (0, [0#8]) ∧ (go 9 i).slot? 3 9 = some { i with pinned := true } ∧ pins (go 9 i) = 1 ∧
    answer 0 0 (go 0 i) = some (0x28, []) ∧ answer 0 0 (un i) = some (0x2B, []) ∧
    answer 0 0 (un { i with pinned := true }) = some (0, []) ∧ pins (un { i with pinned := true }) = 0 := by decide +kernel

theorem test_IcehouseCommandsActOnTheirSlots_read :
    let t := after (.iceRead 0 2) (icePinned 0x2B [(9, { slot9 .idle with dirty := true })])
    let far (op : Nat) := flows (iceCmd op 12) s0
    let load := with_ [(Reg.ICE_PIN_QUOTA 3 0, Fld.ICE_PIN_QUOTA_LIMIT, 9)] (icePinned 0x28 [])
    answer 0 4 t = some (0, leBytes 1 (SlotState.idle).code ++ [1#8, 0#8, 0#8]) ∧
    t.out.contains (.dma 0 none 4096 (kb5 ++ half5)) = true ∧
    answer 0 0 (after (.iceRead 0 2) (icePinned 0x2B [])) = some (0x2C, []) ∧
    answer 0 0 (after (.iceUnpin 0 2) (icePinned 0x29 [])) = some (0x2C, []) ∧
    [(0x28, Instr.icePin 0 2), (0x29, .iceUnpin 0 2), (0x2B, .iceRead 0 2)].all (fun e =>
      readyFor (far e.1) 0 e.1 (iceCmd e.1 12) && answer 0 0 (after e.2 (far e.1)) == some (0x2E, [])) = true ∧
    pinRefused load 3 0 (kbSig kb5) 0 = none ∧ entryOf load 3 (kbSig kb5) 0 = none ∧ freeSlots load 3 ≠ 0 ∧
    aget [] 3 (after (.icePin 0 2) load).ftm.inbox = [.fill (kbSig kb5) 0 key40] := by decide +kernel

theorem test_IcehouseCommandsActOnTheirSlots_flush :
    let c := cmdOf 0x2A [(0, 8)]
    let s := flows c (s0.modIce 3 fun i => { i with slots := [(9, slot9 .idle), (10, { slot9 .held with index := 6 })] })
    let t := after (.iceFlush 0 2) s
    readyFor s 0 0x2A c = true ∧ stationsOf (cmdStations c) = [3] ∧ kbGuild kb5 = 0 ∧
    answer 0 8 t = some (0, leBytes 4 1 ++ leBytes 4 1) ∧ t.slot? 3 9 = none ∧ (t.slot? 3 10).isSome = true := by
  decide +kernel

theorem test_IcehouseCommandsActOnTheirSlots_timeout :
    let c := { iceCmd 0x28 3 with began := true }
    let s (tasks : List Nat) := (flows c ((rec5 (some 4) none s0).modIce 3 fun i =>
      { i with entries := [(4, { wait4 .fill with tasks := tasks, pinFor := some (0, 2) })] })).modFtm fun f =>
        { f with ops := [{ pair := (tag5 none none).pair, index := 5, purpose := .fill 3 sig40 0 key40, waiting := [.a] }] }
    let t (tasks : List Nat) := after (.iceRecallTimeout 0 2) (s tasks)
    waitingCmd (s []) 0 2 0x28 = some c ∧ entryRecalls (s []) 3 (wait4 .fill) = true ∧
    answer 0 0 (t []) = some (0x2D, []) ∧ (t []).entry? 3 4 = none ∧ ((t [7]).entry? 3 4).map (·.pinFor) = some none := by
  decide +kernel

/-! ### Engines -/

/-- Words that go on, end their routine, commit, and raise ILLEGAL. -/
def goOn : BitVec 160 := 0#160
def endWord : BitVec 160 := BitVec.ofNat 160 (2 * 2 ^ 156)
def commitWord : BitVec 160 := BitVec.ofNat 160 (2 ^ 7)

def run0 (pc : Nat) : Run :=
  { task := 7, pc := pc, regs := List.replicate 32 0#64, maxWords := some 1023, maxRestart := 3 }

/-- Engine 0 of station 0 runs task 7. -/
def engined (r : Run) : State :=
  (s0.modTasks 0 fun t => { t with slots := [(7, { st := .running, frame := fr 60 })], engines := [(0, r)] }).modStn 0 fun n =>
    { n with store := { words := [(0, goOn), (1, endWord), (2, commitWord)], disp := [(0, 2 ^ 31)], vendor := true } }

def runOf (t : State) : Option Run := aget? 0 (t.stn 0).tasks.engines
def decOf (t : State) : Option (TaskState × Decision) := (t.task? 0 7).map fun y => (y.st, y.dec)

theorem test_AWordActsInsideItsEngineUntilItCommits :
    let go (r : Run) := after (.microwordExecute (.ae 0 0)) (engined r)
    let v30 (n : Nat) : Run := { run0 1 with regs := (List.replicate 32 0#64).set 30 (BitVec.ofNat 64 n) }
    let env := aeEnv (engined (run0 0)) 0 (run0 0)
    isSound (engined (run0 0)) = true ∧ (fr 60).known ∧ wordFault goOn (run0 0) env = none ∧
    wordNext goOn (run0 0) env = some 1 ∧ mwCommit goOn = false ∧ mwYield goOn = false ∧ mwCommit commitWord = true ∧
    wordNext endWord (run0 1) env = none ∧ (wordFault fillWord (run0 3) env).isSome = true ∧
    runOf (go (run0 0)) = some { run0 1 with words := 1, total := 1 } ∧
    (go (run0 0)).cntGet (Reg.STN_AE_CNT_LO 0 1) = 1 ∧ runOf (go (v30 0)) = none ∧
    decOf (go (v30 0)) = some (.done, {}) ∧ (go (v30 0)).cntGet (Reg.STN_AE_CNT_LO 0 6) = 1 ∧
    decOf (go (v30 (1 + 5 * 256 + 3 * 8))) = some (.done, { action := 1, dest := 5, tc := 3 }) ∧
    (go (v30 (3 + 24 * 2 ^ 30))).cntGet (Reg.PRS_REASON_CNT_LO 0 24) = 1 ∧
    decOf (go (v30 (3 + 24 * 2 ^ 30))) = some (.done, { action := 3, reason := 24 }) ∧
    decOf (go (v30 5)) = some (.done, {}) ∧ (go (v30 5)).cntGet (Reg.STN_AE_CNT_LO 0 13) = 1 := by decide +kernel

theorem test_AWordActsInsideItsEngineUntilItCommits_commit :
    let r : Run := { run0 2 with adds := [(0, 1)] }
    let full (w : Bool) := (engined { r with waiting := w }).modTasks 0 fun t => { t with addQ := List.replicate 48 (0, 0, 1) }
    runOf (after (.microwordExecute (.ae 0 0)) (full false)) = some { r with waiting := true } ∧
    runOf (after (.commitResume 0 0) (full true)) = some { r with waiting := true } := by decide +kernel

theorem test_AWordActsInsideItsEngineUntilItCommits_faults :
    let go (r : Run) := after (.microwordExecute (.ae 0 0)) (engined r)
    let bad (k : Nat) : Run := { run0 3 with run := k, words := 4, total := 4 }
    let task := (engined (run0 0)).task? 0 7
    (bad 3).maxRestart ≤ 3 ∧ 0 < (bad 0).maxRestart ∧ (task.map fun x => taskOpcode s0 0 x) = some 0 ∧
    runOf (go (bad 3)) = none ∧ decOf (go (bad 3)) = some (.done, {}) ∧ (go (bad 3)).cntGet (Reg.STN_AE_CNT_LO 0 5) = 1 ∧
    (runOf (go (bad 0))).map (fun q => (q.pc, q.run, q.words, q.total)) = some (0, 1, 0, 4) ∧
    (go (bad 0)).cntGet (Reg.STN_AE_CNT_LO 0 2) = 1 := by decide +kernel

/-- The dispatch entry is invalid when a restart reads it. -/
theorem test_AWordActsInsideItsEngineUntilItCommits_badOpcode :
    let s := (engined { run0 3 with words := 4 }).modStn 0 fun n => { n with store := { n.store with disp := [(0, 5)] } }
    let t := after (.microwordExecute (.ae 0 0)) s
    (s.stn 0).store.entry 0 = none ∧ runOf t = none ∧ decOf t = some (.done, {}) ∧
    t.cntGet (Reg.STN_AE_CNT_LO 0 7) = 1 ∧ t.cntGet (Reg.STN_AE_CNT_LO 0 4) = 1 := by decide +kernel

/-- v1 is 0x9234, v2 a second operand; the key block holds 0 to 63, the half zeros, the frame 0x40 onwards. -/
def wordRun (b : Nat) : Run :=
  { run0 100 with regs := ((List.replicate 32 0#64).set 1 0x9234#64).set 2 (BitVec.ofNat 64 b)
                  keyw := (List.range 64).map (BitVec.ofNat 8), half := zeros 64
                  frame := (List.range 40).map fun k => BitVec.ofNat 8 (0x40 + k) }

/-- A word with these values at these lowest bits. -/
def wordOf (l : List (Nat × Nat)) : BitVec 160 := BitVec.ofNat 160 ((l.map fun x => x.2 * 2 ^ x.1).sum)

/-- ALU A: op on v1 and v2 into v3. -/
def aluOf (op shift width : Nat) : BitVec 160 :=
  wordOf [(130, op), (125, 3), (120, 1), (115, 2), (109, shift), (104, width)]

/-- Table 10.4, by hand: opcode, shift, width, v2, result. -/
theorem test_AWordsUnitsGiveTheirResults_alu :
    let v3 (x : Nat × Nat × Nat × Nat × Nat) := vGet (wordUnits (aluOf x.1 x.2.1 x.2.2.1) [] (wordRun x.2.2.2.1)).regs 3
    ([(1, 0, 15, 0xFF, 0xFF), (2, 0, 15, 0xFF, 0x9333), (3, 0, 15, 0xFF, 0x9135), (4, 0, 15, 0xFF, 0x34),
      (5, 0, 15, 0xFF, 0x92FF), (6, 0, 15, 0xFF, 0x92CB), (7, 0, 15, 0xFF, 0x9200), (8, 0, 15, 4, 0x2340),
      (9, 0, 15, 4, 0x923), (10, 0, 15, 4, 0xF923), (11, 0, 15, 0, 0x6DCB), (12, 4, 7, 0, 0x23), (13, 4, 7, 0xFF, 0x9FF4),
      (14, 0, 15, 0, 0x3492), (15, 0, 0, 0xFF, 0x9333), (15, 0, 0, 0xFFFF, 0x9234), (16, 0, 0, 0xFF, 0xFF),
      (17, 0, 0, 0xFF, 0x9234), (18, 0, 0, 0xFF, 0), (19, 0, 0, 0xFF, 0), (2, 4, 0, 1, 0x9244)].all fun x =>
        v3 x == BitVec.ofNat 64 x.2.2.2.2) = true := by decide +kernel

theorem test_AWordsUnitsGiveTheirResults_flags :
    let fa (op width b : Nat) := (wordUnits (aluOf op 0 width) [] (wordRun b)).fa
    fa 18 15 0x9234 = { z := true, n := false, c := false } ∧ fa 18 15 0xFFFF = { z := false, n := true, c := true } ∧
    fa 2 15 0x8000 = { z := false, n := false, c := true } ∧ fa 2 0 0x8000 = { z := false, n := false, c := false } ∧
    fa 0 15 5 = (wordRun 5).fa := by decide +kernel

theorem test_AWordsUnitsGiveTheirResults_ports :
    let go (l : List (Nat × Nat)) := wordUnits (wordOf l) [(9, 14), (5, 34), (9, 22)] (wordRun 3)
    let lease (op off en reg : Nat) := go [(69, op), (63, off), (50, en), (58, reg)]
    let hdr (op off reg len : Nat) := go [(44, op), (35, off), (30, reg), (26, len)]
    (wordRun 3).regs.length = 32 ∧ vGet (lease 1 8 0x81 4).regs 4 = 0x0F00000000000008#64 ∧
    (lease 3 4 0xFF 1).half = zeros 5 ++ [0x92#8] ++ zeros 58 ∧ (lease 4 5 0 1).adds = [(5, 0x9234)] ∧
    vGet (hdr 1 2 4 1).regs 4 = 0x4243#64 ∧ vGet (hdr 2 2 4 1).regs 4 = 0x4243#64 ∧
    ((hdr 3 2 1 1).frame.take 5) = [0x40#8, 0x41#8, 0x92#8, 0x34#8, 0x44#8] ∧
    ((hdr 5 1 0 1).frame.take 6) = [0x40#8, 0#8, 0#8, 0#8, 0#8, 0x41#8] ∧ (hdr 5 1 0 1).net = 4 ∧
    ((hdr 7 1 2 0).frame.take 2) = [0x40#8, 0x44#8] ∧ (hdr 7 1 2 0).net = -3 ∧
    vGet (hdr 9 9 4 0).regs 4 = 14#64 ∧ vGet (hdr 9 (256 + 9) 4 0).regs 4 = 22#64 ∧
    vGet (hdr 9 8 4 0).regs 4 = BitVec.allOnes 64 ∧ (hdr 9 8 4 0).hvMiss = true ∧
    (go [(6, 1)]).emits = [zeros 32] ∧ (go [(4, 1), (8, 77)]).traps = [(100, 77)] := by decide +kernel

theorem test_AWordsUnitsGiveTheirResults_next :
    let env := aeEnv (engined (wordRun 3)) 0 (wordRun 3)
    let next (seqop cond : Nat) := wordNext (wordOf [(156, seqop), (150, cond), (136, 500), (8, 0)]) { wordRun 3 with stack := [9] } env
    env.pass = passBits (wordRun 3).regs ∧ next 0 1 = some 101 ∧ next 1 0 = some 500 ∧ next 1 32 = some 101 ∧ next 1 1 = some 101 ∧
    next 1 33 = some 500 ∧ next 1 13 = some 500 ∧ next 2 0 = none ∧ env.entry 0 = some 0 ∧ next 3 0 = some 0 ∧
    next 4 0 = some 500 ∧ next 5 0 = some 9 ∧ next 6 0 = some 100 := by decide +kernel

theorem test_AWordActsInsideItsEngineUntilItCommits_traps :
    let t := s0.modTasks 0 fun t => { t with trapQ := [⟨3, 100, 7⟩, ⟨4, 5, 6⟩] }
    (after (.trapQueueRead (.link 0) 0) t).out = [.read (.link 0) (Reg.STN_AE_TRAP_LO 0) (BitVec.ofNat 32 (7 * 65536 + 100))] ∧
    (((after (.trapQueueRead (.link 0) 0) t).stn 0).tasks.trapQ).length = 1 ∧
    (after (.trapQueueRead (.link 0) 0) s0).out = [.read (.link 0) (Reg.STN_AE_TRAP_LO 0) 0#32] := by decide +kernel

/-! ### Control stores -/

/-- An image of one word for the customer region, its dispatch entry 64 at 8,192, signed with the secret key 1 and the
nonce 2: its public key is the base point of P-256. -/
def signedImage : List Byte :=
  leBytes 4 0x46435531 ++ [1#8, 1#8, 0#8, 0#8] ++ leBytes 4 7 ++ leBytes 2 0 ++ leBytes 2 1 ++ zeros 32
    ++ beBytes 32 p256G.1 ++ beBytes 32 p256G.2
    ++ beBytes 32 0x7cf27b188d034f7e8a52380304b51ac3c08969e277f21b35a60b48fc47669978
    ++ beBytes 32 0x9fe9f0bb814a183ce4f157d776413a25c7f08b756e82a673d5f06cefb332534f
    ++ zeros 16 ++ leBytes 4 (2 ^ 31 + 8192) ++ zeros 764 ++ leBytes 20 endWord.toNat

/-- The hash of that public key in OTP, and the load of that image staged. -/
def keyed (s : State) : State :=
  { s with ucs := { s.ucs with ckey := some 0xd875db7def232236aec738c6b0bb3e80142f5d0fd8f4df24fed6eef5cbb50d9f } }

theorem test_StoresTakeVerifiedLoads_image : imgRefusal (keyed s0) signedImage = none := by decide +kernel

def loadCmd : Cmd := cmdOf 0x38 [(0, 980), (64, 4096)]
def keyCmd : Cmd := cmdOf 0x39 [(64, 4096)]

theorem test_StoresTakeVerifiedLoads_commands :
    let s := ringed 0 loadCmd s0
    let busy : State := { s with ucs := { s.ucs with load := some { target := 0, host := none } } }
    let t := after (.ucsLoad 0 2) s
    let k := after (.ucsKeyProgram 0 2 (some (zeros 31 ++ [9#8]))) (ringed 0 keyCmd s0)
    let again := after (.ucsKeyProgram 0 2 (some (zeros 32))) (ringed 0 keyCmd (keyed s0))
    let staged : State := { ringed 0 { loadCmd with began := true } s0 with
                            ucs := { s0.ucs with load := some { target := 0, host := some (0, 2) }, loadLen := 980 } }
    let bad := after (.imageStaged (some (zeros 980))) staged
    readyFor s 0 0x38 loadCmd = true ∧ readyFor (ringed 0 keyCmd s0) 0 0x39 keyCmd = true ∧ loadBusy s = false ∧
    loadBusy busy = true ∧ answer 0 0 (after (.ucsLoad 0 2) busy) = some (0x3D, []) ∧ t.ucs.loadLen = 980 ∧
    t.ucs.load.map (·.host) = some (some (0, 2)) ∧ k.ucs.ckey = some 9 ∧ answer 0 0 k = some (0, []) ∧
    answer 0 0 again = some (0x3C, []) ∧ signedImage.length = 980 ∧ imgRefusal staged (zeros 980) = some 0x38 ∧
    answer 0 0 bad = some (0x38, []) ∧ bad.ucs.load = none := by decide +kernel

theorem test_StoresTakeVerifiedLoads_switches :
    let l (target st : Nat) : Load := { target := target, host := none, image := signedImage, version := 7, checked := true, station := st }
    let s (target st : Nat) : State := { s0 with ucs := { s0.ucs with load := some (l target st) } }
    let t := after (.stationStoreSwitch 3) (s 1 3)
    let h := after .hkStoreSwitch (s 3 0)
    let vendor := after .hkStoreSwitch (s 2 0)
    (t.stn 3).store.word 8192 = endWord ∧ (t.stn 3).store.word 8193 = fillWord ∧ (t.stn 3).store.disp = [(64, 2 ^ 31 + 8192)] ∧
    t.rd (Reg.UCS_VER_CUSTOMER 3) = 7 ∧ t.ucs.load = some (l 1 4) ∧
    (after (.stationStoreSwitch 11) (s 1 11)).ucs.load = none ∧ after (.stationStoreSwitch 3) (s 1 2) = s 1 2 ∧
    after (.stationStoreSwitch 3) (s 2 3) = s 2 3 ∧ (s0.hkEng 2).run = none ∧ h.hkStore.word 8192 = endWord ∧
    h.ucs.load = none ∧ hkRun vendor 0 = true ∧ hkService vendor 1 = false ∧
    (after (.ucsStoreWriteAttempt 3) s0).getB (Reg.UCS_STATUS 3) Fld.UCS_STATUS_WR_ERR = true := by decide +kernel

/-! ### Housekeeping engines -/

theorem test_HousekeepingEnginesRunTheirJobs_jobs :
    let c (e op : Nat) := cmdOf 0x3A [(0, e), (8, op), (64, 0x0102)]
    let s (e op : Nat) := ringed 0 (c e op) s0
    let fullQ (s : State) := s.modHk 3 fun x => { x with queue := List.replicate 16 { kind := 2, op := 0x40 } }
    let timed := with_ [(Reg.UCS_HK_TIMER 3, Fld.UCS_HK_TIMER_TIMER_US, 5)] s0
    let lost (t : State) := t.get (Reg.UCS_HK_STATUS 3) Fld.UCS_HK_STATUS_LOST
    readyFor (s 3 0x40) 0 0x3A (c 3 0x40) = true ∧ hkFull (s 3 0x40) 3 = false ∧ hkFull (fullQ s0) 3 = true ∧
    answer 0 0 (after (.hkJob 0 2) (s 1 0x40)) = some (0x3F, []) ∧ answer 0 0 (after (.hkJob 0 2) (s 3 0x3F)) = some (0x3F, []) ∧
    answer 0 0 (after (.hkJob 0 2) (fullQ (s 3 0x40))) = some (0x3E, []) ∧
    ((after (.hkJob 0 2) (s 3 0x40)).hkEng 3).queue = [{ kind := 2, op := 0x40, arg := [2#8, 1#8] ++ zeros 14 }] ∧
    ((after (.hkTimer 3) timed).hkEng 3).queue = [{ kind := 1, op := 0 }] ∧ lost (after (.hkTimer 3) (fullQ timed)) = 1 := by
  decide +kernel

/-- Housekeeping engine 3 runs, in normal mode. -/
def hk3 (x : HkEngine) : State :=
  let s := with_ [(Reg.UCS_HK_CTL 3, Fld.UCS_HK_CTL_RUN, 1)] s0
  { s with hk := [(3, x)], hkStore := { words := [(8192, goOn)], disp := [(0x40, 2 ^ 31 + 8192)], customer := true } }

theorem test_HousekeepingEnginesRunTheirJobs_runs :
    let j : Job := { kind := 2, op := 0x40, arg := zeros 16 }
    let queued := hk3 { queue := [j] }
    let run : Run := { run0 8192 with task := 0 }
    let t := after (.hkJobDispatch 3) queued
    let word (pc : Nat) := after (.microwordExecute (.hk 3)) (hk3 { run := some { run with pc := pc } })
    let spent : Run := { run with maxWords := some 4, words := 4 }
    let late := after (.microwordExecute (.hk 3)) (hk3 { run := some spent })
    let ctl (v : Word) (s : State) := after (.hkRunWrite (.link 0) 3 v) s
    let on := Fld.UCS_HK_CTL_RUN.into 0 1
    let status (t : State) (f : Field) := t.get (Reg.UCS_HK_STATUS 3) f
    isSound queued = true ∧ hkRun queued 3 = true ∧ hkService queued 3 = false ∧ jobOp queued 3 j = 0x40 ∧
    hkRegion 3 8192 = true ∧ (t.hkEng 3).queue = [] ∧ ((t.hkEng 3).run.map fun r => (r.pc, r.words)) = some (8192, 0) ∧
    hkRun s0 3 = false ∧ hkState s0 3 = 0 ∧
    hkState (after (.hkRunWrite (.link 0) 0 on) s0) 0 = 0 ∧ after (.hkJobDispatch 3) s0 = s0 ∧ hkRun (ctl 0 queued) 3 = false ∧
    Fld.UCS_HK_CTL_RUN.of on = 1 ∧ Fld.UCS_HK_CTL_SERVICE.of on = 0 ∧ hkRun (ctl on s0) 3 = true ∧
    run.runaway = false ∧ spent.runaway = true ∧ status late Fld.UCS_HK_STATUS_CODE = 4 ∧ (late.hkEng 3).run = none ∧
    hkRun late 3 = false ∧ hkWordFault (hk3 {}) 3 goOn run (hkEnv (hk3 {}) 3 run) = none ∧
    (((word 8192).hkEng 3).run.map fun r => (r.pc, r.words)) = some (8193, 1) ∧
    ((word 9000).hkEng 3).run = none ∧ status (word 9000) Fld.UCS_HK_STATUS_FAULT = 1 ∧
    status (word 9000) Fld.UCS_HK_STATUS_CODE = 1 ∧ status (word 9000) Fld.UCS_HK_STATUS_ADDR = 9000 := by decide +kernel

theorem test_HousekeepingEnginesRunTheirJobs_wake :
    let run : Run := { run0 8192 with task := 0 }
    let s0' := with_ [(Reg.IRQ_TGT_PRIV_EN 3, Fld.IRQ_TGT_PRIV_EN_EN, 1)] (hk3 { asleep := true, run := some run })
    let s : State := { s0'.wr (Reg.IRQ_TGT_PRIV_PRIO 3 0) 5 with irq := { s0'.irq with privPend := [48] } }
    let t := after (.hkWake 3) s
    (pendingOf s 3) = [16] ∧ irqEnabled s 3 16 = true ∧ (t.hkEng 3).asleep = false ∧
    (t.hkEng 3).run = some { run with pc := 8193 } ∧ t.cntGet (Reg.IRQ_TGT_CNT_LO 3 4) = 1 := by decide +kernel

/-! ### Switch core and crossbar -/

/-- A frame of one cell, in cell 9, for port 3 in class 2. -/
def xf1 (kind : XKind) : XFrame :=
  { frame := { fr 60 with inPort := 14, cells := [9] }, kind := kind, dest := 3, tc := 2 }

/-- Station 1 has it in its VOQ; port 3, of station 0, is UP. -/
def voq1 : State := mac3.modCore 1 fun c => { c with taken := [9], voqs := [(26, [xf1 .unicast])] }

def ctx1 (x : Context) (i o : Nat) (s : State) : State := s.setCtx i o 2 x

theorem test_CellsCrossOneToAPortInASlot :
    let t := after .xbrCellTransfer voq1
    let reqs : List XReq := [⟨1, 0, 2, none⟩, ⟨2, 0, 7, none⟩]
    let host := ctx1 { xf := { xf1 .unicast with dest := 144 }, cellsLeft := 1 } 1 12 s0
    isSound voq1 = true ∧ (voq1.stn 1).core.voqs = [(26, [xf1 .unicast])] ∧ (admission voq1 0 (xf1 .unicast)).isSome = true ∧
    cellsOf (fr 60).len = 1 ∧ (t.stn 1).core.voqs = [] ∧ (t.stn 1).core.taken = [] ∧
    (t.ctx? 1 0 2).map (fun z => (z.cellsLeft, z.xf.dest)) = some (0, 3) ∧
    t.cntGet (Reg.XBR_PORT_CNT_LO 1 0) = 1 ∧ t.cntGet (Reg.XBR_PORT_CNT_LO 0 1) = 1 ∧
    (xbrRequests { ctx1 { xf := xf1 .unicast, cellsLeft := 1 } 1 0 s0 with poolDrain := some (0, 2) }).map (·.o) = [0] ∧
    (xbrRequests host).map (·.o) = [12] ∧ xbrRequests { host with poolDrain := some (0, 2) } = [] ∧
    (poolFor s0 false 60).isSome = true ∧
    t.cntGet (Reg.XBR_PORT_CNT_LO 0 0) = 0 ∧ (xbrGrant s0 0 reqs).map Prod.fst = some ⟨2, 0, 7, none⟩ := by decide +kernel

theorem test_CellsCrossOneToAPortInASlot_landing :
    let x (k : XKind) : Context := { xf := xf1 k, cellsLeft := 0 }
    let land (k : XKind) (s : State) := after (.frameLand 0 1 2) (ctx1 (x k) 1 0 s)
    let fresh := (port3 4).modStn 0 fun n => n
    let inj := after (.frameLand 3 12 2) (ctx1 (x .inject) 12 3 s0)
    (fr 60).known ∧ gateOn fresh 3 = false ∧ (ctx1 (x .unicast) 1 0 fresh).ctx? 1 0 2 = some (x .unicast) ∧
    (land .unicast s0).ctx? 1 0 2 = none ∧ s0.linkUp 3 = false ∧
    (land .unicast s0).cntGet (Reg.EGR_PCNT_LO 0 3 1) = 1 ∧ inj.ctx? 12 3 2 = none ∧
    ((inj.stn 3).tasks.laneN.map (·.bytes.length)) = [60] := by decide +kernel

/-- A staged inject for station 3. -/
def inj3 (s : State) : State :=
  let f : Frame := { fr 60 with inj := true }
  { s with hif := { s.hif with injects := [{ frame := f, guild := 0, ring := 6, station := 3, pool := 0, block := 5 }] } }

theorem test_CellsCrossOneToAPortInASlot_injects :
    let s := with_ [(Reg.BOOT_STATUS, Fld.BOOT_STATUS_FULL, 8)] (inj3 s0)
    s.full 3 = true ∧ (s.stn 3).draining = false ∧ (injNext s 3).map (·.station) = some 3 ∧ s0.full 3 = false ∧
    after (.injectGrant 3) (inj3 s0) = inj3 s0 := by decide +kernel

/-! ### Multicast -/

def mcFrame : XFrame := { frame := { fr 60 with inPort := 40, cells := [9] }, kind := .mcCopy, mgrp := 4, tc := 2 }
def mcHead1 : McHead := { toGrant := [], waiting := [], hostMember := false, ports := 2 ^ 3 + 2 ^ 20 }

/-- Its frame heads class 2 of station 3; the group has ports 3 and 20. -/
def mc3 (h : List (Nat × McHead)) : State :=
  { mac3.modCore 3 fun c => { c with taken := [9], mcqs := [(2, [mcFrame])], mcHeads := h } with
    groups := [(4, ⟨0, false, 2 ^ 3 + 2 ^ 20⟩)] }

def headOf (t : State) : Option McHead := aget? 2 (t.stn 3).core.mcHeads

theorem test_MulticastCopiesReachOrAreCounted :
    let t := after (.mcHead 3 2) (mc3 [])
    let copy : Context := { xf := { mcFrame with hairpin := false }, cellsLeft := 0 }
    let s := ctx1 copy 3 0 (mc3 [(2, { mcHead1 with waiting := [0, 1] })])
    let u := after (.mcCopyLand 3 0 2) s
    isSound (mc3 []) = true ∧ (headOf t).map (·.toGrant) = some [0, 1] ∧ (headOf t).map (·.ports) = some (2 ^ 3 + 2 ^ 20) ∧
    s.ctx? 3 0 2 = some copy ∧ membersOf (mcPorts s false copy.xf) 0 = [3] ∧ s.validDest 3 = true ∧ s.linkUp 3 = true ∧
    gateOn s 3 = false ∧
    leAlpha (s.get (Reg.EGR_CLASS 0 3 2) Fld.EGR_CLASS_ALPHA) (egrDepth s 3 2 + 1) (egrSharedFree s 0) = true ∧
    u.ctx? 3 0 2 = none ∧ (headOf u).map (·.waiting) = some [1] ∧ (headOf u).map (·.refused) = some 0 := by decide +kernel

theorem test_MulticastCopiesReachOrAreCounted_counts :
    let go (h : McHead) := after (.mcCountsDone 3 2) (mc3 [(2, h)])
    let late := after (.mcHolTimeout 3 2) (mc3 [(2, { mcHead1 with toGrant := [0] })])
    let busy := { mcHead1 with waiting := [1] }
    mcFrame.frame.known ∧ headOf (go { mcHead1 with refused := 1 }) = none ∧
    ((go { mcHead1 with refused := 1 }).stn 3).core.mcqs = [] ∧ ((go mcHead1).stn 3).core.taken = [] ∧
    (go { mcHead1 with refused := 1 }).cntGet (Reg.SWC_CNT_LO 3 10) = 1 ∧
    headOf (go { mcHead1 with hostMember := true }) = some { mcHead1 with hostMember := true, hostPending := true } ∧
    go busy = mc3 [(2, busy)] ∧ (headOf late).map (·.toGrant) = some [] ∧ (headOf late).map (·.refused) = some 1 ∧
    late.cntGet (Reg.SWC_CNT_LO 3 9) = 1 ∧ late.getB (Reg.SWC_EVENT 3) Fld.SWC_EVENT_MC_HOL = true := by decide +kernel

theorem test_MulticastCopiesReachOrAreCounted_commands :
    let set_ (ports valid : Nat) := cmdOf 0x48 [(0, 4), (16, valid), (32, ports)]
    let rd := cmdOf 0x49 [(0, 4), (64, 4096)]
    let s (c : Cmd) (g : Nat) : State := { ringed 0 c s0 with groups := [(4, ⟨g, true, 8⟩)] }
    let t := after (.mcSet 0 2) (s (set_ 16 1) 0)
    let r := after (.mcRead 0 2) (s rd 0)
    readyFor (s (set_ 16 1) 0) 0 0x48 (set_ 16 1) = true ∧ readyFor (s rd 0) 0 0x49 rd = true ∧ s0.portGuild 4 = 0 ∧
    answer 0 0 (after (.mcSet 0 2) (s (set_ 16 1) 1)) = some (0x48, []) ∧
    answer 0 0 (after (.mcSet 0 2) (s (set_ (2 ^ 145) 1) 0)) = some (0x49, []) ∧
    answer 0 0 t = some (0, []) ∧ t.groups = [(4, ⟨0, false, 16⟩)] ∧
    (after (.mcSet 0 2) (s (set_ 16 0) 0)).groups = [] ∧ answer 0 0 r = some (0, []) ∧
    r.out.contains (.dma 0 none 4096 (leBytes 19 8 ++ leBytes 1 136 ++ zeros 12)) = true ∧
    answer 0 0 (after (.mcRead 0 2) (ringed 0 rd s0)) = some (0x4A, []) := by decide +kernel

/-! ### Moraine and Cooperage -/

theorem test_SweepsReclaimWhatLeaksTwice_cells :
    let cfg (rcl : Nat) := with_ [(Reg.MOR_CFG 3, Fld.MOR_CFG_EN, 1), (Reg.MOR_CFG 3, Fld.MOR_CFG_RECLAIM, rcl)]
    let s (run : Bool) := (cfg 1 s0).modStn 3 fun n => { n with
      core := { n.core with taken := [7, 8, 9] }
      sweep := { running := run, leaked := [7], touched := [9], reclaim := run } }
    let t := after (.cellSweepEnd 3) (cfg 0 (s true))
    let off := with_ [(Reg.MOR_CFG 3, Fld.MOR_CFG_EN, 0)] s0
    ((after (.celFreeWrite 3 8) (s false)).stn 3).core.taken = [7, 9] ∧
    ((after (.cellSweepStart 3) (s false)).stn 3).sweep = { running := true, leaked := [7], reclaim := true } ∧
    after (.cellSweepStart 3) (s true) = s true ∧
    after (.cellSweepStart 3) off = off ∧ after (.cellSweepEnd 3) (s false) = s false ∧ cellLeaks (s true) 3 = [7, 8] ∧
    (t.stn 3).core.taken = [8, 9] ∧ t.get (Reg.MOR_STATUS 3) Fld.MOR_STATUS_PASSES = 1 ∧
    t.cntGet (Reg.MOR_CNT_LO 3 2) = 2 := by decide +kernel

theorem test_SweepsReclaimWhatLeaksTwice_pools :
    let s (run : Bool) : State := { with_ [(Reg.MOR_POOL_CFG, Fld.MOR_POOL_CFG_EN, 1), (Reg.MOR_POOL_CFG, Fld.MOR_POOL_CFG_RECLAIM, 0)] s0 with
      coop := { s0.coop with freeStacks := [(1, { gone := [5] })], sweep := { running := run } } }
    let t := after .poolSweepEnd (s true)
    let off := with_ [(Reg.MOR_POOL_CFG, Fld.MOR_POOL_CFG_EN, 0)] s0
    let twice := { s true with coop := { (s true).coop with sweep := { running := true, leaked := [coopKey 1 5], reclaim := true } } }
    ((after .poolSweepEnd twice).stack 1).pushed = [5] ∧ ((after .poolSweepEnd twice).stack 1).gone = [5] ∧
    (after .poolSweepStart (s false)).coop.sweep.running = true ∧ after .poolSweepStart (s true) = s true ∧
    after .poolSweepStart off = off ∧ t.coop.freeStacks = (s true).coop.freeStacks ∧
    t.get Reg.MOR_POOL_STATUS Fld.MOR_POOL_STATUS_PASSES = 1 ∧ t.cntGet (Reg.COOP_CNT_LO 5) = 1 := by decide +kernel

theorem test_SweepsReclaimWhatLeaksTwice_command :
    let c (m : Nat) := cmdOf 0x52 [(0, m)]
    let s (m : Nat) := (ringed 0 (c m) s0).modCore 3 fun k => { k with taken := [7] }
    let t := after (.morSweep 0 2) (s 8)
    let p : State := { ringed 0 (c (2 ^ 15)) s0 with coop := { s0.coop with freeStacks := [(1, { gone := [5] })] } }
    let u := after (.morSweep 0 2) p
    readyFor (s 0) 0 0x52 (c 0) = true ∧ readyFor (s 8) 0 0x52 (c 8) = true ∧ stationsOf 8 = [3] ∧ (s0.stn 3).sweep = {} ∧
    answer 0 0 (after (.morSweep 0 2) (s 0)) = some (0x52, []) ∧ (t.stn 3).sweep.running = true ∧
    (t.ring 0 2).cmd.isSome = true ∧ answer 0 4 (after (.cellSweepEnd 3) t) = some (0, leBytes 4 1) ∧
    readyFor p 0 0x52 (c (2 ^ 15)) = true ∧ p.coop.sweep = {} ∧ u.coop.sweep.running = true ∧ (u.ring 0 2).cmd.isSome = true ∧
    answer 0 4 (after .poolSweepEnd u) = some (0, leBytes 4 1) := by decide +kernel

theorem test_DrainsLeaveEveryCellFree_commands :
    let c (n : Nat) := cmdOf 0x50 [(0, n), (32, 9)]
    let p := cmdOf 0x51 [(32, 9)]
    let go (n : Nat) (s : State) := after (.morStnDrain 0 2) (ringed 0 (c n) s)
    let pool (s : State) := after (.morPoolDrain 0 2) (ringed 0 p s)
    let busy := s0.modStn 3 fun n => { n with draining := true }
    let run := with_ [(Reg.UCS_HK_CTL 2, Fld.UCS_HK_CTL_RUN, 1)] s0
    let t := go 3 (s0.modTasks 3 fun t => { t with engines := [(5, run0 0)] })
    readyFor (ringed 0 (c 3) s0) 0 0x50 (c 3) = true ∧ readyFor (ringed 0 p s0) 0 0x51 p = true ∧ drainRuns s0 = false ∧
    drainRuns busy = true ∧ hkState s0 2 = 0 ∧ hkState s0 3 = 0 ∧ hkState run 2 ≠ 0 ∧
    answer 0 0 (go 12 s0) = some (0x52, []) ∧ answer 0 0 (go 3 busy) = some (0x50, []) ∧
    (t.stn 3).draining = true ∧ (t.stn 3).tasks.stop = [5] ∧ t.getB (Reg.MOR_STATUS 3) Fld.MOR_STATUS_DRAINING = true ∧
    answer 0 0 (pool busy) = some (0x50, []) ∧ answer 0 0 (pool run) = some (0x51, []) ∧
    (pool s0).poolDrain = some (0, 2) := by decide +kernel

theorem test_DrainsLeaveEveryCellFree_ends :
    let s := (s0.modStn 3 fun n => { n with draining := true, drain := some (0, 2) }).modCore 3 fun k =>
      { k with taken := [7, 9], sharedUsed := 2, voqs := [(26, [xf1 .unicast])] }
    let t := after (.stnDrainQuiesced 3) s
    let p : State := { s0 with poolDrain := some (0, 2), coop := { s0.coop with freeStacks := [(1, { gone := [5] })] } }
    let u := after .poolDrainQuiesced p
    after (.stnDrainQuiesced 3) s0 = s0 ∧ (t.stn 3).draining = false ∧ (t.stn 3).core.taken = [] ∧
    (t.stn 3).core.sharedUsed = 0 ∧ (t.stn 3).core.voqs = [] ∧ after .poolDrainQuiesced s0 = s0 ∧
    u.poolDrain = none ∧ u.coop.freeStacks = [] := by decide +kernel

theorem test_DrainsLeaveEveryCellFree_blocks :
    let read (s : State) := (after (.coopHkAllocRead (.hk 2)) s).out
    let word (k : Nat) := BitVec.ofNat 32 k
    let empty : State := { s0 with coop := { s0.coop with freeStacks := [(4, { gone := (List.range (stackBlocks s0 4)).map (· + stackFirst s0 4) })] } }
    let last := stackFirst s0 4
    let push : State := { s0 with coop := { s0.coop with freeStacks := [(4, { pushed := [last] })] } }
    let back := after (.coopHkFreeWrite (.hk 2) (Fld.COOP_HK_FREE_BLOCK.into 0 last)) empty
    last < 336 ∧ stackFree empty 4 = 0 ∧ (s0.stack 4).pushed = [] ∧ builtLeft s0 4 ≠ 0 ∧
    read empty = [.read (.hk 2) Reg.COOP_HK_ALLOC 0#32] ∧
    read push = [.read (.hk 2) Reg.COOP_HK_ALLOC (word (2 ^ 31 + last))] ∧
    (after (.coopHkAllocRead (.link 0)) s0).out = [.read (.link 0) Reg.COOP_HK_ALLOC 0#32] ∧
    after (.coopHkFreeWrite (.link 0) 0) s0 = s0 ∧ (back.stack 4).pushed = [last] ∧
    (after (.coopHkFreeWrite (.hk 2) 0) s0).cntGet (Reg.COOP_CNT_LO 2) = 1 := by decide +kernel

/-! ### Varve time -/

/-- Guild 0 owns Varve time, the servo runs on VRV_OFFSET (0) or PPS_IN (1), its state and the gap and loss flags. -/
def servo (src state gap lost : Nat) (s : State) : State :=
  with_ [(Reg.VRV_CFG, Fld.VRV_CFG_EN, 1), (Reg.VRV_CFG, Fld.VRV_CFG_SRC, src), (Reg.VRV_SERVO_CFG, Fld.VRV_SERVO_CFG_STATE, state),
    (Reg.VRV_STATUS, Fld.VRV_STATUS_MATE_GAP, gap), (Reg.VRV_STATUS, Fld.VRV_STATUS_REF_LOST, lost)] s

def second (n : Nat) (s : State) : State := { s with varve := { s.varve with t := n * 1000000000 * 2 ^ 44 } }

theorem test_TheServoSteersVarveTime_offset :
    let c (theta : Nat) := cmdOf 0x58 [(0, theta)]
    let go (theta gap : Nat) (s : State) := after (.vrvOffset 0 2) (ringed 0 (c theta) (servo 0 1 gap 0 (second 5 s)))
    let ms := 2000000 * 65536
    let t := go ms 0 s0
    let z := go 0 0 s0
    let off := after (.vrvOffset 0 2) (ringed 0 (c 0) s0)
    readyFor (ringed 0 (c 0) s0) 0 0x58 (c 0) = true ∧ s0.getB Reg.VRV_CFG Fld.VRV_CFG_EN = false ∧
    answer 0 0 off = some (0x5A, []) ∧ answer 0 0 (go 0 1 s0) = some (0x59, []) ∧ (go 0 1 s0).cntGet (Reg.VRV_CNT_LO 2) = 1 ∧
    s0.get Reg.VRV_SERVO_TH Fld.VRV_SERVO_TH_STEP_TH * 65536000 ≤ ms ∧ t.varveNs = 5000000000 - 2000000 ∧
    servoState t = 1 ∧ t.cntGet (Reg.VRV_CNT_LO 1) = 1 ∧ answer 0 5 t = some (0, zeros 4 ++ [3#8]) ∧
    z.varve.t = (second 5 s0).varve.t ∧ z.varve.lockRun = 1 ∧ z.varve.i = 0 ∧ answer 0 5 z = some (0, zeros 4 ++ [2#8]) := by
  decide +kernel

theorem test_TheServoSteersVarveTime_commands :
    let set_ (sec ns : Nat) := cmdOf 0x59 [(0, sec), (64, ns)]
    let freq := cmdOf 0x5A [(0, 100)]
    let hold (on : Nat) := cmdOf 0x5B [(0, on)]
    let go (i : Instr) (c : Cmd) (s : State) := after i (ringed 0 c s)
    let t := go (.vrvSet 0 2) (set_ 7 9) (servo 0 2 0 0 s0)
    let f := go (.vrvFreq 0 2) freq s0
    readyFor (ringed 0 (set_ 7 9) s0) 0 0x59 (set_ 7 9) = true ∧ readyFor (ringed 0 freq s0) 0 0x5A freq = true ∧
    readyFor (ringed 0 (hold 1) s0) 0 0x5B (hold 1) = true ∧
    answer 0 0 (go (.vrvSet 0 2) (set_ 7 1000000000) s0) = some (0x58, []) ∧ t.varveNs = 7000000009 ∧ servoState t = 1 ∧
    t.varve.steps = [(s0.now, 7000000009 * 256)] ∧
    t.getB Reg.VRV_EVENT Fld.VRV_EVENT_STEP = true ∧ f.rd Reg.VRV_FADJ = 100#32 ∧ f.varve.freeF = 100 ∧
    answer 0 4 f = some (0, leBytes 4 100) ∧ answer 0 1 (go (.vrvHold 0 2) (hold 1) s0) = some (0, [3#8]) ∧
    answer 0 1 (go (.vrvHold 0 2) (hold 0) (servo 0 3 0 0 s0)) = some (0, [1#8]) := by decide +kernel

theorem test_TheServoSteersVarveTime_pulses :
    let t := after .ppsInEdge (servo 1 1 0 0 (second 5 s0))
    let held := after .ppsInEdge (servo 1 1 1 0 (second 5 s0))
    let tmo := with_ [(Reg.VRV_SERVO_CFG, Fld.VRV_SERVO_CFG_HOLD_TMO, 1)] (servo 0 2 0 0 s0)
    t.rdN Reg.VRV_PPS_CAP_NS = 0 ∧ t.rdN Reg.VRV_PPS_CAP_SEC = 5 ∧ t.cntGet (Reg.VRV_CNT_LO 0) = 1 ∧
    held.cntGet (Reg.VRV_CNT_LO 2) = 1 ∧ held.varve = (second 5 s0).varve ∧
    (after .ppsInEdge s0).varve = s0.varve ∧ servoState (after .servoHoldTimeout tmo) = 3 ∧
    after .servoHoldTimeout s0 = s0 := by decide +kernel

theorem test_TheServoSteersVarveTime_reference :
    refLost s0 = false ∧ refLost (servo 0 1 0 1 s0) = true ∧ refLost (after .timerefLoss s0) = true ∧
    servoState (after .timerefLoss s0) = 3 ∧ (after .timerefLoss s0).cntGet (Reg.VRV_CNT_LO 1) = 1 ∧
    refLost (after .timerefRestored (servo 0 1 0 1 s0)) = false ∧ after .timerefRestored s0 = s0 ∧
    after .timerefLoss (servo 0 1 0 1 s0) = servo 0 1 0 1 s0 := by decide +kernel

/-- Guild 3 is bound to link 1. -/
def bound3 : State :=
  with_ [(Reg.HIF_GUILD_BIND 3, Fld.HIF_GUILD_BIND_VALID, 1), (Reg.HIF_GUILD_BIND 3, Fld.HIF_GUILD_BIND_LINK, 1)] s0

theorem test_VarveTimeIsReadAndPulsed :
    let s := second 5 s0
    let t := after (.vrvTimeRead (.link 0) none) s
    let q : State := { bound3 with varve := { s0.varve with txq := [(3, [{ ts := 9, frac := 1, id := 2, port := 5 }])] } }
    let u := after (.txqRead (.link 1) 3) q
    t.out = [.read (.link 0) Reg.VRV_TIME_NS 0#32] ∧ latched t (.link 0) Reg.VRV_TIME_SEC_LO = 5#32 ∧
    pageForeign q (.link 1) 3 = false ∧ pageForeign q (.link 0) 3 = true ∧
    u.out = [.read (.link 1) (Reg.VRV_TXQ_LO 3) 9#32] ∧
    latched u (.link 1) (Reg.VRV_TXQ_LO 3) = BitVec.ofNat 32 (2 * 65536 + 256 + 5) ∧
    latched (after (.txqRead (.link 1) 3) u) (.link 1) (Reg.VRV_TXQ_LO 3) = 255#32 ∧
    (after (.txqRead (.link 0) 3) q).out = [.read (.link 0) (Reg.VRV_TXQ_LO 3) 0#32] ∧
    (after (.txqRead (.link 0) 3) q).cntGet (Reg.HIF_CNT_LO 3) = 1 := by decide +kernel

theorem test_VarveTimeIsReadAndPulsed_pulses :
    let on := with_ [(Reg.VRV_PPS_OUT, Fld.VRV_PPS_OUT_EN, 1)] s0
    let t := after .ppsOutEdge on
    let gap := servo 0 0 1 0 t
    let f (p : Nat) := after (.freqOutWrite (Fld.VRV_FREQ_OUT_PERIOD_NS.into (Fld.VRV_FREQ_OUT_EN.into 0 1) p)) s0
    t.out = [.pin "PPS_OUT" true] ∧ after .ppsOutEdge t = t ∧ after .ppsOutEdge s0 = s0 ∧
    (after .ppsOutWidthEnd t).varve.pps = false ∧ after .ppsOutWidthEnd gap = gap ∧
    (f 101).getB Reg.VRV_FREQ_OUT Fld.VRV_FREQ_OUT_CFG_ERR = true ∧ (f 96).getB Reg.VRV_FREQ_OUT Fld.VRV_FREQ_OUT_CFG_ERR = true ∧
    (f 100).get Reg.VRV_FREQ_OUT Fld.VRV_FREQ_OUT_PERIOD_NS = 100 ∧ (f 100).varveNs % 100 = 0 ∧
    (after .freqOutEdge (f 100)).out = [.pin "FREQ_OUT" true] ∧ after .freqOutEdge s0 = s0 := by decide +kernel

/-! ### Guilds and their links -/

/-- Guild 3, bound to link 1, is enabled with its two bootstrap rings and its PNT ring 6 and INJ ring 7. -/
def guild3 : State :=
  let s := with_ [(Reg.GLD_CTL 3, Fld.GLD_CTL_EN, 1)] bound3
  let r (k kind base : Nat) (s : State) : State :=
    s.modRing 3 k fun r => { r with enabled := true, configured := true, kind := kind, base := base, bufLen := 256, reasonMask := 4 }
  r 7 4 0x7000 (r 6 3 0x6000 (r 1 1 0x1000 (r 0 0 0 s)))

theorem test_GuildsComeAndGoWithTheirLinks :
    let en := Fld.GLD_CTL_EN.into 0 1
    let t := after (.guildEnable 3 en (some [])) bound3
    let bad := after (.guildEnable 3 en none) bound3
    let off := after (.guildDisable 3 0) guild3
    bound3.gldOn 3 = false ∧ (bound3.gldLink 3).isSome = true ∧ en.toNat.testBit 31 = true ∧ t.gldOn 3 = true ∧
    (t.ring 3 0).enabled = true ∧ (t.ring 3 0).kind = 0 ∧ (t.ring 3 1).kind = 1 ∧ (t.guild 3).pollStopped = false ∧
    (bad.guild 3).pollStopped = true ∧ bad.gldOn 3 = true ∧ after (.guildEnable 3 en none) s0 = s0 ∧
    off.gldOn 3 = false ∧ (off.ring 3 6).enabled = false ∧ after (.guildDisable 3 en) guild3 = guild3 := by decide +kernel

theorem test_GuildsComeAndGoWithTheirLinks_links :
    let four := with_ [(Reg.HIF_CFG, Fld.HIF_CFG_BIF, 2)] guild3
    let down := after (.linkDown 1) four
    let reset_ := after (.linkReset 1) four
    let up := after (.pcieLinkUp 1 4 3) four
    linkCount four = 4 ∧ linkCount guild3 ≤ 1 ∧ down.gldOn 3 = false ∧
    down.getB (Reg.GLD_STATUS 3) Fld.GLD_STATUS_LINK_DOWN = true ∧
    (down.get Reg.HIF_EVENT Fld.HIF_EVENT_LINK_DOWN) = 2 ∧
    reset_.getB (Reg.HIF_LINK_STATUS 1) Fld.HIF_LINK_STATUS_PERST = true ∧ after (.linkReset 1) guild3 = guild3 ∧
    up.get (Reg.HIF_LINK_STATUS 1) Fld.HIF_LINK_STATUS_WIDTH = 4 ∧ up.get (Reg.HIF_LINK_STATUS 1) Fld.HIF_LINK_STATUS_SPEED = 3 ∧
    after (.pcieLinkUp 1 4 3) guild3 = guild3 := by decide +kernel

theorem test_GuildsComeAndGoWithTheirLinks_foreign :
    let go (k : Fin 4) (x : ForeignAccess) := after (.guildPageForeignAccess k x) bound3
    let win := with_ [(Reg.HIF_SHW 3, Fld.HIF_SHW_BASE, 1), (Reg.HIF_SHW 3, Fld.HIF_SHW_SIZE, 1)] bound3
    let viol (t : State) := t.getB Reg.HIF_EVENT Fld.HIF_EVENT_ISO_VIOL && t.cntGet (Reg.HIF_CNT_LO 3) == 1
    viol (go 0 (.readPage 3 8)) = true ∧ (go 0 (.readPage 3 8)).out = [.read (.link 0) (guildPageBase 3 + 8) 0#32] ∧
    viol (go 0 (.writePage 3 8 1)) = true ∧ go 1 (.writePage 3 8 1) = bound3 ∧
    inWindow win 1 0x1000004 = true ∧ inWindow bound3 1 0x1000004 = false ∧ viol (go 1 (.readWindow 0x1000004)) = true ∧
    viol (go 1 (.writeWindow 0x1000004 1)) = true ∧
    after (.guildPageForeignAccess 1 (.writeWindow 0x1000004 1)) win = win := by decide +kernel

/-- A read and a write inside the window, before and after the stacks have trained. -/
theorem test_GuildsComeAndGoWithTheirLinks_window :
    let win := with_ [(Reg.HIF_SHW 3, Fld.HIF_SHW_BASE, 1), (Reg.HIF_SHW 3, Fld.HIF_SHW_SIZE, 1)] bound3
    let up := with_ [(Reg.HBM_STATUS, Fld.HBM_STATUS_TRAINED, 3)] win
    let go (x : ForeignAccess) (s : State) := after (.guildPageForeignAccess 1 x) s
    let t := go (.writeWindow 0x1000004 0x01020304) up
    inWindow win 1 0x1000004 = true ∧ inWindow up 1 0x1000004 = true ∧ hbmReady win = false ∧ hbmReady up = true ∧
    isSound up = true ∧ up.hbm.adds.isEmpty = true ∧ t.mrd 0x601000004 4 = [4#8, 3#8, 2#8, 1#8] ∧
    (go (.readWindow 0x1000004) t).out.head? = some (.read (.link 1) 0x201000004 0x01020304) ∧
    go (.writeWindow 0x1000004 1) win = win ∧
    (go (.readWindow 0x1000004) win).out.length = 1 := by decide +kernel

theorem test_DoorbellsStartCommandsInOrder_polls :
    let poll (ws : Option (List Word)) (s : State) := after (.doorbellPoll 3 ws) s
    let t := poll (some [3#32, 0#32]) guild3
    let far := poll (some [17#32]) guild3
    let again := poll (some [3#32, 0#32]) t
    guild3.gldOn 3 = true ∧ (guild3.guild 3).pollStopped = false ∧ enabledRings guild3 3 = [0, 1, 6, 7] ∧
    (guild3.ring 3 0).idxBad 3 = false ∧ (guild3.ring 3 0).idxBad 17 = true ∧ (t.ring 3 0).h = 3 ∧
    t.get (Reg.GLD_STATUS 3) Fld.GLD_STATUS_POLL = (pollBounds guild3 3).1 ∧ again.hif = t.hif ∧
    far.getB (Reg.GLD_STATUS 3) Fld.GLD_STATUS_IDX_ERR = true ∧ (far.ring 3 0).h = 0 ∧
    (poll none guild3).getB (Reg.GLD_STATUS 3) Fld.GLD_STATUS_DMA_ERR = true ∧ poll none s0 = s0 := by decide +kernel

theorem test_DoorbellsStartCommandsInOrder_commands :
    let d (op cpl : Nat) := leBytes 1 op ++ zeros 1 ++ leBytes 2 cpl ++ zeros 28
    let s := guild3.modRing 3 0 fun r => { r with h := 1 }
    let full := s.modRing 3 1 fun r => { r with d := 16 }
    let go (x : Option (List Byte)) (s : State) := after (.cmdStart 3 0 x) s
    let t := go (some (d 0 1)) s
    (s.ring 3 0).ready = true ∧ (s.ring 3 0).cmd = none ∧ cplValid s 3 1 = true ∧ cplValid s 3 2 = false ∧
    (s.ring 3 1).unread < (s.ring 3 1).n ∧ (full.ring 3 1).unread = (full.ring 3 1).n ∧ descRefusal (d 0 1) 3 0 = none ∧
    (t.ring 3 0).cmd = some { desc := d 0 1, index := 0, cplRing := 1 } ∧ (t.ring 3 1).reserved = 1 ∧ t.out = [] ∧
    descRefusal (d 0xFF 1) 3 0 = some 1 ∧ answer 3 0 (go (some (d 0xFF 1)) s) = some (1, []) ∧
    answer 3 0 (go (some (d 0 2)) s) = some (4, []) ∧ (go (some (d 0 1)) full).out = [] ∧
    ((go none s).ring 3 0).stopping = true ∧ go none guild3 = guild3 := by decide +kernel

theorem test_DoorbellsStartCommandsInOrder_messages :
    let s : State := (guild3.modRing 3 6 fun r =>
      { r with irqEn := true, armBit := true, modUsec := 4, first := some 0, vector := 5 })
    let open_ : State := { s with hif := { s.hif with unmasked := [2053] } }
    let t := after (.msixModerationTimer 3 6) open_
    let c := cmdOf 0 []
    let run := guild3.modRing 3 0 fun r => { r with cmd := some c }
    (open_.ring 3 6).armed = true ∧ open_.gldLink 3 = some 1 ∧ msixMasked open_ 1 5 = false ∧ t.out = [.msix 1 5] ∧
    (t.ring 3 6).armed = false ∧ after (.msixModerationTimer 3 6) guild3 = guild3 ∧
    (after (.dmaFailure 3 0 true) guild3).getB (Reg.GLD_STATUS 3) Fld.GLD_STATUS_DMA_ERR = true ∧
    ((after (.dmaFailure 3 0 false) run).ring 3 0).stopping = true ∧
    answer 3 0 (after (.dmaFailure 3 0 false) run) = some (6, []) ∧ after (.dmaFailure 3 0 false) s0 = s0 := by decide +kernel

/-! ### Ring commands: Guild 0, its CPL ring 1, its CMD ring 2 -/

def ringSetCmd (r kind log2n base enable : Nat) : Cmd :=
  cmdOf 0x01 [(0, r), (16, kind), (24, log2n), (49, enable), (64, base)]

theorem test_RingCommandsSetAndStopRings_set :
    let go (c : Cmd) (db : Option Word) (s : State) := after (.ringSet 0 2 db) (ringed 0 c s)
    let good := ringSetCmd 9 3 4 4096
    let evt := s0.modRing 0 8 fun r => { r with enabled := true, kind := 2 }
    let t := go (good 0) none s0
    let u := go (good 1) (some 7#32) s0
    let no := go (good 1) none s0
    readyFor (ringed 0 (good 0) s0) 0 1 (good 0) = true ∧ kindRing evt 0 2 = some 8 ∧ kindRing s0 0 3 = none ∧
    answer 0 0 (go (ringSetCmd 1 3 4 4096 0) none s0) = some (4, []) ∧
    answer 0 0 (go (ringSetCmd 8 3 4 4096 0) none evt) = some (4, []) ∧
    answer 0 0 (go (ringSetCmd 9 6 4 4096 0) none s0) = some (5, []) ∧
    answer 0 0 (go (ringSetCmd 9 3 17 4096 0) none s0) = some (5, []) ∧
    answer 0 0 (go (ringSetCmd 9 3 4 4097 0) none s0) = some (5, []) ∧
    answer 0 0 (go (ringSetCmd 9 2 4 4096 1) none evt) = some (7, []) ∧
    answer 0 0 t = some (0, []) ∧ (t.ring 0 9).kind = 3 ∧ (t.ring 0 9).base = 4096 ∧ (t.ring 0 9).enabled = false ∧
    answer 0 0 u = some (0, []) ∧ (u.ring 0 9).enabled = true ∧ (u.ring 0 9).armed = true ∧ (u.ring 0 9).h = 7 ∧
    answer 0 0 no = some (6, []) ∧ (no.guild 0).pollStopped = true := by decide +kernel

theorem test_RingCommandsSetAndStopRings_others :
    let go (i : Instr) (c : Cmd) (s : State) := after i (ringed 0 c s)
    let par (r len : Nat) := cmdOf 0x02 [(0, r), (16, 3), (32, 4), (48, len), (64, 8)]
    let pnt := s0.modRing 0 9 fun r => { r with enabled := true, configured := true, kind := 3 }
    let t := go (.ringParam 0 2) (par 9 512) pnt
    let nop := cmdOf 0 [(0, 0x0807)]
    let info := cmdOf 4 []
    let bnd := with_ [(Reg.HIF_GUILD_BIND 0, Fld.HIF_GUILD_BIND_VALID, 1)] s0
    answer 0 8 (go (.nop 0 2) nop s0) = some (0, [7#8, 8#8] ++ zeros 6) ∧ readyFor (ringed 0 nop s0) 0 0 nop = true ∧
    readyFor (ringed 0 info bnd) 0 4 info = true ∧ bnd.gldLink 0 = some 0 ∧
    answer 0 6 (go (.gldInfo 0 2) info bnd) = some (0, zeros 4 ++ leBytes 2
      (s0.get (Reg.HIF_GUILD_RINGS 0) Fld.HIF_GUILD_RINGS_COUNT)) ∧
    readyFor (ringed 0 (par 9 512) pnt) 0 2 (par 9 512) = true ∧
    answer 0 0 (go (.ringParam 0 2) (par 2000 512) pnt) = some (4, []) ∧
    answer 0 0 (go (.ringParam 0 2) (par 9 500) pnt) = some (5, []) ∧ answer 0 0 t = some (0, []) ∧
    (t.ring 0 9).modCount = 3 ∧ (t.ring 0 9).modUsec = 4 ∧ (t.ring 0 9).bufLen = 512 ∧ (t.ring 0 9).reasonMask = 8 := by
  decide +kernel

theorem test_RingCommandsSetAndStopRings_stop :
    let stop (r : Nat) := cmdOf 0x03 [(0, r)]
    let pnt := s0.modRing 0 9 fun r => { r with enabled := true, configured := true, kind := 3, d := 12 }
    let t := after (.ringStop 0 2) (ringed 0 (stop 9) pnt)
    let u := after (.ringQuiesced 0 9) t
    let self := after (.ringStop 0 2) (ringed 0 (stop 1) s0)
    let v := after (.ringQuiesced 0 9) (s0.modRing 0 9 fun r => { r with enabled := true, stopping := true })
    readyFor (ringed 0 (stop 9) pnt) 0 3 (stop 9) = true ∧
    answer 0 0 self = some (4, []) ∧ answer 0 0 (after (.ringStop 0 2) (ringed 0 (stop 2) pnt)) = some (4, []) ∧
    (t.ring 0 9).stopping = true ∧ (t.ring 0 9).stopFor = some (0, 2) ∧ t.out = [] ∧ (waitingCmd t 0 2 3).isSome = true ∧
    (u.ring 0 9).enabled = false ∧ answer 0 4 u = some (0, leBytes 4 12) ∧ (v.ring 0 9).enabled = false ∧
    after (.ringQuiesced 0 9) pnt = pnt := by decide +kernel

theorem test_RingCommandsSetAndStopRings_stopCpl :
    let c : Cmd := { cmdOf 0x03 [(0, 1)] with cplRing := 9, began := true }
    let s := (ringed 0 c s0).modRing 0 9 fun r =>
      { r with enabled := true, configured := true, kind := 1, d := 12, reserved := 1, stopping := true, stopFor := some (0, 2) }
    let t := after (.ringQuiesced 0 9) s
    (t.ring 0 9).enabled = false ∧ answer 0 4 t = some (0, leBytes 4 13) := by decide +kernel

/-! ### Punts and injects -/

/-- A punted frame of reason 2 for Guild 3, landed from station 0. -/
def punted (rate : Nat) (s : State) : State :=
  let x : XFrame := { xf1 .unicast with dest := 144, guild := 3, reason := 2 }
  ctx1 { xf := x, cellsLeft := 0 } 0 12 (with_ [(Reg.HIF_PUNT_BKT_RATE 3 2, Fld.HIF_PUNT_BKT_RATE_RATE, rate)] s)

theorem test_PuntsAndInjectsPassTheirStages_arrival :
    let s := punted 0xFFFFFF guild3
    let none_ := after (.puntArrival 0 2) (punted 0 guild3)
    let full := after (.puntArrival 0 2) (with_ [(Reg.HIF_STAGE 3, Fld.HIF_STAGE_LIMIT_KIB, 0)] s)
    let lost := after (.puntArrival 0 2) (punted 0xFFFFFF bound3)
    isSound s = true ∧ (s.ctx? 0 12 2).isSome = true ∧ (fr 60).known ∧ (poolFor s false 64).isSome = true ∧
    (bucketTake 3 2 s).1 = true ∧ 64 ≤ stageLimit s 3 ∧ puntRing s 3 2 = some 6 ∧ none_.ctx? 0 12 2 = none ∧
    none_.cntGet (Reg.HIF_PUNT_DROP_LO 3 2) = 1 ∧ full.cntGet (Reg.GLD_CNT_LO 3 4) = 1 ∧
    lost.cntGet (Reg.GLD_CNT_LO 3 5) = 1 := by decide +kernel

/-- No block of the largest pool is left. -/
def dry : State :=
  let s := with_ [(Reg.HIF_STAGE 3, Fld.HIF_STAGE_LIMIT_KIB, 64), (Reg.HIF_PUNT_BKT_RATE 3 2, Fld.HIF_PUNT_BKT_RATE_RATE, 0xFFFFFF)]
    guild3
  { s with coop := { s.coop with freeStacks := [(3, { gone := List.range 336 })] } }

def longPunt (n : Nat) : Context :=
  { xf := { xf1 .unicast with frame := fr n, dest := 144, guild := 3, reason := 2 }, cellsLeft := 0 }

theorem ctx1_get (x : Context) (i o : Nat) (s : State) (a : Nat) (f : Field) : (ctx1 x i o s).get a f = s.get a f := rfl
theorem ctx1_guild (x : Context) (i o g : Nat) (s : State) : (ctx1 x i o s).guild g = s.guild g := rfl
theorem ctx1_stack (x : Context) (i o n : Nat) (s : State) : (ctx1 x i o s).stack n = s.stack n := rfl
theorem ctx1_coop (x : Context) (i o : Nat) (s : State) : (ctx1 x i o s).coop = s.coop := rfl
theorem ctx1_ctx? (x : Context) (s : State) : (ctx1 x 0 12 s).ctx? 0 12 2 = some x := by
  simp [ctx1, State.setCtx, State.ctx?, State.modCore, State.modStn, State.setStn, State.stn, aget]

theorem dry_is : stageLimit dry 3 = 65536 ∧ (dry.guild 3).puntBytes = 0 ∧ stackFree dry 3 = 0 ∧
    dry.get (Reg.HIF_PUNT_BKT_RATE 3 2) Fld.HIF_PUNT_BKT_RATE_RATE = 0xFFFFFF ∧ dry.coop.refusing = [] := by
  decide +kernel

theorem test_PuntsAndInjectsPassTheirStages_noBlock (n : Nat) (h : 9728 < n) (m : n ≤ 16000) :
    let s := ctx1 (longPunt n) 0 12 dry
    s.ctx? 0 12 2 = some (longPunt n) ∧ (bucketTake 3 2 s).1 = true ∧
    (s.guild 3).puntBytes + (longPunt n).xf.frame.len ≤ stageLimit s 3 ∧
    poolFor s false (longPunt n).xf.frame.len = none ∧ 1168 * 0 + 8 * 144 + 2 ∉ s.coop.refusing := by
  have l : (longPunt n).xf.frame.len = n + 4 := by simp [longPunt, Frame.len, fr, zeros]
  obtain ⟨k, b, f, w, q⟩ := dry_is
  generalize dry = d at *
  refine ⟨ctx1_ctx? _ d, by simp [bucketTake, ctx1_get, w], ?_, ?_, by simp [ctx1_coop, q]⟩
  · simp only [stageLimit, ctx1_get, ctx1_guild] at k ⊢
    omega
  · have e0 : ¬ n + 4 ≤ 256 := by omega
    have e1 : ¬ n + 4 ≤ 2048 := by omega
    have e2 : ¬ n + 4 ≤ 9728 := by omega
    have g : stackFree (ctx1 (longPunt n) 0 12 d) 3 = 0 := by
      simpa only [stackFree, builtLeft, stackBlocks, hkBlocks, ctx1_get, ctx1_stack] using f
    have r : List.range 4 = [0, 1, 2, 3] := rfl
    simp [poolFor, r, l, poolSize, poolGives, g, e0, e1, e2]

/-- A punt staged in block 5 of pool 0. -/
def staged3 (h : Nat) : State :=
  let p : Punt := { xf := { xf1 .unicast with guild := 3, reason := 2 }, guild := 3, pool := 0, block := 5, ring := 6, station := 0 }
  (guild3.modRing 3 6 fun r => { r with h := h }).modGuild 3 fun g => { g with punts := [p], puntBytes := 64 }

theorem test_PuntsAndInjectsPassTheirStages_delivery :
    let d := zeros 8 ++ leBytes 8 0x9000 ++ zeros 16
    let t := after (.puntDelivery 3 6 (some d)) (staged3 1)
    let b := (staged3 1).mrd (blockAddr 0 5) 60
    ((staged3 1).ring 3 6).ready = true ∧ ((staged3 0).ring 3 6).ready = false ∧ (t.guild 3).punts = [] ∧
    (t.ring 3 6).d = 1 ∧ t.out.contains (.dma 3 none 0x9000 (b ++ fcsOf b)) = true ∧ t.cntGet (Reg.GLD_CNT_LO 3 3) = 1 ∧
    after (.puntDelivery 3 6 (some d)) (staged3 0) = staged3 0 := by decide +kernel

/-- INJ_STOP bars injects from every pool. -/
def stopped (s : State) : State :=
  with_ ((List.range 4).map fun n => (Reg.COOP_THR n, Fld.COOP_THR_INJ_STOP, 2 ^ Fld.COOP_THR_INJ_STOP.w - 1)) s

theorem test_PuntsAndInjectsPassTheirStages_injects :
    let d (st len : Nat) := leBytes 4 st ++ leBytes 2 len ++ zeros 26
    let s := guild3.modRing 3 7 fun r => { r with h := 1, cons := 0x8000 }
    let bad := after (.injFetch 3 7 (some (d 12 64)) none) s
    let short := after (.injFetch 3 7 (some (d 0 60)) none) s
    let t := after (.injFetch 3 7 (some (d 2 64)) (some (zeros 64))) s
    (s.ring 3 7).ready = true ∧ s.poolDrain = none ∧ (poolFor s true 64).isSome = true ∧
    (bad.ring 3 7).d = 1 ∧ bad.cntGet (Reg.GLD_CNT_LO 3 2) = 1 ∧ short.cntGet (Reg.GLD_CNT_LO 3 2) = 1 ∧
    bad.out.contains (.dma 3 none 0x8000 (leBytes 4 1)) = true ∧ t.cntGet (Reg.GLD_CNT_LO 3 1) = 1 ∧ (t.ring 3 7).d = 1 ∧
    after (.injFetch 3 7 (some (d 2 64)) none) guild3 = guild3 ∧
    poolFor (stopped s) true 64 = none ∧
    (after (.injFetch 3 7 (some (d 2 64)) none) (stopped s)).cntGet (Reg.COOP_CNT_LO 0) = 1 := by decide +kernel

/-- Address and byte 1 of the slot that ring 6 writes at index d. -/
def slotAt (d : Nat) : Option (Nat × Nat) :=
  (ringWrite 3 6 (zeros 32) (guild3.modRing 3 6 fun r => { r with d := d })).out.findSome? fun o => match o with
    | .dma _ _ a b => some (a, le b 1 1)
    | _ => none

theorem test_EverySlotCarriesItsPhase :
    (guild3.ring 3 6).n = 16 ∧ slotAt 0 = some (0x6000, 128) ∧ slotAt 15 = some (0x61E0, 128) ∧
    slotAt 16 = some (0x6000, 0) ∧ slotAt 31 = some (0x61E0, 0) := by decide +kernel

/-! ### Interrupts -/

/-- Source 280 (bit 0 of BOOT_EVENT), of priority 5, routed to target 7, Guild 3's; low or high. -/
def src280 (en high : Nat) (s : State) : State :=
  with_ [(Reg.BOOT_EVENT, ⟨0, 1, .rw, 0⟩, high), (Reg.BOOT_EVENT_EN, ⟨0, 1, .rw, 0⟩, 1)]
    (((s.wr (Reg.IRQ_SRC_PRIO 35) 5).wr (Reg.IRQ_SRC_ROUTE 35) 7).wr (Reg.IRQ_SRC_EN 8) (BitVec.ofNat 32 (en * 2 ^ 24)))

def pend280 (high : Nat) (s : State) : State := (src280 1 high s).wr (Reg.IRQ_PEND 8) (BitVec.ofNat 32 (2 ^ 24))

theorem test_SourcesArePendingClaimedAndCompleted_rise :
    let t := after (.irqLevelRise none 280) (src280 1 1 s0)
    irqPrivate 280 = false ∧ irqEnabled (src280 1 1 s0) 7 280 = true ∧ irqLevel (src280 1 1 s0) 7 280 = true ∧
    serving (src280 1 1 s0) 7 280 = false ∧ irqPending t 7 280 = true ∧ t.rdN (Reg.IRQ_PEND 8) = 2 ^ 24 ∧
    after (.irqLevelRise none 280) (src280 1 0 s0) = src280 1 0 s0 ∧
    after (.irqLevelRise none 280) (src280 0 1 s0) = src280 0 1 s0 := by decide +kernel

theorem test_SourcesArePendingClaimedAndCompleted_messages :
    let s := ((s1.wr (Reg.IRQ_SRC_PRIO 128) 5).wr (Reg.IRQ_SRC_EN 32) 1).wr (Reg.IRQ_SRC_ROUTE 128) 7
    let msg (n : Nat) (k : Fin 4) (s : State) := after (.irqMsgDoorbell (.link k) (Fld.IRQ_MSG_DOORBELL_NUMBER.into 0 n)) s
    let t := msg 1024 0 s
    reachesBar0 s (.link 0) = true ∧ reachesBar0 s (.link 1) = false ∧ irqEnabled s 0 1024 = true ∧
    irqEnabled s 0 1025 = false ∧ irqPending t 0 1024 = true ∧ t.cntGet (Reg.IRQ_CNT_LO 0) = 1 ∧
    (msg 1024 0 t).cntGet (Reg.IRQ_CNT_LO 1) = 1 ∧ (msg 1025 0 s).cntGet (Reg.IRQ_CNT_LO 2) = 1 ∧
    (msg 1023 0 s).getB Reg.IRQ_STATUS Fld.IRQ_STATUS_BAD_MSG = true ∧
    (msg 3072 0 s).getB Reg.IRQ_STATUS Fld.IRQ_STATUS_BAD_MSG = true ∧ msg 1024 1 s = s := by decide +kernel

theorem test_SourcesArePendingClaimedAndCompleted_claim :
    let g := bound3
    let claim (k : Fin 4) (s : State) := after (.irqClaim (.link k) 7) s
    let t := claim 1 (pend280 1 g)
    let old := claim 1 (pend280 0 g)
    let done (n : Nat) (k : Fin 4) (s : State) := after (.irqComplete (.link k) 7 (Fld.IRQ_TGT_COMPLETE_NUMBER.into 0 n)) s
    reachesTarget g (.link 1) 7 = true ∧ reachesTarget g (.link 2) 7 = false ∧ reachesTarget g (.link 2) 3 = false ∧
    deliverable (pend280 1 g) 7 = [(280, 5)] ∧ deliverable g 7 = [] ∧
    (claim 1 g).out = [.read (.link 1) (Reg.IRQ_TGT_CLAIM 7) 0#32] ∧ (claim 1 g).cntGet (Reg.IRQ_TGT_CNT_LO 7 1) = 1 ∧
    t.out = [.read (.link 1) (Reg.IRQ_TGT_CLAIM 7) (BitVec.ofNat 32 (2 ^ 31 + 5 * 65536 + 280))] ∧
    old.out = [.read (.link 1) (Reg.IRQ_TGT_CLAIM 7) (BitVec.ofNat 32 (5 * 65536 + 280))] ∧
    old.cntGet (Reg.IRQ_TGT_CNT_LO 7 2) = 1 ∧ irqService t 7 = [(280, 5)] ∧ irqPending t 7 280 = false ∧
    (claim 2 g).getB Reg.HIF_EVENT Fld.HIF_EVENT_ISO_VIOL = true ∧ after (.irqClaim (.link 2) 3) g = g ∧
    (done 9 1 g).getB Reg.IRQ_STATUS Fld.IRQ_STATUS_BAD_COMPLETE = true ∧ irqService (done 280 1 t) 7 = [] ∧
    irqPending (done 280 1 t) 7 280 = true ∧ irqPending (done 280 1 old) 7 280 = false ∧
    (done 280 2 t).getB Reg.HIF_EVENT Fld.HIF_EVENT_ISO_VIOL = true ∧
    after (.irqComplete (.link 2) 3 0) g = g := by decide +kernel

theorem test_SourcesAreSetUpAndSignalled_setUp :
    let s := src280 1 1 s0
    let t := after (.irqCfgWrite (Reg.IRQ_SRC_PRIO 35) 0x36#32) s
    let priv := after (.irqCfgWrite (Reg.IRQ_TGT_PRIV_PRIO 3 1) 0x10#32) s0
    let en (v : Word) (s : State) := after (.irqEnableWrite (.link 0) (Reg.IRQ_SRC_EN 8) v) s
    let at8 := placeOf s1 (.link 0) (Reg.IRQ_SRC_EN 8)
    irqRouted 280 = true ∧ irqEnBit s 0 280 = true ∧ irqEnBit s 0 281 = false ∧ t.rd (Reg.IRQ_SRC_PRIO 35) = 0x35#32 ∧
    t.getB Reg.IRQ_STATUS Fld.IRQ_STATUS_CFG_ERR = true ∧ priv.rd (Reg.IRQ_TGT_PRIV_PRIO 3 1) = 0x10#32 ∧
    priv.rd Reg.IRQ_STATUS = 0#32 ∧ irqPending (en 0 (pend280 1 s1)) 7 280 = false ∧
    irqPending (en (BitVec.ofNat 32 (2 ^ 24)) (src280 0 1 s1)) 7 280 = true ∧
    irqPending (en (BitVec.ofNat 32 (2 ^ 24)) (src280 0 0 s1)) 7 280 = false ∧
    irqEnBit (en 0 (src280 1 1 s1)) 0 280 = false ∧ at8 = .setup ∧ mayWrite (.link 0) (Reg.IRQ_SRC_EN 8) = true := by
  decide +kernel

/-- Who may write an enable: by a Guild page its Guild's host alone, by the set-up space who reaches it. -/
theorem test_SourcesAreSetUpAndSignalled_places :
    let own := guildPageBase 3 + (Reg.IRQ_TGT_PRIV_EN 7 - Reg.IRQ_TGT_CLAIM 7) + 0x900
    let go (k : Fin 4) (a : Nat) (v : Word) := after (.irqEnableWrite (.link k) a v) bound3
    homeAddr own = Reg.IRQ_TGT_PRIV_EN 7 ∧ own % 4 = 0 ∧ placeOf bound3 (.link 1) own = .page 3 ∧
    placeOf bound3 (.link 0) own = .foreign ∧ placeOf s0 (.link 0) (Reg.IRQ_SRC_EN 8) = .none ∧
    irqEnBit (go 1 own 1) 7 16 = true ∧ (go 0 own 1).getB Reg.HIF_EVENT Fld.HIF_EVENT_ISO_VIOL = true ∧
    go 0 (Reg.IRQ_SRC_EN 8) 1 = bound3 := by decide +kernel

theorem test_SourcesAreSetUpAndSignalled_signals :
    let g : State := { with_ [(Reg.GLD_IRQ_VEC 3, Fld.GLD_IRQ_VEC_IRQ_EN, 1), (Reg.GLD_IRQ_VEC 3, Fld.GLD_IRQ_VEC_VECTOR, 5)] guild3 with
                       hif := { guild3.hif with unmasked := [2053] } }
    let s := pend280 1 g
    let t := after (.irqSignal 7) s
    let masked := with_ [(Reg.IRQ_TGT_CTL 7, Fld.IRQ_TGT_CTL_MASK, 1)] s
    let hk := (pend280 1 s0).wr (Reg.IRQ_SRC_ROUTE 35) 2
    let mask (v : Word) := after (.irqMaskWrite 7 v) masked
    deliverable s 7 ≠ [] ∧ irqMasked s 7 = false ∧ s.gldLink 3 = some 1 ∧ msixMasked s 1 5 = false ∧ t.out = [.msix 1 5] ∧
    t.getB (Reg.IRQ_TGT_STATUS 7) Fld.IRQ_TGT_STATUS_SIGNALLED = true ∧ after (.irqSignal 7) t = t ∧
    after (.irqSignal 7) g = g ∧ after (.irqSignal 7) masked = masked ∧ (mask 0).out = [.msix 1 5] ∧
    (mask (Fld.IRQ_TGT_CTL_MASK.into 0 1)).out = [] ∧ deliverable hk 2 ≠ [] ∧
    ((after (.irqSignal 2) hk).hkEng 2).queue = [{ kind := 0, op := 0 }] ∧
    after (.irqSignal 2) (after (.irqSignal 2) hk) = after (.irqSignal 2) hk := by decide +kernel

theorem test_LevelSourcesFollowTheirEvents :
    let hbm := with_ [(Reg.HBM_EVENT, ⟨5, 1, .rw, 0⟩, 1), (Reg.HBM_EVENT_EN, ⟨5, 1, .rw, 0⟩, 1)] s0
    let ovf := (s0.wr (Reg.STN_EV_OVF 11 1) 4).wr (Reg.STN_EV_OVF_EN 11 1) 4
    irqLevel hbm 0 245 = true ∧ irqLevel hbm 0 240 = false ∧ irqLevel ovf 0 248 = true ∧ irqLevel s0 0 248 = false ∧
    irqLevel (src280 0 1 s0) 0 280 = true ∧ irqLevel (src280 0 1 s0) 0 285 = false := by decide +kernel

/-! ### Memory controller -/

def trained : State := with_ [(Reg.HBM_STATUS, Fld.HBM_STATUS_TRAINED, 3)] s0

theorem test_AccessesToABlockAreExecutedInOrder :
    let go (p : Fin 6) (x : HbmAccess) (s : State) := after (.hbmAccess p x) s
    let w := go 3 (.write 68 [1#8, 2#8]) trained
    let r := go 3 (.read 68) w
    let d := after (.hbmWriteDrain 1) r
    let bytes := zeros 4 ++ [1#8, 2#8] ++ zeros 58
    hbmReady trained = true ∧ isSound trained = true ∧ portReaches 3 68 true = true ∧ portReaches 3 68 false = true ∧
    portReaches 0 0x400000000 false = false ∧ (stackWrites r (hbmPlace 1).stack).length ≤ 384 ∧
    hbmReserved 0x730000000 = true ∧ hbmReserved 68 = false ∧ w.mrd 68 2 = [1#8, 2#8] ∧ w.hbm.writes = [1] ∧
    r.hbm.reads.map (·.after) = [1] ∧ r.out = [] ∧ d.out = [.hbmData 3 64 bytes false] ∧ d.hbm.writes = [] ∧
    (go 3 (.read 68) trained).out = [.hbmData 3 64 (zeros 64) false] ∧
    (go 3 (.readError 68 true) trained).out = [.hbmData 3 64 (zeros 64) true] ∧
    (go 3 (.readError 68 true) trained).hbm.bad = [(2, true)] ∧ (go 3 (.readError 68 false) trained).hbm.bad = [] ∧
    (go 3 (.readError 68 false) trained).cntGet (Reg.HBM_CNT_LO 4) = 1 ∧ go 2 (.readError 68 false) s0 = s0 ∧
    (go 3 (.read 0x730000000) trained).out = [.hbmData 3 0x730000000 (zeros 64) false] ∧
    (go 3 (.write 0x730000000 [1#8]) trained).cntGet (Reg.HBM_CNT_LO 8) = 1 ∧
    (go 2 (.read 0x600000000) s0).out = [.hbmData 2 0x600000000 (zeros 64) false] ∧ go 2 (.write 0x600000000 [1#8]) s0 = s0 ∧
    after (.hbmWriteDrain 1) trained = trained := by decide +kernel

theorem test_AccessesToABlockAreExecutedInOrder_adds :
    let a := after (.hbmAccess 3 (.add 68 (BitVec.ofNat 64 (2 ^ 64 - 1)))) (trained.mwr 64 [2#8])
    let t := after .postedAddExecute a
    a.hbm.adds = [⟨64, 2 ^ 64 - 1⟩] ∧ t.hbm.adds = [] ∧ t.mrd 64 8 = leBytes 8 1 ∧ after .postedAddExecute trained = trained := by
  decide +kernel

theorem test_TheControllerKeepsItsStacks :
    let temp (n : Fin 256) := after (.hbmTempRead 1 n) trained
    let hot (n : Fin 256) := (temp n).getB Reg.HBM_EVENT Fld.HBM_EVENT_HOT
    let twice (n : Fin 256) := (temp n).get Reg.HBM_STATUS Fld.HBM_STATUS_REFRESH_2X
    let bad (u : Bool) : State := { trained with hbm := { trained.hbm with bad := [(1, u)] } }
    let scrub (s : State) := after .hbmScrubRead s
    hot 95 = true ∧ hot 94 = false ∧ twice 86 = 2 ∧ twice 85 = 0 ∧ (after (.hbmRefresh 2047) trained).hbm.refreshed = [(2047, 0)] ∧
    after (.hbmRefresh 2048) trained = trained ∧ scrub s0 = s0 ∧ (scrub trained).hbm.scrubAt = 1 ∧
    (scrub (bad false)).hbm.bad = [] ∧ (scrub (bad false)).cntGet (Reg.HBM_CNT_LO 4) = 1 ∧
    (scrub (bad true)).hbm.bad = [(1, true)] ∧ (scrub (bad true)).getB Reg.HBM_EVENT Fld.HBM_EVENT_UE = true ∧
    (scrub (bad true)).getB Reg.HBM_ERR_LAST Fld.HBM_ERR_LAST_UNCORR = true := by decide +kernel

theorem test_TheControllerKeepsItsStacks_channels :
    let sr := with_ [(Reg.HBM_PWR, Fld.HBM_PWR_SR_IDLE, 1)] trained
    let pd := after (.channelPowerDown 5) trained
    let share (n : Nat) := after (.hbmShareWrite 2 (Fld.HBM_SHARE_SHARE.into 0 n)) (with_ [(Reg.HBM_SHARE 0, Fld.HBM_SHARE_SHARE, 200)] s0)
    pd.hbm.down = [5] ∧ after (.channelPowerDown 5) pd = pd ∧ after (.channelPowerDown 5) s0 = s0 ∧
    (after (.channelSelfRefresh 5) sr).hbm.selfRefresh = [5] ∧ after (.channelSelfRefresh 5) trained = trained ∧
    (share 29).getB Reg.HBM_EVENT Fld.HBM_EVENT_CFG_ERR = true ∧ (share 28).get (Reg.HBM_SHARE 2) Fld.HBM_SHARE_SHARE = 28 := by
  decide +kernel

/-- A write waits for block 0: neither its bank is refreshed nor its channel left. -/
theorem test_TheControllerKeepsItsStacks_waits :
    let s : State := { with_ [(Reg.HBM_PWR, Fld.HBM_PWR_SR_IDLE, 1)] trained with hbm := { trained.hbm with writes := [0] } }
    hbmWaits s (hbmBank · == hbmBank 0) = true ∧ hbmWaits trained (hbmBank · == 2047) = false ∧
    after (.hbmRefresh (hbmBank 0)) s = s ∧ hbmChannel 0 = 0 ∧ after (.channelPowerDown 0) s = s ∧
    after (.channelSelfRefresh 0) s = s := by decide +kernel

/-- A stack whose table is over three-quarters full writes ahead of reads until it is half full, however it drains. -/
theorem test_AccessesToABlockAreExecutedInOrder_full :
    let s (n : Nat) (ahead : List Nat) : State :=
      { trained with hbm := { trained.hbm with writes := List.replicate n 0, ahead := ahead } }
    let read (s : State) := (after (.hbmAccess 3 (.read 0)) s).hbm
    let drain (s : State) := (after (.hbmWriteDrain 0) s).hbm
    (hbmPlace 0).stack = 0 ∧ ¬ (stackWrites (s 385 []) 0).length ≤ 384 ∧ (read (s 385 [])).writes.length = 256 ∧
    (read (s 300 [])).writes.length = 300 ∧ (read (s 300 [0])).writes.length = 256 ∧
    (after (.hbmAccess 3 (.write 0 [1#8])) (s 384 [])).hbm.ahead = [0] ∧ (drain (s 386 [0])).ahead = [0] ∧
    (drain (s 301 [0])).ahead = [0] ∧ (drain (s 257 [0])).ahead = [] ∧ (drain (s 301 [])).ahead = [] := by decide +kernel

theorem test_TheControllerKeepsItsStacks_training :
    let one := after (.hbmTrainingDone 0 1 0) s0
    let both := after (.hbmTrainingDone 1 2 3) one
    let bad := after (.hbmTrainingDone 0 3 0) s0
    one.get Reg.HBM_STATUS Fld.HBM_STATUS_TRAINED = 1 ∧ hbmReady both = true ∧
    both.getB Reg.BOOT_EVENT Fld.BOOT_EVENT_HBM = true ∧ both.get (Reg.HBM_TRAIN 1) Fld.HBM_TRAIN_REPAIRED = 3 ∧
    bad.getB Reg.HBM_EVENT Fld.HBM_EVENT_TRAIN_FAIL = true ∧ bootStage bad = 4 ∧ bad.out = [.pin "SMB_ALERT_N" false] ∧ one.out = [] ∧
    after (.hbmTrainingDone 0 1 0) one = one ∧ after (.hbmTrainingDone 0 0 0) s0 = s0 := by decide +kernel

/-! ### Tallyman -/

/-- Dumps are enabled, of these sets, for memory. -/
def tally1 (sets : Nat) (s : State) : State :=
  with_ [(Reg.TLY_CFG, Fld.TLY_CFG_EN, 1), (Reg.TLY_CFG, Fld.TLY_CFG_SETS, sets)] s

/-- A dump of Guild 3 that runs, of 72 bytes in a buffer of `room`. -/
def dumping (host tlm held : Bool) (room : Nat) (s : State) : State :=
  let d : Dump := { number := 7, buffer := 1, triggered := false, sets := 0, host := host, owner := 3, tlm := tlm
                    addr := 0x720001000, room := room, tsStart := 0, skipped := 0, segments := zeros 39 ++ [9#8] }
  { s with tally := { running := some d, held := held, next := 8 } }

/-- Guild 3 with a TLM ring. -/
def tlm3 : State := guild3.modRing 3 8 fun r => { r with enabled := true, kind := 5, base := 0x8000 }

theorem test_DumpsCaptureTheSelectedSets_enable :
    let on := Fld.TLY_CFG_SETS.into (Fld.TLY_CFG_EN.into 0 1) 4
    let go (v : Word) (s : State) := after (.tlyEnableWrite v) s
    let big := with_ [(Reg.TLY_BUF, Fld.TLY_BUF_COUNT, 513), (Reg.TLY_BUF, Fld.TLY_BUF_SIZE, 128)] s0
    let fits := with_ [(Reg.TLY_BUF, Fld.TLY_BUF_COUNT, 512), (Reg.TLY_BUF, Fld.TLY_BUF_SIZE, 128)] s0
    let t := tally1 5 s0
    let held : State := { t with tally := { held := true } }
    tlyOn s0 = false ∧ tlyOn (go on fits) = true ∧ (go on fits).get Reg.TLY_CFG Fld.TLY_CFG_SETS = 4 ∧
    tlyOn (go on big) = false ∧ (go on big).getB Reg.TLY_EVENT Fld.TLY_EVENT_CFG_ERR = true ∧
    (go on t).get Reg.TLY_CFG Fld.TLY_CFG_SETS = 5 ∧ (go on t).getB Reg.TLY_EVENT Fld.TLY_EVENT_CFG_ERR = true ∧
    tlyOn (go 0 held) = false ∧ (go 0 held).tally.held = false ∧ (go on held).tally.held = true := by decide +kernel

theorem test_DumpsCaptureTheSelectedSets_start :
    let s := tally1 0x80 trained
    let go (trig : Bool) (s : State) := after (.tlyDumpStart trig) s
    let t := go false s
    let bad := go false (with_ [(Reg.TLY_GSEL 2, Fld.TLY_GSEL_VALID, 1), (Reg.TLY_GSEL 2, Fld.TLY_GSEL_ADDR, 4)] s)
    let busy := dumping false false false 4096 s
    let held := dumping false false true 4096 s
    tlyAdmits s = true ∧ tlyAdmits (tally1 0 s0) = false ∧ t.tally.next = 1 ∧
    (t.tally.running.map fun d => (d.number, d.segments.length)) = some (0, 528) ∧
    Fld.TLY_STATUS_BUSY.of (regView t Reg.TLY_STATUS) = 1 ∧ t.getB Reg.TLY_EVENT Fld.TLY_EVENT_GSEL_ERR = false ∧
    bad.getB Reg.TLY_EVENT Fld.TLY_EVENT_GSEL_ERR = true ∧ (go false (tally1 0 s0)).tally.skipped = 1 ∧
    (go false busy).tally.skipped = 1 ∧ (go false busy).getB Reg.TLY_EVENT Fld.TLY_EVENT_SKIPPED = true ∧
    (go true held).tally = held.tally ∧ Fld.TLY_STATUS_HELD.of (regView (go true held) Reg.TLY_STATUS) = 1 ∧
    go true s = s ∧ go false trained = trained := by decide +kernel

/-- A dump of two sets: one segment at its start, the rest at the ticks, and only then can it be done. -/
theorem test_DumpsCaptureTheSelectedSets_segments :
    let t := after (.tlyDumpStart false) (tally1 0x88 trained)
    let todo (t : State) := (t.tally.running.map fun d => d.todo.length).getD 0
    (segmentList 0x88).length = 13 ∧ todo t = 12 ∧ after .tlyDumpDone t = t ∧
    todo (stepped t) = 11 := by decide +kernel

theorem test_DumpsCaptureTheSelectedSets_done :
    let go (s : State) := after .tlyDumpDone s
    let t := go (dumping false false false 4096 s0)
    let cut := go (dumping false false false 64 s0)
    let host := go (dumping true true false 4096 tlm3)
    let more := go (dumping false false true 4096 (tally1 0 trained))
    t.mrd 0x720001000 4 = leBytes 4 7 ∧ t.mrd 0x720001047 1 = [9#8] ∧ cut.mrd 0x72000100C 4 = leBytes 4 64 ∧
    cut.mrd 0x720001047 1 = [0#8] ∧ t.getB Reg.TLY_EVENT Fld.TLY_EVENT_DONE = true ∧
    t.getB Reg.TLY_EVENT Fld.TLY_EVENT_TRUNC = false ∧ cut.getB Reg.TLY_EVENT Fld.TLY_EVENT_TRUNC = true ∧
    t.get Reg.TLY_STATUS Fld.TLY_STATUS_BUF = 1 ∧ t.rdN Reg.TLY_LAST = 7 ∧ t.tally.running = none ∧
    kindRing tlm3 3 5 = some 8 ∧ (tlm3.ring 3 8).ready = true ∧ host.mem = [] ∧
    (host.out.any fun o => match o with | .dma 3 none 0x720001000 b => b.length == 72 | _ => false) = true ∧
    (host.out.any fun o => match o with | .dma 3 none 0x8000 b => b.take 1 == [0x50#8] && b.length == 32 | _ => false) = true ∧
    (more.tally.running.map (·.triggered)) = some true ∧ more.tally.held = false ∧ go s0 = s0 ∧
    isSound (dumping false false true 4096 (tally1 0 trained)) = true := by decide +kernel

/-- The word of TLY_TSTORE that enables a region. -/
def storeW (base size : Nat) : Word := Fld.TLY_TSTORE_SIZE.into (Fld.TLY_TSTORE_BASE.into (Fld.TLY_TSTORE_EN.into 0 1) base) size

def stored (s : State) : State := s.wr (Reg.TLY_TSTORE 0) (storeW 2 1)

theorem test_RecordsGoRoundTheTelemetryStore_enable :
    let go (g : Guild) (v : Word) (s : State) := after (.tstoreEnable g v) s
    let old : State := { s0 with tally := { w := [(0, 9)] } }
    let err (t : State) := t.getB Reg.TLY_EVENT Fld.TLY_EVENT_CFG_ERR
    err (go 1 (storeW 2 1) (stored s0)) = true ∧ err (go 1 (storeW 1 1) (stored s0)) = false ∧
    err (go 1 (storeW 3 1) (stored s0)) = false ∧ err (go 0 (storeW 255 1) s0) = false ∧ err (go 0 (storeW 255 2) s0) = true ∧
    (go 0 (storeW 2 1) old).tally.w = [] ∧ (go 0 (storeW 2 1) (stored old)).tally.w = [(0, 9)] ∧
    (go 0 (storeW 2 1) s0).get (Reg.TLY_TSTORE 0) Fld.TLY_TSTORE_BASE = 2 := by decide +kernel

theorem test_RecordsGoRoundTheTelemetryStore_write :
    let rec_ := zeros 31 ++ [5#8]
    let s : State := { stored trained with tally := { queue := [(4, [(0, rec_)])], w := [(0, 524288 + 3)] } }
    let t := after (.tstoreRecordWrite 4) s
    let off : State := { trained with tally := { queue := [(4, [(0, rec_)])] } }
    let cold : State := { s0 with tally := { queue := [(4, [(0, rec_)])] } }
    aget [] 4 s.tally.queue = [(0, rec_)] ∧ hbmReady s = true ∧ storeOn s 0 = true ∧ isSound s = true ∧ s.hbm.adds = [] ∧
    storeRecords (s.rd (Reg.TLY_TSTORE 0)) = 524288 ∧ aget 0 0 t.tally.w = 524292 ∧ t.mrd 0x502000060 32 = rec_ ∧
    aget [] 4 t.tally.queue = [] ∧ (after (.tstoreRecordWrite 4) off).cntGet (Reg.TLY_TSTORE_LOST_LO 0) = 1 ∧
    after (.tstoreRecordWrite 4) cold = cold ∧ after (.tstoreRecordWrite 5) s = s := by decide +kernel

/-- TLY_TREAD of n records from `start`. -/
def tread (start n addr : Nat) : Cmd := cmdOf 0x60 [(0, start), (64, n), (128, addr)]

theorem test_RecordsGoRoundTheTelemetryStore_read :
    let w (n : Nat) (s : State) : State := { s with tally := { w := [(0, n)] } }
    let go (c : Cmd) (s : State) := after (.tlyTread 0 2) (ringed 0 c s)
    let full := w 524290 ((stored trained).mwr 0x502000020 [7#8])
    let t := go (tread 1 1 64) (w 2 ((stored trained).mwr 0x502000020 [7#8]))
    readyFor (ringed 0 (tread 1 1 64) full) 0 0x60 (tread 1 1 64) = true ∧ isSound full = true ∧ hbmReady full = true ∧
    answer 0 0 (go (tread 0 65537 64) full) = some (5, []) ∧ answer 0 0 (go (tread 2 1 32) full) = some (5, []) ∧
    answer 0 0 (go (tread 2 1 64) trained) = some (0x61, []) ∧ answer 0 0 (go (tread 1 1 64) full) = some (0x60, []) ∧
    answer 0 0 (go (tread 524290 1 64) full) = some (0x60, []) ∧
    answer 0 12 (go (tread 2 0 64) full) = some (0, leBytes 8 524290 ++ leBytes 4 0) ∧
    t.out.contains (.dma 0 none 64 (7#8 :: zeros 31)) = true ∧ answer 0 12 t = some (0, leBytes 8 2 ++ leBytes 4 1) := by
  decide +kernel

/-! ### Tinker -/

theorem test_TheTinkerPlantsAndTheScrubFinds_held :
    let h : HeldRx := { port := 3, inj := 1, frame := fr 60, left := 2 }
    let x : HeldTx := { port := 3, inj := 1, ef := ef1, left := 2 }
    let s : State := { mac3 with tinker := { heldRx := [h], heldTx := [x] } }
    let rx := after (.reorderRelease 3 1 false) s
    let tx := after (.reorderRelease 3 1 true) (s.modEgr 3 fun e => { e with queues := [(0, [{ ef1 with blocks := 9 }])] })
    rx.tinker.heldRx = [] ∧ rx.tinker.heldTx = [x] ∧ (rx.stn 0).tasks.laneN = [fr 60] ∧ neverFits s 3 0 (fr 60) = false ∧
    s.getB Reg.TNK_MEMINJ Fld.TNK_MEMINJ_ARM = false ∧ tx.regs = s.regs ∧
    (egrQueue tx 3 0).map (·.blocks) = [1, 9] ∧ tx.tinker.heldTx = [] ∧ after (.reorderRelease 3 2 false) s = s ∧
    after (.reorderRelease 4 1 true) s = s := by decide +kernel

theorem test_TheTinkerPlantsAndTheScrubFinds_writes :
    let arm := Fld.TNK_MEMINJ_MEM.into (Fld.TNK_MEMINJ_ARM.into 0 1) 7
    let armed := after (.meminjArm arm) s0
    (after (.tnkSeedWrite 0) s0).tinker.lfsr = 1#32 ∧ (after (.tnkSeedWrite 9) s0).tinker.lfsr = 9#32 ∧
    (after (.tnkSeedWrite 9) s0).rd Reg.TNK_SEED = 9#32 ∧ armed.getB Reg.TNK_MEMINJ Fld.TNK_MEMINJ_ARM = true ∧
    armed.get Reg.TNK_MEMINJ Fld.TNK_MEMINJ_MEM = 7 ∧ s0.getB Reg.TNK_MEMINJ Fld.TNK_MEMINJ_ARM = false := by decide +kernel

theorem test_TheTinkerPlantsAndTheScrubFinds_scrub :
    let e : EptEntry := { dest := 5, ts := 0 }
    let has := eptSt [(6, key1, e)] []
    let go (m : Fin 32) (i : Nat) (u : Option Bool) (s : State) := after (.ondieScrub m 0 i u) s
    let old : State := { s0 with tinker := { errors := [{ mem := 2, station := 0, index := 4, uncorr := false }] } }
    let dead := go 4 9 (some true) mac3
    scrubbed 0 = false ∧ scrubbed 2 = true ∧ go 0 4 (some true) s0 = s0 ∧ go 2 4 none s0 = s0 ∧
    (go 2 4 (some false) s0).tinker.errors = [] ∧ (go 2 4 (some false) s0).cntGet (Reg.TNK_ERR_CNT_LO 0) = 1 ∧
    (go 2 4 none old).tinker.errors = [] ∧ has.eptAt 0 6 = some (key1, e) ∧ (go 7 6 (some true) has).eptAt 0 6 = none ∧
    (go 7 6 (some true) has).cntGet (Reg.TNK_ERR_CNT_LO 1) = 1 ∧ (dead.stn 0).draining = true ∧
    dead.cntGet (Reg.TNK_ERR_CNT_LO 2) = 1 ∧ dead.getB Reg.TNK_ERR_EVENT Fld.TNK_ERR_EVENT_FATAL = true := by decide +kernel

/-- TNK_SET or TNK_READ of injector 1 of port 4. -/
def injCmd (op p : Nat) : Cmd := cmdOf op [(0, p), (8, 1), (64, 128)]

def tinker0 : State := with_ [(Reg.TNK_CTL, Fld.TNK_CTL_EN, 1), (Reg.TNK_CTL, Fld.TNK_CTL_GUILD_EN, 1)] s0

/-- An image: its TNK_SEL with EN or without, and MATCH. -/
def injBytes (en match_ : Nat) : List Byte := leBytes 4 (en * 2 ^ 31) ++ leBytes 4 match_ ++ zeros 40

theorem test_TheTinkerPlantsAndTheScrubFinds_set :
    let set (p : Nat) (d : List Byte) (s : State) := after (.tnkSet 0 2 (some d)) (ringed 0 (injCmd 0x68 p) s)
    let t := set 4 (injBytes 1 77) tinker0
    let u := set 4 (injBytes 0 78) (with_ [(injWord 4 1 0, Fld.TNK_SEL_EN, 1)] tinker0)
    let r := after (.tnkRead 0 2) (ringed 0 (injCmd 0x69 4) (tinker0.wr (injWord 4 1 1) 77))
    readyFor (ringed 0 (injCmd 0x68 4) tinker0) 0 0x68 (injCmd 0x68 4) = true ∧ tinker0.portGuild 4 = 0 ∧
    tinker0.portWidth 4 ≠ 0 ∧ answer 0 0 (set 144 (injBytes 1 77) tinker0) = some (0x68, []) ∧
    answer 0 0 (set 4 (injBytes 1 77) s0) = some (0x69, []) ∧ answer 0 0 t = some (0, []) ∧ t.rd (injWord 4 1 1) = 77#32 ∧
    Fld.TNK_SEL_EN.of (t.rd (injWord 4 1 0)) = 1 ∧ t.tinker.bySet = [17] ∧ u.rd (injWord 4 1 1) = 0#32 ∧
    u.getB (Reg.TNK_PEVENT 0 4) Fld.TNK_PEVENT_CFG_ERR = true ∧ Fld.TNK_SEL_EN.of (u.rd (injWord 4 1 0)) = 0 ∧
    readyFor (ringed 0 (injCmd 0x69 4) tinker0) 0 0x69 (injCmd 0x69 4) = true ∧ answer 0 0 r = some (0, []) ∧
    (r.out.any fun o => match o with | .dma 0 none 128 b => b.length == 48 && (b.drop 4).take 1 == [77#8] | _ => false) = true := by
  decide +kernel

/-- Counter 5 of station 2 counts event 7 of Guild 1 alone, and is about to wrap. -/
def counting : State :=
  with_ [(Reg.TLY_CFG, Fld.TLY_CFG_EN, 1), (Reg.STN_EVSEL 2 5, Fld.STN_EVSEL_EVENT, 7), (Reg.STN_EVSEL 2 5, Fld.STN_EVSEL_GUILD_EN, 1),
    (Reg.STN_EVSEL 2 5, Fld.STN_EVSEL_GUILD, 1), (Reg.STN_EVSEL 2 5, Fld.STN_EVSEL_DUMP, 1)]
    (s0.cntSet (Reg.STN_EV_LO 2 5) (2 ^ 48 - 1))

theorem test_EventCountersWrapIntoTheirOverflowBits :
    let t := evCount 2 7 1 (some 1) counting
    let u := evCount 2 7 1 (some 2) counting
    counting.canonical = true ∧ (counting.regs.all fun e => e.1 % 4 == 0) = true ∧ t.cntGet (Reg.STN_EV_LO 2 5) = 0 ∧
    t.rdN (Reg.STN_EV_OVF 2 0) = 32 ∧ t.tally.held = true ∧ u.cntGet (Reg.STN_EV_LO 2 5) = 2 ^ 48 - 1 ∧
    u.tally.held = false ∧ (evCount 3 7 1 none counting).regs = counting.regs ∧
    (evCount 2 7 2 none counting).cntGet (Reg.STN_EV_LO 2 5) = 1 := by decide +kernel

/-! ### Mate pair -/

/-- A device of a pair in a role, with these bits of MATE_STATUS, its EVT ring 8 in Guild 0. -/
def mated (role : Nat) (bits : List Field) (s : State) : State :=
  with_ ((Reg.MATE_STATUS, Fld.MATE_STATUS_ROLE, role) :: bits.map fun f => (Reg.MATE_STATUS, f, 1))
    (s.modRing 0 8 fun r => { r with enabled := true, kind := 2, base := 0x8000 })

/-- A live heartbeat. -/
def beating (s : State) : State :=
  let t := with_ [(Reg.MATE_CTL, Fld.MATE_CTL_EN, 1), (Reg.BOOT_STATUS, Fld.BOOT_STATUS_FULL, 4095)] s
  { t with mate := { t.mate with kicked := true } }

/-- The part is the primary of its pair. -/
def prime (s : State) : State := with_ [(Reg.BOOT_STRAP, Fld.BOOT_STRAP_PRIMARY, 1)] s

/-- Role and cause of the MATE event last written, and the role in force. -/
def moved (s : State) : Option (List Byte) × Nat :=
  (s.out.findSome? fun o => match o with | .dma 0 _ _ b => some ((b.drop 8).take 2) | _ => none, mateRole s)

def act_ : Field := Fld.MATE_STATUS_PEER_ACT
def beat_ : Field := Fld.MATE_STATUS_PEER_HB
def was_ : Field := Fld.MATE_STATUS_PEER_WAS_ACT
def forced_ : Field := Fld.MATE_STATUS_FORCED

theorem test_RolesFollowTheInterlock_heartbeat :
    let live (s : State) := after .heartbeatLiveChange s
    (after (.mateKick (.hk 1)) s0).mate.kicked = true ∧ after (.mateKick (.hk 2)) s0 = s0 ∧
    (after .kickTimeout (beating s0)).mate.kicked = false ∧ hbLive (beating s0) = true ∧ hbLive s0 = false ∧
    (kindRing (mated 0 [] s0) 0 2 = some 8 ∧ ((mated 0 [] s0).ring 0 8).ready = true) ∧
    primary (prime s0) = true ∧ moved (live (prime (beating (mated 0 [] s0)))) = (some [2#8, 1#8], 2) ∧
    moved (live (beating (mated 0 [] s0))) = (some [1#8, 0#8], 1) ∧
    moved (live (prime (beating (mated 0 [act_] s0)))) = (some [1#8, 0#8], 1) ∧
    moved (live (mated 1 [] s0)) = (some [0#8, 0#8], 0) ∧ live (mated 2 [] s0) = mated 2 [] s0 ∧
    (live { s0 with mate := { s0.mate with hbOut := true } }).out = [.pin "MATE_HB_OUT" false] ∧
    live (beating (mated 2 [] s0)) = beating (mated 2 [] s0) := by decide +kernel

theorem test_RolesFollowTheInterlock_mate :
    let bit (f : Field) (t : State) := t.getB Reg.MATE_STATUS f
    let stale (s : State) := after .mateHbStale s
    let in_ (high : Bool) (s : State) := after (.mateActInChange high) s
    let away (f : Field) := with_ [(Reg.MATE_CFG, Fld.MATE_CFG_HB_TAKE, 0)] (mated 1 [beat_, f] s0)
    let at_ (role ns : Nat) (s : State) : State := { mated role [] s with now := ns }
    bit beat_ (after .mateHbInEdge s0) = true ∧ stale s0 = s0 ∧ moved (stale (mated 1 [beat_, act_] s0)) = (some [2#8, 3#8], 2) ∧
    (stale (mated 1 [beat_, act_] s0)).mate.actOut = true ∧ moved (stale (mated 1 [beat_, act_, forced_] s0)) = (none, 1) ∧
    moved (stale (away act_)) = (none, 1) ∧ (stale (away act_)).getB Reg.MATE_EVENT Fld.MATE_EVENT_PEER_LOST = true ∧
    in_ false s0 = s0 ∧ in_ true (mated 0 [act_] s0) = mated 0 [act_] s0 ∧
    moved (in_ false (mated 1 [act_, was_] s0)) = (some [2#8, 2#8], 2) ∧ moved (in_ false (mated 1 [act_] s0)) = (none, 1) ∧
    moved (in_ false (mated 1 [act_, was_, forced_] s0)) = (none, 1) ∧ moved (in_ true (mated 1 [] s0)) = (none, 1) ∧
    bit was_ (in_ true (mated 1 [] s0)) = true ∧ moved (in_ true (at_ 2 2001 s0)) = (some [3#8, 6#8], 3) ∧
    moved (in_ true (at_ 2 2000 s0)) = (some [3#8, 7#8], 3) ∧ moved (in_ true (at_ 2 2000 (prime s0))) = (none, 2) ∧
    (in_ true (at_ 2 2000 s0)).getB Reg.VRV_STATUS Fld.VRV_STATUS_MATE_GAP = true ∧
    servoState (in_ true (at_ 2 2000 s0)) = 3 := by decide +kernel

theorem test_RolesFollowTheInterlock_force :
    let due (s : State) := after .claimDelayExpiry s
    let fall (s : State) := after .mateForceFall s
    let rise (s : State) := after .mateForceRise s
    let later (s : State) : State := { s with mate := { s.mate with delayOver := true } }
    let gap := after .mateForceFall (mated 2 [] s0)
    moved (due (mated 1 [] s0)) = (some [2#8, 1#8], 2) ∧ due (mated 1 [forced_] s0) = later (mated 1 [forced_] s0) ∧
    due (mated 1 [act_] s0) = mated 1 [act_] s0 ∧ fall (mated 2 [forced_] s0) = mated 2 [forced_] s0 ∧
    moved gap = (some [3#8, 5#8], 3) ∧ moved (fall (mated 1 [] s0)) = (none, 1) ∧
    moved (rise (later (mated 1 [forced_] s0))) = (some [2#8, 1#8], 2) ∧ moved (rise (mated 1 [forced_] s0)) = (none, 1) ∧
    gap.getB Reg.MATE_STATUS Fld.MATE_STATUS_GAP = true ∧
    (after .gapEnd gap).getB Reg.MATE_STATUS Fld.MATE_STATUS_GAP = false ∧
    (after .gapEnd gap).getB Reg.VRV_STATUS Fld.VRV_STATUS_MATE_GAP = false := by decide +kernel

def releaseCmd (force : Nat) : Cmd := cmdOf 0x70 [(0, force)]

theorem test_AReleaseYieldsAndAYieldDrains :
    let go (force : Nat) (s : State) := after (.mateRelease 0 2) (ringed 0 (releaseCmd force) s)
    let t := go 0 (mated 2 [beat_] s0)
    let late := after .mateReleaseTimeout (go 1 (mated 2 [] s0))
    readyFor (ringed 0 (releaseCmd 0) s0) 0 0x70 (releaseCmd 0) = true ∧ answer 0 0 (go 0 s0) = some (0x70, []) ∧
    answer 0 0 (go 0 (mated 2 [] s0)) = some (0x71, []) ∧ answer 0 0 (go 0 (mated 2 [beat_, act_] s0)) = some (0x71, []) ∧
    mateRole t = 3 ∧ t.mate.release = [(0, 2)] ∧ (waitingCmd t 0 2 0x70).isSome = true ∧
    answer 0 1 (go 1 (mated 2 [act_] s0)) = some (0, [3#8]) ∧ answer 0 1 late = some (0, [3#8]) ∧
    after .mateReleaseTimeout t = t ∧ answer 0 1 (after (.mateActInChange true) t) = some (0, [3#8]) ∧
    after .mateReleaseTimeout s0 = s0 := by decide +kernel

/-- Two releases wait, of ring 2 and the forced one of ring 3: the timer ends the second, the mate's claim both. -/
theorem test_AReleaseYieldsAndAYieldDrains_two :
    let t := ringed 0 (releaseCmd 0) (mated 3 [] s0)
    let waiting (force : Nat) : Cmd := { releaseCmd force with began := true }
    let s : State := (((t.modRing 0 2 fun r => { r with cmd := some (waiting 0) }).modRing 0 3 fun r =>
      { r with enabled := true, configured := true, cmd := some (waiting 1) }).modRing 0 1 fun r => { r with reserved := 2 })
    let s : State := { s with mate := { s.mate with release := [(0, 2), (0, 3)] } }
    let late := after .mateReleaseTimeout s
    let claimed := after (.mateActInChange true) s
    let left (t : State) := ((t.ring 0 2).cmd.isSome, (t.ring 0 3).cmd.isSome)
    (waitingCmd s 0 2 0x70).isSome = true ∧ (waitingCmd s 0 3 0x70).isSome = true ∧ (s.ring 0 1).enabled = true ∧
    late.mate.release = [(0, 2)] ∧ left late = (true, false) ∧ answer 0 1 late = some (0, [3#8]) ∧
    claimed.mate.release = [] ∧ left claimed = (false, false) := by decide +kernel

/-- A device that yields, a frame queued at port 3; what the end of the yield does to station 0. -/
theorem test_AReleaseYieldsAndAYieldDrains_drain :
    let go (s : State) := after .yieldDrainExpiry s
    let s := (mated 3 [] mac3).modEgr 3 fun e => { e with queues := [(0, [ef1])] }
    let t := yieldStation s 0
    mateRole s = 3 ∧ s.stations = [] ∧ s.tinker.heldTx = [] ∧ s.tinker.heldRx = [] ∧ ef1.frame.known ∧
    (t.port 3).egr.queues = [] ∧ t.cntGet (Reg.MATE_CNT_LO 2) = 1 ∧ (t.stn 0).draining = true ∧
    (t.stn 0).yields = true ∧ t.getB (Reg.MOR_STATUS 0) Fld.MOR_STATUS_DRAINING = true ∧
    hbLive (beating s) = true ∧ hbLive s = false ∧ primary (prime s) = true ∧ go mac3 = mac3 := by decide +kernel

/-! ### Resets and management ports -/

/-- A part that has run: a register, a pin and a byte of the stacks away from reset, its I2C address 2. -/
def used : State :=
  let s := ((s0.wr Reg.TNK_SEED 9).wr Reg.BOOT_STRAP 0x12).wr (Reg.HIF_LINK_STATUS 1) 5
  { s with mem := [(dirBase, 7#8)], now := 99, boot := { s.boot with i2cAddr := 2 }, ucs := { s.ucs with ckey := some 1 },
           hif := { s.hif with unmasked := [3] } }

theorem test_ResetsKeepFusesAndStrapsAlone :
    let held (cold : Bool) := after (.resetAssert cold) used
    let c := after (.coldReset 2 1 true 3) (held true)
    let w := after .warmReset (held false)
    let due := after (.bootResetWrite 0x57540001) used
    let keyed (v : Word) := Fld.BOOT_RESET_WARM.of v = 1 ∧ Fld.BOOT_RESET_KEY.of v = 0x5754
    (held false).boot.held = true ∧ (held true).power.smbLow = false ∧ (held true).varve.pps = false ∧ after .warmReset (held true) = held true ∧ after .warmReset used = used ∧
    c.rd Reg.TNK_SEED = regReset Reg.TNK_SEED ∧ c.boot.i2cAddr = 3 ∧ c.get Reg.BOOT_STRAP Fld.BOOT_STRAP_BIF = 2 ∧
    c.get Reg.BOOT_STRAP Fld.BOOT_STRAP_MODE = 1 ∧ c.getB Reg.BOOT_STRAP Fld.BOOT_STRAP_PRIMARY = true ∧
    c.get Reg.HIF_CFG Fld.HIF_CFG_BIF = 2 ∧ c.ucs.ckey = some 1 ∧ c.hif.unmasked = [] ∧ c.now = 0 ∧
    Memory.read dirBase c.mem = 0#8 ∧ w.boot.i2cAddr = 2 ∧ w.rd Reg.BOOT_STRAP = 0x12#32 ∧
    w.rd (Reg.HIF_LINK_STATUS 1) = 5#32 ∧ w.hif.unmasked = [3] ∧ w.rd Reg.TNK_SEED = 1#32 ∧
    w.get Reg.BOOT_CAUSE Fld.BOOT_CAUSE_KIND = 1 ∧ keyed 0x57540001 ∧ ¬ keyed 0x57550001 ∧
    after (.bootResetWrite 0x57550001) used = used ∧
    due.boot.warmDue = true ∧ due.boot.warmAt = 1099 ∧ after (.bootResetWrite 0x57540001) due = due ∧
    (after .warmReset due).get Reg.BOOT_CAUSE Fld.BOOT_CAUSE_KIND = 2 := by decide +kernel

/-- TMS and TDI through the TAP. -/
def shifted (l : List (Bool × Bool)) (s : State) : State :=
  l.foldl (fun s x => after (.jtagOperation (.cycle x.1) x.2) s) s

theorem test_TheManagementPortsAnswer :
    let read (c : Byte) (s : State) := (after (.i2cBlockRead c) s).out
    let crit := { with_ [(Reg.THM_STATUS, Fld.THM_STATUS_CRIT, 1)] s0 with boot := { s0.boot with i2cAddr := 1 } }
    let cold := after (.resetAssert true) crit
    let bytes (o : List Output) (n : Nat) := o.findSome? fun o => match o with
      | .smbus (some b) => some (b.take n)
      | _ => none
    i2cRegister 1 = some Reg.BOOT_STATUS ∧ i2cRegister 5 = none ∧ i2cRegister 0x22 = none ∧
    bytes (read 3 s0) 4 = some (leBytes 4 (regView s0 Reg.PWR_AVS_STATUS).toNat) ∧ read 5 s0 = [.smbus none] ∧
    after (.i2cBlockRead 1) cold = cold ∧ (after .smbAlertResponse crit).out = [.smbus (some [0xB2#8])] ∧
    after .smbAlertResponse s0 = s0 ∧ after .smbAlertResponse cold = cold := by decide +kernel

/-- The last bits on TDO, oldest first, of a scan of n bits of the IDCODE. -/
theorem test_TheManagementPortsAnswer_jtag :
    let at_ (t : TapState) : State := { s0 with jtag := { s0.jtag with tap := t } }
    let ir := shifted [(false, true), (true, true)] { at_ .shIr with jtag := { tap := .shIr, ir := [true, false, false] } }
    let up := shifted [(true, false)] ir
    let byp : State := { s0 with jtag := { tap := .capDr, instr := some [true, true], dr := [] } }
    let id := shifted [(false, false)] (at_ .capDr)
    ir.jtag.ir = [false, true, true] ∧ up.jtag.instr = some ir.jtag.ir ∧
    (shifted [(false, false)] byp).jtag.dr = [false] ∧ id.jtag.dr = (List.range 32).map (0x101446C9).testBit ∧
    id.out.head? = some (.tdo true) ∧ (shifted [(false, true)] id).out.head? = some (.tdo false) ∧
    (shifted (List.replicate 5 (true, false)) byp).jtag.instr = none ∧
    (after (.jtagOperation .trst true) byp).jtag = { s0.jtag with tap := .reset } ∧
    (shifted [(false, false)] { at_ .capDr with boot := { s0.boot with coldHeld := true } }).out.head? = some (.tdo false) ∧
    pinLevel s0 2 = some true ∧ pinLevel (after (.resetAssert true) s0) 2 = some false ∧ pinLevel s0 99 = none ∧
    ((shifted [(false, false)] (at_ .capIr)).jtag.ir.take 2) = [true, false] := by decide +kernel

/-! ### Bring-up -/

/-- A profile but for its CRC: G0 on link 0, quad 0 in mode 4, lane 8 enabled, lane 9 in thaw group 2, lengths of images. -/
def profileBody (images : List Nat) : List Byte :=
  let b := leBytes 4 0x46435046 ++ [1#8, 0x80#8] ++ zeros 2 ++ images.flatMap (fun n => zeros 4 ++ leBytes 4 n)
  let b := b ++ zeros (40 - b.length) ++ [4#8] ++ zeros (76 + 4 * 8 - 41) ++ leBytes 4 (enW 3 0).toNat
  let b := b ++ zeros (1228 + 9 - b.length) ++ [0x82#8]
  b ++ zeros (1372 - b.length)

def profile (images : List Nat) : List Byte := profileBody images ++ fcsOf (profileBody images)

theorem profileOk_body (b : List Byte) (h : b.length = 1372) (m : b.take 4 = leBytes 4 0x46435046)
    (f : (b.drop 4).take 1 = [1#8]) : profileOk (b ++ fcsOf b) = true := by
  have n : (fcsOf b).length = 4 := by simp [fcsOf, leBytes]
  have d : (b ++ fcsOf b).drop 1372 = fcsOf b := by rw [← h]; simp
  have t : (b ++ fcsOf b).take 1372 = b := by rw [← h]; simp
  have t4 : (b ++ fcsOf b).take 4 = b.take 4 := by rw [List.take_append_of_le_length (by omega)]
  have d4 : ((b ++ fcsOf b).drop 4).take 1 = (b.drop 4).take 1 := by
    rw [List.drop_append_of_le_length (by omega), List.take_append_of_le_length (by simp; omega)]
  simp only [profileOk, le, List.drop_zero, t, t4, d4, d, m, f, List.length_append, n, h, List.take_of_length_le (le_of_eq n)]
  rw [beq_self_eq_true (leVal (fcsOf b))]
  decide

theorem test_BringUpGoesFromFlashToFullService_taken :
    after (.profileRead (profile [9, 0, 7, 0])) s0 = profileTake (profile [9, 0, 7, 0]) (flashRead 0 1376 s0) := by
  have h : profileOk (profile [9, 0, 7, 0]) = true :=
    profileOk_body _ (by decide +kernel) (by decide +kernel) (by decide +kernel)
  have d : profileDue s0 = true := by decide +kernel
  have r : s0.boot.held = false := by decide +kernel
  simp [after, exec, execProfileRead, act, h, d, r]

theorem test_BringUpGoesFromFlashToFullService_profile :
    let t := profileTake (profile [9, 0, 7, 0]) (flashRead 0 1376 s0)
    s0.ports = [] ∧ t.boot.profile = true ∧ t.quadMode 0 = 4 ∧ t.portEn 8 = true ∧ t.portEn 9 = false ∧
    t.boot.lanes = [(9, 2)] ∧ t.get (Reg.BOOT_IMG 1) Fld.BOOT_IMG_RESULT = 2 ∧ t.ucs.boot = [(2, 0, 7), (0, 0, 9)] ∧
    t.out.contains (.flashRead 0x03 0 1376) = true ∧
    bootStage t = 0 := by decide +kernel

theorem test_BringUpGoesFromFlashToFullService_refused :
    let bad := after (.profileRead (zeros 1376)) s0
    bad.getB Reg.BOOT_STATUS Fld.BOOT_STATUS_PROFILE_ERR = true ∧ bad.power.smbLow = true ∧
    bad.out.contains (.pin "SMB_ALERT_N" false) = true ∧ bootStage bad = 4 ∧ after .flashTimeout bad = bad ∧
    after (.profileRead []) bad = bad ∧
    (after .flashTimeout s0).getB Reg.BOOT_STATUS Fld.BOOT_STATUS_FLASH_ERR = true := by decide +kernel

/-- Both vendor images are in force. -/
def imaged (s : State) : State :=
  (List.range 12).foldl (fun s st => s.wr (Reg.UCS_VER_VENDOR st) 1) (s.wr Reg.UCS_HK_VER_VENDOR 1)

theorem test_BringUpGoesFromFlashToFullService_stages :
    let t := after .thawReached { s0 with now := 3000000 }
    let ready := with_ [(Reg.BOOT_STATUS, Fld.BOOT_STATUS_STAGE, 2)] mac3
    let ask (v : Word) (s : State) := after (.bootFullRequest v) s
    bootStage t = 1 ∧ t.get (Reg.BOOT_MS 0) Fld.BOOT_MS_MS = 3 ∧ after .thawReached t = t ∧
    bootStage (after .thawReached (imaged trained)) = 2 ∧ ask 0 ready = ready ∧
    (ask 1 s0).getB Reg.BOOT_EVENT Fld.BOOT_EVENT_GO_ERR = true ∧ (ask 0xA01 ready).boot.full = [9, 11] ∧
    (ask 0x802 { ready with boot := { ready.boot with full := [5] } }).boot.full = [5, 1, 11] := by decide +kernel

theorem test_BringUpGoesFromFlashToFullService_switch :
    let go (s : State) := after (.stationFullSwitch 4) s
    let asked (l : List Nat) (s : State) : State := { s with boot := { s.boot with full := l, inForce := [(Reg.EPT_AGE_CFG 4, 9)] } }
    let run (s : State) := (with_ [(Reg.UCS_HK_CTL 0, Fld.UCS_HK_CTL_RUN, 1)] s).wr Reg.UCS_HK_VER_VENDOR 1
    let s := (run (asked [4, 6] s0)).modEpt 4 fun e =>
      { e with table := [(1, key1, { dest := 5 }), (2, key1, { dest := 6, static := true })], queue := [.learn key1 5 true, .cmd 0 2]
               blocked := [(0, 9)] }
    let last := with_ [(Reg.BOOT_STATUS, Fld.BOOT_STATUS_FULL, 4095 - 16)] s
    let t := go s
    hkRun s 0 = true ∧ (s.stn 4).tasks.slots = [] ∧ t.boot.full = [6] ∧ t.full 4 = true ∧ t.full 6 = false ∧
    t.cntGet (Reg.BOOT_CNT_LO 1) = 1 ∧ (t.stn 4).ept.queue = [.cmd 0 2, .cmd 0 9] ∧
    (t.stn 4).ept.table = [(2, key1, { dest := 6, static := true })] ∧ s.inForce (Reg.EPT_AGE_CFG 4) = 9 ∧
    t.inForce (Reg.EPT_AGE_CFG 4) = t.rdN (Reg.EPT_AGE_CFG 4) ∧ bootStage t = 0 ∧ bootStage (go last) = 3 ∧
    go (asked [6] (run s0)) = asked [6] (run s0) ∧ go (asked [4] s0) = asked [4] s0 := by decide +kernel

end Sys2Proof.Tests
end

/-! SUPPORT and the obligations O6 to O8. Accesses to registers (R10, R11, R13): the fields of one word, what the
register index says of a register, what a write stores and what a read returns and clears. -/
namespace Sys2Proof.Machine

/-! ### Fields of one word -/

/-- Two fields share no bit. -/
abbrev Field.Apart (f g : Field) : Prop := f.lo + f.w ≤ g.lo ∨ g.lo + g.w ≤ f.lo

theorem Field.of_lt (f : Field) (w : Word) : f.of w < 2 ^ f.w := Nat.mod_lt _ (Nat.two_pow_pos _)

/-- Taking a value leaves the bits above and below the field: a word and what it becomes differ in one digit. -/
theorem Field.into_digits (f : Field) (h : f.lo + f.w ≤ 32) (w : Word) (v : Nat) :
    (f.into w v).toNat % 2 ^ f.lo = w.toNat % 2 ^ f.lo ∧
      (f.into w v).toNat / 2 ^ (f.lo + f.w) = w.toNat / 2 ^ (f.lo + f.w) := by
  have hA : 0 < 2 ^ f.lo := Nat.two_pow_pos _
  have hB : 0 < 2 ^ f.w := Nat.two_pow_pos _
  have split : w.toNat =
      2 ^ f.lo * (2 ^ f.w * (w.toNat / 2 ^ f.lo / 2 ^ f.w)) + f.of w * 2 ^ f.lo + w.toNat % 2 ^ f.lo := by
    conv_lhs => rw [← Nat.div_add_mod w.toNat (2 ^ f.lo), ← Nat.div_add_mod (w.toNat / 2 ^ f.lo) (2 ^ f.w)]
    unfold Field.of
    ring
  have into : (f.into w v).toNat = w.toNat % 2 ^ f.lo + 2 ^ f.lo *
      (v % 2 ^ f.w + 2 ^ f.w * (w.toNat / 2 ^ f.lo / 2 ^ f.w)) := by
    rw [f.into_toNat h, Nat.mul_add, Nat.mul_comm _ (v % _)]
    omega
  constructor
  · rw [into, Nat.add_mul_mod_self_left, Nat.mod_mod]
  · rw [Nat.pow_add, ← Nat.div_div_eq_div_mul, ← Nat.div_div_eq_div_mul, into, Nat.add_mul_div_left _ _ hA,
      Nat.div_eq_of_lt (Nat.mod_lt _ hA), Nat.zero_add, Nat.add_mul_div_left _ _ hB,
      Nat.div_eq_of_lt (Nat.mod_lt _ hB), Nat.zero_add]

/-- A field keeps what it holds where another, apart from it, takes a value. -/
theorem Field.of_into_apart {f g : Field} (hg : g.lo + g.w ≤ 32) (h : f.Apart g) (w : Word) (v : Nat) :
    f.of (g.into w v) = f.of w := by
  obtain ⟨low, high⟩ := g.into_digits hg w v
  unfold Field.of
  rcases h with below | above
  · obtain ⟨k, hk⟩ := Nat.exists_eq_add_of_le below
    have e : ∀ n, n / 2 ^ f.lo % 2 ^ f.w = n % 2 ^ g.lo / 2 ^ f.lo % 2 ^ f.w := fun n => by
      rw [hk, Nat.add_assoc, Nat.pow_add, Nat.mod_mul_right_div_self, Nat.pow_add, Nat.mod_mul_right_mod]
    rw [e, low, ← e]
  · obtain ⟨k, hk⟩ := Nat.exists_eq_add_of_le above
    rw [hk, Nat.pow_add, ← Nat.div_div_eq_div_mul, ← Nat.div_div_eq_div_mul, high]

/-- The fields of a register: each within the word, no two sharing a bit. -/
abbrev Field.Tiled (fs : List Field) : Prop := (∀ f ∈ fs, f.lo + f.w ≤ 32) ∧ fs.Pairwise Field.Apart

/-- A step that changes one field of a word leaves every field apart from it. -/
def Field.Local (step : Word → Field → Word) : Prop :=
  ∀ (f g : Field) (w : Word), g.lo + g.w ≤ 32 → f.Apart g → f.of (step w g) = f.of w

theorem Field.of_foldl_apart {step : Word → Field → Word} (hl : Field.Local step) {f : Field} {fs : List Field}
    (hfit : ∀ g ∈ fs, g.lo + g.w ≤ 32) (hap : ∀ g ∈ fs, f.Apart g) (w : Word) :
    f.of (fs.foldl step w) = f.of w := by
  induction fs generalizing w with
  | nil => rfl
  | cons g gs ih =>
    obtain ⟨hg, hgs⟩ := List.forall_mem_cons.1 hfit
    obtain ⟨ag, ags⟩ := List.forall_mem_cons.1 hap
    exact (ih hgs ags _).trans (hl f g w hg ag)

/-- Over the fields of a register, a field ends as its own step leaves it, whatever the other steps do. -/
theorem Field.of_foldl {step : Word → Field → Word} (hl : Field.Local step) {fs : List Field} (ht : Field.Tiled fs)
    {f : Field} (hf : f ∈ fs) (w : Word) : ∃ u, f.of u = f.of w ∧ f.of (fs.foldl step w) = f.of (step u f) := by
  induction fs generalizing w with
  | nil => cases hf
  | cons g gs ih =>
    obtain ⟨hfit, hap⟩ := ht
    obtain ⟨hg, hgs⟩ := List.forall_mem_cons.1 hfit
    obtain ⟨ag, ags⟩ := List.pairwise_cons.1 hap
    rcases List.mem_cons.1 hf with rfl | hin
    · exact ⟨w, rfl, Field.of_foldl_apart hl hgs ag _⟩
    · obtain ⟨u, hu, e⟩ := ih ⟨hgs, ags⟩ hin (step w g)
      exact ⟨u, hu.trans (hl f g w hg (ag f hin).symm), e⟩

theorem Field.stored_lt (f : Field) (locked : Bool) {old new : Nat} (ho : old < 2 ^ f.w) (hn : new < 2 ^ f.w) :
    f.stored locked old new < 2 ^ f.w := by
  unfold Field.stored
  cases f.acc with
  | rw | rws => exact hn
  | ro | rc | wo => exact ho
  | w1c => exact Nat.and_le_left.trans_lt ho
  | w1s => exact Nat.or_lt_two_pow ho hn
  | rwl => cases locked <;> assumption

/-- Each field of a stored word holds what its access code gives. -/
theorem Field.of_storeWord {fs : List Field} (ht : Field.Tiled fs) {f : Field} (hf : f ∈ fs) (locked : Bool)
    (old new : Word) : f.of (storeWord fs locked old new) = f.stored locked (f.of old) (f.of new) := by
  obtain ⟨u, -, e⟩ := Field.of_foldl (step := fun w f => f.into w (f.stored locked (f.of old) (f.of new)))
    (fun f g w hg h => Field.of_into_apart hg h w _) ht hf old
  rw [storeWord, e, f.of_into (ht.1 f hf), Nat.mod_eq_of_lt (f.stored_lt locked (f.of_lt old) (f.of_lt new))]

/-! ### The register index -/

theorem findReg_some {o inst : Nat} {pre : List Nat} {rs : List RegDef} {h : RegHit}
    (e : findReg o inst pre rs = some h) : h.reg ∈ rs ∧ h.inst = inst ∧ h.reg.off ≤ o := by
  induction rs with
  | nil => cases e
  | cons r rs ih =>
    unfold findReg at e
    split at e
    · next ix hix =>
      cases e
      refine ⟨List.mem_cons_self, rfl, ?_⟩
      unfold RegDef.index? at hix
      split at hix
      · cases hix
      · exact Nat.le_of_not_lt ‹_›
    · obtain ⟨hm, hi, ho⟩ := ih e
      exact ⟨List.mem_cons_of_mem _ hm, hi, ho⟩

theorem Block.find?_some {b : Block} {a : Nat} {h : RegHit} (e : b.find? a = some h) :
    b.base ≤ a ∧ h.reg ∈ b.regs ∧ h.inst + h.reg.off ≤ a := by
  unfold Block.find? at e
  by_cases hb : a < b.base
  · simp [hb] at e
  rw [if_neg hb] at e
  dsimp only at e
  generalize hk : (if b.count = 1 then 0 else (a - b.base) / b.stride) = k at e
  have hks : k * b.stride ≤ a - b.base := by
    subst hk
    split
    · omega
    · exact Nat.div_mul_le_self _ _
  split at e
  · cases e
  split at e
  · cases e
  obtain ⟨hm, hi, ho⟩ := findReg_some e
  exact ⟨by omega, hm, by omega⟩

theorem findBlock_some {a : Nat} {bs : List Block} {h : RegHit} (e : findBlock a bs = some h) :
    ∃ b ∈ bs, b.base ≤ a ∧ h.reg ∈ b.regs ∧ h.inst + h.reg.off ≤ a := by
  induction bs with
  | nil => cases e
  | cons b bs ih =>
    unfold findBlock at e
    split at e
    · next hb =>
      cases e
      exact ⟨b, List.mem_cons_self, Block.find?_some hb⟩
    · obtain ⟨c, hc, rest⟩ := ih e
      exact ⟨c, List.mem_cons_of_mem _ hc, rest⟩

/-- What the index says of the register at an address: its block, and that it lies at its offset or above. -/
theorem regAt_some {a : Nat} {h : RegHit} (e : regAt a = some h) :
    ∃ b ∈ RegMap.blocks, b.base ≤ a ∧ h.reg ∈ b.regs ∧ h.inst + h.reg.off ≤ a := findBlock_some e

/-- Whole-word registers whose read is not that of their fields. -/
def ownReads : List String :=
  ["IRQ_TGT_CLAIM", "IRQ_SRC_EN", "IRQ_TGT_PRIV_EN", "VRV_TIME_NS", "VRV_TIME_SEC_LO", "VRV_TIME_SEC_HI",
    "COOP_HK_ALLOC"]

/-- Low words whose read takes the head of a queue. -/
def queueReads : List String := ["STN_AE_TRAP_LO", "VRV_TXQ_LO"]

/-- Pairs of the Guild pages that EN locks. -/
def pageGuarded : List String :=
  ["GLD_DB_ADDR_LO", "GLD_DB_ADDR_HI", "GLD_BOOT_CMD_LO", "GLD_BOOT_CMD_HI", "GLD_BOOT_CPL_LO", "GLD_BOOT_CPL_HI"]

/-- What the accesses need of a register's entry in the index: fields that tile a word, the commit bit of a high word
below its low word, and which parts have a read or a guard of their own. -/
structure RegDef.Sound (r : RegDef) : Prop where
  tiled : Field.Tiled r.fields
  commit : r.part = .high → ∀ o ∈ r.commit, o + 4 < r.off
  ownRead : r.name ∈ ownReads → r.part = .whole
  queueRead : r.name ∈ queueReads → r.part = .low
  tlyLow : r.name = "TLY_HOST_BASE_LO" → r.part = .low
  tlyHigh : r.name = "TLY_HOST_BASE_HI" → r.part = .high

theorem RegMap.blocks_sound : ∀ b ∈ RegMap.blocks, ∀ r ∈ b.regs, r.Sound := by
  have tiled : ∀ b ∈ RegMap.blocks, ∀ r ∈ b.regs, Field.Tiled r.fields := by decide +kernel
  have commit : ∀ b ∈ RegMap.blocks, ∀ r ∈ b.regs, r.part = .high → ∀ o ∈ r.commit, o + 4 < r.off := by
    decide +kernel
  have reads : ∀ b ∈ RegMap.blocks, ∀ r ∈ b.regs,
      (r.name ∈ ownReads → r.part = .whole) ∧ (r.name ∈ queueReads → r.part = .low) := by decide +kernel
  have tly : ∀ b ∈ RegMap.blocks, ∀ r ∈ b.regs,
      (r.name = "TLY_HOST_BASE_LO" → r.part = .low) ∧ (r.name = "TLY_HOST_BASE_HI" → r.part = .high) := by
    decide +kernel
  exact fun b hb r hr => ⟨tiled b hb r hr, commit b hb r hr, (reads b hb r hr).1, (reads b hb r hr).2,
    (tly b hb r hr).1, (tly b hb r hr).2⟩

theorem regAt_sound {a : Nat} {h : RegHit} (e : regAt a = some h) : h.reg.Sound := by
  obtain ⟨b, hb, -, hr, -⟩ := regAt_some e
  exact RegMap.blocks_sound b hb _ hr

/-- The pairs that EN locks lie in the Guild pages, above the set-up space. -/
theorem regAt_setup_not_pageGuarded {a : Nat} {h : RegHit} (e : regAt a = some h) (ha : a < 0x8000000) :
    h.reg.name ∉ pageGuarded := by
  have index : ∀ b ∈ RegMap.blocks, b.base < 0x8000000 → ∀ r ∈ b.regs, r.name ∉ pageGuarded := by decide +kernel
  obtain ⟨b, hb, hba, hr, -⟩ := regAt_some e
  exact index b hb (hba.trans_lt ha) _ hr

/-! ### What depends on the register file alone -/

section
variable {s t : State} (hr : t.regs = s.regs)
include hr

theorem State.rd_of_regs (a : Nat) : t.rd a = s.rd a := by rw [State.rd, State.rd, hr]

theorem State.get_of_regs (a : Nat) (f : Field) : t.get a f = s.get a f := by
  rw [State.get_eq, State.get_eq, State.rd_of_regs hr]

theorem State.getB_of_regs (a : Nat) (f : Field) : t.getB a f = s.getB a f := by
  rw [State.getB, State.getB, State.get_of_regs hr]

theorem commitLocked_of_regs (h : RegHit) : commitLocked t h = commitLocked s h := by
  unfold commitLocked
  cases h.reg.commit with
  | none => rfl
  | some o => exact congrArg (fun w : Word => w.toNat.testBit 31) (State.rd_of_regs hr _)

theorem placeOf_of_regs (req : Requester) (a : Nat) : placeOf t req a = placeOf s req a := by
  have bar0 : reachesBar0 t req = reachesBar0 s req := by
    cases req with
    | link k => simp only [reachesBar0, State.get_of_regs hr, State.getB_of_regs hr]
    | hk e => rfl
    | boot => rfl
  have page : ∀ g, pageForeign t req g = pageForeign s req g := fun g => by
    cases req with
    | link k => simp only [pageForeign, State.gldLink, State.get_of_regs hr, State.getB_of_regs hr]
    | hk e => rfl
    | boot => rfl
  unfold placeOf
  rw [bar0]
  simp only [page]

end

/-! ### Changes of a few registers -/

theorem OnlyRegsOf.refl (l : List Nat) (s : State) : OnlyRegsOf l s s := ⟨rfl, fun _ _ => rfl⟩

theorem OnlyRegsOf.trans {l : List Nat} {s t u : State} (h : OnlyRegsOf l s t) (k : OnlyRegsOf l t u) :
    OnlyRegsOf l s u := by
  obtain ⟨hst, hl⟩ := h
  obtain ⟨htu, kl⟩ := k
  refine ⟨?_, fun a ha => (kl a ha).trans (hl a ha)⟩
  rw [OnlyRegs, htu, hst]

theorem OnlyRegsOf.sameMem {l : List Nat} {s t : State} (h : OnlyRegsOf l s t) : SameMem s t :=
  fun a => congrArg (fun u => Memory.read a u.mem) h.1

theorem OnlyRegsOf.out_eq {l : List Nat} {s t : State} (h : OnlyRegsOf l s t) : t.out = s.out :=
  (congrArg State.out h.1 :)

theorem State.wr_onlyRegsOf (s : State) (a : Nat) (v : Word) : OnlyRegsOf [a] s (s.wr a v) :=
  ⟨rfl, fun _ hb => State.rd_wr_ne s (by simpa using hb) v⟩

/-! ### Places -/

theorem lt_of_placeOf_setup {s : State} {req : Requester} {a : Nat} (h : placeOf s req a = .setup) : a < 0x8000000 := by
  by_contra hn
  unfold placeOf at h
  rw [if_neg hn] at h
  cases req with
  | link k => dsimp only at h; split_ifs at h
  | hk e => dsimp only at h; split_ifs at h
  | boot => dsimp only at h; split_ifs at h

theorem homeAddr_of_lt {a : Nat} (h : a < 0x8000000) : homeAddr a = a := by
  have hg : ¬ guildPageBase 0 ≤ a := by unfold guildPageBase; omega
  simp [homeAddr, irqAddr, hg]

theorem homeAddr_of_setup {s : State} {req : Requester} {a : Nat} (h : placeOf s req a = .setup) : homeAddr a = a :=
  homeAddr_of_lt (lt_of_placeOf_setup h)

/-! ### Stores -/

theorem thawKeep_eq (a : Nat) (s : State) : thawKeep a s = { s with boot := (thawKeep a s).boot } := by
  unfold thawKeep
  cases thawStored a with
  | none => rfl
  | some st => dsimp only; split <;> rfl

@[simp] theorem thawKeep_regs (a : Nat) (s : State) : (thawKeep a s).regs = s.regs :=
  (congrArg State.regs (thawKeep_eq a s) :)
@[simp] theorem thawKeep_mem (a : Nat) (s : State) : (thawKeep a s).mem = s.mem :=
  (congrArg State.mem (thawKeep_eq a s) :)
@[simp] theorem thawKeep_lows (a : Nat) (s : State) : (thawKeep a s).lows = s.lows :=
  (congrArg State.lows (thawKeep_eq a s) :)

theorem State.store_of_regAt {a : Nat} {h : RegHit} (e : regAt a = some h) (s : State) (v : Word) :
    s.store a v = s.wr a (storeWord h.reg.fields (commitLocked s h) (s.rd a) v) := by
  simp only [State.store, e]

/-- A low word that a requester has written is the one its high word finds. -/
theorem latchWord_lowWrite (req : Requester) (a : Nat) (v : Word) (s : State) :
    latchWord ⟨req, a⟩ (lowWrite req a v s).lows = some v := by
  simp [latchWord, lowWrite]

/-- A high word a read has latched is the one the requester finds. -/
theorem latched_latch (s : State) (req : Requester) (a : Nat) (w : Word) : latched (s.latch req a w) req a = w := by
  simp [latched, latchWord, State.latch]

/-! ### Writes -/

section
variable {s : State} {req : Requester} {a : Nat} {v : Word} (hal : a % 4 = 0)
include hal

theorem regWrite_none {b : Bool} (hp : placeOf s req a = .none) : regWrite req a v b s = s := by
  simp [regWrite, hal, hp]

theorem regWrite_foreign {b : Bool} (hp : placeOf s req a = .foreign) : regWrite req a v b s = isoViol s := by
  simp [regWrite, hal, hp]

theorem regWrite_partial (hp : placeOf s req a = .setup) : regWrite req a v true s = partialWrite a s := by
  simp [regWrite, hal, hp]

theorem regWrite_reserved (hp : placeOf s req a = .setup) (hr : regAt a = none) : regWrite req a v false s = s := by
  simp [regWrite, hal, hp, regStore, hr]

theorem regWrite_setup (hp : placeOf s req a = .setup) (hw : mayWrite req a = true) :
    regWrite req a v false s = regStore req a v s := by
  simp [regWrite, hal, hp, hw]

end

theorem exec_registerWrite {s : State} (hs : s.running) (req : Requester) (a : Nat) (v : Word) (b : Bool) :
    exec (.registerWrite req a v b) s = .next (regWrite req a v b s) := act_running hs _

/-- HIGH_WORD_WRITE of a high word of the set-up space is the register's write. -/
theorem exec_highWordWrite {s : State} {req : Requester} {a : Nat} {h : RegHit} (hs : s.running) (hal : a % 4 = 0)
    (hp : placeOf s req a = .setup) (hr : regAt a = some h) (hh : h.reg.part = .high) (v : Word) :
    exec (.highWordWrite req a v) s = .next (regWrite req a v false s) := by
  refine (act_running hs _).trans (congrArg _ (if_pos ?_))
  simp [hal, homeAddr_of_setup hp, partOf, hr, hh]

/-- A plain write of a whole-word register of the set-up space is a store of the word. -/
theorem regStore_whole {a : Nat} {h : RegHit} (hr : regAt a = some h) (hw : h.reg.part = .whole)
    (hk : (globalHooks ++ stationHooks ++ pageHooks).lookup h.reg.name = none) (req : Requester) (v : Word)
    (s : State) :
    regStore req a v s =
      (thawKeep a s).wr a (storeWord h.reg.fields (commitLocked s h) (s.rd a) v) := by
  have e : regStore req a v s = (thawKeep a s).store a v := by
    simp only [regStore, hr, hw, wordWrite, hk]
  rw [e, State.store_of_regAt hr, commitLocked_of_regs (thawKeep_regs a s), State.rd_of_regs (thawKeep_regs a s)]

/-! ### Pairs (R11) -/

/-- A pair without a guard of its own takes each write. -/
theorem pairGuard_free {h : RegHit} (hlo : h.reg.name ≠ "TLY_HOST_BASE_LO") (hhi : h.reg.name ≠ "TLY_HOST_BASE_HI")
    (hg : h.reg.name ∉ pageGuarded) (f : State → State) (s : State) : pairGuard h f s = f s := by
  have hc : pageGuarded.contains h.reg.name = false := by simpa using hg
  unfold pageGuarded at hc
  simp only [pairGuard, hlo, hhi, hc]
  simp

theorem regStore_low {a : Nat} {h : RegHit} (hr : regAt a = some h) (ha : a < 0x8000000) (hp : h.reg.part = .low)
    (hn : h.reg.name ≠ "TLY_HOST_BASE_LO") (req : Requester) (v : Word) (s : State) :
    regStore req a v s = lowWrite req a v s := by
  have hhi : h.reg.name ≠ "TLY_HOST_BASE_HI" := fun e => by simp [(regAt_sound hr).tlyHigh e] at hp
  simp only [regStore, hr, hp]
  exact pairGuard_free hn hhi (regAt_setup_not_pageGuarded hr ha) _ s

theorem regStore_high {a : Nat} {h : RegHit} (hr : regAt a = some h) (ha : a < 0x8000000) (hp : h.reg.part = .high)
    (hn : h.reg.name ≠ "TLY_HOST_BASE_HI") (req : Requester) (v : Word) (s : State) :
    regStore req a v s = highWrite req a v (thawKeep (a - 4) (thawKeep a s)) := by
  have hlo : h.reg.name ≠ "TLY_HOST_BASE_LO" := fun e => by simp [(regAt_sound hr).tlyLow e] at hp
  simp only [regStore, hr, hp]
  exact pairGuard_free hlo hn (regAt_setup_not_pageGuarded hr ha) _ s

/-- The commit bit that locks a high word lies below its pair, so the store of the low word leaves it. -/
theorem commitLocked_wr_low {a : Nat} {h : RegHit} (hr : regAt (a + 4) = some h) (hp : h.reg.part = .high) (s : State)
    (w : Word) : commitLocked (s.wr a w) h = commitLocked s h := by
  obtain ⟨-, -, -, -, hoff⟩ := regAt_some hr
  unfold commitLocked
  cases hc : h.reg.commit with
  | none => rfl
  | some o =>
    have below : o + 4 < h.reg.off := (regAt_sound hr).commit hp o hc
    have hne : h.inst + o ≠ a := by omega
    exact congrArg (fun w : Word => w.toNat.testBit 31) (State.rd_wr_ne s hne w)

/-- The write of a high word stores both words of its pair, the low word with what the requester wrote last. -/
theorem highWrite_pair {a : Nat} {hl hh : RegHit} (rl : regAt a = some hl) (rh : regAt (a + 4) = some hh)
    (hp : hh.reg.part = .high) {req : Requester} {lo : Word} {s : State} (e : latchWord ⟨req, a⟩ s.lows = some lo)
    (hi : Word) :
    highWrite req (a + 4) hi s =
      (s.wr a (storeWord hl.reg.fields (commitLocked s hl) (s.rd a) lo)).wr (a + 4)
        (storeWord hh.reg.fields (commitLocked s hh) (s.rd (a + 4)) hi) := by
  simp only [highWrite, Nat.add_sub_cancel, e, Option.getD_some]
  rw [State.store_of_regAt rl, State.store_of_regAt rh, commitLocked_wr_low rh hp, State.rd_wr_ne _ (by omega)]

/-- The write of a high word of the set-up space, its low word written before by the same requester: both words of the
pair are stored, over the state in which Thaw service keeps what is in force (R421). -/
theorem regWrite_high {a : Nat} {hl hh : RegHit} (rl : regAt a = some hl) (rh : regAt (a + 4) = some hh)
    (ph : hh.reg.part = .high) (nh : hh.reg.name ≠ "TLY_HOST_BASE_HI") {req : Requester} {lo : Word} {s : State}
    (hal : (a + 4) % 4 = 0) (hp : placeOf s req (a + 4) = .setup) (hw : mayWrite req (a + 4) = true)
    (e : latchWord ⟨req, a⟩ s.lows = some lo) (hi : Word) :
    regWrite req (a + 4) hi false s =
      ((thawKeep a (thawKeep (a + 4) s)).wr a (storeWord hl.reg.fields (commitLocked s hl) (s.rd a) lo)).wr (a + 4)
        (storeWord hh.reg.fields (commitLocked s hh) (s.rd (a + 4)) hi) := by
  have regs : (thawKeep a (thawKeep (a + 4) s)).regs = s.regs := by simp
  have lows : latchWord ⟨req, a⟩ (thawKeep a (thawKeep (a + 4) s)).lows = some lo := by simpa using e
  rw [regWrite_setup hal hp hw, regStore_high rh (lt_of_placeOf_setup hp) ph nh, Nat.add_sub_cancel,
    highWrite_pair rl rh ph lows]
  simp only [commitLocked_of_regs regs, State.rd_of_regs regs]

/-! ### What an ignored write latches -/

theorem partialWrite_spec (a : Nat) (s : State) :
    (partialWrite a s).get Reg.CHIP_STATUS Fld.CHIP_STATUS_ACC_ERR = 1 ∧
      (partialWrite a s).get Reg.CHIP_STATUS Fld.CHIP_STATUS_ADDR =
        (if s.getB Reg.CHIP_STATUS Fld.CHIP_STATUS_ACC_ERR then s.get Reg.CHIP_STATUS Fld.CHIP_STATUS_ADDR
          else a % 2 ^ 27) ∧
      OnlyRegsOf [Reg.CHIP_STATUS] s (partialWrite a s) := by
  have apart : Fld.CHIP_STATUS_ADDR.Apart Fld.CHIP_STATUS_ACC_ERR := by decide
  have kept (t : State) : (t.raise Reg.CHIP_STATUS Fld.CHIP_STATUS_ACC_ERR).get Reg.CHIP_STATUS Fld.CHIP_STATUS_ADDR =
      t.get Reg.CHIP_STATUS Fld.CHIP_STATUS_ADDR := by
    rw [State.get_eq, State.raise, State.put, State.rd_wr_same,
      Field.of_into_apart (g := Fld.CHIP_STATUS_ACC_ERR) (by decide) apart, ← State.get_eq]
  refine ⟨State.get_put_same _ _ Fld.CHIP_STATUS_ACC_ERR (by decide) _, ?_, ?_, fun b hb => ?_⟩
  · refine (kept _).trans ?_
    split
    · rfl
    · exact (State.get_put_same _ _ Fld.CHIP_STATUS_ADDR (by decide) _).trans (Nat.mod_mod _ _)
  · unfold partialWrite OnlyRegs
    dsimp only
    split <;> rfl
  · have hne : b ≠ Reg.CHIP_STATUS := by simpa using hb
    refine (State.rd_put_ne _ hne _ _).trans ?_
    split
    · rfl
    · exact State.rd_put_ne _ hne _ _

theorem isoViol_spec (s : State) :
    (isoViol s).get Reg.HIF_EVENT Fld.HIF_EVENT_ISO_VIOL = 1 ∧ Counts (Reg.HIF_CNT_LO 3) 1 s (isoViol s) ∧
      OnlyRegsOf [Reg.HIF_EVENT, Reg.HIF_CNT_LO 3, Reg.HIF_CNT_LO 3 + 4] s (isoViol s) := by
  have lo : Reg.HIF_EVENT ≠ Reg.HIF_CNT_LO 3 := by decide
  have hi : Reg.HIF_EVENT ≠ Reg.HIF_CNT_LO 3 + 4 := by decide
  refine ⟨?_, ?_, ?_, fun b hb => ?_⟩
  · rw [isoViol, State.get_eq, State.tick, State.rd_cnt_ne _ lo hi, ← State.get_eq]
    exact State.get_put_same _ _ Fld.HIF_EVENT_ISO_VIOL (by decide) _
  · rw [Counts, isoViol, State.cntGet_tick]
    simp only [State.cntGet, State.rdN, State.raise, State.rd_put_ne _ lo.symm, State.rd_put_ne _ hi.symm]
  · rfl
  · obtain ⟨h1, h2, h3⟩ : b ≠ Reg.HIF_EVENT ∧ b ≠ Reg.HIF_CNT_LO 3 ∧ b ≠ Reg.HIF_CNT_LO 3 + 4 := by simpa using hb
    exact (State.rd_cnt_ne _ h2 h3 _).trans (State.rd_put_ne _ h1 _ _)

/-! ### Reads -/

/-- What a read does that is neither a register's own nor a queue's: a low word latches its high word, a high word
returns what is latched, a whole word clears its RC fields. -/
def partLoad (h : RegHit) (req : Requester) (b : Nat) (s : State) : Word × State :=
  match h.reg.part with
  | .low => (regView s b, s.latch req b (regView s (b + 4)))
  | .high => (latched s req (b - 4), s)
  | .whole => (regView s b, rcClear h b s)

section
variable {s : State} {req : Requester} {b : Nat} {h : RegHit} (hr : regAt b = some h)
include hr

theorem regLoad_eq_partLoad (hn : h.reg.name ∉ ownReads) (hq : h.reg.name ∉ queueReads) :
    regLoad req b s = partLoad h req b s := by
  simp only [ownReads, queueReads, List.mem_cons, List.not_mem_nil, or_false, not_or] at hn hq
  cases hp : h.reg.part with
  | low | high | whole => simp [regLoad, partLoad, hr, hp, hn, hq]

theorem regLoad_low (hp : h.reg.part = .low) (hq : h.reg.name ∉ queueReads) :
    regLoad req b s = (regView s b, s.latch req b (regView s (b + 4))) := by
  have hn : h.reg.name ∉ ownReads := fun hn => by simp [(regAt_sound hr).ownRead hn] at hp
  rw [regLoad_eq_partLoad hr hn hq, partLoad, hp]

theorem regLoad_high (hp : h.reg.part = .high) : regLoad req b s = (latched s req (b - 4), s) := by
  have hn : h.reg.name ∉ ownReads := fun hn => by simp [(regAt_sound hr).ownRead hn] at hp
  have hq : h.reg.name ∉ queueReads := fun hq => by simp [(regAt_sound hr).queueRead hq] at hp
  rw [regLoad_eq_partLoad hr hn hq, partLoad, hp]

theorem regLoad_whole (hp : h.reg.part = .whole) (hn : h.reg.name ∉ ownReads) :
    regLoad req b s = (regView s b, rcClear h b s) := by
  have hq : h.reg.name ∉ queueReads := fun hq => by simp [(regAt_sound hr).queueRead hq] at hp
  rw [regLoad_eq_partLoad hr hn hq, partLoad, hp]

theorem regLoad_seconds (hn : h.reg.name = "VRV_TIME_SEC_LO" ∨ h.reg.name = "VRV_TIME_SEC_HI") :
    regLoad req b s = (latched s req b, s) := by
  rcases hn with hn | hn <;> simp [regLoad, hr, hn]

end

theorem regLoad_reserved {b : Nat} (hr : regAt b = none) (req : Requester) (s : State) :
    regLoad req b s = (0#32, s) := by
  simp [regLoad, hr]

/-- A read in the set-up space or of a Guild page of the requester's returns what its register loads. -/
theorem regReadOut_of_place {s : State} {req : Requester} {a : Nat} (hal : a % 4 = 0)
    (hp : placeOf s req a = .setup ∨ ∃ g, placeOf s req a = .page g) {w : Word} {t : State}
    (e : regLoad req (homeAddr a) s = (w, t)) : regReadOut req a s = t.emit (.read req a w) := by
  rcases hp with hp | ⟨g, hp⟩
  · rw [homeAddr_of_setup hp] at e
    simp [regReadOut, regRead, hal, hp, e]
  · simp [regReadOut, regRead, hal, hp, e]

theorem regReadOut_foreign {s : State} {req : Requester} {a : Nat} (hal : a % 4 = 0) (hp : placeOf s req a = .foreign) :
    regReadOut req a s = (isoViol s).emit (.read req a 0#32) := by
  simp [regReadOut, regRead, hal, hp]

theorem exec_rcFieldRead {s : State} (hs : s.running) (req : Requester) (a : Nat) :
    exec (.rcFieldRead req a) s = .next (regReadOut req a s) := act_running hs _

/-- LOW_WORD_READ_LATCH of a low word is the register's read. -/
theorem exec_lowWordReadLatch {s : State} {a : Nat} {h : RegHit} (hs : s.running) (hal : a % 4 = 0)
    (hr : regAt (homeAddr a) = some h) (hl : h.reg.part = .low) (req : Requester) :
    exec (.lowWordReadLatch req a) s = .next (regReadOut req a s) := by
  refine (act_running hs _).trans (congrArg _ (if_pos ?_))
  simp [hal, partOf, hr, hl]

/-! ### RC fields -/

/-- What a read does to one field of a word: an RC field clears (Table 00.5). -/
def Field.clearRc (w : Word) (f : Field) : Word := if f.acc = .rc then f.into w 0 else w

theorem Field.clearRc_local : Field.Local Field.clearRc := by
  intro f g w hg h
  unfold Field.clearRc
  split
  · exact Field.of_into_apart hg h w 0
  · rfl

theorem rcClear_onlyRegsOf (h : RegHit) (a : Nat) (s : State) : OnlyRegsOf [a] s (rcClear h a s) := by
  unfold rcClear
  generalize h.reg.fields = fs
  induction fs generalizing s with
  | nil => exact .refl _ s
  | cons f fs ih =>
    rw [List.foldl_cons]
    split
    · exact (State.wr_onlyRegsOf s a _).trans (ih _)
    · exact ih s

theorem rcClear_rd_same (h : RegHit) (a : Nat) (s : State) :
    (rcClear h a s).rd a = h.reg.fields.foldl Field.clearRc (s.rd a) := by
  unfold rcClear
  generalize h.reg.fields = fs
  induction fs generalizing s with
  | nil => rfl
  | cons f fs ih =>
    rw [List.foldl_cons, List.foldl_cons, ih, Field.clearRc]
    split
    · rw [State.put, State.rd_wr_same]
    · rfl

/-- After a read an RC field holds 0, every other field what it held. -/
theorem of_rcClear {h : RegHit} (ht : Field.Tiled h.reg.fields) {f : Field} (hf : f ∈ h.reg.fields) (a : Nat)
    (s : State) :
    f.of ((rcClear h a s).rd a) = if f.acc = .rc then 0 else f.of (s.rd a) := by
  obtain ⟨u, hu, e⟩ := Field.of_foldl Field.clearRc_local ht hf (s.rd a)
  rw [rcClear_rd_same, e, Field.clearRc]
  split
  · rw [f.of_into (ht.1 f hf), Nat.zero_mod]
  · exact hu

/-! ### The obligations -/

/-- Settles O6: a plain write stores field by field over the register alone; the other writes are ignored, and what
each of those latches is `partialWrite_spec` and `isoViol_spec`. -/
theorem registerWritesFollowTheAccessCodes : Obligations.RegisterWritesFollowTheAccessCodes := by
  unfold Obligations.RegisterWritesFollowTheAccessCodes
  refine ⟨fun s req a v h hs hal hp hw hr hpart hk => ?_, fun s req a v b hs hal => ⟨?_, ?_, ?_, ?_⟩⟩
  · refine ⟨_, exec_registerWrite hs req a v false, ?_⟩
    rw [regWrite_setup hal hp hw, regStore_whole hr hpart hk]
    refine ⟨fun f hf => ?_, fun x hx => ?_, fun x => ?_⟩
    · rw [State.rd_wr_same, Field.of_storeWord (regAt_sound hr).tiled hf]
      rfl
    · rw [State.rd_wr_ne _ (by simpa using hx), State.rd_of_regs (thawKeep_regs a s)]
    · rw [State.wr_mem, thawKeep_mem]
  · intro hp hr
    rw [exec_registerWrite hs, regWrite_reserved hal hp hr]
  · intro hp
    rw [exec_registerWrite hs, regWrite_none hal hp]
  · intro hp
    refine ⟨_, exec_registerWrite hs req a v true, ?_⟩
    rw [regWrite_partial hal hp]
    exact partialWrite_spec a s
  · intro hp
    refine ⟨_, exec_registerWrite hs req a v b, ?_⟩
    rw [regWrite_foreign hal hp]
    exact isoViol_spec s

/-- Settles O7: the low word waits with its requester, and the high word stores the pair. -/
theorem aPairTakesEffectWithItsHighWord : Obligations.APairTakesEffectWithItsHighWord := by
  unfold Obligations.APairTakesEffectWithItsHighWord
  intro s req a lo hi hl hh hs hal hp hp4 hw hw4 rl rh pl ph nl nh
  have hal4 : (a + 4) % 4 = 0 := by omega
  have first : regWrite req a lo false s = lowWrite req a lo s := by
    rw [regWrite_setup hal hp hw, regStore_low rl (lt_of_placeOf_setup hp) pl nl]
  have lows := latchWord_lowWrite req a lo s
  have regs : (lowWrite req a lo s).regs = s.regs := rfl
  have mem : (lowWrite req a lo s).mem = s.mem := rfl
  have run : (lowWrite req a lo s).running := hs
  generalize lowWrite req a lo s = t at *
  have place : placeOf t req (a + 4) = .setup := (placeOf_of_regs regs req _).trans hp4
  have second := regWrite_high rl rh ph nh hal4 place hw4 lows hi
  simp only [commitLocked_of_regs regs, State.rd_of_regs regs] at second
  refine ⟨t, (exec_registerWrite hs req a lo false).trans (congrArg _ first), State.rd_of_regs regs,
    fun x => by rw [mem], ?_⟩
  refine ⟨_, (exec_highWordWrite run hal4 place rh ph hi).trans (congrArg _ second), ?_, State.rd_wr_same _ _ _, ?_, ?_⟩
  · rw [State.rd_wr_ne _ (by omega), State.rd_wr_same]
  · intro x hx
    obtain ⟨ha, ha4⟩ : x ≠ a ∧ x ≠ a + 4 := by simpa using hx
    rw [State.rd_wr_ne _ ha4, State.rd_wr_ne _ ha]
    exact State.rd_of_regs (by simp [regs]) x
  · intro x
    simp [mem]

/-- Settles O8: what the register loads is returned, and the load latches a high word or clears RC fields. -/
theorem readsLatchAndClear : Obligations.ReadsLatchAndClear := by
  unfold Obligations.ReadsLatchAndClear
  refine ⟨?_, ?_, ?_⟩
  · intro s req a h hh hs hal hp b hb rl rh pl ph ntrap ntxq
    have hq : h.reg.name ∉ queueReads := by simp [queueReads, ntrap, ntxq]
    have low : regLoad req b s = (regView s b, s.latch req b (regView s (b + 4))) := regLoad_low rl pl hq
    refine ⟨_, exec_lowWordReadLatch hs hal rl pl req, ?_⟩
    rw [regReadOut_of_place hal (hp a (.inl rfl)) low]
    refine ⟨rfl, rfl, fun x => rfl, ?_⟩
    generalize ht : (s.latch req b (regView s (b + 4))).emit (.read req a (regView s b)) = t
    have regs : t.regs = s.regs := by rw [← ht]; rfl
    have run : t.running := by rw [← ht]; exact hs
    have latch : latched t req b = regView s (b + 4) := by rw [← ht]; exact latched_latch s req b _
    have high : regLoad req (homeAddr (a + 4)) t = (regView s (b + 4), t) := by
      rw [hb, regLoad_high rh ph, Nat.add_sub_cancel, latch]
    have place := hp (a + 4) (.inr rfl)
    simp only [← placeOf_of_regs regs] at place
    refine ⟨_, exec_rcFieldRead run req (a + 4), ?_⟩
    rw [regReadOut_of_place (by omega) place high]
    exact ⟨rfl, regs⟩
  · intro s req a hs hal hp b
    refine ⟨fun hr => ?_, fun h hr hn => ?_, fun h hr hw hn => ?_⟩
    · rw [exec_rcFieldRead hs, regReadOut_of_place hal hp (regLoad_reserved hr req s)]
    · rw [exec_rcFieldRead hs, regReadOut_of_place hal hp (regLoad_seconds hr hn)]
    · refine ⟨_, exec_rcFieldRead hs req a, ?_⟩
      have only : OnlyRegsOf [b] s (rcClear h b s) := rcClear_onlyRegsOf h b s
      rw [regReadOut_of_place hal hp (regLoad_whole hr hw hn)]
      exact ⟨congrArg _ only.out_eq, fun f hf => of_rcClear (regAt_sound hr).tiled hf b s, only.2, only.sameMem⟩
  · intro s req a hs hal hp
    obtain ⟨iso, -, only⟩ := isoViol_spec s
    refine ⟨_, exec_rcFieldRead hs req a, ?_⟩
    rw [regReadOut_foreign hal hp]
    exact ⟨congrArg _ only.out_eq, iso, only.sameMem⟩

end Sys2Proof.Machine

/-! SUPPORT and the obligation O9. The supply loop (R38 to R42): what one run of it leaves, what it sends, and that a
pace measure reaches no register below the stations. -/
namespace Sys2Proof.Machine

/-! ### Fields of a register that is written -/

section
variable {s t : State} {a : Nat} (h : t.rd a = s.rd a)
include h

theorem State.get_of_rd (f : Field) : t.get a f = s.get a f := by rw [State.get_eq, State.get_eq, h]

theorem State.getB_of_rd (f : Field) : t.getB a f = s.getB a f := by rw [State.getB, State.getB, State.get_of_rd h]

end

/-- A field keeps what it holds where another of its register, apart from it, takes a value. -/
theorem State.get_put_apart (s : State) (a : Nat) {f g : Field} (hf : f.lo + f.w ≤ 32) (h : g.Apart f) (v : Nat) :
    (s.put a f v).get a g = s.get a g := by
  rw [State.get_eq, State.put, State.rd_wr_same, Field.of_into_apart hf h, ← State.get_eq]

theorem State.get_raise_apart (s : State) (a : Nat) {f g : Field} (hf : f.lo + f.w ≤ 32) (h : g.Apart f) :
    (s.raise a f).get a g = s.get a g := s.get_put_apart a hf h _

/-- A latched bit reads 1. -/
theorem State.get_raise_same (s : State) (a : Nat) (f : Field) (hf : f.lo + f.w ≤ 32) (h1 : f.w = 1) :
    (s.raise a f).get a f = 1 := by
  rw [State.raise, State.get_put_same _ _ _ hf, h1]
  rfl

theorem State.put_onlyRegsOf (s : State) (a : Nat) (f : Field) (v : Nat) : OnlyRegsOf [a] s (s.put a f v) :=
  s.wr_onlyRegsOf a _

theorem clampNat_le {lo hi : Nat} (n : Nat) (h : lo ≤ hi) : lo ≤ clampNat lo hi n ∧ clampNat lo hi n ≤ hi := by
  unfold clampNat
  split_ifs <;> omega

/-! ### Limits of the supply loop -/

/-- 136 to 170, whatever PWR_AVS_LIMIT holds (R39). -/
theorem avsMin_range (s : State) : 136 ≤ avsMin s ∧ avsMin s ≤ 170 := clampNat_le _ (by decide)

theorem avsMax_range (s : State) : 136 ≤ avsMax s ∧ avsMax s ≤ 170 := clampNat_le _ (by decide)

/-- What the loop is set up to depends on the registers below its status alone. -/
structure SameSetup (s t : State) : Prop where
  lower : avsMin t = avsMin s
  upper : avsMax t = avsMax s
  target : avsTarget t = avsTarget s

theorem SameSetup.of_rd {s t : State} (h : ∀ a < Reg.PWR_AVS_STATUS, t.rd a = s.rd a) : SameSetup s t := by
  have ctl := fun f => State.getB_of_rd (h Reg.PWR_AVS_CTL (by decide)) f
  have target := fun f => State.get_of_rd (h Reg.PWR_AVS_TARGET (by decide)) f
  have limit := fun f => State.get_of_rd (h Reg.PWR_AVS_LIMIT (by decide)) f
  constructor
  · rw [avsMin, avsMin, avsUnrated, avsUnrated, ctl, limit]
  · rw [avsMax, avsMax, limit]
  · rw [avsTarget, avsTarget, avsUnrated, avsUnrated, ctl, target]

theorem SameSetup.of_status {s t : State} (h : SameRegsBut [Reg.PWR_AVS_STATUS] s t) : SameSetup s t :=
  .of_rd fun a ha => h a (by simpa using ha.ne)

/-- What is set up, and what the loop has to do, at a measure p (R38). -/
def avsGoal (s : State) : Nat := avsTarget s + s.get Reg.PWR_AVS_TARGET Fld.PWR_AVS_TARGET_HEADROOM
def avsStepUp (s : State) : Nat := max 1 (s.get Reg.PWR_AVS_TUNE Fld.PWR_AVS_TUNE_UP_STEP)
abbrev avsSlow (p : Nat) (s : State) : Prop := avsGoal s + s.get Reg.PWR_AVS_TUNE Fld.PWR_AVS_TUNE_DEADBAND ≤ p

theorem avsSlow.goal_le {p : Nat} {s : State} (h : avsSlow p s) : avsGoal s ≤ p := (Nat.le_add_right _ _).trans h

abbrev avsEnough (s : State) : Prop := max 1 (s.get Reg.PWR_AVS_TUNE Fld.PWR_AVS_TUNE_DOWN_HOLD) ≤ s.power.quiet + 1

/-- The codes of a raise and of a decrease. -/
def avsRaised (s : State) : Nat := max (avsMin s) (min (avsVreq s + avsStepUp s) (avsMax s))
def avsLowered (s : State) : Nat := min (avsMax s) (max (avsVreq s - 1) (avsMin s))

/-! ### What is sent -/

/-- A Voltage Write shows its code and sends it; nothing else of the registers changes. -/
theorem avsSend_spec {v : Nat} (hv : v < 256) (s : State) :
    avsVreq (avsSend v s) = v ∧ (avsSend v s).out = .avsWrite v :: s.out ∧
      (avsSend v s).power = { s.power with lastReq := some s.now } ∧
      SameRegsBut [Reg.PWR_AVS_STATUS] s (avsSend v s) ∧ SameMem s (avsSend v s) ∧
      ∀ f : Field, f.Apart Fld.PWR_AVS_STATUS_VREQ →
        (avsSend v s).get Reg.PWR_AVS_STATUS f = s.get Reg.PWR_AVS_STATUS f :=
  ⟨(s.get_put_same _ Fld.PWR_AVS_STATUS_VREQ (by decide) v).trans (Nat.mod_eq_of_lt hv), rfl, rfl,
    (s.put_onlyRegsOf _ Fld.PWR_AVS_STATUS_VREQ v).2, fun _ => rfl,
    fun _ hf => s.get_put_apart _ (f := Fld.PWR_AVS_STATUS_VREQ) (by decide) hf v⟩

/-- What a run of the loop shows of its measure: PMIN, and SHORT where the pace falls short at VMAX. -/
def avsNote (p : Nat) (s : State) : State :=
  let t := s.put Reg.PWR_AVS_STATUS Fld.PWR_AVS_STATUS_PMIN p
  if p < avsTarget s ∧ avsVreq s = avsMax t then t.raise Reg.PWR_AVS_STATUS Fld.PWR_AVS_STATUS_SHORT else t

theorem avsNote_onlyRegsOf (p : Nat) (s : State) : OnlyRegsOf [Reg.PWR_AVS_STATUS] s (avsNote p s) := by
  unfold avsNote
  dsimp only
  split
  · exact (s.put_onlyRegsOf _ _ _).trans (State.put_onlyRegsOf _ _ _ _)
  · exact s.put_onlyRegsOf _ _ _

theorem avsNote_get {f : Field} (hp : f.Apart Fld.PWR_AVS_STATUS_PMIN) (hs : f.Apart Fld.PWR_AVS_STATUS_SHORT) (p : Nat)
    (s : State) : (avsNote p s).get Reg.PWR_AVS_STATUS f = s.get Reg.PWR_AVS_STATUS f := by
  have put := s.get_put_apart Reg.PWR_AVS_STATUS (by decide) hp p
  unfold avsNote
  dsimp only
  split
  · exact (State.get_raise_apart _ _ (by decide) hs).trans put
  · exact put

theorem avsNote_vreq (p : Nat) (s : State) : avsVreq (avsNote p s) = avsVreq s := avsNote_get (by decide) (by decide) p s

/-- The measure p of s is shown in t, and nothing else of the registers but the status has changed. -/
structure Noted (p : Nat) (s t : State) : Prop where
  pmin : t.get Reg.PWR_AVS_STATUS Fld.PWR_AVS_STATUS_PMIN = p
  short : p < avsTarget s → avsVreq s = avsMax s → t.get Reg.PWR_AVS_STATUS Fld.PWR_AVS_STATUS_SHORT = 1
  regs : SameRegsBut [Reg.PWR_AVS_STATUS] s t
  mem : SameMem s t
  buserr : t.getB Reg.PWR_AVS_STATUS Fld.PWR_AVS_STATUS_BUSERR = s.getB Reg.PWR_AVS_STATUS Fld.PWR_AVS_STATUS_BUSERR

theorem noted_avsNote {p : Nat} (hp : p < 4096) (s : State) : Noted p s (avsNote p s) := by
  have pmin : (s.put Reg.PWR_AVS_STATUS Fld.PWR_AVS_STATUS_PMIN p).get Reg.PWR_AVS_STATUS Fld.PWR_AVS_STATUS_PMIN = p :=
    (s.get_put_same _ Fld.PWR_AVS_STATUS_PMIN (by decide) p).trans (Nat.mod_eq_of_lt hp)
  have upper : avsMax (s.put Reg.PWR_AVS_STATUS Fld.PWR_AVS_STATUS_PMIN p) = avsMax s :=
    (SameSetup.of_status (s.put_onlyRegsOf _ _ _).2).upper
  refine ⟨?_, fun low top => ?_, (avsNote_onlyRegsOf p s).2, (avsNote_onlyRegsOf p s).sameMem, ?_⟩
  · unfold avsNote
    dsimp only
    split
    · exact (State.get_raise_apart _ _ (by decide) (by decide)).trans pmin
    · exact pmin
  · rw [avsNote, upper, if_pos ⟨low, top⟩]
    exact State.get_raise_same _ _ Fld.PWR_AVS_STATUS_SHORT (by decide) rfl
  · rw [State.getB, State.getB, avsNote_get (by decide) (by decide)]

theorem Noted.send {p v : Nat} {s t : State} (hv : v < 256) (h : Noted p s t) : Noted p s (avsSend v t) := by
  obtain ⟨-, -, -, regs, mem, get⟩ := avsSend_spec hv t
  refine ⟨(get _ (by decide)).trans h.pmin, fun low top => (get _ (by decide)).trans (h.short low top),
    fun a ha => (regs a ha).trans (h.regs a ha), fun a => (mem a).trans (h.mem a), ?_⟩
  rw [← h.buserr, State.getB, State.getB, get _ (by decide)]

/-! ### One run of the loop -/

/-- The periods for which the pace has stayed above, and the end of a period's measures. -/
def quietAt (q : Nat) (s : State) : State := { s with power := { s.power with quiet := q } }
def sumsEnd (s : State) : State := { s with power := { s.power with sums := [] } }

/-- The four cases of a run (R38): a raise, a decrease, a wait for the decrease, and a pace within the band. -/
theorem avsAct_cases (p : Nat) (s : State) :
    (p < avsGoal s → avsAct p s = quietAt 0 (avsSend (avsRaised s) (avsNote p s))) ∧
    (avsSlow p s → avsEnough s → avsAct p s = quietAt 0 (avsSend (avsLowered s) (avsNote p s))) ∧
    (avsSlow p s → ¬ avsEnough s → avsAct p s = quietAt (s.power.quiet + 1) (avsNote p s)) ∧
    (avsGoal s ≤ p → ¬ avsSlow p s → avsAct p s = quietAt 0 (avsNote p s)) := by
  have only := avsNote_onlyRegsOf p s
  obtain ⟨lower, upper, -⟩ := SameSetup.of_status only.2
  have tune := fun f => State.get_of_rd (only.2 Reg.PWR_AVS_TUNE (by decide)) f
  have quiet : (avsNote p s).power = s.power := (congrArg State.power only.1 :)
  have unfolded : avsAct p s =
      if p < avsGoal s then
        quietAt 0 (avsSend (max (avsMin (avsNote p s)) (min (avsVreq s + avsStepUp (avsNote p s))
          (avsMax (avsNote p s)))) (avsNote p s))
      else if avsGoal s + (avsNote p s).get Reg.PWR_AVS_TUNE Fld.PWR_AVS_TUNE_DEADBAND ≤ p then
        if max 1 ((avsNote p s).get Reg.PWR_AVS_TUNE Fld.PWR_AVS_TUNE_DOWN_HOLD) ≤ (avsNote p s).power.quiet + 1 then
          quietAt 0 (avsSend (min (avsMax (avsNote p s)) (max (avsVreq s - 1) (avsMin (avsNote p s)))) (avsNote p s))
        else quietAt ((avsNote p s).power.quiet + 1) (avsNote p s)
      else quietAt 0 (avsNote p s) := rfl
  simp only [lower, upper, tune, quiet, avsStepUp] at unfolded
  refine ⟨fun low => ?_, fun slow enough => ?_, fun slow enough => ?_, fun high slow => ?_⟩
  · rw [unfolded, if_pos low]; rfl
  · rw [unfolded, if_neg (slow.goal_le).not_gt, if_pos slow, if_pos enough]; rfl
  · rw [unfolded, if_neg (slow.goal_le).not_gt, if_pos slow, if_neg enough]
  · rw [unfolded, if_neg high.not_gt, if_neg slow]

/-- A code that a run sends: within the limits where they are in order. -/
def AvsCode (s : State) (v : Nat) : Prop := v = avsRaised s ∨ v = avsLowered s

theorem AvsCode.lt {s : State} {v : Nat} (h : AvsCode s v) : v < 256 := by
  have := avsMin_range s
  have := avsMax_range s
  rcases h with rfl | rfl
  · unfold avsRaised; omega
  · unfold avsLowered; omega

theorem AvsCode.within {s : State} {v : Nat} (h : AvsCode s v) (order : avsMin s ≤ avsMax s) :
    avsMin s ≤ v ∧ v ≤ avsMax s := by
  rcases h with rfl | rfl
  · unfold avsRaised; omega
  · unfold avsLowered; omega

/-- Everything a run can do: it shows its measure, sends one code or none, and sets the quiet count. -/
theorem avsAct_inv (p : Nat) (s : State) :
    (∃ q, avsAct p s = quietAt q (avsNote p s)) ∨
      ∃ v, AvsCode s v ∧ avsAct p s = quietAt 0 (avsSend v (avsNote p s)) := by
  obtain ⟨low, down, wait, hold⟩ := avsAct_cases p s
  by_cases hlow : p < avsGoal s
  · exact .inr ⟨_, .inl rfl, low hlow⟩
  by_cases slow : avsSlow p s
  · by_cases enough : avsEnough s
    · exact .inr ⟨_, .inr rfl, down slow enough⟩
    · exact .inl ⟨_, wait slow enough⟩
  · exact .inl ⟨_, hold (Nat.le_of_not_lt hlow) slow⟩

/-! ### The end of a period -/

theorem avsPeriodEnd_measured {s : State} {p : Nat} (h : avsMeasure s = some p) (hr : avsRuns s = true) :
    avsPeriodEnd s = sumsEnd (avsAct p s) := by
  simp only [avsPeriodEnd, h, hr, if_true]
  rfl

theorem avsPeriodEnd_cases (s : State) :
    avsPeriodEnd s = sumsEnd s ∨ ∃ p, avsPeriodEnd s = sumsEnd (avsAct p s) := by
  unfold avsPeriodEnd
  dsimp only
  split
  · split
    · exact .inr ⟨_, rfl⟩
    · exact .inl rfl
  · exact .inl rfl

theorem avsRuns_iff (s : State) : avsRuns s = true ↔ s.getB Reg.PWR_AVS_CTL Fld.PWR_AVS_CTL_EN = true ∧
    s.getB Reg.PWR_AVS_STATUS Fld.PWR_AVS_STATUS_BUSERR = false ∧ s.power.suspended = false := by
  simp [avsRuns, and_assoc]

theorem avsResume_idle {s : State} (h : s.power.suspended = false) : avsResume s = s := by simp [avsResume, h]

/-- A run leaves the registers but its status, memory, BUSERR and the suspension as they are. -/
theorem avsAct_frame (p : Nat) (s : State) :
    SameRegsBut [Reg.PWR_AVS_STATUS] s (avsAct p s) ∧ SameMem s (avsAct p s) ∧
      (avsAct p s).getB Reg.PWR_AVS_STATUS Fld.PWR_AVS_STATUS_BUSERR =
        s.getB Reg.PWR_AVS_STATUS Fld.PWR_AVS_STATUS_BUSERR ∧
      (avsAct p s).power.suspended = s.power.suspended := by
  have only := avsNote_onlyRegsOf p s
  have suspended : (avsNote p s).power.suspended = s.power.suspended := (congrArg (fun u => u.power.suspended) only.1 :)
  have buserr : (avsNote p s).getB Reg.PWR_AVS_STATUS Fld.PWR_AVS_STATUS_BUSERR =
      s.getB Reg.PWR_AVS_STATUS Fld.PWR_AVS_STATUS_BUSERR := by
    rw [State.getB, State.getB, avsNote_get (by decide) (by decide)]
  rcases avsAct_inv p s with ⟨q, e⟩ | ⟨v, code, e⟩
  · rw [e]; exact ⟨only.2, only.sameMem, buserr, suspended⟩
  · obtain ⟨-, -, -, regs, mem, get⟩ := avsSend_spec code.lt (avsNote p s)
    rw [e]
    refine ⟨fun a ha => (regs a ha).trans (only.2 a ha), fun a => (mem a).trans (only.sameMem a), ?_, suspended⟩
    rw [← buserr]
    exact congrArg (· != 0) (get _ (by decide))

/-- So does the end of a period. -/
theorem avsPeriodEnd_frame (s : State) :
    SameRegsBut [Reg.PWR_AVS_STATUS] s (avsPeriodEnd s) ∧ SameMem s (avsPeriodEnd s) ∧
      (avsPeriodEnd s).getB Reg.PWR_AVS_STATUS Fld.PWR_AVS_STATUS_BUSERR =
        s.getB Reg.PWR_AVS_STATUS Fld.PWR_AVS_STATUS_BUSERR ∧
      (avsPeriodEnd s).power.suspended = s.power.suspended := by
  rcases avsPeriodEnd_cases s with e | ⟨p, e⟩
  · rw [e]; exact ⟨fun _ _ => rfl, fun _ => rfl, rfl, rfl⟩
  · rw [e]; exact avsAct_frame p s

/-- A suspension ends at a period boundary with BUSERR clear (R41). -/
theorem avsPeriod_suspended (s : State) : (avsResume (avsPeriodEnd s)).power.suspended =
    (s.power.suspended && s.getB Reg.PWR_AVS_STATUS Fld.PWR_AVS_STATUS_BUSERR) := by
  have resumed (t : State) : (avsResume t).power.suspended =
      (t.power.suspended && t.getB Reg.PWR_AVS_STATUS Fld.PWR_AVS_STATUS_BUSERR) := by
    unfold avsResume
    cases hs : t.power.suspended <;> cases hb : t.getB Reg.PWR_AVS_STATUS Fld.PWR_AVS_STATUS_BUSERR <;> simp [hs]
  obtain ⟨-, -, buserr, suspended⟩ := avsPeriodEnd_frame s
  rw [resumed, buserr, suspended]

/-! ### What goes out stays within the limits -/

/-- From s to t nothing has gone out, or one Voltage Write of a code within the limits of s. -/
def SendsWithin (s t : State) : Prop :=
  t.out = s.out ∨ ∃ v, t.out = .avsWrite v :: s.out ∧ avsMin s ≤ v ∧ v ≤ avsMax s ∧ 136 ≤ v ∧ v ≤ 170

theorem SendsWithin.of_send {s t : State} {v : Nat} (ho : t.out = .avsWrite v :: s.out) (lo : avsMin s ≤ v)
    (hi : v ≤ avsMax s) : SendsWithin s t :=
  .inr ⟨v, ho, lo, hi, (avsMin_range s).1.trans lo, hi.trans (avsMax_range s).2⟩

theorem avsAct_sendsWithin (p : Nat) {s : State} (h : avsMin s ≤ avsMax s) : SendsWithin s (avsAct p s) := by
  have out : (avsNote p s).out = s.out := (avsNote_onlyRegsOf p s).out_eq
  rcases avsAct_inv p s with ⟨q, e⟩ | ⟨v, code, e⟩
  · rw [e]; exact .inl out
  · obtain ⟨lo, hi⟩ := code.within h
    rw [e]; exact .of_send (congrArg (Output.avsWrite v :: ·) out) lo hi

theorem avsPeriodEnd_sendsWithin {s : State} (h : avsMin s ≤ avsMax s) : SendsWithin s (avsPeriodEnd s) := by
  rcases avsPeriodEnd_cases s with e | ⟨p, e⟩
  · rw [e]; exact .inl rfl
  · rw [e]; exact avsAct_sendsWithin p h

theorem avsResume_out (s : State) : (avsResume s).out = s.out := by
  unfold avsResume
  split <;> rfl

theorem avsManualWrite_disabled {s : State} (v : Word) (h : s.getB Reg.PWR_AVS_CTL Fld.PWR_AVS_CTL_EN = false) :
    avsManualWrite v s = avsSend (min (avsMax s) (max (avsMin s) (Fld.PWR_AVS_MANUAL_VCODE.of v)))
      (s.put Reg.PWR_AVS_MANUAL Fld.PWR_AVS_MANUAL_VCODE (Fld.PWR_AVS_MANUAL_VCODE.of v)) := by
  simp [avsManualWrite, h]

theorem avsManualWrite_enabled {s : State} (v : Word) (h : s.getB Reg.PWR_AVS_CTL Fld.PWR_AVS_CTL_EN = true) :
    avsManualWrite v s = s := by simp [avsManualWrite, h]

theorem avsManualWrite_sendsWithin (v : Word) {s : State} (h : avsMin s ≤ avsMax s) :
    SendsWithin s (avsManualWrite v s) := by
  cases en : s.getB Reg.PWR_AVS_CTL Fld.PWR_AVS_CTL_EN with
  | true => rw [avsManualWrite_enabled v en]; exact .inl rfl
  | false => rw [avsManualWrite_disabled v en]; exact .of_send rfl (by omega) (by omega)

/-! ### Pace measures -/

/-- The registers in which a station publishes its pace. -/
def PaceReg (st a : Nat) : Prop :=
  a = Reg.STN_PACE st ∨ a = Reg.STN_PACE_CNT_LO st ∨ a = Reg.STN_PACE_CNT_LO st + 4

theorem PaceReg.station {st k a : Nat} (h : PaceReg st a) (h' : PaceReg k a) : st = k := by
  simp only [PaceReg, Reg.STN_PACE, Reg.STN_PACE_CNT_LO, stationBase] at h h'
  omega

theorem PaceReg.not_low {st a : Nat} (ha : a < stationBase 0) : ¬ PaceReg st a := by
  simp only [PaceReg, Reg.STN_PACE, Reg.STN_PACE_CNT_LO, stationBase] at ha ⊢
  omega

theorem State.cntGet_of_rd {s t : State} {a : Nat} (lo : t.rd a = s.rd a) (hi : t.rd (a + 4) = s.rd (a + 4)) :
    t.cntGet a = s.cntGet a := by simp only [State.cntGet, State.rdN, lo, hi]

theorem State.cntGet_lt (s : State) (a : Nat) : s.cntGet a < 2 ^ 48 := by
  have lo := (s.rd a).isLt
  unfold State.cntGet State.rdN
  omega

theorem State.counts_cnt (s : State) (a n : Nat) : Counts a n s (s.cnt a n) := by
  unfold Counts State.cnt
  split
  · next h => rw [h, Nat.add_zero, Nat.mod_eq_of_lt (s.cntGet_lt a)]
  · rw [State.cntGet_cntSet]

/-- Station st has published raw: what it shows, and its pace counter adds EFF (R35, R36). -/
structure Paced (st raw : Nat) (s t : State) : Prop where
  shown : t.get (Reg.STN_PACE st) Fld.STN_PACE_RAW = raw % 4096
  eff : t.get (Reg.STN_PACE st) Fld.STN_PACE_EFF = raw % 4096 * throttleOf s st / 256 % 4096
  valid : t.get (Reg.STN_PACE st) Fld.STN_PACE_VALID = 1
  count : Counts (Reg.STN_PACE_CNT_LO st) (raw % 4096 * throttleOf s st / 256) s t

/-- Only what it holds in the station's registers, before and after, and the station's F bear on what it publishes. -/
theorem Paced.of_rd {st raw : Nat} {s s' t t' : State} (h : Paced st raw s t) (hf : throttleOf s' st = throttleOf s st)
    (before : ∀ a, PaceReg st a → s'.rd a = s.rd a) (after : ∀ a, PaceReg st a → t'.rd a = t.rd a) :
    Paced st raw s' t' := by
  have pace := fun f => State.get_of_rd (after _ (.inl rfl)) f
  constructor
  · rw [pace, h.shown]
  · rw [pace, h.eff, hf]
  · rw [pace, h.valid]
  · rw [Counts, hf, State.cntGet_of_rd (after _ (.inr (.inl rfl))) (after _ (.inr (.inr rfl))),
      State.cntGet_of_rd (before _ (.inr (.inl rfl))) (before _ (.inr (.inr rfl)))]
    exact h.count

/-- What a station publishes, before the loop's sums take it. -/
def pacePublish (st raw : Nat) (s : State) : State :=
  let raw := raw % 4096
  let eff := raw * throttleOf s st / 256
  let a := Reg.STN_PACE st
  (((s.put a Fld.STN_PACE_RAW raw).put a Fld.STN_PACE_EFF eff).put a Fld.STN_PACE_VALID 1).cnt
    (Reg.STN_PACE_CNT_LO st) eff

theorem paceStation_regs (st raw : Nat) (s : State) : (paceStation st raw s).regs = (pacePublish st raw s).regs ∧
    (paceStation st raw s).out = s.out ∧ (paceStation st raw s).mem = s.mem := by
  have out : (pacePublish st raw s).out = s.out := State.cnt_out _ _ _
  have mem : (pacePublish st raw s).mem = s.mem := State.cnt_mem _ _ _
  have cases : paceStation st raw s = pacePublish st raw s ∨
      ∃ p, paceStation st raw s = { pacePublish st raw s with power := p } := by
    rw [paceStation]
    dsimp only
    split
    · exact .inl rfl
    · exact .inr ⟨_, rfl⟩
  rcases cases with e | ⟨p, e⟩ <;> rw [e] <;> exact ⟨rfl, out, mem⟩

theorem pacePublish_rd {st raw a : Nat} (h : ¬ PaceReg st a) (s : State) : (pacePublish st raw s).rd a = s.rd a := by
  obtain ⟨pace, lo, hi⟩ : a ≠ Reg.STN_PACE st ∧ a ≠ Reg.STN_PACE_CNT_LO st ∧ a ≠ Reg.STN_PACE_CNT_LO st + 4 := by
    simpa [PaceReg] using h
  simp only [pacePublish, State.rd_cnt_ne _ lo hi, State.rd_put_ne _ pace]

theorem paced_pacePublish (st raw : Nat) (s : State) : Paced st raw s (pacePublish st raw s) := by
  have lo : Reg.STN_PACE st ≠ Reg.STN_PACE_CNT_LO st := by simp only [Reg.STN_PACE, Reg.STN_PACE_CNT_LO]; omega
  have hi : Reg.STN_PACE st ≠ Reg.STN_PACE_CNT_LO st + 4 := by simp only [Reg.STN_PACE, Reg.STN_PACE_CNT_LO]; omega
  have pace (t : State) (n : Nat) (f : Field) :
      (t.cnt (Reg.STN_PACE_CNT_LO st) n).get (Reg.STN_PACE st) f = t.get (Reg.STN_PACE st) f :=
    State.get_of_rd (t.rd_cnt_ne lo hi n) f
  refine ⟨?_, ?_, ?_, ?_⟩
  · rw [pacePublish, pace, State.get_put_apart _ _ (by decide) (by decide), State.get_put_apart _ _ (by decide) (by decide)]
    exact (s.get_put_same _ Fld.STN_PACE_RAW (by decide) _).trans (Nat.mod_mod _ _)
  · rw [pacePublish, pace, State.get_put_apart _ _ (by decide) (by decide)]
    exact State.get_put_same _ _ Fld.STN_PACE_EFF (by decide) _
  · rw [pacePublish, pace]
    exact State.get_put_same _ _ Fld.STN_PACE_VALID (by decide) _
  · have count := State.counts_cnt (((s.put (Reg.STN_PACE st) Fld.STN_PACE_RAW (raw % 4096)).put (Reg.STN_PACE st)
      Fld.STN_PACE_EFF (raw % 4096 * throttleOf s st / 256)).put (Reg.STN_PACE st) Fld.STN_PACE_VALID 1)
      (Reg.STN_PACE_CNT_LO st) (raw % 4096 * throttleOf s st / 256)
    rw [Counts] at count ⊢
    refine count.trans (congrArg (fun n => (n + _) % 2 ^ 48) (State.cntGet_of_rd ?_ ?_))
    · simp only [State.rd_put_ne _ lo.symm]
    · simp only [State.rd_put_ne _ hi.symm]

theorem paceStation_rd {st raw a : Nat} (h : ¬ PaceReg st a) (s : State) : (paceStation st raw s).rd a = s.rd a :=
  (State.rd_of_regs (paceStation_regs st raw s).1 a).trans (pacePublish_rd h s)

/-- Stations from `st` on publish: no other register changes, nothing goes out, memory stays. -/
theorem paceAll_frame (rs : List Nat) (st : Nat) (s : State) :
    (∀ a, (∀ k, st ≤ k → ¬ PaceReg k a) → (paceAll st rs s).rd a = s.rd a) ∧ (paceAll st rs s).out = s.out ∧
      (paceAll st rs s).mem = s.mem := by
  induction rs generalizing st s with
  | nil => exact ⟨fun _ _ => rfl, rfl, rfl⟩
  | cons r rs ih =>
    obtain ⟨rd, out, mem⟩ := ih (st + 1) (paceStation st r s)
    obtain ⟨-, out', mem'⟩ := paceStation_regs st r s
    exact ⟨fun a ha => (rd a fun k hk => ha k (by omega)).trans (paceStation_rd (ha st le_rfl) s), out.trans out',
      mem.trans mem'⟩

/-- Each station publishes its own reading, at its own F. -/
theorem paced_paceAll (rs : List Nat) (st k : Nat) (hk : k < rs.length) (h12 : st + k < 12) (s : State) :
    Paced (st + k) (rs.getD k 0) s (paceAll st rs s) := by
  induction rs generalizing st k s with
  | nil => cases hk
  | cons r rs ih =>
    have published : Paced st r s (paceStation st r s) :=
      (paced_pacePublish st r s).of_rd rfl (fun _ _ => rfl) fun a _ => State.rd_of_regs (paceStation_regs st r s).1 a
    cases k with
    | zero =>
      refine published.of_rd rfl (fun _ _ => rfl) fun a ha => ?_
      exact (paceAll_frame rs (st + 1) _).1 a fun k hk hr => by have := ha.station hr; omega
    | succ k =>
      have h := ih (st + 1) k (Nat.lt_of_succ_lt_succ hk) (by omega) (paceStation st r s)
      rw [Nat.add_right_comm] at h
      refine h.of_rd ?_ (fun a ha => ?_) fun _ _ => rfl
      · refine (State.get_of_rd (paceStation_rd (PaceReg.not_low ?_) s) _).symm
        simp only [Reg.THM_THROTTLE, stationBase]
        omega
      · exact (paceStation_rd (fun hr => by have := ha.station hr; omega) s).symm

/-! ### The commands -/

theorem exec_avsPeriod {s : State} (hs : s.running) : exec .avsPeriod s = .next (avsResume (avsPeriodEnd s)) :=
  act_running hs fun s => avsResume (avsPeriodEnd s)

theorem exec_avsBusFault {s : State} (hs : s.running) (read : Bool) :
    exec (.avsBusFault ⟨read, none⟩) s = .next
      { (avsRetry read 3 s).raise Reg.PWR_AVS_STATUS Fld.PWR_AVS_STATUS_BUSERR with
        power := { (avsRetry read 3 s).power with suspended := true } } :=
  act_running hs fun s =>
    { (avsRetry read 3 s).raise Reg.PWR_AVS_STATUS Fld.PWR_AVS_STATUS_BUSERR with
      power := { (avsRetry read 3 s).power with suspended := true } }

/-- A manual write or the end of a period, with the loop's measures or without, sends what its limits allow. -/
theorem exec_sendsWithin {c : Instr} {s t : State} (e : exec c s = .next t)
    (hc : c = .avsPeriod ∨ (∃ l, c = .paceMeasure l) ∨ ∃ v, c = .avsManualWrite v) (h : avsMin s ≤ avsMax s) :
    SendsWithin s t := by
  have acts {f : State → State} (hf : SendsWithin s (f s)) (e : act s f = .next t) : SendsWithin s t := by
    cases held : s.boot.held with
    | true => rw [act_held held] at e; cases e; exact .inl rfl
    | false => rw [act_running held] at e; cases e; exact hf
  rcases hc with rfl | ⟨l, rfl⟩ | ⟨v, rfl⟩
  · exact acts (f := fun s => avsResume (avsPeriodEnd s))
      (by unfold SendsWithin; rw [avsResume_out]; exact avsPeriodEnd_sendsWithin h) e
  · refine acts (f := fun s =>
      let low := !avsExcluded s && avsRuns s && (l.take 12).any fun r => decide (r % 4096 < avsTarget s)
      if low then avsPeriodEnd (paceAll 0 (l.take 12) s) else paceAll 0 (l.take 12) s) ?_ e
    obtain ⟨rd, out, -⟩ := paceAll_frame (l.take 12) 0 s
    obtain ⟨lower, upper, -⟩ := SameSetup.of_rd (t := paceAll 0 (l.take 12) s) fun a ha =>
      rd a fun k _ => PaceReg.not_low (ha.trans (by decide))
    dsimp only
    split
    · have sends := avsPeriodEnd_sendsWithin (s := paceAll 0 (l.take 12) s) (by omega)
      rwa [SendsWithin, out, lower, upper] at sends
    · exact .inl out
  · exact acts (avsManualWrite_sendsWithin v h) e

theorem avsRetry_eq (read : Bool) (n : Nat) (s : State) : avsRetry read n s =
    { s with out := List.replicate n (if read then Output.avsRead else .avsWrite (avsVreq s)) ++ s.out } := by
  induction n generalizing s with
  | zero => rfl
  | succ n ih =>
    rw [avsRetry, ih, List.replicate_succ', List.append_assoc]
    rfl

/-- The end of a period in which the loop runs and p was measured: what shows, and which of the four cases has
happened. -/
theorem avsPeriod_measured {s : State} {p : Nat} (hr : avsRuns s = true) (hm : avsMeasure s = some p) (hp : p < 4096) :
    let t := avsResume (avsPeriodEnd s)
    Noted p s t ∧ t.power.sums = [] ∧
      (p < avsGoal s → avsVreq t = avsRaised s ∧ t.out = .avsWrite (avsVreq t) :: s.out ∧ t.power.quiet = 0 ∧
        t.power.lastReq = some s.now) ∧
      (avsSlow p s → avsEnough s → avsVreq t = avsLowered s ∧ t.out = .avsWrite (avsVreq t) :: s.out ∧
        t.power.quiet = 0 ∧ t.power.lastReq = some s.now) ∧
      (avsSlow p s → ¬ avsEnough s → avsVreq t = avsVreq s ∧ t.out = s.out ∧ t.power.quiet = s.power.quiet + 1) ∧
      (avsGoal s ≤ p → ¬ avsSlow p s → avsVreq t = avsVreq s ∧ t.out = s.out ∧ t.power.quiet = 0) := by
  obtain ⟨-, -, running⟩ := (avsRuns_iff s).1 hr
  have ends : avsResume (avsPeriodEnd s) = sumsEnd (avsAct p s) := by
    rw [avsResume_idle ((avsPeriodEnd_frame s).2.2.2.trans running), avsPeriodEnd_measured hm hr]
  have only := (avsNote_onlyRegsOf p s).1
  have out : (avsNote p s).out = s.out := (congrArg State.out only :)
  have now : (avsNote p s).now = s.now := (congrArg State.now only :)
  have note : Noted p s (avsNote p s) := noted_avsNote hp s
  have sends {v : Nat} (hv : v < 256) {t : State} (e : t = sumsEnd (quietAt 0 (avsSend v (avsNote p s)))) :
      avsVreq t = v ∧ t.out = .avsWrite (avsVreq t) :: s.out ∧ t.power.quiet = 0 ∧ t.power.lastReq = some s.now := by
    obtain ⟨vreq, sent, -⟩ := avsSend_spec hv (avsNote p s)
    have shows : avsVreq t = v := by rw [e]; exact vreq
    rw [shows, e]
    exact ⟨rfl, sent.trans (congrArg _ out), rfl, congrArg some now⟩
  obtain ⟨low, down, wait, hold⟩ := avsAct_cases p s
  dsimp only
  rw [ends]
  refine ⟨?_, rfl, fun h => sends (AvsCode.lt (.inl rfl)) (congrArg _ (low h)), fun h k => sends (AvsCode.lt (.inr rfl)) (congrArg _ (down h k)),
    fun h k => ?_, fun h k => ?_⟩
  · rcases avsAct_inv p s with ⟨q, e⟩ | ⟨v, code, e⟩
    · rw [e]; exact ⟨note.pmin, note.short, note.regs, note.mem, note.buserr⟩
    · obtain ⟨pmin, short, regs, mem, buserr⟩ := note.send code.lt
      rw [e]; exact ⟨pmin, short, regs, mem, buserr⟩
  · rw [wait h k]; exact ⟨avsNote_vreq p s, out, rfl⟩
  · rw [hold h k]; exact ⟨avsNote_vreq p s, out, rfl⟩

/-- A fault of the bus repeats its transaction; when all three repeats fail, BUSERR shows it and the loop stops
(R41). -/
theorem avsBusFault_answers {s : State} (hs : s.running) (read : Bool) :
    let again := if read then Output.avsRead else .avsWrite (avsVreq s)
    (∀ k : Fin 3, exec (.avsBusFault ⟨read, some k⟩) s =
      .next { s with out := List.replicate (k.val + 1) again ++ s.out }) ∧
    Answers (.avsBusFault ⟨read, none⟩) s fun t =>
      t.get Reg.PWR_AVS_STATUS Fld.PWR_AVS_STATUS_BUSERR = 1 ∧ t.power = { s.power with suspended := true } ∧
      avsRuns t = false ∧ t.out = List.replicate 3 again ++ s.out ∧ SameRegsBut [Reg.PWR_AVS_STATUS] s t ∧
      SameMem s t := by
  refine ⟨fun k => (act_running hs _).trans (congrArg _ (avsRetry_eq read _ s)), _, exec_avsBusFault hs read, ?_⟩
  dsimp only
  rw [avsRetry_eq]
  refine ⟨State.get_raise_same _ _ Fld.PWR_AVS_STATUS_BUSERR (by decide) rfl, rfl, ?_, rfl, fun a ha => ?_,
    fun _ => rfl⟩
  · simp [avsRuns]
  · exact State.rd_put_ne s (by simpa using ha) _ _

/-- A manual write while EN is 0 sends its clamped code once (R42). -/
theorem avsManualWrite_answers {s : State} (hs : s.running) (v : Word)
    (en : s.getB Reg.PWR_AVS_CTL Fld.PWR_AVS_CTL_EN = false) :
    Answers (.avsManualWrite v) s fun t =>
      let code := min (avsMax s) (max (avsMin s) (Fld.PWR_AVS_MANUAL_VCODE.of v))
      avsVreq t = code ∧ t.get Reg.PWR_AVS_MANUAL Fld.PWR_AVS_MANUAL_VCODE = Fld.PWR_AVS_MANUAL_VCODE.of v ∧
      t.out = .avsWrite code :: s.out ∧ SameRegsBut [Reg.PWR_AVS_STATUS, Reg.PWR_AVS_MANUAL] s t ∧ SameMem s t := by
  refine ⟨_, act_running hs _, ?_⟩
  rw [avsManualWrite_disabled v en]
  have top := avsMax_range s
  obtain ⟨vreq, out, -, regs, mem, -⟩ := avsSend_spec (v := min (avsMax s) (max (avsMin s) (Fld.PWR_AVS_MANUAL_VCODE.of v)))
    (by omega) (s.put Reg.PWR_AVS_MANUAL Fld.PWR_AVS_MANUAL_VCODE (Fld.PWR_AVS_MANUAL_VCODE.of v))
  refine ⟨vreq, ?_, out, fun a ha => ?_, mem⟩
  · rw [State.get_of_rd (regs _ (by decide)), State.get_put_same _ _ Fld.PWR_AVS_MANUAL_VCODE (by decide)]
    exact Nat.mod_eq_of_lt (Fld.PWR_AVS_MANUAL_VCODE.of_lt v)
  · obtain ⟨status, manual⟩ : a ≠ Reg.PWR_AVS_STATUS ∧ a ≠ Reg.PWR_AVS_MANUAL := by simpa using ha
    exact (regs a (by simpa using status)).trans (s.rd_put_ne manual _ _)

/-- Settles O9: the four cases of a run of the loop, the codes it can send, and its faults and manual writes. -/
theorem theSupplyLoopStaysWithinItsLimits : Obligations.TheSupplyLoopStaysWithinItsLimits := by
  unfold Obligations.TheSupplyLoopStaysWithinItsLimits
  refine ⟨fun s p hs hr hm hp => ?_, fun s t c e hc h => exec_sendsWithin e hc h, ?_, ?_, ?_, ?_⟩
  · obtain ⟨⟨pmin, short, regs, mem, -⟩, sums, low, down, wait, hold⟩ := avsPeriod_measured hr hm hp
    exact ⟨_, exec_avsPeriod hs, pmin, sums, regs, mem, short, low, down, wait, hold⟩
  · exact fun s read hs => avsBusFault_answers hs read
  · exact fun s hs => ⟨_, exec_avsPeriod hs, avsPeriod_suspended s⟩
  · exact fun s v hs en => avsManualWrite_answers hs v en
  · exact fun s v hs en => (act_running hs _).trans (congrArg _ (avsManualWrite_enabled v en))

end Sys2Proof.Machine

/-! SUPPORT and the obligation O10. Pace measures (R35, R36), and the stages of a thermal sample (R44 to R49, R449): the
sensors one by one, THERM_CRIT_N, SMB_ALERT_N, and each station's F. -/
namespace Sys2Proof.Machine

/-! ### Pace measures -/

/-- PACE_MEASURE, as one function of the readings of twelve stations. -/
theorem exec_paceMeasure {s : State} (hs : s.running) {counts : List Nat} (h : counts.length = 12) :
    ∃ t, exec (.paceMeasure counts) s = .next t ∧ (t = paceAll 0 counts s ∨ t = avsPeriodEnd (paceAll 0 counts s)) := by
  have all : counts.take 12 = counts := List.take_of_length_le h.le
  refine ⟨_, act_running hs fun s =>
    let rs := counts.take 12
    let low := !avsExcluded s && avsRuns s && rs.any fun r => decide (r % 4096 < avsTarget s)
    let s := paceAll 0 rs s
    if low then avsPeriodEnd s else s, ?_⟩
  dsimp only
  rw [all]
  split
  · exact .inr rfl
  · exact .inl rfl

/-- The loop's run at a measure reaches no station's pace. -/
theorem paceMeasure_answers {s : State} {counts : List Nat} {st : Nat} (hs : s.running) (h : counts.length = 12)
    (hst : st < 12) :
    Answers (.paceMeasure counts) s fun t => Paced st (counts.getD st 0) s t ∧ SameMem s t := by
  have paced : Paced st (counts.getD st 0) s (paceAll 0 counts s) := by
    simpa using paced_paceAll counts 0 st (by omega) (by omega) s
  have mem : (paceAll 0 counts s).mem = s.mem := (paceAll_frame counts 0 s).2.2
  obtain ⟨t, e, rfl | rfl⟩ := exec_paceMeasure hs h
  · exact ⟨_, e, paced, fun a => by rw [mem]⟩
  · obtain ⟨regs, same, -, -⟩ := avsPeriodEnd_frame (paceAll 0 counts s)
    refine ⟨_, e, paced.of_rd rfl (fun _ _ => rfl) fun a ha => regs a ?_, fun a => (same a).trans (by rw [mem])⟩
    have high : ¬ a < stationBase 0 := fun low => PaceReg.not_low low ha
    have status : Reg.PWR_AVS_STATUS < stationBase 0 := by decide
    simp only [List.mem_singleton]
    omega

/-! ### Numbers -/

/-- Taking the bit k of a number that has it away leaves the other bits. -/
theorem testBit_sub_two_pow {n k : Nat} (h : n.testBit k = true) (j : Nat) :
    (n - 2 ^ k).testBit j = (decide (j ≠ k) && n.testBit j) := by
  have odd : n / 2 ^ k % 2 = 1 := by simpa [Nat.testBit_eq_decide_div_mod_eq] using h
  obtain ⟨q, hq⟩ : ∃ q, n / 2 ^ k = 2 * q + 1 := ⟨n / 2 ^ k / 2, by omega⟩
  have low : n % 2 ^ k < 2 ^ k := Nat.mod_lt _ (Nat.two_pow_pos k)
  have hn : n = 2 ^ k * (2 * q + 1) + n % 2 ^ k := by rw [← hq, Nat.div_add_mod]
  have hsub : n - 2 ^ k = 2 ^ k * (2 * q) + n % 2 ^ k := by
    conv_lhs => rw [hn]
    rw [Nat.mul_add]
    omega
  conv_rhs => rw [hn]
  rw [hsub, Nat.testBit_two_pow_mul_add _ low, Nat.testBit_two_pow_mul_add _ low]
  rcases Nat.lt_trichotomy j k with below | rfl | above
  · simp [below, below.ne]
  · simp
  · obtain ⟨i, hi⟩ : ∃ i, j - k = i + 1 := ⟨j - k - 1, by omega⟩
    have half : (2 * q + 1) / 2 = q := by omega
    simp [above.not_gt, above.ne', hi, Nat.testBit_add_one, half]

/-- A number of 12 bits in two's complement reads back. -/
theorem signedOf_toBits {q : Int} (lo : -1024 ≤ q) (hi : q < 1024) : signedOf 12 (toBits 12 q) = q := by
  unfold signedOf toBits
  split <;> omega

theorem throttleValue_spec (q : Int) :
    (q ≤ 380 → throttleValue q = 256) ∧ (420 ≤ q → throttleValue q = 154) ∧
    (380 < q → q < 420 → ∃ f : Int, (throttleValue q : Int) = f ∧ 100 * (f - 1) < 256 * (480 - q) ∧
      256 * (480 - q) ≤ 100 * f) ∧ throttleValue q < 512 := by
  unfold throttleValue
  refine ⟨fun h => if_pos h, fun h => ?_, fun h k => ⟨_, rfl, ?_, ?_⟩, ?_⟩
  · rw [if_neg (by omega), if_pos h]
  · rw [if_neg (by omega), if_neg (by omega)]; omega
  · rw [if_neg (by omega), if_neg (by omega)]; omega
  · split_ifs <;> omega

/-- A field of one bit holds its level. -/
theorem State.get_eq_toNat (s : State) (a : Nat) {f : Field} (h : f.w = 1) : s.get a f = (s.getB a f).toNat := by
  have lt := f.of_lt (s.rd a)
  rw [← State.get_eq, h] at lt
  rw [State.getB]
  generalize s.get a f = n at lt ⊢
  interval_cases n <;> rfl

/-! ### One sensor -/

abbrev faultMap (s : State) : Nat := s.get Reg.THM_STATUS Fld.THM_STATUS_FAULT_MAP
abbrev sensorFaulted (s : State) : Bool := s.getB Reg.THM_STATUS Fld.THM_STATUS_SENSOR_FAULT
abbrev critical (s : State) : Bool := s.getB Reg.THM_STATUS Fld.THM_STATUS_CRIT

theorem critical_get (s : State) : s.get Reg.THM_STATUS Fld.THM_STATUS_CRIT = (critical s).toNat :=
  s.get_eq_toNat _ rfl

/-- A sensor's register after a sample. -/
def sensorShow (k : Nat) (r : Option Int) (s : State) : State :=
  match r with
  | some q => (s.put (Reg.THM_SENSOR k) Fld.THM_SENSOR_VALID 1).put (Reg.THM_SENSOR k) Fld.THM_SENSOR_TEMP (toBits 12 q)
  | none => s.put (Reg.THM_SENSOR k) Fld.THM_SENSOR_VALID 0

/-- The fault map after a sample of sensor k, the n-th in a row without a valid reading (R49). -/
def mapAfter (k : Nat) (r : Option Int) (n map : Nat) : Nat :=
  match r with
  | some _ => if map.testBit k then map - 2 ^ k else map
  | none => if n = 3 then map ||| 2 ^ k else map

/-- What a sample of sensor k leaves in THM_STATUS. -/
def sensorFault (k : Nat) (r : Option Int) (n map : Nat) (s : State) : State :=
  match r with
  | some _ => if map.testBit k then s.put Reg.THM_STATUS Fld.THM_STATUS_FAULT_MAP (map - 2 ^ k) else s
  | none =>
    if n = 3 then
      (s.put Reg.THM_STATUS Fld.THM_STATUS_FAULT_MAP (map ||| 2 ^ k)).raise Reg.THM_STATUS Fld.THM_STATUS_SENSOR_FAULT
    else s

/-- The samples in a row without a valid reading, after one of sensor k. -/
def missesAfter (k : Nat) (r : Option Int) (misses : List (Nat × Nat)) : List (Nat × Nat) :=
  match r with
  | some _ => adel k misses
  | none => aset k (min (aget 0 k misses + 1) 4) misses

theorem sensorSample_stages (k : Nat) (r : Option Int) (s : State) : sensorSample k r s =
    { sensorFault k r (aget 0 k s.power.misses + 1) (faultMap s) (sensorShow k r s) with
      power := { s.power with misses := missesAfter k r s.power.misses } } := by
  cases r with
  | none =>
    simp only [sensorSample, sensorFault, sensorShow, missesAfter]
    split <;> rfl
  | some q =>
    simp only [sensorSample, sensorFault, sensorShow, missesAfter]
    split <;> rfl

theorem sensorShow_spec (k : Nat) (r : Option Int) (s : State) :
    OnlyRegsOf [Reg.THM_SENSOR k] s (sensorShow k r s) ∧
      (sensorShow k r s).get (Reg.THM_SENSOR k) Fld.THM_SENSOR_VALID = r.isSome.toNat ∧
      ∀ q, r = some q → (sensorShow k r s).get (Reg.THM_SENSOR k) Fld.THM_SENSOR_TEMP = toBits 12 q := by
  cases r with
  | none => exact ⟨s.put_onlyRegsOf _ _ _, s.get_put_same _ Fld.THM_SENSOR_VALID (by decide) 0, fun q h => nomatch h⟩
  | some q =>
    refine ⟨(s.put_onlyRegsOf _ _ _).trans (State.put_onlyRegsOf _ _ _ _), ?_, ?_⟩
    · exact (State.get_put_apart _ _ (f := Fld.THM_SENSOR_TEMP) (by decide) (by decide) _).trans
        (s.get_put_same _ Fld.THM_SENSOR_VALID (by decide) 1)
    · intro _ hq
      cases hq
      refine (State.get_put_same _ _ Fld.THM_SENSOR_TEMP (by decide) _).trans (Nat.mod_eq_of_lt ?_)
      unfold toBits
      simp only [Fld.THM_SENSOR_TEMP]
      omega

theorem mapAfter_lt {k map : Nat} (hk : k < 16) (hm : map < 2 ^ 16) (r : Option Int) (n : Nat) :
    mapAfter k r n map < 2 ^ 16 := by
  cases r with
  | none =>
    simp only [mapAfter]
    split
    · exact Nat.or_lt_two_pow hm (Nat.pow_lt_pow_right (by decide) hk)
    · exact hm
  | some q =>
    simp only [mapAfter]
    split
    · exact (Nat.sub_le _ _).trans_lt hm
    · exact hm

/-- A sample moves the bit of its own sensor alone. -/
theorem mapAfter_testBit_ne {j k : Nat} (h : j ≠ k) (r : Option Int) (n map : Nat) :
    (mapAfter k r n map).testBit j = map.testBit j := by
  cases r with
  | none =>
    simp only [mapAfter]
    split
    · rw [Nat.testBit_or, Nat.testBit_two_pow_of_ne h.symm, Bool.or_false]
    · rfl
  | some q =>
    simp only [mapAfter]
    split
    · next hb => simp [testBit_sub_two_pow hb, h]
    · rfl

theorem mapAfter_testBit_same (k : Nat) (r : Option Int) (n map : Nat) :
    (mapAfter k r n map).testBit k = if r.isSome then false else if n = 3 then true else map.testBit k := by
  cases r with
  | none =>
    simp only [mapAfter, Option.isSome_none, Bool.false_eq_true, if_false]
    split
    · rw [Nat.testBit_or, Nat.testBit_two_pow_self, Bool.or_true]
    · rfl
  | some q =>
    simp only [mapAfter, Option.isSome_some, if_true]
    split
    · next hb => simp [testBit_sub_two_pow hb]
    · next hb => simpa using hb

theorem sensorFault_spec {k : Nat} (hk : k < 16) (r : Option Int) (n : Nat) {s : State} {map : Nat}
    (hm : map = faultMap s) :
    let t := sensorFault k r n map s
    OnlyRegsOf [Reg.THM_STATUS] s t ∧ critical t = critical s ∧ faultMap t = mapAfter k r n map ∧
      sensorFaulted t = if r = none ∧ n = 3 then true else sensorFaulted s := by
  have lt : map < 2 ^ 16 := hm ▸ Field.of_lt Fld.THM_STATUS_FAULT_MAP (s.rd Reg.THM_STATUS)
  have written (v : Nat) (hv : v < 2 ^ 16) :
      faultMap (s.put Reg.THM_STATUS Fld.THM_STATUS_FAULT_MAP v) = v :=
    (s.get_put_same _ Fld.THM_STATUS_FAULT_MAP (by decide) v).trans (Nat.mod_eq_of_lt hv)
  have apart {f : Field} (hf : f.Apart Fld.THM_STATUS_FAULT_MAP) (v : Nat) :
      (s.put Reg.THM_STATUS Fld.THM_STATUS_FAULT_MAP v).getB Reg.THM_STATUS f = s.getB Reg.THM_STATUS f :=
    congrArg (· != 0) (s.get_put_apart _ (f := Fld.THM_STATUS_FAULT_MAP) (by decide) hf v)
  have after := mapAfter_lt hk lt r n
  cases r with
  | none =>
    simp only [sensorFault, mapAfter, true_and] at after ⊢
    split
    · next h3 =>
      rw [if_pos h3] at after
      have raised {f : Field} (hf : f.Apart Fld.THM_STATUS_SENSOR_FAULT) (t : State) :
          (t.raise Reg.THM_STATUS Fld.THM_STATUS_SENSOR_FAULT).get Reg.THM_STATUS f = t.get Reg.THM_STATUS f :=
        t.get_raise_apart _ (by decide) hf
      refine ⟨(s.put_onlyRegsOf _ _ _).trans (State.put_onlyRegsOf _ _ _ _), ?_, ?_, ?_⟩
      · exact (congrArg (· != 0) (raised (by decide) _)).trans (apart (by decide) _)
      · exact (raised (by decide) _).trans (written _ after)
      · rw [sensorFaulted, State.getB, State.get_raise_same _ _ _ (by decide) rfl]; rfl
    · exact ⟨.refl _ s, rfl, hm.symm, rfl⟩
  | some q =>
    simp only [sensorFault, mapAfter, reduceCtorEq, false_and, if_false] at after ⊢
    split
    · next hb =>
      rw [if_pos hb] at after
      exact ⟨s.put_onlyRegsOf _ _ _, apart (by decide) _, written _ after, apart (by decide) _⟩
    · exact ⟨.refl _ s, rfl, hm.symm, rfl⟩

/-! ### The sensors in turn -/

/-- From s to t samples of sensors have been taken: of the registers theirs and THM_STATUS have changed alone, which
keeps CRIT, and of the rest the runs of misses alone. -/
structure Sampling (s t : State) : Prop where
  only : t = { s with regs := t.regs, power := { s.power with misses := t.power.misses } }
  regs : ∀ a, a ≠ Reg.THM_STATUS → (∀ k < 16, a ≠ Reg.THM_SENSOR k) → t.rd a = s.rd a
  crit : critical t = critical s
  fault : sensorFaulted s = true → sensorFaulted t = true

theorem Sampling.trans {s t u : State} (h : Sampling s t) (k : Sampling t u) : Sampling s u where
  only := by rw [k.only, h.only]
  regs a ha hk := (k.regs a ha hk).trans (h.regs a ha hk)
  crit := k.crit.trans h.crit
  fault hf := k.fault (h.fault hf)

/-- What the part knows of sensor k. -/
def sensorView (k : Nat) (s : State) : Word × Bool × Nat :=
  (s.rd (Reg.THM_SENSOR k), (faultMap s).testBit k, aget 0 k s.power.misses)

/-- What a sample of sensor k, whose reading is r, leaves in t. -/
structure Sampled (k : Nat) (r : Option Int) (s t : State) : Prop where
  valid : t.get (Reg.THM_SENSOR k) Fld.THM_SENSOR_VALID = r.isSome.toNat
  temp : ∀ q, r = some q → t.get (Reg.THM_SENSOR k) Fld.THM_SENSOR_TEMP = toBits 12 q
  map : (faultMap t).testBit k =
    if r.isSome then false else if aget 0 k s.power.misses = 2 then true else (faultMap s).testBit k
  fault : r = none → aget 0 k s.power.misses = 2 → sensorFaulted t = true

theorem Sampled.of_view {k : Nat} {r : Option Int} {s s' t t' : State} (h : Sampled k r s t)
    (before : sensorView k s' = sensorView k s) (after : sensorView k t' = sensorView k t)
    (fault : sensorFaulted t = true → sensorFaulted t' = true) : Sampled k r s' t' := by
  simp only [sensorView, Prod.mk.injEq] at before after
  obtain ⟨-, map, misses⟩ := before
  obtain ⟨reg, map', -⟩ := after
  constructor
  · rw [State.get_of_rd reg, h.valid]
  · intro q hq; rw [State.get_of_rd reg, h.temp q hq]
  · rw [map', h.map, map, misses]
  · intro hr hn; exact fault (h.fault hr (misses ▸ hn))

theorem sensorSample_spec {k : Nat} (hk : k < 16) (r : Option Int) (s : State) :
    Sampling s (sensorSample k r s) ∧ Sampled k r s (sensorSample k r s) ∧
      ∀ j < 16, j ≠ k → sensorView j (sensorSample k r s) = sensorView j s := by
  have apart (j : Nat) (hj : j < 16) : Reg.THM_SENSOR j ≠ Reg.THM_STATUS := by
    simp only [Reg.THM_SENSOR, Reg.THM_STATUS]; omega
  obtain ⟨showOnly, valid, temp⟩ := sensorShow_spec k r s
  have status : (sensorShow k r s).rd Reg.THM_STATUS = s.rd Reg.THM_STATUS :=
    showOnly.2 _ (by simpa using (apart k hk).symm)
  have map0 : faultMap (sensorShow k r s) = faultMap s := State.get_of_rd status _
  obtain ⟨faultOnly, crit, map, fault⟩ := sensorFault_spec hk r (aget 0 k s.power.misses + 1) map0.symm
  rw [sensorSample_stages]
  generalize ht : sensorFault k r (aget 0 k s.power.misses + 1) (faultMap s) (sensorShow k r s) = t at *
  have sensor (j : Nat) (hj : j < 16) : t.rd (Reg.THM_SENSOR j) = (sensorShow k r s).rd (Reg.THM_SENSOR j) :=
    faultOnly.2 _ (by simpa using apart j hj)
  have three : aget 0 k s.power.misses + 1 = 3 ↔ aget 0 k s.power.misses = 2 := by omega
  refine ⟨⟨?_, fun a ha hs => ?_, crit.trans (State.getB_of_rd status _), fun h => ?_⟩, ⟨?_, ?_, ?_, ?_⟩, ?_⟩
  · rw [faultOnly.1, showOnly.1]
  · exact (faultOnly.2 a (by simpa using ha)).trans (showOnly.2 a (by simpa using hs k hk))
  · refine fault.trans ?_
    split
    · rfl
    · exact (State.getB_of_rd status _).trans h
  · exact (State.get_of_rd (sensor k hk) _).trans valid
  · exact fun q hq => (State.get_of_rd (sensor k hk) _).trans (temp q hq)
  · refine (congrArg (·.testBit k) map).trans ((mapAfter_testBit_same k r _ _).trans ?_)
    simp only [three]
  · exact fun hr hn => fault.trans (if_pos ⟨hr, three.2 hn⟩)
  · intro j hj hjk
    have reg : t.rd (Reg.THM_SENSOR j) = s.rd (Reg.THM_SENSOR j) :=
      (sensor j hj).trans (showOnly.2 _ (by simp only [List.mem_singleton, Reg.THM_SENSOR]; omega))
    have misses : aget 0 j (missesAfter k r s.power.misses) = aget 0 j s.power.misses := by
      cases r with
      | none => exact aget_aset_ne 0 hjk _ _
      | some q => exact aget_adel_ne 0 hjk _
    have bit : (faultMap t).testBit j = (faultMap s).testBit j :=
      (congrArg (·.testBit j) map).trans (mapAfter_testBit_ne hjk r _ _)
    exact Prod.ext reg (Prod.ext bit misses)

/-- The sensors from k on are sampled each with its own reading; the sensors before keep what the part knows of them. -/
theorem sensorsSample_spec (rs : List (Option Int)) {k : Nat} (hk : k + rs.length ≤ 16) (s : State) :
    Sampling s (sensorsSample k rs s) ∧ (∀ j < k, sensorView j (sensorsSample k rs s) = sensorView j s) ∧
      ∀ i < rs.length, Sampled (k + i) (rs.getD i none) s (sensorsSample k rs s) := by
  induction rs generalizing k s with
  | nil => exact ⟨⟨rfl, fun _ _ _ => rfl, rfl, id⟩, fun _ _ => rfl, fun i hi => nomatch hi⟩
  | cons r rs ih =>
    simp only [List.length_cons] at hk ⊢
    obtain ⟨one, own, others⟩ := sensorSample_spec (by omega : k < 16) r s
    obtain ⟨rest, before, after⟩ := ih (k := k + 1) (by omega) (sensorSample k r s)
    refine ⟨one.trans rest, fun j hj => (before j (by omega)).trans (others j (by omega) (by omega)), fun i hi => ?_⟩
    cases i with
    | zero => exact own.of_view rfl (before k (by omega)) rest.fault
    | succ i =>
      have h := after i (by omega)
      rw [Nat.add_right_comm] at h
      exact h.of_view (others (k + i + 1) (by omega) (by omega)).symm rfl id

/-! ### THERM_CRIT_N and SMB_ALERT_N -/

/-- CRIT after a sample, and what THERM_CRIT_N shows of it (R48). -/
def critAfter (crit : Bool) (readings : List Int) : Bool :=
  if !crit && readings.any (fun q => decide (440 ≤ q)) then true
  else if crit && readings.all (fun q => decide (q < 400)) then false else crit

def critPins (crit : Bool) (readings : List Int) : List Output :=
  if critAfter crit readings = crit then [] else [.pin "THERM_CRIT_N" crit]

theorem critUpdate_spec (readings : List Int) (s : State) :
    let t := critUpdate readings s
    critical t = critAfter (critical s) readings ∧ t.out = critPins (critical s) readings ++ s.out ∧
      t = { s with regs := t.regs, out := t.out } ∧ SameRegsBut [Reg.THM_STATUS] s t ∧
      ∀ f : Field, f.Apart Fld.THM_STATUS_CRIT → t.get Reg.THM_STATUS f = s.get Reg.THM_STATUS f := by
  have raised : critical (s.raise Reg.THM_STATUS Fld.THM_STATUS_CRIT) = true := by
    rw [critical, State.getB, State.get_raise_same _ _ _ (by decide) rfl]; rfl
  have cleared : critical (s.put Reg.THM_STATUS Fld.THM_STATUS_CRIT 0) = false := by
    rw [critical, State.getB, State.get_put_same _ _ _ (by decide)]; rfl
  have frame (v : Nat) : SameRegsBut [Reg.THM_STATUS] s (s.put Reg.THM_STATUS Fld.THM_STATUS_CRIT v) ∧
      ∀ f : Field, f.Apart Fld.THM_STATUS_CRIT →
        (s.put Reg.THM_STATUS Fld.THM_STATUS_CRIT v).get Reg.THM_STATUS f = s.get Reg.THM_STATUS f :=
    ⟨(s.put_onlyRegsOf _ _ v).2, fun f hf => s.get_put_apart _ (by decide) hf v⟩
  unfold critUpdate critPins critAfter critical at *
  cases hc : s.getB Reg.THM_STATUS Fld.THM_STATUS_CRIT with
  | false =>
    cases ha : readings.any fun q => decide (440 ≤ q) with
    | false => exact ⟨hc, rfl, rfl, fun _ _ => rfl, fun _ _ => rfl⟩
    | true => exact ⟨raised, rfl, rfl, frame _⟩
  | true =>
    cases ha : readings.all fun q => decide (q < 400) with
    | false => exact ⟨hc, rfl, rfl, fun _ _ => rfl, fun _ _ => rfl⟩
    | true => exact ⟨cleared, rfl, rfl, frame _⟩

theorem smbAlert_of {s t : State} (crit : critical t = critical s) (fault : sensorFaulted t = sensorFaulted s)
    (boot : t.rd Reg.BOOT_STATUS = s.rd Reg.BOOT_STATUS) : smbAlert t = smbAlert s := by
  rw [smbAlert, smbAlert, State.get_of_rd boot]
  exact congrArg₂ (fun a b => a || b || _) crit fault

/-- SMB_ALERT_N goes where it has to, and shows where it went (R449). -/
theorem alertShow_spec (s : State) :
    (alertShow s).power = { s.power with smbLow := smbAlert s } ∧ (alertShow s).out = AlertPin s s ++ s.out ∧
      (alertShow s).regs = s.regs ∧ (alertShow s).mem = s.mem := by
  unfold alertShow setSmb AlertPin
  split
  · next h => exact ⟨by rw [← h], rfl, rfl, rfl⟩
  · exact ⟨rfl, rfl, rfl, rfl⟩

/-! ### F of the stations -/

theorem OnlyRegs.trans {s t u : State} (h : OnlyRegs s t) (k : OnlyRegs t u) : OnlyRegs s u := by
  rw [OnlyRegs, k, h]

/-- F of a station after a sample (R45, R48, R49): 154 where it is `hot`, or as its reading says, or as it was. -/
def throttleFrom (hot : Bool) (r : Option Int) (f : Nat) : Nat :=
  if hot then 154
  else match r with
    | some q => throttleValue q
    | none => f

def throttleAfter (st : Nat) (r : Option Int) (s : State) : Nat :=
  throttleFrom (critical s || (faultMap s).testBit st) r (throttleOf s st)

theorem throttleStation_spec (st : Nat) (r : Option Int) (s : State) :
    OnlyRegsOf [Reg.THM_THROTTLE st] s (throttleStation st r s) ∧
      throttleOf (throttleStation st r s) st = throttleAfter st r s := by
  have put {v : Nat} (hv : v < 512) : throttleOf (s.put (Reg.THM_THROTTLE st) Fld.THM_THROTTLE_F v) st = v :=
    (s.get_put_same _ Fld.THM_THROTTLE_F (by decide) v).trans (Nat.mod_eq_of_lt hv)
  unfold throttleStation throttleAfter throttleFrom
  dsimp only
  split
  · exact ⟨s.put_onlyRegsOf _ _ _, put (by decide)⟩
  · cases r with
    | none => exact ⟨.refl _ s, rfl⟩
    | some q => exact ⟨s.put_onlyRegsOf _ _ _, put (throttleValue_spec q).2.2.2⟩

/-- Of the registers, the stations from `st` on write their own F alone. -/
theorem throttleAll_frame (rs : List (Option Int)) (st : Nat) (s : State) : OnlyRegs s (throttleAll st rs s) ∧
    ∀ a, (∀ k, st ≤ k → k < st + rs.length → a ≠ Reg.THM_THROTTLE k) → (throttleAll st rs s).rd a = s.rd a := by
  induction rs generalizing st s with
  | nil => exact ⟨rfl, fun _ _ => rfl⟩
  | cons r rs ih =>
    obtain ⟨one, -⟩ := throttleStation_spec st r s
    obtain ⟨only, rd⟩ := ih (st + 1) (throttleStation st r s)
    simp only [List.length_cons]
    exact ⟨one.1.trans only, fun a ha => (rd a fun k hk hl => ha k (by omega) (by omega)).trans
      (one.2 a (by simpa using ha st le_rfl (by omega)))⟩

theorem throttleAll_throttleOf (rs : List (Option Int)) (st i : Nat) (hi : i < rs.length) (s : State) :
    throttleOf (throttleAll st rs s) (st + i) = throttleAfter (st + i) (rs.getD i none) s := by
  have other {j k : Nat} (h : j ≠ k) : Reg.THM_THROTTLE j ≠ Reg.THM_THROTTLE k := by
    simp only [Reg.THM_THROTTLE]; omega
  induction rs generalizing st i s with
  | nil => cases hi
  | cons r rs ih =>
    obtain ⟨one, own⟩ := throttleStation_spec st r s
    cases i with
    | zero =>
      exact (State.get_of_rd ((throttleAll_frame rs (st + 1) _).2 _ fun k hk _ => other (by omega)) _).trans own
    | succ i =>
      have status : (throttleStation st r s).rd Reg.THM_STATUS = s.rd Reg.THM_STATUS :=
        one.2 _ (by simp only [List.mem_singleton, Reg.THM_THROTTLE, Reg.THM_STATUS]; omega)
      have f : throttleOf (throttleStation st r s) (st + i + 1) = throttleOf s (st + i + 1) :=
        State.get_of_rd (one.2 _ (by simpa using other (by omega))) _
      have h := ih (st + 1) i (by simpa using hi) (throttleStation st r s)
      rw [Nat.add_right_comm] at h
      rw [throttleAll, ← Nat.add_assoc, h]
      simp only [throttleAfter, critical, faultMap, State.getB_of_rd status, State.get_of_rd status, f]
      rfl

/-! ### The whole sample -/

/-- What a thermal sample of sixteen readings leaves. -/
structure Thermal (r : List (Option Int)) (s t : State) : Prop where
  sensors : ∀ k < 16, Sampled k (r.getD k none) s t
  crit : critical t = critAfter (critical s) (r.filterMap id)
  out : t.out = AlertPin s t ++ (critPins (critical s) (r.filterMap id) ++ s.out)
  alert : t.power.smbLow = smbAlert t
  throttle : ∀ st < 12, throttleOf t st =
    throttleFrom (critical t || (faultMap t).testBit st) (r.getD st none) (throttleOf s st)
  mem : SameMem s t

/-- The stages of a sample of sixteen readings. -/
def thermalSampled (r : List (Option Int)) (s : State) : State :=
  throttleAll 0 (r.take 12) (alertShow (critUpdate (r.filterMap id) (sensorsSample 0 r s)))

theorem exec_thermalSample {s : State} (hs : s.running) {r : List (Option Int)} (h : r.length = 16) :
    ∃ v, exec (.thermalSample r) s = .next ((thermalSampled r s).putB Reg.THM_STATUS Fld.THM_STATUS_THROTTLING v) := by
  have all : (r ++ List.replicate 16 none).take 16 = r := List.take_left' h
  refine ⟨(List.range 12).any fun st => decide (throttleOf (thermalSampled r s) st < 256), ?_⟩
  have unfolded : exec (.thermalSample r) s = execThermalSample r s := rfl
  rw [unfolded, execThermalSample, act_running hs]
  dsimp only
  rw [all]
  rfl

/-- THERM_CRIT_N and SMB_ALERT_N follow the sensors and change nothing that the sensors show. -/
theorem alertShow_critUpdate_spec (readings : List Int) (s : State) :
    let t := alertShow (critUpdate readings s)
    critical t = critAfter (critical s) readings ∧ faultMap t = faultMap s ∧ sensorFaulted t = sensorFaulted s ∧
      SameRegsBut [Reg.THM_STATUS] s t ∧ t.power = { s.power with smbLow := smbAlert t } ∧ t.mem = s.mem ∧
      t.out = AlertPin s t ++ (critPins (critical s) readings ++ s.out) := by
  obtain ⟨crit, out, only, regs, fields⟩ := critUpdate_spec readings s
  generalize critUpdate readings s = u at *
  obtain ⟨power, shown, regs', mem⟩ := alertShow_spec u
  have same : smbAlert (alertShow u) = smbAlert u :=
    smbAlert_of (State.getB_of_regs regs' _ _) (State.getB_of_regs regs' _ _) (State.rd_of_regs regs' _)
  have powered : u.power = s.power := (congrArg State.power only :)
  refine ⟨(State.getB_of_regs regs' _ _).trans crit, (State.get_of_regs regs' _ _).trans (fields _ (by decide)),
    (State.getB_of_regs regs' _ _).trans (congrArg (· != 0) (fields _ (by decide))),
    fun a ha => (State.rd_of_regs regs' a).trans (regs a ha), ?_, mem.trans (congrArg State.mem only :), ?_⟩
  · rw [power, same, powered]
  · rw [shown, out, AlertPin, AlertPin, same, powered]

/-- Every station takes its F, and THROTTLING shows it: of what the sensors show nothing changes. -/
theorem throttleAll_putB_spec {r : List (Option Int)} (h : r.length = 16) (v : Bool) (s : State) :
    let t := (throttleAll 0 (r.take 12) s).putB Reg.THM_STATUS Fld.THM_STATUS_THROTTLING v
    critical t = critical s ∧ faultMap t = faultMap s ∧ sensorFaulted t = sensorFaulted s ∧ OnlyRegs s t ∧
      (∀ a, a ≠ Reg.THM_STATUS → (∀ k < 12, a ≠ Reg.THM_THROTTLE k) → t.rd a = s.rd a) ∧
      ∀ st < 12, throttleOf t st = throttleAfter st (r.getD st none) s := by
  have length : (r.take 12).length = 12 := by simp [h]
  obtain ⟨only, frame⟩ := throttleAll_frame (r.take 12) 0 s
  rw [length] at frame
  have throttled (st : Nat) (hst : st < 12) := throttleAll_throttleOf (r.take 12) 0 st (by omega) s
  generalize throttleAll 0 (r.take 12) s = x at *
  have field {f : Field} (hf : f.Apart Fld.THM_STATUS_THROTTLING) :
      (x.putB Reg.THM_STATUS Fld.THM_STATUS_THROTTLING v).get Reg.THM_STATUS f = s.get Reg.THM_STATUS f :=
    (x.get_put_apart _ (by decide) hf _).trans (State.get_of_rd
      (frame _ fun k _ _ => by simp only [Reg.THM_THROTTLE, Reg.THM_STATUS]; omega) f)
  have other {a : Nat} (ha : a ≠ Reg.THM_STATUS) : (x.putB Reg.THM_STATUS Fld.THM_STATUS_THROTTLING v).rd a = x.rd a :=
    x.rd_put_ne ha _ _
  refine ⟨congrArg (· != 0) (field (by decide)), field (by decide), congrArg (· != 0) (field (by decide)), ?_,
    fun a ha apart => (other ha).trans (frame a fun k _ hk => apart k (by omega)), fun st hst => ?_⟩
  · exact only.trans rfl
  · have h := throttled st hst
    rw [Nat.zero_add] at h
    refine (State.get_of_rd (other ?_) _).trans (h.trans ?_)
    · simp only [Reg.THM_THROTTLE, Reg.THM_STATUS]; omega
    · simp [List.getD_eq_getElem?_getD, hst]

theorem thermal_of_exec {s : State} (hs : s.running) {r : List (Option Int)} (h : r.length = 16) :
    Answers (.thermalSample r) s (Thermal r s) := by
  obtain ⟨v, e⟩ := exec_thermalSample hs h
  refine ⟨_, e, ?_⟩
  obtain ⟨sampling, -, sampled⟩ := sensorsSample_spec r (k := 0) (by omega) s
  obtain ⟨crit, map, fault, regs, power, mem, out⟩ := alertShow_critUpdate_spec (r.filterMap id) (sensorsSample 0 r s)
  unfold thermalSampled
  generalize sensorsSample 0 r s = u at *
  generalize alertShow (critUpdate (r.filterMap id) u) = w at *
  obtain ⟨crit', map', fault', only, rd, throttled⟩ := throttleAll_putB_spec h v w
  generalize (throttleAll 0 (r.take 12) w).putB Reg.THM_STATUS Fld.THM_STATUS_THROTTLING v = t at *
  have same : smbAlert t = smbAlert w := smbAlert_of crit' fault'
    (rd _ (by decide) fun k hk => by simp only [Reg.BOOT_STATUS, Reg.THM_THROTTLE]; omega)
  have power' : t.power = w.power := (congrArg State.power only :)
  have out' : t.out = w.out := (congrArg State.out only :)
  have mem' : t.mem = w.mem := (congrArg State.mem only :)
  have powered : u.power = { s.power with misses := u.power.misses } := (congrArg State.power sampling.only :)
  have sent : u.out = s.out := (congrArg State.out sampling.only :)
  constructor
  · intro k hk
    have reg : t.rd (Reg.THM_SENSOR k) = u.rd (Reg.THM_SENSOR k) :=
      (rd _ (by simp only [Reg.THM_SENSOR, Reg.THM_STATUS]; omega)
        fun j hj => by simp only [Reg.THM_SENSOR, Reg.THM_THROTTLE]; omega).trans
        (regs _ (by simp only [List.mem_singleton, Reg.THM_SENSOR, Reg.THM_STATUS]; omega))
    have own := sampled k (by omega)
    rw [Nat.zero_add] at own
    refine own.of_view rfl ?_ fun f => fault'.trans (fault.trans f)
    rw [sensorView, sensorView, reg, map', map, power', power]
  · rw [crit', crit, sampling.crit]
  · rw [out', out, AlertPin, AlertPin, same, sampling.crit, powered, sent]
  · rw [power', power, same]
  · intro st hst
    have f : throttleOf w st = throttleOf s st := State.get_of_rd
      ((regs _ (by simp only [List.mem_singleton, Reg.THM_THROTTLE, Reg.THM_STATUS]; omega)).trans
        (sampling.regs _ (by simp only [Reg.THM_THROTTLE, Reg.THM_STATUS]; omega)
          fun k hk => by simp only [Reg.THM_SENSOR, Reg.THM_THROTTLE]; omega)) _
    rw [throttled st hst, throttleAfter, crit', map', f]
  · have kept : t.mem = s.mem := mem'.trans (mem.trans (congrArg State.mem sampling.only :))
    exact fun a => by rw [kept]

/-! ### Obligation O10 -/

theorem critAfter_false (q : List Int) : critAfter false q = true ↔ ∃ x ∈ q, 440 ≤ x := by simp [critAfter]

theorem critAfter_true (q : List Int) : critAfter true q = true ↔ ∃ x ∈ q, 400 ≤ x := by simp [critAfter]

/-- At THERM_CRIT_N every station has F = 154. -/
theorem Thermal.throttle_of_critical {r : List (Option Int)} {s t : State} (h : Thermal r s t) (hc : critical t = true)
    {st : Nat} (hst : st < 12) : throttleOf t st = 154 := by
  rw [h.throttle st hst, hc]
  rfl

/-- Without it and without a fault of its sensor, a station's F is that of its reading. -/
theorem Thermal.throttle_of_reading {r : List (Option Int)} {s t : State} (h : Thermal r s t) (hc : critical t = false)
    {st : Nat} (hst : st < 12) {q : Int} (hq : r.getD st none = some q) : throttleOf t st = throttleValue q := by
  have map := (h.sensors st (by omega)).map
  rw [hq] at map
  rw [h.throttle st hst, hc, hq, map]
  rfl

theorem getD_map_some {q : List Int} {k : Nat} (hk : k < q.length) : (q.map some).getD k none = some (q.getD k 0) := by
  simp [List.getD_eq_getElem?_getD, hk]

/-- THERMAL_SAMPLE with a valid reading of every sensor, THERM_CRIT_N released. -/
theorem thermalSample_valid {s : State} {q : List Int} (hs : s.running) (hl : q.length = 16)
    (range : ∀ x ∈ q, -1024 ≤ x ∧ x < 1024) (crit : critical s = false) :
    Answers (.thermalSample (q.map some)) s fun t =>
      (∀ k < 16, t.get (Reg.THM_SENSOR k) Fld.THM_SENSOR_VALID = 1 ∧
        signedOf 12 (t.get (Reg.THM_SENSOR k) Fld.THM_SENSOR_TEMP) = q.getD k 0) ∧
      t.power.smbLow = smbAlert t ∧
      ((∃ x ∈ q, 440 ≤ x) → t.get Reg.THM_STATUS Fld.THM_STATUS_CRIT = 1 ∧ smbAlert t = true ∧
        t.out = AlertPin s t ++ .pin "THERM_CRIT_N" false :: s.out ∧ ∀ st < 12, throttleOf t st = 154) ∧
      ((∀ x ∈ q, x < 440) → t.get Reg.THM_STATUS Fld.THM_STATUS_CRIT = 0 ∧ t.out = AlertPin s t ++ s.out ∧
        ∀ st < 12, throttleOf t st = throttleValue (q.getD st 0)) ∧
      SameMem s t := by
  obtain ⟨t, e, h⟩ := thermal_of_exec hs (r := q.map some) (by simpa using hl)
  have readings : (q.map some).filterMap id = q := by simp
  have crit' := h.crit
  have out := h.out
  rw [readings, crit] at crit' out
  refine ⟨t, e, fun k hk => ?_, h.alert, fun hot => ?_, fun cool => ?_, h.mem⟩
  · have own := h.sensors k hk
    rw [getD_map_some (by omega)] at own
    obtain ⟨lo, hi⟩ := range (q.getD k 0) (by simp [List.getD_eq_getElem?_getD, hl, hk])
    exact ⟨own.valid, by rw [own.temp _ rfl, signedOf_toBits lo hi]⟩
  · have hc : critAfter false q = true := (critAfter_false q).2 hot
    rw [hc] at crit'
    refine ⟨by rw [critical_get, crit']; rfl, by simp [smbAlert, crit'], ?_,
      fun st hst => h.throttle_of_critical crit' hst⟩
    rw [out, critPins, hc]
    rfl
  · have hc : critAfter false q = false := by
      rw [← Bool.not_eq_true, critAfter_false]
      rintro ⟨x, hx, high⟩
      have := cool x hx
      omega
    rw [hc] at crit'
    refine ⟨by rw [critical_get, crit']; rfl, ?_,
      fun st hst => h.throttle_of_reading crit' hst (getD_map_some (by omega))⟩
    rw [out, critPins, hc]
    rfl

/-- THERMAL_SAMPLE while THERM_CRIT_N is asserted (R48). -/
theorem thermalSample_critical {s : State} {q : List Int} (hs : s.running) (hl : q.length = 16)
    (crit : critical s = true) :
    Answers (.thermalSample (q.map some)) s fun t =>
      ((∀ x ∈ q, x < 400) → t.get Reg.THM_STATUS Fld.THM_STATUS_CRIT = 0 ∧
        t.out = AlertPin s t ++ .pin "THERM_CRIT_N" true :: s.out) ∧
      ((∃ x ∈ q, 400 ≤ x) → t.get Reg.THM_STATUS Fld.THM_STATUS_CRIT = 1 ∧ t.out = AlertPin s t ++ s.out ∧
        ∀ st < 12, throttleOf t st = 154) := by
  obtain ⟨t, e, h⟩ := thermal_of_exec hs (r := q.map some) (by simpa using hl)
  have readings : (q.map some).filterMap id = q := by simp
  have crit' := h.crit
  have out := h.out
  rw [readings, crit] at crit' out
  refine ⟨t, e, fun cool => ?_, fun hot => ?_⟩
  · have hc : critAfter true q = false := by
      rw [← Bool.not_eq_true, critAfter_true]
      rintro ⟨x, hx, high⟩
      have := cool x hx
      omega
    rw [hc] at crit'
    refine ⟨by rw [critical_get, crit']; rfl, ?_⟩
    rw [out, critPins, hc]
    rfl
  · have hc : critAfter true q = true := (critAfter_true q).2 hot
    rw [hc] at crit'
    refine ⟨by rw [critical_get, crit']; rfl, ?_, fun st hst => h.throttle_of_critical crit' hst⟩
    rw [out, critPins, hc]
    rfl

/-- THERMAL_SAMPLE of one sensor among the sixteen: its fault is made by the third sample in a row without a valid
reading, and ended by a valid one (R49). -/
theorem thermalSample_sensor {s : State} {r : List (Option Int)} {k : Nat} (hs : s.running) (hl : r.length = 16)
    (hk : k < 16) :
    Answers (.thermalSample r) s fun t =>
      let n := aget 0 k s.power.misses
      let map (u : State) := (faultMap u).testBit k
      (r.getD k none = none → t.get (Reg.THM_SENSOR k) Fld.THM_SENSOR_VALID = 0) ∧
      (r.getD k none = none → n = 2 → map t = true ∧ sensorFaulted t = true ∧ (k < 12 → throttleOf t k = 154)) ∧
      (r.getD k none = none → n < 2 → map t = map s ∧
        (k < 12 → map s = false → critical t = false → throttleOf t k = throttleOf s k)) ∧
      ((r.getD k none).isSome → map t = false ∧ t.get (Reg.THM_SENSOR k) Fld.THM_SENSOR_VALID = 1) := by
  obtain ⟨t, e, h⟩ := thermal_of_exec hs hl
  have own := h.sensors k hk
  refine ⟨t, e, fun hr => ?_, fun hr hn => ?_, fun hr hn => ?_, fun hr => ?_⟩
  · rw [own.valid, hr]; rfl
  · have faulted : (faultMap t).testBit k = true := by
      rw [own.map, hr, hn]; rfl
    exact ⟨faulted, own.fault hr hn, fun h12 => by rw [h.throttle k h12, faulted, Bool.or_true]; rfl⟩
  · have kept : (faultMap t).testBit k = (faultMap s).testBit k := by
      rw [own.map, hr, if_neg (by simp), if_neg (by omega)]
    refine ⟨kept, fun h12 (hm : (faultMap s).testBit k = false) hc => ?_⟩
    rw [h.throttle k h12, kept, hm, hc, hr]
    rfl
  · exact ⟨own.map.trans (if_pos hr), by rw [own.valid, hr]; rfl⟩

/-- Settles O10: each station publishes its own pace, and a thermal sample goes through its stages. -/
theorem paceAndTemperatureAreMeasured : Obligations.PaceAndTemperatureAreMeasured := by
  unfold Obligations.PaceAndTemperatureAreMeasured
  refine ⟨fun s counts st hs hl hst => ?_, fun s q hs hl range crit _ => ?_,
    fun s q hs hl crit => thermalSample_critical hs hl crit, fun s r k hs hl hk => thermalSample_sensor hs hl hk⟩
  · obtain ⟨t, e, ⟨raw, eff, valid, count⟩, mem⟩ := paceMeasure_answers hs hl hst
    exact ⟨t, e, raw, eff, valid, count, mem⟩
  · obtain ⟨t, e, sensors, alert, hot, cool, mem⟩ := thermalSample_valid hs hl range crit
    refine ⟨t, e, sensors, alert, hot, fun h => ?_, mem⟩
    obtain ⟨crit', out, f⟩ := cool h
    refine ⟨crit', out, fun st hst => ?_⟩
    obtain ⟨low, high, between, -⟩ := throttleValue_spec (q.getD st 0)
    dsimp only
    rw [f st hst]
    exact ⟨low, high, between⟩

end Sys2Proof.Machine

/-! SUPPORT. What a station's Icehouse is to a search: its slots and lease-wait entries, the tasks that search, what the
station has sent to the FTM, the counters and events; and what each operation of a search does to it. -/
namespace Sys2Proof.Machine

/-- A station's Icehouse, as its searches see it, and the conditions under which a word of it is read and written. -/
structure IceView where
  slots : List (Nat × Slot)
  entries : List (Nat × LeaseEntry)
  tasks : List (Nat × Task)
  inbox : List FtmMsg
  count : Fin 16 → Nat
  event : Word
  now : Nat
  armed : Bool
  errors : List OdErr

def iceView (n : Nat) (s : State) : IceView where
  slots := (s.stn n).ice.slots
  entries := (s.stn n).ice.entries
  tasks := (s.stn n).tasks.slots
  inbox := aget [] n s.ftm.inbox
  count i := s.cntGet (Reg.ICE_CNT_LO n i)
  event := s.rd (Reg.ICE_EVENT n)
  now := ftmNow s
  armed := s.getB Reg.TNK_MEMINJ Fld.TNK_MEMINJ_ARM
  errors := s.tinker.errors

/-- No error is held, and none is armed. -/
def IceView.Clean (v : IceView) : Prop := v.armed = false ∧ v.errors = []

/-- One more in a counter. -/
def IceView.bump (i : Fin 16) (v : IceView) : IceView :=
  { v with count := Function.update v.count i ((v.count i + 1) % 2 ^ 48) }

theorem IceView.count_bump_same (i : Fin 16) (v : IceView) : (v.bump i).count i = (v.count i + 1) % 2 ^ 48 :=
  Function.update_self ..

theorem IceView.count_bump_ne {i j : Fin 16} (h : j ≠ i) (v : IceView) : (v.bump i).count j = v.count j :=
  Function.update_of_ne h ..

/-! ### What is apart from it -/

/-- A register that is none of the Icehouse's counters, its event register, FTM_NOW or TNK_MEMINJ. -/
def IceApart (n a : Nat) : Prop :=
  a ≠ Reg.FTM_NOW ∧ a ≠ Reg.TNK_MEMINJ ∧ a ≠ Reg.ICE_EVENT n ∧
    ∀ i : Fin 16, a ≠ Reg.ICE_CNT_LO n i ∧ a ≠ Reg.ICE_CNT_LO n i + 4

theorem iceView_of_rd {n : Nat} {s t : State} (stations : t.stn n = s.stn n) (ftm : t.ftm = s.ftm)
    (errors : t.tinker.errors = s.tinker.errors) (rd : ∀ a, ¬ IceApart n a → t.rd a = s.rd a) :
    iceView n t = iceView n s := by
  have count : (fun i : Fin 16 => t.cntGet (Reg.ICE_CNT_LO n i)) = fun i : Fin 16 => s.cntGet (Reg.ICE_CNT_LO n i) :=
    funext fun i => State.cntGet_of_rd (rd _ fun h => (h.2.2.2 i).1 rfl) (rd _ fun h => (h.2.2.2 i).2 rfl)
  have event := rd (Reg.ICE_EVENT n) fun h => h.2.2.1 rfl
  have now : ftmNow t = ftmNow s := congrArg BitVec.toNat (rd Reg.FTM_NOW fun h => h.1 rfl)
  have armed := State.getB_of_rd (rd Reg.TNK_MEMINJ fun h => h.2.1 rfl) Fld.TNK_MEMINJ_ARM
  simp only [iceView, stations, ftm, errors, count, event, now, armed]

theorem iceView_wr {n a : Nat} (h : IceApart n a) (s : State) (v : Word) : iceView n (s.wr a v) = iceView n s :=
  iceView_of_rd rfl rfl rfl fun _ hb => s.rd_wr_ne (fun e => by rw [e] at hb; exact hb h) v

theorem iceView_cnt {n a : Nat} (lo : IceApart n a) (hi : IceApart n (a + 4)) (s : State) (m : Nat) :
    iceView n (s.cnt a m) = iceView n s := by
  unfold State.cnt State.cntSet
  split
  · rfl
  · exact (iceView_wr hi _ _).trans (iceView_wr lo _ _)

/-- A register of the station outside the Icehouse's counters and events. -/
theorem iceApart_of_offset (n : Nat) {a o : Nat} (ha : a = stationBase n + o) (event : o ≠ 0x18000c)
    (out : o < 0x180100 ∨ 0x180180 ≤ o) : IceApart n a := by
  refine ⟨?_, ?_, ?_, fun i => ⟨?_, ?_⟩⟩ <;>
    simp only [Reg.FTM_NOW, Reg.TNK_MEMINJ, Reg.ICE_EVENT, Reg.ICE_CNT_LO, stationBase] at * <;> omega

theorem iceApart_evLo (n : Nat) {k : Nat} (hk : k < 48) :
    IceApart n (Reg.STN_EV_LO n k) ∧ IceApart n (Reg.STN_EV_LO n k + 4) :=
  ⟨iceApart_of_offset n (Nat.add_assoc ..) (by omega) (by omega),
    iceApart_of_offset n (o := 0x3000 + k * 8 + 4) (by rw [Reg.STN_EV_LO]; omega) (by omega) (by omega)⟩

theorem iceApart_evOvf (n : Nat) {w : Nat} (hw : w < 2) : IceApart n (Reg.STN_EV_OVF n w) :=
  iceApart_of_offset n (Nat.add_assoc ..) (by omega) (by omega)

theorem iceView_evAdd (n m : Nat) {k : Nat} (hk : k < 48) (dump : Bool) (s : State) :
    iceView n (evAdd n k m dump s) = iceView n s := by
  obtain ⟨lo, hi⟩ := iceApart_evLo n hk
  have added (v : Nat) : iceView n (s.cntSet (Reg.STN_EV_LO n k) v) = iceView n s :=
    (iceView_wr hi _ _).trans (iceView_wr lo _ _)
  unfold evAdd
  dsimp only
  split
  · exact added _
  · have flagged (t : State) (v : Word) : iceView n (t.wr (Reg.STN_EV_OVF n (k / 32)) v) = iceView n t :=
      iceView_wr (iceApart_evOvf n (by omega)) t v
    split <;> exact (flagged _ _).trans (added _)

theorem iceView_foldl {α : Type} {n : Nat} {f : State → α → State} (h : ∀ s x, iceView n (f s x) = iceView n s)
    (l : List α) (s : State) : iceView n (l.foldl f s) = iceView n s := by
  induction l generalizing s with
  | nil => rfl
  | cons x l ih => exact (ih _).trans (h s x)

@[simp] theorem iceView_evCount (n code m : Nat) (g : Option Nat) (s : State) :
    iceView n (evCount n code m g s) = iceView n s := by
  refine iceView_foldl (fun t e => ?_) s.regs s
  dsimp only
  split
  · next h =>
    have hk : (e.1 - Reg.STN_EVSEL n 0) / 4 < 48 := by omega
    have added (hit : Bool) (dump : Bool) :
        iceView n (if hit then evAdd n ((e.1 - Reg.STN_EVSEL n 0) / 4) m dump t else t) = iceView n t := by
      split
      · exact iceView_evAdd n m hk dump t
      · rfl
    exact added _ _
  · rfl

@[simp] theorem iceView_energy (n st acc kind : Nat) (s : State) : iceView n (energy st acc kind s) = iceView n s := rfl

@[simp] theorem iceView_memEnergy (n mem st : Nat) (s : State) : iceView n (memEnergy mem st s) = iceView n s := by
  unfold memEnergy
  split <;> rfl

/-- An update of the station that leaves its slots, entries and tasks. -/
theorem iceView_modStn {n : Nat} {f : Stn → Stn} (s : State) (hs : (f (s.stn n)).ice.slots = (s.stn n).ice.slots)
    (he : (f (s.stn n)).ice.entries = (s.stn n).ice.entries) (ht : (f (s.stn n)).tasks.slots = (s.stn n).tasks.slots) :
    iceView n (s.modStn n f) = iceView n s := by
  simp only [iceView, State.stn_modStn_same, hs, he, ht]
  rfl

@[simp] theorem iceView_iceSearchSlot (n : Nat) (s : State) : iceView n (iceSearchSlot n s) = iceView n s :=
  iceView_modStn s rfl rfl rfl

@[simp] theorem iceView_modRules (n : Nat) (s : State) (f : Rules → Rules) : iceView n (s.modRules n f) = iceView n s :=
  iceView_modStn s rfl rfl rfl

theorem iceView_modTasks {n : Nat} {f : Tasks → Tasks} (h : ∀ x, (f x).slots = x.slots) (s : State) :
    iceView n (s.modTasks n f) = iceView n s :=
  iceView_modStn s rfl rfl (h _)

@[simp] theorem iceView_ruleTick (n : Nat) {k : Nat} (hk : k < 16) (s : State) :
    iceView n (s.tick (Reg.RUL_CNT_LO n k)) = iceView n s :=
  iceView_cnt (a := Reg.RUL_CNT_LO n k) (iceApart_of_offset n (Nat.add_assoc ..) (by omega) (by omega))
    (iceApart_of_offset n (o := 0x1c0100 + k * 8 + 4) (by rw [Reg.RUL_CNT_LO]; omega) (by omega) (by omega)) s 1

@[simp] theorem iceView_taskTick (n : Nat) {k : Nat} (hk : k < 16) (s : State) :
    iceView n (s.tick (Reg.TSK_CNT_LO n k)) = iceView n s :=
  iceView_cnt (a := Reg.TSK_CNT_LO n k) (iceApart_of_offset n (Nat.add_assoc ..) (by omega) (by omega))
    (iceApart_of_offset n (o := 0x280400 + k * 8 + 4) (by rw [Reg.TSK_CNT_LO]; omega) (by omega) (by omega)) s 1

@[simp] theorem iceView_ruleRaise (n : Nat) (f : Field) (s : State) :
    iceView n (s.raise (Reg.RUL_EVENT n) f) = iceView n s :=
  iceView_wr (iceApart_of_offset n (o := 0x1c0008) rfl (by decide) (by decide)) s _

@[simp] theorem iceView_ruleEnqueue (n : Nat) (r : SearchReq) (s : State) :
    iceView n (ruleEnqueue n r s) = iceView n s := by
  unfold ruleEnqueue
  dsimp only
  split
  · exact iceView_modRules n s _
  · exact (iceView_modRules n _ _).trans (iceView_ruleTick n (by decide) s)

/-! ### What changes it -/

theorem iceView_iceCnt (n : Nat) (i : Fin 16) (s : State) : iceView n (iceCnt n i s) = (iceView n s).bump i := by
  have same {a : Nat} (lo : a ≠ Reg.ICE_CNT_LO n i) (hi : a ≠ Reg.ICE_CNT_LO n i + 4) :
      (s.tick (Reg.ICE_CNT_LO n i)).rd a = s.rd a := s.rd_cnt_ne lo hi 1
  have count : (fun j : Fin 16 => (s.tick (Reg.ICE_CNT_LO n i)).cntGet (Reg.ICE_CNT_LO n j)) =
      Function.update (iceView n s).count i (((iceView n s).count i + 1) % 2 ^ 48) := by
    funext j
    by_cases e : j = i
    · subst e
      rw [Function.update_self]
      exact s.cntGet_tick _
    · rw [Function.update_of_ne e]
      have ne : (j : Nat) ≠ i := fun h => e (Fin.ext h)
      refine State.cntGet_of_rd (same ?_ ?_) (same ?_ ?_) <;> simp only [Reg.ICE_CNT_LO] <;> omega
  have event : (s.tick (Reg.ICE_CNT_LO n i)).rd (Reg.ICE_EVENT n) = s.rd (Reg.ICE_EVENT n) := by
    refine same ?_ ?_ <;> simp only [Reg.ICE_CNT_LO, Reg.ICE_EVENT] <;> omega
  have now : ftmNow (s.tick (Reg.ICE_CNT_LO n i)) = ftmNow s := by
    refine congrArg BitVec.toNat (same ?_ ?_) <;> simp only [Reg.ICE_CNT_LO, Reg.FTM_NOW, stationBase] <;> omega
  have armed : (s.tick (Reg.ICE_CNT_LO n i)).getB Reg.TNK_MEMINJ Fld.TNK_MEMINJ_ARM =
      s.getB Reg.TNK_MEMINJ Fld.TNK_MEMINJ_ARM := by
    refine State.getB_of_rd (same ?_ ?_) _ <;> simp only [Reg.ICE_CNT_LO, Reg.TNK_MEMINJ, stationBase] <;> omega
  have stn : (s.tick (Reg.ICE_CNT_LO n i)).stn n = s.stn n := by simp [State.stn]
  simp only [iceView, IceView.bump, iceCnt, count, event, now, armed, stn, State.tick_ftm, State.tick_tinker]

theorem iceView_raise (n : Nat) (f : Field) (s : State) : iceView n (s.raise (Reg.ICE_EVENT n) f) =
    { iceView n s with event := f.into (iceView n s).event (2 ^ f.w - 1) } := by
  have same {a : Nat} (h : a ≠ Reg.ICE_EVENT n) : (s.raise (Reg.ICE_EVENT n) f).rd a = s.rd a := s.rd_put_ne h _ _
  have count : (fun j : Fin 16 => (s.raise (Reg.ICE_EVENT n) f).cntGet (Reg.ICE_CNT_LO n j)) =
      fun j : Fin 16 => s.cntGet (Reg.ICE_CNT_LO n j) := by
    funext j
    refine State.cntGet_of_rd (same ?_) (same ?_) <;> simp only [Reg.ICE_CNT_LO, Reg.ICE_EVENT] <;> omega
  have now : ftmNow (s.raise (Reg.ICE_EVENT n) f) = ftmNow s :=
    congrArg BitVec.toNat (same (by simp only [Reg.ICE_EVENT, Reg.FTM_NOW, stationBase]; omega))
  have armed : (s.raise (Reg.ICE_EVENT n) f).getB Reg.TNK_MEMINJ Fld.TNK_MEMINJ_ARM =
      s.getB Reg.TNK_MEMINJ Fld.TNK_MEMINJ_ARM :=
    State.getB_of_rd (same (by simp only [Reg.ICE_EVENT, Reg.TNK_MEMINJ, stationBase]; omega)) _
  have event : (s.raise (Reg.ICE_EVENT n) f).rd (Reg.ICE_EVENT n) = f.into (s.rd (Reg.ICE_EVENT n)) (2 ^ f.w - 1) :=
    State.rd_wr_same _ _ _
  simp only [iceView, count, now, armed, event]
  rfl

theorem iceView_setSlot (n m : Nat) (y : Slot) (s : State) :
    iceView n (s.setSlot n m y) = { iceView n s with slots := aset m y (iceView n s).slots } := by
  simp only [iceView, State.setSlot, State.modIce, State.stn_modStn_same]
  rfl

theorem iceView_ftmSend (n : Nat) (m : FtmMsg) (s : State) :
    iceView n (ftmSend n m s) = { iceView n s with inbox := (iceView n s).inbox ++ [m] } := by
  simp only [iceView, ftmSend, State.modFtm, aget_aset_same]
  rfl

theorem iceView_odPart {n : Nat} {s : State} (h : (iceView n s).Clean) (mem st idx : Nat) :
    iceView n (odPart mem st idx s) = iceView n s := by
  have armed : (memEnergy mem st s).getB Reg.TNK_MEMINJ Fld.TNK_MEMINJ_ARM = false :=
    (congrArg IceView.armed (iceView_memEnergy n mem st s)).trans h.1
  rw [odPart, odPlant, armed]
  exact iceView_memEnergy n mem st s

theorem iceView_odClear {n : Nat} {s : State} (h : (iceView n s).Clean) (mem st idx : Nat) :
    iceView n (odClear mem st idx s) = iceView n s := by
  have errors : s.tinker.errors = [] := h.2
  exact iceView_of_rd rfl rfl (by simp [odClear, errors]) fun _ _ => rfl

/-- A word is read as it is. -/
theorem odRead_clean {n : Nat} {s : State} (h : (iceView n s).Clean) (mem st idx : Nat) :
    odRead mem st idx s = (.clean, memEnergy mem st s) := by
  have errors : (memEnergy mem st s).tinker.errors = [] :=
    (congrArg IceView.errors (iceView_memEnergy n mem st s)).trans h.2
  simp [odRead, odError, errors]

theorem iceView_setTask {n : Nat} {s : State} (h : (iceView n s).Clean) (k : Nat) (x : Task) :
    iceView n (s.setTask n k x) = { iceView n s with tasks := aset k x (iceView n s).tasks } := by
  have changed : iceView n (s.modTasks n fun y => { y with slots := aset k x y.slots }) =
      { iceView n s with tasks := aset k x (iceView n s).tasks } := by
    simp only [iceView, State.modTasks, State.stn_modStn_same]
    rfl
  exact (iceView_odPart (by rw [changed]; exact h) 4 n k).trans changed

theorem iceView_setEntry {n : Nat} {s : State} (h : (iceView n s).Clean) (e : Nat) (x : LeaseEntry) :
    iceView n (s.setEntry n e x) = { iceView n s with entries := aset e x (iceView n s).entries } := by
  have changed : iceView n (s.modIce n fun i => { i with entries := aset e x i.entries }) =
      { iceView n s with entries := aset e x (iceView n s).entries } := by
    simp only [iceView, State.modIce, State.stn_modStn_same]
    rfl
  exact (iceView_odPart (by rw [changed]; exact h) 6 n e).trans changed

/-! ### The task whose search it is -/

theorem State.task?_eq (s : State) (n k : Nat) : s.task? n k = aget? k (iceView n s).tasks := rfl

/-- From s to t the tasks alone have changed, as the Icehouse sees it, and task k is x. -/
structure TaskMoved (n k : Nat) (x : Task) (s t : State) : Prop where
  rest : iceView n t = { iceView n s with tasks := (iceView n t).tasks }
  task : t.task? n k = some x

theorem TaskMoved.clean {n k : Nat} {x : Task} {s t : State} (h : TaskMoved n k x s t) (hs : (iceView n s).Clean) :
    (iceView n t).Clean := by
  rw [h.rest]
  exact hs

theorem TaskMoved.trans {n k : Nat} {x y : Task} {s t u : State} (h : TaskMoved n k x s t) (h' : TaskMoved n k y t u) :
    TaskMoved n k y s u :=
  ⟨by rw [h'.rest, h.rest], h'.task⟩

theorem TaskMoved.of_view {n k : Nat} {x : Task} {s t u : State} (h : TaskMoved n k x s t)
    (e : iceView n u = iceView n t) : TaskMoved n k x s u :=
  ⟨by rw [e]; exact h.rest, by rw [State.task?_eq, e]; exact h.task⟩

theorem TaskMoved.refl {n k : Nat} {x : Task} {s : State} (h : s.task? n k = some x) : TaskMoved n k x s s := ⟨rfl, h⟩

theorem taskMoved_setTask {n : Nat} {s : State} (hs : (iceView n s).Clean) (k : Nat) (x : Task) :
    TaskMoved n k x s (s.setTask n k x) := by
  have view := iceView_setTask hs k x
  exact ⟨by rw [view], by rw [State.task?_eq, view]; exact aget?_aset_same _ _ _⟩

theorem modTask_of_task {n k : Nat} {s : State} {x : Task} (hx : s.task? n k = some x) (f : Task → Task) :
    s.modTask n k f = s.setTask n k (f x) := by simp [State.modTask, hx]

/-- What a step of a task's other lookups leaves of its search: state, wait, count and index. -/
structure Task.Like (x z : Task) : Prop where
  st : z.st = x.st
  ice : z.ice = x.ice
  cnt : z.cnt = x.cnt
  index : z.index = x.index

theorem refusalStall_moves {n k : Nat} {s : State} {x : Task} (hs : (iceView n s).Clean) (hx : s.task? n k = some x) :
    ∃ z, TaskMoved n k z s (refusalStall n k s) ∧ x.Like z := by
  simp only [refusalStall, hx]
  split
  · exact ⟨x, .refl hx, rfl, rfl, rfl, rfl⟩
  · exact ⟨_, (taskMoved_setTask hs k _).of_view (iceView_taskTick n (by decide) _), rfl, rfl, rfl, rfl⟩

theorem searchIssue_moves {n k : Nat} {s : State} {x : Task} (hs : (iceView n s).Clean) (hx : s.task? n k = some x)
    (r : SearchReq) : ∃ z, TaskMoved n k z s (searchIssue n k r s) ∧ x.Like z := by
  simp only [searchIssue, hx, modTask_of_task hx]
  split
  · split
    · exact ⟨x, .refl hx, rfl, rfl, rfl, rfl⟩
    · have refused := taskMoved_setTask hs k { x with ruleWait := .refused }
      obtain ⟨z, moved, st, ice, cnt, index⟩ := refusalStall_moves (refused.clean hs) refused.task
      exact ⟨z, (refused.trans moved).of_view ((iceView_ruleRaise n _ _).trans (iceView_ruleTick n (by decide) _)),
        st, ice, cnt, index⟩
  · exact ⟨_, (taskMoved_setTask hs k _).of_view (iceView_ruleEnqueue n r _), rfl, rfl, rfl, rfl⟩

theorem searchRelease_moves {n k : Nat} {s : State} {x : Task} (hs : (iceView n s).Clean) (hx : s.task? n k = some x) :
    ∃ z, TaskMoved n k z s (searchRelease n k s) ∧ x.Like z := by
  simp only [searchRelease, hx]
  split
  · exact searchIssue_moves hs hx _
  · exact ⟨x, .refl hx, rfl, rfl, rfl, rfl⟩

theorem readyPush_moves {n k : Nat} {s : State} {x : Task} (hs : (iceView n s).Clean) (hx : s.task? n k = some x)
    (head : Bool) : TaskMoved n k { x with st := .ready } s (readyPush n k head s) := by
  simp only [readyPush, hx]
  refine (taskMoved_setTask hs k _).of_view (iceView_modTasks ?_ _)
  exact fun _ => rfl

/-- A waiting task has one lookup less to wait for. -/
theorem depDone_moves {n k : Nat} {s : State} {x : Task} (hs : (iceView n s).Clean) (hx : s.task? n k = some x)
    (hw : x.st = .waiting) :
    ∃ z, TaskMoved n k z s (depDone n k s) ∧ z.ice = x.ice ∧ z.index = x.index ∧ z.cnt = x.cnt - 1 := by
  have counted := taskMoved_setTask hs k { x with cnt := x.cnt - 1 }
  unfold depDone
  rw [hx]
  dsimp only
  rw [if_neg (by simp [hw])]
  split
  · exact ⟨_, counted.trans (readyPush_moves (counted.clean hs) counted.task false), rfl, rfl, rfl⟩
  · exact ⟨_, counted, rfl, rfl, rfl⟩

end Sys2Proof.Machine

/-! SUPPORT. The steps of a search (R161 to R165, R170 to R172): a grant, an entry of the lease-wait list, a miss and a
hit, each as what it makes of the station's Icehouse. -/
namespace Sys2Proof.Machine

/-! ### Grants and chains -/

/-- A slot as task k is granted it at an instant of FTM_NOW (R163, R165). -/
def Slot.granted (now k : Nat) (y : Slot) : Slot :=
  { y with st := if y.st = .recalling then .recalling else .held, holder := some k, half := stampHalf now y.half
           ref := true, dirty := y.dirty || stampHalf now y.half != y.half }

theorem grant_spec {n m k : Nat} {s : State} {y : Slot} {x : Task} (hs : (iceView n s).Clean)
    (hy : s.slot? n m = some y) (hx : s.task? n k = some x) (hw : x.st = .waiting) :
    let t := grant n m k none s
    iceView n t = { iceView n s with
      slots := aset m (y.granted (iceView n s).now k) (iceView n s).slots, tasks := (iceView n t).tasks } ∧
    ∃ u, t.task? n k = some u ∧ u.ice = .holding m ∧ u.index = y.index ∧ u.cnt = x.cnt - 1 := by
  have slotted := iceView_setSlot n m (y.granted (iceView n s).now k) s
  have clean : (iceView n (s.setSlot n m (y.granted (iceView n s).now k))).Clean := by rw [slotted]; exact hs
  have parted := (iceView_odPart clean 5 n (slotWord m)).trans slotted
  have unfolded : grant n m k none s = depDone n k (searchRelease n k
      ((odPart 5 n (slotWord m) (s.setSlot n m (y.granted (iceView n s).now k))).setTask n k
        { x with ice := .holding m, index := y.index, leases := x.leases + 1 })) := by
    unfold grant
    rw [hy, hx]
    rfl
  generalize odPart 5 n (slotWord m) (s.setSlot n m (y.granted (iceView n s).now k)) = a at *
  have aclean : (iceView n a).Clean := by rw [parted]; exact hs
  have holding := taskMoved_setTask aclean k { x with ice := .holding m, index := y.index, leases := x.leases + 1 }
  obtain ⟨z, released, like⟩ := searchRelease_moves (holding.clean aclean) holding.task
  have moved := holding.trans released
  obtain ⟨u, done, ice, index, cnt⟩ := depDone_moves (moved.clean aclean) moved.task (like.st.trans hw)
  have all := moved.trans done
  dsimp only
  rw [unfolded]
  refine ⟨?_, u, all.task, ice.trans like.ice, index.trans like.index, cnt.trans ?_⟩
  · rw [all.rest, parted]
  · rw [like.cnt]

theorem chain_spec {n m k : Nat} {s : State} {y : Slot} {x : Task} (hs : (iceView n s).Clean)
    (hy : s.slot? n m = some y) (hx : s.task? n k = some x) :
    iceView n (chain n m k s) = { iceView n s with
      slots := aset m { y with chain := chainInsert s n k x.express y.chain } (iceView n s).slots
      tasks := aset k { x with ice := .chained m } (iceView n s).tasks } := by
  have slotted := iceView_setSlot n m { y with chain := chainInsert s n k x.express y.chain } s
  unfold chain
  rw [hy, hx]
  dsimp only
  rw [iceView_setTask (by rw [slotted]; exact hs), slotted]

/-! ### Numbers that are free -/

theorem aget?_eq_none {α : Type} {k : Nat} {l : List (Nat × α)} (h : k ∉ l.map Prod.fst) : aget? k l = none := by
  induction l with
  | nil => rfl
  | cons e r ih =>
    obtain ⟨i, w⟩ := e
    simp only [List.map_cons, List.mem_cons, not_or] at h
    simp [aget?, Ne.symm h.1, ih h.2]

/-- With an entry left, the number of a new one is no entry's. -/
theorem entry?_entryNumber {n : Nat} {s : State} (h : (iceView n s).entries.length < 256) :
    s.entry? n (entryNumber s n) = none := by
  obtain ⟨notIn, -, lt⟩ := freeFrom_spec (used := (iceView n s).entries.map Prod.fst) (n := 256) 0 0 (by simpa using h)
  have free : s.entry? n (freeFrom ((iceView n s).entries.map Prod.fst) 0 256 0) = none := aget?_eq_none notIn
  unfold entryNumber
  cases hf : (List.range 256).find? fun e => (s.entry? n e).isNone with
  | some e => simpa using List.find?_some hf
  | none =>
    have none := List.find?_eq_none.1 hf _ (List.mem_range.2 (by simpa using lt))
    rw [free] at none
    simp at none

theorem slot?_takeSlot {n : Nat} {s : State} (h : freeSlots s n ≠ 0) : s.slot? n (takeSlot n s).1 = none := by
  refine aget?_eq_none (freeFrom_spec 0 _ ?_).1
  rw [List.length_map]
  exact Nat.lt_of_sub_ne_zero h

/-! ### Entries -/

/-- An entry of the key takes a FREE slot for its fill (R170). -/
theorem fillStart_spec {n e : Nat} {s : State} (hs : (iceView n s).Clean) (hf : freeSlots s n ≠ 0) (x : LeaseEntry) :
    ∃ m, aget? m (iceView n s).slots = none ∧ iceView n (fillStart n e x s) = { iceView n s with
      slots := aset m { st := .filling, sig := x.sig, d := x.d } (iceView n s).slots
      entries := aset e { x with st := .fill, phase := .sent, slot := some m } (iceView n s).entries
      inbox := (iceView n s).inbox ++ [.fill x.sig x.d x.key] } := by
  have taken : iceView n (takeSlot n s).2 = iceView n s := rfl
  have slotted := iceView_setSlot n (takeSlot n s).1 { st := .filling, sig := x.sig, d := x.d } (takeSlot n s).2
  have clean : (iceView n ((takeSlot n s).2.setSlot n (takeSlot n s).1
      { st := .filling, sig := x.sig, d := x.d })).Clean := by rw [slotted, taken]; exact hs
  refine ⟨(takeSlot n s).1, slot?_takeSlot hf, ?_⟩
  unfold fillStart
  dsimp only
  rw [iceView_ftmSend, iceView_setEntry clean, slotted, taken]

/-- What a new entry x in the place e makes of the Icehouse: it waits for a release, for a FREE slot, or for its fill
(Table 08.3). -/
structure EntryMade (v : IceView) (e : Nat) (x : LeaseEntry) (recalling : Bool) (w : IceView) : Prop where
  release : recalling = true → w = { v with
    entries := aset e { x with st := .release } v.entries, event := w.event }
  wait : recalling = false → 8192 - v.slots.length = 0 → w = { v.bump 14 with
    entries := aset e { x with st := .slot } v.entries, event := w.event }
  fill : recalling = false → 8192 - v.slots.length ≠ 0 → ∃ m, aget? m v.slots = none ∧ w = { v with
    slots := aset m { st := .filling, sig := x.sig, d := x.d } v.slots
    entries := aset e { x with st := .fill, phase := .sent, slot := some m } (aset e { x with st := .slot } v.entries)
    inbox := v.inbox ++ [.fill x.sig x.d x.key], event := w.event }

theorem entryNew_spec {n : Nat} {s : State} (hs : (iceView n s).Clean) (x : LeaseEntry) (recalling : Bool) :
    EntryMade (iceView n s) (entryNumber s n) x recalling (iceView n (entryNew n x recalling s)) := by
  have cleared := iceView_odClear hs 6 n (entryNumber s n)
  have entered := iceView_setEntry (s := odClear 6 n (entryNumber s n) s) (by rw [cleared]; exact hs)
    (entryNumber s n) { x with st := if recalling then .release else .slot }
  rw [cleared] at entered
  unfold entryNew
  dsimp only
  generalize (odClear 6 n (entryNumber s n) s).setEntry n (entryNumber s n)
    { x with st := if recalling then .release else .slot } = a at *
  have marked : ∃ ev, iceView n (if (a.stn n).ice.entries.length = waitHigh a n then
      a.raise (Reg.ICE_EVENT n) Fld.ICE_EVENT_WAIT_HIGH else a) = { iceView n a with event := ev } := by
    split
    · exact ⟨_, iceView_raise n _ a⟩
    · exact ⟨_, rfl⟩
  obtain ⟨ev, marked⟩ := marked
  generalize (if (a.stn n).ice.entries.length = waitHigh a n then
    a.raise (Reg.ICE_EVENT n) Fld.ICE_EVENT_WAIT_HIGH else a) = b at *
  rw [entered] at marked
  have free : freeSlots b n = 8192 - (iceView n s).slots.length :=
    congrArg (fun v : IceView => 8192 - v.slots.length) marked
  have clean : (iceView n b).Clean := by rw [marked]; exact hs
  cases recalling with
  | true => exact ⟨fun _ => by rw [if_pos rfl, marked]; rfl, fun h => (by cases h), fun h => (by cases h)⟩
  | false =>
    refine ⟨fun h => (by cases h), fun _ h => ?_, fun _ h => ?_⟩
    · have counted : iceView n (iceCnt n 14 b) = (iceView n b).bump 14 := iceView_iceCnt n 14 b
      rw [if_neg (by simp), if_pos (free.trans h), counted, marked]
      rfl
    · have own : b.entry? n (entryNumber s n) = some { x with st := .slot } :=
        (congrArg (fun v : IceView => aget? (entryNumber s n) v.entries) marked).trans (aget?_aset_same _ _ _)
      rw [if_neg (by simp), if_neg (by rw [free]; exact h), own]
      obtain ⟨m, unused, filled⟩ :=
        fillStart_spec clean (e := entryNumber s n) (by rw [free]; exact h) { x with st := .slot }
      rw [marked] at unused filled
      refine ⟨m, unused, ?_⟩
      dsimp only
      rw [filled]
      rfl

/-! ### Misses (R170 to R172) -/

theorem entryRead_spec {n e : Nat} {s : State} (hs : (iceView n s).Clean) :
    entryRead n e s = (s.entry? n e, memEnergy 6 n s) := by
  have same : (memEnergy 6 n s).entry? n e = s.entry? n e :=
    congrArg (fun v : IceView => aget? e v.entries) (iceView_memEnergy n 6 n s)
  simp only [entryRead, odRead_clean hs, same]

/-- A task whose key is the entry's own makes the creation search of its entry (R185). -/
theorem creationAsk_spec {n e : Nat} {s : State} (hs : (iceView n s).Clean) (z : LeaseEntry) :
    ∃ p, iceView n (creationAsk n e z s) = { iceView n s with
      entries := aset e { z with phase := p } (iceView n s).entries } ∧
      ((entryMaker s n z).isSome → p = .rule) := by
  unfold creationAsk
  cases entryMaker s n z with
  | none => exact ⟨.ended, iceView_setEntry hs e _, fun h => by cases h⟩
  | some t => exact ⟨.rule, (iceView_ruleEnqueue n _ _).trans (iceView_setEntry hs e _), fun _ => rfl⟩

theorem entryMaker_isSome {n k : Nat} {s : State} {z : LeaseEntry} {x : Task} (hk : k ∈ z.tasks)
    (hx : s.task? n k = some x) (key : x.key = some z.key) : (entryMaker s n z).isSome := by
  unfold entryMaker
  rw [List.findSome?_isSome_iff]
  exact ⟨k, hk, by simp [hx, key]⟩

/-- A search with no hit joins the entry w, number e, of its key. -/
theorem searchMiss_joins {n k e : Nat} {s : State} {x : Task} {w w' : LeaseEntry} (hs : (iceView n s).Clean)
    (hx : s.task? n k = some x) (he : entryOf s n x.sig x.d = some (e, w')) (hw : s.entry? n e = some w)
    (recalling : Bool) :
    ∃ z u, iceView n (searchMiss n k recalling s) = { (iceView n s).bump 3 with
        entries := (iceView n (searchMiss n k recalling s)).entries, tasks := aset k u (iceView n s).tasks } ∧
      aget? e (iceView n (searchMiss n k recalling s)).entries = some z ∧ u.ice = .entry e ∧ u.cnt = x.cnt ∧
      (¬ (w.phase = .ended ∧ w.rule = none) → z = { w with tasks := w.tasks ++ [k] }) ∧
      (w.phase = .ended → w.rule = none → x.key = some w.key → z = { w with tasks := w.tasks ++ [k], phase := .rule }) := by
  have energy := iceView_memEnergy n 6 n s
  have entered := iceView_setEntry (s := memEnergy 6 n s) (by rw [energy]; exact hs) e { w with tasks := w.tasks ++ [k] }
  rw [energy] at entered
  have counted : iceView n (iceCnt n 3 ((memEnergy 6 n s).setEntry n e { w with tasks := w.tasks ++ [k] })) =
      ({ iceView n s with entries := aset e { w with tasks := w.tasks ++ [k] } (iceView n s).entries } : IceView).bump 3 :=
    (iceView_iceCnt n 3 _).trans (by rw [entered])
  simp only [searchMiss, hx, he, entryRead_spec hs, hw, Option.map_some]
  generalize iceCnt n 3 ((memEnergy 6 n s).setEntry n e { w with tasks := w.tasks ++ [k] }) = a at *
  have aclean : (iceView n a).Clean := by rw [counted]; exact hs
  have tasked := iceView_setTask aclean k { x with ice := .entry e, waitSince := a.now }
  rw [counted] at tasked
  generalize a.setTask n k { x with ice := .entry e, waitSince := a.now } = b at *
  have bclean : (iceView n b).Clean := by rw [tasked]; exact hs
  split
  · next ended =>
    obtain ⟨p, asked, made⟩ := creationAsk_spec bclean (e := e) { w with tasks := w.tasks ++ [k] }
    rw [asked, tasked]
    refine ⟨_, _, rfl, aget?_aset_same _ _ _, rfl, rfl, fun h => absurd ended h, fun _ _ key => ?_⟩
    have own : b.task? n k = some { x with ice := .entry e, waitSince := a.now } := by
      rw [State.task?_eq, tasked]; exact aget?_aset_same _ _ _
    rw [made (entryMaker_isSome (by simp) own key)]
  · next going =>
    rw [tasked]
    exact ⟨_, _, rfl, aget?_aset_same _ _ _, rfl, rfl, fun _ => rfl, fun h k => absurd ⟨h, k⟩ going⟩

/-- The entry that a search of task k takes. -/
def Task.newEntry (k : Nat) (x : Task) : LeaseEntry :=
  { sig := x.sig, d := x.d, key := x.key.getD [], st := .slot, tasks := [k], ruleBank := x.tag, guild := x.frame.guild }

/-- A search with no hit and no entry of its key takes a new one. -/
theorem searchMiss_enters {n k : Nat} {s : State} {x : Task} (hs : (iceView n s).Clean) (hx : s.task? n k = some x)
    (he : entryOf s n x.sig x.d = none) (room : (iceView n s).entries.length < 256) (recalling : Bool) :
    ∃ u, u.ice = .entry (entryNumber s n) ∧ u.cnt = x.cnt ∧
      EntryMade { (iceView n s).bump 2 with tasks := aset k u (iceView n s).tasks } (entryNumber s n)
        (x.newEntry k) recalling (iceView n (searchMiss n k recalling s)) := by
  have counted : iceView n (evCount n 6 1 (some x.frame.guild) (iceCnt n 2 s)) = (iceView n s).bump 2 :=
    (iceView_evCount ..).trans (iceView_iceCnt n 2 s)
  unfold searchMiss
  rw [hx]
  dsimp only
  rw [he]
  dsimp only
  rw [if_neg (show ¬ 256 ≤ (s.stn n).ice.entries.length from Nat.not_le.2 room)]
  generalize evCount n 6 1 (some x.frame.guild) (iceCnt n 2 s) = a at *
  have number {b : State} (h : (iceView n b).entries = (iceView n s).entries) : entryNumber b n = entryNumber s n := by
    have entry? (e : Nat) : b.entry? n e = s.entry? n e := congrArg (aget? e) h
    simp only [entryNumber, entry?]
  have same : entryNumber a n = entryNumber s n := number (by rw [counted]; rfl)
  rw [same]
  have tasked := iceView_setTask (by rw [counted]; exact hs) k
    { x with ice := .entry (entryNumber s n), waitSince := a.now }
  rw [counted] at tasked
  generalize a.setTask n k { x with ice := .entry (entryNumber s n), waitSince := a.now } = b at *
  have made := entryNew_spec (s := b) (by rw [tasked]; exact hs) (x.newEntry k) recalling
  rw [number (by rw [tasked]; rfl), tasked] at made
  exact ⟨{ x with ice := .entry (entryNumber s n), waitSince := a.now }, rfl, rfl, made⟩

/-- A search with no hit is refused while all entries are in use (R172). -/
theorem searchMiss_refused {n k : Nat} {s : State} {x : Task} (hs : (iceView n s).Clean) (hx : s.task? n k = some x)
    (he : entryOf s n x.sig x.d = none) (full : 256 ≤ (iceView n s).entries.length) (recalling : Bool) :
    ∃ u, u.ice = .refused ∧ u.cnt = x.cnt ∧ (searchMiss n k recalling s).task? n k = some u ∧
      (x.waitRefused = true → iceView n (searchMiss n k recalling s) = { iceView n s with
        tasks := (iceView n (searchMiss n k recalling s)).tasks }) ∧
      (x.waitRefused = false → iceView n (searchMiss n k recalling s) = { (iceView n s).bump 13 with
        tasks := (iceView n (searchMiss n k recalling s)).tasks
        event := Fld.ICE_EVENT_WAIT_REFUSED.into (iceView n s).event 1 }) := by
  have refused := taskMoved_setTask hs k { x with ice := .refused, waitRefused := true }
  unfold searchMiss
  rw [hx]
  dsimp only
  rw [he]
  dsimp only
  rw [if_pos (show 256 ≤ (s.stn n).ice.entries.length from full)]
  generalize s.setTask n k { x with ice := .refused, waitRefused := true } = a at *
  cases hr : x.waitRefused with
  | true =>
    rw [if_pos rfl]
    exact ⟨{ x with ice := .refused, waitRefused := true }, rfl, rfl, refused.task, fun _ => refused.rest,
      fun h => by cases h⟩
  | false =>
    obtain ⟨z, stalled, like⟩ := refusalStall_moves (refused.clean hs) refused.task
    have moved := refused.trans stalled
    rw [if_neg (by simp)]
    generalize refusalStall n k a = b at *
    have counted : iceView n ((iceCnt n 13 b).raise (Reg.ICE_EVENT n) Fld.ICE_EVENT_WAIT_REFUSED) =
        { (iceView n b).bump 13 with event := Fld.ICE_EVENT_WAIT_REFUSED.into (iceView n b).event 1 } := by
      have bumped : iceView n (iceCnt n 13 b) = (iceView n b).bump 13 := iceView_iceCnt n 13 b
      rw [iceView_raise, bumped]
      rfl
    refine ⟨z, like.ice, like.cnt, ?_, fun h => (by cases h), fun _ => ?_⟩
    · rw [State.task?_eq, counted]; exact moved.task
    · rw [counted, moved.rest]; rfl

/-! ### Hits (R163, R164, R175) -/

theorem slotRevive_spec {n m : Nat} {s : State} {y : Slot} (flush : y.flushFor = none) (sweep : y.sweepFor = false) :
    iceView n (slotRevive n m y s) = { (iceView n s).bump 5 with
      slots := aset m { y with st := .idle, flushFor := none, sweepFor := false } (iceView n s).slots } := by
  have bumped : iceView n (iceCnt n 5 (s.setSlot n m { y with st := .idle, flushFor := none, sweepFor := false })) =
      (iceView n (s.setSlot n m { y with st := .idle, flushFor := none, sweepFor := false })).bump 5 :=
    iceView_iceCnt n 5 _
  simp only [slotRevive, flush, sweep, Bool.false_eq_true, if_false]
  rw [bumped, iceView_setSlot]
  rfl

end Sys2Proof.Machine

/-! SUPPORT. The Icehouse's counters are counted by its own searches alone: what a DRAINING slot's revival answers, in the
FTM and on the rings (R155, R175, R184), and what a task waits for beside its search, leaves them. -/
namespace Sys2Proof.Machine

/-- A word of an Icehouse counter, of whichever station. -/
def IceCountReg (a : Nat) : Prop :=
  0x2000000 ≤ a ∧ a < 0x100000000 ∧ 0x180100 ≤ (a - 0x2000000) % 0x400000 ∧ (a - 0x2000000) % 0x400000 < 0x180180

/-- From s to t no Icehouse counter has changed. -/
def CountsKept (s t : State) : Prop := ∀ a, IceCountReg a → t.rd a = s.rd a

namespace CountsKept

theorem refl (s : State) : CountsKept s s := fun _ _ => rfl

theorem trans {s t u : State} (h : CountsKept s t) (k : CountsKept t u) : CountsKept s u :=
  fun a ha => (k a ha).trans (h a ha)

theorem of_regs {s t : State} (h : t.regs = s.regs) : CountsKept s t := fun a _ => State.rd_of_regs h a

/-- The same registers at the end, or at the start. -/
theorem then_regs {s t u : State} (h : CountsKept s t) (e : u.regs = t.regs) : CountsKept s u := h.trans (of_regs e)

theorem wr {a : Nat} (h : ¬ IceCountReg a) (s : State) (v : Word) : CountsKept s (s.wr a v) :=
  fun _ hb => s.rd_wr_ne (fun e => by rw [e] at hb; exact h hb) v

theorem put {a : Nat} (h : ¬ IceCountReg a) (s : State) (f : Field) (v : Nat) : CountsKept s (s.put a f v) := wr h s _

theorem raise {a : Nat} (h : ¬ IceCountReg a) (s : State) (f : Field) : CountsKept s (s.raise a f) := wr h s _

theorem tick {a : Nat} (lo : ¬ IceCountReg a) (hi : ¬ IceCountReg (a + 4)) (s : State) : CountsKept s (s.tick a) :=
  fun _ hb => s.rd_cnt_ne (fun e => by rw [e] at hb; exact lo hb) (fun e => by rw [e] at hb; exact hi hb) 1

theorem foldl {α : Type} {f : State → α → State} (h : ∀ s x, CountsKept s (f s x)) (l : List α) (s : State) :
    CountsKept s (l.foldl f s) := by
  induction l generalizing s with
  | nil => exact refl s
  | cons x l ih => exact (h s x).trans (ih _)

theorem foldl_snd {α β : Type} {f : β × State → α → β × State} (h : ∀ p x, CountsKept p.2 (f p x).2) (l : List α)
    (p : β × State) : CountsKept p.2 (l.foldl f p).2 := by
  induction l generalizing p with
  | nil => exact refl p.2
  | cons x l ih => exact (h p x).trans (ih _)

theorem ite {s t u : State} {c : Prop} [Decidable c] (h : CountsKept s t) (k : CountsKept s u) :
    CountsKept s (if c then t else u) := by
  split
  · exact h
  · exact k

theorem cntGet {s t : State} (h : CountsKept s t) {n : Nat} (hn : n < 12) (i : Fin 16) :
    t.cntGet (Reg.ICE_CNT_LO n i) = s.cntGet (Reg.ICE_CNT_LO n i) := by
  refine State.cntGet_of_rd (h _ ?_) (h _ ?_) <;> simp only [IceCountReg, Reg.ICE_CNT_LO, stationBase] <;> omega

end CountsKept

/-! ### Registers that are none of them -/

theorem not_iceCountReg_of_lt {a : Nat} (h : a < 0x2000000) : ¬ IceCountReg a := fun k => absurd k.1 (by omega)

theorem not_iceCountReg_page (g o : Nat) : ¬ IceCountReg (guildPageBase g + o) := by
  unfold IceCountReg guildPageBase
  omega

theorem not_iceCountReg_station (st : Nat) {o : Nat} (h : o < 0x400000) (out : o < 0x180100 ∨ 0x180180 ≤ o) :
    ¬ IceCountReg (stationBase st + o) := by
  unfold IceCountReg stationBase
  omega

theorem ftmTick_kept {k : Nat} (hk : k < 16) (s : State) : CountsKept s (s.tick (Reg.FTM_CNT_LO k)) :=
  .tick (not_iceCountReg_of_lt (by unfold Reg.FTM_CNT_LO; omega)) (not_iceCountReg_of_lt (by unfold Reg.FTM_CNT_LO; omega)) s

theorem hbmTick_kept {k : Nat} (hk : k < 16) (s : State) : CountsKept s (s.tick (Reg.HBM_CNT_LO k)) :=
  .tick (not_iceCountReg_of_lt (by unfold Reg.HBM_CNT_LO; omega)) (not_iceCountReg_of_lt (by unfold Reg.HBM_CNT_LO; omega)) s

theorem hifTick_kept {k : Nat} (hk : k < 16) (s : State) : CountsKept s (s.tick (Reg.HIF_CNT_LO k)) :=
  .tick (not_iceCountReg_of_lt (by unfold Reg.HIF_CNT_LO; omega)) (not_iceCountReg_of_lt (by unfold Reg.HIF_CNT_LO; omega)) s

theorem guildTick_kept (g k : Nat) (s : State) : CountsKept s (s.tick (Reg.GLD_CNT_LO g k)) := by
  refine .tick ?_ ?_ s <;> simp only [Reg.GLD_CNT_LO, Nat.add_assoc] <;> exact not_iceCountReg_page _ _

theorem ruleTick_kept (st : Nat) {k : Nat} (hk : k < 16) (s : State) : CountsKept s (s.tick (Reg.RUL_CNT_LO st k)) := by
  refine .tick ?_ ?_ s <;> simp only [Reg.RUL_CNT_LO, Nat.add_assoc] <;>
    exact not_iceCountReg_station st (by omega) (by omega)

theorem taskTick_kept (st : Nat) {k : Nat} (hk : k < 16) (s : State) : CountsKept s (s.tick (Reg.TSK_CNT_LO st k)) := by
  refine .tick ?_ ?_ s <;> simp only [Reg.TSK_CNT_LO, Nat.add_assoc] <;>
    exact not_iceCountReg_station st (by omega) (by omega)

/-! ### Planted errors, tasks and entries -/

theorem memEnergy_regs (mem st : Nat) (s : State) : (memEnergy mem st s).regs = s.regs := by
  unfold memEnergy
  split <;> rfl

theorem odPlant_kept (mem st idx : Nat) (s : State) : CountsKept s (odPlant mem st idx s) := by
  unfold odPlant
  exact .ite (.then_regs (.put (not_iceCountReg_of_lt (by decide)) s Fld.TNK_MEMINJ_ARM 0) rfl) (.refl s)

theorem odPart_kept (mem st idx : Nat) (s : State) : CountsKept s (odPart mem st idx s) :=
  (CountsKept.of_regs (memEnergy_regs mem st s)).trans (odPlant_kept mem st idx _)

theorem odWrite_kept (mem st idx : Nat) (s : State) : CountsKept s (odWrite mem st idx s) :=
  (CountsKept.of_regs (memEnergy_regs mem st s) : CountsKept s (odClear mem st idx (memEnergy mem st s))).trans
    (odPlant_kept mem st idx _)

theorem setTask_kept (st k : Nat) (x : Task) (s : State) : CountsKept s (s.setTask st k x) := odPart_kept 4 st k _

theorem modTask_kept (st k : Nat) (f : Task → Task) (s : State) : CountsKept s (s.modTask st k f) := by
  unfold State.modTask
  split
  · exact setTask_kept st k _ s
  · exact .refl s

theorem setEntry_kept (st e : Nat) (x : LeaseEntry) (s : State) : CountsKept s (s.setEntry st e x) := odPart_kept 6 st e _

theorem ruleEnqueue_kept (st : Nat) (r : SearchReq) (s : State) : CountsKept s (ruleEnqueue st r s) :=
  .then_regs (.ite (.refl s) (ruleTick_kept st (by decide) s)) rfl

theorem refusalStall_kept (st k : Nat) (s : State) : CountsKept s (refusalStall st k s) := by
  unfold refusalStall
  split
  · exact .ite (.refl s) ((setTask_kept st k _ s).trans (taskTick_kept st (by decide) _))
  · exact .refl s

theorem searchIssue_kept (st k : Nat) (r : SearchReq) (s : State) : CountsKept s (searchIssue st k r s) := by
  unfold searchIssue
  split
  · exact .refl s
  · refine .ite (.ite (.refl s) ?_) ((modTask_kept st k _ s).trans (ruleEnqueue_kept st r _))
    exact ((modTask_kept st k _ s).trans (refusalStall_kept st k _)).trans ((ruleTick_kept st (by decide) _).trans
      (.raise (not_iceCountReg_station st (by decide) (by decide)) _ _))

theorem searchRelease_kept (st k : Nat) (s : State) : CountsKept s (searchRelease st k s) := by
  unfold searchRelease
  split
  · exact .ite (searchIssue_kept st k _ s) (.refl s)
  · exact .refl s

theorem readyPush_kept (st k : Nat) (head : Bool) (s : State) : CountsKept s (readyPush st k head s) := by
  unfold readyPush
  split
  · exact .refl s
  · exact .then_regs (setTask_kept st k _ s) rfl

theorem depDone_kept (st k : Nat) (s : State) : CountsKept s (depDone st k s) := by
  unfold depDone
  split
  · exact .refl s
  · exact .ite (.refl s) (.ite ((setTask_kept st k _ s).trans (readyPush_kept st k false _)) (setTask_kept st k _ s))

theorem grant_kept (st m k : Nat) (s : State) : CountsKept s (grant st m k none s) := by
  unfold grant
  split
  · next x u _ _ =>
    refine .trans ?_ (depDone_kept st k _)
    refine .trans ?_ (searchRelease_kept st k _)
    refine .trans ?_ (setTask_kept st k _ _)
    exact .trans (.of_regs rfl) (odPart_kept 5 st (slotWord m) (s.setSlot st m _))
  · exact .refl s

theorem creationAsk_kept (st e : Nat) (x : LeaseEntry) (s : State) : CountsKept s (creationAsk st e x s) := by
  unfold creationAsk
  split
  · exact setEntry_kept st e _ s
  · exact (setEntry_kept st e _ s).trans (ruleEnqueue_kept st _ _)

/-! ### The rings -/

theorem dmaWrite_kept (g addr : Nat) (bs : List Byte) (s : State) : CountsKept s (dmaWrite g addr bs s) :=
  hifTick_kept (by decide) (s.emit _)

theorem dmaWritePoison_kept (g addr len : Nat) (s : State) : CountsKept s (dmaWritePoison g addr len s) :=
  hifTick_kept (by decide) (s.emit _)

theorem msix_kept (g v : Nat) (s : State) : CountsKept s (msix g v s) := by
  unfold msix
  split
  · exact .refl s
  · exact .ite (.of_regs rfl) ((hifTick_kept (by decide) (s.emit _)).trans (guildTick_kept g 8 _))

theorem ringSignal_kept (g r : Nat) (s : State) : CountsKept s (ringSignal g r s) := .then_regs (msix_kept g _ s) rfl

theorem ringWrite_kept (g r : Nat) (d : List Byte) (s : State) : CountsKept s (ringWrite g r d s) := by
  have written := dmaWrite_kept g (s.ring g r).slotAddr
    (d.set 1 ((d.getD 1 0#8 &&& 0x7F#8) ||| BitVec.ofNat 8 (128 * (s.ring g r).phase))) s
  exact (CountsKept.then_regs written rfl).trans (.ite (ringSignal_kept g r _) (.refl _))

theorem postEvent_kept (g code : Nat) (body : List Byte) (s : State) : CountsKept s (postEvent g code body s) := by
  unfold postEvent
  split
  · exact .ite (ringWrite_kept g _ _ (s.modGuild g _)) (guildTick_kept g 7 (s.modGuild g _))
  · exact guildTick_kept g 7 (s.modGuild g _)

theorem complete_kept (g ring status : Nat) (result : List Byte) (s : State) :
    CountsKept s (complete g ring status result s) := by
  unfold complete
  split
  · exact .refl s
  · next c _ =>
    have counted (t : State) (h : t.regs = s.regs) : CountsKept s (t.tick (Reg.GLD_CNT_LO g 0)) :=
      (CountsKept.of_regs h).trans (guildTick_kept g 0 t)
    dsimp only
    refine .ite (.of_regs rfl) (.ite ?_ (counted _ rfl))
    refine .trans ?_ (ringWrite_kept g _ _ _)
    exact counted _ rfl

/-! ### The stacks -/

theorem hbmErrLast_kept (b : Nat) (u : Bool) (s : State) : CountsKept s (hbmErrLast b u s) := by
  have reg : ¬ IceCountReg Reg.HBM_ERR_LAST := not_iceCountReg_of_lt (by decide)
  unfold hbmErrLast
  exact .ite (.refl s) (((CountsKept.raise reg s _).trans (.put reg _ _ _)).trans (.put reg _ _ _))

theorem burstCheck_kept (k : Nat) (s : State) : CountsKept s (burstCheck k s).2 := by
  have event : ¬ IceCountReg Reg.HBM_EVENT := not_iceCountReg_of_lt (by decide)
  unfold burstCheck
  split
  · exact .refl s
  · exact ((hbmTick_kept (by decide) s).trans (.raise event _ _)).trans (hbmErrLast_kept _ _ _)
  · have marked (t : State) (h : t.regs = s.regs) : CountsKept s (hbmErrLast (k / 2) false (t.tick (Reg.HBM_CNT_LO 4))) :=
      ((CountsKept.of_regs h).trans (hbmTick_kept (by decide) t)).trans (hbmErrLast_kept _ _ _)
    dsimp only
    split
    · refine .trans ?_ (.raise event _ _)
      exact marked _ rfl
    · exact marked _ rfl

theorem burstsCheck_kept (ks : List Nat) (s : State) : CountsKept s (burstsCheck ks s).2 :=
  CountsKept.foldl_snd (f := fun r k => (r.1 || (burstCheck k r.2).1, (burstCheck k r.2).2))
    (fun p k => burstCheck_kept k p.2) ks (false, s)

theorem hbmPlant_kept (b lo hi : Nat) (s : State) : CountsKept s (hbmPlant b lo hi s) := by
  have cleared : CountsKept s (((hbmBursts b lo hi).filter fun k => decide (lo ≤ 32 * k ∧ 32 * k + 32 ≤ hi)).foldl
      (fun s k => burstClear k s) s) :=
    .foldl (f := fun s k => burstClear k s) (fun _ _ => .of_regs rfl) _ s
  unfold hbmPlant
  dsimp only
  refine .ite (cleared.trans ?_) cleared
  have armed (t : State) : CountsKept t (t.put Reg.TNK_MEMINJ Fld.TNK_MEMINJ_ARM 0) :=
    .put (not_iceCountReg_of_lt (by decide)) t _ 0
  split
  · exact (armed _).then_regs rfl
  · exact (armed _).then_regs rfl

theorem aheadSettle_kept (h : Nat) (s : State) : CountsKept s (aheadSettle h s) :=
  .ite (.of_regs rfl) (.ite (.of_regs rfl) (.refl s))

theorem hbmDrain_kept (b : Nat) (s : State) : CountsKept s (hbmDrain b s) := by
  unfold hbmDrain
  dsimp only
  refine .ite (.refl s) (.trans ?_ (.foldl (f := fun s r => s.emit _) (fun _ _ => .of_regs rfl) _ _))
  refine .trans ?_ (aheadSettle_kept _ _)
  exact .of_regs rfl

theorem hazardEnter_kept (b : Nat) (s : State) : CountsKept s (hazardEnter b s) := by
  have drained : CountsKept s (match stackWrites s (hbmPlace b).stack with
      | x :: r => if 512 ≤ r.length + 1 then hbmDrain x s else s
      | [] => s) := by
    split
    · exact .ite (hbmDrain_kept _ s) (.refl s)
    · exact .refl s
  exact (drained.then_regs rfl).trans (aheadSettle_kept _ _)

theorem readIssue_kept (b : Nat) (s : State) : CountsKept s (readIssue b s) :=
  .then_regs (.ite (.foldl (f := fun s x => hbmDrain x s) (fun s x => hbmDrain_kept x s) _ s) (.refl s)) rfl

theorem addExec_kept (s : State) (x : HbmAdd) : CountsKept s (addExec s x) := by
  have read := (readIssue_kept (hbmBlock x.addr) s).trans (burstCheck_kept (x.addr / 32) _)
  unfold addExec
  dsimp only
  split
  · exact read
  · refine .trans ?_ (hbmPlant_kept _ _ _ _)
    exact read.then_regs rfl

theorem addsFlush_kept (b : Nat) (s : State) : CountsKept s (addsFlush b s) :=
  .ite (.refl s) ((CountsKept.of_regs rfl).trans (.foldl addExec_kept _ _))

theorem hbmRead_kept (a n : Nat) (s : State) : CountsKept s (hbmRead a n s).2.2 := by
  refine CountsKept.foldl_snd (fun p b => ?_) (hbmBlocks a n) (false, s)
  have flushed := (hbmTick_kept (k := 0) (by decide) p.2).trans (addsFlush_kept b _)
  exact ((flushed.trans (.ite (hbmTick_kept (by decide) _) (.refl _))).trans (readIssue_kept b _)).trans
    (burstsCheck_kept _ _)

theorem hbmWrite_kept (a : Nat) (bs : List Byte) (s : State) : CountsKept s (hbmWrite a bs s) := by
  refine .then_regs (.foldl (fun s b => ?_) (hbmBlocks a bs.length) s) rfl
  have woken : CountsKept s (hbmWake b (s.tick (Reg.HBM_CNT_LO 1))) := (hbmTick_kept (by decide) s).then_regs rfl
  exact ((woken.trans (addsFlush_kept b _)).trans (hazardEnter_kept b _)).trans (hbmPlant_kept b a _ _)

/-! ### The flow table -/

theorem kbGuild_lt (kb : List Byte) : kbGuild kb < 8 := Nat.mod_lt _ (by decide)

theorem tagWrite_kept (b t : Nat) (x : Tag) (s : State) : CountsKept s (tagWrite b t x s) := by
  have written := hbmWrite_kept (tagAddr b t) (leBytes 8 (tagWord x)) s
  unfold tagWrite
  dsimp only
  split
  · exact written
  · refine .trans ?_ (odWrite_kept 15 0 _ _)
    exact written.then_regs rfl

theorem ftmCount_kept {g : Nat} (hg : g < 8) (n : Int) (s : State) : CountsKept s (ftmCount g n s) :=
  (CountsKept.put (not_iceCountReg_of_lt (by decide)) s _ _).trans
    (.put (not_iceCountReg_of_lt (by unfold Reg.FTM_GUILD_CNT; omega)) _ _ _)

theorem tagRemove_kept {g : Nat} (hg : g < 8) (x : TagAt) (s : State) : CountsKept s (tagRemove x g s) := by
  have counted := (hbmWrite_kept (tagAddr x.bucket x.slot) (zeros 8) s).trans (ftmCount_kept hg (-1) _)
  exact (counted.then_regs rfl).trans (.put (not_iceCountReg_of_lt (by decide)) _ _ _)

theorem readKeyBlock_kept (x : TagAt) (s : State) : CountsKept s (readKeyBlock x s).2 := by
  have read := hbmRead_kept (recAddr x.tag.index) 64 s
  unfold readKeyBlock
  dsimp only
  split
  · exact read.trans (tagRemove_kept (kbGuild_lt _) x _)
  · exact read

theorem readHalf_kept (i : Nat) (h : Half) (s : State) : CountsKept s (readHalf i h s).2 := by
  have read := hbmRead_kept (halfAddr i h) 64 s
  unfold readHalf
  dsimp only
  split
  · exact read.trans (hbmWrite_kept _ _ _)
  · exact read

theorem recordBlock_kept (i : Nat) (s : State) : CountsKept s (recordBlock i s).2 := by
  unfold recordBlock
  split
  · exact readKeyBlock_kept _ s
  · exact .refl s

/-- A record that a Guild's command finds is one of the eight Guilds'. -/
theorem recordRead_kept (g i : Nat) (s : State) :
    CountsKept s (recordRead g i s).2 ∧ ((recordRead g i s).1.isSome → g < 8) := by
  unfold recordRead
  split
  · next x _ =>
    have read := readKeyBlock_kept x s
    split
    · next kb t e =>
      rw [e] at read
      refine ⟨read, fun h => ?_⟩
      by_cases hg : kbGuild kb = g
      · exact hg ▸ kbGuild_lt kb
      · simp [hg] at h
    · next t e =>
      rw [e] at read
      exact ⟨read, fun h => by cases h⟩
  · exact ⟨.refl s, fun h => by cases h⟩

theorem flowEvent_kept (g code sig idx reason st : Nat) (tail : List Byte) (s : State) :
    CountsKept s (flowEvent g code sig idx reason st tail s) := .ite (postEvent_kept g code _ s) (.refl s)

theorem noRoom_kept (g sig reason st : Nat) (s : State) : CountsKept s (noRoom g sig reason st s) := by
  have raised (t : State) (h : t.regs = ((s.tick (Reg.FTM_CNT_LO 5)).raise Reg.FTM_STATUS Fld.FTM_STATUS_NOROOM).regs) :
      CountsKept s t :=
    ((ftmTick_kept (by decide) s).trans (.raise (not_iceCountReg_of_lt (by decide)) _ _)).then_regs h
  unfold noRoom
  dsimp only
  refine .ite (.trans ?_ (flowEvent_kept _ _ _ _ _ _ _ _)) ?_
  · exact raised _ rfl
  · exact raised _ rfl

theorem fillAbsent_kept (st sig d : Nat) (s : State) : CountsKept s (fillAbsent st sig d s) := by
  have counted : CountsKept s (ftmCnt 1 s) := ftmTick_kept (by decide) s
  unfold fillAbsent
  dsimp only
  split
  · exact counted
  · exact counted.trans (creationAsk_kept st _ _ _)

theorem fillConflict_kept (st sig d : Nat) (kb : List Byte) (s : State) : CountsKept s (fillConflict st sig d kb s) :=
  .then_regs (.ite ((ftmTick_kept (k := 10) (by decide) s).trans (noRoom_kept _ _ _ _ _)) (.refl s)) rfl

theorem fillGrant_kept (st sig d : Nat) (x : TagAt) (h : Half) (s : State) : CountsKept s (fillGrant st sig d x h s) :=
  ((tagWrite_kept _ _ _ s).trans (readHalf_kept _ h _)).then_regs rfl

theorem fillRecalled_kept (st sig d i : Nat) (s : State) : CountsKept s (fillRecalled st sig d i s) := by
  unfold fillRecalled
  split
  · exact fillGrant_kept st sig d _ _ s
  · exact fillAbsent_kept st sig d s

theorem sweepExpire_kept (i t : Nat) (s : State) : CountsKept s (sweepExpire i t s) := by
  unfold sweepExpire
  split
  · exact .refl s
  · have read := (readHalf_kept i .a s).trans (readHalf_kept i .b _)
    refine .ite ?_ read
    refine (read.trans (hbmRead_kept (extAddr i 0) 16 _)).trans (.trans ?_ (flowEvent_kept _ _ _ _ _ _ _ _))
    refine .trans ?_ (tagRemove_kept (kbGuild_lt _) _ _)
    unfold ftmCnt
    split
    · exact ftmTick_kept (by decide) _
    · exact ftmTick_kept (by decide) _

theorem flowDelete_kept {g : Nat} (hg : g < 8) (x : TagAt) (s : State) : CountsKept s (flowDelete x g s) :=
  (ftmTick_kept (k := 14) (by decide) s).trans (tagRemove_kept hg x _)

theorem flowReadDone_kept (g ring : Nat) (c : Cmd) (stale : Nat) (s : State) :
    CountsKept s (flowReadDone g ring c stale s) := by
  unfold flowReadDone
  dsimp only
  split
  · exact complete_kept _ _ _ _ s
  · exact ((hbmRead_kept _ _ s).trans (.ite (dmaWritePoison_kept _ _ _ _) (dmaWrite_kept _ _ _ _))).trans
      (complete_kept _ _ _ _ _)

theorem flowDelDone_kept (g ring : Nat) (c : Cmd) (s : State) : CountsKept s (flowDelDone g ring c s) := by
  obtain ⟨read, guild⟩ := recordRead_kept g (descField c.desc 0 26) s
  unfold flowDelDone
  split
  · next t e => rw [e] at read; exact read.trans (complete_kept _ _ _ _ _)
  · next x kb t e =>
    rw [e] at read guild
    exact ((read.trans (hbmRead_kept _ _ _)).trans (flowDelete_kept (guild rfl) x _)).trans (complete_kept _ _ _ _ _)

theorem flowFlushStep_kept (g ring : Nat) (deleted : Bool) (s : State) :
    CountsKept s (flowFlushStep g ring deleted s) := by
  unfold flowFlushStep
  dsimp only
  split
  · exact .ite ((CountsKept.of_regs rfl).trans (complete_kept _ _ _ _ _)) (.of_regs rfl)
  · exact .of_regs rfl

theorem opFinish_kept (o : FtmOp) (s : State) : CountsKept s (opFinish o s) := by
  have dropped : CountsKept s (opDrop o.index s) := .of_regs rfl
  unfold opFinish
  dsimp only
  refine dropped.trans ?_
  split
  · exact .ite (fillConflict_kept _ _ _ _ _) (fillRecalled_kept _ _ _ _ _)
  · have read := recordBlock_kept o.index (opDrop o.index s)
    split
    · next e => rw [e] at read; exact read.trans (sweepExpire_kept _ _ _)
    · next e => rw [e] at read; exact read
  · split
    · exact .refl _
    · split
      · exact flowReadDone_kept _ _ _ _ _
      · exact .ite (complete_kept _ _ _ _ _) (flowDelDone_kept _ _ _ _)
      · next g ring _ _ _ _ _ _ _ =>
        obtain ⟨read, guild⟩ := recordRead_kept g o.index (opDrop o.index s)
        split
        · next e =>
          rw [e] at read guild
          exact read.trans (.ite (flowFlushStep_kept _ _ _ _)
            ((flowDelete_kept (guild rfl) _ _).trans (flowFlushStep_kept _ _ _ _)))
        · next e => rw [e] at read; exact read.trans (flowFlushStep_kept _ _ _ _)

theorem opAnswer_kept (i : Nat) (h : Half) (refused : Bool) (s : State) : CountsKept s (opAnswer i h refused s) := by
  unfold opAnswer
  split
  · exact .refl s
  · exact .ite (opFinish_kept _ s) (.of_regs rfl)

/-! ### The revival of a slot -/

theorem sweepAnswer_kept (i : Nat) (h : Half) (s : State) : CountsKept s (sweepAnswer i h s) :=
  .ite (opAnswer_kept i h false s) (.refl s)

theorem flushAnswer_kept (r : CmdRef) (drained : Bool) (s : State) : CountsKept s (flushAnswer r drained s) := by
  unfold flushAnswer
  dsimp only
  split
  · exact .ite ((CountsKept.of_regs rfl).trans (complete_kept _ _ _ _ _)) (.of_regs rfl)
  · exact .of_regs rfl

/-- A revival counts itself alone among the Icehouse's counters. -/
theorem slotRevive_kept (st m : Nat) (y : Slot) (s : State) :
    CountsKept (iceCnt st 5 (s.setSlot st m { y with st := .idle, flushFor := none, sweepFor := false }))
      (slotRevive st m y s) := by
  unfold slotRevive
  dsimp only
  have flushed (t : State) : CountsKept t (match y.flushFor with | some r => flushAnswer r false t | none => t) := by
    split
    · exact flushAnswer_kept _ _ t
    · exact .refl t
  exact .ite ((flushed _).trans (sweepAnswer_kept _ _ _)) (flushed _)

end Sys2Proof.Machine

/-! SUPPORT. O28: what a search that has taken its slot comes to, from the state in which its command was given (R162 to
R165, R170 to R172). -/
namespace Sys2Proof.Machine

/-! ### What the statement reads -/

theorem State.slot?_eq (s : State) (n m : Nat) : s.slot? n m = aget? m (iceView n s).slots := rfl

theorem State.entry?_eq (s : State) (n e : Nat) : s.entry? n e = aget? e (iceView n s).entries := rfl

theorem counts_of_view {n : Nat} {i : Fin 16} {s t : State}
    (h : (iceView n t).count i = ((iceView n s).count i + 1) % 2 ^ 48) : Counts (Reg.ICE_CNT_LO n i) 1 s t := h

theorem getB_iceEvent {n : Nat} {t : State} {f : Field} (h : f.of (iceView n t).event ≠ 0) :
    t.getB (Reg.ICE_EVENT n) f = true := bne_iff_ne.2 h

/-- The task holds the slot, which is stamped. -/
def SearchHeld (n k m : Nat) (x : Task) (y : Slot) (s t : State) : Prop :=
  (∃ z, t.slot? n m = some z ∧ z.st = .held ∧ z.holder = some k ∧ z.ref = true ∧ z.key = y.key ∧
    z.half = stampHalf (ftmNow s) y.half ∧ z.dirty = (y.dirty || z.half != y.half)) ∧
  TaskHas t n k fun u => u.ice = .holding m ∧ u.index = y.index ∧ u.cnt = x.cnt - 1

/-- The entry has a slot that was FREE, and asks the FTM for its half. -/
def SearchFilling (n e m : Nat) (x : Task) (s t : State) : Prop := s.slot? n m = none ∧
  t.slot? n m = some { st := .filling, sig := x.sig, d := x.d } ∧
  ∃ w, t.entry? n e = some w ∧ w.st = .fill ∧ w.slot = some m ∧
    aget [] n t.ftm.inbox = aget [] n s.ftm.inbox ++ [.fill x.sig x.d w.key]

/-- The search has joined the entry w. -/
def SearchJoined (n k e : Nat) (x : Task) (w : LeaseEntry) (s t : State) : Prop :=
  Counts (Reg.ICE_CNT_LO n 3) 1 s t ∧ (TaskHas t n k fun u => u.ice = .entry e ∧ u.cnt = x.cnt) ∧
  (¬(w.phase = .ended ∧ w.rule = none) → t.entry? n e = some { w with tasks := w.tasks ++ [k] }) ∧
  (w.phase = .ended → w.rule = none → x.key = some w.key →
    t.entry? n e = some { w with tasks := w.tasks ++ [k], phase := .rule })

/-- The search has a new entry. -/
def SearchEntered (n k : Nat) (x : Task) (s t : State) : Prop :=
  Counts (Reg.ICE_CNT_LO n 2) 1 s t ∧ ∃ e w, s.entry? n e = none ∧ t.entry? n e = some w ∧ w.tasks = [k] ∧
    w.key = x.key.getD [] ∧ w.ruleBank = x.tag ∧ (TaskHas t n k fun u => u.ice = .entry e ∧ u.cnt = x.cnt) ∧
    (freeSlots s n = 0 → w.st = .slot ∧ Counts (Reg.ICE_CNT_LO n 14) 1 s t) ∧
    (freeSlots s n ≠ 0 → ∃ m, SearchFilling n e m x s t)

/-- The search is refused. -/
def SearchRefused (n k : Nat) (x : Task) (s t : State) : Prop :=
  (t.stn n).ice.entries = (s.stn n).ice.entries ∧ (TaskHas t n k fun u => u.ice = .refused ∧ u.cnt = x.cnt) ∧
  (x.waitRefused = false → Counts (Reg.ICE_CNT_LO n 13) 1 s t ∧
    t.getB (Reg.ICE_EVENT n) Fld.ICE_EVENT_WAIT_REFUSED = true)

/-- What a search with no hit comes to. -/
def SearchMissed (n k : Nat) (x : Task) (s t : State) : Prop :=
  (∀ e w, entryOf s n x.sig x.d = some (e, w) → s.entry? n e = some w → SearchJoined n k e x w s t) ∧
  (entryOf s n x.sig x.d = none → (s.stn n).ice.entries.length < 256 → SearchEntered n k x s t) ∧
  (entryOf s n x.sig x.d = none → 256 ≤ (s.stn n).ice.entries.length → SearchRefused n k x s t)

/-- What a search that hits slot m, which is y, comes to. -/
def SearchMet (n k m : Nat) (x : Task) (y : Slot) (s t : State) : Prop :=
  (y.st = .idle → SearchHeld n k m x y s t) ∧
  (y.st = .draining → y.flushFor = none → y.sweepFor = false →
    SearchHeld n k m x y s t ∧ Counts (Reg.ICE_CNT_LO n 5) 1 s t) ∧
  (y.st = .held → Counts (Reg.ICE_CNT_LO n 4) 1 s t ∧
    t.slot? n m = some { y with chain := chainInsert s n k x.express y.chain } ∧
    TaskHas t n k fun u => u.ice = .chained m ∧ u.cnt = x.cnt) ∧
  (y.st = .recalling → entryOf s n x.sig x.d = none → (s.stn n).ice.entries.length < 256 →
    Counts (Reg.ICE_CNT_LO n 2) 1 s t ∧ t.slot? n m = some y ∧
    ∃ e w, t.entry? n e = some w ∧ w.st = .release ∧ w.tasks = [k])

/-- Slot m holds the search's full key. -/
def SlotIsKey (n m : Nat) (x : Task) (s : State) : Prop :=
  ∃ y, s.slot? n m = some y ∧ y.st ≠ .filling ∧ y.sig = x.sig ∧ y.d = x.d ∧ x.key = some (kbKey y.key)

/-! ### A search under way -/

/-- From s to a a search has counted its slots, steps and hits, and marked its several matches: its outcome is open. -/
structure SearchOpen (n : Nat) (s a : State) : Prop where
  rest : iceView n a = { iceView n s with count := (iceView n a).count, event := (iceView n a).event }
  count : ∀ i : Fin 16, i ≠ 0 → i ≠ 1 → i ≠ 11 → i ≠ 12 → (iceView n a).count i = (iceView n s).count i

/-- The counters of slots, several matches and further steps are as they were. -/
def StepsKept (n : Nat) (a t : State) : Prop :=
  ∀ i : Fin 16, i = 0 ∨ i = 11 ∨ i = 12 → (iceView n t).count i = (iceView n a).count i

namespace SearchOpen
variable {n : Nat} {s a : State} (h : SearchOpen n s a)
include h

theorem clean (hs : (iceView n s).Clean) : (iceView n a).Clean := by
  rw [h.rest]
  exact hs

theorem task? (k : Nat) : a.task? n k = s.task? n k := congrArg (fun v : IceView => aget? k v.tasks) h.rest

theorem slot? (m : Nat) : a.slot? n m = s.slot? n m := congrArg (fun v : IceView => aget? m v.slots) h.rest

theorem entry? (e : Nat) : a.entry? n e = s.entry? n e := congrArg (fun v : IceView => aget? e v.entries) h.rest

theorem entries : (iceView n a).entries = (s.stn n).ice.entries := congrArg IceView.entries h.rest

theorem entryOf (sig d : Nat) : entryOf a n sig d = entryOf s n sig d :=
  congrArg (fun l => l.find? fun e : Nat × LeaseEntry => e.2.sig == sig && e.2.d == d) h.entries

theorem slots : (iceView n a).slots = (s.stn n).ice.slots := congrArg IceView.slots h.rest

theorem inbox : (iceView n a).inbox = aget [] n s.ftm.inbox := congrArg IceView.inbox h.rest

theorem now : (iceView n a).now = ftmNow s := congrArg IceView.now h.rest

theorem chainInsert (k : Nat) (express : Bool) (c : List Nat) :
    chainInsert a n k express c = chainInsert s n k express c := by
  simp only [Machine.chainInsert, h.task?]

theorem slotHit (m : Nat) (x : Task) : slotHit a n m x = slotHit s n m x := by
  simp only [Machine.slotHit, h.slot?]

/-- An outcome that is counted once more than before the search's command. -/
theorem counts {i : Fin 16} {t : State} (hi : i ≠ 0 ∧ i ≠ 1 ∧ i ≠ 11 ∧ i ≠ 12)
    (e : (iceView n t).count i = ((iceView n a).count i + 1) % 2 ^ 48) : Counts (Reg.ICE_CNT_LO n i) 1 s t := by
  obtain ⟨h0, h1, h11, h12⟩ := hi
  rw [h.count i h0 h1 h11 h12] at e
  exact counts_of_view e

theorem of_view {b : State} (e : iceView n b = iceView n a) : SearchOpen n s b :=
  ⟨by rw [e]; exact h.rest, by rw [e]; exact h.count⟩

theorem bump {i : Fin 16} (hi : i = 0 ∨ i = 1 ∨ i = 11 ∨ i = 12) : SearchOpen n s (iceCnt n i a) := by
  have counted := iceView_iceCnt n i a
  refine ⟨?_, fun j h0 h1 h11 h12 => ?_⟩
  · rw [counted, IceView.bump, h.rest]
  · have ne : j ≠ i := by rintro rfl; simp [h0, h1, h11, h12] at hi
    rw [counted, IceView.count_bump_ne ne]
    exact h.count j h0 h1 h11 h12

theorem raise (f : Field) : SearchOpen n s (a.raise (Reg.ICE_EVENT n) f) := by
  have raised := iceView_raise n f a
  refine ⟨?_, fun j h0 h1 h11 h12 => ?_⟩
  · rw [raised, h.rest]
  · rw [raised]
    exact h.count j h0 h1 h11 h12

end SearchOpen

theorem SearchOpen.refl (n : Nat) (s : State) : SearchOpen n s s := ⟨rfl, fun _ _ _ _ _ => rfl⟩

theorem StepsKept.trans {n : Nat} {a b t : State} (h : StepsKept n a b) (h' : StepsKept n b t) : StepsKept n a t :=
  fun i hi => (h' i hi).trans (h i hi)

theorem StepsKept.of_view {n : Nat} {a b : State} (h : iceView n b = iceView n a) : StepsKept n a b :=
  fun i _ => congrArg (fun v : IceView => v.count i) h

theorem StepsKept.of_countsKept {n : Nat} {a b : State} (hn : n < 12) (h : CountsKept a b) : StepsKept n a b :=
  fun i _ => h.cntGet hn i

theorem stepsKept_iceCnt (n : Nat) {i : Fin 16} (hi : i ≠ 0 ∧ i ≠ 11 ∧ i ≠ 12) (a : State) :
    StepsKept n a (iceCnt n i a) := fun j hj => by
  have ne : j ≠ i := by rintro rfl; simp [hi] at hj
  rw [iceView_iceCnt, IceView.count_bump_ne ne]

/-! ### The search misses -/

theorem EntryMade.stepsKept {v : IceView} {e : Nat} {x : LeaseEntry} {recalling : Bool} {w : IceView}
    (h : EntryMade v e x recalling w) {i : Fin 16} (hi : i ≠ 14) : w.count i = v.count i := by
  cases recalling with
  | true => rw [h.release rfl]
  | false =>
    by_cases free : 8192 - v.slots.length = 0
    · rw [h.wait rfl free]
      exact IceView.count_bump_ne hi v
    · obtain ⟨m, -, e⟩ := h.fill rfl free
      rw [e]

theorem EntryMade.tasks {v : IceView} {e : Nat} {x : LeaseEntry} {recalling : Bool} {w : IceView}
    (h : EntryMade v e x recalling w) : w.tasks = v.tasks := by
  cases recalling with
  | true => rw [h.release rfl]
  | false =>
    by_cases free : 8192 - v.slots.length = 0
    · rw [h.wait rfl free]
      rfl
    · obtain ⟨m, -, e⟩ := h.fill rfl free
      rw [e]

theorem aget?_isSome_of_mem {α : Type} {e : Nat × α} {l : List (Nat × α)} (h : e ∈ l) : (aget? e.1 l).isSome := by
  induction l with
  | nil => cases h
  | cons f r ih =>
    by_cases same : f.1 = e.1
    · simp [aget?, same]
    · have mem : e ∈ r := (List.mem_cons.1 h).resolve_left fun k => same (k ▸ rfl)
      simpa [aget?, same] using ih mem

section
variable {n k : Nat} {s a : State} {x : Task} (hs : (iceView n s).Clean) (h : SearchOpen n s a)
  (hx : s.task? n k = some x)
include hs h hx

theorem searchMiss_joined {e : Nat} {w : LeaseEntry} (he : entryOf s n x.sig x.d = some (e, w))
    (hw : s.entry? n e = some w) : SearchJoined n k e x w s (searchMiss n k false a) := by
  obtain ⟨z, u, view, entry, ice, cnt, going, ended⟩ :=
    searchMiss_joins (h.clean hs) ((h.task? k).trans hx) ((h.entryOf _ _).trans he) ((h.entry? e).trans hw) false
  refine ⟨h.counts (i := 3) (by decide) ?_, ⟨u, ?_, ice, cnt⟩, fun c => ?_, fun c r key => ?_⟩
  · rw [view]
    exact IceView.count_bump_same 3 _
  · rw [State.task?_eq, view]
    exact aget?_aset_same _ _ _
  · rw [← going c]
    exact entry
  · rw [← ended c r key]
    exact entry

theorem searchMiss_entered (he : entryOf s n x.sig x.d = none) (room : (s.stn n).ice.entries.length < 256) :
    SearchEntered n k x s (searchMiss n k false a) := by
  have room' : (iceView n a).entries.length < 256 := by rw [h.entries]; exact room
  obtain ⟨u, ice, cnt, made⟩ :=
    searchMiss_enters (h.clean hs) ((h.task? k).trans hx) ((h.entryOf _ _).trans he) room' false
  have slots : (iceView n a).slots.length = (s.stn n).ice.slots.length := congrArg List.length h.slots
  have number := (h.entry? _).symm.trans (entry?_entryNumber room')
  generalize entryNumber a n = e at *
  have entered : Counts (Reg.ICE_CNT_LO n 2) 1 s (searchMiss n k false a) :=
    h.counts (i := 2) (by decide) ((made.stepsKept (by decide)).trans (IceView.count_bump_same 2 _))
  have task : (searchMiss n k false a).task? n k = some u := by
    rw [State.task?_eq, made.tasks]
    exact aget?_aset_same _ _ _
  refine ⟨entered, e, ?_⟩
  by_cases free : freeSlots s n = 0
  · have view := made.wait rfl ((congrArg (8192 - ·) slots).trans free)
    refine ⟨{ x.newEntry k with st := .slot }, number, ?_, rfl, rfl, rfl, ⟨u, task, ice, cnt⟩, fun _ => ⟨rfl, ?_⟩,
      fun c => absurd free c⟩
    · rw [State.entry?_eq, view]
      exact aget?_aset_same _ _ _
    · refine h.counts (i := 14) (by decide) ?_
      rw [view]
      refine (IceView.count_bump_same 14 _).trans ?_
      exact congrArg (fun c => (c + 1) % 2 ^ 48) (IceView.count_bump_ne (i := 2) (j := 14) (by decide) _)
  · obtain ⟨m, unused, view⟩ := made.fill rfl fun c => free ((congrArg (8192 - ·) slots).symm.trans c)
    have own : (searchMiss n k false a).entry? n e =
        some { x.newEntry k with st := .fill, phase := .sent, slot := some m } := by
      rw [State.entry?_eq, view]
      exact aget?_aset_same _ _ _
    refine ⟨_, number, own, rfl, rfl, rfl, ⟨u, task, ice, cnt⟩, fun c => absurd c free,
      fun _ => ⟨m, (h.slot? m).symm.trans unused, ?_, _, own, rfl, rfl, ?_⟩⟩
    · rw [State.slot?_eq, view]
      exact aget?_aset_same _ _ _
    · refine (congrArg IceView.inbox view).trans ?_
      exact congrArg (· ++ _) h.inbox

theorem searchMiss_isRefused (he : entryOf s n x.sig x.d = none) (full : 256 ≤ (s.stn n).ice.entries.length) :
    SearchRefused n k x s (searchMiss n k false a) := by
  obtain ⟨u, ice, cnt, task, again, first⟩ := searchMiss_refused (h.clean hs) ((h.task? k).trans hx)
    ((h.entryOf _ _).trans he) (by rw [h.entries]; exact full) false
  refine ⟨?_, ⟨u, task, ice, cnt⟩, fun c => ⟨h.counts (i := 13) (by decide) ?_, getB_iceEvent ?_⟩⟩
  · have entries : (iceView n (searchMiss n k false a)).entries = (iceView n a).entries := by
      cases hr : x.waitRefused with
      | true => rw [again hr]
      | false => rw [first hr]; rfl
    exact entries.trans h.entries
  · rw [first c]
    exact IceView.count_bump_same 13 _
  · rw [first c]
    simp [Field.of_into, Fld.ICE_EVENT_WAIT_REFUSED]

theorem searchMiss_missed : SearchMissed n k x s (searchMiss n k false a) :=
  ⟨fun _ _ => searchMiss_joined hs h hx, searchMiss_entered hs h hx, searchMiss_isRefused hs h hx⟩

/-- A miss, whether after a hit on a RECALLING slot or not, is no step of a search. -/
theorem searchMiss_stepsKept (recalling : Bool) : StepsKept n a (searchMiss n k recalling a) := by
  intro i hi
  have ne {j : Fin 16} (hj : j ≠ 0 ∧ j ≠ 11 ∧ j ≠ 12) : i ≠ j := by rintro rfl; simp [hj] at hi
  have hs' := h.clean hs
  have hx' := (h.task? k).trans hx
  cases he : entryOf a n x.sig x.d with
  | some p =>
    obtain ⟨e, w'⟩ := p
    obtain ⟨w, hw⟩ := Option.isSome_iff_exists.1 (aget?_isSome_of_mem (List.mem_of_find?_eq_some he))
    obtain ⟨z, u, view, -⟩ := searchMiss_joins hs' hx' he hw recalling
    rw [view]
    exact IceView.count_bump_ne (ne (by decide)) _
  | none =>
    by_cases room : (iceView n a).entries.length < 256
    · obtain ⟨u, -, -, made⟩ := searchMiss_enters hs' hx' he room recalling
      exact (made.stepsKept (ne (by decide))).trans (IceView.count_bump_ne (ne (by decide)) _)
    · obtain ⟨u, -, -, -, again, first⟩ := searchMiss_refused hs' hx' he (Nat.le_of_not_lt room) recalling
      cases hr : x.waitRefused with
      | true => rw [again hr]
      | false =>
        rw [first hr]
        exact IceView.count_bump_ne (ne (by decide)) _

end

/-! ### The search hits -/

theorem slotHit_of_isKey {n m : Nat} {x : Task} {s : State} (h : SlotIsKey n m x s) :
    ∃ y, slotHit s n m x = some y ∧ s.slot? n m = some y ∧ y.st ≠ .filling := by
  obtain ⟨y, hy, valid, sig, d, key⟩ := h
  exact ⟨y, by simp [slotHit, hy, valid, sig, d, key], hy, valid⟩

theorem slotHit_of_not_isKey {n m : Nat} {x : Task} {s : State} (h : ¬ SlotIsKey n m x s) : slotHit s n m x = none := by
  unfold slotHit
  split
  · next y hy =>
    split
    · next hit =>
      simp only [Bool.and_eq_true, bne_iff_ne, beq_iff_eq] at hit
      obtain ⟨⟨⟨valid, sig⟩, d⟩, key⟩ := hit
      exact absurd ⟨y, hy, valid, sig, d, key⟩ h
    · rfl
  · rfl

/-- A grant of a slot that is not RECALLING holds it. -/
theorem grant_held {n k m : Nat} {s b : State} {x : Task} {y z : Slot} (hb : (iceView n b).Clean)
    (now : (iceView n b).now = ftmNow s) (hx : b.task? n k = some x) (hw : x.st = .waiting) (hz : b.slot? n m = some z)
    (st : z.st ≠ .recalling) (index : z.index = y.index) (key : z.key = y.key) (half : z.half = y.half)
    (dirty : z.dirty = y.dirty) : SearchHeld n k m x y s (grant n m k none b) := by
  obtain ⟨view, u, task, ice, at_, cnt⟩ := grant_spec hb hz hx hw
  refine ⟨⟨z.granted (ftmNow s) k, ?_, if_neg st, rfl, rfl, key, ?_, ?_⟩, u, task, ice, at_.trans index, cnt⟩
  · rw [State.slot?_eq, view, now]
    exact aget?_aset_same _ _ _
  · exact congrArg (stampHalf (ftmNow s)) half
  · simp only [Slot.granted, half, dirty]

section
variable {n k m : Nat} {y : Slot} (a : State)

theorem searchHit_eq_of_idle (h : y.st = .idle) : searchHit n k m y a = grant n m k none (iceCnt n 1 a) := by
  simp only [searchHit, h]

theorem searchHit_eq_of_draining (h : y.st = .draining) :
    searchHit n k m y a = grant n m k none (slotRevive n m y (iceCnt n 1 a)) := by
  simp only [searchHit, h]

theorem searchHit_eq_of_held (h : y.st = .held) : searchHit n k m y a = chain n m k (iceCnt n 4 (iceCnt n 1 a)) := by
  simp only [searchHit, h]

theorem searchHit_eq_of_recalling (h : y.st = .recalling) : searchHit n k m y a = searchMiss n k true a := by
  simp only [searchHit, h]

theorem searchHit_eq_of_filling (h : y.st = .filling) : searchHit n k m y a = searchMiss n k true a := by
  simp only [searchHit, h]

end

section
variable {n k m : Nat} {s a : State} {x : Task} {y : Slot} (hs : (iceView n s).Clean) (h : SearchOpen n s a)
  (hx : s.task? n k = some x)
include hs h hx

theorem searchHit_idle (hy : s.slot? n m = some y) (hw : x.st = .waiting) (idle : y.st = .idle) :
    SearchHeld n k m x y s (searchHit n k m y a) := by
  have hit : SearchOpen n s (iceCnt n 1 a) := h.bump (i := 1) (by decide)
  rw [searchHit_eq_of_idle a idle]
  exact grant_held (hit.clean hs) hit.now ((hit.task? k).trans hx) hw ((hit.slot? m).trans hy) (by simp [idle]) rfl rfl
    rfl rfl

/-- A revival counts itself, and the slot is granted as an IDLE one. -/
theorem searchHit_draining (hw : x.st = .waiting) (draining : y.st = .draining) (flush : y.flushFor = none)
    (sweep : y.sweepFor = false) :
    SearchHeld n k m x y s (searchHit n k m y a) ∧ Counts (Reg.ICE_CNT_LO n 5) 1 s (searchHit n k m y a) := by
  have hit : SearchOpen n s (iceCnt n 1 a) := h.bump (i := 1) (by decide)
  have revived := slotRevive_spec (n := n) (m := m) (s := iceCnt n 1 a) flush sweep
  rw [searchHit_eq_of_draining a draining]
  generalize slotRevive n m y (iceCnt n 1 a) = b at *
  have clean : (iceView n b).Clean := by rw [revived]; exact hit.clean hs
  have now : (iceView n b).now = ftmNow s := by rw [revived]; exact hit.now
  have task : b.task? n k = some x := by
    rw [State.task?_eq, revived]
    exact (hit.task? k).trans hx
  have slot : b.slot? n m = some { y with st := .idle, flushFor := none, sweepFor := false } := by
    rw [State.slot?_eq, revived]
    exact aget?_aset_same _ _ _
  obtain ⟨view, -⟩ := grant_spec clean slot task hw
  refine ⟨grant_held clean now task hw slot (by simp) rfl rfl rfl rfl, hit.counts (i := 5) (by decide) ?_⟩
  rw [view]
  refine (congrArg (fun v : IceView => v.count 5) revived).trans ?_
  exact IceView.count_bump_same 5 _

theorem searchHit_chained (hy : s.slot? n m = some y) (held : y.st = .held) :
    let t := searchHit n k m y a
    Counts (Reg.ICE_CNT_LO n 4) 1 s t ∧
      t.slot? n m = some { y with chain := chainInsert s n k x.express y.chain } ∧
      TaskHas t n k fun u => u.ice = .chained m ∧ u.cnt = x.cnt := by
  have hit : SearchOpen n s (iceCnt n 1 a) := h.bump (i := 1) (by decide)
  have counted : iceView n (iceCnt n 4 (iceCnt n 1 a)) = (iceView n (iceCnt n 1 a)).bump 4 := iceView_iceCnt n 4 _
  have task : (iceCnt n 4 (iceCnt n 1 a)).task? n k = some x := by
    rw [State.task?_eq, counted]
    exact (hit.task? k).trans hx
  have slot : (iceCnt n 4 (iceCnt n 1 a)).slot? n m = some y := by
    rw [State.slot?_eq, counted]
    exact (hit.slot? m).trans hy
  have insert : chainInsert (iceCnt n 4 (iceCnt n 1 a)) n k x.express y.chain = chainInsert s n k x.express y.chain := by
    refine Eq.trans ?_ (hit.chainInsert k x.express y.chain)
    have tasks (j : Nat) : (iceCnt n 4 (iceCnt n 1 a)).task? n j = (iceCnt n 1 a).task? n j :=
      congrArg (fun v : IceView => aget? j v.tasks) counted
    simp only [chainInsert, tasks]
  have view := chain_spec (by rw [counted]; exact hit.clean hs) slot task
  rw [insert] at view
  dsimp only
  rw [searchHit_eq_of_held a held]
  refine ⟨hit.counts (i := 4) (by decide) ?_, ?_, { x with ice := .chained m }, ?_, rfl, rfl⟩
  · rw [view]
    refine (congrArg (fun v : IceView => v.count 4) counted).trans ?_
    exact IceView.count_bump_same 4 _
  · rw [State.slot?_eq, view]
    exact aget?_aset_same _ _ _
  · rw [State.task?_eq, view]
    exact aget?_aset_same _ _ _

/-- A hit on a RECALLING slot takes an entry that waits for its release (R171). -/
theorem searchHit_recalling (hy : s.slot? n m = some y) (recalling : y.st = .recalling) (he : entryOf s n x.sig x.d = none)
    (room : (s.stn n).ice.entries.length < 256) :
    let t := searchHit n k m y a
    Counts (Reg.ICE_CNT_LO n 2) 1 s t ∧ t.slot? n m = some y ∧
      ∃ e w, t.entry? n e = some w ∧ w.st = .release ∧ w.tasks = [k] := by
  obtain ⟨u, -, -, made⟩ := searchMiss_enters (h.clean hs) ((h.task? k).trans hx) ((h.entryOf _ _).trans he)
    (by rw [h.entries]; exact room) true
  have view := made.release rfl
  dsimp only
  rw [searchHit_eq_of_recalling a recalling]
  refine ⟨h.counts (i := 2) (by decide) ?_, ?_, entryNumber a n, { x.newEntry k with st := .release }, ?_, rfl, rfl⟩
  · rw [view]
    exact IceView.count_bump_same 2 _
  · rw [State.slot?_eq, view]
    exact (h.slot? m).trans hy
  · rw [State.entry?_eq, view]
    exact aget?_aset_same _ _ _

theorem searchHit_met (hy : s.slot? n m = some y) (hw : x.st = .waiting) :
    SearchMet n k m x y s (searchHit n k m y a) :=
  ⟨searchHit_idle hs h hx hy hw, searchHit_draining hs h hx hw, searchHit_chained hs h hx hy,
    searchHit_recalling hs h hx hy⟩

/-- A hit is no step of a search. -/
theorem searchHit_stepsKept (hn : n < 12) : StepsKept n a (searchHit n k m y a) := by
  have hit : StepsKept n a (iceCnt n 1 a) := stepsKept_iceCnt n (i := 1) (by decide) a
  have granted (b : State) : StepsKept n b (grant n m k none b) := .of_countsKept hn (grant_kept n m k b)
  have missed := searchMiss_stepsKept hs h hx true
  cases state : y.st with
  | idle =>
    rw [searchHit_eq_of_idle a state]
    exact hit.trans (granted _)
  | draining =>
    have slotted (v : Slot) : StepsKept n (iceCnt n 1 a) ((iceCnt n 1 a).setSlot n m v) := fun i _ => by
      rw [iceView_setSlot]
    have counted (v : Slot) : StepsKept n ((iceCnt n 1 a).setSlot n m v) (iceCnt n 5 ((iceCnt n 1 a).setSlot n m v)) :=
      stepsKept_iceCnt n (i := 5) (by decide) _
    rw [searchHit_eq_of_draining a state]
    exact (((hit.trans (slotted _)).trans (counted _)).trans (.of_countsKept hn (slotRevive_kept n m y _))).trans
      (granted _)
  | held =>
    have counted : StepsKept n (iceCnt n 1 a) (iceCnt n 4 (iceCnt n 1 a)) :=
      stepsKept_iceCnt n (i := 4) (by decide) _
    have chained (b : State) : CountsKept b (chain n m k b) := by
      unfold chain
      split
      · exact .trans (.of_regs rfl) (setTask_kept n k _ _)
      · exact .refl b
    rw [searchHit_eq_of_held a state]
    exact (hit.trans counted).trans (.of_countsKept hn (chained _))
  | recalling => exact searchHit_eq_of_recalling a state ▸ missed
  | filling => exact searchHit_eq_of_filling a state ▸ missed

end

/-! ### A step of the search -/

section
variable {n k m : Nat} {s a : State} {x : Task} (hs : (iceView n s).Clean) (h : SearchOpen n s a)
  (hx : s.task? n k = some x) (rest : List Nat)
include hs h hx

/-- The slot is read as it is, and compared. -/
theorem searchStep_eq : ∃ b, iceView n b = iceView n a ∧
    (∀ y, slotHit s n m x = some y → searchStep n k m rest a = searchHit n k m y b) ∧
    (slotHit s n m x = none → searchStep n k m rest a =
      if rest.isEmpty then searchMiss n k false b else b.setTask n k { x with ice := .steps rest }) := by
  have view := iceView_memEnergy n 5 n a
  have read := h.of_view view
  refine ⟨memEnergy 5 n a, view, ?_⟩
  unfold searchStep slotRead
  rw [odRead_clean (h.clean hs)]
  dsimp only
  rw [read.task?, hx]
  dsimp only
  rw [read.slotHit]
  exact ⟨fun y hit => by simp only [hit], fun none => by simp only [none]⟩

theorem searchStep_met (hn : n < 12) (hw : x.st = .waiting) (key : SlotIsKey n m x s) :
    (∀ y, s.slot? n m = some y → SearchMet n k m x y s (searchStep n k m rest a)) ∧
      StepsKept n a (searchStep n k m rest a) := by
  obtain ⟨b, view, e, -⟩ := searchStep_eq hs h hx (m := m) rest
  have opened := h.of_view view
  obtain ⟨y, hit, hy, -⟩ := slotHit_of_isKey key
  rw [e y hit]
  refine ⟨fun z hz => ?_, (StepsKept.of_view view).trans (searchHit_stepsKept hs opened hx hn)⟩
  obtain rfl : y = z := Option.some.inj (hy.symm.trans hz)
  exact searchHit_met hs opened hx hy hw

theorem searchStep_missed (key : ¬ SlotIsKey n m x s) :
    SearchMissed n k x s (searchStep n k m [] a) ∧ StepsKept n a (searchStep n k m [] a) := by
  obtain ⟨b, view, -, e⟩ := searchStep_eq hs h hx (m := m) []
  have opened := h.of_view view
  rw [e (slotHit_of_not_isKey key)]
  exact ⟨searchMiss_missed hs opened hx, (StepsKept.of_view view).trans (searchMiss_stepsKept hs opened hx false)⟩

/-- A slot that does not hold the key, with matches left: the next step is to come. -/
theorem searchStep_further (key : ¬ SlotIsKey n m x s) (more : rest ≠ []) :
    let t := searchStep n k m rest a
    t.task? n k = some { x with ice := .steps rest } ∧ (iceView n t).event = (iceView n a).event ∧ StepsKept n a t := by
  obtain ⟨b, view, -, e⟩ := searchStep_eq hs h hx (m := m) rest
  have moved := taskMoved_setTask ((h.of_view view).clean hs) k { x with ice := .steps rest }
  dsimp only
  rw [e (slotHit_of_not_isKey key), if_neg (by simpa using more)]
  refine ⟨moved.task, ?_, fun i _ => ?_⟩
  · rw [moved.rest, view]
  · rw [moved.rest, view]

end

/-! ### Slots of the search (R162) -/

/-- The search has taken its slot, and has been counted. -/
theorem searchMade_spec (n : Nat) (x : Task) (s : State) :
    ∃ a, searchMade n x s = (searchMatches s n x.sig x.d, a) ∧ SearchOpen n s a ∧ Counts (Reg.ICE_CNT_LO n 0) 1 s a ∧
      (1 < (searchMatches s n x.sig x.d).length → Counts (Reg.ICE_CNT_LO n 11) 1 s a ∧
        a.getB (Reg.ICE_EVENT n) Fld.ICE_EVENT_MULTI_MATCH = true) := by
  have taken : SearchOpen n s (iceSearchSlot n s) := (SearchOpen.refl n s).of_view (iceView_iceSearchSlot n s)
  have counted : iceView n (iceCnt n 0 (iceSearchSlot n s)) = (iceView n s).bump 0 :=
    (iceView_iceCnt n 0 _).trans (congrArg _ (iceView_iceSearchSlot n s))
  have same : iceView n (energy n 1 0 (evCount n 5 1 (some x.frame.guild) (iceCnt n 0 (iceSearchSlot n s)))) =
      iceView n (iceCnt n 0 (iceSearchSlot n s)) := (iceView_energy ..).trans (iceView_evCount ..)
  have opened := (taken.bump (i := 0) (by decide)).of_view same
  rw [counted] at same
  unfold searchMade
  dsimp only
  generalize energy n 1 0 (evCount n 5 1 (some x.frame.guild) (iceCnt n 0 (iceSearchSlot n s))) = b at *
  have slots : (b.stn n).ice.slots = (s.stn n).ice.slots := opened.slots
  have matched : searchMatches b n x.sig x.d = searchMatches s n x.sig x.d := by simp only [searchMatches, slots]
  have slot : (iceView n b).count 0 = ((iceView n s).count 0 + 1) % 2 ^ 48 := by
    rw [same]
    exact IceView.count_bump_same 0 _
  rw [matched]
  split
  · next one => exact ⟨b, rfl, opened, counts_of_view (i := 0) slot, fun c => absurd one (Nat.not_le.2 c)⟩
  · have view : iceView n ((iceCnt n 11 b).raise (Reg.ICE_EVENT n) Fld.ICE_EVENT_MULTI_MATCH) =
        { (iceView n b).bump 11 with event := Fld.ICE_EVENT_MULTI_MATCH.into (iceView n b).event 1 } := by
      have bumped : iceView n (iceCnt n 11 b) = (iceView n b).bump 11 := iceView_iceCnt n 11 b
      rw [iceView_raise, bumped]
      rfl
    have counting : SearchOpen n s (iceCnt n 11 b) := opened.bump (i := 11) (by decide)
    refine ⟨_, rfl, counting.raise _, counts_of_view (i := 0) ?_,
      fun _ => ⟨counts_of_view (i := 11) ?_, getB_iceEvent ?_⟩⟩
    · rw [view]
      exact (IceView.count_bump_ne (i := 11) (j := 0) (by decide) _).trans slot
    · rw [view, same]
      refine (IceView.count_bump_same 11 _).trans ?_
      exact congrArg (fun c => (c + 1) % 2 ^ 48) (IceView.count_bump_ne (i := 0) (j := 11) (by decide) _)
    · rw [view]
      simp [Field.of_into, Fld.ICE_EVENT_MULTI_MATCH]

theorem searchFurther_spec (n : Nat) (s : State) :
    SearchOpen n s (searchFurther n s) ∧ Counts (Reg.ICE_CNT_LO n 12) 1 s (searchFurther n s) := by
  have taken : SearchOpen n s (iceSearchSlot n s) := (SearchOpen.refl n s).of_view (iceView_iceSearchSlot n s)
  have counted : iceView n (searchFurther n s) = (iceView n (iceSearchSlot n s)).bump 12 := iceView_iceCnt n 12 _
  refine ⟨taken.bump (i := 12) (by decide), counts_of_view (i := 12) ?_⟩
  rw [counted, iceView_iceSearchSlot]
  exact IceView.count_bump_same 12 _

/-- What the search's slots and steps counted before an outcome stands after it. -/
theorem StepsKept.counts {n : Nat} {s a t : State} (h : StepsKept n a t) {i : Fin 16} (hi : i = 0 ∨ i = 11 ∨ i = 12)
    (c : Counts (Reg.ICE_CNT_LO n i) 1 s a) : Counts (Reg.ICE_CNT_LO n i) 1 s t := (h i hi).trans c

/-! ### The commands -/

section
variable {n k : Nat} {s : State} {x : Task} (hs : (iceView n s).Clean) (hx : s.task? n k = some x)
include hs hx

/-- A search with no match is a miss. -/
theorem searchRun_missed (none : searchMatches s n x.sig x.d = []) :
    SearchMissed n k x s (searchRun n k s) ∧ Counts (Reg.ICE_CNT_LO n 0) 1 s (searchRun n k s) := by
  obtain ⟨a, made, opened, slot, -⟩ := searchMade_spec n x s
  simp only [searchRun, hx, made, none]
  exact ⟨searchMiss_missed hs opened hx, (searchMiss_stepsKept hs opened hx false).counts (i := 0) (by decide) slot⟩

/-- A search whose first match holds its key is a hit. -/
theorem searchRun_met (hn : n < 12) (hw : x.st = .waiting) {m : Nat} {rest : List Nat}
    (some : searchMatches s n x.sig x.d = m :: rest) (key : SlotIsKey n m x s) :
    (∀ y, s.slot? n m = .some y → SearchMet n k m x y s (searchRun n k s)) ∧
      Counts (Reg.ICE_CNT_LO n 0) 1 s (searchRun n k s) ∧
      (rest ≠ [] → Counts (Reg.ICE_CNT_LO n 11) 1 s (searchRun n k s)) := by
  obtain ⟨a, made, opened, slot, several⟩ := searchMade_spec n x s
  simp only [searchRun, hx, made, some]
  obtain ⟨met, kept⟩ := searchStep_met hs opened hx rest hn hw key
  refine ⟨met, kept.counts (i := 0) (by decide) slot, fun more => ?_⟩
  have two : 1 < (searchMatches s n x.sig x.d).length := by
    rw [some]
    exact Nat.succ_lt_succ (List.length_pos_of_ne_nil more)
  exact kept.counts (i := 11) (by decide) (several two).1

/-- A search whose first match of several does not hold its key goes on. -/
theorem searchRun_further {m : Nat} {rest : List Nat} (some : searchMatches s n x.sig x.d = m :: rest)
    (more : rest ≠ []) (key : ¬ SlotIsKey n m x s) :
    let t := searchRun n k s
    Counts (Reg.ICE_CNT_LO n 0) 1 s t ∧ Counts (Reg.ICE_CNT_LO n 11) 1 s t ∧
      t.getB (Reg.ICE_EVENT n) Fld.ICE_EVENT_MULTI_MATCH = true ∧
      t.task? n k = .some { x with ice := .steps rest } := by
  obtain ⟨a, made, opened, slot, several⟩ := searchMade_spec n x s
  have two : 1 < (searchMatches s n x.sig x.d).length := by
    rw [some]
    exact Nat.succ_lt_succ (List.length_pos_of_ne_nil more)
  obtain ⟨matches_, marked⟩ := several two
  obtain ⟨task, event, kept⟩ := searchStep_further hs opened hx (m := m) rest key more
  simp only [searchRun, hx, made, some]
  refine ⟨kept.counts (i := 0) (by decide) slot, kept.counts (i := 11) (by decide) matches_, getB_iceEvent ?_, task⟩
  rw [event]
  exact bne_iff_ne.1 marked

end

section
variable {s : State} {st : Station} {k : Fin 2048} {x : Task} (hr : s.running) (hx : s.task? st.val k.val = some x)
include hr hx

theorem iceSearch_answers (hw : x.st = .waiting) (turn : slotTurn s st.val x = true) (ice : x.ice = .search) :
    exec (.iceSearch st k) s = .next (searchRun st.val k.val s) := by
  change execIceSearch st k s = _
  simp only [execIceSearch, act_running hr, hx, hw, turn, ice, and_self, if_true]

theorem searchRetry_answers (turn : slotTurn s st.val x = true) (ice : x.ice = .refused)
    (room : (s.stn st.val).ice.entries.length < 256) :
    exec (.searchRetry st k) s = .next (searchRun st.val k.val s) := by
  change execSearchRetry st k s = _
  simp only [execSearchRetry, act_running hr, hx, turn, ice, room, and_self, if_true]

theorem mmStep_answers (turn : slotTurn s st.val x = true) {m : Nat} {rest : List Nat} (ice : x.ice = .steps (m :: rest)) :
    exec (.mmStep st k) s = .next (searchStep st.val k.val m rest (searchFurther st.val s)) := by
  change execMmStep st k s = _
  simp only [execMmStep, act_running hr, hx, turn, ice, if_true]

/-- While an express search waits, another one takes no slot (R46). -/
theorem search_waits (turn : slotTurn s st.val x = false) {c : Instr}
    (hc : c ∈ [Instr.iceSearch st k, .mmStep st k, .searchRetry st k]) : exec c s = .next s := by
  simp only [List.mem_cons, List.not_mem_nil, or_false] at hc
  rcases hc with rfl | rfl | rfl
  · change execIceSearch st k s = _
    simp [execIceSearch, act_running hr, hx, turn]
  · change execMmStep st k s = _
    cases ice : x.ice with
    | steps l => cases l <;> simp [execMmStep, act_running hr, hx, turn, ice]
    | _ => simp [execMmStep, act_running hr, hx, ice]
  · change execSearchRetry st k s = _
    simp [execSearchRetry, act_running hr, hx, turn]

end

theorem waitEntryFillStart_answers {s : State} {st : Station} {e : Nat} {x : Task} {w : LeaseEntry} (hr : s.running)
    (hs : (iceView st.val s).Clean) (hw : s.entry? st.val e = some w) (slot : w.st = .slot) (sig : w.sig = x.sig)
    (d : w.d = x.d) (free : freeSlots s st.val ≠ 0) :
    Answers (.waitEntryFillStart st e) s fun t => ∃ m, SearchFilling st.val e m x s t := by
  obtain ⟨m, unused, view⟩ := fillStart_spec hs free (e := e) w
  have run : exec (.waitEntryFillStart st e) s = .next (fillStart st.val e w s) := by
    change execWaitEntryFillStart st e s = _
    simp [execWaitEntryFillStart, act_running hr, hw, slot, free]
  have own : (fillStart st.val e w s).entry? st.val e = some { w with st := .fill, phase := .sent, slot := some m } := by
    rw [State.entry?_eq, view]
    exact aget?_aset_same _ _ _
  refine ⟨_, run, m, unused, ?_, _, own, rfl, rfl, ?_⟩
  · rw [State.slot?_eq, view, ← sig, ← d]
    exact aget?_aset_same _ _ _
  · rw [← sig, ← d]
    exact congrArg IceView.inbox view

/-- Settles O28: a search takes a slot, and its outcome leaves what its slots and steps have counted. -/
theorem searchesHitJoinMissOrAreRefused : Obligations.SearchesHitJoinMissOrAreRefused := by
  unfold Obligations.SearchesHitJoinMissOrAreRefused
  intro s st k x hr sound hx hw
  have hs : (iceView st.val s).Clean := ⟨sound.2.1, sound.1⟩
  have hn := st.isLt
  dsimp only
  refine ⟨fun express waits c hc => ⟨s, search_waits hr hx (by simp [slotTurn, express, waits]) hc, rfl⟩,
    fun turn => ?_, fun e w he slot sig d free => waitEntryFillStart_answers hr hs he slot sig d free⟩
  have runs {P : State → Prop} (h : P (searchRun st.val k.val s)) : (x.ice = .search → Answers (.iceSearch st k) s P) ∧
      (x.ice = .refused → (s.stn st.val).ice.entries.length < 256 → Answers (.searchRetry st k) s P) :=
    ⟨fun ice => ⟨_, iceSearch_answers hr hx hw turn ice, h⟩,
      fun ice room => ⟨_, searchRetry_answers hr hx turn ice room, h⟩⟩
  refine ⟨fun m one key => runs ?_, fun none => runs (searchRun_missed hs hx none),
    fun m rest some more => ⟨fun key => runs ?_, fun key => runs (searchRun_further hs hx some more key)⟩,
    fun m rest ice => ?_⟩
  · obtain ⟨met, slot, -⟩ := searchRun_met hs hx hn hw one key
    exact ⟨met, slot⟩
  · obtain ⟨met, slot, several⟩ := searchRun_met hs hx hn hw some key
    exact ⟨met, slot, several more⟩
  · obtain ⟨opened, step⟩ := searchFurther_spec st.val s
    have run := mmStep_answers hr hx turn ice
    refine ⟨fun key => ⟨_, run, ?_⟩, fun key last => ⟨_, run, ?_⟩, fun key more => ⟨_, run, ?_⟩⟩
    · obtain ⟨met, kept⟩ := searchStep_met hs opened hx rest hn hw key
      exact ⟨met, kept.counts (i := 12) (by decide) step⟩
    · obtain ⟨missed, kept⟩ := searchStep_missed hs opened hx key
      rw [last]
      exact ⟨missed, kept.counts (i := 12) (by decide) step⟩
    · obtain ⟨task, -, kept⟩ := searchStep_further hs opened hx rest key more
      exact ⟨kept.counts (i := 12) (by decide) step, task⟩

end Sys2Proof.Machine

/-! SUPPORT and the obligations O11 to O13, which fail for one reason. A frame that asked for a transmit timestamp and is
discarded makes an entry of its Guild's timestamp queue or, where that is full, counts in its VRV_TXQ_LOST (R319, R320).
The statements admit frames of any Guild number (they do not suppose `Frame.known`). For a number that is no Guild's
(R333) the formula of VRV_TXQ_LOST's address leads anywhere: here to the registers of the lane whose port discards the
frame as it goes down (R291). -/
namespace Sys2Proof.Machine

/-! ### A frame of no Guild -/

/-- The state that a command leaves. -/
def leaves (c : Instr) (s : State) : State := match exec c s with | .next t => t | _ => s

theorem Answers.of_leaves {c : Instr} {s : State} {P : State → Prop} (h : Answers c s P) : P (leaves c s) := by
  obtain ⟨t, run, holds⟩ := h
  rwa [leaves, run]

/-- The number g with Reg.VRV_TXQ_LOST_LO g = a. -/
def guildLosingAt (a : Nat) : Nat := (a - Reg.VRV_TXQ_LOST_LO 0) / 8

/-- Port 0 is UP with its reference present, and a frame is queued for it that asked for a timestamp of Guild number g,
whose timestamp queue is full. -/
def upWithTimedFrame (g : Nat) : State :=
  let ef : EFrame := { frame := { bytes := zeros 60, txTs := some (g, 0) }, tc := 0, blocks := 1, landed := 0 }
  let s : State := { ports := [(0, { egr := { queues := [(0, [ef])] } })]
                     varve := { txq := [(g, List.replicate 64 ⟨0, 0, 0, 0, 0⟩)] } }
  (s.put (Reg.LANE_STATUS 0) Fld.LANE_STATUS_STATE 4).put (Reg.LANE_STATUS 0) Fld.LANE_STATUS_REFOK 1

/-! ### The count lies in LANE_CFG and LANE_STATUS -/

/-- Port 0 has been disabled and has ended its last frame (PORT_OFF is to come), and the generator of its lane is on. -/
def strayStopping : State :=
  ((upWithTimedFrame (guildLosingAt (Reg.LANE_CFG 0))).put (Reg.LANE_TEST 0) Fld.LANE_TEST_GEN_EN 1).modLink 0
    fun l => { l with stopping := true }

/-- LANE_CFG of 25 Gb/s without AN, training and FEC. -/
def plain25 : Word := Fld.LANE_CFG_TYPE.into (Fld.LANE_CFG_EN.into 0#32 1) 3

/-- Refutes O11: the port that is enabled again discards its queued frame first. The discard counts in the 48 bits from
LANE_CFG on, which takes REFOK out of LANE_STATUS: the port enters ALIGN, where its generator asks for TEST and its
reference is there. -/
theorem not_portsAreSetUpEnabledAndDisabled : ¬ Obligations.PortsAreSetUpEnabledAndDisabled := by
  unfold Obligations.PortsAreSetUpEnabledAndDisabled
  rintro ⟨-, enable, -⟩
  have answers := enable strayStopping 0 plain25 rfl (by decide +kernel) (by decide +kernel)
  obtain ⟨-, -, formed⟩ := answers.of_leaves
  obtain ⟨-, -, valid, -⟩ := formed (by decide +kernel)
  obtain ⟨-, -, -, -, -, state⟩ := valid (by decide +kernel)
  have asked : (testWanted (leaves (.portEnable 0 plain25) strayStopping) 0 && refOk strayStopping 0) = true := by
    decide +kernel
  have align : (leaves (.portEnable 0 plain25) strayStopping).linkState 0 = 3 := by decide +kernel
  exact absurd (align.symm.trans (state.trans (if_pos asked))) (by decide)

/-! ### The count lies in LANE_PRBS_ERR and LANE_EVENT -/

/-- Port 0 is enabled, its UP event is latched, and its lane's error count stands at the greatest value. -/
def strayCounting : State :=
  (((upWithTimedFrame (guildLosingAt (Reg.LANE_PRBS_ERR 0))).put (Reg.LANE_CFG 0) Fld.LANE_CFG_EN 1).raise
    (Reg.LANE_EVENT 0) Fld.LANE_EVENT_UP).wr (Reg.LANE_PRBS_ERR 0) 0xFFFFFFFF

/-- What LANE_EVENT holds where the count's carry has turned UP and DOWN to AN_DONE alone. -/
theorem not_down_of_carried {t : State} (carried : t.rd (Reg.LANE_EVENT 0) = 4#32) :
    t.getB (Reg.LANE_EVENT 0) Fld.LANE_EVENT_DOWN = false := by
  rw [State.getB, State.get_eq, carried]
  rfl

/-- Refutes O12: with lock lost and no HOLD, DOWN latches beside UP; then the queued frame is discarded and counts in
the 48 bits from LANE_PRBS_ERR on, whose carry clears both. -/
theorem not_portsMoveByTheLinkStateTable : ¬ Obligations.PortsMoveByTheLinkStateTable := by
  unfold Obligations.PortsMoveByTheLinkStateTable
  intro h
  obtain ⟨-, -, -, -, -, -, -, lockLost, -⟩ := h strayCounting 0 rfl
  obtain ⟨-, noHold, -⟩ := (lockLost (by decide +kernel) rfl).of_leaves
  obtain ⟨-, down⟩ := noHold (by decide +kernel)
  have carried : (leaves (.lockLost 0) strayCounting).rd (Reg.LANE_EVENT 0) = 4#32 := by decide +kernel
  exact absurd ((not_down_of_carried carried).symm.trans down) (by decide)

/-- A word of LANE_TEST with near-end loopback. -/
def loopNear : Word := Fld.LANE_TEST_LOOPBACK.into 0#32 1

/-- Refutes O13: a change of LOOPBACK of an UP port is a loss of lock, and its DOWN is cleared as in O12. -/
theorem not_portFaultsFecAndLoopback : ¬ Obligations.PortFaultsFecAndLoopback := by
  unfold Obligations.PortFaultsFecAndLoopback
  rintro ⟨-, -, -, loopback, -⟩
  have answers := loopback strayCounting 0 loopNear rfl (by decide +kernel) (by decide +kernel) (by decide +kernel)
    (by decide +kernel)
  obtain ⟨-, down, -⟩ := answers.of_leaves
  have carried : (leaves (.loopbackChange 0 loopNear) strayCounting).rd (Reg.LANE_EVENT 0) = 4#32 := by decide +kernel
  exact absurd ((not_down_of_carried carried).symm.trans down) (by decide)

end Sys2Proof.Machine

/-! SUPPORT. Where a register stands: its offset in its station's region, and its place in the block of a port's lane or
MAC. -/
namespace Sys2Proof.Machine

/-! ### Offsets in a station's region -/

/-- The offset of a register in its station's region. -/
def stationOffset (a : Nat) : Nat := (a - 0x2000000) % 0x400000

/-- Register a is a station's, at an offset of P. -/
def AtStation (P : Nat → Prop) (a : Nat) : Prop := 0x2000000 ≤ a ∧ P (stationOffset a)

theorem le_reg (st o : Nat) : 0x2000000 ≤ stationBase st + o := by
  rw [stationBase, Nat.add_assoc]
  exact Nat.le_add_right _ _

theorem atStation_reg {P : Nat → Prop} (st : Nat) {o : Nat} (h : o < 0x400000) : AtStation P (stationBase st + o) ↔ P o := by
  have offset : stationOffset (stationBase st + o) = o := by
    rw [stationOffset, stationBase, Nat.add_assoc, Nat.add_sub_cancel_left, Nat.mul_add_mod_self_right, Nat.mod_eq_of_lt h]
  rw [AtStation, offset, and_iff_right (le_reg st o)]

theorem reg_ne_memInj (st o : Nat) : stationBase st + o ≠ Reg.TNK_MEMINJ := fun e =>
  absurd (e ▸ le_reg st o) (by decide)

theorem not_atStation_of_lt {P : Nat → Prop} {a : Nat} (h : a < 0x2000000) : ¬ AtStation P a := fun k => Nat.not_le.2 h k.1

/-! ### Places in a port's block -/

/-- The register at place o of port p's block, where the blocks of a station's ports begin at b: lanes at 0x40000, MACs at
0x80000. -/
def portAt (b p o : Nat) : Nat := stationBase (p / 12) + (b + o) + p % 12 * 0x4000

/-- The register at place o of port p's lane. -/
abbrev laneAt (p o : Nat) : Nat := portAt 0x40000 p o

/-- The register at place o of port p's MAC. -/
abbrev macAt (p o : Nat) : Nat := portAt 0x80000 p o

/-- Offset a is one of the ports' blocks from b on, at a place of P. -/
def InBlock (b : Nat) (P : Nat → Prop) (a : Nat) : Prop := b ≤ a ∧ a < b + 0x30000 ∧ P ((a - b) % 0x4000)

theorem portAt_eq (b p o : Nat) : portAt b p o = stationBase (p / 12) + (b + (o + p % 12 * 0x4000)) := by
  rw [portAt, Nat.add_assoc, Nat.add_assoc b]

theorem portAt_add (b p o n : Nat) : portAt b p o + n = portAt b p (o + n) := by
  rw [portAt, portAt, Nat.add_right_comm, Nat.add_assoc (stationBase _), Nat.add_assoc b]

theorem macStatLo_eq (p k : Nat) : Reg.MAC_STAT_LO p k = macAt p (0x1000 + k * 8) := portAt_add 0x80000 p 0x1000 (k * 8)

theorem macStatLo_hi_eq (p k : Nat) : Reg.MAC_STAT_LO p k + 4 = macAt p (0x1000 + k * 8 + 4) :=
  (congrArg (· + 4) (macStatLo_eq p k)).trans (portAt_add 0x80000 p _ 4)

theorem macStatHalf_eq (p w : Nat) : Reg.MAC_STAT_HALF p w = macAt p (0x40 + w * 4) := portAt_add 0x80000 p 0x40 (w * 4)

section
variable {P : Nat → Prop} {b p o : Nat}

theorem place_lt (p : Nat) (h : o < 0x4000) : o + p % 12 * 0x4000 < 0x30000 := by
  have := Nat.mod_lt p (show 0 < 12 by decide)
  omega

theorem inBlock_place (h : o < 0x4000) : InBlock b P (b + (o + p % 12 * 0x4000)) ↔ P o := by
  rw [InBlock, Nat.add_sub_cancel_left, Nat.add_mul_mod_self_right, Nat.mod_eq_of_lt h]
  simp only [Nat.le_add_right, Nat.add_lt_add_iff_left, place_lt p h, true_and]

/-- A place of a port's block by its offset in the station's region. -/
theorem atStation_portAt (hb : b ≤ 0x80000) (h : o < 0x4000) :
    AtStation P (portAt b p o) ↔ P (b + (o + p % 12 * 0x4000)) := by
  have := place_lt p h
  rw [portAt_eq, atStation_reg _ (by omega)]

end

/-! ### The registers of MACs -/

/-- Register a is one of a MAC. -/
def InMacs (a : Nat) : Prop := AtStation (fun o => 0x80000 ≤ o ∧ o < 0xb0000) a

theorem inMacs_macAt (p : Nat) {o : Nat} (h : o < 0x4000) : InMacs (macAt p o) := by
  have := place_lt p h
  rw [InMacs, atStation_portAt (by decide) h]
  omega

theorem not_inMacs_laneAt (p : Nat) {o : Nat} (h : o < 0x4000) : ¬ InMacs (laneAt p o) := by
  have := place_lt p h
  rw [InMacs, atStation_portAt (by decide) h]
  omega

theorem laneAt_ne_macAt (p q : Nat) {o r : Nat} (ho : o < 0x4000) (hr : r < 0x4000) : laneAt p o ≠ macAt q r := fun e =>
  not_inMacs_laneAt p ho (e ▸ inMacs_macAt q hr)

theorem not_inMacs_reg (st : Nat) {o : Nat} (h : o < 0x80000 ∨ 0xb0000 ≤ o) (top : o < 0x400000) :
    ¬ InMacs (stationBase st + o) := by
  rw [InMacs, atStation_reg st top]
  omega

theorem portAt_ne {b p o r : Nat} (h : o ≠ r) : portAt b p o ≠ portAt b p r := fun e =>
  h (Nat.add_left_cancel (Nat.add_left_cancel (Nat.add_right_cancel e)))

/-- Two counters of a MAC share no word. -/
theorem macStatLo_ne (p : Nat) {j k : Nat} (h : j ≠ k) :
    (Reg.MAC_STAT_LO p j ≠ Reg.MAC_STAT_LO p k ∧ Reg.MAC_STAT_LO p j ≠ Reg.MAC_STAT_LO p k + 4) ∧
      Reg.MAC_STAT_LO p j + 4 ≠ Reg.MAC_STAT_LO p k ∧ Reg.MAC_STAT_LO p j + 4 ≠ Reg.MAC_STAT_LO p k + 4 := by
  rw [macStatLo_hi_eq, macStatLo_hi_eq, macStatLo_eq, macStatLo_eq]
  exact ⟨⟨portAt_ne (by omega), portAt_ne (by omega)⟩, portAt_ne (by omega), portAt_ne (by omega)⟩

/-- A counter's words are none of the places below. -/
theorem macStatLo_ne_place (p k : Nat) {o : Nat} (h : o < 0x1000) :
    Reg.MAC_STAT_LO p k ≠ macAt p o ∧ Reg.MAC_STAT_LO p k + 4 ≠ macAt p o := by
  rw [macStatLo_hi_eq, macStatLo_eq]
  exact ⟨portAt_ne (by omega), portAt_ne (by omega)⟩

theorem macAt_inj {p q o r : Nat} (ho : o < 0x4000) (hr : r < 0x4000) (e : macAt p o = macAt q r) : p = q ∧ o = r := by
  simp only [portAt, stationBase] at e
  omega

end Sys2Proof.Machine

/-! SUPPORT and the obligation O17. A MAC's 72 counters (R96, R97): where they lie, what a count leaves in them and beside
them, and that a clear zeroes them all (R98). -/
namespace Sys2Proof.Machine

/-! ### Where the counters lie -/

theorem State.rd_cntSet_ne (s : State) {a b : Nat} (h : b ≠ a) (h4 : b ≠ a + 4) (v : Nat) :
    (s.cntSet a v).rd b = s.rd b := by
  rw [State.cntSet, State.rd_wr_ne _ h4, State.rd_wr_ne _ h]

/-- The word b belongs to no counter of port p. -/
abbrev StatApart (p b : Nat) : Prop := ∀ k < 72, b ≠ Reg.MAC_STAT_LO p k ∧ b ≠ Reg.MAC_STAT_LO p k + 4

theorem statApart_half (p : Nat) {w : Nat} (hw : w < 3) : StatApart p (Reg.MAC_STAT_HALF p w) := fun k _ => by
  rw [macStatHalf_eq, macStatLo_hi_eq, macStatLo_eq]
  exact ⟨portAt_ne (by omega), portAt_ne (by omega)⟩

theorem statApart_event (p : Nat) : StatApart p (Reg.MAC_EVENT p) := fun k _ => by
  obtain ⟨lo, hi⟩ := macStatLo_ne_place p k (o := 0x20) (by decide)
  exact ⟨lo.symm, hi.symm⟩

/-- Two counters share no word. -/
theorem cntGet_cntSet_stat_ne (s : State) {p j k : Nat} (h : j ≠ k) (v : Nat) :
    (s.cntSet (Reg.MAC_STAT_LO p k) v).cntGet (Reg.MAC_STAT_LO p j) = s.cntGet (Reg.MAC_STAT_LO p j) := by
  obtain ⟨⟨lo, lo4⟩, hi, hi4⟩ := macStatLo_ne p h
  exact State.cntGet_of_rd (s.rd_cntSet_ne lo lo4 v) (s.rd_cntSet_ne hi hi4 v)

/-! ### What a count leaves -/

/-- The half-range flag of counter k is set, and STAT_HALF where it was clear (R97). -/
def halfFlag (p k : Nat) (s : State) : State :=
  let h := Reg.MAC_STAT_HALF p (k / 32)
  let t := s.wr h (s.rd h ||| BitVec.ofNat 32 (2 ^ (k % 32)))
  if (s.rd h).toNat.testBit (k % 32) then t else t.raise (Reg.MAC_EVENT p) Fld.MAC_EVENT_STAT_HALF

theorem macStat_cases (p k n : Nat) (s : State) :
    macStat p k n s = s.cnt (Reg.MAC_STAT_LO p k) n ∨ macStat p k n s = halfFlag p k (s.cnt (Reg.MAC_STAT_LO p k) n) := by
  have reduced (a v : Nat) : s.cntSet a (v % 2 ^ 48) = s.cntSet a v := by simp only [State.cntSet, Nat.mod_mod]
  unfold macStat State.cnt
  by_cases hn : n = 0
  · rw [if_pos hn, if_pos hn]
    exact .inl rfl
  · simp only [if_neg hn, reduced]
    split
    · exact .inl rfl
    · exact .inr rfl

theorem halfFlag_onlyRegsOf (p k : Nat) (s : State) :
    OnlyRegsOf [Reg.MAC_STAT_HALF p (k / 32), Reg.MAC_EVENT p] s (halfFlag p k s) := by
  have flagged (v : Word) : OnlyRegsOf [Reg.MAC_STAT_HALF p (k / 32), Reg.MAC_EVENT p] s
      (s.wr (Reg.MAC_STAT_HALF p (k / 32)) v) :=
    ⟨rfl, fun a ha => s.rd_wr_ne (List.ne_of_not_mem_cons ha) v⟩
  unfold halfFlag
  dsimp only
  split
  · exact flagged _
  · refine (flagged _).trans ⟨rfl, fun a ha => State.rd_put_ne _ (fun e => ha ?_) _ _⟩
    exact e ▸ List.mem_cons_of_mem _ List.mem_cons_self

theorem macStat_onlyRegs (p k n : Nat) (s : State) : OnlyRegs s (macStat p k n s) := by
  have counted : OnlyRegs s (s.cnt (Reg.MAC_STAT_LO p k) n) := by
    unfold State.cnt
    split <;> rfl
  rcases macStat_cases p k n s with e | e
  · rw [e]; exact counted
  · rw [e, OnlyRegs, (halfFlag_onlyRegsOf p k _).1, counted]

/-- A count reaches its counter, the flags and the events of its MAC. -/
theorem macStat_rd (p n : Nat) {k a : Nat} (s : State) (lo : a ≠ Reg.MAC_STAT_LO p k) (hi : a ≠ Reg.MAC_STAT_LO p k + 4)
    (half : a ≠ Reg.MAC_STAT_HALF p (k / 32)) (event : a ≠ Reg.MAC_EVENT p) : (macStat p k n s).rd a = s.rd a := by
  have counted : (s.cnt (Reg.MAC_STAT_LO p k) n).rd a = s.rd a := s.rd_cnt_ne lo hi n
  rcases macStat_cases p k n s with e | e
  · rw [e, counted]
  · rw [e, (halfFlag_onlyRegsOf p k _).2 a (by simp [half, event]), counted]

/-- A count reaches registers of MACs alone. -/
theorem macStat_rd_of_not_inMacs (p n : Nat) {k a : Nat} (hk : k < 72) (h : ¬ InMacs a) (s : State) :
    (macStat p k n s).rd a = s.rd a := by
  have ne {o : Nat} (ho : o < 0x4000) : a ≠ macAt p o := fun e => h (e ▸ inMacs_macAt p ho)
  refine macStat_rd p n s ?_ ?_ ?_ (ne (o := 0x20) (by decide))
  · exact macStatLo_eq p k ▸ ne (by omega)
  · exact macStatLo_hi_eq p k ▸ ne (by omega)
  · exact macStatHalf_eq p (k / 32) ▸ ne (by omega)

/-- Of the events of its MAC a count leaves the others as they are. -/
theorem macStat_event (p k n : Nat) (hk : k < 72) {f : Field} (hf : f.Apart Fld.MAC_EVENT_STAT_HALF) (s : State) :
    (macStat p k n s).get (Reg.MAC_EVENT p) f = s.get (Reg.MAC_EVENT p) f := by
  obtain ⟨lo, hi⟩ := statApart_event p k hk
  have half : Reg.MAC_EVENT p ≠ Reg.MAC_STAT_HALF p (k / 32) := by
    rw [macStatHalf_eq]
    exact portAt_ne (o := 0x20) (by omega)
  have counted := State.get_of_rd (s.rd_cnt_ne lo hi n) f
  have flagged (t : State) (v : Word) := State.get_of_rd (t.rd_wr_ne half v) f
  rcases macStat_cases p k n s with e | e
  · rw [e, counted]
  · rw [e, halfFlag, ← counted]
    split
    · exact flagged _ _
    · exact (State.get_raise_apart _ _ (by decide) hf).trans (flagged _ _)

/-- A count adds to its own counter. -/
theorem counts_macStat (p n : Nat) {k : Nat} (hk : k < 72) (s : State) :
    Counts (Reg.MAC_STAT_LO p k) n s (macStat p k n s) := by
  have counted := s.counts_cnt (Reg.MAC_STAT_LO p k) n
  rcases macStat_cases p k n s with e | e
  · rwa [e]
  · have apart {b : Nat} (hb : b = Reg.MAC_STAT_LO p k ∨ b = Reg.MAC_STAT_LO p k + 4) :
        b ∉ [Reg.MAC_STAT_HALF p (k / 32), Reg.MAC_EVENT p] := by
      obtain ⟨lo, hi⟩ := statApart_half p (w := k / 32) (by omega) k hk
      obtain ⟨lo', hi'⟩ := statApart_event p k hk
      rcases hb with rfl | rfl <;> simp [lo.symm, hi.symm, lo'.symm, hi'.symm]
    obtain ⟨-, regs⟩ := halfFlag_onlyRegsOf p k (s.cnt (Reg.MAC_STAT_LO p k) n)
    rw [e, Counts, State.cntGet_of_rd (regs _ (apart (.inl rfl))) (regs _ (apart (.inr rfl)))]
    exact counted

/-! ### The clear -/

/-- Counters of a list read 0 after they have been set to it. -/
theorem statClear_list (p : Nat) (ks : List Nat) (s : State) :
    let t := ks.foldl (fun s k => s.cntSet (Reg.MAC_STAT_LO p k) 0) s
    OnlyRegs s t ∧ (∀ k, k ∈ ks ∨ s.cntGet (Reg.MAC_STAT_LO p k) = 0 → t.cntGet (Reg.MAC_STAT_LO p k) = 0) ∧
      ∀ a, (∀ k ∈ ks, a ≠ Reg.MAC_STAT_LO p k ∧ a ≠ Reg.MAC_STAT_LO p k + 4) → t.rd a = s.rd a := by
  induction ks generalizing s with
  | nil => exact ⟨rfl, fun k hk => hk.resolve_left (List.not_mem_nil), fun _ _ => rfl⟩
  | cons j ks ih =>
    obtain ⟨only, zero, rd⟩ := ih (s.cntSet (Reg.MAC_STAT_LO p j) 0)
    have own : (s.cntSet (Reg.MAC_STAT_LO p j) 0).cntGet (Reg.MAC_STAT_LO p j) = 0 := s.cntGet_cntSet _ 0
    refine ⟨only.trans rfl, fun k hk => zero k ?_, fun a ha => ?_⟩
    · by_cases e : k = j
      · exact .inr (e ▸ own)
      · rw [cntGet_cntSet_stat_ne s e]
        exact hk.imp_left fun m => (List.mem_cons.1 m).resolve_left e
    · obtain ⟨lo, hi⟩ := ha j List.mem_cons_self
      exact (rd a fun k hk => ha k (List.mem_cons_of_mem _ hk)).trans (s.rd_cntSet_ne lo hi 0)

/-- Settles O17: every counter is set to 0, and no word but theirs is written. -/
theorem statClearZeroesTheCounters : Obligations.StatClearZeroesTheCounters := by
  unfold Obligations.StatClearZeroesTheCounters
  intro s p hs
  obtain ⟨only, zero, rd⟩ := statClear_list p.val (List.range 72) s
  have cleared (k : Nat) (hk : k < 72) := zero k (.inl (List.mem_range.2 hk))
  refine ⟨statClear p.val s, act_running hs _, cleared, fun k hk n hn => ?_, fun w hw => ?_, only, fun a ha => ?_⟩
  · have count := counts_macStat p.val n hk (statClear p.val s)
    rwa [Counts, statClear, cleared k hk, Nat.zero_add, Nat.mod_eq_of_lt hn] at count
  · exact rd _ fun k hk => statApart_half p.val hw k (List.mem_range.1 hk)
  · exact rd a fun k hk => ha k (List.mem_range.1 hk)

end Sys2Proof.Machine

/-! SUPPORT. What a MAC sends (R73, R74), the operations of its merge sublayer (R92, R93) and what each leaves. -/
namespace Sys2Proof.Machine

/-! ### A port's MAC -/

theorem State.port_modMac_same (s : State) (p : Nat) (f : Mac → Mac) :
    (s.modMac p f).port p = { s.port p with mac := f (s.port p).mac } := s.port_modPort_same p _

theorem State.port_modMac_ne (s : State) {p q : Nat} (h : q ≠ p) (f : Mac → Mac) : (s.modMac p f).port q = s.port q :=
  s.port_modPort_ne h _

/-- What a port generates depends on the registers and on its link. -/
theorem generating_of {s t : State} {p : Nat} (regs : t.regs = s.regs) (link : (t.port p).link = (s.port p).link) :
    generating t p = generating s p := by
  simp only [generating, State.linkState, portLanes, State.get_of_regs regs, State.getB_of_regs regs, link]

theorem nearEnd_of_rd {s t : State} {p : Nat} (h : t.rd (Reg.LANE_TEST p) = s.rd (Reg.LANE_TEST p)) :
    nearEnd t p = nearEnd s p := by rw [nearEnd, nearEnd, h]

theorem not_generating_of_linkState {s : State} {p : Nat} (h : s.linkState p ≠ 6) : generating s p = false := by
  simp [generating, h]

theorem linkUp_iff {s : State} {p : Nat} : s.linkUp p = true ↔ s.linkState p = 4 ∨ s.linkState p = 5 := by
  simp [State.linkUp]

theorem linkState_ne_of_linkUp {s : State} {p : Nat} (h : s.linkUp p = true) : s.linkState p ≠ 6 := by
  rcases linkUp_iff.1 h with e | e <;> simp [e]

theorem not_farEnd_of_nearEnd {s : State} {p : Nat} (h : nearEnd s p = true) : farEnd s p = false := by
  simp only [nearEnd, Bool.or_eq_true, beq_iff_eq] at h
  rcases h with h | h <;> simp [farEnd, h]

theorem not_nearEnd_of_farEnd {s : State} {p : Nat} (h : farEnd s p = true) : nearEnd s p = false := by
  by_contra near
  simp [not_farEnd_of_nearEnd (by simpa using near)] at h

/-! ### What goes out -/

theorem laneOut_of_not_nearEnd {s : State} {l : Nat} (h : nearEnd s l = false) (o : Output) :
    laneOut l o s = s.emit o := by simp [laneOut, h]

/-- A port with no near-end loopback sends at its balls, where no generator has its lanes. -/
theorem ballOut_of_not_nearEnd {s : State} {p : Nat} (h : nearEnd s p = false) (o : Output) :
    ballOut p o s = if generating s p then s else s.emit o := by rw [ballOut, laneOut_of_not_nearEnd h]

theorem lineOut_of_not_nearEnd {s : State} {p : Nat} (h : nearEnd s p = false) (g : generating s p = false) (o : Output) :
    lineOut p o s = s.emit o := by simp [lineOut, ballOut_of_not_nearEnd h, h, g]

/-- In near-end loopback a MAC sends to its own receiver, and at the balls where TX_ON_LB has it do so. -/
theorem lineOut_of_nearEnd {s : State} {p : Nat} (h : nearEnd s p = true) (g : generating s p = false) (o : Output) :
    lineOut p o s =
      let u := s.modMac p fun m => { m with loop := m.loop ++ [o] }
      if s.getB (Reg.LANE_TEST p) Fld.LANE_TEST_TX_ON_LB then u.emit o else u := by
  have regs : (s.modMac p fun m => { m with loop := m.loop ++ [o] }).regs = s.regs := rfl
  have link : ((s.modMac p fun m => { m with loop := m.loop ++ [o] }).port p).link = (s.port p).link := by
    rw [State.port_modMac_same]
  have g' := (generating_of regs link).trans g
  have near := (nearEnd_of_rd (State.rd_of_regs regs (Reg.LANE_TEST p))).trans h
  simp only [lineOut, h, g, Bool.not_false, Bool.and_self, if_true, ballOut, g', laneOut, near, State.getB_of_regs regs]
  cases s.getB (Reg.LANE_TEST p) Fld.LANE_TEST_TX_ON_LB <;> rfl

theorem lineSends_lineOut {s : State} {p : Nat} (g : generating s p = false) (o : Output) :
    LineSends p o s (lineOut p o s) := by
  unfold LineSends
  cases h : nearEnd s p with
  | false => rw [lineOut_of_not_nearEnd h g]; rfl
  | true =>
    have looped := congrArg (fun x : PortSt => x.mac.loop) (s.port_modMac_same p fun m => { m with loop := m.loop ++ [o] })
    rw [lineOut_of_nearEnd h g]
    cases s.getB (Reg.LANE_TEST p) Fld.LANE_TEST_TX_ON_LB with
    | false => exact ⟨looped, rfl⟩
    | true => exact ⟨looped, rfl⟩

/-- What a MAC sends bears on its loop and on what has gone out, and on nothing else. -/
theorem LineSends.of_eq {p : Nat} {o : Output} {s s' t t' : State} (h : LineSends p o s t)
    (test : s'.rd (Reg.LANE_TEST p) = s.rd (Reg.LANE_TEST p)) (loop : (s'.port p).mac.loop = (s.port p).mac.loop)
    (out : s'.out = s.out) (loop' : (t'.port p).mac.loop = (t.port p).mac.loop) (out' : t'.out = t.out) :
    LineSends p o s' t' := by
  unfold LineSends at *
  rwa [nearEnd_of_rd test, State.getB_of_rd test, loop, out, loop', out']

/-- From s to t port p's MAC has sent, and the loop to its receiver has changed at most. -/
structure Sent (p : Nat) (s t : State) : Prop where
  only : t = { s with ports := t.ports, out := t.out }
  port : t.port p = { s.port p with mac := { (s.port p).mac with loop := (t.port p).mac.loop } }
  others : ∀ q, q ≠ p → t.port q = s.port q

theorem sent_ballOut (p : Nat) (o : Output) (s : State) : Sent p s (ballOut p o s) := by
  have emitted : Sent p s (s.emit o) := ⟨rfl, rfl, fun _ _ => rfl⟩
  unfold ballOut laneOut
  split
  · exact ⟨rfl, rfl, fun _ _ => rfl⟩
  · split
    · exact ⟨rfl, rfl, fun _ _ => rfl⟩
    · exact emitted

theorem Sent.trans {p : Nat} {s t u : State} (h : Sent p s t) (k : Sent p t u) : Sent p s u where
  only := by rw [k.only, h.only]
  port := by rw [k.port, h.port]
  others q hq := (k.others q hq).trans (h.others q hq)

theorem sent_lineOut (p : Nat) (o : Output) (s : State) : Sent p s (lineOut p o s) := by
  unfold lineOut
  split
  · refine Sent.trans ⟨rfl, ?_, fun q hq => s.port_modMac_ne hq _⟩ (sent_ballOut p o _)
    rw [State.port_modMac_same]
  · exact sent_ballOut p o s

theorem Sent.regs {p : Nat} {s t : State} (h : Sent p s t) : t.regs = s.regs := (congrArg State.regs h.only :)

theorem Sent.rd {p : Nat} {s t : State} (h : Sent p s t) (a : Nat) : t.rd a = s.rd a := State.rd_of_regs h.regs a

/-! ### Verification -/

theorem verifySend_spec {s : State} {p : Nat} (g : generating s p = false) :
    LineSends p (.verify p) s (verifySend p s) ∧ (verifySend p s).regs = s.regs ∧
      (verifySend p s).port p = { s.port p with mac := { (s.port p).mac with
        loop := ((verifySend p s).port p).mac.loop, verifyTries := (s.port p).mac.verifyTries + 1 } } := by
  have sent := sent_lineOut p (.verify p) s
  refine ⟨(lineSends_lineOut g _).of_eq rfl rfl rfl ?_ rfl, sent.regs, ?_⟩
  · rw [verifySend, State.port_modMac_same]
  · rw [verifySend, State.port_modMac_same, sent.port]

theorem verifyState_setVerify (p : Nat) {v : Nat} (h : v < 8) (s : State) : verifyState (setVerify p v s) p = v :=
  (s.get_put_same _ Fld.MAC_MERGE_STATUS_VERIFY (by decide) v).trans (Nat.mod_eq_of_lt h)

/-- The value that R93 gives ACTIVE. -/
def activeOf (s : State) (p : Nat) : Bool :=
  (s.port p).mac.mergeEn && s.linkUp p && (verifyState s p == 3 || verifyDis s p)

/-- EN as written is in effect. -/
abbrev MergeSettled (s : State) (p : Nat) : Prop :=
  (s.port p).mac.mergeEn = mergeEnCfg s p ∧ (s.port p).mac.mergeRise = false

theorem activeUpdate_of_settled {s : State} {p : Nat} (h : MergeSettled s p) :
    activeUpdate p s = s.putB (Reg.MAC_MERGE_STATUS p) Fld.MAC_MERGE_STATUS_ACTIVE (activeOf s p) := by
  simp [activeUpdate, h.1.symm, h.2, activeOf]

theorem activeUpdate_of_waiting {s : State} {p : Nat} (h : ¬ MergeSettled s p) : activeUpdate p s = s := by
  refine if_pos ?_
  by_contra none
  simp only [Bool.or_eq_true, bne_iff_ne, ne_eq, not_or, not_not, Bool.not_eq_true] at none
  exact h none

theorem activeUpdate_onlyRegsOf (p : Nat) (s : State) : OnlyRegsOf [Reg.MAC_MERGE_STATUS p] s (activeUpdate p s) := by
  by_cases h : MergeSettled s p
  · rw [activeUpdate_of_settled h]
    exact s.put_onlyRegsOf _ _ _
  · rw [activeUpdate_of_waiting h]
    exact .refl _ s

theorem verifyState_activeUpdate (p : Nat) (s : State) : verifyState (activeUpdate p s) p = verifyState s p := by
  by_cases h : MergeSettled s p
  · rw [activeUpdate_of_settled h]
    exact s.get_put_apart _ (f := Fld.MAC_MERGE_STATUS_ACTIVE) (by decide) (by decide) _
  · rw [activeUpdate_of_waiting h]

theorem mergeActive_activeUpdate {p : Nat} {s : State} (h : MergeSettled s p) :
    mergeActive (activeUpdate p s) p = activeOf s p := by
  rw [activeUpdate_of_settled h, mergeActive, State.getB, State.putB,
    State.get_put_same _ _ Fld.MAC_MERGE_STATUS_ACTIVE (by decide)]
  cases activeOf s p <;> rfl

end Sys2Proof.Machine

/-! SUPPORT. Verification as it starts and ends (R92, R93), and what a write of MAC_MERGE_CFG stores. -/
namespace Sys2Proof.Machine

/-- Verification runs at port p, whose EN is in effect. -/
structure Verifying (p : Nat) (s : State) : Prop where
  en : (s.port p).mac.mergeEn = true
  cfg : mergeEnCfg s p = true
  rise : (s.port p).mac.mergeRise = false
  dis : verifyDis s p = false
  state : verifyState s p = 2

/-- EN 0 is in effect at port p, and VERIFY is DISABLED. -/
structure MergeOff (p : Nat) (s : State) : Prop where
  en : (s.port p).mac.mergeEn = false
  cfg : mergeEnCfg s p = false
  rise : (s.port p).mac.mergeRise = false
  state : verifyState s p = 0

theorem mergeCfg_ne_status (p : Nat) : Reg.MAC_MERGE_CFG p ≠ Reg.MAC_MERGE_STATUS p :=
  portAt_ne (o := 0x18) (r := 0x1c) (by decide)

theorem laneStatus_ne_status (p : Nat) : Reg.LANE_STATUS p ≠ Reg.MAC_MERGE_STATUS p :=
  laneAt_ne_macAt p p (o := 4) (r := 0x1c) (by decide) (by decide)

theorem mergeEnCfg_of_rd {s t : State} {p : Nat} (h : t.rd (Reg.MAC_MERGE_CFG p) = s.rd (Reg.MAC_MERGE_CFG p)) :
    mergeEnCfg t p = mergeEnCfg s p ∧ verifyDis t p = verifyDis s p :=
  ⟨State.getB_of_rd h _, State.getB_of_rd h _⟩

/-- ACTIVE follows with the merge sublayer's status alone: what it follows stays. -/
theorem activeUpdate_frame (p : Nat) (s : State) :
    (activeUpdate p s).port p = s.port p ∧ (activeUpdate p s).out = s.out ∧
      mergeEnCfg (activeUpdate p s) p = mergeEnCfg s p ∧ verifyDis (activeUpdate p s) p = verifyDis s p := by
  obtain ⟨only, rd⟩ := activeUpdate_onlyRegsOf p s
  have cfg := mergeEnCfg_of_rd (rd _ (by simpa using mergeCfg_ne_status p))
  exact ⟨(congrArg (fun u : State => u.port p) only :), (congrArg State.out only :), cfg.1, cfg.2⟩

theorem Verifying.activeUpdate {p : Nat} {s : State} (h : Verifying p s) :
    Verifying p (activeUpdate p s) ∧ mergeActive (activeUpdate p s) p = false := by
  obtain ⟨port, -, cfg, dis⟩ := activeUpdate_frame p s
  refine ⟨⟨by rw [port, h.en], by rw [cfg, h.cfg], by rw [port, h.rise], by rw [dis, h.dis], ?_⟩, ?_⟩
  · rw [verifyState_activeUpdate, h.state]
  · rw [mergeActive_activeUpdate ⟨h.en.trans h.cfg.symm, h.rise⟩, activeOf, h.state, h.dis]
    simp

theorem MergeOff.activeUpdate {p : Nat} {s : State} (h : MergeOff p s) :
    MergeOff p (activeUpdate p s) ∧ mergeActive (activeUpdate p s) p = false := by
  obtain ⟨port, -, cfg, -⟩ := activeUpdate_frame p s
  refine ⟨⟨by rw [port, h.en], by rw [cfg, h.cfg], by rw [port, h.rise], ?_⟩, ?_⟩
  · rw [verifyState_activeUpdate, h.state]
  · rw [mergeActive_activeUpdate ⟨h.en.trans h.cfg.symm, h.rise⟩, activeOf, h.en]
    rfl

/-- No attempt of the verification that starts has been made. -/
def triesReset (p : Nat) (s : State) : State := s.modMac p fun m => { m with verifyTries := 0 }

theorem triesReset_port (p : Nat) (s : State) :
    (triesReset p s).port p = { s.port p with mac := { (s.port p).mac with verifyTries := 0 } } := s.port_modMac_same p _

theorem verifyStart_eq (p : Nat) (s : State) : verifyStart p s = activeUpdate p
    (if !(s.port p).mac.mergeEn || verifyDis s p then setVerify p 0 (triesReset p s)
      else if s.linkUp p then verifySend p (setVerify p 2 (triesReset p s)) else setVerify p 1 (triesReset p s)) := by
  have same : ((triesReset p s).port p).mac.mergeEn = (s.port p).mac.mergeEn := by rw [triesReset_port]
  rw [← same]
  rfl

/-- What a start of verification leaves of EN. -/
theorem verifyStart_merge (p : Nat) (s : State) :
    ((verifyStart p s).port p).mac.mergeEn = (s.port p).mac.mergeEn ∧
      ((verifyStart p s).port p).mac.mergeRise = (s.port p).mac.mergeRise := by
  have kept (v : Nat) : (setVerify p v (triesReset p s)).port p = (triesReset p s).port p := rfl
  rw [verifyStart_eq, (activeUpdate_frame p _).1]
  split_ifs
  · rw [kept, triesReset_port]; exact ⟨rfl, rfl⟩
  · have sent := sent_lineOut p (.verify p) (setVerify p 2 (triesReset p s))
    rw [verifySend, State.port_modMac_same, sent.port, kept, triesReset_port]
    exact ⟨rfl, rfl⟩
  · rw [kept, triesReset_port]; exact ⟨rfl, rfl⟩

/-- With EN in effect an UP port starts verification at once (R92). -/
theorem verifyStart_begins {p : Nat} {s : State} (en : (s.port p).mac.mergeEn = true) (cfg : mergeEnCfg s p = true)
    (rise : (s.port p).mac.mergeRise = false) (dis : verifyDis s p = false) (up : s.linkUp p = true) :
    Verifying p (verifyStart p s) ∧ mergeActive (verifyStart p s) p = false ∧ LineSends p (.verify p) s (verifyStart p s) := by
  have rd {a : Nat} (h : a ≠ Reg.MAC_MERGE_STATUS p) : (setVerify p 2 (triesReset p s)).rd a = s.rd a :=
    (triesReset p s).rd_put_ne h _ 2
  have state : (setVerify p 2 (triesReset p s)).linkState p = s.linkState p :=
    State.get_of_rd (rd (laneStatus_ne_status p)) _
  have g : generating (setVerify p 2 (triesReset p s)) p = false :=
    not_generating_of_linkState (state ▸ linkState_ne_of_linkUp up)
  obtain ⟨sends, regs, port⟩ := verifySend_spec g
  have port' : (setVerify p 2 (triesReset p s)).port p = { s.port p with mac := { (s.port p).mac with verifyTries := 0 } } :=
    triesReset_port p s
  have starts : verifyStart p s = activeUpdate p (verifySend p (setVerify p 2 (triesReset p s))) := by
    rw [verifyStart_eq, en, dis, up]
    rfl
  have cfg' := mergeEnCfg_of_rd (rd (mergeCfg_ne_status p))
  have cfg'' := mergeEnCfg_of_rd (p := p) (State.rd_of_regs regs (Reg.MAC_MERGE_CFG p))
  have two := verifyState_setVerify p (v := 2) (by decide) (triesReset p s)
  have verifying : Verifying p (verifySend p (setVerify p 2 (triesReset p s))) := by
    refine ⟨?_, ?_, ?_, ?_, (State.get_of_regs regs _ _).trans two⟩
    · rw [port, port', ← en]
    · rw [cfg''.1, cfg'.1, cfg]
    · rw [port, port', ← rise]
    · rw [cfg''.2, cfg'.2, dis]
  obtain ⟨port'', out, -⟩ := activeUpdate_frame p (verifySend p (setVerify p 2 (triesReset p s)))
  rw [starts]
  refine ⟨verifying.activeUpdate.1, verifying.activeUpdate.2, sends.of_eq ?_ ?_ rfl (by rw [port'']) out⟩
  · exact (rd (laneAt_ne_macAt p p (o := 0x14) (r := 0x1c) (by decide) (by decide))).symm
  · rw [port']

/-- With EN 0 in effect nothing is verified. -/
theorem verifyStart_off {p : Nat} {s : State} (en : (s.port p).mac.mergeEn = false) (cfg : mergeEnCfg s p = false)
    (rise : (s.port p).mac.mergeRise = false) :
    MergeOff p (verifyStart p s) ∧ mergeActive (verifyStart p s) p = false ∧ (verifyStart p s).out = s.out := by
  have port : (setVerify p 0 (triesReset p s)).port p = { s.port p with mac := { (s.port p).mac with verifyTries := 0 } } :=
    triesReset_port p s
  have cfg' := mergeEnCfg_of_rd ((triesReset p s).rd_put_ne (mergeCfg_ne_status p) Fld.MAC_MERGE_STATUS_VERIFY 0)
  have starts : verifyStart p s = activeUpdate p (setVerify p 0 (triesReset p s)) := by
    rw [verifyStart_eq, en]
    rfl
  have off : MergeOff p (setVerify p 0 (triesReset p s)) :=
    ⟨by rw [port, ← en], cfg'.1.trans cfg, by rw [port, ← rise], verifyState_setVerify p (by decide) _⟩
  rw [starts]
  exact ⟨off.activeUpdate.1, off.activeUpdate.2, (activeUpdate_frame p _).2.1⟩

/-! ### A written EN takes effect -/

/-- EN as written comes into effect. -/
def mergeTaken (p : Nat) (s : State) : State :=
  s.modMac p fun m => { m with mergeEn := mergeEnCfg s p, mergeRise := false }

theorem mergeTaken_port (p : Nat) (s : State) : (mergeTaken p s).port p =
    { s.port p with mac := { (s.port p).mac with mergeEn := mergeEnCfg s p, mergeRise := false } } :=
  s.port_modMac_same p _

theorem mergeSettle_of_busy {p : Nat} {s : State} (h : (s.port p).mac.txPreempt.isSome = true) : mergeSettle p s = s := by
  simp [mergeSettle, h]

theorem mergeSettle_of_idle {p : Nat} {s : State} (h : (s.port p).mac.txPreempt = none) (w : ¬ MergeSettled s p) :
    mergeSettle p s = verifyStart p (mergeTaken p s) := by
  refine if_neg fun none => w ?_
  simpa [h] using none

/-- What comes into effect, and that an UP port then verifies. -/
theorem mergeSettle_takes {p : Nat} {s : State} (h : (s.port p).mac.txPreempt = none) (w : ¬ MergeSettled s p) :
    ((mergeSettle p s).port p).mac.mergeEn = mergeEnCfg s p ∧ ((mergeSettle p s).port p).mac.mergeRise = false ∧
      (mergeEnCfg s p = true → verifyDis s p = false → s.linkUp p = true →
        Verifying p (mergeSettle p s) ∧ mergeActive (mergeSettle p s) p = false ∧
          LineSends p (.verify p) s (mergeSettle p s)) ∧
      (mergeEnCfg s p = false →
        MergeOff p (mergeSettle p s) ∧ mergeActive (mergeSettle p s) p = false ∧ (mergeSettle p s).out = s.out) := by
  have port := mergeTaken_port p s
  rw [mergeSettle_of_idle h w]
  obtain ⟨en, rise⟩ := verifyStart_merge p (mergeTaken p s)
  refine ⟨?_, ?_, fun cfg dis up => ?_, fun cfg => ?_⟩
  · rw [en, port]
  · rw [rise, port]
  · obtain ⟨verifying, active, sends⟩ := verifyStart_begins (s := mergeTaken p s) (by rw [port]; exact cfg) cfg
      (by rw [port]) dis up
    exact ⟨verifying, active, sends.of_eq rfl (by rw [port]) rfl rfl rfl⟩
  · exact verifyStart_off (by rw [port]; exact cfg) cfg (by rw [port])

/-! ### A write of MAC_MERGE_CFG -/

theorem regAt_mergeCfg (p : Port) : ∃ h, regAt (Reg.MAC_MERGE_CFG p.val) = some h ∧
    h.reg.fields = [Fld.MAC_MERGE_CFG_EN, Fld.MAC_MERGE_CFG_VERIFY_DIS, Fld.MAC_MERGE_CFG_VERIFY_TIME] := by
  have index : ∀ p : Port, (regAt (Reg.MAC_MERGE_CFG p.val)).map (fun h => h.reg.fields) =
      some [Fld.MAC_MERGE_CFG_EN, Fld.MAC_MERGE_CFG_VERIFY_DIS, Fld.MAC_MERGE_CFG_VERIFY_TIME] := by decide +kernel
  exact Option.map_eq_some_iff.1 (index p)

/-- MAC_MERGE_CFG takes a word: its fields, and no other register. -/
theorem store_mergeCfg (p : Port) (v : Word) (s : State) : ∃ u, s.store (Reg.MAC_MERGE_CFG p.val) v = u ∧
    u.get (Reg.MAC_MERGE_CFG p.val) Fld.MAC_MERGE_CFG_EN = Fld.MAC_MERGE_CFG_EN.of v ∧
    u.get (Reg.MAC_MERGE_CFG p.val) Fld.MAC_MERGE_CFG_VERIFY_DIS = Fld.MAC_MERGE_CFG_VERIFY_DIS.of v ∧
    OnlyRegsOf [Reg.MAC_MERGE_CFG p.val] s u := by
  obtain ⟨h, hit, fields⟩ := regAt_mergeCfg p
  have stored := State.store_of_regAt hit s v
  have taken {f : Field} (hf : f ∈ h.reg.fields) (rw : f.acc = .rw) :
      (s.store (Reg.MAC_MERGE_CFG p.val) v).get (Reg.MAC_MERGE_CFG p.val) f = f.of v := by
    rw [stored, State.get_eq, State.rd_wr_same, Field.of_storeWord (regAt_sound hit).tiled hf, Field.stored, rw]
  exact ⟨_, rfl, taken (by simp [fields]) rfl, taken (by simp [fields]) rfl, stored ▸ s.wr_onlyRegsOf _ _⟩

/-- u is what a write of v to MAC_MERGE_CFG makes of s, before EN takes effect: the register takes the word, and its
0-to-1 write of EN is noted. -/
structure MergeStored (p : Nat) (v : Word) (s u : State) : Prop where
  en : u.get (Reg.MAC_MERGE_CFG p) Fld.MAC_MERGE_CFG_EN = Fld.MAC_MERGE_CFG_EN.of v
  dis : u.get (Reg.MAC_MERGE_CFG p) Fld.MAC_MERGE_CFG_VERIFY_DIS = Fld.MAC_MERGE_CFG_VERIFY_DIS.of v
  rd : SameRegsBut [Reg.MAC_MERGE_CFG p] s u
  out : u.out = s.out
  port : u.port p = { s.port p with mac := { (s.port p).mac with
    mergeRise := (s.port p).mac.mergeRise && mergeEnCfg u p || !mergeEnCfg s p && mergeEnCfg u p } }
  others : ∀ q, q ≠ p → u.port q = s.port q

/-- What is written takes effect at once, or waits: the end of a write whose word is stored in u. -/
def mergeFollow (p : Nat) (s u : State) : State :=
  if !(s.port p).mac.mergeEn || !((mergeSettle p u).port p).mac.mergeEn || verifyDis s p == verifyDis (mergeSettle p u) p then
    activeUpdate p (mergeSettle p u)
  else verifyStart p (mergeSettle p u)

/-- A write that made u of s had its 0-to-1 write of EN noted. -/
def mergeNoted (p : Nat) (s u : State) : State :=
  u.modMac p fun m => { m with mergeRise := m.mergeRise && mergeEnCfg u p || !mergeEnCfg s p && mergeEnCfg u p }

theorem mergeWrite_stored (p : Port) (v : Word) (s : State) :
    ∃ u, MergeStored p.val v s u ∧ mergeWrite p.val v s = mergeFollow p.val s u := by
  obtain ⟨u, stored, en, dis, only, rd⟩ := store_mergeCfg p v s
  have port (q : Nat) : u.port q = s.port q := (congrArg (fun x : State => x.port q) only :)
  refine ⟨mergeNoted p.val s u, ⟨en, dis, rd, (congrArg State.out only :), ?_, fun q hq =>
    (u.port_modMac_ne hq _).trans (port q)⟩, by rw [mergeWrite, stored]; rfl⟩
  rw [mergeNoted, State.port_modMac_same, port]
  rfl

end Sys2Proof.Machine

/-! SUPPORT. Each command of the merge sublayer (R92 to R95, R295), from what its operations leave. -/
namespace Sys2Proof.Machine

/-! ### Writes of EN -/

theorem mergeEnCfg_of_get {s : State} {p n : Nat} (h : s.get (Reg.MAC_MERGE_CFG p) Fld.MAC_MERGE_CFG_EN = n) :
    mergeEnCfg s p = (n != 0) := congrArg (· != 0) h

theorem verifyDis_of_get {s : State} {p n : Nat} (h : s.get (Reg.MAC_MERGE_CFG p) Fld.MAC_MERGE_CFG_VERIFY_DIS = n) :
    verifyDis s p = (n != 0) := congrArg (· != 0) h

/-- The registers of a port beside MAC_MERGE_CFG: what they show of the link and of the loopback. -/
theorem linkUp_of_rd {s t : State} {p : Nat} (h : t.rd (Reg.LANE_STATUS p) = s.rd (Reg.LANE_STATUS p)) :
    t.linkState p = s.linkState p ∧ t.linkUp p = s.linkUp p := by
  have state : t.linkState p = s.linkState p := State.get_of_rd h _
  exact ⟨state, by rw [State.linkUp, State.linkUp, state]⟩

section
variable {s u : State} {p : Nat} {v : Word}

theorem MergeStored.cfg (st : MergeStored p v s u) : mergeEnCfg u p = (Fld.MAC_MERGE_CFG_EN.of v != 0) :=
  mergeEnCfg_of_get st.en

theorem MergeStored.verifyDis (st : MergeStored p v s u) : verifyDis u p = (Fld.MAC_MERGE_CFG_VERIFY_DIS.of v != 0) :=
  verifyDis_of_get st.dis

theorem MergeStored.mergeActive (st : MergeStored p v s u) : mergeActive u p = mergeActive s p :=
  State.getB_of_rd (st.rd _ (by simpa using (mergeCfg_ne_status p).symm)) _

theorem MergeStored.en_waits (st : MergeStored p v s u)
    (ne : (s.port p).mac.mergeEn ≠ (Fld.MAC_MERGE_CFG_EN.of v != 0)) : ¬ MergeSettled u p :=
  fun h => ne (by rw [← st.cfg, ← h.1, st.port])

/-- EN written from 0 to 1 with no frame partly sent, on an UP port (R92, R93). -/
theorem mergeFollow_begins (st : MergeStored p v s u) (idle : (s.port p).mac.txPreempt = none)
    (was : (s.port p).mac.mergeEn = false) (en : Fld.MAC_MERGE_CFG_EN.of v = 1)
    (dis : Fld.MAC_MERGE_CFG_VERIFY_DIS.of v = 0) (up : s.linkUp p = true) :
    Verifying p (mergeFollow p s u) ∧ mergeActive (mergeFollow p s u) p = false ∧
      LineSends p (.verify p) s (mergeFollow p s u) := by
  have up' : u.linkUp p = true := by
    have ne := laneAt_ne_macAt p p (o := 4) (r := 0x18) (by decide) (by decide)
    rw [(linkUp_of_rd (st.rd _ (mt List.mem_singleton.1 ne))).2, up]
  have test := st.rd (Reg.LANE_TEST p)
    (mt List.mem_singleton.1 (laneAt_ne_macAt p p (o := 0x14) (r := 0x18) (by decide) (by decide)))
  obtain ⟨-, -, begins, -⟩ := mergeSettle_takes (s := u) (by rw [st.port]; exact idle)
    (st.en_waits (by rw [was, en]; decide))
  obtain ⟨verifying, -, sends⟩ := begins (by rw [st.cfg, en]; rfl) (by rw [st.verifyDis, dis]; rfl) up'
  obtain ⟨same, sent, -⟩ := activeUpdate_frame p (mergeSettle p u)
  have follows : mergeFollow p s u = activeUpdate p (mergeSettle p u) := by simp [mergeFollow, was]
  rw [follows]
  exact ⟨verifying.activeUpdate.1, verifying.activeUpdate.2,
    sends.of_eq test.symm (by rw [st.port]) st.out.symm (by rw [same]) sent⟩

/-- EN written 0 with no frame partly sent. -/
theorem mergeFollow_ends (st : MergeStored p v s u) (idle : (s.port p).mac.txPreempt = none)
    (was : (s.port p).mac.mergeEn = true) (en : Fld.MAC_MERGE_CFG_EN.of v = 0) :
    MergeOff p (mergeFollow p s u) ∧ mergeActive (mergeFollow p s u) p = false ∧ (mergeFollow p s u).out = s.out := by
  obtain ⟨-, -, -, ends⟩ := mergeSettle_takes (s := u) (by rw [st.port]; exact idle)
    (st.en_waits (by rw [was, en]; decide))
  obtain ⟨off, -, out⟩ := ends (by rw [st.cfg, en]; rfl)
  have follows : mergeFollow p s u = activeUpdate p (mergeSettle p u) := by simp [mergeFollow, off.en]
  rw [follows]
  exact ⟨off.activeUpdate.1, off.activeUpdate.2, ((activeUpdate_frame p _).2.1.trans out).trans st.out⟩

/-- While a frame is partly sent a write of EN waits: the register and the note of its rise alone change (R93). -/
theorem mergeFollow_waits (st : MergeStored p v s u) (busy : (s.port p).mac.txPreempt.isSome = true)
    (dis : Fld.MAC_MERGE_CFG_VERIFY_DIS.of v = if Machine.verifyDis s p then 1 else 0)
    (waits : ¬ MergeSettled u p) : mergeFollow p s u = u := by
  have same : Machine.verifyDis u p = Machine.verifyDis s p := by
    rw [st.verifyDis, dis]
    cases Machine.verifyDis s p <;> rfl
  have settle : mergeSettle p u = u := mergeSettle_of_busy (by rw [st.port]; exact busy)
  rw [mergeFollow, settle, same, beq_self_eq_true, Bool.or_true, if_pos rfl, activeUpdate_of_waiting waits]

end

/-! ### Verify and respond mPackets -/

section
variable {s : State} {p : Port}

theorem exec_verifyTimer (hs : s.running) : exec (.verifyTimer p) s = .next
    (if verifyState s p.val ≠ 2 then s
      else if (s.port p.val).mac.verifyTries < 3 then verifySend p.val s
      else (setVerify p.val 4 s).raise (Reg.MAC_EVENT p.val) Fld.MAC_EVENT_VERIFY_FAIL) := by
  change execVerifyTimer p s = _
  simp only [execVerifyTimer, act_running hs]

/-- VERIFY takes a value and an event of the MAC latches. -/
theorem setVerify_raise_spec (p : Nat) {v : Nat} (hv : v < 8) {f : Field} (hf : f.lo + f.w ≤ 32) (h1 : f.w = 1) (s : State) :
    let t := (setVerify p v s).raise (Reg.MAC_EVENT p) f
    verifyState t p = v ∧ t.getB (Reg.MAC_EVENT p) f = true ∧ OnlyRegsOf [Reg.MAC_MERGE_STATUS p, Reg.MAC_EVENT p] s t := by
  have ne : Reg.MAC_MERGE_STATUS p ≠ Reg.MAC_EVENT p := portAt_ne (o := 0x1c) (r := 0x20) (by decide)
  refine ⟨?_, ?_, rfl, fun a ha => ?_⟩
  · exact (State.get_put_ne _ ne _ _ _).trans (verifyState_setVerify p hv s)
  · rw [State.getB, State.get_raise_same _ _ _ hf h1]
    rfl
  · obtain ⟨status, event⟩ : a ≠ Reg.MAC_MERGE_STATUS p ∧ a ≠ Reg.MAC_EVENT p := by simpa using ha
    exact ((setVerify p v s).rd_put_ne event _ _).trans (s.rd_put_ne status _ _)

/-- A port in near-end loopback receives what it has sent itself, in its turn; another receives what comes (R74). -/
theorem loopReceive_eq (n : Nat) (o : Output) (f : State → State) (s : State) : loopReceive n o f s =
    if nearEnd s n = false then f s else if (s.port n).mac.loop.head? = some o then f (loopTaken n s) else s := by
  cases h : nearEnd s n <;> simp [loopReceive, h]

/-- What a verify mPacket brings where it is received. -/
def verifyAnswered (n : Nat) (s : State) : State :=
  if (s.port n).mac.mergeEn && s.linkState n == 4 then lineOut n (.respond n) s else s

/-- What a respond mPacket brings where it is received. -/
def respondTaken (n : Nat) (s : State) : State :=
  if verifyState s n = 2 then activeUpdate n ((setVerify n 3 s).raise (Reg.MAC_EVENT n) Fld.MAC_EVENT_VERIFY_OK) else s

theorem exec_verifyMpacketReceived (hs : s.running) (far : ¬ (s.linkState p.val = 6 ∧ farEnd s p.val = true)) :
    exec (.verifyMpacketReceived p) s = .next (loopReceive p.val (.verify p.val) (verifyAnswered p.val) s) := by
  change execVerifyMpacketReceived p s = _
  simp only [execVerifyMpacketReceived, act_running hs, if_neg far]
  rfl

theorem exec_respondMpacketReceived (hs : s.running) (far : ¬ (s.linkState p.val = 6 ∧ farEnd s p.val = true)) :
    exec (.respondMpacketReceived p) s = .next (loopReceive p.val (.respond p.val) (respondTaken p.val) s) := by
  change execRespondMpacketReceived p s = _
  simp only [execRespondMpacketReceived, act_running hs, if_neg far]
  rfl

theorem exec_verifyMpacketReceived_far (hs : s.running) (far : s.linkState p.val = 6 ∧ farEnd s p.val = true) :
    exec (.verifyMpacketReceived p) s = .next (ballOut p.val (.verify p.val) s) := by
  change execVerifyMpacketReceived p s = _
  simp only [execVerifyMpacketReceived, act_running hs, if_pos far]

theorem exec_respondMpacketReceived_far (hs : s.running) (far : s.linkState p.val = 6 ∧ farEnd s p.val = true) :
    exec (.respondMpacketReceived p) s = .next (ballOut p.val (.respond p.val) s) := by
  change execRespondMpacketReceived p s = _
  simp only [execRespondMpacketReceived, act_running hs, if_pos far]

theorem not_far_of_near (near : nearEnd s p.val = true) : ¬ (s.linkState p.val = 6 ∧ farEnd s p.val = true) :=
  fun h => by simp [not_farEnd_of_nearEnd near] at h

/-- An UP port whose EN is in effect answers a verify mPacket. -/
theorem verifyAnswered_of_up {n : Nat} (en : (s.port n).mac.mergeEn = true) (up : s.linkState n = 4) :
    verifyAnswered n s = lineOut n (.respond n) s := by simp [verifyAnswered, en, up]

theorem loopTaken_port (n : Nat) (s : State) : (loopTaken n s).port n =
    { s.port n with mac := { (s.port n).mac with loop := (s.port n).mac.loop.tail } } := s.port_modMac_same n _

/-- The answer to a verify mPacket out of the loop goes into it. -/
theorem verifyAnswered_loopTaken {n : Nat} (near : nearEnd s n = true) (en : (s.port n).mac.mergeEn = true)
    (up : s.linkState n = 4) :
    ((verifyAnswered n (loopTaken n s)).port n).mac.loop = (s.port n).mac.loop.tail ++ [.respond n] := by
  have port := loopTaken_port n s
  have up' : (loopTaken n s).linkState n = 4 := up
  have sends := lineSends_lineOut (s := loopTaken n s) (p := n)
    (not_generating_of_linkState (by rw [up']; decide)) (.respond n)
  rw [LineSends, if_pos (show nearEnd (loopTaken n s) n = true from near)] at sends
  rw [verifyAnswered_of_up (by rw [port]; exact en) up', sends.1, port]

/-- A respond mPacket ends verification: preemption is active where EN is in effect on a port that is UP (R93). -/
theorem respondTaken_spec {n : Nat} (verifying : verifyState s n = 2) :
    let t := respondTaken n s
    verifyState t n = 3 ∧ t.getB (Reg.MAC_EVENT n) Fld.MAC_EVENT_VERIFY_OK = true ∧
      ((s.port n).mac.mergeEn = true → (s.port n).mac.mergeRise = false → mergeEnCfg s n = true → s.linkUp n = true →
        mergeActive t n = true) ∧
      OnlyRegsOf [Reg.MAC_MERGE_STATUS n, Reg.MAC_EVENT n] s t := by
  obtain ⟨state, event, only⟩ := setVerify_raise_spec n (v := 3) (by decide) (f := Fld.MAC_EVENT_VERIFY_OK) (by decide) rfl s
  rw [respondTaken, if_pos verifying]
  generalize (setVerify n 3 s).raise (Reg.MAC_EVENT n) Fld.MAC_EVENT_VERIFY_OK = u at *
  obtain ⟨only', rd⟩ := activeUpdate_onlyRegsOf n u
  have port : u.port n = s.port n := (congrArg (fun x : State => x.port n) only.1 :)
  have status : Reg.MAC_MERGE_STATUS n ≠ Reg.MAC_EVENT n := portAt_ne (o := 0x1c) (r := 0x20) (by decide)
  refine ⟨(verifyState_activeUpdate n u).trans state, ?_, fun en rise cfg up => ?_, only.trans ⟨only', fun a ha => rd a ?_⟩⟩
  · exact (State.getB_of_rd (rd _ (mt List.mem_singleton.1 status.symm)) _).trans event
  · have kept {a : Nat} (ne : a ≠ Reg.MAC_MERGE_STATUS n) (ne' : a ≠ Reg.MAC_EVENT n) : u.rd a = s.rd a :=
      only.2 a (by simp [ne, ne'])
    have cfg' := mergeEnCfg_of_rd (p := n) (kept (mergeCfg_ne_status n) (portAt_ne (o := 0x18) (r := 0x20) (by decide)))
    have up' := (linkUp_of_rd (p := n) (kept (laneStatus_ne_status n)
      (laneAt_ne_macAt n n (o := 4) (r := 0x20) (by decide) (by decide)))).2
    rw [mergeActive_activeUpdate ⟨by rw [port, en, cfg'.1, cfg], by rw [port, rise]⟩, activeOf, port, en, up', up, state]
    rfl
  · simp only [List.mem_cons, not_or] at ha
    simpa using ha.1

end

/-! ### Preemption -/

section
variable {s : State} {p : Port} {f : TxFrame}

/-- The frame in flight is held after n bytes of its present fragment. -/
def TxFrame.heldAfter (f : TxFrame) (n : Nat) : TxFrame :=
  { f with held := true, done := f.done + n, fragments := f.fragments + 1 }

/-- The fragment has left and is counted, and the frame is held; control frames that wait are still to go. -/
def fragmentSent (p : Nat) (f : TxFrame) (n : Nat) (s : State) : State :=
  (lineOut p (.mpacket p (txPacket f n false) true) (macStat p 61 1 (macStat p 60 1 s))).modMac p fun m =>
    { m with txPreempt := some (f.heldAfter n) }

theorem exec_preemption (hs : s.running) (tx : (s.port p.val).mac.txPreempt = some f) {n : Nat} (held : f.held = false)
    (active : mergeActive s p.val = true) (sent : 60 ≤ n) (left : f.done + n + 64 ≤ f.sent.length + 4) :
    exec (.preemption p n) s = .next (ctlDrain p.val (fragmentSent p.val f n s)) := by
  have goes : ¬ (f.held = true ∨ mergeActive s p.val = false ∨ n < 60 ∨ f.sent.length + 4 < f.done + n + 64) := by
    simp only [held, active, Bool.true_eq_false, Bool.false_eq_true, false_or]
    omega
  change execPreemption p n s = _
  simp only [execPreemption, act_running hs, tx, if_neg goes]
  rfl

theorem exec_fragmentResume (hs : s.running) (tx : (s.port p.val).mac.txPreempt = some f) :
    exec (.fragmentResume p) s = .next
      (if (s.port p.val).mac.txExpress.isSome || (s.port p.val).link.remoteFault || expressTakes s p.val ||
          !mayLeave s f.ef.frame then s
        else s.modMac p.val fun m => { m with txPreempt := some { f with held := false } }) := by
  change execFragmentResume p s = _
  simp only [execFragmentResume, act_running hs, tx]

theorem expressTakes_iff {n : Nat} : expressTakes s n = true ↔
    mergeActive s n = true ∧ txFree s n = true ∧ (eligible s n 7).isSome = true := by
  simp [expressTakes, and_assoc]

end

end Sys2Proof.Machine

/-! SUPPORT. The control frames that wait at a MAC (R90): what their going out leaves. -/
namespace Sys2Proof.Machine

/-- Counter k of a MAC counts the frames that it sends, those held for preemption and their fragments apart. -/
abbrev TxStat (k : Nat) : Prop := 41 ≤ k ∧ k < 63 ∧ k ≠ 60 ∧ k ≠ 61

/-- Place o of a MAC holds what its own transmission counts: its events, a half-range flag or a counter of frames sent. -/
abbrev CtlPlace (o : Nat) : Prop :=
  o = 0x20 ∨ 0x40 ≤ o ∧ o < 0x4c ∨ 0x1148 ≤ o ∧ o < 0x11e0 ∨ 0x11f0 ≤ o ∧ o < 0x11f8

/-- Register a holds what the MAC of port p counts of its own transmission. -/
def CtlReg (p a : Nat) : Prop := ∃ o, CtlPlace o ∧ a = macAt p o

theorem ctlPlace_stat {k r : Nat} (hk : TxStat k) (hr : r < 8) : CtlPlace (0x1000 + k * 8 + r) := by
  have : k < 60 ∨ k = 62 := by omega
  rcases this with h | rfl
  · exact .inr (.inr (.inl ⟨by omega, by omega⟩))
  · exact .inr (.inr (.inr ⟨by omega, by omega⟩))

theorem txStat_of_ctlPlace {k r : Nat} (hr : r < 8) (h : CtlPlace (0x1000 + k * 8 + r)) : TxStat k := by
  rcases h with low | low | frames | last
  · exact absurd low (by omega)
  · exact absurd low.2 (by omega)
  · have : k < 60 := by omega
    exact ⟨by omega, by omega, by omega, by omega⟩
  · have : k = 62 := by omega
    exact this ▸ (by decide)

theorem ctlReg_macAt {p o : Nat} (h : CtlPlace o) : CtlReg p (macAt p o) := ⟨o, h, rfl⟩

theorem CtlReg.inMacs {p a : Nat} (h : CtlReg p a) : InMacs a := by
  obtain ⟨o, place, rfl⟩ := h
  exact inMacs_macAt p (by omega)

/-- Another port's MAC holds none of it, nor another place. -/
theorem CtlReg.place {p q o : Nat} (h : CtlReg q (macAt p o)) (ho : o < 0x4000) : p = q ∧ CtlPlace o := by
  obtain ⟨r, place, e⟩ := h
  obtain ⟨port, same⟩ := macAt_inj ho (by omega) e
  exact ⟨port, same ▸ place⟩

/-- From s to t the MAC of port p has sent control frames at most. -/
structure CtlLeft (p : Nat) (s t : State) : Prop where
  only : t = { s with ports := t.ports, out := t.out, regs := t.regs, energy := t.energy }
  rd : ∀ a, ¬ CtlReg p a → t.rd a = s.rd a
  event : ∀ f : Field, f.Apart Fld.MAC_EVENT_STAT_HALF → t.get (Reg.MAC_EVENT p) f = s.get (Reg.MAC_EVENT p) f
  port : t.port p = { s.port p with mac := { (s.port p).mac with
    loop := (t.port p).mac.loop, ctl := (t.port p).mac.ctl, ctlUntil := (t.port p).mac.ctlUntil } }
  others : ∀ q, q ≠ p → t.port q = s.port q

namespace CtlLeft

theorem refl (p : Nat) (s : State) : CtlLeft p s s := ⟨rfl, fun _ _ => rfl, fun _ _ => rfl, rfl, fun _ _ => rfl⟩

theorem trans {p : Nat} {s t u : State} (h : CtlLeft p s t) (k : CtlLeft p t u) : CtlLeft p s u where
  only := by rw [k.only, h.only]
  rd a ha := (k.rd a ha).trans (h.rd a ha)
  event f hf := (k.event f hf).trans (h.event f hf)
  port := by rw [k.port, h.port]
  others q hq := (k.others q hq).trans (h.others q hq)

theorem of_sent {p : Nat} {s t : State} (h : Sent p s t) : CtlLeft p s t where
  only := by rw [h.only]
  rd a _ := h.rd a
  event f _ := State.get_of_regs h.regs _ _
  port := by rw [h.port]
  others := h.others

theorem modMac (p : Nat) {f : Mac → Mac} (s : State)
    (hf : ∀ m, f m = { m with loop := (f m).loop, ctl := (f m).ctl, ctlUntil := (f m).ctlUntil }) :
    CtlLeft p s (s.modMac p f) := by
  refine ⟨rfl, fun _ _ => rfl, fun _ _ => rfl, ?_, fun q hq => s.port_modMac_ne hq f⟩
  rw [State.port_modMac_same, ← hf]

end CtlLeft

/-- From s to t the MAC of port p has counted what it has sent, and sent nothing. -/
structure CtlQuiet (p : Nat) (s t : State) : Prop extends CtlLeft p s t where
  out : t.out = s.out
  loop : (t.port p).mac.loop = (s.port p).mac.loop

namespace CtlQuiet

theorem refl (p : Nat) (s : State) : CtlQuiet p s s := ⟨.refl p s, rfl, rfl⟩

theorem trans {p : Nat} {s t u : State} (h : CtlQuiet p s t) (k : CtlQuiet p t u) : CtlQuiet p s u :=
  ⟨h.toCtlLeft.trans k.toCtlLeft, k.out.trans h.out, k.loop.trans h.loop⟩

theorem macStat (p n : Nat) {k : Nat} (hk : TxStat k) (s : State) : CtlQuiet p s (macStat p k n s) := by
  have only := macStat_onlyRegs p k n s
  refine ⟨⟨by rw [only], fun a ha => macStat_rd p n s ?_ ?_ ?_ ?_, fun f hf => macStat_event p k n (by omega) hf s, ?_,
    fun q _ => by rw [only]; rfl⟩, by rw [only], by rw [only]; rfl⟩
  · exact fun e => ha (e ▸ macStatLo_eq p k ▸ ctlReg_macAt (ctlPlace_stat hk (r := 0) (by decide)))
  · exact fun e => ha (e ▸ macStatLo_hi_eq p k ▸ ctlReg_macAt (ctlPlace_stat hk (by decide)))
  · exact fun e => ha (e ▸ macStatHalf_eq p (k / 32) ▸ ctlReg_macAt (.inr (.inl (by omega))))
  · exact fun e => ha (e ▸ ctlReg_macAt (o := 0x20) (.inl rfl))
  · rw [only]; rfl

theorem stat {p : Nat} {s t : State} (h : CtlQuiet p s t) (n : Nat) {k : Nat} (hk : TxStat k) :
    CtlQuiet p s (Machine.macStat p k n t) := h.trans (macStat p n hk t)

theorem energy (p st acc kind : Nat) (s : State) : CtlQuiet p s (energy st acc kind s) :=
  ⟨⟨rfl, fun _ _ => rfl, fun _ _ => rfl, rfl, fun _ _ => rfl⟩, rfl, rfl⟩

theorem modMac (p : Nat) {f : Mac → Mac} (s : State)
    (hf : ∀ m, f m = { m with ctl := (f m).ctl, ctlUntil := (f m).ctlUntil }) : CtlQuiet p s (s.modMac p f) := by
  have loop : (f (s.port p).mac).loop = (s.port p).mac.loop := by rw [hf]
  exact ⟨.modMac p s fun m => by rw [hf m], rfl, (congrArg (fun x : PortSt => x.mac.loop) (s.port_modMac_same p f)).trans loop⟩

theorem foldl {p : Nat} {α : Type} {f : State → α → State} {l : List α} (h : ∀ s, ∀ x ∈ l, CtlQuiet p s (f s x)) (s : State) :
    CtlQuiet p s (l.foldl f s) := by
  induction l generalizing s with
  | nil => exact refl p s
  | cons x l ih => exact (h s x List.mem_cons_self).trans (ih (fun t y hy => h t y (List.mem_cons_of_mem _ hy)) _)

end CtlQuiet

/-- The octets of a control frame. -/
def ctlBytes (s : State) (p : Nat) (c : CtlFrame) : List Byte :=
  padded (beBytes 6 0x0180C2000001 ++ macSa s p ++ [0x88#8, 0x08#8] ++ c.body)

/-- A control frame has gone out of port p, and counts as a frame. -/
def ctlGone (p : Nat) (c : CtlFrame) (s : State) : State :=
  macStat p 41 64 (macStat p 42 1 (macStat p 44 1 (macStat p 62 1
    (energy (stationOf p) 2 2 (lineOut p (.frame p (ctlBytes s p c) true) s)))))

/-- A control frame is an express frame where preemption is active (R94), and occupies its MAC. -/
def ctlTimed (p : Nat) (s : State) : State :=
  let u := if mergeActive s p then macStat p 59 1 s else s
  u.modMac p fun m => { m with ctlUntil := u.now + (671 + u.portRate p) / u.portRate p }

/-- A pause frame counts in one counter, a PFC frame in one of each class in its vector. -/
def ctlCounted (p : Nat) (c : CtlFrame) (s : State) : State :=
  match c.pfc with
  | none => macStat p 49 1 s
  | some on => (List.range 8).foldl (fun s c => if on.testBit c then macStat p (50 + c) 1 s else s) s

theorem ctlSend_eq (p : Nat) (c : CtlFrame) (s : State) : ctlSend p c s = ctlCounted p c (ctlTimed p (ctlGone p c s)) := rfl

theorem ctlGone_quiet (p : Nat) (c : CtlFrame) (s : State) :
    CtlQuiet p (lineOut p (.frame p (ctlBytes s p c) true) s) (ctlGone p c s) :=
  ((((CtlQuiet.energy p _ _ _ _).stat 1 (by decide)).stat 1 (by decide)).stat 1 (by decide)).stat 64 (by decide)

theorem ctlTimed_quiet (p : Nat) (s : State) : CtlQuiet p s (ctlTimed p s) := by
  unfold ctlTimed
  refine .trans ?_ (.modMac p _ fun _ => rfl)
  split
  · exact .macStat p 1 (by decide) s
  · exact .refl p s

theorem ctlCounted_quiet (p : Nat) (c : CtlFrame) (s : State) : CtlQuiet p s (ctlCounted p c s) := by
  unfold ctlCounted
  split
  · exact .macStat p 1 (by decide) s
  · refine .foldl (fun t x hx => ?_) s
    have := List.mem_range.1 hx
    split
    · exact .macStat p 1 (by omega) t
    · exact .refl p t

theorem ctlSend_quiet (p : Nat) (c : CtlFrame) (s : State) :
    CtlQuiet p (lineOut p (.frame p (ctlBytes s p c) true) s) (ctlSend p c s) :=
  (ctlGone_quiet p c s).trans ((ctlTimed_quiet p _).trans (ctlCounted_quiet p c _))

theorem ctlSend_left (p : Nat) (c : CtlFrame) (s : State) : CtlLeft p s (ctlSend p c s) :=
  (CtlLeft.of_sent (sent_lineOut p _ s)).trans (ctlSend_quiet p c s).toCtlLeft

theorem ctlRun_left (p : Nat) (l : List CtlFrame) (s : State) : CtlLeft p s (ctlRun p l s) := by
  induction l generalizing s with
  | nil => exact .modMac p s fun _ => rfl
  | cons c r ih =>
    rw [ctlRun]
    split
    · exact (ctlSend_left p c s).trans (ih _)
    · exact .modMac p s fun _ => rfl

theorem ctlDrain_left (p : Nat) (s : State) : CtlLeft p s (ctlDrain p s) := by
  rw [ctlDrain]
  split
  · exact .refl p s
  · exact ctlRun_left p _ s

theorem ctlDrain_of_empty {p : Nat} {s : State} (h : (s.port p).mac.ctl = []) : ctlDrain p s = s := by
  rw [ctlDrain, h]
  rfl

theorem CtlLeft.mem {p : Nat} {s t : State} (h : CtlLeft p s t) : t.mem = s.mem := (congrArg State.mem h.only :)

theorem not_ctlReg_stat (p : Nat) {k : Nat} (hk : k < 72) (h : ¬ TxStat k) :
    ¬ CtlReg p (Reg.MAC_STAT_LO p k) ∧ ¬ CtlReg p (Reg.MAC_STAT_LO p k + 4) := by
  rw [macStatLo_hi_eq, macStatLo_eq]
  constructor <;> intro r
  · exact h (txStat_of_ctlPlace (r := 0) (by decide) (r.place (by omega)).2)
  · exact h (txStat_of_ctlPlace (by decide) (r.place (by omega)).2)

theorem CtlLeft.cntGet {p : Nat} {s t : State} (h : CtlLeft p s t) {k : Nat} (hk : k < 72) (hk' : ¬ TxStat k) :
    t.cntGet (Reg.MAC_STAT_LO p k) = s.cntGet (Reg.MAC_STAT_LO p k) :=
  State.cntGet_of_rd (h.rd _ (not_ctlReg_stat p hk hk').1) (h.rd _ (not_ctlReg_stat p hk hk').2)

end Sys2Proof.Machine

/-! SUPPORT and the obligation O16, assembled: what each command of the merge sublayer leaves. -/
namespace Sys2Proof.Machine

theorem generating_of_rd {s t : State} {p : Nat} (status : t.rd (Reg.LANE_STATUS p) = s.rd (Reg.LANE_STATUS p))
    (test : ∀ l, t.rd (Reg.LANE_TEST l) = s.rd (Reg.LANE_TEST l)) (link : (t.port p).link = (s.port p).link) :
    generating t p = generating s p := by
  have gen (l : Nat) := State.getB_of_rd (test l) Fld.LANE_TEST_GEN_EN
  have state : t.linkState p = s.linkState p := (linkUp_of_rd status).1
  simp only [generating, state, portLanes, link, gen]

theorem macStat_laneTest (p n : Nat) {k : Nat} (hk : k < 72) (l : Nat) (s : State) :
    (macStat p k n s).rd (Reg.LANE_TEST l) = s.rd (Reg.LANE_TEST l) :=
  macStat_rd_of_not_inMacs p n hk (not_inMacs_laneAt l (o := 0x14) (by decide)) s

theorem macStat_laneStatus (p n : Nat) {k : Nat} (hk : k < 72) (l : Nat) (s : State) :
    (macStat p k n s).rd (Reg.LANE_STATUS l) = s.rd (Reg.LANE_STATUS l) :=
  macStat_rd_of_not_inMacs p n hk (not_inMacs_laneAt l (o := 4) (by decide)) s

theorem generating_macStat (p n : Nat) {k : Nat} (hk : k < 72) (s : State) :
    generating (macStat p k n s) p = generating s p :=
  generating_of_rd (macStat_laneStatus p n hk p s) (fun l => macStat_laneTest p n hk l s)
    (by rw [macStat_onlyRegs p k n s]; rfl)

theorem macStat_port (p k n q : Nat) (s : State) : (macStat p k n s).port q = s.port q := by
  rw [macStat_onlyRegs p k n s]; rfl

theorem macStat_out (p k n : Nat) (s : State) : (macStat p k n s).out = s.out := by rw [macStat_onlyRegs p k n s]

/-- A count leaves the other counters of its MAC. -/
theorem cntGet_macStat_ne (p n : Nat) {j k : Nat} (h : j ≠ k) (hj : j < 72) (hk : k < 72) (s : State) :
    (macStat p k n s).cntGet (Reg.MAC_STAT_LO p j) = s.cntGet (Reg.MAC_STAT_LO p j) := by
  obtain ⟨⟨lo, lo4⟩, hi, hi4⟩ := macStatLo_ne p h
  obtain ⟨half, half4⟩ := statApart_half p (w := k / 32) (by omega) j hj
  obtain ⟨event, event4⟩ := statApart_event p j hj
  exact State.cntGet_of_rd (macStat_rd p n s lo lo4 half.symm event.symm) (macStat_rd p n s hi hi4 half4.symm event4.symm)

section
variable {s : State} {p : Nat} {f : TxFrame} {n : Nat}

/-- The fragment that goes out, and its MAC with the frame held. -/
theorem fragmentSent_port : (fragmentSent p f n s).port p =
    { s.port p with mac := { (s.port p).mac with
      loop := ((fragmentSent p f n s).port p).mac.loop, txPreempt := some (f.heldAfter n) } } := by
  have sent := sent_lineOut p (.mpacket p (txPacket f n false) true) (macStat p 61 1 (macStat p 60 1 s))
  rw [fragmentSent, State.port_modMac_same, sent.port, macStat_port, macStat_port]

theorem fragmentSent_sends (g : generating s p = false) :
    LineSends p (.mpacket p (txPacket f n false) true) s (fragmentSent p f n s) := by
  have g' : generating (macStat p 61 1 (macStat p 60 1 s)) p = false := by
    rw [generating_macStat p 1 (by decide), generating_macStat p 1 (by decide), g]
  have port := (fragmentSent_port (s := s) (p := p) (f := f) (n := n))
  refine (lineSends_lineOut g' _).of_eq ?_ ?_ ?_ ?_ rfl
  · rw [macStat_laneTest p 1 (by decide), macStat_laneTest p 1 (by decide)]
  · rw [macStat_port, macStat_port]
  · rw [macStat_out, macStat_out]
  · rw [fragmentSent, State.port_modMac_same]

theorem fragmentSent_counts : Counts (Reg.MAC_STAT_LO p 61) 1 s (fragmentSent p f n s) := by
  have sent := sent_lineOut p (.mpacket p (txPacket f n false) true) (macStat p 61 1 (macStat p 60 1 s))
  rw [Counts, ← cntGet_macStat_ne p 1 (show 61 ≠ 60 by decide) (by decide) (by decide) s]
  exact (State.cntGet_of_rd (sent.rd _) (sent.rd _)).trans (counts_macStat p 1 (by decide) (macStat p 60 1 s))

theorem fragmentSent_mem : (fragmentSent p f n s).mem = s.mem := by
  have sent := sent_lineOut p (.mpacket p (txPacket f n false) true) (macStat p 61 1 (macStat p 60 1 s))
  refine (congrArg State.mem sent.only :).trans ?_
  rw [macStat_onlyRegs p 61 1 (macStat p 60 1 s), macStat_onlyRegs p 60 1 s]

/-- The header of a fragment (R91). -/
theorem txPacket_spec (f : TxFrame) (n : Nat) : let m := txPacket f n false
    m.last = false ∧ m.bytes = (f.sent.drop f.done).take n ∧ m.frameCount.val = f.frameCount % 4 ∧
      (m.start = true ↔ f.fragments = 1) ∧ (2 ≤ f.fragments → m.fragCount.val = (f.fragments - 2) % 4) :=
  ⟨rfl, rfl, rfl, beq_iff_eq, fun _ => rfl⟩

end

/-! ### The commands -/

section
variable {s : State} {p : Port} {v : Word}

theorem exec_mergeCfgWrite (hs : s.running) (p : Port) (v : Word) :
    ∃ u, MergeStored p.val v s u ∧ exec (.mergeCfgWrite p v) s = .next (mergeFollow p.val s u) := by
  obtain ⟨u, stored, e⟩ := mergeWrite_stored p v s
  exact ⟨u, stored, (act_running hs _).trans (congrArg _ e)⟩

/-- A write of EN that waits for the end of a frame (R93). -/
theorem mergeCfgWrite_waits (hs : s.running) (busy : (s.port p.val).mac.txPreempt.isSome = true)
    (dis : Fld.MAC_MERGE_CFG_VERIFY_DIS.of v = if verifyDis s p.val then 1 else 0)
    (waits : ∀ u, MergeStored p.val v s u → ¬ MergeSettled u p.val) :
    ∃ u, exec (.mergeCfgWrite p v) s = .next u ∧ MergeStored p.val v s u := by
  obtain ⟨u, stored, e⟩ := exec_mergeCfgWrite hs p v
  exact ⟨u, by rw [e, mergeFollow_waits stored busy dis (waits u stored)], stored⟩

/-- A rise that is noted, or comes. -/
theorem MergeStored.rise_iff {p : Nat} {s u : State} (st : MergeStored p v s u) : (u.port p).mac.mergeRise = true ↔
    Fld.MAC_MERGE_CFG_EN.of v = 1 ∧ ((s.port p).mac.mergeRise = true ∨ mergeEnCfg s p = false) := by
  have bit : Fld.MAC_MERGE_CFG_EN.of v < 2 := Fld.MAC_MERGE_CFG_EN.of_lt v
  have one : Fld.MAC_MERGE_CFG_EN.of v ≠ 0 ↔ Fld.MAC_MERGE_CFG_EN.of v = 1 := by omega
  rw [st.port, ← one]
  simp [st.cfg]
  tauto

/-- What has been written waits where it is not what is in effect. -/
theorem en_ne_of_written {b : Bool} (h : Fld.MAC_MERGE_CFG_EN.of v ≠ if b then 1 else 0) :
    b ≠ (Fld.MAC_MERGE_CFG_EN.of v != 0) := by
  have bit : Fld.MAC_MERGE_CFG_EN.of v < 2 := Fld.MAC_MERGE_CFG_EN.of_lt v
  cases b <;> simp at h ⊢ <;> omega

end

/-- Settles O16: each command from what its operations leave of the merge sublayer. -/
theorem preemptionIsVerifiedAndUsed : Obligations.PreemptionIsVerifiedAndUsed := by
  unfold Obligations.PreemptionIsVerifiedAndUsed
  refine ⟨fun s p hs => ?_, fun s p f hs tx => ⟨fun n held active sent left => ?_, ?_⟩⟩
  · refine ⟨fun v idle was en dis up => ?_, fun v idle was en => ?_, fun v busy ne dis => ?_, fun v busy was cfg en dis => ?_,
      fun idle waits => ?_, fun state tries g => ?_, fun state tries => ?_, fun en up near => ?_, fun near head => ?_,
      fun near head en up => ?_, fun near head => ?_, fun state far => ⟨?_, ?_⟩, fun state near far => ?_⟩
    · obtain ⟨u, stored, e⟩ := exec_mergeCfgWrite hs p v
      obtain ⟨verifying, active, sends⟩ := mergeFollow_begins stored idle was en dis up
      exact ⟨_, e, verifying.en, verifying.state, sends, active⟩
    · obtain ⟨u, stored, e⟩ := exec_mergeCfgWrite hs p v
      obtain ⟨off, active, out⟩ := mergeFollow_ends stored idle was en
      exact ⟨_, e, off.en, off.state, out, active⟩
    · obtain ⟨u, e, stored⟩ := mergeCfgWrite_waits hs busy dis fun u st => st.en_waits (en_ne_of_written ne)
      refine ⟨u, e, stored.en, ?_, stored.rise_iff, stored.others, stored.mergeActive⟩
      rw [stored.port]
    · have rises {u : State} (st : MergeStored p.val v s u) := st.rise_iff.2 ⟨en, .inr cfg⟩
      obtain ⟨u, e, stored⟩ := mergeCfgWrite_waits hs busy dis fun u st h => by
        have none : (u.port p.val).mac.mergeRise = false := h.2
        exact absurd (rises st) (by simp [none])
      refine ⟨u, e, rises stored, ?_, stored.mergeActive, stored.out⟩
      rw [stored.port, ← was]
    · have unsettled : ¬ MergeSettled s p.val := fun h => waits.elim (· h.1) (by simp [h.2])
      obtain ⟨en, rise, begins, -⟩ := mergeSettle_takes idle unsettled
      refine ⟨_, act_running hs _, en, rise, fun cfg dis up => ?_⟩
      obtain ⟨verifying, active, sends⟩ := begins cfg dis up
      exact ⟨verifying.state, sends, active⟩
    · obtain ⟨sends, regs, port⟩ := verifySend_spec g
      refine ⟨_, (exec_verifyTimer hs).trans ?_, sends, congrArg (fun x => x.mac.verifyTries) port, regs⟩
      rw [if_neg (not_not.2 state), if_pos tries]
    · obtain ⟨failed, event, only⟩ := setVerify_raise_spec p.val (v := 4) (by decide)
        (f := Fld.MAC_EVENT_VERIFY_FAIL) (by decide) rfl s
      refine ⟨_, (exec_verifyTimer hs).trans ?_, failed, event, only⟩
      rw [if_neg (not_not.2 state), if_neg (not_lt.2 tries)]
    · rw [exec_verifyMpacketReceived hs (by omega), loopReceive_eq, if_pos near, verifyAnswered_of_up en up,
        lineOut_of_not_nearEnd near (not_generating_of_linkState (by omega))]
    · rw [exec_verifyMpacketReceived hs (not_far_of_near near), loopReceive_eq, if_neg (by simp [near]), if_neg head]
    · refine ⟨_, exec_verifyMpacketReceived hs (not_far_of_near near), ?_⟩
      rw [loopReceive_eq, if_neg (by simp [near]), if_pos head]
      exact verifyAnswered_loopTaken near en up
    · rw [exec_respondMpacketReceived hs (not_far_of_near near), loopReceive_eq, if_neg (by simp [near]), if_neg head]
    · rw [exec_verifyMpacketReceived_far hs ⟨state, far⟩, ballOut_of_not_nearEnd (not_nearEnd_of_farEnd far)]
    · rw [exec_respondMpacketReceived_far hs ⟨state, far⟩, ballOut_of_not_nearEnd (not_nearEnd_of_farEnd far)]
    · have far' : ¬ (s.linkState p.val = 6 ∧ farEnd s p.val = true) := fun ⟨six, b⟩ => by simp [six, b] at far
      refine ⟨_, exec_respondMpacketReceived hs far', ?_⟩
      rw [loopReceive_eq, if_pos near]
      exact respondTaken_spec state
  · have left' := ctlDrain_left p.val (fragmentSent p.val f n s)
    refine ⟨_, exec_preemption hs tx held active sent left, ?_, fun g ctl => ?_, ?_, fun a => ?_⟩
    · rw [left'.port, fragmentSent_port]
      rfl
    · rw [ctlDrain_of_empty (by rw [fragmentSent_port]; exact ctl)]
      exact ⟨_, fragmentSent_sends g, txPacket_spec f n⟩
    · rw [Counts, left'.cntGet (by decide) (by decide)]
      exact fragmentSent_counts
    · rw [left'.mem, fragmentSent_mem]
  · have resume := exec_fragmentResume hs tx
    refine ⟨fun express fault seven may => ?_, fun held => ?_⟩
    · have idle : expressTakes s p.val = false := Bool.eq_false_iff.2 fun h => seven (expressTakes_iff.1 h)
      refine ⟨_, resume, ?_, ?_⟩ <;> simp only [express, fault, idle, may, Option.isSome_none, Bool.not_true, Bool.or_self,
        Bool.false_eq_true, if_false]
      · rw [State.port_modMac_same]
      · rfl
    · rw [resume, if_pos]
      rcases held with h | h | h | h
      · simp [h]
      · simp [h]
      · simp [expressTakes_iff.2 h]
      · simp [h]

end Sys2Proof.Machine

/-! SUPPORT. The octets of control frames (R88 to R90), and what a control frame that goes out brings. -/
namespace Sys2Proof.Machine

/-! ### Numbers in network byte order -/

theorem beVal_append (a b : List Byte) : beVal (a ++ b) = beVal a * 256 ^ b.length + beVal b := by
  induction b using List.reverseRecOn with
  | nil => simp [beVal]
  | append_singleton b x ih =>
    have snoc (l : List Byte) : beVal (l ++ [x]) = beVal l * 256 + x.toNat := by simp [beVal]
    rw [← List.append_assoc, snoc, snoc, ih, List.length_append, List.length_singleton, pow_succ]
    ring

theorem beBytes_length (n v : Nat) : (beBytes n v).length = n := by
  have le : ∀ n v, (leBytes n v).length = n := fun n => by
    induction n with
    | zero => exact fun _ => rfl
    | succ n ih => exact fun v => congrArg (· + 1) (ih _)
  rw [beBytes, List.length_reverse, le]

theorem beBytes_succ (n v : Nat) : beBytes (n + 1) v = beBytes n (v / 256) ++ [BitVec.ofNat 8 v] := by
  simp [beBytes, leBytes]

theorem beVal_beBytes (n v : Nat) : beVal (beBytes n v) = v % 256 ^ n := by
  induction n generalizing v with
  | zero => simp [beBytes, leBytes, beVal, Nat.mod_one]
  | succ n ih =>
    have last : beVal [BitVec.ofNat 8 v] = v % 256 := by simp [beVal]
    rw [beBytes_succ, beVal_append, ih, last, List.length_singleton, pow_one, pow_succ, Nat.mul_comm (256 ^ n) 256,
      Nat.mod_mul]
    ring

/-- What follows leading bytes lies at their length. -/
theorem be_append (a l : List Byte) (off n : Nat) : be (a ++ l) (a.length + off) n = be l off n := by
  have at' (k : Nat) : (a ++ l).getD (a.length + off + k) 0#8 = l.getD (off + k) 0#8 := by
    rw [Nat.add_assoc, List.getD_append_right _ _ _ _ (Nat.le_add_right _ _), Nat.add_sub_cancel_left]
  simp only [be, at']

/-- Leading bytes are the first. -/
theorem be_leading (l r : List Byte) : be (l ++ r) 0 l.length = beVal l := by
  have bytes : ((List.range l.length).map fun k => (l ++ r).getD (0 + k) 0#8) = l := by
    refine List.ext_getElem (by simp) fun k _ hk => ?_
    simp [List.getElem?_append_left hk, List.getElem?_eq_getElem hk]
  rw [be, bytes]

/-- The number that lies between leading bytes and what follows. -/
theorem be_between {x a l r : List Byte} (h : x = a ++ (l ++ r)) {off n : Nat} (ho : off = a.length) (hn : n = l.length) :
    be x off n = beVal l := by
  rw [h, ho, hn]
  exact (be_append a (l ++ r) 0 l.length).trans (be_leading l r)

/-- Of equal parts each is found at its place. -/
theorem be_flatMap {α : Type} {w : Nat} {f : α → List Byte} (hf : ∀ x, (f x).length = w) (l : List α) (r : List Byte)
    {k : Nat} (hk : k < l.length) : be (l.flatMap f ++ r) (w * k) w = beVal (f l[k]) := by
  induction l generalizing k with
  | nil => exact absurd hk (Nat.not_lt_zero k)
  | cons x l ih =>
    rw [List.flatMap_cons, List.append_assoc]
    cases k with
    | zero => exact be_between (a := []) rfl rfl (hf x).symm
    | succ k =>
      rw [Nat.mul_succ, Nat.add_comm, ← hf x, be_append, hf x]
      exact ih (Nat.lt_of_succ_lt_succ hk)

/-! ### A control frame's octets -/

theorem macSa_length (s : State) (p : Nat) : (macSa s p).length = 6 := by
  rw [macSa, List.length_append, beBytes_length, beBytes_length]

theorem ctlBytes_eq (s : State) (p : Nat) (c : CtlFrame) : ctlBytes s p c =
    (beBytes 6 0x0180C2000001 ++ macSa s p ++ [0x88#8, 0x08#8]) ++ (c.body ++ zeros (46 - c.body.length)) := by
  have length : (beBytes 6 0x0180C2000001 ++ macSa s p ++ [0x88#8, 0x08#8] ++ c.body).length = 14 + c.body.length := by
    simp only [List.length_append, beBytes_length, macSa_length, List.length_cons, List.length_nil]
  rw [ctlBytes, padded, length, List.append_assoc, show 60 - (14 + c.body.length) = 46 - c.body.length by omega]

/-- The header of a control frame. -/
theorem ctlBytes_header (s : State) (p : Nat) {c : CtlFrame} (hc : c.body.length ≤ 46) : let b := ctlBytes s p c
    b.length = 60 ∧ be b 0 6 = 0x0180C2000001 ∧ be b 6 6 = beVal (macSa s p) ∧ be b 12 2 = 0x8808 := by
  have sa := macSa_length s p
  have da := beBytes_length 6 0x0180C2000001
  dsimp only
  rw [ctlBytes_eq]
  refine ⟨?_, ?_, ?_, ?_⟩
  · simp only [List.length_append, da, sa, List.length_cons, List.length_nil, zeros, List.length_replicate]
    omega
  · exact (be_between (a := []) (l := beBytes 6 0x0180C2000001) (by simp only [List.nil_append, List.append_assoc]; rfl)
      rfl da.symm).trans (beVal_beBytes _ _)
  · exact be_between (a := beBytes 6 0x0180C2000001) (l := macSa s p) (by simp only [List.append_assoc]; rfl) da.symm sa.symm
  · exact be_between (a := beBytes 6 0x0180C2000001 ++ macSa s p) (l := [0x88#8, 0x08#8]) (by
      simp only [List.append_assoc]; rfl) (by simp only [List.length_append, da, sa]) rfl

/-- The body of a control frame lies behind its header. -/
theorem ctlBytes_body (s : State) (p : Nat) (c : CtlFrame) (off n : Nat) :
    be (ctlBytes s p c) (14 + off) n = be (c.body ++ zeros (46 - c.body.length)) off n := by
  have length : (beBytes 6 0x0180C2000001 ++ macSa s p ++ [0x88#8, 0x08#8]).length = 14 := by
    simp only [List.length_append, beBytes_length, macSa_length, List.length_cons, List.length_nil]
  rw [ctlBytes_eq, ← length, be_append]

/-- A link pause frame. -/
def pauseFrame (quanta : Nat) : CtlFrame := { body := [0#8, 1#8] ++ beBytes 2 quanta }

/-- A PFC frame that pauses the classes of `on` for a time, and names those of `off` with 0. -/
def pfcFrame (on off quanta : Nat) : CtlFrame :=
  { body := [1#8, 1#8] ++ beBytes 2 (on ||| off) ++
      (List.range 8).flatMap fun c => beBytes 2 (if on.testBit c then quanta else 0)
    pfc := some on }

theorem pauseFrame_bytes (s : State) (p : Nat) {q : Nat} (hq : q < 2 ^ 16) : let b := ctlBytes s p (pauseFrame q)
    b.length = 60 ∧ be b 0 6 = 0x0180C2000001 ∧ be b 6 6 = beVal (macSa s p) ∧ be b 12 2 = 0x8808 ∧ be b 14 2 = 1 ∧
      be b 16 2 = q := by
  have quanta : (beBytes 2 q).length = 2 := beBytes_length 2 q
  obtain ⟨length, da, sa, type⟩ := ctlBytes_header s p (c := pauseFrame q) (by simp [pauseFrame, quanta])
  refine ⟨length, da, sa, type, ?_, ?_⟩
  · rw [ctlBytes_body s p _ 0 2]
    exact be_between (a := []) (l := [0#8, 1#8]) (by simp only [pauseFrame, List.append_assoc]; rfl) rfl rfl
  · rw [ctlBytes_body s p _ 2 2]
    exact (be_between (a := [0#8, 1#8]) (l := beBytes 2 q) (by simp only [pauseFrame, List.append_assoc]; rfl) rfl
      quanta.symm).trans ((beVal_beBytes 2 q).trans (Nat.mod_eq_of_lt hq))

theorem pfcFrame_bytes (s : State) (p : Nat) {on off q : Nat} (hon : on ||| off < 2 ^ 16) (hq : q < 2 ^ 16) :
    let b := ctlBytes s p (pfcFrame on off q)
    b.length = 60 ∧ be b 0 6 = 0x0180C2000001 ∧ be b 12 2 = 0x8808 ∧ be b 14 2 = 0x101 ∧ be b 16 2 = on ||| off ∧
      ∀ c < 8, be b (18 + 2 * c) 2 = if on.testBit c then q else 0 := by
  have vector : (beBytes 2 (on ||| off)).length = 2 := beBytes_length 2 _
  have times : ((List.range 8).flatMap fun c => beBytes 2 (if on.testBit c then q else 0)).length = 16 := by
    simp [List.length_flatMap, beBytes_length]
  obtain ⟨length, da, -, type⟩ := ctlBytes_header s p (c := pfcFrame on off q) (by
    simp only [pfcFrame, List.length_append, vector, times, List.length_cons, List.length_nil]; omega)
  refine ⟨length, da, type, ?_, ?_, fun c hc => ?_⟩
  · rw [ctlBytes_body s p _ 0 2]
    exact be_between (a := []) (l := [1#8, 1#8]) (by simp only [pfcFrame, List.append_assoc]; rfl) rfl rfl
  · rw [ctlBytes_body s p _ 2 2]
    exact (be_between (a := [1#8, 1#8]) (l := beBytes 2 (on ||| off)) (by simp only [pfcFrame, List.append_assoc]; rfl) rfl
      vector.symm).trans ((beVal_beBytes 2 _).trans (Nat.mod_eq_of_lt hon))
  · have before : ([1#8, 1#8] ++ beBytes 2 (on ||| off)).length = 4 := by simp [vector]
    have time : (if on.testBit c then q else 0) < 2 ^ 16 := by split <;> omega
    rw [show 18 + 2 * c = 14 + (4 + 2 * c) by omega, ctlBytes_body]
    generalize 46 - (pfcFrame on off q).body.length = z
    rw [pfcFrame, List.append_assoc, ← before, be_append,
      be_flatMap (fun _ => beBytes_length 2 _) (List.range 8) (zeros z) (by simpa using hc), List.getElem_range,
      beVal_beBytes]
    exact Nat.mod_eq_of_lt time

end Sys2Proof.Machine

/-! SUPPORT. A control frame that is to be sent (R90): it goes out at once, or waits. -/
namespace Sys2Proof.Machine

theorem pauseSend_eq (p q : Nat) (s : State) : pauseSend p q s = ctlQueue p (pauseFrame q) s := rfl

theorem pfcSend_eq (p on off : Nat) (s : State) : pfcSend p on off s =
    ctlQueue p (pfcFrame on off (s.get (Reg.MAC_FC_TIME p) Fld.MAC_FC_TIME_QUANTA)) s := rfl

section
variable {s : State} {p : Nat}

theorem ctlCan_of_may (h : ctlMay s p = true) : ctlCan s p = true := by
  simp only [ctlMay, Bool.and_eq_true] at h
  exact h.1.1.1

theorem linkUp_of_ctlCan (h : ctlCan s p = true) : s.linkUp p = true := by
  simp only [ctlCan, Bool.and_eq_true] at h
  exact h.1.1.1

/-- A control frame goes out where none waits and one may begin. -/
theorem ctlQueue_of_may (may : ctlMay s p = true) (none : (s.port p).mac.ctl = []) (c : CtlFrame) :
    ctlQueue p c s = (ctlSend p c s).modMac p fun m => { m with ctl := [] } := by
  rw [ctlQueue, if_pos (ctlCan_of_may may), none, List.nil_append, ctlRun, if_pos may, ctlRun]

/-- A control frame waits behind those that wait where none may begin. -/
theorem ctlQueue_of_not_may (can : ctlCan s p = true) (may : ctlMay s p = false) (c : CtlFrame) :
    ctlQueue p c s = s.modMac p fun m => { m with ctl := (s.port p).mac.ctl ++ [c] } := by
  rw [ctlQueue, if_pos can]
  cases h : (s.port p).mac.ctl ++ [c] with
  | nil => simp at h
  | cons d r => rw [ctlRun, if_neg (by simp [may])]

theorem ctlQueue_of_not_can (can : ctlCan s p = false) (c : CtlFrame) : ctlQueue p c s = s := by
  rw [ctlQueue, if_neg (by simp [can])]

theorem ctlCounted_port (p : Nat) (c : CtlFrame) (s : State) (q : Nat) : (ctlCounted p c s).port q = s.port q := by
  unfold ctlCounted
  split
  · exact macStat_port ..
  · generalize List.range 8 = l
    induction l generalizing s with
    | nil => rfl
    | cons x l ih =>
      rw [List.foldl_cons, ih]
      split
      · exact macStat_port ..
      · rfl

theorem portRate_pos (s : State) (p : Nat) : 0 < s.portRate p := by
  unfold State.portRate typeRate
  split <;> decide

/-- The MAC is occupied after a control frame. -/
theorem ctlSend_until (p : Nat) (c : CtlFrame) (s : State) :
    (ctlSend p c s).now < ((ctlSend p c s).port p).mac.ctlUntil := by
  have now : (ctlSend p c s).now = (ctlTimed p (ctlGone p c s)).now :=
    (congrArg State.now (ctlCounted_quiet p c (ctlTimed p (ctlGone p c s))).only :)
  rw [now, ctlSend_eq, ctlCounted_port, ctlTimed, State.port_modMac_same]
  generalize (if mergeActive (ctlGone p c s) p then macStat p 59 1 (ctlGone p c s) else ctlGone p c s) = u
  have rate : 1 ≤ (671 + u.portRate p) / u.portRate p := by
    rw [Nat.le_div_iff_mul_le (portRate_pos u p)]
    omega
  exact Nat.lt_of_lt_of_le (Nat.lt_succ_self _) (Nat.add_le_add_left rate _)

/-- A control frame that goes out at once. -/
theorem ctlQueue_sends (may : ctlMay s p = true) (none : (s.port p).mac.ctl = []) (c : CtlFrame) :
    let t := ctlQueue p c s
    LineSends p (.frame p (ctlBytes s p c) true) s t ∧ (t.port p).mac.ctl = [] ∧
      (egrQueue s p 7 ≠ [] → ctlMay t p = false) := by
  have g := not_generating_of_linkState (linkState_ne_of_linkUp (linkUp_of_ctlCan (ctlCan_of_may may)))
  have quiet := ctlSend_quiet p c s
  have left := ctlSend_left p c s
  have later := ctlSend_until p c s
  have port := (ctlSend p c s).port_modMac_same p fun m => { m with ctl := [] }
  rw [ctlQueue_of_may may none]
  refine ⟨?_, by rw [port], fun waits => ?_⟩
  · refine (lineSends_lineOut g (.frame p (ctlBytes s p c) true)).of_eq rfl rfl rfl ?_ quiet.out
    rw [port]
    exact quiet.loop
  · have queue : egrQueue ((ctlSend p c s).modMac p fun m => { m with ctl := [] }) p 7 = egrQueue s p 7 := by
      rw [egrQueue, port, left.port, egrQueue]
    have busy : ¬ ((ctlSend p c s).port p).mac.ctlUntil ≤ (ctlSend p c s).now := Nat.not_le.2 later
    rw [ctlMay, port, queue]
    simp only [Bool.and_eq_false_iff, Bool.or_eq_false_iff, decide_eq_false_iff_not, List.isEmpty_eq_false_iff]
    exact .inr ⟨busy, waits⟩

/-- A pause frame that goes out counts in TX_PAUSE. -/
theorem ctlQueue_counts (may : ctlMay s p = true) (none : (s.port p).mac.ctl = []) {c : CtlFrame} (pause : c.pfc = .none) :
    Counts (Reg.MAC_STAT_LO p 49) 1 s (ctlQueue p c s) := by
  have gone : (ctlGone p c s).cntGet (Reg.MAC_STAT_LO p 49) = s.cntGet (Reg.MAC_STAT_LO p 49) := by
    have sent := sent_lineOut p (.frame p (ctlBytes s p c) true) s
    simp (disch := decide) only [ctlGone, cntGet_macStat_ne]
    exact State.cntGet_of_rd (sent.rd _) (sent.rd _)
  have timed : (ctlTimed p (ctlGone p c s)).cntGet (Reg.MAC_STAT_LO p 49) = s.cntGet (Reg.MAC_STAT_LO p 49) := by
    rw [← gone, ctlTimed]
    split
    · exact cntGet_macStat_ne p 1 (by decide) (by decide) (by decide) _
    · rfl
  have counted : ctlSend p c s = macStat p 49 1 (ctlTimed p (ctlGone p c s)) := by
    rw [ctlSend_eq, ctlCounted, pause]
  rw [ctlQueue_of_may may none, counted, Counts, ← timed]
  exact counts_macStat p 1 (by decide) (ctlTimed p (ctlGone p c s))

end

/-! ### PAUSE_REFRESH and PAUSE_TIME_EXPIRY -/

section
variable {s : State} {p : Port}

theorem exec_pauseRefresh_pause (hs : s.running) (mode : fcMode s p.val = 1)
    (off : xoffMask s (stationOf p.val) (localOf p.val) ≠ 0) : exec (.pauseRefresh p) s = .next
      (ctlQueue p.val (pauseFrame (s.get (Reg.MAC_FC_TIME p.val) Fld.MAC_FC_TIME_QUANTA)) s) := by
  change execPauseRefresh p s = _
  simp only [execPauseRefresh, act_running hs, if_neg off, mode, pauseSend_eq]

theorem exec_pauseRefresh_pfc (hs : s.running) (mode : fcMode s p.val = 2)
    (off : xoffMask s (stationOf p.val) (localOf p.val) ≠ 0) : exec (.pauseRefresh p) s = .next
      (ctlQueue p.val (pfcFrame (xoffMask s (stationOf p.val) (localOf p.val)) 0
        (s.get (Reg.MAC_FC_TIME p.val) Fld.MAC_FC_TIME_QUANTA)) s) := by
  change execPauseRefresh p s = _
  simp only [execPauseRefresh, act_running hs, if_neg off, mode, pfcSend_eq]

/-- A port that may send no control frame sends none. -/
theorem exec_pauseRefresh_of_not_can (hs : s.running) (can : ctlCan s p.val = false) :
    exec (.pauseRefresh p) s = .next s := by
  change execPauseRefresh p s = _
  simp only [execPauseRefresh, act_running hs, pauseSend_eq, pfcSend_eq, ctlQueue_of_not_can can]
  congr 1
  split
  · rfl
  · split <;> rfl

theorem quanta_lt (s : State) (p : Nat) : s.get (Reg.MAC_FC_TIME p) Fld.MAC_FC_TIME_QUANTA < 2 ^ 16 :=
  Fld.MAC_FC_TIME_QUANTA.of_lt _

theorem xoffMask_lt (s : State) (st i : Nat) : xoffMask s st i < 2 ^ 8 := Fld.SWC_PORT_STATUS_XOFF.of_lt _

/-! ### Pause times -/

theorem pauseSet_port (p c q : Nat) (s : State) : (pauseSet p c q s).port p = { s.port p with mac := { (s.port p).mac with
    pause := if q = 0 then adel c (s.port p).mac.pause else aset c q (s.port p).mac.pause } } := s.port_modMac_same p _

theorem aget?_pauseSet_same (p c q : Nat) (s : State) :
    aget? c ((pauseSet p c q s).port p).mac.pause = if q = 0 then none else some q := by
  rw [pauseSet_port]
  dsimp only
  split <;> simp

theorem aget?_pauseSet_ne (p q : Nat) {c d : Nat} (h : d ≠ c) (s : State) :
    aget? d ((pauseSet p c q s).port p).mac.pause = aget? d (s.port p).mac.pause := by
  rw [pauseSet_port]
  dsimp only
  split
  · exact aget?_adel_ne h _
  · exact aget?_aset_ne h q _

/-- The bits of a vector that is put together from the lowest up. -/
theorem maskTo_testBit (f : Nat → Bool) (n : Nat) :
    let m := (List.range n).foldl (fun a c => if f c then a + 2 ^ c else a) 0
    m < 2 ^ n ∧ ∀ c < n, m.testBit c = f c := by
  induction n with
  | zero => exact ⟨Nat.one_pos, fun c hc => absurd hc (Nat.not_lt_zero c)⟩
  | succ n ih =>
    obtain ⟨lt, bits⟩ := ih
    rw [List.range_succ, List.foldl_concat]
    generalize (List.range n).foldl (fun a c => if f c then a + 2 ^ c else a) 0 = m at *
    have pow := Nat.pow_succ 2 n
    refine ⟨by split <;> omega, fun c hc => ?_⟩
    rcases Nat.lt_succ_iff_lt_or_eq.1 hc with below | rfl
    · rw [← bits c below, Nat.add_comm m]
      split
      · exact Nat.testBit_two_pow_add_gt below m
      · rfl
    · have clear := Nat.testBit_lt_two_pow lt
      rw [Nat.add_comm m]
      cases h : f c
      · exact clear
      · exact (Nat.testBit_two_pow_add_eq m c).trans (by rw [clear]; rfl)

theorem mask8_testBit (f : Nat → Bool) {c : Nat} (hc : c < 8) : (mask8 f).testBit c = f c := (maskTo_testBit f 8).2 c hc

/-- RX_PAUSED shows what is paused. -/
theorem pauseShow_spec (p : Nat) (s : State) {c : Nat} (hc : c < 8) :
    ((pauseShow p s).get (Reg.MAC_FC_STATUS p) Fld.MAC_FC_STATUS_RX_PAUSED).testBit c =
      (aget? c (s.port p).mac.pause).isSome := by
  have shown := s.get_put_same (Reg.MAC_FC_STATUS p) Fld.MAC_FC_STATUS_RX_PAUSED (by decide)
    (mask8 fun c => (aget? c (s.port p).mac.pause).isSome)
  rw [pauseShow, shown, Nat.testBit_mod_two_pow, mask8_testBit _ hc]
  exact (congrArg (· && _) (decide_eq_true (show c < Fld.MAC_FC_STATUS_RX_PAUSED.w from hc))).trans (Bool.true_and _)

theorem pauseShow_onlyRegsOf (p : Nat) (s : State) : OnlyRegsOf [Reg.MAC_FC_STATUS p] s (pauseShow p s) :=
  s.put_onlyRegsOf _ _ _

end

end Sys2Proof.Machine

/-! SUPPORT. The expiry and the refresh of pauses (R88, R90). -/
namespace Sys2Proof.Machine

section
variable {s : State} {p : Port}

/-- A class whose pause time ends resumes, the others staying as they are (R88). -/
theorem pauseTimeExpiry_resumes (hs : s.running) (c : Fin 8) : Answers (.pauseTimeExpiry p c) s fun t =>
    aget? c.val (t.port p.val).mac.pause = none ∧
    (∀ d, d ≠ c.val → aget? d (t.port p.val).mac.pause = aget? d (s.port p.val).mac.pause) ∧
    (t.get (Reg.MAC_FC_STATUS p.val) Fld.MAC_FC_STATUS_RX_PAUSED).testBit c.val = false ∧
    SameRegsBut [Reg.MAC_FC_STATUS p.val] s t ∧ SameMem s t := by
  have resumed := aget?_pauseSet_same p.val c.val 0 s
  refine ⟨pauseShow p.val (pauseSet p.val c.val 0 s), act_running hs fun s => pauseShow p.val (pauseSet p.val c.val 0 s),
    resumed, fun d hd => aget?_pauseSet_ne p.val 0 hd s, ?_,
    (pauseShow_onlyRegsOf p.val (pauseSet p.val c.val 0 s)).2, fun a => rfl⟩
  rw [pauseShow_spec p.val _ c.isLt, resumed]
  rfl

/-- A port in XOFF that may sends its pause frame again (R90). -/
theorem pauseRefresh_pauses (hs : s.running) (may : ctlMay s p.val = true) (none : (s.port p.val).mac.ctl = [])
    (mode : fcMode s p.val = 1) (off : xoffMask s (stationOf p.val) (localOf p.val) ≠ 0) :
    Answers (.pauseRefresh p) s fun t =>
      (t.port p.val).mac.ctl = [] ∧ (egrQueue s p.val 7 ≠ [] → ctlMay t p.val = false) ∧
      Counts (Reg.MAC_STAT_LO p.val 49) 1 s t ∧ ∃ b, LineSends p.val (.frame p.val b true) s t ∧ b.length = 60 ∧
        be b 0 6 = 0x0180C2000001 ∧ be b 6 6 = beVal (macSa s p.val) ∧ be b 12 2 = 0x8808 ∧ be b 14 2 = 1 ∧
        be b 16 2 = s.get (Reg.MAC_FC_TIME p.val) Fld.MAC_FC_TIME_QUANTA := by
  obtain ⟨sends, ctl, busy⟩ := ctlQueue_sends may none (pauseFrame (s.get (Reg.MAC_FC_TIME p.val) Fld.MAC_FC_TIME_QUANTA))
  exact ⟨_, exec_pauseRefresh_pause hs mode off, ctl, busy, ctlQueue_counts may none rfl, _, sends,
    pauseFrame_bytes s p.val (quanta_lt s p.val)⟩

/-- It waits where another control frame may not begin. -/
theorem pauseRefresh_waits (hs : s.running) (can : ctlCan s p.val = true) (may : ctlMay s p.val = false)
    (mode : fcMode s p.val = 1) (off : xoffMask s (stationOf p.val) (localOf p.val) ≠ 0) :
    Answers (.pauseRefresh p) s fun t =>
      (t.port p.val).mac = { (s.port p.val).mac with ctl := (s.port p.val).mac.ctl ++
        [{ body := [0#8, 1#8] ++ beBytes 2 (s.get (Reg.MAC_FC_TIME p.val) Fld.MAC_FC_TIME_QUANTA) }] } ∧
      t = { s with ports := t.ports } ∧ ∀ q, q ≠ p.val → t.port q = s.port q := by
  refine ⟨_, exec_pauseRefresh_pause hs mode off, ?_⟩
  rw [ctlQueue_of_not_may can may]
  refine ⟨?_, rfl, fun q hq => s.port_modMac_ne hq _⟩
  rw [State.port_modMac_same]
  rfl

/-- A port with classes in XOFF sends their PFC frame again (R90). -/
theorem pauseRefresh_pfc (hs : s.running) (may : ctlMay s p.val = true) (none : (s.port p.val).mac.ctl = [])
    (mode : fcMode s p.val = 2) :
    let m := xoffMask s (stationOf p.val) (localOf p.val)
    m ≠ 0 → Answers (.pauseRefresh p) s fun t => ∃ b, LineSends p.val (.frame p.val b true) s t ∧ b.length = 60 ∧
      be b 0 6 = 0x0180C2000001 ∧ be b 12 2 = 0x8808 ∧ be b 14 2 = 0x101 ∧ be b 16 2 = m ∧
      ∀ c < 8, be b (18 + 2 * c) 2 =
        if m.testBit c then s.get (Reg.MAC_FC_TIME p.val) Fld.MAC_FC_TIME_QUANTA else 0 := by
  intro m off
  have lt : m ||| 0 < 2 ^ 16 := by
    have := xoffMask_lt s (stationOf p.val) (localOf p.val)
    rw [Nat.or_zero]
    omega
  obtain ⟨sends, -⟩ := ctlQueue_sends may none (pfcFrame m 0 (s.get (Reg.MAC_FC_TIME p.val) Fld.MAC_FC_TIME_QUANTA))
  have bytes := pfcFrame_bytes s p.val (on := m) (off := 0) lt (quanta_lt s p.val)
  rw [Nat.or_zero] at bytes
  exact ⟨_, exec_pauseRefresh_pfc hs mode off, _, sends, bytes⟩

end

end Sys2Proof.Machine

/-! SUPPORT. What a received frame leaves on its way through a MAC and the ingress buffer, beside its own counts and charges:
the registers that are written meanwhile, and what a port receives by (R76, R80, R95, R258, R260). -/
namespace Sys2Proof.Machine

/-! ### The registers that are written meanwhile -/

/-- Offsets of the counters of a station's events and of MOR_EVENT. -/
abbrev CellOffset (o : Nat) : Prop := 0x2100 ≤ o ∧ o < 0x2108 ∨ 0x3000 ≤ o ∧ o < 0x3180 ∨ o = 0x300108

/-- Register a is written as cells are taken and frames dropped: one of a station's, or TNK_MEMINJ. -/
def CellReg (a : Nat) : Prop := a = Reg.TNK_MEMINJ ∨ AtStation CellOffset a

/-- Place o of a MAC is written as XOFF follows: what shows it, and what the control frames count that it sends. -/
abbrev XoffPlace (o : Nat) : Prop := o = 0x14 ∨ CtlPlace o

/-- Offsets of what shows XOFF, and of its counters. -/
abbrev SwitchOffset (o : Nat) : Prop := 0x2c0080 ≤ o ∧ o < 0x2c00b0 ∨ 0x2c0300 ≤ o ∧ o < 0x2c0380

/-- Register a is written as XOFF follows (R260). -/
def XoffReg (a : Nat) : Prop := AtStation (fun o => SwitchOffset o ∨ InBlock 0x80000 XoffPlace o) a

/-- Place o of a lane holds what its FEC corrects. -/
abbrev FecPlace (o : Nat) : Prop := 0x30 ≤ o ∧ o < 0x48

/-- Register a is written as a lane counts what its FEC corrects. -/
def FecReg (a : Nat) : Prop := AtStation (InBlock 0x40000 FecPlace) a

/-- Register a is written on the way of a received frame, and is none that counts received frames. -/
def QuietReg (a : Nat) : Prop := CellReg a ∨ XoffReg a ∨ FecReg a

/-- Place o of a MAC holds its events, a half-range flag or a counter. -/
abbrev StatPlace (o : Nat) : Prop := o = 0x20 ∨ 0x40 ≤ o ∧ o < 0x4c ∨ 0x1000 ≤ o ∧ o < 0x1240

/-- Register a is written as a MAC counts what it receives. -/
def StatReg (a : Nat) : Prop := AtStation (InBlock 0x80000 StatPlace) a

/-- Register a is written on the way of a received frame. -/
def RxReg (a : Nat) : Prop := QuietReg a ∨ StatReg a

section
variable (p : Nat) {o : Nat} (h : o < 0x4000)
include h

theorem not_cellReg_portAt {b : Nat} (hb : 0x40000 ≤ b ∧ b ≤ 0x80000) : ¬ CellReg (portAt b p o) := by
  have := place_lt p h
  rw [CellReg, atStation_portAt hb.2 h]
  rintro (e | offset)
  · exact reg_ne_memInj _ _ (portAt_eq b p o ▸ e)
  · have low : 0x40000 ≤ b + (o + p % 12 * 0x4000) := hb.1.trans (Nat.le_add_right _ _)
    have high : b + (o + p % 12 * 0x4000) < 0xb0000 := by omega
    generalize b + (o + p % 12 * 0x4000) = a at *
    omega

theorem xoffReg_macAt : XoffReg (macAt p o) ↔ XoffPlace o := by
  have := place_lt p h
  rw [XoffReg, atStation_portAt (by decide) h, inBlock_place h, or_iff_right (by omega)]

theorem not_xoffReg_laneAt : ¬ XoffReg (laneAt p o) := by
  have := place_lt p h
  rw [XoffReg, atStation_portAt (by decide) h, InBlock]
  omega

theorem fecReg_laneAt : FecReg (laneAt p o) ↔ FecPlace o := by
  rw [FecReg, atStation_portAt (by decide) h, inBlock_place h]

theorem not_fecReg_macAt : ¬ FecReg (macAt p o) := by
  rw [FecReg, atStation_portAt (by decide) h, InBlock]
  omega

theorem statReg_macAt : StatReg (macAt p o) ↔ StatPlace o := by
  rw [StatReg, atStation_portAt (by decide) h, inBlock_place h]

theorem not_statReg_laneAt : ¬ StatReg (laneAt p o) := by
  have := place_lt p h
  rw [StatReg, atStation_portAt (by decide) h, InBlock]
  omega

theorem quietReg_macAt : QuietReg (macAt p o) ↔ XoffPlace o := by
  rw [QuietReg, or_iff_right (not_cellReg_portAt p h (by decide)), or_iff_left (not_fecReg_macAt p h), xoffReg_macAt p h]

theorem rxReg_macAt : RxReg (macAt p o) ↔ XoffPlace o ∨ StatPlace o := by
  rw [RxReg, quietReg_macAt p h, statReg_macAt p h]

theorem rxReg_laneAt : RxReg (laneAt p o) ↔ FecPlace o := by
  rw [RxReg, QuietReg, or_iff_right (not_cellReg_portAt p h (by decide)), or_iff_right (not_xoffReg_laneAt p h),
    or_iff_left (not_statReg_laneAt p h), fecReg_laneAt p h]

end

theorem not_rxReg_macAt (p : Nat) {o : Nat} (h : o < 0x4000 ∧ ¬ XoffPlace o ∧ ¬ StatPlace o) : ¬ RxReg (macAt p o) := by
  rw [rxReg_macAt p h.1]
  exact not_or.2 h.2

section
variable (st : Nat) {o : Nat} (h : o < 0x400000)
include h

theorem cellReg_of_offset (offset : CellOffset o) : CellReg (stationBase st + o) := .inr ((atStation_reg st h).2 offset)

theorem xoffReg_of_offset (offset : SwitchOffset o) : XoffReg (stationBase st + o) :=
  (atStation_reg st h).2 (.inl offset)

end


/-! ### What stays -/

/-- What a station has of its cells, its charges and its lanes. -/
structure Pools where
  taken : List Nat
  shared : Nat
  u : List (Nat × Nat)
  express : Nat
  head : List (Nat × Nat)
  laneX : Nat
  laneN : Nat
  draining : Bool

/-- From s to t registers of N are written, and nothing that port p receives by. -/
structure RxFollows (N : Nat → Prop) (p : Nat) (s t : State) : Prop where
  rd : ∀ a, ¬ N a → t.rd a = s.rd a
  event : ∀ f : Field, f.Apart Fld.MAC_EVENT_STAT_HALF → t.get (Reg.MAC_EVENT p) f = s.get (Reg.MAC_EVENT p) f
  fc : ∀ f : Field, f.Apart Fld.MAC_FC_STATUS_TX_XOFF → t.get (Reg.MAC_FC_STATUS p) f = s.get (Reg.MAC_FC_STATUS p) f
  mem : t.mem = s.mem
  now : t.now = s.now
  varve : t.varve = s.varve
  held : t.tinker.heldRx.map (fun h => (h.port, h.left)) = s.tinker.heldRx.map fun h => (h.port, h.left)
  link : (t.port p).link = (s.port p).link
  pause : (t.port p).mac.pause = (s.port p).mac.pause
  mergeEn : (t.port p).mac.mergeEn = (s.port p).mac.mergeEn
  limits : (t.port p).mac.limits = (s.port p).mac.limits
  part : (t.port p).mac.reasm.isSome = (s.port p).mac.reasm.isSome

namespace RxFollows
variable {N M : Nat → Prop} {p : Nat} {s t u : State}

theorem refl (N : Nat → Prop) (p : Nat) (s : State) : RxFollows N p s s :=
  ⟨fun _ _ => rfl, fun _ _ => rfl, fun _ _ => rfl, rfl, rfl, rfl, rfl, rfl, rfl, rfl, rfl, rfl⟩

theorem trans (h : RxFollows N p s t) (k : RxFollows N p t u) : RxFollows N p s u where
  rd a ha := (k.rd a ha).trans (h.rd a ha)
  event f hf := (k.event f hf).trans (h.event f hf)
  fc f hf := (k.fc f hf).trans (h.fc f hf)
  mem := k.mem.trans h.mem
  now := k.now.trans h.now
  varve := k.varve.trans h.varve
  held := k.held.trans h.held
  link := k.link.trans h.link
  pause := k.pause.trans h.pause
  mergeEn := k.mergeEn.trans h.mergeEn
  limits := k.limits.trans h.limits
  part := k.part.trans h.part

theorem mono (h : RxFollows N p s t) (le : ∀ a, N a → M a) : RxFollows M p s t :=
  { h with rd := fun a ha => h.rd a (mt (le a) ha) }

/-- Nothing of the ports or the registers. -/
theorem of_frame (regs : t.regs = s.regs) (mem : t.mem = s.mem) (now : t.now = s.now) (varve : t.varve = s.varve)
    (held : t.tinker.heldRx.map (fun h => (h.port, h.left)) = s.tinker.heldRx.map fun h => (h.port, h.left))
    (ports : t.port p = s.port p) : RxFollows N p s t := by
  refine ⟨fun a _ => State.rd_of_regs regs a, fun f _ => State.get_of_regs regs _ f, fun f _ => State.get_of_regs regs _ f,
    mem, now, varve, held, ?_, ?_, ?_, ?_, ?_⟩ <;> rw [ports]

theorem foldl {α : Type} {f : State → α → State} {l : List α} (h : ∀ s, ∀ x ∈ l, RxFollows N p s (f s x)) (s : State) :
    RxFollows N p s (l.foldl f s) := by
  induction l generalizing s with
  | nil => exact refl N p s
  | cons x l ih => exact (h s x List.mem_cons_self).trans (ih (fun t y hy => h t y (List.mem_cons_of_mem _ hy)) _)

/-- One register of N is written, and none of a MAC. -/
theorem wr {a : Nat} (ha : N a) (out : ¬ InMacs a) (s : State) (v : Word) : RxFollows N p s (s.wr a v) := by
  have other {o : Nat} (ho : o < 0x4000) (f : Field) : (s.wr a v).get (macAt p o) f = s.get (macAt p o) f := by
    have ne : macAt p o ≠ a := fun e => out (e ▸ inMacs_macAt p ho)
    exact State.get_of_rd (s.rd_wr_ne ne v) f
  exact ⟨fun b hb => s.rd_wr_ne (fun e => hb (by rwa [e])) v, fun f _ => other (o := 0x20) (by decide) f,
    fun f _ => other (o := 0x14) (by decide) f, rfl, rfl, rfl, rfl, rfl, rfl, rfl, rfl, rfl⟩

end RxFollows

/-- What a station has. -/
def pools (s : State) (st : Nat) : Pools where
  taken := (s.stn st).core.taken
  shared := (s.stn st).core.sharedUsed
  u := (s.stn st).core.u
  express := (s.stn st).core.expUsed
  head := (s.stn st).core.headUsed
  laneX := (s.stn st).tasks.laneX.length
  laneN := (s.stn st).tasks.laneN.length
  draining := (s.stn st).draining

theorem pools_of_stations {s t : State} (h : t.stations = s.stations) (st : Nat) : pools t st = pools s st := by
  simp only [pools, State.stn, h]

/-- From s to t registers of N are written, and nothing that port p receives by, nor anything of a station. -/
structure RxStill (N : Nat → Prop) (p : Nat) (s t : State) : Prop extends RxFollows N p s t where
  stations : t.stations = s.stations

namespace RxStill
variable {N M : Nat → Prop} {p : Nat} {s t u : State}

theorem refl (N : Nat → Prop) (p : Nat) (s : State) : RxStill N p s s := ⟨.refl N p s, rfl⟩

theorem trans (h : RxStill N p s t) (k : RxStill N p t u) : RxStill N p s u :=
  ⟨h.toRxFollows.trans k.toRxFollows, k.stations.trans h.stations⟩

theorem mono (h : RxStill N p s t) (le : ∀ a, N a → M a) : RxStill M p s t := ⟨h.toRxFollows.mono le, h.stations⟩

theorem pools (h : RxStill N p s t) (st : Nat) : Machine.pools t st = Machine.pools s st := pools_of_stations h.stations st

theorem foldl {α : Type} {f : State → α → State} {l : List α} (h : ∀ s, ∀ x ∈ l, RxStill N p s (f s x)) (s : State) :
    RxStill N p s (l.foldl f s) := by
  induction l generalizing s with
  | nil => exact refl N p s
  | cons x l ih => exact (h s x List.mem_cons_self).trans (ih (fun t y hy => h t y (List.mem_cons_of_mem _ hy)) _)

theorem wr {a : Nat} (ha : N a) (out : ¬ InMacs a) (s : State) (v : Word) : RxStill N p s (s.wr a v) := ⟨.wr ha out s v, rfl⟩

theorem cntSet {a : Nat} (ha : N a ∧ N (a + 4)) (out : ¬ InMacs a ∧ ¬ InMacs (a + 4)) (s : State) (v : Nat) :
    RxStill N p s (s.cntSet a v) := (wr ha.1 out.1 s _).trans (wr ha.2 out.2 _ _)

theorem cnt {a : Nat} (ha : N a ∧ N (a + 4)) (out : ¬ InMacs a ∧ ¬ InMacs (a + 4)) (s : State) (n : Nat) :
    RxStill N p s (s.cnt a n) := by
  unfold State.cnt
  split
  · exact refl N p s
  · exact cntSet ha out s _

/-- Nothing of the ports or the registers. -/
theorem of_frame (regs : t.regs = s.regs) (mem : t.mem = s.mem) (now : t.now = s.now) (varve : t.varve = s.varve)
    (held : t.tinker.heldRx = s.tinker.heldRx) (ports : t.ports = s.ports) (stations : t.stations = s.stations) :
    RxStill N p s t :=
  ⟨.of_frame regs mem now varve (by rw [held]) (by rw [State.port, ports, State.port]), stations⟩

end RxStill

/-! ### Energy, events and planted errors -/

theorem energy_still (N : Nat → Prop) (p st acc kind : Nat) (s : State) : RxStill N p s (energy st acc kind s) :=
  .of_frame rfl rfl rfl rfl rfl rfl rfl

/-- A register of a station's that is written as cells are taken and frames dropped. -/
theorem cellWr_still (p st : Nat) {o : Nat} (h : CellOffset o) (s : State) (v : Word) :
    RxStill CellReg p s (s.wr (stationBase st + o) v) :=
  .wr (cellReg_of_offset st (by omega) h) (not_inMacs_reg st (by omega) (by omega)) s v

theorem evAdd_still (p st n : Nat) {k : Nat} (hk : k < 48) (dump : Bool) (s : State) :
    RxStill CellReg p s (evAdd st k n dump s) := by
  have counted (v : Nat) : RxStill CellReg p s (s.cntSet (Reg.STN_EV_LO st k) v) := by
    rw [Reg.STN_EV_LO, Nat.add_assoc, State.cntSet, Nat.add_assoc]
    exact (cellWr_still p st (.inr (.inl (by omega))) s _).trans (cellWr_still p st (.inr (.inl (by omega))) _ _)
  have flagged (t : State) (v : Word) : RxStill CellReg p t (t.wr (Reg.STN_EV_OVF st (k / 32)) v) := by
    rw [Reg.STN_EV_OVF, Nat.add_assoc]
    exact cellWr_still p st (.inl (by omega)) t v
  unfold evAdd
  dsimp only
  split
  · exact counted _
  · split
    · exact ((counted _).trans (flagged _ _)).trans (.of_frame rfl rfl rfl rfl rfl rfl rfl)
    · exact (counted _).trans (flagged _ _)

theorem evCount_still (p st code n : Nat) (g : Option Nat) (s : State) : RxStill CellReg p s (evCount st code n g s) := by
  refine .foldl (fun t e _ => ?_) s
  dsimp only
  split
  · next h =>
    have hk : (e.1 - Reg.STN_EVSEL st 0) / 4 < 48 := by omega
    have added (hit dump : Bool) :
        RxStill CellReg p t (if hit then evAdd st ((e.1 - Reg.STN_EVSEL st 0) / 4) n dump t else t) := by
      split
      · exact evAdd_still p st n hk dump t
      · exact .refl _ p t
    exact added _ _
  · exact .refl _ p t

theorem evDrop_still (p st g : Nat) (s : State) : RxStill CellReg p s (evDrop st g s) := evCount_still p st 12 1 (some g) s

/-- A frame that asks for no timestamp leaves none. -/
theorem frameGone_still (p st : Nat) {f : Frame} (h : f.txTs = none) (s : State) : RxStill CellReg p s (frameGone st f s) := by
  rw [frameGone, txqDrop, h]
  exact evDrop_still p st f.guild s

theorem odWrite_still (p mem st idx : Nat) (s : State) : RxStill CellReg p s (odWrite mem st idx s) := by
  have spent : RxStill CellReg p s (odClear mem st idx (memEnergy mem st s)) := by
    unfold memEnergy
    split <;> exact .of_frame rfl rfl rfl rfl rfl rfl rfl
  rw [odWrite]
  refine spent.trans ?_
  generalize odClear mem st idx (memEnergy mem st s) = u
  unfold odPlant
  split
  · have disarmed : RxStill CellReg p u (u.put Reg.TNK_MEMINJ Fld.TNK_MEMINJ_ARM 0) :=
      .wr (.inl rfl) (not_atStation_of_lt (by decide)) u _
    exact disarmed.trans (.of_frame rfl rfl rfl rfl rfl rfl rfl)
  · exact .refl _ p u

end Sys2Proof.Machine

/-! SUPPORT. XOFF as it follows its thresholds (R260) and the control frames that it sends (R90), in the eyes of a port that
receives. -/
namespace Sys2Proof.Machine

theorem xoffReg_of_ctlReg {q a : Nat} (h : CtlReg q a) : XoffReg a := by
  obtain ⟨o, place, rfl⟩ := h
  exact (xoffReg_macAt q (by omega)).2 (.inr place)

theorem eq_of_ctlReg_event {p q : Nat} (h : CtlReg q (Reg.MAC_EVENT p)) : p = q :=
  (CtlReg.place (o := 0x20) h (by decide)).1

theorem not_ctlReg_fcStatus (p q : Nat) : ¬ CtlReg q (Reg.MAC_FC_STATUS p) := fun h =>
  absurd (CtlReg.place (o := 0x14) h (by decide)).2 (by decide)

/-- The control frames of a port bear on nothing that a port receives by. -/
theorem CtlLeft.still {q : Nat} {s t : State} (h : CtlLeft q s t) (p : Nat) : RxStill XoffReg p s t := by
  have only {α : Type} (g : State → α)
      (e : ∀ u : State, g { s with ports := u.ports, out := u.out, regs := u.regs, energy := u.energy } = g s) : g t = g s := by
    rw [h.only]; exact e t
  have event (f : Field) (hf : f.Apart Fld.MAC_EVENT_STAT_HALF) :
      t.get (Reg.MAC_EVENT p) f = s.get (Reg.MAC_EVENT p) f := by
    by_cases e : p = q
    · exact e ▸ h.event f hf
    · exact State.get_of_rd (h.rd _ fun r => e (eq_of_ctlReg_event r)) f
  have port : (t.port p).link = (s.port p).link ∧ (t.port p).mac.pause = (s.port p).mac.pause ∧
      (t.port p).mac.mergeEn = (s.port p).mac.mergeEn ∧ (t.port p).mac.limits = (s.port p).mac.limits ∧
      (t.port p).mac.reasm = (s.port p).mac.reasm := by
    by_cases e : p = q
    · rw [e, h.port]; exact ⟨rfl, rfl, rfl, rfl, rfl⟩
    · rw [h.others p e]; exact ⟨rfl, rfl, rfl, rfl, rfl⟩
  obtain ⟨link, pause, mergeEn, limits, reasm⟩ := port
  exact ⟨⟨fun a ha => h.rd a (mt xoffReg_of_ctlReg ha), event, fun f _ => State.get_of_rd (h.rd _ (not_ctlReg_fcStatus p q)) f,
    only State.mem fun _ => rfl, only State.now fun _ => rfl, only State.varve fun _ => rfl,
    by rw [only State.tinker fun _ => rfl], link, pause, mergeEn, limits, by rw [reasm]⟩,
    only State.stations fun _ => rfl⟩

theorem ctlQueue_left (q : Nat) (c : CtlFrame) (s : State) : CtlLeft q s (ctlQueue q c s) := by
  rw [ctlQueue]
  split
  · exact ctlRun_left q _ s
  · exact .refl q s

theorem xoffChanged_left (q old new : Nat) (s : State) : CtlLeft q s (xoffChanged q old new s) := by
  unfold xoffChanged
  split
  · split
    · exact ctlQueue_left q _ s
    · split
      · exact ctlQueue_left q _ s
      · exact .refl q s
  · dsimp only
    split
    · exact .refl q s
    · exact ctlQueue_left q _ s
  · exact .refl q s

/-- What shows a port's classes in XOFF. -/
def xoffShown (st i old new : Nat) (s : State) : State :=
  ((s.cnt (Reg.SWC_CNT_LO st 15) (popcount8 (mask8 fun c => new.testBit c && !old.testBit c))).put
    (Reg.SWC_PORT_STATUS st i) Fld.SWC_PORT_STATUS_XOFF new).put (Reg.MAC_FC_STATUS (12 * st + i)) Fld.MAC_FC_STATUS_TX_XOFF new

/-- The classes of a port that its thresholds hold in XOFF. -/
def xoffWanted (s : State) (st i : Nat) : Nat := mask8 fun c => xoffNext s st i c

theorem xoffPort_eq (st i : Nat) (s : State) : xoffPort st i s =
    if xoffWanted s st i = xoffMask s st i then s
    else xoffChanged (12 * st + i) (xoffMask s st i) (xoffWanted s st i)
      (xoffShown st i (xoffMask s st i) (xoffWanted s st i) s) := rfl

/-- TX_XOFF takes a value. -/
theorem txXoff_still {a p : Nat} (reg : XoffReg a) (event : Reg.MAC_EVENT p ≠ a) (v : Nat) (s : State) :
    RxStill XoffReg p s (s.put a Fld.MAC_FC_STATUS_TX_XOFF v) := by
  have fc (f : Field) (hf : f.Apart Fld.MAC_FC_STATUS_TX_XOFF) :
      (s.put a Fld.MAC_FC_STATUS_TX_XOFF v).get (Reg.MAC_FC_STATUS p) f = s.get (Reg.MAC_FC_STATUS p) f := by
    by_cases e : Reg.MAC_FC_STATUS p = a
    · rw [e]
      exact s.get_put_apart a (by decide) hf v
    · exact s.get_put_ne e _ f v
  exact ⟨⟨fun b hb => s.rd_put_ne (fun e => hb (by rwa [e])) _ _, fun f _ => s.get_put_ne event _ f v, fc,
    rfl, rfl, rfl, rfl, rfl, rfl, rfl, rfl, rfl⟩, rfl⟩

/-- A register of the switch's that shows or counts XOFF. -/
theorem switchWr_still (p st : Nat) {o : Nat} (h : SwitchOffset o) (s : State) (v : Word) :
    RxStill XoffReg p s (s.wr (stationBase st + o) v) :=
  .wr (xoffReg_of_offset st (by omega) h) (not_inMacs_reg st (by omega) (by omega)) s v

theorem swcCnt_still (p st n : Nat) {k : Nat} (hk : k < 16) (s : State) :
    RxStill XoffReg p s (s.cnt (Reg.SWC_CNT_LO st k) n) := by
  rw [Reg.SWC_CNT_LO, Nat.add_assoc]
  unfold State.cnt State.cntSet
  split
  · exact .refl _ p s
  · rw [Nat.add_assoc]
    exact (switchWr_still p st (by omega) s _).trans (switchWr_still p st (by omega) _ _)

theorem portStatus_offset (st : Nat) {i : Nat} (hi : i < 12) :
    ∃ o, Reg.SWC_PORT_STATUS st i = stationBase st + o ∧ 0x2c0080 ≤ o ∧ o < 0x2c00b0 :=
  ⟨0x2c0080 + i * 4, Nat.add_assoc .., by omega, by omega⟩

theorem not_inMacs_portStatus (st : Nat) {i : Nat} (hi : i < 12) : ¬ InMacs (Reg.SWC_PORT_STATUS st i) := by
  obtain ⟨o, e, lo, top⟩ := portStatus_offset st hi
  rw [e]
  exact not_inMacs_reg st (by omega) (by omega)

theorem portStatus_still (p st : Nat) {i : Nat} (hi : i < 12) (s : State) (v : Word) :
    RxStill XoffReg p s (s.wr (Reg.SWC_PORT_STATUS st i) v) := by
  obtain ⟨o, e, offset⟩ := portStatus_offset st hi
  rw [e]
  exact switchWr_still p st (.inl offset) s v

theorem xoffShown_still (p st old new : Nat) {i : Nat} (hi : i < 12) (s : State) :
    RxStill XoffReg p s (xoffShown st i old new s) := by
  have event : Reg.MAC_EVENT p ≠ Reg.MAC_FC_STATUS (12 * st + i) := fun e =>
    absurd (macAt_inj (o := 0x20) (r := 0x14) (by decide) (by decide) e).2 (by decide)
  have txXoff := (xoffReg_macAt (12 * st + i) (o := 0x14) (by decide)).2 (.inl rfl)
  exact (swcCnt_still p st _ (by decide) s).trans ((portStatus_still p st hi _ _).trans (txXoff_still txXoff event _ _))

theorem xoffPort_still (p st : Nat) {i : Nat} (hi : i < 12) (s : State) : RxStill XoffReg p s (xoffPort st i s) := by
  rw [xoffPort_eq]
  split
  · exact .refl _ p s
  · exact (xoffShown_still p st _ _ hi s).trans ((xoffChanged_left _ _ _ _).still p)

theorem xoffUpdate_still (p st : Nat) (s : State) : RxStill XoffReg p s (xoffUpdate st s) := by
  refine .foldl (fun t i hi => ?_) s
  split
  · exact .refl _ p t
  · exact xoffPort_still p st (List.mem_range.1 hi) t

end Sys2Proof.Machine

/-! SUPPORT. The cells of a frame that arrives and is dropped (R76, R255, R275): taken from the bitmap, charged, and given
back. -/
namespace Sys2Proof.Machine

/-! ### What an operation on cells leaves -/

theorem modStn_follows (N : Nat → Prop) (p st : Nat) (f : Stn → Stn) (s : State) : RxFollows N p s (s.modStn st f) :=
  .of_frame rfl rfl rfl rfl rfl rfl

theorem pools_modStn (s : State) (st : Nat) (f : Stn → Stn) (h : ∀ n : Stn,
    (f n).core.taken = n.core.taken ∧ (f n).core.sharedUsed = n.core.sharedUsed ∧ (f n).core.u = n.core.u ∧
      (f n).core.expUsed = n.core.expUsed ∧ (f n).core.headUsed = n.core.headUsed ∧
      (f n).tasks.laneX.length = n.tasks.laneX.length ∧ (f n).tasks.laneN.length = n.tasks.laneN.length ∧
      (f n).draining = n.draining) : pools (s.modStn st f) st = pools s st := by
  obtain ⟨taken, shared, u, express, head, laneX, laneN, draining⟩ := h (s.stn st)
  simp only [pools, State.stn_modStn_same, taken, shared, u, express, head, laneX, laneN, draining]

theorem touch_follows (N : Nat → Prop) (p st c : Nat) (s : State) : RxFollows N p s (touch st c s) := modStn_follows N p st _ s

theorem pools_touch (st c : Nat) (s : State) : pools (touch st c s) st = pools s st := by
  refine pools_modStn s st _ fun n => ?_
  split <;> simp

theorem aget?_map {α : Type} (g : Nat → α → α) (k : Nat) (l : List (Nat × α)) :
    aget? k (l.map fun e => (e.1, g e.1 e.2)) = (aget? k l).map (g k) := by
  induction l with
  | nil => rfl
  | cons e l ih =>
    obtain ⟨i, v⟩ := e
    by_cases h : i = k
    · simp [aget?, h]
    · simp [aget?, h, ih]

/-- What a port has of frames may be replaced in its part of them alone. -/
theorem mapFrames_port (st : Nat) (f : Frame → Frame) (s : State) (p : Nat) :
    ∃ r, r.isSome = (s.port p).mac.reasm.isSome ∧
      (mapFrames st f s).port p = { s.port p with mac := { (s.port p).mac with reasm := r } } := by
  have ports : (mapFrames st f s).ports =
      s.ports.map fun e => (e.1, if stationOf e.1 = st then mapPart f e.1 e.2 else e.2) := by
    rw [mapFrames]
    refine List.map_congr_left fun e _ => ?_
    split <;> rfl
  have part (x : PortSt) : ∃ r, r.isSome = x.mac.reasm.isSome ∧
      (if stationOf p = st then mapPart f p x else x) = { x with mac := { x.mac with reasm := r } } := by
    split
    · exact ⟨_, Option.isSome_map .., rfl⟩
    · exact ⟨_, rfl, rfl⟩
  rw [State.port, State.port, aget, aget, ports, aget?_map fun p x => if stationOf p = st then mapPart f p x else x]
  cases aget? p s.ports with
  | none => exact ⟨none, rfl, rfl⟩
  | some x => exact part x

theorem mapFrames_follows (N : Nat → Prop) (p st : Nat) (f : Frame → Frame) (s : State) :
    RxFollows N p s (mapFrames st f s) := by
  obtain ⟨r, part, port⟩ := mapFrames_port st f s p
  have held : (mapFrames st f s).tinker.heldRx.map (fun h => (h.port, h.left)) =
      s.tinker.heldRx.map fun h => (h.port, h.left) := by
    change (s.tinker.heldRx.map _).map _ = _
    rw [List.map_map]
    refine List.map_congr_left fun h _ => ?_
    dsimp only [Function.comp]
    split <;> rfl
  refine ⟨fun a _ => rfl, fun f _ => rfl, fun f _ => rfl, rfl, rfl, rfl, held, ?_, ?_, ?_, ?_, ?_⟩ <;> rw [port]
  exact part

theorem pools_mapFrames (st : Nat) (f : Frame → Frame) (s : State) : pools (mapFrames st f s) st = pools s st := by
  have stn : (mapFrames st f s).stn st = ((s.modTasks st fun t =>
      { t with slots := t.slots.map fun e => (e.1, { e.2 with frame := f e.2.frame })
               laneX := t.laneX.map f
               laneN := t.laneN.map f }).modCore st fun c =>
      { c with voqs := c.voqs.map fun e => (e.1, e.2.map fun x => { x with frame := f x.frame })
               mcqs := c.mcqs.map fun e => (e.1, e.2.map fun x => { x with frame := f x.frame })
               contexts := c.contexts.map fun e => (e.1, { e.2 with xf := { e.2.xf with frame := f e.2.xf.frame } }) }).stn st :=
    rfl
  simp only [pools, stn, State.modTasks, State.modCore, State.stn_modStn_same, List.length_map]

/-! ### One cell -/

/-- A cell's bit is set. -/
def cellSet (st c : Nat) (s : State) : State := touch st c (s.modCore st fun x => { x with taken := sinsert c x.taken })

/-- A frame that still chains the cell loses its data there. -/
def cellLost (st c : Nat) (s : State) : State :=
  if (heldFrames s st).any fun e => e.2.2.cells.contains c then
    mapFrames st (Frame.corrupt c s.fresh) { s with fresh := s.fresh + 1 }
  else s

/-- The words of a cell are written, and the event counted. -/
def cellWritten (st c : Nat) (s : State) : State :=
  energy st 1 3 (evCount st 13 1 none (odWrite 2 st c (odWrite 1 st (32 * c) s)))

/-- The cell that is taken next. -/
def cellNext (st : Nat) (s : State) : Nat := freeFrom (s.stn st).core.taken 0 32768 (Config.freeNat s.fresh)

theorem takeCell_eq (st : Nat) (s : State) : takeCell st s =
    let c := cellNext st s
    let t := cellWritten st c (cellLost st c (cellSet st c s.drawNat.2))
    (c, if cellsFree s st = s.get (Reg.CEL_WARN st) Fld.CEL_WARN_LOW then
      t.raise (Reg.MOR_EVENT st) Fld.MOR_EVENT_CELL_LOW else t) := rfl

theorem cellSet_follows (N : Nat → Prop) (p st c : Nat) (s : State) : RxFollows N p s (cellSet st c s) :=
  (modStn_follows N p st _ s).trans (touch_follows N p st c _)

theorem pools_cellSet (st c : Nat) (s : State) :
    pools (cellSet st c s) st = { pools s st with taken := sinsert c (pools s st).taken } := by
  rw [cellSet, pools_touch]
  simp only [pools, State.modCore, State.stn_modStn_same]

theorem cellLost_follows (N : Nat → Prop) (p st c : Nat) (s : State) : RxFollows N p s (cellLost st c s) := by
  unfold cellLost
  split
  · have drawn : RxFollows N p s { s with fresh := s.fresh + 1 } := .of_frame rfl rfl rfl rfl rfl rfl
    exact drawn.trans (mapFrames_follows N p st _ _)
  · exact .refl N p s

theorem pools_cellLost (st c : Nat) (s : State) : pools (cellLost st c s) st = pools s st := by
  unfold cellLost
  split
  · exact pools_mapFrames st _ _
  · rfl

theorem cellWritten_still (p st c : Nat) (s : State) : RxStill CellReg p s (cellWritten st c s) :=
  (odWrite_still p 1 st _ s).trans ((odWrite_still p 2 st c _).trans ((evCount_still p st 13 1 none _).trans
    (energy_still _ p st 1 3 _)))

theorem morEvent_still (p st : Nat) (f : Field) (s : State) : RxStill CellReg p s (s.raise (Reg.MOR_EVENT st) f) :=
  cellWr_still p st (o := 0x300108) (by decide) s _

theorem takeCell_spec (p st : Nat) (s : State) :
    (takeCell st s).1 = cellNext st s ∧ RxFollows CellReg p s (takeCell st s).2 ∧
      pools (takeCell st s).2 st = { pools s st with taken := sinsert (cellNext st s) (pools s st).taken } := by
  have set := (RxFollows.of_frame rfl rfl rfl rfl rfl rfl : RxFollows CellReg p s s.drawNat.2).trans
    ((cellSet_follows CellReg p st (cellNext st s) s.drawNat.2).trans (cellLost_follows CellReg p st (cellNext st s) _))
  have still := cellWritten_still p st (cellNext st s) (cellLost st (cellNext st s) (cellSet st (cellNext st s) s.drawNat.2))
  have all : RxStill CellReg p (cellLost st (cellNext st s) (cellSet st (cellNext st s) s.drawNat.2)) (takeCell st s).2 := by
    rw [takeCell_eq]
    dsimp only
    split
    · exact still.trans (morEvent_still p st _ _)
    · exact still
  refine ⟨rfl, set.trans all.toRxFollows, ?_⟩
  rw [all.pools, pools_cellLost, pools_cellSet]
  rfl

end Sys2Proof.Machine

/-! SUPPORT. A frame that arrives, and its cells and charges given back (R76, R258). -/
namespace Sys2Proof.Machine

theorem filter_sinsert {P : Nat → Bool} {c : Nat} (h : P c = false) (l : List Nat) :
    (sinsert c l).filter P = l.filter P := by
  induction l with
  | nil => simp [sinsert, h]
  | cons i r ih =>
    unfold sinsert
    split
    · rfl
    · split
      · simp [h]
      · simp [List.filter_cons, ih]

theorem length_sinsert {c : Nat} {l : List Nat} (h : c ∉ l) : (sinsert c l).length = l.length + 1 := by
  induction l with
  | nil => rfl
  | cons i r ih =>
    obtain ⟨ne, out⟩ : c ≠ i ∧ c ∉ r := by simpa using h
    unfold sinsert
    rw [if_neg (Ne.symm ne)]
    split
    · rfl
    · rw [List.length_cons, ih out, List.length_cons]

/-- A station with P₀ has P since the cells of a were taken and charged. -/
structure Arrived (P₀ : Pools) (a : Arrival) (P : Pools) : Prop where
  taken : P.taken.filter (fun c => !a.cells.contains c) = P₀.taken
  length : P.taken.length = P₀.taken.length + a.cells.length
  rest : P = { P₀ with taken := P.taken, shared := P₀.shared + a.shared }

theorem arrived_none (P : Pools) : Arrived P {} P := ⟨by simp, rfl, rfl⟩

/-- One cell more. -/
theorem Arrived.cell {P₀ P : Pools} {a : Arrival} (h : Arrived P₀ a P) {c : Nat} (free : c ∉ P.taken) (n r : Nat) :
    Arrived P₀ { cells := a.cells ++ [c], shared := a.shared + n, reserve := r }
      { P with taken := sinsert c P.taken, shared := P.shared + n } where
  taken := by
    have same : ∀ x ∈ P.taken, (!(a.cells ++ [c]).contains x) = !a.cells.contains x := fun x hx => by
      have ne : x ≠ c := fun e => free (e ▸ hx)
      simp [ne]
    rw [filter_sinsert (by simp), List.filter_congr same, h.taken]
  length := by
    rw [length_sinsert free, h.length, List.length_append]
    rfl
  rest := by
    rw [h.rest]
    simp only [Nat.add_assoc]

/-- A cell of an arriving frame is charged to SHARED, or to the port's receive reserve. -/
def cellCharged (st i : Nat) (shared : Bool) (s : State) : State :=
  s.modCore st fun x => if shared then { x with sharedUsed := x.sharedUsed + 1 } else { x with rsvUsed := aadd i 1 x.rsvUsed }

theorem pools_cellCharged (st i : Nat) (shared : Bool) (s : State) :
    pools (cellCharged st i shared s) st = { pools s st with shared := (pools s st).shared + shared.toNat } := by
  simp only [pools, cellCharged, State.modCore, State.stn_modStn_same]
  cases shared <;> rfl

theorem modCore_follows (N : Nat → Prop) (p st : Nat) (f : SwitchCore → SwitchCore) (s : State) :
    RxFollows N p s (s.modCore st f) := modStn_follows N p st _ s

theorem cellCharged_follows (N : Nat → Prop) (p st i : Nat) (shared : Bool) (s : State) :
    RxFollows N p s (cellCharged st i shared s) := modCore_follows N p st _ s

theorem arriveCell_eq (st i : Nat) (a : Arrival) (s : State) : arriveCell st i a s =
    let shared := decide (0 < ingSharedFree s st)
    ({ cells := a.cells ++ [(takeCell st s).1], shared := a.shared + shared.toNat, reserve := a.reserve + (!shared).toNat },
      cellCharged st i shared (takeCell st s).2) := rfl

theorem arriveCell_follows (p st i : Nat) (a : Arrival) (s : State) : RxFollows CellReg p s (arriveCell st i a s).2 := by
  rw [arriveCell_eq]
  exact (takeCell_spec p st s).2.1.trans (cellCharged_follows _ p st i _ (takeCell st s).2)

theorem arriveCell_arrived {st i : Nat} {a : Arrival} {s : State} {P₀ : Pools} (h : Arrived P₀ a (pools s st))
    (room : (pools s st).taken.length < 32768) :
    Arrived P₀ (arriveCell st i a s).1 (pools (arriveCell st i a s).2 st) ∧
      (pools (arriveCell st i a s).2 st).taken.length = (pools s st).taken.length + 1 := by
  obtain ⟨next, -, pools'⟩ := takeCell_spec 0 st s
  have free : cellNext st s ∉ (pools s st).taken := (freeFrom_spec 0 _ room).1
  rw [arriveCell_eq]
  dsimp only
  rw [pools_cellCharged, pools', next]
  exact ⟨h.cell free _ _, length_sinsert free⟩

theorem arriveCells_follows (p st i n : Nat) (a : Arrival) (s : State) :
    RxFollows CellReg p s (arriveCells st i n a s).2 := by
  induction n generalizing a s with
  | zero => exact .refl _ p s
  | succ n ih => exact (arriveCell_follows p st i a s).trans (ih _ _)

theorem arriveCells_arrived {st i : Nat} (n : Nat) {a : Arrival} {s : State} {P₀ : Pools} (h : Arrived P₀ a (pools s st))
    (room : (pools s st).taken.length + n ≤ 32768) :
    Arrived P₀ (arriveCells st i n a s).1 (pools (arriveCells st i n a s).2 st) ∧
      (arriveCells st i n a s).1.cells.length = a.cells.length + n := by
  induction n generalizing a s with
  | zero => exact ⟨h, rfl⟩
  | succ n ih =>
    obtain ⟨cell, length⟩ := arriveCell_arrived (i := i) h (by omega)
    obtain ⟨all, count⟩ := ih cell (by omega)
    refine ⟨all, count.trans ?_⟩
    rw [arriveCell_eq]
    simp only [List.length_append, List.length_singleton]
    omega

theorem arrive_follows (p st i n : Nat) (a : Arrival) (s : State) :
    RxFollows QuietReg p s (arrive st i n a s).2 :=
  ((arriveCells_follows p st i _ a s).mono fun _ => .inl).trans
    ((xoffUpdate_still p st _).toRxFollows.mono fun _ h => .inr (.inl h))

/-- As many cells as the bitmap can give. -/
theorem arriveCells_min (st i n : Nat) (s : State) : let r := arriveCells st i (min n (cellsFree s st)) {} s
    Arrived (pools s st) r.1 (pools r.2 st) ∧ r.1.cells.length = min n (cellsFree s st) := by
  have room : (pools s st).taken.length + min n (cellsFree s st) ≤ 32768 ∨ cellsFree s st = 0 := by
    simp only [cellsFree, pools]
    omega
  rcases room with room | none
  · obtain ⟨arrived, length⟩ := arriveCells_arrived (i := i) _ (arrived_none (pools s st)) room
    exact ⟨arrived, length.trans (Nat.zero_add _)⟩
  · rw [none, Nat.min_zero]
    exact ⟨arrived_none _, rfl⟩

theorem arrive_none_eq (st i n : Nat) (s : State) : arrive st i n {} s =
    let r := arriveCells st i (min (cellsOf n) (cellsFree s st)) {} s
    (r.1, xoffUpdate st r.2) := rfl

/-- A frame that arrives has the cells that its bytes need, or what the bitmap could give. -/
theorem arrive_arrived (st i n : Nat) (s : State) :
    Arrived (pools s st) (arrive st i n {} s).1 (pools (arrive st i n {} s).2 st) ∧
      (arrive st i n {} s).1.cells.length = min (cellsOf n) (cellsFree s st) := by
  rw [arrive_none_eq]
  dsimp only
  rw [(xoffUpdate_still 0 st _).pools]
  exact arriveCells_min st i (cellsOf n) s

/-! ### Given back -/

theorem freeCell_follows (N : Nat → Prop) (p st c : Nat) (s : State) : RxFollows N p s (freeCell st s c) :=
  (modStn_follows N p st _ s).trans (touch_follows N p st c _)

theorem pools_freeCell (st c : Nat) (s : State) :
    pools (freeCell st s c) st = { pools s st with taken := (pools s st).taken.filter (· != c) } := by
  rw [freeCell, pools_touch]
  simp only [pools, State.modCore, State.stn_modStn_same]

theorem freeCells_follows (N : Nat → Prop) (p st : Nat) (cells : List Nat) (s : State) :
    RxFollows N p s (cells.foldl (freeCell st) s) := .foldl (fun t c _ => freeCell_follows N p st c t) s

theorem pools_freeCells (st : Nat) (cells : List Nat) (s : State) : pools (cells.foldl (freeCell st) s) st =
    { pools s st with taken := (pools s st).taken.filter fun c => !cells.contains c } := by
  induction cells generalizing s with
  | nil => simp
  | cons c cells ih =>
    have both : ((pools s st).taken.filter (· != c)).filter (fun x => !cells.contains x) =
        (pools s st).taken.filter fun x => !(c :: cells).contains x := by
      rw [List.filter_filter]
      refine List.filter_congr fun x _ => ?_
      rw [List.contains_cons, Bool.not_or, Bool.and_comm]
      rfl
    simp only [List.foldl_cons, ih, pools_freeCell, both]

theorem unarrive_follows (N : Nat → Prop) (p st i : Nat) (a : Arrival) (s : State) : RxFollows N p s (unarrive st i a s) :=
  modCore_follows N p st _ s

theorem pools_unarrive (st i : Nat) (a : Arrival) (s : State) :
    pools (unarrive st i a s) st = { pools s st with shared := (pools s st).shared - a.shared } := by
  simp only [pools, unarrive, State.modCore, State.stn_modStn_same]

theorem arrivalFree_follows (p st i : Nat) (a : Arrival) (s : State) : RxFollows XoffReg p s (arrivalFree st i a s) :=
  (freeCells_follows _ p st a.cells s).trans ((unarrive_follows _ p st i a _).trans (xoffUpdate_still p st _).toRxFollows)

/-- A frame that arrived and is dropped leaves the station as it was. -/
theorem Arrived.freed {st i : Nat} {a : Arrival} {s : State} {P₀ : Pools} (h : Arrived P₀ a (pools s st)) :
    pools (arrivalFree st i a s) st = P₀ := by
  rw [arrivalFree, (xoffUpdate_still 0 st _).pools, pools_unarrive, pools_freeCells, h.taken, h.rest]
  simp only [Nat.add_sub_cancel]

end Sys2Proof.Machine

/-! SUPPORT. A received frame from its first byte to the row of Table 04.2 that it meets (R76, R80, R96). -/
namespace Sys2Proof.Machine

/-! ### Counters of what is received -/

theorem macStat_still (p n : Nat) {k : Nat} (hk : k < 72) (s : State) : RxStill StatReg p s (macStat p k n s) := by
  have only := macStat_onlyRegs p k n s
  have port (q : Nat) := macStat_port p k n q s
  have reg (a : Nat) (ha : ¬ StatReg a) : (macStat p k n s).rd a = s.rd a := by
    have ne {o : Nat} (place : StatPlace o) : a ≠ macAt p o := fun e => ha (e ▸ (statReg_macAt p (by omega)).2 place)
    refine macStat_rd p n s ?_ ?_ ?_ (ne (o := 0x20) (by decide))
    · exact macStatLo_eq p k ▸ ne (.inr (.inr (by omega)))
    · exact macStatLo_hi_eq p k ▸ ne (.inr (.inr (by omega)))
    · exact macStatHalf_eq p (k / 32) ▸ ne (.inr (.inl (by omega)))
  have fc : ¬ StatReg (macAt p 0x14) := by
    rw [statReg_macAt p (by decide)]
    decide
  refine ⟨⟨reg, fun f hf => macStat_event p k n hk hf s, fun f _ => State.get_of_rd (reg _ fc) f, ?_, ?_, ?_, ?_, ?_, ?_, ?_,
    ?_, ?_⟩, by rw [only]⟩
  · rw [only]
  · rw [only]
  · rw [only]
  · rw [only]
  all_goals rw [port]

theorem not_quietReg_stat (p : Nat) {k : Nat} (hk : k < 41) :
    ¬ QuietReg (Reg.MAC_STAT_LO p k) ∧ ¬ QuietReg (Reg.MAC_STAT_LO p k + 4) := by
  have quiet {r : Nat} (hr : r < 8) : ¬ QuietReg (macAt p (0x1000 + k * 8 + r)) := by
    rw [quietReg_macAt p (by omega)]
    rintro (e | place)
    · omega
    · exact absurd (txStat_of_ctlPlace hr place).1 (Nat.not_le.2 hk)
  rw [macStatLo_hi_eq, macStatLo_eq]
  exact ⟨quiet (r := 0) (by decide), quiet (by decide)⟩

/-- The counters of what a port receives stay. -/
theorem RxFollows.stat {p : Nat} {s t : State} (h : RxFollows QuietReg p s t) {k : Nat} (hk : k < 41) :
    t.cntGet (Reg.MAC_STAT_LO p k) = s.cntGet (Reg.MAC_STAT_LO p k) :=
  State.cntGet_of_rd (h.rd _ (not_quietReg_stat p hk).1) (h.rd _ (not_quietReg_stat p hk).2)

theorem fecCount_still (p corrected : Nat) (symbols : List Nat) (s : State) :
    RxStill FecReg p s (fecCount p corrected symbols s) := by
  have counted (l n : Nat) {o : Nat} (h : FecPlace o) (h4 : FecPlace (o + 4)) (t : State) :
      RxStill FecReg p t (t.cnt (laneAt l o) n) := by
    refine .cnt ?_ ?_ t n <;> rw [portAt_add]
    · exact ⟨(fecReg_laneAt l (by omega)).2 h, (fecReg_laneAt l (by omega)).2 h4⟩
    · exact ⟨not_inMacs_laneAt l (by omega), not_inMacs_laneAt l (by omega)⟩
  have corr (n : Nat) : RxStill FecReg p s (s.cnt (Reg.LANE_FEC_CORR_LO p) n) :=
    counted p n (o := 0x30) (by decide) (by decide) s
  have sym (l n : Nat) (t : State) : RxStill FecReg p t (t.cnt (Reg.LANE_FEC_SYM_LO l) n) :=
    counted l n (o := 0x40) (by decide) (by decide) t
  unfold fecCount
  split
  · exact .refl _ p s
  · exact (corr corrected).trans (.foldl (fun t e _ => sym e.1 e.2 t) _)

/-! ### Octets and cells -/

/-- A frame of n octets that is whole is counted in RX_OCTETS_ALL, and as an express frame where it is one. -/
def rxCounted (p n : Nat) (express : Bool) (s : State) : State :=
  let u := energy (stationOf p) 2 0 (macStat p 1 n s)
  if express && mergeActive u p then macStat p 26 1 u else u

theorem rxWhole_eq (p : Nat) (rx : RxFrame) (lost express : Bool) (limit pt : Nat) (a : Arrival) (b : List Byte)
    (s : State) : rxWhole p rx lost express limit pt a b s =
      let r := rxArrive p limit (b.length + 4) a (rxCounted p (b.length + 4) express s)
      heldStep p (rxJudge p rx lost limit pt r.1 b r.2) := rfl

theorem rxCounted_still (p n : Nat) (express : Bool) (s : State) : RxStill StatReg p s (rxCounted p n express s) := by
  have whole : RxStill StatReg p s (energy (stationOf p) 2 0 (macStat p 1 n s)) :=
    (macStat_still p n (by decide) s).trans (energy_still _ p _ _ _ _)
  unfold rxCounted
  dsimp only
  split
  · exact whole.trans (macStat_still p 1 (by decide) _)
  · exact whole

theorem rxCounted_counts (p n : Nat) (express : Bool) (s : State) :
    Counts (Reg.MAC_STAT_LO p 1) n s (rxCounted p n express s) := by
  have whole : Counts (Reg.MAC_STAT_LO p 1) n s (energy (stationOf p) 2 0 (macStat p 1 n s)) :=
    counts_macStat p n (k := 1) (by decide) s
  unfold rxCounted
  dsimp only
  split
  · rw [Counts, cntGet_macStat_ne p 1 (by decide) (by decide) (by decide)]
    exact whole
  · exact whole

theorem rxCounted_stat (p n : Nat) (express : Bool) (s : State) {k : Nat} (hk : k < 72) (h1 : k ≠ 1) (h26 : k ≠ 26) :
    (rxCounted p n express s).cntGet (Reg.MAC_STAT_LO p k) = s.cntGet (Reg.MAC_STAT_LO p k) := by
  have whole : (energy (stationOf p) 2 0 (macStat p 1 n s)).cntGet (Reg.MAC_STAT_LO p k) = s.cntGet (Reg.MAC_STAT_LO p k) :=
    cntGet_macStat_ne p n h1 hk (by decide) s
  unfold rxCounted
  dsimp only
  split
  · rw [cntGet_macStat_ne p 1 h26 hk (by decide), whole]
  · exact whole

theorem quiet_le_rx (a : Nat) (h : QuietReg a) : RxReg a := .inl h
theorem stat_le_rx (a : Nat) (h : StatReg a) : RxReg a := .inr h
theorem cell_le_quiet (a : Nat) (h : CellReg a) : QuietReg a := .inl h
theorem fec_le_quiet (a : Nat) (h : FecReg a) : QuietReg a := .inr (.inr h)
theorem xoff_le_quiet (a : Nat) (h : XoffReg a) : QuietReg a := .inr (.inl h)

/-! ### A frame that REORDER holds -/

/-- From s to t frames have entered lanes or left REORDER: no register, no port and no cell is other than it was. -/
structure LanesOnly (s t : State) : Prop where
  regs : t.regs = s.regs
  mem : t.mem = s.mem
  ports : t.ports = s.ports
  core : ∀ st, (t.stn st).core = (s.stn st).core

theorem LanesOnly.trans {s t u : State} (h : LanesOnly s t) (k : LanesOnly t u) : LanesOnly s u :=
  ⟨k.regs.trans h.regs, k.mem.trans h.mem, k.ports.trans h.ports, fun st => (k.core st).trans (h.core st)⟩

theorem laneEnqueue_lanesOnly (st : Nat) (f : Frame) (s : State) : LanesOnly s (laneEnqueue st f s) := by
  refine ⟨rfl, rfl, rfl, fun n => ?_⟩
  by_cases e : n = st
  · rw [e, laneEnqueue, State.modTasks, State.stn_modStn_same]
  · rw [laneEnqueue, State.modTasks, State.stn_modStn_ne _ e]

/-- The frames that REORDER holds, those of port p one completion nearer their token. -/
def heldNearer (p : Nat) (s : State) : List HeldRx :=
  s.tinker.heldRx.map fun h => if h.port = p then { h with left := h.left - 1 } else h

/-- A frame of port p that is held no longer. -/
def heldDue (p : Nat) (h : HeldRx) : Bool := h.port == p && h.left == 0

theorem heldStep_eq (p : Nat) (s : State) : heldStep p s =
    ((heldNearer p s).filter (heldDue p)).foldl (fun s h => laneEnqueue (stationOf p) h.frame s)
      { s with tinker := { s.tinker with heldRx := (heldNearer p s).filter fun h => !heldDue p h } } := rfl

theorem heldStep_frame (p : Nat) (s : State) : LanesOnly s (heldStep p s) := by
  have enter (l : List HeldRx) (u : State) : LanesOnly u (l.foldl (fun s h => laneEnqueue (stationOf p) h.frame s) u) := by
    induction l generalizing u with
    | nil => exact ⟨rfl, rfl, rfl, fun _ => rfl⟩
    | cons h l ih => exact (laneEnqueue_lanesOnly (stationOf p) h.frame u).trans (ih _)
  have left : LanesOnly s { s with tinker := { s.tinker with heldRx := (heldNearer p s).filter fun h => !heldDue p h } } :=
    ⟨rfl, rfl, rfl, fun _ => rfl⟩
  rw [heldStep_eq]
  exact left.trans (enter _ _)

/-- With no frame of the port held none waits for its token now. -/
theorem heldStep_stations {p : Nat} {s : State} (none : ∀ h ∈ s.tinker.heldRx, h.port ≠ p) :
    (heldStep p s).stations = s.stations := by
  have due : (heldNearer p s).filter (heldDue p) = [] := by
    refine List.filter_eq_nil_iff.2 fun h hh => ?_
    obtain ⟨g, hg, rfl⟩ := List.mem_map.1 hh
    simp [heldDue, none g hg]
  rw [heldStep_eq, due]
  rfl

theorem RxFollows.none_held {N : Nat → Prop} {p : Nat} {s t : State} (h : RxFollows N p s t)
    (none : ∀ h ∈ s.tinker.heldRx, h.port ≠ p) : ∀ h ∈ t.tinker.heldRx, h.port ≠ p := by
  intro x hx
  have listed : (x.port, x.left) ∈ s.tinker.heldRx.map fun h => (h.port, h.left) :=
    h.held ▸ List.mem_map.2 ⟨x, hx, rfl⟩
  obtain ⟨y, hy, e⟩ := List.mem_map.1 listed
  have port : y.port = x.port := congrArg Prod.fst e
  exact port ▸ none y hy

/-! ### A bad frame -/

/-- A bad frame counts in counter k, and is dropped. -/
def rxBad (p k : Nat) (a : Arrival) (s : State) : State :=
  evDrop (stationOf p) (s.portGuild p) (arrivalFree (stationOf p) (localOf p) a (macStat p k 1 s))

/-- The counter of the first row of Table 04.2 whose condition holds. -/
def badCounter (rx : RxFrame) (lost : Bool) (limit n : Nat) : Nat :=
  if lost then 13 else if rx.codeError then 8
  else if n < 64 then (if rx.fcsGood then 9 else 10)
  else if limit < n then (if rx.fcsGood then 11 else 12) else 7

theorem badCounter_range (rx : RxFrame) (lost : Bool) (limit n : Nat) :
    7 ≤ badCounter rx lost limit n ∧ badCounter rx lost limit n ≤ 13 := by
  unfold badCounter
  split_ifs <;> decide

/-- A condition of the first five rows of Table 04.2 holds. -/
def Bad (rx : RxFrame) (lost : Bool) (limit n : Nat) : Prop :=
  lost = true ∨ rx.codeError = true ∨ n < 64 ∨ limit < n ∨ rx.fcsGood = false

theorem rxJudge_bad (p : Nat) {rx : RxFrame} {lost : Bool} {limit : Nat} (pt : Nat) (a : Arrival) {b : List Byte} (s : State)
    (bad : Bad rx lost limit (b.length + 4)) :
    rxJudge p rx lost limit pt a b s = rxBad p (badCounter rx lost limit (b.length + 4)) a s := by
  unfold rxJudge badCounter
  dsimp only
  by_cases h1 : lost = true
  · rw [if_pos h1, if_pos h1]; rfl
  by_cases h2 : rx.codeError = true
  · rw [if_neg h1, if_neg h1, if_pos h2, if_pos h2]; rfl
  by_cases h3 : b.length + 4 < 64
  · rw [if_neg h1, if_neg h1, if_neg h2, if_neg h2, if_pos h3, if_pos h3]; rfl
  by_cases h4 : limit < b.length + 4
  · rw [if_neg h1, if_neg h1, if_neg h2, if_neg h2, if_neg h3, if_neg h3, if_pos h4, if_pos h4]; rfl
  have h5 : rx.fcsGood = false := by simpa [Bad, h1, h2, h3, h4] using bad
  rw [if_neg h1, if_neg h1, if_neg h2, if_neg h2, if_neg h3, if_neg h3, if_neg h4, if_neg h4, h5]
  rfl

/-- A frame that no row bars is a MAC control frame, or is steered. -/
theorem rxJudge_good (p : Nat) {rx : RxFrame} {lost : Bool} {limit : Nat} (pt : Nat) (a : Arrival) {b : List Byte} (s : State)
    (good : ¬ Bad rx lost limit (b.length + 4)) : rxJudge p rx lost limit pt a b s =
      let t := readTags (macTpids s p) b
      if t.etype = 0x8808 then
        ctlReceive p b t.off (rxGoodCount p b t.tagged (arrivalFree (stationOf p) (localOf p) a s))
      else rxSteered p pt a b t s := by
  simp only [Bad, not_or, Bool.not_eq_true, Bool.not_eq_false] at good
  obtain ⟨h1, h2, h3, h4, h5⟩ := good
  unfold rxJudge
  simp only [h1, h2, h3, h4, h5, Bool.false_eq_true, if_false, Bool.not_true]

theorem rxBad_spec {p k : Nat} (hk : k < 41) {a : Arrival} {s : State} {P₀ : Pools}
    (arrived : Arrived P₀ a (pools s (stationOf p))) : let t := rxBad p k a s
    RxFollows RxReg p s t ∧ pools t (stationOf p) = P₀ ∧ Counts (Reg.MAC_STAT_LO p k) 1 s t ∧
      ∀ j < 41, j ≠ k → t.cntGet (Reg.MAC_STAT_LO p j) = s.cntGet (Reg.MAC_STAT_LO p j) := by
  have counted := macStat_still p 1 (show k < 72 by omega) s
  have freed := (arrivalFree_follows p (stationOf p) (localOf p) a (macStat p k 1 s)).mono xoff_le_quiet
  have dropped := (evDrop_still p (stationOf p) (s.portGuild p)
    (arrivalFree (stationOf p) (localOf p) a (macStat p k 1 s))).mono cell_le_quiet
  have quiet := freed.trans dropped.toRxFollows
  refine ⟨(counted.toRxFollows.mono stat_le_rx).trans (quiet.mono quiet_le_rx), ?_, ?_, fun j hj ne => ?_⟩
  · rw [rxBad, dropped.pools]
    exact Arrived.freed (by rwa [counted.pools])
  · rw [Counts, ← counts_macStat p 1 (show k < 72 by omega) s]
    exact quiet.stat hk
  · exact (quiet.stat hj).trans (cntGet_macStat_ne p 1 ne (by omega) (by omega) s)

end Sys2Proof.Machine

/-! SUPPORT. RX_FRAME_COMPLETE (R80): where what is received goes (R73, R74), a frame at the express MAC until it is judged,
and a bad one's end. -/
namespace Sys2Proof.Machine

/-! ### Where it goes -/

section
variable {s : State} {p : Port} {rx : RxFrame}

theorem exec_rxFrameComplete_far (hs : s.running) (state : s.linkState p.val = 6) (far : farEnd s p.val = true)
    (frame : rx.mpackets = []) : exec (.rxFrameComplete p rx) s =
      .next (if generating s p.val then s else s.emit (.frame p.val rx.bytes rx.fcsGood)) := by
  change execRxFrameComplete p rx s = _
  simp only [execRxFrameComplete, act_running hs, state, far, and_self, if_true, farSend, frame, List.isEmpty_nil,
    ballOut_of_not_nearEnd (not_nearEnd_of_farEnd far)]

theorem exec_rxFrameComplete_down (hs : s.running) (down : s.linkUp p.val = false) (state : s.linkState p.val ≠ 6)
    (lost : rx.linkLost = false) : exec (.rxFrameComplete p rx) s = .next s := by
  change execRxFrameComplete p rx s = _
  simp only [execRxFrameComplete, act_running hs, state, false_and, if_false, down, lost, Bool.not_false, Bool.and_self,
    if_true]

theorem exec_rxFrameComplete_loopEmpty (hs : s.running) (up : s.linkUp p.val = true) (near : nearEnd s p.val = true)
    (none : (s.port p.val).mac.loop = []) : exec (.rxFrameComplete p rx) s = .next s := by
  change execRxFrameComplete p rx s = _
  simp only [execRxFrameComplete, act_running hs, linkState_ne_of_linkUp up, false_and, if_false, up, Bool.not_true,
    Bool.false_and, Bool.false_eq_true, near, if_true, none, List.head?_nil]

theorem exec_rxFrameComplete_up (hs : s.running) (up : s.linkUp p.val = true) (near : nearEnd s p.val = false) :
    exec (.rxFrameComplete p rx) s = .next (rxReceive p.val rx s) := by
  change execRxFrameComplete p rx s = _
  simp only [execRxFrameComplete, act_running hs, linkState_ne_of_linkUp up, false_and, if_false, up, Bool.not_true,
    Bool.false_and, Bool.false_eq_true, near]

end

/-- Whether a port that receives is leaving UP. -/
def rxLost (s : State) (p : Nat) (rx : RxFrame) : Bool := rx.linkLost || s.linkState p == 5 || (s.port p).link.stopping

/-- From s to t nothing has changed that a frame's limit and its timestamp point follow. -/
structure RxTimes (p : Nat) (s t : State) : Prop where
  rd : ∀ a, ¬ RxReg a → t.rd a = s.rd a
  now : t.now = s.now
  varve : t.varve = s.varve
  limits : (t.port p).mac.limits = (s.port p).mac.limits

theorem RxFollows.times {p : Nat} {s t : State} (h : RxFollows RxReg p s t) : RxTimes p s t := ⟨h.rd, h.now, h.varve, h.limits⟩

theorem RxTimes.trans {p : Nat} {s t u : State} (h : RxTimes p s t) (k : RxTimes p t u) : RxTimes p s u :=
  ⟨fun a ha => (k.rd a ha).trans (h.rd a ha), k.now.trans h.now, k.varve.trans h.varve, k.limits.trans h.limits⟩

theorem RxTimes.limit {p : Nat} {s t : State} (h : RxTimes p s t) (age : Nat) : maxLenAt t p age = maxLenAt s p age := by
  have cfg : t.maxLen p = s.maxLen p :=
    congrArg (clampNat 1518 16000) (State.get_of_rd (h.rd (Reg.MAC_CFG p) (not_rxReg_macAt p (o := 0) (by decide))) _)
  rw [maxLenAt, maxLenAt, h.limits, h.now, cfg]

theorem RxTimes.point {p : Nat} {s t : State} (h : RxTimes p s t) (age : Nat) : rxPoint t p age = rxPoint s p age := by
  have out : ¬ RxReg (laneAt p 0x28) := mt (rxReg_laneAt p (by decide)).1 (by decide)
  have lat := State.get_of_rd (h.rd (Reg.LANE_LAT_RX p) out) Fld.LANE_LAT_RX_LAT
  simp only [rxPoint, lat, h.now, h.varve, State.vt]

theorem fecCount_follows (p corrected : Nat) (symbols : List Nat) (s : State) :
    RxFollows RxReg p s (fecCount p corrected symbols s) :=
  (fecCount_still p corrected symbols s).toRxFollows.mono fun _ h => .inl (.inr (.inr h))

theorem rxReceive_frame {p : Nat} {rx : RxFrame} (s : State) (frame : rx.mpackets = []) : rxReceive p rx s =
    rxWhole p rx (rxLost s p rx) true (maxLenAt s p rx.sfdAge) (rxPoint s p rx.sfdAge) {} rx.bytes
      (fecCount p rx.fecCorrected rx.fecSymbols s) := by
  have follows := fecCount_follows p rx.fecCorrected rx.fecSymbols s
  rw [rxReceive, frame, ← follows.times.limit, ← follows.times.point]
  rfl

/-! ### A frame that is whole, before it is judged -/

/-- What a frame of n octets at the express MAC leaves before it is judged, with the cells that it has. -/
def rxCome (p : Nat) (rx : RxFrame) (limit n : Nat) (s : State) : Arrival × State :=
  rxArrive p limit n {} (rxCounted p n true (fecCount p rx.fecCorrected rx.fecSymbols s))

theorem rxWhole_come (p : Nat) (rx : RxFrame) (lost : Bool) (limit pt : Nat) (b : List Byte) (s : State) :
    rxWhole p rx lost true limit pt {} b (fecCount p rx.fecCorrected rx.fecSymbols s) =
      heldStep p (rxJudge p rx lost limit pt (rxCome p rx limit (b.length + 4) s).1 b (rxCome p rx limit (b.length + 4) s).2) :=
  rfl

section
variable (p : Nat) (rx : RxFrame) (limit n : Nat) (s : State)

theorem rxCome_follows : RxFollows RxReg p s (rxCome p rx limit n s).2 := by
  have corrected := fecCount_follows p rx.fecCorrected rx.fecSymbols s
  have counted := (rxCounted_still p n true (fecCount p rx.fecCorrected rx.fecSymbols s)).toRxFollows.mono stat_le_rx
  exact corrected.trans (counted.trans ((arrive_follows p _ _ _ _ _).mono quiet_le_rx))

theorem rxCome_counts : Counts (Reg.MAC_STAT_LO p 1) n s (rxCome p rx limit n s).2 := by
  have corrected := ((fecCount_still p rx.fecCorrected rx.fecSymbols s).toRxFollows.mono fec_le_quiet).stat (k := 1) (by decide)
  rw [Counts, ← corrected, ← rxCounted_counts p n true]
  exact (arrive_follows p _ _ _ _ _).stat (by decide)

theorem rxCome_stat {k : Nat} (hk : k < 41) (h1 : k ≠ 1) (h26 : k ≠ 26) :
    (rxCome p rx limit n s).2.cntGet (Reg.MAC_STAT_LO p k) = s.cntGet (Reg.MAC_STAT_LO p k) := by
  have corrected := ((fecCount_still p rx.fecCorrected rx.fecSymbols s).toRxFollows.mono fec_le_quiet).stat hk
  have counted := rxCounted_stat p n true (fecCount p rx.fecCorrected rx.fecSymbols s) (show k < 72 by omega) h1 h26
  exact ((arrive_follows p _ _ _ _ _).stat hk).trans (counted.trans corrected)

theorem rxCome_arrived :
    Arrived (pools s (stationOf p)) (rxCome p rx limit n s).1 (pools (rxCome p rx limit n s).2 (stationOf p)) ∧
    (rxCome p rx limit n s).1.cells.length = min (cellsOf (min n (limit + 256))) (cellsFree s (stationOf p)) := by
  have still := (fecCount_still p rx.fecCorrected rx.fecSymbols s).pools (stationOf p)
  have still' := (rxCounted_still p n true (fecCount p rx.fecCorrected rx.fecSymbols s)).pools (stationOf p)
  have same : pools (rxCounted p n true (fecCount p rx.fecCorrected rx.fecSymbols s)) (stationOf p) = pools s (stationOf p) :=
    still'.trans still
  have free : cellsFree (rxCounted p n true (fecCount p rx.fecCorrected rx.fecSymbols s)) (stationOf p) =
      cellsFree s (stationOf p) := congrArg (fun x : Pools => 32768 - x.taken.length) same
  obtain ⟨arrived, length⟩ := arrive_arrived (stationOf p) (localOf p) (min n (limit + 256))
    (rxCounted p n true (fecCount p rx.fecCorrected rx.fecSymbols s))
  rw [same] at arrived
  rw [free] at length
  exact ⟨arrived, length⟩

end

/-! ### A bad frame's end -/

theorem sameCells_of_pools {st : Nat} {s t : State} (h : pools t st = pools s st) : SameCells st s t :=
  ⟨congrArg Pools.taken h, congrArg Pools.laneX h, congrArg Pools.laneN h⟩

/-- A frame that leaves the station as it was leaves it so when what REORDER holds has moved on. -/
theorem heldStep_cells {p : Nat} {s t : State}
    (held : (∀ h ∈ s.tinker.heldRx, h.port ≠ p) → ∀ h ∈ t.tinker.heldRx, h.port ≠ p)
    (same : pools t (stationOf p) = pools s (stationOf p)) :
    ((heldStep p t).stn (stationOf p)).core.taken = (s.stn (stationOf p)).core.taken ∧
      ((∀ h ∈ s.tinker.heldRx, h.port ≠ p) → SameCells (stationOf p) s (heldStep p t)) := by
  have core := (heldStep_frame p t).core
  refine ⟨by rw [core]; exact congrArg Pools.taken same, fun none => sameCells_of_pools ?_⟩
  rw [pools_of_stations (heldStep_stations (held none)), same]

theorem heldStep_cntGet (p a : Nat) (s : State) : (heldStep p s).cntGet a = s.cntGet a :=
  State.cntGet_of_rd (State.rd_of_regs (heldStep_frame p s).regs _) (State.rd_of_regs (heldStep_frame p s).regs _)

/-- RX_FRAME_COMPLETE of a bad frame (rows 1 to 5 of Table 04.2). -/
theorem rxReceive_bad {p : Nat} {rx : RxFrame} (s : State) (frame : rx.mpackets = []) {limit : Nat}
    (hl : maxLenAt s p rx.sfdAge = limit) (bad : Bad rx (rxLost s p rx) limit (rx.bytes.length + 4)) :
    let t := rxReceive p rx s
    Counts (Reg.MAC_STAT_LO p 1) (rx.bytes.length + 4) s t ∧ SameMem s t ∧
      (t.stn (stationOf p)).core.taken = (s.stn (stationOf p)).core.taken ∧
      ((∀ h ∈ s.tinker.heldRx, h.port ≠ p) → SameCells (stationOf p) s t) ∧
      Counts (Reg.MAC_STAT_LO p (badCounter rx (rxLost s p rx) limit (rx.bytes.length + 4))) 1 s t := by
  have range := badCounter_range rx (rxLost s p rx) limit (rx.bytes.length + 4)
  have come := rxCome_follows p rx limit (rx.bytes.length + 4) s
  have octets := rxCome_counts p rx limit (rx.bytes.length + 4) s
  obtain ⟨arrived, -⟩ := rxCome_arrived p rx limit (rx.bytes.length + 4) s
  obtain ⟨gone, freed, counts, others⟩ := rxBad_spec (p := p)
    (k := badCounter rx (rxLost s p rx) limit (rx.bytes.length + 4)) (by omega) arrived
  obtain ⟨cells, lanes⟩ := heldStep_cells (come.trans gone).none_held freed
  dsimp only
  rw [rxReceive_frame s frame, hl, rxWhole_come, rxJudge_bad _ _ _ _ bad]
  refine ⟨?_, fun a => ?_, cells, lanes, ?_⟩
  · rw [Counts, heldStep_cntGet, others 1 (by decide) (by omega), octets]
  · rw [(heldStep_frame p _).mem, (come.trans gone).mem]
  · rw [Counts, heldStep_cntGet, counts, rxCome_stat _ _ _ _ _ (by omega) (by omega) (by omega)]

end Sys2Proof.Machine

/-! SUPPORT. A good frame's counters (R96), and the MAC control frames that pause a port's classes (R86 to R89). -/
namespace Sys2Proof.Machine

/-! ### A good frame's counters -/

theorem goodKind_range (b : List Byte) : 3 ≤ 3 + daKind b ∧ 3 + daKind b ≤ 5 := by
  unfold daKind
  split_ifs <;> decide

theorem goodSize_range (n : Nat) : 31 ≤ 31 + sizeBin n ∧ 31 + sizeBin n ≤ 40 := by
  unfold sizeBin
  split_ifs <;> decide

/-- The counters of a good frame but for that of its tag. -/
def goodCounted (p : Nat) (b : List Byte) (s : State) : State :=
  macStat p 0 (b.length + 4) (macStat p 2 1 (macStat p (3 + daKind b) 1 (macStat p (31 + sizeBin (b.length + 4)) 1 s)))

theorem rxGoodCount_eq (p : Nat) (b : List Byte) (tagged : Bool) (s : State) :
    rxGoodCount p b tagged s = if tagged then macStat p 6 1 (goodCounted p b s) else goodCounted p b s := rfl

section
variable (p : Nat) (b : List Byte) (tagged : Bool) (s : State)

theorem goodCounted_still : RxStill StatReg p s (goodCounted p b s) := by
  obtain ⟨-, kind⟩ := goodKind_range b
  obtain ⟨-, size⟩ := goodSize_range (b.length + 4)
  exact (macStat_still p 1 (by omega) s).trans ((macStat_still p 1 (by omega) _).trans
    ((macStat_still p 1 (by decide) _).trans (macStat_still p _ (by decide) _)))

theorem rxGoodCount_still : RxStill StatReg p s (rxGoodCount p b tagged s) := by
  rw [rxGoodCount_eq]
  split
  · exact (goodCounted_still p b s).trans (macStat_still p 1 (by decide) _)
  · exact goodCounted_still p b s

/-- Beside the counters of good frames others stay. -/
theorem rxGoodCount_stat {k : Nat} (hk : k = 1 ∨ 7 ≤ k ∧ k < 31) :
    (rxGoodCount p b tagged s).cntGet (Reg.MAC_STAT_LO p k) = s.cntGet (Reg.MAC_STAT_LO p k) := by
  obtain ⟨kind, kind'⟩ := goodKind_range b
  obtain ⟨size, size'⟩ := goodSize_range (b.length + 4)
  have good : (goodCounted p b s).cntGet (Reg.MAC_STAT_LO p k) = s.cntGet (Reg.MAC_STAT_LO p k) := by
    simp (disch := omega) only [goodCounted, cntGet_macStat_ne]
  rw [rxGoodCount_eq]
  split
  · rw [cntGet_macStat_ne p 1 (by omega) (by omega) (by decide), good]
  · exact good

theorem rxGoodCount_counts : Counts (Reg.MAC_STAT_LO p 2) 1 s (rxGoodCount p b tagged s) ∧
    Counts (Reg.MAC_STAT_LO p 0) (b.length + 4) s (rxGoodCount p b tagged s) := by
  obtain ⟨kind, kind'⟩ := goodKind_range b
  obtain ⟨size, size'⟩ := goodSize_range (b.length + 4)
  have first {k : Nat} (h : k < 3) : (macStat p (3 + daKind b) 1 (macStat p (31 + sizeBin (b.length + 4)) 1 s)).cntGet
      (Reg.MAC_STAT_LO p k) = s.cntGet (Reg.MAC_STAT_LO p k) := by
    simp (disch := omega) only [cntGet_macStat_ne]
  have frames : Counts (Reg.MAC_STAT_LO p 2) 1 s (goodCounted p b s) := by
    rw [goodCounted, Counts, cntGet_macStat_ne p _ (by decide) (by decide) (by decide), ← first (show 2 < 3 by decide)]
    exact counts_macStat p 1 (by decide) _
  have octets : Counts (Reg.MAC_STAT_LO p 0) (b.length + 4) s (goodCounted p b s) := by
    have second := cntGet_macStat_ne p 1 (show 0 ≠ 2 by decide) (by decide) (by decide)
      (macStat p (3 + daKind b) 1 (macStat p (31 + sizeBin (b.length + 4)) 1 s))
    rw [Counts, ← first (show 0 < 3 by decide), ← second]
    exact counts_macStat p _ (k := 0) (by decide) _
  rw [rxGoodCount_eq]
  split
  · constructor
    · rw [Counts, cntGet_macStat_ne p 1 (by decide) (by decide) (by decide), frames]
    · rw [Counts, cntGet_macStat_ne p 1 (by decide) (by decide) (by decide), octets]
  · exact ⟨frames, octets⟩

end

/-! ### Pause times of several classes -/

/-- The classes of l that g names take new pause times. -/
def pauseSets (p : Nat) (g : Nat → Bool) (q : Nat → Nat) (l : List Nat) (s : State) : State :=
  l.foldl (fun s c => if g c then pauseSet p c (q c) s else s) s

theorem pauseSets_only (p : Nat) (g : Nat → Bool) (q : Nat → Nat) (l : List Nat) (s : State) :
    pauseSets p g q l s = { s with ports := (pauseSets p g q l s).ports } := by
  induction l generalizing s with
  | nil => rfl
  | cons c l ih =>
    rw [pauseSets, List.foldl_cons]
    refine (ih _).trans ?_
    split <;> rfl

theorem aget?_pauseSets (p : Nat) (g : Nat → Bool) (q : Nat → Nat) (l : List Nat) (c : Nat) (s : State) :
    aget? c ((pauseSets p g q l s).port p).mac.pause =
      if c ∈ l ∧ g c = true then (if q c = 0 then none else some (q c)) else aget? c (s.port p).mac.pause := by
  induction l generalizing s with
  | nil => simp [pauseSets]
  | cons d l ih =>
    have step : aget? c ((if g d then pauseSet p d (q d) s else s).port p).mac.pause =
        if c = d ∧ g c = true then (if q c = 0 then none else some (q c)) else aget? c (s.port p).mac.pause := by
      by_cases e : c = d
      · subst e
        cases g c
        · simp
        · simp [aget?_pauseSet_same]
      · have other : ¬ (c = d ∧ g c = true) := fun h => e h.1
        rw [if_neg other]
        split
        · exact aget?_pauseSet_ne p _ e s
        · rfl
    rw [pauseSets, List.foldl_cons]
    refine (ih _).trans ?_
    rw [step]
    by_cases hl : c ∈ l ∧ g c = true
    · have all : c ∈ d :: l ∧ g c = true := ⟨List.mem_cons_of_mem _ hl.1, hl.2⟩
      rw [if_pos hl, if_pos all]
    · rw [if_neg hl]
      refine if_congr ?_ rfl rfl
      simp only [List.mem_cons]
      tauto

/-! ### What a port has been set to -/

namespace RxFollows
variable {p : Nat} {s t : State} (h : RxFollows RxReg p s t)
include h

theorem macSa : macSa t p = macSa s p := by
  have hi := h.rd (Reg.MAC_SA_HI p) (not_rxReg_macAt p (o := 0x2c) (by decide))
  have lo := h.rd (Reg.MAC_SA_LO p) (not_rxReg_macAt p (o := 0x28) (by decide))
  rw [Machine.macSa, Machine.macSa, State.get_of_rd hi, State.rdN, State.rdN, lo]

theorem fcCfg : t.rd (Reg.MAC_FC_CFG p) = s.rd (Reg.MAC_FC_CFG p) :=
  h.rd _ (not_rxReg_macAt p (o := 0xc) (by decide))

theorem fcMode : fcMode t p = fcMode s p := by rw [Machine.fcMode, Machine.fcMode, State.get_of_rd h.fcCfg]

theorem fcFollows : fcFollows t p = fcFollows s p := by
  rw [Machine.fcFollows, Machine.fcFollows, State.getB_of_rd h.fcCfg, h.link]

theorem pauseRxOn : pauseRxOn t p = pauseRxOn s p := by
  have an : t.getB (Reg.MAC_FC_STATUS p) Fld.MAC_FC_STATUS_AN_RX = s.getB (Reg.MAC_FC_STATUS p) Fld.MAC_FC_STATUS_AN_RX :=
    congrArg (· != 0) (h.fc _ (by decide))
  rw [Machine.pauseRxOn, Machine.pauseRxOn, h.fcFollows, an, State.getB_of_rd h.fcCfg]

theorem pauseTxOn : pauseTxOn t p = pauseTxOn s p := by
  have an : t.getB (Reg.MAC_FC_STATUS p) Fld.MAC_FC_STATUS_AN_TX = s.getB (Reg.MAC_FC_STATUS p) Fld.MAC_FC_STATUS_AN_TX :=
    congrArg (· != 0) (h.fc _ (by decide))
  rw [Machine.pauseTxOn, Machine.pauseTxOn, h.fcFollows, an, State.getB_of_rd h.fcCfg]

theorem macTpids : macTpids t p = macTpids s p := by
  have tpid := h.rd (Reg.MAC_TPID p) (not_rxReg_macAt p (o := 4) (by decide))
  rw [Machine.macTpids, Machine.macTpids, State.getB_of_rd tpid, State.get_of_rd tpid]

end RxFollows

/-! ### A MAC control frame -/

/-- Every frame of a class in a vector counts in its counter. -/
def pfcCounted (p v : Nat) (l : List Nat) (s : State) : State :=
  l.foldl (fun s c => if v.testBit c then macStat p (15 + c) 1 s else s) s

theorem pfcCounted_still (p v : Nat) {l : List Nat} (hl : ∀ c ∈ l, c < 8) (s : State) :
    RxStill StatReg p s (pfcCounted p v l s) := by
  refine .foldl (fun t c hc => ?_) s
  have := hl c hc
  split
  · exact macStat_still p 1 (by omega) t
  · exact .refl _ p t

theorem pfcCounted_stat (p v : Nat) {l : List Nat} (hl : ∀ c ∈ l, c < 8) {k : Nat} (hk : k < 72) (hk' : ∀ c ∈ l, k ≠ 15 + c)
    (s : State) : (pfcCounted p v l s).cntGet (Reg.MAC_STAT_LO p k) = s.cntGet (Reg.MAC_STAT_LO p k) := by
  induction l generalizing s with
  | nil => rfl
  | cons c l ih =>
    have := hl c List.mem_cons_self
    rw [pfcCounted, List.foldl_cons]
    refine (ih (fun d hd => hl d (List.mem_cons_of_mem _ hd)) (fun d hd => hk' d (List.mem_cons_of_mem _ hd)) _).trans ?_
    split
    · exact cntGet_macStat_ne p 1 (hk' c List.mem_cons_self) hk (by omega) s
    · rfl

theorem pfcCounted_counts (p v : Nat) {l : List Nat} (hl : ∀ c ∈ l, c < 8) (once : l.Nodup) {c : Nat} (hc : c ∈ l) (s : State) :
    Counts (Reg.MAC_STAT_LO p (15 + c)) (if v.testBit c then 1 else 0) s (pfcCounted p v l s) := by
  induction l generalizing s with
  | nil => exact absurd hc List.not_mem_nil
  | cons d l ih =>
    obtain ⟨out, once⟩ := List.nodup_cons.1 once
    have below (e : Nat) (he : e ∈ l) := hl e (List.mem_cons_of_mem _ he)
    have hd := hl d List.mem_cons_self
    rw [pfcCounted, List.foldl_cons, Counts]
    rcases List.mem_cons.1 hc with rfl | hc
    · refine (pfcCounted_stat p v below (by omega) (fun e he => ?_) _).trans ?_
      · rintro h
        exact out ((Nat.add_left_cancel h) ▸ he)
      · split
        · exact counts_macStat p 1 (by omega) s
        · exact (Nat.mod_eq_of_lt (s.cntGet_lt _)).symm
    · have hc' := below c hc
      have ne : c ≠ d := fun e => out (e ▸ hc)
      have first : (if v.testBit d then macStat p (15 + d) 1 s else s).cntGet (Reg.MAC_STAT_LO p (15 + c)) =
          s.cntGet (Reg.MAC_STAT_LO p (15 + c)) := by
        split
        · exact cntGet_macStat_ne p 1 (by omega) (by omega) (by omega) s
        · rfl
      rw [← first]
      exact ih below once hc _

/-- The time that a PFC frame names for a class. -/
def pfcTime (b : List Byte) (off c : Nat) : Nat := be b (off + 4 + 2 * c) 2

section
variable {p : Nat} {b : List Byte} {off : Nat} {s : State}

theorem ctlReceive_pause (op : be b off 2 = 1) (mine : be b 0 6 = 0x0180C2000001 ∨ be b 0 6 = beVal (macSa s p))
    (mode : fcMode s p = 1) (on : pauseRxOn s p = true) : ctlReceive p b off s =
      pauseShow p (pauseSets p (fun _ => true) (fun _ => be b (off + 2) 2) (List.range 7) (macStat p 14 1 s)) := by
  have still := (macStat_still p 1 (k := 14) (by decide) s).toRxFollows.mono stat_le_rx
  have own : (be b 0 6 == 0x0180C2000001 || be b 0 6 == beVal (macSa s p)) = true := by simpa using mine
  rw [ctlReceive, op]
  simp only [own, still.fcMode, still.pauseRxOn, mode, on, beq_self_eq_true, Bool.and_self, if_true, pauseSets]

theorem ctlReceive_pfc (op : be b off 2 = 0x101) (mine : be b 0 6 = 0x0180C2000001 ∨ be b 0 6 = beVal (macSa s p))
    (mode : fcMode s p = 2) : ctlReceive p b off s =
      let v := be b (off + 2) 2
      let en := s.get (Reg.MAC_FC_CFG p) Fld.MAC_FC_CFG_PFC_RX_EN
      pauseShow p (pauseSets p (fun c => v.testBit c && en.testBit c) (pfcTime b off) (List.range 7)
        (pfcCounted p v (List.range 8) s)) := by
  have still := (pfcCounted_still p (be b (off + 2) 2) (l := List.range 8) (fun c => List.mem_range.1) s).toRxFollows.mono
    stat_le_rx
  have own : (be b 0 6 == 0x0180C2000001 || be b 0 6 == beVal (macSa s p)) = true := by simpa using mine
  have mode' := still.fcMode.trans mode
  have en := State.get_of_rd still.fcCfg Fld.MAC_FC_CFG_PFC_RX_EN
  rw [ctlReceive, op]
  simp only [pfcCounted] at mode' en ⊢
  simp only [own, mode', en, beq_self_eq_true, Bool.and_self, if_true, pauseSets, pfcTime]

end

end Sys2Proof.Machine

/-! SUPPORT and the obligation O15: a pause frame and a PFC frame from their reception to their end (R86, R88, R89). -/
namespace Sys2Proof.Machine

/-- A good control frame of port p has been counted, its cells free again. -/
def rxFreed (p : Nat) (rx : RxFrame) (limit : Nat) (tagged : Bool) (s : State) : State :=
  let r := rxCome p rx limit (rx.bytes.length + 4) s
  rxGoodCount p rx.bytes tagged (arrivalFree (stationOf p) (localOf p) r.1 r.2)

theorem rxReceive_ctl {p : Nat} {rx : RxFrame} (s : State) (frame : rx.mpackets = []) {limit : Nat}
    (hl : maxLenAt s p rx.sfdAge = limit) (good : ¬ Bad rx (rxLost s p rx) limit (rx.bytes.length + 4))
    (type : (readTags (macTpids s p) rx.bytes).etype = 0x8808) :
    let tags := readTags (macTpids s p) rx.bytes
    rxReceive p rx s = heldStep p (ctlReceive p rx.bytes tags.off (rxFreed p rx limit tags.tagged s)) := by
  have tpids := (rxCome_follows p rx limit (rx.bytes.length + 4) s).macTpids
  rw [rxReceive_frame s frame, hl, rxWhole_come, rxJudge_good _ _ _ _ good, tpids]
  simp only [type, if_true]
  rfl

section
variable (p : Nat) (rx : RxFrame) (limit : Nat) (tagged : Bool) (s : State)

theorem rxFreed_follows : RxFollows RxReg p s (rxFreed p rx limit tagged s) :=
  (rxCome_follows p rx limit _ s).trans (((arrivalFree_follows p _ _ _ _).mono fun _ h => .inl (.inr (.inl h))).trans
    ((rxGoodCount_still p rx.bytes tagged _).toRxFollows.mono stat_le_rx))

theorem pools_rxFreed : pools (rxFreed p rx limit tagged s) (stationOf p) = pools s (stationOf p) := by
  rw [rxFreed, (rxGoodCount_still p rx.bytes tagged _).pools]
  exact (rxCome_arrived p rx limit _ s).1.freed

theorem rxFreed_counts : Counts (Reg.MAC_STAT_LO p 2) 1 s (rxFreed p rx limit tagged s) := by
  have come := rxCome_stat p rx limit (rx.bytes.length + 4) s (k := 2) (by decide) (by decide) (by decide)
  have freed := ((arrivalFree_follows p (stationOf p) (localOf p) (rxCome p rx limit (rx.bytes.length + 4) s).1
    (rxCome p rx limit (rx.bytes.length + 4) s).2).mono xoff_le_quiet).stat (k := 2) (by decide)
  rw [Counts, ← come, ← freed]
  exact (rxGoodCount_counts p rx.bytes tagged _).1

theorem rxFreed_stat {k : Nat} (hk : 7 ≤ k ∧ k < 26) :
    (rxFreed p rx limit tagged s).cntGet (Reg.MAC_STAT_LO p k) = s.cntGet (Reg.MAC_STAT_LO p k) := by
  have come := rxCome_stat p rx limit (rx.bytes.length + 4) s (k := k) (by omega) (by omega) (by omega)
  have freed := ((arrivalFree_follows p (stationOf p) (localOf p) (rxCome p rx limit (rx.bytes.length + 4) s).1
    (rxCome p rx limit (rx.bytes.length + 4) s).2).mono xoff_le_quiet).stat (k := k) (by omega)
  exact (rxGoodCount_stat p rx.bytes tagged _ (by omega)).trans (freed.trans come)

end

/-! ### Pauses that are set and shown -/

/-- Classes of l that g names take new pause times, and RX_PAUSED shows them, as the frame ends. -/
def pausesEnd (p : Nat) (g : Nat → Bool) (q : Nat → Nat) (s : State) : State :=
  heldStep p (pauseShow p (pauseSets p g q (List.range 7) s))

section
variable (p : Nat) (g : Nat → Bool) (q : Nat → Nat) (s : State)

theorem pausesEnd_pause (c : Nat) : aget? c ((pausesEnd p g q s).port p).mac.pause =
    if c ∈ List.range 7 ∧ g c = true then (if q c = 0 then none else some (q c)) else aget? c (s.port p).mac.pause := by
  have ports : (pausesEnd p g q s).port p = (pauseSets p g q (List.range 7) s).port p := by
    rw [State.port, pausesEnd, (heldStep_frame p _).ports]
    rfl
  rw [ports, aget?_pauseSets]

theorem pausesEnd_seven : aget? 7 ((pausesEnd p g q s).port p).mac.pause = aget? 7 (s.port p).mac.pause := by
  rw [pausesEnd_pause, if_neg (by simp)]

theorem pausesEnd_shown {c : Nat} (hc : c < 8) :
    ((pausesEnd p g q s).get (Reg.MAC_FC_STATUS p) Fld.MAC_FC_STATUS_RX_PAUSED).testBit c =
      (aget? c ((pausesEnd p g q s).port p).mac.pause).isSome := by
  obtain ⟨regs, -, ports, -⟩ := heldStep_frame p (pauseShow p (pauseSets p g q (List.range 7) s))
  rw [pausesEnd, State.get_of_regs regs, pauseShow_spec p _ hc, State.port, State.port, ports]
  rfl

theorem pausesEnd_cntGet (k : Nat) :
    (pausesEnd p g q s).cntGet (Reg.MAC_STAT_LO p k) = s.cntGet (Reg.MAC_STAT_LO p k) := by
  have only := pauseSets_only p g q (List.range 7) s
  have regs : (pauseSets p g q (List.range 7) s).regs = s.regs := by rw [only]
  rw [pausesEnd, heldStep_cntGet]
  have rd {a : Nat} (ne : a ≠ Reg.MAC_FC_STATUS p) :
      (pauseShow p (pauseSets p g q (List.range 7) s)).rd a = s.rd a :=
    ((pauseShow_onlyRegsOf p _).2 a (mt List.mem_singleton.1 ne)).trans (State.rd_of_regs regs a)
  obtain ⟨lo, hi⟩ := macStatLo_ne_place p k (o := 0x14) (by decide)
  exact State.cntGet_of_rd (rd lo) (rd hi)

theorem pausesEnd_mem : (pausesEnd p g q s).mem = s.mem := by
  rw [pausesEnd, (heldStep_frame p _).mem]
  exact (congrArg State.mem (pauseSets_only p g q (List.range 7) s) :)

/-- Nothing of the station's cells. -/
theorem pausesEnd_cells {a : State} (held : (∀ h ∈ a.tinker.heldRx, h.port ≠ p) → ∀ h ∈ s.tinker.heldRx, h.port ≠ p)
    (same : pools s (stationOf p) = pools a (stationOf p)) :
    ((pausesEnd p g q s).stn (stationOf p)).core.taken = (a.stn (stationOf p)).core.taken ∧
      ((∀ h ∈ a.tinker.heldRx, h.port ≠ p) → SameCells (stationOf p) a (pausesEnd p g q s)) := by
  have only := pauseSets_only p g q (List.range 7) s
  have tinker : (pauseShow p (pauseSets p g q (List.range 7) s)).tinker = s.tinker := (congrArg State.tinker only :)
  have stations : (pauseShow p (pauseSets p g q (List.range 7) s)).stations = s.stations := (congrArg State.stations only :)
  exact heldStep_cells (fun none => by rw [tinker]; exact held none) ((pools_of_stations stations _).trans same)

end

/-! ### The two frames -/

theorem rxLost_of_up {s : State} {p : Nat} {rx : RxFrame} (state : s.linkState p = 4)
    (stopping : (s.port p).link.stopping = false) (linkLost : rx.linkLost = false) : rxLost s p rx = false := by
  simp [rxLost, linkLost, state, stopping]

/-- A frame that no row of Table 04.2 bars. -/
theorem not_bad {s : State} {p : Nat} {rx : RxFrame} {limit : Nat} (state : s.linkState p = 4)
    (stopping : (s.port p).link.stopping = false) (linkLost : rx.linkLost = false) (code : rx.codeError = false)
    (fcs : rx.fcsGood = true) (long : 60 ≤ rx.bytes.length) (fits : rx.bytes.length + 4 ≤ limit) :
    ¬ Bad rx (rxLost s p rx) limit (rx.bytes.length + 4) := by
  have lost := rxLost_of_up state stopping linkLost
  simp only [Bad, lost, code, fcs, Bool.false_eq_true, Bool.true_eq_false, false_or, or_false]
  omega

section
variable {s : State} {p : Port} {rx : RxFrame}

theorem pauseFrame_pauses (hs : s.running) (state : s.linkState p.val = 4) (near : nearEnd s p.val = false)
    (frame : rx.mpackets = []) {limit : Nat} (hl : maxLenAt s p.val rx.sfdAge = limit)
    (good : ¬ Bad rx (rxLost s p.val rx) limit (rx.bytes.length + 4)) :
    let tags := readTags (macTpids s p.val) rx.bytes
    tags.etype = 0x8808 → be rx.bytes tags.off 2 = 1 →
    (be rx.bytes 0 6 = 0x0180C2000001 ∨ be rx.bytes 0 6 = beVal (macSa s p.val)) → fcMode s p.val = 1 →
    pauseRxOn s p.val = true → exec (.rxFrameComplete p rx) s = .next
      (pausesEnd p.val (fun _ => true) (fun _ => be rx.bytes (tags.off + 2) 2)
        (macStat p.val 14 1 (rxFreed p.val rx limit tags.tagged s))) := by
  intro tags type op mine mode on
  have follows := rxFreed_follows p.val rx limit tags.tagged s
  rw [exec_rxFrameComplete_up hs (linkUp_iff.2 (.inl state)) near, rxReceive_ctl s frame hl good type,
    ctlReceive_pause op (by rwa [follows.macSa]) (follows.fcMode.trans mode) (follows.pauseRxOn.trans on)]
  rfl

theorem pfcFrame_pauses (hs : s.running) (state : s.linkState p.val = 4) (near : nearEnd s p.val = false)
    (frame : rx.mpackets = []) {limit : Nat} (hl : maxLenAt s p.val rx.sfdAge = limit)
    (good : ¬ Bad rx (rxLost s p.val rx) limit (rx.bytes.length + 4)) :
    let tags := readTags (macTpids s p.val) rx.bytes
    let v := be rx.bytes (tags.off + 2) 2
    let en := s.get (Reg.MAC_FC_CFG p.val) Fld.MAC_FC_CFG_PFC_RX_EN
    tags.etype = 0x8808 → be rx.bytes tags.off 2 = 0x101 →
    (be rx.bytes 0 6 = 0x0180C2000001 ∨ be rx.bytes 0 6 = beVal (macSa s p.val)) → fcMode s p.val = 2 →
    exec (.rxFrameComplete p rx) s = .next
      (pausesEnd p.val (fun c => v.testBit c && en.testBit c) (pfcTime rx.bytes tags.off)
        (pfcCounted p.val v (List.range 8) (rxFreed p.val rx limit tags.tagged s))) := by
  intro tags v en type op mine mode
  have follows := rxFreed_follows p.val rx limit tags.tagged s
  rw [exec_rxFrameComplete_up hs (linkUp_iff.2 (.inl state)) near, rxReceive_ctl s frame hl good type,
    ctlReceive_pfc op (by rwa [follows.macSa]) (follows.fcMode.trans mode)]
  dsimp only
  rw [State.get_of_rd follows.fcCfg]
  rfl

end

/-- Settles O15: received pauses through what a good frame leaves, and what expires and is refreshed by its own lemmas. -/
theorem pausesHoldClassesUntilTheyExpire : Obligations.PausesHoldClassesUntilTheyExpire := by
  unfold Obligations.PausesHoldClassesUntilTheyExpire
  refine ⟨fun s p rx hs state stopping near frame linkLost code fcs long fits => ?_,
    fun s p rx hs state stopping near frame linkLost code fcs long fits => ?_,
    fun s p c hs => pauseTimeExpiry_resumes hs c,
    fun s p hs may none mode off => pauseRefresh_pauses hs may none mode off,
    fun s p hs can may mode off => pauseRefresh_waits hs can may mode off,
    fun s p hs can => exec_pauseRefresh_of_not_can hs can,
    fun s p hs may none mode => pauseRefresh_pfc hs may none mode⟩
  · intro tags q type op mine mode on
    have good := not_bad state stopping linkLost code fcs long fits
    have freed := rxFreed_follows p.val rx (maxLenAt s p.val rx.sfdAge) tags.tagged s
    have still := macStat_still p.val 1 (k := 14) (by decide) (rxFreed p.val rx (maxLenAt s p.val rx.sfdAge) tags.tagged s)
    have follows := freed.trans (still.toRxFollows.mono stat_le_rx)
    obtain ⟨taken, cells⟩ := pausesEnd_cells p.val (fun _ => true) (fun _ => q) _
      follows.none_held ((still.pools _).trans (pools_rxFreed ..))
    refine ⟨_, pauseFrame_pauses hs state near frame rfl good type op mine mode on, fun c hc => ?_, ?_, ?_, ?_, fun a => ?_,
      taken, cells⟩
    · rw [pausesEnd_pause, if_pos ⟨List.mem_range.2 hc, rfl⟩]
    · rw [pausesEnd_seven, follows.pause]
    · rw [Counts, pausesEnd_cntGet, ← rxFreed_stat p.val rx _ _ s (k := 14) (by decide)]
      exact counts_macStat p.val 1 (by decide) _
    · rw [Counts, pausesEnd_cntGet, cntGet_macStat_ne _ _ (by decide) (by decide) (by decide)]
      exact rxFreed_counts ..
    · rw [pausesEnd_mem, follows.mem]
  · intro tags v time en type op mine mode
    have good := not_bad state stopping linkLost code fcs long fits
    have freed := rxFreed_follows p.val rx (maxLenAt s p.val rx.sfdAge) tags.tagged s
    have eight : ∀ c ∈ List.range 8, c < 8 := fun c => List.mem_range.1
    have still := pfcCounted_still p.val v eight (rxFreed p.val rx (maxLenAt s p.val rx.sfdAge) tags.tagged s)
    have follows := freed.trans (still.toRxFollows.mono stat_le_rx)
    obtain ⟨taken, -⟩ := pausesEnd_cells p.val (fun c => v.testBit c && en.testBit c) (pfcTime rx.bytes tags.off) _
      follows.none_held ((still.pools _).trans (pools_rxFreed ..))
    refine ⟨_, pfcFrame_pauses hs state near frame rfl good type op mine mode, fun c hc => ?_, ?_, fun c hc => ?_,
      fun c hc => ?_, ?_, fun a => ?_, taken⟩
    · rw [pausesEnd_pause, follows.pause]
      refine if_congr ?_ rfl rfl
      simp only [List.mem_range, hc, true_and, Bool.and_eq_true]
      exact Iff.rfl
    · rw [pausesEnd_seven, follows.pause]
    · exact pausesEnd_shown _ _ _ _ hc
    · rw [Counts, pausesEnd_cntGet, ← rxFreed_stat p.val rx _ _ s (k := 15 + c) (by omega)]
      exact pfcCounted_counts p.val v eight List.nodup_range (List.mem_range.2 hc) _
    · rw [Counts, pausesEnd_cntGet, pfcCounted_stat _ _ eight (by decide) (by omega)]
      exact rxFreed_counts ..
    · rw [pausesEnd_mem, follows.mem]

end Sys2Proof.Machine

/-! SUPPORT. What the ingress buffer and a port have been set to stays as a frame is received, and so does a class in XOFF
(R84, R258, R260). -/
namespace Sys2Proof.Machine

/-- A register of the chip's own blocks, TNK_MEMINJ apart. -/
theorem not_rxReg_of_lt {a : Nat} (h : a < 0x2000000) (ne : a ≠ 0x1c00010) : ¬ RxReg a := by
  rintro (((e | cell) | xoff | fec) | stat)
  · exact ne e
  · exact not_atStation_of_lt h cell
  · exact not_atStation_of_lt h xoff
  · exact not_atStation_of_lt h fec
  · exact not_atStation_of_lt h stat

/-- A register of a station's other blocks. -/
theorem not_rxReg_switch (st : Nat) {o : Nat} (h : 0xb0000 ≤ o ∧ o < 0x400000)
    (out : ¬ SwitchOffset o ∧ o ≠ 0x300108) : ¬ RxReg (stationBase st + o) := by
  rintro (((e | cell) | xoff | fec) | stat)
  · exact reg_ne_memInj st o e
  · have := (atStation_reg st h.2).1 cell
    omega
  · have := ((atStation_reg st h.2).1 xoff).resolve_left out.1
    exact absurd this.2.1 (by omega)
  · exact absurd ((atStation_reg st h.2).1 fec).2.1 (by omega)
  · exact absurd ((atStation_reg st h.2).1 stat).2.1 (by omega)

namespace RxFollows
variable {p : Nat} {s t : State} (h : RxFollows RxReg p s t)
include h

theorem steerReg {k o : Nat} (hk : k < 16) (ho : 0x100 ≤ o ∧ o < 0x110) :
    t.rd (macAt p o + k * 0x10) = s.rd (macAt p o + k * 0x10) := by
  have low : 0x4c ≤ o + k * 0x10 := by omega
  have high : o + k * 0x10 < 0x1000 := by omega
  rw [portAt_add]
  generalize o + k * 0x10 = j at low high ⊢
  exact h.rd _ (not_rxReg_macAt p ⟨by omega, by omega, by omega⟩)

theorem steer (tags : Tags) : steer t p tags = steer s p tags := by
  have act {k : Nat} (hk : k < 16) : t.rd (Reg.MAC_STEER_ACT p k) = s.rd (Reg.MAC_STEER_ACT p k) :=
    h.steerReg hk (o := 0x108) (by decide)
  have hit : ∀ k ∈ List.range 16, steerHit t p tags k = steerHit s p tags k := fun k hk => by
    have hk := List.mem_range.1 hk
    have mask : t.rd (Reg.MAC_STEER_MASK p k) = s.rd (Reg.MAC_STEER_MASK p k) := h.steerReg hk (o := 0x104) (by decide)
    have m : t.rd (Reg.MAC_STEER_MATCH p k) = s.rd (Reg.MAC_STEER_MATCH p k) := h.steerReg hk (o := 0x100) (by decide)
    simp only [steerHit, State.rdN, act hk, mask, m]
  have found : (List.range 16).find? (steerHit t p tags) = (List.range 16).find? (steerHit s p tags) :=
    List.find?_congr hit
  have pcp := h.rd (Reg.MAC_PCP_MAP p) (not_rxReg_macAt p (o := 8) (by decide))
  have cfg := h.rd (Reg.MAC_CFG p) (not_rxReg_macAt p (o := 0) (by decide))
  rw [Machine.steer, Machine.steer, found]
  cases e : (List.range 16).find? (steerHit s p tags) with
  | none => simp only [State.get_of_rd pcp, State.get_of_rd cfg]
  | some k => simp only [act (List.mem_range.1 (List.mem_of_find?_eq_some e))]

theorem portGuild (hp : p < 144) : t.portGuild p = s.portGuild p := by
  rw [State.portGuild, State.portGuild, State.rdN, State.rdN, h.rd _ (not_rxReg_of_lt ?_ ?_)] <;>
    simp only [Reg.HIF_PORT_GUILD] <;> omega

theorem notActive : notActive t = notActive s := by
  have ctl := State.getB_of_rd (h.rd Reg.MATE_CTL (not_rxReg_of_lt (by decide) (by decide))) Fld.MATE_CTL_EN
  have status := State.get_of_rd (h.rd Reg.MATE_STATUS (not_rxReg_of_lt (by decide) (by decide))) Fld.MATE_STATUS_ROLE
  simp only [Machine.notActive, mateOn, mateRole, ctl, status]

theorem full (st : Nat) : t.full st = s.full st := by
  rw [State.full, State.full, State.get_of_rd (h.rd Reg.BOOT_STATUS (not_rxReg_of_lt (by decide) (by decide)))]

theorem tinkerEn : t.getB Reg.TNK_CTL Fld.TNK_CTL_EN = s.getB Reg.TNK_CTL Fld.TNK_CTL_EN :=
  State.getB_of_rd (h.rd _ (not_rxReg_of_lt (by decide) (by decide))) _

theorem swcCfg (st : Nat) : t.rd (Reg.SWC_CFG st) = s.rd (Reg.SWC_CFG st) :=
  h.rd _ (not_rxReg_switch st (o := 0x2c0000) (by decide) (by decide))

theorem pfcCfg (st : Nat) : t.rd (Reg.SWC_PFC_CFG st) = s.rd (Reg.SWC_PFC_CFG st) :=
  h.rd _ (not_rxReg_switch st (o := 0x2c0008) (by decide) (by decide))

theorem headroom (st : Nat) {i : Nat} (hi : i < 12) : t.rd (Reg.SWC_HEADROOM st i) = s.rd (Reg.SWC_HEADROOM st i) := by
  rw [Reg.SWC_HEADROOM, Nat.add_assoc]
  exact h.rd _ (not_rxReg_switch st (by omega) (by omega))

theorem ingSharedSize (st : Nat) : ingSharedSize t st = ingSharedSize s st := by
  have heads : ((List.range 12).map fun i => t.get (Reg.SWC_HEADROOM st i) Fld.SWC_HEADROOM_HEAD) =
      (List.range 12).map fun i => s.get (Reg.SWC_HEADROOM st i) Fld.SWC_HEADROOM_HEAD :=
    List.map_congr_left fun i hi => State.get_of_rd (h.headroom st (List.mem_range.1 hi)) _
  rw [Machine.ingSharedSize, Machine.ingSharedSize, heads, State.get_of_rd (h.swcCfg st)]

theorem lossless (c : Nat) : lossless t p c = lossless s p c := by
  rw [Machine.lossless, Machine.lossless, h.fcMode, h.pauseTxOn, State.get_of_rd h.fcCfg]

end RxFollows

/-- Free cells of SHARED. -/
theorem ingSharedFree_eq (s : State) (st : Nat) : ingSharedFree s st = ingSharedSize s st - (pools s st).shared := rfl

/-! ### A class in XOFF -/

/-- Class c of local port i is in XOFF, and the thresholds keep it there. -/
def XoffHeld (st i c : Nat) (s : State) : Prop := (xoffMask s st i).testBit c = true ∧ xoffNext s st i c = true

/-- What XOFF compares: it holds on while SHARED is no emptier. -/
theorem XoffHeld.of_follows {st i c : Nat} {s t : State} (held : XoffHeld st i c s) (h : RxFollows RxReg (12 * st + i) s t)
    (mask : (xoffMask t st i).testBit c = true) (u : (pools t st).u = (pools s st).u)
    (shared : (pools s st).shared ≤ (pools t st).shared) (draining : (pools t st).draining = (pools s st).draining) :
    XoffHeld st i c t := by
  obtain ⟨was, next⟩ := held
  have free : ingSharedFree t st ≤ ingSharedFree s st := by
    rw [ingSharedFree_eq, ingSharedFree_eq, h.ingSharedSize]
    omega
  have u' : (t.stn st).core.u = (s.stn st).core.u := u
  have draining' : (t.stn st).draining = (s.stn st).draining := draining
  refine ⟨mask, ?_⟩
  simp only [xoffNext, was, mask, if_true, h.lossless, draining', u', State.get_of_rd (h.pfcCfg st), Bool.and_eq_true,
    Bool.or_eq_true, Bool.not_eq_true', leAlpha, Bool.or_eq_false_iff, decide_eq_false_iff_not] at next ⊢
  refine ⟨next.1, next.2.imp_right fun ⟨limited, above⟩ => ⟨limited, fun le => above (le.trans ?_)⟩⟩
  exact Nat.mul_le_mul_right _ free

end Sys2Proof.Machine

/-! SUPPORT. A class in XOFF stays so while a frame arrives (R260). -/
namespace Sys2Proof.Machine

theorem lt_eight_of_testBit {s : State} {st i c : Nat} (h : (xoffMask s st i).testBit c = true) : c < 8 := by
  have ge := Nat.ge_two_pow_of_testBit h
  exact (Nat.pow_lt_pow_iff_right (by decide)).1 (Nat.lt_of_le_of_lt ge (xoffMask_lt s st i))

theorem not_ctlReg_status (q st : Nat) {i : Nat} (hi : i < 12) : ¬ CtlReg q (Reg.SWC_PORT_STATUS st i) := by
  exact fun h => not_inMacs_portStatus st hi h.inMacs

theorem xoffChanged_mask (q old new st : Nat) {i : Nat} (hi : i < 12) (s : State) :
    xoffMask (xoffChanged q old new s) st i = xoffMask s st i :=
  State.get_of_rd ((xoffChanged_left q old new s).rd _ (not_ctlReg_status q st hi)) _

theorem portStatus_ne_fcStatus (st : Nat) {i : Nat} (hi : i < 12) (q : Nat) :
    Reg.SWC_PORT_STATUS st i ≠ Reg.MAC_FC_STATUS q := by
  intro e
  exact not_inMacs_portStatus st hi (e ▸ inMacs_macAt q (o := 0x14) (by decide))

theorem xoffShown_mask_same (st old : Nat) {i new : Nat} (hi : i < 12) (hn : new < 2 ^ 8) (s : State) :
    xoffMask (xoffShown st i old new s) st i = new := by
  have apart := portStatus_ne_fcStatus st hi (12 * st + i)
  exact (State.get_put_ne _ apart ..).trans
    ((State.get_put_same _ _ Fld.SWC_PORT_STATUS_XOFF (by decide) new).trans (Nat.mod_eq_of_lt hn))

theorem xoffShown_mask_ne (st old new : Nat) {i j : Nat} (hi : i < 12) (h : i ≠ j) (s : State) :
    xoffMask (xoffShown st j old new s) st i = xoffMask s st i := by
  have fc := portStatus_ne_fcStatus st hi (12 * st + j)
  have status : Reg.SWC_PORT_STATUS st i ≠ Reg.SWC_PORT_STATUS st j := by
    simp only [Reg.SWC_PORT_STATUS]; omega
  refine State.get_of_rd ((State.rd_put_ne _ fc _ _).trans ((State.rd_put_ne _ status _ _).trans (s.rd_cnt_ne ?_ ?_ _))) _ <;>
    simp only [Reg.SWC_PORT_STATUS, Reg.SWC_CNT_LO] <;> omega

theorem xoffWanted_lt (s : State) (st i : Nat) : xoffWanted s st i < 2 ^ 8 := (maskTo_testBit (fun c => xoffNext s st i c) 8).1

/-- XOFF of a port of the station follows, and holds what its thresholds hold. -/
theorem XoffHeld.xoffPort {st i j c : Nat} {s : State} (h : XoffHeld st i c s) (hi : i < 12) (hj : j < 12) :
    XoffHeld st i c (xoffPort st j s) := by
  have still := xoffPort_still (12 * st + i) st hj s
  refine h.of_follows (still.toRxFollows.mono fun _ r => .inl (.inr (.inl r))) ?_ (by rw [still.pools])
    (by rw [still.pools]) (by rw [still.pools])
  rw [xoffPort_eq]
  split
  · exact h.1
  · rw [xoffChanged_mask _ _ _ _ hi]
    by_cases e : i = j
    · subst e
      rw [xoffShown_mask_same _ _ hi (xoffWanted_lt s st i)]
      exact (mask8_testBit _ (lt_eight_of_testBit h.1)).trans h.2
    · rw [xoffShown_mask_ne st _ _ hi e]
      exact h.1

theorem XoffHeld.xoffUpdate {st i c : Nat} {s : State} (h : XoffHeld st i c s) (hi : i < 12) :
    XoffHeld st i c (xoffUpdate st s) := by
  rw [Machine.xoffUpdate]
  have below : ∀ j ∈ List.range 12, j < 12 := fun j => List.mem_range.1
  generalize List.range 12 = l at below ⊢
  induction l generalizing s with
  | nil => exact h
  | cons j l ih =>
    rw [List.foldl_cons]
    refine ih ?_ fun k hk => below k (List.mem_cons_of_mem _ hk)
    split
    · exact h
    · exact h.xoffPort hi (below j List.mem_cons_self)

/-! ### A frame that arrives -/

theorem not_cellReg_status (st : Nat) {i : Nat} (hi : i < 12) : ¬ CellReg (Reg.SWC_PORT_STATUS st i) := by
  obtain ⟨o, e, lo, top⟩ := portStatus_offset st hi
  rw [e, CellReg, atStation_reg st (by omega)]
  exact not_or.2 ⟨reg_ne_memInj st o, by omega⟩

theorem not_fecReg_status (st : Nat) {i : Nat} (hi : i < 12) : ¬ FecReg (Reg.SWC_PORT_STATUS st i) := by
  obtain ⟨o, e, lo, top⟩ := portStatus_offset st hi
  rw [e, FecReg, atStation_reg st (by omega)]
  exact fun h => absurd h.2.1 (by omega)

theorem not_statReg_status (st : Nat) {i : Nat} (hi : i < 12) : ¬ StatReg (Reg.SWC_PORT_STATUS st i) := by
  obtain ⟨o, e, lo, top⟩ := portStatus_offset st hi
  rw [e, StatReg, atStation_reg st (by omega)]
  exact fun h => absurd h.2.1 (by omega)

/-- The mask of a port stays while its register does. -/
theorem RxFollows.xoffMask {N : Nat → Prop} {p st i : Nat} {s t : State} (h : RxFollows N p s t)
    (out : ¬ N (Reg.SWC_PORT_STATUS st i)) : xoffMask t st i = xoffMask s st i := State.get_of_rd (h.rd _ out) _

/-- A class in XOFF stays so while nothing that shows it is written and the station stays. -/
theorem XoffHeld.of_still {N : Nat → Prop} {st i c : Nat} {s t : State} (h : XoffHeld st i c s)
    (still : RxStill N (12 * st + i) s t) (le : ∀ a, N a → RxReg a) (out : ¬ N (Reg.SWC_PORT_STATUS st i)) :
    XoffHeld st i c t :=
  h.of_follows (still.toRxFollows.mono le) (by rw [still.xoffMask out]; exact h.1) (by rw [still.pools]) (by rw [still.pools])
    (by rw [still.pools])

theorem XoffHeld.arrive {st i c : Nat} {s : State} (h : XoffHeld st i c s) (hi : i < 12) (n : Nat) :
    XoffHeld st i c (arrive st i n {} s).2 := by
  have follows := arriveCells_follows (12 * st + i) st i (min (cellsOf n) (cellsFree s st)) {} s
  obtain ⟨arrived, -⟩ := arriveCells_min st i (cellsOf n) s
  rw [arrive_none_eq]
  refine XoffHeld.xoffUpdate (h.of_follows (follows.mono fun _ r => .inl (.inl r)) ?_ ?_ ?_ ?_) hi
  · rw [follows.xoffMask (not_cellReg_status st hi)]
    exact h.1
  all_goals rw [arrived.rest]
  exact Nat.le_add_right _ _

/-- A class in XOFF stays so until the frame is judged. -/
theorem XoffHeld.rxCome {p c : Nat} {s : State} (h : XoffHeld (stationOf p) (localOf p) c s) (rx : RxFrame) (limit n : Nat) :
    XoffHeld (stationOf p) (localOf p) c (rxCome p rx limit n s).2 := by
  have hi : localOf p < 12 := Nat.mod_lt _ (by decide)
  have own : 12 * stationOf p + localOf p = p := Nat.div_add_mod p 12
  have corrected := h.of_still (t := fecCount p rx.fecCorrected rx.fecSymbols s)
    (by rw [own]; exact fecCount_still p _ _ s) (fun _ r => .inl (.inr (.inr r))) (not_fecReg_status _ hi)
  have counted := corrected.of_still (t := rxCounted p n true (fecCount p rx.fecCorrected rx.fecSymbols s))
    (by rw [own]; exact rxCounted_still p n true _) stat_le_rx (not_statReg_status _ hi)
  exact counted.arrive hi _

end Sys2Proof.Machine

/-! SUPPORT. A steered frame that is charged and waits for its token (R84, R251, R258). -/
namespace Sys2Proof.Machine

/-! ### The charge -/

/-- Table 13.2 finds room where SHARED has it. -/
theorem ingressSplit_of_free {s : State} {st n : Nat} (i c : Nat) (h : n ≤ ingSharedFree s st) :
    ingressSplit s st i c n ≠ none := by
  have part (k : Nat) : n - k ≤ ingSharedFree s st := (Nat.sub_le n k).trans h
  unfold ingressSplit
  simp only [part, h, if_true]
  split
  · exact Option.some_ne_none _
  · split <;> exact Option.some_ne_none _

/-- What Table 13.2 compares, and with it what it finds. -/
theorem ingressSplit_congr {s t : State} {st i c : Nat} (n : Nat) (h : RxFollows RxReg (12 * st + i) s t) (hi : i < 12)
    (shared : (pools t st).shared = (pools s st).shared) (express : (pools t st).express = (pools s st).express)
    (head : (pools t st).head = (pools s st).head)
    (mask : c = 7 ∨ (xoffMask t st i).testBit c = (xoffMask s st i).testBit c) :
    ingressSplit t st i c n = ingressSplit s st i c n := by
  have free : ingSharedFree t st = ingSharedFree s st := by
    rw [ingSharedFree_eq, ingSharedFree_eq, h.ingSharedSize, shared]
  have express' : (t.stn st).core.expUsed = (s.stn st).core.expUsed := express
  have head' : (t.stn st).core.headUsed = (s.stn st).core.headUsed := head
  simp only [ingressSplit, free, express', head', State.get_of_rd (h.swcCfg st), State.get_of_rd (h.headroom st hi), h.lossless]
  split
  · rfl
  · next ne => rw [mask.resolve_left ne]

/-- A frame in cells, charged to the express reserve, to headroom and to SHARED. -/
def Frame.charged (f : Frame) (cells : List Nat) (x h sh : Nat) : Frame :=
  { f with cells := cells, chShared := sh, chHead := h, chExp := x }

/-- The charges x, h and sh of Table 13.2 of a frame of local port i that is kept. -/
def ingressCharged (st i : Nat) (f : Frame) (x h sh : Nat) (s : State) : State :=
  let u := s.modCore st fun c => { c with expUsed := c.expUsed + x }
  xoffUpdate st ((chargeShared st f.inPort f.cls sh (if h = 0 then u else chargeHead st i h u)).tick (Reg.SWC_CNT_LO st 0))

theorem ingressCharge_kept {st i : Nat} {a : Arrival} {f : Frame} {s : State} {x h sh : Nat}
    (split : ingressSplit (unarrive st i a s) st i f.cls (cellsOf f.len) = some (x, h, sh))
    (cells : cellsOf f.len ≤ a.cells.length) : ingressCharge st i a f s =
      (some (Frame.charged f a.cells x h sh),
        ingressCharged st i f x h sh (unarrive st i a s)) := by
  simp only [ingressCharge, split, Nat.not_lt.2 cells, if_false]
  rfl

/-- What a station has in its lanes. -/
def lanesOf (s : State) (st : Nat) : Nat × Nat := ((s.stn st).tasks.laneX.length, (s.stn st).tasks.laneN.length)

theorem lanesOf_of_pools {s t : State} {st : Nat} (h : pools t st = pools s st) : lanesOf t st = lanesOf s st :=
  congrArg (fun x : Pools => (x.laneX, x.laneN)) h

theorem lanesOf_modCore (s : State) (st : Nat) (f : SwitchCore → SwitchCore) : lanesOf (s.modCore st f) st = lanesOf s st := by
  simp only [lanesOf, State.modCore, State.stn_modStn_same]

theorem chargeHead_follows (p st n : Nat) {i : Nat} (hi : i < 12) (s : State) :
    RxFollows XoffReg p s (chargeHead st i n s) := by
  exact (modCore_follows XoffReg p st (fun c => { c with headUsed := aadd i n c.headUsed }) s).trans
    (portStatus_still p st hi _ _).toRxFollows

theorem swcTick_still (p st : Nat) {k : Nat} (hk : k < 16) (s : State) : RxStill XoffReg p s (s.tick (Reg.SWC_CNT_LO st k)) :=
  swcCnt_still p st 1 hk s

theorem lanesOf_chargeHead (st i n : Nat) (s : State) : lanesOf (chargeHead st i n s) st = lanesOf s st :=
  lanesOf_modCore s st fun c => { c with headUsed := aadd i n c.headUsed }

theorem chargeShared_follows (N : Nat → Prop) (p st q c n : Nat) (s : State) : RxFollows N p s (chargeShared st q c n s) :=
  modCore_follows N p st _ s

theorem lanesOf_chargeShared (st q c n : Nat) (s : State) : lanesOf (chargeShared st q c n s) st = lanesOf s st :=
  lanesOf_modCore s st _

theorem ingressCharged_spec (p st : Nat) {i : Nat} (hi : i < 12) (f : Frame) (x h sh : Nat) (s : State) :
    RxFollows XoffReg p s (ingressCharged st i f x h sh s) ∧
      lanesOf (ingressCharged st i f x h sh s) st = lanesOf s st := by
  have express := modCore_follows XoffReg p st (fun c => { c with expUsed := c.expUsed + x }) s
  have lanes := lanesOf_modCore s st fun c => { c with expUsed := c.expUsed + x }
  unfold ingressCharged
  dsimp only
  generalize (s.modCore st fun c => { c with expUsed := c.expUsed + x }) = u at express lanes ⊢
  have head : RxFollows XoffReg p u (if h = 0 then u else chargeHead st i h u) ∧
      lanesOf (if h = 0 then u else chargeHead st i h u) st = lanesOf u st := by
    split
    · exact ⟨.refl _ p u, rfl⟩
    · exact ⟨chargeHead_follows p st h hi u, lanesOf_chargeHead st i h u⟩
  obtain ⟨head, lanes'⟩ := head
  generalize (if h = 0 then u else chargeHead st i h u) = v at head lanes' ⊢
  have shared := chargeShared_follows XoffReg p st f.inPort f.cls sh v
  have counted := swcTick_still p st (k := 0) (by decide) (chargeShared st f.inPort f.cls sh v)
  have xoff := xoffUpdate_still p st ((chargeShared st f.inPort f.cls sh v).tick (Reg.SWC_CNT_LO st 0))
  refine ⟨express.trans (head.trans (shared.trans (counted.trans xoff).toRxFollows)), ?_⟩
  rw [lanesOf_of_pools ((counted.trans xoff).pools st), lanesOf_chargeShared, lanes', lanes]

/-! ### The lanes -/

/-- The lane of a class. -/
def laneOf (s : State) (st cls : Nat) : List Frame := if cls = 7 then (s.stn st).tasks.laneX else (s.stn st).tasks.laneN

theorem laneOf_length {s t : State} {st : Nat} (h : lanesOf t st = lanesOf s st) (cls : Nat) :
    (laneOf t st cls).length = (laneOf s st cls).length := by
  obtain ⟨x, n⟩ := Prod.mk.inj h
  unfold laneOf
  split
  · exact x
  · exact n

theorem laneOf_laneEnqueue (st : Nat) (f : Frame) (s : State) :
    laneOf (laneEnqueue st f s) st f.cls = laneOf s st f.cls ++ [f] := by
  rw [laneOf, laneOf, laneEnqueue, State.modTasks, State.stn_modStn_same]
  by_cases h : f.cls = 7
  · rw [if_pos h, if_pos h, if_pos h]
    cases s.full st <;> rfl
  · rw [if_neg h, if_neg h, if_neg h]
    cases s.full st <;> rfl

/-! ### A steered frame that is kept -/

theorem injEval_of_off {p : Nat} {s : State} (off : s.getB Reg.TNK_CTL Fld.TNK_CTL_EN = false) (tx : Bool) (c : Nat)
    (b : List Byte) : injEval p tx c b s = (none, s) := by
  have none' (k : Nat) : injMatch s p k tx c b = false := by simp [injMatch, injOn, off]
  unfold injEval
  generalize List.range 4 = l
  induction l with
  | nil => rfl
  | cons k l ih => simpa [none' k] using ih

/-- The frame that a steered arrival becomes. -/
def steeredFrame (s : State) (p pt : Nat) (b : List Byte) (d : Steered) : Frame :=
  { bytes := b, inPort := p, cls := d.cls, toHost := d.action == 2, guild := s.portGuild p, rxTs := pt / 256 }

theorem rxSteered_forward {p pt : Nat} {a : Arrival} {b : List Byte} {tags : Tags} {s : State}
    (forward : (steer s p tags).action = 0) (off : s.getB Reg.TNK_CTL Fld.TNK_CTL_EN = false) :
    rxSteered p pt a b tags s =
      rxRole p none a (steeredFrame s p pt b (steer s p tags)) (rxGoodCount p b tags.tagged s) := by
  unfold rxSteered
  simp only [injEval_of_off off, forward, Nat.zero_ne_one, if_false, OfNat.zero_ne_ofNat, steeredFrame]

theorem rxRole_kept {p : Nat} {a : Arrival} {f : Frame} {s : State} (active : notActive s = false)
    (draining : (s.stn (stationOf p)).draining = false) (full : s.full (stationOf p) = true) {g : Frame} {u : State}
    (charged : ingressCharge (stationOf p) (localOf p) a f s = (some g, u)) :
    rxRole p none a f s = laneEnqueue (stationOf p) g u := by
  simp only [rxRole, active, Bool.false_and, Bool.false_eq_true, if_false, rxKeep, draining, full, Bool.not_true, charged]

end Sys2Proof.Machine

/-! SUPPORT. A good frame that is steered to the pipeline (R80, R84, R251, R255, R258), from its reception to its lane. -/
namespace Sys2Proof.Machine

/-- Table 13.2 has room for n cells of a frame of port p and class c. -/
def HasRoom (s : State) (p c n : Nat) : Prop :=
  n ≤ ingSharedFree s (stationOf p) ∨ ingressSplit s (stationOf p) (localOf p) c n ≠ none ∧
    (c = 7 ∨ XoffHeld (stationOf p) (localOf p) c s)

section
variable {p c : Nat} {s : State} {rx : RxFrame} {limit n : Nat} {tagged : Bool} {b : List Byte}

/-- A good frame has been counted, in its cells. -/
def rxGood (p : Nat) (rx : RxFrame) (limit : Nat) (tagged : Bool) (s : State) : State :=
  rxGoodCount p rx.bytes tagged (rxCome p rx limit (rx.bytes.length + 4) s).2

theorem rxGood_follows : RxFollows RxReg p s (rxGood p rx limit tagged s) :=
  (rxCome_follows p rx limit _ s).trans ((rxGoodCount_still p rx.bytes tagged _).toRxFollows.mono stat_le_rx)

theorem rxGood_arrived : Arrived (pools s (stationOf p)) (rxCome p rx limit (rx.bytes.length + 4) s).1
    (pools (rxGood p rx limit tagged s) (stationOf p)) := by
  rw [rxGood, (rxGoodCount_still p rx.bytes tagged _).pools]
  exact (rxCome_arrived p rx limit _ s).1

theorem rxGood_counts : Counts (Reg.MAC_STAT_LO p 2) 1 s (rxGood p rx limit tagged s) ∧
    Counts (Reg.MAC_STAT_LO p 0) (rx.bytes.length + 4) s (rxGood p rx limit tagged s) := by
  obtain ⟨frames, octets⟩ := rxGoodCount_counts p rx.bytes tagged (rxCome p rx limit (rx.bytes.length + 4) s).2
  have two := rxCome_stat p rx limit (rx.bytes.length + 4) s (k := 2) (by decide) (by decide) (by decide)
  have zero := rxCome_stat p rx limit (rx.bytes.length + 4) s (k := 0) (by decide) (by decide) (by decide)
  exact ⟨by rwa [Counts, two] at frames, by rwa [Counts, zero] at octets⟩

/-- A good frame of which the charges on arrival have been given back. -/
def rxUncharged (p : Nat) (rx : RxFrame) (limit : Nat) (tagged : Bool) (s : State) : State :=
  unarrive (stationOf p) (localOf p) (rxCome p rx limit (rx.bytes.length + 4) s).1 (rxGood p rx limit tagged s)

theorem rxUncharged_follows : RxFollows RxReg p s (rxUncharged p rx limit tagged s) :=
  rxGood_follows.trans (unarrive_follows _ p _ _ _ _)

/-- Its charges are as before it arrived. -/
theorem pools_rxUncharged : let P := pools (rxUncharged p rx limit tagged s) (stationOf p)
    P = { pools s (stationOf p) with taken := P.taken } := by
  have rest := (rxGood_arrived (p := p) (s := s) (rx := rx) (limit := limit) (tagged := tagged)).rest
  dsimp only
  rw [rxUncharged, pools_unarrive, rest]
  simp only [Nat.add_sub_cancel]

/-- Room for a frame when it comes is room for it when it has come. -/
theorem HasRoom.split (room : HasRoom s p c n) :
    ingressSplit (rxUncharged p rx limit tagged s) (stationOf p) (localOf p) c n ≠ none := by
  have hi : localOf p < 12 := Nat.mod_lt _ (by decide)
  have own : 12 * stationOf p + localOf p = p := Nat.div_add_mod p 12
  have follows := rxUncharged_follows (p := p) (s := s) (rx := rx) (limit := limit) (tagged := tagged)
  have rest := pools_rxUncharged (p := p) (s := s) (rx := rx) (limit := limit) (tagged := tagged)
  have shared : (pools (rxUncharged p rx limit tagged s) (stationOf p)).shared = (pools s (stationOf p)).shared := by rw [rest]
  have express : (pools (rxUncharged p rx limit tagged s) (stationOf p)).express = (pools s (stationOf p)).express := by
    rw [rest]
  have head : (pools (rxUncharged p rx limit tagged s) (stationOf p)).head = (pools s (stationOf p)).head := by rw [rest]
  rcases room with free | ⟨split, held⟩
  · refine ingressSplit_of_free _ _ ?_
    rw [ingSharedFree_eq, follows.ingSharedSize, shared]
    exact free
  · rw [ingressSplit_congr n (by rw [own]; exact follows) hi shared express head (held.imp_right fun held => ?_)]
    · exact split
    · have come := (held.rxCome rx limit (rx.bytes.length + 4)).1
      have counted := (rxGoodCount_still p rx.bytes tagged (rxCome p rx limit (rx.bytes.length + 4) s).2).xoffMask
        (not_statReg_status (stationOf p) hi)
      have mask : xoffMask (rxUncharged p rx limit tagged s) (stationOf p) (localOf p) =
          xoffMask (rxCome p rx limit (rx.bytes.length + 4) s).2 (stationOf p) (localOf p) := counted
      rw [mask, come, held.1]

/-- It has a cell for each 256 B. -/
theorem rxCome_cells (fits : rx.bytes.length + 4 ≤ limit) (room : cellsOf (rx.bytes.length + 4) ≤ cellsFree s (stationOf p)) :
    (rxCome p rx limit (rx.bytes.length + 4) s).1.cells.length = cellsOf (rx.bytes.length + 4) := by
  rw [(rxCome_arrived p rx limit _ s).2, Nat.min_eq_left (by omega : rx.bytes.length + 4 ≤ limit + 256), Nat.min_eq_left room]

end

/-- RX_FRAME_COMPLETE of a good frame that is steered to the pipeline, where there is room for it. -/
theorem rxReceive_forward {p : Nat} (hp : p < 144) {rx : RxFrame} (s : State) (frame : rx.mpackets = []) {limit : Nat}
    (hl : maxLenAt s p rx.sfdAge = limit) (good : ¬ Bad rx (rxLost s p rx) limit (rx.bytes.length + 4))
    (data : (readTags (macTpids s p) rx.bytes).etype ≠ 0x8808)
    (forward : (steer s p (readTags (macTpids s p) rx.bytes)).action = 0)
    (off : s.getB Reg.TNK_CTL Fld.TNK_CTL_EN = false) (active : notActive s = false)
    (draining : (s.stn (stationOf p)).draining = false) (full : s.full (stationOf p) = true)
    (room : HasRoom s p (steer s p (readTags (macTpids s p) rx.bytes)).cls (cellsOf (rx.bytes.length + 4)))
    (free : cellsOf (rx.bytes.length + 4) ≤ cellsFree s (stationOf p)) :
    let tags := readTags (macTpids s p) rx.bytes
    let d := steer s p tags
    ∃ f u, rxReceive p rx s = heldStep p (laneEnqueue (stationOf p) f u) ∧
      (f.bytes = rx.bytes ∧ f.inPort = p ∧ f.cls = d.cls ∧ f.guild = s.portGuild p ∧
        f.cells.length = cellsOf (rx.bytes.length + 4)) ∧
      RxFollows QuietReg p (rxUncharged p rx limit tags.tagged s) u ∧
      lanesOf u (stationOf p) = lanesOf s (stationOf p) := by
  intro tags d
  have fits : rx.bytes.length + 4 ≤ limit := by
    by_contra h
    exact good (.inr (.inr (.inr (.inl (by omega)))))
  have hi : localOf p < 12 := Nat.mod_lt _ (by decide)
  have come := rxCome_follows p rx limit (rx.bytes.length + 4) s
  have counted := rxGood_follows (p := p) (s := s) (rx := rx) (limit := limit) (tagged := tags.tagged)
  have arrived := rxGood_arrived (p := p) (s := s) (rx := rx) (limit := limit) (tagged := tags.tagged)
  obtain ⟨⟨x, h, sh⟩, split⟩ := Option.ne_none_iff_exists'.1
    (room.split (rx := rx) (limit := limit) (tagged := tags.tagged))
  let f := steeredFrame (rxCome p rx limit (rx.bytes.length + 4) s).2 p (rxPoint s p rx.sfdAge) rx.bytes d
  have kept := ingressCharge_kept (f := f) split (rxCome_cells fits free).ge
  obtain ⟨charged, lanes⟩ := ingressCharged_spec p (stationOf p) hi f x h sh (rxUncharged p rx limit tags.tagged s)
  refine ⟨Frame.charged f (rxCome p rx limit (rx.bytes.length + 4) s).1.cells x h sh, _, ?_,
    ⟨rfl, rfl, rfl, come.portGuild hp, rxCome_cells fits free⟩,
    charged.mono xoff_le_quiet, lanes.trans ?_⟩
  · have drains : ((rxGood p rx limit tags.tagged s).stn (stationOf p)).draining = false := by
      have same : (pools (rxGood p rx limit tags.tagged s) (stationOf p)).draining = (pools s (stationOf p)).draining := by
        rw [arrived.rest]
      exact same.trans draining
    have role := rxRole_kept (counted.notActive.trans active) drains ((counted.full _).trans full) kept
    rw [rxReceive_frame s frame, hl, rxWhole_come, rxJudge_good _ _ _ _ good, come.macTpids]
    simp only [data, if_false]
    rw [rxSteered_forward (by rw [come.steer]; exact forward) (come.tinkerEn.trans off), come.steer]
    exact congrArg (heldStep p) role
  · exact congrArg (fun P : Pools => (P.laneX, P.laneN)) (pools_rxUncharged (tagged := tags.tagged))

end Sys2Proof.Machine

/-! SUPPORT. The counters and the event of reassembly (R95), and the partial frame of a port: what the judgement of a whole
frame leaves of them, whatever its outcome. -/
namespace Sys2Proof.Machine

/-- Register a is one of a MAC of the chip's stations. -/
def MacReg (a : Nat) : Prop := a < 0x5000000 ∧ InMacs a

/-- The registers of the MACs stay. -/
def MacKept (s t : State) : Prop := ∀ a, MacReg a → t.rd a = s.rd a

namespace MacKept
variable {s t u : State}

theorem refl (s : State) : MacKept s s := fun _ _ => rfl

theorem trans (h : MacKept s t) (k : MacKept t u) : MacKept s u := fun a ha => (k a ha).trans (h a ha)

theorem of_regs (h : t.regs = s.regs) : MacKept s t := fun a _ => State.rd_of_regs h a

theorem wr {a : Nat} (h : ¬ MacReg a) (s : State) (v : Word) : MacKept s (s.wr a v) :=
  fun _ hb => s.rd_wr_ne (fun e => h (by rwa [← e])) v

theorem tick {a : Nat} (lo : ¬ MacReg a) (hi : ¬ MacReg (a + 4)) (s : State) : MacKept s (s.tick a) :=
  fun _ hb => s.rd_cnt_ne (fun e => lo (by rwa [← e])) (fun e => hi (by rwa [← e])) 1

end MacKept

theorem not_macReg_of_lt {a : Nat} (h : a < 0x2000000) : ¬ MacReg a := fun k => not_atStation_of_lt h k.2

theorem not_macReg_switch (st : Nat) {o : Nat} (h : 0xb0000 ≤ o ∧ o < 0x400000) : ¬ MacReg (stationBase st + o) := by
  exact fun k => not_inMacs_reg st (.inr h.1) h.2 k.2

theorem not_macReg_page (g o : Nat) : ¬ MacReg (guildPageBase g + o) := by
  simp only [MacReg, guildPageBase]
  omega

/-! ### The rings -/

theorem hifTick_macKept {k : Nat} (hk : k < 16) (s : State) : MacKept s (s.tick (Reg.HIF_CNT_LO k)) := by
  refine .tick (not_macReg_of_lt ?_) (not_macReg_of_lt ?_) s <;> simp only [Reg.HIF_CNT_LO] <;> omega

theorem guildTick_macKept (g k : Nat) (s : State) : MacKept s (s.tick (Reg.GLD_CNT_LO g k)) := by
  refine .tick ?_ ?_ s <;> simp only [Reg.GLD_CNT_LO, Nat.add_assoc] <;> exact not_macReg_page _ _

theorem dmaWrite_macKept (g a : Nat) (bs : List Byte) (s : State) : MacKept s (dmaWrite g a bs s) :=
  hifTick_macKept (k := 1) (by decide) (s.emit _)

theorem modRing_macKept (g r : Nat) (f : Ring → Ring) (s : State) : MacKept s (s.modRing g r f) := .of_regs rfl

theorem msix_macKept (g v : Nat) (s : State) : MacKept s (msix g v s) := by
  unfold msix
  split
  · exact .refl s
  · split
    · exact .of_regs rfl
    · exact (hifTick_macKept (k := 2) (by decide) (s.emit _)).trans (guildTick_macKept g 8 _)

theorem ringSignalCount_macKept (g r : Nat) (s : State) : MacKept s (ringSignalCount g r s) := by
  unfold ringSignalCount
  dsimp only
  split
  · exact (msix_macKept g _ s).trans (modRing_macKept g r _ _)
  · exact .refl s

theorem ringWrite_macKept (g r : Nat) (d : List Byte) (s : State) : MacKept s (ringWrite g r d s) :=
  ((dmaWrite_macKept _ _ _ _).trans (modRing_macKept _ _ _ _)).trans (ringSignalCount_macKept _ _ _)

theorem postEvent_macKept (g code : Nat) (body : List Byte) (s : State) : MacKept s (postEvent g code body s) := by
  unfold postEvent
  dsimp only
  split
  · split
    · exact ringWrite_macKept g _ _ (s.modGuild g _)
    · exact guildTick_macKept g 7 (s.modGuild g _)
  · exact guildTick_macKept g 7 (s.modGuild g _)

/-! ### What reassembly counts and holds -/

/-- Counter k of a MAC counts octets received, or the mPackets of reassembly. -/
abbrev AsmStat (k : Nat) : Prop := k = 1 ∨ 27 ≤ k ∧ k ≤ 30

/-- From s to t the counters of port p's reassembly stay, with its event, its partial frame and the memory. -/
structure AsmKept (p : Nat) (s t : State) : Prop where
  stat : ∀ k, AsmStat k → t.cntGet (Reg.MAC_STAT_LO p k) = s.cntGet (Reg.MAC_STAT_LO p k)
  event : t.get (Reg.MAC_EVENT p) Fld.MAC_EVENT_ASM_ERR = s.get (Reg.MAC_EVENT p) Fld.MAC_EVENT_ASM_ERR
  mem : t.mem = s.mem
  part : (t.port p).mac.reasm.isSome = (s.port p).mac.reasm.isSome

namespace AsmKept
variable {p : Nat} {s t u : State}

theorem refl (p : Nat) (s : State) : AsmKept p s s := ⟨fun _ _ => rfl, rfl, rfl, rfl⟩

theorem trans (h : AsmKept p s t) (k : AsmKept p t u) : AsmKept p s u :=
  ⟨fun j hj => (k.stat j hj).trans (h.stat j hj), k.event.trans h.event, k.mem.trans h.mem, k.part.trans h.part⟩

theorem of_quiet (h : RxFollows QuietReg p s t) : AsmKept p s t :=
  ⟨fun _ hk => h.stat (by omega), h.event _ (by decide), h.mem, h.part⟩

theorem of_xoff (h : RxFollows XoffReg p s t) : AsmKept p s t := .of_quiet (h.mono xoff_le_quiet)

theorem of_cell (h : RxFollows CellReg p s t) : AsmKept p s t := .of_quiet (h.mono cell_le_quiet)

theorem of_macKept (hp : p < 144) (rd : MacKept s t) (mem : t.mem = s.mem) (port : t.port p = s.port p) : AsmKept p s t := by
  have place {o : Nat} (ho : o < 0x4000) : t.rd (macAt p o) = s.rd (macAt p o) := by
    refine rd _ ⟨?_, inMacs_macAt p ho⟩
    simp only [portAt, stationBase]
    omega
  refine ⟨fun k hk => ?_, State.get_of_rd (place (o := 0x20) (by decide)) _, mem, by rw [port]⟩
  refine State.cntGet_of_rd ?_ ?_
  · exact macStatLo_eq p k ▸ place (by omega)
  · exact macStatLo_hi_eq p k ▸ place (by omega)

/-- Registers of no MAC are written. -/
theorem of_regs_only (hp : p < 144) (rd : MacKept s t) (only : OnlyRegs s t) : AsmKept p s t :=
  .of_macKept hp rd (congrArg State.mem only :) (congrArg (fun x : State => x.port p) only :)

theorem macStat {k : Nat} (n : Nat) (hk : k < 72) (out : ¬ AsmStat k) (s : State) : AsmKept p s (macStat p k n s) := by
  have still := macStat_still p n hk s
  exact ⟨fun j hj => cntGet_macStat_ne p n (fun e => out (by rwa [← e])) (by omega) hk s, still.event _ (by decide), still.mem,
    still.part⟩

theorem foldl {α : Type} {f : State → α → State} {l : List α} (h : ∀ s, ∀ x ∈ l, AsmKept p s (f s x)) (s : State) :
    AsmKept p s (l.foldl f s) := by
  induction l generalizing s with
  | nil => exact refl p s
  | cons x l ih => exact (h s x List.mem_cons_self).trans (ih (fun t y hy => h t y (List.mem_cons_of_mem _ hy)) _)

theorem foldl_snd {α β : Type} {f : β × State → α → β × State} {l : List α}
    (h : ∀ q, ∀ x ∈ l, AsmKept p q.2 (f q x).2) (q : β × State) : AsmKept p q.2 (l.foldl f q).2 := by
  induction l generalizing q with
  | nil => exact refl p q.2
  | cons x l ih => exact (h q x List.mem_cons_self).trans (ih (fun r y hy => h r y (List.mem_cons_of_mem _ hy)) _)

end AsmKept

theorem onlyRegs_cnt (s : State) (a n : Nat) : OnlyRegs s (s.cnt a n) := by
  unfold State.cnt
  split <;> rfl

/-- A counter of the chip's own blocks, or of a station's other blocks. -/
theorem tick_asmKept {p a : Nat} (hp : p < 144) (lo : ¬ MacReg a) (hi : ¬ MacReg (a + 4)) (s : State) :
    AsmKept p s (s.tick a) := .of_regs_only hp (.tick lo hi s) (onlyRegs_cnt s a 1)

theorem switchTick_asmKept {p : Nat} (hp : p < 144) (st : Nat) {o : Nat} (h : 0xb0000 ≤ o ∧ o + 4 < 0x400000) (s : State) :
    AsmKept p s (s.tick (stationBase st + o)) :=
  tick_asmKept hp (not_macReg_switch st (by omega)) (by rw [Nat.add_assoc]; exact not_macReg_switch st (by omega)) s

theorem switchWr_asmKept {p : Nat} (hp : p < 144) (st : Nat) {o : Nat} (h : 0xb0000 ≤ o ∧ o < 0x400000) (v : Word) (s : State) :
    AsmKept p s (s.wr (stationBase st + o) v) := .of_regs_only hp (.wr (not_macReg_switch st h) s v) rfl

end Sys2Proof.Machine

/-! SUPPORT. Whatever becomes of a whole frame (Table 04.2, R84, R258, R390, R407), the counters of reassembly and the partial
frame of its port stay. -/
namespace Sys2Proof.Machine

/-! ### Frames that are dropped or charged -/

theorem rxGone_asmKept (p : Nat) (a : Arrival) {f : Frame} (h : f.txTs = none) (s : State) : AsmKept p s (rxGone p a f s) :=
  (AsmKept.of_xoff (arrivalFree_follows p _ _ a s)).trans (.of_cell (frameGone_still p _ h _).toRxFollows)

theorem rxGoodCount_asmKept (p : Nat) (b : List Byte) (tagged : Bool) (s : State) :
    AsmKept p s (rxGoodCount p b tagged s) := by
  have still := rxGoodCount_still p b tagged s
  exact ⟨fun k hk => rxGoodCount_stat p b tagged s (by omega), still.event _ (by decide), still.mem, still.part⟩

theorem pauseSet_asmKept (p c q : Nat) (s : State) : AsmKept p s (pauseSet p c q s) := by
  refine ⟨fun _ _ => rfl, rfl, rfl, ?_⟩
  rw [pauseSet_port]

theorem pauseShow_asmKept (p : Nat) (s : State) : AsmKept p s (pauseShow p s) := by
  have rd {a : Nat} (ne : a ≠ Reg.MAC_FC_STATUS p) : (pauseShow p s).rd a = s.rd a :=
    (pauseShow_onlyRegsOf p s).2 a (mt List.mem_singleton.1 ne)
  refine ⟨fun k _ => ?_, State.get_of_rd (rd (portAt_ne (o := 0x20) (r := 0x14) (by decide))) _, rfl, rfl⟩
  obtain ⟨lo, hi⟩ := macStatLo_ne_place p k (o := 0x14) (by decide)
  exact State.cntGet_of_rd (rd lo) (rd hi)

section
variable {p : Nat} (hp : p < 144)
include hp

theorem ingressRefused_asmKept (st c : Nat) {i : Nat} (hi : i < 12) (head : Bool) {f : Frame} (h : f.txTs = none) (s : State) :
    AsmKept p s (ingressRefused st i c head f s) := by
  have swc (k : Nat) (hk : k < 16) (u : State) : AsmKept p u (u.tick (Reg.SWC_CNT_LO st k)) := by
    rw [Reg.SWC_CNT_LO, Nat.add_assoc]
    exact switchTick_asmKept hp st (by omega) u
  have port (k : Nat) (hk : k < 2) (u : State) : AsmKept p u (u.tick (Reg.SWC_PCNT_LO st i k)) := by
    rw [Reg.SWC_PCNT_LO, Nat.add_assoc, Nat.add_assoc]
    exact switchTick_asmKept hp st (by omega) u
  have event (g : Field) (u : State) : AsmKept p u (u.raise (Reg.SWC_EVENT st) g) :=
    switchWr_asmKept hp st (o := 0x2c0108) (by decide) _ u
  have gone (u : State) : AsmKept p u (frameGone st f u) := .of_cell (frameGone_still p st h u).toRxFollows
  unfold ingressRefused
  dsimp only
  split
  · exact (swc 4 (by decide) s).trans (gone _)
  · split
    · exact (((swc 5 (by decide) s).trans (port 1 (by decide) _)).trans (event _ _)).trans (gone _)
    · exact (((swc 3 (by decide) s).trans (port 0 (by decide) _)).trans (event _ _)).trans (gone _)

theorem ingressCharge_asmKept (st : Nat) {i : Nat} (hi : i < 12) (a : Arrival) {f : Frame} (h : f.txTs = none) (s : State) :
    AsmKept p s (ingressCharge st i a f s).2 := by
  have back : AsmKept p s (unarrive st i a s) := .of_xoff (unarrive_follows _ p st i a s)
  have refused (u : State) : AsmKept p u (ingressRefused st i f.cls (inHeadroom u st i f.cls) f
      (xoffUpdate st (a.cells.foldl (freeCell st) u))) :=
    (AsmKept.of_xoff ((freeCells_follows _ p st a.cells u).trans (xoffUpdate_still p st _).toRxFollows)).trans
      (ingressRefused_asmKept hp st f.cls hi _ h _)
  cases split : ingressSplit (unarrive st i a s) st i f.cls (cellsOf f.len) with
  | none =>
    simp only [ingressCharge, split]
    exact back.trans (refused _)
  | some q =>
    obtain ⟨x, y, z⟩ := q
    by_cases cells : a.cells.length < cellsOf f.len
    · simp only [ingressCharge, split, cells, if_true]
      exact back.trans (refused _)
    · rw [ingressCharge_kept split (Nat.not_lt.1 cells)]
      exact back.trans (.of_xoff (ingressCharged_spec p st hi f x y z _).1)

theorem laneEnqueue_asmKept (st : Nat) (f : Frame) (s : State) : AsmKept p s (laneEnqueue st f s) :=
  .of_macKept hp (.of_regs rfl) rfl rfl

theorem rxKeep_asmKept (hold : Option (Nat × Nat)) (a : Arrival) {f : Frame} (h : f.txTs = none) (s : State) :
    AsmKept p s (rxKeep p hold a f s) := by
  have drained : AsmKept p s (s.tick (Reg.MOR_CNT_LO (stationOf p) 4)) := by
    rw [Reg.MOR_CNT_LO, Nat.add_assoc]
    exact switchTick_asmKept hp _ (by decide) s
  have thawed : AsmKept p s (s.tick (Reg.BOOT_CNT_LO 0)) :=
    tick_asmKept hp (not_macReg_of_lt (by decide)) (not_macReg_of_lt (by decide)) s
  have charged := ingressCharge_asmKept hp (stationOf p) (i := localOf p) (Nat.mod_lt _ (by decide)) a h s
  unfold rxKeep
  dsimp only
  split
  · exact drained.trans (rxGone_asmKept p a h _)
  · split
    · exact thawed.trans (rxGone_asmKept p a h _)
    · split
      · next e => rwa [e] at charged
      · next e =>
        rw [e] at charged
        split
        · exact charged.trans (laneEnqueue_asmKept hp _ _ _)
        · exact charged.trans (.of_macKept hp (.of_regs rfl) rfl rfl)

theorem rxRole_asmKept (hold : Option (Nat × Nat)) (a : Arrival) {f : Frame} (h : f.txTs = none) (s : State) :
    AsmKept p s (rxRole p hold a f s) := by
  have barred : AsmKept p s (s.tick (Reg.MATE_CNT_LO 1)) :=
    tick_asmKept hp (not_macReg_of_lt (by decide)) (not_macReg_of_lt (by decide)) s
  unfold rxRole
  split
  · exact barred.trans (rxGone_asmKept p a h _)
  · exact rxKeep_asmKept hp hold a h s

/-! ### The injectors -/

theorem injAct_asmKept {k : Nat} (hk : k < 4) (s : State) : AsmKept p s (injAct p k s) := by
  have hi : localOf p < 12 := Nat.mod_lt _ (by decide)
  have advanced : AsmKept p s (injAdvance p k s) := .of_macKept hp (.of_regs rfl) rfl rfl
  have counted (v : Word) (u : State) : AsmKept p u (u.wr (Reg.TNK_INJ_CNT (stationOf p) (localOf p) k) v) := by
    rw [Reg.TNK_INJ_CNT, Nat.add_assoc, Nat.add_assoc]
    exact switchWr_asmKept hp _ (by omega) v u
  have done (v : Nat) (u : State) :
      AsmKept p u (u.put (Reg.TNK_PEVENT (stationOf p) (localOf p)) Fld.TNK_PEVENT_DONE v) := by
    rw [Reg.TNK_PEVENT, Nat.add_assoc]
    exact switchWr_asmKept hp _ (by omega) _ u
  have posted (g code : Nat) (body : List Byte) (u : State) : AsmKept p u (postEvent g code body u) := by
    have only := (sends_postEvent g code body u).2
    exact .of_macKept hp (postEvent_macKept g code body u) (congrArg State.mem only :)
      (congrArg (fun x : State => x.port p) only :)
  unfold injAct
  dsimp only
  split
  · split
    · exact ((advanced.trans (counted _ _)).trans (done _ _)).trans (posted _ _ _ _)
    · exact (advanced.trans (counted _ _)).trans (done _ _)
  · exact advanced.trans (counted _ _)

theorem injTrigger_asmKept (k : Nat) (s : State) : AsmKept p s (injTrigger p k s).2 := by
  unfold injTrigger
  dsimp only
  split
  · exact .refl p s
  · exact .of_macKept hp (.of_regs rfl) rfl rfl
  · exact .refl p s

theorem injEval_asmKept (tx : Bool) (c : Nat) (b : List Byte) (s : State) : AsmKept p s (injEval p tx c b s).2 := by
  refine AsmKept.foldl_snd (fun ⟨who, u⟩ k hk => ?_) (none, s)
  have below : k < 4 := List.mem_range.1 hk
  have trigger := injTrigger_asmKept hp k u
  have act := trigger.trans (injAct_asmKept hp below (injTrigger p k u).2)
  have advance : AsmKept p u (injAdvance p k (injTrigger p k u).2) :=
    trigger.trans (.of_macKept hp (.of_regs rfl) rfl rfl)
  dsimp only
  split
  · split
    · cases who with
      | none => exact act
      | some j => exact trigger
    · exact advance
  · exact .refl p u

/-! ### The rows of Table 04.2 -/

theorem rxSteered_asmKept (pt : Nat) (a : Arrival) (b : List Byte) (tags : Tags) (s : State) :
    AsmKept p s (rxSteered p pt a b tags s) := by
  have plain : (steeredFrame s p pt b (steer s p tags)).txTs = none := rfl
  have counted (u : State) : AsmKept p u (rxGoodCount p b tags.tagged u) := rxGoodCount_asmKept p b tags.tagged u
  have good (u : State) : AsmKept p u (let v := rxGoodCount p b tags.tagged u
      if (steer s p tags).action = 2 then macStat p 25 1 v else v) := by
    dsimp only
    split
    · exact (counted u).trans (.macStat 1 (by decide) (by decide) _)
    · exact counted u
  have evaluated := injEval_asmKept hp false (steer s p tags).cls b s
  unfold rxSteered
  dsimp only
  split
  · exact ((counted s).trans (.macStat 1 (by decide) (by decide) _)).trans (rxGone_asmKept p a plain _)
  · split
    · next e =>
      rw [e] at evaluated
      exact evaluated.trans ((good _).trans (rxRole_asmKept hp none a plain _))
    · next e =>
      rw [e] at evaluated
      refine evaluated.trans ?_
      split
      · exact (good _).trans (rxGone_asmKept p a plain _)
      · split
        · exact (good _).trans (rxRole_asmKept hp none a rfl _)
        · exact (AsmKept.macStat 1 (by decide) (by decide) _).trans (rxGone_asmKept p a plain _)
      · exact (good _).trans (rxRole_asmKept hp _ a plain _)

omit hp in
theorem ctlReceive_asmKept (b : List Byte) (off : Nat) (s : State) : AsmKept p s (ctlReceive p b off s) := by
  have shown (u : State) : AsmKept p u (pauseShow p u) := pauseShow_asmKept p u
  have set (c q : Nat) (u : State) : AsmKept p u (pauseSet p c q u) := pauseSet_asmKept p c q u
  unfold ctlReceive
  dsimp only
  split
  · have counted : AsmKept p s (macStat p 14 1 s) := .macStat 1 (by decide) (by decide) s
    split
    · exact (counted.trans (.foldl (fun u c _ => set c _ u) _)).trans (shown _)
    · exact counted
  · have counted : AsmKept p s ((List.range 8).foldl
        (fun s c => if (be b (off + 2) 2).testBit c then macStat p (15 + c) 1 s else s) s) := by
      refine .foldl (fun u c hc => ?_) s
      have := List.mem_range.1 hc
      split
      · exact .macStat 1 (by omega) (by omega) u
      · exact .refl p u
    split
    · refine (counted.trans (.foldl (fun u c _ => ?_) _)).trans (shown _)
      split
      · exact set c _ u
      · exact .refl p u
    · exact counted
  · exact .macStat 1 (by decide) (by decide) s

theorem rxJudge_asmKept (rx : RxFrame) (lost : Bool) (limit pt : Nat) (a : Arrival) (b : List Byte) (s : State) :
    AsmKept p s (rxJudge p rx lost limit pt a b s) := by
  have freed (u : State) : AsmKept p u (arrivalFree (stationOf p) (localOf p) a u) :=
    .of_xoff (arrivalFree_follows p _ _ a u)
  by_cases bad : Bad rx lost limit (b.length + 4)
  · obtain ⟨low, high⟩ := badCounter_range rx lost limit (b.length + 4)
    rw [rxJudge_bad p pt a s bad]
    exact ((AsmKept.macStat 1 (by omega) (by omega) s).trans (freed _)).trans (.of_cell (evDrop_still p _ _ _).toRxFollows)
  · rw [rxJudge_good p pt a s bad]
    dsimp only
    split
    · exact ((freed s).trans (rxGoodCount_asmKept p b _ _)).trans (ctlReceive_asmKept b _ _)
    · exact rxSteered_asmKept hp pt a b _ s

theorem heldStep_asmKept (s : State) : AsmKept p s (heldStep p s) := by
  obtain ⟨regs, mem, ports, -⟩ := heldStep_frame p s
  exact .of_macKept hp (.of_regs regs) mem (by rw [State.port, ports, State.port])

/-- A whole frame counts its octets, and leaves the rest of reassembly. -/
theorem rxWhole_spec (rx : RxFrame) (lost : Bool) (limit pt : Nat) (a : Arrival) (b : List Byte) (s : State) :
    let t := rxWhole p rx lost false limit pt a b s
    Counts (Reg.MAC_STAT_LO p 1) (b.length + 4) s t ∧
      (∀ k, 27 ≤ k ∧ k ≤ 30 → t.cntGet (Reg.MAC_STAT_LO p k) = s.cntGet (Reg.MAC_STAT_LO p k)) ∧
      t.get (Reg.MAC_EVENT p) Fld.MAC_EVENT_ASM_ERR = s.get (Reg.MAC_EVENT p) Fld.MAC_EVENT_ASM_ERR ∧ t.mem = s.mem ∧
      (t.port p).mac.reasm.isSome = (s.port p).mac.reasm.isSome := by
  have counted := rxCounted_still p (b.length + 4) false s
  have arrived : AsmKept p (rxCounted p (b.length + 4) false s)
      (rxArrive p limit (b.length + 4) a (rxCounted p (b.length + 4) false s)).2 := .of_quiet (arrive_follows p _ _ _ _ _)
  rw [rxWhole_eq]
  generalize rxArrive p limit (b.length + 4) a (rxCounted p (b.length + 4) false s) = r at arrived
  have kept := (arrived.trans (rxJudge_asmKept hp rx lost limit pt r.1 b r.2)).trans (heldStep_asmKept hp _)
  dsimp only
  refine ⟨?_, fun k hk => ?_, kept.event.trans (counted.event _ (by decide)), kept.mem.trans counted.mem,
    kept.part.trans counted.part⟩
  · rw [Counts, kept.stat 1 (.inl rfl)]
    exact rxCounted_counts p _ false s
  · rw [kept.stat k (.inr hk)]
    exact rxCounted_stat p _ false s (by omega) (by omega) (by omega)

end

end Sys2Proof.Machine

/-! SUPPORT. Reassembly (R95): fragments as they are counted, kept and dropped. -/
namespace Sys2Proof.Machine

/-! ### A fragment -/

theorem fecCount_onlyRegs (p corrected : Nat) (symbols : List Nat) (s : State) :
    OnlyRegs s (fecCount p corrected symbols s) := by
  have lanes (l : List (Nat × Nat)) (u : State) : OnlyRegs u (l.foldl (fun s e => s.cnt (Reg.LANE_FEC_SYM_LO e.1) e.2) u) := by
    induction l generalizing u with
    | nil => rfl
    | cons e l ih => exact (onlyRegs_cnt u _ e.2).trans (ih _)
  unfold fecCount
  split
  · rfl
  · exact (onlyRegs_cnt s _ corrected).trans (lanes _ _)

/-- A fragment of the preemptable MAC has been counted. -/
def rxFragment (p : Nat) (rx : RxFrame) (s : State) : State :=
  macStat p 27 1 (fecCount p rx.fecCorrected rx.fecSymbols s)

section
variable (p : Nat) (rx : RxFrame) (s : State)

theorem rxFragment_port (q : Nat) : (rxFragment p rx s).port q = s.port q := by
  rw [rxFragment, macStat_port]
  exact (congrArg (fun u : State => u.port q) (fecCount_onlyRegs p rx.fecCorrected rx.fecSymbols s) :)

theorem rxFragment_follows : RxFollows RxReg p s (rxFragment p rx s) :=
  (fecCount_follows p _ _ s).trans ((macStat_still p 1 (by decide) _).toRxFollows.mono stat_le_rx)

theorem pools_rxFragment (st : Nat) : pools (rxFragment p rx s) st = pools s st :=
  ((macStat_still p 1 (by decide) _).pools st).trans ((fecCount_still p _ _ s).pools st)

theorem rxFragment_counts : Counts (Reg.MAC_STAT_LO p 27) 1 s (rxFragment p rx s) := by
  have corrected := ((fecCount_still p rx.fecCorrected rx.fecSymbols s).toRxFollows.mono fec_le_quiet).stat
    (show 27 < 41 by decide)
  rw [Counts, ← corrected]
  exact counts_macStat p 1 (by decide) _

theorem rxFragment_stat {k : Nat} (hk : k < 41) (ne : k ≠ 27) :
    (rxFragment p rx s).cntGet (Reg.MAC_STAT_LO p k) = s.cntGet (Reg.MAC_STAT_LO p k) :=
  (cntGet_macStat_ne p 1 ne (by omega) (by decide) _).trans
    (((fecCount_still p _ _ s).toRxFollows.mono fec_le_quiet).stat hk)

end

/-! ### A partial frame is dropped -/

theorem reasmSet_port (p : Nat) (r : Option Reasm) (s : State) :
    (reasmSet p r s).port p = { s.port p with mac := { (s.port p).mac with reasm := r } } := s.port_modMac_same p _

theorem reasmSet_times (p : Nat) (r : Option Reasm) (s : State) : RxTimes p s (reasmSet p r s) :=
  ⟨fun _ _ => rfl, rfl, rfl, by rw [reasmSet_port]⟩

/-- What was held is gone, and its cells free again. -/
theorem reasmDrop_follows (p : Nat) (s : State) : RxFollows QuietReg p (reasmSet p none s) (reasmDrop p s) := by
  unfold reasmDrop
  cases h : (s.port p).mac.reasm with
  | none =>
    have same : ({ s.port p with mac := { (s.port p).mac with reasm := none } } : PortSt) = s.port p := by rw [← h]
    exact .of_frame rfl rfl rfl rfl rfl ((reasmSet_port p none s).trans same).symm
  | some r =>
    exact ((arrivalFree_follows p _ _ r.arrival (reasmSet p none s)).mono xoff_le_quiet).trans
      ((evDrop_still p _ _ _).toRxFollows.mono cell_le_quiet)

/-- A reassembly error is counted, and its event latched. -/
def asmCounted (p : Nat) (s : State) : State := (macStat p 29 1 s).raise (Reg.MAC_EVENT p) Fld.MAC_EVENT_ASM_ERR

theorem asmCounted_rd (p : Nat) (s : State) {a : Nat} (h : a ≠ Reg.MAC_EVENT p) :
    (asmCounted p s).rd a = (macStat p 29 1 s).rd a := State.rd_put_ne _ h _ _

theorem asmCounted_cntGet (p k : Nat) (s : State) :
    (asmCounted p s).cntGet (Reg.MAC_STAT_LO p k) = (macStat p 29 1 s).cntGet (Reg.MAC_STAT_LO p k) := by
  obtain ⟨lo, hi⟩ := macStatLo_ne_place p k (o := 0x20) (by decide)
  exact State.cntGet_of_rd (asmCounted_rd p s lo) (asmCounted_rd p s hi)

theorem asmCounted_times (p : Nat) (s : State) : RxTimes p s (asmCounted p s) := by
  have counted := ((macStat_still p 1 (show 29 < 72 by decide) s).toRxFollows.mono stat_le_rx).times
  have event : RxReg (Reg.MAC_EVENT p) := .inr ((statReg_macAt p (o := 0x20) (by decide)).2 (.inl rfl))
  exact counted.trans ⟨fun a ha => asmCounted_rd p s fun e => ha (by rwa [e]), rfl, rfl, rfl⟩

/-- A reassembly error (R95). -/
structure AsmFailed (p : Nat) (s t : State) : Prop where
  counts : Counts (Reg.MAC_STAT_LO p 29) 1 s t
  stat : ∀ k < 41, k ≠ 29 → t.cntGet (Reg.MAC_STAT_LO p k) = s.cntGet (Reg.MAC_STAT_LO p k)
  event : t.get (Reg.MAC_EVENT p) Fld.MAC_EVENT_ASM_ERR = 1
  mem : t.mem = s.mem
  dropped : (t.port p).mac.reasm = none
  times : RxTimes p s t

theorem asmError_failed (p : Nat) (s : State) : AsmFailed p s (asmError p s) := by
  have dropped := reasmDrop_follows p (asmCounted p s)
  have cnt (k : Nat) (hk : k < 41) : (asmError p s).cntGet (Reg.MAC_STAT_LO p k) =
      (macStat p 29 1 s).cntGet (Reg.MAC_STAT_LO p k) := (dropped.stat hk).trans (asmCounted_cntGet p k s)
  have latched : (asmCounted p s).get (Reg.MAC_EVENT p) Fld.MAC_EVENT_ASM_ERR = 1 :=
    State.get_raise_same _ _ _ (by decide) rfl
  have part : ((asmError p s).port p).mac.reasm.isSome = false := dropped.part.trans (by rw [reasmSet_port]; rfl)
  refine ⟨?_, fun k hk ne => ?_, (dropped.event _ (by decide)).trans latched, dropped.mem.trans ?_,
    Option.isSome_eq_false_iff.1 part |> Option.isNone_iff_eq_none.1, ?_⟩
  · rw [Counts, cnt 29 (by decide)]
    exact counts_macStat p 1 (by decide) s
  · rw [cnt k hk]
    exact cntGet_macStat_ne p 1 ne (by omega) (by decide) s
  · exact (macStat_still p 1 (show 29 < 72 by decide) s).mem
  · exact (asmCounted_times p s).trans ((reasmSet_times p none _).trans (dropped.mono quiet_le_rx).times)

/-! ### A partial frame stays open -/

/-- A partial frame is open with one fragment more, in cells for its bytes. -/
structure AsmHeld (p : Nat) (r : Reasm) (s t : State) : Prop where
  stat : ∀ k < 41, t.cntGet (Reg.MAC_STAT_LO p k) = s.cntGet (Reg.MAC_STAT_LO p k)
  event : t.get (Reg.MAC_EVENT p) Fld.MAC_EVENT_ASM_ERR = s.get (Reg.MAC_EVENT p) Fld.MAC_EVENT_ASM_ERR
  holds : ∃ a : Arrival, (t.port p).mac.reasm = some { r with arrival := a } ∧ (r.arrival = {} →
    a.cells.length = min (cellsOf (min r.bytes.length (r.limit + 256))) (cellsFree s (stationOf p)))

theorem reasmHold_held (p : Nat) (r : Reasm) (s : State) : AsmHeld p r s (reasmHold p r s) := by
  have arrived := arrive_follows p (stationOf p) (localOf p) (min r.bytes.length (r.limit + 256)) r.arrival s
  refine ⟨fun k hk => arrived.stat hk, arrived.event _ (by decide), (rxArrive p r.limit r.bytes.length r.arrival s).1, ?_,
    fun none => ?_⟩
  · exact (congrArg (fun x : PortSt => x.mac.reasm) (reasmSet_port p _ _) :)
  · rw [rxArrive, none]
    exact (arrive_arrived (stationOf p) (localOf p) _ s).2

/-! ### The mPackets -/

section
variable {p : Nat} {rx : RxFrame} {lost : Bool} {s : State} {m : MPacket}

theorem rxMPacket_off (en : (s.port p).mac.mergeEn = false) : rxMPacket p rx lost s m = macStat p 30 1 s := by
  simp [rxMPacket, en]

/-- What a start finds: the partial frame that was open is dropped. -/
def rxStart (p : Nat) (s : State) : State :=
  let u := macStat p 27 1 s
  if (u.port p).mac.reasm.isSome then asmError p u else u

theorem rxMPacket_start (en : (s.port p).mac.mergeEn = true) (start : m.start = true) : rxMPacket p rx lost s m =
    let u := rxStart p s
    if m.last then rxWhole p rx lost false (maxLenAt u p rx.sfdAge) (rxPoint u p rx.sfdAge) {} m.bytes u
    else reasmHold p { frameCount := m.frameCount.val, nextFrag := 0, bytes := m.bytes, limit := maxLenAt u p rx.sfdAge
                       point := rxPoint u p rx.sfdAge } u := by
  simp only [rxMPacket, en, Bool.not_true, Bool.false_eq_true, if_false, start, if_true, rxStart]

/-- A continuation that the partial frame does not expect, or that has none. -/
theorem rxMPacket_stray (en : (s.port p).mac.mergeEn = true) (start : m.start = false)
    (stray : ∀ r, (s.port p).mac.reasm = some r → r.frameCount ≠ m.frameCount.val ∨ r.nextFrag ≠ m.fragCount.val) :
    rxMPacket p rx lost s m = asmError p (macStat p 27 1 s) := by
  simp only [rxMPacket, en, Bool.not_true, Bool.false_eq_true, if_false, start, macStat_port]
  cases h : (s.port p).mac.reasm with
  | none => rfl
  | some r => exact if_pos (stray r h)

theorem rxMPacket_next {r : Reasm} (en : (s.port p).mac.mergeEn = true) (start : m.start = false)
    (holds : (s.port p).mac.reasm = some r) (frameCount : r.frameCount = m.frameCount.val)
    (fragCount : r.nextFrag = m.fragCount.val) : rxMPacket p rx lost s m =
      if m.last then
        rxWhole p rx lost false r.limit r.point r.arrival (r.bytes ++ m.bytes)
          (macStat p 28 1 (reasmSet p none (macStat p 27 1 s)))
      else reasmHold p { r with nextFrag := (r.nextFrag + 1) % 4, bytes := r.bytes ++ m.bytes } (macStat p 27 1 s) := by
  have expected : ¬ (r.frameCount ≠ m.frameCount.val ∨ r.nextFrag ≠ m.fragCount.val) := by omega
  simp only [rxMPacket, en, Bool.not_true, Bool.false_eq_true, if_false, start, macStat_port, holds, if_neg expected]

end

theorem rxReceive_mPacket {p : Nat} {rx : RxFrame} {m : MPacket} (s : State) (one : rx.mpackets = [m]) :
    rxReceive p rx s = rxMPacket p rx (rxLost s p rx) (fecCount p rx.fecCorrected rx.fecSymbols s) m := by
  rw [rxReceive, one]
  rfl

end Sys2Proof.Machine

/-! SUPPORT and the obligation O14: mPackets (R95), and RX_FRAME_COMPLETE put together. -/
namespace Sys2Proof.Machine

/-! ### A start -/

/-- A start has been counted, and a partial frame that was open dropped. -/
structure RxStarted (p : Nat) (s t : State) : Prop where
  counts : Counts (Reg.MAC_STAT_LO p 27) 1 s t
  errors : Counts (Reg.MAC_STAT_LO p 29) (if (s.port p).mac.reasm = none then 0 else 1) s t
  stat : ∀ k < 41, k ≠ 27 → k ≠ 29 → t.cntGet (Reg.MAC_STAT_LO p k) = s.cntGet (Reg.MAC_STAT_LO p k)
  event : (s.port p).mac.reasm ≠ none → t.get (Reg.MAC_EVENT p) Fld.MAC_EVENT_ASM_ERR = 1
  mem : t.mem = s.mem
  dropped : (t.port p).mac.reasm = none
  times : RxTimes p s t
  cells : (s.port p).mac.reasm = none → cellsFree t (stationOf p) = cellsFree s (stationOf p)

theorem rxStart_started (p : Nat) (rx : RxFrame) (s : State) :
    RxStarted p s (rxStart p (fecCount p rx.fecCorrected rx.fecSymbols s)) := by
  have port := rxFragment_port p rx s p
  have follows := rxFragment_follows p rx s
  have start : rxStart p (fecCount p rx.fecCorrected rx.fecSymbols s) =
      if ((rxFragment p rx s).port p).mac.reasm.isSome then asmError p (rxFragment p rx s) else rxFragment p rx s := rfl
  rw [start, port]
  by_cases h : (s.port p).mac.reasm = none
  · rw [h, Option.isSome_none, if_neg Bool.false_ne_true]
    refine ⟨rxFragment_counts p rx s, ?_, fun k hk ne _ => rxFragment_stat p rx s hk ne, fun holds => absurd h holds,
      follows.mem, by rw [port, h], follows.times, fun _ => ?_⟩
    · rw [Counts, if_pos h, rxFragment_stat p rx s (by decide) (by decide)]
      exact (Nat.mod_eq_of_lt (s.cntGet_lt _)).symm
    · exact congrArg (fun P : Pools => 32768 - P.taken.length) (pools_rxFragment p rx s (stationOf p))
  · have failed := asmError_failed p (rxFragment p rx s)
    rw [if_pos (Option.isSome_iff_ne_none.2 h)]
    refine ⟨?_, ?_, fun k hk ne ne' => ?_, fun _ => failed.event, failed.mem.trans follows.mem, failed.dropped,
      follows.times.trans failed.times, fun none => absurd none h⟩
    · rw [Counts, failed.stat 27 (by decide) (by decide)]
      exact rxFragment_counts p rx s
    · rw [if_neg h, Counts, failed.counts, rxFragment_stat p rx s (by decide) (by decide)]
    · rw [failed.stat k hk ne', rxFragment_stat p rx s hk ne]

/-- A whole frame of a good length with a wrong FCS. -/
theorem rxWhole_badFcs {p : Nat} {rx : RxFrame} {limit : Nat} (pt : Nat) {b : List Byte} (s : State)
    (code : rx.codeError = false) (long : 60 ≤ b.length) (fits : b.length + 4 ≤ limit) (fcs : rx.fcsGood = false) :
    Counts (Reg.MAC_STAT_LO p 7) 1 s (rxWhole p rx false false limit pt {} b s) := by
  have seven : badCounter rx false limit (b.length + 4) = 7 := by
    unfold badCounter
    rw [code, if_neg Bool.false_ne_true, if_neg Bool.false_ne_true, if_neg (by omega), if_neg (by omega)]
  have counted := rxCounted_stat p (b.length + 4) false s (k := 7) (by decide) (by decide) (by decide)
  have arrives := arrive_follows p (stationOf p) (localOf p) (min (b.length + 4) (limit + 256)) {}
    (rxCounted p (b.length + 4) false s)
  obtain ⟨arrived, -⟩ := arrive_arrived (stationOf p) (localOf p) (min (b.length + 4) (limit + 256))
    (rxCounted p (b.length + 4) false s)
  obtain ⟨-, -, counts, -⟩ := rxBad_spec (p := p) (k := 7) (by decide) arrived
  rw [rxWhole_eq]
  dsimp only
  rw [rxJudge_bad _ _ _ _ (.inr (.inr (.inr (.inr fcs)))), seven, Counts, heldStep_cntGet, ← counted, ← arrives.stat (by decide)]
  exact counts

section
variable {s : State} {p : Port} {rx : RxFrame} {m : MPacket}

/-- What a partial frame that has just been opened holds. -/
def Opened (s : State) (p : Nat) (rx : RxFrame) (m : MPacket) (t : State) : Prop :=
  let limit := maxLenAt s p rx.sfdAge
  ∃ a : Arrival, (t.port p).mac.reasm = some ⟨m.frameCount.val, 0, m.bytes, a, limit, rxPoint s p rx.sfdAge⟩ ∧
    ((s.port p).mac.reasm = none →
      a.cells.length = min (cellsOf (min m.bytes.length (limit + 256))) (cellsFree s (stationOf p)))

theorem exec_mPacket (hs : s.running) (up : s.linkUp p.val = true) (near : nearEnd s p.val = false) (one : rx.mpackets = [m]) :
    exec (.rxFrameComplete p rx) s = .next (rxMPacket p.val rx (rxLost s p.val rx)
      (fecCount p.val rx.fecCorrected rx.fecSymbols s) m) := by
  rw [exec_rxFrameComplete_up hs up near, rxReceive_mPacket s one]

theorem fecCount_port (p corrected : Nat) (symbols : List Nat) (s : State) (q : Nat) :
    (fecCount p corrected symbols s).port q = s.port q :=
  (congrArg (fun u : State => u.port q) (fecCount_onlyRegs p corrected symbols s) :)

/-- A start opens a frame. -/
theorem mPacket_opens (en : (s.port p.val).mac.mergeEn = true) (start : m.start = true) (last : m.last = false) :
    let t := rxMPacket p.val rx (rxLost s p.val rx) (fecCount p.val rx.fecCorrected rx.fecSymbols s) m
    Counts (Reg.MAC_STAT_LO p.val 27) 1 s t ∧
      Counts (Reg.MAC_STAT_LO p.val 29) (if (s.port p.val).mac.reasm = none then 0 else 1) s t ∧
      ((s.port p.val).mac.reasm ≠ none → t.get (Reg.MAC_EVENT p.val) Fld.MAC_EVENT_ASM_ERR = 1) ∧ Opened s p.val rx m t := by
  have started := rxStart_started p.val rx s
  have opens := rxMPacket_start (rx := rx) (lost := rxLost s p.val rx) (m := m)
    (s := fecCount p.val rx.fecCorrected rx.fecSymbols s) (p := p.val) (by rw [fecCount_port]; exact en) start
  dsimp only at opens ⊢
  rw [opens, last, if_neg Bool.false_ne_true, started.times.limit, started.times.point]
  have held := reasmHold_held p.val ⟨m.frameCount.val, 0, m.bytes, {}, maxLenAt s p.val rx.sfdAge, rxPoint s p.val rx.sfdAge⟩
    (rxStart p.val (fecCount p.val rx.fecCorrected rx.fecSymbols s))
  obtain ⟨a, holds, cells⟩ := held.holds
  refine ⟨?_, ?_, fun was => held.event.trans (started.event was), a, holds, fun none => ?_⟩
  · rw [Counts, held.stat 27 (by decide)]
    exact started.counts
  · rw [Counts, held.stat 29 (by decide)]
    exact started.errors
  · rw [cells rfl, started.cells none]

/-- A start that is the last mPacket too is a whole frame. -/
theorem mPacket_whole (en : (s.port p.val).mac.mergeEn = true) (start : m.start = true) (last : m.last = true) :
    rxMPacket p.val rx (rxLost s p.val rx) (fecCount p.val rx.fecCorrected rx.fecSymbols s) m =
      rxWhole p.val rx (rxLost s p.val rx) false (maxLenAt s p.val rx.sfdAge) (rxPoint s p.val rx.sfdAge) {} m.bytes
        (rxStart p.val (fecCount p.val rx.fecCorrected rx.fecSymbols s)) := by
  have started := rxStart_started p.val rx s
  rw [rxMPacket_start (by rw [fecCount_port]; exact en) start]
  dsimp only
  rw [last, if_pos rfl, started.times.limit, started.times.point]

/-- What a whole frame made of fragments leaves, and that it is judged. -/
theorem mPacket_whole_spec (en : (s.port p.val).mac.mergeEn = true) (start : m.start = true) (last : m.last = true) :
    let t := rxMPacket p.val rx (rxLost s p.val rx) (fecCount p.val rx.fecCorrected rx.fecSymbols s) m
    Counts (Reg.MAC_STAT_LO p.val 27) 1 s t ∧ Counts (Reg.MAC_STAT_LO p.val 1) (m.bytes.length + 4) s t ∧
      (t.port p.val).mac.reasm = none ∧ SameMem s t ∧ Counts (Reg.MAC_STAT_LO p.val 28) 0 s t ∧
      Counts (Reg.MAC_STAT_LO p.val 29) (if (s.port p.val).mac.reasm = none then 0 else 1) s t ∧
      ((s.port p.val).mac.reasm ≠ none → t.get (Reg.MAC_EVENT p.val) Fld.MAC_EVENT_ASM_ERR = 1) := by
  have started := rxStart_started p.val rx s
  obtain ⟨octets, stat, event, mem, part⟩ := rxWhole_spec p.isLt rx (rxLost s p.val rx) (maxLenAt s p.val rx.sfdAge)
    (rxPoint s p.val rx.sfdAge) {} m.bytes (rxStart p.val (fecCount p.val rx.fecCorrected rx.fecSymbols s))
  dsimp only
  rw [mPacket_whole en start last]
  refine ⟨?_, ?_, ?_, fun a => by rw [mem, started.mem], ?_, ?_, fun was => event.trans (started.event was)⟩
  · rw [Counts, stat 27 (by decide)]
    exact started.counts
  · rw [Counts, octets, started.stat 1 (by decide) (by decide) (by decide)]
  · rw [started.dropped] at part
    exact Option.isNone_iff_eq_none.1 (Option.isSome_eq_false_iff.1 part)
  · rw [Counts, stat 28 (by decide), started.stat 28 (by decide) (by decide) (by decide), Nat.add_zero]
    exact (Nat.mod_eq_of_lt (s.cntGet_lt _)).symm
  · rw [Counts, stat 29 (by decide)]
    exact started.errors

/-- A continuation that is expected. -/
theorem mPacket_continues {r : Reasm} (en : (s.port p.val).mac.mergeEn = true) (start : m.start = false)
    (holds : (s.port p.val).mac.reasm = some r) (frameCount : r.frameCount = m.frameCount.val)
    (fragCount : r.nextFrag = m.fragCount.val) :
    let t := rxMPacket p.val rx (rxLost s p.val rx) (fecCount p.val rx.fecCorrected rx.fecSymbols s) m
    Counts (Reg.MAC_STAT_LO p.val 27) 1 s t ∧
      (m.last = false → ∃ a : Arrival, (t.port p.val).mac.reasm =
        some { r with nextFrag := (r.nextFrag + 1) % 4, bytes := r.bytes ++ m.bytes, arrival := a }) ∧
      (m.last = true → Counts (Reg.MAC_STAT_LO p.val 28) 1 s t ∧ (t.port p.val).mac.reasm = none ∧
        Counts (Reg.MAC_STAT_LO p.val 1) (r.bytes.length + m.bytes.length + 4) s t) := by
  have counted := rxFragment_counts p.val rx s
  have next := rxMPacket_next (rx := rx) (lost := rxLost s p.val rx) (m := m) (p := p.val)
    (s := fecCount p.val rx.fecCorrected rx.fecSymbols s) (r := r) (by rw [fecCount_port]; exact en) start
    (by rw [fecCount_port]; exact holds) frameCount fragCount
  dsimp only
  rw [next]
  cases last : m.last with
  | false =>
    have held := reasmHold_held p.val { r with nextFrag := (r.nextFrag + 1) % 4, bytes := r.bytes ++ m.bytes }
      (rxFragment p.val rx s)
    obtain ⟨a, holds, -⟩ := held.holds
    rw [if_neg Bool.false_ne_true]
    refine ⟨?_, fun _ => ⟨a, holds⟩, fun h => absurd h Bool.false_ne_true⟩
    rw [Counts, ← counted]
    exact held.stat 27 (by decide)
  | true =>
    obtain ⟨octets, stat, -, -, part⟩ := rxWhole_spec p.isLt rx (rxLost s p.val rx) r.limit r.point r.arrival
      (r.bytes ++ m.bytes) (macStat p.val 28 1 (reasmSet p.val none (rxFragment p.val rx s)))
    have before (k : Nat) (hk : k < 41) (ne : k ≠ 27) :
        (reasmSet p.val none (rxFragment p.val rx s)).cntGet (Reg.MAC_STAT_LO p.val k) =
          s.cntGet (Reg.MAC_STAT_LO p.val k) := rxFragment_stat p.val rx s hk ne
    rw [if_pos rfl]
    refine ⟨?_, fun h => absurd h.symm Bool.false_ne_true, fun _ => ⟨?_, ?_, ?_⟩⟩
    · rw [Counts, ← counted]
      exact (stat 27 (by decide)).trans (cntGet_macStat_ne p.val 1 (by decide) (by decide) (by decide) _)
    · rw [Counts, ← before 28 (by decide) (by decide)]
      exact (stat 28 (by decide)).trans (counts_macStat p.val 1 (by decide) _)
    · rw [macStat_port, reasmSet_port] at part
      exact Option.isNone_iff_eq_none.1 (Option.isSome_eq_false_iff.1 part)
    · have second := cntGet_macStat_ne p.val 1 (show 1 ≠ 28 by decide) (by decide) (by decide)
        (reasmSet p.val none (rxFragment p.val rx s))
      rw [Counts, ← before 1 (by decide) (by decide), ← List.length_append, ← second]
      exact octets

end

/-! ### A frame at the express MAC, and mPackets -/

/-- With EN 0 an mPacket is an SMD error and nothing else. -/
theorem mPacket_off_spec (p : Nat) (rx : RxFrame) (s : State) :
    let t := macStat p 30 1 (fecCount p rx.fecCorrected rx.fecSymbols s)
    Counts (Reg.MAC_STAT_LO p 30) 1 s t ∧ t.ports = s.ports ∧ t.stations = s.stations := by
  have corrected := ((fecCount_still p rx.fecCorrected rx.fecSymbols s).toRxFollows.mono fec_le_quiet).stat
    (show 30 < 41 by decide)
  have only := (fecCount_onlyRegs p rx.fecCorrected rx.fecSymbols s).trans (macStat_onlyRegs p 30 1 _)
  refine ⟨?_, (congrArg State.ports only :), (congrArg State.stations only :)⟩
  rw [Counts, ← corrected]
  exact counts_macStat p 1 (by decide) _

/-- A charged frame takes its place in its lane, and the frames that REORDER holds of other ports theirs. -/
theorem forward_ends {p : Nat} {rx : RxFrame} {limit : Nat} {tagged : Bool} {s u : State}
    (none : ∀ h ∈ s.tinker.heldRx, h.port ≠ p) (follows : RxFollows QuietReg p (rxUncharged p rx limit tagged s) u)
    (f : Frame) : let t := heldStep p (laneEnqueue (stationOf p) f u)
    laneOf t (stationOf p) f.cls = laneOf u (stationOf p) f.cls ++ [f] ∧ Counts (Reg.MAC_STAT_LO p 2) 1 s t ∧
      Counts (Reg.MAC_STAT_LO p 0) (rx.bytes.length + 4) s t ∧ t.mem = s.mem := by
  have all := (rxUncharged_follows (p := p) (s := s) (rx := rx) (limit := limit) (tagged := tagged)).trans
    (follows.mono quiet_le_rx)
  obtain ⟨frames, octets⟩ := rxGood_counts (p := p) (s := s) (rx := rx) (limit := limit) (tagged := tagged)
  have held := all.none_held none
  have stations := heldStep_stations (p := p) (s := laneEnqueue (stationOf p) f u) held
  dsimp only
  refine ⟨?_, ?_, ?_, ?_⟩
  · rw [← laneOf_laneEnqueue, laneOf, State.stn, stations]
    rfl
  · rw [Counts, heldStep_cntGet]
    exact (follows.stat (by decide)).trans frames
  · rw [Counts, heldStep_cntGet]
    exact (follows.stat (by decide)).trans octets
  · rw [(heldStep_frame p _).mem]
    exact all.mem

/-- A bit reads 1. -/
theorem getB_of_get_one {s : State} {a : Nat} {f : Field} (h : s.get a f = 1) : s.getB a f = true := by
  rw [State.getB, h]
  rfl

/-- Settles O14: a bad frame by `rxReceive_bad`, one that is charged and waits by `rxReceive_forward`, and the mPackets by
what reassembly leaves. -/
theorem receivedFramesAreCheckedAndCharged : Obligations.ReceivedFramesAreCheckedAndCharged := by
  unfold Obligations.ReceivedFramesAreCheckedAndCharged
  refine ⟨fun s p rx hs => ?_, fun s p rx hs state stopping near frame linkLost code fcs long fits => ?_,
    fun s p rx m hs up near one => ?_⟩
  · intro n lost limit
    refine ⟨fun up near frame bad => ?_, fun state far frame => exec_rxFrameComplete_far hs state far frame,
      fun down state linkLost => exec_rxFrameComplete_down hs down state linkLost,
      fun up near none => exec_rxFrameComplete_loopEmpty hs up near none⟩
    exact ⟨_, exec_rxFrameComplete_up hs up near, rxReceive_bad s frame rfl bad⟩
  · intro tags st d data forward off active draining full none n room free
    have good := not_bad state stopping linkLost code fcs long fits
    obtain ⟨f, u, received, frame', follows, lanes⟩ := rxReceive_forward p.isLt s frame rfl good data forward off active
      draining full (room.imp_right fun ⟨split, held⟩ => ⟨split, held⟩) free
    have cls : f.cls = d.cls := frame'.2.2.1
    obtain ⟨lane, counts, octets, mem⟩ := forward_ends none follows f
    rw [cls] at lane
    refine ⟨_, (exec_rxFrameComplete_up hs (linkUp_iff.2 (.inl state)) near).trans (congrArg _ received), ⟨f, ?_, frame'⟩, ?_,
      counts, octets, fun a => by rw [mem]⟩
    · exact (congrArg List.getLast? lane).trans List.getLast?_concat
    · refine (congrArg List.length lane).trans ?_
      rw [List.length_append, laneOf_length lanes]
      rfl
  · intro mac st limit opened
    have received := exec_mPacket hs up near one
    refine ⟨fun off => ⟨_, received, ?_⟩, fun en start last holds => ⟨_, received, ?_⟩,
      fun en start last holds => ⟨_, received, ?_⟩, fun en start last => ⟨_, received, ?_⟩,
      fun en start stray => ⟨_, received, ?_⟩,
      fun r en start holds frameCount fragCount => ⟨_, received, mPacket_continues en start holds frameCount fragCount⟩⟩
    · rw [rxMPacket_off (by rw [fecCount_port]; exact off)]
      exact mPacket_off_spec p.val rx s
    · obtain ⟨counts, -, -, opens⟩ := mPacket_opens (rx := rx) en start last
      exact ⟨counts, opens⟩
    · obtain ⟨-, errors, event, opens⟩ := mPacket_opens (rx := rx) en start last
      rw [if_neg holds] at errors
      exact ⟨errors, getB_of_get_one (event holds), opens⟩
    · obtain ⟨fragment, octets, dropped, mem, assembled, errors, event⟩ := mPacket_whole_spec (rx := rx) en start last
      refine ⟨fragment, octets, dropped, mem, assembled, errors, fun holds => getB_of_get_one (event holds),
        fun state stopping linkLost code long fits fcs => ?_⟩
      have lost := rxLost_of_up state stopping linkLost
      have started := rxStart_started p.val rx s
      rw [mPacket_whole en start last, lost, Counts, ← started.stat 7 (by decide) (by decide) (by decide)]
      exact rxWhole_badFcs _ _ code long fits fcs
    · rw [rxMPacket_stray (by rw [fecCount_port]; exact en) start (by rw [fecCount_port]; exact stray)]
      have failed := asmError_failed p.val (rxFragment p.val rx s)
      refine ⟨?_, getB_of_get_one failed.event, failed.dropped⟩
      rw [Counts, ← rxFragment_stat p.val rx s (show 29 < 41 by decide) (by decide)]
      exact failed.counts

end Sys2Proof.Machine

/-! SUPPORT. PRS_CFG and PRS_STATUS (R110, R111): what a write of PRS_CFG stores, and when it is an error. -/
namespace Sys2Proof.Machine

/-! ### A word that is stored -/

/-- A field that software reads and writes holds what has been stored. -/
theorem State.get_store_rw {a : Nat} {h : RegHit} (hit : regAt a = some h) {f : Field} (hf : f ∈ h.reg.fields)
    (rw : f.acc = .rw) (s : State) (v : Word) : (s.store a v).get a f = f.of v := by
  rw [State.store_of_regAt hit, State.get_eq, State.rd_wr_same, Field.of_storeWord (regAt_sound hit).tiled hf,
    Field.stored, rw]

/-- A field that is set by writing 1 keeps the ones that it holds (Table 00.5). -/
theorem State.get_store_w1s {a : Nat} {h : RegHit} (hit : regAt a = some h) {f : Field} (hf : f ∈ h.reg.fields)
    (w1s : f.acc = .w1s) (s : State) (v : Word) : (s.store a v).get a f = s.get a f ||| f.of v := by
  rw [State.store_of_regAt hit, State.get_eq, State.rd_wr_same, Field.of_storeWord (regAt_sound hit).tiled hf,
    Field.stored, w1s]
  rfl

theorem State.store_onlyRegsOf (s : State) (a : Nat) (v : Word) : OnlyRegsOf [a] s (s.store a v) := by
  unfold State.store
  split
  · exact s.wr_onlyRegsOf a _
  · exact .refl _ s

theorem OnlyRegsOf.mono {l m : List Nat} {s t : State} (h : OnlyRegsOf l s t) (hlm : ∀ a ∈ l, a ∈ m) :
    OnlyRegsOf m s t :=
  ⟨h.1, fun a ha => h.2 a fun hl => ha (hlm a hl)⟩

theorem OnlyRegsOf.rd_eq {a b : Nat} {s t : State} (h : OnlyRegsOf [a] s t) (hb : b ≠ a) : t.rd b = s.rd b :=
  h.2 b (by simpa using hb)

/-! ### PRS_CFG and PRS_STATUS -/

theorem prsCfg_ne_status (st : Nat) : Reg.PRS_CFG st ≠ Reg.PRS_STATUS st := by
  simp [Reg.PRS_CFG, Reg.PRS_STATUS]

theorem bootStatus_ne_prsCfg (st : Nat) : Reg.BOOT_STATUS ≠ Reg.PRS_CFG st := fun e =>
  absurd (e.trans_ge (le_reg st 0xc0000)) (by decide)

/-- The fields of PRS_CFG (Table 05.10). -/
def prsCfgFields : List Field :=
  [Fld.PRS_CFG_COMMIT, Fld.PRS_CFG_ACTIVE, Fld.PRS_CFG_FRAG_MODE, Fld.PRS_CFG_RECIRC_START, Fld.PRS_CFG_INJ_START]

theorem regAt_prsCfg (st : Station) : ∃ h, regAt (Reg.PRS_CFG st.val) = some h ∧ h.reg.name = "PRS_CFG" ∧
    h.reg.fields = prsCfgFields ∧ h.reg.part = .whole ∧ h.idx = [st.val] := by
  have index : ∀ st : Station, (regAt (Reg.PRS_CFG st.val)).map
      (fun h => (h.reg.name, h.reg.fields, h.reg.part, h.idx)) = some ("PRS_CFG", prsCfgFields, .whole, [st.val]) := by
    decide +kernel
  simpa using index st

/-- PRS_CFG takes ACTIVE and RECIRC_START, and keeps a COMMIT that is set (R110). -/
theorem store_prsCfg (st : Station) (v : Word) (s : State) :
    activePlane (s.store (Reg.PRS_CFG st.val) v) st.val = Fld.PRS_CFG_ACTIVE.of v ∧
      (s.store (Reg.PRS_CFG st.val) v).get (Reg.PRS_CFG st.val) Fld.PRS_CFG_RECIRC_START =
        Fld.PRS_CFG_RECIRC_START.of v ∧
      (s.store (Reg.PRS_CFG st.val) v).get (Reg.PRS_CFG st.val) Fld.PRS_CFG_COMMIT =
        s.get (Reg.PRS_CFG st.val) Fld.PRS_CFG_COMMIT ||| Fld.PRS_CFG_COMMIT.of v := by
  obtain ⟨h, hit, -, fields, -, -⟩ := regAt_prsCfg st
  exact ⟨State.get_store_rw hit (by simp [fields, prsCfgFields]) rfl s v,
    State.get_store_rw hit (by simp [fields, prsCfgFields]) rfl s v,
    State.get_store_w1s hit (by simp [fields, prsCfgFields]) rfl s v⟩

/-- PRS_CFG takes a word that leaves OLD_BUSY as it is. -/
theorem prsCfgWrite_same (st : Nat) {v : Word} {s : State} (same : Fld.PRS_CFG_ACTIVE.of v = activePlane s st) :
    prsCfgWrite st v s = s.store (Reg.PRS_CFG st) v := by
  simp [prsCfgWrite, same]

/-- A switch while the old plane drains is an error (R111). -/
theorem prsCfgWrite_busy (st : Nat) {v : Word} {s : State} (flips : Fld.PRS_CFG_ACTIVE.of v ≠ activePlane s st)
    (busy : oldBusy s st = true) : prsCfgWrite st v s = prsWrErr st s := by
  simp [prsCfgWrite, flips, busy]

/-- A switch is taken, and in full service the old plane drains from then on (R111, R421). -/
theorem prsCfgWrite_switch (st : Nat) {v : Word} {s : State} (flips : Fld.PRS_CFG_ACTIVE.of v ≠ activePlane s st)
    (drained : oldBusy s st = false) : prsCfgWrite st v s =
      if s.full st then (s.store (Reg.PRS_CFG st) v).raise (Reg.PRS_STATUS st) Fld.PRS_STATUS_OLD_BUSY
      else s.store (Reg.PRS_CFG st) v := by
  have full : (s.store (Reg.PRS_CFG st) v).full st = s.full st := by
    rw [State.full, State.full, State.get_of_rd ((s.store_onlyRegsOf _ v).rd_eq (bootStatus_ne_prsCfg st))]
  simp [prsCfgWrite, flips, drained, full]

theorem prsWrErr_spec (st : Nat) (s : State) :
    (prsWrErr st s).getB (Reg.PRS_STATUS st) Fld.PRS_STATUS_WR_ERR = true ∧
      oldBusy (prsWrErr st s) st = oldBusy s st ∧ OnlyRegsOf [Reg.PRS_STATUS st] s (prsWrErr st s) :=
  ⟨getB_of_get_one (s.get_raise_same _ Fld.PRS_STATUS_WR_ERR (by decide) rfl),
    congrArg (· != 0) (s.get_raise_apart _ (f := Fld.PRS_STATUS_WR_ERR) (by decide) (by decide)),
    s.put_onlyRegsOf _ _ _⟩

/-- What a switch of planes leaves (R111). -/
theorem prsCfgWrite_switched (st : Station) {v : Word} {s : State}
    (flips : Fld.PRS_CFG_ACTIVE.of v ≠ activePlane s st.val) (drained : oldBusy s st.val = false) :
    let t := prsCfgWrite st.val v s
    activePlane t st.val = Fld.PRS_CFG_ACTIVE.of v ∧
      t.get (Reg.PRS_CFG st.val) Fld.PRS_CFG_RECIRC_START = Fld.PRS_CFG_RECIRC_START.of v ∧
      oldBusy t st.val = s.full st.val ∧ OnlyRegsOf [Reg.PRS_CFG st.val, Reg.PRS_STATUS st.val] s t := by
  obtain ⟨active, recirc, -⟩ := store_prsCfg st v s
  have only := (s.store_onlyRegsOf (Reg.PRS_CFG st.val) v).mono
    (m := [Reg.PRS_CFG st.val, Reg.PRS_STATUS st.val]) (by simp)
  have status := (s.store_onlyRegsOf _ v).rd_eq (prsCfg_ne_status st.val).symm
  dsimp only
  rw [prsCfgWrite_switch st.val flips drained]
  generalize s.store (Reg.PRS_CFG st.val) v = u at *
  cases full : s.full st.val with
  | false =>
    rw [if_neg Bool.false_ne_true]
    exact ⟨active, recirc, (State.getB_of_rd status _).trans drained, only⟩
  | true =>
    rw [if_pos rfl]
    have raised : OnlyRegsOf [Reg.PRS_STATUS st.val] u (u.raise (Reg.PRS_STATUS st.val) Fld.PRS_STATUS_OLD_BUSY) :=
      u.put_onlyRegsOf _ _ _
    have cfg (f : Field) := State.get_of_rd (raised.rd_eq (prsCfg_ne_status st.val)) f
    exact ⟨(cfg _).trans active, (cfg _).trans recirc,
      getB_of_get_one (u.get_raise_same _ Fld.PRS_STATUS_OLD_BUSY (by decide) rfl),
      only.trans (raised.mono (by simp))⟩

end Sys2Proof.Machine

/-! SUPPORT. The node and transition memories (R111): which words they have, what each keeps, and when a write of one is
stored. -/
namespace Sys2Proof.Machine

/-- A word of which `keep` masks what is kept, at an address of plane pl of the node or transition memory. -/
def ParseWord (st : Station) (pl keep a : Nat) : Prop :=
  a % 4 = 0 ∧ ∃ o idx, o < 0x340000 ∧ a = stationBase st.val + 0xC0000 + o ∧ parseMemAt o = some (pl, keep, idx)

/-- The bits that word w of a node keeps (Table 05.1). -/
def nodeKeep (w : Nat) : Nat := if w = 0 then 0 else if w = 1 then 0xFFFFFFF8 else 0xFFFFFFFF

/-- The bits that word w of a transition entry keeps (Table 05.4). -/
def transKeep (w : Nat) : Nat := if w = 0 then 0xFFFFFFFF else 0x81FF0000

theorem parseMemAt_node {pl n w : Nat} (hpl : pl < 2) (hn : n < 256) (hw : w < 4) :
    parseMemAt (0x10000 + (pl * 0x1000 + n * 0x10 + w * 4)) = some (pl, nodeKeep w, nodeIdx pl n) := by
  have place : (0x10000 + (pl * 0x1000 + n * 0x10 + w * 4) - 0x10000) / 4 = pl * 1024 + n * 4 + w := by omega
  have plane : (pl * 1024 + n * 4 + w) / 1024 = pl := by omega
  have word : (pl * 1024 + n * 4 + w) % 4 = w := by omega
  have node : (pl * 1024 + n * 4 + w) % 1024 / 4 = n := by omega
  rw [parseMemAt, if_pos (by omega)]
  simp only [place, plane, word, node]
  interval_cases w <;> rfl

theorem parseMemAt_trans {pl i w : Nat} (hpl : pl < 2) (hi : i < 2048) (hw : w < 2) :
    parseMemAt (0x20000 + (pl * 0x4000 + i * 8 + w * 4)) = some (pl, transKeep w, transIdx pl i) := by
  have place : (0x20000 + (pl * 0x4000 + i * 8 + w * 4) - 0x20000) / 4 = pl * 4096 + i * 2 + w := by omega
  have plane : (pl * 4096 + i * 2 + w) / 4096 = pl := by omega
  have word : (pl * 4096 + i * 2 + w) % 2 = w := by omega
  have entry : (pl * 4096 + i * 2 + w) % 4096 / 2 = i := by omega
  rw [parseMemAt, if_neg (by omega), if_pos (by omega)]
  simp only [place, plane, word, entry, transKeep]

theorem parseWord_node (st : Station) {pl n w : Nat} (hpl : pl < 2) (hn : n < 256) (hw : w < 4) :
    ParseWord st pl (nodeKeep w) (Reg.PRS_NODE st.val pl n w) :=
  ⟨by unfold Reg.PRS_NODE stationBase; omega, _, _, by omega, by unfold Reg.PRS_NODE; omega,
    parseMemAt_node hpl hn hw⟩

theorem parseWord_trans (st : Station) {pl i w : Nat} (hpl : pl < 2) (hi : i < 2048) (hw : w < 2) :
    ParseWord st pl (transKeep w) (Reg.PRS_TRANS st.val pl i w) :=
  ⟨by unfold Reg.PRS_TRANS stationBase; omega, _, _, by omega, by unfold Reg.PRS_TRANS; omega,
    parseMemAt_trans hpl hi hw⟩

theorem trans_ne_node (st : Nat) {pl n w i : Nat} (hpl : pl < 2) (hn : n < 256) :
    Reg.PRS_TRANS st pl i w ≠ Reg.PRS_NODE st pl n w := by
  unfold Reg.PRS_TRANS Reg.PRS_NODE
  omega

theorem and_nodeKeep (w : Nat) (v : Word) : v &&& BitVec.ofNat 32 (nodeKeep w) =
    if w = 0 then 0#32 else if w = 1 then v &&& 0xFFFFFFF8#32 else v := by
  unfold nodeKeep
  split_ifs
  · exact BitVec.and_zero
  · rfl
  · exact BitVec.and_allOnes

theorem and_transKeep (w : Nat) (v : Word) : v &&& BitVec.ofNat 32 (transKeep w) =
    if w = 0 then v else v &&& 0x81FF0000#32 := by
  unfold transKeep
  split_ifs
  · exact BitVec.and_allOnes
  · rfl

/-- A write of a word that errors in no memory is the word's alone (R395). -/
theorem odWrite_parse {s : State} (sound : s.sound) (st idx : Nat) : odWrite 13 st idx s = s := by
  obtain ⟨errors, arm, -⟩ := sound
  have clear : odClear 13 st idx (memEnergy 13 st s) = s := by
    have spent : memEnergy 13 st s = s := if_neg (by decide)
    rw [spent, odClear, errors]
    exact congrArg (fun l => { s with tinker := { s.tinker with errors := l } }) errors.symm
  rw [odWrite, clear, odPlant, arm]
  rfl

/-- A word of the inactive plane is stored while the old plane is drained; any other write is an error. -/
theorem exec_parseMemoryWrite {s : State} (hs : s.running) {st : Station} {pl keep a : Nat}
    (word : ParseWord st pl keep a) (v : Word) : ∃ idx, exec (.parseMemoryWrite a v) s = .next
      (if pl = activePlane s st.val ∨ oldBusy s st.val = true then prsWrErr st.val s
        else odWrite 13 st.val idx (s.wr a (v &&& BitVec.ofNat 32 keep))) := by
  obtain ⟨aligned, o, idx, bound, rfl, place⟩ := word
  have st12 := st.isLt
  have station : (stationBase st.val + 0xC0000 + o - stationBase 0) / (stationBase 1 - stationBase 0) = st.val := by
    unfold stationBase
    omega
  have offset : stationBase st.val + 0xC0000 + o - stationBase st.val - 0xC0000 = o := by omega
  have inside : ¬ (stationBase st.val + 0xC0000 + o < stationBase 0 ∨ 12 ≤ st.val) := by
    unfold stationBase
    omega
  have block : ¬ stationBase st.val + 0xC0000 + o < stationBase st.val + 0xC0000 := by omega
  refine ⟨idx, (act_running hs _).trans (congrArg _ ?_)⟩
  simp only [aligned, Nat.sub_zero, parseMemWrite, station, if_neg inside, offset, place, if_neg block]

theorem sound_wr {s : State} (sound : s.sound) {a : Nat} (apart : a ≠ Reg.TNK_MEMINJ) (v : Word) : (s.wr a v).sound :=
  ⟨sound.1, (State.getB_of_rd (State.rd_wr_ne s apart.symm v) _).trans sound.2.1, sound.2.2⟩

theorem ParseWord.stored {s : State} (hs : s.running) (sound : s.sound) {st : Station} {pl keep a : Nat}
    (word : ParseWord st pl keep a) (inactive : pl ≠ activePlane s st.val) (drained : oldBusy s st.val = false)
    (v : Word) : exec (.parseMemoryWrite a v) s = .next (s.wr a (v &&& BitVec.ofNat 32 keep)) := by
  obtain ⟨idx, written⟩ := exec_parseMemoryWrite hs word v
  obtain ⟨-, o, -, -, rfl, -⟩ := word
  have apart : stationBase st.val + 0xC0000 + o ≠ Reg.TNK_MEMINJ := by
    rw [Nat.add_assoc]
    exact reg_ne_memInj _ _
  rw [written, if_neg (by simp [inactive, drained]), odWrite_parse (sound_wr sound apart _)]

theorem ParseWord.refused {s : State} (hs : s.running) {st : Station} {pl keep a : Nat}
    (word : ParseWord st pl keep a) (held : pl = activePlane s st.val ∨ oldBusy s st.val = true) (v : Word) :
    exec (.parseMemoryWrite a v) s = .next (prsWrErr st.val s) := by
  obtain ⟨idx, written⟩ := exec_parseMemoryWrite hs word v
  rw [written, if_pos held]

/-- A word of either memory, with what a write of it stores. -/
theorem parseWord_of_reg (st : Station) {pl n w x : Nat} (hpl : pl < 2) (hn : n < 256) (hw : w < 4)
    (reg : x = Reg.PRS_NODE st.val pl n w ∨ ∃ i < 2048, w < 2 ∧ x = Reg.PRS_TRANS st.val pl i w) :
    ∃ keep, ParseWord st pl keep x ∧ (x = Reg.PRS_NODE st.val pl n w → keep = nodeKeep w) ∧
      (x ≠ Reg.PRS_NODE st.val pl n w → keep = transKeep w) := by
  rcases reg with rfl | ⟨i, hi, hw2, rfl⟩
  · exact ⟨_, parseWord_node st hpl hn hw, fun _ => rfl, fun other => absurd rfl other⟩
  · exact ⟨_, parseWord_trans st hpl hi hw2, fun same => absurd same (trans_ne_node _ hpl hn), fun _ => rfl⟩

end Sys2Proof.Machine

/-! SUPPORT. The punt buckets (R114): a write of a word stores it and fills the bucket. -/
namespace Sys2Proof.Machine

theorem regAt_puntBurst (g : Guild) (r : Fin 64) : ∃ h, regAt (Reg.HIF_PUNT_BKT_BURST g.val r.val) = some h ∧
    h.reg.fields = [Fld.HIF_PUNT_BKT_BURST_BURST] := by
  have index : ∀ (g : Guild) (r : Fin 64), (regAt (Reg.HIF_PUNT_BKT_BURST g.val r.val)).map (fun h => h.reg.fields) =
      some [Fld.HIF_PUNT_BKT_BURST_BURST] := by decide +kernel
  exact Option.map_eq_some_iff.1 (index g r)

theorem regAt_puntRate (g : Guild) (r : Fin 64) : ∃ h, regAt (Reg.HIF_PUNT_BKT_RATE g.val r.val) = some h ∧
    h.reg.fields = [Fld.HIF_PUNT_BKT_RATE_RATE] := by
  have index : ∀ (g : Guild) (r : Fin 64), (regAt (Reg.HIF_PUNT_BKT_RATE g.val r.val)).map (fun h => h.reg.fields) =
      some [Fld.HIF_PUNT_BKT_RATE_RATE] := by decide +kernel
  exact Option.map_eq_some_iff.1 (index g r)

/-- Since s, bucket r of Guild g has been filled: it is not listed, the other buckets keep their tokens, and but for the
bucket's two words nothing that software sees has changed. -/
def BucketFilled (g r : Nat) (s t : State) : Prop :=
  aget? r (t.guild g).buckets = none ∧
    (∀ k, k ≠ r → aget? k (t.guild g).buckets = aget? k (s.guild g).buckets) ∧
    SameRegsBut [Reg.HIF_PUNT_BKT_BURST g r, Reg.HIF_PUNT_BKT_RATE g r] s t ∧ SameMem s t

/-- A store to a word of the bucket, and the fill that follows it. -/
theorem puntBucketFill_store {g r a : Nat} (word : a ∈ [Reg.HIF_PUNT_BKT_BURST g r, Reg.HIF_PUNT_BKT_RATE g r])
    (v : Word) (s : State) : BucketFilled g r s (puntBucketFill g r (s.store a v)) := by
  have only := s.store_onlyRegsOf a v
  have hosts : (s.store a v).guild g = s.guild g := (congrArg (fun t : State => t.guild g) only.1 :)
  refine ⟨?_, fun k hk => ?_, (only.mono (by simpa using word)).2, only.sameMem⟩
  · rw [puntBucketFill, State.guild_modGuild_same]
    exact aget?_adel_same r _
  · rw [puntBucketFill, State.guild_modGuild_same, hosts]
    exact aget?_adel_ne hk _

theorem puntBucketWrite_filled (g r : Nat) (burst : Bool) (v : Word) (s : State) :
    BucketFilled g r s (puntBucketWrite g r burst v s) := by
  cases burst with
  | true => exact puntBucketFill_store List.mem_cons_self v s
  | false => exact puntBucketFill_store (List.mem_cons_of_mem _ List.mem_cons_self) v s

theorem puntBucketWrite_burst (g : Guild) (r : Fin 64) (v : Word) (s : State) :
    (puntBucketWrite g.val r.val true v s).get (Reg.HIF_PUNT_BKT_BURST g.val r.val) Fld.HIF_PUNT_BKT_BURST_BURST =
      Fld.HIF_PUNT_BKT_BURST_BURST.of v := by
  obtain ⟨h, hit, fields⟩ := regAt_puntBurst g r
  exact State.get_store_rw hit (by simp [fields]) rfl s v

theorem puntBucketWrite_rate (g : Guild) (r : Fin 64) (v : Word) (s : State) :
    (puntBucketWrite g.val r.val false v s).get (Reg.HIF_PUNT_BKT_RATE g.val r.val) Fld.HIF_PUNT_BKT_RATE_RATE =
      Fld.HIF_PUNT_BKT_RATE_RATE.of v := by
  obtain ⟨h, hit, fields⟩ := regAt_puntRate g r
  exact State.get_store_rw hit (by simp [fields]) rfl s v

end Sys2Proof.Machine

/-! SUPPORT and the obligation O19. The salt of the flow keys (R110, R433): what keeps COMMIT and the words that it
locks. -/
namespace Sys2Proof.Machine

/-! ### What is kept -/

/-- What station st's keys are salted with stays: in u keys are taken as in s, with the salt of s. -/
def SaltHeld (st : Nat) (s u : State) : Prop := keysOn u st = true ∧ prsSalt u st = prsSalt s st

/-- Register a is a word of the salt, or the one whose COMMIT locks the salt. -/
abbrev IsSaltOrCfg (st a : Nat) : Prop := a = Reg.PRS_SALT_LO st ∨ a = Reg.PRS_SALT_HI st ∨ a = Reg.PRS_CFG st

theorem saltHeld_of_rd {st : Nat} {s u : State} (on : keysOn s st = true)
    (cfg : u.rd (Reg.PRS_CFG st) = s.rd (Reg.PRS_CFG st)) (lo : u.rd (Reg.PRS_SALT_LO st) = s.rd (Reg.PRS_SALT_LO st))
    (hi : u.rd (Reg.PRS_SALT_HI st) = s.rd (Reg.PRS_SALT_HI st)) : SaltHeld st s u :=
  ⟨(State.getB_of_rd cfg _).trans on, by simp only [prsSalt, State.rdN, lo, hi]⟩

theorem SaltHeld.of_regs {st : Nat} {s u : State} (on : keysOn s st = true) (regs : u.regs = s.regs) :
    SaltHeld st s u :=
  saltHeld_of_rd on (State.rd_of_regs regs _) (State.rd_of_regs regs _) (State.rd_of_regs regs _)

theorem SaltHeld.refl {st : Nat} {s : State} (on : keysOn s st = true) : SaltHeld st s s := ⟨on, rfl⟩

theorem SaltHeld.trans {st : Nat} {s t u : State} (h : SaltHeld st s t) (k : SaltHeld st t u) : SaltHeld st s u :=
  ⟨k.1, k.2.trans h.2⟩

/-! ### The words of the salt -/

/-- A word that its commit bit locks as a whole stays (R433). -/
theorem storeWord_locked (old new : Word) : storeWord [Fld.PRS_SALT_LO_VALUE] true old new = old := by
  have whole (w : Word) : Fld.PRS_SALT_LO_VALUE.of w = w.toNat :=
    (congrArg (· % 2 ^ 32) (Nat.div_one _)).trans (Nat.mod_eq_of_lt w.isLt)
  have kept := Field.of_storeWord (fs := [Fld.PRS_SALT_LO_VALUE]) (by decide) List.mem_cons_self true old new
  rw [whole] at kept
  exact BitVec.eq_of_toNat_eq (kept.trans (whole old))

/-- A word of the salt: a register of one RWL field, which COMMIT of PRS_CFG locks. -/
structure IsSalt (st : Station) (part : WordPart) (h : RegHit) : Prop where
  fields : h.reg.fields = [Fld.PRS_SALT_LO_VALUE]
  part : h.reg.part = part
  notTlyLow : h.reg.name ≠ "TLY_HOST_BASE_LO"
  notTlyHigh : h.reg.name ≠ "TLY_HOST_BASE_HI"
  commit : h.reg.commit.map (h.inst + ·) = some (Reg.PRS_CFG st.val)

/-- What the index says of the register at an address: its fields, its part, its name, and the register whose bit 31
locks it. -/
def lockView (a : Nat) : Option (List Field × WordPart × String × Option Nat) :=
  (regAt a).map fun h => (h.reg.fields, h.reg.part, h.reg.name, h.reg.commit.map (h.inst + ·))

theorem isSalt_of_lockView {st : Station} {part : WordPart} {name : String} {a : Nat}
    (view : lockView a = some ([Fld.PRS_SALT_LO_VALUE], part, name, some (Reg.PRS_CFG st.val)))
    (low : name ≠ "TLY_HOST_BASE_LO") (high : name ≠ "TLY_HOST_BASE_HI") :
    ∃ h, regAt a = some h ∧ IsSalt st part h := by
  obtain ⟨h, hit, e⟩ := Option.map_eq_some_iff.1 view
  simp only [Prod.mk.injEq] at e
  obtain ⟨fields, part, rfl, commit⟩ := e
  exact ⟨h, hit, fields, part, low, high, commit⟩

theorem regAt_saltLo (st : Station) : ∃ h, regAt (Reg.PRS_SALT_LO st.val) = some h ∧ IsSalt st .low h := by
  have index : ∀ st : Station, lockView (Reg.PRS_SALT_LO st.val) =
      some ([Fld.PRS_SALT_LO_VALUE], .low, "PRS_SALT_LO", some (Reg.PRS_CFG st.val)) := by decide +kernel
  exact isSalt_of_lockView (index st) (by decide) (by decide)

theorem regAt_saltHi (st : Station) : ∃ h, regAt (Reg.PRS_SALT_HI st.val) = some h ∧ IsSalt st .high h := by
  have index : ∀ st : Station, lockView (Reg.PRS_SALT_HI st.val) =
      some ([Fld.PRS_SALT_LO_VALUE], .high, "PRS_SALT_HI", some (Reg.PRS_CFG st.val)) := by decide +kernel
  exact isSalt_of_lockView (index st) (by decide) (by decide)

/-- COMMIT is bit 31, by which the salt is locked. -/
theorem keysOn_eq (s : State) (st : Nat) : keysOn s st = (s.rd (Reg.PRS_CFG st)).toNat.testBit 31 := by
  rw [Nat.testBit_eq_decide_div_mod_eq, keysOn, State.getB]
  have bit : s.get (Reg.PRS_CFG st) Fld.PRS_CFG_COMMIT = (s.rd (Reg.PRS_CFG st)).toNat / 2 ^ 31 % 2 := rfl
  rw [bit]
  rcases Nat.mod_two_eq_zero_or_one ((s.rd (Reg.PRS_CFG st)).toNat / 2 ^ 31) with e | e <;> rw [e] <;> rfl

/-- With COMMIT set, a word of the salt takes nothing. -/
theorem IsSalt.store_rd {st : Station} {part : WordPart} {a : Nat} {h : RegHit} (salt : IsSalt st part h)
    (hit : regAt a = some h) {s : State} (on : keysOn s st.val = true) (v : Word) (b : Nat) :
    (s.store a v).rd b = s.rd b := by
  obtain ⟨o, locks, place⟩ := Option.map_eq_some_iff.1 salt.commit
  have locked : commitLocked s h = true := by
    rw [commitLocked, locks]
    dsimp only
    rw [place, ← keysOn_eq, on]
  rw [State.store_of_regAt hit, salt.fields, locked, storeWord_locked]
  by_cases hb : b = a
  · rw [hb, State.rd_wr_same]
  · exact State.rd_wr_ne s hb _

theorem IsSalt.store_saltHeld {st : Station} {part : WordPart} {a : Nat} {h : RegHit} (salt : IsSalt st part h)
    (hit : regAt a = some h) {s : State} (on : keysOn s st.val = true) (v : Word) : SaltHeld st.val s (s.store a v) :=
  saltHeld_of_rd on (salt.store_rd hit on v _) (salt.store_rd hit on v _) (salt.store_rd hit on v _)

/-! ### Writes -/

/-- Once PRS_CFG is stored keys may be taken where COMMIT was set, or is written 1. -/
theorem store_prsCfg_keysOn (st : Station) (v : Word) (s : State) :
    keysOn (s.store (Reg.PRS_CFG st.val) v) st.val = true ↔
      keysOn s st.val = true ∨ Fld.PRS_CFG_COMMIT.of v ≠ 0 := by
  obtain ⟨-, -, commit⟩ := store_prsCfg st v s
  simp only [keysOn, State.getB, commit, bne_iff_ne, ne_eq, Nat.or_eq_zero_iff, not_and_or]

/-- A write of PRS_CFG keeps COMMIT and the salt. -/
theorem prsCfgWrite_saltHeld (st : Station) {s : State} (on : keysOn s st.val = true) (v : Word) :
    SaltHeld st.val s (prsCfgWrite st.val v s) := by
  have raised (u : State) (f : Field) (on : keysOn u st.val = true) :
      SaltHeld st.val u (u.raise (Reg.PRS_STATUS st.val) f) :=
    saltHeld_of_rd on (State.rd_put_ne u (by simp [Reg.PRS_CFG, Reg.PRS_STATUS]) f _)
      (State.rd_put_ne u (by simp [Reg.PRS_SALT_LO, Reg.PRS_STATUS]) f _)
      (State.rd_put_ne u (by simp [Reg.PRS_SALT_HI, Reg.PRS_STATUS]) f _)
  have stored : SaltHeld st.val s (s.store (Reg.PRS_CFG st.val) v) := by
    have only := s.store_onlyRegsOf (Reg.PRS_CFG st.val) v
    refine ⟨(store_prsCfg_keysOn st v s).2 (.inl on), ?_⟩
    rw [prsSalt, prsSalt, State.rdN, State.rdN, only.rd_eq (by simp [Reg.PRS_CFG, Reg.PRS_SALT_LO]),
      only.rd_eq (by simp [Reg.PRS_CFG, Reg.PRS_SALT_HI])]
    rfl
  unfold prsCfgWrite
  dsimp only
  split
  · exact raised s _ on
  · split
    · exact stored.trans (raised _ _ stored.1)
    · exact stored

/-- A plain write of a whole-word register with a hook of its own is what the hook does. -/
theorem regStore_hook {a : Nat} {h : RegHit} (hit : regAt a = some h) (part : h.reg.part = .whole) {f : WriteHook}
    (hook : (globalHooks ++ stationHooks ++ pageHooks).lookup h.reg.name = some f) (req : Requester) (v : Word)
    (s : State) : regStore req a v s = f h.idx req a v (thawKeep a s) := by
  simp only [regStore, hit, part, wordWrite, hook]

theorem regStore_prsCfg (st : Station) (req : Requester) (v : Word) (s : State) :
    regStore req (Reg.PRS_CFG st.val) v s = prsCfgWrite st.val v (thawKeep (Reg.PRS_CFG st.val) s) := by
  obtain ⟨h, hit, name, -, part, idx⟩ := regAt_prsCfg st
  have hook : (globalHooks ++ stationHooks ++ pageHooks).lookup h.reg.name =
      some fun ix _ _ => prsCfgWrite (ix0 ix) := by rw [name]; rfl
  rw [regStore_hook hit part hook, idx]
  rfl

theorem prsReg_lt (st : Station) {o : Nat} (h : o < 0x400000) : stationBase st.val + o < 0x8000000 := by
  have := st.isLt
  unfold stationBase
  omega

/-- A write of a word of the salt or of PRS_CFG keeps COMMIT and the salt. -/
theorem regStore_saltHeld (st : Station) {s : State} (on : keysOn s st.val = true) (req : Requester) {a : Nat}
    (reg : IsSaltOrCfg st.val a) (v : Word) :
    SaltHeld st.val s (regStore req a v s) := by
  obtain ⟨lo, hitLo, saltLo⟩ := regAt_saltLo st
  obtain ⟨hi, hitHi, saltHi⟩ := regAt_saltHi st
  rcases reg with rfl | rfl | rfl
  · rw [regStore_low hitLo (prsReg_lt st (by decide)) saltLo.part saltLo.notTlyLow]
    exact .of_regs on rfl
  · rw [regStore_high hitHi (prsReg_lt st (by decide)) saltHi.part saltHi.notTlyHigh]
    have kept (u : State) (b : Nat) (h : SaltHeld st.val s u) : SaltHeld st.val s (thawKeep b u) :=
      h.trans (.of_regs h.1 (thawKeep_regs b u))
    have pair : Reg.PRS_SALT_HI st.val - 4 = Reg.PRS_SALT_LO st.val := by
      unfold Reg.PRS_SALT_HI Reg.PRS_SALT_LO
      omega
    rw [highWrite, pair]
    have before := kept _ (Reg.PRS_SALT_LO st.val) (kept _ (Reg.PRS_SALT_HI st.val) (.refl on))
    have low (w : Word) := before.trans (saltLo.store_saltHeld hitLo before.1 w)
    exact (low _).trans (saltHi.store_saltHeld hitHi (low _).1 v)
  · rw [regStore_prsCfg]
    have before : SaltHeld st.val s (thawKeep (Reg.PRS_CFG st.val) s) := .of_regs on (thawKeep_regs _ s)
    exact before.trans (prsCfgWrite_saltHeld st before.1 v)

theorem placeOf_of_lt {a : Nat} (h : a < 0x8000000) (s : State) (req : Requester) :
    placeOf s req a = .setup ∨ placeOf s req a = .none := by
  unfold placeOf
  rw [if_pos h]
  cases reachesBar0 s req with
  | true => exact .inl rfl
  | false => exact .inr rfl

/-- A write of a whole word in the set-up space is the register's, or is ignored. -/
theorem regWrite_eq_or {a : Nat} (hal : a % 4 = 0) (h : a < 0x8000000) (s : State) (req : Requester) (v : Word) :
    regWrite req a v false s = regStore req a v s ∨ regWrite req a v false s = s := by
  rcases placeOf_of_lt h s req with setup | none
  · cases may : mayWrite req a with
    | true => exact .inl (regWrite_setup hal setup may)
    | false => exact .inr (by simp [regWrite, hal, setup, may])
  · exact .inr (regWrite_none hal none)

theorem regWrite_saltHeld (st : Station) {s : State} (on : keysOn s st.val = true) (req : Requester) {a : Nat}
    (reg : IsSaltOrCfg st.val a) (v : Word) :
    SaltHeld st.val s (regWrite req a v false s) := by
  obtain ⟨hal, h⟩ : a % 4 = 0 ∧ a < 0x8000000 := by
    have := st.isLt
    unfold IsSaltOrCfg Reg.PRS_SALT_LO Reg.PRS_SALT_HI Reg.PRS_CFG stationBase at reg
    omega
  rcases regWrite_eq_or hal h s req v with stored | ignored
  · rw [stored]
    exact regStore_saltHeld st on req reg v
  · rw [ignored]
    exact .refl on

/-- What a command leaves that keeps COMMIT and the salt, or does nothing in reset. -/
theorem act_saltHeld {st : Nat} {s u : State} {f : State → State} (on : keysOn s st = true) (held : SaltHeld st s (f s))
    (acts : act s f = .next u) : SaltHeld st s u := by
  cases acts
  split
  · exact .refl on
  · exact held

/-! ### The obligation -/

/-- Settles O19: a switch by `prsCfgWrite_switched`, a word of the parse memories by `ParseWord.stored`, the salt by
`SaltHeld`, and a bucket by `puntBucketWrite_filled`. -/
theorem parsePlanesChangeWhenDrained : Obligations.ParsePlanesChangeWhenDrained := by
  unfold Obligations.ParsePlanesChangeWhenDrained
  refine ⟨fun s st hs => ⟨fun v flips drained => ?_, fun v flips busy => ?_, ?_,
    fun pl n w x v hpl hn hw reg => ?_⟩, fun s st v hs commit same => ?_, fun s u st req a v on reg writes => ?_,
    fun s g r burst v hs => ?_⟩
  · exact ⟨_, act_running hs _, prsCfgWrite_switched st flips drained⟩
  · refine ⟨_, act_running hs _, ?_⟩
    rw [prsCfgWrite_busy st.val flips busy]
    obtain ⟨err, kept, only⟩ := prsWrErr_spec st.val s
    exact ⟨err, kept.trans busy, only⟩
  · refine ⟨_, act_running hs fun s => s.put (Reg.PRS_STATUS st.val) Fld.PRS_STATUS_OLD_BUSY 0, ?_,
      s.put_onlyRegsOf _ _ _⟩
    rw [oldBusy, State.getB, State.get_put_same _ _ Fld.PRS_STATUS_OLD_BUSY (by decide)]
    rfl
  · obtain ⟨keep, word, node, trans⟩ := parseWord_of_reg st hpl hn hw reg
    refine ⟨fun inactive drained sound => ⟨_, word.stored hs sound inactive drained v, s.wr_onlyRegsOf _ _,
      fun same => ?_, fun other => ?_⟩, fun held => ?_⟩
    · rw [State.rd_wr_same, node same, and_nodeKeep]
    · rw [State.rd_wr_same, trans other, and_transKeep]
    · obtain ⟨err, -, only⟩ := prsWrErr_spec st.val s
      exact ⟨_, word.refused hs held v, err, only⟩
  · refine ⟨_, act_running hs _, ?_⟩
    rw [prsCfgWrite_same st.val same]
    exact ⟨(store_prsCfg_keysOn st v s).2 (.inr (by rw [commit]; decide)), s.store_onlyRegsOf _ v⟩
  · rcases writes with register | high | cfg
    · exact act_saltHeld on (regWrite_saltHeld st on req reg v) register
    · refine act_saltHeld on ?_ high
      split
      · exact regWrite_saltHeld st on req reg v
      · exact .refl on
    · exact act_saltHeld on (prsCfgWrite_saltHeld st on v) cfg
  · refine ⟨_, act_running hs _, ?_, puntBucketWrite_filled g.val r.val burst v s⟩
    cases burst with
    | true => exact puntBucketWrite_burst g r v s
    | false => exact puntBucketWrite_rate g r v s

end Sys2Proof.Machine

/-! SUPPORT. What every operation on the endpoint and route tables leaves, whatever it finds: the memory, the commands
that the rings run, what has gone out (which only grows), the routes, and the place of each station's age sweep. -/
namespace Sys2Proof.Machine

/-! ### The rings -/

/-- Every ring runs the command that it ran, and is enabled or not as before. -/
def RingsKept (s t : State) : Prop :=
  ∀ g r, (t.ring g r).cmd = (s.ring g r).cmd ∧ (t.ring g r).enabled = (s.ring g r).enabled

namespace RingsKept

theorem refl (s : State) : RingsKept s s := fun _ _ => ⟨rfl, rfl⟩

theorem trans {s t u : State} (h : RingsKept s t) (k : RingsKept t u) : RingsKept s u :=
  fun g r => ⟨(k g r).1.trans (h g r).1, (k g r).2.trans (h g r).2⟩

theorem of_hif {s t : State} (h : t.hif = s.hif) : RingsKept s t := fun g r => by
  rw [State.ring_of_hif h]
  exact ⟨rfl, rfl⟩

theorem ite {s t u : State} {c : Prop} [Decidable c] (h : RingsKept s t) (k : RingsKept s u) :
    RingsKept s (if c then t else u) := by
  split
  · exact h
  · exact k

theorem modGuild (s : State) (g : Nat) {f : GuildHost → GuildHost} (rings : ∀ h, (f h).rings = h.rings) :
    RingsKept s (s.modGuild g f) := fun g' r => by
  by_cases e : g' = g
  · subst e
    simp only [State.ring, State.guild_modGuild_same, rings, and_self]
  · simp only [State.ring, s.guild_modGuild_ne e, and_self]

theorem modRing (s : State) (g r : Nat) {f : Ring → Ring} (cmd : ∀ x, (f x).cmd = x.cmd)
    (enabled : ∀ x, (f x).enabled = x.enabled) : RingsKept s (s.modRing g r f) := fun g' r' => by
  by_cases e : g' = g
  · subst e
    by_cases e : r' = r
    · subst e
      rw [State.ring_modRing_same]
      exact ⟨cmd _, enabled _⟩
    · rw [State.ring_modRing_ne s g' e]
      exact ⟨rfl, rfl⟩
  · simp only [State.ring, State.modRing, s.guild_modGuild_ne e, and_self]

end RingsKept

theorem tick_ringsKept (s : State) (a : Nat) : RingsKept s (s.tick a) := .of_hif (s.tick_hif a)

theorem msix_ringsKept (g v : Nat) (s : State) : RingsKept s (msix g v s) := by
  unfold msix
  split
  · exact .refl s
  · exact .ite (fun _ _ => ⟨rfl, rfl⟩) (.of_hif (by simp))

theorem ringSignalCount_ringsKept (g r : Nat) (s : State) : RingsKept s (ringSignalCount g r s) :=
  .ite ((msix_ringsKept g _ s).trans (.modRing _ g r (fun _ => rfl) fun _ => rfl)) (.refl s)

theorem ringWrite_ringsKept (g r : Nat) (d : List Byte) (s : State) : RingsKept s (ringWrite g r d s) := by
  refine .trans ?_ (ringSignalCount_ringsKept g r _)
  refine .trans (t := dmaWrite g _ _ s) (.of_hif ?_) (.modRing _ g r (fun _ => rfl) fun _ => rfl)
  exact State.tick_hif _ _

theorem postEvent_ringsKept (g code : Nat) (body : List Byte) (s : State) : RingsKept s (postEvent g code body s) := by
  have marked (f : GuildHost → GuildHost) (rings : ∀ h, (f h).rings = h.rings) :
      RingsKept s ((s.modGuild g f).tick (Reg.GLD_CNT_LO g 7)) :=
    (RingsKept.modGuild s g rings).trans (tick_ringsKept _ _)
  unfold postEvent
  split
  · refine .ite ((RingsKept.modGuild s g ?_).trans (ringWrite_ringsKept g _ _ _)) (marked _ ?_)
    all_goals exact fun _ => rfl
  · exact marked _ fun _ => rfl

/-! ### The registers beyond the host interface -/

/-- The registers between the host interface's counters and the Guild pages hold what they held. -/
def BlocksKept (s t : State) : Prop := ∀ a, 0xc00500 ≤ a → a < guildPageBase 0 → t.rd a = s.rd a

namespace BlocksKept

theorem refl (s : State) : BlocksKept s s := fun _ _ _ => rfl

theorem trans {s t u : State} (h : BlocksKept s t) (k : BlocksKept t u) : BlocksKept s u :=
  fun a lo hi => (k a lo hi).trans (h a lo hi)

theorem of_regs {s t : State} (h : t.regs = s.regs) : BlocksKept s t := fun a _ _ => State.rd_of_regs h a

theorem ite {s t u : State} {c : Prop} [Decidable c] (h : BlocksKept s t) (k : BlocksKept s u) :
    BlocksKept s (if c then t else u) := by
  split
  · exact h
  · exact k

theorem hifTick {k : Nat} (hk : k < 16) (s : State) : BlocksKept s (s.tick (Reg.HIF_CNT_LO k)) := fun a lo _ => by
  refine s.rd_cnt_ne ?_ ?_ 1 <;> unfold Reg.HIF_CNT_LO <;> omega

theorem guildTick (g k : Nat) (s : State) : BlocksKept s (s.tick (Reg.GLD_CNT_LO g k)) := fun a _ hi => by
  refine s.rd_cnt_ne ?_ ?_ 1 <;> unfold Reg.GLD_CNT_LO <;> unfold guildPageBase at * <;> omega

end BlocksKept

theorem msix_blocksKept (g v : Nat) (s : State) : BlocksKept s (msix g v s) := by
  unfold msix
  split
  · exact .refl s
  · exact .ite (.of_regs rfl) ((BlocksKept.hifTick (by decide) (s.emit _)).trans (.guildTick g 8 _))

theorem ringWrite_blocksKept (g r : Nat) (d : List Byte) (s : State) : BlocksKept s (ringWrite g r d s) := by
  have written (o : Output) (f : Ring → Ring) :
      BlocksKept s (((s.emit o).tick (Reg.HIF_CNT_LO 1)).modRing g r f) :=
    (BlocksKept.hifTick (by decide) (s.emit o)).trans (.of_regs rfl)
  refine (written _ _).trans (.ite ?_ (.refl _))
  exact (msix_blocksKept g _ _).trans (.of_regs rfl)

theorem postEvent_blocksKept (g code : Nat) (body : List Byte) (s : State) :
    BlocksKept s (postEvent g code body s) := by
  have marked (f : GuildHost → GuildHost) : BlocksKept s (s.modGuild g f) := .of_regs rfl
  unfold postEvent
  split
  · exact .ite ((marked _).trans (ringWrite_blocksKept g _ _ _)) ((marked _).trans (.guildTick g 7 _))
  · exact (marked _).trans (.guildTick g 7 _)

/-! ### A step on the tables -/

/-- What every operation on the endpoint and route tables leaves. -/
structure TableStep (s t : State) : Prop where
  out : ∃ new, t.out = new ++ s.out
  rings : RingsKept s t
  mem : t.mem = s.mem
  boot : t.boot = s.boot
  routes : t.routes = s.routes
  sweepAt : ∀ n, (t.stn n).ept.sweepAt = (s.stn n).ept.sweepAt

namespace TableStep

theorem refl (s : State) : TableStep s s := ⟨⟨[], rfl⟩, .refl s, rfl, rfl, rfl, fun _ => rfl⟩

theorem trans {s t u : State} (h : TableStep s t) (k : TableStep t u) : TableStep s u := by
  obtain ⟨new, ht⟩ := h.out
  obtain ⟨more, hu⟩ := k.out
  exact ⟨⟨more ++ new, by rw [hu, ht, List.append_assoc]⟩, h.rings.trans k.rings, k.mem.trans h.mem,
    k.boot.trans h.boot, k.routes.trans h.routes, fun n => (k.sweepAt n).trans (h.sweepAt n)⟩

theorem ite {s t u : State} {c : Prop} [Decidable c] (h : TableStep s t) (k : TableStep s u) :
    TableStep s (if c then t else u) := by
  split
  · exact h
  · exact k

theorem foldl {α : Type} {f : State → α → State} (h : ∀ s x, TableStep s (f s x)) (l : List α) (s : State) :
    TableStep s (l.foldl f s) := by
  induction l generalizing s with
  | nil => exact refl s
  | cons x l ih => exact (h s x).trans (ih _)

theorem sameMem {s t : State} (h : TableStep s t) : SameMem s t := fun a => by rw [h.mem]

/-- An operation that reaches nothing but registers, energy, planted errors and free values. -/
theorem of_frame {s t : State} (h : t = { s with
    regs := t.regs, energy := t.energy, tinker := t.tinker, fresh := t.fresh, routeBad := t.routeBad }) :
    TableStep s t := by
  rw [h]
  exact ⟨⟨[], rfl⟩, fun _ _ => ⟨rfl, rfl⟩, rfl, rfl, rfl, fun _ => rfl⟩

theorem wr (s : State) (a : Nat) (v : Word) : TableStep s (s.wr a v) := of_frame rfl

theorem put (s : State) (a : Nat) (f : Field) (v : Nat) : TableStep s (s.put a f v) := wr s a _

theorem modStn (s : State) (n : Nat) {f : Stn → Stn} (h : ∀ x, (f x).ept.sweepAt = x.ept.sweepAt) :
    TableStep s (s.modStn n f) := by
  refine ⟨⟨[], rfl⟩, fun _ _ => ⟨rfl, rfl⟩, rfl, rfl, rfl, fun k => ?_⟩
  by_cases e : k = n
  · subst e
    rw [State.stn_modStn_same]
    exact h _
  · rw [s.stn_modStn_ne e]

theorem modEpt (s : State) (n : Nat) {f : Ept → Ept} (h : ∀ x, (f x).sweepAt = x.sweepAt) :
    TableStep s (s.modEpt n f) := modStn s n fun _ => h _

theorem modTasks (s : State) (n : Nat) (f : Tasks → Tasks) : TableStep s (s.modTasks n f) := modStn s n fun _ => rfl

theorem cnt (s : State) (a n : Nat) : TableStep s (s.cnt a n) := by
  unfold State.cnt
  exact ite (refl s) (of_frame rfl)

theorem tick (s : State) (a : Nat) : TableStep s (s.tick a) := cnt s a 1

theorem of_sends {s t : State} (h : Sends s t) (rings : RingsKept s t) : TableStep s t :=
  ⟨h.1, rings, h.mem, by rw [h.2], by rw [h.2], fun n => by rw [h.2]; rfl⟩

end TableStep

/-! ### Planted errors, events and tasks -/

theorem energy_step (st acc kind : Nat) (s : State) : TableStep s (energy st acc kind s) := .of_frame rfl

theorem memEnergy_step (mem st : Nat) (s : State) : TableStep s (memEnergy mem st s) :=
  .ite (.of_frame rfl) (.refl s)

theorem odClear_step (mem st idx : Nat) (s : State) : TableStep s (odClear mem st idx s) := .of_frame rfl

theorem odPlant_step (mem st idx : Nat) (s : State) : TableStep s (odPlant mem st idx s) := by
  unfold odPlant
  exact .ite (.of_frame rfl) (.refl s)

theorem odPart_step (mem st idx : Nat) (s : State) : TableStep s (odPart mem st idx s) :=
  (memEnergy_step mem st s).trans (odPlant_step mem st idx _)

theorem odWrite_step (mem st idx : Nat) (s : State) : TableStep s (odWrite mem st idx s) :=
  ((memEnergy_step mem st s).trans (odClear_step mem st idx _)).trans (odPlant_step mem st idx _)

theorem postEvent_step (g code : Nat) (body : List Byte) (s : State) : TableStep s (postEvent g code body s) :=
  .of_sends (sends_postEvent g code body s) (postEvent_ringsKept g code body s)

theorem odReport_step (cls mem st idx : Nat) (s : State) : TableStep s (odReport cls mem st idx s) := by
  have recorded (t : State) (c m n : Nat) (w : Word) : TableStep t (
      if t.getB Reg.TNK_ERR_LAST0 Fld.TNK_ERR_LAST0_VALID then t
      else ((((t.put Reg.TNK_ERR_LAST0 Fld.TNK_ERR_LAST0_CLASS c).put Reg.TNK_ERR_LAST0 Fld.TNK_ERR_LAST0_MEM m).put
        Reg.TNK_ERR_LAST0 Fld.TNK_ERR_LAST0_STATION n).raise Reg.TNK_ERR_LAST0 Fld.TNK_ERR_LAST0_VALID).wr
          Reg.TNK_ERR_LAST1 w) :=
    .ite (.refl t) (((((TableStep.put t _ _ _).trans (.put _ _ _ _)).trans (.put _ _ _ _)).trans (.put _ _ _ _)).trans
      (.wr _ _ _))
  have corrected (t : State) (x : Tinker) : TableStep t (
      if ({ t with tinker := x } : State).get Reg.TNK_ERR_TH Fld.TNK_ERR_TH_COUNT ≤ t.tinker.ceSince + 1 then
        ({ t with tinker := x } : State).raise Reg.TNK_ERR_EVENT Fld.TNK_ERR_EVENT_CE_TH
      else { t with tinker := x }) := .ite (.of_frame rfl) (.of_frame rfl)
  have known := (TableStep.tick s (Reg.TNK_ERR_CNT_LO cls)).trans (recorded _ cls mem
    (if mem = 14 ∨ mem = 15 ∨ mem = 17 then 15 else st) (BitVec.ofNat 32 idx))
  unfold odReport
  dsimp only
  split
  · exact known.trans (corrected _ _)
  · exact (known.trans (.put _ _ _ _)).trans (postEvent_step _ _ _ _)
  · exact (known.trans (.put _ _ _ _)).trans (postEvent_step _ _ _ _)

theorem odRead_step (mem st idx : Nat) (s : State) : TableStep s (odRead mem st idx s).2 := by
  have spent := memEnergy_step mem st s
  unfold odRead
  dsimp only
  split
  · exact spent
  · split
    · exact spent.trans (odReport_step 1 mem st idx _)
    · refine (spent.trans ?_).trans (odReport_step 0 mem st idx _)
      exact .of_frame rfl

theorem setTask_step (st k : Nat) (x : Task) (s : State) : TableStep s (s.setTask st k x) :=
  (TableStep.modTasks s st _).trans (odPart_step 4 st k _)

theorem modTask_step (st k : Nat) (f : Task → Task) (s : State) : TableStep s (s.modTask st k f) := by
  unfold State.modTask
  split
  · exact setTask_step st k _ s
  · exact .refl s

theorem readyPush_step (st k : Nat) (head : Bool) (s : State) : TableStep s (readyPush st k head s) := by
  unfold readyPush
  split
  · exact .refl s
  · exact (setTask_step st k _ s).trans (.modTasks _ st _)

theorem depDone_step (st k : Nat) (s : State) : TableStep s (depDone st k s) := by
  unfold depDone
  split
  · exact .refl s
  · exact .ite (.refl s) (.ite ((setTask_step st k _ s).trans (readyPush_step st k false _)) (setTask_step st k _ s))

end Sys2Proof.Machine

/-! SUPPORT. A station's endpoint table as its operations see it: the table with its learn queue, the tasks, NOW, the
counters and the set-up; and what each operation on the table makes of it where no memory errs. -/
namespace Sys2Proof.Machine

/-- A register of a station's endpoint block that sets it up: the block's first registers but EPT_STATUS, up to the
quotas. -/
abbrev EptSetup (n a : Nat) : Prop :=
  stationBase n + 0x100000 ≤ a ∧ a < stationBase n + 0x100080 ∧ a ≠ Reg.EPT_STATUS n

/-- A station's endpoint table, as its operations see it, and the conditions under which a word is read and written. -/
structure EptView where
  ept : Ept
  tasks : List (Nat × Task)
  now : Nat
  count : Fin 12 → Nat
  used : Fin 8 → Nat
  setup : Nat → Nat
  armed : Bool
  errors : List OdErr

def eptView (n : Nat) (s : State) : EptView where
  ept := (s.stn n).ept
  tasks := (s.stn n).tasks.slots
  now := eptNow s n
  count i := s.cntGet (Reg.EPT_CNT_LO n i)
  used g := s.get (Reg.EPT_GUILD_CNT n g) Fld.EPT_GUILD_CNT_COUNT
  setup a := if EptSetup n a then s.inForce a else 0
  armed := s.getB Reg.TNK_MEMINJ Fld.TNK_MEMINJ_ARM
  errors := s.tinker.errors

namespace EptView

/-- No error is held, and none is armed. -/
def Clean (v : EptView) : Prop := v.armed = false ∧ v.errors = []

/-- One more in a counter. -/
def bump (i : Fin 12) (v : EptView) : EptView :=
  { v with count := Function.update v.count i ((v.count i + 1) % 2 ^ 48) }

/-- Another table. -/
def withTable (l : List (Nat × EptKey × EptEntry)) (v : EptView) : EptView :=
  { v with ept := { v.ept with table := l } }

/-- An entry at a place. -/
def write (loc : Nat) (k : EptKey) (e : EptEntry) (v : EptView) : EptView := v.withTable (aset loc (k, e) v.ept.table)

theorem count_bump_same (i : Fin 12) (v : EptView) : (v.bump i).count i = (v.count i + 1) % 2 ^ 48 :=
  Function.update_self ..

theorem count_bump_ne {i j : Fin 12} (h : j ≠ i) (v : EptView) : (v.bump i).count j = v.count j :=
  Function.update_of_ne h ..

end EptView

theorem State.sound.clean {s : State} (h : s.sound) (n : Nat) : (eptView n s).Clean := ⟨h.2.1, h.1⟩

/-! ### What is apart from it -/

theorem State.inForce_of_rd {s t : State} {a : Nat} (boot : t.boot = s.boot) (rd : t.rd a = s.rd a) :
    t.inForce a = s.inForce a := by rw [State.inForce, State.inForce, boot, rd]

theorem eptSetup_of_rd {n : Nat} {s t : State} (boot : t.boot = s.boot) (rd : ∀ a, EptSetup n a → t.rd a = s.rd a) :
    (eptView n t).setup = (eptView n s).setup :=
  funext fun a => ite_congr rfl (fun h => State.inForce_of_rd boot (rd a h)) fun _ => rfl

/-- A register outside the station's endpoint block, and not TNK_MEMINJ. -/
def EptApart (n a : Nat) : Prop :=
  a ≠ Reg.TNK_MEMINJ ∧ (a < stationBase n + 0x100000 ∨ stationBase n + 0x100180 ≤ a)

theorem eptView_of_rd {n : Nat} {s t : State} (stn : t.stn n = s.stn n) (boot : t.boot = s.boot)
    (errors : t.tinker.errors = s.tinker.errors) (rd : ∀ a, ¬ EptApart n a → t.rd a = s.rd a) :
    eptView n t = eptView n s := by
  have inside {o : Nat} (lo : 0x100000 ≤ o) (hi : o < 0x100180) : t.rd (stationBase n + o) = s.rd (stationBase n + o) :=
    rd _ fun h => by
      have := h.2
      omega
  have count : (fun i : Fin 12 => t.cntGet (Reg.EPT_CNT_LO n i)) = fun i : Fin 12 => s.cntGet (Reg.EPT_CNT_LO n i) := by
    funext i
    unfold Reg.EPT_CNT_LO
    refine State.cntGet_of_rd ?_ ?_ <;> simp only [Nat.add_assoc] <;> exact inside (by omega) (by omega)
  have used : (fun g : Fin 8 => t.get (Reg.EPT_GUILD_CNT n g) Fld.EPT_GUILD_CNT_COUNT) =
      fun g : Fin 8 => s.get (Reg.EPT_GUILD_CNT n g) Fld.EPT_GUILD_CNT_COUNT := by
    funext g
    unfold Reg.EPT_GUILD_CNT
    refine State.get_of_rd ?_ _
    rw [Nat.add_assoc]
    exact inside (by omega) (by omega)
  have setup : (eptView n t).setup = (eptView n s).setup := eptSetup_of_rd boot fun a ha => rd a fun h => by
    have := ha.1
    have := ha.2.1
    have := h.2
    omega
  have now : eptNow t n = eptNow s n := State.get_of_rd (inside (o := 0x100010) (by decide) (by decide)) _
  have armed := State.getB_of_rd (rd Reg.TNK_MEMINJ fun h => h.1 rfl) Fld.TNK_MEMINJ_ARM
  rw [EptView.mk.injEq]
  exact ⟨congrArg Stn.ept stn, congrArg (fun x : Stn => x.tasks.slots) stn, now, count, used, setup, armed, errors⟩

theorem eptApart_wr {n a : Nat} (h : EptApart n a) (s : State) (v : Word) : eptView n (s.wr a v) = eptView n s :=
  eptView_of_rd rfl rfl rfl fun _ hb => s.rd_wr_ne (fun e => by rw [e] at hb; exact hb h) v

theorem eptView_cnt {n a : Nat} (lo : EptApart n a) (hi : EptApart n (a + 4)) (s : State) (m : Nat) :
    eptView n (s.cnt a m) = eptView n s := by
  unfold State.cnt State.cntSet
  split
  · rfl
  · exact (eptApart_wr hi _ _).trans (eptApart_wr lo _ _)

/-- An operation on the rings, and nothing else, leaves it. -/
theorem eptView_of_sends {n : Nat} (hn : n < 12) {s t : State} (h : Sends s t) (blocks : BlocksKept s t) :
    eptView n t = eptView n s := by
  refine eptView_of_rd (by rw [h.2]; rfl) (by rw [h.2]) (by rw [h.2]) fun a ha => blocks a ?_ ?_ <;>
    simp only [EptApart, stationBase, guildPageBase, Reg.TNK_MEMINJ] at * <;> omega

theorem eptView_postEvent {n : Nat} (hn : n < 12) (g code : Nat) (body : List Byte) (s : State) :
    eptView n (postEvent g code body s) = eptView n s :=
  eptView_of_sends hn (sends_postEvent g code body s) (postEvent_blocksKept g code body s)

theorem eptView_eptEvent {n : Nat} (hn : n < 12) (code : Nat) (k : EptKey) (dest old : Nat) (egress quota : Bool)
    (s : State) : eptView n (eptEvent n code k dest old egress quota s) = eptView n s := by
  unfold eptEvent
  split
  · exact eptView_postEvent hn _ _ _ s
  · rfl

@[simp] theorem eptView_energy (n st acc kind : Nat) (s : State) : eptView n (energy st acc kind s) = eptView n s := rfl

@[simp] theorem eptView_memEnergy (n mem st : Nat) (s : State) : eptView n (memEnergy mem st s) = eptView n s := by
  unfold memEnergy
  split <;> rfl

/-! ### Words of the memories -/

theorem eptView_odPart {n : Nat} {s : State} (h : (eptView n s).Clean) (mem st idx : Nat) :
    eptView n (odPart mem st idx s) = eptView n s := by
  have armed : (memEnergy mem st s).getB Reg.TNK_MEMINJ Fld.TNK_MEMINJ_ARM = false :=
    (congrArg EptView.armed (eptView_memEnergy n mem st s)).trans h.1
  rw [odPart, odPlant, armed]
  exact eptView_memEnergy n mem st s

theorem eptView_odClear {n : Nat} {s : State} (h : (eptView n s).Clean) (mem st idx : Nat) :
    eptView n (odClear mem st idx s) = eptView n s := by
  have errors : s.tinker.errors = [] := h.2
  exact eptView_of_rd rfl rfl (by simp [odClear, errors]) fun _ _ => rfl

theorem eptView_odWrite {n : Nat} {s : State} (h : (eptView n s).Clean) (mem st idx : Nat) :
    eptView n (odWrite mem st idx s) = eptView n s := by
  have cleared : eptView n (odClear mem st idx (memEnergy mem st s)) = eptView n s :=
    (eptView_odClear (by rw [eptView_memEnergy]; exact h) mem st idx).trans (eptView_memEnergy n mem st s)
  have armed : (odClear mem st idx (memEnergy mem st s)).getB Reg.TNK_MEMINJ Fld.TNK_MEMINJ_ARM = false :=
    (congrArg EptView.armed cleared).trans h.1
  rw [odWrite, odPlant, armed]
  exact cleared

/-- A word is read as it is. -/
theorem odRead_of_clean {n : Nat} {s : State} (h : (eptView n s).Clean) (mem st idx : Nat) :
    odRead mem st idx s = (.clean, memEnergy mem st s) := odRead_clean (n := n) h mem st idx

/-! ### The table and the counters -/

theorem eptView_modEpt (n : Nat) (f : Ept → Ept) (s : State) :
    eptView n (s.modEpt n f) = { eptView n s with ept := f (eptView n s).ept } := by
  simp only [eptView, State.modEpt, State.stn_modStn_same]
  rfl

theorem eptView_eptWrite {n : Nat} {s : State} (h : (eptView n s).Clean) (loc : Nat) (k : EptKey) (e : EptEntry) :
    eptView n (eptWrite n loc k e s) = (eptView n s).write loc k e := by
  have changed := eptView_modEpt n (fun t => { t with table := aset loc (k, e) t.table }) s
  exact (eptView_odWrite (by rw [changed]; exact h) 7 n loc).trans changed

/-- A counter or a field of the endpoint block changes, that none of the set-up is. -/
theorem eptView_of_block {n : Nat} {s t : State} (stations : t.stations = s.stations) (boot : t.boot = s.boot)
    (errors : t.tinker.errors = s.tinker.errors) (rd : ∀ b, b = Reg.TNK_MEMINJ ∨ EptSetup n b → t.rd b = s.rd b) :
    eptView n t = { eptView n s with
      now := (eptView n t).now, count := (eptView n t).count, used := (eptView n t).used } := by
  have armed := State.getB_of_rd (rd Reg.TNK_MEMINJ (.inl rfl)) Fld.TNK_MEMINJ_ARM
  have setup := eptSetup_of_rd boot fun b hb => rd b (.inr hb)
  rw [EptView.mk.injEq]
  have same : t.stn n = s.stn n := by rw [State.stn, State.stn, stations]
  exact ⟨congrArg Stn.ept same, congrArg (fun x : Stn => x.tasks.slots) same, rfl, rfl, rfl, setup, armed, errors⟩

end Sys2Proof.Machine

/-! SUPPORT. The endpoint block's own counters, the learn queue, and the tasks that wait for their lookups, as they
change a station's endpoint table. -/
namespace Sys2Proof.Machine

/-! ### Counters of the block -/

theorem not_eptSetup_cnt (n k : Nat) : ¬ EptSetup n (Reg.EPT_CNT_LO n k) ∧ ¬ EptSetup n (Reg.EPT_CNT_LO n k + 4) := by
  unfold EptSetup Reg.EPT_CNT_LO
  omega

theorem eptView_eptCnt (n : Nat) (i : Fin 12) (s : State) : eptView n (eptCnt n i s) = (eptView n s).bump i := by
  have same {a : Nat} (lo : a ≠ Reg.EPT_CNT_LO n i) (hi : a ≠ Reg.EPT_CNT_LO n i + 4) :
      (eptCnt n i s).rd a = s.rd a := s.rd_cnt_ne lo hi 1
  have now : (eptView n (eptCnt n i s)).now = (eptView n s).now := by
    refine State.get_of_rd (same ?_ ?_) _ <;> simp only [Reg.EPT_CNT_LO, Reg.EPT_STATUS] <;> omega
  have used : (eptView n (eptCnt n i s)).used = (eptView n s).used := by
    funext g
    refine State.get_of_rd (same ?_ ?_) _ <;> simp only [Reg.EPT_CNT_LO, Reg.EPT_GUILD_CNT] <;> omega
  have count : (eptView n (eptCnt n i s)).count = ((eptView n s).bump i).count := by
    funext j
    by_cases e : j = i
    · subst e
      exact (s.cntGet_tick _).trans (EptView.count_bump_same j (eptView n s)).symm
    · have ne : (j : Nat) ≠ i := fun h => e (Fin.ext h)
      refine (State.cntGet_of_rd (same ?_ ?_) (same ?_ ?_)).trans (EptView.count_bump_ne e (eptView n s)).symm <;>
        simp only [Reg.EPT_CNT_LO] <;> omega
  have block := eptView_of_block (n := n) (s := s) (t := eptCnt n i s) (State.tick_stations s _) (State.tick_boot s _)
    (congrArg Tinker.errors (State.tick_tinker s _)) ?_
  · rw [block, now, used, count]
    rfl
  · rintro b (rfl | hb)
    · refine same ?_ ?_ <;> simp only [Reg.EPT_CNT_LO, Reg.TNK_MEMINJ, stationBase] <;> omega
    · exact same (fun e => (not_eptSetup_cnt n i).1 (e ▸ hb)) fun e => (not_eptSetup_cnt n i).2 (e ▸ hb)

/-- One register of the block changes in fields that are none of NOW. -/
theorem eptView_put {n a : Nat} (block : ∃ o, o < 0x100100 ∧ a = stationBase n + o) (setup : ¬ EptSetup n a)
    {f : Field} {v : Nat} {s : State} (now : eptNow (s.put a f v) n = eptNow s n) :
    eptView n (s.put a f v) = { eptView n s with used := (eptView n (s.put a f v)).used } := by
  obtain ⟨o, low, rfl⟩ := block
  have count : (eptView n (s.put (stationBase n + o) f v)).count = (eptView n s).count := by
    funext i
    refine State.cntGet_of_rd (s.rd_put_ne ?_ f v) (s.rd_put_ne ?_ f v) <;> simp only [Reg.EPT_CNT_LO] <;> omega
  rw [eptView_of_block (n := n) (s := s) (t := s.put (stationBase n + o) f v) rfl rfl rfl ?_, count]
  · exact congrArg
      (fun m => { eptView n s with now := m, used := (eptView n (s.put (stationBase n + o) f v)).used }) now
  · rintro b (rfl | hb)
    · exact s.rd_put_ne (reg_ne_memInj n o).symm f v
    · exact s.rd_put_ne (fun e => setup (by rw [← e]; exact hb)) f v

theorem eptView_learnShow (n : Nat) (s : State) : eptView n (learnShow n s) = eptView n s := by
  have status : ¬ EptSetup n (Reg.EPT_STATUS n) := fun h => h.2.2 rfl
  have now : eptNow (learnShow n s) n = eptNow s n := by
    unfold eptNow learnShow
    rw [State.get_eq, State.put, State.rd_wr_same, Field.of_into_apart (by decide) (by decide)]
    rfl
  have used : (eptView n (learnShow n s)).used = (eptView n s).used := by
    funext g
    refine State.get_put_ne s ?_ _ _ _
    simp only [Reg.EPT_GUILD_CNT, Reg.EPT_STATUS]
    omega
  refine (eptView_put ⟨0x100010, by decide, rfl⟩ status now).trans ?_
  exact congrArg (fun u => { eptView n s with used := u }) used

theorem eptView_eptGuildAdd (n : Nat) {g : Nat} (hg : g < 8) (m : Int) (s : State) :
    ∃ u, eptView n (eptGuildAdd n g m s) = { eptView n s with used := u } := by
  have setup : ¬ EptSetup n (Reg.EPT_GUILD_CNT n g) := by
    unfold EptSetup Reg.EPT_GUILD_CNT
    omega
  have apart : Reg.EPT_STATUS n ≠ Reg.EPT_GUILD_CNT n g := by
    unfold Reg.EPT_STATUS Reg.EPT_GUILD_CNT
    omega
  exact ⟨_, eptView_put ⟨0x100080 + g * 4, by omega, Nat.add_assoc ..⟩ setup (s.get_put_ne apart _ _ _)⟩

/-! ### Places that are read and freed -/

theorem eptReadAt_of_clean {n : Nat} {s : State} (h : (eptView n s).Clean) (loc : Nat) :
    eptReadAt n loc s = (s.eptAt n loc, memEnergy 7 n s) := by
  have same : (memEnergy 7 n s).eptAt n loc = s.eptAt n loc :=
    congrArg (fun v : EptView => aget? loc v.ept.table) (eptView_memEnergy n 7 n s)
  simp only [eptReadAt, odRead_of_clean h, same]

theorem eptView_eptReads {α : Type} {n : Nat} (loc : α → Nat) (l : List α) {s : State} (h : (eptView n s).Clean) :
    eptView n (l.foldl (fun s x => (eptReadAt n (loc x) s).2) s) = eptView n s := by
  induction l generalizing s with
  | nil => rfl
  | cons x l ih =>
    have read : eptView n (eptReadAt n (loc x) s).2 = eptView n s := by
      rw [eptReadAt_of_clean h]
      exact eptView_memEnergy n 7 n s
    exact (ih (by rw [read]; exact h)).trans read

theorem eptView_eptCheck {n : Nat} (k : EptKey) {s : State} (h : (eptView n s).Clean) :
    eptView n (eptCheck n k s) = eptView n s := eptView_eptReads id (eptLocs k) h

theorem eptView_eptRemove {n loc : Nat} {s : State} {k : EptKey} {e : EptEntry} (at_ : s.eptAt n loc = some (k, e))
    (hg : k.guild < 8) :
    ∃ u, eptView n (eptRemove n loc s) =
      { (eptView n s).withTable (adel loc (eptView n s).ept.table) with used := u } := by
  unfold eptRemove
  rw [at_]
  obtain ⟨u, used⟩ := eptView_eptGuildAdd n hg (-1) (s.modEpt n fun t => { t with table := adel loc t.table })
  exact ⟨u, used.trans (congrArg (fun v : EptView => { v with used := u }) (eptView_modEpt n _ s))⟩

/-! ### The learn queue -/

theorem eptView_learnPush {n : Nat} (r : LearnReq) {s : State} (h : (eptView n s).Clean) :
    eptView n (learnPush n r s) =
      { eptView n s with ept := { (eptView n s).ept with queue := (eptView n s).ept.queue ++ [r] } } := by
  have pushed := eptView_modEpt n (fun t => { t with queue := t.queue ++ [r] }) s
  refine (eptView_learnShow n _).trans ((eptView_odWrite ?_ 6 n _).trans pushed)
  rw [pushed]
  exact h

/-- Another learn queue, and another list of the commands that wait for room in it. -/
def EptView.withQueue (q : List LearnReq) (b : List (Nat × Nat)) (head : Nat) (v : EptView) : EptView :=
  { v with ept := { v.ept with queue := q, blocked := b, head := head } }

theorem eptView_learnPushes {n : Nat} (l : List (Nat × Nat)) {s : State} (h : (eptView n s).Clean) :
    ∃ q, eptView n (l.foldl (fun s x => learnPush n (.cmd x.1 x.2) s) s) =
      (eptView n s).withQueue q (eptView n s).ept.blocked (eptView n s).ept.head := by
  induction l generalizing s with
  | nil => exact ⟨_, rfl⟩
  | cons x l ih =>
    have pushed := eptView_learnPush (.cmd x.1 x.2) h
    obtain ⟨q, all⟩ := ih (s := learnPush n (.cmd x.1 x.2) s) (by rw [pushed]; exact h)
    exact ⟨q, by rw [List.foldl_cons, all, pushed]; rfl⟩

theorem eptView_learnAdmit {n : Nat} {s : State} (h : (eptView n s).Clean) :
    ∃ q b, eptView n (learnAdmit n s) = (eptView n s).withQueue q b (eptView n s).ept.head := by
  unfold learnAdmit
  dsimp only
  generalize 512 - (s.stn n).ept.queue.length = room
  have shown := (eptView_learnShow n _).trans (eptView_modEpt n (fun t => { t with blocked := t.blocked.drop room }) s)
  obtain ⟨q, all⟩ := eptView_learnPushes ((s.stn n).ept.blocked.take room) (by rw [shown]; exact h)
  exact ⟨q, _, all.trans (by rw [shown]; rfl)⟩

/-- The head leaves the queue; what waits for room may follow. -/
theorem eptView_learnPop {n : Nat} {s : State} (h : (eptView n s).Clean) :
    ∃ q b head, eptView n (learnPop n s) = (eptView n s).withQueue q b head := by
  have popped := eptView_modEpt n (fun t => { t with queue := t.queue.drop 1, head := (t.head + 1) % 512 }) s
  obtain ⟨q, b, all⟩ := eptView_learnAdmit (s := s.modEpt n _) (by rw [popped]; exact h)
  exact ⟨q, b, _, all.trans (by rw [popped]; rfl)⟩

/-! ### Tasks -/

theorem eptView_modTasks (n : Nat) (f : Tasks → Tasks) (s : State) :
    eptView n (s.modTasks n f) = { eptView n s with tasks := (f (s.stn n).tasks).slots } := by
  simp only [eptView, State.modTasks, State.stn_modStn_same]
  rfl

/-- An update of the tasks that leaves what the slots hold. -/
theorem eptView_modTasks_slots {n : Nat} {f : Tasks → Tasks} (h : ∀ x, (f x).slots = x.slots) (s : State) :
    eptView n (s.modTasks n f) = eptView n s := by
  rw [eptView_modTasks, h]
  rfl

theorem eptView_setTask {n : Nat} {s : State} (h : (eptView n s).Clean) (k : Nat) (x : Task) :
    eptView n (s.setTask n k x) = { eptView n s with tasks := aset k x (eptView n s).tasks } := by
  have changed := eptView_modTasks n (fun y => { y with slots := aset k x y.slots }) s
  exact (eptView_odPart (by rw [changed]; exact h) 4 n k).trans changed

/-- From s to t the tasks alone have changed, as the endpoint table sees it, and task k is x. -/
structure TaskCounted (n k : Nat) (x : Task) (s t : State) : Prop where
  rest : eptView n t = { eptView n s with tasks := (eptView n t).tasks }
  task : t.task? n k = some x

theorem TaskCounted.clean {n k : Nat} {x : Task} {s t : State} (h : TaskCounted n k x s t) (hs : (eptView n s).Clean) :
    (eptView n t).Clean := by
  rw [h.rest]
  exact hs

theorem TaskCounted.trans {n k : Nat} {x y : Task} {s t u : State} (h : TaskCounted n k x s t)
    (h' : TaskCounted n k y t u) : TaskCounted n k y s u :=
  ⟨by rw [h'.rest, h.rest], h'.task⟩

theorem TaskCounted.of_view {n k : Nat} {x : Task} {s t u : State} (h : TaskCounted n k x s t)
    (e : eptView n u = eptView n t) : TaskCounted n k x s u :=
  ⟨by rw [e]; exact h.rest, (congrArg (fun v : EptView => aget? k v.tasks) e).trans h.task⟩

theorem setTask_counted {n : Nat} {s : State} (h : (eptView n s).Clean) (k : Nat) (x : Task) :
    TaskCounted n k x s (s.setTask n k x) := by
  have view := eptView_setTask h k x
  refine ⟨by rw [view], ?_⟩
  exact (congrArg (fun v : EptView => aget? k v.tasks) view).trans (aget?_aset_same _ _ _)

theorem readyPush_counted {n k : Nat} {s : State} {x : Task} (h : (eptView n s).Clean) (hx : s.task? n k = some x)
    (head : Bool) : TaskCounted n k { x with st := .ready } s (readyPush n k head s) := by
  simp only [readyPush, hx]
  refine (setTask_counted h k _).of_view (eptView_modTasks_slots ?_ _)
  exact fun _ => rfl

/-- A waiting task whose count falls: at 0 it is READY (R243). -/
def Task.counted (x : Task) : Task :=
  { x with cnt := x.cnt - 1, st := if x.cnt - 1 = 0 then .ready else .waiting }

theorem depDone_counted {n k : Nat} {s : State} {x : Task} (h : (eptView n s).Clean) (hx : s.task? n k = some x)
    (waiting : x.st = .waiting) : TaskCounted n k x.counted s (depDone n k s) := by
  have fewer := setTask_counted h k { x with cnt := x.cnt - 1 }
  unfold depDone
  rw [hx]
  dsimp only
  rw [if_neg (by simp [waiting])]
  split
  · next last =>
    rw [Task.counted, if_pos last.1]
    exact fewer.trans (readyPush_counted (fewer.clean h) fewer.task false)
  · next more =>
    rw [Task.counted, if_neg fun e => more ⟨e, waiting⟩, ← waiting]
    exact fewer

/-- A lookup's result returns to a waiting task (R243). -/
theorem lookupDone_counted {n k : Nat} {s : State} {x : Task} (h : (eptView n s).Clean) (hx : s.task? n k = some x)
    {f : Task → Task} (waiting : (f x).st = .waiting) :
    TaskCounted n k (f x).counted s (depDone n k (s.modTask n k f)) := by
  rw [modTask_of_task hx]
  have made := setTask_counted h k (f x)
  exact made.trans (depDone_counted (made.clean h) made.task waiting)

end Sys2Proof.Machine

/-! SUPPORT. Finding a key in a station's endpoint table, inserting it (R116), and what two states share in which the
table finds, refuses and moves alike. -/
namespace Sys2Proof.Machine

/-! ### Finding a key -/

/-- A key's entry in a table, and its place. -/
def tableFind (table : List (Nat × EptKey × EptEntry)) (k : EptKey) : Option (Nat × EptEntry) :=
  (eptLocs k).findSome? fun l =>
    match aget? l table with
    | some (j, e) => if j = k then some (l, e) else none
    | none => none

theorem eptFind_eq (s : State) (n : Nat) (k : EptKey) : eptFind s n k = tableFind (eptView n s).ept.table k := rfl

theorem tableFind_some {table : List (Nat × EptKey × EptEntry)} {k : EptKey} {l : Nat} {e : EptEntry}
    (h : tableFind table k = some (l, e)) : l ∈ eptLocs k ∧ aget? l table = some (k, e) := by
  obtain ⟨m, hm, found⟩ := List.exists_of_findSome?_eq_some h
  split at found
  · next j f at_ =>
    split at found
    · next same =>
      cases found
      exact ⟨hm, same ▸ at_⟩
    · cases found
  · cases found

/-- The key stands where it is written, if no other of its places holds it, or its entry is written again. -/
theorem tableFind_aset {table : List (Nat × EptKey × EptEntry)} {k : EptKey} {l : Nat} (e : EptEntry)
    (own : ∀ r, tableFind table k = some r → r.1 = l) (place : tableFind table k = none → l ∈ eptLocs k) :
    tableFind (aset l (k, e) table) k = some (l, e) := by
  unfold tableFind at *
  generalize eptLocs k = places at own place
  induction places with
  | nil => exact absurd (place rfl) List.not_mem_nil
  | cons m rest ih =>
    by_cases here : m = l
    · subst here
      simp
    · have other : aget? m (aset l (k, e) table) = aget? m table := aget?_aset_ne here _ table
      simp only [List.findSome?_cons, other] at own place ⊢
      split at own
      · next r found =>
        refine absurd (own r rfl) ?_
        rintro rfl
        split at found
        · split at found
          · cases found
            exact here rfl
          · cases found
        · cases found
      · next none_ =>
        rw [none_] at place
        exact ih own fun h => (List.mem_cons.1 (place h)).resolve_left (Ne.symm here)

theorem tableFind_write_found {v : EptView} {k : EptKey} {l : Nat} {e : EptEntry}
    (h : tableFind v.ept.table k = some (l, e)) (e' : EptEntry) :
    tableFind (v.write l k e').ept.table k = some (l, e') :=
  tableFind_aset e' (fun r hr => by rw [Option.some.inj (hr.symm.trans h)]) fun none_ => by rw [none_] at h; cases h

theorem tableFind_write_absent {v : EptView} {k : EptKey} {l : Nat} (h : tableFind v.ept.table k = none)
    (place : l ∈ eptLocs k) (e : EptEntry) : tableFind (v.write l k e).ept.table k = some (l, e) :=
  tableFind_aset e (fun r hr => by rw [h] at hr; cases hr) fun _ => place

/-! ### States alike -/

/-- In s and t the station's table holds, finds, counts and is set up alike. -/
structure EptLike (n : Nat) (s t : State) : Prop where
  table : (eptView n t).ept.table = (eptView n s).ept.table
  now : (eptView n t).now = (eptView n s).now
  count : (eptView n t).count = (eptView n s).count
  used : (eptView n t).used = (eptView n s).used
  setup : (eptView n t).setup = (eptView n s).setup
  armed : (eptView n t).armed = (eptView n s).armed
  errors : (eptView n t).errors = (eptView n s).errors

theorem State.cfg_of_setup {n : Nat} {s t : State} (h : (eptView n t).setup = (eptView n s).setup) {a : Nat}
    (ha : EptSetup n a) (f : Field) : t.cfg a f = s.cfg a f := by
  have same := congrFun h a
  simp only [eptView, if_pos ha] at same
  rw [State.cfg, State.cfg, same]

namespace EptLike

variable {n : Nat} {s t u : State}

theorem of_view (h : eptView n t = eptView n s) : EptLike n s t := by
  constructor <;> rw [h]

theorem of_withQueue {q : List LearnReq} {b : List (Nat × Nat)} {head : Nat}
    (h : eptView n t = (eptView n s).withQueue q b head) : EptLike n s t := by
  constructor <;> rw [h] <;> rfl

theorem trans (h : EptLike n s t) (k : EptLike n t u) : EptLike n s u :=
  ⟨k.table.trans h.table, k.now.trans h.now, k.count.trans h.count, k.used.trans h.used, k.setup.trans h.setup,
    k.armed.trans h.armed, k.errors.trans h.errors⟩

theorem clean (h : EptLike n s t) (hs : (eptView n s).Clean) : (eptView n t).Clean :=
  ⟨h.armed.trans hs.1, h.errors.trans hs.2⟩

theorem eptAt (h : EptLike n s t) (l : Nat) : t.eptAt n l = s.eptAt n l := congrArg (aget? l) h.table

theorem eptNow (h : EptLike n s t) : Machine.eptNow t n = Machine.eptNow s n := h.now

theorem eptFind (h : EptLike n s t) (k : EptKey) : Machine.eptFind t n k = Machine.eptFind s n k :=
  congrArg (tableFind · k) h.table

theorem cfg (h : EptLike n s t) {a : Nat} (ha : EptSetup n a) (f : Field) : t.cfg a f = s.cfg a f :=
  State.cfg_of_setup h.setup ha f

theorem cfg_first (h : EptLike n s t) {o : Nat} (ho : o < 0x10) (f : Field) :
    t.cfg (stationBase n + (0x100000 + o)) f = s.cfg (stationBase n + (0x100000 + o)) f := by
  refine h.cfg ⟨by omega, by omega, ?_⟩ f
  unfold Reg.EPT_STATUS
  omega

theorem moveLimit (h : EptLike n s t) : Machine.moveLimit t n = Machine.moveLimit s n :=
  h.cfg_first (o := 0xc) (by decide) _

theorem moveWindow (h : EptLike n s t) : Machine.moveWindow t n = Machine.moveWindow s n :=
  congrArg (max 1) (h.cfg_first (o := 0xc) (by decide) _)

theorem ageLimit (h : EptLike n s t) : Machine.ageLimit t n = Machine.ageLimit s n :=
  congrArg (min 32767) (h.cfg_first (o := 0x4) (by decide) _)

theorem ageMode (h : EptLike n s t) :
    t.cfg (Reg.EPT_CFG n) Fld.EPT_CFG_AGE_MODE = s.cfg (Reg.EPT_CFG n) Fld.EPT_CFG_AGE_MODE :=
  h.cfg_first (o := 0) (by decide) _

theorem freezeOver (h : EptLike n s t) (e : EptEntry) : Machine.freezeOver t n e = Machine.freezeOver s n e := by
  have time : t.cfg (Reg.EPT_MOVE_CFG n) Fld.EPT_MOVE_CFG_FREEZE_TIME = s.cfg (Reg.EPT_MOVE_CFG n)
    Fld.EPT_MOVE_CFG_FREEZE_TIME := h.cfg_first (o := 0xc) (by decide) _
  rw [Machine.freezeOver, Machine.freezeOver, time, h.eptNow]

theorem overQuota (h : EptLike n s t) {g : Nat} (hg : g < 8) : eptOverQuota t n g = eptOverQuota s n g := by
  have quota : eptQuota t n g = eptQuota s n g := by
    refine congrArg (min 131072) (h.cfg ?_ _)
    unfold EptSetup Reg.EPT_QUOTA Reg.EPT_STATUS
    omega
  have used := congrFun h.used ⟨g, hg⟩
  rw [eptOverQuota, eptOverQuota, quota]
  exact congrArg (fun m => decide (eptQuota s n g ≤ m)) used

theorem chain (h : EptLike n s t) (free fuel : Nat) (seen : List Nat) (l : Nat) :
    eptChain t n free fuel seen l = eptChain s n free fuel seen l := by
  induction fuel generalizing seen l with
  | zero => rw [eptChain, eptChain, h.eptAt]
  | succ fuel ih =>
    unfold eptChain
    simp only [h.eptAt, ih]

/-- A counter of t's table is one more than of a table that counts as s's does. -/
theorem counts (h : EptLike n s t) {i : Fin 12} (w : State)
    (view : (eptView n w).count i = ((eptView n t).count i + 1) % 2 ^ 48) :
    Counts (Reg.EPT_CNT_LO n i) 1 s w := view.trans (congrArg (fun c : Fin 12 → Nat => (c i + 1) % 2 ^ 48) h.count)

end EptLike

theorem eptCheck_like {n : Nat} (k : EptKey) {s : State} (h : (eptView n s).Clean) : EptLike n s (eptCheck n k s) :=
  .of_view (eptView_eptCheck k h)

theorem eptEvent_like {n : Nat} (hn : n < 12) (code : Nat) (k : EptKey) (dest old : Nat) (egress quota : Bool)
    (s : State) : EptLike n s (eptEvent n code k dest old egress quota s) :=
  .of_view (eptView_eptEvent hn code k dest old egress quota s)

/-! ### Inserting a key -/

/-- The lowest-numbered way that is free takes the key. -/
theorem eptInsert_free {n : Nat} {k : EptKey} {s : State} (e : EptEntry) (free : ∃ l ∈ eptLocs k, s.eptAt n l = none) :
    ∃ l ∈ eptLocs k, s.eptAt n l = none ∧
      eptInsert n k e s = some (eptGuildAdd n k.guild 1 (eptWrite n l k e s)) := by
  obtain ⟨m, hm, free⟩ := free
  obtain ⟨l, hl⟩ := Option.isSome_iff_exists.1
    ((List.find?_isSome (p := fun l => (s.eptAt n l).isNone)).2 ⟨m, hm, Option.isNone_iff_eq_none.2 free⟩)
  refine ⟨l, List.mem_of_find?_eq_some hl, Option.isNone_iff_eq_none.1 (List.find?_some hl :), ?_⟩
  simp only [eptInsert, hl]

/-- A free place is a chain of no moves. -/
theorem eptChain_of_free {n l : Nat} {s : State} (free : s.eptAt n l = none) (d fuel : Nat) (seen : List Nat) :
    eptChain s n d fuel seen l = some [l] := by
  unfold eptChain
  rw [free]

/-- Where no chain of moves frees a place, none is free. -/
theorem eptInsert_full {n : Nat} {k : EptKey} {s : State} (e : EptEntry)
    (full : ∀ d, ∀ l ∈ eptLocs k, eptChain s n d 16 [] l = none) : eptInsert n k e s = none := by
  have none_free : (eptLocs k).find? (fun l => (s.eptAt n l).isNone) = none :=
    List.find?_eq_none.2 fun l hl free => by
      have chain := full 0 l hl
      rw [eptChain_of_free (Option.isNone_iff_eq_none.1 free)] at chain
      cases chain
  have drawn : EptLike n s s.drawNat.2 := .of_view rfl
  have no_chain (d m : Nat) : ((eptLocs k).rotate m).findSome? (fun l => eptChain s.drawNat.2 n d 16 [] l) = none :=
    List.findSome?_eq_none_iff.2 fun l hl => (drawn.chain d 16 [] l).trans (full d l (List.mem_rotate.1 hl))
  simp only [eptInsert, none_free, no_chain]

theorem eptView_inserted {n : Nat} {k : EptKey} {s : State} (h : (eptView n s).Clean) (hg : k.guild < 8) (e : EptEntry)
    (l : Nat) : ∃ u, eptView n (eptGuildAdd n k.guild 1 (eptWrite n l k e s)) =
      { (eptView n s).write l k e with used := u } := by
  obtain ⟨u, used⟩ := eptView_eptGuildAdd n hg 1 (eptWrite n l k e s)
  exact ⟨u, by rw [used, eptView_eptWrite h]⟩

/-! ### Entries that are written and counted -/

/-- An entry is written, counted and told of. -/
theorem eptView_told {n : Nat} (hn : n < 12) {s : State} (h : (eptView n s).Clean) (i : Fin 12) (l : Nat) (k : EptKey)
    (e : EptEntry) (code dest old : Nat) (egress quota : Bool) :
    eptView n (eptEvent n code k dest old egress quota (eptCnt n i (eptWrite n l k e s))) =
      ((eptView n s).write l k e).bump i := by
  rw [eptView_eptEvent hn, eptView_eptCnt, eptView_eptWrite h]

end Sys2Proof.Machine

/-! SUPPORT. LEARN_APPLY of a learn request (R122 to R126, Table 06.3): the head that leaves the queue, a move, and each
row
of the table as what it makes of the station's endpoint table. -/
namespace Sys2Proof.Machine

/-! ### Moves (R123) -/

theorem moveLimit_lt (s : State) (n : Nat) : moveLimit s n < 16 := Nat.mod_lt _ (by decide)

/-- An entry as a move finds it: its moves are forgotten where it has none, or its window has passed. -/
def movesAt (s : State) (n : Nat) (e : EptEntry) : EptEntry :=
  if e.mvCnt = 0 ∨ moveWindow s n ≤ ticksSince (eptNow s n) e.mvTs then { e with mvCnt := 0, mvTs := eptNow s n } else e

section
variable {n : Nat} (hn : n < 12) {s : State} (h : (eptView n s).Clean) {l new : Nat} {k : EptKey} {e : EptEntry}
  {eg : Bool}
include hn h

theorem eptMove_unlimited (limit : moveLimit s n = 0) : eptView n (eptMove n l k e new eg s) =
    ((eptView n s).write l k { e with dest := new, ts := eptNow s n, aged := false, egress := eg }).bump 4 := by
  simp only [eptMove, limit, if_true]
  exact eptView_told hn h 4 l k _ _ _ _ _ _

theorem eptMove_freezes (limit : moveLimit s n ≠ 0) (reached : (movesAt s n e).mvCnt = moveLimit s n) :
    eptView n (eptMove n l k e new eg s) =
      ((eptView n s).write l k { movesAt s n e with frozen := true, mvTs := eptNow s n }).bump 5 := by
  unfold movesAt at *
  simp only [eptMove, limit, reached, if_false, if_true]
  exact eptView_told hn h 5 l k _ _ _ _ _ _

theorem eptMove_counts (below : (movesAt s n e).mvCnt < moveLimit s n) :
    eptView n (eptMove n l k e new eg s) = ((eptView n s).write l k { movesAt s n e with
      mvCnt := (movesAt s n e).mvCnt + 1, dest := new, ts := eptNow s n, aged := false, egress := eg }).bump 4 := by
  have fits : ((movesAt s n e).mvCnt + 1) % 16 = (movesAt s n e).mvCnt + 1 := by
    have := moveLimit_lt s n
    omega
  have limit : moveLimit s n ≠ 0 := by omega
  rw [← fits]
  unfold movesAt at *
  simp only [eptMove, limit, below.ne, if_false]
  exact eptView_told hn h 4 l k _ _ _ _ _ _

/-- An entry whose freeze has expired moves as one that has not moved yet (R124). -/
theorem eptMove_unfrozen : eptView n (eptMove n l k e.unfrozen new eg s) = ((eptView n s).write l k
    { e with frozen := false, dest := new, ts := eptNow s n, aged := false, egress := eg
             mvCnt := if moveLimit s n = 0 then 0 else 1
             mvTs := if moveLimit s n = 0 then e.mvTs else eptNow s n }).bump 4 := by
  by_cases limit : moveLimit s n = 0
  · rw [eptMove_unlimited hn h limit, if_pos limit, if_pos limit]
    rfl
  · have first : movesAt s n e.unfrozen = { e.unfrozen with mvTs := eptNow s n } := if_pos (.inl rfl)
    rw [eptMove_counts hn h (by rw [first]; exact Nat.pos_of_ne_zero limit), if_neg limit, if_neg limit, first]
    rfl

end

/-! ### The rows of Table 06.3 -/

section
variable {n : Nat} (hn : n < 12) {s : State} (h : (eptView n s).Clean) {k : EptKey} {dest : Nat} {eg : Bool}

section
variable {l : Nat} {e : EptEntry} (found : eptFind s n k = some (l, e))
include h found

/-- What a request on a key that is present is applied to. -/
theorem learnApply_found : eptFind (eptCheck n k s) n k = some (l, e) := ((eptCheck_like k h).eptFind k).trans found

/-- Rows 1 to 4 of Table 06.3, in the table as it has been read. -/
theorem learnApply_of_found : learnApply n k dest eg s =
    let p := eptCheck n k s
    if e.dest = dest then
      if e.static then p else eptWrite n l k { e with ts := eptNow p n, aged := false, egress := eg } p
    else if e.static then eptEvent n 6 k dest dest eg false (eptCnt n 7 p)
    else if e.frozen then
      if freezeOver p n e then eptMove n l k e.unfrozen dest eg (eptEvent n 7 k e.dest 0 e.egress false p)
      else eptCnt n 6 p
    else eptMove n l k e dest eg p := by
  have found := learnApply_found h found
  unfold learnApply
  dsimp only
  rw [found]

theorem learnApply_refreshes (same : e.dest = dest) (dynamic : e.static = false) :
    eptView n (learnApply n k dest eg s) =
      (eptView n s).write l k { e with ts := eptNow s n, aged := false, egress := eg } := by
  have view := eptView_eptCheck k h
  have now := (eptCheck_like k h).eptNow
  rw [learnApply_of_found h found]
  generalize eptCheck n k s = p at view now ⊢
  simp only [same, dynamic, if_true, Bool.false_eq_true, if_false]
  rw [eptView_eptWrite (by rw [view]; exact h), view, now]

theorem learnApply_same_static (same : e.dest = dest) (static : e.static = true) :
    eptView n (learnApply n k dest eg s) = eptView n s := by
  rw [learnApply_of_found h found]
  simp only [same, static, if_true]
  exact eptView_eptCheck k h

include hn

theorem learnApply_static (other : e.dest ≠ dest) (static : e.static = true) :
    eptView n (learnApply n k dest eg s) = (eptView n s).bump 7 := by
  have view := eptView_eptCheck k h
  rw [learnApply_of_found h found]
  generalize eptCheck n k s = p at view ⊢
  simp only [other, static, if_true, if_false]
  rw [eptView_eptEvent hn]
  exact (eptView_eptCnt n 7 _).trans (congrArg (EptView.bump 7) view)

omit hn in
theorem learnApply_frozen (other : e.dest ≠ dest) (dynamic : e.static = false) (frozen : e.frozen = true)
    (holds : freezeOver s n e = false) : eptView n (learnApply n k dest eg s) = (eptView n s).bump 6 := by
  have view := eptView_eptCheck k h
  rw [learnApply_of_found h found]
  dsimp only
  rw [(eptCheck_like k h).freezeOver e]
  generalize eptCheck n k s = p at view ⊢
  simp only [other, dynamic, frozen, holds, Bool.false_eq_true, if_true, if_false]
  exact (eptView_eptCnt n 6 _).trans (congrArg (EptView.bump 6) view)

/-- A frozen entry whose freeze has expired is unfrozen, then moves. -/
theorem learnApply_thaws (other : e.dest ≠ dest) (dynamic : e.static = false) (frozen : e.frozen = true)
    (expired : freezeOver s n e = true) : ∃ q, eptView n q = eptView n s ∧
      learnApply n k dest eg s = eptMove n l k e.unfrozen dest eg q := by
  have view := eptView_eptCheck k h
  rw [learnApply_of_found h found]
  dsimp only
  rw [(eptCheck_like k h).freezeOver e]
  generalize eptCheck n k s = p at view ⊢
  simp only [other, dynamic, frozen, expired, Bool.false_eq_true, if_true, if_false]
  exact ⟨_, (eptView_eptEvent hn _ _ _ _ _ _ p).trans view, rfl⟩

omit hn in
theorem learnApply_moves (other : e.dest ≠ dest) (dynamic : e.static = false) (free : e.frozen = false) :
    learnApply n k dest eg s = eptMove n l k e dest eg (eptCheck n k s) := by
  rw [learnApply_of_found h found]
  simp only [other, dynamic, free, Bool.false_eq_true, if_false]

end

section
variable (absent : eptFind s n k = none) (hg : k.guild < 8)
include hn h absent hg

omit hn hg in
theorem learnApply_absent : learnApply n k dest eg s = learnAbsent n k dest eg (eptCheck n k s) := by
  have absent := ((eptCheck_like k h).eptFind k).trans absent
  unfold learnApply
  dsimp only
  rw [absent]

theorem learnApply_overQuota (exceeds : eptOverQuota s n k.guild = true) :
    eptView n (learnApply n k dest eg s) = (eptView n s).bump 3 := by
  have exceeds : eptOverQuota (eptCheck n k s) n k.guild = true := ((eptCheck_like k h).overQuota hg).trans exceeds
  rw [learnApply_absent h absent, learnAbsent, if_pos exceeds, eptView_eptEvent hn]
  exact (eptView_eptCnt n 3 _).trans (congrArg (EptView.bump 3) (eptView_eptCheck k h))

theorem learnApply_full (within : eptOverQuota s n k.guild = false)
    (full : ∀ d, ∀ l ∈ eptLocs k, eptChain s n d 16 [] l = none) :
    eptView n (learnApply n k dest eg s) = (eptView n s).bump 2 := by
  have checked := eptCheck_like k h
  have within : eptOverQuota (eptCheck n k s) n k.guild = false := (checked.overQuota hg).trans within
  simp only [learnApply_absent h absent, learnAbsent, within, Bool.false_eq_true, if_false,
    eptInsert_full _ fun d l hl => (checked.chain d 16 [] l).trans (full d l hl)]
  rw [eptView_eptEvent hn]
  exact (eptView_eptCnt n 2 _).trans (congrArg (EptView.bump 2) (eptView_eptCheck k h))

theorem learnApply_inserts (within : eptOverQuota s n k.guild = false) (free : ∃ l ∈ eptLocs k, s.eptAt n l = none) :
    ∃ l ∈ eptLocs k, s.eptAt n l = none ∧ ∃ u, eptView n (learnApply n k dest eg s) =
      EptView.bump 0 { (eptView n s).write l k { dest := dest, egress := eg, ts := eptNow s n } with used := u } := by
  have checked := eptCheck_like k h
  have within : eptOverQuota (eptCheck n k s) n k.guild = false := (checked.overQuota hg).trans within
  have free : ∃ l ∈ eptLocs k, (eptCheck n k s).eptAt n l = none := by simpa only [checked.eptAt] using free
  obtain ⟨l, hl, at_, inserted⟩ := eptInsert_free { dest := dest, egress := eg, ts := eptNow s n } free
  obtain ⟨u, view⟩ := eptView_inserted (checked.clean h) hg { dest := dest, egress := eg, ts := eptNow s n } l
  rw [eptView_eptCheck k h] at view
  refine ⟨l, hl, (checked.eptAt l).symm.trans at_, u, ?_⟩
  simp only [learnApply_absent h absent, learnAbsent, within, Bool.false_eq_true, if_false, checked.eptNow, inserted]
  rw [eptView_eptEvent hn]
  exact (eptView_eptCnt n 0 _).trans (congrArg (EptView.bump 0) view)

end
end

/-! ### The head of the queue -/

/-- A learn request at the head of the queue leaves it and is applied. -/
theorem exec_learnApply_learn {s : State} {st : Station} {k : EptKey} {dest : Nat} {eg : Bool} {rest : List LearnReq}
    (hs : s.running) (sound : s.sound) (head : (s.stn st.val).ept.queue = .learn k dest eg :: rest) :
    ∃ p, EptLike st.val s p ∧ exec (.learnApply st) s = .next (learnApply st.val k dest eg p) := by
  have clean := sound.clean st.val
  have spent := eptView_memEnergy st.val 6 st.val s
  obtain ⟨q, b, place, popped⟩ :=
    eptView_learnPop (n := st.val) (s := memEnergy 6 st.val s) (by rw [spent]; exact clean)
  refine ⟨_, .of_withQueue (popped.trans (congrArg _ spent)), ?_⟩
  rw [show exec (.learnApply st) s = execLearnApply st s from rfl, execLearnApply, act_running hs]
  simp only [head, odRead_of_clean clean, reduceCtorEq, if_false]

end Sys2Proof.Machine

/-! SUPPORT. EPT_LOOKUP_DONE (R118, R119, R243): the destination's result, what becomes of the source address,
and the task that has one lookup less to wait for. -/
namespace Sys2Proof.Machine

/-! ### What every operation leaves -/

theorem eptGuildAdd_step (n g : Nat) (m : Int) (s : State) : TableStep s (eptGuildAdd n g m s) := .put s _ _ _

theorem eptWrite_step (n l : Nat) (k : EptKey) (e : EptEntry) (s : State) : TableStep s (eptWrite n l k e s) := by
  refine .trans (.modEpt s n ?_) (odWrite_step 7 n l _)
  exact fun _ => rfl

theorem eptRemove_step (n l : Nat) (s : State) : TableStep s (eptRemove n l s) := by
  unfold eptRemove
  split
  · exact .refl s
  · refine .trans (.modEpt s n ?_) (eptGuildAdd_step n _ _ _)
    exact fun _ => rfl

theorem eptReadAt_step (n l : Nat) (s : State) : TableStep s (eptReadAt n l s).2 := by
  have read := odRead_step 7 n l s
  unfold eptReadAt
  split
  · next t e =>
    rw [e] at read
    exact (read.trans (eptRemove_step n l t)).trans (odClear_step 7 n l _)
  · next e =>
    rw [e] at read
    exact read

theorem eptCheck_step (n : Nat) (k : EptKey) (s : State) : TableStep s (eptCheck n k s) :=
  .foldl (f := fun s l => (eptReadAt n l s).2) (fun s l => eptReadAt_step n l s) _ s

theorem eptEvent_step (n code : Nat) (k : EptKey) (dest old : Nat) (egress quota : Bool) (s : State) :
    TableStep s (eptEvent n code k dest old egress quota s) := .ite (postEvent_step _ _ _ s) (.refl s)

theorem learnPush_step (n : Nat) (r : LearnReq) (s : State) : TableStep s (learnPush n r s) := by
  unfold learnPush learnShow
  refine .trans (.trans (.modEpt s n ?_) (odWrite_step 6 n _ _)) (.put _ _ _ _)
  exact fun _ => rfl

theorem learnRequest_step (n : Nat) (k : EptKey) (dest : Nat) (eg : Bool) (s : State) :
    TableStep s (learnRequest n k dest eg s) :=
  .ite (.refl s) (.ite (.tick s _) (learnPush_step n _ s))

theorem observe_step (n : Nat) (k : EptKey) (dest : Nat) (eg : Bool) (s : State) :
    TableStep s (observe n k dest eg s) := by
  unfold observe
  split
  · exact .ite (.ite (.refl s) (eptWrite_step n _ _ _ s)) (learnRequest_step n k dest eg s)
  · exact learnRequest_step n k dest eg s

theorem sourceLookup_step (n : Nat) (k : EptKey) (f : Frame) (observed : Bool) (s : State) :
    TableStep s (sourceLookup n k f observed s) :=
  (eptCheck_step n k s).trans (.ite (.refl _) (.ite (.tick _ _) (observe_step n k _ _ _)))

theorem destLookup_step (n : Nat) (k : EptKey) (b : List Byte) (r : EptResult) (s : State) :
    TableStep s (destLookup n k b r s).2 := by
  unfold destLookup
  split
  · exact .refl s
  · dsimp only
    split <;> exact (eptCheck_step n k s).trans (.tick _ _)

theorem taskEpt_step (n : Nat) (x : Task) (fid : Nat) (s : State) : TableStep s (taskEpt n x fid s).2 := by
  unfold taskEpt
  dsimp only
  generalize energy_step n 1 4 s = spent
  generalize energy n 1 4 s = p at spent ⊢
  exact (spent.trans (destLookup_step n _ _ _ p)).trans (sourceLookup_step n _ _ _ _)

/-! ### The destination -/

/-- What the destination lookup finds: nothing for a group address. -/
def destFound (s : State) (n : Nat) (k : EptKey) (b : List Byte) : Option (Nat × EptEntry) :=
  if be b 0 1 % 2 = 1 then none else eptFind s n k

theorem destFound_of_view {n : Nat} {s t : State} (h : eptView n t = eptView n s) (k : EptKey) (b : List Byte) :
    destFound t n k b = destFound s n k b := by rw [destFound, destFound, (EptLike.of_view h).eptFind]

/-- The result of the destination lookup. -/
def EptResult.found (r : EptResult) : Option (Nat × EptEntry) → EptResult
  | some (_, e) => { r with daHit := true, dest := e.dest, static := e.static }
  | none => r

/-- The destination lookup counts in two counters alone, and returns what it has found. -/
theorem destLookup_spec {n : Nat} {s : State} (h : (eptView n s).Clean) (k : EptKey) (b : List Byte) (r : EptResult) :
    (∃ c, eptView n (destLookup n k b r s).2 = { eptView n s with count := c } ∧ c 9 = (eptView n s).count 9) ∧
      (destLookup n k b r s).1 = r.found (destFound s n k b) := by
  have checked := eptView_eptCheck k h
  have counted (i : Fin 12) (ne : (9 : Fin 12) ≠ i) : ∃ c, eptView n (eptCnt n i (eptCheck n k s)) =
      { eptView n s with count := c } ∧ c 9 = (eptView n s).count 9 :=
    ⟨_, (eptView_eptCnt n i _).trans (congrArg (EptView.bump i) checked), EptView.count_bump_ne ne _⟩
  unfold destLookup destFound
  split
  · exact ⟨⟨_, rfl, rfl⟩, rfl⟩
  · dsimp only
    rw [(eptCheck_like k h).eptFind k]
    cases eptFind s n k with
    | some found => exact ⟨counted 10 (by decide), rfl⟩
    | none => exact ⟨counted 11 (by decide), rfl⟩

/-! ### The source -/

theorem ept_of_view {n : Nat} {s t : State} (h : eptView n t = eptView n s) : (t.stn n).ept = (s.stn n).ept :=
  congrArg EptView.ept h

/-- A request that no equal one awaits joins a queue that has room. -/
theorem learnRequest_pushes {n : Nat} {k : EptKey} {dest : Nat} {s : State}
    (other : ∀ r ∈ (s.stn n).ept.queue, ∀ eg, r ≠ .learn k dest eg) (room : (s.stn n).ept.queue.length < 512) :
    learnRequest n k dest false s = learnPush n (.learn k dest false) s := by
  unfold learnRequest
  dsimp only
  rw [if_neg, if_neg (Nat.not_le.2 room)]
  rw [Bool.not_eq_true, List.any_eq_false]
  intro r hr
  cases r with
  | cmd g ring => exact Bool.false_ne_true
  | learn j d eg =>
    have ne := other _ hr eg
    simp only [ne_eq, LearnReq.learn.injEq, and_true] at ne
    simpa using ne

section
variable {n : Nat} {s : State} (h : (eptView n s).Clean) {k : EptKey} {f : Frame}
include h

/-- A source that is not observed changes nothing (R119). -/
theorem sourceLookup_unobserved : eptView n (sourceLookup n k f false s) = eptView n s := by
  simp only [sourceLookup, Bool.not_false, if_true]
  exact eptView_eptCheck k h

/-- A source address that is never learned is counted. -/
theorem sourceLookup_never (never : badSource f.bytes = true) :
    eptView n (sourceLookup n k f true s) = (eptView n s).bump 9 := by
  unfold sourceLookup
  simp only [never, Bool.not_true, Bool.false_eq_true, if_false, if_true]
  exact (eptView_eptCnt n 9 _).trans (congrArg (EptView.bump 9) (eptView_eptCheck k h))

/-- A known source at its own port is refreshed. -/
theorem sourceLookup_known (learns : badSource f.bytes = false) {l : Nat} {e : EptEntry}
    (found : eptFind s n k = some (l, e)) (same : e.dest = f.inPort) (dynamic : e.static = false) :
    eptView n (sourceLookup n k f true s) =
      (eptView n s).write l k { e with ts := eptNow s n, aged := false, egress := false } := by
  have checked := eptCheck_like k h
  unfold sourceLookup
  simp only [learns, Bool.not_true, Bool.false_eq_true, if_false, observe, checked.eptFind, found, same, dynamic,
    if_true]
  rw [eptView_eptWrite (checked.clean h), eptView_eptCheck k h, checked.eptNow]

/-- A source that is new, or has moved, makes a learn request, unless an equal one waits or the queue is full. -/
theorem sourceLookup_requests (learns : badSource f.bytes = false)
    (news : ∀ l e, eptFind s n k = some (l, e) → e.dest ≠ f.inPort)
    (other : ∀ r ∈ (s.stn n).ept.queue, ∀ eg, r ≠ .learn k f.inPort eg) (room : (s.stn n).ept.queue.length < 512) :
    eptView n (sourceLookup n k f true s) = { eptView n s with
      ept := { (eptView n s).ept with queue := (eptView n s).ept.queue ++ [.learn k f.inPort false] } } := by
  have view := eptView_eptCheck k h
  have queue := congrArg Ept.queue (ept_of_view view)
  have pushed := learnRequest_pushes (n := n) (k := k) (dest := f.inPort) (s := eptCheck n k s) (by rwa [queue])
    (by rwa [queue])
  have asked : sourceLookup n k f true s = learnRequest n k f.inPort false (eptCheck n k s) := by
    unfold sourceLookup
    simp only [learns, Bool.not_true, Bool.false_eq_true, if_false, observe]
    split
    · next l e found =>
      exact if_neg (news l e (((eptCheck_like k h).eptFind k).symm.trans found))
    · rfl
  rw [asked, pushed, eptView_learnPush _ (by rw [view]; exact h), view]

/-- Whatever becomes of a source address, the table, the queue and the counters alone have changed. -/
theorem sourceLookup_view (observed : Bool) :
    ∃ e c, eptView n (sourceLookup n k f observed s) = { eptView n s with ept := e, count := c } := by
  have view := eptView_eptCheck k h
  have clean : (eptView n (eptCheck n k s)).Clean := by rw [view]; exact h
  have requested : ∃ e c, eptView n (learnRequest n k f.inPort false (eptCheck n k s)) =
      { eptView n s with ept := e, count := c } := by
    unfold learnRequest
    dsimp only
    split
    · exact ⟨_, _, view⟩
    · split
      · exact ⟨_, _, (eptView_eptCnt n 1 _).trans (congrArg (EptView.bump 1) view)⟩
      · exact ⟨_, _, (eptView_learnPush _ clean).trans (by rw [view])⟩
  unfold sourceLookup observe
  dsimp only
  split
  · exact ⟨_, _, view⟩
  · split
    · exact ⟨_, _, (eptView_eptCnt n 9 _).trans (congrArg (EptView.bump 9) view)⟩
    · split
      · split
        · split
          · exact ⟨_, _, view⟩
          · exact ⟨_, _, (eptView_eptWrite clean _ _ _).trans (by rw [view]; rfl)⟩
        · exact requested
      · exact requested

end

end Sys2Proof.Machine

/-! SUPPORT. EPT_LOOKUP_DONE (R118, R243) as one command. -/
namespace Sys2Proof.Machine

/-- A received frame's source address is observed on its first pass, under the enables of its station and port
(R119). -/
def taskObserves (s : State) (n : Nat) (x : Task) : Bool :=
  x.pass == 0 && !x.frame.inj && x.frame.learn && s.cfgB (Reg.EPT_CFG n) Fld.EPT_CFG_LEARN
    && s.cfgB (Reg.EPT_PORT n (localOf x.frame.inPort)) Fld.EPT_PORT_LEARN_EN

theorem taskObserves_iff (s : State) (n : Nat) (x : Task) : taskObserves s n x = true ↔
    x.pass = 0 ∧ x.frame.inj = false ∧ x.frame.learn = true ∧ s.cfgB (Reg.EPT_CFG n) Fld.EPT_CFG_LEARN = true ∧
      s.cfgB (Reg.EPT_PORT n (localOf x.frame.inPort)) Fld.EPT_PORT_LEARN_EN = true := by
  simp [taskObserves, and_assoc]

theorem eptSetup_port (n p : Nat) : EptSetup n (Reg.EPT_PORT n (localOf p)) := by
  have := Nat.mod_lt p (show 0 < 12 by decide)
  unfold EptSetup Reg.EPT_PORT Reg.EPT_STATUS localOf
  omega

theorem taskObserves_of_setup {n : Nat} {s t : State} (h : (eptView n t).setup = (eptView n s).setup) (x : Task) :
    taskObserves t n x = taskObserves s n x := by
  have cfg : EptSetup n (Reg.EPT_CFG n) := by
    unfold EptSetup Reg.EPT_CFG Reg.EPT_STATUS
    omega
  simp only [taskObserves, State.cfgB, State.cfg_of_setup h cfg, State.cfg_of_setup h (eptSetup_port n _)]

/-- The source key of a task's frame in a forwarding domain. -/
def Task.sourceKey (x : Task) (fid : Nat) : EptKey := ⟨x.frame.guild, fid, be x.frame.bytes 6 6⟩

/-- The destination key of a task's frame in a forwarding domain. -/
def Task.destKey (x : Task) (fid : Nat) : EptKey := ⟨x.frame.guild, fid, be x.frame.bytes 0 6⟩

/-- The state between the two lookups: as s, but for two counters. -/
structure DestLooked (n : Nat) (s d : State) : Prop where
  rest : eptView n d = { eptView n s with count := (eptView n d).count }
  nine : (eptView n d).count 9 = (eptView n s).count 9

/-- The two lookups of a task. -/
theorem taskEpt_spec {n : Nat} {s : State} (h : (eptView n s).Clean) (x : Task) (fid : Nat) :
    ∃ d, DestLooked n s d ∧ taskEpt n x fid s = (x.ept.found (destFound s n (x.destKey fid) x.frame.bytes),
      sourceLookup n (x.sourceKey fid) x.frame (taskObserves s n x) d) := by
  have clean : (eptView n (energy n 1 4 s)).Clean := h
  have found := destFound_of_view (eptView_energy n n 1 4 s) (x.destKey fid) x.frame.bytes
  have spec := destLookup_spec clean (x.destKey fid) x.frame.bytes x.ept
  have both : taskEpt n x fid s = ((destLookup n (x.destKey fid) x.frame.bytes x.ept (energy n 1 4 s)).1,
      sourceLookup n (x.sourceKey fid) x.frame
        (taskObserves (destLookup n (x.destKey fid) x.frame.bytes x.ept (energy n 1 4 s)).2 n x)
        (destLookup n (x.destKey fid) x.frame.bytes x.ept (energy n 1 4 s)).2) := by
    unfold taskEpt taskObserves Task.destKey Task.sourceKey
    dsimp only
  rw [both]
  generalize destLookup n (x.destKey fid) x.frame.bytes x.ept (energy n 1 4 s) = d at spec ⊢
  obtain ⟨⟨c, view, nine⟩, result⟩ := spec
  rw [eptView_energy] at view nine
  have setup := congrArg EptView.setup view
  have count := congrArg EptView.count view
  refine ⟨d.2, ⟨by rw [view], (congrFun count 9).trans nine⟩, ?_⟩
  rw [taskObserves_of_setup setup, result, found]

theorem task?_of_tasks {n k : Nat} {x : Task} {s t : State} (h : (eptView n t).tasks = (eptView n s).tasks)
    (hx : s.task? n k = some x) : t.task? n k = some x := (congrArg (aget? k) h).trans hx

/-- A task whose endpoint lookups have returned. -/
def Task.withEpt (x : Task) (r : EptResult) : Task := { x with eptWait := false, ept := r }

/-- EPT_LOOKUP_DONE: the two lookups, and the task that has one lookup less to wait for. -/
theorem exec_eptLookupDone {s : State} {st : Station} {k : Fin 2048} {x : Task} {fid : Nat} (hs : s.running)
    (sound : s.sound) (hx : s.task? st.val k.val = some x) (hfid : x.frame.fid = some fid) (wait : x.eptWait = true)
    (waiting : x.st = .waiting) :
    ∃ d t, DestLooked st.val s d ∧ exec (.eptLookupDone st k) s = .next t ∧ TableStep s t ∧
      TaskCounted st.val k.val (x.withEpt (x.ept.found (destFound s st.val (x.destKey fid) x.frame.bytes))).counted
        (sourceLookup st.val (x.sourceKey fid) x.frame (taskObserves s st.val x) d) t := by
  have stepped := taskEpt_step st.val x fid s
  obtain ⟨d, looked, both⟩ := taskEpt_spec (sound.clean st.val) x fid
  rw [both] at stepped
  have clean : (eptView st.val d).Clean := by
    rw [looked.rest]
    exact sound.clean st.val
  obtain ⟨e, c, after⟩ := sourceLookup_view clean (k := x.sourceKey fid) (f := x.frame) (taskObserves s st.val x)
  have tasks : (eptView st.val d).tasks = (eptView st.val s).tasks := by rw [looked.rest]
  have task := task?_of_tasks ((congrArg EptView.tasks after).trans tasks) hx
  have returned := lookupDone_counted
    (f := (Task.withEpt · (x.ept.found (destFound s st.val (x.destKey fid) x.frame.bytes))))
    (by rw [after]; exact clean) task waiting
  refine ⟨d, _, looked, ?_, (stepped.trans (modTask_step _ _ _ _)).trans (depDone_step _ _ _), returned⟩
  rw [show exec (.eptLookupDone st k) s = execEptLookupDone st k s from rfl, execEptLookupDone, act_running hs]
  simp only [hx, hfid, wait, both]
  rfl

end Sys2Proof.Machine

/-! SUPPORT and the obligation O20: what each command of the endpoint table's lookups and learning answers. -/
namespace Sys2Proof.Machine

/-! ### Lookups -/

theorem badSource_iff (b : List Byte) : badSource b = true ↔ be b 6 1 % 2 = 1 ∨ be b 6 6 = 0 := by
  simp [badSource]

/-- What the destination lookup's result is to a task that held none. -/
theorem EptResult.found_spec {r : EptResult} (none_ : r.daHit = false) (o : Option (Nat × EptEntry)) :
    match o with
    | some (_, e) => (r.found o).daHit = true ∧ (r.found o).dest = e.dest ∧ (r.found o).static = e.static
    | none => (r.found o).daHit = false := by
  cases o with
  | some found => exact ⟨rfl, rfl, rfl⟩
  | none => exact none_

section
variable {n : Nat} {s d : State} (looked : DestLooked n s d)
include looked

theorem DestLooked.clean (h : (eptView n s).Clean) : (eptView n d).Clean := by
  rw [looked.rest]
  exact h

theorem DestLooked.ept : (eptView n d).ept = (s.stn n).ept := by
  rw [looked.rest]
  rfl

theorem DestLooked.eptFind (k : EptKey) : Machine.eptFind d n k = Machine.eptFind s n k :=
  congrArg (fun e : Ept => tableFind e.table k) looked.ept

theorem DestLooked.eptNow : Machine.eptNow d n = Machine.eptNow s n :=
  (congrArg EptView.now looked.rest :)

end

theorem eptFind_of_ept {n : Nat} (t : State) {e : Ept} (h : (eptView n t).ept = e) (k : EptKey) :
    eptFind t n k = tableFind e.table k := congrArg (fun e : Ept => tableFind e.table k) h

/-- EPT_LOOKUP_DONE. -/
theorem eptLookupDone_answers {s : State} {st : Station} {k : Fin 2048} {x : Task} {fid : Nat} (hs : s.running)
    (sound : s.sound) (hx : s.task? st.val k.val = some x) (hfid : x.frame.fid = some fid) (wait : x.eptWait = true)
    (waiting : x.st = .waiting) (some_ : 1 ≤ x.cnt) (none_ : x.ept.daHit = false) :
    Answers (.eptLookupDone st k) s fun t => SameMem s t ∧ (TaskHas t st.val k.val fun y =>
      y.eptWait = false ∧ y.cnt = x.cnt - 1 ∧ y.st = (if x.cnt = 1 then .ready else .waiting) ∧
      match (if be x.frame.bytes 0 1 % 2 = 1 then none else eptFind s st.val (x.destKey fid)) with
        | some (_, e) => y.ept.daHit = true ∧ y.ept.dest = e.dest ∧ y.ept.static = e.static
        | none => y.ept.daHit = false) ∧
      ∃ d, DestLooked st.val s d ∧ ∀ v, eptView st.val (sourceLookup st.val (x.sourceKey fid) x.frame
        (taskObserves s st.val x) d) = v → (t.stn st.val).ept = v.ept ∧ (eptView st.val t).count = v.count := by
  obtain ⟨d, t, looked, done, stepped, counted⟩ := exec_eptLookupDone hs sound hx hfid wait waiting
  refine ⟨t, done, stepped.sameMem, ⟨_, counted.task, rfl, rfl, ?_, ?_⟩, d, looked, ?_⟩
  · refine if_congr ?_ rfl rfl
    show x.cnt - 1 = 0 ↔ x.cnt = 1
    omega
  · exact EptResult.found_spec none_ (destFound s st.val (x.destKey fid) x.frame.bytes)
  · rintro v rfl
    exact ⟨(congrArg EptView.ept counted.rest :), (congrArg EptView.count counted.rest :)⟩

/-! ### The obligation -/

/-- A row of Table 06.3 whose outcome is a view of the table. -/
theorem learnApply_answers {s : State} {st : Station} {k : EptKey} {dest : Nat} {eg : Bool} {rest : List LearnReq}
    (hs : s.running) (sound : s.sound) (head : (s.stn st.val).ept.queue = .learn k dest eg :: rest) {P : State → Prop}
    (h : ∀ p, EptLike st.val s p → (eptView st.val p).Clean → P (learnApply st.val k dest eg p)) :
    Answers (.learnApply st) s P := by
  obtain ⟨p, like, done⟩ := exec_learnApply_learn hs sound head
  exact ⟨_, done, h p like (like.clean (sound.clean st.val))⟩

section
variable {n : Nat} {s p : State} (like : EptLike n s p) (t : State)
include like

/-- The table stays. -/
theorem EptLike.table_of_view {v : EptView} (view : eptView n t = v) (same : v.ept.table = (eptView n p).ept.table) :
    (t.stn n).ept.table = (s.stn n).ept.table :=
  ((congrArg (fun v : EptView => v.ept.table) view).trans same).trans like.table

/-- One more in a counter. -/
theorem EptLike.counts_of_view (i : Fin 12) {v : EptView} (view : eptView n t = v.bump i)
    (count : v.count = (eptView n p).count) : Counts (Reg.EPT_CNT_LO n i) 1 s t :=
  like.counts t (by rw [view, EptView.count_bump_same, count])

/-- A row that counts alone. -/
theorem EptLike.counted (i : Fin 12) (view : eptView n t = (eptView n p).bump i) :
    (t.stn n).ept.table = (s.stn n).ept.table ∧ Counts (Reg.EPT_CNT_LO n i) 1 s t :=
  ⟨like.table_of_view t view rfl, like.counts_of_view t i view rfl⟩

end

theorem eptFind_of_written {n l : Nat} {p : State} (t : State) {k : EptKey} {e e' : EptEntry}
    (ept : (eptView n t).ept = ((eptView n p).write l k e').ept) (found : eptFind p n k = some (l, e)) :
    eptFind t n k = some (l, e') :=
  (eptFind_of_ept t ept k).trans (tableFind_write_found (v := eptView n p) found e')

/-- A row that writes the key's entry and counts. -/
theorem EptLike.written {n l : Nat} {s p : State} (like : EptLike n s p) (t : State) {k : EptKey} {e e' : EptEntry}
    (i : Fin 12) (view : eptView n t = ((eptView n p).write l k e').bump i)
    (found : Machine.eptFind p n k = some (l, e)) :
    Counts (Reg.EPT_CNT_LO n i) 1 s t ∧ Machine.eptFind t n k = some (l, e') :=
  ⟨like.counts_of_view t i view rfl, eptFind_of_written t (congrArg EptView.ept view :) found⟩

theorem EptLike.movesAt {n : Nat} {s p : State} (like : EptLike n s p) (e : EptEntry) :
    Machine.movesAt p n e = Machine.movesAt s n e := by
  rw [Machine.movesAt, Machine.movesAt, like.eptNow, like.moveWindow]

section
variable {n : Nat} (hn : n < 12) {s p : State} (like : EptLike n s p) (h : (eptView n p).Clean) {k : EptKey}
  {dest l : Nat} {eg : Bool} {e : EptEntry} (found : eptFind s n k = some (l, e))
include like h found

theorem learned_refreshed (same : e.dest = dest) (dynamic : e.static = false) :
    eptFind (learnApply n k dest eg p) n k = some (l, { e with ts := eptNow s n, aged := false, egress := eg }) := by
  have found := (like.eptFind k).trans found
  have view := learnApply_refreshes (eg := eg) h found same dynamic
  rw [like.eptNow] at view
  exact eptFind_of_written (learnApply n k dest eg p) (congrArg EptView.ept view) found

theorem learned_same_static (same : e.dest = dest) (static : e.static = true) :
    ((learnApply n k dest eg p).stn n).ept.table = (s.stn n).ept.table :=
  like.table_of_view (learnApply n k dest eg p)
    (learnApply_same_static h ((like.eptFind k).trans found) same static) rfl

include hn

theorem learned_static (other : e.dest ≠ dest) (static : e.static = true) :
    ((learnApply n k dest eg p).stn n).ept.table = (s.stn n).ept.table ∧
      Counts (Reg.EPT_CNT_LO n 7) 1 s (learnApply n k dest eg p) := by
  have view := learnApply_static (eg := eg) hn h ((like.eptFind k).trans found) other static
  exact like.counted (learnApply n k dest eg p) 7 view

omit hn in
theorem learned_frozen (other : e.dest ≠ dest) (dynamic : e.static = false) (frozen : e.frozen = true)
    (holds : freezeOver s n e = false) :
    ((learnApply n k dest eg p).stn n).ept.table = (s.stn n).ept.table ∧
      Counts (Reg.EPT_CNT_LO n 6) 1 s (learnApply n k dest eg p) := by
  have view := learnApply_frozen (eg := eg) h ((like.eptFind k).trans found) other dynamic frozen
    ((like.freezeOver e).trans holds)
  exact like.counted (learnApply n k dest eg p) 6 view

/-- A move without a limit. -/
theorem learned_moved (other : e.dest ≠ dest) (dynamic : e.static = false) (free : e.frozen = false)
    (unlimited : moveLimit s n = 0) : Counts (Reg.EPT_CNT_LO n 4) 1 s (learnApply n k dest eg p) ∧
      eptFind (learnApply n k dest eg p) n k =
        some (l, { e with dest := dest, ts := eptNow s n, aged := false, egress := eg }) := by
  have found := (like.eptFind k).trans found
  have checked := eptCheck_like k h
  have like := like.trans checked
  rw [learnApply_moves h found other dynamic free]
  have view := eptMove_unlimited (l := l) (k := k) (e := e) (new := dest) (eg := eg) hn (checked.clean h)
    (like.moveLimit.trans unlimited)
  rw [like.eptNow] at view
  exact like.written _ 4 view ((checked.eptFind k).trans found)

/-- At the limit the entry freezes on its DEST. -/
theorem learned_freezes (other : e.dest ≠ dest) (dynamic : e.static = false) (free : e.frozen = false)
    (limited : moveLimit s n ≠ 0) (reached : (movesAt s n e).mvCnt = moveLimit s n) :
    Counts (Reg.EPT_CNT_LO n 5) 1 s (learnApply n k dest eg p) ∧
      eptFind (learnApply n k dest eg p) n k =
        some (l, { movesAt s n e with frozen := true, mvTs := eptNow s n }) := by
  have found := (like.eptFind k).trans found
  have checked := eptCheck_like k h
  have like := like.trans checked
  rw [learnApply_moves h found other dynamic free]
  rw [← like.moveLimit] at limited reached
  rw [← like.movesAt] at reached
  have view := eptMove_freezes (l := l) (k := k) (e := e) (new := dest) (eg := eg) hn (checked.clean h) limited reached
  rw [like.eptNow, like.movesAt] at view
  exact like.written _ 5 view ((checked.eptFind k).trans found)

/-- Below the limit a move counts within its window. -/
theorem learned_counts (other : e.dest ≠ dest) (dynamic : e.static = false) (free : e.frozen = false)
    (below : (movesAt s n e).mvCnt < moveLimit s n) :
    Counts (Reg.EPT_CNT_LO n 4) 1 s (learnApply n k dest eg p) ∧
      eptFind (learnApply n k dest eg p) n k = some (l, { movesAt s n e with
        mvCnt := (movesAt s n e).mvCnt + 1, dest := dest, ts := eptNow s n, aged := false, egress := eg }) := by
  have found := (like.eptFind k).trans found
  have checked := eptCheck_like k h
  have like := like.trans checked
  rw [learnApply_moves h found other dynamic free]
  rw [← like.moveLimit, ← like.movesAt] at below
  have view := eptMove_counts (l := l) (k := k) (e := e) (new := dest) (eg := eg) hn (checked.clean h) below
  rw [like.eptNow, like.movesAt] at view
  exact like.written _ 4 view ((checked.eptFind k).trans found)

/-- An entry whose freeze has expired is unfrozen, and then moves. -/
theorem learned_thaws (other : e.dest ≠ dest) (dynamic : e.static = false) (frozen : e.frozen = true)
    (expired : freezeOver s n e = true) : Counts (Reg.EPT_CNT_LO n 4) 1 s (learnApply n k dest eg p) ∧
      eptFind (learnApply n k dest eg p) n k = some (l,
        { e with frozen := false, dest := dest, ts := eptNow s n, aged := false, egress := eg
                 mvCnt := if moveLimit s n = 0 then 0 else 1
                 mvTs := if moveLimit s n = 0 then e.mvTs else eptNow s n }) := by
  have found := (like.eptFind k).trans found
  obtain ⟨q, view, moves⟩ :=
    learnApply_thaws (eg := eg) hn h found other dynamic frozen ((like.freezeOver e).trans expired)
  have told : EptLike n p q := .of_view view
  have like := like.trans told
  rw [moves]
  have view := eptMove_unfrozen (l := l) (k := k) (e := e) (new := dest) (eg := eg) hn (told.clean h)
  rw [like.eptNow, like.moveLimit] at view
  exact like.written _ 4 view ((told.eptFind k).trans found)

end

section
variable {n : Nat} (hn : n < 12) {s p : State} (like : EptLike n s p) (h : (eptView n p).Clean) {k : EptKey}
  {dest : Nat} {eg : Bool} (absent : eptFind s n k = none) (hg : k.guild < 8)
include hn like h absent hg

theorem learned_overQuota (exceeds : eptOverQuota s n k.guild = true) :
    ((learnApply n k dest eg p).stn n).ept.table = (s.stn n).ept.table ∧
      Counts (Reg.EPT_CNT_LO n 3) 1 s (learnApply n k dest eg p) := by
  have view := learnApply_overQuota (dest := dest) (eg := eg) hn h ((like.eptFind k).trans absent) hg
    ((like.overQuota hg).trans exceeds)
  exact like.counted (learnApply n k dest eg p) 3 view

theorem learned_full (within : eptOverQuota s n k.guild = false)
    (full : ∀ d, ∀ l ∈ eptLocs k, eptChain s n d 16 [] l = none) :
    ((learnApply n k dest eg p).stn n).ept.table = (s.stn n).ept.table ∧
      Counts (Reg.EPT_CNT_LO n 2) 1 s (learnApply n k dest eg p) := by
  have view := learnApply_full (dest := dest) (eg := eg) hn h ((like.eptFind k).trans absent) hg
    ((like.overQuota hg).trans within) fun d l hl => (like.chain d 16 [] l).trans (full d l hl)
  exact like.counted (learnApply n k dest eg p) 2 view

theorem learned_inserted (within : eptOverQuota s n k.guild = false) (free : ∃ l ∈ eptLocs k, s.eptAt n l = none) :
    Counts (Reg.EPT_CNT_LO n 0) 1 s (learnApply n k dest eg p) ∧ ∃ l ∈ eptLocs k, s.eptAt n l = none ∧
      eptFind (learnApply n k dest eg p) n k = some (l, { dest := dest, egress := eg, ts := eptNow s n }) := by
  have absent := (like.eptFind k).trans absent
  obtain ⟨l, hl, at_, u, view⟩ := learnApply_inserts (dest := dest) (eg := eg) hn h absent hg
    ((like.overQuota hg).trans within) (by simpa only [like.eptAt] using free)
  rw [like.eptNow] at view
  exact ⟨like.counts_of_view (learnApply n k dest eg p) 0 view rfl, l, hl, (like.eptAt l).symm.trans at_,
    (eptFind_of_ept (learnApply n k dest eg p) (congrArg EptView.ept view) k).trans
      (tableFind_write_absent (v := eptView n p) absent hl _)⟩

end

/-- What the source address of a looked-up frame leaves in the table, the learn queue and the count of sources that are
never learned (R119). -/
theorem sourceLearned {n : Nat} (s t d : State) (x : Task) (fid : Nat) (h : (eptView n s).Clean)
    (looked : DestLooked n s d) (after : ∀ v,
      eptView n (sourceLookup n (x.sourceKey fid) x.frame (taskObserves s n x) d) = v →
      (t.stn n).ept = v.ept ∧ (eptView n t).count = v.count) :
    (¬ taskObserves s n x = true ∨ badSource x.frame.bytes = true → (t.stn n).ept.table = (s.stn n).ept.table ∧
      (t.stn n).ept.queue = (s.stn n).ept.queue) ∧
    (taskObserves s n x = true → badSource x.frame.bytes = true → Counts (Reg.EPT_CNT_LO n 9) 1 s t) ∧
    (taskObserves s n x = true → ¬ badSource x.frame.bytes = true →
      (∀ l e, eptFind s n (x.sourceKey fid) = some (l, e) → e.dest ≠ x.frame.inPort) →
      (∀ r ∈ (s.stn n).ept.queue, ∀ eg, r ≠ .learn (x.sourceKey fid) x.frame.inPort eg) →
      (s.stn n).ept.queue.length < 512 →
      (t.stn n).ept.queue = (s.stn n).ept.queue ++ [.learn (x.sourceKey fid) x.frame.inPort false] ∧
        (t.stn n).ept.table = (s.stn n).ept.table) ∧
    (∀ l e, taskObserves s n x = true → ¬ badSource x.frame.bytes = true →
      eptFind s n (x.sourceKey fid) = some (l, e) → e.dest = x.frame.inPort → e.static = false →
      (t.stn n).ept.queue = (s.stn n).ept.queue ∧ eptFind t n (x.sourceKey fid) =
        some (l, { e with ts := eptNow s n, aged := false, egress := false })) := by
  have clean := looked.clean h
  have ept : (d.stn n).ept = (s.stn n).ept := looked.ept
  cases observed : taskObserves s n x with
  | false =>
    rw [observed] at after
    obtain ⟨same, -⟩ := after _ (sourceLookup_unobserved clean)
    rw [show (t.stn n).ept = (s.stn n).ept from same.trans ept]
    exact ⟨fun _ => ⟨rfl, rfl⟩, nofun, nofun, nofun⟩
  | true =>
    rw [observed] at after
    cases never : badSource x.frame.bytes with
    | true =>
      obtain ⟨same, count⟩ := after _ (sourceLookup_never clean never)
      have counted := (congrFun count 9).trans (EptView.count_bump_same 9 _)
      rw [show (t.stn n).ept = (s.stn n).ept from same.trans ept]
      rw [looked.nine] at counted
      exact ⟨fun _ => ⟨rfl, rfl⟩, fun _ _ => counted, fun _ learns => absurd rfl learns,
        fun _ _ _ learns => absurd rfl learns⟩
    | false =>
      refine ⟨fun h => by simp at h, nofun, fun _ _ news other room => ?_, fun l e _ _ found same dynamic => ?_⟩
      · obtain ⟨same, -⟩ := after _ (sourceLookup_requests clean never
          (fun l e found => news l e ((looked.eptFind _).symm.trans found)) (by rwa [ept]) (by rwa [ept]))
        rw [show (eptView n d).ept = (s.stn n).ept from ept] at same
        rw [same]
        exact ⟨rfl, rfl⟩
      · have found := (looked.eptFind (x.sourceKey fid)).trans found
        obtain ⟨written, -⟩ := after _ (sourceLookup_known clean never found same dynamic)
        rw [looked.eptNow] at written
        refine ⟨?_, eptFind_of_written t written found⟩
        rw [written, ← ept]
        rfl

/-- Settles O20: the lookups by `eptLookupDone_answers` and `sourceLearned`, and each row of Table 06.3 by what
`learnApply` makes of the station's table. -/
theorem endpointsAreLookedUpAndLearned : Obligations.EndpointsAreLookedUpAndLearned := by
  unfold Obligations.EndpointsAreLookedUpAndLearned
  refine ⟨fun s st k x fid hs sound hx hfid wait waiting some_ none_ => ?_, fun s st k dest eg rest hs sound head hg =>
    ⟨fun l e found => ⟨fun same dynamic => ?_, fun same static => ?_, fun other static => ?_,
      fun other dynamic frozen holds => ?_, fun other dynamic free unlimited => ?_,
      fun other dynamic free limited => ⟨fun reached => ?_, fun below => ?_⟩,
      fun other dynamic frozen expired => ?_⟩, fun absent exceeds => ?_, fun absent within full => ?_,
      fun absent within free => ?_⟩⟩
  · obtain ⟨t, done, mem, task, d, looked, after⟩ := eptLookupDone_answers hs sound hx hfid wait waiting some_ none_
    have learned := sourceLearned s t d x fid (sound.clean st.val) looked after
    rw [taskObserves_iff, badSource_iff] at learned
    exact ⟨t, done, mem, task, learned⟩
  all_goals refine learnApply_answers hs sound head fun p like clean => ?_
  · exact learned_refreshed like clean found same dynamic
  · exact learned_same_static like clean found same static
  · exact learned_static st.isLt like clean found other static
  · exact learned_frozen like clean found other dynamic frozen holds
  · exact learned_moved st.isLt like clean found other dynamic free unlimited
  · exact learned_freezes st.isLt like clean found other dynamic free limited reached
  · exact learned_counts st.isLt like clean found other dynamic free below
  · exact learned_thaws st.isLt like clean found other dynamic frozen expired
  · exact learned_overQuota st.isLt like clean absent hg exceeds
  · exact learned_full st.isLt like clean absent hg within full
  · exact learned_inserted st.isLt like clean absent hg within free

end Sys2Proof.Machine

/-! SUPPORT. The age sweep (R127): what a visit makes of the place it comes to. -/
namespace Sys2Proof.Machine

/-! ### The parts of a visit -/

/-- The end of a freeze is told of (R124). -/
def sweepTold (n : Nat) (k : EptKey) (e : EptEntry) (s : State) : State :=
  if e.frozen && freezeOver s n e then eptEvent n 7 k e.dest 0 e.egress false s else s

/-- What a visit leaves of an entry that does not age: its freeze ended, and the moves of a window that has passed
forgotten. -/
def swept (window now : Nat) (thaws : Bool) (e : EptEntry) : EptEntry :=
  let e1 := if thaws then e.unfrozen else e
  if e1.mvCnt ≠ 0 ∧ window ≤ ticksSince now e1.mvTs then { e1 with mvCnt := 0 } else e1

/-- An entry e, which the visit leaves as e1, has aged, or stays. -/
def sweepAge (n l : Nat) (k : EptKey) (now : Nat) (e e1 : EptEntry) (s : State) : State :=
  if !e1.static && decide (0 < ageLimit s n) && decide (ageLimit s n ≤ ticksSince now e1.ts) then
    if s.cfg (Reg.EPT_CFG n) Fld.EPT_CFG_AGE_MODE = 1 then
      if e1.aged then eptWrite n l k e1 s
      else eptEvent n 4 k e1.dest 0 e1.egress false (eptCnt n 8 (eptWrite n l k { e1 with aged := true } s))
    else if s.cfg (Reg.EPT_CFG n) Fld.EPT_CFG_AGE_MODE = 2 then eptRemove n l (eptCnt n 8 s)
    else eptEvent n 4 k e1.dest 0 e1.egress false (eptRemove n l (eptCnt n 8 s))
  else if e1 = e then s
  else eptWrite n l k e1 s

theorem sweepEntry_eq (n l : Nat) (k : EptKey) (e : EptEntry) (s : State) :
    sweepEntry n l k e s = sweepAge n l k (eptNow s n) e
      (swept (moveWindow (sweepTold n k e s) n) (eptNow s n) (e.frozen && freezeOver s n e) e)
      (sweepTold n k e s) := rfl

theorem sweepAge_step (n l : Nat) (k : EptKey) (now : Nat) (e e1 : EptEntry) (s : State) :
    TableStep s (sweepAge n l k now e e1 s) := by
  have removed : TableStep s (eptRemove n l (eptCnt n 8 s)) := (TableStep.tick s _).trans (eptRemove_step n l _)
  have marked : TableStep s (eptCnt n 8 (eptWrite n l k { e1 with aged := true } s)) :=
    (eptWrite_step n l k _ s).trans (.tick _ _)
  unfold sweepAge
  exact .ite (.ite (.ite (eptWrite_step n l k e1 s) (marked.trans (eptEvent_step n 4 k _ _ _ _ _)))
    (.ite removed (removed.trans (eptEvent_step n 4 k _ _ _ _ _)))) (.ite (.refl s) (eptWrite_step n l k e1 s))

theorem sweepEntry_step (n l : Nat) (k : EptKey) (e : EptEntry) (s : State) : TableStep s (sweepEntry n l k e s) := by
  rw [sweepEntry_eq]
  exact .trans (.ite (eptEvent_step n 7 k _ _ _ _ s) (.refl s)) (sweepAge_step n l k _ e _ _)

/-! ### An entry that is visited -/

theorem swept_static_ts (window now : Nat) (thaws : Bool) (e : EptEntry) :
    (swept window now thaws e).static = e.static ∧ (swept window now thaws e).ts = e.ts := by
  unfold swept EptEntry.unfrozen
  dsimp only
  split_ifs <;> exact ⟨rfl, rfl⟩

/-- An entry that has neither moved nor been frozen is left as it is. -/
theorem swept_still {e : EptEntry} (still : e.mvCnt = 0) (window now : Nat) : swept window now false e = e := by
  simp [swept, still]

/-- An entry whose freeze has expired is unfrozen. -/
theorem swept_thaws (window now : Nat) (e : EptEntry) :
    swept window now true e = { e with frozen := false, mvCnt := 0 } := by
  simp [swept, EptEntry.unfrozen]

/-- An entry that can age has reached the limit. -/
abbrev AgeReached (s : State) (n : Nat) (e : EptEntry) : Prop :=
  0 < ageLimit s n ∧ ageLimit s n ≤ ticksSince (eptNow s n) e.ts

section
variable {n : Nat} (hn : n < 12) {s : State} (h : (eptView n s).Clean) {l : Nat} {k : EptKey} {e : EptEntry}
include hn

theorem sweepTold_view : eptView n (sweepTold n k e s) = eptView n s := by
  unfold sweepTold
  split
  · exact eptView_eptEvent hn 7 k e.dest 0 e.egress false s
  · rfl

include h

/-- An entry that does not age stands as the visit leaves it. -/
theorem sweepEntry_young (at_ : s.eptAt n l = some (k, e)) (young : ¬ (e.static = false ∧ AgeReached s n e)) :
    (sweepEntry n l k e s).eptAt n l =
      some (k, swept (moveWindow s n) (eptNow s n) (e.frozen && freezeOver s n e) e) := by
  have view := sweepTold_view (k := k) (e := e) (s := s) hn
  have like : EptLike n s (sweepTold n k e s) := .of_view view
  obtain ⟨static, ts⟩ := swept_static_ts (moveWindow s n) (eptNow s n) (e.frozen && freezeOver s n e) e
  rw [sweepEntry_eq, like.moveWindow]
  generalize swept (moveWindow s n) (eptNow s n) (e.frozen && freezeOver s n e) e = e1 at static ts ⊢
  have stays : ¬ (!e1.static && decide (0 < ageLimit (sweepTold n k e s) n) &&
      decide (ageLimit (sweepTold n k e s) n ≤ ticksSince (eptNow s n) e1.ts)) = true := by
    rw [like.ageLimit, static, ts]
    simpa [AgeReached, and_assoc] using young
  rw [sweepAge, if_neg stays]
  split
  · next same =>
    rw [same, like.eptAt]
    exact at_
  · refine (congrArg (fun v : EptView => aget? l v.ept.table) (eptView_eptWrite (like.clean h) l k e1)).trans ?_
    exact aget?_aset_same _ _ _

omit hn h in
/-- An entry that has neither moved nor been frozen comes to the question of its age as it is. -/
theorem sweepEntry_still (free : e.frozen = false) (still : e.mvCnt = 0) :
    sweepEntry n l k e s = sweepAge n l k (eptNow s n) e e s := by
  have told : sweepTold n k e s = s := by simp [sweepTold, free]
  rw [sweepEntry_eq, told, free, Bool.false_and, swept_still still]

omit hn h in
theorem sweepAge_young (now : Nat)
    (young : ¬ (e.static = false ∧ 0 < ageLimit s n ∧ ageLimit s n ≤ ticksSince now e.ts)) :
    sweepAge n l k now e e s = s := by
  have stays : ¬ (!e.static && decide (0 < ageLimit s n) && decide (ageLimit s n ≤ ticksSince now e.ts)) = true := by
    simpa [and_assoc] using young
  rw [sweepAge, if_neg stays, if_pos rfl]

omit hn h in
theorem ages_iff (now : Nat) (dynamic : e.static = false)
    (aged : 0 < ageLimit s n ∧ ageLimit s n ≤ ticksSince now e.ts) :
    (!e.static && decide (0 < ageLimit s n) && decide (ageLimit s n ≤ ticksSince now e.ts)) = true := by
  simp [dynamic, aged]

omit h in
/-- In mode 0 an aged entry is removed, and counted. -/
theorem sweepAge_removes (at_ : s.eptAt n l = some (k, e)) (hg : k.guild < 8) (now : Nat) (dynamic : e.static = false)
    (aged : 0 < ageLimit s n ∧ ageLimit s n ≤ ticksSince now e.ts)
    (mode : s.cfg (Reg.EPT_CFG n) Fld.EPT_CFG_AGE_MODE = 0) :
    (sweepAge n l k now e e s).eptAt n l = none ∧ Counts (Reg.EPT_CNT_LO n 8) 1 s (sweepAge n l k now e e s) := by
  have counted : eptView n (eptCnt n 8 s) = (eptView n s).bump 8 := eptView_eptCnt n 8 s
  have at_' : (eptCnt n 8 s).eptAt n l = some (k, e) :=
    (congrArg (fun v : EptView => aget? l v.ept.table) counted).trans at_
  obtain ⟨u, removed⟩ := eptView_eptRemove at_' hg
  rw [sweepAge, if_pos (ages_iff now dynamic aged), mode, if_neg (by decide), if_neg (by decide)]
  have view := (eptView_eptEvent hn 4 k e.dest 0 e.egress false (eptRemove n l (eptCnt n 8 s))).trans removed
  rw [counted] at view
  refine ⟨(congrArg (fun v : EptView => aget? l v.ept.table) view).trans (aget?_adel_same _ _), ?_⟩
  exact (congrArg (fun v : EptView => v.count 8) view).trans (EptView.count_bump_same 8 _)

/-- In mode 1 an aged entry is kept, and marked. -/
theorem sweepAge_marks (now : Nat) (dynamic : e.static = false)
    (aged : 0 < ageLimit s n ∧ ageLimit s n ≤ ticksSince now e.ts)
    (mode : s.cfg (Reg.EPT_CFG n) Fld.EPT_CFG_AGE_MODE = 1) :
    (sweepAge n l k now e e s).eptAt n l = some (k, { e with aged := true }) := by
  rw [sweepAge, if_pos (ages_iff now dynamic aged), mode, if_pos rfl]
  split
  · next old =>
    have same : { e with aged := true } = e := by rw [← old]
    rw [same]
    exact (congrArg (fun v : EptView => aget? l v.ept.table) (eptView_eptWrite h l k e)).trans (aget?_aset_same _ _ _)
  · exact (congrArg (fun v : EptView => aget? l v.ept.table) (eptView_told hn h 8 l k _ 4 _ _ _ _)).trans
      (aget?_aset_same _ _ _)

end

/-! ### The commands -/

/-- The sweep goes on to the next place. -/
def sweepOn (n : Nat) (s : State) : State := s.modEpt n fun t => { t with sweepAt := (t.sweepAt + 1) % 131072 }

theorem eptView_sweepOn (n : Nat) (s : State) : eptView n (sweepOn n s) =
    { eptView n s with ept := { (s.stn n).ept with sweepAt := ((s.stn n).ept.sweepAt + 1) % 131072 } } :=
  eptView_modEpt n _ s

theorem sweepOn_like (n : Nat) (s : State) : EptLike n s (memEnergy 7 n (sweepOn n s)) := by
  have view := (eptView_memEnergy n 7 n (sweepOn n s)).trans (eptView_sweepOn n s)
  constructor
  · exact (congrArg (fun v : EptView => v.ept.table) view :)
  all_goals rw [view]

/-- A visit of the place that the sweep has come to. -/
def sweepVisit (n : Nat) (s : State) : State :=
  match eptReadAt n (s.stn n).ept.sweepAt (sweepOn n s) with
  | (some (k, e), t) => sweepEntry n (s.stn n).ept.sweepAt k e t
  | (none, t) => t

theorem exec_eptSweepVisit {s : State} (hs : s.running) (st : Station) :
    exec (.eptSweepVisit st) s = .next (sweepVisit st.val s) := by
  rw [show exec (.eptSweepVisit st) s = execEptSweepVisit st s from rfl, execEptSweepVisit, act_running hs]
  rfl

theorem sweepVisit_step (n : Nat) (s : State) : TableStep (sweepOn n s) (sweepVisit n s) := by
  have read := eptReadAt_step n (s.stn n).ept.sweepAt (sweepOn n s)
  unfold sweepVisit
  split
  · next eq =>
    rw [eq] at read
    exact read.trans (sweepEntry_step ..)
  · next eq =>
    rw [eq] at read
    exact read

/-- The sweep goes on, whatever it finds. -/
theorem sweepVisit_sweepAt (n : Nat) (s : State) :
    ((sweepVisit n s).stn n).ept.sweepAt = ((s.stn n).ept.sweepAt + 1) % 131072 :=
  ((sweepVisit_step n s).sweepAt n).trans (congrArg (fun v : EptView => v.ept.sweepAt) (eptView_sweepOn n s))

section
variable {n : Nat} {s : State} (h : (eptView n s).Clean)
include h

theorem sweepVisit_read : eptReadAt n (s.stn n).ept.sweepAt (sweepOn n s) =
    (s.eptAt n (s.stn n).ept.sweepAt, memEnergy 7 n (sweepOn n s)) := by
  have at_ : (sweepOn n s).eptAt n (s.stn n).ept.sweepAt = s.eptAt n (s.stn n).ept.sweepAt :=
    congrArg (fun v : EptView => aget? (s.stn n).ept.sweepAt v.ept.table) (eptView_sweepOn n s)
  rw [eptReadAt_of_clean (by rw [eptView_sweepOn]; exact h), at_]

/-- At an empty place nothing happens but the access. -/
theorem sweepVisit_empty (empty : s.eptAt n (s.stn n).ept.sweepAt = none) :
    sweepVisit n s = memEnergy 7 n (sweepOn n s) := by
  rw [sweepVisit, sweepVisit_read h, empty]

theorem sweepVisit_entry {k : EptKey} {e : EptEntry} (at_ : s.eptAt n (s.stn n).ept.sweepAt = some (k, e)) :
    sweepVisit n s = sweepEntry n (s.stn n).ept.sweepAt k e (memEnergy 7 n (sweepOn n s)) := by
  rw [sweepVisit, sweepVisit_read h, at_]

end

/-! ### The obligation's clauses -/

theorem exec_eptNowTick {s : State} (hs : s.running) (st : Station) : Answers (.eptNowTick st) s fun t =>
    eptNow t st.val = (eptNow s st.val + 1) % 65536 ∧ OnlyRegsOf [Reg.EPT_STATUS st.val] s t := by
  refine ⟨_, act_running hs fun s => s.put (Reg.EPT_STATUS st.val) Fld.EPT_STATUS_NOW (eptNow s st.val + 1), ?_,
    s.wr_onlyRegsOf _ _⟩
  exact s.get_put_same _ Fld.EPT_STATUS_NOW (by decide) _

section
variable {s : State} (hs : s.running) (st : Station) (sound : s.sound)
include hs sound

theorem eptSweepVisit_empty (empty : s.eptAt st.val (s.stn st.val).ept.sweepAt = none) :
    Answers (.eptSweepVisit st) s fun t => t = { s with stations := t.stations, energy := t.energy } ∧
      (t.stn st.val).ept = { (s.stn st.val).ept with sweepAt := ((s.stn st.val).ept.sweepAt + 1) % 131072 } := by
  refine ⟨_, exec_eptSweepVisit hs st, ?_⟩
  rw [sweepVisit_empty (sound.clean st.val) empty]
  exact ⟨rfl, congrArg EptView.ept (eptView_sweepOn st.val s)⟩

variable {k : EptKey} {e : EptEntry} (at_ : s.eptAt st.val (s.stn st.val).ept.sweepAt = some (k, e))
include at_

/-- An entry that does not age. -/
theorem eptSweepVisit_young (young : ¬ (e.static = false ∧ AgeReached s st.val e)) :
    Answers (.eptSweepVisit st) s fun t => t.eptAt st.val (s.stn st.val).ept.sweepAt = some (k,
      swept (moveWindow s st.val) (eptNow s st.val) (e.frozen && freezeOver s st.val e) e) := by
  have like := sweepOn_like st.val s
  refine ⟨_, exec_eptSweepVisit hs st, ?_⟩
  rw [sweepVisit_entry (sound.clean st.val) at_, ← like.moveWindow, ← like.eptNow, ← like.freezeOver]
  refine sweepEntry_young st.isLt (like.clean (sound.clean st.val)) ((like.eptAt _).trans at_) ?_
  rw [AgeReached, like.ageLimit, like.eptNow]
  exact young

/-- An entry that has neither moved nor been frozen. -/
theorem eptSweepVisit_still (free : e.frozen = false) (still : e.mvCnt = 0) (hg : k.guild < 8) :
    Answers (.eptSweepVisit st) s fun t =>
      (t.stn st.val).ept.sweepAt = ((s.stn st.val).ept.sweepAt + 1) % 131072 ∧
      (e.static = true ∨ ¬ AgeReached s st.val e → (t.stn st.val).ept.table = (s.stn st.val).ept.table) ∧
      (e.static = false → AgeReached s st.val e → s.cfg (Reg.EPT_CFG st.val) Fld.EPT_CFG_AGE_MODE = 0 →
        t.eptAt st.val (s.stn st.val).ept.sweepAt = none ∧ Counts (Reg.EPT_CNT_LO st.val 8) 1 s t) ∧
      (e.static = false → AgeReached s st.val e → s.cfg (Reg.EPT_CFG st.val) Fld.EPT_CFG_AGE_MODE = 1 →
        t.eptAt st.val (s.stn st.val).ept.sweepAt = some (k, { e with aged := true })) := by
  have like := sweepOn_like st.val s
  have clean := like.clean (sound.clean st.val)
  have place := (like.eptAt _).trans at_
  refine ⟨_, exec_eptSweepVisit hs st, sweepVisit_sweepAt st.val s, ?_⟩
  rw [sweepVisit_entry (sound.clean st.val) at_, sweepEntry_still free still, AgeReached, ← like.ageLimit,
    ← like.ageMode, ← like.eptNow]
  generalize memEnergy 7 st.val (sweepOn st.val s) = p at like clean place ⊢
  refine ⟨fun young => ?_, fun dynamic aged mode => ?_, fun dynamic aged mode => ?_⟩
  · rw [sweepAge_young _ fun ages =>
      young.elim (fun static => by rw [ages.1] at static; cases static) fun h => h ages.2]
    exact like.table
  · obtain ⟨gone, counted⟩ := sweepAge_removes st.isLt place hg (eptNow p st.val) dynamic aged mode
    exact ⟨gone, like.counts (i := 8) _ counted⟩
  · exact sweepAge_marks st.isLt clean _ dynamic aged mode

end

end Sys2Proof.Machine

/-! SUPPORT. An endpoint command of one station (R136, Table 06.9): it enters the learn queue, is applied at the head,
and completes with the station's answer. -/
namespace Sys2Proof.Machine

/-! ### Entry -/

/-- A command that has begun, and that one station is to answer. -/
def Cmd.asked (c : Cmd) : Cmd := { c with began := true, left := 1 }

section
variable {s : State} {g ring op : Nat} {c : Cmd} (ready : CmdReady s g ring op c) {bad : Cmd → Option Nat}
include ready

theorem eptStart_unnamed (unnamed : stationsOf (cmdStations c) = []) :
    eptStart g ring op bad s = complete g ring 0x14 [] s := by
  rw [eptStart, onCmd_runs _ ready.2.1]
  simp [unnamed]

theorem eptStart_named {n : Nat} (one : stationsOf (cmdStations c) = [n]) (good : bad c = none)
    (empty : (s.stn n).ept.queue = []) (unblocked : (s.stn n).ept.blocked = []) : eptStart g ring op bad s =
      learnPush n (.cmd g ring) (s.modCmd g ring fun c => { c with began := true, left := 1 }) := by
  have stn (f : Cmd → Cmd) : (s.modCmd g ring f).stn n = s.stn n := rfl
  rw [eptStart, onCmd_runs _ ready.2.1]
  simp only [one, good, List.isEmpty_cons, List.length_singleton, Bool.false_eq_true, ne_eq, not_true_eq_false,
    and_false, or_self, if_false, List.foldl_cons, List.foldl_nil, learnCmd, stn, empty, unblocked, List.length_nil,
    List.isEmpty_nil, Bool.not_true]
  rfl

end

/-! ### The answer -/

/-- A completion that is reported for a command as it has come to be, from a state in which less had gone out. -/
theorem CompletedWith.of_earlier {g ring status : Nat} {c c' : Cmd} {result : List Byte} {s u t : State}
    (h : CompletedWith g ring c' status result u t) (out : ∃ new, u.out = new ++ s.out) (desc : c'.desc = c.desc)
    (index : c'.index = c.index) : CompletedWith g ring c status result s t := by
  obtain ⟨done, new, pasid, a, ph, grown, sent⟩ := h
  obtain ⟨more, grew⟩ := out
  refine ⟨done, new ++ more, pasid, a, ph, by rw [grown, grew, List.append_assoc], List.mem_append_left _ ?_⟩
  rw [cplDesc, desc, index] at sent
  exact sent

/-- The command once the one station that is to answer has counted m for it. -/
def Cmd.told (m : Nat) (c : Cmd) : Cmd := { c.asked with left := 0, acc3 := m }

/-- The last station has answered without a failure. -/
theorem stationAnswer_last {g ring n m : Nat} {x : Cmd} {u : State} (result : Cmd → List Byte)
    (cmd : (u.ring g ring).cmd = some x) (last : x.left = 1) : ∃ f : Cmd → Cmd,
      f x = { x with left := 0, acc3 := x.acc3 + m } ∧
        stationAnswer g ring n 0 m result u = complete g ring x.acc2 (result (f x)) (u.modCmd g ring f) := by
  unfold stationAnswer
  dsimp only
  generalize hf : (fun c : Cmd => _) = f
  have answered : f x = { x with left := 0, acc3 := x.acc3 + m } := by
    rw [← hf]
    simp [last]
  have cmd' : ((u.modCmd g ring f).ring g ring).cmd = some (f x) := by
    rw [State.modCmd, State.ring_modRing_same]
    exact congrArg (Option.map f) cmd
  refine ⟨f, answered, ?_⟩
  rw [cmd']
  dsimp only
  rw [answered, if_pos rfl]

/-- The one station that is to answer has done so without a failure: the command completes. -/
theorem stationAnswer_completes {g ring n m : Nat} {c : Cmd} {s u : State} (ready : CmdReady s g ring (descOp c.desc) c)
    (result : Cmd → List Byte) (cmd : (u.ring g ring).cmd = some c.asked)
    (enabled : (u.ring g c.cplRing).enabled = true) (out : ∃ new, u.out = new ++ s.out) :
    CompletedWith g ring c 0 (result (c.told m)) s (stationAnswer g ring n 0 m result u) ∧
      (stationAnswer g ring n 0 m result u).stations = u.stations := by
  obtain ⟨-, -, orphan, -, -, acc2, acc3⟩ := ready
  obtain ⟨f, answered, eq⟩ := stationAnswer_last (n := n) (m := m) result cmd rfl
  have told : f c.asked = c.told m := by
    rw [answered, Cmd.told, Cmd.asked, acc3, Nat.zero_add]
  rw [told, show c.asked.acc2 = 0 from acc2] at eq
  rw [eq]
  have out' : ∃ new, (u.modCmd g ring f).out = new ++ s.out := out
  have cmd' : ((u.modCmd g ring f).ring g ring).cmd = some (c.told m) := by
    rw [State.modCmd, State.ring_modRing_same, ← told]
    exact congrArg (Option.map f) cmd
  have enabled' : ((u.modCmd g ring f).ring g (c.told m).cplRing).enabled = true :=
    State.ring_modRing_keeps (P := fun x => x.enabled = true) u g ring c.cplRing _ enabled fun _ h => h
  have same : (u.modCmd g ring f).stations = u.stations := rfl
  generalize u.modCmd g ring f = w at *
  have done := complete_completes 0 (result (c.told m)) cmd' (show (c.told m).orphan = false from orphan) enabled'
  have sent := sends_complete g ring 0 (result (c.told m)) w
  generalize complete g ring 0 (result (c.told m)) w = t at *
  refine ⟨done.of_earlier out' rfl rfl, ?_⟩
  rw [sent.2]
  exact same

/-! ### The head of the queue -/

theorem learnAdmit_step (n : Nat) (s : State) : TableStep s (learnAdmit n s) := by
  have shown (t : State) : TableStep t (learnShow n t) := .put t _ _ _
  unfold learnAdmit
  refine .trans (.trans (.modEpt s n ?_) (shown _)) (.foldl (fun t x => learnPush_step n _ t) _ _)
  exact fun _ => rfl

theorem learnPop_step (n : Nat) (s : State) : TableStep s (learnPop n s) := by
  refine .trans (.modEpt s n ?_) (learnAdmit_step n _)
  exact fun _ => rfl

theorem waitingCmd_of_asked {s : State} {g ring : Nat} {c : Cmd} (cmd : (s.ring g ring).cmd = some c.asked) :
    waitingCmd s g ring (descOp c.asked.desc) = some c.asked := by
  simp [waitingCmd, cmd, Cmd.asked]

/-- The command at the queue's head is applied and answered, its place in the queue being free before. -/
theorem exec_learnApply_cmd {s : State} {g ring : Nat} {c : Cmd} {st : Station} (hs : s.running)
    (clean : (eptView st.val s).Clean) (queue : (s.stn st.val).ept.queue = [.cmd g ring])
    (cmd : (s.ring g ring).cmd = some c.asked) : ∃ q, EptLike st.val s q ∧ TableStep s q ∧ ∀ code m u,
      eptCmdAt g st.val c.asked q = (code, m, u) →
      exec (.learnApply st) s = .next (stationAnswer g ring st.val code m eptResult u) := by
  have energy := eptView_memEnergy st.val 6 st.val s
  obtain ⟨_, _, _, popped⟩ := eptView_learnPop (n := st.val) (s := memEnergy 6 st.val s) (by rw [energy]; exact clean)
  have step := (memEnergy_step 6 st.val s).trans (learnPop_step st.val _)
  refine ⟨learnPop st.val (memEnergy 6 st.val s), (EptLike.of_view energy).trans (.of_withQueue popped), step, ?_⟩
  intro code m u applied
  have cmd' := (step.rings g ring).1.trans cmd
  rw [show exec (.learnApply st) s = execLearnApply st s from rfl, execLearnApply, act_running hs]
  dsimp only
  rw [queue]
  dsimp only
  rw [odRead_of_clean clean]
  dsimp only
  rw [if_neg (by decide)]
  generalize learnPop st.val (memEnergy 6 st.val s) = q at *
  rw [cmd']
  dsimp only
  rw [waitingCmd_of_asked cmd']
  dsimp only
  rw [applied]

/-- A command that is ready, in one named station whose queue is empty: it enters the queue, and at its turn it is
applied and answered. -/
theorem eptCommand_applies {s : State} {g ring op : Nat} {c : Cmd} {bad : Cmd → Option Nat} {i : Instr} {st : Station}
    (hi : exec i s = .next (eptStart g ring op bad s)) (ready : CmdReady s g ring op c) (sound : s.sound)
    (one : stationsOf (cmdStations c) = [st.val]) (empty : (s.stn st.val).ept.queue = [])
    (unblocked : (s.stn st.val).ept.blocked = []) (good : bad c = none) {P : State → Prop}
    (apply : ∀ q, EptLike st.val s q → (eptView st.val q).Clean → ∃ m u, eptCmdAt g st.val c.asked q = (0, m, u) ∧
      TableStep q u ∧ ∀ t, t.stations = u.stations → CompletedWith g ring c 0 (eptResult (c.told m)) s t → P t) :
    Answers i s fun t => (t.stn st.val).ept.queue = [.cmd g ring] ∧ Answers (.learnApply st) t P := by
  obtain ⟨cmd, opcode, -⟩ := startable_cmd ready.2.1
  rw [eptStart_named ready one good empty unblocked] at hi
  have cmd1 : ((s.modCmd g ring fun c => { c with began := true, left := 1 }).ring g ring).cmd = some c.asked := by
    rw [State.modCmd, State.ring_modRing_same]
    exact congrArg (Option.map _) cmd
  have enabled1 : ((s.modCmd g ring fun c => { c with began := true, left := 1 }).ring g c.cplRing).enabled = true :=
    State.ring_modRing_keeps (P := fun x => x.enabled = true) s g ring c.cplRing _ ready.2.2.2.1 fun _ h => h
  have view1 : eptView st.val (s.modCmd g ring fun c => { c with began := true, left := 1 }) = eptView st.val s := rfl
  have out1 : (s.modCmd g ring fun c => { c with began := true, left := 1 }).out = s.out := rfl
  have boot1 : (s.modCmd g ring fun c => { c with began := true, left := 1 }).boot = s.boot := rfl
  generalize (s.modCmd g ring fun c => { c with began := true, left := 1 }) = s1 at *
  have clean1 : (eptView st.val s1).Clean := by
    rw [view1]
    exact sound.clean st.val
  have pushed := eptView_learnPush (.cmd g ring) clean1
  have step1 : TableStep s1 (learnPush st.val (.cmd g ring) s1) := learnPush_step _ _ _
  generalize learnPush st.val (.cmd g ring) s1 = p at *
  have queue : (p.stn st.val).ept.queue = [.cmd g ring] := by
    refine (congrArg (fun v : EptView => v.ept.queue) (pushed.trans (by rw [view1])) :).trans ?_
    exact congrArg (· ++ [LearnReq.cmd g ring]) empty
  have like1 : EptLike st.val s p := by
    constructor <;> rw [pushed, view1]
  have running : p.running := by
    rw [State.running, step1.boot, boot1]
    exact ready.1
  obtain ⟨q, like, step, applied⟩ := exec_learnApply_cmd running (like1.clean (sound.clean _)) queue
    ((step1.rings g ring).1.trans cmd1)
  obtain ⟨m, u, at_, step', holds⟩ := apply q (like1.trans like) (like.clean (like1.clean (sound.clean _)))
  have steps := (step1.trans step).trans step'
  obtain ⟨done, stations⟩ := stationAnswer_completes (s := s) (u := u) (n := st.val) (m := m) (opcode ▸ ready) eptResult
    ((steps.rings g ring).1.trans cmd1) ((steps.rings g c.cplRing).2.trans enabled1) (by rw [← out1]; exact steps.out)
  exact ⟨_, hi, queue, _, applied 0 m u at_, holds _ stations done⟩

end Sys2Proof.Machine

/-! SUPPORT and the obligation O21. The endpoint commands (R136, Table 06.9), each in one named station. -/
namespace Sys2Proof.Machine

/-! ### Applied in one station -/

section
variable {n : Nat} {q : State} (clean : (eptView n q).Clean)
include clean

/-- EPT_ADD of an absent key within the quota, where a place is free. -/
theorem eptAddAt_absent {k : EptKey} (hg : k.guild < 8) (absent : eptFind q n k = none)
    (room : eptOverQuota q n k.guild = false) (free : ∃ l ∈ eptLocs k, q.eptAt n l = none) (dest : Nat)
    (static : Bool) :
    ∃ u l, eptAddAt n k dest static q = (0, u) ∧ TableStep q u ∧
      eptFind u n k = some (l, { dest := dest, static := static, ts := eptNow q n }) := by
  have like := eptCheck_like k clean
  have step := eptCheck_step n k q
  unfold eptAddAt
  dsimp only
  rw [like.eptFind, absent, like.overQuota hg, room, like.eptNow]
  generalize eptCheck n k q = p at like step ⊢
  obtain ⟨l, hl, -, inserted⟩ := eptInsert_free (s := p) { dest := dest, static := static, ts := eptNow q n }
    (free.imp fun l h => ⟨h.1, (like.eptAt l).trans h.2⟩)
  obtain ⟨_, view⟩ := eptView_inserted (like.clean clean) hg { dest := dest, static := static, ts := eptNow q n } l
  refine ⟨_, l, by rw [inserted]; rfl, (step.trans (eptWrite_step n l k _ p)).trans (eptGuildAdd_step n _ _ _), ?_⟩
  refine (eptFind_of_ept _ (congrArg EptView.ept view) k).trans (tableFind_write_absent (v := eptView n p) ?_ hl _)
  exact (like.eptFind k).trans absent

/-- EPT_DEL of a key that is present. -/
theorem eptRemove_checked {k : EptKey} (hg : k.guild < 8) {l : Nat} {e : EptEntry}
    (found : eptFind q n k = some (l, e)) :
    (eptRemove n l (eptCheck n k q)).eptAt n l = none := by
  have like := eptCheck_like k clean
  have found' := (like.eptFind k).trans found
  generalize eptCheck n k q = p at found' ⊢
  rw [eptFind_eq] at found'
  obtain ⟨_, view⟩ := eptView_eptRemove (s := p) (tableFind_some found').2 hg
  exact (congrArg (fun v : EptView => aget? l v.ept.table) view).trans (aget?_adel_same _ _)

/-- EPT_UNFREEZE of a key that is present. -/
theorem eptFind_unfrozen (hn : n < 12) {k : EptKey} {l : Nat} {e : EptEntry} (found : eptFind q n k = some (l, e)) :
    eptFind (if e.frozen then eptEvent n 7 k e.dest 0 e.egress false (eptWrite n l k e.unfrozen (eptCheck n k q))
      else eptCheck n k q) n k = some (l, if e.frozen then { e with frozen := false, mvCnt := 0 } else e) := by
  have like := eptCheck_like k clean
  have found' := (like.eptFind k).trans found
  generalize eptCheck n k q = p at like found' ⊢
  split
  · refine eptFind_of_written _ (congrArg EptView.ept ?_) found'
    rw [eptView_eptEvent hn, eptView_eptWrite (like.clean clean)]
    rfl
  · exact found'

end

/-! ### Which command it is -/

section
variable {n g : Nat} {c : Cmd} {q : State}

/-- Where a command is applied depends on its descriptor alone. -/
theorem eptCmdAt_asked : eptCmdAt g n c.asked q = eptCmdAt g n c q := by
  have desc : c.asked.desc = c.desc := rfl
  have flush : flushMatch g c.asked = flushMatch g c := funext fun _ => rfl
  simp only [eptCmdAt, flush, cmdKey, cmdFid, cmdMac, cmdDest, cmdFlag, desc]

theorem eptCmdAt_add (op : descOp c.desc = 0x10) : eptCmdAt g n c q =
    ((eptAddAt n (cmdKey g c) (cmdDest c) (cmdFlag c 0) q).1, 0,
      (eptAddAt n (cmdKey g c) (cmdDest c) (cmdFlag c 0) q).2) := by
  simp only [eptCmdAt, op]

theorem eptCmdAt_flush (op : descOp c.desc = 0x12) {p : State}
    (read : (q.stn n).ept.table.foldl (fun s e => (eptReadAt n e.1 s).2) q = p) : eptCmdAt g n c q =
      (0, ((p.stn n).ept.table.filter (flushMatch g c)).length,
        ((p.stn n).ept.table.filter (flushMatch g c)).foldl (fun s e => eptRemove n e.1 s) p) := by
  simp only [eptCmdAt, op, read]

variable (clean : (eptView n q).Clean) {l : Nat} {e : EptEntry} (found : eptFind q n (cmdKey g c) = some (l, e))
include clean found

theorem eptCmdAt_del (op : descOp c.desc = 0x11) :
    eptCmdAt g n c q = (0, 0, eptRemove n l (eptCheck n (cmdKey g c) q)) := by
  have like := eptCheck_like (cmdKey g c) clean
  simp only [eptCmdAt, op, like.eptFind, found]

theorem eptCmdAt_read (op : descOp c.desc = 0x13) :
    eptCmdAt g n c q = (0, entryWord (cmdKey g c) e, eptCheck n (cmdKey g c) q) := by
  have like := eptCheck_like (cmdKey g c) clean
  simp only [eptCmdAt, op, like.eptFind, found]

theorem eptCmdAt_unfreeze (op : descOp c.desc = 0x14) : eptCmdAt g n c q = (0, 0,
    if e.frozen then eptEvent n 7 (cmdKey g c) e.dest 0 e.egress false
      (eptWrite n l (cmdKey g c) e.unfrozen (eptCheck n (cmdKey g c) q))
    else eptCheck n (cmdKey g c) q) := by
  have like := eptCheck_like (cmdKey g c) clean
  simp only [eptCmdAt, op, like.eptFind, found]

end

theorem unfreeze_step (n : Nat) (k : EptKey) (l : Nat) (e : EptEntry) (q : State) : TableStep q (
    if e.frozen then eptEvent n 7 k e.dest 0 e.egress false (eptWrite n l k e.unfrozen (eptCheck n k q))
    else eptCheck n k q) := by
  have step := eptCheck_step n k q
  generalize eptCheck n k q = p at step ⊢
  exact .ite (step.trans ((eptWrite_step n l k e.unfrozen p).trans (eptEvent_step n 7 k _ _ _ _ _))) step

/-! ### A flush -/

theorem mem_of_aget?_eq_some {α : Type} {k : Nat} {v : α} {l : List (Nat × α)} (h : aget? k l = some v) :
    (k, v) ∈ l := by
  induction l with
  | nil => cases h
  | cons x l ih =>
    obtain ⟨j, w⟩ := x
    rw [aget?] at h
    split at h
    · next same =>
      cases h
      exact same ▸ List.mem_cons_self
    · exact List.mem_cons_of_mem _ (ih h)

/-- Removing what stands at a place leaves no entry there, and makes none. -/
theorem eptRemove_table {n : Nat} {s : State} (guilds : ∀ x ∈ (s.stn n).ept.table, x.2.1.guild < 8) (l : Nat) :
    ∀ x ∈ ((eptRemove n l s).stn n).ept.table, x ∈ (s.stn n).ept.table ∧ x.1 ≠ l := by
  cases at_ : s.eptAt n l with
  | none =>
    intro x hx
    rw [eptRemove, at_] at hx
    refine ⟨hx, fun here => ?_⟩
    have some_ := aget?_isSome_of_mem (e := x) hx
    rw [here, show aget? l (s.stn n).ept.table = none from at_] at some_
    cases some_
  | some r =>
    obtain ⟨k, e⟩ := r
    obtain ⟨_, view⟩ := eptView_eptRemove at_ (guilds (l, k, e) (mem_of_aget?_eq_some at_))
    have table : ((eptRemove n l s).stn n).ept.table = adel l (s.stn n).ept.table :=
      congrArg (fun v : EptView => v.ept.table) view
    intro x hx
    rw [table, adel, List.mem_filter, bne_iff_ne] at hx
    exact hx

theorem eptRemoves_table {n : Nat} (l : List (Nat × EptKey × EptEntry)) {s : State}
    (guilds : ∀ x ∈ (s.stn n).ept.table, x.2.1.guild < 8) :
    ∀ x ∈ ((l.foldl (fun s e => eptRemove n e.1 s) s).stn n).ept.table,
      x ∈ (s.stn n).ept.table ∧ ∀ y ∈ l, x.1 ≠ y.1 := by
  induction l generalizing s with
  | nil => exact fun x hx => ⟨hx, fun _ h => absurd h List.not_mem_nil⟩
  | cons y l ih =>
    have once := eptRemove_table guilds y.1
    intro x hx
    obtain ⟨kept, apart⟩ := ih (s := eptRemove n y.1 s) (fun z hz => guilds z (once z hz).1) x hx
    obtain ⟨old, ne⟩ := once x kept
    exact ⟨old, List.forall_mem_cons.2 ⟨ne, apart⟩⟩

/-- Removing the entries that a flush matches leaves none that it matches. -/
theorem flush_leaves_none {n g : Nat} {c : Cmd} {s : State} (guilds : ∀ x ∈ (s.stn n).ept.table, x.2.1.guild < 8) :
    ∀ x ∈ ((((s.stn n).ept.table.filter (flushMatch g c)).foldl (fun s e => eptRemove n e.1 s) s).stn n).ept.table,
      flushMatch g c x = false := by
  intro x hx
  obtain ⟨old, apart⟩ := eptRemoves_table _ guilds x hx
  by_contra hits
  exact apart x (List.mem_filter.2 ⟨old, by simpa using hits⟩) rfl

/-! ### The answers -/

theorem eptResult_told_flush {c : Cmd} (op : descOp c.desc = 0x12) (m : Nat) : eptResult (c.told m) = leBytes 4 m := by
  simp only [eptResult, Cmd.told, Cmd.asked, op]

theorem eptResult_told_read {c : Cmd} (op : descOp c.desc = 0x13) (m : Nat) : eptResult (c.told m) = leBytes 16 m := by
  simp only [eptResult, Cmd.told, Cmd.asked, op]

/-- The commands that return the mask of the failing stations: none has failed. -/
theorem eptResult_told_mask {c : Cmd} (none_ : c.acc = 0) (flush : descOp c.desc ≠ 0x12) (read : descOp c.desc ≠ 0x13)
    (m : Nat) : eptResult (c.told m) = leBytes 2 0 := by
  have acc : (c.told m).acc = 0 := none_
  unfold eptResult
  split
  · next h => exact absurd h flush
  · next h => exact absurd h read
  · rw [acc]

theorem stn_of_stations {t u : State} (same : t.stations = u.stations) (n : Nat) : t.stn n = u.stn n := by
  rw [State.stn, State.stn, same]

theorem eptFind_of_stations {t u : State} (same : t.stations = u.stations) (n : Nat) (k : EptKey) :
    eptFind t n k = eptFind u n k :=
  eptFind_of_ept t (congrArg Stn.ept (stn_of_stations same n)) k

/-! ### The commands -/

section
variable {s : State} {g : Guild} {ring : Fin 1024} {c : Cmd} {st : Station} (sound : s.sound)
  (one : stationsOf (cmdStations c) = [st.val]) (empty : (s.stn st.val).ept.queue = [])
  (unblocked : (s.stn st.val).ept.blocked = [])
include sound one empty unblocked

theorem eptAdd_applies (ready : CmdReady s g.val ring.val 0x10 c) (good : badDest s g.val c = none)
    (absent : eptFind s st.val (cmdKey g.val c) = none) (room : eptOverQuota s st.val g.val = false)
    (free : ∃ l ∈ eptLocs (cmdKey g.val c), s.eptAt st.val l = none) : Answers (.eptAdd g ring) s fun t =>
      (t.stn st.val).ept.queue = [.cmd g.val ring.val] ∧ Answers (.learnApply st) t fun u =>
        CompletedWith g.val ring.val c 0 (leBytes 2 0) s u ∧ ∃ l, eptFind u st.val (cmdKey g.val c) =
          some (l, { dest := cmdDest c, static := cmdFlag c 0, ts := eptNow s st.val }) := by
  have op := (startable_cmd ready.2.1).2.1
  have start : exec (.eptAdd g ring) s = .next (eptStart g.val ring.val 0x10 (badDest s g.val) s) :=
    act_running ready.1 _
  refine eptCommand_applies start ready sound one empty unblocked good fun q like clean => ?_
  obtain ⟨u, l, added, step, found⟩ := eptAddAt_absent (k := cmdKey g.val c) clean g.isLt
    ((like.eptFind _).trans absent) ((like.overQuota g.isLt).trans room)
    (free.imp fun l h => ⟨h.1, (like.eptAt l).trans h.2⟩) (cmdDest c) (cmdFlag c 0)
  refine ⟨0, u, ?_, step, fun t same done => ⟨?_, l, ?_⟩⟩
  · rw [eptCmdAt_asked, eptCmdAt_add op, added]
  · rwa [eptResult_told_mask ready.2.2.2.2.1 (by rw [op]; decide) (by rw [op]; decide)] at done
  · rw [eptFind_of_stations same, found, like.eptNow]

theorem eptFlush_applies (ready : CmdReady s g.val ring.val 0x12 c)
    (guilds : ∀ x ∈ (s.stn st.val).ept.table, x.2.1.guild < 8) : Answers (.eptFlush g ring) s fun t =>
      (t.stn st.val).ept.queue = [.cmd g.val ring.val] ∧ Answers (.learnApply st) t fun u =>
        (∀ x ∈ (u.stn st.val).ept.table, flushMatch g.val c x = false) ∧ CompletedWith g.val ring.val c 0
          (leBytes 4 ((s.stn st.val).ept.table.filter (flushMatch g.val c)).length) s u := by
  have op := (startable_cmd ready.2.1).2.1
  have start : exec (.eptFlush g ring) s = .next (eptStart g.val ring.val 0x12 (fun _ => none) s) :=
    act_running ready.1 _
  refine eptCommand_applies start ready sound one empty unblocked rfl fun q like clean => ?_
  have view := eptView_eptReads Prod.fst (q.stn st.val).ept.table clean
  have step : TableStep q ((q.stn st.val).ept.table.foldl (fun s e => (eptReadAt st.val e.1 s).2) q) :=
    .foldl (f := fun s (e : Nat × EptKey × EptEntry) => (eptReadAt st.val e.1 s).2)
      (fun s e => eptReadAt_step st.val e.1 s) _ q
  have applied := eptCmdAt_flush (g := g.val) (n := st.val) (q := q) op rfl
  generalize (q.stn st.val).ept.table.foldl (fun s e => (eptReadAt st.val e.1 s).2) q = p at view step applied
  have table : (p.stn st.val).ept.table = (s.stn st.val).ept.table := (like.trans (.of_view view)).table
  rw [← table] at guilds ⊢
  have removed := TableStep.foldl (f := fun s (e : Nat × EptKey × EptEntry) => eptRemove st.val e.1 s)
    (fun s e => eptRemove_step st.val e.1 s) ((p.stn st.val).ept.table.filter (flushMatch g.val c)) p
  refine ⟨_, _, eptCmdAt_asked.trans applied, step.trans removed, fun t same done => ⟨?_, ?_⟩⟩
  · rw [stn_of_stations same]
    exact flush_leaves_none guilds
  · rwa [eptResult_told_flush op] at done

variable {l : Nat} {e : EptEntry} (found : eptFind s st.val (cmdKey g.val c) = some (l, e))
include found

theorem eptDel_applies (ready : CmdReady s g.val ring.val 0x11 c) : Answers (.eptDel g ring) s fun t =>
      (t.stn st.val).ept.queue = [.cmd g.val ring.val] ∧ Answers (.learnApply st) t fun u =>
        CompletedWith g.val ring.val c 0 (leBytes 2 0) s u ∧ u.eptAt st.val l = none := by
  have op := (startable_cmd ready.2.1).2.1
  have start : exec (.eptDel g ring) s = .next (eptStart g.val ring.val 0x11 (fun _ => none) s) := act_running ready.1 _
  refine eptCommand_applies start ready sound one empty unblocked rfl fun q like clean => ?_
  have found := (like.eptFind _).trans found
  have applied := eptCmdAt_del (g := g.val) clean found op
  have removed := eptRemove_checked clean g.isLt found
  have step := (eptCheck_step st.val (cmdKey g.val c) q).trans (eptRemove_step st.val l _)
  generalize eptRemove st.val l (eptCheck st.val (cmdKey g.val c) q) = p at applied removed step
  refine ⟨0, p, eptCmdAt_asked.trans applied, step, fun t same done => ⟨?_, ?_⟩⟩
  · rwa [eptResult_told_mask ready.2.2.2.2.1 (by rw [op]; decide) (by rw [op]; decide)] at done
  · rw [State.eptAt, stn_of_stations same]
    exact removed

theorem eptRead_applies (ready : CmdReady s g.val ring.val 0x13 c) : Answers (.eptRead g ring) s fun t =>
      (t.stn st.val).ept.queue = [.cmd g.val ring.val] ∧ Answers (.learnApply st) t fun u =>
        CompletedWith g.val ring.val c 0 (leBytes 16 (entryWord (cmdKey g.val c) e)) s u ∧
          (u.stn st.val).ept.table = (s.stn st.val).ept.table := by
  have op := (startable_cmd ready.2.1).2.1
  have start : exec (.eptRead g ring) s = .next (eptStart g.val ring.val 0x13 (fun _ => none) s) :=
    act_running ready.1 _
  refine eptCommand_applies start ready sound one empty unblocked rfl fun q like clean => ?_
  have found := (like.eptFind _).trans found
  have applied := eptCmdAt_read (g := g.val) clean found op
  have step := eptCheck_step st.val (cmdKey g.val c) q
  have like := like.trans (eptCheck_like (cmdKey g.val c) clean)
  generalize eptCheck st.val (cmdKey g.val c) q = p at applied step like
  refine ⟨_, p, eptCmdAt_asked.trans applied, step, fun t same done => ⟨?_, ?_⟩⟩
  · rwa [eptResult_told_read op] at done
  · rw [stn_of_stations same]
    exact like.table

theorem eptUnfreeze_applies (ready : CmdReady s g.val ring.val 0x14 c) : Answers (.eptUnfreeze g ring) s fun t =>
      (t.stn st.val).ept.queue = [.cmd g.val ring.val] ∧ Answers (.learnApply st) t fun u =>
        CompletedWith g.val ring.val c 0 (leBytes 2 0) s u ∧ eptFind u st.val (cmdKey g.val c) =
          some (l, if e.frozen then { e with frozen := false, mvCnt := 0 } else e) := by
  have op := (startable_cmd ready.2.1).2.1
  have start : exec (.eptUnfreeze g ring) s = .next (eptStart g.val ring.val 0x14 (fun _ => none) s) :=
    act_running ready.1 _
  refine eptCommand_applies start ready sound one empty unblocked rfl fun q like clean => ?_
  have found := (like.eptFind _).trans found
  have applied := eptCmdAt_unfreeze (g := g.val) clean found op
  have unfrozen := eptFind_unfrozen clean st.isLt found
  have step := unfreeze_step st.val (cmdKey g.val c) l e q
  generalize (if e.frozen then _ else _) = p at applied unfrozen step
  refine ⟨0, p, eptCmdAt_asked.trans applied, step, fun t same done => ⟨?_, ?_⟩⟩
  · rwa [eptResult_told_mask ready.2.2.2.2.1 (by rw [op]; decide) (by rw [op]; decide)] at done
  · rw [eptFind_of_stations same]
    exact unfrozen

end

/-- A command that names no station completes with BAD_STATIONS. -/
theorem ept_unnamed {s : State} {g ring op : Nat} {c : Cmd} {bad : Cmd → Option Nat} {i : Instr}
    (ready : CmdReady s g ring op c) (unnamed : stationsOf (cmdStations c) = [])
    (hi : exec i s = .next (eptStart g ring op bad s)) :
    Answers i s fun t => CompletedWith g ring c 0x14 [] s t ∧ t.stations = s.stations := by
  refine ⟨_, hi, ?_⟩
  rw [eptStart_unnamed ready unnamed]
  have sent := sends_complete g ring 0x14 [] s
  exact ⟨ready.completes 0x14 [], by rw [sent.2]⟩

/-! ### The obligation -/

/-- Settles O21, by the equation of a visit of the sweep, and by taking a command from its entry into the learn queue to
its answer at the head. -/
theorem endpointsAgeAndTakeCommands : Obligations.EndpointsAgeAndTakeCommands := by
  unfold Obligations.EndpointsAgeAndTakeCommands
  dsimp only
  refine ⟨fun s st hs => ⟨exec_eptNowTick hs st, ?_, fun sound empty => eptSweepVisit_empty hs st sound empty, ?_, ?_⟩,
    fun s g ring c st => ⟨?_, ?_, ?_, ?_, ?_, ?_⟩⟩
  · exact ⟨_, exec_eptSweepVisit hs st, sweepVisit_sweepAt st.val s⟩
  · exact fun k e sound at_ hg free still => eptSweepVisit_still hs st sound at_ free still hg
  · intro k e sound at_ hg young
    obtain ⟨t, ht, kept⟩ := eptSweepVisit_young hs st sound at_ young
    refine ⟨t, ht, fun frozen expired => ?_, fun holds => ?_⟩
    · rw [kept, frozen, expired, Bool.and_self, swept_thaws]
    · rw [kept, show (e.frozen && freezeOver s st.val e) = false from Bool.and_eq_false_iff.2 holds]
      rfl
  · intro i hi ready unnamed
    simp only [List.mem_cons, List.not_mem_nil, or_false] at hi
    obtain rfl | rfl | rfl | rfl | rfl := hi <;> exact ept_unnamed ready unnamed (act_running ready.1 _)
  · exact fun good absent room free ready sound one empty unblocked =>
      eptAdd_applies sound one empty unblocked ready good absent room free
  · exact fun l e found ready sound one empty unblocked => eptDel_applies sound one empty unblocked found ready
  · exact fun guilds ready sound one empty unblocked => eptFlush_applies sound one empty unblocked ready guilds
  · exact fun l e found ready sound one empty unblocked => eptRead_applies sound one empty unblocked found ready
  · exact fun l e found ready sound one empty unblocked => eptUnfreeze_applies sound one empty unblocked found ready

end Sys2Proof.Machine

/-! SUPPORT. Route lookups (R131, R132): what a lookup in rounds finds where no entry is in error. -/
namespace Sys2Proof.Machine

/-! ### Entries that are read -/

/-- From s to t nothing has changed but the energy. -/
def Spent (s t : State) : Prop := t = { s with energy := t.energy }

namespace Spent

variable {s t u : State}

theorem refl (s : State) : Spent s s := rfl

theorem trans (h : Spent s t) (k : Spent t u) : Spent s u := by
  rw [Spent, h] at k
  exact k

theorem of_memEnergy (mem st : Nat) (s : State) : Spent s (memEnergy mem st s) := by
  unfold memEnergy
  split <;> rfl

theorem of_energy (st acc kind : Nat) (s : State) : Spent s (energy st acc kind s) := rfl

theorem view (h : Spent s t) (n : Nat) : eptView n t = eptView n s := by
  rw [h]
  rfl

theorem clean (h : Spent s t) {n : Nat} (hs : (eptView n s).Clean) : (eptView n t).Clean := by
  rw [h.view]
  exact hs

theorem routes (h : Spent s t) : t.routes = s.routes := by rw [h]

theorem routeBad (h : Spent s t) : t.routeBad = s.routeBad := by rw [h]

theorem stations (h : Spent s t) : t.stations = s.stations := by rw [h]

theorem step (h : Spent s t) : TableStep s t := .of_frame (by rw [h])

theorem routeData (h : Spent s t) (k : RouteKey) : Machine.routeData t k = Machine.routeData s k := by
  rw [Machine.routeData, h.routes]
  rfl

end Spent

/-- An entry that no station's replica holds in error is read as it is. -/
theorem routeRead_spent {st : Nat} {k : RouteKey} {s : State} (clean : (eptView st s).Clean)
    (good : (st, k) ∉ s.routeBad) :
    ∃ t, Spent s t ∧ routeRead st k s = (routeData s k, t) := by
  unfold routeRead
  cases routeData s k with
  | none => exact ⟨s, .refl s, rfl⟩
  | some v =>
    refine ⟨_, .of_memEnergy 8 st s, ?_⟩
    simp only [List.contains_iff_mem, good, if_false, odRead_of_clean clean]

/-- A round returns the first hit among its lengths. -/
theorem routeRound_spent {st : Nat} (key : Nat → RouteKey) (l : List Nat) {s : State} (clean : (eptView st s).Clean)
    (good : s.routeBad = []) :
    ∃ t, Spent s t ∧ routeRound st key l s = (l.findSome? fun n => routeData s (key n), t) := by
  induction l generalizing s with
  | nil => exact ⟨s, .refl s, rfl⟩
  | cons n l ih =>
    obtain ⟨p, spent, read⟩ := routeRead_spent (k := key n) clean (by rw [good]; exact List.not_mem_nil)
    rw [routeRound, read, List.findSome?_cons]
    cases found : routeData s (key n) with
    | some v => exact ⟨p, spent, rfl⟩
    | none =>
      obtain ⟨t, rest, round⟩ := ih (spent.clean clean) (spent.routeBad.trans good)
      simp only [spent.routeData] at round
      exact ⟨t, spent.trans rest, round⟩

/-- What a lookup has found. -/
def RouteResult.found (r : RouteResult) : Option Nat := if r.hit then some r.word else none

/-- The rounds of a lookup, as many as its lengths need, find the first hit. -/
theorem routeRounds_spent {st : Nat} (key : Nat → RouteKey) (fuel done : Nat) (l : List Nat) {s : State}
    (clean : (eptView st s).Clean) (good : s.routeBad = []) (enough : l.length ≤ 16 * fuel) :
    ∃ r t, Spent s t ∧ routeRounds st key fuel done l s = (r, t) ∧
      r.found = l.findSome? fun n => routeData s (key n) := by
  induction fuel generalizing done l s with
  | zero =>
    obtain rfl : l = [] := List.length_eq_zero_iff.1 (by omega)
    exact ⟨_, s, .refl s, rfl, rfl⟩
  | succ fuel ih =>
    rw [routeRounds]
    split
    · next empty =>
      obtain rfl := List.isEmpty_iff.1 empty
      exact ⟨_, s, .refl s, rfl, rfl⟩
    · obtain ⟨p, spent, round⟩ := routeRound_spent key (l.take 16) clean good
      have parts : l.findSome? (fun n => routeData s (key n)) = ((l.take 16).findSome? fun n => routeData s (key n)).or
          ((l.drop 16).findSome? fun n => routeData s (key n)) := by
        rw [← List.findSome?_append, List.take_append_drop]
      rw [round, parts]
      cases (l.take 16).findSome? fun n => routeData s (key n) with
      | some v => exact ⟨_, p, spent, rfl, rfl⟩
      | none =>
        obtain ⟨r, t, rest, rounds, found⟩ := ih (done + 1) (l.drop 16) (spent.clean clean) (spent.routeBad.trans good)
          (by rw [List.length_drop]; omega)
        simp only [spent.routeData] at found
        exact ⟨r, t, spent.trans rest, rounds, found⟩

/-! ### The lengths that the filter names -/

theorem routeLengths_length (s : State) (g vrf : Nat) (v6 : Bool) : (routeLengths s g vrf v6).length ≤ 129 := by
  refine (List.length_filter_le _ _).trans ?_
  rw [List.length_reverse, List.length_range]

/-- Among the numbers below N that p keeps, the first that has a value, from the highest down. -/
theorem findSome?_reverse_range {α : Type} {p : Nat → Bool} {f : Nat → Option α}
    (kept : ∀ m v, f m = some v → p m = true) {N n : Nat} {v : α} (below : n < N) (here : f n = some v)
    (above : ∀ m < N, n < m → f m = none) :
    ((List.range N).reverse.filter p).findSome? f = some v := by
  induction N with
  | zero => exact absurd below (Nat.not_lt_zero n)
  | succ N ih =>
    rw [List.range_succ, List.reverse_append, List.reverse_singleton, List.singleton_append, List.filter_cons]
    by_cases top : n = N
    · subst top
      rw [if_pos (kept n v here), List.findSome?_cons, here]
    · have rest := ih (by omega) fun m hm => above m (by omega)
      split
      · rw [List.findSome?_cons, above N (by omega) (by omega)]
        exact rest
      · exact rest

/-- A route's length is one that the filter names. -/
theorem routeLengths_names {s : State} {k : RouteKey} {v : Nat} (h : routeData s k = some v) : (s.routes.any fun e =>
    e.1.guild == k.guild && e.1.vrf == k.vrf && e.1.ipv6 == k.ipv6 && e.1.len == k.len) = true := by
  rw [routeData, Option.map_eq_some_iff] at h
  obtain ⟨e, found, -⟩ := h
  have same : e.1 = k := by simpa using List.find?_some found
  exact List.any_eq_true.2 ⟨e, List.mem_of_find?_eq_some found, by simp [same]⟩

/-! ### A lookup -/

/-- The key of a destination's first n bits. -/
def destRoute (g vrf : Nat) (v6 : Bool) (dst n : Nat) : RouteKey :=
  { guild := g, vrf := vrf, ipv6 := v6, len := n, pfx := prefixOf v6 n dst }

/-- A lookup has found the longest match of a destination. -/
structure LongestPrefix (s : State) (key : Nat → RouteKey) (r : RouteResult) : Prop where
  hit : ∀ n ≤ 128, ∀ v, routeData s (key n) = some v → (∀ m ≤ 128, n < m → routeData s (key m) = none) →
    r.hit = true ∧ r.word = v
  miss : (∀ n ≤ 128, routeData s (key n) = none) → r.hit = false

theorem longestPrefix_of_found {s : State} {g vrf dst : Nat} {v6 : Bool} {r : RouteResult}
    (found : r.found = (routeLengths s g vrf v6).findSome? fun n => routeData s (destRoute g vrf v6 dst n)) :
    LongestPrefix s (destRoute g vrf v6 dst) r := by
  constructor
  · intro n hn v here above
    have first : (routeLengths s g vrf v6).findSome? (fun n => routeData s (destRoute g vrf v6 dst n)) = some v :=
      findSome?_reverse_range (fun m v h => routeLengths_names h) (Nat.lt_succ_of_le hn) here fun m hm =>
        above m (Nat.le_of_lt_succ hm)
    rw [first, RouteResult.found] at found
    split at found
    · next hit => exact ⟨hit, Option.some.inj found⟩
    · cases found
  · intro none_
    have nothing : (routeLengths s g vrf v6).findSome? (fun n => routeData s (destRoute g vrf v6 dst n)) = none :=
      List.findSome?_eq_none_iff.2 fun n hn => none_ n (by
        have := (List.mem_filter.1 hn).1
        simp only [List.mem_reverse, List.mem_range] at this
        omega)
    rw [nothing, RouteResult.found] at found
    split at found
    · cases found
    · next miss => exact Bool.not_eq_true _ ▸ miss

theorem eptApart_beyond {n o : Nat} (h : 0x100180 ≤ o) : EptApart n (stationBase n + o) :=
  ⟨reg_ne_memInj n o, .inr (by omega)⟩

theorem eptView_lpmCnt (n k m : Nat) (s : State) : eptView n (s.cnt (Reg.LPM_CNT_LO n k) m) = eptView n s := by
  unfold Reg.LPM_CNT_LO
  rw [Nat.add_assoc]
  refine eptView_cnt (eptApart_beyond (by omega)) ?_ s m
  rw [Nat.add_assoc]
  exact eptApart_beyond (by omega)

/-- A lookup counts, and returns what it has found. -/
theorem routeLookup_spec {st g vrf dst : Nat} {v6 : Bool} {s : State} (clean : (eptView st s).Clean)
    (good : s.routeBad = []) : ∃ r t, routeLookup st g vrf v6 dst s = (r, t) ∧
      LongestPrefix s (destRoute g vrf v6 dst) r ∧ TableStep s t ∧ eptView st t = eptView st s := by
  obtain ⟨r, p, spent, rounds, found⟩ := routeRounds_spent (destRoute g vrf v6 dst) 9 0 (routeLengths s g vrf v6)
    clean good ((routeLengths_length s g vrf v6).trans (by decide))
  have counted : eptView st ((p.tick (Reg.LPM_CNT_LO st 0)).cnt (Reg.LPM_CNT_LO st 1) r.rounds) = eptView st s :=
    (eptView_lpmCnt st 1 _ _).trans ((eptView_lpmCnt st 0 1 p).trans (spent.view st))
  have stepped : TableStep s ((p.tick (Reg.LPM_CNT_LO st 0)).cnt (Reg.LPM_CNT_LO st 1) r.rounds) :=
    (spent.step.trans (.tick p _)).trans (.cnt _ _ _)
  refine ⟨r, if r.hit then (p.tick (Reg.LPM_CNT_LO st 0)).cnt (Reg.LPM_CNT_LO st 1) r.rounds
    else ((p.tick (Reg.LPM_CNT_LO st 0)).cnt (Reg.LPM_CNT_LO st 1) r.rounds).tick (Reg.LPM_CNT_LO st 2), ?_,
    longestPrefix_of_found found, ?_, ?_⟩
  · unfold routeLookup
    dsimp only
    rw [show (fun n => ({ guild := g, vrf := vrf, ipv6 := v6, len := n, pfx := prefixOf v6 n dst } : RouteKey)) =
      destRoute g vrf v6 dst from rfl, rounds]
  · exact .ite stepped (stepped.trans (.tick _ _))
  · split
    · exact counted
    · exact (eptView_lpmCnt st 2 1 _).trans counted

/-- The key of a route that a task looks up. -/
def Task.routeKey (s : State) (st : Nat) (x : Task) (v6 : Bool) (dst n : Nat) : RouteKey :=
  destRoute x.frame.guild (s.cfg (Reg.LPM_PORT st (localOf x.frame.inPort)) Fld.LPM_PORT_VRF) v6 dst n

/-- A task whose route lookup has returned. -/
def Task.withRoute (x : Task) (r : RouteResult) : Task := { x with routeWait := false, route := r }

/-- ROUTE_LOOKUP_DONE: the lookup, and the task that has one lookup less to wait for. -/
theorem exec_routeLookupDone {s : State} {st : Station} {k : Fin 2048} {x : Task} {v6 : Bool} {dst : Nat}
    (hs : s.running) (sound : s.sound) (good : s.routeBad = []) (hx : s.task? st.val k.val = some x)
    (l3 : x.l3dst = some (v6, dst)) (wait : x.routeWait = true) (waiting : x.st = .waiting) :
    ∃ r t, LongestPrefix s (x.routeKey s st.val v6 dst) r ∧
      exec (.routeLookupDone st k) s = .next t ∧ TableStep s t ∧
        t.task? st.val k.val = some (x.withRoute r).counted := by
  have spent := Spent.of_energy st.val 1 2 s
  have energized : taskRoute st.val x s = routeLookup st.val x.frame.guild
      (s.cfg (Reg.LPM_PORT st.val (localOf x.frame.inPort)) Fld.LPM_PORT_VRF) v6 dst (energy st.val 1 2 s) := by
    simp only [taskRoute, l3]
  generalize energy st.val 1 2 s = p at spent energized
  obtain ⟨r, t, looked, longest, stepped, view⟩ := routeLookup_spec (g := x.frame.guild) (v6 := v6) (dst := dst)
    (vrf := s.cfg (Reg.LPM_PORT st.val (localOf x.frame.inPort)) Fld.LPM_PORT_VRF)
    (spent.clean (sound.clean st.val)) (spent.routeBad.trans good)
  have view := view.trans (spent.view st.val)
  have counted := lookupDone_counted (s := t) (f := (Task.withRoute · r)) (by rw [view]; exact sound.clean st.val)
    (task?_of_tasks (congrArg EptView.tasks view) hx) waiting
  refine ⟨r, _, ?_, ?_, ((spent.step.trans stepped).trans (modTask_step _ _ _ t)).trans (depDone_step _ _ _),
    counted.task⟩
  · constructor
    · exact fun n hn v here above => longest.hit n hn v ((spent.routeData _).trans here) fun m hm more =>
        (spent.routeData _).trans (above m hm more)
    · exact fun none_ => longest.miss fun n hn => (spent.routeData _).trans (none_ n hn)
  · rw [show exec (.routeLookupDone st k) s = execRouteLookupDone st k s from rfl, execRouteLookupDone, act_running hs]
    simp only [hx, wait, energized, looked, if_true]
    rfl

end Sys2Proof.Machine

/-! SUPPORT and the obligation O22. The route commands (R134 to R136): a route for each key. -/
namespace Sys2Proof.Machine

/-! ### The entries of the tables -/

/-- A key without its route has none; every other has the one that it had. -/
theorem find?_filter_ne (l : List (RouteKey × Nat)) (k j : RouteKey) :
    (l.filter fun e => e.1 != k).find? (fun e => e.1 == j) = if j = k then none else l.find? fun e => e.1 == j := by
  rw [List.find?_filter]
  split
  · next same =>
    subst same
    exact List.find?_eq_none.2 fun e _ => by simp
  · next other =>
    congr 1
    funext e
    by_cases here : e.1 = j
    · simp [here, other]
    · simp [here]

theorem routeData_of_deleted {s t : State} {k : RouteKey} (routes : t.routes = s.routes.filter fun e => e.1 != k)
    (j : RouteKey) : routeData t j = if j = k then none else routeData s j := by
  rw [routeData, routes, find?_filter_ne, apply_ite (Option.map Prod.snd), Option.map_none, routeData]

theorem routeData_of_written {s t : State} {k : RouteKey} {v : Nat}
    (routes : t.routes = (s.routes.filter fun e => e.1 != k) ++ [(k, v)]) (j : RouteKey) :
    routeData t j = if j = k then some v else routeData s j := by
  rw [routeData, routes, List.find?_append, find?_filter_ne]
  split
  · next same => simp [same]
  · next other => simp [routeData, Ne.symm other]

/-! ### A command's completion -/

/-- A completion leaves the routes, the stations and the memory. -/
theorem complete_leaves (g ring status : Nat) (result : List Byte) (s : State) :
    (complete g ring status result s).routes = s.routes ∧ (complete g ring status result s).stations = s.stations ∧
      SameMem s (complete g ring status result s) := by
  have sent := sends_complete g ring status result s
  exact ⟨by rw [sent.2], by rw [sent.2], fun a => by rw [sent.mem]⟩

/-- A command that is ready completes after a step that leaves the rings. -/
theorem CmdReady.completes_after {s u : State} {g ring op : Nat} {c : Cmd} (ready : CmdReady s g ring op c)
    (rings : RingsKept s u) (out : ∃ new, u.out = new ++ s.out) (status : Nat) (result : List Byte) :
    CompletedWith g ring c status result s (complete g ring status result u) := by
  obtain ⟨-, start, orphan, enabled, -⟩ := ready
  have done := complete_completes status result ((rings g ring).1.trans (startable_cmd start).1) orphan
    ((rings g c.cplRing).2.trans enabled)
  exact done.of_earlier out rfl rfl

section
variable {s : State} {g ring op : Nat} {c : Cmd} (ready : CmdReady s g ring op c) (f : Cmd → RouteKey → State → State)
include ready

theorem lpmStart_bad (bad : badPrefix c = true) : lpmStart g ring op f s = complete g ring 0x17 [] s := by
  rw [lpmStart, onCmd_runs _ ready.2.1, if_pos bad]

theorem lpmStart_good (good : badPrefix c = false) : lpmStart g ring op f s = f c (lpmKey g c) s := by
  rw [lpmStart, onCmd_runs _ ready.2.1, if_neg (by rw [good]; decide)]

/-- An address with a bit beyond LEN is refused. -/
theorem lpm_badPrefix {i : Instr} (hi : exec i s = .next (lpmStart g ring op f s)) (bad : badPrefix c = true) :
    Answers i s fun t => CompletedWith g ring c 0x17 [] s t ∧ t.routes = s.routes := by
  refine ⟨_, hi, ?_⟩
  rw [lpmStart_bad ready f bad]
  exact ⟨ready.completes _ _, (complete_leaves _ _ _ _ _).1⟩

end

/-! ### LPM_ADD -/

/-- A write of an entry leaves the rings and the memory, and what has gone out before. -/
theorem routeWrite_step (k : RouteKey) (v : Nat) (s : State) : TableStep
    { s with routes := (s.routes.filter fun e => e.1 != k) ++ [(k, v)]
             routeBad := s.routeBad.filter fun e => e.2 != k } (routeWrite k v s) :=
  .foldl (f := fun s st => odWrite 8 st (routeIdx k) s) (fun s st => odWrite_step 8 st (routeIdx k) s) _ _

/-- An entry written, and its command completed. -/
theorem routeWrite_completes {s : State} {g ring op : Nat} {c : Cmd} (ready : CmdReady s g ring op c) (k : RouteKey)
    (v : Nat) : CompletedWith g ring c 0 [] s (completeOk g ring [] (routeWrite k v s)) ∧
      routeData (completeOk g ring [] (routeWrite k v s)) k = some v ∧
      (∀ j, j ≠ k → routeData (completeOk g ring [] (routeWrite k v s)) j = routeData s j) ∧
      SameMem s (completeOk g ring [] (routeWrite k v s)) := by
  have step := routeWrite_step k v s
  have rings : RingsKept s (routeWrite k v s) := step.rings
  have routes := step.routes
  have mem : (routeWrite k v s).mem = s.mem := step.mem
  have out : ∃ new, (routeWrite k v s).out = new ++ s.out := step.out
  generalize routeWrite k v s = w at rings routes mem out
  obtain ⟨kept, -, same⟩ := complete_leaves g ring 0 [] w
  have data := routeData_of_written (kept.trans routes)
  exact ⟨ready.completes_after rings out 0 [], (data k).trans (if_pos rfl), fun j ne => (data j).trans (if_neg ne),
    fun a => (same a).trans (by rw [mem])⟩

section
variable {s : State} {g : Guild} {ring : Fin 1024} {c : Cmd}

theorem lpmAdd_exists (ready : CmdReady s g.val ring.val 0x18 c) (good : badPrefix c = false)
    (present : (routeData s (lpmKey g.val c)).isSome) (keeps : lpmReplace c = false) :
    Answers (.lpmAdd g ring) s fun t => CompletedWith g.val ring.val c 0x15 [] s t ∧ t.routes = s.routes := by
  obtain ⟨v, found⟩ := Option.isSome_iff_exists.1 present
  refine ⟨complete g.val ring.val 0x15 [] s, ?_, ready.completes _ _, (complete_leaves _ _ _ _ _).1⟩
  rw [show exec (.lpmAdd g ring) s = execLpmAdd g ring s from rfl, execLpmAdd, act_running ready.1,
    lpmStart_good ready _ good]
  simp only [found, keeps, Bool.false_eq_true, if_false]

theorem lpmAdd_writes (ready : CmdReady s g.val ring.val 0x18 c) (good : badPrefix c = false)
    (may : lpmReplace c = true ∨ routeData s (lpmKey g.val c) = none)
    (room : (routeData s (lpmKey g.val c)).isSome ∨
      routeCount s (lpmKey g.val c).ipv6 < routeLimit (lpmKey g.val c).ipv6 ∧
        routeGuildCount s g.val (lpmKey g.val c).ipv6 < routeQuota s g.val (lpmKey g.val c).ipv6) :
    exec (.lpmAdd g ring) s = .next
      (completeOk g.val ring.val [] (routeWrite (lpmKey g.val c) (descField c.desc 32 26) s)) := by
  rw [show exec (.lpmAdd g ring) s = execLpmAdd g ring s from rfl, execLpmAdd, act_running ready.1,
    lpmStart_good ready _ good]
  dsimp only
  cases found : routeData s (lpmKey g.val c) with
  | some v =>
    rw [found] at may
    simp only [may.resolve_right nofun, if_true]
  | none =>
    rw [found] at room
    obtain ⟨pool, quota⟩ := room.resolve_left nofun
    dsimp only
    rw [if_neg (Nat.not_le.2 pool), if_neg (Nat.not_le.2 quota)]

/-! ### LPM_DEL -/

theorem lpmDel_deletes (ready : CmdReady s g.val ring.val 0x19 c) (good : badPrefix c = false)
    (present : (routeData s (lpmKey g.val c)).isSome) : Answers (.lpmDel g ring) s fun t =>
      CompletedWith g.val ring.val c 0 [] s t ∧ routeData t (lpmKey g.val c) = none ∧
        (∀ k, k ≠ lpmKey g.val c → routeData t k = routeData s k) ∧ SameMem s t := by
  obtain ⟨v, found⟩ := Option.isSome_iff_exists.1 present
  generalize hu : ({ s with
    routes := s.routes.filter fun e => e.1 != lpmKey g.val c
    routeBad := s.routeBad.filter fun e => e.2 != lpmKey g.val c } : State) = u
  have hi : exec (.lpmDel g ring) s = .next (complete g.val ring.val 0 [] u) := by
    rw [show exec (.lpmDel g ring) s = execLpmDel g ring s from rfl, execLpmDel, act_running ready.1,
      lpmStart_good ready _ good, ← hu]
    simp only [found, completeOk]
  have rings : RingsKept s u := .of_hif (by rw [← hu])
  have out : u.out = s.out := by rw [← hu]
  have mem : u.mem = s.mem := by rw [← hu]
  have routes : u.routes = s.routes.filter fun e => e.1 != lpmKey g.val c := by rw [← hu]
  obtain ⟨kept, -, same⟩ := complete_leaves g.val ring.val 0 [] u
  have data := routeData_of_deleted (kept.trans routes)
  exact ⟨_, hi, ready.completes_after rings ⟨[], out⟩ 0 [], (data _).trans (if_pos rfl),
    fun j ne => (data j).trans (if_neg ne), fun a => (same a).trans (by rw [mem])⟩

/-! ### LPM_READ -/

/-- A station whose replica holds the entry in error returns none. -/
theorem routeRead_bad {st : Nat} {k : RouteKey} (bad : (st, k) ∈ s.routeBad) : routeRead st k s = (none, s) := by
  unfold routeRead
  split
  · rfl
  · rw [if_pos (List.contains_iff_mem.2 bad)]

/-- The first replica that holds the entry returns it. -/
theorem routeReadAny_spent {k : RouteKey} {w : Nat} {l : List Nat} (sound : s.sound) (found : routeData s k = some w)
    (held : ∃ st ∈ l, (st, k) ∉ s.routeBad) : ∃ t, Spent s t ∧ routeReadAny k l s = (some w, t) := by
  induction l with
  | nil =>
    obtain ⟨st, hst, -⟩ := held
    exact absurd hst List.not_mem_nil
  | cons n l ih =>
    rw [routeReadAny]
    by_cases bad : (n, k) ∈ s.routeBad
    · rw [routeRead_bad bad]
      obtain ⟨st, hst, good⟩ := held
      obtain rfl | rest := List.mem_cons.1 hst
      · exact absurd bad good
      · exact ih ⟨st, rest, good⟩
    · obtain ⟨t, spent, read⟩ := routeRead_spent (sound.clean n) bad
      rw [read, found]
      exact ⟨t, spent, rfl⟩

theorem lpmRead_returns {w : Nat} (ready : CmdReady s g.val ring.val 0x1A c) (sound : s.sound)
    (held : ∃ st < 12, (st, lpmKey g.val c) ∉ s.routeBad) (good : badPrefix c = false)
    (found : routeData s (lpmKey g.val c) = some w) : Answers (.lpmRead g ring) s fun t =>
      CompletedWith g.val ring.val c 0 (leBytes 4 w) s t ∧ t.routes = s.routes ∧ t.stations = s.stations ∧
        SameMem s t := by
  obtain ⟨st, below, held⟩ := held
  obtain ⟨p, spent, read⟩ := routeReadAny_spent (l := List.range 12) sound found ⟨st, List.mem_range.2 below, held⟩
  have hi : exec (.lpmRead g ring) s = .next (completeOk g.val ring.val (leBytes 4 w) p) := by
    rw [show exec (.lpmRead g ring) s = execLpmRead g ring s from rfl, execLpmRead, act_running ready.1,
      lpmStart_good ready _ good]
    simp only [read]
  obtain ⟨routes, stations, same⟩ := complete_leaves g.val ring.val 0 (leBytes 4 w) p
  have step := spent.step
  exact ⟨_, hi, ready.completes_after step.rings step.out 0 _, routes.trans spent.routes, stations.trans spent.stations,
    fun a => (same a).trans (step.sameMem a)⟩

end

/-! ### The obligation -/

/-- Settles O22, by the rounds of a lookup, which find the first of the lengths that the filter names, and by what a
written and a deleted entry leave of the others. -/
theorem routesAreLookedUpAndKept : Obligations.RoutesAreLookedUpAndKept := by
  unfold Obligations.RoutesAreLookedUpAndKept
  dsimp only
  refine ⟨?_, fun s g ring c => ⟨?_, ?_, ?_, ?_, ?_⟩⟩
  · intro s st k x v6 dst hs sound good hx l3 wait waiting counted
    obtain ⟨r, t, longest, ht, step, task⟩ := exec_routeLookupDone hs sound good hx l3 wait waiting
    refine ⟨t, ht, step.sameMem, step.routes, _, task, rfl, rfl, ?_, longest.hit, longest.miss⟩
    have last : x.cnt - 1 = 0 ↔ x.cnt = 1 := by omega
    simp only [Task.counted, Task.withRoute, last]
  · exact fun ready good present keeps => lpmAdd_exists ready good present keeps
  · exact fun ready good may room => ⟨_, lpmAdd_writes ready good may room, routeWrite_completes ready _ _⟩
  · exact fun ready good present => lpmDel_deletes ready good present
  · exact fun w ready sound held good found => lpmRead_returns ready sound held good found
  · intro i hi ready bad
    simp only [List.mem_cons, List.not_mem_nil, or_false] at hi
    obtain rfl | rfl | rfl := hi <;> exact lpm_badPrefix ready _ (act_running ready.1 _) bad

end Sys2Proof.Machine
